-- ==== Sys2Proof/Word.lean ====
section
/-! DEFINITION. The word types of the Krytnar K48 and the plain table type `Tab` that State is built from. -/

namespace Sys2Proof

/-- A 64-bit scalar value (R18). -/
abbrev Word := BitVec 64

/-- A 32-bit lane container (R20). -/
abbrev Word32 := BitVec 32

/-- A halfword of an instruction line (R82). -/
abbrev Half := BitVec 16

abbrev Byte := BitVec 8

/-- One bit per lane, lane 0 at bit 0. Bits at or above VLMAX are kept zero (R23, R32). -/
abbrev Mask := BitVec 1024

/-- A sparse table: keys strictly rising, no entry equal to the default it is read with. -/
abbrev Tab (α : Type) := List (Nat × α)

end Sys2Proof
end

