-- ==== Sys2Proof/Syntax.lean ====
section
/-! DEFINITION. The syntax: operand forms, and ONE inductive `Instr` with one for each row of the opcode table:
the instructions of MAJ 0x00 to 0x7C, and after them the events of the table, which are the device's own steps. -/

namespace Sys2Proof

abbrev SReg := Fin 32
abbrev VReg := Fin 64
abbrev MReg := Fin 8
abbrev TReg := Fin 8
abbrev ZReg := Fin 8
abbrev Imm := BitVec 32

/-- Element and scalar types, the codes of R127 and R161; `dflt` is code 0xF, the format in VTYPE.FMT or GSHAPE.FMT. -/
inductive Ty where
  | i8 | i16 | i32 | i64 | f16 | bf16 | f32 | lns6 | u8 | u16 | u32 | u64 | dflt
  deriving DecidableEq, Repr

/-- The formats of VTYPE.FMT (R35). -/
inductive Fmt where
  | int8 | int16 | int32 | int64 | fp16 | bf16 | fp32 | lns6
  deriving DecidableEq, Repr

/-- Gather index policy, VTYPE.OOB (R35). -/
inductive Oob where
  | zero | clamp | fault
  deriving DecidableEq, Repr

/-- LNS6 block length, VTYPE.BLEN (R35). -/
inductive BLen where
  | b16 | b32 | b64
  deriving DecidableEq, Repr

/-- VTYPE (R35): its reserved bits read as zero, so the three fields are the whole register. -/
structure VType where
  oob : Oob
  blen : BLen
  fmt : Fmt
  deriving DecidableEq, Repr

/-- Rounding modes of FRM.RM (R60). -/
inductive RM where
  | rne | rtz | rup | rdn | rmm
  deriving DecidableEq, Repr

/-- The RMO field (R125): FRM, or a fixed mode. -/
inductive Rmo where
  | frm | fixed (m : RM)
  deriving DecidableEq, Repr

/-- Scalar floating formats (R125). -/
inductive FTy where
  | f16 | bf16 | f32
  deriving DecidableEq, Repr

/-- Width of sext and zext (R120). -/
inductive ExtW where
  | b | h | w
  deriving DecidableEq, Repr

/-- Width of a scalar access (R206). -/
inductive AccW where
  | b | h | w | d
  deriving DecidableEq, Repr

/-- Scopes (R206, R294). -/
inductive Scope where
  | strand | crew | core | cluster | device | domain | system
  deriving DecidableEq, Repr

/-- Fence semantics (R224). -/
inductive Sem where
  | acq | rel | ar
  deriving DecidableEq, Repr

/-- Ordering of an amo (R223). -/
inductive AOrd where
  | relaxed | acq | rel | ar
  deriving DecidableEq, Repr

/-- The amo operations of the T2 form (R223); cas is the T4C form. -/
inductive AmoOp where
  | add | and | or | xor | min | max | minu | maxu | swap | fadd
  deriving DecidableEq, Repr

/-- tret modes (R137). -/
inductive TretMode where
  | retry | next | kill
  deriving DecidableEq, Repr

/-- The second operand of an element-wise instruction in a T2 tail (R162): a vector register, or with BS a scalar. -/
inductive VSrc where
  | vec (v : VReg)
  | scal (r : SReg)
  deriving DecidableEq, Repr

/-- MODE of vcvt (R173). -/
inductive CvtMode where
  | round (rm : Rmo)
  | plain
  | sat
  | own
  | gs (r : SReg)
  | gv (v : VReg)
  deriving DecidableEq, Repr

/-- Condition of vcmp (R177). -/
inductive VCc where
  | eq | ne | lt | le | gt | ge | un
  deriving DecidableEq, Repr

/-- Condition of vwait (R225). -/
inductive WCc where
  | eq | ne | ge | lt
  deriving DecidableEq, Repr

/-- Direction of vmovs (R185). -/
inductive MovS where
  | ext (d : SReg) (a : VReg)
  | ins (d : VReg) (a : SReg)
  deriving DecidableEq, Repr

/-- Fold operation of awin and colred (R220, R254). -/
inductive Fold where
  | add | min | max
  deriving DecidableEq, Repr

/-- Grant qualifier of tcopy and tcopyo (R243). -/
inductive Grant where
  | none | a | b
  deriving DecidableEq, Repr

/-- Item of hres (R335). -/
inductive HSel where
  | rlo | rhi | live | run | flags | tol | cap
  deriving DecidableEq, Repr

/-- Register spaces that a write can name: HYP (R409), RAS (chapter 15), platform (chapter 16), the register block of a
virtual function (R419) and the debug function (R471). -/
inductive Space where
  | hyp | ras | platform | vf (v : Nat) | debug
  deriving DecidableEq, Repr

/-- A PRI page response (R406). -/
inductive PriCode where
  | success | invalid | failure
  deriving DecidableEq, Repr

/-- What an uncorrectable error strikes (R427, R428). -/
inductive ErrTarget where
  | memory (key : Nat)
  | vrow (sid reg row : Nat)
  | sreg (sid reg : Nat)
  | trow (sid tile row : Nat)
  | zrow (sid acc row : Nat)
  | frontEnd (sid : Nat)
  | heapEntry (slot task : Nat)
  | other
  deriving DecidableEq, Repr

/-- The record of an error (R431, R432). -/
structure ErrRec where
  addr : Word
  struct : Nat
  group : Nat
  part : Nat
  synd : Nat
  deriving DecidableEq, Repr

/-- A remote access arriving over Tedomlink (R456). -/
inductive RemoteKind where
  | load (n : Nat)
  | store (bytes : List Byte)
  | amo (op : AmoOp) (dbl : Bool) (v : Nat)
  | cas (dbl : Bool) (cmp new : Nat)
  deriving DecidableEq, Repr

/-- How a replay crew ends (R439, R440): with its signature S1, with a fault completion, or abandoned. -/
inductive ReplayEnd where
  | signature (s1 : Word)
  | fault
  | abandoned
  deriving DecidableEq, Repr

/-- A unit whose scrub finishes (R423). -/
inductive ScrubUnit where
  | entry (e : Nat)
  | partition (p : Nat)
  deriving DecidableEq, Repr

/-- An event with its operands: what another agent, an engine or the device itself does next. `sid` is a strand, `crew` a crew,
`part` a partition, by the keys of State. The rows of the opcode table that are events are constructors of `Instr` without
operands; their meanings read the operands from the event at hand. -/
inductive Event where
  | lineFetch
  | trapEntry (code detail : Nat) (addr : Word) (lanes : Mask)
  | vectorGroupIssue (unit : Nat)
  | promotion (sid : Nat)
  | loadReply (sid : Nat)
  | loadReplyAbandon (sid : Nat)
  | regclmGrant (crew : Nat)
  | rowsFreed (crew : Nat)
  | regDeadlockDeclare (crew : Nat)
  | regDeadlockTrap (sid : Nat)
  | strandDrained (sid : Nat)
  | heapWriteBack (slot : Nat)
  | gridComplete (grid : Nat)
  | crewWatchdogExpire (sid : Nat)
  | idleDeadline (sid : Nat)
  | wqryService (grid : Nat)
  | wqryReply (sid : Nat)
  | feAccessPerform (sid : Nat)
  | vwaitLaneMet (sid : Nat)
  | vwaitTimeout (sid : Nat)
  | tcopyGranuleLand (crew : Nat)
  | tldEEngineRelease (sid : Nat)
  | collectiveArm (part group : Nat) (parts : List (Nat × Nat × List Byte))
  | collectiveComplete (part group : Nat)
  | hpopWake (slot : Nat)
  | heapBind (grid : Nat)
  | qwidxWrite (q : Nat) (v : Word)
  | qstatClear (q : Nat) (v : Word)
  | queueEnable (q : Nat)
  | queueDisable (q : Nat)
  | launchRecordRead (q : Nat)
  | gridReady (grid : Nat)
  | dependencePoll (grid : Nat)
  | crewDispatch (part : Nat)
  | yieldThreshold (grid : Nat)
  | priorityPreempt (q : Nat)
  | preemptRequest (crew : Nat)
  | stripWaitExpire (sid : Nat)
  | drainWaitExpire (sid : Nat)
  | stateCapture (crew : Nat)
  | saveEngineWrite (crew : Nat)
  | crewResume (crew : Nat)
  | guardBandStart (part : Nat)
  | quantumEnd (part : Nat)
  | quantumStart (part : Nat)
  | overrunKill (vf : Nat)
  | pageMove (part frame : Nat) (toTier1 : Bool)
  | freezeGo (v : Word)
  | freezePhaseDone
  | freezeBcastReceive (pod : Nat) (gang : Option Nat) (v : Word)
  | freezeRelease
  | invalidate (vf : Nat) (v : Word)
  | s2Invalidate (v : Word)
  | invalidateDone (vf : Option Nat)
  | s2freplyRetry (id : Nat)
  | s2freplyFail (id : Nat)
  | s2FaultTimeout (id : Nat)
  | s2fidxWrite (v : Word)
  | priResponse (vf idx : Nat) (code : PriCode)
  | priTimeout (vf idx : Nat)
  | atsInvalidate (vf base len : Nat)
  | functionLevelReset (vf : Nat)
  | stopInterface (vf : Nat)
  | tdiLock (vf : Nat)
  | tdiError (vf : Nat)
  | partitionEnable (p : Nat) (v : Word)
  | partitionDisable (p : Nat) (v : Word)
  | partitionStop (p : Nat) (v : Word)
  | assignmentWrite (e : Nat) (v : Word)
  | scrubComplete (u : ScrubUnit)
  | memoryZero (v : Word)
  | memoryZeroDone
  | vfEnable (vf : Nat) (v : Word)
  | vfDisable (vf : Nat) (v : Word)
  | vfpriClear (vf : Nat)
  | errorCorrected (bank : Nat) (rec : ErrRec)
  | errorUncorrectable (bank : Nat) (rec : ErrRec) (what : ErrTarget)
  | patrol (key : Nat) (ok : Bool)
  | ebstatClear (bank : Nat)
  | noticeTailWrite (host : Bool) (v : Word)
  | ndropClear
  | assayReplayDispatch (crew core : Nat)
  | assayCompare (crew : Nat) (r : ReplayEnd)
  | ascntClear (n : Fin 3)
  | mapoutGroup (core group : Nat)
  | retireCore (core : Nat)
  | restoreCore (core : Nat)
  | mapoutApply (core : Nat)
  | stwdogWrite
  | stewardWatchdogExpire
  | gangPrepare (grid : Nat)
  | prepared (gtag rank : Nat)
  | commit (gtag : Nat)
  | abort (gtag rank : Nat)
  | gangRefusal (gtag rank reason : Nat)
  | gangPrepareTimeout (gtag : Nat)
  | gangCommitTimeout (gtag : Nat)
  | lost (gtag rank cause : Nat)
  | linkUnreachable (dev : Nat) (members : List (Nat × Nat))
  | gangcmdDiscard
  | gangcmdResume
  | limnerArm
  | limnerFire
  | limnerCycleMatch
  | limnerLinkTrigger
  | pwrlimWrite (v : Word)
  | pshareWrite (p : Nat) (v : Word)
  | powerInterval (demand : List (Nat × Nat))
  | thermalTrip
  | thermalClear
  | flitReceive (port : Nat) (crcOk : Bool)
  | portRetrainTimeout (port : Nat)
  | remoteAccess (dev part off : Nat) (kind : RemoteKind)
  | remoteLoadTimeout (sid : Nat)
  | remoteStoreTimeout (idx : Nat)
  | cxlDeviceFailure (port : Nat)
  | deviceReset
  | stewardStart (core : Nat) (v : Word)
  | spdmRequest (vf : Nat) (block : Nat)
  | debugUnlock (vf : Nat)
  | debugRelock (vf : Nat)
  | dbgctlStop (vf : Nat)
  | dbgctlCont (vf : Nat)
  | dbgdataRead
  | dbgdataWrite (v : Word)
  | registerWrite (sp : Space) (off : Nat) (v : Word)
  | mmaComplete (sid : Nat)
  | storePerformed (core idx : Nat)
  | heapBindComplete (slot : Nat)
  | powerLoss
  | portRetrain (port : Nat)
  deriving DecidableEq, Repr

/-- One constructor per row of the opcode table: the instructions, and after them the events (see `Event`). -/
inductive Instr where
  | nop
  | add (w : Bool) (d a b : SReg)
  | sub (w : Bool) (d a b : SReg)
  | and (w : Bool) (d a b : SReg)
  | or (w : Bool) (d a b : SReg)
  | xor (w : Bool) (d a b : SReg)
  | shl (w : Bool) (d a b : SReg)
  | shr (w : Bool) (d a b : SReg)
  | sra (w : Bool) (d a b : SReg)
  | min (w u : Bool) (d a b : SReg)
  | max (w u : Bool) (d a b : SReg)
  | seq (w : Bool) (d a b : SReg)
  | slt (w : Bool) (d a b : SReg)
  | sltu (w : Bool) (d a b : SReg)
  | sel (d a b c : SReg)
  | lea (n : Fin 8) (d a b : SReg)
  | leaImm (n : Fin 8) (d a b : SReg) (imm : Imm)
  | mul (w : Bool) (d a b : SReg)
  | mulh (w u : Bool) (d a b : SReg)
  | div (w u : Bool) (d a b : SReg)
  | rem (w u : Bool) (d a b : SReg)
  | clz (w : Bool) (d a : SReg)
  | popc (w : Bool) (d a : SReg)
  | sext (x : ExtW) (d a : SReg)
  | zext (x : ExtW) (d a : SReg)
  | addi (w : Bool) (d a : SReg) (imm : Imm)
  | li (hi : Bool) (d a : SReg) (imm : Imm)
  | fadd (t : FTy) (rm : Rmo) (nb : Bool) (d a b : SReg)
  | fmul (t : FTy) (rm : Rmo) (np : Bool) (d a b : SReg)
  | ffma (t : FTy) (rm : Rmo) (np nc : Bool) (d a b c : SReg)
  | fcvt (dt st : Ty) (rm : Rmo) (d a : SReg)
  | br (off : BitVec 15) (hi : Fin 32)
  | beq (d a : SReg) (off : BitVec 15) (hi : Fin 32)
  | bne (d a : SReg) (off : BitVec 15) (hi : Fin 32)
  | blt (d a : SReg) (off : BitVec 15) (hi : Fin 32)
  | bge (d a : SReg) (off : BitVec 15) (hi : Fin 32)
  | bltu (d a : SReg) (off : BitVec 15) (hi : Fin 32)
  | bgeu (d a : SReg) (off : BitVec 15) (hi : Fin 32)
  | call (d : SReg) (off : BitVec 15) (hi : Fin 32)
  | ret (a : SReg)
  | jr (d a : SReg)
  | mfs (d : SReg) (n : Fin 1024)
  | mts (n : Fin 1024) (a : SReg)
  | trap (a : SReg) (code : Fin 256) (detail : BitVec 16)
  | tret (mode : TretMode)
  | brk (n : Fin 16)
  | sysc (n : Fin 2048)
  | yield
  | halt
  | idle (a : SReg)
  | join (b : Fin 16)
  | leave (b : Fin 16)
  | bsync (b : Fin 16)
  | gbar
  | elect (d : SReg) (b : Fin 16)
  | regclm (n : Fin 128)
  | regrel (n : Fin 128)
  | wqry (a : SReg)
  | wqryImm (a : SReg) (imm : Imm)
  | launch (d a b : SReg)
  | launchImm (d a b : SReg) (imm : Imm)
  | vsave (a : SReg)
  | vsaveImm (a : SReg) (imm : Imm)
  | vrestore (a : SReg)
  | vrestoreImm (a : SReg) (imm : Imm)
  | scrub (csp tile reg ll : Bool) (d a : SReg)
  | ld (wd : AccW) (u sp acq : Bool) (sc : Scope) (d a : SReg)
  | ldImm (wd : AccW) (u sp acq : Bool) (sc : Scope) (d a : SReg) (imm : Imm)
  | st (wd : AccW) (sp rel : Bool) (sc : Scope) (a b : SReg)
  | stImm (wd : AccW) (sp rel : Bool) (sc : Scope) (a b : SReg) (imm : Imm)
  | amo (op : AmoOp) (dbl : Bool) (ord : AOrd) (d a b : SReg)
  | amoCas (dbl : Bool) (ord : AOrd) (d a b c : SReg)
  | fence (sem : Sem) (sc : Scope)
  | stwin (w : Fin 16) (d a b : SReg)
  | stflush (w : Fin 16)
  | stinv (discard : Bool) (w : Fin 16)
  | dcfence (a : SReg)
  | dcfenceImm (a : SReg) (imm : Imm)
  | vadd (t : Ty) (sat : Bool) (d a : VReg) (y : VSrc) (m : MReg)
  | vaddImm (t : Ty) (sat : Bool) (d a : VReg) (imm : Imm) (m : MReg)
  | vsub (t : Ty) (sat : Bool) (d a : VReg) (y : VSrc) (m : MReg)
  | vsubImm (t : Ty) (sat : Bool) (d a : VReg) (imm : Imm) (m : MReg)
  | vmul (t : Ty) (d a : VReg) (y : VSrc) (m : MReg)
  | vmulImm (t : Ty) (d a : VReg) (imm : Imm) (m : MReg)
  | vmulh (t : Ty) (d a : VReg) (y : VSrc) (m : MReg)
  | vmulhImm (t : Ty) (d a : VReg) (imm : Imm) (m : MReg)
  | vmin (t : Ty) (d a : VReg) (y : VSrc) (m : MReg)
  | vminImm (t : Ty) (d a : VReg) (imm : Imm) (m : MReg)
  | vmax (t : Ty) (d a : VReg) (y : VSrc) (m : MReg)
  | vmaxImm (t : Ty) (d a : VReg) (imm : Imm) (m : MReg)
  | vand (t : Ty) (d a : VReg) (y : VSrc) (m : MReg)
  | vandImm (t : Ty) (d a : VReg) (imm : Imm) (m : MReg)
  | vor (t : Ty) (d a : VReg) (y : VSrc) (m : MReg)
  | vorImm (t : Ty) (d a : VReg) (imm : Imm) (m : MReg)
  | vxor (t : Ty) (d a : VReg) (y : VSrc) (m : MReg)
  | vxorImm (t : Ty) (d a : VReg) (imm : Imm) (m : MReg)
  | vshl (t : Ty) (d a : VReg) (y : VSrc) (m : MReg)
  | vshlImm (t : Ty) (d a : VReg) (imm : Imm) (m : MReg)
  | vshr (t : Ty) (d a : VReg) (y : VSrc) (m : MReg)
  | vshrImm (t : Ty) (d a : VReg) (imm : Imm) (m : MReg)
  | vsra (t : Ty) (d a : VReg) (y : VSrc) (m : MReg)
  | vsraImm (t : Ty) (d a : VReg) (imm : Imm) (m : MReg)
  | vfadd (t : Ty) (rm : Rmo) (d a : VReg) (y : VSrc) (m : MReg)
  | vfaddImm (t : Ty) (rm : Rmo) (d a : VReg) (imm : Imm) (m : MReg)
  | vfsub (t : Ty) (rm : Rmo) (d a : VReg) (y : VSrc) (m : MReg)
  | vfsubImm (t : Ty) (rm : Rmo) (d a : VReg) (imm : Imm) (m : MReg)
  | vfmul (t : Ty) (rm : Rmo) (np : Bool) (d a : VReg) (y : VSrc) (m : MReg)
  | vfmulImm (t : Ty) (rm : Rmo) (np : Bool) (d a : VReg) (imm : Imm) (m : MReg)
  | vffma (t : Ty) (rm : Rmo) (np nc : Bool) (d a : VReg) (y : VSrc) (m : MReg)
  | vffmaImm (t : Ty) (rm : Rmo) (np nc : Bool) (d a : VReg) (imm : Imm) (m : MReg)
  | vfmin (t : Ty) (rm : Rmo) (d a : VReg) (y : VSrc) (m : MReg)
  | vfminImm (t : Ty) (rm : Rmo) (d a : VReg) (imm : Imm) (m : MReg)
  | vfmax (t : Ty) (rm : Rmo) (d a : VReg) (y : VSrc) (m : MReg)
  | vfmaxImm (t : Ty) (rm : Rmo) (d a : VReg) (imm : Imm) (m : MReg)
  | vfdiv (t : Ty) (rm : Rmo) (d a : VReg) (y : VSrc) (m : MReg)
  | vfdivImm (t : Ty) (rm : Rmo) (d a : VReg) (imm : Imm) (m : MReg)
  | vfsqrt (t : Ty) (rm : Rmo) (d a : VReg) (m : MReg)
  | vfrsq (t : Ty) (rm : Rmo) (d a : VReg) (m : MReg)
  | vfexp2 (t : Ty) (rm : Rmo) (d a : VReg) (m : MReg)
  | vflog2 (t : Ty) (rm : Rmo) (d a : VReg) (m : MReg)
  | vcvt (dt st : Ty) (mode : CvtMode) (d a : VReg) (m : MReg)
  | vlmul (t : Ty) (d a b : VReg) (m : MReg)
  | vlmulGiven (t : Ty) (g : VSrc) (d a b : VReg) (m : MReg)
  | vladd (t : Ty) (d a b : VReg) (m : MReg)
  | vladdGiven (t : Ty) (g : VSrc) (d a b : VReg) (m : MReg)
  | vsetvl (pad : Bool) (d a : SReg)
  | vsetvlType (pad : Bool) (d a : SReg) (vt : VType)
  | vsettype (a : SReg)
  | vsettypeImm (vt : VType)
  | vcmp (cc : VCc) (t : Ty) (z : Bool) (d : MReg) (a : VReg) (y : VSrc) (m : MReg)
  | vcmpImm (cc : VCc) (t : Ty) (z : Bool) (d : MReg) (a : VReg) (imm : Imm) (m : MReg)
  | mand (d a b : MReg)
  | mor (d a b : MReg)
  | mxor (d a b : MReg)
  | mnot (d a : MReg)
  | mpop (d : SReg) (a : MReg) (m : MReg)
  | mfirst (d : SReg) (a : MReg) (m : MReg)
  | vif (neg : Bool) (a : MReg)
  | velse
  | vend
  | vsel (t : Ty) (d a : VReg) (y : VSrc) (m : MReg)
  | vselImm (t : Ty) (d a : VReg) (imm : Imm) (m : MReg)
  | vperm (t : Ty) (d a b : VReg) (m : MReg)
  | vslideup (t : Ty) (d a : VReg) (b : SReg) (m : MReg)
  | vslideupImm (t : Ty) (d a : VReg) (imm : Imm) (m : MReg)
  | vslidedn (t : Ty) (d a : VReg) (b : SReg) (m : MReg)
  | vslidednImm (t : Ty) (d a : VReg) (imm : Imm) (m : MReg)
  | vbcast (t : Ty) (d a : VReg) (b : SReg) (m : MReg)
  | vbcastImm (t : Ty) (d a : VReg) (imm : Imm) (m : MReg)
  | vcompress (t : Ty) (d x a : VReg) (c : SReg) (m : MReg)
  | vexpand (t : Ty) (d a : VReg) (m : MReg)
  | viota (t : Ty) (d : VReg) (a : MReg) (m : MReg)
  | vmov (t : Ty) (d : VReg) (y : VSrc) (m : MReg)
  | vmovImm (t : Ty) (d : VReg) (imm : Imm) (m : MReg)
  | vmovs (t : Ty) (op : MovS) (b : SReg)
  | vmovsImm (t : Ty) (op : MovS) (imm : Imm)
  | vid (t : Ty) (d : VReg) (m : MReg)
  | vredsum (t : Ty) (d : SReg) (a : VReg) (b : SReg) (m : MReg)
  | vredmax (t : Ty) (d : SReg) (a : VReg) (b : SReg) (m : MReg)
  | vredmin (t : Ty) (d : SReg) (a : VReg) (b : SReg) (m : MReg)
  | vany (d : SReg) (a : MReg) (m : MReg)
  | vall (d : SReg) (a : MReg) (m : MReg)
  | vld (t : Ty) (sp : Bool) (d : VReg) (a b : SReg) (m : MReg)
  | vldImm (t : Ty) (sp : Bool) (d : VReg) (a b : SReg) (imm : Imm) (m : MReg)
  | vst (t : Ty) (sp : Bool) (d : VReg) (a b : SReg) (m : MReg)
  | vstImm (t : Ty) (sp : Bool) (d : VReg) (a b : SReg) (imm : Imm) (m : MReg)
  | vlds (t : Ty) (sp : Bool) (d : VReg) (a b : SReg) (m : MReg)
  | vldsImm (t : Ty) (sp : Bool) (d : VReg) (a b : SReg) (imm : Imm) (m : MReg)
  | vsts (t : Ty) (sp : Bool) (d : VReg) (a b : SReg) (m : MReg)
  | vstsImm (t : Ty) (sp : Bool) (d : VReg) (a b : SReg) (imm : Imm) (m : MReg)
  | vldseg (nf : Fin 8) (t : Ty) (sp : Bool) (d : VReg) (a : SReg) (m : MReg)
  | vldsegImm (nf : Fin 8) (t : Ty) (sp : Bool) (d : VReg) (a : SReg) (imm : Imm) (m : MReg)
  | vstseg (nf : Fin 8) (t : Ty) (sp : Bool) (d : VReg) (a : SReg) (m : MReg)
  | vstsegImm (nf : Fin 8) (t : Ty) (sp : Bool) (d : VReg) (a : SReg) (imm : Imm) (m : MReg)
  | vgather (t : Ty) (sp : Bool) (d : VReg) (a : SReg) (b : VReg) (m : MReg)
  | vgatherBounded (t : Ty) (sp : Bool) (d : VReg) (a : SReg) (b : VReg) (c : SReg) (m : MReg)
  | vscatter (t : Ty) (sp : Bool) (d : VReg) (a : SReg) (b : VReg) (m : MReg)
  | vscatterBounded (t : Ty) (sp : Bool) (d : VReg) (a : SReg) (b : VReg) (c : SReg) (m : MReg)
  | vgatherL (t : Ty) (d : VReg) (a : SReg) (b : VReg) (m : MReg)
  | vgatherLBounded (t : Ty) (d : VReg) (a : SReg) (b : VReg) (c : SReg) (m : MReg)
  | vscatterC (t : Ty) (md : MReg) (d : VReg) (a : SReg) (b : VReg) (m : MReg)
  | vscatterCBounded (t : Ty) (md : MReg) (d : VReg) (a : SReg) (b : VReg) (c : SReg) (m : MReg)
  | vldFe (t : Ty) (take : Bool) (d : VReg) (a : SReg) (m : MReg)
  | vldFeImm (t : Ty) (take : Bool) (d : VReg) (a : SReg) (imm : Imm) (m : MReg)
  | vstFe (t : Ty) (d : VReg) (a : SReg) (m : MReg)
  | vstFeImm (t : Ty) (d : VReg) (a : SReg) (imm : Imm) (m : MReg)
  | cvld (t : Ty) (d : VReg) (a b : SReg) (m : MReg)
  | cvldImm (t : Ty) (d : VReg) (a b : SReg) (imm : Imm) (m : MReg)
  | lldx (t : Ty) (d a : VReg) (m : MReg)
  | lldxImm (t : Ty) (d a : VReg) (imm : Imm) (m : MReg)
  | lstx (t : Ty) (d a : VReg) (m : MReg)
  | lstxImm (t : Ty) (d a : VReg) (imm : Imm) (m : MReg)
  | spclr (zero : Bool) (a b : SReg)
  | spclrImm (zero : Bool) (a b : SReg) (imm : Imm)
  | awin (t : Ty) (op : Fold) (a b : SReg) (imm : Imm)
  | aupd (a b : VReg) (m : MReg)
  | amerge
  | vwait (cc : WCc) (t : Ty) (sp : Bool) (tmo : BitVec 26) (d : MReg) (a : SReg) (b c : VReg) (m : MReg)
  | settile (t : Ty) (d a b c : SReg)
  | tld (t : Ty) (sp role : Bool) (d : TReg) (a b : SReg)
  | tldLns6 (t : Ty) (sp role : Bool) (d : TReg) (a b c : SReg) (stride : Half)
  | tldE (t : Ty) (role : Bool) (sb : Fin 16) (d : TReg) (a b : SReg)
  | tldELns6 (t : Ty) (role : Bool) (sb : Fin 16) (d : TReg) (a b c : SReg) (stride : Half)
  | tst (t : Ty) (sp : Bool) (d : TReg) (a b : SReg)
  | tstLns6 (t : Ty) (sp : Bool) (d : TReg) (a b c : SReg) (stride : Half)
  | tldg (t : Ty) (role : Bool) (d : TReg) (a b : SReg) (c : VReg) (m : MReg)
  | mmaO (t : Ty) (ua ub z : Bool) (d : ZReg) (a b : TReg)
  | mmaR (t : Ty) (ua ub z : Bool) (d : ZReg) (a b : TReg)
  | zld (t : Ty) (sp : Bool) (d : ZReg) (a b : SReg)
  | zldImm (t : Ty) (sp : Bool) (d : ZReg) (a b : SReg) (imm : Imm)
  | zst (t : Ty) (sp : Bool) (rm : Rmo) (d : ZReg) (a b : SReg)
  | zstImm (t : Ty) (sp : Bool) (rm : Rmo) (d : ZReg) (a b : SReg) (imm : Imm)
  | zclr (f : Bool) (d : ZReg)
  | tcopy (gr : Grant) (bv : Bool) (sb : Fin 16) (d a b c : SReg)
  | tcopyo (gr : Grant) (d a b c : SReg)
  | tdfence (a : SReg)
  | sbinit (b : Fin 16) (a : SReg)
  | sbexp (b : Fin 16) (a : SReg)
  | sbwait (free : Bool) (b : Fin 16) (d a : SReg)
  | sbrel (b : Fin 16)
  | colred (t : Ty) (op : Fold) (bv : Bool) (sb : Fin 16) (len : Fin 512) (d a c : SReg)
  | colbcast (bv : Bool) (sb : Fin 16) (len : Fin 512) (root : Fin 256) (d a c : SReg)
  | colwait
  | hpop (nb : Bool) (h : Fin 4) (d c : SReg)
  | gadd (rel : Bool) (h : Fin 4) (d a b : SReg)
  | gset (rel : Bool) (h : Fin 4) (d a b : SReg)
  | hgrow (h : Fin 4) (d a : SReg)
  | hdone (rel : Bool) (h : Fin 4) (a : SReg)
  | hres (sel : HSel) (h : Fin 4) (d : SReg)
  -- The events of the table, from here on.
  | lineFetch
  | trapEntry
  | vectorGroupIssue
  | promotion
  | loadReply
  | loadReplyAbandon
  | regclmGrant
  | rowsFreed
  | regDeadlockDeclare
  | regDeadlockTrap
  | strandDrained
  | heapWriteBack
  | gridComplete
  | crewWatchdogExpire
  | idleDeadline
  | wqryService
  | wqryReply
  | feAccessPerform
  | vwaitLaneMet
  | vwaitTimeout
  | tcopyGranuleLand
  | tldEEngineRelease
  | collectiveArm
  | collectiveComplete
  | hpopWake
  | heapBind
  | qwidxWrite
  | qstatClear
  | queueEnable
  | queueDisable
  | launchRecordRead
  | gridReady
  | dependencePoll
  | crewDispatch
  | yieldThreshold
  | priorityPreempt
  | preemptRequest
  | stripWaitExpire
  | drainWaitExpire
  | stateCapture
  | saveEngineWrite
  | crewResume
  | guardBandStart
  | quantumEnd
  | quantumStart
  | overrunKill
  | pageMove
  | freezeGo
  | freezePhaseDone
  | freezeBcastReceive
  | freezeRelease
  | invalidate
  | s2Invalidate
  | invalidateDone
  | s2freplyRetry
  | s2freplyFail
  | s2FaultTimeout
  | s2fidxWrite
  | priResponse
  | priTimeout
  | atsInvalidate
  | functionLevelReset
  | stopInterface
  | tdiLock
  | tdiError
  | partitionEnable
  | partitionDisable
  | partitionStop
  | assignmentWrite
  | scrubComplete
  | memoryZero
  | memoryZeroDone
  | vfEnable
  | vfDisable
  | vfpriClear
  | errorCorrected
  | errorUncorrectable
  | patrol
  | ebstatClear
  | noticeTailWrite
  | ndropClear
  | assayReplayDispatch
  | assayCompare
  | ascntClear
  | mapoutGroup
  | retireCore
  | restoreCore
  | mapoutApply
  | stwdogWrite
  | stewardWatchdogExpire
  | gangPrepare
  | prepared
  | commit
  | abort
  | gangRefusal
  | gangPrepareTimeout
  | gangCommitTimeout
  | lost
  | linkUnreachable
  | gangcmdDiscard
  | gangcmdResume
  | limnerArm
  | limnerFire
  | limnerCycleMatch
  | limnerLinkTrigger
  | pwrlimWrite
  | pshareWrite
  | powerInterval
  | thermalTrip
  | thermalClear
  | flitReceive
  | portRetrainTimeout
  | remoteAccess
  | remoteLoadTimeout
  | remoteStoreTimeout
  | cxlDeviceFailure
  | deviceReset
  | stewardStart
  | spdmRequest
  | debugUnlock
  | debugRelock
  | dbgctlStop
  | dbgctlCont
  | dbgdataRead
  | dbgdataWrite
  | registerWrite
  | mmaComplete
  | storePerformed
  | heapBindComplete
  | powerLoss
  | portRetrain
  deriving DecidableEq, Repr

/-- The row of an event. -/
def Event.row : Event → Instr
  | .lineFetch => .lineFetch
  | .trapEntry _ _ _ _ => .trapEntry
  | .vectorGroupIssue _ => .vectorGroupIssue
  | .promotion _ => .promotion
  | .loadReply _ => .loadReply
  | .loadReplyAbandon _ => .loadReplyAbandon
  | .regclmGrant _ => .regclmGrant
  | .rowsFreed _ => .rowsFreed
  | .regDeadlockDeclare _ => .regDeadlockDeclare
  | .regDeadlockTrap _ => .regDeadlockTrap
  | .strandDrained _ => .strandDrained
  | .heapWriteBack _ => .heapWriteBack
  | .gridComplete _ => .gridComplete
  | .crewWatchdogExpire _ => .crewWatchdogExpire
  | .idleDeadline _ => .idleDeadline
  | .wqryService _ => .wqryService
  | .wqryReply _ => .wqryReply
  | .feAccessPerform _ => .feAccessPerform
  | .vwaitLaneMet _ => .vwaitLaneMet
  | .vwaitTimeout _ => .vwaitTimeout
  | .tcopyGranuleLand _ => .tcopyGranuleLand
  | .tldEEngineRelease _ => .tldEEngineRelease
  | .collectiveArm _ _ _ => .collectiveArm
  | .collectiveComplete _ _ => .collectiveComplete
  | .hpopWake _ => .hpopWake
  | .heapBind _ => .heapBind
  | .qwidxWrite _ _ => .qwidxWrite
  | .qstatClear _ _ => .qstatClear
  | .queueEnable _ => .queueEnable
  | .queueDisable _ => .queueDisable
  | .launchRecordRead _ => .launchRecordRead
  | .gridReady _ => .gridReady
  | .dependencePoll _ => .dependencePoll
  | .crewDispatch _ => .crewDispatch
  | .yieldThreshold _ => .yieldThreshold
  | .priorityPreempt _ => .priorityPreempt
  | .preemptRequest _ => .preemptRequest
  | .stripWaitExpire _ => .stripWaitExpire
  | .drainWaitExpire _ => .drainWaitExpire
  | .stateCapture _ => .stateCapture
  | .saveEngineWrite _ => .saveEngineWrite
  | .crewResume _ => .crewResume
  | .guardBandStart _ => .guardBandStart
  | .quantumEnd _ => .quantumEnd
  | .quantumStart _ => .quantumStart
  | .overrunKill _ => .overrunKill
  | .pageMove _ _ _ => .pageMove
  | .freezeGo _ => .freezeGo
  | .freezePhaseDone => .freezePhaseDone
  | .freezeBcastReceive _ _ _ => .freezeBcastReceive
  | .freezeRelease => .freezeRelease
  | .invalidate _ _ => .invalidate
  | .s2Invalidate _ => .s2Invalidate
  | .invalidateDone _ => .invalidateDone
  | .s2freplyRetry _ => .s2freplyRetry
  | .s2freplyFail _ => .s2freplyFail
  | .s2FaultTimeout _ => .s2FaultTimeout
  | .s2fidxWrite _ => .s2fidxWrite
  | .priResponse _ _ _ => .priResponse
  | .priTimeout _ _ => .priTimeout
  | .atsInvalidate _ _ _ => .atsInvalidate
  | .functionLevelReset _ => .functionLevelReset
  | .stopInterface _ => .stopInterface
  | .tdiLock _ => .tdiLock
  | .tdiError _ => .tdiError
  | .partitionEnable _ _ => .partitionEnable
  | .partitionDisable _ _ => .partitionDisable
  | .partitionStop _ _ => .partitionStop
  | .assignmentWrite _ _ => .assignmentWrite
  | .scrubComplete _ => .scrubComplete
  | .memoryZero _ => .memoryZero
  | .memoryZeroDone => .memoryZeroDone
  | .vfEnable _ _ => .vfEnable
  | .vfDisable _ _ => .vfDisable
  | .vfpriClear _ => .vfpriClear
  | .errorCorrected _ _ => .errorCorrected
  | .errorUncorrectable _ _ _ => .errorUncorrectable
  | .patrol _ _ => .patrol
  | .ebstatClear _ => .ebstatClear
  | .noticeTailWrite _ _ => .noticeTailWrite
  | .ndropClear => .ndropClear
  | .assayReplayDispatch _ _ => .assayReplayDispatch
  | .assayCompare _ _ => .assayCompare
  | .ascntClear _ => .ascntClear
  | .mapoutGroup _ _ => .mapoutGroup
  | .retireCore _ => .retireCore
  | .restoreCore _ => .restoreCore
  | .mapoutApply _ => .mapoutApply
  | .stwdogWrite => .stwdogWrite
  | .stewardWatchdogExpire => .stewardWatchdogExpire
  | .gangPrepare _ => .gangPrepare
  | .prepared _ _ => .prepared
  | .commit _ => .commit
  | .abort _ _ => .abort
  | .gangRefusal _ _ _ => .gangRefusal
  | .gangPrepareTimeout _ => .gangPrepareTimeout
  | .gangCommitTimeout _ => .gangCommitTimeout
  | .lost _ _ _ => .lost
  | .linkUnreachable _ _ => .linkUnreachable
  | .gangcmdDiscard => .gangcmdDiscard
  | .gangcmdResume => .gangcmdResume
  | .limnerArm => .limnerArm
  | .limnerFire => .limnerFire
  | .limnerCycleMatch => .limnerCycleMatch
  | .limnerLinkTrigger => .limnerLinkTrigger
  | .pwrlimWrite _ => .pwrlimWrite
  | .pshareWrite _ _ => .pshareWrite
  | .powerInterval _ => .powerInterval
  | .thermalTrip => .thermalTrip
  | .thermalClear => .thermalClear
  | .flitReceive _ _ => .flitReceive
  | .portRetrainTimeout _ => .portRetrainTimeout
  | .remoteAccess _ _ _ _ => .remoteAccess
  | .remoteLoadTimeout _ => .remoteLoadTimeout
  | .remoteStoreTimeout _ => .remoteStoreTimeout
  | .cxlDeviceFailure _ => .cxlDeviceFailure
  | .deviceReset => .deviceReset
  | .stewardStart _ _ => .stewardStart
  | .spdmRequest _ _ => .spdmRequest
  | .debugUnlock _ => .debugUnlock
  | .debugRelock _ => .debugRelock
  | .dbgctlStop _ => .dbgctlStop
  | .dbgctlCont _ => .dbgctlCont
  | .dbgdataRead => .dbgdataRead
  | .dbgdataWrite _ => .dbgdataWrite
  | .registerWrite _ _ _ => .registerWrite
  | .mmaComplete _ => .mmaComplete
  | .storePerformed _ _ => .storePerformed
  | .heapBindComplete _ => .heapBindComplete
  | .powerLoss => .powerLoss
  | .portRetrain _ => .portRetrain

end Sys2Proof
end

