-- ==== Sys2Proof/Machine/Fields.lean ====
section
/-! DEFINITION. Bit fields, and the field map of VTYPE (R35), which the decoder and the system registers share. -/

namespace Sys2Proof.Machine
open Sys2Proof

/-- Bits [hi:lo] of a number. -/
def bits (x hi lo : Nat) : Nat := x / 2 ^ lo % 2 ^ (hi + 1 - lo)

def vtypeFmtCode : Fmt → Nat
  | .int8 => 0 | .int16 => 1 | .int32 => 2 | .int64 => 3 | .fp16 => 4 | .bf16 => 5 | .fp32 => 6 | .lns6 => 7

def fmtOf : Nat → Option Fmt
  | 0 => some .int8
  | 1 => some .int16
  | 2 => some .int32
  | 3 => some .int64
  | 4 => some .fp16
  | 5 => some .bf16
  | 6 => some .fp32
  | 7 => some .lns6
  | _ => none

def oobCode : Oob → Nat
  | .zero => 0 | .clamp => 1 | .fault => 2

def oobOf : Nat → Option Oob
  | 0 => some .zero
  | 1 => some .clamp
  | 2 => some .fault
  | _ => none

def blenCode : BLen → Nat
  | .b16 => 0 | .b32 => 1 | .b64 => 2

def blenOf : Nat → Option BLen
  | 0 => some .b16
  | 1 => some .b32
  | 2 => some .b64
  | _ => none

/-- VTYPE as a word (R35). -/
def vtypeCode (v : VType) : Nat := oobCode v.oob * 2 ^ 12 + blenCode v.blen * 2 ^ 10 + vtypeFmtCode v.fmt

/-- VTYPE of a word, none for a reserved encoding; reserved bits are ignored (R32). -/
def vtypeOf (x : Nat) : Option VType :=
  match oobOf (bits x 13 12), blenOf (bits x 11 10), fmtOf (bits x 3 0) with
  | some o, some b, some f => some ⟨o, b, f⟩
  | _, _, _ => none

end Sys2Proof.Machine
end

