-- ==== Sys2Proof/WellFormed.lean ====
section
/-! DEFINITION. Well-formedness: what an instruction that some encoding names satisfies, from the fields that each entry of the
manual accepts (R115, R160, R196, R228, R329). What depends on the state (the format in VTYPE or GSHAPE, the declarations of
the strand) is checked by the meanings. Events have no encoding and are not well-formed instructions. -/

namespace Sys2Proof

/-- Types that an instruction's T field accepts (R127, R161). -/
def Ty.given (t : Ty) : Bool := t ≠ .dflt

/-- Explicit integer types. -/
def Ty.isInt (t : Ty) : Bool := [.i8, .i16, .i32, .i64, .u8, .u16, .u32, .u64].contains t

/-- Integer instructions (R170). -/
def Ty.okInt (t : Ty) : Bool := t.isInt || t = .dflt

/-- Floating instructions (R171). -/
def Ty.okFp (t : Ty) : Bool := [.f16, .bf16, .f32, .dflt].contains t

/-- `vlmul` and `vladd` (R175). -/
def Ty.okLns (t : Ty) : Bool := [.lns6, .dflt].contains t

/-- `fcvt` (R127). -/
def Ty.okScalar (t : Ty) : Bool := t ≠ .lns6 && t ≠ .dflt

/-- `awin` (R220). -/
def Ty.okAwin (t : Ty) : Bool := [.i32, .u32, .i64, .u64, .f32].contains t

/-- `vwait` (R225). -/
def Ty.okWait (t : Ty) : Bool := [.i32, .u32, .i64, .u64].contains t

/-- Formats of tiles (R229, R230). -/
def Ty.okTile (t : Ty) : Bool := [.i8, .f16, .bf16, .f32, .lns6].contains t

def Ty.okTileD (t : Ty) : Bool := t.okTile || t = .dflt

/-- The plain forms of the tile instructions (R228). -/
def Ty.okPlain (t : Ty) : Bool := t.okTileD && t ≠ .lns6

/-- `zld` (R238) and `zst` (R239). -/
def Ty.okZld (t : Ty) : Bool := [.i32, .f32].contains t
def Ty.okZst (t : Ty) : Bool := [.i32, .f32, .f16, .bf16].contains t

/-- `colred` (R254). -/
def Ty.okCol (t : Ty) : Bool := [.i32, .u32, .i64, .f32].contains t

/-- Numbers of system registers (R31). -/
def sysNumber (n : Nat) : Bool :=
  n ≤ 0x17 || (0x20 ≤ n && n ≤ 0x24) || (0x40 ≤ n && n ≤ 0x4F) || (0x100 ≤ n && n ≤ 0x105) || (0x140 ≤ n && n ≤ 0x14F)

/-- Codes that `trap` may raise (R138): those of R46 except POISON and VOWN. -/
def trapCode (n : Nat) : Bool := 1 ≤ n && n ≤ 0x1B && n ≠ 0x0B && n ≠ 0x15

/-- MODE of `vcvt` against its types (R173). -/
def CvtMode.fits (dt st : Ty) : CvtMode → Bool
  | .own => dt = .lns6
  | .gs _ => dt = .lns6
  | .gv _ => dt = .lns6
  | .plain => dt.isInt && st.isInt
  | .sat => dt.isInt && st.isInt
  | .round _ => dt ≠ .lns6 && !(dt.isInt && st.isInt)

/-- A plain access names no scope (R206). -/
def scopeFits (ord : Bool) (sc : Scope) : Bool := ord || sc = .strand

/-- A scale or bias register of the unit-stride vector accesses is given in LNS6 alone (R200, R207). -/
def biasFits (t : Ty) (b : SReg) : Bool := t = .lns6 || t = .dflt || b.val = 0

/-- A barrier is named only with BV (R243, R254). -/
def barFits (bv : Bool) (sb : Fin 16) : Bool := bv || sb.val = 0

/-- LEN16 (R254). -/
def lenFits (len : Fin 512) : Bool := 1 ≤ len.val && len.val ≤ 256

/-- Unsigned operands are those of INT8 (R235). -/
def uFits (t : Ty) (ua ub : Bool) : Bool := !(ua || ub) || t = .i8 || t = .dflt

def Instr.wellFormed : Instr → Bool
  | .nop => true
  | .add .. => true
  | .sub .. => true
  | .and .. => true
  | .or .. => true
  | .xor .. => true
  | .shl .. => true
  | .shr .. => true
  | .sra .. => true
  | .min .. => true
  | .max .. => true
  | .seq .. => true
  | .slt .. => true
  | .sltu .. => true
  | .sel .. => true
  | .lea .. => true
  | .leaImm .. => true
  | .mul .. => true
  | .mulh .. => true
  | .div .. => true
  | .rem .. => true
  | .clz .. => true
  | .popc .. => true
  | .sext .. => true
  | .zext .. => true
  | .addi .. => true
  | .li hi _ a _ => hi || a.val = 0
  | .fadd .. => true
  | .fmul .. => true
  | .ffma .. => true
  | .fcvt dt src _ _ _ => dt.okScalar && src.okScalar && !(dt.isInt && src.isInt)
  | .br .. => true
  | .beq .. => true
  | .bne .. => true
  | .blt .. => true
  | .bge .. => true
  | .bltu .. => true
  | .bgeu .. => true
  | .call .. => true
  | .ret .. => true
  | .jr .. => true
  | .mfs _ n => sysNumber n
  | .mts n _ => sysNumber n
  | .trap _ c _ => trapCode c
  | .tret .. => true
  | .brk .. => true
  | .sysc .. => true
  | .yield => true
  | .halt => true
  | .idle .. => true
  | .join .. => true
  | .leave .. => true
  | .bsync .. => true
  | .gbar => true
  | .elect .. => true
  | .regclm n => n.val ≤ 64
  | .regrel n => n.val ≤ 64
  | .wqry .. => true
  | .wqryImm .. => true
  | .launch .. => true
  | .launchImm .. => true
  | .vsave .. => true
  | .vsaveImm .. => true
  | .vrestore .. => true
  | .vrestoreImm .. => true
  | .scrub c t r l _ _ => c || t || r || l
  | .ld _ _ _ acq sc _ _ => scopeFits acq sc
  | .ldImm _ _ _ acq sc _ _ _ => scopeFits acq sc
  | .st _ _ rel sc _ _ => scopeFits rel sc
  | .stImm _ _ rel sc _ _ _ => scopeFits rel sc
  | .amo op dbl _ _ _ _ => op ≠ .fadd || !dbl
  | .amoCas .. => true
  | .fence .. => true
  | .stwin .. => true
  | .stflush .. => true
  | .stinv .. => true
  | .dcfence .. => true
  | .dcfenceImm .. => true
  | .vadd t .. => t.okInt
  | .vaddImm t .. => t.okInt
  | .vsub t .. => t.okInt
  | .vsubImm t .. => t.okInt
  | .vmul t .. => t.okInt
  | .vmulImm t .. => t.okInt
  | .vmulh t .. => t.okInt
  | .vmulhImm t .. => t.okInt
  | .vmin t .. => t.okInt
  | .vminImm t .. => t.okInt
  | .vmax t .. => t.okInt
  | .vmaxImm t .. => t.okInt
  | .vand t .. => t.okInt
  | .vandImm t .. => t.okInt
  | .vor t .. => t.okInt
  | .vorImm t .. => t.okInt
  | .vxor t .. => t.okInt
  | .vxorImm t .. => t.okInt
  | .vshl t .. => t.okInt
  | .vshlImm t .. => t.okInt
  | .vshr t .. => t.okInt
  | .vshrImm t .. => t.okInt
  | .vsra t .. => t.okInt
  | .vsraImm t .. => t.okInt
  | .vfadd t .. => t.okFp
  | .vfaddImm t .. => t.okFp
  | .vfsub t .. => t.okFp
  | .vfsubImm t .. => t.okFp
  | .vfmul t .. => t.okFp
  | .vfmulImm t .. => t.okFp
  | .vffma t .. => t.okFp
  | .vffmaImm t .. => t.okFp
  | .vfmin t .. => t.okFp
  | .vfminImm t .. => t.okFp
  | .vfmax t .. => t.okFp
  | .vfmaxImm t .. => t.okFp
  | .vfdiv t .. => t.okFp
  | .vfdivImm t .. => t.okFp
  | .vfsqrt t .. => t.okFp
  | .vfrsq t .. => t.okFp
  | .vfexp2 t .. => t.okFp
  | .vflog2 t .. => t.okFp
  | .vcvt dt src mode _ _ _ => dt.given && src.given && mode.fits dt src
  | .vlmul t .. => t.okLns
  | .vlmulGiven t .. => t.okLns
  | .vladd t .. => t.okLns
  | .vladdGiven t .. => t.okLns
  | .vsetvl .. => true
  | .vsetvlType .. => true
  | .vsettype .. => true
  | .vsettypeImm .. => true
  | .vcmp .. => true
  | .vcmpImm .. => true
  | .mand .. => true
  | .mor .. => true
  | .mxor .. => true
  | .mnot .. => true
  | .mpop .. => true
  | .mfirst .. => true
  | .vif .. => true
  | .velse => true
  | .vend => true
  | .vsel .. => true
  | .vselImm .. => true
  | .vperm .. => true
  | .vslideup .. => true
  | .vslideupImm .. => true
  | .vslidedn .. => true
  | .vslidednImm .. => true
  | .vbcast .. => true
  | .vbcastImm .. => true
  | .vcompress _ d x _ _ _ => d ≠ x
  | .vexpand .. => true
  | .viota t .. => t.okInt
  | .vmov .. => true
  | .vmovImm .. => true
  | .vmovs .. => true
  | .vmovsImm .. => true
  | .vid t .. => t.okInt
  | .vredsum .. => true
  | .vredmax .. => true
  | .vredmin .. => true
  | .vany .. => true
  | .vall .. => true
  | .vld t _ _ _ b _ => biasFits t b
  | .vldImm t _ _ _ b _ _ => biasFits t b
  | .vst t _ _ _ b _ => biasFits t b
  | .vstImm t _ _ _ b _ _ => biasFits t b
  | .vlds .. => true
  | .vldsImm .. => true
  | .vsts .. => true
  | .vstsImm .. => true
  | .vldseg nf .. => nf.val ≠ 0
  | .vldsegImm nf .. => nf.val ≠ 0
  | .vstseg nf .. => nf.val ≠ 0
  | .vstsegImm nf .. => nf.val ≠ 0
  | .vgather .. => true
  | .vgatherBounded .. => true
  | .vscatter .. => true
  | .vscatterBounded .. => true
  | .vgatherL .. => true
  | .vgatherLBounded .. => true
  | .vscatterC .. => true
  | .vscatterCBounded .. => true
  | .vldFe .. => true
  | .vldFeImm .. => true
  | .vstFe .. => true
  | .vstFeImm .. => true
  | .cvld t _ _ b _ => biasFits t b
  | .cvldImm t _ _ b _ _ => biasFits t b
  | .lldx .. => true
  | .lldxImm .. => true
  | .lstx .. => true
  | .lstxImm .. => true
  | .spclr .. => true
  | .spclrImm .. => true
  | .awin t _ _ _ _ => t.okAwin
  | .aupd .. => true
  | .amerge => true
  | .vwait _ t .. => t.okWait
  | .settile t .. => t.okTile
  | .tld t .. => t.okPlain
  | .tldLns6 t .. => t.okLns
  | .tldE t .. => t.okPlain
  | .tldELns6 t .. => t.okLns
  | .tst t .. => t.okPlain
  | .tstLns6 t .. => t.okLns
  | .tldg t .. => t.okPlain
  | .mmaO t ua ub .. => t.okTileD && uFits t ua ub
  | .mmaR t ua ub .. => t.okTileD && uFits t ua ub
  | .zld t .. => t.okZld
  | .zldImm t .. => t.okZld
  | .zst t _ rm .. => t.okZst && (rm = .frm || !t.okZld)
  | .zstImm t _ rm .. => t.okZst && (rm = .frm || !t.okZld)
  | .zclr .. => true
  | .tcopy _ bv sb .. => barFits bv sb
  | .tcopyo .. => true
  | .tdfence .. => true
  | .sbinit .. => true
  | .sbexp .. => true
  | .sbwait .. => true
  | .sbrel .. => true
  | .colred t _ bv sb len .. => t.okCol && barFits bv sb && lenFits len
  | .colbcast bv sb len .. => barFits bv sb && lenFits len
  | .colwait => true
  | .hpop .. => true
  | .gadd .. => true
  | .gset .. => true
  | .hgrow .. => true
  | .hdone .. => true
  | .hres .. => true
  | .lineFetch => false
  | .trapEntry => false
  | .vectorGroupIssue => false
  | .promotion => false
  | .loadReply => false
  | .loadReplyAbandon => false
  | .regclmGrant => false
  | .rowsFreed => false
  | .regDeadlockDeclare => false
  | .regDeadlockTrap => false
  | .strandDrained => false
  | .heapWriteBack => false
  | .gridComplete => false
  | .crewWatchdogExpire => false
  | .idleDeadline => false
  | .wqryService => false
  | .wqryReply => false
  | .feAccessPerform => false
  | .vwaitLaneMet => false
  | .vwaitTimeout => false
  | .tcopyGranuleLand => false
  | .tldEEngineRelease => false
  | .collectiveArm => false
  | .collectiveComplete => false
  | .hpopWake => false
  | .heapBind => false
  | .qwidxWrite => false
  | .qstatClear => false
  | .queueEnable => false
  | .queueDisable => false
  | .launchRecordRead => false
  | .gridReady => false
  | .dependencePoll => false
  | .crewDispatch => false
  | .yieldThreshold => false
  | .priorityPreempt => false
  | .preemptRequest => false
  | .stripWaitExpire => false
  | .drainWaitExpire => false
  | .stateCapture => false
  | .saveEngineWrite => false
  | .crewResume => false
  | .guardBandStart => false
  | .quantumEnd => false
  | .quantumStart => false
  | .overrunKill => false
  | .pageMove => false
  | .freezeGo => false
  | .freezePhaseDone => false
  | .freezeBcastReceive => false
  | .freezeRelease => false
  | .invalidate => false
  | .s2Invalidate => false
  | .invalidateDone => false
  | .s2freplyRetry => false
  | .s2freplyFail => false
  | .s2FaultTimeout => false
  | .s2fidxWrite => false
  | .priResponse => false
  | .priTimeout => false
  | .atsInvalidate => false
  | .functionLevelReset => false
  | .stopInterface => false
  | .tdiLock => false
  | .tdiError => false
  | .partitionEnable => false
  | .partitionDisable => false
  | .partitionStop => false
  | .assignmentWrite => false
  | .scrubComplete => false
  | .memoryZero => false
  | .memoryZeroDone => false
  | .vfEnable => false
  | .vfDisable => false
  | .vfpriClear => false
  | .errorCorrected => false
  | .errorUncorrectable => false
  | .patrol => false
  | .ebstatClear => false
  | .noticeTailWrite => false
  | .ndropClear => false
  | .assayReplayDispatch => false
  | .assayCompare => false
  | .ascntClear => false
  | .mapoutGroup => false
  | .retireCore => false
  | .restoreCore => false
  | .mapoutApply => false
  | .stwdogWrite => false
  | .stewardWatchdogExpire => false
  | .gangPrepare => false
  | .prepared => false
  | .commit => false
  | .abort => false
  | .gangRefusal => false
  | .gangPrepareTimeout => false
  | .gangCommitTimeout => false
  | .lost => false
  | .linkUnreachable => false
  | .gangcmdDiscard => false
  | .gangcmdResume => false
  | .limnerArm => false
  | .limnerFire => false
  | .limnerCycleMatch => false
  | .limnerLinkTrigger => false
  | .pwrlimWrite => false
  | .pshareWrite => false
  | .powerInterval => false
  | .thermalTrip => false
  | .thermalClear => false
  | .flitReceive => false
  | .portRetrainTimeout => false
  | .remoteAccess => false
  | .remoteLoadTimeout => false
  | .remoteStoreTimeout => false
  | .cxlDeviceFailure => false
  | .deviceReset => false
  | .stewardStart => false
  | .spdmRequest => false
  | .debugUnlock => false
  | .debugRelock => false
  | .dbgctlStop => false
  | .dbgctlCont => false
  | .dbgdataRead => false
  | .dbgdataWrite => false
  | .registerWrite => false
  | .mmaComplete => false
  | .storePerformed => false
  | .heapBindComplete => false
  | .powerLoss => false
  | .portRetrain => false

end Sys2Proof
end

