-- ==== Sys2Proof/Decode.lean ====
section
/-! DEFINITION. The decoder: halfwords of a head and its tail to fields (R86, R88), fields to an instruction or to the reason
of R103, total on every input; and after it the encoder, written from the same tables (R102, R115, R160, R196). -/

namespace Sys2Proof
namespace Coding
open Sys2Proof.Machine (bits vtypeOf vtypeCode)

/-- The reasons of R103 that the encoding alone decides, in the order of their DETAIL. -/
inductive Reject where
  | unassignedMaj
  | unassignedFn
  | tailSize
  | reserved
  | regRange
  | operand
  deriving DecidableEq, Repr

def Reject.detail : Reject → Nat
  | .unassignedMaj => 1
  | .unassignedFn => 2
  | .tailSize => 3
  | .reserved => 4
  | .regRange => 5
  | .operand => 6

/-- Head and tail fields (R86, R88). In a T1 tail `md` has 4 bits, otherwise 11; a TB tail's OFF and HI are `b`, `m`, `md`. -/
structure Fields where
  ts : Nat
  maj : Nat
  fn : Nat
  d : Nat := 0
  a : Nat := 0
  b : Nat := 0
  m : Nat := 0
  md : Nat := 0
  w1 : Nat := 0
  deriving DecidableEq, Repr

/-- An instruction with its stall count. -/
structure Coded where
  sc : Nat
  insn : Instr
  deriving DecidableEq, Repr

/-- Halfwords of a tail by TS (R87). -/
def tailHalfs : Nat → Nat
  | 0 => 0
  | 1 => 1
  | 2 => 2
  | _ => 4

/-- R86 and R88: the fields of a head halfword and a tail value of `16 × tailHalfs` bits. -/
def splitFields (head tail : Nat) : Fields :=
  let ts := head / 2 ^ 14
  let maj := head / 2 ^ 4 % 2 ^ 7
  let fn := head % 2 ^ 4
  match ts with
  | 0 => { ts := ts, maj := maj, fn := fn }
  | 1 => { ts := ts, maj := maj, fn := fn, d := tail / 2 ^ 10 % 2 ^ 6, a := tail / 2 ^ 4 % 2 ^ 6, md := tail % 2 ^ 4 }
  | _ =>
    { ts := ts, maj := maj, fn := fn, d := tail / 2 ^ 26 % 2 ^ 6, a := tail / 2 ^ 20 % 2 ^ 6, b := tail / 2 ^ 14 % 2 ^ 6,
      m := tail / 2 ^ 11 % 2 ^ 3, md := tail % 2 ^ 11, w1 := if ts = 3 then tail / 2 ^ 32 % 2 ^ 32 else 0 }

/-- The tail value of fields, the other direction. -/
def Fields.tail (f : Fields) : Nat :=
  match f.ts with
  | 0 => 0
  | 1 => f.d * 2 ^ 10 + f.a * 2 ^ 4 + f.md
  | _ => f.w1 * 2 ^ 32 + f.d * 2 ^ 26 + f.a * 2 ^ 20 + f.b * 2 ^ 14 + f.m * 2 ^ 11 + f.md

def Fields.head (f : Fields) (sc : Nat) : Nat := f.ts * 2 ^ 14 + sc * 2 ^ 11 + f.maj * 2 ^ 4 + f.fn

abbrev Dec (α : Type) := Except Reject α

/-- Goes on when `c` holds, and otherwise answers the reason. -/
def need (c : Bool) (r : Reject) : Dec Unit := if c then .ok () else .error r

/-- Every one of the fields is reserved (R88). -/
def zero (l : List Nat) : Dec Unit := need (l.all (· = 0)) .reserved

def tails (f : Fields) (l : List Nat) : Dec Unit := need (l.contains f.ts) .tailSize

def bit (x i : Nat) : Bool := x / 2 ^ i % 2 = 1

/-- Register fields (R90). -/
def sreg (n : Nat) : Dec SReg := if h : n < 32 then .ok ⟨n, h⟩ else .error .regRange
def vreg (n : Nat) : Dec VReg := if h : n < 64 then .ok ⟨n, h⟩ else .error .regRange
def mreg (n : Nat) : Dec MReg := if h : n < 8 then .ok ⟨n, h⟩ else .error .regRange
def treg (n : Nat) : Dec TReg := if h : n < 8 then .ok ⟨n, h⟩ else .error .regRange

def imm (f : Fields) : Imm := BitVec.ofNat 32 f.w1

def fin4 (n : Nat) : Fin 16 := Fin.ofNat 16 n

/-- The governing mask field; it is 3 bits wide (R24). -/
def gov (f : Fields) : MReg := Fin.ofNat 8 f.m

/-- Type codes (R127, R161). -/
def tyOf : Nat → Option Ty
  | 0 => some .i8
  | 1 => some .i16
  | 2 => some .i32
  | 3 => some .i64
  | 4 => some .f16
  | 5 => some .bf16
  | 6 => some .f32
  | 7 => some .lns6
  | 8 => some .u8
  | 9 => some .u16
  | 10 => some .u32
  | 11 => some .u64
  | 15 => some .dflt
  | _ => none

def tyCode : Ty → Nat
  | .i8 => 0 | .i16 => 1 | .i32 => 2 | .i64 => 3 | .f16 => 4 | .bf16 => 5 | .f32 => 6 | .lns6 => 7
  | .u8 => 8 | .u16 => 9 | .u32 => 10 | .u64 => 11 | .dflt => 15

/-- A type field that the instruction accepts (R161: any other value is reserved). -/
def ty (n : Nat) (ok : Ty → Bool) : Dec Ty :=
  match tyOf n with
  | some t => if ok t then .ok t else .error .reserved
  | none => .error .reserved

/-- RMO (R125). -/
def rmo : Nat → Dec Rmo
  | 0 => .ok .frm
  | 1 => .ok (.fixed .rne)
  | 2 => .ok (.fixed .rtz)
  | 3 => .ok (.fixed .rup)
  | 4 => .ok (.fixed .rdn)
  | 5 => .ok (.fixed .rmm)
  | _ => .error .reserved

def rmoCode : Rmo → Nat
  | .frm => 0
  | .fixed .rne => 1
  | .fixed .rtz => 2
  | .fixed .rup => 3
  | .fixed .rdn => 4
  | .fixed .rmm => 5

def fty : Nat → Dec FTy
  | 4 => .ok .f16
  | 5 => .ok .bf16
  | 6 => .ok .f32
  | _ => .error .reserved

def ftyCode : FTy → Nat
  | .f16 => 4 | .bf16 => 5 | .f32 => 6

/-- SCOPE (R206). -/
def scope : Nat → Dec Scope
  | 0 => .ok .strand
  | 1 => .ok .crew
  | 2 => .ok .core
  | 3 => .ok .cluster
  | 4 => .ok .device
  | 5 => .ok .domain
  | 6 => .ok .system
  | _ => .error .reserved

def scopeCode : Scope → Nat
  | .strand => 0 | .crew => 1 | .core => 2 | .cluster => 3 | .device => 4 | .domain => 5 | .system => 6

def accW : Nat → AccW
  | 0 => .b
  | 1 => .h
  | 2 => .w
  | _ => .d

def accCode : AccW → Nat
  | .b => 0 | .h => 1 | .w => 2 | .d => 3

/-- An instruction whose operands are decoded is accepted when no operand constraint of its entry is broken (DETAIL 6). -/
def accept (i : Instr) : Dec Instr := if i.wellFormed then .ok i else .error .operand

/-! ### Scalar, control, system and crew instructions (R115) -/

/-- A T2 integer form (R118): W, and U where it is accepted. -/
def rrr (f : Fields) (uOk : Bool) (k : Bool → Bool → SReg → SReg → SReg → Instr) : Dec Instr := do
  tails f [2]
  zero [f.m, bits f.md 8 0]
  need (uOk || !bit f.md 9) .reserved
  let d ← sreg f.d
  let a ← sreg f.a
  let b ← sreg f.b
  accept (k (bit f.md 10) (bit f.md 9) d a b)

/-- A T1 form with d and a, and a modifier that `k` reads. -/
def t1da (f : Fields) (k : SReg → SReg → Dec Instr) : Dec Instr := do
  let d ← sreg f.d
  let a ← sreg f.a
  k d a

def extW : Nat → Dec ExtW
  | 0 => .ok .b
  | 1 => .ok .h
  | 2 => .ok .w
  | _ => .error .reserved

def extCode : ExtW → Nat
  | .b => 0 | .h => 1 | .w => 2

def decode00 (f : Fields) : Dec Instr :=
  match f.fn with
  | 0 => do tails f [0]; accept .nop
  | 1 => rrr f false fun w _ => .add w
  | 2 => rrr f false fun w _ => .sub w
  | 3 => rrr f false fun w _ => .and w
  | 4 => rrr f false fun w _ => .or w
  | 5 => rrr f false fun w _ => .xor w
  | 6 => rrr f false fun w _ => .shl w
  | 7 => rrr f false fun w _ => .shr w
  | 8 => rrr f false fun w _ => .sra w
  | 9 => rrr f true .min
  | 10 => rrr f true .max
  | 11 => rrr f false fun w _ => .seq w
  | 12 => rrr f false fun w _ => .slt w
  | 13 => rrr f false fun w _ => .sltu w
  | 14 => do
    tails f [3]
    zero [f.m, f.md, bits f.w1 25 0]
    let d ← sreg f.d
    let a ← sreg f.a
    let b ← sreg f.b
    let c ← sreg (bits f.w1 31 26)
    accept (.sel d a b c)
  | _ => do
    tails f [2, 3]
    zero [f.m, bits f.md 10 3]
    let d ← sreg f.d
    let a ← sreg f.a
    let b ← sreg f.b
    accept (if f.ts = 2 then .lea (Fin.ofNat 8 f.md) d a b else .leaImm (Fin.ofNat 8 f.md) d a b (imm f))

def decode01 (f : Fields) : Dec Instr :=
  match f.fn with
  | 0 => rrr f false fun w _ => .mul w
  | 1 => rrr f true .mulh
  | 2 => rrr f true .div
  | 3 => rrr f true .rem
  | 4 => do tails f [1]; zero [bits f.md 2 0]; t1da f fun d a => accept (.clz (bit f.md 3) d a)
  | 5 => do tails f [1]; zero [bits f.md 2 0]; t1da f fun d a => accept (.popc (bit f.md 3) d a)
  | 6 => do tails f [1]; zero [bits f.md 3 2]; let x ← extW (bits f.md 1 0); t1da f fun d a => accept (.sext x d a)
  | 7 => do tails f [1]; zero [bits f.md 3 2]; let x ← extW (bits f.md 1 0); t1da f fun d a => accept (.zext x d a)
  | _ => .error .unassignedFn

def decode02 (f : Fields) : Dec Instr :=
  match f.fn with
  | 0 => do
    tails f [3]
    zero [f.b, f.m, bits f.md 9 0]
    t1da f fun d a => accept (.addi (bit f.md 10) d a (imm f))
  | 1 => do
    tails f [3]
    zero [f.b, f.m, bits f.md 8 0, bits f.md 10 10, if bit f.md 9 then 0 else f.a]
    t1da f fun d a => accept (.li (bit f.md 9) d a (imm f))
  | _ => .error .unassignedFn

def decode10 (f : Fields) : Dec Instr :=
  match f.fn with
  | 0 => do
    tails f [2]
    zero [f.m, bits f.md 3 3, bits f.md 1 0]
    let t ← fty (bits f.md 10 7)
    let r ← rmo (bits f.md 6 4)
    let d ← sreg f.d
    let a ← sreg f.a
    let b ← sreg f.b
    accept (.fadd t r (bit f.md 2) d a b)
  | 1 => do
    tails f [2]
    zero [f.m, bits f.md 2 0]
    let t ← fty (bits f.md 10 7)
    let r ← rmo (bits f.md 6 4)
    let d ← sreg f.d
    let a ← sreg f.a
    let b ← sreg f.b
    accept (.fmul t r (bit f.md 3) d a b)
  | 2 => do
    tails f [3]
    zero [f.m, bits f.md 1 0, bits f.w1 25 0]
    let t ← fty (bits f.md 10 7)
    let r ← rmo (bits f.md 6 4)
    let d ← sreg f.d
    let a ← sreg f.a
    let b ← sreg f.b
    let c ← sreg (bits f.w1 31 26)
    accept (.ffma t r (bit f.md 3) (bit f.md 2) d a b c)
  | 3 => do
    tails f [2]
    zero [f.b, f.m]
    let dt ← ty (bits f.md 10 7) (fun t => t ≠ .lns6 && t ≠ .dflt)
    let r ← rmo (bits f.md 6 4)
    let st ← ty (bits f.md 3 0) (fun t => t ≠ .lns6 && t ≠ .dflt)
    t1da f fun d a => accept (.fcvt dt st r d a)
  | _ => .error .unassignedFn

/-- OFF and HI of a TB tail (R88). -/
def tbOff (f : Fields) : BitVec 15 := BitVec.ofNat 15 (f.b * 2 ^ 9 + f.m * 2 ^ 6 + f.md / 2 ^ 5)
def tbHi (f : Fields) : Fin 32 := Fin.ofNat 32 (f.md % 2 ^ 5)

def branch (f : Fields) (k : SReg → SReg → BitVec 15 → Fin 32 → Instr) : Dec Instr := do
  tails f [2]
  t1da f fun d a => accept (k d a (tbOff f) (tbHi f))

def decode18 (f : Fields) : Dec Instr :=
  match f.fn with
  | 0 => do tails f [2]; zero [f.d, f.a]; accept (.br (tbOff f) (tbHi f))
  | 1 => branch f .beq
  | 2 => branch f .bne
  | 3 => branch f .blt
  | 4 => branch f .bge
  | 5 => branch f .bltu
  | 6 => branch f .bgeu
  | 7 => do tails f [2]; zero [f.a]; let d ← sreg f.d; accept (.call d (tbOff f) (tbHi f))
  | 8 => do tails f [1]; zero [f.d, f.md]; let a ← sreg f.a; accept (.ret a)
  | 9 => do tails f [1]; zero [f.md]; t1da f fun d a => accept (.jr d a)
  | _ => .error .unassignedFn

def tretMode : Nat → Dec TretMode
  | 0 => .ok .retry
  | 1 => .ok .next
  | 2 => .ok .kill
  | _ => .error .reserved

def tretCode : TretMode → Nat
  | .retry => 0 | .next => 1 | .kill => 2

def decode20 (f : Fields) : Dec Instr :=
  match f.fn with
  | 0 => do tails f [2]; zero [f.a, f.b, f.m, bits f.md 10 10]; let d ← sreg f.d; accept (.mfs d (Fin.ofNat 1024 f.md))
  | 1 => do tails f [2]; zero [f.d, f.b, f.m, bits f.md 10 10]; let a ← sreg f.a; accept (.mts (Fin.ofNat 1024 f.md) a)
  | 2 => do
    tails f [3]
    zero [f.d, f.b, f.m, f.md, bits f.w1 15 8]
    let a ← sreg f.a
    accept (.trap a (Fin.ofNat 256 f.w1) (BitVec.ofNat 16 (bits f.w1 31 16)))
  | 3 => do tails f [1]; zero [f.d, f.a, bits f.md 3 2]; let m ← tretMode (bits f.md 1 0); accept (.tret m)
  | 4 => do tails f [1]; zero [f.d, f.a]; accept (.brk (fin4 f.md))
  | 5 => do tails f [2]; zero [f.d, f.a, f.b, f.m]; accept (.sysc (Fin.ofNat 2048 f.md))
  | 6 => do tails f [0]; accept .yield
  | 7 => do tails f [0]; accept .halt
  | 8 => do tails f [1]; zero [f.d, f.md]; let a ← sreg f.a; accept (.idle a)
  | _ => .error .unassignedFn

/-- A T2 or T4I form whose only operand is an address (R115, R196). -/
def addrOnly (f : Fields) (k : SReg → Instr) (ki : SReg → Imm → Instr) : Dec Instr := do
  tails f [2, 3]
  zero [f.d, f.b, f.m, f.md]
  let a ← sreg f.a
  accept (if f.ts = 2 then k a else ki a (imm f))

def decode21 (f : Fields) : Dec Instr :=
  match f.fn with
  | 0 => do tails f [1]; zero [f.d, f.a]; accept (.join (fin4 f.md))
  | 1 => do tails f [1]; zero [f.d, f.a]; accept (.leave (fin4 f.md))
  | 2 => do tails f [1]; zero [f.d, f.a]; accept (.bsync (fin4 f.md))
  | 3 => do tails f [0]; accept .gbar
  | 4 => do tails f [1]; zero [f.a]; let d ← sreg f.d; accept (.elect d (fin4 f.md))
  | 5 => do tails f [2]; zero [f.d, f.a, f.b, f.m, bits f.md 10 7]; accept (.regclm (Fin.ofNat 128 f.md))
  | 6 => do tails f [2]; zero [f.d, f.a, f.b, f.m, bits f.md 10 7]; accept (.regrel (Fin.ofNat 128 f.md))
  | 7 => addrOnly f .wqry .wqryImm
  | 8 => do
    tails f [2, 3]
    zero [f.m, f.md]
    let d ← sreg f.d
    let a ← sreg f.a
    let b ← sreg f.b
    accept (if f.ts = 2 then .launch d a b else .launchImm d a b (imm f))
  | 9 => addrOnly f .vsave .vsaveImm
  | 10 => addrOnly f .vrestore .vrestoreImm
  | 11 => do
    tails f [2]
    zero [f.b, f.m, bits f.md 10 4]
    t1da f fun d a => accept (.scrub (bit f.md 3) (bit f.md 2) (bit f.md 1) (bit f.md 0) d a)
  | _ => .error .unassignedFn

/-! ### Memory instructions of every class (R196, R206, R223, R224) -/

def amoOp : Nat → Option AmoOp
  | 0 => some .add
  | 1 => some .and
  | 2 => some .or
  | 3 => some .xor
  | 4 => some .min
  | 5 => some .max
  | 6 => some .minu
  | 7 => some .maxu
  | 8 => some .swap
  | 10 => some .fadd
  | _ => none

def amoCode : AmoOp → Nat
  | .add => 0 | .and => 1 | .or => 2 | .xor => 3 | .min => 4 | .max => 5 | .minu => 6 | .maxu => 7 | .swap => 8 | .fadd => 10

def aord : Nat → AOrd
  | 0 => .relaxed
  | 1 => .acq
  | 2 => .rel
  | _ => .ar

def aordCode : AOrd → Nat
  | .relaxed => 0 | .acq => 1 | .rel => 2 | .ar => 3

def sem : Nat → Dec Sem
  | 1 => .ok .acq
  | 2 => .ok .rel
  | 3 => .ok .ar
  | _ => .error .reserved

def semCode : Sem → Nat
  | .acq => 1 | .rel => 2 | .ar => 3

/-- SPC, ORD, SCOPE and the reserved bit of `ld` and `st` (R206). -/
def ordBits (f : Fields) : Dec Scope := do
  zero [bits f.md 7 7, bits f.md 5 5, bits f.md 0 0, if bit f.md 4 then 0 else bits f.md 3 1]
  scope (bits f.md 3 1)

def decode28 (f : Fields) : Dec Instr :=
  match f.fn with
  | 0 => do
    tails f [2, 3]
    zero [f.b, f.m]
    let sc ← ordBits f
    let d ← sreg f.d
    let a ← sreg f.a
    let w := accW (bits f.md 10 9)
    accept (if f.ts = 2 then .ld w (bit f.md 8) (bit f.md 6) (bit f.md 4) sc d a
      else .ldImm w (bit f.md 8) (bit f.md 6) (bit f.md 4) sc d a (imm f))
  | 1 => do
    tails f [2, 3]
    zero [f.d, f.m, bits f.md 8 8]
    let sc ← ordBits f
    let a ← sreg f.a
    let b ← sreg f.b
    let w := accW (bits f.md 10 9)
    accept (if f.ts = 2 then .st w (bit f.md 6) (bit f.md 4) sc a b else .stImm w (bit f.md 6) (bit f.md 4) sc a b (imm f))
  | 2 => do
    tails f [2, 3]
    zero [f.m, bits f.md 3 0, if f.ts = 3 then bits f.w1 25 0 else 0]
    need (bits f.md 10 7 ≤ 10) .reserved
    let d ← sreg f.d
    let a ← sreg f.a
    let b ← sreg f.b
    let c ← sreg (if f.ts = 3 then bits f.w1 31 26 else 0)
    let o := aord (bits f.md 5 4)
    match amoOp (bits f.md 10 7) with
    | some op => do need (f.ts = 2) .operand; accept (.amo op (bit f.md 6) o d a b)
    | none => do need (f.ts = 3) .operand; accept (.amoCas (bit f.md 6) o d a b c)
  | 3 => do
    tails f [2]
    zero [f.d, f.a, f.b, f.m, bits f.md 10 6, bits f.md 0 0]
    let m ← sem (bits f.md 5 4)
    let sc ← scope (bits f.md 3 1)
    accept (.fence m sc)
  | _ => .error .unassignedFn

def decode29 (f : Fields) : Dec Instr :=
  match f.fn with
  | 0 => do
    tails f [2]
    zero [f.m, bits f.md 10 4]
    let d ← sreg f.d
    let a ← sreg f.a
    let b ← sreg f.b
    accept (.stwin (fin4 f.md) d a b)
  | 1 => do tails f [2]; zero [f.d, f.a, f.b, f.m, bits f.md 10 4]; accept (.stflush (fin4 f.md))
  | 2 => do tails f [2]; zero [f.d, f.a, f.b, f.m, bits f.md 10 5]; accept (.stinv (bit f.md 4) (fin4 f.md))
  | 3 => addrOnly f .dcfence .dcfenceImm
  | _ => .error .unassignedFn

/-! ### Vector instructions (R160, R161) -/

/-- The operand y of a T2 tail (R162). -/
def ysrc (f : Fields) (bs : Bool) : Dec VSrc :=
  if bs then (sreg f.b).map VSrc.scal else (vreg f.b).map VSrc.vec

/-- Whether a T4I tail leaves a field without a meaning: the bits that a T2 tail alone reads (R162). -/
def immZero (f : Fields) (l : List Nat) : Dec Unit := if f.ts = 3 then zero l else .ok ()

/-- An element-wise form with y. -/
def elemForm (f : Fields) (bs : Bool) (k : VReg → VReg → VSrc → MReg → Instr) (ki : VReg → VReg → Imm → MReg → Instr) : Dec Instr := do
  let d ← vreg f.d
  let a ← vreg f.a
  if f.ts = 2 then do
    let y ← ysrc f bs
    accept (k d a y (gov f))
  else accept (ki d a (imm f) (gov f))

/-- The integer instructions (R170). -/
def intOp (f : Fields) (satOk : Bool) (k : Ty → Bool → VReg → VReg → VSrc → MReg → Instr)
    (ki : Ty → Bool → VReg → VReg → Imm → MReg → Instr) : Dec Instr := do
  tails f [2, 3]
  zero [bits f.md 4 0, if satOk then 0 else bits f.md 5 5]
  immZero f [bits f.md 6 6, f.b]
  let t ← ty (bits f.md 10 7) Ty.okInt
  elemForm f (bit f.md 6) (k t (bit f.md 5)) (ki t (bit f.md 5))

def decode30 (f : Fields) : Dec Instr :=
  match f.fn with
  | 0 => intOp f true .vadd .vaddImm
  | 1 => intOp f true .vsub .vsubImm
  | 2 => intOp f false (fun t _ => .vmul t) (fun t _ => .vmulImm t)
  | 3 => intOp f false (fun t _ => .vmulh t) (fun t _ => .vmulhImm t)
  | 4 => intOp f false (fun t _ => .vmin t) (fun t _ => .vminImm t)
  | 5 => intOp f false (fun t _ => .vmax t) (fun t _ => .vmaxImm t)
  | 6 => intOp f false (fun t _ => .vand t) (fun t _ => .vandImm t)
  | 7 => intOp f false (fun t _ => .vor t) (fun t _ => .vorImm t)
  | 8 => intOp f false (fun t _ => .vxor t) (fun t _ => .vxorImm t)
  | 9 => intOp f false (fun t _ => .vshl t) (fun t _ => .vshlImm t)
  | 10 => intOp f false (fun t _ => .vshr t) (fun t _ => .vshrImm t)
  | 11 => intOp f false (fun t _ => .vsra t) (fun t _ => .vsraImm t)
  | _ => .error .unassignedFn

/-- The floating instructions of two operands (R171). -/
def fpOp (f : Fields) (npOk ncOk : Bool) (k : Ty → Rmo → Bool → Bool → VReg → VReg → VSrc → MReg → Instr)
    (ki : Ty → Rmo → Bool → Bool → VReg → VReg → Imm → MReg → Instr) : Dec Instr := do
  tails f [2, 3]
  zero [bits f.md 0 0, if npOk then 0 else bits f.md 2 2, if ncOk then 0 else bits f.md 1 1]
  immZero f [bits f.md 3 3, f.b]
  let t ← ty (bits f.md 10 7) Ty.okFp
  let r ← rmo (bits f.md 6 4)
  elemForm f (bit f.md 3) (k t r (bit f.md 2) (bit f.md 1)) (ki t r (bit f.md 2) (bit f.md 1))

/-- The unary floating instructions (R172). -/
def fpUnary (f : Fields) (k : Ty → Rmo → VReg → VReg → MReg → Instr) : Dec Instr := do
  tails f [2]
  zero [f.b, bits f.md 3 0]
  let t ← ty (bits f.md 10 7) Ty.okFp
  let r ← rmo (bits f.md 6 4)
  let d ← vreg f.d
  let a ← vreg f.a
  accept (k t r d a (gov f))

def decode40 (f : Fields) : Dec Instr :=
  match f.fn with
  | 0 => fpOp f false false (fun t r _ _ => .vfadd t r) (fun t r _ _ => .vfaddImm t r)
  | 1 => fpOp f false false (fun t r _ _ => .vfsub t r) (fun t r _ _ => .vfsubImm t r)
  | 2 => fpOp f true false (fun t r np _ => .vfmul t r np) (fun t r np _ => .vfmulImm t r np)
  | 3 => fpOp f true true .vffma .vffmaImm
  | 4 => fpOp f false false (fun t r _ _ => .vfmin t r) (fun t r _ _ => .vfminImm t r)
  | 5 => fpOp f false false (fun t r _ _ => .vfmax t r) (fun t r _ _ => .vfmaxImm t r)
  | 6 => fpOp f false false (fun t r _ _ => .vfdiv t r) (fun t r _ _ => .vfdivImm t r)
  | 7 => fpUnary f .vfsqrt
  | 8 => fpUnary f .vfrsq
  | 9 => fpUnary f .vfexp2
  | 10 => fpUnary f .vflog2
  | _ => .error .unassignedFn

/-- MODE and b of `vcvt` (R173). -/
def cvtMode (f : Fields) (dt st : Ty) : Dec CvtMode :=
  if dt = .lns6 then
    match bits f.md 6 4 with
    | 0 => do zero [f.b]; .ok .own
    | 1 => (sreg f.b).map .gs
    | 2 => (vreg f.b).map .gv
    | _ => .error .reserved
  else do
    zero [f.b]
    if dt.isInt && st.isInt then
      match bits f.md 6 4 with
      | 0 => .ok .plain
      | 1 => .ok .sat
      | _ => .error .reserved
    else (rmo (bits f.md 6 4)).map .round

/-- `vlmul` and `vladd` (R175, R176). -/
def lnsOp (f : Fields) (k : Ty → VReg → VReg → VReg → MReg → Instr) (kg : Ty → VSrc → VReg → VReg → VReg → MReg → Instr) : Dec Instr := do
  tails f [2, 3]
  zero [bits f.md 3 0]
  immZero f [bits f.w1 25 0]
  let t ← ty (bits f.md 10 7) Ty.okLns
  need (bits f.md 6 4 ≤ 2) .reserved
  let d ← vreg f.d
  let a ← vreg f.a
  let b ← vreg f.b
  if f.ts = 2 then do
    need (bits f.md 6 4 = 0) .operand
    accept (k t d a b (gov f))
  else
    match bits f.md 6 4 with
    | 1 => do
      let c ← sreg (bits f.w1 31 26)
      accept (kg t (.scal c) d a b (gov f))
    | 2 => do
      let c ← vreg (bits f.w1 31 26)
      accept (kg t (.vec c) d a b (gov f))
    | _ => .error .operand

def decode41 (f : Fields) : Dec Instr :=
  match f.fn with
  | 0 => do
    tails f [2]
    let dt ← ty (bits f.md 10 7) Ty.given
    let st ← ty (bits f.md 3 0) Ty.given
    let mode ← cvtMode f dt st
    let d ← vreg f.d
    let a ← vreg f.a
    accept (.vcvt dt st mode d a (gov f))
  | 1 => lnsOp f .vlmul .vlmulGiven
  | 2 => lnsOp f .vladd .vladdGiven
  | _ => .error .unassignedFn

/-- A VTYPE given as imm32: bits [31:14] must be zero; those of its reserved field are ignored (R14, R32). -/
def vtypeImm (x : Nat) : Dec VType := do
  need (bits x 31 14 = 0) .operand
  match vtypeOf x with
  | some v => .ok v
  | none => .error .operand

def vcc : Nat → Dec VCc
  | 0 => .ok .eq
  | 1 => .ok .ne
  | 2 => .ok .lt
  | 3 => .ok .le
  | 4 => .ok .gt
  | 5 => .ok .ge
  | 6 => .ok .un
  | _ => .error .reserved

def vccCode : VCc → Nat
  | .eq => 0 | .ne => 1 | .lt => 2 | .le => 3 | .gt => 4 | .ge => 5 | .un => 6

/-- The mask logicals (R178). -/
def maskOp (f : Fields) (k : MReg → MReg → MReg → Instr) : Dec Instr := do
  tails f [2]
  zero [f.m, f.md]
  let d ← mreg f.d
  let a ← mreg f.a
  let b ← mreg f.b
  accept (k d a b)

/-- `mpop`, `mfirst`, `vany`, `vall` (R179, R193). -/
def maskRead (f : Fields) (k : SReg → MReg → MReg → Instr) : Dec Instr := do
  tails f [2]
  zero [f.b, f.md]
  let d ← sreg f.d
  let a ← mreg f.a
  accept (k d a (gov f))

def decode50 (f : Fields) : Dec Instr :=
  match f.fn with
  | 0 => do
    tails f [2, 3]
    zero [f.b, f.m, bits f.md 10 1]
    let d ← sreg f.d
    let a ← sreg f.a
    if f.ts = 2 then accept (.vsetvl (bit f.md 0) d a)
    else do
      let v ← vtypeImm f.w1
      accept (.vsetvlType (bit f.md 0) d a v)
  | 1 => do
    tails f [1, 3]
    zero [f.d, f.b, f.m, f.md]
    if f.ts = 1 then do
      let a ← sreg f.a
      accept (.vsettype a)
    else do
      zero [f.a]
      let v ← vtypeImm f.w1
      accept (.vsettypeImm v)
  | 2 => do
    tails f [2, 3]
    zero [bits f.md 1 0]
    immZero f [bits f.md 6 6, f.b]
    let t ← ty (bits f.md 10 7) (fun _ => true)
    let cc ← vcc (bits f.md 5 3)
    let d ← mreg f.d
    let a ← vreg f.a
    if f.ts = 2 then do
      let y ← ysrc f (bit f.md 6)
      accept (.vcmp cc t (bit f.md 2) d a y (gov f))
    else accept (.vcmpImm cc t (bit f.md 2) d a (imm f) (gov f))
  | 3 => maskOp f .mand
  | 4 => maskOp f .mor
  | 5 => maskOp f .mxor
  | 6 => do
    tails f [1]
    zero [f.md]
    let d ← mreg f.d
    let a ← mreg f.a
    accept (.mnot d a)
  | 7 => maskRead f .mpop
  | 8 => maskRead f .mfirst
  | 9 => do
    tails f [1]
    zero [f.d, bits f.md 3 1]
    let a ← mreg f.a
    accept (.vif (bit f.md 0) a)
  | 10 => do tails f [0]; accept .velse
  | 11 => do tails f [0]; accept .vend
  | _ => .error .unassignedFn

/-- `vslideup`, `vslidedn`, `vbcast`: an index from a scalar register or imm32 (R186, R188). -/
def indexOp (f : Fields) (k : Ty → VReg → VReg → SReg → MReg → Instr) (ki : Ty → VReg → VReg → Imm → MReg → Instr) : Dec Instr := do
  tails f [2, 3]
  zero [bits f.md 6 0]
  immZero f [f.b]
  let t ← ty (bits f.md 10 7) (fun _ => true)
  let d ← vreg f.d
  let a ← vreg f.a
  if f.ts = 2 then do
    let b ← sreg f.b
    accept (k t d a b (gov f))
  else accept (ki t d a (imm f) (gov f))

/-- Direction and registers of `vmovs` (R185). -/
def movS (f : Fields) : Dec MovS :=
  if bit f.md 5 then do
    let d ← vreg f.d
    let a ← sreg f.a
    .ok (.ins d a)
  else do
    let d ← sreg f.d
    let a ← vreg f.a
    .ok (.ext d a)

def decode58 (f : Fields) : Dec Instr :=
  match f.fn with
  | 0 => do
    tails f [2, 3]
    zero [bits f.md 5 0]
    immZero f [bits f.md 6 6, f.b]
    let t ← ty (bits f.md 10 7) (fun _ => true)
    elemForm f (bit f.md 6) (.vsel t) (.vselImm t)
  | 1 => do
    tails f [2]
    zero [bits f.md 6 0]
    let t ← ty (bits f.md 10 7) (fun _ => true)
    let d ← vreg f.d
    let a ← vreg f.a
    let b ← vreg f.b
    accept (.vperm t d a b (gov f))
  | 2 => indexOp f .vslideup .vslideupImm
  | 3 => indexOp f .vslidedn .vslidednImm
  | 4 => indexOp f .vbcast .vbcastImm
  | 5 => do
    tails f [3]
    zero [bits f.md 6 0, bits f.w1 25 0]
    let t ← ty (bits f.md 10 7) (fun _ => true)
    let d ← vreg f.d
    let x ← vreg f.b
    let a ← vreg f.a
    let c ← sreg (bits f.w1 31 26)
    accept (.vcompress t d x a c (gov f))
  | 6 => do
    tails f [2]
    zero [f.b, bits f.md 6 0]
    let t ← ty (bits f.md 10 7) (fun _ => true)
    let d ← vreg f.d
    let a ← vreg f.a
    accept (.vexpand t d a (gov f))
  | 7 => do
    tails f [2]
    zero [f.b, bits f.md 6 0]
    let t ← ty (bits f.md 10 7) Ty.okInt
    let d ← vreg f.d
    let a ← mreg f.a
    accept (.viota t d a (gov f))
  | 8 => do
    tails f [2, 3]
    zero [f.a, bits f.md 5 0]
    immZero f [bits f.md 6 6, f.b]
    let t ← ty (bits f.md 10 7) (fun _ => true)
    elemForm f (bit f.md 6) (fun d _ => .vmov t d) (fun d _ => .vmovImm t d)
  | 9 => do
    tails f [2, 3]
    zero [f.m, bits f.md 6 6, bits f.md 4 0]
    immZero f [f.b]
    let t ← ty (bits f.md 10 7) (fun _ => true)
    let op ← movS f
    if f.ts = 2 then do
      let b ← sreg f.b
      accept (.vmovs t op b)
    else accept (.vmovsImm t op (imm f))
  | 10 => do
    tails f [2]
    zero [f.a, f.b, bits f.md 6 0]
    let t ← ty (bits f.md 10 7) Ty.okInt
    let d ← vreg f.d
    accept (.vid t d (gov f))
  | _ => .error .unassignedFn

/-- The reductions (R192). -/
def redOp (f : Fields) (k : Ty → SReg → VReg → SReg → MReg → Instr) : Dec Instr := do
  tails f [2]
  zero [bits f.md 6 0]
  let t ← ty (bits f.md 10 7) (fun _ => true)
  let d ← sreg f.d
  let a ← vreg f.a
  let b ← sreg f.b
  accept (k t d a b (gov f))

def decode59 (f : Fields) : Dec Instr :=
  match f.fn with
  | 0 => redOp f .vredsum
  | 1 => redOp f .vredmax
  | 2 => redOp f .vredmin
  | 3 => maskRead f .vany
  | 4 => maskRead f .vall
  | _ => .error .unassignedFn

/-! ### Vector memory instructions (R196, R197) -/

/-- b of the unit-stride accesses: without a meaning where the type is given and is not LNS6 (R207). -/
def biasZero (f : Fields) (t : Ty) : Dec Unit := if t = .lns6 || t = .dflt then .ok () else zero [f.b]

/-- Any type code that is assigned. -/
def anyTy (f : Fields) : Dec Ty := ty (bits f.md 10 7) (fun _ => true)

/-- `vld`, `vst`, `cvld`: the last may name generic memory alone (R197). -/
def unitOp (f : Fields) (genOnly : Bool) (k : Ty → Bool → VReg → SReg → SReg → MReg → Instr)
    (ki : Ty → Bool → VReg → SReg → SReg → Imm → MReg → Instr) : Dec Instr := do
  tails f [2, 3]
  zero [bits f.md 6 6, bits f.md 4 0]
  let t ← anyTy f
  biasZero f t
  let d ← vreg f.d
  let a ← sreg f.a
  let b ← sreg f.b
  need (!(genOnly && bit f.md 5)) .operand
  accept (if f.ts = 2 then k t (bit f.md 5) d a b (gov f) else ki t (bit f.md 5) d a b (imm f) (gov f))

/-- `vlds`, `vsts`. -/
def strideOp (f : Fields) (k : Ty → Bool → VReg → SReg → SReg → MReg → Instr)
    (ki : Ty → Bool → VReg → SReg → SReg → Imm → MReg → Instr) : Dec Instr := do
  tails f [2, 3]
  zero [bits f.md 6 6, bits f.md 4 0]
  let t ← anyTy f
  let d ← vreg f.d
  let a ← sreg f.a
  let b ← sreg f.b
  accept (if f.ts = 2 then k t (bit f.md 5) d a b (gov f) else ki t (bit f.md 5) d a b (imm f) (gov f))

/-- `vldseg`, `vstseg`. -/
def segOp (f : Fields) (k : Fin 8 → Ty → Bool → VReg → SReg → MReg → Instr)
    (ki : Fin 8 → Ty → Bool → VReg → SReg → Imm → MReg → Instr) : Dec Instr := do
  tails f [2, 3]
  zero [f.b, bits f.md 6 6, bits f.md 4 3]
  need (bits f.md 2 0 ≠ 0) .reserved
  let t ← anyTy f
  let d ← vreg f.d
  let a ← sreg f.a
  let nf := Fin.ofNat 8 (bits f.md 2 0)
  accept (if f.ts = 2 then k nf t (bit f.md 5) d a (gov f) else ki nf t (bit f.md 5) d a (imm f) (gov f))

/-- `vgather` and its kin: `genOnly` for the linked forms; `x` accepts a mask register in [2:0]. -/
def gatherOp (f : Fields) (genOnly x : Bool) (k : Ty → Bool → VReg → SReg → VReg → MReg → Instr)
    (kc : Ty → Bool → VReg → SReg → VReg → SReg → MReg → Instr) : Dec Instr := do
  tails f [2, 3]
  zero [bits f.md 6 6, bits f.md 4 3, if x then 0 else bits f.md 2 0]
  immZero f [bits f.w1 25 0]
  let t ← anyTy f
  let d ← vreg f.d
  let a ← sreg f.a
  let b ← vreg f.b
  let c ← sreg (if f.ts = 3 then bits f.w1 31 26 else 0)
  need (!(genOnly && bit f.md 5)) .operand
  accept (if f.ts = 2 then k t (bit f.md 5) d a b (gov f) else kc t (bit f.md 5) d a b c (gov f))

/-- The full/empty accesses, in the scratchpad alone (R197). -/
def feOp (f : Fields) (q : Bool) (k : Ty → Bool → VReg → SReg → MReg → Instr)
    (ki : Ty → Bool → VReg → SReg → Imm → MReg → Instr) : Dec Instr := do
  tails f [2, 3]
  zero [f.b, bits f.md 6 6, bits f.md 4 4, bits f.md 2 0, if q then 0 else bits f.md 3 3]
  let t ← anyTy f
  let d ← vreg f.d
  let a ← sreg f.a
  need (bit f.md 5) .operand
  accept (if f.ts = 2 then k t (bit f.md 3) d a (gov f) else ki t (bit f.md 3) d a (imm f) (gov f))

/-- md of `vscatter.c`. -/
def statusMask (f : Fields) : MReg := Fin.ofNat 8 (bits f.md 2 0)

def decode60 (f : Fields) : Dec Instr :=
  match f.fn with
  | 0 => unitOp f false .vld .vldImm
  | 1 => strideOp f .vlds .vldsImm
  | 2 => segOp f .vldseg .vldsegImm
  | 3 => unitOp f false .vst .vstImm
  | 4 => strideOp f .vsts .vstsImm
  | 5 => segOp f .vstseg .vstsegImm
  | 6 => gatherOp f false false .vgather .vgatherBounded
  | 7 => gatherOp f false false .vscatter .vscatterBounded
  | 8 => gatherOp f true false (fun t _ => .vgatherL t) (fun t _ => .vgatherLBounded t)
  | 9 => gatherOp f true true (fun t _ => .vscatterC t (statusMask f)) (fun t _ => .vscatterCBounded t (statusMask f))
  | 10 => feOp f true .vldFe .vldFeImm
  | 11 => feOp f false (fun t _ => .vstFe t) (fun t _ => .vstFeImm t)
  | 12 => unitOp f true (fun t _ => .cvld t) (fun t _ => .cvldImm t)
  | _ => .error .unassignedFn

/-- `lldx`, `lstx` (R212). -/
def laneOp (f : Fields) (k : Ty → VReg → VReg → MReg → Instr) (ki : Ty → VReg → VReg → Imm → MReg → Instr) : Dec Instr := do
  tails f [2, 3]
  zero [f.b, bits f.md 6 6, bits f.md 4 0]
  let t ← anyTy f
  let d ← vreg f.d
  let a ← vreg f.a
  need (!bit f.md 5) .operand
  accept (if f.ts = 2 then k t d a (gov f) else ki t d a (imm f) (gov f))

def fold : Nat → Dec Fold
  | 0 => .ok .add
  | 1 => .ok .min
  | 2 => .ok .max
  | _ => .error .reserved

def foldCode : Fold → Nat
  | .add => 0 | .min => 1 | .max => 2

def wcc : Nat → WCc
  | 0 => .eq
  | 1 => .ne
  | 2 => .ge
  | _ => .lt

def wccCode : WCc → Nat
  | .eq => 0 | .ne => 1 | .ge => 2 | .lt => 3

def decode61 (f : Fields) : Dec Instr :=
  match f.fn with
  | 0 => laneOp f .lldx .lldxImm
  | 1 => laneOp f .lstx .lstxImm
  | 2 => do
    tails f [2, 3]
    zero [f.d, f.m, bits f.md 10 1]
    let a ← sreg f.a
    let b ← sreg f.b
    accept (if f.ts = 2 then .spclr (bit f.md 0) a b else .spclrImm (bit f.md 0) a b (imm f))
  | 3 => do
    tails f [3]
    zero [f.d, f.m, bits f.md 4 0]
    let t ← ty (bits f.md 10 7) (fun t => t.okAwin || t = .lns6)
    let op ← fold (bits f.md 6 5)
    let a ← sreg f.a
    let b ← sreg f.b
    accept (.awin t op a b (imm f))
  | 4 => do
    tails f [2]
    zero [f.d, f.md]
    let a ← vreg f.a
    let b ← vreg f.b
    accept (.aupd a b (gov f))
  | 5 => do tails f [0]; accept .amerge
  | 6 => do
    tails f [3]
    zero [bits f.md 6 6, bits f.md 2 0]
    let d ← mreg f.d
    let a ← sreg f.a
    let b ← vreg f.b
    let c ← vreg (bits f.w1 31 26)
    match tyOf (bits f.md 10 7) with
    | some t => accept (.vwait (wcc (bits f.md 4 3)) t (bit f.md 5) (BitVec.ofNat 26 f.w1) d a b c (gov f))
    | none => .error .operand
  | _ => .error .unassignedFn

/-! ### Tile, matrix, copy and barrier instructions (R228, R229) -/

/-- `tld`, `tld.e` and `tst`: the plain form with a T2 tail, the LNS6 form with a T4C tail. -/
def tileOp (f : Fields) (roleOk sbOk spMust : Bool) (k : Ty → TReg → SReg → SReg → Instr)
    (kl : Ty → TReg → SReg → SReg → SReg → Half → Instr) : Dec Instr := do
  tails f [2, 3]
  zero [f.m, bits f.md 6 6, if roleOk then 0 else bits f.md 4 4, if sbOk then 0 else bits f.md 3 0]
  immZero f [bits f.w1 25 16]
  let t ← ty (bits f.md 10 7) Ty.okTileD
  let d ← treg f.d
  let a ← sreg f.a
  let b ← sreg f.b
  let c ← sreg (if f.ts = 3 then bits f.w1 31 26 else 0)
  need (!spMust || bit f.md 5) .operand
  accept (if f.ts = 2 then k t d a b else kl t d a b c (BitVec.ofNat 16 f.w1))

/-- `mma.o`, `mma.r` (R235). -/
def mmaOp (f : Fields) (k : Ty → Bool → Bool → Bool → ZReg → TReg → TReg → Instr) : Dec Instr := do
  tails f [2]
  zero [f.m, bits f.md 3 0]
  let t ← ty (bits f.md 10 7) Ty.okTileD
  need (uFits t (bit f.md 6) (bit f.md 5)) .reserved
  let d ← treg f.d
  let a ← treg f.a
  let b ← treg f.b
  accept (k t (bit f.md 6) (bit f.md 5) (bit f.md 4) d a b)

def decode70 (f : Fields) : Dec Instr :=
  match f.fn with
  | 0 => do
    tails f [3]
    zero [f.m, bits f.md 6 0, bits f.w1 25 0]
    let t ← ty (bits f.md 10 7) Ty.okTile
    let d ← sreg f.d
    let a ← sreg f.a
    let b ← sreg f.b
    let c ← sreg (bits f.w1 31 26)
    accept (.settile t d a b c)
  | 1 => tileOp f true false false (fun t => .tld t (bit f.md 5) (bit f.md 4)) (fun t => .tldLns6 t (bit f.md 5) (bit f.md 4))
  | 2 => tileOp f true true true (fun t => .tldE t (bit f.md 4) (fin4 f.md)) (fun t => .tldELns6 t (bit f.md 4) (fin4 f.md))
  | 3 => tileOp f false false false (fun t => .tst t (bit f.md 5)) (fun t => .tstLns6 t (bit f.md 5))
  | 4 => do
    tails f [3]
    zero [bits f.md 6 6, bits f.md 3 0, bits f.w1 25 0]
    let t ← ty (bits f.md 10 7) Ty.okTileD
    let d ← treg f.d
    let a ← sreg f.a
    let b ← sreg f.b
    let c ← vreg (bits f.w1 31 26)
    need (!bit f.md 5) .operand
    accept (.tldg t (bit f.md 4) d a b c (gov f))
  | 5 => mmaOp f .mmaO
  | 6 => mmaOp f .mmaR
  | 7 => do
    tails f [2, 3]
    zero [f.m, bits f.md 6 6, bits f.md 4 0]
    let t ← ty (bits f.md 10 7) Ty.okZld
    let d ← treg f.d
    let a ← sreg f.a
    let b ← sreg f.b
    accept (if f.ts = 2 then .zld t (bit f.md 5) d a b else .zldImm t (bit f.md 5) d a b (imm f))
  | 8 => do
    tails f [2, 3]
    zero [f.m, bits f.md 6 6, bits f.md 1 0]
    let t ← ty (bits f.md 10 7) Ty.okZst
    let r ← rmo (bits f.md 4 2)
    let d ← treg f.d
    let a ← sreg f.a
    let b ← sreg f.b
    accept (if f.ts = 2 then .zst t (bit f.md 5) r d a b else .zstImm t (bit f.md 5) r d a b (imm f))
  | 9 => do
    tails f [1]
    zero [f.a, bits f.md 2 0]
    let d ← treg f.d
    accept (.zclr (bit f.md 3) d)
  | _ => .error .unassignedFn

def grantOf : Nat → Dec Grant
  | 0 => .ok .none
  | 1 => .ok .a
  | 2 => .ok .b
  | _ => .error .reserved

def grantCode : Grant → Nat
  | .none => 0 | .a => 1 | .b => 2

/-- `sbinit`, `sbexp` (R247, R248). -/
def barOp (f : Fields) (k : Fin 16 → SReg → Instr) : Dec Instr := do
  tails f [2]
  zero [f.d, f.b, f.m, bits f.md 10 4]
  let a ← sreg f.a
  accept (k (fin4 f.md) a)

def decode78 (f : Fields) : Dec Instr :=
  match f.fn with
  | 0 => do
    tails f [3]
    zero [f.m, f.md, bits f.w1 25 7, if bit f.w1 4 then 0 else bits f.w1 3 0]
    let g ← grantOf (bits f.w1 6 5)
    let d ← sreg f.d
    let a ← sreg f.a
    let b ← sreg f.b
    let c ← sreg (bits f.w1 31 26)
    accept (.tcopy g (bit f.w1 4) (fin4 f.w1) d a b c)
  | 1 => do
    tails f [3]
    zero [f.m, f.md, bits f.w1 25 7, bits f.w1 4 0]
    let g ← grantOf (bits f.w1 6 5)
    let d ← sreg f.d
    let a ← sreg f.a
    let b ← sreg f.b
    let c ← sreg (bits f.w1 31 26)
    accept (.tcopyo g d a b c)
  | 2 => do
    tails f [2]
    zero [f.d, f.b, f.m, f.md]
    let a ← sreg f.a
    accept (.tdfence a)
  | 3 => barOp f .sbinit
  | 4 => barOp f .sbexp
  | 5 => do
    tails f [2]
    zero [f.b, f.m, bits f.md 10 5]
    let d ← sreg f.d
    let a ← sreg f.a
    accept (.sbwait (bit f.md 4) (fin4 f.md) d a)
  | 6 => do
    tails f [1]
    zero [f.d, f.a]
    accept (.sbrel (fin4 f.md))
  | _ => .error .unassignedFn

/-! ### Collectives (R254) and the gain heap (R329) -/

def decode79 (f : Fields) : Dec Instr :=
  match f.fn with
  | 0 => do
    tails f [3]
    zero [f.b, f.m, bits f.w1 25 9, if bit f.md 4 then 0 else bits f.md 3 0]
    let t ← ty (bits f.md 10 7) Ty.okCol
    let op ← fold (bits f.md 6 5)
    let d ← sreg f.d
    let a ← sreg f.a
    let c ← sreg (bits f.w1 31 26)
    accept (.colred t op (bit f.md 4) (fin4 f.md) (Fin.ofNat 512 f.w1) d a c)
  | 1 => do
    tails f [3]
    zero [f.b, f.m, bits f.md 10 5, bits f.w1 25 17, if bit f.md 4 then 0 else bits f.md 3 0]
    let d ← sreg f.d
    let a ← sreg f.a
    let c ← sreg (bits f.w1 31 26)
    accept (.colbcast (bit f.md 4) (fin4 f.md) (Fin.ofNat 512 f.w1) (Fin.ofNat 256 (bits f.w1 16 9)) d a c)
  | 2 => do tails f [0]; accept .colwait
  | _ => .error .unassignedFn

def hsel : Nat → Dec HSel
  | 0 => .ok .rlo
  | 1 => .ok .rhi
  | 2 => .ok .live
  | 3 => .ok .run
  | 4 => .ok .flags
  | 5 => .ok .tol
  | 6 => .ok .cap
  | _ => .error .reserved

def hselCode : HSel → Nat
  | .rlo => 0 | .rhi => 1 | .live => 2 | .run => 3 | .flags => 4 | .tol => 5 | .cap => 6

/-- H of a heap instruction. -/
def heapNo (f : Fields) : Fin 4 := Fin.ofNat 4 f.md

/-- `gadd`, `gset`. -/
def gainOp (f : Fields) (k : Bool → Fin 4 → SReg → SReg → SReg → Instr) : Dec Instr := do
  tails f [2]
  zero [f.m, bits f.md 10 3]
  let d ← sreg f.d
  let a ← sreg f.a
  let b ← sreg f.b
  accept (k (bit f.md 2) (heapNo f) d a b)

def decode7C (f : Fields) : Dec Instr :=
  match f.fn with
  | 0 => do
    tails f [3]
    zero [f.a, f.b, f.m, bits f.md 10 3, bits f.w1 25 0]
    let d ← sreg f.d
    let c ← sreg (bits f.w1 31 26)
    accept (.hpop (bit f.md 2) (heapNo f) d c)
  | 1 => gainOp f .gadd
  | 2 => gainOp f .gset
  | 3 => do
    tails f [2]
    zero [f.b, f.m, bits f.md 10 2]
    let d ← sreg f.d
    let a ← sreg f.a
    accept (.hgrow (heapNo f) d a)
  | 4 => do
    tails f [2]
    zero [f.d, f.b, f.m, bits f.md 10 3]
    let a ← sreg f.a
    accept (.hdone (bit f.md 2) (heapNo f) a)
  | 5 => do
    tails f [2]
    zero [f.a, f.b, f.m, bits f.md 10 6, bits f.md 2 2]
    let x ← hsel (bits f.md 5 3)
    let d ← sreg f.d
    accept (.hres x (heapNo f) d)
  | _ => .error .unassignedFn

/-- The instruction of the fields, by major opcode (R102, R103). -/
def decodeFields (f : Fields) : Dec Instr :=
  match f.maj with
  | 0x00 => decode00 f
  | 0x01 => decode01 f
  | 0x02 => decode02 f
  | 0x10 => decode10 f
  | 0x18 => decode18 f
  | 0x20 => decode20 f
  | 0x21 => decode21 f
  | 0x28 => decode28 f
  | 0x29 => decode29 f
  | 0x30 => decode30 f
  | 0x40 => decode40 f
  | 0x41 => decode41 f
  | 0x50 => decode50 f
  | 0x58 => decode58 f
  | 0x59 => decode59 f
  | 0x60 => decode60 f
  | 0x61 => decode61 f
  | 0x70 => decode70 f
  | 0x78 => decode78 f
  | 0x79 => decode79 f
  | 0x7C => decode7C f
  | _ => .error .unassignedMaj

/-- A head halfword and its tail, read as one number with the first halfword lowest (R86, R89). -/
def decodeHead (head tail : Nat) : Dec Coded :=
  (decodeFields (splitFields head tail)).map fun i => { sc := head / 2 ^ 11 % 2 ^ 3, insn := i }

/-- Halfwords as a number, the first lowest. -/
def halfsVal : List Half → Nat
  | [] => 0
  | h :: t => h.toNat + 65536 * halfsVal t

/-- A head halfword and what follows it: the instruction and the halfwords left, or the reason; none when there are too few
halfwords. Halfwords are stored little-endian (R82). -/
def decodeHalfs : List Half → Option (Dec Coded × List Half)
  | [] => none
  | h :: t =>
    let n := tailHalfs (h.toNat / 2 ^ 14)
    if t.length < n then none else some (decodeHead h.toNat (halfsVal (t.take n)), t.drop n)

/-! ### The encoder -/

def encR (maj fn : Nat) (w u : Bool) (d a b : SReg) : Fields :=
  { ts := 2, maj := maj, fn := fn, d := d, a := a, b := b, md := w.toNat * 2 ^ 10 + u.toNat * 2 ^ 9 }

def encB (fn d a : Nat) (off : BitVec 15) (hi : Fin 32) : Fields :=
  { ts := 2, maj := 0x18, fn := fn, d := d, a := a, b := off.toNat / 2 ^ 9, m := off.toNat / 2 ^ 6 % 2 ^ 3,
    md := off.toNat % 2 ^ 6 * 2 ^ 5 + hi.val }

def encOrd (w : AccW) (u sp acq : Bool) (sc : Scope) : Nat :=
  accCode w * 2 ^ 9 + u.toNat * 2 ^ 8 + sp.toNat * 2 ^ 6 + acq.toNat * 2 ^ 4 + scopeCode sc * 2

/-- BS and b of y (R162). -/
def ySel : VSrc → Nat
  | .vec _ => 0
  | .scal _ => 1

def yReg : VSrc → Nat
  | .vec v => v
  | .scal r => r

def encI (fn : Nat) (t : Ty) (sat : Bool) (d a : VReg) (y : VSrc) (m : MReg) : Fields :=
  { ts := 2, maj := 0x30, fn := fn, d := d, a := a, b := yReg y, m := m, md := tyCode t * 2 ^ 7 + ySel y * 2 ^ 6 + sat.toNat * 2 ^ 5 }

def encIImm (fn : Nat) (t : Ty) (sat : Bool) (d a : VReg) (i : Imm) (m : MReg) : Fields :=
  { ts := 3, maj := 0x30, fn := fn, d := d, a := a, m := m, md := tyCode t * 2 ^ 7 + sat.toNat * 2 ^ 5, w1 := i.toNat }

def encF (fn : Nat) (t : Ty) (r : Rmo) (np nc : Bool) (d a : VReg) (y : VSrc) (m : MReg) : Fields :=
  { ts := 2, maj := 0x40, fn := fn, d := d, a := a, b := yReg y, m := m,
    md := tyCode t * 2 ^ 7 + rmoCode r * 2 ^ 4 + ySel y * 2 ^ 3 + np.toNat * 2 ^ 2 + nc.toNat * 2 }

def encFImm (fn : Nat) (t : Ty) (r : Rmo) (np nc : Bool) (d a : VReg) (i : Imm) (m : MReg) : Fields :=
  { ts := 3, maj := 0x40, fn := fn, d := d, a := a, m := m,
    md := tyCode t * 2 ^ 7 + rmoCode r * 2 ^ 4 + np.toNat * 2 ^ 2 + nc.toNat * 2, w1 := i.toNat }

def encF1 (fn : Nat) (t : Ty) (r : Rmo) (d a : VReg) (m : MReg) : Fields :=
  { ts := 2, maj := 0x40, fn := fn, d := d, a := a, m := m, md := tyCode t * 2 ^ 7 + rmoCode r * 2 ^ 4 }

/-- MODE and b of `vcvt`. -/
def cvtCode : CvtMode → Nat
  | .round r => rmoCode r
  | .plain => 0
  | .sat => 1
  | .own => 0
  | .gs _ => 1
  | .gv _ => 2

def cvtReg : CvtMode → Nat
  | .gs r => r
  | .gv v => v
  | _ => 0

/-- `vlmul` and `vladd` with a given scale. -/
def encGiven (fn : Nat) (t : Ty) (g : VSrc) (d a b : VReg) (m : MReg) : Fields :=
  { ts := 3, maj := 0x41, fn := fn, d := d, a := a, b := b, m := m, md := tyCode t * 2 ^ 7 + (2 - ySel g) * 2 ^ 4,
    w1 := yReg g * 2 ^ 26 }

def encM (maj fn d a b m : Nat) : Fields := { ts := 2, maj := maj, fn := fn, d := d, a := a, b := b, m := m }

/-- A T2 or T4I tail whose modifier is a type and nothing else. -/
def encT (maj fn : Nat) (t : Ty) (d a b m : Nat) : Fields :=
  { ts := 2, maj := maj, fn := fn, d := d, a := a, b := b, m := m, md := tyCode t * 2 ^ 7 }

def encTImm (maj fn : Nat) (t : Ty) (d a m : Nat) (i : Imm) : Fields :=
  { ts := 3, maj := maj, fn := fn, d := d, a := a, m := m, md := tyCode t * 2 ^ 7, w1 := i.toNat }

/-- y of `vsel` and `vmov`. -/
def encY (fn : Nat) (t : Ty) (d a : Nat) (y : VSrc) (m : MReg) : Fields :=
  { ts := 2, maj := 0x58, fn := fn, d := d, a := a, b := yReg y, m := m, md := tyCode t * 2 ^ 7 + ySel y * 2 ^ 6 }

def movD : MovS → Nat
  | .ext d _ => d
  | .ins d _ => d

def movA : MovS → Nat
  | .ext _ a => a
  | .ins _ a => a

def movIns : MovS → Nat
  | .ext _ _ => 0
  | .ins _ _ => 1

/-- Modifier of MAJ 0x60 and 0x61 (R197). -/
def encX (t : Ty) (sp : Bool) (q x : Nat) : Nat := tyCode t * 2 ^ 7 + sp.toNat * 2 ^ 5 + q * 2 ^ 3 + x

def encV (fn : Nat) (t : Ty) (sp : Bool) (q x d a b m : Nat) : Fields :=
  { ts := 2, maj := 0x60, fn := fn, d := d, a := a, b := b, m := m, md := encX t sp q x }

def encVImm (fn : Nat) (t : Ty) (sp : Bool) (q x d a b m : Nat) (i : Imm) : Fields :=
  { ts := 3, maj := 0x60, fn := fn, d := d, a := a, b := b, m := m, md := encX t sp q x, w1 := i.toNat }

def encVC (fn : Nat) (t : Ty) (sp : Bool) (x d a b c m : Nat) : Fields :=
  { ts := 3, maj := 0x60, fn := fn, d := d, a := a, b := b, m := m, md := encX t sp 0 x, w1 := c * 2 ^ 26 }

/-- Tile loads and stores (R229). -/
def encTile (fn : Nat) (t : Ty) (sp role : Bool) (sb d a b : Nat) : Fields :=
  { ts := 2, maj := 0x70, fn := fn, d := d, a := a, b := b, md := tyCode t * 2 ^ 7 + sp.toNat * 2 ^ 5 + role.toNat * 2 ^ 4 + sb }

def encTileLns (fn : Nat) (t : Ty) (sp role : Bool) (sb d a b c : Nat) (stride : Half) : Fields :=
  { ts := 3, maj := 0x70, fn := fn, d := d, a := a, b := b, md := tyCode t * 2 ^ 7 + sp.toNat * 2 ^ 5 + role.toNat * 2 ^ 4 + sb,
    w1 := c * 2 ^ 26 + stride.toNat }

def encMma (fn : Nat) (t : Ty) (ua ub z : Bool) (d a b : Nat) : Fields :=
  { ts := 2, maj := 0x70, fn := fn, d := d, a := a, b := b,
    md := tyCode t * 2 ^ 7 + ua.toNat * 2 ^ 6 + ub.toNat * 2 ^ 5 + z.toNat * 2 ^ 4 }

/-- REL or NB, H and SEL of the heap instructions (R329). -/
def encH (fn : Nat) (sel : Nat) (r : Bool) (h : Fin 4) (d a b : Nat) : Fields :=
  { ts := 2, maj := 0x7C, fn := fn, d := d, a := a, b := b, md := sel * 2 ^ 3 + r.toNat * 2 ^ 2 + h.val }

/-- The fields of an instruction (R115, R160, R196, R228, R329); an event has none, and is given a major opcode that is not
assigned. -/
def encodeFields : Instr → Fields
  | .nop => { ts := 0, maj := 0x00, fn := 0 }
  | .add w d a b => encR 0x00 1 w false d a b
  | .sub w d a b => encR 0x00 2 w false d a b
  | .and w d a b => encR 0x00 3 w false d a b
  | .or w d a b => encR 0x00 4 w false d a b
  | .xor w d a b => encR 0x00 5 w false d a b
  | .shl w d a b => encR 0x00 6 w false d a b
  | .shr w d a b => encR 0x00 7 w false d a b
  | .sra w d a b => encR 0x00 8 w false d a b
  | .min w u d a b => encR 0x00 9 w u d a b
  | .max w u d a b => encR 0x00 10 w u d a b
  | .seq w d a b => encR 0x00 11 w false d a b
  | .slt w d a b => encR 0x00 12 w false d a b
  | .sltu w d a b => encR 0x00 13 w false d a b
  | .sel d a b c => { ts := 3, maj := 0x00, fn := 14, d := d, a := a, b := b, w1 := c.val * 2 ^ 26 }
  | .lea n d a b => { ts := 2, maj := 0x00, fn := 15, d := d, a := a, b := b, md := n }
  | .leaImm n d a b i => { ts := 3, maj := 0x00, fn := 15, d := d, a := a, b := b, md := n, w1 := i.toNat }
  | .mul w d a b => encR 0x01 0 w false d a b
  | .mulh w u d a b => encR 0x01 1 w u d a b
  | .div w u d a b => encR 0x01 2 w u d a b
  | .rem w u d a b => encR 0x01 3 w u d a b
  | .clz w d a => { ts := 1, maj := 0x01, fn := 4, d := d, a := a, md := w.toNat * 8 }
  | .popc w d a => { ts := 1, maj := 0x01, fn := 5, d := d, a := a, md := w.toNat * 8 }
  | .sext x d a => { ts := 1, maj := 0x01, fn := 6, d := d, a := a, md := extCode x }
  | .zext x d a => { ts := 1, maj := 0x01, fn := 7, d := d, a := a, md := extCode x }
  | .addi w d a i => { ts := 3, maj := 0x02, fn := 0, d := d, a := a, md := w.toNat * 2 ^ 10, w1 := i.toNat }
  | .li hi d a i => { ts := 3, maj := 0x02, fn := 1, d := d, a := a, md := hi.toNat * 2 ^ 9, w1 := i.toNat }
  | .fadd t r nb d a b =>
    { ts := 2, maj := 0x10, fn := 0, d := d, a := a, b := b, md := ftyCode t * 2 ^ 7 + rmoCode r * 2 ^ 4 + nb.toNat * 4 }
  | .fmul t r np d a b =>
    { ts := 2, maj := 0x10, fn := 1, d := d, a := a, b := b, md := ftyCode t * 2 ^ 7 + rmoCode r * 2 ^ 4 + np.toNat * 8 }
  | .ffma t r np nc d a b c =>
    { ts := 3, maj := 0x10, fn := 2, d := d, a := a, b := b,
      md := ftyCode t * 2 ^ 7 + rmoCode r * 2 ^ 4 + np.toNat * 8 + nc.toNat * 4, w1 := c.val * 2 ^ 26 }
  | .fcvt dt st r d a =>
    { ts := 2, maj := 0x10, fn := 3, d := d, a := a, md := tyCode dt * 2 ^ 7 + rmoCode r * 2 ^ 4 + tyCode st }
  | .br o h => encB 0 0 0 o h
  | .beq d a o h => encB 1 d a o h
  | .bne d a o h => encB 2 d a o h
  | .blt d a o h => encB 3 d a o h
  | .bge d a o h => encB 4 d a o h
  | .bltu d a o h => encB 5 d a o h
  | .bgeu d a o h => encB 6 d a o h
  | .call d o h => encB 7 d 0 o h
  | .ret a => { ts := 1, maj := 0x18, fn := 8, a := a }
  | .jr d a => { ts := 1, maj := 0x18, fn := 9, d := d, a := a }
  | .mfs d n => { ts := 2, maj := 0x20, fn := 0, d := d, md := n }
  | .mts n a => { ts := 2, maj := 0x20, fn := 1, a := a, md := n }
  | .trap a c dt => { ts := 3, maj := 0x20, fn := 2, a := a, w1 := dt.toNat * 2 ^ 16 + c.val }
  | .tret m => { ts := 1, maj := 0x20, fn := 3, md := tretCode m }
  | .brk n => { ts := 1, maj := 0x20, fn := 4, md := n }
  | .sysc n => { ts := 2, maj := 0x20, fn := 5, md := n }
  | .yield => { ts := 0, maj := 0x20, fn := 6 }
  | .halt => { ts := 0, maj := 0x20, fn := 7 }
  | .idle a => { ts := 1, maj := 0x20, fn := 8, a := a }
  | .join b => { ts := 1, maj := 0x21, fn := 0, md := b }
  | .leave b => { ts := 1, maj := 0x21, fn := 1, md := b }
  | .bsync b => { ts := 1, maj := 0x21, fn := 2, md := b }
  | .gbar => { ts := 0, maj := 0x21, fn := 3 }
  | .elect d b => { ts := 1, maj := 0x21, fn := 4, d := d, md := b }
  | .regclm n => { ts := 2, maj := 0x21, fn := 5, md := n }
  | .regrel n => { ts := 2, maj := 0x21, fn := 6, md := n }
  | .wqry a => { ts := 2, maj := 0x21, fn := 7, a := a }
  | .wqryImm a i => { ts := 3, maj := 0x21, fn := 7, a := a, w1 := i.toNat }
  | .launch d a b => { ts := 2, maj := 0x21, fn := 8, d := d, a := a, b := b }
  | .launchImm d a b i => { ts := 3, maj := 0x21, fn := 8, d := d, a := a, b := b, w1 := i.toNat }
  | .vsave a => { ts := 2, maj := 0x21, fn := 9, a := a }
  | .vsaveImm a i => { ts := 3, maj := 0x21, fn := 9, a := a, w1 := i.toNat }
  | .vrestore a => { ts := 2, maj := 0x21, fn := 10, a := a }
  | .vrestoreImm a i => { ts := 3, maj := 0x21, fn := 10, a := a, w1 := i.toNat }
  | .scrub c t r l d a =>
    { ts := 2, maj := 0x21, fn := 11, d := d, a := a, md := c.toNat * 8 + t.toNat * 4 + r.toNat * 2 + l.toNat }
  | .ld w u sp acq sc d a => { ts := 2, maj := 0x28, fn := 0, d := d, a := a, md := encOrd w u sp acq sc }
  | .ldImm w u sp acq sc d a i => { ts := 3, maj := 0x28, fn := 0, d := d, a := a, md := encOrd w u sp acq sc, w1 := i.toNat }
  | .st w sp rel sc a b => { ts := 2, maj := 0x28, fn := 1, a := a, b := b, md := encOrd w false sp rel sc }
  | .stImm w sp rel sc a b i =>
    { ts := 3, maj := 0x28, fn := 1, a := a, b := b, md := encOrd w false sp rel sc, w1 := i.toNat }
  | .amo op dbl o d a b =>
    { ts := 2, maj := 0x28, fn := 2, d := d, a := a, b := b, md := amoCode op * 2 ^ 7 + dbl.toNat * 2 ^ 6 + aordCode o * 2 ^ 4 }
  | .amoCas dbl o d a b c =>
    { ts := 3, maj := 0x28, fn := 2, d := d, a := a, b := b, md := 9 * 2 ^ 7 + dbl.toNat * 2 ^ 6 + aordCode o * 2 ^ 4,
      w1 := c.val * 2 ^ 26 }
  | .fence m sc => { ts := 2, maj := 0x28, fn := 3, md := semCode m * 2 ^ 4 + scopeCode sc * 2 }
  | .stwin w d a b => { ts := 2, maj := 0x29, fn := 0, d := d, a := a, b := b, md := w }
  | .stflush w => { ts := 2, maj := 0x29, fn := 1, md := w }
  | .stinv dis w => { ts := 2, maj := 0x29, fn := 2, md := dis.toNat * 2 ^ 4 + w.val }
  | .dcfence a => { ts := 2, maj := 0x29, fn := 3, a := a }
  | .dcfenceImm a i => { ts := 3, maj := 0x29, fn := 3, a := a, w1 := i.toNat }
  | .vadd t s d a y m => encI 0 t s d a y m
  | .vaddImm t s d a i m => encIImm 0 t s d a i m
  | .vsub t s d a y m => encI 1 t s d a y m
  | .vsubImm t s d a i m => encIImm 1 t s d a i m
  | .vmul t d a y m => encI 2 t false d a y m
  | .vmulImm t d a i m => encIImm 2 t false d a i m
  | .vmulh t d a y m => encI 3 t false d a y m
  | .vmulhImm t d a i m => encIImm 3 t false d a i m
  | .vmin t d a y m => encI 4 t false d a y m
  | .vminImm t d a i m => encIImm 4 t false d a i m
  | .vmax t d a y m => encI 5 t false d a y m
  | .vmaxImm t d a i m => encIImm 5 t false d a i m
  | .vand t d a y m => encI 6 t false d a y m
  | .vandImm t d a i m => encIImm 6 t false d a i m
  | .vor t d a y m => encI 7 t false d a y m
  | .vorImm t d a i m => encIImm 7 t false d a i m
  | .vxor t d a y m => encI 8 t false d a y m
  | .vxorImm t d a i m => encIImm 8 t false d a i m
  | .vshl t d a y m => encI 9 t false d a y m
  | .vshlImm t d a i m => encIImm 9 t false d a i m
  | .vshr t d a y m => encI 10 t false d a y m
  | .vshrImm t d a i m => encIImm 10 t false d a i m
  | .vsra t d a y m => encI 11 t false d a y m
  | .vsraImm t d a i m => encIImm 11 t false d a i m
  | .vfadd t r d a y m => encF 0 t r false false d a y m
  | .vfaddImm t r d a i m => encFImm 0 t r false false d a i m
  | .vfsub t r d a y m => encF 1 t r false false d a y m
  | .vfsubImm t r d a i m => encFImm 1 t r false false d a i m
  | .vfmul t r np d a y m => encF 2 t r np false d a y m
  | .vfmulImm t r np d a i m => encFImm 2 t r np false d a i m
  | .vffma t r np nc d a y m => encF 3 t r np nc d a y m
  | .vffmaImm t r np nc d a i m => encFImm 3 t r np nc d a i m
  | .vfmin t r d a y m => encF 4 t r false false d a y m
  | .vfminImm t r d a i m => encFImm 4 t r false false d a i m
  | .vfmax t r d a y m => encF 5 t r false false d a y m
  | .vfmaxImm t r d a i m => encFImm 5 t r false false d a i m
  | .vfdiv t r d a y m => encF 6 t r false false d a y m
  | .vfdivImm t r d a i m => encFImm 6 t r false false d a i m
  | .vfsqrt t r d a m => encF1 7 t r d a m
  | .vfrsq t r d a m => encF1 8 t r d a m
  | .vfexp2 t r d a m => encF1 9 t r d a m
  | .vflog2 t r d a m => encF1 10 t r d a m
  | .vcvt dt src mode d a m =>
    { ts := 2, maj := 0x41, fn := 0, d := d, a := a, b := cvtReg mode, m := m,
      md := tyCode dt * 2 ^ 7 + cvtCode mode * 2 ^ 4 + tyCode src }
  | .vlmul t d a b m => encT 0x41 1 t d a b m
  | .vlmulGiven t g d a b m => encGiven 1 t g d a b m
  | .vladd t d a b m => encT 0x41 2 t d a b m
  | .vladdGiven t g d a b m => encGiven 2 t g d a b m
  | .vsetvl p d a => { ts := 2, maj := 0x50, fn := 0, d := d, a := a, md := p.toNat }
  | .vsetvlType p d a v => { ts := 3, maj := 0x50, fn := 0, d := d, a := a, md := p.toNat, w1 := vtypeCode v }
  | .vsettype a => { ts := 1, maj := 0x50, fn := 1, a := a }
  | .vsettypeImm v => { ts := 3, maj := 0x50, fn := 1, w1 := vtypeCode v }
  | .vcmp cc t z d a y m =>
    { ts := 2, maj := 0x50, fn := 2, d := d, a := a, b := yReg y, m := m,
      md := tyCode t * 2 ^ 7 + ySel y * 2 ^ 6 + vccCode cc * 2 ^ 3 + z.toNat * 2 ^ 2 }
  | .vcmpImm cc t z d a i m =>
    { ts := 3, maj := 0x50, fn := 2, d := d, a := a, m := m, md := tyCode t * 2 ^ 7 + vccCode cc * 2 ^ 3 + z.toNat * 2 ^ 2,
      w1 := i.toNat }
  | .mand d a b => encM 0x50 3 d a b 0
  | .mor d a b => encM 0x50 4 d a b 0
  | .mxor d a b => encM 0x50 5 d a b 0
  | .mnot d a => { ts := 1, maj := 0x50, fn := 6, d := d, a := a }
  | .mpop d a m => encM 0x50 7 d a 0 m
  | .mfirst d a m => encM 0x50 8 d a 0 m
  | .vif n a => { ts := 1, maj := 0x50, fn := 9, a := a, md := n.toNat }
  | .velse => { ts := 0, maj := 0x50, fn := 10 }
  | .vend => { ts := 0, maj := 0x50, fn := 11 }
  | .vsel t d a y m => encY 0 t d a y m
  | .vselImm t d a i m => encTImm 0x58 0 t d a m i
  | .vperm t d a b m => encT 0x58 1 t d a b m
  | .vslideup t d a b m => encT 0x58 2 t d a b m
  | .vslideupImm t d a i m => encTImm 0x58 2 t d a m i
  | .vslidedn t d a b m => encT 0x58 3 t d a b m
  | .vslidednImm t d a i m => encTImm 0x58 3 t d a m i
  | .vbcast t d a b m => encT 0x58 4 t d a b m
  | .vbcastImm t d a i m => encTImm 0x58 4 t d a m i
  | .vcompress t d x a c m =>
    { ts := 3, maj := 0x58, fn := 5, d := d, a := a, b := x, m := m, md := tyCode t * 2 ^ 7, w1 := c.val * 2 ^ 26 }
  | .vexpand t d a m => encT 0x58 6 t d a 0 m
  | .viota t d a m => encT 0x58 7 t d a 0 m
  | .vmov t d y m => encY 8 t d 0 y m
  | .vmovImm t d i m => encTImm 0x58 8 t d 0 m i
  | .vmovs t op b =>
    { ts := 2, maj := 0x58, fn := 9, d := movD op, a := movA op, b := b, md := tyCode t * 2 ^ 7 + movIns op * 2 ^ 5 }
  | .vmovsImm t op i =>
    { ts := 3, maj := 0x58, fn := 9, d := movD op, a := movA op, md := tyCode t * 2 ^ 7 + movIns op * 2 ^ 5, w1 := i.toNat }
  | .vid t d m => encT 0x58 10 t d 0 0 m
  | .vredsum t d a b m => encT 0x59 0 t d a b m
  | .vredmax t d a b m => encT 0x59 1 t d a b m
  | .vredmin t d a b m => encT 0x59 2 t d a b m
  | .vany d a m => encM 0x59 3 d a 0 m
  | .vall d a m => encM 0x59 4 d a 0 m
  | .vld t sp d a b m => encV 0 t sp 0 0 d a b m
  | .vldImm t sp d a b i m => encVImm 0 t sp 0 0 d a b m i
  | .vst t sp d a b m => encV 3 t sp 0 0 d a b m
  | .vstImm t sp d a b i m => encVImm 3 t sp 0 0 d a b m i
  | .vlds t sp d a b m => encV 1 t sp 0 0 d a b m
  | .vldsImm t sp d a b i m => encVImm 1 t sp 0 0 d a b m i
  | .vsts t sp d a b m => encV 4 t sp 0 0 d a b m
  | .vstsImm t sp d a b i m => encVImm 4 t sp 0 0 d a b m i
  | .vldseg nf t sp d a m => encV 2 t sp 0 nf d a 0 m
  | .vldsegImm nf t sp d a i m => encVImm 2 t sp 0 nf d a 0 m i
  | .vstseg nf t sp d a m => encV 5 t sp 0 nf d a 0 m
  | .vstsegImm nf t sp d a i m => encVImm 5 t sp 0 nf d a 0 m i
  | .vgather t sp d a b m => encV 6 t sp 0 0 d a b m
  | .vgatherBounded t sp d a b c m => encVC 6 t sp 0 d a b c m
  | .vscatter t sp d a b m => encV 7 t sp 0 0 d a b m
  | .vscatterBounded t sp d a b c m => encVC 7 t sp 0 d a b c m
  | .vgatherL t d a b m => encV 8 t false 0 0 d a b m
  | .vgatherLBounded t d a b c m => encVC 8 t false 0 d a b c m
  | .vscatterC t x d a b m => encV 9 t false 0 x d a b m
  | .vscatterCBounded t x d a b c m => encVC 9 t false x d a b c m
  | .vldFe t take d a m => encV 10 t true take.toNat 0 d a 0 m
  | .vldFeImm t take d a i m => encVImm 10 t true take.toNat 0 d a 0 m i
  | .vstFe t d a m => encV 11 t true 0 0 d a 0 m
  | .vstFeImm t d a i m => encVImm 11 t true 0 0 d a 0 m i
  | .cvld t d a b m => encV 12 t false 0 0 d a b m
  | .cvldImm t d a b i m => encVImm 12 t false 0 0 d a b m i
  | .lldx t d a m => encT 0x61 0 t d a 0 m
  | .lldxImm t d a i m => encTImm 0x61 0 t d a m i
  | .lstx t d a m => encT 0x61 1 t d a 0 m
  | .lstxImm t d a i m => encTImm 0x61 1 t d a m i
  | .spclr z a b => { ts := 2, maj := 0x61, fn := 2, a := a, b := b, md := z.toNat }
  | .spclrImm z a b i => { ts := 3, maj := 0x61, fn := 2, a := a, b := b, md := z.toNat, w1 := i.toNat }
  | .awin t op a b i => { ts := 3, maj := 0x61, fn := 3, a := a, b := b, md := tyCode t * 2 ^ 7 + foldCode op * 2 ^ 5, w1 := i.toNat }
  | .aupd a b m => encM 0x61 4 0 a b m
  | .amerge => { ts := 0, maj := 0x61, fn := 5 }
  | .vwait cc t sp tmo d a b c m =>
    { ts := 3, maj := 0x61, fn := 6, d := d, a := a, b := b, m := m, md := tyCode t * 2 ^ 7 + sp.toNat * 2 ^ 5 + wccCode cc * 2 ^ 3,
      w1 := c.val * 2 ^ 26 + tmo.toNat }
  | .settile t d a b c => { ts := 3, maj := 0x70, fn := 0, d := d, a := a, b := b, md := tyCode t * 2 ^ 7, w1 := c.val * 2 ^ 26 }
  | .tld t sp role d a b => encTile 1 t sp role 0 d a b
  | .tldLns6 t sp role d a b c s => encTileLns 1 t sp role 0 d a b c s
  | .tldE t role sb d a b => encTile 2 t true role sb d a b
  | .tldELns6 t role sb d a b c s => encTileLns 2 t true role sb d a b c s
  | .tst t sp d a b => encTile 3 t sp false 0 d a b
  | .tstLns6 t sp d a b c s => encTileLns 3 t sp false 0 d a b c s
  | .tldg t role d a b c m =>
    { ts := 3, maj := 0x70, fn := 4, d := d, a := a, b := b, m := m, md := tyCode t * 2 ^ 7 + role.toNat * 2 ^ 4,
      w1 := c.val * 2 ^ 26 }
  | .mmaO t ua ub z d a b => encMma 5 t ua ub z d a b
  | .mmaR t ua ub z d a b => encMma 6 t ua ub z d a b
  | .zld t sp d a b => encTile 7 t sp false 0 d a b
  | .zldImm t sp d a b i =>
    { ts := 3, maj := 0x70, fn := 7, d := d, a := a, b := b, md := tyCode t * 2 ^ 7 + sp.toNat * 2 ^ 5, w1 := i.toNat }
  | .zst t sp r d a b => encTile 8 t sp false (rmoCode r * 2 ^ 2) d a b
  | .zstImm t sp r d a b i =>
    { ts := 3, maj := 0x70, fn := 8, d := d, a := a, b := b, md := tyCode t * 2 ^ 7 + sp.toNat * 2 ^ 5 + rmoCode r * 2 ^ 2,
      w1 := i.toNat }
  | .zclr f d => { ts := 1, maj := 0x70, fn := 9, d := d, md := f.toNat * 2 ^ 3 }
  | .tcopy g bv sb d a b c =>
    { ts := 3, maj := 0x78, fn := 0, d := d, a := a, b := b,
      w1 := c.val * 2 ^ 26 + grantCode g * 2 ^ 5 + bv.toNat * 2 ^ 4 + sb.val }
  | .tcopyo g d a b c => { ts := 3, maj := 0x78, fn := 1, d := d, a := a, b := b, w1 := c.val * 2 ^ 26 + grantCode g * 2 ^ 5 }
  | .tdfence a => { ts := 2, maj := 0x78, fn := 2, a := a }
  | .sbinit b a => { ts := 2, maj := 0x78, fn := 3, a := a, md := b }
  | .sbexp b a => { ts := 2, maj := 0x78, fn := 4, a := a, md := b }
  | .sbwait free b d a => { ts := 2, maj := 0x78, fn := 5, d := d, a := a, md := free.toNat * 2 ^ 4 + b.val }
  | .sbrel b => { ts := 1, maj := 0x78, fn := 6, md := b }
  | .colred t op bv sb len d a c =>
    { ts := 3, maj := 0x79, fn := 0, d := d, a := a,
      md := tyCode t * 2 ^ 7 + foldCode op * 2 ^ 5 + bv.toNat * 2 ^ 4 + sb.val, w1 := c.val * 2 ^ 26 + len.val }
  | .colbcast bv sb len root d a c =>
    { ts := 3, maj := 0x79, fn := 1, d := d, a := a, md := bv.toNat * 2 ^ 4 + sb.val,
      w1 := c.val * 2 ^ 26 + root.val * 2 ^ 9 + len.val }
  | .colwait => { ts := 0, maj := 0x79, fn := 2 }
  | .hpop nb h d c => { ts := 3, maj := 0x7C, fn := 0, d := d, md := nb.toNat * 2 ^ 2 + h.val, w1 := c.val * 2 ^ 26 }
  | .gadd r h d a b => encH 1 0 r h d a b
  | .gset r h d a b => encH 2 0 r h d a b
  | .hgrow h d a => encH 3 0 false h d a 0
  | .hdone r h a => encH 4 0 r h 0 a 0
  | .hres x h d => encH 5 (hselCode x) false h d 0 0
  | .lineFetch => { ts := 0, maj := 0x7F, fn := 15 }
  | .trapEntry => { ts := 0, maj := 0x7F, fn := 15 }
  | .vectorGroupIssue => { ts := 0, maj := 0x7F, fn := 15 }
  | .promotion => { ts := 0, maj := 0x7F, fn := 15 }
  | .loadReply => { ts := 0, maj := 0x7F, fn := 15 }
  | .loadReplyAbandon => { ts := 0, maj := 0x7F, fn := 15 }
  | .regclmGrant => { ts := 0, maj := 0x7F, fn := 15 }
  | .rowsFreed => { ts := 0, maj := 0x7F, fn := 15 }
  | .regDeadlockDeclare => { ts := 0, maj := 0x7F, fn := 15 }
  | .regDeadlockTrap => { ts := 0, maj := 0x7F, fn := 15 }
  | .strandDrained => { ts := 0, maj := 0x7F, fn := 15 }
  | .heapWriteBack => { ts := 0, maj := 0x7F, fn := 15 }
  | .gridComplete => { ts := 0, maj := 0x7F, fn := 15 }
  | .crewWatchdogExpire => { ts := 0, maj := 0x7F, fn := 15 }
  | .idleDeadline => { ts := 0, maj := 0x7F, fn := 15 }
  | .wqryService => { ts := 0, maj := 0x7F, fn := 15 }
  | .wqryReply => { ts := 0, maj := 0x7F, fn := 15 }
  | .feAccessPerform => { ts := 0, maj := 0x7F, fn := 15 }
  | .vwaitLaneMet => { ts := 0, maj := 0x7F, fn := 15 }
  | .vwaitTimeout => { ts := 0, maj := 0x7F, fn := 15 }
  | .tcopyGranuleLand => { ts := 0, maj := 0x7F, fn := 15 }
  | .tldEEngineRelease => { ts := 0, maj := 0x7F, fn := 15 }
  | .collectiveArm => { ts := 0, maj := 0x7F, fn := 15 }
  | .collectiveComplete => { ts := 0, maj := 0x7F, fn := 15 }
  | .hpopWake => { ts := 0, maj := 0x7F, fn := 15 }
  | .heapBind => { ts := 0, maj := 0x7F, fn := 15 }
  | .qwidxWrite => { ts := 0, maj := 0x7F, fn := 15 }
  | .qstatClear => { ts := 0, maj := 0x7F, fn := 15 }
  | .queueEnable => { ts := 0, maj := 0x7F, fn := 15 }
  | .queueDisable => { ts := 0, maj := 0x7F, fn := 15 }
  | .launchRecordRead => { ts := 0, maj := 0x7F, fn := 15 }
  | .gridReady => { ts := 0, maj := 0x7F, fn := 15 }
  | .dependencePoll => { ts := 0, maj := 0x7F, fn := 15 }
  | .crewDispatch => { ts := 0, maj := 0x7F, fn := 15 }
  | .yieldThreshold => { ts := 0, maj := 0x7F, fn := 15 }
  | .priorityPreempt => { ts := 0, maj := 0x7F, fn := 15 }
  | .preemptRequest => { ts := 0, maj := 0x7F, fn := 15 }
  | .stripWaitExpire => { ts := 0, maj := 0x7F, fn := 15 }
  | .drainWaitExpire => { ts := 0, maj := 0x7F, fn := 15 }
  | .stateCapture => { ts := 0, maj := 0x7F, fn := 15 }
  | .saveEngineWrite => { ts := 0, maj := 0x7F, fn := 15 }
  | .crewResume => { ts := 0, maj := 0x7F, fn := 15 }
  | .guardBandStart => { ts := 0, maj := 0x7F, fn := 15 }
  | .quantumEnd => { ts := 0, maj := 0x7F, fn := 15 }
  | .quantumStart => { ts := 0, maj := 0x7F, fn := 15 }
  | .overrunKill => { ts := 0, maj := 0x7F, fn := 15 }
  | .pageMove => { ts := 0, maj := 0x7F, fn := 15 }
  | .freezeGo => { ts := 0, maj := 0x7F, fn := 15 }
  | .freezePhaseDone => { ts := 0, maj := 0x7F, fn := 15 }
  | .freezeBcastReceive => { ts := 0, maj := 0x7F, fn := 15 }
  | .freezeRelease => { ts := 0, maj := 0x7F, fn := 15 }
  | .invalidate => { ts := 0, maj := 0x7F, fn := 15 }
  | .s2Invalidate => { ts := 0, maj := 0x7F, fn := 15 }
  | .invalidateDone => { ts := 0, maj := 0x7F, fn := 15 }
  | .s2freplyRetry => { ts := 0, maj := 0x7F, fn := 15 }
  | .s2freplyFail => { ts := 0, maj := 0x7F, fn := 15 }
  | .s2FaultTimeout => { ts := 0, maj := 0x7F, fn := 15 }
  | .s2fidxWrite => { ts := 0, maj := 0x7F, fn := 15 }
  | .priResponse => { ts := 0, maj := 0x7F, fn := 15 }
  | .priTimeout => { ts := 0, maj := 0x7F, fn := 15 }
  | .atsInvalidate => { ts := 0, maj := 0x7F, fn := 15 }
  | .functionLevelReset => { ts := 0, maj := 0x7F, fn := 15 }
  | .stopInterface => { ts := 0, maj := 0x7F, fn := 15 }
  | .tdiLock => { ts := 0, maj := 0x7F, fn := 15 }
  | .tdiError => { ts := 0, maj := 0x7F, fn := 15 }
  | .partitionEnable => { ts := 0, maj := 0x7F, fn := 15 }
  | .partitionDisable => { ts := 0, maj := 0x7F, fn := 15 }
  | .partitionStop => { ts := 0, maj := 0x7F, fn := 15 }
  | .assignmentWrite => { ts := 0, maj := 0x7F, fn := 15 }
  | .scrubComplete => { ts := 0, maj := 0x7F, fn := 15 }
  | .memoryZero => { ts := 0, maj := 0x7F, fn := 15 }
  | .memoryZeroDone => { ts := 0, maj := 0x7F, fn := 15 }
  | .vfEnable => { ts := 0, maj := 0x7F, fn := 15 }
  | .vfDisable => { ts := 0, maj := 0x7F, fn := 15 }
  | .vfpriClear => { ts := 0, maj := 0x7F, fn := 15 }
  | .errorCorrected => { ts := 0, maj := 0x7F, fn := 15 }
  | .errorUncorrectable => { ts := 0, maj := 0x7F, fn := 15 }
  | .patrol => { ts := 0, maj := 0x7F, fn := 15 }
  | .ebstatClear => { ts := 0, maj := 0x7F, fn := 15 }
  | .noticeTailWrite => { ts := 0, maj := 0x7F, fn := 15 }
  | .ndropClear => { ts := 0, maj := 0x7F, fn := 15 }
  | .assayReplayDispatch => { ts := 0, maj := 0x7F, fn := 15 }
  | .assayCompare => { ts := 0, maj := 0x7F, fn := 15 }
  | .ascntClear => { ts := 0, maj := 0x7F, fn := 15 }
  | .mapoutGroup => { ts := 0, maj := 0x7F, fn := 15 }
  | .retireCore => { ts := 0, maj := 0x7F, fn := 15 }
  | .restoreCore => { ts := 0, maj := 0x7F, fn := 15 }
  | .mapoutApply => { ts := 0, maj := 0x7F, fn := 15 }
  | .stwdogWrite => { ts := 0, maj := 0x7F, fn := 15 }
  | .stewardWatchdogExpire => { ts := 0, maj := 0x7F, fn := 15 }
  | .gangPrepare => { ts := 0, maj := 0x7F, fn := 15 }
  | .prepared => { ts := 0, maj := 0x7F, fn := 15 }
  | .commit => { ts := 0, maj := 0x7F, fn := 15 }
  | .abort => { ts := 0, maj := 0x7F, fn := 15 }
  | .gangRefusal => { ts := 0, maj := 0x7F, fn := 15 }
  | .gangPrepareTimeout => { ts := 0, maj := 0x7F, fn := 15 }
  | .gangCommitTimeout => { ts := 0, maj := 0x7F, fn := 15 }
  | .lost => { ts := 0, maj := 0x7F, fn := 15 }
  | .linkUnreachable => { ts := 0, maj := 0x7F, fn := 15 }
  | .gangcmdDiscard => { ts := 0, maj := 0x7F, fn := 15 }
  | .gangcmdResume => { ts := 0, maj := 0x7F, fn := 15 }
  | .limnerArm => { ts := 0, maj := 0x7F, fn := 15 }
  | .limnerFire => { ts := 0, maj := 0x7F, fn := 15 }
  | .limnerCycleMatch => { ts := 0, maj := 0x7F, fn := 15 }
  | .limnerLinkTrigger => { ts := 0, maj := 0x7F, fn := 15 }
  | .pwrlimWrite => { ts := 0, maj := 0x7F, fn := 15 }
  | .pshareWrite => { ts := 0, maj := 0x7F, fn := 15 }
  | .powerInterval => { ts := 0, maj := 0x7F, fn := 15 }
  | .thermalTrip => { ts := 0, maj := 0x7F, fn := 15 }
  | .thermalClear => { ts := 0, maj := 0x7F, fn := 15 }
  | .flitReceive => { ts := 0, maj := 0x7F, fn := 15 }
  | .portRetrainTimeout => { ts := 0, maj := 0x7F, fn := 15 }
  | .remoteAccess => { ts := 0, maj := 0x7F, fn := 15 }
  | .remoteLoadTimeout => { ts := 0, maj := 0x7F, fn := 15 }
  | .remoteStoreTimeout => { ts := 0, maj := 0x7F, fn := 15 }
  | .cxlDeviceFailure => { ts := 0, maj := 0x7F, fn := 15 }
  | .deviceReset => { ts := 0, maj := 0x7F, fn := 15 }
  | .stewardStart => { ts := 0, maj := 0x7F, fn := 15 }
  | .spdmRequest => { ts := 0, maj := 0x7F, fn := 15 }
  | .debugUnlock => { ts := 0, maj := 0x7F, fn := 15 }
  | .debugRelock => { ts := 0, maj := 0x7F, fn := 15 }
  | .dbgctlStop => { ts := 0, maj := 0x7F, fn := 15 }
  | .dbgctlCont => { ts := 0, maj := 0x7F, fn := 15 }
  | .dbgdataRead => { ts := 0, maj := 0x7F, fn := 15 }
  | .dbgdataWrite => { ts := 0, maj := 0x7F, fn := 15 }
  | .registerWrite => { ts := 0, maj := 0x7F, fn := 15 }
  | .mmaComplete => { ts := 0, maj := 0x7F, fn := 15 }
  | .storePerformed => { ts := 0, maj := 0x7F, fn := 15 }
  | .heapBindComplete => { ts := 0, maj := 0x7F, fn := 15 }
  | .powerLoss => { ts := 0, maj := 0x7F, fn := 15 }
  | .portRetrain => { ts := 0, maj := 0x7F, fn := 15 }

/-- Halfwords of a number, the lowest first. -/
def halfsOfVal : Nat → Nat → List Half
  | 0, _ => []
  | n + 1, v => BitVec.ofNat 16 v :: halfsOfVal n (v / 65536)

/-- The words of an instruction with its stall count: the head halfword, then the tail's (R82, R86 to R89). -/
def encode (c : Coded) : List Half :=
  let f := encodeFields c.insn
  BitVec.ofNat 16 (f.head c.sc) :: halfsOfVal (tailHalfs f.ts) f.tail

/-- The vector registers that a head of MAJ 0x30 to 0x61 names in its fields; of a segment or a pair, its first register. -/
def vectorNames (f : Fields) : List Nat :=
  let y (bs : Nat) : List Nat := if f.ts = 2 && !bit f.md bs then [f.b] else []
  match f.maj, f.fn with
  | 0x30, _ => f.d :: f.a :: y 6
  | 0x40, n => f.d :: f.a :: (if n < 7 then y 3 else [])
  | 0x41, 0 => [f.d, f.a]
  | 0x41, _ => [f.d, f.a, f.b]
  | 0x50, 2 => f.a :: y 6
  | 0x58, 0 => f.d :: f.a :: y 6
  | 0x58, 1 => [f.d, f.a, f.b]
  | 0x58, 5 => [f.d, f.a, f.b]
  | 0x58, 7 => [f.d]
  | 0x58, 8 => f.d :: y 6
  | 0x58, 9 => if bit f.md 5 then [f.d] else [f.a]
  | 0x58, 10 => [f.d]
  | 0x58, _ => [f.d, f.a]
  | 0x59, n => if n < 3 then [f.a] else []
  | 0x60, n => if 6 ≤ n && n ≤ 9 then [f.d, f.b] else [f.d]
  | 0x61, 0 => [f.d, f.a]
  | 0x61, 1 => [f.d, f.a]
  | 0x61, 4 => [f.a, f.b]
  | 0x61, 6 => [f.b, f.w1 / 2 ^ 26]
  | _, _ => []

end Coding

/-- What the decoder reads from an instruction whose bits are `w`, the first halfword lowest. -/
def decodeTableWord (nbits w : Nat) : Option Instr :=
  let w := w % 2 ^ nbits
  match Coding.decodeHead (w % 65536) (w / 65536 % 2 ^ 64) with
  | .ok c => some c.insn
  | .error _ => none

end Sys2Proof
end

