-- ==== Sys2Proof/Config.lean ====
section
/-! DEFINITION. What an implementation fixes: the sizes of R4 and R10, and the free values, which have no body. -/

namespace Sys2Proof.Config
open Sys2Proof

/-- Wide cores (R4). -/
def wideCores : Nat := 160
/-- First Steward core number, after the Lean cores (R43, R464). -/
def stewardBase : Nat := 416
/-- Cycles in one millisecond of the 940 MHz clock (R1). -/
def msCycles : Nat := 940000
/-- Cycles before an unanswered second-stage fault or page request fails (R399, R406). -/
def answerCycles : Nat := 1048576
/-- Longest life of a first-level line, and of a store in its core (R296). -/
def l1Life : Nat := 4096
def storeLife : Nat := 2048
/-- Cycles within which an invalidation completes (R401). -/
def invCycles : Nat := 25000
/-- Cycles after which an outstanding load is abandoned (R369). -/
def loadReplyLimit : Nat := 2048

/-- FREE VALUE (R22): which free row a `regclm` grant takes next, by a count of draws. -/
opaque rowPick : Nat → Nat
/-- FREE VALUE (R403, R404): which of the entries that an access may use it uses, by the cycle at which it begins, entry and page. -/
opaque entryPick : Nat → Nat → Nat → Nat
/-- FREE VALUE (R184): the scale that `vsel` leaves in a block whose lanes came from sources of different scales, by a count of draws
and block. -/
opaque mixedScale : Nat → Nat → BitVec 8
/-- FREE VALUE (R406): whether ATS first reports a host page present, by VF, page and count. -/
opaque hostPresent : Nat → Nat → Nat → Bool
/-- FREE VALUE (R405): the 64 KiB frame of host memory to which the host's IOMMU maps a page, by VF, page and the invalidations of its
translations so far; number 64 is the physical function. -/
opaque hostFrame : Nat → Nat → Nat → Nat
/-- FREE VALUE (R406): the Outstanding Page Request Allocation that the host configures for a VF; at least 1. -/
opaque pageAllocation : Nat → Nat
/-- FREE VALUE (R391): whether host memory at a destination has room for a number of bytes. -/
opaque hostReserves : Nat → Nat → Bool
/-- FREE VALUE (R293): whether a held decompressed copy has been evicted, by a count of draws. -/
opaque copyEvicted : Nat → Bool
/-- FREE VALUE (R468): the SHA3-384 digest, whose function the manual takes from outside. -/
opaque digest384 : List Byte → List Byte
/-- FREE VALUE (R369): contents of the opaque section of a context image. -/
opaque opaqueByte : Nat → Byte
/-- FREE VALUE (R381): the check code of an opaque body, of 29 bits. -/
opaque checkCode : List Byte → Nat
/-- FREE VALUE (R467): an XMSS signature, by tree and leaf. -/
opaque signature : Nat → Nat → List Byte → List Byte
/-- FREE VALUE (R453): which tier-2 port backs a frame of a partition. -/
opaque t2Port : Nat → Nat → Nat
/-- FREE VALUE (R431): addresses and syndromes of errors, and other words that the manual leaves open, by a count of draws. -/
opaque freeWord : Nat → Word
/-- FREE VALUE (R468): the boot ROM's bytes. -/
opaque bootRom : List Byte
/-- FREE VALUE (R458): the package draw in W, by interval. -/
opaque packageDraw : Nat → Nat
/-- FREE VALUE (R450): the counts of a memory channel, a tier-2 port or a shared cache, by block, dword and cycle. -/
opaque blockCount : Nat → Nat → Nat → Nat

end Sys2Proof.Config
end

