-- ==== Sys2Proof/Machine/State.lean ====
section
/-! DEFINITION. The state of the whole device as plain data: the current strand, the other strands, crews, grids, queues,
heaps, memory, partitions, virtual functions, and the control registers of every block; and the state after reset.
A field marked MODEL is the model's own and has no rule of the spec behind it; NOTES.md and the assumption log name each. -/

namespace Sys2Proof.Machine
open Sys2Proof

/-- The causes of R46. -/
inductive Cause where
  | illegalInsn | lineMalformed | badTarget | priv | stallShort | misaligned | pageFault | s2Fault | access | oobIndex
  | poison | grantInvalid | regDeadlock | regQuota | mstackOvf | mstackUnf | stageOver | gbarIllegal | brk | syscall
  | vown | heapBounds | descInvalid | feTimeout | watchdog | link | fatalOverrun
  deriving DecidableEq, Repr

/-- Privilege levels (R11, R33). -/
inductive Priv where
  | app | sup | hyp
  deriving DecidableEq, Repr

/-- Core classes (R4), in the order of CORECLASS.CLASS (R43). -/
inductive CoreClass where
  | wide | half | lean | steward
  deriving DecidableEq, Repr

/-- FFLAGS (R37). -/
structure FFlags where
  dl : Bool := false
  iov : Bool := false
  nv : Bool := false
  dz : Bool := false
  of : Bool := false
  uf : Bool := false
  nx : Bool := false
  deriving DecidableEq, Repr

/-- Tile formats (R38). -/
inductive TFmt where
  | int8 | fp16 | bf16 | fp32 | lns6
  deriving DecidableEq, Repr

/-- GSHAPE (R38). -/
structure GShape where
  fmt : TFmt := .int8
  gv : Bool := false
  gk : Nat := 0
  gn : Nat := 0
  gm : Nat := 0
  qk : Nat := 0
  qn : Nat := 0
  qm : Nat := 0
  deriving DecidableEq, Repr

/-- A TSHAPE register (R41). -/
structure TShape where
  fmt : TFmt := .int8
  cols : Nat := 0
  rows : Nat := 0
  deriving DecidableEq, Repr

/-- A ZDIM register (R41): `fp` is FMT 0x6, otherwise 0x2. -/
structure ZDim where
  fp : Bool := true
  cols : Nat := 0
  rows : Nat := 0
  deriving DecidableEq, Repr

/-- CAPSHAPE and a partition's CAP (R40). -/
structure CapShape where
  ck : Nat := 256
  cn : Nat := 64
  cm : Nat := 64
  deriving DecidableEq, Repr

/-- An entry of the mask stack (R25). -/
structure MEntry where
  mask : Mask
  vtype : VType
  deriving DecidableEq, Repr

/-- An undelivered fixed-latency result (R97, R100): the distance it still needs, and its producer's PC. -/
structure Pend where
  reg : SReg
  val : Word
  rem : Nat
  pc : Word
  deriving DecidableEq, Repr

/-- A head halfword with its tail, zero-extended (R86, R89). -/
structure Ir where
  head : Half := 0
  tail : Word := 0
  deriving DecidableEq, Repr

/-- The fetched line (R94): its address, and its 32 halfwords. -/
structure LineBuf where
  addr : Word
  halfs : List Half
  deriving DecidableEq, Repr

/-- Types of an accumulation window (R220). -/
inductive AwTy where
  | i32 | u32 | i64 | u64 | f32
  deriving DecidableEq, Repr

/-- The open accumulation window (R220). -/
structure AWin where
  base : Word
  n : Nat
  ty : AwTy
  op : Fold
  llofs : Nat
  deriving DecidableEq, Repr

/-- What a strand waits for. PC stays at the waiting head. -/
inductive Wait where
  | bsync (b : Nat)
  | gbar
  | regclm (n : Nat)
  | fe (granules : List Nat) (needFull : Bool) (lanes : Mask) (lowest : Nat)
  | vwait (i : Instr) (pending : Mask) (deadline : Option Nat)
  | sbwait (b : Nat) (free : Bool) (v : Word32)
  | tldE (b : Nat)
  | colwait
  | hpop (h : Nat) (d c : SReg)
  | idle (deadline : Option Nat)
  | query
  | s2 (id : Nat) (va : Word) (wr : Bool) (idx : Bool) (lanes : Mask)
  | pri (idx : Nat) (va : Word) (wr : Bool) (idx' : Bool) (lanes : Mask)
  | heapBind
  | guardBand
  | collective
  | loadReply
  | mma
  | viq
  | remote (dev : Nat) (va : Word)
  | acks
  | priRoom
  | drain
  | tracker
  deriving DecidableEq, Repr

/-- The spaces of R198. -/
inductive Spc where
  | gen | sp | ll
  deriving DecidableEq, Repr

/-- One contiguous range that a lane accesses; `align` is the alignment it needs, `tag` says which register or row it serves. -/
structure Piece where
  lane : Nat
  tag : Nat := 0
  addr : Word
  n : Nat
  align : Nat := 1
  deriving DecidableEq, Repr

/-- A byte of memory by key, or an offset of a plain view. -/
inductive Where where
  | cell (k : Nat)
  | plain (vf surf off : Nat)
  deriving DecidableEq, Repr

/-- What the front end holds at one place in program order: what a queued instruction carries (R49, R163, R262), and what a trap of
it restores, since no younger head has any effect (R133). -/
structure Front where
  pc : Word := 0
  ir : Ir := {}
  via : Ir := {}
  line : Option LineBuf := none
  regs : Tab Word := []
  pend : List Pend := []
  spois : List Nat := []
  vheld : Nat := 0
  vl : Nat := 0
  vtype : VType := ⟨.fault, .b16, .int32⟩
  vstart : Nat := 0
  frm : RM := .rne
  fflags : FFlags := {}
  gshape : GShape := {}
  mstack : List MEntry := []
  -- claims and releases of the register pool that younger heads have made since the queue last was empty
  pool : Nat := 0
  deriving DecidableEq, Repr

/-- An entry of the VIQ (R262): an instruction that the front end has issued and that has not completed. -/
structure VOp where
  instr : Instr
  -- the front end at its place in program order; VSTART is its progress (R370)
  front : Front := {}
  -- the cycle at which it entered, the cycle from which it has been ready without a break and not been chosen, and its promotion
  -- (R264, R266)
  entered : Nat
  ready : Option Nat := none
  promoted : Bool := false
  -- a group has issued (R265); the instruction has completed
  started : Bool := false
  fin : Bool := false
  -- what it waits for, since when, and the cycles counted before a pre-emption (R277)
  wait : Option Wait := none
  waitFrom : Nat := 0
  waitCount : Nat := 0
  failed : List (Bool × Nat) := []
  -- what the addresses lead to, translated before any element is accessed (R202)
  placed : Option (List (Piece × Where)) := none
  -- what stood in the containers that it has written while an older instruction could still trap (R133)
  undo : List (Nat × Word32) := []
  deriving DecidableEq, Repr

inductive RunState where
  | absent
  | running
  | halted
  | drained
  | stopped
  deriving DecidableEq, Repr

/-- A strand: the architectural state of R17, and where it stands. -/
structure Strand where
  crew : Nat := 0
  index : Nat := 0
  core : Nat := 0
  half : Bool := false
  slot : Nat := 0
  run : RunState := .absent
  pc : Word := 0
  regs : Tab Word := []
  pend : List Pend := []
  vheld : Nat := 0
  tdecl : Nat := 0
  zdecl : Nat := 0
  vlmaxc : Fin 3 := 0
  trapon : Bool := false
  schk : Bool := false
  sstrict : Bool := false
  priv : Priv := .app
  vl : Nat := 0
  vtype : VType := ⟨.fault, .b16, .int32⟩
  vstart : Nat := 0
  frm : RM := .rne
  fflags : FFlags := {}
  gshape : GShape := {}
  tshape : Tab TShape := []
  zdim : Tab ZDim := []
  vregs : Tab Word32 := []
  masks : Tab Mask := []
  mstack : List MEntry := []
  deadmask : Mask := 0
  tiles : Tab Byte := []
  zimg : Tab Word32 := []
  trapvec : Word := 0
  trappc : Word := 0
  trapcause : Word := 0
  trapaddr : Word := 0
  trapinsn0 : Word := 0
  trapinsn1 : Word := 0
  trapmask : Mask := 0
  awin : Option AWin := none
  links : List Nat := []
  line : Option LineBuf := none
  -- `ir`: the head being executed; `via`: the transferring head of R93, zero for a fall-through or a trap entry.
  ir : Ir := {}
  via : Ir := {}
  wait : Option Wait := none
  -- cycle at which the present wait began, and cycles counted for it before a pre-emption (R277)
  waitFrom : Nat := 0
  waitCount : Nat := 0
  -- the queue of vector and matrix instructions, oldest first (R262); MODEL: the entry whose meaning runs at present
  viq : List VOp := []
  vop : Option VOp := none
  -- registers claimed (true) and released while the queue held older work, oldest first, which a trap of that work takes back (R133)
  pool : List (Bool × Nat) := []
  everDead : Mask := 0
  -- uncorrectable errors held in registers (R427, R428)
  spois : List Nat := []
  vpois : List Nat := []
  tpois : List Nat := []
  zpois : List Nat := []
  -- a trap that another agent has determined for this strand, taken before its next head
  due : Option (Cause × Nat × Word × Mask) := none
  -- pre-emption (R366, R372)
  stopReq : Bool := false
  strip : Bool := false
  stopAt : Nat := 0
  -- the vector context of a lazily switched strand is still to be written (R377)
  vpend : Bool := false
  -- cycles that an abandoned blocking wait counts on with (R277)
  carry : Option Nat := none
  -- pages that the head at hand has been told are missing, by stage and page (R399, R406)
  failed : List (Bool × Nat) := []
  deriving DecidableEq, Repr

/-- The crew declaration of a kernel descriptor (R350). -/
structure Decl where
  entry : Word := 0
  strands : Nat := 1
  affinity : Nat := 0
  vlmaxc : Fin 3 := 0
  vheld : Nat := 0
  tdecl : Nat := 0
  zdecl : Nat := 0
  quota : Nat := 0
  spbytes : Nat := 0
  nsb : Nat := 0
  llbytes : Nat := 0
  deriving DecidableEq, Repr

/-- A stage barrier (R246); `read` lists the granules read by the engine releases counted into the phase (R253). -/
structure Barrier where
  ph : Word32 := 0
  rph : Word32 := 0
  exp : Nat := 0
  arr : Nat := 0
  rcnt : Nat := 1
  rdone : Nat := 0
  ovr : Bool := false
  read : List Nat := []
  deriving DecidableEq, Repr

/-- A waiting claim of the register pool (R149). -/
structure Claim where
  sid : Nat
  n : Nat
  need : Nat
  deriving DecidableEq, Repr

/-- A granule that an issued tcopy has still to deliver: its bytes, its poison, and the barrier it counts into (R244). -/
structure Landing where
  sid : Nat
  off : Nat
  bytes : List Byte
  poison : Bool
  sb : Option Nat
  -- the last granule of a 64-byte sector that the copy fills whole without an error (R204)
  clears : Bool := false
  -- the last granule of its copy, with which the copy's footprint goes (R305), and the pages of memory of that footprint (R389)
  last : Bool := false
  pages : List Nat := []
  deriving DecidableEq, Repr

/-- A work query (R152, R362): `reply` is empty until the Factor has served it. -/
structure Query where
  sid : Nat
  off : Nat
  reply : Option (List Byte)
  deriving DecidableEq, Repr

inductive CrewState where
  | reserved
  | resident
  | stopping
  | captured
  | ready
  | held
  | frozen
  | lostHeld
  | ended
  deriving DecidableEq, Repr

/-- A crew: its declaration, the resources it holds (R270), and its life (R268 to R274, R359, R366). -/
structure Crew where
  grid : Nat := 0
  index : Nat := 0
  kdesc : Word := 0
  decl : Decl := {}
  core : Nat := 0
  half : Bool := false
  state : CrewState := .ended
  cspBase : Nat := 0
  llBase : Nat := 0
  sids : List Nat := []
  bands : Tab Word32 := []
  arrived : Tab Word32 := []
  barriers : Tab Barrier := []
  claims : List Claim := []
  -- rows of the quota that are free, and that are returning by strand: the last contents of each, 32 lanes or none for a row
  -- of zeros, and whether it holds an uncorrectable error (R22, R273, R427)
  freeRows : List (List Word32 × Bool) := []
  returning : List (Nat × List (List Word32 × Bool)) := []
  -- strands whose full/empty access waits, in the order in which they reached the CSP (R213)
  feQueue : List Nat := []
  landings : List Landing := []
  -- releases that the matrix engine still owes: strand, barrier, granules read (R253)
  releases : List (Nat × Nat × List Nat) := []
  queries : List Query := []
  -- completion (R360)
  status : Nat := 0
  cause1 : Nat := 0
  cause2 : Nat := 0
  causeStrand : Nat := 0
  causeRank : Nat := 0
  tpc : Word := 0
  taddr : Word := 0
  scyc : Nat := 0
  tstart : Nat := 0
  tend : Nat := 0
  -- cycle up to which the strand-cycles of R355 have been charged
  charged : Nat := 0
  dispatchNo : Nat := 0
  -- place among the pre-empted crews of its grid: ascending (R278); a crew that R279 has pre-empted goes to the very front
  preemptNo : Int := 0
  -- context image (R379): its address in the save arena, and whether a lazy switch has sections still to write (R375)
  image : Word := 0
  lazy : Bool := false
  -- the request comes from R279, and asks for a lazy switch
  yields : Bool := false
  wantLazy : Bool := false
  -- held by the debugger (R472)
  dbgHold : Bool := false
  -- at capture: whether it stood at a strip boundary, and its class (R373, R379)
  stripSaved : Bool := false
  savedClass : Nat := 0
  imageLen : Nat := 0
  reqAt : Nat := 0
  -- the image at a Freeze's reserved destination, and its poisoned sectors (R391, R475)
  frozen : List Byte := []
  frozenBad : List Nat := []
  -- class and grants for an audit replay (R436 to R440)
  audited : Bool := false
  auditS0 : Word := 0
  -- manifest ranges: base, length, write, and the copied bytes (R437, R438)
  auditCopy : List (Nat × Nat × Bool × List Byte) := []
  auditCore : Nat := 0
  deriving DecidableEq, Repr

/-- A launch record (R348, R349). -/
structure LaunchRec where
  kernel : Word := 0
  args : Word := 0
  handler : Word := 0
  crews : Nat := 0
  flags : Word32 := 0
  wsx : Nat := 0
  wsy : Nat := 0
  wdog : Nat := 0
  yieldTh : Nat := 0
  donectr : Word := 0
  comprec : Word := 0
  dep0a : Word := 0
  dep0v : Word := 0
  dep1a : Word := 0
  dep1v : Word := 0
  heaptab : Word := 0
  rthr : Nat := 0
  res1 : Nat := 0
  gang : Word32 := 0
  gtag : Word := 0
  cgroup : Nat := 0
  res2 : Nat := 0
  deriving DecidableEq, Repr

inductive GridState where
  | copied
  | ready
  | reserved
  | complete
  deriving DecidableEq, Repr

/-- A grid (R344 to R362). -/
structure Grid where
  queue : Nat := 0
  part : Nat := 0
  vf : Nat := 0
  lrec : LaunchRec := {}
  decl : Decl := {}
  state : GridState := .complete
  dispatched : Nat := 0
  completed : Nat := 0
  heaps : List Nat := []
  item : Nat := 0
  -- work queries that wait for the Factor: when each arrives there, and its strand (R362)
  asks : List (Nat × Nat) := []
  arrived : List Nat := []
  reason : Nat := 0
  noRoom : Option Nat := none
  -- R279 has made room for the next undispatched crew
  owed : Bool := false
  -- the record before it in its queue (R352)
  prev : Option Nat := none
  deriving DecidableEq, Repr

/-- A hardware queue's register block (R344, R345) and its deficit (R355). -/
structure QueueReg where
  qbase : Word := 0
  vf : Nat := 0
  part : Nat := 0
  weight : Nat := 1
  prio : Nat := 0
  lsize : Nat := 4
  preempt : Bool := false
  dev : Bool := false
  en : Bool := false
  widx : Word32 := 0
  ridx : Word32 := 0
  last : Nat := 0
  rfault : Bool := false
  wfault : Bool := false
  devq : Bool := false
  badidx : Bool := false
  deficit : Int := 0
  grids : List Nat := []
  -- the grid of the latest record; none where that record could not be read (R346, R352)
  lastGrid : Option Nat := none
  deriving DecidableEq, Repr

/-- A heap slot (R319 to R343). Gains are raw Q31.32 values. -/
structure Heap where
  grid : Option Nat := none
  image : Word := 0
  -- the translations of the image's pages, held from the bind to the write-back (R322)
  pages : List (Nat × Nat) := []
  ready : Bool := false
  cap : Nat := 0
  live : Nat := 0
  tol : Nat := 0
  done : Bool := false
  gneg : Bool := false
  gsat : Bool := false
  gain : Tab Nat := []
  -- running tasks: the gain handed to the run, and the owning crew
  runs : Tab (Option (Nat × Nat)) := []
  resid : Nat := 0
  running : Nat := 0
  -- strands whose `hpop` waits, in order of arrival (R331)
  waiting : List Nat := []
  -- tasks that a release has contributed to since their last pop (R338)
  contrib : List Nat := []
  -- entries with an uncorrectable error (R428)
  poison : List Nat := []
  deriving DecidableEq, Repr

/-- A partition entry (R410) and its turn state (R355, R420, R421). -/
structure Partition where
  swwin : Nat := 0
  quantum : Nat := 200
  heaps : Nat := 0
  elastic : Bool := false
  stop : Bool := true
  en : Bool := false
  chmask : BitVec 48 := 0
  banks : Word := 0
  nstash : Nat := 0
  t2 : Nat := 0
  cap : CapShape := {}
  err : Bool := false
  reason : Nat := 0
  scrubbing : Bool := false
  ptr : Tab Nat := []
  turn : Nat := 0
  -- the quantum: when it began, whether it runs, whether its guard band has begun, and the excess charged to each VF
  qstart : Nat := 0
  qlive : Bool := true
  guard : Bool := false
  -- an elastic quantum that begins at the first dispatch of one of its crews (R421)
  fresh : Bool := false
  -- when the latest quantum ended, and whose it was
  qend : Nat := 0
  outVf : Nat := 0
  excess : Tab Nat := []
  -- the channels of the latest period in which the partition was enabled (R423)
  held : BitVec 48 := 0
  deriving DecidableEq, Repr

/-- An assignment entry (R412). -/
structure Assign where
  own0 : Nat := 127
  own1 : Nat := 127
  split : Bool := false
  scrub : Bool := false
  refused : Bool := false
  deriving DecidableEq, Repr

/-- A surface entry (R402). -/
structure Surface where
  plain : Word := 0
  nseg : Nat := 0
  packed : Word := 0
  valid : Bool := false
  deriving DecidableEq, Repr

/-- An open stash window (R216). -/
structure Window where
  base : Word
  len : Nat
  deriving DecidableEq, Repr

/-- A line of a stash window (R282): memory holds its present bytes, and for a dirty line `behind` the tier bytes that it covers and
`bad` their poisoned sectors. -/
structure StashLine where
  vf : Nat
  w : Nat
  key : Nat
  behind : List Byte
  bad : List Nat
  dirty : Bool
  touch : Nat
  deriving DecidableEq, Repr

/-- An outstanding page request (R406): its group index, the generation recorded with it, the page of host memory, and when it was
sent. -/
structure PageReq where
  idx : Nat
  gen : Nat
  page : Nat
  at_ : Nat
  deriving DecidableEq, Repr

/-- A virtual function: its VF-table entry (R416), its register block (R419) and its page requests (R406). -/
structure Vf where
  gen : Nat := 0
  stash : Nat := 0
  part : Nat := 127
  lock : Bool := false
  en : Bool := false
  s2root : Word := 0
  stale : Nat := 0
  s1root : Word := 0
  savebase : Word := 0
  savesize : Nat := 0
  invaddr : Word := 0
  invcount : Nat := 0
  issued : Word32 := 0
  done : Word32 := 0
  surfaces : Tab Surface := []
  windows : Tab (Option Window) := []
  -- reserved room of the save arena (R419): offset, length and crew
  arena : List (Nat × Nat × Nat) := []
  -- outstanding page requests (R406)
  pri : List PageReq := []
  priOff : Bool := false
  -- pages that an access of an engine waits for, and those that it found failed, by stage and page (R399, R406)
  asked : List (Bool × Nat) := []
  failed : List (Bool × Nat) := []
  priNext : Nat := 0
  -- ATS invalidations that have reached the translation cache (R405)
  atsGen : Nat := 0
  pages : List Nat := []
  stopbrk : Bool := false
  -- working-set record of the Carter (R387), and the frames touched in the present period
  record : List Nat := []
  touched : List Nat := []
  -- cycle of the latest access to each page, plus 1 (R388)
  lastTouch : Tab Nat := []
  deriving DecidableEq, Repr

/-- A core's array state (R442, R443) and its share of power (R459). -/
structure CoreReg where
  mout : BitVec 8 := 0
  retired : Bool := false
  -- requests that are pending: OP and GROUP
  req : List (Nat × Nat) := []
  grant : Nat := 0
  demand : Nat := 0
  skip : Nat := 0
  deriving DecidableEq, Repr

/-- An error bank (R431). -/
structure Bank where
  valid : Bool := false
  ue : Bool := false
  ovfUe : Bool := false
  uecnt : Nat := 0
  cecnt : Nat := 0
  addr : Word := 0
  struct : Nat := 0
  group : Nat := 0
  part : Nat := 127
  synd : Nat := 0
  time : Nat := 0
  deriving DecidableEq, Repr

/-- A notice of R435. -/
structure Notice where
  kind : Nat
  source : Nat
  detail : Nat
  data : Word
  deriving DecidableEq, Repr

/-- A notice ring (R434). -/
structure Ring where
  base : Word := 0
  tail : Nat := 0
  head : Nat := 0
  waiting : List Notice := []
  drop : Nat := 0
  deriving DecidableEq, Repr

/-- A second-stage fault notice (R399). -/
structure S2Notice where
  id : Nat
  ipa : Nat
  vf : Nat
  kind : Nat
  posted : Bool
  at_ : Nat
  deriving DecidableEq, Repr

/-- A buffered generic store (R296): performed for its core, not yet at its home. -/
structure PStore where
  core : Nat
  sid : Nat
  key : Nat
  va : Word
  bytes : List Byte
  at_ : Nat
  deriving DecidableEq, Repr

/-- A first-level line of a core (R296). -/
structure L1Line where
  core : Nat
  key : Nat
  bytes : List Byte
  filled : Nat
  deriving DecidableEq, Repr

/-- A collective (R254, R255): the issuing strand and its contribution. -/
structure Coll where
  part : Nat
  group : Nat
  k : Nat
  sid : Nat
  d : SReg
  off : Nat
  len : Nat
  bcast : Bool
  ty : Ty
  op : Fold
  root : Nat
  sb : Option Nat
  -- contributions by rank: kind word and bytes; the own one is captured at issue
  parts : Tab (Option (Nat × List Byte))
  armed : Bool
  deriving DecidableEq, Repr

/-- A collective group entry (R365). -/
structure Group where
  valid : Bool := false
  size : Nat := 0
  rank : Nat := 0
  grid : Nat := 0
  count : Nat := 0
  broken : Bool := false
  deriving DecidableEq, Repr

/-- A gang as a member or its coordinator knows it (R363, R364, R446). -/
structure Gang where
  grid : Option Nat := none
  reason : Nat := 0
  size : Nat := 0
  rank : Nat := 0
  cgroup : Nat := 0
  eager : Bool := false
  since : Nat := 0
  prepared : List Nat := []
  committed : Bool := false
  lost : Option Nat := none
  -- the failing rank of an ABORT that has come before the grid was prepared (R364)
  aborted : Option Nat := none
  -- GANGCMD has let the held crews go on (R447)
  resumed : Bool := false
  deriving DecidableEq, Repr

/-- Messages to the outside: Tedomlink, host, DOE. -/
inductive Msg where
  | prepared (gtag rank : Nat)
  | commit (gtag : Nat)
  | abort (gtag rank : Nat)
  | refusal (gtag rank reason : Nat)
  | lost (gtag rank : Nat)
  | freeze (pod : Nat) (v : Word)
  | trigger
  | pageRequest (vf idx : Nat)
  | remoteReply (dev : Nat) (v : Option Nat)
  | remotePoison (dev : Nat)
  | freezeGang (gtag : Nat) (v : Word)
  | flitRetry (port : Nat)
  | spdm (vf block leaf : Nat) (data : List Byte)
  deriving DecidableEq, Repr

/-- A Tedomlink port (R454). -/
structure Port where
  up : Bool := true
  retrainFrom : Option Nat := none
  received : Nat := 0
  retries : Nat := 0
  sent : Nat := 0
  deriving DecidableEq, Repr

/-- A remote store that awaits its acknowledgement (R457). -/
structure RemoteStore where
  core : Nat
  sid : Nat
  dev : Nat
  key : Nat
  va : Word
  bytes : List Byte
  at_ : Nat
  -- the port by which it left
  port : Option Nat := none
  deriving DecidableEq, Repr

/-- An export entry (R456). -/
structure Export where
  valid : Bool := false
  srcdev : Nat := 0
  srcpart : Nat := 0
  part : Nat := 0
  base : Nat := 0
  size : Nat := 0
  deriving DecidableEq, Repr

/-- The start registers of a Steward core (R466). -/
structure StReg where
  desc : Word := 0
  args : Word := 0
  vec : Word := 0
  code : Nat := 0
  err : Bool := false
  fault : Bool := false
  done : Bool := false
  busy : Bool := false
  deriving DecidableEq, Repr

/-- A signed image slot of module flash (R461 to R463): what verification finds in it. -/
structure FlashSlot where
  valid : Bool := false
  version : Nat := 0
  basever : Nat := 0
  entry : Word := 0
  -- the image's bytes; the Casien image's stand at the start of the Steward SRAM
  code : List Byte := []
  devid : Nat := 0
  pod : Nat := 0
  t2gib : Nat := 0
  t2kind : Nat := 0
  plimdef : Nat := 1600
  map : Tab Byte := []
  deriving DecidableEq, Repr

/-- Module flash and the Steward's signing state (R461, R463, R467). -/
structure Flash where
  casien : List FlashSlot := []
  config : List FlashSlot := []
  repair : List FlashSlot := []
  casienMin : Nat := 0
  configMin : Nat := 0
  repairMin : Nat := 0
  aliasLeaf : Nat := 0
  aliasGen : Nat := 0
  deviceLeaf : Nat := 0
  deriving DecidableEq, Repr

inductive FrzState where
  | idle | stopping | saving | demoting | frozen | resuming
  deriving DecidableEq, Repr

/-- Freeze control (R390). -/
structure Freeze where
  demote : Nat := 0
  pod : Nat := 0
  host : Bool := false
  bcast : Bool := false
  dest : Word := 0
  elapsed : Nat := 0
  result : Nat := 0
  state : FrzState := .idle
  goAt : Nat := 0
  -- the gang whose contexts alone are frozen, for another member's device (R392)
  scope : Option Nat := none
  crews : List Nat := []
  heaps : List Heap := []
  demoted : List Nat := []
  deriving DecidableEq, Repr

/-- The Assayer (R436). -/
structure Assayer where
  en : Bool := false
  k : Nat := 0
  seq : Word := 0
  pass : Nat := 0
  sampled : Nat := 0
  skip : Nat := 0
  mismatch : Nat := 0
  abandon : Nat := 0
  manifest : Tab Word := []
  -- replays that run: crew and core
  replays : List (Nat × Nat) := []
  deriving DecidableEq, Repr

/-- The Limner (R448). -/
structure Limner where
  bcast : Bool := false
  src : BitVec 4 := 0
  cyc : Word := 0
  -- the clock has not reached `cyc` since it was written
  ahead : Bool := false
  missed : Nat := 0
  fired : BitVec 4 := 0
  held : Bool := false
  armed : Bool := false
  time : Nat := 0
  -- dword d of block b at 32b + d (R450)
  snap : Tab Word := []
  deriving DecidableEq, Repr

/-- The RAS control registers (R434, R442, R444, R447). -/
structure Ras where
  cethr : Nat := 0
  automap : Bool := false
  casienRing : Ring := {}
  hostRing : Ring := {}
  mapCore : Nat := 0
  mapErr : Bool := false
  mapGroup : Nat := 0
  mapOp : Nat := 0
  stwdogAt : Nat := 0
  gangtag : Word := 0
  gangstat : Bool := false
  deriving DecidableEq, Repr

/-- The platform and power registers (chapter 16). -/
structure Platform where
  limit : Nat := 1600
  therm : Nat := 0
  err : Bool := false
  draw : Nat := 0
  hot : Bool := false
  pshare : Tab Nat := []
  devid : Nat := 0
  pod : Nat := 0
  -- what the tier-2 ports lead to: 0 nothing, 1 CXL, 2 LPDDR-6 (R463)
  t2kind : Nat := 0
  routes : Tab Word := []
  exports : Tab Export := []
  unlock : Word := 0
  steward : Tab StReg := []
  dbgvf : Nat := 0
  dbgaddr : Word := 0
  dbgdata : Word := 0
  deriving DecidableEq, Repr

/-- HYP registers outside the tables (R399, R401, R425, R409). -/
structure HypRegs where
  s2ring : Word := 0
  s2tail : Nat := 0
  s2head : Nat := 0
  s2next : Nat := 0
  s2notices : List S2Notice := []
  s2invaddr : Word := 0
  s2invcount : Nat := 0
  s2invvf : Nat := 0
  s2issued : Word32 := 0
  s2done : Word32 := 0
  mzaddr : Word := 0
  mzcount : Nat := 0
  mzpart : Nat := 0
  mzissued : Word32 := 0
  mzdone : Word32 := 0
  mzwork : List (Nat × Nat × Nat) := []
  t2pool : Nat := 0
  deriving DecidableEq, Repr

/-- A table entry that a write has replaced (R403): its key, its value, and the invalidations issued when it was replaced. -/
structure OldEntry where
  key : Nat
  val : Nat
  stamp : Nat
  deriving DecidableEq, Repr

/-- A value of S1ROOT that a write has replaced (R402). -/
structure OldRoot where
  vf : Nat
  root : Word
  stamp : Nat
  deriving DecidableEq, Repr

/-- A surface entry that a write has replaced (R402). -/
structure OldSurface where
  vf : Nat
  k : Nat
  surf : Surface
  stamp : Nat
  deriving DecidableEq, Repr

/-- An invalidation (R401): its stage, its function, its first page's address, its count of pages, and its number among all
invalidations issued. -/
structure Inval where
  two : Bool
  vf : Nat
  base : Nat
  count : Nat
  mark : Nat
  deriving DecidableEq, Repr

/-- DESIGN CHOICE, log entry 35. What replaced translations an access may still use (R402 to R404): entries as they stood, the
invalidations that are issued, oldest first, and those that have completed. -/
structure Superseded where
  marks : Nat := 0
  entries : List OldEntry := []
  roots : List OldRoot := []
  surfaces : List OldSurface := []
  pending : List Inval := []
  done : List Inval := []
  deriving DecidableEq, Repr

/-- The device. -/
structure State where
  powered : Bool := true
  cycle : Nat := 0
  -- the strand that moves next, and the other strands
  cur : Nat := 0
  me : Strand := {}
  others : Tab Strand := []
  crews : Tab Crew := []
  grids : Tab Grid := []
  queues : Tab QueueReg := []
  heaps : Tab Heap := []
  parts : Tab Partition := []
  assigns : Tab Assign := []
  vfs : Tab Vf := []
  cores : Tab CoreReg := []
  banks : Tab Bank := []
  mem : Tab Byte := []
  -- poisoned 64-byte sectors, by key / 64 (R427)
  mpois : List Nat := []
  -- full bits of CSP granules, by key / 16 (R284)
  full : Tab Bool := []
  sbuf : List PStore := []
  l1 : List L1Line := []
  stash : List StashLine := []
  -- decompressed sectors (R293): (VF, surface, plain sector) and bytes, none for a malformed block
  dcache : List ((Nat × Nat × Nat) × Option (List Byte)) := []
  -- descriptor caches (R242): key and 64 bytes
  desc : List (Nat × List Byte) := []
  -- replaced table entries and the invalidations (R403)
  old : Superseded := {}
  colls : List Coll := []
  groups : Tab Group := []
  gangs : Tab Gang := []
  -- frames that the Carter has moved from the tier of their number, by partition * 2^38 + frame (R415)
  moved : Tab Bool := []
  -- channels by the partition, plus 1, that alone has owned them since they were last zeroed (R423)
  chOwner : Tab Nat := []
  -- tier-2 ports whose device has failed (R453)
  t2lost : List Nat := []
  ports : Tab Port := []
  rstores : List RemoteStore := []
  linkFail : List (Nat × Nat × Word) := []
  unreachable : List Nat := []
  hyp : HypRegs := {}
  ras : Ras := {}
  assayer : Assayer := {}
  limner : Limner := {}
  freeze : Freeze := {}
  plat : Platform := {}
  flash : Flash := {}
  outbox : List Msg := []
  nextGrid : Nat := 0
  nextCrew : Nat := 1
  serial : Nat := 0
  -- writes of the host that PCIe has delivered, oldest first: key and bytes (R303)
  posted : List (Nat × List Byte) := []
  -- MODEL: events that act before the next head; strands to switch to; whether queued work stays queued
  events : List Event := []
  -- MODEL: the event at hand, whose operands the meaning of its row reads
  input : Option Event := none
  schedule : List Nat := []
  deferred : Bool := false
  draws : Nat := 0
  -- MODEL: heads since the device's own turn, in a count of steps
  turn : Nat := 0
  deriving DecidableEq, Repr

/-- The machine right after reset (R461): nothing is assigned, enabled or resident, no strand runs, and the boot of
Steward core 0 is the next event. Every register is at the reset value of its field map; where the spec gives none the
value is named in notes/assumptions/1.md. -/
def State.reset : State := { events := [.deviceReset] }

/-- The reasons a step can stop. -/
inductive Fault where
  /-- Raised by `step` and by every meaning's caller when the device has no power (R393): nothing acts. Safe. -/
  | noPower
  deriving DecidableEq, Repr

/-- Refusals. -/
inductive Refusal where
  /-- Raised by an arm of `exec` whose instruction has no meaning yet; none is left. Safe. -/
  | notModelled (mnemonic : String)
  deriving DecidableEq, Repr

end Sys2Proof.Machine
end

