-- ==== Sys2Proof/Machine/Flags.lean ====
section
/-! DEFINITION. Number formats, rounding and flags (chapter "Number formats, rounding and summation order"): exact values,
one rounding, conversions, LNS6, and the exact functions behind division, roots, exponent and logarithm. -/

namespace Sys2Proof.Machine
open Sys2Proof

/-! ### Flags -/

/-- The union of two sets of sticky flags (R37). -/
def FFlags.or (a b : FFlags) : FFlags :=
  { dl := a.dl || b.dl, iov := a.iov || b.iov, nv := a.nv || b.nv, dz := a.dz || b.dz, of := a.of || b.of,
    uf := a.uf || b.uf, nx := a.nx || b.nx }

/-- FFLAGS as a word (R37). -/
def FFlags.toNat (f : FFlags) : Nat :=
  64 * f.dl.toNat + 32 * f.iov.toNat + 16 * f.nv.toNat + 8 * f.dz.toNat + 4 * f.of.toNat + 2 * f.uf.toNat + f.nx.toNat

def FFlags.ofNat (n : Nat) : FFlags :=
  { dl := n.testBit 6, iov := n.testBit 5, nv := n.testBit 4, dz := n.testBit 3, of := n.testBit 2, uf := n.testBit 1,
    nx := n.testBit 0 }

/-! ### Exact values -/

/-- A floating value (R57): a NaN (signalling or quiet), an infinity, or (−1)^neg × mag × 2^exp. -/
inductive FVal where
  | nan (sig : Bool)
  | inf (neg : Bool)
  | fin (neg : Bool) (mag : Nat) (exp : Int)
  deriving DecidableEq, Repr

/-- Exponent and fraction widths of a floating format (R56). -/
structure FForm where
  e : Nat
  f : Nat
  deriving DecidableEq, Repr

def FForm.f16 : FForm := ⟨5, 10⟩
def FForm.bf16 : FForm := ⟨8, 7⟩
def FForm.f32 : FForm := ⟨8, 23⟩

def ftyForm : FTy → FForm
  | .f16 => .f16
  | .bf16 => .bf16
  | .f32 => .f32

namespace FForm

def bias (t : FForm) : Int := 2 ^ (t.e - 1) - 1

def emax (t : FForm) : Nat := 2 ^ t.e - 1

/-- Exponent of the least significant bit of a subnormal (R57). -/
def lsbMin (t : FForm) : Int := 1 - t.bias - t.f

def width (t : FForm) : Nat := 1 + t.e + t.f

/-- The canonical NaN (R56). -/
def canon (t : FForm) : Nat := t.emax * 2 ^ t.f + 2 ^ (t.f - 1)

def signBit (t : FForm) (neg : Bool) : Nat := if neg then 2 ^ (t.e + t.f) else 0

def infinity (t : FForm) (neg : Bool) : Nat := t.signBit neg + t.emax * 2 ^ t.f

def largest (t : FForm) (neg : Bool) : Nat := t.signBit neg + t.emax * 2 ^ t.f - 1

/-- R57, on the low bits of `x` (R18). -/
def decode (t : FForm) (x : Nat) : FVal :=
  let neg := x.testBit (t.e + t.f)
  let e := x / 2 ^ t.f % 2 ^ t.e
  let f := x % 2 ^ t.f
  if e = t.emax then
    if f = 0 then .inf neg else .nan (!x.testBit (t.f - 1))
  else if e = 0 then .fin neg f t.lsbMin
  else .fin neg (2 ^ t.f + f) (t.lsbMin + e - 1)

end FForm

/-- A result code with the flags that it raised. -/
structure FRes where
  bits : Nat
  fl : FFlags := {}
  deriving DecidableEq, Repr

/-- Whether a magnitude n + rest is rounded up to n + 1 (R60): `half` compares the rest with one half, `exact` says that it
is zero. -/
def roundsUp (m : RM) (neg odd : Bool) (exact : Bool) (half : Ordering) : Bool :=
  match m with
  | .rne => half == .gt || (half == .eq && odd)
  | .rtz => false
  | .rup => !exact && !neg
  | .rdn => !exact && neg
  | .rmm => half == .gt || half == .eq

/-- The magnitude mag × 2^exp, plus a positive rest below its last unit when `sticky`, in units of 2^lsb, rounded.
Answers the integer and whether it is exact. -/
def roundMag (m : RM) (neg : Bool) (mag : Nat) (exp : Int) (sticky : Bool) (lsb : Int) : Nat × Bool :=
  if exp ≥ lsb then
    let q := mag * 2 ^ (exp - lsb).toNat
    if sticky then (if roundsUp m neg false false .lt then q + 1 else q, false) else (q, true)
  else
    let k := (lsb - exp).toNat
    let q := mag / 2 ^ k
    let r := mag % 2 ^ k
    let exact := r = 0 && !sticky
    let half := if 2 * r > 2 ^ k then .gt else if 2 * r = 2 ^ k then (if sticky then .gt else .eq) else .lt
    (if roundsUp m neg (q % 2 = 1) exact half then q + 1 else q, exact)

/-- Rounds (−1)^neg × mag × 2^exp (with a rest when `sticky`) once to format `t` in mode `m`: R60, R61, R62. A magnitude of
zero without a rest is an exact zero. -/
def FForm.round (t : FForm) (m : RM) (neg : Bool) (mag : Nat) (exp : Int) (sticky : Bool := false) : FRes :=
  if mag = 0 && !sticky then { bits := t.signBit neg }
  else
    let free : Int := exp + (mag.log2 : Int) - t.f
    let lsb := max free t.lsbMin
    let (q, exact) := roundMag m neg mag exp sticky lsb
    let code := ((lsb - t.lsbMin).toNat) * 2 ^ t.f + q
    if code ≥ t.emax * 2 ^ t.f then
      let big := match m with
        | .rne | .rmm => t.infinity neg
        | .rtz => t.largest neg
        | .rup => if neg then t.largest neg else t.infinity neg
        | .rdn => if neg then t.infinity neg else t.largest neg
      { bits := big, fl := { of := true, nx := true } }
    else
      -- tininess after rounding with an unbounded exponent (R62)
      let u := (roundMag m neg mag exp sticky free).1
      let tiny := mag = 0 || (free < t.lsbMin && !(u = 2 ^ (t.f + 1) && free + 1 = t.lsbMin))
      { bits := t.signBit neg + code, fl := { nx := !exact, uf := tiny && !exact } }

/-- Delivers an exact value in format `t`: NaN is canonical (R59), an infinity is exact. -/
def FForm.deliver (t : FForm) (m : RM) : FVal → FRes
  | .nan _ => { bits := t.canon }
  | .inf neg => { bits := t.infinity neg }
  | .fin neg mag exp => t.round m neg mag exp

def FVal.isSig : FVal → Bool
  | .nan s => s
  | _ => false

def FVal.isNan : FVal → Bool
  | .nan _ => true
  | _ => false

def FVal.neg : FVal → FVal
  | .nan s => .nan s
  | .inf n => .inf (!n)
  | .fin n m e => .fin (!n) m e

def FVal.isZero : FVal → Bool
  | .fin _ m _ => m = 0
  | _ => false

/-- The value as an integer in units of 2^e, where e is no more than its exponent. -/
def FVal.units (e : Int) : FVal → Int
  | .fin n m x => (if n then -1 else 1) * (m * 2 ^ (x - e).toNat : Int)
  | _ => 0

/-- Exact sum (R60), with the zero signs of R63; the Bool is NV for ∞ − ∞. Signalling operands are the caller's. -/
def FVal.add (m : RM) (a b : FVal) : FVal × Bool :=
  match a, b with
  | .nan _, _ | _, .nan _ => (.nan false, false)
  | .inf x, .inf y => if x = y then (.inf x, false) else (.nan false, true)
  | .inf x, _ => (.inf x, false)
  | _, .inf y => (.inf y, false)
  | .fin na ma ea, .fin nb mb eb =>
    if ma = 0 && mb = 0 then (.fin (if na = nb then na else m == .rdn) 0 0, false)
    else
      let e := min ea eb
      let v := (FVal.fin na ma ea).units e + (FVal.fin nb mb eb).units e
      if v = 0 then (.fin (m == .rdn) 0 0, false) else (.fin (v < 0) v.natAbs e, false)

/-- Exact product; the Bool is NV for 0 × ∞. -/
def FVal.mul (a b : FVal) : FVal × Bool :=
  match a, b with
  | .nan _, .inf _ | .nan _, .fin .. | .nan _, .nan _ | .inf _, .nan _ | .fin .., .nan _ => (.nan false, false)
  | .inf x, .inf y => (.inf (x != y), false)
  | .inf x, .fin n m _ => if m = 0 then (.nan false, true) else (.inf (x != n), false)
  | .fin n m _, .inf x => if m = 0 then (.nan false, true) else (.inf (x != n), false)
  | .fin na ma ea, .fin nb mb eb => (.fin (na != nb) (ma * mb) (ea + eb), false)

def nvIf (c : Bool) (r : FRes) : FRes := { r with fl := { r.fl with nv := r.fl.nv || c } }

def FForm.addOp (t : FForm) (m : RM) (a b : FVal) : FRes :=
  let (v, nv) := a.add m b
  nvIf (nv || a.isSig || b.isSig) (t.deliver m v)

def FForm.mulOp (t : FForm) (m : RM) (a b : FVal) : FRes :=
  let (v, nv) := a.mul b
  nvIf (nv || a.isSig || b.isSig) (t.deliver m v)

/-- a × b + c, one rounding (R126); 0 × ∞ raises NV whatever c is (R62). `np` negates the product, `nc` the addend. -/
def FForm.fmaOp (t : FForm) (m : RM) (np nc : Bool) (a b c : FVal) : FRes :=
  let (p, nv) := a.mul b
  let c := if nc then c.neg else c
  let (v, nv') := (if np then p.neg else p).add m c
  nvIf (nv || nv' || a.isSig || b.isSig || c.isSig) (t.deliver m v)

/-- Quotient (R63, R62). -/
def FForm.divOp (t : FForm) (m : RM) (a b : FVal) : FRes :=
  nvIf (a.isSig || b.isSig) <|
  match a, b with
  | .nan _, .nan _ | .nan _, .inf _ | .nan _, .fin .. | .inf _, .nan _ | .fin .., .nan _ => { bits := t.canon }
  | .inf _, .inf _ => nvIf true { bits := t.canon }
  | .inf x, .fin n _ _ => { bits := t.infinity (x != n) }
  | .fin n _ _, .inf x => { bits := t.signBit (x != n) }
  | .fin na ma ea, .fin nb mb eb =>
    if mb = 0 then
      if ma = 0 then nvIf true { bits := t.canon } else { bits := t.infinity (na != nb), fl := { dz := true } }
    else if ma = 0 then { bits := t.signBit (na != nb) }
    else
      let k := t.f + 4 + mb.log2
      let n := ma * 2 ^ k
      t.round m (na != nb) (n / mb) (ea - eb - k) (n % mb ≠ 0)

/-- Integer square root by bits, from bit `k - 1` down. -/
def isqrt (n : Nat) : Nat → Nat → Nat
  | 0, r => r
  | k + 1, r => if (r + 2 ^ k) ^ 2 ≤ n then isqrt n k (r + 2 ^ k) else isqrt n k r

def floorSqrt (n : Nat) : Nat := isqrt n (n.log2 / 2 + 1) 0

/-- Square root (R62, R63: the root of −0 is −0). -/
def FForm.sqrtOp (t : FForm) (m : RM) (a : FVal) : FRes :=
  nvIf a.isSig <|
  match a with
  | .nan _ => { bits := t.canon }
  | .inf neg => if neg then nvIf true { bits := t.canon } else { bits := t.infinity false }
  | .fin neg mag exp =>
    if mag = 0 then { bits := t.signBit neg }
    else if neg then nvIf true { bits := t.canon }
    else
      let k := 2 * (t.f + 3) + (exp % 2).toNat
      let n := mag * 2 ^ k
      let q := floorSqrt n
      t.round m false q ((exp - k) / 2) (q * q ≠ n)

/-- Reciprocal square root, exactly rounded: floor of 2^s / sqrt(n), with a rest unless it is exact. -/
def FForm.rsqOp (t : FForm) (m : RM) (a : FVal) : FRes :=
  nvIf a.isSig <|
  match a with
  | .nan _ => { bits := t.canon }
  | .inf neg => if neg then nvIf true { bits := t.canon } else { bits := t.signBit false }
  | .fin neg mag exp =>
    if mag = 0 then { bits := t.infinity neg, fl := { dz := true } }
    else if neg then nvIf true { bits := t.canon }
    else
      let n := mag * 2 ^ (exp % 2).toNat
      let s := t.f + 4 + n.log2
      let q := floorSqrt (2 ^ (2 * s) / n)
      t.round m false q (-s - (exp / 2)) (q * q * n ≠ 2 ^ (2 * s))

/-! ### Comparison, minimum and maximum -/

/-- Order of two values that are not NaN, −0 equal to +0. -/
def FVal.cmp (a b : FVal) : Ordering :=
  match a, b with
  | .nan _, _ | _, .nan _ => .eq
  | .inf x, .inf y => if x = y then .eq else if x then .lt else .gt
  | .inf x, .fin .. => if x then .lt else .gt
  | .fin .., .inf y => if y then .gt else .lt
  | .fin _ _ ea, .fin _ _ eb => compare (a.units (min ea eb)) (b.units (min ea eb))

def FVal.isNeg : FVal → Bool
  | .nan _ => false
  | .inf n => n
  | .fin n _ _ => n

/-- R64 on codes: which of two operands is chosen, or the canonical NaN. -/
def FForm.minMax (t : FForm) (isMax : Bool) (x y : Nat) : FRes :=
  let a := t.decode x
  let b := t.decode y
  nvIf (a.isSig || b.isSig) <|
  if a.isNan then { bits := if b.isNan then t.canon else y }
  else if b.isNan then { bits := x }
  else
    let aLess := match a.cmp b with
      | .lt => true
      | .gt => false
      | .eq => a.isNeg && !b.isNeg
    { bits := if aLess = isMax then y else x }

/-! ### Conversions -/

/-- Width and signedness of an integer type (R53). -/
structure IntTy where
  w : Nat
  sgn : Bool
  deriving DecidableEq, Repr

def IntTy.lo (i : IntTy) : Int := if i.sgn then -(2 ^ (i.w - 1) : Int) else 0
def IntTy.hi (i : IntTy) : Int := if i.sgn then 2 ^ (i.w - 1) - 1 else 2 ^ i.w - 1

/-- The value of the low w bits of `x` (R53). -/
def IntTy.read (i : IntTy) (x : Nat) : Int :=
  let v := x % 2 ^ i.w
  if i.sgn && v ≥ 2 ^ (i.w - 1) then (v : Int) - 2 ^ i.w else v

/-- The low w bits of an integer (R54). -/
def IntTy.wrap (i : IntTy) (x : Int) : Nat := (x % (2 ^ i.w : Int)).toNat

def IntTy.clamp (i : IntTy) (x : Int) : Int := max i.lo (min i.hi x)

/-- Rounding to an integer (R66): the integer, and whether it is exact. -/
def FVal.toInt (m : RM) (neg : Bool) (mag : Nat) (exp : Int) : Int × Bool :=
  let (q, exact) := roundMag m neg mag exp false 0
  (if neg then -(q : Int) else q, exact)

/-- R66: the integer delivered, and the flags. -/
def FVal.cvtInt (m : RM) (i : IntTy) : FVal → Int × FFlags
  | .nan _ => (0, { nv := true })
  | .inf neg => (if neg then i.lo else i.hi, { nv := true })
  | .fin neg mag exp =>
    let (v, exact) := FVal.toInt m neg mag exp
    if v > i.hi then (i.hi, { nv := true })
    else if v < i.lo then (i.lo, { nv := true })
    else (v, { nx := !exact })

def FVal.ofInt (x : Int) : FVal := .fin (x < 0) x.natAbs 0

/-- R67. -/
def FForm.ofInt (t : FForm) (m : RM) (x : Int) : FRes := t.deliver m (.ofInt x)

/-- R65: through the exact value, one rounding; NV for a signalling NaN. -/
def FForm.cvt (t : FForm) (m : RM) (v : FVal) : FRes := nvIf v.isSig (t.deliver m v)

/-! ### LNS6 -/

/-- The log field as an integer (R68). -/
def lnsLog (c : Nat) : Int := if c % 32 ≥ 16 then (c % 32 : Int) - 32 else c % 32

/-- The multipliers of R69, in units of 2^−15. -/
def lnsMul : Int → Nat
  | 0 => 32768
  | 1 => 38968
  | 2 => 46341
  | _ => 55109

/-- The exact value of a code under a scale (R68); NaR is a NaN that raises NV, as a signalling one. -/
def lnsVal (c : Nat) (scale : Int) : FVal :=
  let l := lnsLog c
  let neg := c.testBit 5
  if l = -16 then (if neg then .nan true else .fin false 0 0)
  else .fin neg (lnsMul (l % 4)) (l / 4 + scale - 15)

/-- `lns_to_f32` of R16. -/
def lnsToF32 (c : Nat) (scale : Int) : FRes := FForm.f32.cvt .rne (lnsVal c scale)

/-- The exact product of R74. -/
def lnsProduct (a : Nat) (sa : Int) (b : Nat) (sb : Int) : FVal :=
  let na := a % 64 = 48
  let nb := b % 64 = 48
  if na || nb then .nan true
  else if a % 64 = 16 || b % 64 = 16 then .fin false 0 0
  else
    let l := lnsLog a + lnsLog b
    .fin (a.testBit 5 != b.testBit 5) (lnsMul (l % 4)) (l / 4 + sa + sb - 15)

/-- floor(8 × log2 (mag × 2^exp)), for a magnitude that is not zero. -/
def log8 (mag : Nat) (exp : Int) : Int := ((mag ^ 8).log2 : Int) + 8 * exp

/-- The nearest multiple of one quarter to log2 (mag × 2^exp), times four (R73); no tie can arise. -/
def qlog4 (mag : Nat) (exp : Int) : Int := (log8 mag exp + 1) / 2

/-- `enc` of R73. -/
def lnsEnc (v : FVal) (sc : Int) : FRes :=
  match v with
  | .nan _ | .inf _ => { bits := 48, fl := { nv := true } }
  | .fin neg mag exp =>
    if mag = 0 then { bits := 16 }
    else if log8 mag exp < 8 * sc - 31 then { bits := 16, fl := { uf := true, nx := true } }
    else
      let l := qlog4 mag exp - 4 * sc
      let inexact : Bool := mag ≠ 2 ^ mag.log2
      let code (x : Int) : Nat := (if neg then 32 else 0) + (x % 32).toNat
      if l > 15 then { bits := code 15, fl := { of := true, nx := true } }
      else { bits := code (max l (-15)), fl := { nx := inexact } }

/-- The own scale of a block (R73): by its largest finite magnitude. -/
def lnsOwnScale (vs : List FVal) : Int :=
  let best := vs.foldl (fun (b : Option Int) v => match v with
    | .fin _ mag exp => if mag = 0 then b else
        let q := qlog4 mag exp
        some (match b with | none => q | some x => max x q)
    | _ => b) none
  match best with
  | none => 0
  | some q => max (-128) (min 127 (q / 4 - 3))

/-! ### exp2 and log2 -/

/-- Fixed-point product of two numbers in [1, 4) with `p` fraction bits, rounded down. -/
def fixMul (p a b : Nat) : Nat := a * b / 2 ^ p

/-- 2^(0.d₁d₂…) with `p` fraction bits: the digits of `x`, from bit `k - 1` down to 0, each a factor 2^(2^-i), the factors by
repeated square roots from `r`. -/
def exp2Digits (p x : Nat) : Nat → Nat → Nat → Nat
  | 0, _, acc => acc
  | k + 1, r, acc =>
    let r' := floorSqrt (r * 2 ^ p)
    exp2Digits p x k r' (if x.testBit k then fixMul p acc r' else acc)

/-- The binary digits of log2 of a fixed-point `x` in [1, 2), by repeated squaring. -/
def log2Digits (p : Nat) : Nat → Nat → Nat → Nat
  | 0, _, acc => acc
  | k + 1, x, acc =>
    let y := fixMul p x x
    if y ≥ 2 ^ (p + 1) then log2Digits p k (y / 2) (2 * acc + 1) else log2Digits p k y (2 * acc)

/-- 2^x, exactly rounded (R172). An integer x is exact; for any other x the value is irrational, and 224 fraction bits place
it strictly between two neighbouring codes' midpoints. -/
def FForm.exp2Op (t : FForm) (m : RM) (a : FVal) : FRes :=
  nvIf a.isSig <|
  match a with
  | .nan _ => { bits := t.canon }
  | .inf neg => if neg then { bits := t.signBit false } else { bits := t.infinity false }
  | .fin neg mag exp =>
    if exp ≥ 0 then
      let n : Int := if neg then -(min (mag * 2 ^ (min exp 16).toNat) 4000 : Nat) else (min (mag * 2 ^ (min exp 16).toNat) 4000 : Nat)
      t.round m false 1 n
    else
      let k := (-exp).toNat
      let v : Int := if neg then -(mag : Int) else mag
      let whole := max (-4000) (min 4000 (v / 2 ^ k))
      let frac := (v % (2 ^ k : Int)).toNat
      if frac = 0 then t.round m false 1 whole
      else t.round m false (exp2Digits 224 frac k (2 ^ 225) (2 ^ 224) / 2 ^ 16) (whole - 208) true

/-- log2 x, exactly rounded (R172). -/
def FForm.log2Op (t : FForm) (m : RM) (a : FVal) : FRes :=
  nvIf a.isSig <|
  match a with
  | .nan _ => { bits := t.canon }
  | .inf neg => if neg then nvIf true { bits := t.canon } else { bits := t.infinity false }
  | .fin neg mag exp =>
    if mag = 0 then { bits := t.infinity true, fl := { dz := true } }
    else if neg then nvIf true { bits := t.canon }
    else
      let l := mag.log2
      let whole : Int := exp + l
      if mag = 2 ^ l then t.deliver m (.ofInt whole)
      else
        let frac := log2Digits 192 144 (mag * 2 ^ 192 / 2 ^ l) 0
        let v := whole * 2 ^ 144 + frac
        if v ≥ 0 then t.round m false v.toNat (-144) true else t.round m true ((-v).toNat - 1) (-144) true

end Sys2Proof.Machine
end

