-- ==== Sys2Proof/Machine/Ops.lean ====
section
/-! DEFINITION. The named operations over tables, memory, translation, scalar registers, traps and the life of crews, which
every meaning is written with. -/

namespace Sys2Proof.Machine
open Sys2Proof

/-! ### Tables -/

/-- The value at key `k`, `d` where nothing is listed. -/
def tget {α : Type} (d : α) : Tab α → Nat → α
  | [], _ => d
  | (j, v) :: t, k => if j = k then v else tget d t k

/-- `t` without its entries for `k`. -/
def terase {α : Type} : Tab α → Nat → Tab α
  | [], _ => []
  | (j, v) :: t, k => if j = k then terase t k else (j, v) :: terase t k

/-- Inserts before the first greater key. -/
def tinsert {α : Type} : Tab α → Nat → α → Tab α
  | [], k, v => [(k, v)]
  | (j, w) :: t, k, v => if j < k then (j, w) :: tinsert t k v else (k, v) :: (j, w) :: t

/-- Writes key `k`; the default value is not listed. -/
def tset {α : Type} [DecidableEq α] (d : α) (t : Tab α) (k : Nat) (v : α) : Tab α :=
  if v = d then terase t k else tinsert (terase t k) k v

/-- The canonical form: keys strictly rising, no entry equal to the default. -/
def twf {α : Type} [DecidableEq α] (d : α) : Tab α → Bool
  | [] => true
  | [(_, v)] => v ≠ d
  | (j, v) :: (k, w) :: t => v ≠ d && j < k && twf d ((k, w) :: t)

def tmod {α : Type} [DecidableEq α] (d : α) (t : Tab α) (k : Nat) (f : α → α) : Tab α := tset d t k (f (tget d t k))

/-- Adds to a list without repeating. -/
def addOnce {α : Type} [DecidableEq α] (l : List α) (x : α) : List α := if x ∈ l then l else l ++ [x]

/-! ### Words and bytes (R2: little-endian) -/

def bitsOf (x : Word) (hi lo : Nat) : Nat := bits x.toNat hi lo

def word (n : Nat) : Word := BitVec.ofNat 64 n

def sext32 (i : Imm) : Word := i.signExtend 64

/-- The low `n` bytes of a value, least significant first. -/
def leBytes : Nat → Nat → List Byte
  | 0, _ => []
  | n + 1, v => BitVec.ofNat 8 v :: leBytes n (v / 256)

/-- The value of bytes, least significant first. -/
def leVal : List Byte → Nat
  | [] => 0
  | b :: t => b.toNat + 256 * leVal t

def zeros (n : Nat) : List Byte := List.replicate n 0

/-! ### Looking up agents -/

namespace State

def strand (s : State) (sid : Nat) : Strand := if sid = s.cur then s.me else tget {} s.others sid

def setStrand (s : State) (sid : Nat) (x : Strand) : State :=
  if sid = s.cur then { s with me := x } else { s with others := tset {} s.others sid x }

def modStrand (s : State) (sid : Nat) (f : Strand → Strand) : State := s.setStrand sid (f (s.strand sid))

def modMe (s : State) (f : Strand → Strand) : State := { s with me := f s.me }

def crew (s : State) (c : Nat) : Crew := tget {} s.crews c
def modCrew (s : State) (c : Nat) (f : Crew → Crew) : State := { s with crews := tmod {} s.crews c f }
def grid (s : State) (g : Nat) : Grid := tget {} s.grids g
def modGrid (s : State) (g : Nat) (f : Grid → Grid) : State := { s with grids := tmod {} s.grids g f }
def queue (s : State) (q : Nat) : QueueReg := tget {} s.queues q
def modQueue (s : State) (q : Nat) (f : QueueReg → QueueReg) : State := { s with queues := tmod {} s.queues q f }
def heap (s : State) (h : Nat) : Heap := tget {} s.heaps h
def modHeap (s : State) (h : Nat) (f : Heap → Heap) : State := { s with heaps := tmod {} s.heaps h f }
def part (s : State) (p : Nat) : Partition := tget {} s.parts p
def modPart (s : State) (p : Nat) (f : Partition → Partition) : State := { s with parts := tmod {} s.parts p f }
def assign (s : State) (e : Nat) : Assign := tget {} s.assigns e
def modAssign (s : State) (e : Nat) (f : Assign → Assign) : State := { s with assigns := tmod {} s.assigns e f }
def vf (s : State) (v : Nat) : Vf := tget {} s.vfs v
def modVf (s : State) (v : Nat) (f : Vf → Vf) : State := { s with vfs := tmod {} s.vfs v f }
def coreReg (s : State) (c : Nat) : CoreReg := tget {} s.cores c
def modCore (s : State) (c : Nat) (f : CoreReg → CoreReg) : State := { s with cores := tmod {} s.cores c f }

/-- The crew of the current strand. -/
def myCrew (s : State) : Crew := s.crew s.me.crew
def myGrid (s : State) : Grid := s.grid s.myCrew.grid
def modMyCrew (s : State) (f : Crew → Crew) : State := s.modCrew s.me.crew f

/-- The assignment entry of a core: Wide cores, then Lean clusters (R409). -/
def entryOf (core : Nat) : Nat := if core < Config.wideCores then core else 160 + (core - 160) / 8

/-- The class of a core (R4, R412). -/
def classOf (s : State) (core : Nat) : CoreClass :=
  if core < Config.wideCores then (if (s.assign core).split then .half else .wide)
  else if core < Config.stewardBase then .lean else .steward

def cls (s : State) : CoreClass := s.classOf s.me.core

end State

def Strand.onSteward (m : Strand) : Bool := m.core ≥ Config.stewardBase

def Strand.vlmax (m : Strand) : Nat := 256 * 2 ^ m.vlmaxc.val

def Decl.vlmax (d : Decl) : Nat := 256 * 2 ^ d.vlmaxc.val

/-- Cluster of a core (R4, R158). -/
def clusterOf (core : Nat) : Nat := if core < 160 then core / 4 else 40 + (core - 160) / 8

/-- Compute die of a core (R412). -/
def dieOf (core : Nat) : Nat :=
  if core < 160 then core / 4 / 10 else if core < Config.stewardBase then (core - 160) / 8 / 8 else 0

namespace CoreClass
/-- The limits of R4 and R28, by class. -/
def slots : CoreClass → Nat | .wide => 16 | .half => 8 | .lean => 8 | .steward => 1
def rows : CoreClass → Nat | .wide => 4096 | .half => 2048 | .lean => 1024 | .steward => 0
def tileSlots : CoreClass → Nat | .wide => 39 | .half => 19 | .lean => 19 | .steward => 0
def tileRows : CoreClass → Nat | .wide => 64 | .half => 64 | .lean => 16 | .steward => 0
def images : CoreClass → Nat | .wide => 64 | .half => 32 | .lean => 8 | .steward => 0
def laneLocal : CoreClass → Nat | .wide => 1048576 | .half => 524288 | .lean => 262144 | .steward => 0
def laneRows : CoreClass → Nat | .wide => 4 | .half => 2 | .lean => 1 | .steward => 0
def maxM : CoreClass → Nat | .wide => 64 | .half => 32 | .lean => 16 | .steward => 0
def maxN : CoreClass → Nat | .wide => 64 | .half => 64 | .lean => 16 | .steward => 0
def code : CoreClass → Nat | .wide => 0 | .half => 1 | .lean => 2 | .steward => 3
end CoreClass

/-- Whether a cycle has reached `deadline`. -/
def reached (s : State) (deadline : Nat) : Bool := deadline ≤ s.cycle

/-- Advances the clock (R44). -/
def tick (n : Nat) (s : State) : State := { s with cycle := s.cycle + n }

/-! ### Memory keys

Every byte of the device has one key: frame spaces, the Steward's SRAM, host memory, memory of other devices, scratchpads and
lane-local stores never alias (R198, R394, R465). -/

def frameKey (p o : Nat) : Nat := p * 2 ^ 54 + o
def sramKey (o : Nat) : Nat := 2 ^ 60 + o
/-- Host memory by what the host's IOMMU makes of an IOVA for a function (R405). -/
def hostKey (v gen iova : Nat) : Nat := 2 ^ 61 + Config.hostFrame v (iova / 65536) gen % 2 ^ 45 * 65536 + iova % 65536
def remoteKey (dev o : Nat) : Nat := 2 ^ 62 + dev * 2 ^ 46 + o
def cspKey (cluster o : Nat) : Nat := 2 ^ 63 + cluster * 2 ^ 32 + o
def laneKey (core o : Nat) : Nat := 2 ^ 64 + core * 2 ^ 32 + o

/-- Keys of generic memory, which the first-level caches and the store buffers serve. -/
def isGeneric (k : Nat) : Bool := k < 2 ^ 63

namespace State

/-- One byte at its home: the shared cache of its device, the host, or the scratchpad. An unlisted byte is 0. -/
def home (s : State) (k : Nat) : Byte := tget 0 s.mem k

def homeBytes (s : State) : Nat → Nat → List Byte
  | _, 0 => []
  | k, n + 1 => s.home k :: s.homeBytes (k + 1) n

end State

/-- The canonical form of memory. -/
def Memory.wf (m : Tab Byte) : Bool := twf 0 m

/-- Writes bytes from key `k` upward. -/
def putBytes : Tab Byte → Nat → List Byte → Tab Byte
  | m, _, [] => m
  | m, k, b :: t => putBytes (tset 0 m k b) (k + 1) t

/-- Zeroes every byte of keys `k` to `k + n - 1`. -/
def zeroRange (m : Tab Byte) (k n : Nat) : Tab Byte := m.filter fun e => e.1 < k || k + n ≤ e.1

def PStore.covers (p : PStore) (core k : Nat) : Bool := p.core = core && p.key ≤ k && k < p.key + p.bytes.length

/-- The newest byte that core `core` has stored at `k` and not yet performed at its home (R296). -/
def bufByte (core k : Nat) : List PStore → Option Byte → Option Byte
  | [], acc => acc
  | p :: t, acc => bufByte core k t (if p.covers core k then p.bytes[k - p.key]? else acc)

/-- The byte that a first-level line of the core holds, while the line lives (R296). -/
def lineByte (s : State) (core k : Nat) : List L1Line → Option Byte
  | [] => none
  | l :: t =>
    if l.core = core && l.key = k / 64 && s.cycle ≤ l.filled + Config.l1Life then l.bytes[k % 64]? else lineByte s core k t

/-- The newest byte that the core has stored at `k` in the memory of a device that has not acknowledged it. -/
def remoteByte (core k : Nat) : List RemoteStore → Option Byte → Option Byte
  | [], acc => acc
  | r :: t, acc => remoteByte core k t (if r.core = core && r.key ≤ k && k < r.key + r.bytes.length then r.bytes[k - r.key]? else acc)

/-- One byte as a load of a strand on `core` reads it (R296): a store that has not reached its home is visible on its core. -/
def State.view (s : State) (core k : Nat) : Byte :=
  if isGeneric k then
    match bufByte core k s.sbuf (remoteByte core k s.rstores none) with
    | some b => b
    | none =>
      match lineByte s core k s.l1 with
      | some b => b
      | none => s.home k
  else s.home k

def State.viewBytes (s : State) (core : Nat) : Nat → Nat → List Byte
  | _, 0 => []
  | k, n + 1 => s.view core k :: s.viewBytes core (k + 1) n

/-- The 64-byte sectors, or lines, that `n` bytes from `k` touch. -/
def sectors (k n : Nat) : List Nat := if n = 0 then [] else (List.range ((k + n - 1) / 64 - k / 64 + 1)).map (· + k / 64)

def popcount (n : Nat) : Nat → Nat
  | 0 => 0
  | k + 1 => (if n.testBit k then 1 else 0) + popcount n k

/-- 64 KiB frames of a partition (R414). -/
def Partition.frames (p : Partition) : Nat := 244140 * popcount p.chmask.toNat 48 + 16384 * p.t2

/-- Frames of tier 1 (R414, R415). -/
def tier1Frames (p : Partition) : Nat := 244140 * popcount p.chmask.toNat 48

def frameSlot (p f : Nat) : Nat := p * 2 ^ 38 + f

def inTier1 (s : State) (p f : Nat) : Bool := (decide (f < tier1Frames (s.part p))) ≠ tget false s.moved (frameSlot p f)

/-- A byte of tier 2 whose device has failed: reads are poisoned and writes are dropped (R453). -/
def lostTier2 (s : State) (k : Nat) : Bool :=
  let p := k / 2 ^ 54
  let f := k % 2 ^ 54 / 65536
  s.t2lost ≠ [] && k < 2 ^ 60 && !inTier1 s p f && Config.t2Port p f % 2 ∈ s.t2lost

/-- A sector with an uncorrectable error (R204, R427). -/
def State.badSector (s : State) (x : Nat) : Bool := x ∈ s.mpois || lostTier2 s (64 * x)

/-- Whether a read of the range meets an uncorrectable error (R204). -/
def State.poisoned (s : State) (k n : Nat) : Bool := (sectors k n).any s.badSector

/-- An uncorrectable error as core `core` meets it: a store of the core that waits in its buffer and covers the whole sector hides
the error from the core's own reads (R204, R205). -/
def State.badFor (s : State) (core x : Nat) : Bool :=
  (x ∈ s.mpois && !(s.sbuf.any fun p => p.core = core && p.key ≤ 64 * x && 64 * x + 64 ≤ p.key + p.bytes.length))
    || lostTier2 s (64 * x)

/-- `poisoned`, as a read of core `core` meets it. -/
def State.poisonedFor (s : State) (core k n : Nat) : Bool := (sectors k n).any (s.badFor core)

/-- Sectors that `n` bytes from `k` cover whole. -/
def wholeSectors (k n : Nat) : List Nat := (sectors k n).filter fun x => k ≤ 64 * x && 64 * x + 64 ≤ k + n

/-! ### Translation (R394 to R400, R465) -/

/-- The context of an access. -/
structure Ctx where
  vf : Nat
  part : Nat
  app : Bool
  steward : Bool
  -- an access of the Factor or an engine, which no strand waits for
  engine : Bool := false
  -- pages that the access has been told are missing, by stage and page (R399, R406)
  failed : List (Bool × Nat) := []
  deriving DecidableEq, Repr

/-- What an access asks of a leaf (R397). -/
structure Acc where
  r : Bool := false
  w : Bool := false
  x : Bool := false
  deriving DecidableEq, Repr

def Acc.rd : Acc := { r := true }
def Acc.wr : Acc := { w := true }
def Acc.rw : Acc := { r := true, w := true }
def Acc.fetch : Acc := { x := true }

/-- Whether an access has been told that a page is missing. -/
def Ctx.lacks (c : Ctx) (s : State) (second : Bool) (page : Nat) : Bool :=
  (second, page) ∈ (if c.engine then (s.vf c.vf).failed else c.failed)

/-- Where an address leads: a byte of memory, a plain-view offset of a surface, or a register of a register space. -/
inductive Place where
  | cell (k : Nat)
  | plain (vf surf off : Nat)
  | reg (sp : Space) (off : Nat)
  deriving DecidableEq, Repr

/-- The outcome of a translation: a place, a trap with the REASON of R203 (and the address, where it is not the accessed
one), or a stall for the hypervisor (R399) or the host (R406). -/
inductive Xl (α : Type) where
  | ok (a : α)
  | fault (c : Cause) (reason : Nat) (addr : Option Nat)
  | stall2 (ipa : Nat)
  | stallPri (iova : Nat)
  deriving DecidableEq, Repr

def Xl.bind {α β : Type} (x : Xl α) (f : α → Xl β) : Xl β :=
  match x with
  | .ok a => f a
  | .fault c r a => .fault c r a
  | .stall2 i => .stall2 i
  | .stallPri i => .stallPri i

/-- Shift and index width of each level (R395). -/
def levels : List (Nat × Nat × Nat) := [(0, 48, 8), (1, 39, 9), (2, 30, 9), (3, 21, 9), (4, 16, 5)]

/-- Log of the size of the table that a pointer of level `lv` names. -/
def nextTableBits : Nat → Nat
  | 3 => 8
  | _ => 12

/-- Whether a valid entry is malformed (R396). -/
def malformed (first : Bool) (lv shift e : Nat) : Bool :=
  let t := e.testBit 1
  let attr := bits e 58 57
  let surf := bits e 62 59
  let plain := first && !t && attr = 1
  e.testBit 63 || e.testBit 56 || bits e 7 6 ≠ 0 || (!first && e.testBit 5)
    || (attr ≠ 0 && !plain) || (surf ≠ 0 && !plain)
    || (!t && lv < 2) || (t && lv = 4)
    || (t && bits e 55 0 / 256 * 256 % 2 ^ nextTableBits lv ≠ 0)
    || (!t && bits e 55 0 / 256 * 256 % 2 ^ shift ≠ 0)
    || (plain && bits e 55 8 ≠ 0)

def permits (first app : Bool) (acc : Acc) (e : Nat) : Bool :=
  (!acc.r || e.testBit 2) && (!acc.w || e.testBit 3) && (!acc.x || e.testBit 4) && (!(first && app) || e.testBit 5)

/-- One five-level walk (R395, R397). `read` reads the entry at a table address; `bad` answers an entry that is not valid or is
malformed; `leaf` finishes with the leaf and the page size in bits. -/
def walk {α : Type} (first app : Bool) (acc : Acc) (read : Nat → Xl Nat) (bad : Xl α) (leaf : Nat → Nat → Xl α) (a : Nat) :
    List (Nat × Nat × Nat) → Nat → Xl α
  | [], _ => bad
  | (lv, shift, w) :: rest, t =>
    (read (t + 8 * (a / 2 ^ shift % 2 ^ w))).bind fun e =>
      if !e.testBit 0 || malformed first lv shift e then bad
      else if e.testBit 1 then walk first app acc read bad leaf a rest (bits e 55 8 * 256)
      else if !permits first app acc e then .fault .access 1 none
      else leaf e shift

/-- A device of the load-store domain: one that a route entry reaches, or this one (R455, R394). -/
def inDomain (s : State) (dev : Nat) : Bool := dev = s.plat.devid || tget 0 s.plat.routes dev ≠ 0

/-- The target of a second-stage output address (R394). -/
def target (s : State) (c : Ctx) (pa : Nat) : Xl Place :=
  let o := bits pa 53 0
  match bits pa 55 54 with
  | 0 => if o < (s.part c.part).frames * 65536 then .ok (.cell (frameKey c.part o)) else .fault .access 1 none
  | 1 => if inDomain s (bits pa 53 46) then .ok (.cell (remoteKey (bits pa 53 46) (bits pa 45 0))) else .fault .access 5 none
  | 2 =>
    let v := s.vf c.vf
    if o / 65536 ∈ v.pages || Config.hostPresent c.vf (o / 65536) v.priNext then .ok (.cell (hostKey c.vf v.atsGen o))
    else if c.lacks s false (o / 65536) then .fault .pageFault 0 none
    else .stallPri o
  | _ => if o ≤ 0x17FFF then .ok (.reg (.vf c.vf) o) else .fault .access 1 none

/-- Whether a translation of `a` must not use what was replaced at mark `stamp`: an invalidation that was issued afterwards, and
covers `a`, has completed (R403, R404). -/
def Superseded.closed (h : Superseded) (two : Bool) (v a stamp : Nat) : Bool :=
  h.done.any fun i => i.two = two && i.vf = v && stamp < i.mark && (i.count = 0 || (a + 2 ^ 64 - i.base) % 2 ^ 64 < 65536 * i.count)

/-- The cycle at which the access at hand begins its translation: a queued operation keeps that of its issue. -/
def xlTime (s : State) : Nat := match s.me.vop with
  | some o => o.entered
  | none => s.cycle

/-- One of the old values or the present one, at each place independently (R403). -/
def pickOld {α : Type} (s : State) (k a : Nat) (olds : List α) (now : α) : α :=
  match olds with
  | [] => now
  | o :: t => ((o :: t)[Config.entryPick (xlTime s) k (a / 65536) % (t.length + 2)]?).getD now

/-- The replaced values of the entry at key `k` that a translation of `a` may still use. -/
def oldEntries (s : State) (two : Bool) (v a k : Nat) : List Nat :=
  (s.old.entries.filter fun o => o.key = k && !s.old.closed two v a o.stamp).map (·.val)

/-- The table entry at key `k` as a translation of `a` uses it (R397, R403). -/
def entryValue (s : State) (two : Bool) (v a k : Nat) : Nat :=
  pickOld s k a (oldEntries s two v a k) (leVal (s.homeBytes k 8))

/-- S1ROOT as a translation of `a` uses it: a change is invalidated as the whole space (R402). -/
def rootOf (s : State) (v a : Nat) : Nat :=
  let olds := s.old.roots.filter fun o => o.vf = v && !(s.old.done.any fun i => !i.two && i.vf = v && o.stamp < i.mark && i.count = 0)
  pickOld s (2 ^ 64 + v) a (olds.map (·.root.toNat)) (s.vf v).s1root.toNat

/-- A surface entry as an access uses it: a change is invalidated by pages of the old plain view (R402). -/
def surfaceOf (s : State) (v k : Nat) : Surface :=
  let gone (o : OldSurface) : Bool := s.old.done.any fun i => !i.two && i.vf = v && o.stamp < i.mark
    && (i.count = 0 || i.base < o.surf.plain.toNat + 65536 * (o.surf.nseg + 1) && o.surf.plain.toNat < i.base + 65536 * i.count)
  pickOld s (2 ^ 65 + 16 * v + k) 0 ((s.old.surfaces.filter fun o => o.vf = v && o.k = k && !gone o).map (·.surf))
    (tget {} (s.vf v).surfaces k)

/-- Second stage (R397). -/
def s2 (s : State) (c : Ctx) (acc : Acc) (ipa : Nat) : Xl Place :=
  walk false false acc (fun t => .ok (entryValue s true c.vf ipa (frameKey c.part t)))
    (if c.lacks s true (ipa / 65536) then .fault .s2Fault 0 none else .stall2 ipa)
    (fun e sh => target s c (bits e 55 8 * 256 + ipa % 2 ^ sh)) ipa levels (s.vf c.vf).s2root.toNat

/-- Where a first-stage leaf leads: an IPA, or a plain offset of a surface (R400). -/
def plainTarget (s : State) (c : Ctx) (va surf : Nat) : Xl Place :=
  let f := surfaceOf s c.vf surf
  if f.valid && f.plain.toNat ≤ va && va < f.plain.toNat + 65536 * (f.nseg + 1) then .ok (.plain c.vf surf (va - f.plain.toNat))
  else .fault .access 4 none

/-- R8. -/
def canonical (va : Nat) : Bool := va / 2 ^ 55 = 0 || va / 2 ^ 55 = 2 ^ 9 - 1

/-- A read of one first-stage table entry for a translation of `va`, through the second stage. -/
def readEntry (s : State) (c : Ctx) (va t : Nat) : Xl Nat :=
  (s2 s c .rd t).bind fun p => match p with
    | .cell k => .ok (entryValue s false c.vf va k)
    | _ => .fault .access 1 none

/-- `translate` of a compute strand (R397). -/
def translateVf (s : State) (c : Ctx) (acc : Acc) (va : Nat) : Xl Place :=
  walk true c.app acc (readEntry s c va) (.fault .pageFault 0 none)
    (fun e sh => if bits e 58 57 = 1 then plainTarget s c va (bits e 62 59)
      else s2 s c acc (bits e 55 8 * 256 + va % 2 ^ sh)) va levels (rootOf s c.vf va)

/-- The address map of the Steward (R465). -/
def translateSteward (s : State) (va : Nat) : Xl Place :=
  if 0xFF80000000000000 ≤ va && va < 0xFF80000000000000 + 64 * 2 ^ 43 then
    let p := (va - 0xFF80000000000000) / 2 ^ 43
    let o := (va - 0xFF80000000000000) % 2 ^ 43
    if o < (s.part p).frames * 65536 then .ok (.cell (frameKey p o)) else .fault .access 1 none
  else if 0xFFFFFF0000000000 ≤ va && va < 0xFFFFFF0000000000 + 2 ^ 26 then .ok (.cell (sramKey (va - 0xFFFFFF0000000000)))
  else if 0xFFFFFF8000000000 ≤ va && va < 0xFFFFFF8000000000 + 2 ^ 18 then .ok (.reg .hyp (va - 0xFFFFFF8000000000))
  else if 0xFFFFFF8000100000 ≤ va && va < 0xFFFFFF8000100000 + 2 ^ 19 then .ok (.reg .ras (va - 0xFFFFFF8000100000))
  else if 0xFFFFFF8000200000 ≤ va && va < 0xFFFFFF8000200000 + 2 ^ 16 then .ok (.reg .platform (va - 0xFFFFFF8000200000))
  else .fault .access 1 none

/-- `translate(va, acc)` of R16. -/
def translate (s : State) (c : Ctx) (acc : Acc) (va : Nat) : Xl Place :=
  if !canonical va then .fault .access 0 none
  else if c.steward then translateSteward s va
  else translateVf s c acc va

/-- The context of the current strand. -/
def State.ctx (s : State) : Ctx :=
  { vf := s.myGrid.vf, part := s.myGrid.part, app := s.me.priv = .app, steward := s.me.onSteward, failed := s.me.failed }

/-! ### Writes at the home of a byte -/

/-- Breaks every link on the lines (R210), except those of strand `keep`. -/
def breakLinks (lines : List Nat) (keep : Option Nat) (s : State) : State :=
  let cut (sid : Nat) (m : Strand) : Strand :=
    if keep = some sid || m.links = [] then m else { m with links := m.links.filter (· ∉ lines) }
  { s with me := cut s.cur s.me, others := s.others.map fun e => (e.1, cut e.1 e.2) }

/-- Whether a page of an open window's range leads, as it is mapped now, to the 64 KiB page with number `page`. -/
def Window.leads (x : Window) (s : State) (v page : Nat) : Bool :=
  (List.range (x.len / 65536)).any fun i =>
    match translate s { vf := v, part := (s.vf v).part, app := false, steward := false } {} (x.base.toNat + 65536 * i) with
    | .ok (.cell k) => k / 65536 = page
    | _ => false

/-- The open window that serves a key, by its VF and number: every agent's access to the range is its (R216, R282). -/
def windowOf (s : State) (k : Nat) : Option (Nat × Nat) :=
  (s.vfs.flatMap fun (v, f) => f.windows.filterMap fun (w, o) => match o with
    | some x => if x.leads s v (k / 65536) then some (v, w) else none
    | none => none).head?

/-- Lines that the stash share of a VF holds, in 256 bytes (R416). -/
def stashLines (s : State) (v : Nat) : Nat := (s.vf v).stash * 65536

/-- The least recently touched line of a VF's windows. -/
def oldestLine (v : Nat) (l : List StashLine) : Option StashLine :=
  (l.filter (·.vf = v)).foldl (fun o x => match o with
    | some y => if x.touch < y.touch then some x else o
    | none => some x) none

/-- Makes room for a line (R282): the least recently touched line leaves a share that is full, written back. -/
def evictLine (v : Nat) (s : State) : State :=
  if (s.stash.filter (·.vf = v)).length < stashLines s v then s
  else match oldestLine v s.stash with
    | some x => { s with stash := s.stash.erase x }
    | none => s

/-- Line `line` of a window is touched: it is filled where it is not held, and a write keeps the tier bytes behind it (R282). -/
def touchLine (v w line : Nat) (write : Bool) (s : State) : State :=
  let kept : StashLine := ⟨v, w, line, s.homeBytes (line * 256) 256, s.mpois.filter (· / 4 = line), true, s.cycle⟩
  let fresh : StashLine := if write then kept else ⟨v, w, line, [], [], false, s.cycle⟩
  match s.stash.find? (·.key = line) with
  | some x =>
    let y := if write && !x.dirty then { kept with vf := x.vf, w := x.w } else { x with touch := s.cycle }
    { s with stash := s.stash.map fun z => if z.key = line then y else z }
  | none => let s := evictLine v s; { s with stash := s.stash ++ [fresh] }

/-- The 256-byte lines of open windows that an access touches (R282). -/
def noteStash (write : Bool) (k n : Nat) (s : State) : State :=
  if s.vfs.all (fun e => e.2.windows = []) then s else
  (List.range ((k + n - 1) / 256 - k / 256 + 1)).foldl (fun s i =>
    match windowOf s ((k / 256 + i) * 256) with
    | none => s
    | some (v, w) => touchLine v w (k / 256 + i) write s) s

/-- Whether a dword can be a table entry in use: it is valid and its reserved bits are zero (R396). -/
def entryLike (e : Nat) : Bool := e.testBit 0 && !e.testBit 63 && !e.testBit 56 && bits e 7 6 = 0

/-- The 8 bytes of dword `d` of a memory. -/
def dwordAt (m : Tab Byte) (d : Nat) : Nat := leVal ((List.range 8).map fun i => tget 0 m (8 * d + i))

/-- The dwords that `n` bytes from `k` touch. -/
def dwords (k n : Nat) : List Nat := if n = 0 then [] else (List.range ((k + n - 1) / 8 - k / 8 + 1)).map (· + k / 8)

/-- Keeps what may have been table entries among the dwords `ds` that a change of memory replaces (R403). -/
def Superseded.note (ds : List Nat) (m m' : Tab Byte) (h : Superseded) : Superseded :=
  { h with entries := h.entries ++ ds.filterMap fun d =>
      if isGeneric (8 * d) && entryLike (dwordAt m d) && dwordAt m' d ≠ dwordAt m d then
        some ⟨8 * d, dwordAt m d, h.marks⟩ else none }

/-- A write performed at its home (R296): the bytes, the poison of R204, links, windows and the first-level line of core
`core`, which performed it. -/
def homeWrite (core : Option Nat) (keep : Option Nat) (k : Nat) (bs : List Byte) (s : State) : State :=
  let n := bs.length
  if n = 0 || lostTier2 s k then s else
  let s := noteStash true k n s
  let lines := sectors k n
  let m := putBytes s.mem k bs
  let s := { s with mem := m, mpois := s.mpois.filter (· ∉ wholeSectors k n), old := s.old.note (dwords k n) s.mem m }
  let s := { s with l1 := s.l1.filter fun l => !(some l.core = core && l.key ∈ lines) }
  breakLinks lines keep s

/-- The port of an access to offset `o` of a domain device: bit k of its route mask (R455). -/
def routePort (s : State) (dev o : Nat) : Option Nat :=
  let l := (List.range 24).filter (tget 0 s.plat.routes dev).toNat.testBit
  l[o / 256 % l.length]?

/-- The device of a remote key that no port reaches at present (R445, R457). -/
def lostDevice (s : State) (k : Nat) : Option Nat :=
  if k < 2 ^ 62 || 2 ^ 63 ≤ k then none
  else
    let dev := (k - 2 ^ 62) / 2 ^ 46
    let down := match routePort s dev (k % 2 ^ 46) with
      | some p => !(tget {} s.ports p).up
      | none => false
    if dev ∈ s.unreachable || down then some dev else none

/-- Performs the remote stores that `f` picks at their home, oldest first: one address keeps its order (R295, R297). -/
def performRemote (f : RemoteStore → Bool) (s : State) : State :=
  let (go, stay) := s.rstores.partition f
  go.foldl (fun s r => homeWrite (some r.core) none r.key r.bytes s) { s with rstores := stay }

/-- Performs one buffered store at its home; a store to a device that cannot be reached awaits its acknowledgement (R457). Older stores
that have awaited one of a device that can be reached again come first (R295). -/
def performStore (p : PStore) (s : State) : State :=
  match lostDevice s p.key with
  | some d => { s with rstores := s.rstores ++ [⟨p.core, p.sid, d, p.key, p.va, p.bytes, s.cycle, routePort s d (p.key % 2 ^ 46)⟩] }
  | none =>
    homeWrite (some p.core) none p.key p.bytes (performRemote (fun r => r.key < p.key + p.bytes.length && p.key < r.key + r.bytes.length) s)

/-- Performs the buffered stores that `f` picks, oldest first. -/
def drainWhere (f : PStore → Bool) (s : State) : State :=
  let (go, stay) := s.sbuf.partition f
  go.foldl (fun s p => performStore p s) { s with sbuf := stay }

/-- Performs every store of a core at its home, as a release, a fence or an atomic at device scope needs (R298, R299). -/
def drainCore (core : Nat) (s : State) : State := if s.sbuf = [] then s else drainWhere (·.core = core) s

/-- An acquire at device scope or wider uses no first-level line filled before it (R298). -/
def dropLines (core : Nat) (s : State) : State := { s with l1 := s.l1.filter (·.core ≠ core) }

/-- Fills the first-level lines of a generic load (R296). -/
def fillLines (core k n : Nat) (s : State) : State :=
  if isGeneric k then
    (sectors k n).foldl (fun s line =>
      let l1 := s.l1.filter fun l => l.core ≠ core || s.cycle ≤ l.filled + Config.l1Life
      if l1.any (fun l => l.core = core && l.key = line) then { s with l1 := l1 }
      else { s with l1 := l1 ++ [{ core := core, key := line, bytes := s.homeBytes (64 * line) 64, filled := s.cycle }] }) s
  else s

/-- A store of strand `sid` on `core` (R296): generic bytes enter the core's buffer, other bytes are performed at once. -/
def storeBytes (core sid k : Nat) (va : Word) (bs : List Byte) (s : State) : State :=
  if bs.length = 0 then s
  else if isGeneric k then
    breakLinks (sectors k bs.length) none
      { s with sbuf := s.sbuf ++ [{ core := core, sid := sid, key := k, va := va, bytes := bs, at_ := s.cycle }] }
  else { s with mem := putBytes s.mem k bs, mpois := s.mpois.filter (· ∉ wholeSectors k bs.length) }

/-- Translation sets the touched bit of a page (R387); in an elastic partition the Carter then promotes a page that is served from tier 2
(R388, R415). An access also touches the line of an open window (R282). -/
def touch (k : Nat) (s : State) : State :=
  let s := noteStash false k 1 s
  let p := k / 2 ^ 54
  if k < 2 ^ 60 && !s.me.onSteward then
    let s := s.modVf s.ctx.vf fun v => { v with
      touched := addOnce v.touched (k / 65536), lastTouch := tset 0 v.lastTouch (k / 65536) (s.cycle + 1) }
    let e := Event.pageMove p (k / 65536 % 2 ^ 38) true
    if !(s.part p).elastic || inTier1 s p (k / 65536 % 2 ^ 38) || e ∈ s.events then s else { s with events := s.events ++ [e] }
  else s

/-- The context of a grid, as the Factor and the engines use it: reads at SUP (R346). -/
def Grid.ctx (g : Grid) : Ctx := { vf := g.vf, part := g.part, app := false, steward := false, engine := true }

def QueueReg.ctx (q : QueueReg) : Ctx := { vf := q.vf, part := q.part, app := false, steward := false, engine := true }

/-- Bytes read at their homes through a context, in pieces that do not cross a 64 KiB page, as the Factor reads them: the
bytes, or none where a translation faults or a sector is poisoned; the Bool says that the read stalls (R346, R399, R406). -/
inductive Fetch where
  | bytes (b : List Byte)
  | unreadable
  | stalled
  deriving DecidableEq, Repr

def fetchBytes (s : State) (c : Ctx) : Nat → Nat → List Byte → Fetch
  | _, 0, acc => .bytes acc
  | va, n + 1, acc =>
    match translate s c .rd va with
    | .ok (.cell k) => if s.badSector (k / 64) then .unreadable else fetchBytes s c (va + 1) n (acc ++ [s.home k])
    | .ok _ => .unreadable
    | .fault .. => .unreadable
    | .stall2 _ => .stalled
    | .stallPri _ => .stalled

/-- Keys of `n` bytes from `va`, or none where one of them has no byte of memory. -/
def placeBytes (s : State) (c : Ctx) (acc : Acc) : Nat → Nat → Option (List Nat)
  | _, 0 => some []
  | va, n + 1 =>
    match translate s c acc va with
    | .ok (.cell k) => (placeBytes s c acc (va + 1) n).map (k :: ·)
    | _ => none

/-- Writes bytes at their homes through a context; none where a translation fails. -/
def writeThrough (s : State) (c : Ctx) (va : Nat) (bs : List Byte) : Option State :=
  (placeBytes s c .wr va bs.length).map fun ks => (ks.zip bs).foldl (fun s e => homeWrite none none e.1 [e.2] s) s

/-! ### Scalar registers (R18, R96 to R100) -/

/-- The delivered value; `s0` reads as zero. -/
def State.rd (s : State) (r : SReg) : Word := if r.val = 0 then 0 else tget 0 s.me.regs r.val

/-- An interlocked result: it is the youngest writer's, so that no older result is delivered after it (R99). -/
def Strand.wr (m : Strand) (r : SReg) (v : Word) : Strand :=
  if r.val = 0 then m else { m with regs := tset 0 m.regs r.val v, pend := m.pend.filter (·.reg ≠ r), spois := m.spois.filter (· ≠ r.val) }

def State.wr (s : State) (r : SReg) (v : Word) : State := s.modMe (·.wr r v)

/-- A fixed-latency result of latency `lat` (R96). -/
def State.wrFixed (s : State) (r : SReg) (v : Word) (lat : Nat) : State :=
  if r.val = 0 then s else s.modMe fun m => { m with
    pend := m.pend ++ [{ reg := r, val := v, rem := lat, pc := m.pc }], spois := m.spois.filter (· ≠ r.val) }

/-- Delivers the results that are at their distance: each drops the older results of its register (R97, R99). -/
def deliver : List Pend → Tab Word × List Pend → Tab Word × List Pend
  | [], acc => acc
  | p :: t, (regs, kept) =>
    if p.rem = 0 then deliver t (tset 0 regs p.reg.val p.val, kept.filter (·.reg ≠ p.reg))
    else deliver t (regs, kept ++ [p])

/-- `d` more units of distance (R97). -/
def Strand.age (m : Strand) (d : Nat) : Strand :=
  if m.pend = [] then m else
  let r := deliver (m.pend.map fun p => { p with rem := p.rem - d }) (m.regs, [])
  { m with regs := r.1, pend := r.2 }

/-- Delivers every outstanding result (R100). -/
def Strand.deliverAll (m : Strand) : Strand := m.age 8

/-- The stall count and the head index and count of the line in use (R83, R86, R91). -/
def Ir.sc (i : Ir) : Nat := bits i.head.toNat 13 11

def headCount (l : List Half) : Nat := bits (l.headD 0).toNat 15 11

/-- The PC of the head that follows under R91. -/
def nextPc (m : Strand) : Word :=
  let h := match m.line with
    | some l => headCount l.halfs
    | none => 0
  if bitsOf m.pc 5 0 < h then m.pc + 1 else word ((m.pc.toNat / 64 + 1) * 64 + 1)

/-- A head completes: its stall count passes, and control goes on under R91 (R95, R97). -/
def finish (s : State) : State :=
  tick (1 + s.me.ir.sc) { s with me := { s.me.age (1 + s.me.ir.sc) with pc := nextPc s.me, via := {}, carry := none, failed := [] } }

/-- An `idle` completes: its stall count has no effect on the issue of the next head (R95). DEDUCED, log entry 80: the distance
counts it all the same (R97). -/
def finishIdle (s : State) : State :=
  tick 1 { s with me := { s.me.age (1 + s.me.ir.sc) with pc := nextPc s.me, via := {}, carry := none, failed := [] } }

/-- A head completes with a transfer of control to `p` (R93); the line in use is kept only within itself. -/
def finishTo (p : Word) (s : State) : State :=
  let m := s.me
  tick (1 + m.ir.sc) { s with me := { m.age (1 + m.ir.sc) with
    pc := p, via := m.ir, carry := none, failed := [], line := if p.toNat / 64 = m.pc.toNat / 64 then m.line else none } }

/-! ### Waits (R276) -/

/-- Blocking waits (R276). -/
def Wait.blocking : Wait → Bool
  | .bsync _ | .gbar | .regclm _ | .fe .. | .vwait .. | .sbwait .. | .tldE _ | .colwait | .hpop .. => true
  | _ => false

/-- Begins a wait at the present head (R276); the count of a blocking one starts at zero, or goes on from before a pre-emption
(R277). -/
def beginWait (w : Wait) (s : State) : State :=
  tick 1 (s.modMe fun m => { m with
    wait := some w, waitFrom := s.cycle, waitCount := if w.blocking then m.carry.getD 0 else 0, carry := if w.blocking then none else m.carry })

/-- The strand's waits: of its front end, and of its queued instructions. -/
def Strand.waits (m : Strand) : List Wait := m.wait.toList ++ m.viq.filterMap (·.wait)

/-- Ends the waits that `f` picks: what waited executes again. -/
def Strand.endWaits (f : Wait → Bool) (m : Strand) : Strand :=
  { m with
    wait := if m.wait.any f then none else m.wait
    viq := m.viq.map fun e => if e.wait.any f then { e with wait := none } else e }

/-! ### Traps (R133 to R136, R34, R47) -/

structure Trap where
  cause : Cause
  detail : Nat := 0
  addr : Word := 0
  lanes : Mask := 0
  deriving DecidableEq, Repr

/-- R46. -/
def Cause.code : Cause → Nat
  | .illegalInsn => 0x01 | .lineMalformed => 0x02 | .badTarget => 0x03 | .priv => 0x04 | .stallShort => 0x05
  | .misaligned => 0x06 | .pageFault => 0x07 | .s2Fault => 0x08 | .access => 0x09 | .oobIndex => 0x0A | .poison => 0x0B
  | .grantInvalid => 0x0C | .regDeadlock => 0x0D | .regQuota => 0x0E | .mstackOvf => 0x0F | .mstackUnf => 0x10
  | .stageOver => 0x11 | .gbarIllegal => 0x12 | .brk => 0x13 | .syscall => 0x14 | .vown => 0x15 | .heapBounds => 0x16
  | .descInvalid => 0x17 | .feTimeout => 0x18 | .watchdog => 0x19 | .link => 0x1A | .fatalOverrun => 0x1B

def Priv.code : Priv → Nat
  | .app => 0 | .sup => 1 | .hyp => 2

def Priv.ofCode : Nat → Priv
  | 0 => .app
  | 1 => .sup
  | _ => .hyp

def illegal (detail : Nat) : Trap := { cause := .illegalInsn, detail := detail }

/-- Bits of a mask below VLMAX (R23). -/
def Strand.laneMask (m : Strand) : Mask := BitVec.ofNat 1024 (2 ^ m.vlmax - 1)

/-- Charges a crew, and the deficit of its queue, for the slots that its strands occupy, up to now (R355). -/
def charge (cid : Nat) (s : State) : State :=
  let c := s.crew cid
  let live := (c.sids.filter fun i => (s.strand i).run ≠ .drained && (s.strand i).run ≠ .absent).length
  let n := if c.state = .resident || c.state = .stopping then (s.cycle - c.charged) * live else 0
  let s := s.modCrew cid fun c => { c with scyc := c.scyc + n, charged := s.cycle }
  s.modQueue (s.grid c.grid).queue fun q => { q with deficit := max (-(2 ^ 47)) (q.deficit - n) }

/-- Writes back the dirty window lines of a VF: memory already holds their bytes (R282, R285). -/
def writeBack (v : Nat) (s : State) : State := { s with stash := s.stash.filter (·.vf ≠ v) }

/-- A strand that has ended. -/
def Strand.ended (m : Strand) : Strand :=
  { m with run := .drained, wait := none, viq := [], vop := none, pool := [], due := none, links := [], vpend := false, stopReq := false }

/-- Whether every strand of a band that has not halted has arrived (R146, R148). -/
def running (s : State) (sid : Nat) : Bool := (s.strand sid).run = .running || (s.strand sid).run = .stopped

/-- Strands of a crew whose index is in a membership set. -/
def membersOf (c : Crew) (set : Nat) : List (Nat × Nat) := (c.sids.zipIdx).filter fun e => set.testBit e.2

/-- The stall count of a head that waits; that of `idle` has no effect (R95). -/
def Strand.waitSc (m : Strand) : Wait → Nat
  | .idle _ => 0
  | _ => m.ir.sc

/-- The waiting head of strand `sid` is complete: its stall count has passed since it issued (R95), and the strand goes on. -/
def completeWait (sid : Nat) (w : Wait) (s : State) : State :=
  let m := s.strand sid
  tick (m.waitFrom + (1 + m.waitSc w) - s.cycle)
    (s.setStrand sid { m.age (1 + m.ir.sc) with wait := none, pc := nextPc m, via := {}, carry := none, failed := [] })

/-- Lets the strands that wait as `f` says go on at the next head (R146, R148): each one's wait ends and its instruction is
complete. -/
def wakeComplete (sids : List Nat) (f : Wait → Bool) (s : State) : State :=
  sids.foldl (fun s sid =>
    match (s.strand sid).wait with
    | some w => if f w then completeWait sid w s else s
    | none => s) s

/-- `idle` may end at any progress of the crew (R143): every idling strand of it completes its `idle`. -/
def wakeIdle (cid : Nat) (s : State) : State :=
  wakeComplete (s.crew cid).sids (fun w => match w with | .idle _ => true | _ => false) s

/-- Ends the wait of a strand's front end: its head executes again. -/
def wake (sid : Nat) (s : State) : State := s.modStrand sid fun m => { m with wait := none }

/-- Ends the waits of a strand that `f` picks, those of its queued instructions too. -/
def wakeWaits (sid : Nat) (f : Wait → Bool) (s : State) : State := s.modStrand sid (·.endWaits f)

/-- Completes the phases of a crew's bands in which every member that has not halted has arrived (R146, R272). -/
def settleBands (cid : Nat) (s : State) : State :=
  (List.range 16).foldl (fun s b =>
    let c := s.crew cid
    let set := (tget 0 c.bands b).toNat
    let arr := (tget 0 c.arrived b).toNat
    let live := (membersOf c set).filter fun e => running s e.1
    if arr ≠ 0 && live.all (fun e => arr.testBit e.2) then
      wakeIdle cid (wakeComplete c.sids (· = Wait.bsync b) (s.modCrew cid fun c => { c with arrived := tset 0 c.arrived b 0 }))
    else s) s

/-- Completes a grid's barrier phase (R148): over every strand of every crew that has not halted, crews not yet dispatched
included. The completion is the acquire of its fence: the loads behind it use no older first-level line. -/
def settleGbar (g : Nat) (s : State) : State :=
  let gr := s.grid g
  let crews := s.crews.filter fun e => e.2.grid = g && e.2.state ≠ .ended
  let sids := crews.flatMap fun e => e.2.sids
  if gr.arrived ≠ [] && gr.dispatched = gr.lrec.crews && (sids.filter (running s)).all (· ∈ gr.arrived) then
    let s := gr.arrived.foldl (fun s i => dropLines (s.strand i).core s) (s.modGrid g fun x => { x with arrived := [] })
    crews.foldl (fun s e => wakeIdle e.1 s) (wakeComplete gr.arrived (· = .gbar) s)
  else s

/-- Removes a crew's strands from everything that waits for them. -/
def withdraw (sids : List Nat) (g : Nat) (s : State) : State :=
  let s := { s with heaps := s.heaps.map fun (e : Nat × Heap) => (e.1, { e.2 with waiting := e.2.waiting.filter (· ∉ sids) }) }
  s.modGrid g fun x => { x with arrived := x.arrived.filter (· ∉ sids), asks := x.asks.filter (·.2 ∉ sids) }

/-- The greatest stored gain (R323). -/
def gmax : Nat := 2 ^ 49 - 1

/-- A running task becomes idle with the gain that its run was handed (R327, R341). -/
def Heap.idle (h : Heap) (t held : Nat) : Heap :=
  let g := tget 0 h.gain t + held
  { h with
    gain := tset 0 h.gain t (min g gmax), gsat := h.gsat || decide (g > gmax), resid := h.resid - (g - gmax)
    runs := tset none h.runs t none, running := h.running - 1 }

/-- The running tasks of a crew become idle (R341). -/
def Heap.release (cid : Nat) (h : Heap) : Heap :=
  h.runs.foldl (fun x e => match e.2 with
    | some (g, o) => if o = cid then x.idle e.1 g else x
    | none => x) h

/-- Those of a crew whose heaps a Freeze holds as well (R343). -/
def releaseTasks (cid : Nat) (s : State) : State :=
  let g := (s.crew cid).grid
  let f := s.freeze
  let s := { s with freeze := { f with heaps := f.heaps.map fun (h : Heap) => if h.grid = some g then h.release cid else h } }
  (s.grid g).heaps.foldl (fun s h => s.modHeap h (Heap.release cid)) s

/-- A word that the manual leaves open (R431), and the state that has drawn it. -/
def draw (s : State) : Word × State := (Config.freeWord s.draws, { s with draws := s.draws + 1 })

/-- R440 for one range: `n` dwords of bytes, those beyond the end read as zero. -/
def signWords : Nat → Word → List Byte → Word
  | 0, x, _ => x
  | n + 1, x, b => signWords n (x * 0x9E3779B97F4A7C15 + word (leVal (b.take 8))) (b.drop 8)

/-- The signature of write ranges in manifest order (R440). -/
def signRanges (rs : List (List Byte)) : Word := rs.foldl (fun x b => signWords ((b.length + 7) / 8) x b) 0

/-- An audit is given up (R438, R439). -/
def abandonAudit (cid : Nat) (s : State) : State :=
  let s := { s with assayer := { s.assayer with abandon := (s.assayer.abandon + 1) % 2 ^ 32 } }
  s.modCrew cid fun c => { c with audited := false, auditCopy := [] }

/-- At the end of an audited crew: S0 over its write ranges where it completes normally, else the audit is abandoned (R438,
R439). -/
def auditEnd (cid status : Nat) (s : State) : State :=
  let c := s.crew cid
  if !c.audited then s
  else if status ≠ 0 then abandonAudit cid s
  else
    match (c.auditCopy.filter (·.2.2.1)).mapM fun r => match fetchBytes s (s.grid c.grid).ctx r.1 r.2.1 [] with
      | .bytes b => some b
      | _ => none with
    | some bs => s.modCrew cid fun c => { c with auditS0 := signRanges bs }
    | none => abandonAudit cid s

/-- What follows a crew's end: waiting pops are tested again, and after the last crew the heaps are written back and the grid
completes (R331, R342, R361); a poisoned member of a committed gang is lost (R445). -/
def afterEnd (cid : Nat) (s : State) : State :=
  let c := s.crew cid
  let g := s.grid c.grid
  let done : List Event := if g.completed = g.lrec.crews then g.heaps.map Event.heapWriteBack ++ [.gridComplete c.grid] else []
  let gone : List Event := match s.gangs.find? fun e => e.2.grid = some c.grid with
    | some (t, x) => if c.status = 1 && c.cause1 = 0x0B then [.lost t x.rank 1] else []
    | none => []
  { s with events := s.events ++ g.heaps.map Event.hpopWake ++ gone ++ done }

/-- The save arena's room of a crew is free again (R419). -/
def freeRoom (cid : Nat) (s : State) : State :=
  s.modVf (s.grid (s.crew cid).grid).vf fun v => { v with arena := v.arena.filter (·.2.2 ≠ cid) }

/-- Ends a crew (R34, R359): its strands stop, its accesses are performed (R300), its window lines are written back (R285),
its heap tasks become idle (R341), its resources return, and its completion is held for the records of R360. -/
def endCrew (cid status c1 c2 idx rank : Nat) (tpc taddr : Word) (s : State) : State :=
  let c := s.crew cid
  if c.state = .ended then s else
  let s := charge cid s
  let s := drainCore c.core s
  let s := auditEnd cid status (writeBack (s.grid c.grid).vf s)
  let s := freeRoom cid (releaseTasks cid s)
  let s := c.sids.foldl (fun s sid => s.modStrand sid Strand.ended) s
  let s := withdraw c.sids c.grid s
  let s := s.modCrew cid fun c => { c with
    state := .ended, status := status, cause1 := c1, cause2 := c2, causeStrand := idx, causeRank := rank, tpc := tpc,
    taddr := taddr, tend := s.cycle, claims := [], feQueue := [], landings := [], releases := [], queries := [], freeRows := [],
    returning := [], frozen := [], frozenBad := [], lazy := false, dbgHold := false }
  afterEnd cid (settleGbar c.grid (s.modGrid c.grid fun g => { g with completed := g.completed + 1 }))

/-- The current strand's crew ends with a fault completion (R34, R360). -/
def endFault (c1 c2 : Nat) (tpc taddr : Word) (s : State) : State :=
  endCrew s.me.crew 1 c1 c2 s.me.index 0 tpc taddr s

/-- A Steward strand stops for a trap (R465). -/
def stopSteward (code : Nat) (s : State) : State :=
  let s := drainCore s.me.core s
  let c := s.me.core - Config.stewardBase
  { s with
    me := { s.me with run := .drained, wait := none }
    plat := { s.plat with steward := tmod {} s.plat.steward c fun r => { r with code := code, fault := true, busy := false } } }

/-- Whether copies of a strand have granules still to deliver (R244). -/
def State.landing (s : State) (sid : Nat) : Bool := (s.crew (s.strand sid).crew).landings.any (·.sid = sid)

/-- Takes the trap `t`; TRAPINSN is `ir` (R134). While older queued work or copies of the strand remain, the head waits and is tried
again: the trap of an older instruction comes first (R133). DESIGN CHOICE, log entry 69: the KILL path of R47 is no trap entry, and leaves
undelivered results as they are. A strand that has halted runs no handler (R142). -/
def takeTrapAs (ir : Ir) (t : Trap) (s : State) : State :=
  if s.me.viq ≠ [] then beginWait .viq s else if s.landing s.cur then beginWait .collective s else
  let s := tick 1 s
  let m := s.me
  let code := t.cause.code
  let cause := t.detail % 65536 * 65536 + m.priv.code * 256 + code
  if m.trapon && m.run ≠ .halted then
    if m.onSteward then stopSteward code s
    else endFault (bitsOf m.trapcause 7 0) code m.trappc m.trapaddr s
  else if bitsOf m.trapvec 5 0 = 0 || m.run = .halted then
    if t.cause = .poison && t.lanes ≠ 0 then
      -- KILL path of R47: the lanes die and the instruction executes again
      { s with me := { m with deadmask := m.deadmask ||| t.lanes, everDead := m.everDead ||| t.lanes, wait := none, vop := none, via := {}, failed := [] } }
    else if m.onSteward then stopSteward code s
    else endFault code 0 m.pc t.addr s
  else
    { s with me := { m.deliverAll with
      trappc := m.pc, trapcause := word cause, trapaddr := t.addr, trapmask := t.lanes, trapinsn0 := ir.tail,
      trapinsn1 := word ir.head.toNat, trapon := true, priv := if m.priv = .app then .sup else m.priv, pc := m.trapvec,
      via := {}, line := none, links := [], wait := none, due := none, vop := none, carry := none, failed := [] } }

/-- Takes a trap of the head being executed. -/
def takeTrap (t : Trap) (s : State) : State := takeTrapAs s.me.ir t s

/-- The first of several conditions, in the order of R104. -/
def firstTrap : List (Option Trap) → Option Trap
  | [] => none
  | some t :: _ => some t
  | none :: l => firstTrap l

def trapIf (c : Bool) (t : Trap) : Option Trap := if c then some t else none

/-- Runs `k` unless one of the conditions holds; then the first of them is the trap taken. -/
def checked (l : List (Option Trap)) (k : State → State) (s : State) : State :=
  match firstTrap l with
  | some t => takeTrap t s
  | none => k s

/-- Scopes at which generic memory acts as at device scope or wider (R294). -/
def wideScope : Scope → Bool
  | .strand | .crew | .core => false
  | _ => true

def domainScope : Scope → Bool
  | .domain | .system => true
  | _ => false

/-- The failure of an unacknowledged remote store that a fence or release at domain or system scope meets (R457). -/
def linkTrap (s : State) : Option Trap :=
  (s.linkFail.find? (·.1 = s.cur)).map fun e => { cause := .link, detail := e.2.1, addr := e.2.2 }

/-- A release at `sc`, then `k` (R298, R299): the core's stores are performed at their homes, those of other devices too, which the
strand awaits: the stores of its core are all that it can have read from before they are there (R296). At domain or system scope a
failure of one of its own is a trap (R457). -/
def release (sc : Scope) (k : State → State) (s : State) : State :=
  if !wideScope sc then k s
  else
    let s := drainCore s.me.core s
    match if domainScope sc then linkTrap s else none with
    | some t => takeTrap t { s with linkFail := s.linkFail.filter (·.1 ≠ s.cur) }
    | none => if s.rstores.any (·.core = s.me.core) then beginWait .acks s else k s

/-- An acquire at `sc` (R298). -/
def acquire (sc : Scope) (s : State) : State := if wideScope sc then dropLines s.me.core s else s

/-- STALL_SHORT (R98) for the registers that a head reads, in operand order. -/
def stallShort (s : State) (rs : List SReg) : Option Trap :=
  if !s.me.schk then none else
  rs.findSome? fun r =>
    if r.val = 0 then none
    else (s.me.pend.reverse.find? (·.reg = r)).map fun p => { cause := .stallShort, detail := r.val, addr := p.pc }

/-- POISON of a scalar register with an uncorrectable error, at the first head that reads it (R428). -/
def scalarPoison (s : State) (rs : List SReg) : Option Trap :=
  if s.me.spois = [] then none else
  (rs.find? (·.val ∈ s.me.spois)).map fun r => { cause := .poison, addr := word (0x8000000000030000 + r.val) }

/-- ILLEGAL_INSN for the value of a register that a head reads (R104): it comes before the conditions of the head's own entry, and is
judged where the value can be read. -/
def valueIllegal (s : State) (rs : List SReg) (bad : Bool) : Option Trap :=
  if (stallShort s rs).isSome || (scalarPoison s rs).isSome then none else trapIf bad (illegal 6)

/-- Makes strand `sid` the current one. -/
def switchTo (sid : Nat) (s : State) : State :=
  if sid = s.cur then s
  else { s with cur := sid, me := tget {} s.others sid, others := tset {} (terase s.others sid) s.cur s.me }

/-- Lets strand `sid` act, and returns to the strand that was current. -/
def onStrand (sid : Nat) (f : State → State) (s : State) : State := switchTo s.cur (f (switchTo sid s))

/-- The checks of a head that reads scalar registers `rs` and has no other condition. -/
def readRegs (rs : List SReg) (k : State → State) (s : State) : State := checked [stallShort s rs, scalarPoison s rs] k s

/-- Cycles counted for the present wait (R277). -/
def Strand.waited (m : Strand) (now : Nat) : Nat := m.waitCount + (now - m.waitFrom)

/-! ### Instruction lines (R82 to R94) -/

/-- Tail halfwords of a head (R86, R87). -/
def tailSize (head : Half) : Nat :=
  match head.toNat / 2 ^ 14 with
  | 0 => 0
  | 1 => 1
  | 2 => 2
  | _ => 4

/-- T(i) of R84: halfwords of the tails of heads 1 to i − 1. -/
def tailSum (halfs : List Half) (i : Nat) : Nat := ((halfs.drop 1).take (i - 1)).foldl (fun n h => n + tailSize h) 0

/-- The condition of R85 that a line breaks, by its DETAIL. -/
def lineFault (halfs : List Half) : Option Nat :=
  let h := headCount halfs
  let t := tailSum halfs (h + 1)
  if h = 0 then some 1
  else if bits (halfs.headD 0).toNat 10 0 ≠ 0 then some 2
  else if 1 + h + t > 32 then some 3
  else if ((halfs.drop (1 + h)).take (32 - t - 1 - h)).all (· = 0) then none
  else some 4

/-- Head `i` of a line with its tail, zero-extended (R84, R89). -/
def headAt (halfs : List Half) (i : Nat) : Ir :=
  let head := halfs.getD i 0
  let n := tailSize head
  let lo := 32 - tailSum halfs i - n
  { head := head, tail := word (((halfs.drop lo).take n).foldr (fun h v => h.toNat + 65536 * v) 0) }

/-- Halfwords of little-endian bytes. -/
def halfsOf : List Byte → List Half
  | a :: b :: t => (b ++ a) :: halfsOf t
  | _ => []

/-- Whether the line of the PC is in use and has the head of the PC (R91, R93, R94). -/
def lineInUse (m : Strand) : Bool :=
  match m.line with
  | some l => l.addr = word (m.pc.toNat / 64 * 64) && 1 ≤ bitsOf m.pc 5 0 && bitsOf m.pc 5 0 ≤ headCount l.halfs
  | none => false

/-- What a line fetch answers. -/
inductive Fetched where
  | line (halfs : List Half)
  | trap (t : Trap)
  | stall2 (ipa : Nat)
  | stallPri (iova : Nat)
  | lost (dev : Nat)
  deriving DecidableEq, Repr

/-- The trap of a translation outcome at an address (R203). -/
def xlTrap (c : Cause) (reason : Nat) (detail addr : Nat) : Trap :=
  { cause := c, detail := (if c = .access then reason * 16 else 0) + detail, addr := word addr }

/-- Steps 1 to 3 of R93, and the poison check of R428 after step 2, for the line at `va`. -/
def fetchLine (s : State) (va : Nat) : Fetched :=
  match translate s s.ctx .fetch va with
  | .fault c r a => .trap { xlTrap c r 0 (a.getD va) with addr := word va }
  | .stall2 i => .stall2 i
  | .stallPri i => .stallPri i
  | .ok (.cell k) =>
    match lostDevice s k with
    | some d => .lost d
    | none =>
    if s.poisonedFor s.me.core k 64 then .trap { cause := .poison, addr := word va }
    else
      let halfs := halfsOf (s.viewBytes s.me.core k 64)
      match lineFault halfs with
      | some d => .trap { cause := .lineMalformed, detail := d, addr := word va }
      | none => .line halfs
  | .ok (.plain ..) => .trap (xlTrap .access 4 0 va)
  | .ok (.reg ..) => .trap (xlTrap .access 1 0 va)

/-! ### Waiting for the hypervisor and the host (R399, R406) -/

/-- Writes a notice into the fault ring. -/
def writeS2 (n : S2Notice) (s : State) : State :=
  let rec16 := leBytes 8 n.ipa ++ [BitVec.ofNat 8 n.vf, BitVec.ofNat 8 n.kind, 0, 0] ++ leBytes 4 n.id
  let k := sramKey (s.hyp.s2ring.toNat % 2 ^ 26 + 16 * s.hyp.s2head)
  { s with mem := putBytes s.mem k rec16, hyp := { s.hyp with s2head := (s.hyp.s2head + 1) % 256 } }

def s2Room (s : State) : Bool := (s.hyp.s2head + 1) % 256 ≠ s.hyp.s2tail

/-- The outstanding or a new second-stage notice for an IPA (R399), one for each 64 KiB page: its number. -/
def postS2 (v ipa kind : Nat) (s : State) : State × Nat :=
  match s.hyp.s2notices.find? fun n => n.vf = v && n.ipa / 65536 = ipa / 65536 with
  | some n => (s, n.id)
  | none =>
    let id := s.hyp.s2next
    let room := s2Room s && s.hyp.s2notices.all (·.posted)
    let n : S2Notice := { id := id, ipa := ipa, vf := v, kind := kind, posted := room, at_ := s.cycle }
    let s := { s with hyp := { s.hyp with s2next := (id + 1) % 2 ^ 32, s2notices := s.hyp.s2notices ++ [n] } }
    (if room then writeS2 n s else s, id)

/-- The current strand stalls for a second-stage answer, on behalf of the lanes. -/
def stallS2For (lanes : Mask) (ipa kind : Nat) (va : Word) (idx : Bool) (s : State) : State :=
  let r := postS2 s.ctx.vf ipa kind s
  beginWait (.s2 r.2 va (kind = 1) idx lanes) r.1

def stallS2 (ipa kind : Nat) (va : Word) (idx : Bool) (s : State) : State := stallS2For 0 ipa kind va idx s

/-- Whether the VF may have another page request outstanding (R406). -/
def priRoom (s : State) (v : Nat) : Bool := ((s.vf v).pri.filter (·.gen = (s.vf v).gen)).length < max 1 (Config.pageAllocation v)

/-- Sends a page request under a group index that is free (R406); after a Response Failure none is sent until the host enables PRI
again. -/
def requestPage (v iova : Nat) (s : State) : State :=
  let f := s.vf v
  let s := if f.priOff then s else { s with outbox := s.outbox ++ [.pageRequest v f.priNext] }
  s.modVf v fun f => { f with pri := f.pri ++ [⟨f.priNext, f.gen, iova / 65536, s.cycle⟩], priNext := f.priNext + 1 }

/-- The current strand stalls for a page response (R406), or until a request may be sent. -/
def stallPriFor (lanes : Mask) (iova : Nat) (va : Word) (wr idx : Bool) (s : State) : State :=
  let v := s.ctx.vf
  if priRoom s v then beginWait (.pri (s.vf v).priNext va wr idx lanes) (requestPage v iova s) else beginWait .priRoom s

def stallPri (iova : Nat) (va : Word) (wr idx : Bool) (s : State) : State := stallPriFor 0 iova va wr idx s

/-- An access of an engine stalls: the first page of the range that has no answer asks for one (R346, R399, R406). -/
def noteStall (c : Ctx) (wr : Bool) (va n : Nat) (s : State) : State :=
  let pages := if n = 0 then [] else (List.range ((va + n - 1) / 65536 - va / 65536 + 1)).map fun i => max va ((va / 65536 + i) * 65536)
  let acc : Acc := if wr then .wr else .rd
  let ask (two : Bool) (i : Nat) : State := s.modVf c.vf fun f => { f with asked := addOnce f.asked (two, i / 65536) }
  match pages.findSome? fun a => match translate s c acc a with
    | .stall2 i => some (true, i)
    | .stallPri i => some (false, i)
    | _ => none with
  | some (true, i) => (postS2 c.vf i wr.toNat (ask true i)).1
  | some (false, i) =>
    if (s.vf c.vf).pri.any (·.page = i / 65536) then ask false i
    else if priRoom s c.vf then requestPage c.vf i (ask false i) else s
  | none => s

/-- An engine has met its failed accesses. -/
def clearFailed (v : Nat) (s : State) : State := s.modVf v fun f => { f with failed := [] }

/-- A page that accesses wait for is missing (R399, R406): an access of an engine that waits for it finds it failed. -/
def failEngine (v : Nat) (two : Bool) (page : Nat) (s : State) : State :=
  s.modVf v fun f =>
    if (two, page) ∈ f.asked then { f with asked := f.asked.filter (· ≠ (two, page)), failed := addOnce f.failed (two, page) } else f

/-- The waits of strand `sid` that `f` picks end, and their heads find the page failed when they are tried again; a head that accesses
several pages traps once each of them has its answer (R203, R399). -/
def failPage (sid : Nat) (two : Bool) (page : Nat) (f : Wait → Bool) (s : State) : State :=
  s.modStrand sid fun m => { m with
    failed := if m.wait.any f then addOnce m.failed (two, page) else m.failed
    wait := if m.wait.any f then none else m.wait
    viq := m.viq.map fun e => if e.wait.any f then { e with wait := none, failed := addOnce e.failed (two, page) } else e }

end Sys2Proof.Machine
end

