-- ==== Sys2Proof/Machine/Operands.lean ====
section
/-! DEFINITION. Operand forms that every family shares: the rounding mode that an operand selects, and the effective address of
a scalar operand. The vector operand forms are in Lanes.lean, the tile forms in Tile.lean. -/

namespace Sys2Proof.Machine
open Sys2Proof

/-- The rounding mode that RMO selects (R125, R60). -/
def Strand.mode (m : Strand) : Rmo → RM
  | .frm => m.frm
  | .fixed r => r

/-- Value(sa) + sext(imm32) (R206). -/
def State.ea (s : State) (a : SReg) (i : Imm) : Word := s.rd a + sext32 i

end Sys2Proof.Machine
end

