-- ==== Sys2Proof/Machine/Scalar.lean ====
section
/-! DEFINITION. Scalar integer, address and floating instructions (R117 to R128), and branches, calls and returns (R129 to
R131). -/

namespace Sys2Proof.Machine
open Sys2Proof

/-- A head that reads `rs` and writes `d` with fixed latency `lat`; `v` is its result, from the state in which it reads. -/
def aluHead (rs : List SReg) (d : SReg) (lat : Nat) (v : State → Word) (s : State) : State :=
  readRegs rs (fun s => finish (s.wrFixed d (v s) lat)) s

/-- W of R118: compute at 32 bits and sign-extend. -/
def narrow (w : Bool) (f : (n : Nat) → BitVec n → BitVec n → BitVec n) (a b : Word) : Word :=
  if w then (f 32 (a.setWidth 32) (b.setWidth 32)).signExtend 64 else f 64 a b

/-- A comparison under W, which writes 0 or 1 (R118). -/
def narrowCmp (w : Bool) (f : (n : Nat) → BitVec n → BitVec n → Bool) (a b : Word) : Word :=
  word (if w then f 32 (a.setWidth 32) (b.setWidth 32) else f 64 a b).toNat

/-- Leading zeros of an n-bit value (R120). -/
def clzVal (n : Nat) (x : BitVec n) : Nat := if x = 0 then n else n - 1 - x.toNat.log2

def extWidth : ExtW → Nat
  | .b => 8
  | .h => 16
  | .w => 32

/-- Shift amounts are taken modulo the width (R117, R118). -/
def shlVal (n : Nat) (a b : BitVec n) : BitVec n := a <<< (b.toNat % n)
def shrVal (n : Nat) (a b : BitVec n) : BitVec n := a >>> (b.toNat % n)
def sraVal (n : Nat) (a b : BitVec n) : BitVec n := a.sshiftRight (b.toNat % n)

def minVal (u : Bool) (n : Nat) (a b : BitVec n) : BitVec n := if (if u then a.ult b else a.slt b) then a else b
def maxVal (u : Bool) (n : Nat) (a b : BitVec n) : BitVec n := if (if u then a.ult b else a.slt b) then b else a

/-- The high n bits of the product (R117). -/
def mulhVal (u : Bool) (n : Nat) (a b : BitVec n) : BitVec n :=
  if u then BitVec.ofNat n (a.toNat * b.toNat / 2 ^ n) else BitVec.ofInt n (a.toInt * b.toInt / 2 ^ n)

/-- R119. -/
def divVal (u : Bool) (n : Nat) (a b : BitVec n) : BitVec n :=
  if b = 0 then BitVec.allOnes n else if u then a / b else a.sdiv b

def remVal (u : Bool) (n : Nat) (a b : BitVec n) : BitVec n :=
  if b = 0 then a else if u then a % b else a.srem b

/-- A two-operand integer instruction (R117). -/
def intHead (w : Bool) (f : (n : Nat) → BitVec n → BitVec n → BitVec n) (lat : Nat) (d a b : SReg) (s : State) : State :=
  aluHead [a, b] d lat (fun s => narrow w f (s.rd a) (s.rd b)) s

def cmpHead (w : Bool) (f : (n : Nat) → BitVec n → BitVec n → Bool) (d a b : SReg) (s : State) : State :=
  aluHead [a, b] d 1 (fun s => narrowCmp w f (s.rd a) (s.rd b)) s

/-- `div` and `rem`: interlocked (R119). -/
def divHead (w : Bool) (f : (n : Nat) → BitVec n → BitVec n → BitVec n) (d a b : SReg) (s : State) : State :=
  readRegs [a, b] (fun s => finish (s.wr d (narrow w f (s.rd a) (s.rd b)))) s

abbrev Out := Host.Outcome State Fault Refusal

def execNop (s : State) : Out := .next (finish s)
def execAdd (w : Bool) (d a b : SReg) (s : State) : Out := .next (intHead w (fun _ x y => x + y) 1 d a b s)
def execSub (w : Bool) (d a b : SReg) (s : State) : Out := .next (intHead w (fun _ x y => x - y) 1 d a b s)
def execAnd (w : Bool) (d a b : SReg) (s : State) : Out := .next (intHead w (fun _ x y => x &&& y) 1 d a b s)
def execOr (w : Bool) (d a b : SReg) (s : State) : Out := .next (intHead w (fun _ x y => x ||| y) 1 d a b s)
def execXor (w : Bool) (d a b : SReg) (s : State) : Out := .next (intHead w (fun _ x y => x ^^^ y) 1 d a b s)
def execShl (w : Bool) (d a b : SReg) (s : State) : Out := .next (intHead w shlVal 1 d a b s)
def execShr (w : Bool) (d a b : SReg) (s : State) : Out := .next (intHead w shrVal 1 d a b s)
def execSra (w : Bool) (d a b : SReg) (s : State) : Out := .next (intHead w sraVal 1 d a b s)
def execMin (w u : Bool) (d a b : SReg) (s : State) : Out := .next (intHead w (minVal u) 1 d a b s)
def execMax (w u : Bool) (d a b : SReg) (s : State) : Out := .next (intHead w (maxVal u) 1 d a b s)
def execSeq (w : Bool) (d a b : SReg) (s : State) : Out := .next (cmpHead w (fun _ x y => x == y) d a b s)
def execSlt (w : Bool) (d a b : SReg) (s : State) : Out := .next (cmpHead w (fun _ x y => x.slt y) d a b s)
def execSltu (w : Bool) (d a b : SReg) (s : State) : Out := .next (cmpHead w (fun _ x y => x.ult y) d a b s)

/-- R123. -/
def execSel (d a b c : SReg) (s : State) : Out :=
  .next (aluHead [a, b, c] d 1 (fun s => if s.rd c ≠ 0 then s.rd a else s.rd b) s)

/-- R122. -/
def execLea (n : Fin 8) (d a b : SReg) (s : State) : Out :=
  .next (aluHead [a, b] d 1 (fun s => s.rd a + (s.rd b <<< n.val)) s)

def execLeaImm (n : Fin 8) (d a b : SReg) (i : Imm) (s : State) : Out :=
  .next (aluHead [a, b] d 1 (fun s => s.rd a + (s.rd b <<< n.val) + sext32 i) s)

def execMul (w : Bool) (d a b : SReg) (s : State) : Out := .next (intHead w (fun _ x y => x * y) 3 d a b s)
def execMulh (w u : Bool) (d a b : SReg) (s : State) : Out := .next (intHead w (mulhVal u) 3 d a b s)
def execDiv (w u : Bool) (d a b : SReg) (s : State) : Out := .next (divHead w (divVal u) d a b s)
def execRem (w u : Bool) (d a b : SReg) (s : State) : Out := .next (divHead w (remVal u) d a b s)

/-- R120. -/
def execClz (w : Bool) (d a : SReg) (s : State) : Out :=
  .next (aluHead [a] d 2 (fun s => word (if w then clzVal 32 ((s.rd a).setWidth 32) else clzVal 64 (s.rd a))) s)

def execPopc (w : Bool) (d a : SReg) (s : State) : Out :=
  .next (aluHead [a] d 2 (fun s => word (popcount (s.rd a).toNat (if w then 32 else 64))) s)

def execSext (x : ExtW) (d a : SReg) (s : State) : Out :=
  .next (aluHead [a] d 1 (fun s => ((s.rd a).setWidth (extWidth x)).signExtend 64) s)

def execZext (x : ExtW) (d a : SReg) (s : State) : Out :=
  .next (aluHead [a] d 1 (fun s => ((s.rd a).setWidth (extWidth x)).setWidth 64) s)

/-- R121. -/
def execAddi (w : Bool) (d a : SReg) (i : Imm) (s : State) : Out :=
  .next (aluHead [a] d 1 (fun s => narrow w (fun _ x y => x + y) (s.rd a) (sext32 i)) s)

def execLi (hi : Bool) (d a : SReg) (i : Imm) (s : State) : Out :=
  .next (aluHead (if hi then [a] else []) d 1
    (fun s => if hi then i ++ (s.rd a).setWidth 32 else sext32 i) s)

/-! ### Scalar floating point -/

/-- A floating head: reads `rs`, writes the rounded code with latency 4, zero above it (R18), and raises its flags at issue
(R128). -/
def fpHead (rs : List SReg) (d : SReg) (f : State → FRes) (s : State) : State :=
  readRegs rs (fun s =>
    let r := f s
    let s := s.wrFixed d (word r.bits) 4
    finish (s.modMe fun m => { m with fflags := m.fflags.or r.fl })) s

/-- The value of a scalar register in a format (R18). -/
def State.fval (s : State) (t : FTy) (r : SReg) : FVal := (ftyForm t).decode ((s.rd r).toNat % 2 ^ (ftyForm t).width)

/-- R126. -/
def execFadd (t : FTy) (rm : Rmo) (nb : Bool) (d a b : SReg) (s : State) : Out :=
  .next (fpHead [a, b] d (fun s =>
    (ftyForm t).addOp (s.me.mode rm) (s.fval t a) (if nb then (s.fval t b).neg else s.fval t b)) s)

def execFmul (t : FTy) (rm : Rmo) (np : Bool) (d a b : SReg) (s : State) : Out :=
  .next (fpHead [a, b] d (fun s =>
    (ftyForm t).mulOp (s.me.mode rm) (if np then (s.fval t a).neg else s.fval t a) (s.fval t b)) s)

def execFfma (t : FTy) (rm : Rmo) (np nc : Bool) (d a b c : SReg) (s : State) : Out :=
  .next (fpHead [a, b, c] d (fun s =>
    (ftyForm t).fmaOp (s.me.mode rm) np nc (s.fval t a) (s.fval t b) (s.fval t c)) s)

/-- The kind of a type code (R127). -/
inductive TyKind where
  | int (i : IntTy)
  | fp (f : FForm)
  | lns
  deriving DecidableEq, Repr

def tyKind : Ty → TyKind
  | .i8 => .int ⟨8, true⟩ | .i16 => .int ⟨16, true⟩ | .i32 => .int ⟨32, true⟩ | .i64 => .int ⟨64, true⟩
  | .u8 => .int ⟨8, false⟩ | .u16 => .int ⟨16, false⟩ | .u32 => .int ⟨32, false⟩ | .u64 => .int ⟨64, false⟩
  | .f16 => .fp .f16 | .bf16 => .fp .bf16 | .f32 => .fp .f32
  | .lns6 => .lns
  | .dflt => .int ⟨32, true⟩

/-- R127: a conversion of which at least one side is floating; integer results are extended to 64 bits. -/
def fcvtVal (m : RM) (dt st : Ty) (x : Nat) : FRes :=
  match tyKind dt, tyKind st with
  | .fp d, .fp f => d.cvt m (f.decode (x % 2 ^ f.width))
  | .fp d, .int i => d.ofInt m (i.read x)
  | .int i, .fp f =>
    let r := (f.decode (x % 2 ^ f.width)).cvtInt m i
    { bits := (IntTy.mk 64 false).wrap r.1, fl := r.2 }
  | _, _ => { bits := x }

def execFcvt (dt st : Ty) (rm : Rmo) (d a : SReg) (s : State) : Out :=
  .next (fpHead [a] d (fun s => fcvtVal (s.me.mode rm) dt st (s.rd a).toNat) s)

/-! ### Branches, calls and returns -/

/-- R92: relative to the line that holds the branch. -/
def tbTarget (pc : Word) (off : BitVec 15) (hi : Fin 32) : Word :=
  BitVec.ofInt 64 ((pc.toNat / 64 + off.toInt) * 64) ||| word hi.val

/-- A conditional branch (R129); not taken, control goes on under R91. -/
def branchHead (c : Word → Word → Bool) (d a : SReg) (off : BitVec 15) (hi : Fin 32) (s : State) : State :=
  readRegs [d, a] (fun s => if c (s.rd d) (s.rd a) then finishTo (tbTarget s.me.pc off hi) s else finish s) s

def execBr (off : BitVec 15) (hi : Fin 32) (s : State) : Out := .next (finishTo (tbTarget s.me.pc off hi) s)
def execBeq (d a : SReg) (off : BitVec 15) (hi : Fin 32) (s : State) : Out := .next (branchHead (fun x y => x == y) d a off hi s)
def execBne (d a : SReg) (off : BitVec 15) (hi : Fin 32) (s : State) : Out := .next (branchHead (fun x y => x != y) d a off hi s)
def execBlt (d a : SReg) (off : BitVec 15) (hi : Fin 32) (s : State) : Out := .next (branchHead BitVec.slt d a off hi s)
def execBge (d a : SReg) (off : BitVec 15) (hi : Fin 32) (s : State) : Out :=
  .next (branchHead (fun x y => !x.slt y) d a off hi s)
def execBltu (d a : SReg) (off : BitVec 15) (hi : Fin 32) (s : State) : Out := .next (branchHead BitVec.ult d a off hi s)
def execBgeu (d a : SReg) (off : BitVec 15) (hi : Fin 32) (s : State) : Out :=
  .next (branchHead (fun x y => !x.ult y) d a off hi s)

/-- R130: the link register is a result of latency 1 (R96). -/
def execCall (d : SReg) (off : BitVec 15) (hi : Fin 32) (s : State) : Out :=
  .next (finishTo (tbTarget s.me.pc off hi) (s.wrFixed d (nextPc s.me) 1))

/-- R131. -/
def execRet (a : SReg) (s : State) : Out := .next (readRegs [a] (fun s => finishTo (s.rd a) s) s)

def execJr (d a : SReg) (s : State) : Out :=
  .next (readRegs [a] (fun s => finishTo (s.rd a) (s.wrFixed d (nextPc s.me) 1)) s)

end Sys2Proof.Machine
end

