-- ==== Sys2Proof/Machine/System.lean ====
section
/-! DEFINITION. System registers (R31 to R52, R132), traps raised by instructions and the return from a handler (R133 to R140),
and stopping and waiting (R141 to R143). -/

namespace Sys2Proof.Machine
open Sys2Proof

/-! ### Field maps (R33 to R45) -/

def rmCode : RM → Nat
  | .rne => 0 | .rtz => 1 | .rup => 2 | .rdn => 3 | .rmm => 4

def rmOf : Nat → Option RM
  | 0 => some .rne
  | 1 => some .rtz
  | 2 => some .rup
  | 3 => some .rdn
  | 4 => some .rmm
  | _ => none

/-- Tile formats, coded as VTYPE.FMT (R38). -/
def tfmtCode : TFmt → Nat
  | .int8 => 0 | .fp16 => 4 | .bf16 => 5 | .fp32 => 6 | .lns6 => 7

def tfmtOf : Nat → Option TFmt
  | 0 => some .int8
  | 4 => some .fp16
  | 5 => some .bf16
  | 6 => some .fp32
  | 7 => some .lns6
  | _ => none

/-- STRCTL (R33). -/
def strctl (m : Strand) : Nat :=
  m.vheld * 2 ^ 41 + m.tdecl * 2 ^ 37 + m.zdecl * 2 ^ 33 + m.vlmaxc.val * 2 ^ 31 + m.mstack.length * 2 ^ 26
    + m.trapon.toNat * 2 ^ 7 + m.schk.toNat * 2 ^ 6 + m.sstrict.toNat * 2 ^ 5 + m.priv.code

/-- GSHAPE (R38). -/
def gshapeCode (g : GShape) : Nat :=
  tfmtCode g.fmt * 2 ^ 60 + g.gv.toNat * 2 ^ 59 + g.gk * 2 ^ 46 + g.gn * 2 ^ 39 + g.gm * 2 ^ 32 + g.qk * 2 ^ 20 + g.qn * 2 ^ 10
    + g.qm

/-- CAPSHAPE (R40). -/
def capCode (c : CapShape) : Nat := c.ck * 2 ^ 16 + c.cn * 2 ^ 8 + c.cm

def tshapeCode (t : TShape) : Nat := tfmtCode t.fmt * 2 ^ 60 + t.cols * 2 ^ 8 + t.rows

def zdimCode (z : ZDim) : Nat := (if z.fp then 6 else 2) * 2 ^ 28 + z.cols * 2 ^ 8 + z.rows

/-- Largest granted N: 8 columns fewer for each group that is mapped out (R443, R43). -/
def maxNOf (s : State) (core : Nat) : Nat :=
  match s.classOf core with
  | .wide | .half => 8 * (8 - popcount (s.coreReg core).mout.toNat 8)
  | .lean => 16
  | .steward => 0

def maxMOf (s : State) (core : Nat) : Nat := (s.classOf core).maxM

/-- CORECLASS (R43, R464). -/
def coreClassCode (s : State) (core : Nat) : Nat :=
  maxNOf s core * 2 ^ 24 + maxMOf s core * 2 ^ 16 + (s.coreReg core).mout.toNat * 2 ^ 4 + (s.classOf core).code

/-- STRANDID (R43). -/
def strandId (m : Strand) : Nat := m.half.toNat * 2 ^ 28 + m.core * 2 ^ 16 + m.slot * 2 ^ 8 + m.index

/-- GRIDID (R43). -/
def gridId (g : Grid) (n : Nat) : Nat := g.part * 2 ^ 32 + n

/-- CAPSHAPE of the core's partition, loaded at dispatch (R40). DESIGN CHOICE, log entry 78: also on a core whose own capability lies
below it (R43). -/
def State.capShape (s : State) : CapShape := (s.part s.myGrid.part).cap

/-- g8 of R230. -/
def grant8 (q c : Nat) : Nat := if q = 0 then 0 else max 8 (8 * (min q c / 8))

/-- Elements of a 192-byte row (R230). -/
def kMax : TFmt → Nat
  | .int8 => 192
  | .fp16 => 96
  | .bf16 => 96
  | .fp32 => 48
  | .lns6 => 256

def blenVal : BLen → Nat
  | .b16 => 16 | .b32 => 32 | .b64 => 64

/-- The grant of the Cooper unit for the current strand (R230). -/
def cooper (s : State) (f : TFmt) (m n k : Nat) : GShape :=
  let cap := s.capShape
  let qm := min m 1023
  let qn := min n 1023
  let qk := min k 1023
  let ck := min (kMax f) cap.ck
  let gm := grant8 qm (min (maxMOf s s.me.core) cap.cm)
  let gn := grant8 qn (min (maxNOf s s.me.core) cap.cn)
  let bl := blenVal s.me.vtype.blen
  let gk := if f = .lns6 then (if qk = 0 || ck < bl then 0 else max bl (bl * (min qk ck / bl))) else grant8 qk ck
  { fmt := f, gv := gm > 0 && gn > 0 && gk > 0, gk := gk, gn := gn, gm := gm, qk := qk, qn := qn, qm := qm }

/-- Live extents (R38). -/
def GShape.lm (g : GShape) : Nat := min g.qm g.gm
def GShape.ln (g : GShape) : Nat := min g.qn g.gn
def GShape.lk (g : GShape) : Nat := min g.qk g.gk

/-- 64-bit word w of a mask (R32). -/
def maskWord (m : Mask) (w : Nat) : Word := word (m.toNat / 2 ^ (64 * w))

def setMaskWord (m : Mask) (w : Nat) (x : Word) : Mask :=
  BitVec.ofNat 1024 (m.toNat % 2 ^ (64 * w) + x.toNat * 2 ^ (64 * w) + m.toNat / 2 ^ (64 * (w + 1)) * 2 ^ (64 * (w + 1)))

/-- The value of a system register (R31); 0 for a number that names none. -/
def readSys (s : State) (n : Nat) : Word :=
  let m := s.me
  if n = 0 then word (strctl m)
  else if n = 1 then word m.vl
  else if n = 2 then word (vtypeCode m.vtype)
  else if n = 3 then word m.vstart
  else if n = 4 then word (rmCode m.frm)
  else if n = 5 then word m.fflags.toNat
  else if n = 6 then word (gshapeCode m.gshape)
  else if n = 7 then word (capCode s.capShape)
  else if n < 0x10 then word (tshapeCode (tget {} m.tshape (n - 8)))
  else if n < 0x18 then word (zdimCode (tget {} m.zdim (n - 0x10)))
  else if n = 0x20 then word (strandId m)
  else if n = 0x21 then word (if m.onSteward then 0 else s.myCrew.index)
  else if n = 0x22 then word (if m.onSteward then 0 else gridId s.myGrid s.myCrew.grid)
  else if n = 0x23 then word (coreClassCode s m.core)
  else if n = 0x24 then word s.cycle
  else if 0x40 ≤ n && n < 0x50 then maskWord m.deadmask (n - 0x40)
  else if n = 0x100 then m.trapvec
  else if n = 0x101 then m.trappc
  else if n = 0x102 then m.trapcause
  else if n = 0x103 then m.trapaddr
  else if n = 0x104 then m.trapinsn0
  else if n = 0x105 then m.trapinsn1
  else if 0x140 ≤ n && n < 0x150 then maskWord m.trapmask (n - 0x140)
  else 0

/-- Registers that the Steward does not implement (R31). -/
def stewardLacks (n : Nat) : Bool := (1 ≤ n && n ≤ 0x17) || (0x40 ≤ n && n ≤ 0x4F)

/-- `mfs` is denied: the trap registers at APP (R31). -/
def readDenied (p : Priv) (n : Nat) : Bool := p = .app && n ≥ 0x100

/-- `mts` is denied (R31). -/
def writeDenied (p : Priv) (n : Nat) : Bool :=
  n = 7 || (0x20 ≤ n && n ≤ 0x24) ||
    (p = .app && !(n = 0 || n = 4 || n = 5 || (8 ≤ n && n ≤ 0x17)))

/-- Clears the elements of an accumulator image outside its live extent (R29, R42). -/
def trimImage (zimg : Tab Word32) (k rows cols : Nat) : Tab Word32 :=
  zimg.filter fun e => e.1 / 4096 ≠ k || (e.1 % 4096 / 64 < rows && e.1 % 64 < cols)

/-- R42: a TSHAPE write, clamped to the grant. -/
def clampTShape (g : GShape) (f : TFmt) (rows cols : Nat) : TShape :=
  if g.gv then { fmt := f, rows := min rows (max g.gm g.gn), cols := min cols g.gk } else { fmt := f, rows := 0, cols := 0 }

/-- R42: a ZDIM write. -/
def writeZDim (m : Strand) (k : Nat) (fp : Bool) (rows cols : Nat) : Strand :=
  let r := min rows 64
  let c := min cols 64
  { m with zdim := tset {} m.zdim k { fp := fp, rows := r, cols := c }, zimg := trimImage m.zimg k r c }

/-- The write rules of `mts` (R32, R36, R39, R42): none for a value that places a reserved encoding in a field that the writer
may write. DESIGN CHOICE, log entry 77: for TRAPCAUSE a FROM of 0b11 is such an encoding, and every CODE is stored. -/
def writeSys (s : State) (n : Nat) (x : Word) : Option State :=
  let m := s.me
  let v := x.toNat
  let put (m : Strand) : Option State := some { s with me := m }
  if n = 0 then
    put { m with schk := x.getLsbD 6, sstrict := x.getLsbD 5, trapon := if m.priv = .app then m.trapon else x.getLsbD 7 }
  else if n = 1 then put { m with vl := min v m.vlmax }
  else if n = 2 then (vtypeOf v).bind fun t => put { m with vtype := t }
  else if n = 3 then put { m with vstart := bits v 10 0 }
  else if n = 4 then (rmOf (bits v 2 0)).bind fun r => put { m with frm := r }
  else if n = 5 then put { m with fflags := FFlags.ofNat (bits v 6 0) }
  else if n = 6 then (tfmtOf (bits v 63 60)).bind fun f =>
    let g := cooper s f (bits v 9 0) (bits v 19 10) (bits v 29 20)
    let fits := bits v 54 46 ≤ g.gk && bits v 45 39 ≤ g.gn && bits v 38 32 ≤ g.gm
    put { m with gshape := { g with gv := fits && x.getLsbD 59 } }
  else if n < 0x10 then (tfmtOf (bits v 63 60)).bind fun f =>
    put { m with tshape := tset {} m.tshape (n - 8) (clampTShape m.gshape f (bits v 6 0) (bits v 16 8)) }
  else if n < 0x18 then
    if bits v 31 28 = 6 then put (writeZDim m (n - 0x10) true (bits v 6 0) (bits v 14 8))
    else if bits v 31 28 = 2 then put (writeZDim m (n - 0x10) false (bits v 6 0) (bits v 14 8))
    else none
  else if 0x40 ≤ n && n < 0x50 then
    let d := setMaskWord m.deadmask (n - 0x40) x &&& m.laneMask
    put { m with deadmask := d, everDead := m.everDead ||| d }
  else if n = 0x100 then put { m with trapvec := x }
  else if n = 0x101 then put { m with trappc := x }
  else if n = 0x102 then
    if bits v 9 8 = 3 then none
    else put { m with trapcause := word (bits v 31 16 * 2 ^ 16 + bits v 9 0) }
  else if n = 0x103 then put { m with trapaddr := x }
  else if n = 0x104 then put { m with trapinsn0 := x }
  else if n = 0x105 then put { m with trapinsn1 := word (bits v 15 0) }
  else if 0x140 ≤ n && n < 0x150 then put { m with trapmask := setMaskWord m.trapmask (n - 0x140) x &&& m.laneMask }
  else some s

/-! ### Lazily owned rows (R375 to R377) -/

/-- The strand whose vector context a lazy switch has left in the slot of the current strand (R375). -/
def lazyOwner (s : State) : Option Nat :=
  (s.others.find? fun (_, m) => m.vpend && m.core = s.me.core && m.half = s.me.half && m.slot = s.me.slot).map (·.1)

/-- Length of the image of a strand. -/
def imageLen (vheld vlmax : Nat) : Nat := 3392 + 4 * vheld * vlmax

/-- Offset of strand area `s` in a context image (R379, R380). -/
def areaBase (s : Nat) : Nat := 576 + 768 * s

/-- Offset of the vector section in a crew's image, and of strand `i` in it (R379, R381). -/
def offVec (c : Crew) : Nat := areaBase c.decl.strands

/-- A strand that has halted and whose queue is empty: its vector image has VHELD 0 (R381). -/
def Strand.spent (m : Strand) : Bool := (m.run = .halted || m.run = .drained) && m.viq = []

/-- Bytes of the vector image of each strand, in order (R381: 0 registers for a halted strand). -/
def vecSectionOffset (s : State) (c : Crew) (i : Nat) : Nat :=
  (c.sids.take i).foldl (fun n sid =>
    let m := s.strand sid
    n + imageLen (if m.spent then 0 else m.vheld) c.decl.vlmax) (offVec c)

/-- VOWN (R376): the first head that needs the vector context of a slot whose rows another strand still owns. -/
def vown (s : State) : Option Trap :=
  (lazyOwner s).map fun sid =>
    let m := s.strand sid
    let c := s.crew m.crew
    { cause := .vown, addr := c.image + word (vecSectionOffset s c m.index) }

/-- The registers of the vector context (R376). -/
def vectorSys (n : Nat) : Bool := n = 1 || n = 2 || n = 3 || (0x40 ≤ n && n < 0x50)

def execMfs (d : SReg) (n : Fin 1024) (s : State) : Out :=
  .next (checked
    [trapIf (s.me.onSteward && stewardLacks n) (illegal 7),
     trapIf (readDenied s.me.priv n) { cause := .priv, detail := n }, if vectorSys n then vown s else none]
    (fun s => finish (s.wr d (readSys s n))) s)

/-- A value that R32 refuses traps before VOWN (R104). -/
def execMts (n : Fin 1024) (a : SReg) (s : State) : Out :=
  .next (checked
    [trapIf (s.me.onSteward && stewardLacks n) (illegal 7),
     trapIf (writeDenied s.me.priv n) { cause := .priv, detail := n }, valueIllegal s [a] (writeSys s n (s.rd a)).isNone, stallShort s [a],
     if vectorSys n then vown s else none, scalarPoison s [a]]
    (fun s => finish ((writeSys s n (s.rd a)).getD s)) s)

/-! ### Traps -/

def Cause.ofCode : Nat → Cause
  | 0x01 => .illegalInsn | 0x02 => .lineMalformed | 0x03 => .badTarget | 0x04 => .priv | 0x05 => .stallShort
  | 0x06 => .misaligned | 0x07 => .pageFault | 0x08 => .s2Fault | 0x09 => .access | 0x0A => .oobIndex | 0x0B => .poison
  | 0x0C => .grantInvalid | 0x0D => .regDeadlock | 0x0E => .regQuota | 0x0F => .mstackOvf | 0x10 => .mstackUnf
  | 0x11 => .stageOver | 0x12 => .gbarIllegal | 0x13 => .brk | 0x14 => .syscall | 0x15 => .vown | 0x16 => .heapBounds
  | 0x17 => .descInvalid | 0x18 => .feTimeout | 0x19 => .watchdog | 0x1A => .link | _ => .fatalOverrun

/-- R138: taken when the a field is 0 or the value of `sa` is not zero. -/
def execTrap (a : SReg) (code : Fin 256) (detail : BitVec 16) (s : State) : Out :=
  .next (readRegs [a] (fun s =>
    if a.val = 0 || s.rd a ≠ 0 then takeTrap { cause := .ofCode code, detail := detail.toNat } s else finish s) s)

/-- The last steps of `tret` (R137): the level falls, TRAPON clears, every result is delivered, and control goes to `p`. -/
def tretTo (p : Word) (s : State) : State :=
  let m := s.me.deliverAll
  let from_ := bitsOf m.trapcause 9 8
  tick (1 + m.ir.sc) { s with me := { m with
    priv := Priv.ofCode (min from_ m.priv.code), trapon := false, pc := p, via := m.ir, line := none } }

/-- The PC after the trapping head, from the head count of its line (R137). -/
def afterTrapPc (tpc : Word) (h : Nat) : Word :=
  if bitsOf tpc 5 0 < h then word (tpc.toNat / 64 * 64 + (bitsOf tpc 5 0 + 1)) else word ((tpc.toNat / 64 + 1) * 64 + 1)

def tretBody (mode : TretMode) (s : State) : State :=
  match mode with
  | .retry => tretTo s.me.trappc s
  | .kill =>
    let lanes := s.me.trapmask &&& s.me.laneMask
    tretTo s.me.trappc (s.modMe fun m => { m with deadmask := m.deadmask ||| lanes, everDead := m.everDead ||| lanes })
  | .next =>
    let line := s.me.trappc.toNat / 64 * 64
    match fetchLine s line with
    | .line halfs => tretTo (afterTrapPc s.me.trappc (headCount halfs)) s
    | .trap t => takeTrap t s
    | .stall2 i => stallS2 i 2 (word line) false s
    | .stallPri i => stallPri i (word line) false false s
    | .lost d => beginWait (.remote d (word line)) s

def execTret (mode : TretMode) (s : State) : Out :=
  .next (checked [trapIf (!s.me.trapon) (illegal 6), trapIf (s.me.priv = .app) { cause := .priv }] (tretBody mode) s)

/-- Holds a crew for the debugger (R472, R139). -/
def holdCrew (cid : Nat) (s : State) : State :=
  let s := s.modCrew cid fun c => { c with dbgHold := true }
  { s with events := s.events ++ [.preemptRequest cid] }

/-- Whether the debugger holds the strand's tenant unlocked with stop-on-break (R139, R470). -/
def stopsOnBreak (s : State) : Bool :=
  !s.me.onSteward && s.plat.unlock.getLsbD s.myGrid.vf && (s.vf s.myGrid.vf).stopbrk

def execBrk (n : Fin 16) (s : State) : Out :=
  .next (if stopsOnBreak s then holdCrew s.me.crew (finish s) else takeTrap { cause := .brk, detail := n } s)

def execSysc (n : Fin 2048) (s : State) : Out := .next (takeTrap { cause := .syscall, detail := n } s)

/-! ### Stopping and waiting -/

/-- A strand that stops for a pre-emption (R367). -/
def Strand.stopHere (m : Strand) (now : Nat) : Strand := { m with run := .stopped, stopReq := false, stopAt := now }

/-- A `settile` head: TS 3, MAJ 0x70, function 0 (R230). -/
def isSettileHead (h : Half) : Bool := h.toNat % 2048 = 0x700 && h.toNat / 2 ^ 14 = 3

/-- Whether the current strand's next head is a `settile`. -/
def nextIsSettile (s : State) : Bool :=
  let i := bitsOf s.me.pc 5 0
  match fetchLine s (s.me.pc.toNat / 64 * 64) with
  | .line halfs => 1 ≤ i && i ≤ headCount halfs && isSettileHead (headAt halfs i).head
  | _ => false

/-- Whether a copy, a collective or an engine's release of the strand is outstanding (R373). -/
def outstanding (s : State) (sid : Nat) : Bool :=
  let c := s.crew (s.strand sid).crew
  s.landing sid || c.releases.any (·.1 = sid) || s.colls.any (·.sid = sid)

/-- R373, for the current strand. -/
def atStrip (s : State) : Bool := !s.me.trapon && s.me.viq = [] && !outstanding s s.cur && nextIsSettile s

/-- R141; a strand that stops here may stand at a strip boundary (R373). -/
def execYield (s : State) : Out :=
  let s := finish s
  .next (if s.me.stopReq then s.modMe fun m => { m.stopHere s.cycle with strip := atStrip s, links := [] } else s)

/-- `halt` on a Steward core (R465). -/
def haltSteward (s : State) : State :=
  let s := drainCore s.me.core s
  let c := s.me.core - Config.stewardBase
  tick 1 { s with
    me := { s.me.deliverAll with run := .drained }
    plat := { s.plat with steward := tmod {} s.plat.steward c fun r => { r with done := true, busy := false } } }

/-- The strand leaves every band (R142, R145). -/
def leaveBands (idx : Nat) (c : Crew) : Crew :=
  let drop (t : Tab Word32) : Tab Word32 := t.filterMap fun e =>
    let v := e.2 &&& ~~~(BitVec.ofNat 32 (2 ^ idx))
    if v = 0 then none else some (e.1, v)
  { c with bands := drop c.bands, arrived := drop c.arrived }

/-- R142: the strand ends, leaves its bands, and its rows return when its older work has drained. -/
def execHalt (s : State) : Out :=
  .next (if s.me.onSteward then haltSteward s else
    let s := tick 1 { s with me := { s.me.deliverAll with run := .halted, stopReq := false } }
    let s := s.modMyCrew (leaveBands s.me.index)
    let s := settleGbar s.myCrew.grid (settleBands s.me.crew s)
    { s with events := s.events ++ [.strandDrained s.cur] })

/-- R143: the strand stops issuing until an event of the rule, or its deadline. -/
def execIdle (a : SReg) (s : State) : Out :=
  .next (readRegs [a] (fun s =>
    if s.me.stopReq then finishIdle s
    else beginWait (.idle (if a.val = 0 then none else some (s.rd a).toNat)) s) s)

end Sys2Proof.Machine
end

