-- ==== Sys2Proof/Machine/Records.lean ====
section
/-! DEFINITION. Layouts in memory: the launch record and its post checks (R348, R349, R351), the kernel descriptor (R350), and
the vector context image (R156, R157). -/

namespace Sys2Proof.Machine
open Sys2Proof

/-- The field of `n` bytes at offset `o`. -/
def field (b : List Byte) (o n : Nat) : Nat := leVal ((b.drop o).take n)

/-! ### Launch records -/

/-- R348. -/
def parseRec (b : List Byte) : LaunchRec :=
  { kernel := word (field b 0 8), args := word (field b 8 8), handler := word (field b 16 8), crews := field b 24 4,
    flags := BitVec.ofNat 32 (field b 28 4), wsx := field b 32 4, wsy := field b 36 4, wdog := field b 40 4,
    yieldTh := field b 44 4, donectr := word (field b 48 8), comprec := word (field b 56 8), dep0a := word (field b 64 8),
    dep0v := word (field b 72 8), dep1a := word (field b 80 8), dep1v := word (field b 88 8), heaptab := word (field b 96 8),
    rthr := field b 104 2, res1 := field b 106 2, gang := BitVec.ofNat 32 (field b 108 4), gtag := word (field b 112 8),
    cgroup := field b 120 2, res2 := field b 122 6 }

namespace LaunchRec
/-- FLAGS (R349). -/
def cores (r : LaunchRec) : Bool := r.flags.getLsbD 0
def schk (r : LaunchRec) : Bool := r.flags.getLsbD 1
def sstrict (r : LaunchRec) : Bool := r.flags.getLsbD 2
def nheap (r : LaunchRec) : Nat := bits r.flags.toNat 6 4
def ser (r : LaunchRec) : Bool := r.flags.getLsbD 7
def pmode (r : LaunchRec) : Nat := bits r.flags.toNat 9 8
def eager (r : LaunchRec) : Bool := r.flags.getLsbD 10
/-- GANG (R348). -/
def size (r : LaunchRec) : Nat := bits r.gang.toNat 8 0
def rank (r : LaunchRec) : Nat := bits r.gang.toNat 16 9
def isGang (r : LaunchRec) : Bool := r.size ≥ 2
/-- Watchdog interval in cycles, and the yield threshold (R348). -/
def watchdog (r : LaunchRec) : Nat := 1024 * (if r.wdog = 0 then 1024 else r.wdog)
def yieldCycles (r : LaunchRec) : Nat := if r.yieldTh = 0 then 8192 else r.yieldTh
end LaunchRec

/-- The post checks (R351): 0, or the smallest reason that fails. -/
def postCheck (r : LaunchRec) : Nat :=
  let fl := r.flags.toNat
  let bad1 := bits fl 31 11 ≠ 0 || bits fl 3 3 ≠ 0 || r.res1 ≠ 0 || r.res2 ≠ 0 || bits r.gang.toNat 31 17 ≠ 0
    || bits r.rthr 15 11 ≠ 0 || r.crews = 0 || r.wdog > 2 ^ 20 || (r.yieldTh ≠ 0 && (r.yieldTh < 1024 || r.yieldTh > 1048576))
    || bits r.rthr 10 0 > 1024 || r.pmode > 1 || r.nheap > 4
    || r.kernel.toNat % 64 ≠ 0 || r.donectr.toNat % 8 ≠ 0 || r.comprec.toNat % 64 ≠ 0 || r.heaptab.toNat % 8 ≠ 0
    || r.dep0a.toNat % 8 ≠ 0 || r.dep1a.toNat % 8 ≠ 0
  let bad2 := r.size > 256 || (r.size ≥ 2 && r.rank ≥ r.size) || (r.size ≤ 1 && r.rank ≠ 0) || (r.eager && r.size ≤ 1)
    || r.cgroup > 255
  if bad1 then 1 else if bad2 then 2 else 0

/-! ### Kernel descriptors -/

/-- R350: the declaration of a descriptor, none when it is not valid. -/
def parseDesc (b : List Byte) : Option Decl :=
  let d := field b 8 2
  let tz := field b 11 1
  let vl := bits d 8 7
  let x : Decl := {
    entry := word (field b 0 8), strands := bits d 4 0, affinity := bits d 6 5,
    vlmaxc := Fin.ofNat 3 vl, vheld := field b 10 1, tdecl := bits tz 3 0, zdecl := bits tz 7 4, quota := field b 12 4,
    spbytes := field b 16 4, nsb := field b 20 1, llbytes := field b 24 4 }
  let ok := 1 ≤ x.strands && x.strands ≤ 16 && x.affinity ≠ 3 && vl ≠ 3 && bits d 15 9 = 0 && x.vheld ≤ 64 && x.tdecl ≤ 8
    && x.zdecl ≤ 8 && x.nsb ≤ 16 && field b 21 3 = 0 && field b 28 36 = 0
    && x.strands * x.vheld * (x.vlmax / 32) ≤ x.quota && !(x.affinity = 2 && x.strands > 8)
  if ok then some x else none

/-! ### Vector context images (R156) -/

def maskBytes (m : Mask) : List Byte := leBytes 128 m.toNat

/-- The lanes of register `r` as full containers, ascending. -/
def regBytes (m : Strand) (r : Nat) : List Byte :=
  (List.range m.vlmax).flatMap fun l => leBytes 4 (tget 0 m.vregs (r * 1024 + l)).toNat

/-- STRCTL with only VHELD, VLMAXC and MSD (R156). -/
def imageStrctl (m : Strand) : Nat := m.vheld * 2 ^ 41 + m.vlmaxc.val * 2 ^ 31 + m.mstack.length * 2 ^ 26

def vectorImage (m : Strand) (crewId gridId : Nat) : List Byte :=
  let stack := m.mstack.reverse
  leBytes 8 m.vl ++ leBytes 8 (vtypeCode m.vtype) ++ leBytes 8 m.vstart ++ leBytes 8 (imageStrctl m) ++ leBytes 8 (strandId m)
    ++ leBytes 8 crewId ++ leBytes 8 gridId ++ leBytes 8 (imageLen m.vheld m.vlmax) ++ maskBytes m.deadmask
    ++ ((List.range 8).flatMap fun k => maskBytes (tget 0 m.masks k))
    ++ ((List.range 16).flatMap fun k => match stack[k]? with
        | some e => maskBytes e.mask ++ leBytes 8 (vtypeCode e.vtype)
        | none => zeros 136)
    ++ ((List.range m.vheld).flatMap (regBytes m))

def maskAt (b : List Byte) (o : Nat) : Mask := BitVec.ofNat 1024 (field b o 128)

/-- The checks of R157 on an image of which `rest` rows may be held: 0, or the DETAIL of the first failure in the order 2, 1,
4, 5, 3. DEDUCED, log entry 70: the bits of lanes at or above VLMAX, which R156 writes as zero, count as reserved. -/
def imageCheck (m : Strand) (crewId gridId rest : Nat) (b : List Byte) : Nat :=
  let st := field b 24 8
  let vh := bits st 47 41
  let vlc := bits st 32 31
  let msd := bits st 30 26
  let vlmax := 256 * 2 ^ vlc
  let dead (o : Nat) : Bool := field b o 128 ≥ 2 ^ vlmax
  let entry (k : Nat) : Bool :=
    let o := 1216 + 136 * k
    if k ≥ msd then field b o 136 ≠ 0
    else dead o || (vtypeOf (field b (o + 128) 8)).isNone || field b (o + 128) 8 / 2 ^ 14 ≠ 0 || bits (field b (o + 128) 8) 9 4 ≠ 0
  let bad2 := st - vh * 2 ^ 41 - vlc * 2 ^ 31 - msd * 2 ^ 26 ≠ 0 || vh > 64 || vlc = 3 || msd > 16 || field b 0 8 > vlmax
    || (vtypeOf (field b 8 8)).isNone || field b 8 8 / 2 ^ 14 ≠ 0 || bits (field b 8 8) 9 4 ≠ 0 || field b 16 8 / 2 ^ 11 ≠ 0
    || field b 32 8 / 2 ^ 29 ≠ 0 || bits (field b 32 8) 7 4 ≠ 0 || field b 44 4 ≠ 0 || field b 48 8 / 2 ^ 38 ≠ 0
    || dead 64 || (List.range 8).any (fun k => dead (192 + 128 * k)) || (List.range 16).any entry
  if bad2 then 2
  else if field b 56 8 ≠ imageLen vh vlmax then 1
  else if vlc ≠ m.vlmaxc.val then 4
  else if field b 40 8 ≠ crewId || field b 48 8 ≠ gridId then 5
  else if vh * (vlmax / 32) > rest then 3
  else 0

/-- Puts an image of R156 into a strand (R157). -/
def loadImage (m : Strand) (b : List Byte) : Strand :=
  let st := field b 24 8
  let vh := bits st 47 41
  let vt (o : Nat) : VType := (vtypeOf (field b o 8)).getD m.vtype
  let dead := maskAt b 64
  let regs := (List.range vh).foldl (fun t r => (List.range m.vlmax).foldl (fun t l =>
    tset 0 t (r * 1024 + l) (BitVec.ofNat 32 (field b (3392 + 4 * (r * m.vlmax + l)) 4))) t) []
  { m with
    vl := field b 0 8, vtype := vt 8, vstart := field b 16 8 % 2048, vheld := vh, deadmask := dead,
    everDead := m.everDead ||| dead,
    masks := (List.range 8).foldl (fun t k => tset 0 t k (maskAt b (192 + 128 * k))) []
    mstack := ((List.range (bits st 30 26)).map fun k => ⟨maskAt b (1216 + 136 * k), vt (1216 + 136 * k + 128)⟩).reverse
    vregs := regs, vpois := [] }

end Sys2Proof.Machine
end

