-- ==== Sys2Proof/Machine/Crew.lean ====
section
/-! DEFINITION. Bands, barriers, the register pool, work queries, device-side launch, vector context save and restore, and
scrub (R144 to R159), with the events of the register pool (R149 to R151, R273) and of a strand's end (R142, R359). -/

namespace Sys2Proof.Machine
open Sys2Proof

/-- On the Steward every function of MAJ 0x21 but `scrub`, and every MAJ above 0x2F, is DETAIL 7 (R103, R116). -/
def notOnSteward (s : State) : Option Trap := trapIf s.me.onSteward (illegal 7)

/-! ### Bands (R144 to R147) -/

def State.band (s : State) (b : Nat) : Word32 := tget 0 s.myCrew.bands b

def setBand (b : Nat) (v : Word32) (s : State) : State := s.modMyCrew fun c => { c with bands := tset 0 c.bands b v }

def bitAt (i : Nat) : Word32 := BitVec.ofNat 32 (2 ^ i)

def execJoin (b : Fin 16) (s : State) : Out :=
  .next (checked [notOnSteward s] (fun s => finish (setBand b (s.band b ||| bitAt s.me.index) s)) s)

/-- R145: a member that leaves stops being counted (R146). -/
def execLeave (b : Fin 16) (s : State) : Out :=
  .next (checked [notOnSteward s] (fun s =>
    let s := setBand b (s.band b &&& ~~~(bitAt s.me.index)) s
    settleBands s.me.crew (finish s)) s)

/-- Marks the strand arrived at band `b` (R146); its older accesses have been performed at crew scope. -/
def arriveBand (b : Nat) (s : State) : State :=
  s.modMyCrew fun c => { c with arrived := tset 0 c.arrived b (tget 0 c.arrived b ||| bitAt s.me.index) }

def execBsync (b : Fin 16) (s : State) : Out :=
  .next (checked [notOnSteward s, trapIf (!(s.band b).getLsbD s.me.index) (illegal 6)] (fun s =>
    settleBands s.me.crew (beginWait (.bsync b) (arriveBand b s))) s)

/-- R148: a cumulative release at device scope, and arrival. -/
def execGbar (s : State) : Out :=
  .next (checked [notOnSteward s, trapIf (!s.myGrid.lrec.cores) { cause := .gbarIllegal }] (release .device fun s =>
    let s := beginWait .gbar (s.modGrid s.myCrew.grid fun g => { g with arrived := addOnce g.arrived s.cur })
    settleGbar s.myCrew.grid s) s)

/-- The lowest index of a membership set. -/
def lowestBit (v : Nat) : Nat → Nat → Nat
  | 0, i => i
  | n + 1, i => if v.testBit i then i else lowestBit v n (i + 1)

/-- R147. -/
def execElect (d : SReg) (b : Fin 16) (s : State) : Out :=
  .next (checked [notOnSteward s] (fun s =>
    let set := (s.band b).toNat
    finish (s.wr d (if set.testBit s.me.index && lowestBit set 16 0 = s.me.index then 1 else 0))) s)

/-! ### The register pool (R149 to R151, R273) -/

/-- Rows that one register of the crew's strands occupies (R19). -/
def rowsPer (d : Decl) : Nat := d.vlmax / 32

/-- The contents of a row, empty for a row of zeros, and its poison. -/
def rowOf (m : Strand) (reg row : Nat) : List Word32 × Bool :=
  let l := (List.range 32).map fun i => tget 0 m.vregs (reg * 1024 + row * 32 + i)
  (if l.all (· = 0) then [] else l, decide (reg * 32 + row ∈ m.vpois))

def clearRow (reg row : Nat) (m : Strand) : Strand :=
  { m with
    vregs := m.vregs.filter fun e => !(e.1 / 1024 = reg && e.1 % 1024 / 32 = row)
    vpois := m.vpois.filter (· ≠ reg * 32 + row) }

def putRow (reg row : Nat) (v : List Word32 × Bool) (m : Strand) : Strand :=
  let m := clearRow reg row m
  { m with
    vregs := (v.1.zipIdx).foldl (fun t e => tset 0 t (reg * 1024 + row * 32 + e.2) e.1) m.vregs
    vpois := if v.2 then m.vpois ++ [reg * 32 + row] else m.vpois }

/-- Takes `n` of the free rows; which ones is open when they differ and more than one choice exists (R22). -/
def pickRows : Nat → Nat → List (List Word32 × Bool) → List (List Word32 × Bool) → List (List Word32 × Bool) × List (List Word32 × Bool)
  | 0, _, free, got => (got, free)
  | n + 1, draw, free, got =>
    let i := if free.all (· = free.headD ([], false)) then 0 else Config.rowPick draw % free.length
    pickRows n (draw + 1) (free.eraseIdx i) (got ++ [free.getD i ([], false)])

/-- Puts rows into a strand as its registers from `reg` upward. -/
def appendRows (per reg : Nat) (rows : List (List Word32 × Bool)) (m : Strand) : Strand :=
  (rows.zipIdx).foldl (fun m e => putRow (reg + e.2 / per) (e.2 % per) e.1 m) m

/-- Grants the oldest waiting claim when the free rows cover it (R149, R273). -/
def grantOne (cid : Nat) (s : State) : Option State :=
  let c := s.crew cid
  match c.claims with
  | [] => none
  | q :: rest =>
    if c.freeRows.length < q.need then none
    else
      let (got, left) := pickRows q.need s.draws c.freeRows []
      let s := { s with draws := s.draws + q.need }
      let s := s.modCrew cid fun c => { c with claims := rest, freeRows := left }
      let s := s.modStrand q.sid fun m => appendRows (rowsPer c.decl) m.vheld got { m with
        vheld := m.vheld + q.n, pool := if m.viq = [] then m.pool else m.pool ++ [(true, q.n)] }
      some (wakeComplete [q.sid] (fun w => match w with | .regclm _ => true | _ => false) s)

/-- Grants as many claims as the free rows cover, in queue order (R273). -/
def grantAll (cid : Nat) : Nat → State → State
  | 0, s => s
  | n + 1, s =>
    match grantOne cid s with
    | some t => grantAll cid n t
    | none => s

def grantClaims (cid : Nat) (s : State) : State := grantAll cid (s.crew cid).claims.length s

/-- R149. -/
def execRegclm (n : Fin 128) (s : State) : Out :=
  .next (checked
    [notOnSteward s, vown s,
     trapIf (s.me.vheld + n.val > 64) { cause := .regQuota, detail := 1, addr := word (n.val * rowsPer s.myCrew.decl) },
     trapIf (n.val * rowsPer s.myCrew.decl > s.myCrew.decl.quota)
       { cause := .regQuota, detail := 2, addr := word (n.val * rowsPer s.myCrew.decl) }]
    (fun s =>
      if n.val = 0 then finish s
      else
        let q : Claim := { sid := s.cur, n := n.val, need := n.val * rowsPer s.myCrew.decl }
        grantClaims s.me.crew (beginWait (.regclm n) (s.modMyCrew fun c => { c with claims := c.claims ++ [q] }))) s)

/-- The rows of registers `lo` to `lo + n - 1`. -/
def rowsAt (per lo n : Nat) (m : Strand) : List (List Word32 × Bool) := (List.range (n * per)).map fun i => rowOf m (lo + i / per) (i % per)

def clearRows (per lo n : Nat) (m : Strand) : Strand := (List.range (n * per)).foldl (fun m i => clearRow (lo + i / per) (i % per) m) m

/-- Moves the rows of registers `lo` to `lo + n - 1` of strand `sid` to the returning rows of its crew (R273). -/
def returnRows (sid lo n : Nat) (s : State) : State :=
  let m := s.strand sid
  let per := rowsPer (s.crew m.crew).decl
  let rows := rowsAt per lo n m
  let s := s.modStrand sid (clearRows per lo n)
  if n = 0 then s else s.modCrew m.crew fun c => { c with returning := c.returning ++ [(sid, rows)] }

/-- Whether an entry names a vector register at or above `v`; of a segment or a pair, its first register (R150). -/
def VOp.namesAbove (o : VOp) (v : Nat) : Bool := (Coding.vectorNames (Coding.encodeFields o.instr)).any (v ≤ ·)

/-- R150. The head issues once each instruction that the queue still holds names one of the released registers: an older instruction
that does not could still trap when the rows have become free (R133). -/
def execRegrel (n : Fin 128) (s : State) : Out :=
  .next (checked
    [notOnSteward s, vown s,
     trapIf (n.val > s.me.vheld) { cause := .regQuota, detail := 3, addr := word (n.val * rowsPer s.myCrew.decl) }]
    (fun s =>
      let v := s.me.vheld - n.val
      if !s.me.viq.all (·.namesAbove v) then beginWait .viq s
      else
        let s := returnRows s.cur v n.val s
        let s := finish (s.modMe fun m => { m with
          vheld := v, pool := if m.viq = [] || n.val = 0 then m.pool else m.pool ++ [(false, n.val)] })
        { s with events := s.events ++ [.rowsFreed s.me.crew] }) s)

/-- The latest rows that strand `sid` is returning, and the crew without them. -/
def lastReturn (sid : Nat) (c : Crew) : List (List Word32 × Bool) × Crew :=
  match c.returning.reverse.find? (·.1 = sid) with
  | some e => (e.2, { c with returning := (c.returning.reverse.erase e).reverse })
  | none => ([], c)

/-- Takes back a claim or a release of the current strand: the rows of a release are its registers' again, and the rows of a claim are
the answer. -/
def unwindOne (op : Bool × Nat) (s : State) : List (List Word32 × Bool) × State :=
  let per := rowsPer s.myCrew.decl
  let v := s.me.vheld
  if op.1 then
    (rowsAt per (v - op.2) op.2 s.me, s.modMe fun m => { clearRows per (v - op.2) op.2 m with vheld := v - op.2 })
  else
    let r := lastReturn s.cur s.myCrew
    ([], (s.modMyCrew fun _ => r.2).modMe fun m => appendRows per v r.1 { m with vheld := v + op.2 })

/-- Takes back claims and releases, the latest first; the rows of the claims, the earliest first. -/
def unwind : List (Bool × Nat) → List (List (List Word32 × Bool)) → State → List (List (List Word32 × Bool)) × State
  | [], got, s => (got, s)
  | op :: t, got, s =>
    let r := unwindOne op s
    unwind t (if op.1 then r.1 :: got else got) r.2

/-- Makes claims and releases again, in their order, with the rows of the claims. -/
def rewind : List (Bool × Nat) → List (List (List Word32 × Bool)) → State → State
  | [], _, s => s
  | (true, n) :: t, got, s =>
    rewind t got.tail (s.modMe fun m => appendRows (rowsPer s.myCrew.decl) m.vheld (got.headD []) { m with vheld := m.vheld + n })
  | (false, n) :: t, got, s =>
    let v := s.me.vheld - n
    rewind t got ((returnRows s.cur v n s).modMe fun m => { m with vheld := v })

/-- REGCLM_GRANT (R149). -/
def execRegclmGrant (s : State) : Out :=
  .next (match s.input with
    | some (.regclmGrant cid) => (grantOne cid s).getD s
    | _ => s)

/-- Whether rows of strand `m` may become free, which are those of its latest release but `left − 1`: no instruction that is older
than the release remains (R150). -/
def Strand.released (m : Strand) (left : Nat) : Bool :=
  let made := m.pool.zipIdx.filter fun e => !e.1.1
  match if left ≤ made.length then made[made.length - left]? else none with
  | some e => m.viq.all fun o => e.2 < o.front.pool
  | none => true

/-- Moves what has become free of the returning rows of a crew; the rows of one strand keep their order. -/
def freeReturned (s : State) : List (Nat × List (List Word32 × Bool)) → List (Nat × List (List Word32 × Bool)) × List (List Word32 × Bool)
  | [] => ([], [])
  | e :: t =>
    let r := freeReturned s t
    if (s.strand e.1).released ((t.filter (·.1 = e.1)).length + 1) then (r.1, e.2 ++ r.2) else (e :: r.1, r.2)

/-- ROWS_FREED (R273): the rows of a release become free together once no older instruction of the strand that names one of them
remains (R150); the claims that they cover are granted in the same cycle, and idling strands of the crew may go on (R143). -/
def freeRows (cid : Nat) (s : State) : State :=
  let c := s.crew cid
  let r := freeReturned s c.returning
  if r.1 = c.returning then s
  else
    let s := s.modCrew cid fun c => { c with returning := r.1, freeRows := c.freeRows ++ r.2 }
    wakeIdle cid (grantClaims cid s)

def execRowsFreed (s : State) : Out :=
  .next (match s.input with
    | some (.rowsFreed cid) => freeRows cid s
    | _ => s)

/-- Whether every strand of the crew that holds rows is blocked in `regclm`, no return is pending, and the oldest claim cannot
be met (R151). -/
def deadlocked (s : State) (cid : Nat) : Bool :=
  let c := s.crew cid
  match c.claims with
  | [] => false
  | q :: _ =>
    c.state = .resident && c.returning = [] && c.freeRows.length < q.need &&
      c.sids.all fun sid =>
        let m := s.strand sid
        m.vheld = 0 || m.run = .drained || c.claims.any (·.sid = sid)

/-- The pool state that TRAPADDR holds (R151). -/
def poolState (need quota free : Nat) : Word := word (need * 2 ^ 32 + quota * 2 ^ 16 + free)

/-- REG_DEADLOCK_DECLARE (R151): every claim is withdrawn, and each claimant is due to trap. -/
def execRegDeadlockDeclare (s : State) : Out :=
  .next (match s.input with
    | some (.regDeadlockDeclare cid) =>
      if deadlocked s cid then
        let c := s.crew cid
        let n := c.claims.length
        let s := s.modCrew cid fun c => { c with claims := [] }
        let s := c.claims.foldl (fun s q => s.modStrand q.sid fun m =>
          { m with wait := none, due := some (.regDeadlock, n, poolState q.need c.decl.quota c.freeRows.length, 0) }) s
        { s with events := s.events ++ c.claims.map fun q => .regDeadlockTrap q.sid }
      else s
    | _ => s)

/-- A trap that is due is taken once the older work of the strand has completed (R133). -/
def takeDue (sid : Nat) (f : Cause → Bool) (s : State) : State :=
  let m := s.strand sid
  match m.due with
  | some (c, detail, addr, lanes) =>
    if f c && m.run = .running && m.viq = [] && !s.landing sid then
      onStrand sid (fun s => takeTrap { cause := c, detail := detail, addr := addr, lanes := lanes }
        (s.modMe fun m => { m with due := none, wait := none })) s
    else s
  | none => s

/-- REG_DEADLOCK_TRAP (R151). -/
def execRegDeadlockTrap (s : State) : Out :=
  .next (match s.input with
    | some (.regDeadlockTrap sid) => takeDue sid (· = .regDeadlock) s
    | _ => s)

/-- R142, R359: a halted strand's older work has drained; its rows return, and the crew completes with the last of its
strands. A remote store that failed makes the completion a fault completion (R457). -/
def drainStrand (sid : Nat) (s : State) : State :=
  let m := s.strand sid
  if m.run = .halted && m.viq = [] && !(s.crew m.crew).landings.any (·.sid = sid) && !s.colls.any (·.sid = sid) then
    let s := returnRows sid 0 m.vheld (charge m.crew s)
    let s := freeRows m.crew (s.modStrand sid fun m => { m with run := .drained, vheld := 0 })
    let c := s.crew m.crew
    if c.sids.all fun i => (s.strand i).run = .drained then
      match s.linkFail.find? fun e => e.1 ∈ c.sids with
      | some (i, _, va) => endCrew m.crew 1 (Cause.code .link) 0 (s.strand i).index 0 (s.strand i).pc va s
      | none => endCrew m.crew 0 0 0 0 0 0 0 s
    else s
  else s

/-- STRAND_DRAINED. -/
def execStrandDrained (s : State) : Out :=
  .next (match s.input with
    | some (.strandDrained sid) => drainStrand sid s
    | _ => s)

/-! ### Work queries and launch -/

/-- DETAIL of R203. -/
def faultDetail (idx : Bool) (space : Nat) (wr : Bool) : Nat := idx.toNat * 8 + space * 2 + wr.toNat

/-- Cycles from a core to the Factor on die 0 (R362). -/
def factorCycles (core : Nat) : Nat := if dieOf core = 0 then 30 else 38

/-- R152: a strand with two queries outstanding waits at issue; a query reaches the Factor later (R362). -/
def wqryHead (a : SReg) (i : Imm) (s : State) : State :=
  checked [notOnSteward s, stallShort s [a], scalarPoison s [a],
      trapIf ((s.ea a i).toNat % 16 ≠ 0) { cause := .misaligned, detail := faultDetail false 1 true, addr := s.ea a i },
      trapIf ((s.ea a i).toNat + 16 > s.myCrew.decl.spbytes)
        { cause := .access, detail := 32 + faultDetail false 1 true, addr := s.ea a i }]
    (fun s =>
      if (s.myCrew.queries.filter (·.sid = s.cur)).length ≥ 2 then beginWait .query s
      else
        let s := s.modMyCrew fun c => { c with queries := c.queries ++ [⟨s.cur, (s.ea a i).toNat, none⟩] }
        finish (s.modGrid s.myCrew.grid fun g => { g with asks := g.asks ++ [(s.cycle + factorCycles s.me.core, s.cur)] })) s

def execWqry (a : SReg) (s : State) : Out := .next (wqryHead a 0 s)
def execWqryImm (a : SReg) (i : Imm) (s : State) : Out := .next (wqryHead a i s)

/-- The slot of record `k` of a queue (R346). -/
def slotAddr (q : QueueReg) (k : Nat) : Nat := q.qbase.toNat + 128 * (k % 2 ^ q.lsize)

def queueFull (q : QueueReg) : Bool := (q.widx - q.ridx).toNat = 2 ^ q.lsize

/-- Posts a record: the slot and the write index in one step (R347). -/
def postRecord (q : Nat) (key : Nat) (b : List Byte) (s : State) : State :=
  (homeWrite none none key b s).modQueue q fun x => { x with widx := x.widx + 1 }

/-- The slot of a post is no place of memory: a register space, or a plain view (R203, R347, R394). -/
def slotRefused (p : Place) (slot : Nat) : Trap :=
  match p with
  | .reg .. => xlTrap .access 1 (faultDetail false 0 true) slot
  | _ => xlTrap .access 4 (faultDetail false 0 true) slot

/-- The record at a place of memory, once the older accesses are performed at device scope (R154): statuses in the order 2, 3, 1, then
the slot's translation, then the post (R347, R351). -/
def launchRecord (d b : SReg) (k : Nat) (ea : Word) (s : State) : State :=
  match lostDevice s k with
  | some dev => beginWait (.remote dev ea) s
  | none =>
    if s.poisonedFor s.me.core k 128 then takeTrap { cause := .poison, addr := word (ea.toNat / 64 * 64) } s
    else
      let s := touch k s
      let qn := (s.rd b).toNat
      let bytes := s.viewBytes s.me.core k 128
      let q := s.queue qn
      let open_ := qn < 512 && q.dev && q.en && q.vf = s.ctx.vf && q.part = s.ctx.part
      if !open_ then finish (s.wr d 2)
      else if postCheck (parseRec bytes) ≠ 0 then finish (s.wr d 3)
      else if queueFull q then finish (s.wr d 1)
      else
        let slot := slotAddr q q.widx.toNat
        match translate s { s.ctx with app := false } .wr slot with
        | .ok (.cell kq) => finish ((postRecord qn kq bytes (touch kq s)).wr d 0)
        | .ok p => takeTrap (slotRefused p slot) s
        | .fault c r x => takeTrap (xlTrap c r (faultDetail false 0 true) (x.getD slot)) s
        | .stall2 ipa => stallS2 ipa 1 (word slot) false s
        | .stallPri iova => stallPri iova (word slot) true false s

/-- R154: the record is translated, and read behind a release at device scope. -/
def launchBody (d a b : SReg) (i : Imm) (s : State) : State :=
  let ea := s.ea a i
  match translate s s.ctx .rd ea.toNat with
  | .fault c r x => takeTrap (xlTrap c r (faultDetail false 0 false) (x.getD ea.toNat)) s
  | .stall2 ipa => stallS2 ipa 0 ea false s
  | .stallPri iova => stallPri iova ea false false s
  | .ok (.cell k) => release .device (launchRecord d b k ea) s
  | .ok (.reg ..) => takeTrap (xlTrap .access 1 (faultDetail false 0 false) ea.toNat) s
  | .ok (.plain ..) => takeTrap (xlTrap .access 4 (faultDetail false 0 false) ea.toNat) s

def launchHead (d a b : SReg) (i : Imm) (s : State) : State :=
  checked [notOnSteward s, stallShort s [a, b], scalarPoison s [a, b],
      trapIf ((s.ea a i).toNat % 128 ≠ 0) { cause := .misaligned, detail := faultDetail false 0 false, addr := s.ea a i }]
    (launchBody d a b i) s

def execLaunch (d a b : SReg) (s : State) : Out := .next (launchHead d a b 0 s)
def execLaunchImm (d a b : SReg) (i : Imm) (s : State) : Out := .next (launchHead d a b i s)

/-! ### Vector context save and restore -/

/-- Every 64 KiB page of a range with a place, or the outcome of the first that has none; pages are found in ascending order. -/
def pagesOf (s : State) (c : Ctx) (acc : Acc) (va : Nat) : Nat → Xl (List (Nat × Nat))
  | 0 => .ok []
  | n + 1 =>
    (pagesOf s c acc va n).bind fun l =>
      let page := (va / 65536 + n) * 65536
      (translate s c acc page).bind fun p => match p with
        | .cell k => .ok (l ++ [(page, k)])
        | .plain .. => .fault .access 4 (some page)
        | .reg .. => .fault .access 1 (some page)

def pageCount (va n : Nat) : Nat := if n = 0 then 0 else (va + n - 1) / 65536 - va / 65536 + 1

/-- The key of an address in translated pages. -/
def keyIn (pages : List (Nat × Nat)) (va : Nat) : Nat :=
  match pages.find? fun e => e.1 = va / 65536 * 65536 with
  | some (_, k) => k + va % 65536
  | none => 0

/-- The touched bits of translated pages (R387). -/
def touchPages (pages : List (Nat × Nat)) (s : State) : State := pages.foldl (fun s p => touch p.2 s) s

/-- Writes bytes that may cross pages, through the core's buffer. -/
def storeRange (pages : List (Nat × Nat)) (va : Nat) (b : List Byte) (s : State) : State :=
  pages.foldl (fun s (p : Nat × Nat) =>
    let lo := max va p.1
    let hi := min (va + b.length) (p.1 + 65536)
    if lo < hi then storeBytes s.me.core s.cur (p.2 + (lo - p.1)) (word lo) ((b.drop (lo - va)).take (hi - lo)) s else s) s

def readRange (s : State) (pages : List (Nat × Nat)) (va n : Nat) : List Byte :=
  pages.flatMap fun p =>
    let lo := max va p.1
    let hi := min (va + n) (p.1 + 65536)
    if lo < hi then s.viewBytes s.me.core (p.2 + (lo - p.1)) (hi - lo) else []

/-- The first address of a range whose sector holds an uncorrectable error (R204). -/
def rangePoison (s : State) (pages : List (Nat × Nat)) (va n : Nat) : Option Nat :=
  if s.mpois = [] && s.t2lost = [] then none
  else ((List.range ((va + n + 63) / 64 - va / 64)).map fun i => max va ((va / 64 + i) * 64)).find? fun x => s.badFor s.me.core (keyIn pages x / 64)

/-- The trap or the stall of a range access that did not translate; the faulting address is in the first page that failed. -/
def rangeFault {α : Type} (va : Word) (wr : Bool) (s : State) (k : α → State) : Xl α → State
  | .ok x => k x
  | .fault c r x => takeTrap (xlTrap c r (faultDetail false 0 wr) (max va.toNat (x.getD va.toNat))) s
  | .stall2 ipa => stallS2 ipa (if wr then 1 else 0) va false s
  | .stallPri iova => stallPri iova va wr false s

/-- The vector context of R48 for a strand that keeps its VHELD (R155). -/
def freshVector (m : Strand) : Strand :=
  { m with vl := 0, vstart := 0, vtype := ⟨.fault, .b16, .int32⟩, deadmask := 0, masks := [], mstack := [], vregs := [],
           vpois := [] }

/-- The faulting page's address of a translation: pages are visited in ascending order. -/
def faultPage (va : Nat) : Xl (List (Nat × Nat)) → Xl (List (Nat × Nat))
  | .fault c r none => .fault c r (some va)
  | x => x

/-- STATE of a strand's area in an image (R380). -/
def stateWord (m : Strand) : Nat :=
  m.strip.toNat + (m.run = .halted || m.run = .drained).toNat * 2 + m.vpend.toNat * 4

/-- The vector context of a lazily switched strand has been written: STATE.VPEND is 0 in its image (R377). -/
def clearVpend (sid : Nat) (s : State) : State :=
  let s := s.modStrand sid fun m => { m with vpend := false }
  let m := s.strand sid
  let c := s.crew m.crew
  (writeThrough s (s.grid c.grid).ctx (c.image.toNat + areaBase m.index + 352) (leBytes 8 (stateWord m))).getD s

/-- The sectors of a vector image at `va` that a poisoned register-row moves to become poisoned (R427). -/
def poisonImage (m : Strand) (pages : List (Nat × Nat)) (va : Nat) (s : State) : State :=
  let offs := (m.vpois.filter fun x => x / 32 < m.vheld).flatMap fun x =>
    let o := 3392 + x / 32 * (4 * m.vlmax) + x % 32 * 128
    [o, o + 64]
  if offs = [] then s
  else
    let s := drainCore s.me.core s
    { s with mpois := offs.foldl (fun l o => addOnce l (keyIn pages (va + o) / 64)) s.mpois }

def vsaveBody (a : SReg) (i : Imm) (s : State) : State :=
  let va := s.ea a i
  let owner := lazyOwner s
  let m := match owner with
    | some sid => s.strand sid
    | none => s.me
  let c := s.crew m.crew
  let img := vectorImage m c.index (gridId (s.grid c.grid) c.grid)
  rangeFault va true s (fun pages =>
    let s := poisonImage m pages va.toNat (storeRange pages va.toNat img (touchPages pages s))
    match owner with
    | some sid =>
      finish ((clearVpend sid s).modMe freshVector)
    | none => finish s) (faultPage va.toNat (pagesOf s s.ctx .wr va.toNat (pageCount va.toNat img.length)))

def alignedTo (n : Nat) (va : Word) (wr : Bool) : Option Trap :=
  trapIf (va.toNat % n ≠ 0) { cause := .misaligned, detail := faultDetail false 0 wr, addr := va }

/-- R155; in a handler the `vsave` is the one that R376 asks for, outside of it the head traps as any other. -/
def vsaveHead (a : SReg) (i : Imm) (s : State) : State :=
  checked [notOnSteward s, trapIf (s.me.priv = .app) { cause := .priv }, stallShort s [a], scalarPoison s [a],
      if s.me.trapon then none else vown s, alignedTo 64 (s.ea a i) true] (vsaveBody a i) s

def execVsave (a : SReg) (s : State) : Out := .next (vsaveHead a 0 s)
def execVsaveImm (a : SReg) (i : Imm) (s : State) : Out := .next (vsaveHead a i s)

/-- The strand comes to hold `vh` registers for those of an image (R157). DESIGN CHOICE, log entry 70: rows beyond its own come from the
free rows of the quota, and which of them is open as for a claim (R22); the rows of its top registers become free. -/
def holdRows (vh : Nat) (s : State) : State :=
  let per := rowsPer s.myCrew.decl
  let old := s.me.vheld
  if vh ≤ old then
    let rows := rowsAt per vh (old - vh) s.me
    s.modMyCrew fun c => { c with freeRows := c.freeRows ++ rows }
  else
    let n := (vh - old) * per
    { s with draws := s.draws + n }.modMyCrew fun c => { c with freeRows := (pickRows n s.draws c.freeRows []).2 }

/-- R157: the header gives the length; the image is read, checked, and put into the strand. DESIGN CHOICE, log entry 70: an image with
poisoned data traps POISON before it is checked. Rows that become free serve waiting claims, and end an `idle` (R143, R273). -/
def vrestoreBody (a : SReg) (i : Imm) (s : State) : State :=
  let va := s.ea a i
  rangeFault va false s (fun pages0 =>
    let head := readRange s pages0 va.toNat 3392
    let st := field head 24 8
    let vh := bits st 47 41
    let len := if vh ≤ 64 && bits st 32 31 ≠ 3 then imageLen vh (256 * 2 ^ bits st 32 31) else 3392
    rangeFault va false s (fun pages =>
      let img := readRange s pages va.toNat len
      let rest := s.myCrew.freeRows.length + s.me.vheld * rowsPer s.myCrew.decl
      let bad := imageCheck s.me s.myCrew.index (gridId s.myGrid s.myCrew.grid) rest img
      match rangePoison s pages va.toNat len with
      | some x => takeTrap { cause := .poison, addr := word (x / 64 * 64) } s
      | none =>
      if bad ≠ 0 then takeTrap { cause := .descInvalid, detail := bad, addr := va } s
      else
        let t := finish ((holdRows vh (touchPages pages s)).modMe fun m => loadImage m img)
        if vh < s.me.vheld then wakeIdle s.me.crew (grantClaims s.me.crew t) else t)
      (faultPage va.toNat (pagesOf s s.ctx .rd va.toNat (pageCount va.toNat len))))
    (faultPage va.toNat (pagesOf s s.ctx .rd va.toNat (pageCount va.toNat 3392)))

def vrestoreHead (a : SReg) (i : Imm) (s : State) : State :=
  checked [notOnSteward s, trapIf (s.me.priv = .app) { cause := .priv }, stallShort s [a], vown s, scalarPoison s [a],
      alignedTo 64 (s.ea a i) false] (vrestoreBody a i) s

def execVrestore (a : SReg) (s : State) : Out := .next (vrestoreHead a 0 s)
def execVrestoreImm (a : SReg) (i : Imm) (s : State) : Out := .next (vrestoreHead a i s)

/-! ### Scrub (R158) -/

/-- A resident crew holds the core, or one half of it. -/
def Crew.holds (c : Crew) (core : Nat) (half : Option Bool) : Bool :=
  (c.state = .resident || c.state = .stopping || c.state = .reserved) && c.core = core && (match half with | some h => c.half = h | none => true)

/-- Owners of a core or of one half (R412): partition 0 to 63, or 127. -/
def ownersOf (s : State) (core : Nat) (half : Option Bool) : List Nat :=
  let e := s.assign (State.entryOf core)
  if e.split then (match half with | some false => [e.own0] | some true => [e.own1] | none => [e.own0, e.own1]) else [e.own0]

/-- A crew that was switched out lazily and whose vector rows still stand on the core, or on one half of it (R375). -/
def Crew.stays (c : Crew) (core : Nat) (half : Option Bool) : Bool :=
  c.lazy && c.core = core && (match half with | some h => c.half = h | none => true)

/-- Whether a unit may be scrubbed: no resident context, and every owner's dispatch stopped (R158). DEDUCED, log entry 74: a context whose
vector rows still stand there is resident for this purpose. -/
def scrubFree (s : State) (core : Nat) (half : Option Bool) : Bool :=
  !(s.crews.any fun e => e.2.holds core half || e.2.stays core half) && (ownersOf s core half).all fun p => p ≥ 64 || (s.part p).stop

def coresOf (cluster : Nat) : List Nat :=
  if cluster < 40 then (List.range 4).map (· + 4 * cluster) else (List.range 8).map (· + 160 + 8 * (cluster - 40))

/-- Zeroes a range of keys with its full bits and its poison (R423, R427). -/
def clearKeys (k n : Nat) (s : State) : State :=
  { s with
    mem := zeroRange s.mem k n
    full := s.full.filter fun e => e.1 * 16 < k || k + n ≤ e.1 * 16
    mpois := s.mpois.filter fun x => x * 64 < k || k + n ≤ x * 64 }

/-- The ranges of lane-local store that resident crews hold on a core. -/
def laneHeld (s : State) (core : Nat) : List (Nat × Nat) :=
  s.crews.filterMap fun e =>
    if e.2.holds core none then some (e.2.llBase, e.2.decl.strands * e.2.decl.vlmax * e.2.decl.llbytes) else none

/-- The ranges of scratchpad that resident crews hold in a cluster. -/
def cspHeld (s : State) (cluster : Nat) : List (Nat × Nat) :=
  s.crews.filterMap fun e =>
    if (e.2.state = .resident || e.2.state = .stopping || e.2.state = .reserved) && clusterOf e.2.core = cluster then
      some (e.2.cspBase, (e.2.decl.spbytes + 255) / 256 * 256) else none

/-- Clears every key of a store from `base` but those of the held ranges. -/
def clearUnheld (base : Nat) (held : List (Nat × Nat)) (s : State) : State :=
  let stays (k n : Nat) : Bool := k + n ≤ base || base + 2 ^ 32 ≤ k || held.any fun h => base + h.1 ≤ k && k < base + h.1 + h.2
  { s with
    mem := s.mem.filter fun e => stays e.1 1
    full := s.full.filter fun e => stays (e.1 * 16) 1
    mpois := s.mpois.filter fun x => stays (x * 64) 1 }

/-- Zeroes the lane-local store of a core outside what resident crews hold: a half's share is where its own crews' slices stand,
so what is left over of either half is nobody's. -/
def scrubLanes (core : Nat) (s : State) : State := clearUnheld (laneKey core 0) (laneHeld s core) s

/-- Zeroes the scratchpad of a cluster, with its full bits, outside what resident crews hold. -/
def scrubCsp (cluster : Nat) (s : State) : State := clearUnheld (cspKey cluster 0) (cspHeld s cluster) s

def cspSize (cluster : Nat) : Nat := if cluster < 40 then 8 * 1048576 else 2 * 1048576

/-- R158: the status, and the state after the scrub. DESIGN CHOICE, log entry 75: status 2 comes before status 1, and a cluster target with
bit 12 set is an invalid one. The tile store, the accumulator memory and the register pool of a core
that no crew holds keep nothing in State: what a crew owned went with it. -/
def scrubRun (csp tile reg ll : Bool) (x : Nat) (s : State) : State × Nat :=
  let n := bits x 11 0
  if bits x 14 13 ≠ 0 || bits x 63 16 ≠ 0 then (s, 2)
  else if x.testBit 15 then
    if tile || reg || ll || n ≥ 72 || x.testBit 12 then (s, 2)
    else if !((coresOf n).all fun c => scrubFree s c none) then (s, 1)
    else (scrubCsp n s, 0)
  else
    let split := n < 160 && (s.assign n).split
    let half : Option Bool := if split then some (x.testBit 12) else none
    if csp || n ≥ Config.stewardBase || (x.testBit 12 && !split) then (s, 2)
    else if !scrubFree s n half then (s, 1)
    else (if ll then scrubLanes n s else s, 0)

def execScrub (csp tile reg ll : Bool) (d a : SReg) (s : State) : Out :=
  .next (checked [trapIf (s.me.priv ≠ .hyp) { cause := .priv }, stallShort s [a], scalarPoison s [a]] (fun s =>
    let r := scrubRun csp tile reg ll (s.rd a).toNat s
    finish (r.1.wr d (word r.2))) s)

end Sys2Proof.Machine
end

