-- ==== Sys2Proof/Machine/Registers.lean ====
section
/-! DEFINITION. The register spaces: HYP (R409), VF (R419), RAS, platform and debug (R471): what a read returns, and which event
a write is. -/

namespace Sys2Proof.Machine
open Sys2Proof

/-! ### Partition figures (R413, R414, R422) -/

/-- Owners of the cores of a Wide cluster, half by half. -/
def clusterOwners (s : State) (cl : Nat) : List Nat :=
  if cl < 40 then (coresOf cl).flatMap fun c =>
    let e := s.assign c
    [e.own0, if e.split then e.own1 else e.own0]
  else [(s.assign (160 + (cl - 40))).own0]

/-- Bytes of the scratchpad of a cluster that partition `p` may use (R413). -/
def cspShare (s : State) (cl p : Nat) : Nat :=
  let o := clusterOwners s cl
  let mine := (o.filter (· = p)).length
  if mine = 0 then 0
  else if o.all (fun x => x = p || x ≥ 64) then cspSize cl
  else 1048576 * mine

/-- Offsets of the scratchpad of a cluster that belong to partition `p`, in MiB for a divided cluster (R413). -/
def cspEighths (s : State) (cl p : Nat) : List Nat :=
  ((clusterOwners s cl).zipIdx.filter fun e => e.1 = p).map (·.2)

/-- S of R422. -/
def scrubBytes (s : State) (p : Nat) : Nat :=
  let wide := (List.range 160).foldl (fun n c =>
    let e := s.assign c
    n + if e.split then (if e.own0 = p then 1572864 else 0) + (if e.own1 = p then 1572864 else 0)
      else if e.own0 = p then 3145728 else 0) 0
  let lean := (List.range 32).foldl (fun n k => n + if (s.assign (160 + k)).own0 = p then 8 * 589824 else 0) 0
  wide + lean + (List.range 72).foldl (fun n cl => n + cspShare s cl p) 0

/-- SWMIN (R422). -/
def swMin (s : State) (p : Nat) : Nat :=
  let ch := popcount (s.part p).chmask.toNat 48
  if ch = 0 then 0 else 90 + (scrubBytes s p + 80000 * ch - 1) / (80000 * ch)

/-! ### Reads -/

/-- A queue's block (R344, R345). -/
def readQueue (q : QueueReg) (off : Nat) : Nat :=
  match off with
  | 0x00 => q.qbase.toNat
  | 0x08 => q.vf * 2 ^ 42 + q.part * 2 ^ 36 + q.weight * 2 ^ 16 + q.prio * 2 ^ 8 + q.lsize * 2 ^ 4 + q.preempt.toNat * 8
      + q.dev.toNat * 4 + q.en.toNat
  | 0x10 => q.widx.toNat
  | 0x18 => q.ridx.toNat
  | 0x20 => q.last * 2 ^ 16 + q.rfault.toNat * 8 + q.wfault.toNat * 4 + q.devq.toNat * 2 + q.badidx.toNat
  | _ => 0

/-- PCTL (R410). -/
def pctl (p : Partition) : Nat :=
  p.swwin * 2 ^ 48 + p.quantum * 2 ^ 32 + p.heaps * 2 ^ 8 + p.elastic.toNat * 8 + p.stop.toNat * 2 + p.en.toNat

/-- Whether a scrub of R423 for the partition runs (R410). -/
def partScrubbing (s : State) (n : Nat) : Bool :=
  (s.part n).scrubbing || s.assigns.any fun e => e.2.scrub && (e.2.own0 = n || (e.2.split && e.2.own1 = n))

def readPart (s : State) (n dw : Nat) : Nat :=
  let p := s.part n
  match dw with
  | 0 => pctl p
  | 1 => p.chmask.toNat
  | 2 => p.banks.toNat
  | 3 => p.nstash
  | 4 => p.t2
  | 5 => capCode p.cap
  | 6 => swMin s n * 2 ^ 32 + p.reason * 2 ^ 8 + p.err.toNat * 2 + (partScrubbing s n).toNat
  | _ => p.frames % 2 ^ 32

/-- R412; OWN1 is reserved for a Lean cluster. -/
def readAssign (s : State) (e : Nat) : Nat :=
  let a := s.assign e
  a.refused.toNat * 2 ^ 17 + a.scrub.toNat * 2 ^ 16 + a.split.toNat * 2 ^ 15
    + (if e < 160 then (if a.split then a.own1 else a.own0) else 0) * 2 ^ 8 + a.own0

/-- R416. -/
def readVfEntry (f : Vf) : Nat → Nat
  | 0 => f.gen * 2 ^ 56 + f.stash * 2 ^ 32 + f.part * 2 ^ 8 + f.lock.toNat * 2 + f.en.toNat
  | 1 => f.s2root.toNat
  | 2 => f.stale
  | _ => 0

def seqPair (issued done : Word32) : Nat := issued.toNat * 2 ^ 32 + done.toNat

def frzCode : FrzState → Nat
  | .idle => 0 | .stopping => 1 | .saving => 2 | .demoting => 3 | .frozen => 4 | .resuming => 5

def readHyp (s : State) (off : Nat) : Nat :=
  if 0x10000 ≤ off && off < 0x18000 then readQueue (s.queue ((off - 0x10000) / 64)) (off % 64)
  else if 0x20000 ≤ off && off < 0x21000 then readPart s ((off - 0x20000) / 64) (off % 64 / 8)
  else if 0x21000 ≤ off && off < 0x21600 then readAssign s ((off - 0x21000) / 8)
  else if 0x22000 ≤ off && off < 0x23000 then readVfEntry (s.vf ((off - 0x22000) / 64)) (off % 64 / 8)
  else match off with
    | 0x23000 => s.hyp.s2invaddr.toNat
    | 0x23008 => s.hyp.s2invcount * 2 ^ 32 + s.hyp.s2invvf * 2 ^ 8
    | 0x23010 => seqPair s.hyp.s2issued s.hyp.s2done
    | 0x23040 => s.hyp.mzaddr.toNat
    | 0x23048 => s.hyp.mzcount * 2 ^ 32 + s.hyp.mzpart * 2 ^ 8
    | 0x23050 => seqPair s.hyp.mzissued s.hyp.mzdone
    | 0x23080 => s.hyp.s2ring.toNat
    | 0x23088 => s.hyp.s2tail * 2 ^ 32 + s.hyp.s2head
    | 0x23100 => s.hyp.t2pool
    | 0x30000 => s.freeze.demote * 2 ^ 31 + s.freeze.pod * 2 ^ 16 + s.freeze.host.toNat * 8 + s.freeze.bcast.toNat * 2
    | 0x30008 => s.freeze.dest.toNat
    | 0x30010 => s.freeze.elapsed * 2 ^ 32 + s.freeze.result * 2 ^ 8 + frzCode s.freeze.state
    | _ => 0

/-- The VF block (R419): the queues assigned to the function only (R344). -/
def readVf (s : State) (v off : Nat) : Nat :=
  let f := s.vf v
  if 0x100 ≤ off && off < 0x200 then
    let x := tget {} f.surfaces ((off - 0x100) / 16)
    if off % 16 < 8 then x.plain.toNat + x.nseg else x.packed.toNat + x.valid.toNat
  else if 0x10000 ≤ off && off < 0x18000 then
    let q := s.queue ((off - 0x10000) / 64)
    if q.vf = v then readQueue q (off % 64) else 0
  else match off with
    | 0x0 => f.s1root.toNat
    | 0x8 => f.savebase.toNat
    | 0x10 => f.savesize * 65536
    | 0x20 => f.invaddr.toNat
    | 0x28 => f.invcount * 2 ^ 32
    | 0x30 => seqPair f.issued f.done
    | _ => 0

/-- An error bank (R431). -/
def bank (s : State) (b : Nat) : Bank := tget {} s.banks b

def ebstat (b : Bank) : Nat :=
  b.valid.toNat * 2 ^ 63 + b.ue.toNat * 2 ^ 62 + b.ovfUe.toNat * 2 ^ 61 + b.uecnt * 2 ^ 32 + b.cecnt

def ebinfo (b : Bank) : Nat := b.struct * 2 ^ 48 + b.group * 2 ^ 40 + b.part * 2 ^ 32 + b.synd

def readRas (s : State) (off : Nat) : Nat :=
  if off < 0x9000 then
    let b := bank s (off / 64)
    match off % 64 with
    | 0 => ebstat b
    | 8 => b.addr.toNat
    | 16 => ebinfo b
    | 24 => b.time
    | _ => 0
  else if 0x12000 ≤ off && off < 0x13000 then (tget 0 s.assayer.manifest ((off - 0x12000) / 8)).toNat
  else if 0x20000 ≤ off && off < 0x44000 then (tget 0 s.limner.snap ((off - 0x20000) / 8)).toNat
  else match off with
    | 0x10000 => s.ras.cethr * 2 ^ 16 + s.ras.automap.toNat
    | 0x10008 => s.ras.casienRing.base.toNat
    | 0x10010 => s.ras.casienRing.tail * 2 ^ 32 + s.ras.casienRing.head
    | 0x10018 => s.ras.hostRing.base.toNat
    | 0x10020 => s.ras.hostRing.tail * 2 ^ 32 + s.ras.hostRing.head
    | 0x10028 => s.ras.hostRing.drop * 2 ^ 32 + s.ras.casienRing.drop
    | 0x11000 => s.assayer.en.toNat * 2 ^ 8 + s.assayer.k
    | 0x11008 => s.assayer.seq.toNat
    | 0x11010 => s.assayer.pass * 2 ^ 32 + s.assayer.sampled
    | 0x11018 => s.assayer.skip * 2 ^ 32 + s.assayer.mismatch
    | 0x11020 => s.assayer.abandon
    | 0x13000 => s.ras.mapOp * 2 ^ 16 + s.ras.mapGroup * 2 ^ 12 + s.ras.mapCore
    | 0x13008 => s.ras.mapErr.toNat * 2 + (decide ((s.coreReg s.ras.mapCore).req ≠ [])).toNat
    | 0x14000 => s.ras.gangtag.toNat
    | 0x14010 => s.ras.gangstat.toNat
    | 0x15000 => s.limner.bcast.toNat * 2 ^ 8 + s.limner.src.toNat * 2 ^ 4
    | 0x15008 => s.limner.cyc.toNat
    | 0x15010 => s.limner.missed * 2 ^ 32 + s.limner.fired.toNat * 2 ^ 4 + s.limner.held.toNat * 2 + s.limner.armed.toNat
    | 0x15018 => s.limner.time
    | _ => 0

/-- An export entry (R456). -/
def readExport (x : Export) (dw : Nat) : Nat :=
  if dw = 0 then x.valid.toNat * 2 ^ 63 + x.srcdev * 2 ^ 48 + x.srcpart * 2 ^ 42 + x.part * 2 ^ 36
  else x.base * 2 ^ 32 + x.size

/-- Start registers of a Steward core (R466); those of core 0 read as zero. -/
def readSteward (r : StReg) : Nat → Nat
  | 0 => r.desc.toNat
  | 8 => r.args.toNat
  | 16 => r.vec.toNat
  | _ => r.code * 2 ^ 8 + r.err.toNat * 8 + r.fault.toNat * 4 + r.done.toNat * 2 + r.busy.toNat

def readPlatform (s : State) (off : Nat) : Nat :=
  if 0x100 ≤ off && off < 0x300 then tget 0 s.plat.pshare ((off - 0x100) / 8)
  else if 0x1800 ≤ off && off < 0x2000 then (tget 0 s.plat.routes ((off - 0x1800) / 8)).toNat
  else if 0x2000 ≤ off && off < 0x2400 then readExport (tget {} s.plat.exports ((off - 0x2000) / 16)) (off % 16 / 8)
  else if 0x4020 ≤ off && off < 0x4080 then readSteward (tget {} s.plat.steward ((off - 0x4000) / 32)) (off % 32)
  else match off with
    | 0x0 => s.plat.limit
    | 0x8 => s.plat.therm * 2 ^ 32 + s.plat.err.toNat * 2 ^ 31 + s.plat.draw
    | 0x1000 => s.plat.devid
    | 0x3000 => s.plat.unlock.toNat
    | _ => 0

/-- Crews of a VF that the debugger holds (R472). -/
def heldCrews (s : State) (v : Nat) : List Nat :=
  (s.crews.filter fun e => e.2.dbgHold && e.2.state ≠ .ended && (s.grid e.2.grid).vf = v).map (·.1)

def unlocked (s : State) : Bool := s.plat.unlock.getLsbD s.plat.dbgvf

/-- What a tenant reads of a core's snapshot (R473): dwords 0 and 1, the PCs of slots that held the VF's strands at the latch,
and dword 18 masked to those slots. The VF of each slot at the latch stands in dwords 24 to 27 of the snapshot table, one byte
for each slot with bit 7 set for an occupied one; a read of those dwords answers zero. -/
def snapSlots (s : State) (core : Nat) : Nat :=
  (List.range 16).foldl (fun m i =>
    let b := bits (tget 0 s.limner.snap (32 * core + 24 + i / 8)).toNat (8 * (i % 8) + 7) (8 * (i % 8))
    if b = 128 + s.plat.dbgvf then m + 2 ^ i else m) 0

def readDbgSnap (s : State) (off : Nat) : Nat :=
  let core := s.plat.dbgaddr.toNat % 512
  let d := (off - 0x100) / 8
  let x := (tget 0 s.limner.snap (32 * core + d)).toNat
  let slots := snapSlots s core
  if core ≥ Config.stewardBase then 0
  else if d < 2 then x
  else if d < 18 then (if slots.testBit (d - 2) then x else 0)
  else if d = 18 then x &&& (slots + slots * 2 ^ 16 + slots * 2 ^ 32)
  else 0

/-- The debug function (R471): while the VF is locked its registers read zero (R470). -/
def readDebug (s : State) (off : Nat) : Nat :=
  if off = 0 then (unlocked s).toNat * 2 ^ 8 + s.plat.dbgvf
  else if !unlocked s then 0
  else if 0x100 ≤ off && off < 0x200 then readDbgSnap s off
  else match off with
    | 0x8 => (s.vf s.plat.dbgvf).stopbrk.toNat * 4
    | 0x10 => (heldCrews s s.plat.dbgvf).length
    | 0x18 => s.plat.dbgaddr.toNat
    | 0x20 => s.plat.dbgdata.toNat
    | _ => 0

/-- An aligned 8-byte read of a register space; offsets that are not listed read as zero (R409). The dwords of the snapshot
table that only R473 uses are not part of the RAS space. -/
def readReg (s : State) (sp : Space) (off : Nat) : Word :=
  word <| match sp with
  | .hyp => readHyp s off
  | .vf v => readVf s v off
  | .ras => if 0x20000 ≤ off && off < 0x44000 && 192 ≤ off % 256 then 0 else readRas s off
  | .platform => readPlatform s off
  | .debug => readDebug s off

/-! ### Writes: the event that a write is -/

def queueEvent (sp : Space) (q off base : Nat) (v : Word) : Event :=
  match off with
  | 0x10 => .qwidxWrite q v
  | 0x20 => .qstatClear q v
  | _ => .registerWrite sp (base + off) v

/-- A write of HYP space. Enabling and disabling are judged by the EN bit as it stands. -/
def hypEvent (s : State) (off : Nat) (v : Word) : Event :=
  let en := v.getLsbD 0
  if 0x10000 ≤ off && off < 0x18000 then queueEvent .hyp ((off - 0x10000) / 64) (off % 64) (off / 64 * 64) v
  else if 0x20000 ≤ off && off < 0x21000 && off % 64 = 0 then
    let p := (off - 0x20000) / 64
    match (s.part p).en, en with
    | false, true => .partitionEnable p v
    | true, false => .partitionDisable p v
    | _, _ => .partitionStop p v
  else if 0x21000 ≤ off && off < 0x21600 then .assignmentWrite ((off - 0x21000) / 8) v
  else if 0x22000 ≤ off && off < 0x23000 && off % 64 = 0 then
    let f := (off - 0x22000) / 64
    match (s.vf f).en, en with
    | false, true => .vfEnable f v
    | true, false => .vfDisable f v
    | _, _ => .registerWrite .hyp off v
  else if 0x22000 ≤ off && off < 0x23000 && off % 64 = 16 then .vfpriClear ((off - 0x22000) / 64)
  else match off with
    | 0x23008 => if en then .s2Invalidate v else .registerWrite .hyp off v
    | 0x23048 => if en then .memoryZero v else .registerWrite .hyp off v
    | 0x23088 => .s2fidxWrite v
    | 0x23090 => if v.getLsbD 32 then .s2freplyFail (bitsOf v 31 0) else .s2freplyRetry (bitsOf v 31 0)
    | 0x30000 => if en then .freezeGo v else .registerWrite .hyp off v
    | _ => .registerWrite .hyp off v

def vfEvent (s : State) (f off : Nat) (v : Word) : Event :=
  if 0x10000 ≤ off && off < 0x18000 then
    if (s.queue ((off - 0x10000) / 64)).vf = f then queueEvent (.vf f) ((off - 0x10000) / 64) (off % 64) (off / 64 * 64) v
    else .registerWrite (.vf f) 0x18 v
  else if off = 0x28 && v.getLsbD 0 then .invalidate f v
  else .registerWrite (.vf f) off v

/-- A write of MAPREQ with GO (R442, R443), by its OP. -/
def mapEvent (v : Word) : Event :=
  match bitsOf v 17 16 with
  | 0 => .mapoutGroup (bitsOf v 11 0) (bitsOf v 14 12)
  | 1 => .retireCore (bitsOf v 11 0)
  | 2 => .restoreCore (bitsOf v 11 0)
  | _ => .registerWrite .ras 0x13000 v

def rasEvent (off : Nat) (v : Word) : Event :=
  if off < 0x9000 then (if off % 64 = 0 then .ebstatClear (off / 64) else .registerWrite .ras off v)
  else match off with
    | 0x10010 => .noticeTailWrite false v
    | 0x10020 => .noticeTailWrite true v
    | 0x10028 => .ndropClear
    | 0x10030 => .stwdogWrite
    | 0x11010 => .ascntClear 0
    | 0x11018 => .ascntClear 1
    | 0x11020 => .ascntClear 2
    | 0x13000 => if v.getLsbD 31 then mapEvent v else .registerWrite .ras off v
    | 0x14008 => if bitsOf v 1 0 = 1 then .gangcmdDiscard else if bitsOf v 1 0 = 2 then .gangcmdResume else .registerWrite .ras off v
    | _ => .registerWrite .ras off v

def platformEvent (off : Nat) (v : Word) : Event :=
  if off = 0 then .pwrlimWrite v
  else if 0x100 ≤ off && off < 0x300 then .pshareWrite ((off - 0x100) / 8) v
  else if 0x4020 ≤ off && off < 0x4080 && off % 32 = 0 && v.getLsbD 0 then .stewardStart ((off - 0x4000) / 32) v
  else .registerWrite .platform off v

def debugEvent (off : Nat) (v : Word) : Event :=
  if off = 0x20 then .dbgdataWrite v else .registerWrite .debug off v

/-- The event of an aligned 8-byte write to a register space; the register effect is complete before the next head (R409). -/
def regEvent (s : State) (sp : Space) (off : Nat) (v : Word) : Event :=
  match sp with
  | .hyp => hypEvent s off v
  | .vf f => vfEvent s f off v
  | .ras => rasEvent off v
  | .platform => platformEvent off v
  | .debug => debugEvent off v

end Sys2Proof.Machine
end

