-- ==== Sys2Proof/Machine/Memory.lean ====
section
/-! DEFINITION. Memory instructions of every class: scalar loads and stores, atomics, fences, stash windows and `dcfence`
(R206, R216 to R219, R223, R224). -/

namespace Sys2Proof.Machine
open Sys2Proof

def accBytes : AccW → Nat
  | .b => 1 | .h => 2 | .w => 4 | .d => 8

/-- A translated generic access of `n` bytes: a trap, a stall, or `k` at a byte of memory; `reg` handles a register space. A
load or atomic of a device that cannot be reached waits for its reply (R457). -/
def atPlace (va : Word) (n : Nat) (acc : Acc) (reads wr idx : Bool) (reg : Space → Nat → State → State) (k : Nat → State → State)
    (s : State) : State :=
  match translate s s.ctx acc va.toNat with
  | .fault c r x => takeTrap (xlTrap c r (faultDetail idx 0 wr) (x.getD va.toNat)) s
  | .stall2 ipa => stallS2 ipa (if wr then 1 else 0) va idx s
  | .stallPri iova => stallPri iova va wr idx s
  | .ok (.plain ..) => takeTrap (xlTrap .access 4 (faultDetail idx 0 wr) va.toNat) s
  | .ok (.reg sp off) => reg sp off s
  | .ok (.cell key) =>
    match (if reads then lostDevice s key else none) with
    | some d => beginWait (.remote d va) s
    | none =>
      if reads && s.poisonedFor s.me.core key n then takeTrap { cause := .poison, addr := word (va.toNat / 64 * 64) } s
      else k key (touch key s)

/-- A register space refuses an access: ACCESS, REASON 1 (R394, R409). -/
def regRefused (va : Word) (wr : Bool) (s : State) : State := takeTrap (xlTrap .access 1 (faultDetail false 0 wr) va.toNat) s

def misaligned (va : Word) (n space : Nat) (wr : Bool) : Option Trap :=
  trapIf (va.toNat % n ≠ 0) { cause := .misaligned, detail := faultDetail false space wr, addr := va }

/-- A scratchpad offset outside the crew's allocation (R198). -/
def outsideCsp (s : State) (va : Word) (n : Nat) (wr : Bool) : Option Trap :=
  trapIf (va.toNat + n > s.myCrew.decl.spbytes) { cause := .access, detail := 32 + faultDetail false 1 wr, addr := va }

/-- The key of an offset of the crew's allocation. -/
def State.csp (s : State) (off : Nat) : Nat := cspKey (clusterOf s.me.core) (s.myCrew.cspBase + off)

/-- A loaded value, extended to 64 bits (R206). -/
def extend (n : Nat) (u : Bool) (b : List Byte) : Word :=
  let v := leVal b
  if u then word v else (BitVec.ofNat (8 * n) v).signExtend 64

def loadHead (wd : AccW) (u sp acq : Bool) (sc : Scope) (d a : SReg) (i : Imm) (s : State) : State :=
  let va := s.ea a i
  let n := accBytes wd
  checked ([stallShort s [a], scalarPoison s [a], misaligned va n sp.toNat false]
      ++ if sp then [outsideCsp s va n false] else []) (fun s =>
    if sp then
      let k := s.csp va.toNat
      if s.poisoned k n then takeTrap { cause := .poison, addr := word (va.toNat / 64 * 64) } s
      else finish ((if acq then acquire sc s else s).wr d (extend n u (s.homeBytes k n)))
    else atPlace va n .rd true false false
      (fun r off s => if wd = .d then finish (s.wr d (readReg s r off)) else regRefused va false s)
      (fun k s =>
        let s := if acq then acquire sc s else fillLines s.me.core k n s
        finish (s.wr d (extend n u (s.viewBytes s.me.core k n)))) s) s

def execLd (wd : AccW) (u sp acq : Bool) (sc : Scope) (d a : SReg) (s : State) : Out := .next (loadHead wd u sp acq sc d a 0 s)
def execLdImm (wd : AccW) (u sp acq : Bool) (sc : Scope) (d a : SReg) (i : Imm) (s : State) : Out :=
  .next (loadHead wd u sp acq sc d a i s)

def storeHead (wd : AccW) (sp rel : Bool) (sc : Scope) (a b : SReg) (i : Imm) (s : State) : State :=
  let va := s.ea a i
  let n := accBytes wd
  checked ([stallShort s [a, b], scalarPoison s [a, b], misaligned va n sp.toNat true]
      ++ if sp then [outsideCsp s va n true] else []) (fun s =>
    let bytes := leBytes n (s.rd b).toNat
    let go (f : State → State) (s : State) : State := if rel then release sc f s else f s
    if sp then go (fun s => finish (storeBytes s.me.core s.cur (s.csp va.toNat) va bytes s)) s
    else atPlace va n .wr false true false
      (fun r off s =>
        if wd = .d then go (fun s =>
          let e := regEvent s r off (s.rd b)
          let s := finish s
          { s with events := s.events ++ [e] }) s
        else regRefused va true s)
      (fun k s => go (fun s => finish (storeBytes s.me.core s.cur k va bytes s)) s) s) s

def execSt (wd : AccW) (sp rel : Bool) (sc : Scope) (a b : SReg) (s : State) : Out := .next (storeHead wd sp rel sc a b 0 s)
def execStImm (wd : AccW) (sp rel : Bool) (sc : Scope) (a b : SReg) (i : Imm) (s : State) : Out :=
  .next (storeHead wd sp rel sc a b i s)

/-! ### Atomics (R223) -/

/-- The new value of `size` bytes. -/
def amoNew (op : AmoOp) (n : Nat) (old y : BitVec n) : BitVec n × FFlags :=
  match op with
  | .add => (old + y, {})
  | .and => (old &&& y, {})
  | .or => (old ||| y, {})
  | .xor => (old ^^^ y, {})
  | .min => (if y.slt old then y else old, {})
  | .max => (if old.slt y then y else old, {})
  | .minu => (if y.ult old then y else old, {})
  | .maxu => (if old.ult y then y else old, {})
  | .swap => (y, {})
  | .fadd =>
    let r := FForm.f32.addOp .rne (FForm.f32.decode old.toNat) (FForm.f32.decode y.toNat)
    (BitVec.ofNat n r.bits, r.fl)

/-- One indivisible read-modify-write at the home of its location; ordering acts at device scope, or at domain scope for a
location of another device (R223). -/
def amoHead (rs : List SReg) (dbl : Bool) (o : AOrd) (d a : SReg)
    (f : State → (n : Nat) → BitVec n → BitVec n × FFlags) (s : State) : State :=
  let va := s.rd a
  let n := if dbl then 8 else 4
  checked [stallShort s rs, scalarPoison s rs, misaligned va n 0 true] (fun s =>
    atPlace va n .rw true true false (fun _ _ s => regRefused va true s) (fun k s =>
      let rel := o = .rel || o = .ar
      let body (s : State) : State :=
        let s := drainCore s.me.core s
        let old := leVal (s.homeBytes k n)
        let (new, fl) := f s (8 * n) (BitVec.ofNat (8 * n) old)
        let s := homeWrite (some s.me.core) none k (leBytes n new.toNat) s
        let s := if o = .acq || o = .ar then dropLines s.me.core s else s
        let s := s.modMe fun m => { m with fflags := m.fflags.or fl }
        finish (s.wr d (extend n false (leBytes n old)))
      if rel then release (if 2 ^ 62 ≤ k && k < 2 ^ 63 then .domain else .device) body s else body s) s) s

def execAmo (op : AmoOp) (dbl : Bool) (o : AOrd) (d a b : SReg) (s : State) : Out :=
  .next (amoHead [a, b] dbl o d a (fun s n old => amoNew op n old ((s.rd b).setWidth n)) s)

def execAmoCas (dbl : Bool) (o : AOrd) (d a b c : SReg) (s : State) : Out :=
  .next (amoHead [a, b, c] dbl o d a
    (fun s n old => (if old = (s.rd b).setWidth n then (s.rd c).setWidth n else old, {})) s)

/-- R224, R299. -/
def execFence (m : Sem) (sc : Scope) (s : State) : Out :=
  .next (match m with
    | .acq => finish (acquire sc s)
    | .rel => release sc finish s
    | .ar => release sc (fun s => finish (acquire sc s)) s)

/-! ### Stash windows (R216, R217, R282, R283) -/

/-- Bytes of the stash share of a context (R416). -/
def stashShare (s : State) (v : Nat) : Nat := (s.vf v).stash * 16 * 1048576

/-- Lines of window `w` of VF `v` leave the share: memory already holds their bytes, so that nothing is written back. -/
def dropWindow (v w : Nat) (s : State) : State := { s with stash := s.stash.filter fun l => !(l.vf = v && l.w = w) }

/-- The dirty lines of window `w` are written back and stay (R217): memory already holds their bytes. -/
def flushWindow (v w : Nat) (s : State) : State :=
  { s with stash := s.stash.map fun l => if l.vf = v && l.w = w then { l with dirty := false, behind := [], bad := [] } else l }

/-- Links on lines that lie in a window (R210). -/
def breakWindowLinks (v : Nat) (x : Window) (s : State) : State :=
  let cut (m : Strand) : Strand := if m.links = [] then m else { m with links := m.links.filter fun l => !x.leads s v (l / 1024) }
  { s with me := cut s.me, others := s.others.map fun e => (e.1, cut e.2) }

/-- The tier bytes behind a dirty line show again, with their errors (R283). -/
def uncoverLine (l : StashLine) (s : State) : State :=
  let m := putBytes s.mem (l.key * 256) l.behind
  { s with mem := m, mpois := s.mpois.filter (· / 4 ≠ l.key) ++ l.bad, old := s.old.note (dwords (l.key * 256) l.behind.length) s.mem m }

/-- Drops every line without writing back (R217, R283). -/
def discardWindow (v w : Nat) (s : State) : State :=
  let s := (s.stash.filter fun l => l.vf = v && l.w = w && l.dirty).foldl (fun s l => uncoverLine l s) s
  { dropWindow v w s with l1 := [] }

def openWindows (s : State) (v : Nat) : List Window := (s.vf v).windows.filterMap (·.2)

/-- R216: the status, and the state. A length that no window may have is judged before the other two refusals. DEDUCED, log entry 72:
the share holds a range that is no longer than it, whatever else is open, since lines are evicted where the share is full (R282). -/
def openWindow (w : Nat) (base : Word) (len : Nat) (s : State) : State × Nat :=
  let v := s.ctx.vf
  let s := (dropWindow v w s).modVf v fun f => { f with windows := tset none f.windows w none }
  if len = 0 then (s, 0)
  else if len % 65536 ≠ 0 || len > 2 ^ 30 then (s, 3)
  else if (openWindows s v).any fun x => base.toNat < x.base.toNat + x.len && x.base.toNat < base.toNat + len then (s, 1)
  else if s.me.onSteward || len > stashShare s v then (s, 2)
  else (s.modVf v fun f => { f with windows := tset none f.windows w (some ⟨base, len⟩) }, 0)

def execStwin (w : Fin 16) (d a b : SReg) (s : State) : Out :=
  .next (checked [stallShort s [a, b], scalarPoison s [a, b], misaligned (s.rd a) 65536 0 false] (fun s =>
    let r := openWindow w (s.rd a) (s.rd b).toNat s
    finish (r.1.wr d (word r.2))) s)

def execStflush (w : Fin 16) (s : State) : Out :=
  .next (finish (flushWindow s.ctx.vf w (drainCore s.me.core s)))

def execStinv (discard : Bool) (w : Fin 16) (s : State) : Out :=
  .next (match tget none (s.vf s.ctx.vf).windows w with
    | none => finish s
    | some x =>
      let s := breakWindowLinks s.ctx.vf x (drainCore s.me.core s)
      finish (if discard then discardWindow s.ctx.vf w s else dropWindow s.ctx.vf w s))

/-! ### Compressed surfaces (R219, R289) -/

/-- Blocks of a surface (R402), and the bytes of its packed view: the table and room for every block held RAW. -/
def Surface.blocks (x : Surface) : Nat := 16 * (x.nseg + 1)
def Surface.packedBytes (x : Surface) : Nat := x.blocks * 8 + x.blocks * 4096

def Surface.has (x : Surface) (va : Nat) : Bool :=
  x.valid && ((x.plain.toNat ≤ va && va < x.plain.toNat + x.blocks * 4096)
    || (x.packed.toNat ≤ va && va < x.packed.toNat + x.packedBytes))

/-- Discards the decompressed copies of every surface with the address in either view. -/
def dropDecoded (v va : Nat) (s : State) : State :=
  let ks := ((s.vf v).surfaces.filter fun e => e.2.has va).map (·.1)
  { s with dcache := s.dcache.filter fun e => !(e.1.1 = v && e.1.2.1 ∈ ks) }

def dcfenceHead (a : SReg) (i : Imm) (s : State) : State :=
  readRegs [a] (fun s => finish (dropDecoded s.ctx.vf (s.ea a i).toNat (drainCore s.me.core s))) s

def execDcfence (a : SReg) (s : State) : Out := .next (dcfenceHead a 0 s)
def execDcfenceImm (a : SReg) (i : Imm) (s : State) : Out := .next (dcfenceHead a i s)

end Sys2Proof.Machine
end

