-- ==== Sys2Proof/Machine/Lanes.lean ====
section
/-! DEFINITION. Operand forms of the vector instructions (R160 to R166, R474): element types, active lanes, elements, the second
operand, LNS6 blocks, the checks of a vector head, and the sweep over element groups (R264). -/

namespace Sys2Proof.Machine
open Sys2Proof

/-! ### Element types (R161) -/

def tyBits : Ty → Nat
  | .i8 => 8 | .u8 => 8 | .i16 => 16 | .u16 => 16 | .i32 => 32 | .u32 => 32 | .i64 => 64 | .u64 => 64
  | .f16 => 16 | .bf16 => 16 | .f32 => 32 | .lns6 => 6 | .dflt => 32

/-- An element of a register pair (R20). -/
def isPair (t : Ty) : Bool := tyBits t = 64

def isInt (t : Ty) : Bool := match tyKind t with
  | .int _ => t ≠ .dflt
  | _ => false

def isFloat (t : Ty) : Bool := t = .f16 || t = .bf16 || t = .f32

def anyTy (_ : Ty) : Bool := true

def isLns (t : Ty) : Bool := t = .lns6

/-- The element type of VTYPE.FMT; its integers are signed. -/
def fmtTy : Fmt → Ty
  | .int8 => .i8 | .int16 => .i16 | .int32 => .i32 | .int64 => .i64 | .fp16 => .f16 | .bf16 => .bf16 | .fp32 => .f32
  | .lns6 => .lns6

/-- Whether a type names a format; signedness is not compared. -/
def sameFmt (t : Ty) (f : Fmt) : Bool :=
  tyBits t = tyBits (fmtTy f) && isInt t = isInt (fmtTy f) && (isInt t || t = fmtTy f)

/-- The element type that a T names. -/
def Strand.elemTy (m : Strand) (t : Ty) : Ty := if t = .dflt then fmtTy m.vtype.fmt else t

/-- DETAIL 6 of R161: a T that does not name VTYPE.FMT, or a VTYPE.FMT that the instruction does not accept. -/
def Strand.badTy (m : Strand) (t : Ty) (ok : Ty → Bool) : Bool :=
  (t ≠ .dflt && !sameFmt t m.vtype.fmt) || !ok (m.elemTy t)

/-- Integer type of an element, signed 32-bit for a type that is none. -/
def intOf (t : Ty) : IntTy := match tyKind t with
  | .int i => i
  | _ => ⟨32, true⟩

def floatOf (t : Ty) : FForm := match tyKind t with
  | .fp f => f
  | _ => .f32

/-! ### Active lanes (R16, R24, R25) -/

def Strand.top (m : Strand) : Mask := match m.mstack with
  | e :: _ => e.mask
  | [] => m.laneMask

def Strand.mask (m : Strand) (k : MReg) : Mask := tget 0 m.masks k

/-- The governing mask. -/
def Strand.governs (m : Strand) (g : MReg) : Mask := if g.val = 0 then m.top else m.mask g &&& m.top

/-- Lanes of a mask from VSTART to VL that are not dead, ascending. -/
def Strand.lanesOf (m : Strand) (k : Mask) : List Nat :=
  let n := (k &&& ~~~m.deadmask).toNat
  (List.range' m.vstart (m.vl - m.vstart)).filter n.testBit

/-- `active(l)`. -/
def Strand.lanes (m : Strand) (g : MReg) : List Nat := m.lanesOf (m.governs g)

/-- A mask of the listed lanes. -/
def laneSet (lanes : List Nat) : Mask := BitVec.ofNat 1024 (lanes.foldl (fun n l => n ||| 2 ^ l) 0)

def setMask (k : MReg) (v : Mask) (s : State) : State := s.modMe fun m => { m with masks := tset 0 m.masks k v }

/-! ### Elements (R20, R165) -/

/-- The 32-bit container of a lane. -/
def Strand.box (m : Strand) (v l : Nat) : Nat := (tget 0 m.vregs (v * 1024 + l)).toNat

/-- A container, or the pair of them for a 64-bit element. -/
def Strand.boxes (m : Strand) (t : Ty) (v l : Nat) : Nat :=
  if isPair t then m.box v l + 2 ^ 32 * m.box (v + 1) l else m.box v l

/-- `elem`. -/
def Strand.elem (m : Strand) (t : Ty) (v l : Nat) : Nat := m.boxes t v l % 2 ^ tyBits t

/-- A byte read as signed. -/
def signed8 (n : Nat) : Int := (IntTy.mk 8 true).read n

def Strand.blen (m : Strand) : Nat := blenVal m.vtype.blen

/-- The scale of the block that contains lane `l`. -/
def Strand.scale (m : Strand) (v l : Nat) : Int := signed8 (m.box v (l - l % m.blen) / 256)

/-- The container of a lane with the scale of its block (R474). -/
def Strand.lnsBox (m : Strand) (v l : Nat) : Nat := m.box v l % 64 + m.box v (l - l % m.blen) / 256 % 256 * 256

/-- Clears the poison of the rows of `v` of which every lane is listed (R427). -/
def Strand.unpoison (m : Strand) (v : Nat) (lanes : List Nat) : Strand :=
  if m.vpois = [] then m else
  { m with vpois := m.vpois.filter fun x => !(x / 32 = v && (List.range 32).all fun i => (x % 32 * 32 + i) ∈ lanes) }

/-- Writes whole containers. -/
def Strand.putBoxes (m : Strand) (v : Nat) (xs : List (Nat × Nat)) : Strand :=
  { m with vregs := xs.foldl (fun t e => tset 0 t (v * 1024 + e.1) (BitVec.ofNat 32 e.2)) m.vregs }

/-- Writes whole containers or pairs, and clears poison. -/
def Strand.put (m : Strand) (t : Ty) (v : Nat) (xs : List (Nat × Nat)) : Strand :=
  let ls := xs.map (·.1)
  if isPair t then
    ((((m.putBoxes v xs).putBoxes (v + 1) (xs.map fun e => (e.1, e.2 / 2 ^ 32))).unpoison v ls).unpoison (v + 1) ls)
  else (m.putBoxes v xs).unpoison v ls

/-- `set_elem` for the listed lanes: bits above the width are zero. -/
def Strand.setElems (m : Strand) (t : Ty) (v : Nat) (xs : List (Nat × Nat)) : Strand :=
  m.put t v (xs.map fun e => (e.1, e.2 % 2 ^ tyBits t))

/-- Writes LNS6 codes with the scale of each block, into every lane of the block (R165). -/
def Strand.putLns (m : Strand) (v : Nat) (codes : List (Nat × Nat)) (sc : Nat → Int) : Strand :=
  let bl := m.blen
  let sb (j : Nat) : Nat := (IntTy.mk 8 true).wrap (sc j) * 256
  let blocks := (codes.map fun e => e.1 / bl).eraseDups
  let m := m.putBoxes v (blocks.flatMap fun j => (List.range bl).map fun i =>
    let old := m.box v (j * bl + i)
    (j * bl + i, old - old / 256 % 256 * 256 + sb j))
  (m.putBoxes v (codes.map fun e => (e.1, e.2 % 64 + sb (e.1 / bl)))).unpoison v (codes.map (·.1))

/-! ### The second operand (R162, R474) -/

inductive YSrc where
  | vec (v : Nat)
  | val (x : Nat)
  deriving DecidableEq, Repr

def State.yOf (s : State) : VSrc → YSrc
  | .vec v => .vec v
  | .scal r => .val (s.rd r).toNat

def immY (t : Ty) (i : Imm) : YSrc := .val (if isInt t then (sext32 i).toNat else i.toNat)

/-- Whether an immediate breaks the constraint of R162 or R474 on its upper bits. -/
def badImm (t : Ty) (i : Imm) : Bool :=
  match t with
  | .f16 | .bf16 => i.toNat ≥ 2 ^ 16
  | .lns6 => i.toNat ≥ 2 ^ 16 || bits i.toNat 7 6 ≠ 0
  | _ => false

def YSrc.get (y : YSrc) (m : Strand) (t : Ty) (l : Nat) : Nat :=
  match y with
  | .vec v => m.elem t v l
  | .val x => x % 2 ^ tyBits t

def YSrc.scale (y : YSrc) (m : Strand) (l : Nat) : Int :=
  match y with
  | .vec v => m.scale v l
  | .val x => signed8 (x / 256)

def vsrcRegs : VSrc → List VReg
  | .vec v => [v]
  | .scal _ => []

def vsrcScal : VSrc → List SReg
  | .vec _ => []
  | .scal r => [r]

/-! ### Checks of a vector head (R104, R195) -/

/-- The registers behind a register name (R20). -/
def regsOf (t : Ty) (v : Nat) : List Nat := if isPair t then [v, v + 1] else [v]

/-- An odd register names no pair (R20). -/
def oddPair (t : Ty) (vs : List VReg) : Bool := isPair t && vs.any (·.val % 2 = 1)

/-- REG_QUOTA of R19: the first named register that the strand does not hold. -/
def regQuota (s : State) (vs : List Nat) : Option Trap :=
  (vs.find? (· ≥ s.me.vheld)).map fun v => { cause := .regQuota, addr := word v }

/-- The checks of a vector head: DETAIL 6 conditions, the scalar registers it reads, and the vector registers it names. DESIGN CHOICE, log
entry 79: VOWN stands between STALL_SHORT and REG_QUOTA (R104, R376). -/
def vhead (bad : Bool) (rs : List SReg) (vs : List Nat) (k : State → State) (s : State) : State :=
  checked [notOnSteward s, trapIf bad (illegal 6), stallShort s rs, vown s, regQuota s vs, scalarPoison s rs] k s

/-- What an instruction reads of a register: each lane that reads, with the lane of the container that it reads. -/
structure Rd where
  v : Nat
  reads : List (Nat × Nat)

/-- Every lane reads its own element. -/
def Rd.own (lanes : List Nat) (v : Nat) : Rd := ⟨v, lanes.map fun l => (l, l)⟩

/-- Every lane reads the scale of its block, which stands in the block's lowest lane (R165). -/
def Strand.rdScale (m : Strand) (lanes : List Nat) (v : Nat) : Rd := ⟨v, lanes.map fun l => (l, l - l % m.blen)⟩

/-- Every lane reads its element of type `t`, and for LNS6 the scale of its block. -/
def Strand.rdOf (m : Strand) (t : Ty) (lanes : List Nat) (v : Nat) : Rd :=
  if isLns t then ⟨v, (Rd.own lanes v).reads ++ (m.rdScale lanes v).reads⟩ else .own lanes v

/-- POISON of a register-row (R166): TRAPMASK holds the lanes that read the error. -/
def vpoison (s : State) (rds : List Rd) : Option Trap :=
  if s.me.vpois = [] then none else
  rds.findSome? fun r =>
    let hit := r.reads.filter fun x => r.v * 32 + x.2 / 32 ∈ s.me.vpois
    if hit = [] then none else some { cause := .poison, addr := word (0x8000000000000000 + r.v), lanes := laneSet (hit.map (·.1)).eraseDups }

/-! ### The sweep (R163, R164, R264) -/

/-! The queue of a strand (R262). A meaning that `vop` names an entry for runs that entry; otherwise the front end issues the head. -/

/-- The front end of a strand at this place in program order. -/
def Strand.front (m : Strand) : Front :=
  { pc := m.pc, ir := m.ir, via := m.via, line := m.line, regs := m.regs, pend := m.pend, spois := m.spois, vheld := m.vheld, vl := m.vl
    vtype := m.vtype, vstart := m.vstart, frm := m.frm, fflags := m.fflags, gshape := m.gshape, mstack := m.mstack
    pool := m.pool.length }

def Strand.withFront (m : Strand) (f : Front) : Strand :=
  { m with
    pc := f.pc, ir := f.ir, via := f.via, line := f.line, regs := f.regs, pend := f.pend, spois := f.spois, vheld := f.vheld, vl := f.vl
    vtype := f.vtype, vstart := f.vstart, frm := f.frm, fflags := f.fflags, gshape := f.gshape, mstack := f.mstack }

/-- A head whose work the VIQ holds is complete: as an entry it is marked, for its queue to drop it, and otherwise the front end goes
on. -/
def complete (s : State) : State :=
  match s.me.vop with
  | some o => s.modMe fun m => { m with wait := none, vop := some { o with fin := true } }
  | none => finish s

/-- A vector instruction completes: VSTART is written 0 (R35). -/
def vdone (s : State) : State := complete (s.modMe fun m => { m with vstart := 0 })

/-- Whether a head of the front end takes its place in the VIQ instead of acting at once: the work of the device is deferred, or
older entries remain. -/
def queues (s : State) : Bool := s.deferred || s.me.viq ≠ []

/-- A halted strand that drains in the slot of strand `m` (R263). -/
def Strand.drainsBeside (x m : Strand) : Bool := x.run = .halted && x.core = m.core && x.half = m.half && x.slot = m.slot

/-- Entries in use of the VIQ of the current strand's slot: its own, and those of a halted strand that drains there (R263). -/
def slotEntries (s : State) : Nat :=
  (s.others.filter fun e => e.2.drainsBeside s.me).foldl (fun n e => n + e.2.viq.length) s.me.viq.length

/-- The head enters the VIQ, with what holds at its place in program order, and the front end goes on; with 64 entries in use it waits
at issue (R262). Younger heads find VSTART 0 (R35). -/
def enqueue (i : Instr) (w : Option Wait) (s : State) : State :=
  if slotEntries s ≥ 64 then beginWait .viq s
  else
    let e : VOp := { instr := i, front := s.me.front, entered := s.cycle, wait := w, waitFrom := s.cycle, waitCount := s.me.carry.getD 0 }
    finish (s.modMe fun m => { m with viq := m.viq ++ [e], vstart := 0 })

/-- What a queued head waits for: an entry waits in its queue, and a head at issue enters the queue waiting. -/
def queueWait (i : Instr) (w : Wait) (s : State) : State :=
  match s.me.vop with
  | some o => s.modMe fun m => { m with wait := some w, waitFrom := s.cycle, vop := some { o with started := true } }
  | none => enqueue i (some w) s

/-- Acts at once, or enters the queue. -/
def queued (i : Instr) (k : State → State) (s : State) : State :=
  if s.me.vop = none && queues s then enqueue i none s else k s

/-- Sweeps `body` over the active lanes in groups of `chunk` lanes: at once for a head that acts at once, and the next group for an
entry of the queue. -/
def sweep (i : Instr) (chunk : Nat) (lanes : List Nat) (rds : List Rd) (body : List Nat → State → State)
    (s : State) : State :=
  queued i (fun s =>
    match vpoison s rds with
    | some t => takeTrap t s
    | none =>
      match s.me.vop with
      | none => vdone (body lanes s)
      | some o =>
        let g := lanes.headD 0 / chunk
        let s := body (lanes.filter (· / chunk = g)) s
        if lanes.all (· / chunk = g) then vdone s
        else s.modMe fun m => { m with vstart := (g + 1) * chunk, wait := none, vop := some { o with started := true } }) s

/-- A whole instruction (R163): one unit. -/
def whole (i : Instr) (lanes : List Nat) (rds : List Rd) (body : State → State) (s : State) : State :=
  sweep i 4096 lanes rds (fun _ => body) s

/-- Groups of an element-wise instruction; one with LNS6 blocks stops at block boundaries only (R164): a reader of a block whose scale
its own earlier group may have replaced would find another scale. -/
def Strand.chunk (m : Strand) (lns : Bool) : Nat := if lns then max 32 m.blen else 32

def addFlags (f : FFlags) (s : State) : State := s.modMe fun m => { m with fflags := m.fflags.or f }

def orFlags (l : List FRes) : FFlags := l.foldl (fun f r => f.or r.fl) {}

/-- Writes the result of `f` to each lane as an element, and merges the flags. -/
def writeLanes (t : Ty) (d : Nat) (f : Strand → Nat → FRes) (lanes : List Nat) (s : State) : State :=
  let rs := lanes.map (f s.me)
  addFlags (orFlags rs) (s.modMe fun m => m.setElems t d (lanes.zip (rs.map (·.bits))))

/-- Lanes by block of `bl` lanes, ascending. -/
def byBlock (bl : Nat) (lanes : List Nat) : List (Nat × List Nat) :=
  (lanes.map (· / bl)).eraseDups.map fun j => (j, lanes.filter (· / bl = j))

/-- Writes LNS6 results block by block: `f` answers a block's codes and scale (R165). -/
def writeBlocks (d : Nat) (f : Strand → Nat → List Nat → List FRes × Int) (lanes : List Nat) (s : State) : State :=
  let bl := s.me.blen
  (byBlock bl lanes).foldl (fun s e =>
    let r := f s.me e.1 e.2
    addFlags (orFlags r.1) (s.modMe fun m => m.putLns d (e.2.zip (r.1.map (·.bits))) fun _ => r.2)) s

end Sys2Proof.Machine
end

