-- ==== Sys2Proof/Machine/Vector.lean ====
section
/-! DEFINITION. Element-wise vector instructions: integer (R170), floating (R171, R172), conversion (R173, R174), LNS6 (R175,
R176), compares (R177) and moves (R183, R184). -/

namespace Sys2Proof.Machine
open Sys2Proof

/-- An element-wise head with sources va and y (R163): checks, then the sweep with `body` of the element type. -/
def lanewise (i : Instr) (ok : Ty → Bool) (t : Ty) (bad : Ty → Bool) (rs : List SReg) (srcs : List VReg) (y : YSrc) (d : VReg)
    (m : MReg) (body : Ty → List Nat → State → State) (s : State) : State :=
  let e := s.me.elemTy t
  let ys := match y with
    | .vec v => regsOf e v
    | .val _ => []
  let oddY := match y with
    | .vec v => isPair e && v % 2 = 1
    | .val _ => false
  let lanes := s.me.lanes m
  let rds := (srcs.flatMap fun v => regsOf e v.val) ++ ys
  vhead (s.me.badTy t ok || oddPair e (d :: srcs) || oddY || bad e) rs
    (ys ++ (srcs.flatMap fun v => regsOf e v.val) ++ regsOf e d.val)
    (sweep i (s.me.chunk (isLns e)) lanes (rds.map (s.me.rdOf e lanes)) (body e)) s

/-! ### Integer (R170) -/

inductive IOp where
  | add (sat : Bool) | sub (sat : Bool) | mul | mulh | min | max | and | or | xor | shl | shr | sra
  deriving DecidableEq, Repr

def clampIf (sat : Bool) (i : IntTy) (x : Int) : Int := if sat then i.clamp x else x

/-- The result of one lane, before its low w bits are kept. -/
def intLane (op : IOp) (i : IntTy) (x y : Nat) : Nat :=
  let a := i.read x
  let b := i.read y
  match op with
  | .add sat => i.wrap (clampIf sat i (a + b))
  | .sub sat => i.wrap (clampIf sat i (a - b))
  | .mul => i.wrap (a * b)
  | .mulh => i.wrap (a * b / (2 ^ i.w : Int))
  | .min => i.wrap (if b < a then b else a)
  | .max => i.wrap (if a < b then b else a)
  | .and => Nat.land x y
  | .or => Nat.lor x y
  | .xor => Nat.xor x y
  | .shl => x * 2 ^ (y % i.w)
  | .shr => x / 2 ^ (y % i.w)
  | .sra => i.wrap ((IntTy.mk i.w true).read x / (2 ^ (y % i.w) : Int))

def intVec (i : Instr) (op : IOp) (t : Ty) (rs : List SReg) (y : YSrc) (d a : VReg) (m : MReg) (s : State) : State :=
  lanewise i isInt t (fun _ => false) rs [a] y d m
    (fun e => writeLanes e d fun st l => { bits := intLane op (intOf e) (st.elem e a l) (y.get st e l) }) s

/-- The T2 form. -/
def intY (i : Instr) (op : IOp) (t : Ty) (d a : VReg) (y : VSrc) (m : MReg) (s : State) : Out :=
  .next (intVec i op t (vsrcScal y) (s.yOf y) d a m s)

/-- The T4I form. -/
def intI (i : Instr) (op : IOp) (t : Ty) (d a : VReg) (x : Imm) (m : MReg) (s : State) : Out :=
  .next (intVec i op t [] (immY .i64 x) d a m s)

def execVadd (t : Ty) (sat : Bool) (d a : VReg) (y : VSrc) (m : MReg) (s : State) : Out :=
  intY (.vadd t sat d a y m) (.add sat) t d a y m s
def execVaddImm (t : Ty) (sat : Bool) (d a : VReg) (x : Imm) (m : MReg) (s : State) : Out :=
  intI (.vaddImm t sat d a x m) (.add sat) t d a x m s
def execVsub (t : Ty) (sat : Bool) (d a : VReg) (y : VSrc) (m : MReg) (s : State) : Out :=
  intY (.vsub t sat d a y m) (.sub sat) t d a y m s
def execVsubImm (t : Ty) (sat : Bool) (d a : VReg) (x : Imm) (m : MReg) (s : State) : Out :=
  intI (.vsubImm t sat d a x m) (.sub sat) t d a x m s
def execVmul (t : Ty) (d a : VReg) (y : VSrc) (m : MReg) (s : State) : Out := intY (.vmul t d a y m) .mul t d a y m s
def execVmulImm (t : Ty) (d a : VReg) (x : Imm) (m : MReg) (s : State) : Out := intI (.vmulImm t d a x m) .mul t d a x m s
def execVmulh (t : Ty) (d a : VReg) (y : VSrc) (m : MReg) (s : State) : Out := intY (.vmulh t d a y m) .mulh t d a y m s
def execVmulhImm (t : Ty) (d a : VReg) (x : Imm) (m : MReg) (s : State) : Out := intI (.vmulhImm t d a x m) .mulh t d a x m s
def execVmin (t : Ty) (d a : VReg) (y : VSrc) (m : MReg) (s : State) : Out := intY (.vmin t d a y m) .min t d a y m s
def execVminImm (t : Ty) (d a : VReg) (x : Imm) (m : MReg) (s : State) : Out := intI (.vminImm t d a x m) .min t d a x m s
def execVmax (t : Ty) (d a : VReg) (y : VSrc) (m : MReg) (s : State) : Out := intY (.vmax t d a y m) .max t d a y m s
def execVmaxImm (t : Ty) (d a : VReg) (x : Imm) (m : MReg) (s : State) : Out := intI (.vmaxImm t d a x m) .max t d a x m s
def execVand (t : Ty) (d a : VReg) (y : VSrc) (m : MReg) (s : State) : Out := intY (.vand t d a y m) .and t d a y m s
def execVandImm (t : Ty) (d a : VReg) (x : Imm) (m : MReg) (s : State) : Out := intI (.vandImm t d a x m) .and t d a x m s
def execVor (t : Ty) (d a : VReg) (y : VSrc) (m : MReg) (s : State) : Out := intY (.vor t d a y m) .or t d a y m s
def execVorImm (t : Ty) (d a : VReg) (x : Imm) (m : MReg) (s : State) : Out := intI (.vorImm t d a x m) .or t d a x m s
def execVxor (t : Ty) (d a : VReg) (y : VSrc) (m : MReg) (s : State) : Out := intY (.vxor t d a y m) .xor t d a y m s
def execVxorImm (t : Ty) (d a : VReg) (x : Imm) (m : MReg) (s : State) : Out := intI (.vxorImm t d a x m) .xor t d a x m s
def execVshl (t : Ty) (d a : VReg) (y : VSrc) (m : MReg) (s : State) : Out := intY (.vshl t d a y m) .shl t d a y m s
def execVshlImm (t : Ty) (d a : VReg) (x : Imm) (m : MReg) (s : State) : Out := intI (.vshlImm t d a x m) .shl t d a x m s
def execVshr (t : Ty) (d a : VReg) (y : VSrc) (m : MReg) (s : State) : Out := intY (.vshr t d a y m) .shr t d a y m s
def execVshrImm (t : Ty) (d a : VReg) (x : Imm) (m : MReg) (s : State) : Out := intI (.vshrImm t d a x m) .shr t d a x m s
def execVsra (t : Ty) (d a : VReg) (y : VSrc) (m : MReg) (s : State) : Out := intY (.vsra t d a y m) .sra t d a y m s
def execVsraImm (t : Ty) (d a : VReg) (x : Imm) (m : MReg) (s : State) : Out := intI (.vsraImm t d a x m) .sra t d a x m s

/-! ### Floating (R171, R172) -/

/-- A lane's value in a floating format. -/
def fpElem (e : Ty) (x : Nat) : FVal := (floatOf e).decode x

/-- A floating head; `f` answers a lane's result from its codes x, y and z. -/
def floatVec (i : Instr) (t : Ty) (rs : List SReg) (y : YSrc) (bad : Ty → Bool) (f : Strand → FForm → Nat → Nat → Nat → FRes)
    (d a : VReg) (m : MReg) (addend : Bool) (s : State) : State :=
  lanewise i isFloat t bad rs (if addend then [a, d] else [a]) y d m
    (fun e => writeLanes e d fun st l => f st (floatOf e) (st.elem e a l) (y.get st e l) (st.elem e d l)) s

/-- What a floating operation does to a lane. -/
inductive FOp where
  | add | sub
  | mul (np : Bool)
  | fma (np nc : Bool)
  | min | max | div
  deriving DecidableEq, Repr

def floatLane (op : FOp) (rm : Rmo) (st : Strand) (t : FForm) (x y z : Nat) : FRes :=
  let mode := st.mode rm
  let a := t.decode x
  let b := t.decode y
  match op with
  | .add => t.addOp mode a b
  | .sub => t.addOp mode a b.neg
  | .mul np => t.mulOp mode (if np then a.neg else a) b
  | .fma np nc => t.fmaOp mode np nc a b (t.decode z)
  | .min => t.minMax false x y
  | .max => t.minMax true x y
  | .div => t.divOp mode a b

def FOp.readsD : FOp → Bool
  | .fma _ _ => true
  | _ => false

def floatY (i : Instr) (op : FOp) (t : Ty) (rm : Rmo) (d a : VReg) (y : VSrc) (m : MReg) (s : State) : Out :=
  .next (floatVec i t (vsrcScal y) (s.yOf y) (fun _ => false) (floatLane op rm) d a m op.readsD s)

def floatI (i : Instr) (op : FOp) (t : Ty) (rm : Rmo) (d a : VReg) (x : Imm) (m : MReg) (s : State) : Out :=
  .next (floatVec i t [] (.val x.toNat) (fun e => badImm e x) (floatLane op rm) d a m op.readsD s)

def execVfadd (t : Ty) (rm : Rmo) (d a : VReg) (y : VSrc) (m : MReg) (s : State) : Out :=
  floatY (.vfadd t rm d a y m) .add t rm d a y m s
def execVfaddImm (t : Ty) (rm : Rmo) (d a : VReg) (x : Imm) (m : MReg) (s : State) : Out :=
  floatI (.vfaddImm t rm d a x m) .add t rm d a x m s
def execVfsub (t : Ty) (rm : Rmo) (d a : VReg) (y : VSrc) (m : MReg) (s : State) : Out :=
  floatY (.vfsub t rm d a y m) .sub t rm d a y m s
def execVfsubImm (t : Ty) (rm : Rmo) (d a : VReg) (x : Imm) (m : MReg) (s : State) : Out :=
  floatI (.vfsubImm t rm d a x m) .sub t rm d a x m s
def execVfmul (t : Ty) (rm : Rmo) (np : Bool) (d a : VReg) (y : VSrc) (m : MReg) (s : State) : Out :=
  floatY (.vfmul t rm np d a y m) (.mul np) t rm d a y m s
def execVfmulImm (t : Ty) (rm : Rmo) (np : Bool) (d a : VReg) (x : Imm) (m : MReg) (s : State) : Out :=
  floatI (.vfmulImm t rm np d a x m) (.mul np) t rm d a x m s
def execVffma (t : Ty) (rm : Rmo) (np nc : Bool) (d a : VReg) (y : VSrc) (m : MReg) (s : State) : Out :=
  floatY (.vffma t rm np nc d a y m) (.fma np nc) t rm d a y m s
def execVffmaImm (t : Ty) (rm : Rmo) (np nc : Bool) (d a : VReg) (x : Imm) (m : MReg) (s : State) : Out :=
  floatI (.vffmaImm t rm np nc d a x m) (.fma np nc) t rm d a x m s
def execVfmin (t : Ty) (rm : Rmo) (d a : VReg) (y : VSrc) (m : MReg) (s : State) : Out :=
  floatY (.vfmin t rm d a y m) .min t rm d a y m s
def execVfminImm (t : Ty) (rm : Rmo) (d a : VReg) (x : Imm) (m : MReg) (s : State) : Out :=
  floatI (.vfminImm t rm d a x m) .min t rm d a x m s
def execVfmax (t : Ty) (rm : Rmo) (d a : VReg) (y : VSrc) (m : MReg) (s : State) : Out :=
  floatY (.vfmax t rm d a y m) .max t rm d a y m s
def execVfmaxImm (t : Ty) (rm : Rmo) (d a : VReg) (x : Imm) (m : MReg) (s : State) : Out :=
  floatI (.vfmaxImm t rm d a x m) .max t rm d a x m s
def execVfdiv (t : Ty) (rm : Rmo) (d a : VReg) (y : VSrc) (m : MReg) (s : State) : Out :=
  floatY (.vfdiv t rm d a y m) .div t rm d a y m s
def execVfdivImm (t : Ty) (rm : Rmo) (d a : VReg) (x : Imm) (m : MReg) (s : State) : Out :=
  floatI (.vfdivImm t rm d a x m) .div t rm d a x m s

/-- A unary instruction (R172). -/
def unary (i : Instr) (f : FForm → RM → FVal → FRes) (t : Ty) (rm : Rmo) (d a : VReg) (m : MReg) (s : State) : Out :=
  .next (floatVec i t [] (.val 0) (fun _ => false) (fun st t x _ _ => f t (st.mode rm) (t.decode x)) d a m false s)

def execVfsqrt (t : Ty) (rm : Rmo) (d a : VReg) (m : MReg) (s : State) : Out :=
  unary (.vfsqrt t rm d a m) FForm.sqrtOp t rm d a m s
def execVfrsq (t : Ty) (rm : Rmo) (d a : VReg) (m : MReg) (s : State) : Out :=
  unary (.vfrsq t rm d a m) FForm.rsqOp t rm d a m s
def execVfexp2 (t : Ty) (rm : Rmo) (d a : VReg) (m : MReg) (s : State) : Out :=
  unary (.vfexp2 t rm d a m) FForm.exp2Op t rm d a m s
def execVflog2 (t : Ty) (rm : Rmo) (d a : VReg) (m : MReg) (s : State) : Out :=
  unary (.vflog2 t rm d a m) FForm.log2Op t rm d a m s

/-! ### Conversion (R173, R174) -/

/-- The exact value of a lane in type `t`. -/
def laneVal (st : Strand) (t : Ty) (v l : Nat) : FVal :=
  match tyKind t with
  | .int i => .ofInt (i.read (st.elem t v l))
  | .fp f => f.decode (st.elem t v l)
  | .lns => lnsVal (st.elem t v l) (st.scale v l)

/-- The scale that MODE gives a block of a conversion to LNS6, or its own. -/
def blockScale (s : State) (mode : CvtMode) (st : Strand) (j : Nat) (vals : List FVal) : Int :=
  match mode with
  | .gs r => signed8 (s.rd r).toNat
  | .gv v => signed8 (st.box v (j * st.blen))
  | _ => lnsOwnScale vals

def cvtRm (st : Strand) : CvtMode → RM
  | .round r => st.mode r
  | _ => .rne

/-- One lane of a conversion whose destination is not LNS6. DESIGN CHOICE, log entry 76: from LNS6 to FP32 the mode rounds (R16, R174). -/
def cvtLane (dt st : Ty) (mode : CvtMode) (m : Strand) (v l : Nat) : FRes :=
  match tyKind dt, tyKind st with
  | .int d, .int i =>
    let x := i.read (m.elem st v l)
    { bits := d.wrap (if mode = .sat then d.clamp x else x) }
  | .int d, _ =>
    let r := (laneVal m st v l).cvtInt (cvtRm m mode) d
    { bits := d.wrap r.1, fl := r.2 }
  | .fp f, .int i => f.ofInt (cvtRm m mode) (i.read (m.elem st v l))
  | .fp f, _ => f.cvt (cvtRm m mode) (laneVal m st v l)
  | .lns, _ => { bits := 0 }

def cvtScal : CvtMode → List SReg
  | .gs r => [r]
  | _ => []

def cvtVec : CvtMode → List VReg
  | .gv v => [v]
  | _ => []

def cvtBody (s0 : State) (dt st : Ty) (mode : CvtMode) (d a : VReg) (lanes : List Nat) (s : State) : State :=
  if dt = .lns6 then
    writeBlocks d (fun m j ls =>
      let vals := ls.map (laneVal m st a)
      let sc := blockScale s0 mode m j vals
      (vals.map (lnsEnc · sc), sc)) lanes s
  else writeLanes dt d (fun m l => cvtLane dt st mode m a l) lanes s

/-- The lanes that a reader of LNS6 or of given scales reads in each register. -/
def cvtReads (m : Strand) (st : Ty) (mode : CvtMode) (a : VReg) (lanes : List Nat) : List Rd :=
  (regsOf st a.val).map (m.rdOf st lanes) ++ (cvtVec mode).map fun v => m.rdScale lanes v.val

def execVcvt (dt st : Ty) (mode : CvtMode) (d a : VReg) (m : MReg) (s : State) : Out :=
  let lanes := s.me.lanes m
  .next (vhead (oddPair dt [d] || oddPair st [a]) (cvtScal mode)
    ((cvtVec mode).map (·.val) ++ regsOf st a.val ++ regsOf dt d.val)
    (fun s' => sweep (.vcvt dt st mode d a m) (s'.me.chunk (isLns dt || isLns st)) lanes (cvtReads s'.me st mode a lanes)
      (cvtBody s' dt st mode d a) s') s)

/-! ### LNS6 arithmetic (R175, R176) -/

def isNar (c : Nat) : Bool := c % 64 = 48
def isLnsZero (c : Nat) : Bool := c % 64 = 16

/-- One lane of `vlmul` against the scale `sc`, the sum of the source scales being `S`. -/
def lmulLane (x y : Nat) (S sc : Int) : FRes :=
  if isNar x || isNar y then { bits := 48, fl := { nv := true } }
  else if isLnsZero x || isLnsZero y then { bits := 16 }
  else
    let sg := if x.testBit 5 != y.testBit 5 then 32 else 0
    let k := lnsLog x + lnsLog y - 4 * (sc - S)
    if k > 15 then { bits := sg + 15, fl := { of := true, nx := true } }
    else if k < -15 then { bits := 16, fl := { uf := true, nx := true } }
    else { bits := sg + (k % 32).toNat }

/-- The largest L of a block's products that have one. -/
def lmulMax (ps : List (Nat × Nat)) : Option Int :=
  ps.foldl (fun (b : Option Int) p =>
    if isNar p.1 || isNar p.2 || isLnsZero p.1 || isLnsZero p.2 then b
    else
      let l := lnsLog p.1 + lnsLog p.2
      some (match b with | none => l | some x => max x l)) none

def lmulBlock (s0 : State) (mode : CvtMode) (a b : VReg) (m : Strand) (j : Nat) (ls : List Nat) : List FRes × Int :=
  let ps := ls.map fun l => (m.elem .lns6 a l, m.elem .lns6 b l)
  let S := m.scale a (j * m.blen) + m.scale b (j * m.blen)
  let own := match lmulMax ps with
    | none => 0
    | some l => max (-128) (min 127 (S + l / 4 - 3))
  let sc := match mode with
    | .own => own
    | _ => blockScale s0 mode m j []
  (ps.map fun p => lmulLane p.1 p.2 S sc, sc)

def laddBlock (s0 : State) (mode : CvtMode) (a b : VReg) (m : Strand) (j : Nat) (ls : List Nat) : List FRes × Int :=
  let vals := ls.map fun l => ((laneVal m .lns6 a l).add .rne (laneVal m .lns6 b l)).1
  let sc := blockScale s0 mode m j vals
  (vals.map (lnsEnc · sc), sc)

def lnsHead (i : Instr) (t : Ty) (mode : CvtMode) (d a b : VReg) (m : MReg)
    (f : State → Strand → Nat → List Nat → List FRes × Int) (s : State) : Out :=
  let lanes := s.me.lanes m
  .next (vhead (s.me.badTy t isLns) (cvtScal mode) ((cvtVec mode).map (·.val) ++ [b.val, a.val, d.val])
    (fun s' => sweep i (s'.me.chunk true) lanes
      ([a.val, b.val].map (s'.me.rdOf .lns6 lanes) ++ (cvtVec mode).map fun v => s'.me.rdScale lanes v.val)
      (writeBlocks d (f s')) s') s)

def givenMode : VSrc → CvtMode
  | .scal r => .gs r
  | .vec v => .gv v

def execVlmul (t : Ty) (d a b : VReg) (m : MReg) (s : State) : Out :=
  lnsHead (.vlmul t d a b m) t .own d a b m (fun s0 => lmulBlock s0 .own a b) s
def execVlmulGiven (t : Ty) (g : VSrc) (d a b : VReg) (m : MReg) (s : State) : Out :=
  lnsHead (.vlmulGiven t g d a b m) t (givenMode g) d a b m (fun s0 => lmulBlock s0 (givenMode g) a b) s
def execVladd (t : Ty) (d a b : VReg) (m : MReg) (s : State) : Out :=
  lnsHead (.vladd t d a b m) t .own d a b m (fun s0 => laddBlock s0 .own a b) s
def execVladdGiven (t : Ty) (g : VSrc) (d a b : VReg) (m : MReg) (s : State) : Out :=
  lnsHead (.vladdGiven t g d a b m) t (givenMode g) d a b m (fun s0 => laddBlock s0 (givenMode g) a b) s

/-! ### Compares (R177) -/

/-- The outcome of a comparison of two floating values, and whether it sets NV; an LNS6 NaR always sets NV. -/
def cmpFloat (cc : VCc) (lns : Bool) (a b : FVal) : Bool × Bool :=
  let un := a.isNan || b.isNan
  let o := a.cmp b
  let r := match cc with
    | .eq => !un && o == .eq
    | .ne => un || o != .eq
    | .lt => !un && o == .lt
    | .le => !un && o != .gt
    | .gt => !un && o == .gt
    | .ge => !un && o != .lt
    | .un => un
  let quiet := cc = .eq || cc = .ne || cc = .un
  (r, if lns || !quiet then un else a.isSig || b.isSig)

def cmpInt (cc : VCc) (a b : Int) : Bool :=
  match cc with
  | .eq => a = b
  | .ne => a ≠ b
  | .lt => a < b
  | .le => a ≤ b
  | .gt => a > b
  | .ge => a ≥ b
  | .un => false

def YSrc.value (y : YSrc) (m : Strand) (t : Ty) (l : Nat) : FVal :=
  match tyKind t with
  | .int i => .ofInt (i.read (y.get m t l))
  | .fp f => f.decode (y.get m t l)
  | .lns => lnsVal (y.get m t l) (y.scale m l)

def cmpLane (cc : VCc) (t : Ty) (m : Strand) (a : VReg) (y : YSrc) (l : Nat) : Bool × Bool :=
  match tyKind t with
  | .int i => (cmpInt cc (i.read (m.elem t a l)) (i.read (y.get m t l)), false)
  | _ => cmpFloat cc (t = .lns6) (laneVal m t a l) (y.value m t l)

/-- Writes the outcomes of the active lanes; with Z every other bit is written 0. -/
def cmpBody (cc : VCc) (z : Bool) (d : MReg) (a : VReg) (y : YSrc) (e : Ty) (lanes : List Nat) (s : State) : State :=
  let rs := lanes.map fun l => (l, cmpLane cc e s.me a y l)
  let ones := laneSet ((rs.filter (·.2.1)).map (·.1))
  let old := if z then 0 else s.me.mask d &&& ~~~laneSet lanes
  addFlags { nv := rs.any (·.2.2) } (setMask d (old ||| ones) s)

/-- A compare is one unit, so that Z acts once (R164, R177). -/
def cmpVec (i : Instr) (cc : VCc) (t : Ty) (z : Bool) (rs : List SReg) (y : YSrc) (bad : Ty → Bool) (d : MReg) (a : VReg)
    (m : MReg) (s : State) : State :=
  let e := s.me.elemTy t
  let ys := match y with
    | .vec v => regsOf e v
    | .val _ => []
  let oddY := match y with
    | .vec v => isPair e && v % 2 = 1
    | .val _ => false
  let lanes := s.me.lanes m
  vhead (s.me.badTy t anyTy || oddPair e [a] || oddY || bad e || (cc = .un && isInt e)) rs (ys ++ regsOf e a.val)
    (sweep i 4096 lanes ((regsOf e a.val ++ ys).map (s.me.rdOf e lanes)) (cmpBody cc z d a y e)) s

def execVcmp (cc : VCc) (t : Ty) (z : Bool) (d : MReg) (a : VReg) (y : VSrc) (m : MReg) (s : State) : Out :=
  .next (cmpVec (.vcmp cc t z d a y m) cc t z (vsrcScal y) (s.yOf y) (fun _ => false) d a m s)
def execVcmpImm (cc : VCc) (t : Ty) (z : Bool) (d : MReg) (a : VReg) (x : Imm) (m : MReg) (s : State) : Out :=
  .next (cmpVec (.vcmpImm cc t z d a x m) cc t z [] (immY (s.me.elemTy t) x) (fun e => badImm e x) d a m s)

/-! ### Moves (R183, R184) -/

/-- Writes y to the listed lanes: as elements, or as LNS6 codes with the scale of y in each block (R165, R474). -/
def putY (y : YSrc) (e : Ty) (d : VReg) (lanes : List Nat) (m : Strand) : Strand :=
  let xs := lanes.map fun l => (l, y.get m e l)
  if e = .lns6 then m.putLns d xs (fun j => y.scale m (j * m.blen)) else m.setElems e d xs

def movVec (i : Instr) (t : Ty) (rs : List SReg) (y : YSrc) (bad : Ty → Bool) (d : VReg) (m : MReg) (s : State) : State :=
  lanewise i anyTy t bad rs [] y d m (fun e lanes s => s.modMe (putY y e d lanes)) s

def execVmov (t : Ty) (d : VReg) (y : VSrc) (m : MReg) (s : State) : Out :=
  .next (movVec (.vmov t d y m) t (vsrcScal y) (s.yOf y) (fun _ => false) d m s)
def execVmovImm (t : Ty) (d : VReg) (x : Imm) (m : MReg) (s : State) : Out :=
  .next (movVec (.vmovImm t d x m) t [] (immY (s.me.elemTy t) x) (fun e => badImm e x) d m s)

def execVid (t : Ty) (d : VReg) (m : MReg) (s : State) : Out :=
  .next (lanewise (.vid t d m) isInt t (fun _ => false) [] [] (.val 0) d m
    (fun e => writeLanes e d fun _ l => { bits := l }) s)

/-- The scale that `vsel` leaves in a block (R165, R474): that of a scalar or immediate y where an active lane takes y, else that of the
sources that the active lanes take. DESIGN CHOICE, log entry 68: the manual states no scale where those differ; it is a free value. -/
def selScale (m : Strand) (y : YSrc) (a : VReg) (draw bl : Nat) (takesA : Nat → Bool) (lanes : List Nat) (j : Nat) : Int :=
  let ls := lanes.filter (· / bl = j)
  let sa := m.scale a (j * bl)
  let sy := y.scale m (j * bl)
  if ls.all takesA then sa
  else match y with
    | .val _ => sy
    | .vec _ => if ls.any takesA && sa ≠ sy then signed8 (Config.mixedScale draw j).toNat else sy

/-- `vsel`: the named mask selects; with m = 0 every lane takes va. Both sources are read in every active lane before either is
written (R163). -/
def selVec (i : Instr) (t : Ty) (rs : List SReg) (y : YSrc) (bad : Ty → Bool) (d a : VReg) (m : MReg) (s : State) : State :=
  let e := s.me.elemTy t
  let ys := match y with
    | .vec v => regsOf e v
    | .val _ => []
  let oddY := match y with
    | .vec v => isPair e && v % 2 = 1
    | .val _ => false
  let takesA (l : Nat) : Bool := m.val = 0 || (s.me.mask m).getLsbD l
  let lanes := s.me.lanesOf s.me.top
  vhead (s.me.badTy t anyTy || oddPair e [d, a] || oddY || bad e) rs (ys ++ regsOf e a.val ++ regsOf e d.val)
    (sweep i (s.me.chunk (isLns e)) lanes ((regsOf e a.val ++ ys).map (s.me.rdOf e lanes))
      fun g s =>
        let st := s.me
        let xs := g.map fun l => (l, if takesA l then st.elem e a l else y.get st e l)
        if e = .lns6 then
          { s with me := st.putLns d xs (selScale st y a s.draws st.blen takesA g), draws := s.draws + 1 }
        else { s with me := st.setElems e d xs }) s

def execVsel (t : Ty) (d a : VReg) (y : VSrc) (m : MReg) (s : State) : Out :=
  .next (selVec (.vsel t d a y m) t (vsrcScal y) (s.yOf y) (fun _ => false) d a m s)
def execVselImm (t : Ty) (d a : VReg) (x : Imm) (m : MReg) (s : State) : Out :=
  .next (selVec (.vselImm t d a x m) t [] (immY (s.me.elemTy t) x) (fun e => badImm e x) d a m s)

end Sys2Proof.Machine
end

