-- ==== Sys2Proof/Machine/Permute.lean ====
section
/-! DEFINITION. Vector length and type (R167, R168), mask logicals (R178, R179), the mask stack (R180 to R182), permutes (R185 to
R191), reductions and votes (R80, R81, R192, R193). -/

namespace Sys2Proof.Machine
open Sys2Proof

/-! ### Vector length and type -/

/-- The grant of `vsetvl` (R167). -/
def grantVl (vlmax r : Nat) (pad : Bool) (vt : VType) : Nat :=
  let g := min r vlmax
  if vt.fmt = .lns6 && !pad then g - g % blenVal vt.blen else g

/-- Heads that the front end completes (R262): VSTART stays. -/
def vsetBody (pad : Bool) (d a : SReg) (vt : VType) (s : State) : State :=
  let g := grantVl s.me.vlmax (s.rd a).toNat pad vt
  finish ((s.modMe fun m => { m with vtype := vt, vl := g }).wr d (word g))

def execVsetvl (pad : Bool) (d a : SReg) (s : State) : Out :=
  .next (vhead false [a] [] (fun s => vsetBody pad d a s.me.vtype s) s)
def execVsetvlType (pad : Bool) (d a : SReg) (vt : VType) (s : State) : Out :=
  .next (vhead false [a] [] (vsetBody pad d a vt) s)

/-- R168: bits outside the fields must be zero; the value is judged when it can be read. -/
def execVsettype (a : SReg) (s : State) : Out :=
  let x := (s.rd a).toNat
  .next (checked [notOnSteward s, valueIllegal s [a] (x / 2 ^ 14 ≠ 0 || (vtypeOf x).isNone)] (vhead false [a] []
    (fun s => finish (s.modMe fun m => { m with vtype := (vtypeOf x).getD m.vtype }))) s)

def execVsettypeImm (vt : VType) (s : State) : Out :=
  .next (vhead false [] [] (fun s => finish (s.modMe fun m => { m with vtype := vt })) s)

/-! ### Mask logicals (R178, R179) -/

/-- Bits 0 to VL − 1 are written, the others kept. -/
def maskOp (i : Instr) (f : Mask → Mask → Mask) (d a b : MReg) (s : State) : Out :=
  .next (vhead false [] [] (fun s =>
    whole i (List.range (min s.me.vl 1)) [] (fun s =>
      let low : Mask := BitVec.ofNat 1024 (2 ^ s.me.vl - 1)
      setMask d ((s.me.mask d &&& ~~~low) ||| (f (s.me.mask a) (s.me.mask b) &&& low)) s) s) s)

def execMand (d a b : MReg) (s : State) : Out := maskOp (.mand d a b) (· &&& ·) d a b s
def execMor (d a b : MReg) (s : State) : Out := maskOp (.mor d a b) (· ||| ·) d a b s
def execMxor (d a b : MReg) (s : State) : Out := maskOp (.mxor d a b) (· ^^^ ·) d a b s
def execMnot (d a : MReg) (s : State) : Out := maskOp (.mnot d a) (fun x _ => ~~~x) d a a s

/-- A whole instruction whose scalar result is found from the active lanes and a mask. -/
def voteOp (i : Instr) (d : SReg) (a : MReg) (m : MReg) (f : List Nat → (Nat → Bool) → Word) (s : State) : Out :=
  .next (vhead false [] [] (fun s =>
    let lanes := s.me.lanes m
    whole i lanes [] (fun s => s.wr d (f lanes (s.me.mask a).getLsbD)) s) s)

def execMpop (d : SReg) (a : MReg) (m : MReg) (s : State) : Out :=
  voteOp (.mpop d a m) d a m (fun ls k => word (ls.countP k)) s
def execMfirst (d : SReg) (a : MReg) (m : MReg) (s : State) : Out :=
  voteOp (.mfirst d a m) d a m (fun ls k => match ls.find? k with
    | some l => word l
    | none => BitVec.allOnes 64) s
def execVany (d : SReg) (a : MReg) (m : MReg) (s : State) : Out :=
  voteOp (.vany d a m) d a m (fun ls k => word (ls.any k).toNat) s
def execVall (d : SReg) (a : MReg) (m : MReg) (s : State) : Out :=
  voteOp (.vall d a m) d a m (fun ls k => word (ls.all k).toNat) s

/-! ### The mask stack -/

def execVif (neg : Bool) (a : MReg) (s : State) : Out :=
  .next (vhead false [] [] (fun s =>
    if s.me.mstack.length ≥ 16 then takeTrap { cause := .mstackOvf } s
    else
      let k := s.me.mask a
      let new := s.me.top &&& (if neg then ~~~k else k) &&& s.me.laneMask
      vdone (s.modMe fun m => { m with mstack := ⟨new, m.vtype⟩ :: m.mstack })) s)

/-- R181: the parent is the entry below, or all ones. -/
def execVelse (s : State) : Out :=
  .next (vhead false [] [] (fun s =>
    match s.me.mstack with
    | [] => takeTrap { cause := .mstackUnf } s
    | e :: rest =>
      let parent := match rest with
        | p :: _ => p.mask
        | [] => s.me.laneMask
      vdone (s.modMe fun m => { m with mstack := ⟨parent &&& ~~~e.mask, e.vtype⟩ :: rest, vtype := e.vtype })) s)

def execVend (s : State) : Out :=
  .next (vhead false [] [] (fun s =>
    match s.me.mstack with
    | [] => takeTrap { cause := .mstackUnf } s
    | e :: rest => vdone (s.modMe fun m => { m with mstack := rest, vtype := e.vtype })) s)

/-! ### Permutes -/

/-- A source lane read by index: the containers, and whether DL is set. -/
def readIndex (m : Strand) (e : Ty) (v i : Nat) : Nat × Bool :=
  if i ≥ m.vl then (0, false) else if m.deadmask.getLsbD i then (0, true) else (m.boxes e v i, false)

/-- A permute of va: `pick` answers, for the active lanes, each written lane and its source index. -/
def permute (i : Instr) (t : Ty) (rs : List SReg) (vs : List VReg) (idx : List VReg) (d a : VReg) (m : MReg)
    (pick : Strand → List Nat → List (Nat × Nat)) (s : State) : State :=
  let e := s.me.elemTy t
  let lanes := s.me.lanes m
  let ps := pick s.me lanes
  let live := ps.filter fun p => p.2 < s.me.vl && !s.me.deadmask.getLsbD p.2
  vhead (s.me.badTy t anyTy || oddPair e [d, a]) rs ((vs.map (·.val)) ++ regsOf e a.val ++ regsOf e d.val)
    (whole i lanes ((idx.map fun v => .own lanes v.val) ++ (regsOf e a.val).map fun v => ⟨v, live⟩) (fun s =>
      let rd := ps.map fun p => (p.1, readIndex s.me e a p.2)
      addFlags { dl := rd.any (·.2.2) } (s.modMe fun st => st.put e d (rd.map fun p => (p.1, p.2.1))))) s

def execVperm (t : Ty) (d a b : VReg) (m : MReg) (s : State) : Out :=
  .next (permute (.vperm t d a b m) t [] [b] [b] d a m (fun st ls => ls.map fun l => (l, st.box b l)) s)

def slideUp (k : Nat) (ls : List Nat) : List (Nat × Nat) := (ls.filter (k ≤ ·)).map fun l => (l, l - k)
def slideDown (k : Nat) (ls : List Nat) : List (Nat × Nat) := ls.map fun l => (l, l + k)
def allFrom (k : Nat) (ls : List Nat) : List (Nat × Nat) := ls.map fun l => (l, k)

def execVslideup (t : Ty) (d a : VReg) (b : SReg) (m : MReg) (s : State) : Out :=
  .next (permute (.vslideup t d a b m) t [b] [] [] d a m (fun _ => slideUp (s.rd b).toNat) s)
def execVslideupImm (t : Ty) (d a : VReg) (x : Imm) (m : MReg) (s : State) : Out :=
  .next (permute (.vslideupImm t d a x m) t [] [] [] d a m (fun _ => slideUp x.toNat) s)
def execVslidedn (t : Ty) (d a : VReg) (b : SReg) (m : MReg) (s : State) : Out :=
  .next (permute (.vslidedn t d a b m) t [b] [] [] d a m (fun _ => slideDown (s.rd b).toNat) s)
def execVslidednImm (t : Ty) (d a : VReg) (x : Imm) (m : MReg) (s : State) : Out :=
  .next (permute (.vslidednImm t d a x m) t [] [] [] d a m (fun _ => slideDown x.toNat) s)
def execVbcast (t : Ty) (d a : VReg) (b : SReg) (m : MReg) (s : State) : Out :=
  .next (permute (.vbcast t d a b m) t [b] [] [] d a m (fun _ => allFrom (s.rd b).toNat) s)
def execVbcastImm (t : Ty) (d a : VReg) (x : Imm) (m : MReg) (s : State) : Out :=
  .next (permute (.vbcastImm t d a x m) t [] [] [] d a m (fun _ => allFrom x.toNat) s)

/-- R190: the k-th active lane receives the element at index k. -/
def execVexpand (t : Ty) (d a : VReg) (m : MReg) (s : State) : Out :=
  .next (permute (.vexpand t d a m) t [] [] [] d a m (fun _ ls => (ls.zipIdx).map fun p => (p.1, p.2)) s)

/-- R189: every active lane is read before vd and vx are written. -/
def execVcompress (t : Ty) (d x a : VReg) (c : SReg) (m : MReg) (s : State) : Out :=
  let e := s.me.elemTy t
  let lanes := s.me.lanes m
  let n := lanes.length
  .next (vhead (s.me.badTy t anyTy || oddPair e [d, a] || d = x || (isPair e && x.val = d.val + 1)) []
    ([x.val] ++ regsOf e a.val ++ regsOf e d.val)
    (whole (.vcompress t d x a c m) lanes ((regsOf e a.val).map (.own lanes)) (fun s =>
      let vals := lanes.map (s.me.boxes e a)
      let s := s.modMe fun st => (st.put e d ((vals.zipIdx).map fun p => (p.2, p.1)))
      let s := s.modMe fun st => { st.put .u32 x ((lanes.zipIdx).map fun p => (p.2, p.1)) with vl := n }
      s.wr c (word n))) s)

/-- R191. -/
def execViota (t : Ty) (d : VReg) (a : MReg) (m : MReg) (s : State) : Out :=
  let e := s.me.elemTy t
  let lanes := s.me.lanes m
  .next (vhead (s.me.badTy t isInt || oddPair e [d]) [] (regsOf e d.val)
    (whole (.viota t d a m) lanes [] (fun s =>
      let k := s.me.mask a
      s.modMe fun st => st.setElems e d ((lanes.zipIdx).map fun p => (p.1, (lanes.take p.2).countP k.getLsbD)))) s)

/-! ### `vmovs` (R185, R474) -/

/-- The 64-bit scalar of an element: integers by signedness, an LNS6 container with its block's scale. -/
def scalarOf (m : Strand) (e : Ty) (v i : Nat) : Word :=
  match tyKind e with
  | .int j => BitVec.ofInt 64 (j.read (m.elem e v i))
  | .fp _ => word (m.elem e v i)
  | .lns => word (m.lnsBox v i)

def movsExt (i : Instr) (t : Ty) (rs : List SReg) (d : SReg) (a : VReg) (j : Nat) (s : State) : State :=
  let e := s.me.elemTy t
  let dead := j < s.me.vl && s.me.deadmask.getLsbD j
  let live := j < s.me.vl && !dead
  vhead (s.me.badTy t anyTy || oddPair e [a]) rs (regsOf e a.val)
    (whole i (if live then [j] else []) ((regsOf e a.val).map (s.me.rdOf e (if live then [j] else []))) (fun s =>
      addFlags { dl := dead } (s.wr d (if live then scalarOf s.me e a j else 0)))) s

def movsIns (i : Instr) (t : Ty) (rs : List SReg) (d : VReg) (a : SReg) (j : Nat) (s : State) : State :=
  let e := s.me.elemTy t
  let live := j < s.me.vl && !s.me.deadmask.getLsbD j
  let x := (s.rd a).toNat
  vhead (s.me.badTy t anyTy || oddPair e [d]) rs (regsOf e d.val)
    (whole i (if live then [j] else []) [] (fun s =>
      if !live then s
      else s.modMe fun m => if e = .lns6 then m.putLns d [(j, x)] (fun _ => signed8 (x / 256)) else m.setElems e d [(j, x)])) s

def execVmovs (t : Ty) (op : MovS) (b : SReg) (s : State) : Out :=
  .next (match op with
    | .ext d a => movsExt (.vmovs t op b) t [b] d a (s.rd b).toNat s
    | .ins d a => movsIns (.vmovs t op b) t [a, b] d a (s.rd b).toNat s)

def execVmovsImm (t : Ty) (op : MovS) (x : Imm) (s : State) : Out :=
  .next (match op with
    | .ext d a => movsExt (.vmovsImm t op x) t [] d a x.toNat s
    | .ins d a => movsIns (.vmovsImm t op x) t [a] d a x.toNat s)

/-! ### Reductions (R80, R81, R192) -/

/-- One level of the tree: neighbours are added, an absent one leaves the other. -/
def treeLevel (rm : RM) : List (Option Nat) → List (Option Nat) × FFlags
  | some x :: some y :: t =>
    let r := FForm.f32.addOp rm (FForm.f32.decode x) (FForm.f32.decode y)
    let k := treeLevel rm t
    (some r.bits :: k.1, r.fl.or k.2)
  | some x :: none :: t => let k := treeLevel rm t; (some x :: k.1, k.2)
  | none :: y :: t => let k := treeLevel rm t; (y :: k.1, k.2)
  | [x] => ([x], {})
  | [] => ([], {})

/-- `n` levels. -/
def tree (rm : RM) : Nat → List (Option Nat) → FFlags → Option Nat × FFlags
  | 0, l, f => (l.headD none, f)
  | n + 1, l, f => let k := treeLevel rm l; tree rm n k.1 (f.or k.2)

/-- The sum of R80 over the active lanes, each with its FP32 value. -/
def sumTree (rm : RM) (vl : Nat) (vals : List (Nat × Nat)) (init : Nat) : FRes :=
  let leaves := (List.range vl).map fun l => (vals.find? (·.1 = l)).map (·.2)
  match tree rm 10 leaves {} with
  | (none, _) => { bits := init }
  | (some x, f) =>
    let r := FForm.f32.addOp rm (FForm.f32.decode init) (FForm.f32.decode x)
    { r with fl := r.fl.or f }

/-- An element as FP32 (R80): exact, but for the decoding of an LNS6 code. -/
def elemF32 (m : Strand) (e : Ty) (v l : Nat) : FRes :=
  match tyKind e with
  | .fp f => if f = .f32 then { bits := m.elem e v l } else FForm.f32.cvt .rne (f.decode (m.elem e v l))
  | .lns => lnsToF32 (m.elem e v l) (m.scale v l)
  | .int _ => { bits := 0 }

inductive Red where
  | sum | max | min
  deriving DecidableEq, Repr

/-- A floating or LNS6 reduction of the active lanes. -/
def redFloat (op : Red) (m : Strand) (e : Ty) (v : Nat) (lanes : List Nat) (init : Nat) : FRes :=
  let xs : List FRes := lanes.map (elemF32 m e v)
  let fl := orFlags xs
  let r := match op with
    | .sum => sumTree m.frm m.vl (lanes.zip (xs.map FRes.bits)) init
    | .max => xs.foldl (fun (r x : FRes) => let k := FForm.f32.minMax true r.bits x.bits; { bits := k.bits, fl := r.fl.or k.fl }) { bits := init }
    | .min => xs.foldl (fun (r x : FRes) => let k := FForm.f32.minMax false r.bits x.bits; { bits := k.bits, fl := r.fl.or k.fl }) { bits := init }
  { r with fl := r.fl.or fl }

/-- An integer reduction, its result at 64 bits, and IOV (R54). -/
def redInt (op : Red) (i : IntTy) (xs : List Int) (init : Nat) : Nat × Bool :=
  let acc : IntTy := if i.w = 64 then i else ⟨32, i.sgn⟩
  let x0 := acc.read init
  let r := match op with
    | .sum => xs.foldl (· + ·) x0
    | .max => xs.foldl max x0
    | .min => xs.foldl min x0
  ((IntTy.mk 64 false).wrap (acc.read (acc.wrap r)), acc.w = 32 && (r < acc.lo || r > acc.hi))

def reduce (i : Instr) (op : Red) (t : Ty) (d : SReg) (a : VReg) (b : SReg) (m : MReg) (s : State) : Out :=
  let e := s.me.elemTy t
  let lanes := s.me.lanes m
  .next (vhead (s.me.badTy t anyTy || oddPair e [a]) [b] (regsOf e a.val)
    (whole i lanes ((regsOf e a.val).map (s.me.rdOf e lanes)) (fun s =>
      match tyKind e with
      | .int j =>
        let r := redInt op j (lanes.map fun l => j.read (s.me.elem e a l)) (s.rd b).toNat
        addFlags { iov := r.2 } (s.wr d (word r.1))
      | _ =>
        let r := redFloat op s.me e a lanes ((s.rd b).toNat % 2 ^ 32)
        addFlags r.fl (s.wr d (word r.bits)))) s)

def execVredsum (t : Ty) (d : SReg) (a : VReg) (b : SReg) (m : MReg) (s : State) : Out :=
  reduce (.vredsum t d a b m) .sum t d a b m s
def execVredmax (t : Ty) (d : SReg) (a : VReg) (b : SReg) (m : MReg) (s : State) : Out :=
  reduce (.vredmax t d a b m) .max t d a b m s
def execVredmin (t : Ty) (d : SReg) (a : VReg) (b : SReg) (m : MReg) (s : State) : Out :=
  reduce (.vredmin t d a b m) .min t d a b m s

end Sys2Proof.Machine
end

