-- ==== Sys2Proof/Machine/Access.lean ====
section
/-! DEFINITION. Accesses of many pieces: the judgement of every lane's address before any of them acts (R202, R203), poison of
memory data (R204), and the plain view of compressed surfaces (R289 to R293, R400). -/

namespace Sys2Proof.Machine
open Sys2Proof

def Spc.code : Spc → Nat
  | .gen => 0 | .sp => 1 | .ll => 2

inductive Judged where
  | ok (w : Where)
  | bad (c : Cause) (reason : Nat) (addr : Word)
  | stall2 (ipa : Nat)
  | stallPri (iova : Nat)
  deriving DecidableEq, Repr

/-- The key of an offset of a lane's slice of the lane-local store (R198): slices stand strand by strand, lane by lane. -/
def State.llKey (s : State) (lane off : Nat) : Nat :=
  laneKey s.me.core (s.myCrew.llBase + (s.me.index * s.me.vlmax + lane) * s.myCrew.decl.llbytes + off)

/-- The judgement of one piece (R198, R199, R203). -/
def judge (s : State) (spc : Spc) (acc : Acc) (plainOk : Bool) (p : Piece) : Judged :=
  let a := p.addr.toNat
  if a % p.align ≠ 0 then .bad .misaligned 0 p.addr
  else match spc with
    | .sp => if a + p.n ≤ s.myCrew.decl.spbytes then .ok (.cell (s.csp a)) else .bad .access 2 p.addr
    | .ll => if a + p.n ≤ s.myCrew.decl.llbytes then .ok (.cell (s.llKey p.lane a)) else .bad .access 3 p.addr
    | .gen =>
      match translate s s.ctx acc a with
      | .fault c r x => .bad c r ((x.map word).getD p.addr)
      | .stall2 i => .stall2 i
      | .stallPri i => .stallPri i
      | .ok (.cell k) => .ok (.cell k)
      | .ok (.plain v f o) => if plainOk then .ok (.plain v f o) else .bad .access 4 p.addr
      | .ok (.reg ..) => .bad .access 1 p.addr

/-- The order of R203. -/
def causeRank : Cause → Nat
  | .oobIndex => 0
  | .misaligned => 1
  | .access => 2
  | .pageFault => 3
  | _ => 4

/-- DETAIL of an access trap (R203). -/
def accessDetail (c : Cause) (reason : Nat) (idx : Bool) (spc : Spc) (wr : Bool) : Nat :=
  (if c = .access then reason * 16 else 0) + faultDetail idx spc.code wr

def minWord (l : List Word) : Word := match l with
  | [] => 0
  | a :: t => t.foldl (fun x y => if y.ult x then y else x) a

/-- Failing lanes: cause, reason, address and lane of each. -/
abbrev Failing := List (Cause × Nat × Word × Nat)

/-- The trap of R203 over the failing lanes: the first cause in the order, its lanes, and its lowest address. -/
def worst (fs : Failing) (idx : Bool) (spc : Spc) (wr : Bool) : Option Trap :=
  match fs with
  | [] => none
  | f :: _ =>
    let c := fs.foldl (fun c x => if causeRank x.1 < causeRank c then x.1 else c) f.1
    let mine := fs.filter (·.1 = c)
    let addr := minWord (mine.map (·.2.2.1))
    let reason := ((mine.find? (·.2.2.1 = addr)).map (·.2.1)).getD 0
    some { cause := c, detail := accessDetail c reason idx spc wr, addr := addr, lanes := laneSet (mine.map (·.2.2.2)) }

/-- What a piece leads to, in order. -/
abbrev Placed := List (Piece × Where)

def touchAll (pw : Placed) (s : State) : State :=
  pw.foldl (fun s e => match e.2 with
    | .cell k => touch k s
    | .plain .. => s) s

/-- The failing lanes among judged pieces. -/
def failing (js : List (Piece × Judged)) : Failing :=
  js.filterMap fun e => match e.2 with
    | .bad c r a => some (c, r, a, e.1.lane)
    | _ => none

/-- Lanes whose pieces wait for the page that `f` picks. -/
def stalledLanes (js : List (Piece × Judged)) (f : Judged → Bool) : Mask :=
  laneSet (js.filterMap fun e => if f e.2 then some e.1.lane else none)

/-- Judges every piece and goes on with their places; an access that reads also waits for a device that cannot be reached (R457). An
index or an alignment that fails traps at once; every page that the addresses touch has its answer before any other cause is taken
(R202, R203). -/
def withPlaces (ps : List Piece) (spc : Spc) (acc : Acc) (idx plainOk : Bool) (k : Placed → State → State) (s : State) : State :=
  let js := ps.map fun p => (p, judge s spc acc plainOk p)
  let bad := worst (failing js) idx spc acc.w
  let stalled := js.find? fun e => match e.2 with
    | .stall2 _ => true
    | .stallPri _ => true
    | _ => false
  match bad, (if bad.any fun t => causeRank t.cause < 2 then none else stalled) with
  | _, some (p, .stall2 i) =>
    stallS2For (stalledLanes js fun j => match j with
      | .stall2 x => x / 65536 = i / 65536
      | _ => false) i (if acc.w then 1 else 0) p.addr idx s
  | _, some (p, .stallPri i) =>
    stallPriFor (stalledLanes js fun j => match j with
      | .stallPri x => x / 65536 = i / 65536
      | _ => false) i p.addr acc.w idx s
  | some t, _ => takeTrap t s
  | none, _ =>
      let pw : Placed := js.filterMap fun e => match e.2 with
        | .ok w => some (e.1, w)
        | _ => none
      match (if acc.r then pw.find? fun e => match e.2 with
          | .cell k => (lostDevice s k).isSome
          | .plain .. => false else none) with
      | some (p, .cell k) => beginWait (.remote ((lostDevice s k).getD 0) p.addr) s
      | _ => k pw (touchAll pw s)

/-- Range pieces that end at 64 KiB page boundaries. -/
def splitPages (lane tag align : Nat) : Nat → Word → Nat → List Piece
  | 0, _, _ => []
  | f + 1, a, n =>
    if n = 0 then []
    else
      let room := 65536 - a.toNat % 65536
      if n ≤ room then [{ lane := lane, tag := tag, addr := a, n := n, align := align }]
      else { lane := lane, tag := tag, addr := a, n := room, align := align }
        :: splitPages lane tag 1 f (a + word room) (n - room)

/-! ### The plain view -/

/-- Bytes of the packed view as the shared cache reads them, through the reader's translation; none where a sector is
poisoned. Reads of up to 64 bytes at their own alignment do not cross a page. -/
def readPacked (s : State) (c : Ctx) (va n : Nat) : Xl (Option (List Byte)) :=
  match translate s c .rd va with
  | .ok (.cell k) => .ok (if s.poisoned k n then none else some (s.homeBytes k n))
  | .ok _ => .fault .access 4 (some va)
  | .fault x r a => .fault x r (some (a.getD va))
  | .stall2 i => .stall2 i
  | .stallPri i => .stallPri i

/-- A payload unit; none when it does not lie in the packed view (R292). -/
def packedUnit (s : State) (c : Ctx) (f : Surface) (u : Nat) : Xl (Option (List Byte)) :=
  readPacked s c (f.packed.toNat + 64 * u) 64

/-- One plain sector of a surface (R290 to R292): its 64 bytes, or none for a malformed block. -/
def decodeSector (s : State) (c : Ctx) (f : Surface) (sector : Nat) : Xl (Option (List Byte)) :=
  let b := sector / 64
  let j := sector % 64
  (readPacked s c (f.packed.toNat + 8 * b) 8).bind fun e =>
    match e with
    | none => .ok none
    | some bytes =>
      let x := leVal bytes
      let codec := bits x 47 44
      let len := bits x 43 36
      let off := bits x 35 0
      let inside : Bool := 8 * f.blocks ≤ 64 * off && 64 * (off + len) ≤ f.packedBytes
      if bits x 63 48 ≠ 0 then .ok none
      else match codec with
        | 0 => if len = 64 && inside then packedUnit s c f (off + j) else .ok none
        | 1 => .ok (if len = 0 && off = 0 then some (zeros 64) else none)
        | 2 =>
          if !inside || len = 0 then .ok none
          else (packedUnit s c f off).bind fun u =>
            match u with
            | none => .ok none
            | some bs =>
              let mask := leVal (bs.take 8)
              if len ≠ 1 + popcount mask 64 || !((bs.drop 8).all (· = 0)) then .ok none
              else if mask.testBit j then packedUnit s c f (off + 1 + popcount mask j)
              else .ok (some (zeros 64))
        | 3 => if len = 1 && inside then packedUnit s c f off else .ok none
        | _ => .ok none

/-- The record of a malformed block at a shared cache (R292, R430); which die's, and the syndrome, are left open. -/
def malformedEvent (p : Nat) (va free : Word) : Event :=
  .errorUncorrectable (488 + free.toNat % 4) { addr := va, struct := 10, group := 0, part := p, synd := free.toNat / 4 % 2 ^ 32 } .other

/-- The held copy of a sector, where one is held. -/
def heldCopy (s : State) (k : Nat × Nat × Nat) : Option (Option (List Byte)) := (s.dcache.find? (·.1 = k)).map (·.2)

/-- The shared cache holds what a sector decodes to now. -/
def holdCopy (c : Ctx) (k : Nat × Nat × Nat) (b : Option (List Byte)) (s : State) : State :=
  let s := { s with dcache := s.dcache.filter (·.1 ≠ k) ++ [(k, b)] }
  let r := draw s
  if b = none then { r.2 with events := s.events ++ [malformedEvent c.part (word (k.2.2 * 64)) r.1] } else s

/-- Decompresses one sector. A copy that is held is used, or has been evicted: which is open where the packed bytes decode to something
else by now (R293). -/
def decodeOne (c : Ctx) (k : Nat × Nat × Nat) (s : State) : Xl State :=
  let now := decodeSector s c (surfaceOf s k.1 k.2.1) k.2.2
  match heldCopy s k with
  | none => now.bind fun b => .ok (holdCopy c k b s)
  | some old =>
    match now with
    | .ok b =>
      if b = old then .ok s
      else .ok (if Config.copyEvicted s.draws then holdCopy c k b { s with draws := s.draws + 1 } else { s with draws := s.draws + 1 })
    | _ => .ok s

/-- Decompresses the sectors of an access; a fault or a stall of the packed view is the answer otherwise. -/
def decodeInto (c : Ctx) : List (Nat × Nat × Nat) → State → Xl State
  | [], s => .ok s
  | k :: t, s => (decodeOne c k s).bind (decodeInto c t)

/-- The plain sectors of a place. -/
def Where.sectors (n : Nat) : Where → List (Nat × Nat × Nat)
  | .cell _ => []
  | .plain v f off => (Machine.sectors off n).map fun x => (v, f, x)

/-- The bytes of a held copy. -/
def plainSector (s : State) (k : Nat × Nat × Nat) : Option (List Byte) := (heldCopy s k).getD none

/-- Plain bytes from held sectors. -/
def plainBytes (s : State) (v f off n : Nat) : List Byte :=
  (List.range n).map fun i => ((plainSector s (v, f, (off + i) / 64)).getD []).getD ((off + i) % 64) 0

/-- The bytes behind a place, as a load of the current strand reads them. -/
def Where.bytes (s : State) (n : Nat) : Where → List Byte
  | .cell k => s.viewBytes s.me.core k n
  | .plain v f off => plainBytes s v f off n

/-- The sectors of memory or of a plain view that a piece reads with an error, by their named address (R204, R292). -/
def poisonAddrs (s : State) (p : Piece) (w : Where) : List Word :=
  match w with
  | .cell k =>
    if s.mpois = [] && s.t2lost = [] then [] else
    ((sectors k p.n).filter (s.badFor s.me.core)).map fun x => word ((p.addr.toNat + (max k (64 * x) - k)) / 64 * 64)
  | .plain v f off =>
    ((sectors off p.n).filter fun x => plainSector s (v, f, x) = none).map fun x =>
      word ((p.addr.toNat + (max off (64 * x) - off)) / 64 * 64)

/-- POISON of memory data (R204). -/
def dataPoison (s : State) (pw : Placed) : Option Trap :=
  let hits := pw.flatMap fun e => (poisonAddrs s e.1 e.2).map fun a => (a, e.1.lane)
  match hits with
  | [] => none
  | _ =>
    let a := minWord (hits.map (·.1))
    some { cause := .poison, addr := a, lanes := laneSet ((hits.filter (·.1 = a)).map (·.2)) }

/-- The judgement of the packed view behind a piece of a plain view: of each of its sectors (R400). -/
def judgePacked (s : State) (pw : Placed) : List (Piece × Judged) :=
  pw.flatMap fun e => (e.2.sectors e.1.n).map fun k =>
    (e.1, match decodeOne s.ctx k s with
      | .ok _ => .ok e.2
      | .fault c r a => .bad c r (word (a.getD 0))
      | .stall2 i => .stall2 i
      | .stallPri i => .stallPri i)

/-- Decompresses what the places need, then checks for errors, then goes on (R204, R292, R400). A fault of the packed view names its
packed address and the lanes that meet it. -/
def withData (pw : Placed) (spc : Spc) (idx : Bool) (k : State → State) (s : State) : State :=
  let js := judgePacked s pw
  match js.find? fun e => match e.2 with
      | .stall2 _ => true
      | .stallPri _ => true
      | _ => false with
  | some (p, .stall2 i) => stallS2For (stalledLanes js (· = .stall2 i)) i 0 p.addr idx s
  | some (p, .stallPri i) => stallPriFor (stalledLanes js (· = .stallPri i)) i p.addr false idx s
  | _ =>
    match worst (failing js) idx spc false with
    | some t => takeTrap t s
    | none =>
      match decodeInto s.ctx (pw.flatMap fun e => e.2.sectors e.1.n) s with
      | .ok s =>
        match dataPoison s pw with
        | some t => takeTrap t s
        | none => k s
      | _ => s

/-- A store instruction whose pieces together cover all 64 bytes of a poisoned sector counts as one store of the sector (R204):
its bytes, which the pieces have stored, are stored once more as a whole. -/
def coverSectors (pw : Placed) (s : State) : State :=
  if s.mpois = [] then s else
  let spans := pw.filterMap fun e => match e.2 with
    | .cell k => some (k, e.1.n, e.1.addr)
    | .plain .. => none
  s.mpois.foldl (fun s x =>
    let near := spans.filter fun (k, n, _) => k < 64 * x + 64 && 64 * x < k + n
    if (List.range 64).all fun i => near.any fun (k, n, _) => k ≤ 64 * x + i && 64 * x + i < k + n then
      let va := ((near.find? fun (k, _, _) => k ≤ 64 * x).map fun (k, _, a) => a + word (64 * x - k)).getD 0
      storeBytes s.me.core s.cur (64 * x) va (s.viewBytes s.me.core (64 * x) 64) s
    else s) s

/-- Fills the first-level lines that the places read (R296). -/
def fillPlaces (pw : Placed) (s : State) : State :=
  pw.foldl (fun s e => match e.2 with
    | .cell k => fillLines s.me.core k e.1.n s
    | .plain .. => s) s

end Sys2Proof.Machine
end

