-- ==== Sys2Proof/Machine/VectorMem.lean ====
section
/-! DEFINITION. Vector memory instructions (R196 to R215): loads and stores, strided and segment forms, gathers and scatters,
linked and conditional forms, LNS6 access, lane-local access, full/empty access and `spclr`. -/

namespace Sys2Proof.Machine
open Sys2Proof

/-- Bytes of an element (R199). -/
def elemBytes (t : Ty) : Nat := tyBits t / 8

/-- Types that every instruction of the chapter but those of R201 accepts. -/
def notLns (t : Ty) : Bool := !isLns t

def spcOf (sp : Bool) : Spc := if sp then .sp else .gen

/-- The checks of a vector memory head: DETAIL 4 before DETAIL 6. -/
def vmhead (bad4 bad6 : Bool) (rs : List SReg) (vs : List Nat) (k : State → State) (s : State) : State :=
  checked [notOnSteward s, trapIf bad4 (illegal 4)] (vhead bad6 rs vs k) s

/-- Writes the loaded elements: each register is a tag. -/
def loadElems (t : Ty) (pw : Placed) (s : State) : State :=
  let vals := pw.map fun e => (e.1.tag, e.1.lane, leVal (e.2.bytes s e.1.n))
  let regs := (vals.map (·.1)).eraseDups
  s.modMe fun m => regs.foldl (fun m r => m.setElems t r ((vals.filter (·.1 = r)).map (·.2))) m

/-- Stores the elements, lane by lane upward, so that the highest lane's bytes remain (R205). -/
def storeElems (t : Ty) (pw : Placed) (s : State) : State :=
  let m := s.me
  pw.foldl (fun s e => match e.2 with
    | .cell k => storeBytes s.me.core s.cur k e.1.addr (leBytes e.1.n (m.elem t e.1.tag e.1.lane)) s
    | .plain .. => s) s

/-- What a memory instruction does once every lane's place is known; `covers` picks the pieces that write every bit of their bytes. -/
structure MemOp where
  spc : Spc
  write : Bool
  idx : Bool := false
  plainOk : Bool := false
  chunk : Nat := 32
  covers : Placed → Placed := id

/-- A load: data poison, then its groups, each committed to its registers (R369). -/
def runLoad (i : Instr) (o : MemOp) (lanes : List Nat) (act : Placed → State → State) (pw : Placed) (s : State) : State :=
  withData pw o.spc o.idx (fun s =>
    sweep i o.chunk lanes [] (fun g s => act (pw.filter fun e => e.1.lane ∈ g) (fillPlaces pw s)) s) s

/-- A store; with its last group, the sectors that all of its groups have covered are no longer poisoned (R204). -/
def runStore (i : Instr) (o : MemOp) (lanes : List Nat) (act : Placed → State → State) (all pw : Placed) (s : State) : State :=
  sweep i o.chunk lanes [] (fun g s =>
    let s := act (pw.filter fun e => e.1.lane ∈ g) s
    if lanes.all (· ∈ g) then coverSectors (o.covers all) s else s) s

/-- Register poison first (R203), then the judgement of every piece, then the action. An entry of the queue translates every page
before its first group enters the pipeline, and keeps what the addresses lead to (R202). -/
def memRun (i : Instr) (o : MemOp) (lanes : List Nat) (rds : List Rd) (acc : Acc) (ps : List Piece)
    (act : Placed → State → State) (s : State) : State :=
  let go (all pw : Placed) : State → State := if o.write then runStore i o lanes act all pw else runLoad i o lanes act pw
  queued i (fun s =>
    match vpoison s rds with
    | some t => takeTrap t s
    | none =>
      match s.me.vop with
      | none => withPlaces ps o.spc acc o.idx o.plainOk (fun pw => go pw pw) s
      | some v =>
        match v.placed with
        | none => withPlaces ps o.spc acc o.idx o.plainOk (fun pw s => s.modMe fun m => { m with vop := some { v with placed := some pw } }) s
        | some all => go all (all.filter fun e => e.1.lane ∈ lanes) s) s

/-! ### LNS6 in memory (R71, R72, R201) -/

/-- The bytes that hold the code of lane `l`, from its group's base. -/
def lnsOffsets (l : Nat) : List Nat :=
  let o := 3 * (l / 4)
  match l % 4 with
  | 0 => [o]
  | 1 => [o, o + 1]
  | 2 => [o + 1, o + 2]
  | _ => [o + 2]

/-- Pieces of an LNS6 access: code bytes under tag 0, the scale byte of the lane's block under tag 1. -/
def lnsPieces (bl : Nat) (base sb : Word) (lanes : List Nat) : List Piece :=
  lanes.flatMap fun l =>
    ((lnsOffsets l).map fun o => { lane := l, tag := 0, addr := base + word o, n := 1 })
      ++ [{ lane := l, tag := 1, addr := sb + word (l / bl), n := 1 }]

/-- The byte that a load finds at an address of one of the pieces. -/
def byteAt (s : State) (pw : Placed) (tag : Nat) (a : Word) : Nat :=
  match pw.find? fun e => e.1.tag = tag && e.1.addr = a with
  | some e => leVal (e.2.bytes s 1)
  | none => 0

def lnsLoad (d : VReg) (base sb : Word) (pw : Placed) (s : State) : State :=
  let lanes := (pw.map (·.1.lane)).eraseDups
  let code (l : Nat) : Nat :=
    let w := (lnsOffsets l).foldl (fun n o => n + byteAt s pw 0 (base + word o) * 2 ^ (8 * (o % 3))) 0
    w / 2 ^ (6 * (l % 4)) % 64
  s.modMe fun m => m.putLns d (lanes.map fun l => (l, code l)) fun j => signed8 (byteAt s pw 1 (sb + word j))

/-- Replaces the bits of one code in the bytes of its group, at the bytes' home (R201). -/
def lnsStoreLane (m : Strand) (d : VReg) (base : Word) (l : Nat) (pw : Placed) (s : State) : State :=
  let c := m.box d l % 64
  (lnsOffsets l).foldl (fun s o =>
    match pw.find? fun e => e.1.lane = l && e.1.tag = 0 && e.1.addr = base + word o with
    | some (_, .cell k) =>
      let at_ := 8 * (o % 3)
      let ones := (63 * 2 ^ (6 * (l % 4))) / 2 ^ at_ % 256
      let new := (c * 2 ^ (6 * (l % 4))) / 2 ^ at_ % 256
      let old := (s.home k).toNat
      homeWrite (some s.me.core) none k [BitVec.ofNat 8 (old - Nat.land old ones + new)] s
    | _ => s) s

/-- The scale bytes, and the code bytes that two lanes of the store fill between them: no bit of them stays. -/
def lnsCovers (pw : Placed) : Placed :=
  pw.filter fun e => e.1.tag = 1 || (pw.filter fun f => f.1.tag = 0 && f.1.addr = e.1.addr).length > 1

def lnsStore (d : VReg) (base : Word) (pw : Placed) (s : State) : State :=
  let m := s.me
  let s := drainCore s.me.core s
  let lanes := (pw.map (·.1.lane)).eraseDups
  let s := lanes.foldl (fun s l => lnsStoreLane m d base l pw s) s
  (pw.filter (·.1.tag = 1)).foldl (fun s e => match e.2 with
    | .cell k => storeBytes s.me.core s.cur k e.1.addr (leBytes 1 (m.box d (e.1.lane - e.1.lane % m.blen) / 256 % 256)) s
    | .plain .. => s) s

/-! ### Unit-stride, strided and segment forms (R207) -/

/-- Pieces of field `f` of `nf`: `addr` gives the address of a lane. -/
def fieldPieces (t : Ty) (d : VReg) (nf : Nat) (addr : Nat → Nat → Word) (lanes : List Nat) : List Piece :=
  let n := elemBytes t
  lanes.flatMap fun l => (List.range nf).map fun f =>
    { lane := l, tag := d.val + f * (if isPair t then 2 else 1), addr := addr l f, n := n, align := n }

/-- The registers of a segment (R207). -/
def segRegs (t : Ty) (d : VReg) (nf : Nat) : List Nat := (List.range (nf * (if isPair t then 2 else 1))).map (· + d.val)

/-- Sources of a store's data, in the active lanes. -/
def dataReads (t : Ty) (d : VReg) (nf : Nat) (store : Bool) (lanes : List Nat) : List Rd :=
  if store then (segRegs t d nf).map (.own lanes) else []

/-- `vld`, `vst` and `cvld`: LNS6 takes b, every other type reserves it. -/
def unitHead (i : Instr) (store plainOk : Bool) (t : Ty) (spc : Spc) (d : VReg) (a b : SReg) (x : Imm) (m : MReg) (s : State) :
    State :=
  let e := s.me.elemTy t
  let base := s.ea a x
  let sb := s.rd b
  let lanes := s.me.lanes m
  let o : MemOp := { spc := spc, write := store, plainOk := plainOk, chunk := s.me.chunk (isLns e), covers := if isLns e then lnsCovers else id }
  vmhead (!isLns e && b.val ≠ 0) (s.me.badTy t anyTy || (isLns e && b.val = 0) || oddPair e [d]) (if isLns e then [a, b] else [a])
    (regsOf e d)
    (if isLns e then
      memRun i o lanes (if store then [s.me.rdOf e lanes d.val] else []) (if store then .rw else .rd)
        (lnsPieces s.me.blen base sb lanes) (if store then lnsStore d base else lnsLoad d base sb)
    else
      memRun i o lanes (dataReads e d 1 store lanes) (if store then .wr else .rd)
        (fieldPieces e d 1 (fun l _ => base + word (l * elemBytes e)) lanes) (if store then storeElems e else loadElems e)) s

def execVld (t : Ty) (sp : Bool) (d : VReg) (a b : SReg) (m : MReg) (s : State) : Out :=
  .next (unitHead (.vld t sp d a b m) false false t (spcOf sp) d a b 0 m s)
def execVldImm (t : Ty) (sp : Bool) (d : VReg) (a b : SReg) (x : Imm) (m : MReg) (s : State) : Out :=
  .next (unitHead (.vldImm t sp d a b x m) false false t (spcOf sp) d a b x m s)
def execVst (t : Ty) (sp : Bool) (d : VReg) (a b : SReg) (m : MReg) (s : State) : Out :=
  .next (unitHead (.vst t sp d a b m) true false t (spcOf sp) d a b 0 m s)
def execVstImm (t : Ty) (sp : Bool) (d : VReg) (a b : SReg) (x : Imm) (m : MReg) (s : State) : Out :=
  .next (unitHead (.vstImm t sp d a b x m) true false t (spcOf sp) d a b x m s)
def execCvld (t : Ty) (d : VReg) (a b : SReg) (m : MReg) (s : State) : Out :=
  .next (unitHead (.cvld t d a b m) false true t .gen d a b 0 m s)
def execCvldImm (t : Ty) (d : VReg) (a b : SReg) (x : Imm) (m : MReg) (s : State) : Out :=
  .next (unitHead (.cvldImm t d a b x m) false true t .gen d a b x m s)

/-- A strided or a segment form; `addr` takes the lane and the field. -/
def fieldsHead (i : Instr) (store : Bool) (t : Ty) (sp : Bool) (d : VReg) (rs : List SReg) (nf : Nat)
    (addr : Nat → Nat → Nat → Word) (m : MReg) (s : State) : State :=
  let e := s.me.elemTy t
  let lanes := s.me.lanes m
  let o : MemOp := { spc := spcOf sp, write := store }
  vhead (s.me.badTy t notLns || oddPair e [d] || (segRegs e d nf).any (· ≥ 64)) rs (segRegs e d nf)
    (memRun i o lanes (dataReads e d nf store lanes) (if store then .wr else .rd)
      (fieldPieces e d nf (addr (elemBytes e)) lanes) (if store then storeElems e else loadElems e)) s

def stridedHead (i : Instr) (store : Bool) (t : Ty) (sp : Bool) (d : VReg) (a b : SReg) (x : Imm) (m : MReg) (s : State) : State :=
  fieldsHead i store t sp d [a, b] 1 (fun _ l _ => s.ea a x + word l * s.rd b) m s

def execVlds (t : Ty) (sp : Bool) (d : VReg) (a b : SReg) (m : MReg) (s : State) : Out :=
  .next (stridedHead (.vlds t sp d a b m) false t sp d a b 0 m s)
def execVldsImm (t : Ty) (sp : Bool) (d : VReg) (a b : SReg) (x : Imm) (m : MReg) (s : State) : Out :=
  .next (stridedHead (.vldsImm t sp d a b x m) false t sp d a b x m s)
def execVsts (t : Ty) (sp : Bool) (d : VReg) (a b : SReg) (m : MReg) (s : State) : Out :=
  .next (stridedHead (.vsts t sp d a b m) true t sp d a b 0 m s)
def execVstsImm (t : Ty) (sp : Bool) (d : VReg) (a b : SReg) (x : Imm) (m : MReg) (s : State) : Out :=
  .next (stridedHead (.vstsImm t sp d a b x m) true t sp d a b x m s)

/-- `nf` is NF − 1. -/
def segmentHead (i : Instr) (store : Bool) (nf : Fin 8) (t : Ty) (sp : Bool) (d : VReg) (a : SReg) (x : Imm) (m : MReg)
    (s : State) : State :=
  fieldsHead i store t sp d [a] (nf.val + 1) (fun n l f => s.ea a x + word ((l * (nf.val + 1) + f) * n)) m s

def execVldseg (nf : Fin 8) (t : Ty) (sp : Bool) (d : VReg) (a : SReg) (m : MReg) (s : State) : Out :=
  .next (segmentHead (.vldseg nf t sp d a m) false nf t sp d a 0 m s)
def execVldsegImm (nf : Fin 8) (t : Ty) (sp : Bool) (d : VReg) (a : SReg) (x : Imm) (m : MReg) (s : State) : Out :=
  .next (segmentHead (.vldsegImm nf t sp d a x m) false nf t sp d a x m s)
def execVstseg (nf : Fin 8) (t : Ty) (sp : Bool) (d : VReg) (a : SReg) (m : MReg) (s : State) : Out :=
  .next (segmentHead (.vstseg nf t sp d a m) true nf t sp d a 0 m s)
def execVstsegImm (nf : Fin 8) (t : Ty) (sp : Bool) (d : VReg) (a : SReg) (x : Imm) (m : MReg) (s : State) : Out :=
  .next (segmentHead (.vstsegImm nf t sp d a x m) true nf t sp d a x m s)

/-! ### Gathers and scatters (R208 to R211) -/

/-- What a lane's index resolves to. -/
inductive Resolved where
  | at_ (a : Word)
  | none
  | oob (i : Word)
  deriving DecidableEq, Repr

/-- `resolve(l)` of R208 for elements of `size` bytes. -/
def resolve (oob : Oob) (base : Word) (bound : Option Nat) (size : Nat) (x : Word32) : Resolved :=
  let i := x.toInt
  let inside : Bool := 0 ≤ i && (match bound with | some n => i < (n : Int) | Option.none => true)
  if inside then .at_ (base + BitVec.ofInt 64 (i * size))
  else match oob with
    | .zero => .none
    | .clamp => if bound = some 0 then .none else .at_ (if i < 0 then base else base + word (((bound.getD 1) - 1) * size))
    | .fault => .oob (x.signExtend 64)

def resolveLane (s : State) (base : Word) (bound : Option Nat) (size : Nat) (b l : Nat) : Resolved :=
  resolve s.me.vtype.oob base bound size (tget 0 s.me.vregs (b * 1024 + l))

/-- The OOB_INDEX trap: the index of the lowest failing lane (R203). -/
def oobTrap (rs : List (Nat × Resolved)) (spc : Spc) (wr : Bool) : Option Trap :=
  let bad := rs.filterMap fun e => match e.2 with
    | .oob i => some (e.1, i)
    | _ => none
  match bad with
  | [] => none
  | e :: _ => some { cause := .oobIndex, detail := accessDetail .oobIndex 0 true spc wr, addr := e.2, lanes := laneSet (bad.map (·.1)) }

def resolvedPieces (t : Ty) (d : VReg) (rs : List (Nat × Resolved)) : List Piece :=
  rs.filterMap fun e => match e.2 with
    | .at_ a => some { lane := e.1, tag := d.val, addr := a, n := elemBytes t, align := elemBytes t }
    | _ => none

def boundOf (s : State) : Option SReg → Option Nat
  | some c => some (s.rd c).toNat
  | none => none

/-- A gather or a scatter: `act` takes the resolved lanes and the places. -/
def indexedHead (i : Instr) (store : Bool) (t : Ty) (spc : Spc) (d : VReg) (a : SReg) (b : VReg) (c : Option SReg) (m : MReg)
    (acc : Acc) (act : Ty → List (Nat × Resolved) → Placed → State → State) (s : State) : State :=
  let e := s.me.elemTy t
  let lanes := s.me.lanes m
  let rs := lanes.map fun l => (l, resolveLane s (s.rd a) (boundOf s c) (elemBytes e) b l)
  let o : MemOp := { spc := spc, write := store, idx := true, chunk := 4096 }
  let rds := .own lanes b.val :: dataReads e d 1 store lanes
  vhead (s.me.badTy t notLns || oddPair e [d]) (a :: c.toList) (b.val :: regsOf e d)
    (queued i fun s =>
      match vpoison s rds with
      | some t => takeTrap t s
      | none =>
        match oobTrap rs spc store with
        | some t => takeTrap t s
        | none => memRun i o lanes [] acc (resolvedPieces e d rs) (act e rs) s) s

/-- Lanes without an address receive 0 (R208). -/
def gatherAct (d : VReg) (e : Ty) (rs : List (Nat × Resolved)) (pw : Placed) (s : State) : State :=
  loadElems e pw (s.modMe fun m => m.setElems e d ((rs.filter (·.2 = .none)).map fun x => (x.1, 0)))

def execVgather (t : Ty) (sp : Bool) (d : VReg) (a : SReg) (b : VReg) (m : MReg) (s : State) : Out :=
  .next (indexedHead (.vgather t sp d a b m) false t (spcOf sp) d a b none m .rd (gatherAct d) s)
def execVgatherBounded (t : Ty) (sp : Bool) (d : VReg) (a : SReg) (b : VReg) (c : SReg) (m : MReg) (s : State) : Out :=
  .next (indexedHead (.vgatherBounded t sp d a b c m) false t (spcOf sp) d a b (some c) m .rd (gatherAct d) s)
def execVscatter (t : Ty) (sp : Bool) (d : VReg) (a : SReg) (b : VReg) (m : MReg) (s : State) : Out :=
  .next (indexedHead (.vscatter t sp d a b m) true t (spcOf sp) d a b none m .wr (fun e _ => storeElems e) s)
def execVscatterBounded (t : Ty) (sp : Bool) (d : VReg) (a : SReg) (b : VReg) (c : SReg) (m : MReg) (s : State) : Out :=
  .next (indexedHead (.vscatterBounded t sp d a b c m) true t (spcOf sp) d a b (some c) m .wr (fun e _ => storeElems e) s)

/-- Keys of the 64-byte lines of the places. -/
def linesOf (pw : Placed) : List Nat :=
  (pw.filterMap fun e => match e.2 with
    | .cell k => some (k / 64)
    | .plain .. => none).eraseDups

/-- R210: the core's own stores are performed, its copies of the lines are dropped, the lanes read at the homes, and the link
set is replaced. -/
def linkAct (d : VReg) (e : Ty) (rs : List (Nat × Resolved)) (pw : Placed) (s : State) : State :=
  let lines := linesOf pw
  let s := drainCore s.me.core s
  let s := { s with l1 := s.l1.filter fun l => !(l.core = s.me.core && l.key ∈ lines) }
  (gatherAct d e rs pw s).modMe fun m => { m with links := lines }

def execVgatherL (t : Ty) (d : VReg) (a : SReg) (b : VReg) (m : MReg) (s : State) : Out :=
  .next (indexedHead (.vgatherL t d a b m) false t .gen d a b none m .rd (linkAct d) s)
def execVgatherLBounded (t : Ty) (d : VReg) (a : SReg) (b : VReg) (c : SReg) (m : MReg) (s : State) : Out :=
  .next (indexedHead (.vgatherLBounded t d a b c m) false t .gen d a b (some c) m .rd (linkAct d) s)

/-- R211: the successful lanes, each the lowest active lane with its address, on a held link. -/
def condLanes (links : List Nat) : Placed → List Word → Placed
  | [], _ => []
  | (p, .cell k) :: t, seen =>
    if k / 64 ∈ links && p.addr ∉ seen then (p, .cell k) :: condLanes links t (p.addr :: seen) else condLanes links t (p.addr :: seen)
  | _ :: t, seen => condLanes links t seen

def condAct (md : MReg) (e : Ty) (_ : List (Nat × Resolved)) (pw : Placed) (s : State) : State :=
  let s := drainCore s.me.core s
  let ok := condLanes s.me.links pw []
  let m := s.me
  let s := coverSectors ok (ok.foldl (fun s x => match x.2 with
    | .cell k => homeWrite (some s.me.core) none k (leBytes x.1.n (m.elem e x.1.tag x.1.lane)) s
    | .plain .. => s) s)
  setMask md (laneSet (ok.map (·.1.lane))) (s.modMe fun m => { m with links := [] })

def execVscatterC (t : Ty) (md : MReg) (d : VReg) (a : SReg) (b : VReg) (m : MReg) (s : State) : Out :=
  .next (indexedHead (.vscatterC t md d a b m) true t .gen d a b none m .rw (condAct md) s)
def execVscatterCBounded (t : Ty) (md : MReg) (d : VReg) (a : SReg) (b : VReg) (c : SReg) (m : MReg) (s : State) : Out :=
  .next (indexedHead (.vscatterCBounded t md d a b c m) true t .gen d a b (some c) m .rw (condAct md) s)

/-! ### Lane-local access (R212) -/

/-- The address of a lane: the offset, a negative one as its 64-bit two's complement. -/
def laneOffset (s : State) (a : VReg) (x : Imm) (l : Nat) : Word := (tget 0 s.me.vregs (a.val * 1024 + l)).setWidth 64 + sext32 x

/-- LNS6 moves whole containers. -/
def laneHead (i : Instr) (store : Bool) (t : Ty) (d a : VReg) (x : Imm) (m : MReg) (s : State) : State :=
  let e := s.me.elemTy t
  let mt : Ty := if isLns e then .u32 else e
  let lanes := s.me.lanes m
  let o : MemOp := { spc := .ll, write := store, idx := true }
  let n := elemBytes mt
  vhead (s.me.badTy t anyTy || oddPair e [d]) [] (a.val :: regsOf e d)
    (memRun i o lanes (.own lanes a.val :: dataReads mt d 1 store lanes) (if store then .wr else .rd)
      (lanes.map fun l => { lane := l, tag := d.val, addr := laneOffset s a x l, n := n, align := if isLns e then 1 else n })
      (if store then storeElems mt else loadElems mt)) s

def execLldx (t : Ty) (d a : VReg) (m : MReg) (s : State) : Out := .next (laneHead (.lldx t d a m) false t d a 0 m s)
def execLldxImm (t : Ty) (d a : VReg) (x : Imm) (m : MReg) (s : State) : Out :=
  .next (laneHead (.lldxImm t d a x m) false t d a x m s)
def execLstx (t : Ty) (d a : VReg) (m : MReg) (s : State) : Out := .next (laneHead (.lstx t d a m) true t d a 0 m s)
def execLstxImm (t : Ty) (d a : VReg) (x : Imm) (m : MReg) (s : State) : Out :=
  .next (laneHead (.lstxImm t d a x m) true t d a x m s)

/-! ### Full/empty access (R213 to R215, R284) -/

def State.isFull (s : State) (g : Nat) : Bool := tget false s.full g

def setFull (v : Bool) (gs : List Nat) (s : State) : State := { s with full := gs.foldl (fun t g => tset false t g v) s.full }

/-- The granules, by key / 16, that bytes of the scratchpad touch. -/
def granulesOf (k n : Nat) : List Nat := if n = 0 then [] else (List.range ((k + n - 1) / 16 - k / 16 + 1)).map (· + k / 16)

def placedGranules (pw : Placed) : List Nat :=
  (pw.flatMap fun e => match e.2 with
    | .cell k => granulesOf k e.1.n
    | .plain .. => []).eraseDups

/-- The granules and the state that a waiting full/empty access needs. -/
def feNeeds (m : Strand) : Option (List Nat × Bool) :=
  m.waits.findSome? fun w => match w with
    | .fe gs full _ _ => some (gs, full)
    | _ => none

/-- Whether an older waiting access goes first (R213): one with an intersecting set, for an access that waits itself; for one that has
just reached the scratchpad, one that waits for the same state, since only such an arrival can end a wait for the other (log entry
71). -/
def feBehind (s : State) (sid : Nat) (gs : List Nat) (full : Bool) : Bool :=
  let q := (s.crew (s.strand sid).crew).feQueue
  (q.takeWhile (· ≠ sid)).any fun o =>
    match feNeeds (s.strand o) with
    | some (g, f) => (f = full || sid ∈ q) && g.any (· ∈ gs)
    | none => false

/-- Leaves the queue of waiting full/empty accesses. -/
def leaveFe (sid : Nat) (s : State) : State := s.modCrew (s.strand sid).crew fun c => { c with feQueue := c.feQueue.filter (· ≠ sid) }

def feReady (s : State) (gs : List Nat) (full : Bool) : Bool := gs.all fun g => s.isFull g = full

/-- Lanes whose granules are not in the needed state, and the lowest offset of such a granule (R214). -/
def feUnready (s : State) (pw : Placed) (full : Bool) : List Nat × Nat :=
  let bad (e : Piece × Where) : Bool := match e.2 with
    | .cell k => (granulesOf k e.1.n).any fun g => s.isFull g ≠ full
    | .plain .. => false
  let base := s.csp 0
  let gs := (placedGranules pw).filter fun g => s.isFull g ≠ full
  ((pw.filter bad).map (·.1.lane), (gs.map fun g => g * 16 - base).foldl min (gs.headD 0 * 16 - base))

/-- The atomic step, or the wait before it. -/
def feAct (i : Instr) (load take : Bool) (e : Ty) (pw : Placed) (s : State) : State :=
  let gs := placedGranules pw
  let act (s : State) : State :=
    let s := if load then loadElems e pw s else coverSectors pw (storeElems e pw s)
    let s := if load then (if take then setFull false gs s else s) else setFull true gs s
    wakeIdle s.me.crew (vdone (leaveFe s.cur s))
  if feReady s gs load && !feBehind s s.cur gs load then
    if load then withData pw .sp false act s else act s
  else
    let u := feUnready s pw load
    if s.me.vop = none && slotEntries s ≥ 64 then beginWait .viq s
    else if s.cur ∈ s.myCrew.feQueue then s.modMe fun m => { m with wait := some (.fe gs load (laneSet u.1) u.2) }
    else
      let s := s.modMyCrew fun c => { c with feQueue := c.feQueue ++ [s.cur] }
      queueWait i (.fe gs load (laneSet u.1) u.2) s

def feHead (i : Instr) (load take : Bool) (t : Ty) (d : VReg) (a : SReg) (x : Imm) (m : MReg) (s : State) : State :=
  let e := s.me.elemTy t
  let lanes := s.me.lanes m
  let base := s.ea a x
  vhead (s.me.badTy t notLns || oddPair e [d]) [a] (regsOf e d) (queued i fun s =>
    match vpoison s (dataReads e d 1 (!load) lanes) with
    | some t => takeTrap t s
    | none =>
      if lanes = [] then vdone s
      else withPlaces (fieldPieces e d 1 (fun l _ => base + word (l * elemBytes e)) lanes) .sp
        (if load then .rd else .wr) false false (feAct i load take e) s) s

def execVldFe (t : Ty) (take : Bool) (d : VReg) (a : SReg) (m : MReg) (s : State) : Out :=
  .next (feHead (.vldFe t take d a m) true take t d a 0 m s)
def execVldFeImm (t : Ty) (take : Bool) (d : VReg) (a : SReg) (x : Imm) (m : MReg) (s : State) : Out :=
  .next (feHead (.vldFeImm t take d a x m) true take t d a x m s)
def execVstFe (t : Ty) (d : VReg) (a : SReg) (m : MReg) (s : State) : Out :=
  .next (feHead (.vstFe t d a m) false false t d a 0 m s)
def execVstFeImm (t : Ty) (d : VReg) (a : SReg) (x : Imm) (m : MReg) (s : State) : Out :=
  .next (feHead (.vstFeImm t d a x m) false false t d a x m s)

/-- Zeroes bytes of memory and clears the poison of the sectors that are covered whole. -/
def zeroBytes (k n : Nat) (s : State) : State :=
  { s with mem := zeroRange s.mem k n, mpois := s.mpois.filter (· ∉ wholeSectors k n) }

/-- R215: after every older scratchpad access; it sweeps no lanes. -/
def spclrHead (i : Instr) (zero : Bool) (a b : SReg) (x : Imm) (s : State) : State :=
  let o := (s.ea a x).toNat
  let n := (s.rd b).toNat
  checked [notOnSteward s, stallShort s [a, b], vown s, scalarPoison s [a, b],
      trapIf (o % 16 ≠ 0 || n % 16 ≠ 0) { cause := .misaligned, detail := faultDetail false 1 true, addr := s.ea a x },
      trapIf (n ≠ 0 && o + n > s.myCrew.decl.spbytes) { cause := .access, detail := 32 + faultDetail false 1 true, addr := s.ea a x }]
    (queued i fun s =>
      let k := s.csp o
      let s := setFull false (granulesOf k n) s
      wakeIdle s.me.crew (vdone (if zero then zeroBytes k n s else s))) s

def execSpclr (zero : Bool) (a b : SReg) (s : State) : Out := .next (spclrHead (.spclr zero a b) zero a b 0 s)
def execSpclrImm (zero : Bool) (a b : SReg) (x : Imm) (s : State) : Out := .next (spclrHead (.spclrImm zero a b x) zero a b x s)

end Sys2Proof.Machine
end

