-- ==== Sys2Proof/Machine/Window.lean ====
section
/-! DEFINITION. Accumulation windows (R220 to R222) and waiting on flags (R225). -/

namespace Sys2Proof.Machine
open Sys2Proof

/-! ### Accumulation windows -/

def awTyOf : Ty → Option AwTy
  | .i32 => some .i32
  | .u32 => some .u32
  | .i64 => some .i64
  | .u64 => some .u64
  | .f32 => some .f32
  | _ => none

/-- The element type of a window. -/
def awElem : AwTy → Ty
  | .i32 => .i32 | .u32 => .u32 | .i64 => .i64 | .u64 => .u64 | .f32 => .f32

def AWin.size (x : AWin) : Nat := elemBytes (awElem x.ty)

/-- The identity of OP, as a code of the type (R220). -/
def awIdentity (op : Fold) (t : AwTy) : Nat :=
  if t = .f32 then
    match op with
    | .add => 0x80000000
    | .min => 0x7F800000
    | .max => 0xFF800000
  else
    let i := intOf (awElem t)
    match op with
    | .add => 0
    | .min => i.wrap i.hi
    | .max => i.wrap i.lo

/-- One fold step on codes, rounding RNE (R221, R222). -/
def awStep (op : Fold) (t : AwTy) (x y : Nat) : FRes :=
  if t = .f32 then
    match op with
    | .add => FForm.f32.addOp .rne (FForm.f32.decode x) (FForm.f32.decode y)
    | .min => FForm.f32.minMax false x y
    | .max => FForm.f32.minMax true x y
  else
    let i := intOf (awElem t)
    let a := i.read x
    let b := i.read y
    { bits := i.wrap (match op with
        | .add => a + b
        | .min => min a b
        | .max => max a b) }

/-- The key of element `e` of a lane's copy. -/
def State.copyKey (s : State) (x : AWin) (lane e : Nat) : Nat := s.llKey lane (x.llofs + e * x.size)

/-- R220: every lane below VLMAX receives the identity; an open window is discarded. -/
def execAwin (t : Ty) (op : Fold) (a b : SReg) (x : Imm) (s : State) : Out :=
  let ty := (awTyOf t).getD .i32
  let size := elemBytes (awElem ty)
  let n := (s.rd b).toNat
  let base := s.rd a
  .next (checked [notOnSteward s, valueIllegal s [a, b] (n < 1 || n > 1024 || x.toNat + n * size > s.myCrew.decl.llbytes),
      stallShort s [a, b], vown s, scalarPoison s [a, b], trapIf (base.toNat % size ≠ 0) { cause := .misaligned, addr := base },
      trapIf (x.toNat % size ≠ 0)
        { cause := .misaligned, detail := accessDetail .misaligned 0 false .ll true, addr := word x.toNat }]
    (queued (.awin t op a b x) fun s =>
      let w : AWin := { base := base, n := n, ty := ty, op := op, llofs := x.toNat }
      let s := (List.range s.me.vlmax).foldl (fun s l => (List.range n).foldl (fun s e =>
        { s with mem := putBytes s.mem (s.copyKey w l e) (leBytes size (awIdentity op ty)) }) s) s
      vdone (s.modMe fun m => { m with awin := some w })) s)

/-- One lane of `aupd` on element `e` of its copy. -/
def aupdLane (w : AWin) (b : VReg) (l e : Nat) (s : State) : State :=
  let k := s.copyKey w l e
  let r := awStep w.op w.ty (leVal (s.homeBytes k w.size)) (s.me.elem (awElem w.ty) b l)
  addFlags r.fl { s with mem := putBytes s.mem k (leBytes w.size r.bits) }

/-- The places of elements of lanes' copies: the offsets are of the lane-local space. -/
def copyPlaces (s : State) (w : AWin) (es : List (Nat × Nat)) : Placed :=
  es.map fun (l, e) => ({ lane := l, addr := word (w.llofs + e * w.size), n := w.size }, .cell (s.copyKey w l e))

/-- R221: va is one register; vb is a pair for a 64-bit window. POISON of a copy comes before any lane updates (R204, R227). -/
def execAupd (a b : VReg) (m : MReg) (s : State) : Out :=
  let w := s.me.awin.getD ⟨0, 0, .i32, .add, 0⟩
  let e := awElem w.ty
  let lanes := s.me.lanes m
  let rs := lanes.map fun l => (l, resolveLane s 0 (some w.n) 1 a l)
  .next (vhead (s.me.awin = none || oddPair e [b]) [] (regsOf e b ++ [a.val]) (queued (.aupd a b m) fun s =>
    match vpoison s ((a.val :: regsOf e b).map (.own lanes)) with
    | some t => takeTrap t s
    | none =>
      match oobTrap rs .ll true with
      | some t => takeTrap t s
      | none =>
        let es := rs.filterMap fun x => match x.2 with
          | .at_ i => some (x.1, i.toNat)
          | _ => none
        match dataPoison s (copyPlaces s w es) with
        | some t => takeTrap t s
        | none => sweep (.aupd a b m) 32 lanes [] (fun g s => es.foldl (fun s x => if x.1 ∈ g then aupdLane w b x.1 x.2 s else s) s) s) s)

/-- Lanes below VLMAX that are not dead, ascending. -/
def Strand.alive (m : Strand) : List Nat := (List.range m.vlmax).filter fun l => !m.deadmask.getLsbD l

/-- The partial of element `e`: the copies of the lanes that are not dead, in ascending order (R222). -/
def partialOf (s : State) (w : AWin) (e : Nat) : FRes :=
  s.me.alive.foldl (fun (r : FRes) l =>
    let k := awStep w.op w.ty r.bits (leVal (s.homeBytes (s.copyKey w l e) w.size))
    { bits := k.bits, fl := r.fl.or k.fl }) { bits := awIdentity w.op w.ty }

/-- Folds element `e` into memory at key `k`, at its home. -/
def mergeOne (w : AWin) (e k : Nat) (s : State) : State :=
  let p := partialOf s w e
  let r := awStep w.op w.ty (leVal (s.homeBytes k w.size)) p.bits
  addFlags (p.fl.or r.fl) (homeWrite (some s.me.core) none k (leBytes w.size r.bits) s)

/-- The elements of a window's range; an element is no lane, and a trap names none (lane number 1,024). -/
def awPieces (w : AWin) : List Piece :=
  (List.range w.n).map fun e => { lane := 1024, tag := e, addr := w.base + word (e * w.size), n := w.size }

/-- POISON of what `amerge` reads (R204, R227): the copies of the lanes, then the elements in memory, which no lane reads. -/
def mergePoison (s : State) (w : AWin) (pw : Placed) : Option Trap :=
  (dataPoison s (copyPlaces s w (s.me.alive.flatMap fun l => (List.range w.n).map fun e => (l, e)))).or
    ((dataPoison s pw).map fun t => { t with lanes := 0 })

/-- R222; inside a closing guard band the device holds it. -/
def execAmerge (s : State) : Out :=
  .next (vhead (s.me.awin = none) [] [] (queued .amerge fun s =>
    if (s.part s.myGrid.part).guard then beginWait .guardBand s
    else
      let w := s.me.awin.getD ⟨0, 0, .i32, .add, 0⟩
      withPlaces (awPieces w) .gen .rw false false (fun pw s =>
        match mergePoison s w pw with
        | some t => takeTrap t s
        | none =>
          let s := drainCore s.me.core s
          let s := pw.foldl (fun s x => match x.2 with
            | .cell k => mergeOne w x.1.tag k s
            | .plain .. => s) s
          vdone (s.modMe fun m => { m with awin := none })) s) s)

/-! ### `vwait` (R225) -/

def waitCmp (cc : WCc) (i : IntTy) (x y : Nat) : Bool :=
  match cc with
  | .eq => i.read x = i.read y
  | .ne => i.read x ≠ i.read y
  | .ge => i.read x ≥ i.read y
  | .lt => i.read x < i.read y

/-- Lanes of the places whose flag meets the condition now. -/
def metLanes (s : State) (cc : WCc) (t : Ty) (c : VReg) (pw : Placed) : List Nat :=
  (pw.filter fun e => waitCmp cc (intOf t) (leVal (e.2.bytes s e.1.n)) (s.me.elem t c e.1.lane)).map (·.1.lane)

/-- The operands of a `vwait`. -/
structure WaitOps where
  cc : WCc
  t : Ty
  spc : Spc
  tmo : Nat
  d : MReg
  a : SReg
  b : VReg
  c : VReg

/-- `vwait` ends: md holds the unmet lanes. -/
def waitDone (d : MReg) (unmet : Mask) (s : State) : State :=
  wakeIdle s.me.crew (vdone (setMask d unmet s))

/-- Tests the lanes of the places once: each met lane is an acquire at device scope. `pend` lists every pending lane. -/
def waitTest (i : Instr) (o : WaitOps) (pend : List Nat) (pw : Placed) (s : State) : State :=
  let s := dropLines s.me.core s
  let met := metLanes s o.cc o.t o.c pw
  let rest := pend.filter (· ∉ met)
  if rest = [] then waitDone o.d 0 s
  else match s.me.wait with
    | some (.vwait _ _ dl) => s.modMe fun m => { m with wait := some (.vwait i (laneSet rest) dl) }
    | _ => queueWait i (.vwait i (laneSet rest) (if o.tmo = 0 then none else some (s.cycle + 64 * o.tmo))) s

/-- The pending lanes that an active mask gives: a lane whose address is NONE counts as met. -/
def waitLanes (s : State) (o : WaitOps) (lanes : List Nat) : List (Nat × Resolved) :=
  lanes.map fun l => (l, resolveLane s (s.rd o.a) none (elemBytes o.t) o.b l)

def waitHead (i : Instr) (o : WaitOps) (m : MReg) (s : State) : State :=
  let lanes := s.me.lanes m
  let rs := waitLanes s o lanes
  let pend := (rs.filter fun r => r.2 ≠ .none).map (·.1)
  vhead (oddPair o.t [o.c]) [o.a] (o.b.val :: regsOf o.t o.c) (queued i fun s =>
    match vpoison s ((o.b.val :: regsOf o.t o.c).map (.own lanes)) with
    | some t => takeTrap t s
    | none =>
      match oobTrap rs o.spc false with
      | some t => takeTrap t s
      | none =>
        withPlaces (resolvedPieces o.t o.c rs) o.spc .rd true false (fun pw s =>
          match dataPoison s pw with
          | some t => takeTrap t s
          | none => waitTest i o pend pw s) s) s

def execVwait (cc : WCc) (t : Ty) (sp : Bool) (tmo : BitVec 26) (d : MReg) (a : SReg) (b c : VReg) (m : MReg) (s : State) : Out :=
  .next (waitHead (.vwait cc t sp tmo d a b c m) ⟨cc, t, spcOf sp, tmo.toNat, d, a, b, c⟩ m s)

/-- The operands of a waiting `vwait`. -/
def waitOps : Instr → Option (WaitOps)
  | .vwait cc t sp tmo d a b c _ => some ⟨cc, t, spcOf sp, tmo.toNat, d, a, b, c⟩
  | _ => none

/-- Lanes of a mask below VLMAX, ascending. -/
def Strand.listOf (m : Strand) (k : Mask) : List Nat := (List.range m.vlmax).filter k.getLsbD

/-- The lowest address of the pending lanes of a `vwait`. -/
def pendingAddr (s : State) (i : Instr) (pend : Mask) : Word :=
  match waitOps i with
  | some o => minWord ((resolvedPieces o.t o.c (waitLanes s o (s.me.listOf pend))).map (·.addr))
  | none => 0

/-- Asks for the pages of pieces that stall; the lanes stay pending (R399, R406). -/
def askPages (js : List (Piece × Judged)) (s : State) : State :=
  js.foldl (fun s e => match e.2 with
    | .stall2 i => (postS2 s.ctx.vf i 0 s).1
    | .stallPri i => if (s.vf s.ctx.vf).pri.any (·.page = i / 65536) || !priRoom s s.ctx.vf then s else requestPage s.ctx.vf i s
    | _ => s) s

/-- The pending lanes of a waiting `vwait` of the current strand are tested: a dead lane drops out, a page that has gone or an error in
a flag traps as at the first test (R203, R204), and a lane whose page has yet to come stays pending. -/
def waitPoll (s : State) : State :=
  match s.me.wait with
  | some (.vwait i pend _) =>
    match waitOps i with
    | some o =>
      let ls := (s.me.listOf pend).filter fun l => !s.me.deadmask.getLsbD l
      let js := (resolvedPieces o.t o.c (waitLanes s o ls)).map fun p => (p, judge s o.spc .rd false p)
      let pw : Placed := js.filterMap fun e => match e.2 with
        | .ok w => some (e.1, w)
        | _ => none
      match (worst (failing js) true o.spc false).or (dataPoison s pw) with
      | some t => takeTrap t s
      | none => waitTest i o ls pw (askPages js s)
    | none => s
  | _ => s

/-- A waiting `vwait` of the current strand whose deadline has come completes; md holds the unmet lanes. -/
def waitExpire (s : State) : State :=
  match s.me.wait with
  | some (.vwait i pend (some t)) =>
    match waitOps i with
    | some o => if reached s t then waitDone o.d (pend &&& ~~~s.me.deadmask) s else s
    | none => s
  | _ => s

end Sys2Proof.Machine
end

