-- ==== Sys2Proof/Machine/Tile.lean ====
section
/-! DEFINITION. Tile grants, tile loads and stores, matrix multiply and accumulator images (R228 to R240). -/

namespace Sys2Proof.Machine
open Sys2Proof

/-! ### Formats and rows (R27, R229) -/

def tfmtTy : TFmt → Ty
  | .int8 => .i8 | .fp16 => .f16 | .bf16 => .bf16 | .fp32 => .f32 | .lns6 => .lns6

def tfmtOfTy : Ty → Option TFmt
  | .i8 => some .int8
  | .f16 => some .fp16
  | .bf16 => some .bf16
  | .f32 => some .fp32
  | .lns6 => some .lns6
  | _ => none

/-- Bytes of `n` elements of a row; LNS6 codes are packed (R71). -/
def rowBytes (f : TFmt) (n : Nat) : Nat := if f = .lns6 then (6 * n + 7) / 8 else n * elemBytes (tfmtTy f)

/-- Alignment of a row (R232). -/
def rowAlign (f : TFmt) : Nat := if f = .lns6 then 1 else elemBytes (tfmtTy f)

def ceilDiv (n d : Nat) : Nat := (n + d - 1) / d

/-- A T that does not name `f`, or a form that does not pair with it (R228, R229). -/
def badTile (t : Ty) (f : TFmt) (lnsForm : Bool) : Bool := (t ≠ .dflt && t ≠ tfmtTy f) || (f = .lns6) ≠ lnsForm

/-- The checks of a tile, matrix, copy or barrier head: `regs` lists tile and accumulator numbers with their limits. -/
def tileHead (bad4 bad6 : Bool) (rs : List SReg) (regs : List (Nat × Nat)) (k : State → State) (s : State) : State :=
  checked [notOnSteward s, trapIf bad4 (illegal 4), trapIf bad6 (illegal 6), stallShort s rs, vown s,
    (regs.find? fun e => e.1 ≥ e.2).map fun e => { cause := .regQuota, addr := word e.1 }, scalarPoison s rs] k s

def grantInvalid : Trap := { cause := .grantInvalid }

/-! ### The grant (R230, R231) -/

def execSettile (t : Ty) (d a b c : SReg) (s : State) : Out :=
  .next (tileHead false false [a, b, c] [] (fun s =>
    let g := cooper s ((tfmtOfTy t).getD .int8) (s.rd a).toNat (s.rd b).toNat (s.rd c).toNat
    let s := s.modMe fun m => { m with gshape := g, tiles := [], tshape := [], tpois := [] }
    finish (s.wr d (word (gshapeCode g)))) s)

/-! ### Tile contents (R27) -/

def tileKey (k row b : Nat) : Nat := (k * 64 + row) * 208 + b

/-- `n` bytes of a tile row from byte `b`. -/
def Strand.tileBytes (m : Strand) (k row b n : Nat) : List Byte := (List.range n).map fun i => tget 0 m.tiles (tileKey k row (b + i))

/-- Replaces a tile: each row has its data and its scales. Every other byte is zero. -/
def Strand.putTile (m : Strand) (k : Nat) (f : TFmt) (cols : Nat) (rows : List (List Byte × List Byte)) : Strand :=
  let kept := m.tiles.filter fun e => e.1 / 208 / 64 ≠ k
  let put (t : Tab Byte) (key : Nat) (b : List Byte) : Tab Byte := (b.zipIdx).foldl (fun t e => tset 0 t (key + e.2) e.1) t
  { m with
    tiles := (rows.zipIdx).foldl (fun t e => put (put t (tileKey k e.2 0) e.1.1) (tileKey k e.2 192) e.1.2) kept
    tshape := tset {} m.tshape k { fmt := f, rows := rows.length, cols := cols }
    tpois := m.tpois.filter fun x => x / 64 ≠ k }

/-- Keeps the first `n` elements of row bytes. -/
def trimRow (f : TFmt) (n : Nat) (b : List Byte) : List Byte :=
  if f = .lns6 then leBytes b.length (leVal b % 2 ^ (6 * n)) else b

/-- Bytes of the pieces with a tag, in order. -/
def taggedBytes (s : State) (pw : Placed) (tag : Nat) : List Byte :=
  (pw.filter (·.1.tag = tag)).flatMap fun e => e.2.bytes s e.1.n

/-- Row `r` of a strided range: no lane, tag `tag`. -/
def rowPieces (base : Word) (stride : Word) (n align tag r : Nat) : List Piece :=
  splitPages 1024 tag align 4 (base + word r * stride) n

/-- Live rows and columns of a load in a role (R232): role b is true. -/
def liveRows (g : GShape) (role : Bool) : Nat := if role then g.ln else g.lm

/-- The pieces of a tile load: data rows under tag 2r, scales under 2r + 1. -/
def tilePieces (f : TFmt) (rows cols bl : Nat) (a b c : Word) (sstride : Nat) : List Piece :=
  (List.range rows).flatMap fun r =>
    rowPieces a b (rowBytes f cols) (rowAlign f) (2 * r) r
      ++ if f = .lns6 then rowPieces c (word sstride) (ceilDiv cols bl) 1 (2 * r + 1) r else []

def loadTile (k : TReg) (f : TFmt) (rows cols : Nat) (pw : Placed) (s : State) : State :=
  s.modMe fun m => m.putTile k f cols ((List.range rows).map fun r =>
    (trimRow f cols (taggedBytes s pw (2 * r)), taggedBytes s pw (2 * r + 1)))

/-- The operands of a tile load or store. -/
structure TileOps where
  t : Ty
  spc : Spc
  role : Bool
  d : TReg
  a : SReg
  b : SReg
  -- the scale address and stride of the LNS6 form
  lns : Option (SReg × Half)

def TileOps.regs (o : TileOps) : List SReg := match o.lns with
  | some (c, _) => [o.a, o.b, c]
  | none => [o.a, o.b]

def TileOps.scaleBase (o : TileOps) (s : State) : Word := match o.lns with
  | some (c, _) => s.rd c
  | none => 0

def TileOps.scaleStride (o : TileOps) : Nat := match o.lns with
  | some (_, h) => h.toNat
  | none => 0

/-- Loads the tile and goes on with `k`, which also sees the places read. -/
def tileLoad (o : TileOps) (k : Placed → State → State) (s : State) : State :=
  let g := s.me.gshape
  let rows := liveRows g o.role
  let cols := g.lk
  withPlaces (tilePieces g.fmt rows cols s.me.blen (s.rd o.a) (s.rd o.b) (o.scaleBase s) o.scaleStride) o.spc .rd false
    (o.spc = .gen) (fun pw s => withData pw o.spc false (fun s => k pw (loadTile o.d g.fmt rows cols pw (fillPlaces pw s))) s) s

def tldHead (o : TileOps) (s : State) : State :=
  tileHead false (badTile o.t s.me.gshape.fmt o.lns.isSome) o.regs [(o.d.val, s.me.tdecl)] (fun s =>
    if !s.me.gshape.gv then takeTrap grantInvalid s else tileLoad o (fun _ => finish) s) s

def execTld (t : Ty) (sp role : Bool) (d : TReg) (a b : SReg) (s : State) : Out :=
  .next (tldHead ⟨t, spcOf sp, role, d, a, b, none⟩ s)
def execTldLns6 (t : Ty) (sp role : Bool) (d : TReg) (a b c : SReg) (h : Half) (s : State) : Out :=
  .next (tldHead ⟨t, spcOf sp, role, d, a, b, some (c, h)⟩ s)

/-! ### Tile stores (R233) -/

/-- Writes `n` bits of packed data at a place. DEDUCED, log entry 82: the bits above them are kept, at their home and behind the older
bytes of the core (R201, R233, R245). -/
def mergeBits (k : Nat) (va : Word) (b : List Byte) (n : Nat) (s : State) : State :=
  if n % 8 = 0 then storeBytes s.me.core s.cur k va (b.take (n / 8)) s
  else
    let s := drainCore s.me.core s
    let old := leVal (s.homeBytes k (n / 8 + 1))
    let new := leVal b % 2 ^ n + old / 2 ^ n * 2 ^ n
    homeWrite (some s.me.core) none k (leBytes (n / 8 + 1) new) s

/-- Stores the bytes of a row to its pieces; the last byte of an LNS6 row keeps the bits beyond `bitsN`. -/
def storeRow (pw : Placed) (tag : Nat) (b : List Byte) (bitsN : Nat) (s : State) : State :=
  ((pw.filter (·.1.tag = tag)).foldl (fun (r : State × Nat) e =>
    match e.2 with
    | .cell k =>
      let n := min (8 * e.1.n) (bitsN - 8 * r.2)
      (mergeBits k e.1.addr ((b.drop r.2).take e.1.n) n r.1, r.2 + e.1.n)
    | .plain .. => r) (s, 0)).1

/-- Places of rows as a store writes their bytes whole; `odd` picks the rows whose last byte keeps some of its bits (R201, R204). -/
def wholeBytes (odd : Nat → Bool) (pw : Placed) : Placed :=
  pw.map fun e =>
    if odd e.1.tag && (pw.filter (·.1.tag = e.1.tag)).getLast? = some e then ({ e.1 with n := e.1.n - 1 }, e.2) else e

def storeTile (k : TReg) (f : TFmt) (rows cols bl : Nat) (pw : Placed) (s : State) : State :=
  let m := s.me
  coverSectors (wholeBytes (fun t => f = .lns6 && 6 * cols % 8 ≠ 0 && t % 2 = 0) pw) ((List.range rows).foldl (fun s r =>
    let bitsN := if f = .lns6 then 6 * cols else 8 * rowBytes f cols
    let s := storeRow pw (2 * r) (m.tileBytes k r 0 (rowBytes f cols)) bitsN s
    storeRow pw (2 * r + 1) (m.tileBytes k r 192 (ceilDiv cols bl)) (8 * ceilDiv cols bl) s) s)

/-- An error in a tile row that a store reads (R236). -/
def tilePoison (m : Strand) (k rows : Nat) : Option Trap :=
  ((List.range rows).find? fun r => k * 64 + r ∈ m.tpois).map fun r =>
    { cause := .poison, addr := word (0x8000000000010000 + k * 256 + r) }

def tstHead (o : TileOps) (s : State) : State :=
  let ts := tget {} s.me.tshape o.d
  tileHead false (badTile o.t ts.fmt o.lns.isSome) o.regs [(o.d.val, s.me.tdecl)] (fun s =>
    let rows := if ts.cols = 0 then 0 else ts.rows
    match tilePoison s.me o.d rows with
    | some t => takeTrap t s
    | none =>
      withPlaces (tilePieces ts.fmt rows ts.cols s.me.blen (s.rd o.a) (s.rd o.b) (o.scaleBase s) o.scaleStride) o.spc
        (if ts.fmt = .lns6 then .rw else .wr) false false
        (fun pw s => finish (storeTile o.d ts.fmt rows ts.cols s.me.blen pw s)) s) s

def execTst (t : Ty) (sp : Bool) (d : TReg) (a b : SReg) (s : State) : Out := .next (tstHead ⟨t, spcOf sp, false, d, a, b, none⟩ s)
def execTstLns6 (t : Ty) (sp : Bool) (d : TReg) (a b c : SReg) (h : Half) (s : State) : Out :=
  .next (tstHead ⟨t, spcOf sp, false, d, a, b, some (c, h)⟩ s)

/-! ### Gathered tiles (R234) -/

/-- The memory row of a column: its address, none for a zero column, or an index out of bounds. -/
def resolveColumn (s : State) (a b : Word) (v c : Nat) : Resolved :=
  let x := tget 0 s.me.vregs (v * 1024 + c)
  let i := x.toInt
  if 0 ≤ i then .at_ (a + BitVec.ofInt 64 i * b)
  else match s.me.vtype.oob with
    | .zero => .none
    | .clamp => .at_ a
    | .fault => .oob (x.signExtend 64)

/-- The transposed rows: element c of row r is element r of column c. -/
def gatheredRow (s : State) (f : TFmt) (cols : Nat) (pw : Placed) (r : Nat) : List Byte :=
  let e := elemBytes (tfmtTy f)
  (List.range cols).flatMap fun c =>
    let b := taggedBytes s pw c
    if b = [] then zeros e else (b.drop (r * e)).take e

def execTldg (t : Ty) (role : Bool) (d : TReg) (a b : SReg) (c : VReg) (m : MReg) (s : State) : Out :=
  let g := s.me.gshape
  let rows := liveRows g role
  let cols := g.lk
  let act := (s.me.lanes m).filter (· < cols)
  .next (tileHead false (badTile t g.fmt false) [a, b] [(c.val, s.me.vheld), (d.val, s.me.tdecl)] (fun s =>
    if !g.gv then takeTrap grantInvalid s
    else
      let e := elemBytes (tfmtTy g.fmt)
      let rs := act.map fun l => (l, resolveColumn s (s.rd a) (s.rd b) c l)
      match vpoison s [.own act c.val] with
      | some t => takeTrap t s
      | none =>
        match oobTrap rs .gen false with
        | some t => takeTrap t s
        | none =>
          let ps := rs.flatMap fun x => match x.2 with
            | .at_ adr => splitPages x.1 x.1 e 4 adr (rows * e)
            | _ => []
          withPlaces ps .gen .rd true true (fun pw s => withData pw .gen true (fun s =>
            let s := fillPlaces pw s
            finish (s.modMe fun m => m.putTile d g.fmt cols
              ((List.range rows).map fun r => (gatheredRow s g.fmt cols pw r, [])))) s) s) s)

/-! ### Matrix multiply (R75 to R79, R235, R236) -/

/-- A tile element of the grant's format: the code and the scale; none outside the tile's shape, where it reads as zero. -/
def Strand.tileElem (m : Strand) (f : TFmt) (k row col : Nat) : Option (Nat × Int) :=
  let ts := tget {} m.tshape k
  if row ≥ ts.rows || col ≥ ts.cols then none
  else if f = .lns6 then
    let w := leVal (m.tileBytes k row (6 * col / 8) 2)
    some (w / 2 ^ (6 * col % 8) % 64, signed8 (leVal (m.tileBytes k row (192 + col / m.blen) 1)))
  else
    let e := elemBytes (tfmtTy f)
    some (leVal (m.tileBytes k row (col * e) e), 0)

/-- The value of a tile element in a floating format. -/
def tileVal (f : TFmt) (x : Option (Nat × Int)) : FVal :=
  match x with
  | none => .fin false 0 0
  | some (c, _) => (floatOf (tfmtTy f)).decode c

/-- An exact product, and whether forming it raises NV. -/
def tileProduct (f : TFmt) (x y : Option (Nat × Int)) : FVal × Bool :=
  if f = .lns6 then
    match x, y with
    | some (a, sa), some (b, sb) => (lnsProduct a sa b sb, isNar a || isNar b)
    | some (a, _), none => if isNar a then (.nan true, true) else (.fin false 0 0, false)
    | none, some (b, _) => if isNar b then (.nan true, true) else (.fin false 0 0, false)
    | none, none => (.fin false 0 0, false)
  else
    let a := tileVal f x
    let b := tileVal f y
    let p := a.mul b
    (p.1, p.2 || a.isSig || b.isSig)

/-- One rounded addition of a term to an FP32 accumulator code. -/
def accAdd (acc : FRes) (p : FVal × Bool) : FRes :=
  let r := p.1.add .rne (FForm.f32.decode acc.bits)
  let d := FForm.f32.deliver .rne r.1
  { bits := d.bits, fl := (acc.fl.or d.fl).or { nv := r.2 || p.2 || (FForm.f32.decode acc.bits).isSig } }

/-- R76. -/
def chainO (c : Nat) (ps : List (FVal × Bool)) : FRes := ps.foldl accAdd { bits := c }

/-- The exact sum of a block of products. -/
def blockSum (ps : List (FVal × Bool)) : FVal × Bool :=
  match ps with
  | [] => (.fin false 0 0, false)
  | p :: t => t.foldl (fun x y => let r := x.1.add .rne y.1; (r.1, x.2 || y.2 || r.2)) p

/-- R78: blocks of 16 consecutive terms. -/
def chainR (c : Nat) (ps : List (FVal × Bool)) : FRes :=
  (List.range (ceilDiv ps.length 16)).foldl (fun acc b => accAdd acc (blockSum ((ps.drop (16 * b)).take 16))) { bits := c }

/-- An INT8 element. -/
def tileInt (u : Bool) (x : Option (Nat × Int)) : Int :=
  match x with
  | none => 0
  | some (c, _) => (IntTy.mk 8 (!u)).read c

/-- The exact INT8 sum, wrapped, with IOV against the accumulator's range (R54, R235). -/
def chainInt (unsigned : Bool) (c : Nat) (ts : List Int) : FRes :=
  let i : IntTy := ⟨32, !unsigned⟩
  let v := ts.foldl (· + ·) (i.read c)
  { bits := i.wrap v, fl := { iov := v < i.lo || v > i.hi } }

def zKey (k i j : Nat) : Nat := 4096 * k + 64 * i + j

structure MmaOps where
  t : Ty
  ua : Bool
  ub : Bool
  z : Bool
  ordered : Bool
  d : ZReg
  a : TReg
  b : TReg

/-- The result of one accumulator element. -/
def mmaElem (m : Strand) (o : MmaOps) (i j : Nat) : FRes :=
  let g := m.gshape
  let c := if o.z then 0 else (tget 0 m.zimg (zKey o.d i j)).toNat
  let xs := (List.range g.lk).map fun k => (m.tileElem g.fmt o.a i k, m.tileElem g.fmt o.b j k)
  if g.fmt = .int8 then chainInt (o.ua && o.ub) c (xs.map fun x => tileInt o.ua x.1 * tileInt o.ub x.2)
  else
    let ps := xs.map fun x => tileProduct g.fmt x.1 x.2
    if o.ordered then chainO c ps else chainR c ps

/-- POISON of R236: rows of ta and tb, then of the image. -/
def mmaPoison (m : Strand) (o : MmaOps) : Option Trap :=
  let g := m.gshape
  (tilePoison m o.a g.lm).or ((tilePoison m o.b g.ln).or
    (if o.z then none else
      ((List.range g.lm).find? fun r => o.d.val * 64 + r ∈ m.zpois).map fun r =>
        { cause := .poison, addr := word (0x8000000000020000 + o.d.val * 256 + r) }))

/-- All results are written together. -/
def mmaWrite (o : MmaOps) (s : State) : State :=
  let m := s.me
  let g := m.gshape
  let rs := (List.range g.lm).flatMap fun i => (List.range g.ln).map fun j => (zKey o.d i j, mmaElem m o i j)
  let zd := tget {} m.zdim o.d
  let zd := { zd with fp := if o.z then g.fmt ≠ .int8 else zd.fp, rows := max zd.rows g.lm, cols := max zd.cols g.ln }
  addFlags (orFlags (rs.map (·.2))) (s.modMe fun m => { m with
    zimg := rs.foldl (fun t e => tset 0 t e.1 (BitVec.ofNat 32 e.2.bits)) m.zimg
    zdim := tset {} m.zdim o.d zd })

/-- Work of an engine: at once, or when the engine's event comes. -/
def engine (i : Instr) (w : Wait) (k : State → State) (s : State) : State :=
  if s.me.vop = none && queues s then enqueue i (some w) s else k s

def mmaHead (i : Instr) (o : MmaOps) (s : State) : State :=
  let g := s.me.gshape
  let e := if o.t = .dflt then tfmtTy g.fmt else o.t
  let zd := tget {} s.me.zdim o.d
  let badFmt := !o.z && zd.fp ≠ (g.fmt ≠ .int8)
  tileHead ((o.ua || o.ub) && e ≠ .i8) ((o.t ≠ .dflt && o.t ≠ tfmtTy g.fmt) || badFmt) []
    [(o.b.val, s.me.tdecl), (o.a.val, s.me.tdecl), (o.d.val, s.me.zdecl)] (fun s =>
      if !g.gv || (g.fmt = .lns6 && g.gk % s.me.blen ≠ 0) then takeTrap grantInvalid s
      else engine i .mma (fun s =>
        match mmaPoison s.me o with
        | some t => takeTrap t s
        | none => complete (mmaWrite o s)) s) s

def execMmaO (t : Ty) (ua ub z : Bool) (d : ZReg) (a b : TReg) (s : State) : Out :=
  .next (mmaHead (.mmaO t ua ub z d a b) ⟨t, ua, ub, z, true, d, a, b⟩ s)
def execMmaR (t : Ty) (ua ub z : Bool) (d : ZReg) (a b : TReg) (s : State) : Out :=
  .next (mmaHead (.mmaR t ua ub z d a b) ⟨t, ua, ub, z, false, d, a, b⟩ s)

/-! ### Accumulator images (R238 to R240) -/

/-- Replaces an image. -/
def Strand.putImage (m : Strand) (k : Nat) (fp : Bool) (rows cols : Nat) (elems : List (Nat × Nat × Nat)) : Strand :=
  { m with
    zimg := elems.foldl (fun t e => tset 0 t (zKey k e.1 e.2.1) (BitVec.ofNat 32 e.2.2)) (m.zimg.filter fun e => e.1 / 4096 ≠ k)
    zdim := tset {} m.zdim k { fp := fp, rows := rows, cols := cols }
    zpois := m.zpois.filter fun x => x / 64 ≠ k }

def zldHead (t : Ty) (spc : Spc) (d : ZReg) (a b : SReg) (x : Imm) (s : State) : State :=
  let g := s.me.gshape
  tileHead false false [a, b] [(d.val, s.me.zdecl)] (fun s =>
    if !g.gv then takeTrap grantInvalid s
    else
      withPlaces ((List.range g.lm).flatMap fun r => rowPieces (s.ea a x) (s.rd b) (4 * g.ln) 4 r r) spc .rd false false
        (fun pw s => withData pw spc false (fun s =>
          let s := fillPlaces pw s
          let elems := (List.range g.lm).flatMap fun i =>
            let bs := taggedBytes s pw i
            (List.range g.ln).map fun j => (i, j, leVal ((bs.drop (4 * j)).take 4))
          finish (s.modMe fun m => m.putImage d (t = .f32) g.lm g.ln elems)) s) s) s

def execZld (t : Ty) (sp : Bool) (d : ZReg) (a b : SReg) (s : State) : Out := .next (zldHead t (spcOf sp) d a b 0 s)
def execZldImm (t : Ty) (sp : Bool) (d : ZReg) (a b : SReg) (x : Imm) (s : State) : Out := .next (zldHead t (spcOf sp) d a b x s)

/-- The stored code of an image element. -/
def zstElem (t : Ty) (m : RM) (x : Nat) : FRes :=
  match t with
  | .f16 => FForm.f16.cvt m (FForm.f32.decode x)
  | .bf16 => FForm.bf16.cvt m (FForm.f32.decode x)
  | _ => { bits := x }

def zstHead (t : Ty) (spc : Spc) (rm : Rmo) (d : ZReg) (a b : SReg) (x : Imm) (s : State) : State :=
  let zd := tget {} s.me.zdim d
  let size := elemBytes t
  tileHead false (zd.fp = (t = .i32) || (size = 4 && rm ≠ .frm)) [a, b] [(d.val, s.me.zdecl)] (fun s =>
    let rows := if zd.cols = 0 then 0 else zd.rows
    match ((List.range rows).find? fun r => d.val * 64 + r ∈ s.me.zpois) with
    | some r => takeTrap { cause := .poison, addr := word (0x8000000000020000 + d.val * 256 + r) } s
    | none =>
      withPlaces ((List.range rows).flatMap fun r => rowPieces (s.ea a x) (s.rd b) (size * zd.cols) size r r) spc .wr false false
        (fun pw s =>
          let m := s.me
          let s := (List.range rows).foldl (fun s i =>
            let cs := (List.range zd.cols).map fun j => zstElem t (m.mode rm) (tget 0 m.zimg (zKey d i j)).toNat
            addFlags (orFlags cs) (storeRow pw i (cs.flatMap fun c => leBytes size c.bits) (8 * size * zd.cols) s)) s
          finish (coverSectors pw s)) s) s

def execZst (t : Ty) (sp : Bool) (rm : Rmo) (d : ZReg) (a b : SReg) (s : State) : Out := .next (zstHead t (spcOf sp) rm d a b 0 s)
def execZstImm (t : Ty) (sp : Bool) (rm : Rmo) (d : ZReg) (a b : SReg) (x : Imm) (s : State) : Out :=
  .next (zstHead t (spcOf sp) rm d a b x s)

def execZclr (f : Bool) (d : ZReg) (s : State) : Out :=
  .next (tileHead false false [] [(d.val, s.me.zdecl)] (fun s => finish (s.modMe fun m => m.putImage d f 0 0 [])) s)

end Sys2Proof.Machine
end

