-- ==== Sys2Proof/Machine/Copy.lean ====
section
/-! DEFINITION. Tensor descriptors and copies (R241 to R245), and stage barriers (R246 to R253). -/

namespace Sys2Proof.Machine
open Sys2Proof

/-! ### Stage barriers -/

def State.barrier (s : State) (b : Nat) : Barrier := tget {} s.myCrew.barriers b

def setBarrier (cid b : Nat) (x : Barrier) (s : State) : State :=
  s.modCrew cid fun c => { c with barriers := tset {} c.barriers b x }

/-- `pending release` step of R250: a phase that is filled and released is freed; the Bool says so. -/
def freePhase (x : Barrier) : Barrier × Bool :=
  if x.rdone = x.rcnt && x.rph ≠ x.ph then ({ x with rph := x.rph + 1, rdone := 0 }, true) else (x, false)

/-- Completion of a fill phase (R250). -/
def completePhase (x : Barrier) : Barrier :=
  if x.exp > 0 && x.arr ≥ x.exp then
    let r := freePhase { x with ph := x.ph + 1, arr := x.arr - x.exp, exp := 0 }
    if r.2 then { r.1 with read := [] } else r.1
  else x

/-- `arrive` of R250. -/
def arriveBytes (n : Nat) (x : Barrier) : Barrier :=
  completePhase { x with ovr := x.ovr || x.arr ≥ x.exp, arr := (x.arr + n) % 2 ^ 32 }

/-- `release` of R250. -/
def releasePhase (x : Barrier) : Barrier × Bool :=
  if x.rdone = x.rcnt then ({ x with ovr := true }, false) else freePhase { x with rdone := x.rdone + 1 }

/-- A counter has passed `v` (R249). -/
def passed (c v : Word32) : Bool := 0 ≤ (c - v - 1).toInt

/-- Waiting strands test the barrier again (R247, R249, R253); idling strands of the crew may go on (R143). -/
def settleStage (cid b : Nat) (s : State) : State :=
  let x := tget {} (s.crew cid).barriers b
  let s := (s.crew cid).sids.foldl (fun s sid =>
    match (s.strand sid).wait with
    | some (.sbwait k free v) => if k = b && passed (if free then x.rph else x.ph) v then wake sid s else s
    | some (.tldE k) => if k = b && x.ph ≠ x.rph then wake sid s else s
    | _ => s) s
  wakeIdle cid s

def modBarrier (cid b : Nat) (f : Barrier → Barrier) (s : State) : State :=
  settleStage cid b (setBarrier cid b (f (tget {} (s.crew cid).barriers b)) s)

/-- A barrier number beyond the crew's count (R246). -/
def badBarrier (s : State) (b : Fin 16) : Bool := b.val ≥ s.myCrew.decl.nsb

/-- STAGE_OVER (R251): taking it clears OVER. -/
def stageOver (b : Fin 16) (k : State → State) (s : State) : State :=
  if s.me.sstrict && (s.barrier b).ovr then
    takeTrap { cause := .stageOver, addr := word b } (setBarrier s.me.crew b { s.barrier b with ovr := false } s)
  else k s

/-- A barrier head; `bad` judges the value of a register that it reads, before VOWN (R104). -/
def barrierHead (b : Fin 16) (rs : List SReg) (bad : Bool) (k : State → State) (s : State) : State :=
  checked [notOnSteward s, trapIf (badBarrier s b) (illegal 6), valueIllegal s rs bad] (tileHead false false rs [] k) s

def execSbinit (b : Fin 16) (a : SReg) (s : State) : Out :=
  let n := (s.rd a).toNat
  .next (barrierHead b [a] (n < 1 || n > 16) (fun s => modBarrier s.me.crew b (fun _ => { rcnt := n }) (finish s)) s)

def execSbexp (b : Fin 16) (a : SReg) (s : State) : Out :=
  let n := (s.rd a).toNat
  .next (barrierHead b [a] (n % 16 ≠ 0 || n ≥ 2 ^ 32) (stageOver b (fun s =>
    modBarrier s.me.crew b (fun x => completePhase { x with exp := min (x.exp + n) (2 ^ 32 - 1) }) (finish s))) s)

/-- The state word of R249. -/
def stageWord (x : Barrier) : Word :=
  word (x.ovr.toNat * 2 ^ 63 + x.rcnt * 2 ^ 37 + x.rdone * 2 ^ 32 + x.rph.toNat % 2 ^ 16 * 2 ^ 16 + x.ph.toNat % 2 ^ 16)

def execSbwait (free : Bool) (b : Fin 16) (d a : SReg) (s : State) : Out :=
  .next (barrierHead b [a] false (stageOver b (fun s =>
    let x := s.barrier b
    let v := (s.rd a).setWidth 32
    if passed (if free then x.rph else x.ph) v then finish (s.wr d (stageWord x))
    else beginWait (.sbwait b free v) s)) s)

def execSbrel (b : Fin 16) (s : State) : Out :=
  .next (barrierHead b [] false (stageOver b (fun s =>
    modBarrier s.me.crew b (fun x => let r := releasePhase x; if r.2 then { r.1 with read := [] } else r.1) (finish s))) s)

/-- The engine's release (R253). DEDUCED, log entry 81: the release that frees the phase empties the granules of every engine load of the
phase, as the worked image of P2 shows. -/
def engineRelease (cid b : Nat) (gs : List Nat) (s : State) : State :=
  let x := tget {} (s.crew cid).barriers b
  let r := releasePhase { x with read := x.read ++ gs }
  if r.2 then settleStage cid b (setBarrier cid b { r.1 with read := [] } (setFull false r.1.read s))
  else settleStage cid b (setBarrier cid b r.1 s)

/-- TLD_E_ENGINE_RELEASE. -/
def execTldEEngineRelease (s : State) : Out :=
  .next (match s.input with
    | some (.tldEEngineRelease sid) =>
      let cid := (s.strand sid).crew
      match (s.crew cid).releases.find? (·.1 = sid) with
      | some (k, b, gs) => engineRelease cid b gs (s.modCrew cid fun c => { c with releases := c.releases.erase (k, b, gs) })
      | none => s
    | _ => s)

/-- R253: waits for a filled phase, loads the tile, and leaves the release to the engine. -/
def tldEHead (o : TileOps) (sb : Fin 16) (s : State) : State :=
  tileHead false (badTile o.t s.me.gshape.fmt o.lns.isSome || badBarrier s sb) o.regs [(o.d.val, s.me.tdecl)] (fun s =>
    if !s.me.gshape.gv then takeTrap grantInvalid s
    else stageOver sb (fun s =>
      if (s.barrier sb).ph = (s.barrier sb).rph then beginWait (.tldE sb) s
      else tileLoad o (fun pw s =>
        let s := s.modMyCrew fun c => { c with releases := c.releases ++ [(s.cur, sb.val, placedGranules pw)] }
        let s := finish s
        if s.deferred then s else { s with events := s.events ++ [.tldEEngineRelease s.cur] }) s) s) s

def execTldE (t : Ty) (role : Bool) (sb : Fin 16) (d : TReg) (a b : SReg) (s : State) : Out :=
  .next (tldEHead ⟨t, .sp, role, d, a, b, none⟩ sb s)
def execTldELns6 (t : Ty) (role : Bool) (sb : Fin 16) (d : TReg) (a b c : SReg) (h : Half) (s : State) : Out :=
  .next (tldEHead ⟨t, .sp, role, d, a, b, some (c, h)⟩ sb s)

/-! ### Tensor descriptors (R241) -/

structure Tensor where
  base : Nat
  sbase : Nat
  ext : List Nat
  box : List Nat
  fmt : Nat
  dims : Nat
  perm : List Nat
  str : List Int
  reserved : Bool

def parseTensor (b : List Byte) : Tensor :=
  let n := bits (field b 41 1) 6 4 + 1
  let below {α : Type} (f : Nat → α) (other : Nat → α) : List α := (List.range 5).map fun d => if d < n then f d else other d
  { base := field b 0 8, sbase := field b 8 8
    ext := below (fun d => field b (16 + 4 * d) 4) (fun _ => 1)
    box := below (fun d => field b (36 + d) 1 + 1) (fun _ => 1)
    fmt := bits (field b 41 1) 3 0, dims := n
    perm := (List.range 5).map fun p => bits (field b 42 2) (3 * p + 2) (3 * p)
    str := 0 :: below (fun d => (IntTy.mk 40 true).read (field b (44 + 5 * (d - 1)) 5)) (fun _ => 0) |>.drop 1
    reserved := (field b 41 1).testBit 7 || (field b 42 2).testBit 15 || n > 5 }

/-- PERM names each of the first dimensions once, and itself above them. -/
def Tensor.permOk (t : Tensor) : Bool :=
  ((t.perm.take t.dims).all (· < t.dims)) && (t.perm.take t.dims).eraseDups.length = (t.perm.take t.dims).length
    && ((t.perm.zipIdx).drop t.dims).all fun e => e.1 = e.2

/-- A copy's box and layout (R243). -/
structure Layout where
  box : List Nat
  org : List Int
  fmt : TFmt
  perm : List Nat
  rowLen : Nat
  rows : Nat
  scales : Nat

def roundUp16 (n : Nat) : Nat := (n + 15) / 16 * 16

def nthI (l : List Int) (i : Nat) : Int := l.getD i 0
def nthN (l : List Nat) (i : Nat) : Nat := l.getD i 0

def copyBox (t : Tensor) (gr : Grant) (g : GShape) : List Nat :=
  match gr with
  | .none => t.box
  | .a => g.lk :: g.lm :: t.box.drop 2
  | .b => g.lk :: g.ln :: t.box.drop 2

/-- The origin of R243; coordinates of dimensions at or above NDIM are ignored. -/
def copyOrigin (t : Tensor) (c d : Word) : List Int :=
  let raw : List Int := [(IntTy.mk 32 true).read (bitsOf c 31 0), (IntTy.mk 32 true).read (bitsOf c 63 32),
    (IntTy.mk 32 true).read (bitsOf d 31 0), (IntTy.mk 16 true).read (bitsOf d 47 32), (IntTy.mk 16 true).read (bitsOf d 63 48)]
  (raw.zipIdx).map fun e => if e.2 < t.dims then e.1 else 0

def copyLayout (t : Tensor) (box : List Nat) (org : List Int) (bl : Nat) : Layout :=
  let f := (tfmtOf t.fmt).getD .int8
  let q := nthN t.perm 0
  let rowLen := if f = .lns6 then roundUp16 (3 * ceilDiv (nthN box 0) 4) else roundUp16 (nthN box q * elemBytes (tfmtTy f))
  let rows := (t.perm.drop 1).foldl (fun n p => n * nthN box p) 1
  { box := box, org := org, fmt := f, perm := t.perm, rowLen := rowLen, rows := rows,
    scales := if f = .lns6 then roundUp16 (rows * ceilDiv (nthN box 0) bl) else 0 }

def Layout.total (l : Layout) : Nat := l.rows * l.rowLen + l.scales

/-- DESC_INVALID (R243): the smallest DETAIL that applies, or 0. -/
def tensorFault (t : Tensor) (l : Layout) (bl : Nat) : Nat :=
  let lns := t.fmt = 7
  if t.base % 16 ≠ 0 then 1
  else if t.reserved || (tfmtOf t.fmt).isNone || (!lns && t.sbase ≠ 0) then 2
  else if !t.permOk then 3
  else if t.ext.any (· = 0) then 4
  else if l.total > 2 ^ 20 then 5
  else if lns && (nthN t.perm 0 ≠ 0 || nthI l.org 0 % bl ≠ 0 || t.sbase = 0) then 6
  else 0

/-- Digits of scratchpad row `r` in mixed radix, PERM[1] fastest: the offset along each dimension. -/
def rowDigits (l : Layout) (r : Nat) : List (Nat × Nat) :=
  ((l.perm.drop 1).foldl (fun (a : List (Nat × Nat) × Nat) p =>
    let b := nthN l.box p
    (a.1 ++ [(p, a.2 % b)], a.2 / b)) ([], r)).1

/-- Coordinates of a row along every dimension but PERM[0]. -/
def rowCoord (l : Layout) (r d : Nat) : Int :=
  nthI l.org d + (((rowDigits l r).find? (·.1 = d)).map (·.2)).getD 0

/-- Whether a row lies in the tensor along every dimension but PERM[0]. -/
def rowInside (t : Tensor) (l : Layout) (r : Nat) : Bool :=
  (l.perm.drop 1).all fun d => 0 ≤ rowCoord l r d && rowCoord l r d < nthN t.ext d

/-- The address of dimension 0's element 0 with the row's coordinates, `i` along PERM[0]. -/
def rowAddress (t : Tensor) (l : Layout) (r : Nat) (i : Int) : Int :=
  let q := nthN l.perm 0
  let coord (d : Nat) : Int := if d = q then i else rowCoord l r d
  t.base + ((List.range 4).foldl (fun n d => n + 16 * nthI t.str (d + 1) * coord (d + 1)) 0)

/-- One segment of a copy: scratchpad offset, generic address, bits moved. -/
abbrev Seg := Nat × Word × Nat

/-- The in-tensor data of row `r` (R243): one run where dimension 0 is innermost, single elements otherwise. -/
def rowSegs (t : Tensor) (l : Layout) (r : Nat) : List Seg :=
  let q := nthN l.perm 0
  let o := nthI l.org q
  let lo := max 0 o
  let hi : Int := min (nthN t.ext q) (o + nthN l.box q)
  if !rowInside t l r || hi ≤ lo then []
  else if q = 0 then
    let n := (hi - lo).toNat
    let at_ := (lo - o).toNat
    if l.fmt = .lns6 then [(r * l.rowLen + 6 * at_ / 8, BitVec.ofInt 64 (rowAddress t l r 0 + 6 * lo / 8), 6 * n)]
    else
      let e := elemBytes (tfmtTy l.fmt)
      [(r * l.rowLen + at_ * e, BitVec.ofInt 64 (rowAddress t l r 0 + lo * e), 8 * n * e)]
  else
    let e := elemBytes (tfmtTy l.fmt)
    let i0 := rowCoord l r 0
    (List.range (hi - lo).toNat).map fun k =>
      (r * l.rowLen + ((lo - o).toNat + k) * e, BitVec.ofInt 64 (rowAddress t l r (lo + k) + i0 * e), 8 * e)

/-- The in-tensor scales of row `r` of an LNS6 copy (R241). -/
def scaleSegs (t : Tensor) (l : Layout) (bl r : Nat) : List Seg :=
  let nb := ceilDiv (nthN t.ext 0) bl
  let per := ceilDiv (nthN l.box 0) bl
  let lin := rowCoord l r 1 + nthN t.ext 1 * (rowCoord l r 2 + nthN t.ext 2 * (rowCoord l r 3 + nthN t.ext 3 * rowCoord l r 4))
  if l.fmt ≠ .lns6 || !rowInside t l r then []
  else (List.range per).filterMap fun (j : Nat) =>
    let i0 : Int := nthI l.org 0 + (j : Int) * bl
    let o : Nat := l.rows * l.rowLen + r * per + j
    if 0 ≤ i0 && i0 < nthN t.ext 0 then
      some (o, BitVec.ofInt 64 (t.sbase + lin * nb + i0 / bl), 8)
    else none

def copySegs (t : Tensor) (l : Layout) (bl : Nat) : List Seg :=
  (List.range l.rows).flatMap (rowSegs t l) ++ (List.range l.rows).flatMap (scaleSegs t l bl)

/-- Pieces of the segments: the tag numbers the segment. -/
def segPieces (segs : List Seg) : List Piece :=
  (segs.zipIdx).flatMap fun e => splitPages 1024 e.2 1 32 e.1.2.1 ((e.1.2.2 + 7) / 8)

/-- What an untouched scratchpad byte of the range holds: zero, or packed zero codes. -/
def blankBytes (l : Layout) : List Byte :=
  let codes := 4 * ceilDiv (nthN l.box 0) 4
  let row := if l.fmt = .lns6 then
      (List.replicate (codes / 4) [0x10#8, 0x04#8, 0x41#8]).flatten ++ zeros (l.rowLen - 3 * (codes / 4))
    else zeros l.rowLen
  (List.replicate l.rows row).flatten ++ zeros l.scales

/-- Puts `n` bits at a byte offset of a table of bytes. -/
def putBits (t : Tab Byte) (o : Nat) (b : List Byte) (n : Nat) : Tab Byte :=
  let whole := (((b.take (n / 8)).zipIdx).foldl (fun t e => tset 0 t (o + e.2) e.1) t)
  if n % 8 = 0 then whole
  else
    let k := o + n / 8
    let old := (tget 0 t k).toNat
    let new := (b.getD (n / 8) 0).toNat % 2 ^ (n % 8) + old / 2 ^ (n % 8) * 2 ^ (n % 8)
    tset 0 whole k (BitVec.ofNat 8 new)

/-- The bytes of a segment, from its first, that its pieces read with an error (R204, R428). -/
def badBytes (s : State) (mine : Placed) : List Nat :=
  (mine.foldl (fun (a : List Nat × Nat) x =>
    let bad (j : Nat) : Bool := match x.2 with
      | .cell k => s.badFor s.me.core ((k + j) / 64)
      | .plain v f off => plainSector s (v, f, (off + j) / 64) = none
    (if poisonAddrs s x.1 x.2 = [] then a.1 else a.1 ++ ((List.range x.1.n).filter bad).map (· + a.2), a.2 + x.1.n)) ([], 0)).1

/-- The bytes that a `tcopy` delivers, and the scratchpad offsets that a poisoned source feeds. -/
def copyBytes (s : State) (l : Layout) (segs : List Seg) (pw : Placed) : List Byte × List Nat :=
  let blank := ((blankBytes l).zipIdx).foldl (fun t e => tset 0 t e.2 e.1) []
  let r := (segs.zipIdx).foldl (fun (a : Tab Byte × List Nat) e =>
    let mine := pw.filter (·.1.tag = e.2)
    (putBits a.1 e.1.1 (mine.flatMap fun x => x.2.bytes s x.1.n) e.1.2.2, a.2 ++ (badBytes s mine).map (· + e.1.1))) (blank, [])
  ((List.range l.total).map fun i => tget 0 r.1 i, r.2)

/-! ### Descriptor access (R242, R243) -/

/-- A descriptor as the caches hold it. -/
def cachedDesc (s : State) (k : Nat) : Option (List Byte) := (s.desc.find? (·.1 = k)).map (·.2)

/-- The copies of a descriptor are dropped; only the place of the address is found, and an address that leads to no memory has no copy. -/
def dropDesc (va : Word) (s : State) : State :=
  match translate s { s.ctx with app := false } .rd va.toNat with
  | .ok (.cell k) => { s with desc := s.desc.filter (·.1 ≠ k) }
  | _ => s

/-- R242: the older stores are performed, then the copies of the descriptor are dropped. -/
def execTdfence (a : SReg) (s : State) : Out :=
  .next (tileHead false false [a] [] (fun s =>
    let va := s.rd a
    if va.toNat % 64 ≠ 0 then takeTrap { cause := .misaligned, addr := va } s
    else release .device (fun s => finish (dropDesc va s)) s) s)

structure CopyOps where
  gr : Grant
  bv : Bool
  sb : Fin 16
  d : SReg
  a : SReg
  b : SReg
  c : SReg
  out : Bool

/-- A byte as the strands of core `core` have stored it, else at its home: what an access that no first-level line serves reads (R258). -/
def State.ownByte (s : State) (core k : Nat) : Byte := (bufByte core k s.sbuf (remoteByte core k s.rstores none)).getD (s.home k)

/-- Reads the descriptor, from a cached copy where there is one (R242, R306), and judges it and the scratchpad range; `k` goes on with the tensor and the layout. -/
def withTensor (o : CopyOps) (k : Tensor → Layout → State → State) (s : State) : State :=
  let va := s.rd o.b
  let sp := s.rd o.a
  if o.gr ≠ .none && !s.me.gshape.gv then takeTrap grantInvalid s
  else withPlaces [{ lane := 1024, addr := va, n := 64, align := 64 }] .gen .rd false false (fun pw s =>
    match pw with
    | (p, .cell key) :: _ =>
      let held := cachedDesc s key
      if held = none && s.poisonedFor s.me.core key 64 then takeTrap { cause := .poison, addr := p.addr } s
      else
        let bytes := held.getD ((List.range 64).map fun i => s.ownByte s.me.core (key + i))
        let s := if held = none then { s with desc := s.desc ++ [(key, bytes)] } else s
        let t := parseTensor bytes
        let bl := s.me.blen
        let l := copyLayout t (copyBox t o.gr s.me.gshape) (copyOrigin t (s.rd o.c) (s.rd o.d)) bl
        let bad := tensorFault t l bl
        if bad ≠ 0 then takeTrap { cause := .descInvalid, detail := bad, addr := va } s
        else if sp.toNat % 16 ≠ 0 then
          takeTrap { cause := .misaligned, detail := accessDetail .misaligned 0 false .sp (!o.out), addr := sp } s
        else if sp.toNat + l.total > s.myCrew.decl.spbytes then
          takeTrap { cause := .access, detail := accessDetail .access 2 false .sp (!o.out), addr := sp } s
        else k t l s
    | _ => s) s

/-- Lands one granule: bytes, full bit and count take effect together (R244, R284). -/
def landGranule (cid : Nat) (x : Landing) (s : State) : State :=
  let c := s.crew cid
  let k := cspKey (clusterOf c.core) (c.cspBase + x.off)
  let s := { s with mem := putBytes s.mem k x.bytes, mpois := if x.poison then addOnce s.mpois (k / 64) else if x.clears then s.mpois.filter (· ≠ k / 64) else s.mpois }
  let s := setFull true (granulesOf k x.bytes.length) s
  match x.sb with
  | some b => modBarrier cid b (arriveBytes 16) s
  | none => wakeIdle cid s

/-- Strands of a crew whose head waits for an outstanding operation of their own (R258) try again. -/
def wakeInterlocked (cid : Nat) (s : State) : State :=
  (s.crew cid).sids.foldl (fun s i => if .collective ∈ (s.strand i).waits then wakeWaits i (· = .collective) s else s) s

/-- Lands the next granule of a crew. -/
def landNext (cid : Nat) (s : State) : State :=
  match (s.crew cid).landings with
  | [] => s
  | x :: rest => wakeInterlocked cid (landGranule cid x (s.modCrew cid fun c => { c with landings := rest }))

def landAll (cid : Nat) : Nat → State → State
  | 0, s => s
  | n + 1, s => landAll cid n (landNext cid s)

/-- TCOPY_GRANULE_LAND. -/
def execTcopyGranuleLand (s : State) : Out :=
  .next (match s.input with
    | some (.tcopyGranuleLand cid) => landNext cid s
    | _ => s)

/-- The granules of a delivery to the scratchpad. -/
def deliveries (sid off : Nat) (b : List Byte) (bad : List Nat) (sb : Option Nat) (pages : List Nat) : List Landing :=
  (List.range (b.length / 16)).map fun i =>
    { sid := sid, off := off + 16 * i, bytes := (b.drop (16 * i)).take 16, poison := bad.any fun x => x / 16 = i, sb := sb
      clears := (off + 16 * i) % 64 = 48 && 3 ≤ i && !(bad.any fun x => i ≤ x / 16 + 3 && x / 16 ≤ i)
      last := i + 1 = b.length / 16, pages := if i + 1 = b.length / 16 then pages else [] }

/-- The 64 KiB pages of memory of a footprint. -/
def placedPages (pw : Placed) : List Nat := (pw.filterMap fun e => match e.2 with
  | .cell k => some (k / 65536)
  | .plain .. => none).eraseDups

/-- R243, R244. The source is read at issue; its granules land at once, or one by one when work stays queued. -/
def tcopyHead (o : CopyOps) (s : State) : State :=
  tileHead false (o.bv && badBarrier s o.sb) [o.a, o.b, o.c, o.d] [] (withTensor o (fun t l s =>
    let segs := copySegs t l s.me.blen
    let off := (s.rd o.a).toNat
    withPlaces (segPieces segs) .gen .rd false true (fun pw s =>
      match decodeInto s.ctx (pw.flatMap fun e => e.2.sectors e.1.n) s with
      | .fault c r a => takeTrap { cause := c, detail := accessDetail c r false .gen false, addr := word (a.getD 0) } s
      | .stall2 i => stallS2 i 0 (s.rd o.b) false s
      | .stallPri i => stallPri i (s.rd o.b) false false s
      | .ok s =>
        let r := copyBytes s l segs pw
        let ls := deliveries s.cur off r.1 r.2 (if o.bv then some o.sb.val else none) (placedPages pw)
        let s := finish (s.modMyCrew fun c => { c with landings := c.landings ++ ls })
        if s.deferred then s else landAll s.me.crew s.myCrew.landings.length s) s)) s

def execTcopy (gr : Grant) (bv : Bool) (sb : Fin 16) (d a b c : SReg) (s : State) : Out :=
  .next (tcopyHead ⟨gr, bv, sb, d, a, b, c, false⟩ s)

/-- The sectors of the scratchpad range that hold an error (R427). -/
def cspPoison (s : State) (off n : Nat) : Bool := s.poisoned (s.csp off) n

/-- R245: the in-tensor elements are written, later ones over earlier ones; a source error moves with its data. -/
def writeSegs (off : Nat) (segs : List Seg) (pw : Placed) (s : State) : State :=
  let tagged := segs.zipIdx
  let from_ (e : Seg × Nat) : Nat := off + e.1.1
  let s := tagged.foldl (fun s e => storeRow pw e.2 (s.homeBytes (s.csp (from_ e)) ((e.1.2.2 + 7) / 8)) e.1.2.2 s) s
  let s := coverSectors (wholeBytes (fun t => tagged.any fun e => e.2 = t && e.1.2.2 % 8 ≠ 0) pw) s
  let bad := tagged.flatMap fun e =>
    ((pw.filter (·.1.tag = e.2)).foldl (fun (a : List Nat × Nat) x => match x.2 with
      | .cell k => (a.1 ++ ((List.range x.1.n).filter fun j => cspPoison s (from_ e + a.2 + j) 1).map fun j => (k + j) / 64, a.2 + x.1.n)
      | .plain .. => a) ([], 0)).1
  if bad = [] then s
  else
    let s := drainCore s.me.core s
    { s with mpois := bad.foldl addOnce s.mpois }

def tcopyoHead (o : CopyOps) (s : State) : State :=
  tileHead false false [o.a, o.b, o.c, o.d] [] (withTensor o (fun t l s =>
    let segs := copySegs t l s.me.blen
    let off := (s.rd o.a).toNat
    withPlaces (segPieces segs) .gen (if l.fmt = .lns6 then .rw else .wr) false false (fun pw s =>
      finish (writeSegs off segs pw s)) s)) s

def execTcopyo (gr : Grant) (d a b c : SReg) (s : State) : Out := .next (tcopyoHead ⟨gr, false, 0, d, a, b, c, true⟩ s)

end Sys2Proof.Machine
end

