-- ==== Sys2Proof/Machine/Engine.lean ====
section
/-! DEFINITION. The vector sequencer and the memory pipeline (R262 to R267, R369), the fetch of a line (R93), a trap that is due
(R133), buffered stores (R296), and the events that end a wait: full/empty accesses (R213), the crew watchdog (R277) and the
deadline of `idle` (R143). -/

namespace Sys2Proof.Machine
open Sys2Proof

/-! ### Queued vector work -/

def outNext (o : Out) (s : State) : State := match o with
  | .next t => t
  | _ => s

/-- The meaning of a head that the VIQ holds (R262), run again for its next group. -/
def vectorRun (i : Instr) (s : State) : Out :=
  match i with
  | .vadd t sat d a y m => execVadd t sat d a y m s
  | .vaddImm t sat d a imm m => execVaddImm t sat d a imm m s
  | .vsub t sat d a y m => execVsub t sat d a y m s
  | .vsubImm t sat d a imm m => execVsubImm t sat d a imm m s
  | .vmul t d a y m => execVmul t d a y m s
  | .vmulImm t d a imm m => execVmulImm t d a imm m s
  | .vmulh t d a y m => execVmulh t d a y m s
  | .vmulhImm t d a imm m => execVmulhImm t d a imm m s
  | .vmin t d a y m => execVmin t d a y m s
  | .vminImm t d a imm m => execVminImm t d a imm m s
  | .vmax t d a y m => execVmax t d a y m s
  | .vmaxImm t d a imm m => execVmaxImm t d a imm m s
  | .vand t d a y m => execVand t d a y m s
  | .vandImm t d a imm m => execVandImm t d a imm m s
  | .vor t d a y m => execVor t d a y m s
  | .vorImm t d a imm m => execVorImm t d a imm m s
  | .vxor t d a y m => execVxor t d a y m s
  | .vxorImm t d a imm m => execVxorImm t d a imm m s
  | .vshl t d a y m => execVshl t d a y m s
  | .vshlImm t d a imm m => execVshlImm t d a imm m s
  | .vshr t d a y m => execVshr t d a y m s
  | .vshrImm t d a imm m => execVshrImm t d a imm m s
  | .vsra t d a y m => execVsra t d a y m s
  | .vsraImm t d a imm m => execVsraImm t d a imm m s
  | .vfadd t rm d a y m => execVfadd t rm d a y m s
  | .vfaddImm t rm d a imm m => execVfaddImm t rm d a imm m s
  | .vfsub t rm d a y m => execVfsub t rm d a y m s
  | .vfsubImm t rm d a imm m => execVfsubImm t rm d a imm m s
  | .vfmul t rm np d a y m => execVfmul t rm np d a y m s
  | .vfmulImm t rm np d a imm m => execVfmulImm t rm np d a imm m s
  | .vffma t rm np nc d a y m => execVffma t rm np nc d a y m s
  | .vffmaImm t rm np nc d a imm m => execVffmaImm t rm np nc d a imm m s
  | .vfmin t rm d a y m => execVfmin t rm d a y m s
  | .vfminImm t rm d a imm m => execVfminImm t rm d a imm m s
  | .vfmax t rm d a y m => execVfmax t rm d a y m s
  | .vfmaxImm t rm d a imm m => execVfmaxImm t rm d a imm m s
  | .vfdiv t rm d a y m => execVfdiv t rm d a y m s
  | .vfdivImm t rm d a imm m => execVfdivImm t rm d a imm m s
  | .vfsqrt t rm d a m => execVfsqrt t rm d a m s
  | .vfrsq t rm d a m => execVfrsq t rm d a m s
  | .vfexp2 t rm d a m => execVfexp2 t rm d a m s
  | .vflog2 t rm d a m => execVflog2 t rm d a m s
  | .vcvt dt st mode d a m => execVcvt dt st mode d a m s
  | .vlmul t d a b m => execVlmul t d a b m s
  | .vlmulGiven t g d a b m => execVlmulGiven t g d a b m s
  | .vladd t d a b m => execVladd t d a b m s
  | .vladdGiven t g d a b m => execVladdGiven t g d a b m s
  | .vcmp cc t z d a y m => execVcmp cc t z d a y m s
  | .vcmpImm cc t z d a imm m => execVcmpImm cc t z d a imm m s
  | .mand d a b => execMand d a b s
  | .mor d a b => execMor d a b s
  | .mxor d a b => execMxor d a b s
  | .mnot d a => execMnot d a s
  | .mpop d a m => execMpop d a m s
  | .mfirst d a m => execMfirst d a m s
  | .vsel t d a y m => execVsel t d a y m s
  | .vselImm t d a imm m => execVselImm t d a imm m s
  | .vperm t d a b m => execVperm t d a b m s
  | .vslideup t d a b m => execVslideup t d a b m s
  | .vslideupImm t d a imm m => execVslideupImm t d a imm m s
  | .vslidedn t d a b m => execVslidedn t d a b m s
  | .vslidednImm t d a imm m => execVslidednImm t d a imm m s
  | .vbcast t d a b m => execVbcast t d a b m s
  | .vbcastImm t d a imm m => execVbcastImm t d a imm m s
  | .vcompress t d x a c m => execVcompress t d x a c m s
  | .vexpand t d a m => execVexpand t d a m s
  | .viota t d a m => execViota t d a m s
  | .vmov t d y m => execVmov t d y m s
  | .vmovImm t d imm m => execVmovImm t d imm m s
  | .vmovs t op b => execVmovs t op b s
  | .vmovsImm t op imm => execVmovsImm t op imm s
  | .vid t d m => execVid t d m s
  | .vredsum t d a b m => execVredsum t d a b m s
  | .vredmax t d a b m => execVredmax t d a b m s
  | .vredmin t d a b m => execVredmin t d a b m s
  | .vany d a m => execVany d a m s
  | .vall d a m => execVall d a m s
  | .vld t sp d a b m => execVld t sp d a b m s
  | .vldImm t sp d a b imm m => execVldImm t sp d a b imm m s
  | .vst t sp d a b m => execVst t sp d a b m s
  | .vstImm t sp d a b imm m => execVstImm t sp d a b imm m s
  | .vlds t sp d a b m => execVlds t sp d a b m s
  | .vldsImm t sp d a b imm m => execVldsImm t sp d a b imm m s
  | .vsts t sp d a b m => execVsts t sp d a b m s
  | .vstsImm t sp d a b imm m => execVstsImm t sp d a b imm m s
  | .vldseg nf t sp d a m => execVldseg nf t sp d a m s
  | .vldsegImm nf t sp d a imm m => execVldsegImm nf t sp d a imm m s
  | .vstseg nf t sp d a m => execVstseg nf t sp d a m s
  | .vstsegImm nf t sp d a imm m => execVstsegImm nf t sp d a imm m s
  | .vgather t sp d a b m => execVgather t sp d a b m s
  | .vgatherBounded t sp d a b c m => execVgatherBounded t sp d a b c m s
  | .vscatter t sp d a b m => execVscatter t sp d a b m s
  | .vscatterBounded t sp d a b c m => execVscatterBounded t sp d a b c m s
  | .vgatherL t d a b m => execVgatherL t d a b m s
  | .vgatherLBounded t d a b c m => execVgatherLBounded t d a b c m s
  | .vscatterC t md d a b m => execVscatterC t md d a b m s
  | .vscatterCBounded t md d a b c m => execVscatterCBounded t md d a b c m s
  | .vldFe t take d a m => execVldFe t take d a m s
  | .vldFeImm t take d a imm m => execVldFeImm t take d a imm m s
  | .vstFe t d a m => execVstFe t d a m s
  | .vstFeImm t d a imm m => execVstFeImm t d a imm m s
  | .cvld t d a b m => execCvld t d a b m s
  | .cvldImm t d a b imm m => execCvldImm t d a b imm m s
  | .lldx t d a m => execLldx t d a m s
  | .lldxImm t d a imm m => execLldxImm t d a imm m s
  | .lstx t d a m => execLstx t d a m s
  | .lstxImm t d a imm m => execLstxImm t d a imm m s
  | .aupd a b m => execAupd a b m s
  | .vwait cc t sp tmo d a b c m => execVwait cc t sp tmo d a b c m s
  | .spclr zero a b => execSpclr zero a b s
  | .spclrImm zero a b imm => execSpclrImm zero a b imm s
  | .awin t op a b imm => execAwin t op a b imm s
  | .amerge => execAmerge s
  | .mmaO t ua ub z d a b => execMmaO t ua ub z d a b s
  | .mmaR t ua ub z d a b => execMmaR t ua ub z d a b s
  | _ => .next s

/-- The entry at hand goes on. -/
def resume (s : State) : State :=
  match s.me.vop with
  | some v => outNext (vectorRun v.instr (s.modMe fun m => { m with wait := none })) s
  | none => s

/-- Heads of MAJ 0x60 and 0x61, which the memory pipeline serves (R267): 2 for the loads that it commits group by group (R369), 1 for
stores, and 3 for what acts as a whole. -/
def pipelineKind : Instr → Nat
  | .vld .. | .vldImm .. | .vlds .. | .vldsImm .. | .vldseg .. | .vldsegImm .. | .vgather .. | .vgatherBounded ..
  | .vgatherL .. | .vgatherLBounded .. | .cvld .. | .cvldImm .. | .lldx .. | .lldxImm .. => 2
  | .vst .. | .vstImm .. | .vsts .. | .vstsImm .. | .vstseg .. | .vstsegImm .. | .vscatter .. | .vscatterBounded ..
  | .vscatterC .. | .vscatterCBounded .. | .lstx .. | .lstxImm .. | .aupd .. => 1
  | .vldFe .. | .vldFeImm .. | .vstFe .. | .vstFeImm .. | .vwait .. | .spclr .. | .spclrImm .. | .awin .. | .amerge => 3
  | _ => 0

/-- Element-wise instructions (R163). -/
def elementwise (i : Instr) : Bool :=
  let f := Coding.encodeFields i
  f.maj = 0x30 || f.maj = 0x40 || f.maj = 0x41 || (f.maj = 0x50 && f.fn = 2) || (f.maj = 0x58 && (f.fn = 0 || f.fn = 8 || f.fn = 10))

/-- The scalar register that a queued instruction writes (R96). -/
def scalarDst : Instr → Option SReg
  | .mpop d _ _ => some d
  | .mfirst d _ _ => some d
  | .vmovs _ (.ext d _) _ => some d
  | .vmovsImm _ (.ext d _) _ => some d
  | .vcompress _ _ _ _ c _ => some c
  | .vredsum _ d _ _ _ => some d
  | .vredmax _ d _ _ _ => some d
  | .vredmin _ d _ _ _ => some d
  | .vany d _ _ => some d
  | .vall d _ _ => some d
  | _ => none

def writesVl : Instr → Bool
  | .vcompress .. => true
  | _ => false

/-- Lanes of an entry that are effective from its progress on (R26); `vsel` is governed by the mask stack alone. -/
def VOp.lanes (o : VOp) (m : Strand) : List Nat :=
  let x := m.withFront o.front
  let f := Coding.encodeFields o.instr
  if f.maj = 0x58 && f.fn = 0 then x.lanesOf x.top else x.lanes (Fin.ofNat 8 f.m)

/-- Groups with an effective lane that have not issued (R264). -/
def VOp.groups (o : VOp) (m : Strand) : Nat := ((o.lanes m).map (· / 32)).eraseDups.length

/-- The end of the entry's next group, in whole blocks of both instructions (R164, R165). -/
def VOp.reach (o p : VOp) (m : Strand) : Nat :=
  let c := max 32 (max (blenVal o.front.vtype.blen) (blenVal p.front.vtype.blen))
  ((o.lanes m).headD 0 / c + 1) * c

/-- Whether the next group of entry `k` is available (R265): the oldest entry depends on nothing; an element-wise one goes on where every
older entry sweeps its lanes and is past them. A register with an error is left to the oldest entry, which may trap. -/
def chains (m : Strand) (k : Nat) (o : VOp) : Bool :=
  k = 0 || (elementwise o.instr && m.vpois = [] && (m.viq.take k).all fun p =>
    p.fin || (p.started && (elementwise p.instr || pipelineKind p.instr = 1 || pipelineKind p.instr = 2) && o.reach p m ≤ p.front.vstart))

/-! An entry runs with the front end of its place in program order, and what the front end has done since stays aside. -/

/-- The current strand as an entry finds it. -/
def Strand.asEntry (o : VOp) (m : Strand) : Strand :=
  { m.withFront o.front with
    viq := [], vop := some o, pool := [], wait := o.wait, waitFrom := o.waitFrom, waitCount := o.waitCount, carry := none, due := none
    failed := o.failed }

/-- Puts back the front end of `m`, and entry `k` as it stands now. -/
def Strand.fromEntry (m : Strand) (k : Nat) (o : VOp) (x : Strand) : Strand :=
  { x.withFront m.front with
    viq := m.viq.set k o, vop := none, pool := m.pool, wait := m.wait, waitFrom := m.waitFrom, waitCount := m.waitCount, carry := m.carry
    due := m.due, failed := m.failed }

/-- What a run has replaced: containers of vector registers, and from 2^20 words of mask registers. -/
def replaced (a b : Strand) : List (Nat × Word32) :=
  ((a.vregs ++ b.vregs).filter fun e => tget 0 a.vregs e.1 ≠ tget 0 b.vregs e.1).map (fun e => (e.1, tget 0 a.vregs e.1))
    ++ ((List.range 256).filter fun i => bits (tget 0 a.masks (i / 32)).toNat (i % 32 * 32 + 31) (i % 32 * 32)
        ≠ bits (tget 0 b.masks (i / 32)).toNat (i % 32 * 32 + 31) (i % 32 * 32)).map fun i =>
      (2 ^ 20 + i, BitVec.ofNat 32 (bits (tget 0 a.masks (i / 32)).toNat (i % 32 * 32 + 31) (i % 32 * 32)))

/-- Puts one of them back. -/
def putBack (m : Strand) (e : Nat × Word32) : Strand :=
  if e.1 < 2 ^ 20 then { m with vregs := tset 0 m.vregs e.1 e.2 }
  else
    let i := e.1 - 2 ^ 20
    let x := tget 0 m.masks (i / 32)
    let clear : Mask := ~~~(BitVec.ofNat 1024 (2 ^ 32 - 1) <<< (i % 32 * 32))
    { m with masks := tset 0 m.masks (i / 32) ((x &&& clear) ||| (e.2.setWidth 1024 <<< (i % 32 * 32))) }

/-- What a completed entry hands to what is younger: its flags, its scalar result, and for `vcompress` VL (R49, R96). -/
def Front.take (fl : FFlags) (r : Option (SReg × Word)) (vl : Option Nat) (f : Front) : Front :=
  let f := { f with fflags := f.fflags.or fl, vl := vl.getD f.vl }
  match r with
  | some (d, v) =>
    if d.val = 0 then f
    else { f with regs := tset 0 f.regs d.val v, pend := f.pend.filter (·.reg ≠ d), spois := f.spois.filter (· ≠ d.val) }
  | none => f

/-- The completed entries at the front of a queue leave it; the flags of those that go. -/
def popDone : List VOp → FFlags → List VOp × FFlags
  | [], fl => ([], fl)
  | o :: t, fl => if o.fin then popDone t (fl.or o.front.fflags) else (o :: t, fl)

/-- Withdraws what a blocking wait has left with its crew or grid (R277). -/
def withdrawWait (w : Wait) (s : State) : State :=
  match w with
  | .bsync b => s.modMyCrew fun c => { c with arrived := tset 0 c.arrived b (tget 0 c.arrived b &&& ~~~(bitAt s.me.index)) }
  | .gbar => s.modGrid s.myCrew.grid fun g => { g with arrived := g.arrived.filter (· ≠ s.cur) }
  | .regclm _ => s.modMyCrew fun c => { c with claims := c.claims.filter (·.sid ≠ s.cur) }
  | .fe .. => leaveFe s.cur s
  | .hpop h _ _ => s.modHeap (s.myGrid.heaps.getD h 0) fun x => { x with waiting := x.waiting.filter (· ≠ s.cur) }
  | _ => s

/-- The oldest entry, `x` where its meaning has left the strand, completes and leaves the queue with the completed entries behind it.
Rows may return, a halted strand may have drained, and a head that waits for the queue is tried again. -/
def finishHead (m : Strand) (o : VOp) (x : Strand) (s : State) : State :=
  let r := popDone (m.viq.drop 1) x.fflags
  let res := (scalarDst o.instr).map fun d => (d, if d.val = 0 then 0 else tget 0 x.regs d.val)
  let vl := if writesVl o.instr then some x.vl else none
  let young := r.1.map fun p => { p with front := p.front.take r.2 res vl }
  let s := s.modMe fun y => { y.withFront (y.front.take r.2 res vl) with
    viq := young, pool := if young = [] then [] else y.pool, wait := if y.wait = some .viq then none else y.wait }
  let ev : List Event := (if s.myCrew.returning ≠ [] then [.rowsFreed s.me.crew] else [])
    ++ (if s.me.run = .halted && young = [] then [.strandDrained s.cur] else [])
  let s := { s with events := s.events ++ ev }
  let s := s.others.foldl (fun s e => if e.2.wait = some .viq && s.me.drainsBeside e.2 then wake e.1 s else s) s
  if pipelineKind o.instr = 3 then wakeIdle s.me.crew s else s

/-- The oldest entry of `m` has trapped: nothing younger has had an effect (R133), claims give their rows back, and what the younger
heads wait for is withdrawn. -/
def squash (m : Strand) (got : List (List (List Word32 × Bool))) (s : State) : State :=
  let s := s.modMe fun x => { ((m.viq.drop 1).flatMap (·.undo)).reverse.foldl putBack x with viq := [], pool := [] }
  let s := leaveFe s.cur s
  let s := match m.wait with
    | some w => withdrawWait w s
    | none => s
  if got = [] then s
  else wakeIdle s.me.crew (grantClaims s.me.crew (s.modMyCrew fun c => { c with freeRows := c.freeRows ++ got.flatten }))

/-- Lets `f` act on entry `k` of the current strand. A trap of the oldest entry is taken as it stands there; an entry behind it that
would trap waits for its turn. On the KILL path of R47 the entry stays. -/
def runEntry (k : Nat) (f : State → State) (s : State) : State :=
  match s.me.viq[k]? with
  | none => s
  | some o =>
    let m := s.me
    let ops := m.pool.drop o.front.pool
    let u := unwind ops.reverse [] s
    let t := f (u.2.modMe (Strand.asEntry o))
    let back (y : VOp) : State := (rewind ops u.1 t).modMe (Strand.fromEntry m k y)
    if t.me.run = .drained then t
    else match t.me.vop with
      | some x =>
        let y := { x with
          front := { o.front with vstart := t.me.vstart, fflags := t.me.fflags }, wait := t.me.wait, waitFrom := t.me.waitFrom
          waitCount := t.me.waitCount, failed := t.me.failed, undo := if k = 0 then x.undo else x.undo ++ replaced u.2.me t.me }
        if y.fin && k = 0 then finishHead m o t.me (back y) else back y
      | none =>
        if t.me.deadmask ≠ m.deadmask then back { o with wait := none, failed := [] }
        else if k = 0 then squash m u.1 t
        else s

/-! ### The choice of a group (R264 to R267) -/

/-- A queued instruction whose next group is ready, as the sequencer sees it: the strand and its place in the queue. -/
structure Candidate where
  sid : Nat
  k : Nat := 0
  promoted : Bool
  groups : Nat
  entered : Nat
  slot : Nat
  whole : Bool := false
  deriving DecidableEq

/-- Every strand of State. -/
def State.strands (s : State) : List (Nat × Strand) := (s.cur, s.me) :: s.others

/-- Whether an entry has a chaining port (R265): from its first group until its last. -/
def VOp.holdsPort (o : VOp) : Bool := o.started && !o.fin && pipelineKind o.instr < 3

/-- Chaining ports in use on a core. DESIGN CHOICE, log entry 73: the halves of a split core share its 16. -/
def portsUsed (s : State) (core : Nat) : Nat :=
  (s.strands.flatMap fun e => if e.2.core = core then e.2.viq.filter VOp.holdsPort else []).length

/-- The entries of a strand that are ready (R264, R265): they wait for nothing, their next groups are available, and one that has
not started finds a free port. -/
def readyEntries (ports : Nat) (m : Strand) : List (VOp × Nat) :=
  m.viq.zipIdx.filter fun (o, k) => o.wait = none && !o.fin && chains m k o && (o.started || ports < 16)

/-- Promotion (R266). -/
def VOp.isPromoted (o : VOp) (now : Nat) : Bool := o.promoted || o.ready.any fun r => r + 256 ≤ now

/-- Whether the queue of a strand is served: of a halted one while its crew is not asked to stop (R263, R370). -/
def served (s : State) (m : Strand) : Bool := m.run = .running || (m.run = .halted && (s.crew m.crew).state = .resident)

def onUnit (s : State) (core : Nat) (half : Bool) (m : Strand) : Bool := m.core = core && m.half = half && served s m

/-- The ready instructions of one unit: arithmetic or the memory pipeline of a core or half-core. -/
def candidates (s : State) (core : Nat) (half : Bool) (memory : Bool) : List Candidate :=
  s.strands.flatMap fun (sid, m) =>
    if onUnit s core half m then
      ((readyEntries (portsUsed s core) m).filter fun e => (pipelineKind e.1.instr > 0) = memory).map fun (o, k) =>
        { sid := sid, k := k, promoted := o.isPromoted s.cycle, groups := o.groups m, entered := o.entered, slot := m.slot
          whole := !(elementwise o.instr || memory) }
    else []

/-- R264: promoted first and among them the oldest, then fewest groups remaining, then the oldest, then the lower slot. -/
def Candidate.before (a b : Candidate) : Bool :=
  if a.promoted ≠ b.promoted then a.promoted
  else if !a.promoted && a.groups ≠ b.groups then a.groups < b.groups
  else if a.entered ≠ b.entered then a.entered < b.entered
  else a.slot < b.slot

def chooseGroup : List Candidate → Option Candidate
  | [] => none
  | a :: t => match chooseGroup t with
    | some b => if b.before a then some b else some a
    | none => some a

def modEntry (k : Nat) (f : VOp → VOp) (m : Strand) : Strand := { m with viq := m.viq.modify k f }

/-- From when an instruction has been ready without a break and not been chosen (R266). -/
def VOp.noteReady (ready : Bool) (now : Nat) (o : VOp) : VOp := { o with ready := if ready then some (o.ready.getD now) else none }

/-- The same for every instruction of a unit, whose ready ones are `cs`. -/
def noteReady (core : Nat) (half memory : Bool) (cs : List Candidate) (s : State) : State :=
  let note (sid : Nat) (x : VOp × Nat) : VOp :=
    if decide (pipelineKind x.1.instr > 0) = memory then x.1.noteReady (cs.any fun c => c.sid = sid && c.k = x.2) s.cycle else x.1
  s.strands.foldl (fun s e =>
    if onUnit s core half e.2 then s.modStrand e.1 fun m => { m with viq := m.viq.zipIdx.map (note e.1) } else s) s

/-- A group of the chosen instruction issues: a load's goes out as a request, and its reply commits it (R369). -/
def issueGroup (c : Candidate) (s : State) : State :=
  let s := s.modStrand c.sid (modEntry c.k fun o => { o with ready := none, promoted := c.promoted })
  match (s.strand c.sid).viq[c.k]? with
  | some o =>
    if pipelineKind o.instr = 2 && o.placed.isSome then
      s.modStrand c.sid (modEntry c.k fun o => { o with wait := some .loadReply, waitFrom := s.cycle, started := true })
    else onStrand c.sid (runEntry c.k resume) s
  | none => s

/-- Fills lane rows in turn; a whole instruction takes every row, so that it is chosen for the first or not at all. -/
def fillRows (core : Nat) (half memory : Bool) : Nat → Bool → State → State
  | 0, _, s => s
  | n + 1, first, s =>
    match chooseGroup ((candidates s core half memory).filter fun c => first || !c.whole) with
    | none => s
    | some c => if c.whole then issueGroup c s else fillRows core half memory n false (issueGroup c s)

/-- VECTOR_GROUP_ISSUE: a cycle of one unit, in which each lane row receives a group (R264, R267). -/
def execVectorGroupIssue (s : State) : Out :=
  .next (match s.input with
    | some (.vectorGroupIssue u) =>
      let core := u / 4
      let half : Bool := u / 2 % 2 = 1
      let memory : Bool := u % 2 = 1
      fillRows core half memory (s.classOf core).laneRows true (noteReady core half memory (candidates s core half memory) s)
    | _ => s)

/-- PROMOTION (R266). -/
def execPromotion (s : State) : Out :=
  .next (match s.input with
    | some (.promotion sid) => s.modStrand sid fun m =>
        { m with viq := m.viq.map fun o => { o with promoted := o.isPromoted s.cycle } }
    | _ => s)

/-- What the oldest entry of a strand waits for. -/
def headWait (m : Strand) : Option Wait := m.viq.head?.bind (·.wait)

/-- The oldest entry of strand `sid` goes on, where it waits as `f` says. -/
def runHeadEntry (sid : Nat) (f : Wait → Bool) (g : State → State) (s : State) : State :=
  if served s (s.strand sid) && (headWait (s.strand sid)).any f then onStrand sid (runEntry 0 g) s else s

/-- LOAD_REPLY: the replies of the oldest group have arrived, and it commits (R369). -/
def execLoadReply (s : State) : Out :=
  .next (match s.input with
    | some (.loadReply sid) => runHeadEntry sid (· = .loadReply) resume s
    | _ => s)

/-- LOAD_REPLY_ABANDON: after 2,048 cycles the replies are given up; VSTART is the first element not committed (R369). -/
def execLoadReplyAbandon (s : State) : Out :=
  .next (match s.input with
    | some (.loadReplyAbandon sid) =>
      match (s.strand sid).viq with
      | o :: _ =>
        if o.wait = some .loadReply && reached s (o.waitFrom + Config.loadReplyLimit) then
          s.modStrand sid (modEntry 0 fun o => { o with wait := none })
        else s
      | [] => s
    | _ => s)

/-- FE_ACCESS_PERFORM: every granule is ready and no older access waits for one of them (R213). -/
def feAccessPerform (sid : Nat) (s : State) : State :=
  match feNeeds (s.strand sid) with
  | some (gs, full) =>
    if feReady s gs full && !feBehind s sid gs full then runHeadEntry sid (fun w => match w with
      | .fe .. => true
      | _ => false) resume s
    else s
  | none => s

def execFeAccessPerform (s : State) : Out :=
  .next (match s.input with
    | some (.feAccessPerform sid) => feAccessPerform sid s
    | _ => s)

def isVwait : Wait → Bool
  | .vwait .. => true
  | _ => false

/-- VWAIT_LANE_MET (R225). -/
def execVwaitLaneMet (s : State) : Out :=
  .next (match s.input with
    | some (.vwaitLaneMet sid) => runHeadEntry sid isVwait waitPoll s
    | _ => s)

/-- VWAIT_TIMEOUT (R225). -/
def execVwaitTimeout (s : State) : Out :=
  .next (match s.input with
    | some (.vwaitTimeout sid) => runHeadEntry sid isVwait waitExpire s
    | _ => s)

/-- MMA_COMPLETE (R237). -/
def execMmaComplete (s : State) : Out :=
  .next (match s.input with
    | some (.mmaComplete sid) => runHeadEntry sid (· = .mma) resume s
    | _ => s)

/-! ### Lines and traps -/

/-- Puts the line of the current PC into use, or takes the trap, or waits, as R93 orders; steps 1 to 4. -/
def lineFetch (s : State) : State :=
  let m := s.me
  let va := m.pc.toNat / 64 * 64
  let trap (t : Trap) : State := takeTrapAs m.via { t with addr := word va } s
  match fetchLine s va with
  | .trap t => trap t
  | .stall2 i => stallS2 i 2 (word va) false s
  | .stallPri i => stallPri i (word va) false false s
  | .lost d => beginWait (.remote d (word va)) s
  | .line halfs =>
    let h := headCount halfs
    let i := bitsOf m.pc 5 0
    if i < 1 || h < i then trap { cause := .badTarget, detail := h }
    else
      let s := match translate s s.ctx .fetch va with
        | .ok (.cell k) => touch k s
        | _ => s
      s.modMe fun m => { m with line := some { addr := word va, halfs := halfs } }

/-- LINE_FETCH: a strand that has left its line, or that has just transferred, fetches. -/
def execLineFetch (s : State) : Out :=
  .next (match s.input with
    | some .lineFetch => if s.me.run = .running && s.me.wait = none then lineFetch s else s
    | _ => s)

/-- TRAP_ENTRY: the trap that another agent has determined for the current strand, once its older work has completed. -/
def execTrapEntry (s : State) : Out :=
  .next (match s.input with
    | some (.trapEntry code detail addr lanes) =>
      if s.me.due = some (.ofCode code, detail, addr, lanes) then takeDue s.cur (fun _ => true) s else s
    | _ => s)

/-! ### Stores -/

/-- Whether an older buffered store of the core writes a byte of `p`: one address keeps its order (R297). -/
def PStore.overlaps (p q : PStore) : Bool := p.core = q.core && p.key < q.key + q.bytes.length && q.key < p.key + p.bytes.length

/-- The store at index `i` of the buffer is performed at its home. -/
def storePerformed (core i : Nat) (s : State) : State :=
  match s.sbuf[i]? with
  | some p =>
    if p.core = core && !(s.sbuf.take i).any (·.overlaps p) then performStore p { s with sbuf := s.sbuf.eraseIdx i } else s
  | none => s

/-- STORE_PERFORMED (R296). -/
def execStorePerformed (s : State) : Out :=
  .next (match s.input with
    | some (.storePerformed core i) => storePerformed core i s
    | _ => s)

/-! ### The crew watchdog and deadlines -/

/-- Since when the strand is blocked: its front end, or its oldest entry, waits in a blocking instruction (R276). -/
def Strand.blockedFrom (m : Strand) : Option Nat :=
  let front := if m.wait.any Wait.blocking then some m.waitFrom else none
  match m.viq.head? with
  | some o => if (o.wait.any Wait.blocking) then some (front.elim o.waitFrom (min o.waitFrom)) else front
  | none => front

def Strand.blocked (m : Strand) : Bool := m.blockedFrom.isSome

/-- The trap of an expired wait (R214, R225, R251, R277). -/
def watchdogTrap (s : State) : Wait → Trap
  | .fe _ _ lanes low => { cause := .feTimeout, addr := word low, lanes := lanes }
  | .vwait i pend _ =>
    let p := pend &&& ~~~s.me.deadmask
    { cause := .feTimeout, addr := pendingAddr s i p, lanes := p }
  | .sbwait b _ _ => { cause := .feTimeout, addr := word b }
  | .tldE b => { cause := .feTimeout, addr := word b }
  | .bsync b => { cause := .watchdog, detail := 1, addr := word b }
  | .gbar => { cause := .watchdog, detail := 2 }
  | .regclm _ => { cause := .watchdog, detail := 3 }
  | .colwait => { cause := .watchdog, detail := 4 }
  | .hpop h _ _ => { cause := .watchdog, detail := 5, addr := word h }
  | _ => { cause := .watchdog }

/-- A full/empty access tries once more, so that its unready lanes are those of now. -/
def refreshWait (s : State) : State :=
  match s.me.wait with
  | some (.fe ..) => resume s
  | _ => s

/-- The wait at hand has expired: its instruction traps. -/
def expireWait (s : State) : State :=
  let s := refreshWait s
  match s.me.wait with
  | some w => if w.blocking then takeTrap (watchdogTrap s w) ((withdrawWait w s).modMe fun m => { m with wait := none }) else s
  | none => s

/-- A blocking wait of the oldest entry expires, or that of the front end once nothing older is left, which would trap first. -/
def watchdogExpire (s : State) : State :=
  let m := s.me
  let limit := s.myGrid.lrec.watchdog
  if !served s m || s.landing s.cur then s
  else match m.viq with
    | o :: _ => if o.wait.any Wait.blocking && limit ≤ o.waitCount + (s.cycle - o.waitFrom) then runEntry 0 expireWait s else s
    | [] => if m.wait.any Wait.blocking && limit ≤ m.waited s.cycle then expireWait s else s

/-- CREW_WATCHDOG_EXPIRE (R277). -/
def execCrewWatchdogExpire (s : State) : Out :=
  .next (match s.input with
    | some (.crewWatchdogExpire sid) => onStrand sid watchdogExpire s
    | _ => s)

/-- IDLE_DEADLINE (R143). -/
def execIdleDeadline (s : State) : Out :=
  .next (match s.input with
    | some (.idleDeadline sid) =>
      match (s.strand sid).wait with
      | some (.idle (some t)) => if reached s t then wakeComplete [sid] (fun _ => true) s else s
      | _ => s
    | _ => s)

end Sys2Proof.Machine
end

