-- ==== Sys2Proof/Machine/Heap.lean ====
section
/-! DEFINITION. The gain heap (R319 to R343): images and binding, the six heap instructions, waiting pops, and write-back. -/

namespace Sys2Proof.Machine
open Sys2Proof

/-! ### Gains (R323, R324) -/

/-- `store_gain`. -/
def Heap.storeGain (h : Heap) (t : Nat) (x : Int) : Heap :=
  let v := (min (max x 0) gmax).toNat
  { h with
    gneg := h.gneg || decide (x < 0), gsat := h.gsat || decide (x > gmax)
    resid := h.resid + v - tget 0 h.gain t, gain := tset 0 h.gain t v }

def Heap.isRunning (h : Heap) (t : Nat) : Bool := (tget none h.runs t).isSome

/-- The idle live task with the largest gain, the lowest index on a tie (R331). -/
def Heap.best (h : Heap) : Option (Nat × Nat) :=
  h.gain.foldl (fun b e =>
    if e.1 < h.live && e.2 > 0 && !h.isRunning e.1 then
      match b with
      | some x => if e.2 > x.2 then some e else b
      | none => some e
    else b) none

def endToken : Word := 0xFFFFFFFFFFFFFFFF
def noneToken : Word := 0xFFFFFFFFFFFFFFFE

/-- What a pop answers: the heap after it, the task or token, the gain, and whether it acquires from a contributor. -/
structure Popped where
  heap : Heap
  task : Word
  gain : Word
  acquires : Bool

/-- `hpop` at its linearisation point (R331); none where it waits. -/
def Heap.pop (h : Heap) (cid : Nat) (nb : Bool) : Option Popped :=
  if h.done then some ⟨h, endToken, 0, false⟩
  else if h.resid < h.tol || (h.running = 0 && h.resid = 0) then some ⟨{ h with done := true }, endToken, 0, false⟩
  else match h.best with
    | some (t, g) =>
      some ⟨{ h with
        gain := tset 0 h.gain t 0, runs := tset none h.runs t (some (g, cid)), running := h.running + 1
        contrib := h.contrib.filter (· ≠ t) }, word t, word g, decide (t ∈ h.contrib)⟩
    | none => if nb then some ⟨h, noneToken, 0, false⟩ else none

/-- The results of a pop reach their strand; an acquire drops the lines of its core (R338). -/
def deliverPop (sid : Nat) (d c : SReg) (p : Popped) (s : State) : State :=
  let s := if p.acquires then dropLines (s.strand sid).core s else s
  s.modStrand sid fun m => (m.wr d p.task).wr c p.gain

/-- Tests one waiting pop. -/
def wakePop (slot sid : Nat) (s : State) : State :=
  match (s.strand sid).wait with
  | some (.hpop _ d c) =>
    match (s.heap slot).pop (s.strand sid).crew false with
    | some p =>
      let s := s.modHeap slot fun _ => { p.heap with waiting := p.heap.waiting.filter (· ≠ sid) }
      wakeComplete [sid] (fun _ => true) (deliverPop sid d c p s)
    | none => s
  | _ => s

/-- Waiting pops are tested in the order of their arrival (R331). -/
def settleHeap (slot : Nat) (s : State) : State := (s.heap slot).waiting.foldl (fun s sid => wakePop slot sid s) s

/-- HPOP_WAKE. -/
def execHpopWake (s : State) : Out :=
  .next (match s.input with
    | some (.hpopWake slot) => settleHeap slot s
    | _ => s)

/-! ### The instructions (R329 to R336) -/

def heapBounds (detail : Nat) (addr : Word) : Trap := { cause := .heapBounds, detail := detail, addr := addr }

/-- The checks of a heap head; `k` runs at the linearisation point with the slot. A heap that is still being read in stalls the
strand (R327), and a release performs the older accesses first (R338). -/
def heapHead (rel : Bool) (h : Fin 4) (rs : List SReg) (k : Nat → State → State) (s : State) : State :=
  checked [notOnSteward s, stallShort s rs, trapIf (h.val ≥ s.myGrid.heaps.length) (heapBounds 3 (word h)), scalarPoison s rs]
    (fun s =>
      let slot := s.myGrid.heaps.getD h 0
      if !(s.heap slot).ready then beginWait .heapBind s
      else if rel then release .device (k slot) s else k slot s) s

/-- An operation on a live task (R330). -/
def taskHead (rel : Bool) (h : Fin 4) (rs : List SReg) (a : SReg) (k : Nat → Nat → State → State) (s : State) : State :=
  heapHead rel h rs (fun slot s =>
    let t := (s.rd a).toNat
    if t ≥ (s.heap slot).live then takeTrap (heapBounds 1 (s.rd a)) s else k slot t s) s

def execHpop (nb : Bool) (h : Fin 4) (d c : SReg) (s : State) : Out :=
  .next (heapHead false h [] (fun slot s =>
    match (s.heap slot).pop s.me.crew nb with
    | some p => settleHeap slot (finish (deliverPop s.cur d c p (s.modHeap slot fun _ => p.heap)))
    | none => beginWait (.hpop h d c) (s.modHeap slot fun x => { x with waiting := x.waiting ++ [s.cur] })) s)

/-- `gadd` and `gset` (R332); `f` takes the old gain and the operand. -/
def reviseHead (rel : Bool) (h : Fin 4) (d a b : SReg) (f : Int → Int → Int) (s : State) : State :=
  taskHead rel h [a, b] a (fun slot t s =>
    let old := tget 0 (s.heap slot).gain t
    let y := (s.rd b).toInt
    let s := s.modHeap slot fun x =>
      let x := x.storeGain t (f old y)
      if rel then { x with contrib := addOnce x.contrib t } else x
    settleHeap slot (finish (s.wr d (word old)))) s

def execGadd (rel : Bool) (h : Fin 4) (d a b : SReg) (s : State) : Out := .next (reviseHead rel h d a b (· + ·) s)
def execGset (rel : Bool) (h : Fin 4) (d a b : SReg) (s : State) : Out := .next (reviseHead rel h d a b (fun _ y => y) s)

/-- R333. -/
def execHgrow (h : Fin 4) (d a : SReg) (s : State) : Out :=
  .next (heapHead false h [a] (fun slot s =>
    let x := s.heap slot
    let n := (s.rd a).toNat
    if x.live + n ≤ x.cap then settleHeap slot (finish ((s.modHeap slot fun x => { x with live := x.live + n }).wr d (word x.live)))
    else settleHeap slot (finish (s.wr d endToken))) s)

/-- R334. -/
def execHdone (rel : Bool) (h : Fin 4) (a : SReg) (s : State) : Out :=
  .next (taskHead rel h [a] a (fun slot t s =>
    match tget none (s.heap slot).runs t with
    | none => takeTrap (heapBounds 2 (s.rd a)) s
    | some (held, _) =>
      let s := s.modHeap slot fun x => { x with
        resid := x.resid - held, runs := tset none x.runs t none, running := x.running - 1
        contrib := if rel then addOnce x.contrib t else x.contrib }
      settleHeap slot (finish s)) s)

/-- FLAGS (R326). -/
def Heap.flags (h : Heap) : Nat := h.gsat.toNat * 4 + h.gneg.toNat * 2 + h.done.toNat

/-- R335. -/
def Heap.item (h : Heap) : HSel → Word
  | .rlo => word h.resid
  | .rhi => word (h.resid / 2 ^ 64)
  | .live => word h.live
  | .run => word h.running
  | .flags => word h.flags
  | .tol => word h.tol
  | .cap => word h.cap

def execHres (sel : HSel) (h : Fin 4) (d : SReg) (s : State) : Out :=
  .next (heapHead false h [] (fun slot s => settleHeap slot (finish (s.wr d ((s.heap slot).item sel)))) s)

/-! ### Images (R326, R327) -/

/-- Bytes of the image at `va`, by its header where that can be read (R322, R326). -/
def imageBytes (s : State) (c : Ctx) (va : Nat) : Nat :=
  match fetchBytes s c va 64 [] with
  | .bytes b => 64 + 16 * min (field b 0 8) 4194304
  | _ => 64

/-- What reading a range of a context answers: its bytes, or that it cannot be read, or that it stalls. -/
def imageRange (s : State) (c : Ctx) (va n : Nat) : Fetch :=
  match pagesOf s c .rw va (pageCount va n) with
  | .ok pages =>
    if (rangePoison s pages va n).isSome then .unreadable
    else .bytes (pages.flatMap fun p =>
      let lo := max va p.1
      let hi := min (va + n) (p.1 + 65536)
      if lo < hi then s.homeBytes (p.2 + (lo - p.1)) (hi - lo) else [])
  | .fault .. => .unreadable
  | .stall2 _ => .stalled
  | .stallPri _ => .stalled

/-- A header and entries as a heap before binding, none where a check of R327 fails. -/
def parseImage (hd : List Byte) (entries : List Byte) : Option Heap :=
  let cap := field hd 0 8
  let live := field hd 8 8
  let fl := field hd 40 8
  let es := (List.range live).map fun t => (t, field entries (16 * t) 8, field entries (16 * t + 8) 8)
  let ok := 1 ≤ cap && cap ≤ 4194304 && live ≤ cap && field hd 33 7 = 0 && fl < 8 && field hd 56 8 = 0
    && es.all fun e => e.2.1 ≤ gmax && bits e.2.2 62 49 = 0 && (e.2.2.testBit 63 || bits e.2.2 48 0 = 0)
  if !ok then none
  else
    let h : Heap := { cap := cap, live := live, tol := field hd 16 8, done := fl.testBit 0, gneg := fl.testBit 1, gsat := fl.testBit 2 }
    some (es.foldl (fun (h : Heap) e =>
      let g := e.2.1 + bits e.2.2 48 0
      { h with gain := tset 0 h.gain e.1 (min g gmax), gsat := h.gsat || decide (g > gmax), resid := h.resid + min g gmax }) h)

/-- Reads and checks the image at `va` (R322, R327). -/
inductive Bind where
  | heap (h : Heap)
  | invalid
  | stalled

def readImage (s : State) (c : Ctx) (va : Nat) : Bind :=
  if va % 64 ≠ 0 then .invalid
  else match imageRange s c va 64 with
    | .unreadable => .invalid
    | .stalled => .stalled
    | .bytes hd =>
      let cap := field hd 0 8
      let live := field hd 8 8
      if cap < 1 || cap > 4194304 || live > cap then .invalid
      else match pagesOf s c .rw va (pageCount va (64 + 16 * cap)) with
        | .fault .. => .invalid
        | .stall2 _ => .stalled
        | .stallPri _ => .stalled
        | .ok ps =>
          match imageRange s c va (64 + 16 * live) with
          | .unreadable => .invalid
          | .stalled => .stalled
          | .bytes b => match parseImage hd (b.drop 64) with
            | some h => .heap { h with image := word va, pages := ps }
            | none => .invalid

/-- The heap image addresses of a record's HEAPTAB, none where it cannot be read; a stall of the read also has no answer yet. -/
def heapTable (s : State) (c : Ctx) (r : LaunchRec) : Fetch := fetchBytes s c r.heaptab.toNat (8 * r.nheap) []

def tableEntries (n : Nat) (b : List Byte) : List Nat := (List.range n).map fun i => field b (8 * i) 8

/-- Cores of a partition by die (R319). -/
def coresOnDie (s : State) (p d : Nat) : Nat :=
  ((List.range Config.stewardBase).filter fun c => dieOf c = d && p ∈ ownersOf s c none).length

/-- Dies in the order in which a partition's heaps take their slots (R319). -/
def dieOrder (s : State) (p : Nat) : List Nat :=
  let best := (List.range 4).foldl (fun b d => if coresOnDie s p d > coresOnDie s p b then d else b) 0
  best :: (List.range 4).filter (· ≠ best)

/-- Free slots in the order of R319. -/
def freeSlots (s : State) (p : Nat) : List Nat :=
  ((dieOrder s p).flatMap fun d => (List.range 4).map (· + 4 * d)).filter fun h => (s.heap h).grid = none

/-- Slots that a partition's grids hold. -/
def slotsHeld (s : State) (p : Nat) : Nat :=
  (s.heaps.filter fun e => match e.2.grid with
    | some g => (s.grid g).part = p
    | none => false).length

/-- Whether a heap of a context of VF `v` holds the image at `va` (R319): bound, or saved by a Freeze and not yet bound again or written
back (R342, R343). -/
def imageHeld (s : State) (v va : Nat) : Bool :=
  (s.heaps.map (·.2) ++ s.freeze.heaps).any fun h => h.image = word va && match h.grid with
    | some k => (s.grid k).vf = v
    | none => false

/-- HEAP_BIND_COMPLETE: the strands that wait for the bind go on. -/
def execHeapBindComplete (s : State) : Out :=
  .next (match s.input with
    | some (.heapBindComplete slot) =>
      if (s.heap slot).grid = none then s
      else
        let s := s.modHeap slot fun h => { h with ready := true }
        s.strands.foldl (fun s e => if e.2.wait = some .heapBind then wake e.1 s else s) s
    | _ => s)

/-! ### Write-back (R342) -/

/-- The header and live entries of a heap (R326). -/
def Heap.bytes (h : Heap) : List Byte :=
  leBytes 8 h.cap ++ leBytes 8 h.live ++ leBytes 8 h.tol ++ leBytes 16 h.resid ++ leBytes 8 h.flags ++ leBytes 8 h.running
    ++ zeros 8
    ++ (List.range h.live).flatMap fun t =>
      leBytes 8 (tget 0 h.gain t) ++ leBytes 8 (match tget none h.runs t with
        | some (g, _) => 2 ^ 63 + g
        | none => 0)

/-- The 64-byte sectors of an image that hold a poisoned entry. -/
def Heap.badSectors (h : Heap) : List Nat := ((h.poison.filter (· < h.live)).map fun t => (64 + 16 * t) / 64).eraseDups

/-- Writes the image back through the translations that were held since the bind (R322); a sector with a poisoned entry becomes
poisoned (R427, R428). -/
def writeImage (h : Heap) (s : State) : State :=
  let b := h.bytes
  let s := h.pages.foldl (fun s p =>
    let lo := max h.image.toNat p.1
    let hi := min (h.image.toNat + b.length) (p.1 + 65536)
    if lo < hi then homeWrite none none (p.2 + (lo - p.1)) ((b.drop (lo - h.image.toNat)).take (hi - lo)) s else s) s
  { s with mpois := h.badSectors.foldl (fun l x => addOnce l (keyIn h.pages (h.image.toNat + 64 * x) / 64)) s.mpois }

/-- HEAP_WRITE_BACK: after the last crew of the grid, and the slot is free. -/
def heapWriteBack (slot : Nat) (s : State) : State :=
  match (s.heap slot).grid with
  | none => s
  | some g =>
    if (s.grid g).completed < (s.grid g).lrec.crews then s
    else
      let s := writeImage (s.heap slot) s
      { s.modGrid g fun x => { x with heaps := x.heaps.filter (· ≠ slot) } with heaps := tset {} s.heaps slot {} }

/-- Writes back the heaps of a grid that a Freeze holds, once every crew of the grid has completed (R342). -/
def writeFrozen (gid : Nat) (s : State) : State :=
  let g := s.grid gid
  if g.completed < g.lrec.crews then s
  else
    let mine := s.freeze.heaps.filter (·.grid = some gid)
    let f := s.freeze
    mine.foldl (fun s h => writeImage h s) { s with freeze := { f with heaps := f.heaps.filter (·.grid ≠ some gid) } }

def execHeapWriteBack (s : State) : Out :=
  .next (match s.input with
    | some (.heapWriteBack slot) => heapWriteBack slot s
    | _ => s)

end Sys2Proof.Machine
end

