-- ==== Sys2Proof/Machine/Image.lean ====
section
/-! DEFINITION. The context image of a crew (R379 to R382, R475): its bytes, its poison, the check at resume, and what a resume
takes from it. -/

namespace Sys2Proof.Machine
open Sys2Proof

def sumOf {α : Type} (l : List α) (f : α → Nat) : Nat := l.foldl (fun n x => n + f x) 0

def pad64 (n : Nat) : Nat := (n + 63) / 64 * 64

def Decl.csp (d : Decl) : Nat := (d.spbytes + 255) / 256 * 256
def Decl.laneBytes (d : Decl) : Nat := d.strands * d.vlmax * d.llbytes

def padded (b : List Byte) : List Byte := b ++ zeros (pad64 b.length - b.length)

/-! ### Strand areas (R380) -/

def pendEntry (p : Pend) : List Byte := leBytes 8 (p.rem * 256 + p.reg.val) ++ leBytes 8 p.val.toNat

def foldCode : Fold → Nat
  | .add => 0 | .min => 1 | .max => 2

def awTyCode : AwTy → Nat
  | .i32 => 2 | .i64 => 3 | .f32 => 6 | .u32 => 10 | .u64 => 11

def awCtl (w : AWin) : Nat := 2 ^ 63 + foldCode w.op * 2 ^ 47 + awTyCode w.ty * 2 ^ 43 + w.n * 2 ^ 32 + w.llofs

/-- A strand that ended its work: halted, or drained as well. -/
def Strand.over (m : Strand) : Bool := m.run = .halted || m.run = .drained

def strandArea (m : Strand) : List Byte :=
  let ps := m.pend.take 3
  let pad (n k : Nat) : List Byte := zeros ((3 - n) * k)
  leBytes 8 m.pc.toNat
    ++ ((List.range 32).flatMap fun i => leBytes 8 (if i = 0 then 0 else (tget 0 m.regs i).toNat))
    ++ leBytes 8 (strctl m) ++ leBytes 8 (rmCode m.frm) ++ leBytes 8 m.fflags.toNat ++ leBytes 8 (gshapeCode m.gshape)
    ++ leBytes 8 m.trapvec.toNat ++ leBytes 8 m.trappc.toNat ++ leBytes 8 m.trapcause.toNat ++ leBytes 8 m.trapaddr.toNat
    ++ leBytes 8 m.trapinsn0.toNat ++ leBytes 8 m.trapinsn1.toNat
    ++ leBytes 8 (m.carry.getD m.waitCount) ++ leBytes 8 (stateWord m)
    ++ ((List.range 8).flatMap fun k => leBytes 8 (tshapeCode (tget {} m.tshape k)))
    ++ ((List.range 8).flatMap fun k => leBytes 8 (zdimCode (tget {} m.zdim k)))
    ++ maskBytes m.trapmask ++ ps.flatMap pendEntry ++ pad ps.length 16
    ++ (match m.awin with
      | some w => leBytes 8 w.base.toNat ++ leBytes 8 (awCtl w)
      | none => zeros 16)
    ++ (ps.flatMap fun p => leBytes 8 p.pc.toNat) ++ pad ps.length 8 ++ zeros 64

/-! ### Sections (R381) -/

/-- A halted strand's image has VHELD 0. -/
def vecImage (m : Strand) (c : Crew) (g : Nat) : List Byte := vectorImage (if m.spent then { m with vheld := 0 } else m) c.index g

def tileSection (m : Strand) : List Byte :=
  ((List.range m.tdecl).flatMap fun k => (List.range (tget {} m.tshape k).rows).flatMap fun r => m.tileBytes k r 0 208)
    ++ (List.range m.zdecl).flatMap fun k => (List.range 4096).flatMap fun e => leBytes 4 (tget 0 m.zimg (k * 4096 + e)).toNat

def laneStart (c : Crew) : Nat := laneKey c.core c.llBase
def cspStart (c : Crew) : Nat := cspKey (clusterOf c.core) c.cspBase

/-- Full bits of `n` granules from key / 16 `g`, granule 0 at bit 0. -/
def fullBits (s : State) (g n : Nat) : List Byte :=
  (List.range ((n + 7) / 8)).map fun b =>
    BitVec.ofNat 8 (sumOf (List.range 8) fun i => if 8 * b + i < n && s.isFull (g + 8 * b + i) then 2 ^ i else 0)

/-- Body of the opaque block: what the core class keeps of the queue, of contents that are not architectural (R370). -/
def opaqueBody (sid : Nat) (m : Strand) : List Byte :=
  if m.viq = [] then [] else (List.range 64).map fun i => Config.opaqueByte (64 * sid + i)

def opaqueBlock (sid cls : Nat) (m : Strand) : List Byte :=
  let b := opaqueBody sid m
  leBytes 8 (b.length + cls * 2 ^ 32 + Config.checkCode b % 2 ^ 29 * 2 ^ 35) ++ zeros 56 ++ b

/-- A barrier's entry (R379). -/
def barrierBytes (x : Barrier) : List Byte :=
  leBytes 4 x.ph.toNat ++ leBytes 4 x.rph.toNat ++ leBytes 4 x.exp ++ leBytes 4 x.arr
    ++ leBytes 1 x.rcnt ++ leBytes 1 x.rdone ++ leBytes 1 x.ovr.toNat ++ zeros 5

/-- The image of a crew as it stands: the strands' state, scratchpad and lane-local bytes. -/
def imageOf (s : State) (cid : Nat) (strip : Bool) : List Byte :=
  let c := s.crew cid
  let g := s.grid c.grid
  let gi := gridId g c.grid
  let cls := (s.classOf c.core).code
  let ms := c.sids.map s.strand
  let vec := padded (ms.flatMap fun m => vecImage m c gi)
  let tile := padded (ms.flatMap tileSection)
  let ll := padded (s.homeBytes (laneStart c) c.decl.laneBytes)
  let csp := padded (s.homeBytes (cspStart c) c.decl.spbytes ++ fullBits s (cspStart c / 16) ((c.decl.spbytes + 15) / 16))
  let opq := padded (c.sids.flatMap fun i => opaqueBlock i cls (s.strand i))
  let o1 := areaBase c.decl.strands
  let o2 := o1 + vec.length
  let o3 := o2 + tile.length
  let o4 := o3 + ll.length
  let o5 := o4 + csp.length
  let barrier (b : Nat) : List Byte := if b ≥ c.decl.nsb then zeros 24 else barrierBytes (tget {} c.barriers b)
  leBytes 8 1 ++ leBytes 8 (o5 + opq.length) ++ leBytes 8 gi ++ leBytes 8 c.index ++ leBytes 8 c.kdesc.toNat
    ++ leBytes 8 (cls + strip.toNat * 8 + c.decl.strands * 16) ++ leBytes 8 c.scyc ++ leBytes 8 s.cycle
    ++ leBytes 8 o1 ++ leBytes 8 o2 ++ leBytes 8 o3 ++ leBytes 8 o4 ++ leBytes 8 o5 ++ zeros 24
    ++ ((List.range 16).flatMap fun b => leBytes 4 ((tget 0 c.bands b).toNat + (tget 0 c.arrived b).toNat * 2 ^ 16))
    ++ ((List.range 16).flatMap barrier) ++ (ms.flatMap strandArea) ++ vec ++ tile ++ ll ++ csp ++ opq

/-! ### Poison (R427) -/

/-- Sectors, from an image's base, of `n` bytes at offset `o`. -/
def imageSectors (o n : Nat) : List Nat := sectors o n

/-- Byte ranges of an image, by offset and length, whose sources hold an error. -/
def poisonedRanges (s : State) (cid : Nat) : List (Nat × Nat) :=
  let c := s.crew cid
  let o1 := areaBase c.decl.strands
  let lens := c.sids.map fun i => imageLen (if (s.strand i).spent then 0 else (s.strand i).vheld) c.decl.vlmax
  let tlens := c.sids.map fun i => (tileSection (s.strand i)).length
  let vecLen := pad64 (sumOf lens id)
  let o2 := o1 + vecLen
  let o3 := o2 + pad64 (sumOf tlens id)
  let o4 := o3 + pad64 c.decl.laneBytes
  let inMem (key n at_ : Nat) : List (Nat × Nat) :=
    ((sectors key n).filter (· ∈ s.mpois)).map fun x =>
      let lo := max key (64 * x)
      (at_ + (lo - key), min (key + n) (64 * x + 64) - lo)
  ((c.sids.zipIdx).flatMap fun e =>
    let m := s.strand e.1
    let vb := o1 + sumOf (lens.take e.2) id
    let tb := o2 + sumOf (tlens.take e.2) id
    let tileAt (k r : Nat) : Nat := tb + 208 * (sumOf ((List.range m.tdecl).take k) (fun j => (tget {} m.tshape j).rows) + r)
    let tileEnd := tb + 208 * sumOf (List.range m.tdecl) (fun j => (tget {} m.tshape j).rows)
    (if m.spent then [] else m.vpois.map fun x => (vb + 3392 + 4 * (x / 32 * m.vlmax + x % 32 * 32), 128))
      ++ m.tpois.map (fun x => (tileAt (x / 64) (x % 64), 208))
      ++ m.zpois.map fun x => (tileEnd + 16384 * (x / 64) + 256 * (x % 64), 256))
    ++ inMem (laneStart c) c.decl.laneBytes o3 ++ inMem (cspStart c) c.decl.spbytes o4

def imagePoison (s : State) (cid : Nat) : List Nat :=
  ((poisonedRanges s cid).flatMap fun r => imageSectors r.1 r.2).eraseDups

/-! ### Writing (R475) -/

/-- What a write into the arena meets: the cause of the failure and the address, or the state after it. The save waits for no
reply. -/
inductive Saved where
  | ok (s : State)
  | lost (c : Cause) (addr : Word)

/-- The first page of a range that a write cannot reach, by its cause and the first address in it. -/
def arenaFault (s : State) (c : Ctx) (va n : Nat) : Option (Cause × Nat) :=
  (List.range (pageCount va n)).findSome? fun i =>
    let a := max va ((va / 65536 + i) * 65536)
    match translate s c .wr (a / 65536 * 65536) with
    | .ok (.cell _) => none
    | .ok _ => some (.access, a)
    | .fault x _ _ => some (x, a)
    | .stall2 _ => some (.s2Fault, a)
    | .stallPri _ => some (.pageFault, a)

def writeArena (c : Ctx) (va : Nat) (b : List Byte) (bad : List Nat) (s : State) : Saved :=
  match arenaFault s c va b.length, pagesOf s c .wr va (pageCount va b.length) with
  | none, .ok pages =>
    let s := pages.foldl (fun s p =>
      let lo := max va p.1
      let hi := min (va + b.length) (p.1 + 65536)
      if lo < hi then homeWrite none none (p.2 + (lo - p.1)) ((b.drop (lo - va)).take (hi - lo)) s else s) s
    .ok { s with mpois := bad.foldl (fun l x => addOnce l (keyIn pages (va + 64 * x) / 64)) s.mpois }
  | f, _ =>
    let x := f.getD (.access, va)
    .lost x.1 (word x.2)

/-- A part of an image, by offset and length, goes into the arena. -/
def writePartOf (c : Ctx) (base : Nat) (img : List Byte) (bad : List Nat) (o n : Nat) (s : State) : Saved :=
  writeArena c (base + o) ((img.drop o).take n) ((bad.filter fun x => o ≤ x * 64 && x * 64 < o + n).map (· - o / 64)) s

/-- Several of them, up to the first that cannot be written. -/
def writeParts (c : Ctx) (base : Nat) (img : List Byte) (bad : List Nat) : List (Nat × Nat) → State → Saved
  | [], s => .ok s
  | (o, n) :: t, s => match writePartOf c base img bad o n s with
    | .ok s => writeParts c base img bad t s
    | .lost x a => .lost x a

/-- A crew loses its state where its image cannot be written (R475). -/
def loseCrew (cid : Nat) (x : Cause) (addr : Word) (s : State) : State :=
  let c := s.crew cid
  let low := (c.sids.find? fun i => !(s.strand i).over).getD 0
  endCrew cid 1 x.code 0 (s.strand low).index 0 (s.strand low).pc addr s

/-! ### Reading at resume (R378, R382, R428) -/

/-- An image as a resume reads it: bytes and poisoned sectors, counted from its base. -/
structure ReadImage where
  bytes : List Byte
  bad : List Nat

inductive ImageRead where
  | ok (x : ReadImage)
  | bad
  | stalled

/-- The image of a crew: at a Freeze's destination, or in the arena. -/
def fetchImage (s : State) (cid : Nat) : ImageRead :=
  let c := s.crew cid
  if c.frozen ≠ [] then .ok ⟨c.frozen, c.frozenBad⟩
  else
    let va := c.image.toNat
    match pagesOf s (s.grid c.grid).ctx .rd va (pageCount va c.imageLen) with
    | .fault .. => .bad
    | .stall2 _ => .stalled
    | .stallPri _ => .stalled
    | .ok pages => .ok {
        bytes := pages.flatMap fun p =>
          let lo := max va p.1
          let hi := min (va + c.imageLen) (p.1 + 65536)
          if lo < hi then s.homeBytes (p.2 + (lo - p.1)) (hi - lo) else []
        bad := (List.range ((c.imageLen + 63) / 64)).filter fun x => s.badSector (keyIn pages (va + 64 * x) / 64) }

def offVecOf (b : List Byte) : Nat := field b 64 8
def offTileOf (b : List Byte) : Nat := field b 72 8
def offLaneOf (b : List Byte) : Nat := field b 80 8
def offCspOf (b : List Byte) : Nat := field b 88 8
def offOpaqueOf (b : List Byte) : Nat := field b 96 8

/-- VHELD of the vector image at offset `o`. -/
def vheldAt (b : List Byte) (o : Nat) : Nat := bits (field b (o + 24) 8) 47 41

/-- Offsets and VHELD of the strands' vector images from offset `o` on; the section of a strand whose rows are still pending is not
written yet (R377). -/
def vecSections (b : List Byte) (vlmax : Nat) : List Strand → Nat → List (Nat × Nat)
  | [], _ => []
  | m :: t, o =>
    let vh := if m.vpend then m.vheld else vheldAt b o
    (o, vh) :: vecSections b vlmax t (o + imageLen vh vlmax)

def opaqueAt (b : List Byte) : Nat → Nat
  | 0 => offOpaqueOf b
  | i + 1 =>
    let o := opaqueAt b i
    o + 64 + field b o 4

/-- The reserved fields of a strand area (R380). -/
def areaReserved (b : List Byte) (o : Nat) : Bool :=
  field b (o + 352) 8 < 8 && bits (field b (o + 672) 8) 62 49 = 0 && field b (o + 704) 64 = 0 && field b (o + 8) 8 = 0
    && ((List.range 3).all fun i => bits (field b (o + 616 + 16 * i) 8) 63 16 = 0)
    && (rmOf (field b (o + 272) 8)).isSome && field b (o + 280) 8 < 128 && (tfmtOf (bits (field b (o + 288) 8) 63 60)).isSome
    && bits (field b (o + 288) 8) 58 55 = 0 && bits (field b (o + 288) 8) 31 30 = 0
    && bits (field b (o + 264) 8) 63 48 = 0 && bits (field b (o + 264) 8) 25 8 = 0 && bits (field b (o + 264) 8) 4 2 = 0
    && bits (field b (o + 312) 8) 63 32 = 0 && bits (field b (o + 312) 8) 15 10 = 0 && field b (o + 336) 8 < 2 ^ 16
    && ((List.range 8).all fun k =>
      let t := field b (o + 360 + 8 * k) 8
      let z := field b (o + 424 + 8 * k) 8
      bits t 59 17 = 0 && bits t 7 7 = 0 && bits z 63 32 = 0 && bits z 27 15 = 0 && bits z 7 7 = 0)

/-- R382: whether a resume refuses the image; an opaque block's class binds off a strip boundary only (R378). Lazily owned strands keep their vector context in place and are not checked. -/
def imageRefused (s : State) (cid cls : Nat) (x : ReadImage) : Bool :=
  let c := s.crew cid
  let g := s.grid c.grid
  let b := x.bytes
  let n := c.decl.strands
  let vlmax := c.decl.vlmax
  let secs := vecSections b vlmax (c.sids.map s.strand) (offVecOf b)
  let rows := sumOf secs fun x => x.2 * (vlmax / 32)
  (x.bad.any fun k => k * 64 < areaBase n)
    || field b 0 8 ≠ 1 || field b 8 8 ≠ c.imageLen || field b 16 8 ≠ gridId g c.grid || field b 24 8 ≠ c.index
    || field b 40 8 ≥ 512 || field b 104 24 ≠ 0
    || [offVecOf b, offTileOf b, offLaneOf b, offCspOf b, offOpaqueOf b].any (· > c.imageLen)
    || (List.range 16).any (fun i => field b (192 + 24 * i + 19) 5 ≠ 0)
    || (List.range n).any (fun i => !areaReserved b (areaBase i))
    || (List.range n).any (fun i =>
      let o := opaqueAt b i
      let h := field b o 8
      (!c.stripSaved && bits h 34 32 ≠ cls) || field b (o + 8) 56 ≠ 0
        || bits h 63 35 ≠ Config.checkCode ((b.drop (o + 64)).take (bits h 31 0)) % 2 ^ 29)
    || rows > c.decl.quota
    || (c.sids.zip secs).any fun e =>
      let m := s.strand e.1
      !m.vpend && imageCheck { m with vlmaxc := c.decl.vlmaxc } c.index (gridId g c.grid) c.decl.quota (b.drop e.2.1) ≠ 0

/-- SAVE_ENGINE_WRITE: the vector sections that are still pending (R375, R377). -/
def saveEngineWrite (cid : Nat) (s : State) : State :=
  let c := s.crew cid
  if !c.lazy then s
  else
    let img := imageOf s cid c.stripSaved
    let bad := imagePoison s cid
    let secs := vecSections img c.decl.vlmax (c.sids.map s.strand) (offVecOf img)
    let pend := (c.sids.zip secs).filter fun e => (s.strand e.1).vpend
    let parts := pend.map fun e => (e.2.1, imageLen e.2.2 c.decl.vlmax)
    match writeParts (s.grid c.grid).ctx c.image.toNat img bad parts s with
    | .ok s => (pend.foldl (fun s e => clearVpend e.1 s) s).modCrew cid fun c => { c with lazy := false }
    | .lost x a => loseCrew cid x a s

def execSaveEngineWrite (s : State) : Out :=
  .next (match s.input with
    | some (.saveEngineWrite cid) => saveEngineWrite cid s
    | _ => s)

def boolAt (x i : Nat) : Bool := x.testBit i

/-- A strand with the state of its area; GSHAPE is loaded by `writeSys` afterwards. -/
def loadArea (b : List Byte) (o : Nat) (m : Strand) : Strand :=
  let w (k : Nat) : Word := word (field b (o + k) 8)
  let st := field b (o + 264) 8
  let pends := (List.range 3).filterMap fun i =>
    let e := field b (o + 616 + 16 * i) 8
    if bits e 15 8 = 0 then none
    else some { reg := Fin.ofNat 32 (bits e 7 0), val := w (624 + 16 * i), rem := bits e 15 8, pc := w (680 + 8 * i) : Pend }
  let aw := field b (o + 672) 8
  { m with
    pc := w 0
    regs := (List.range 32).foldl (fun t i => if i = 0 then t else tset 0 t i (w (8 + 8 * i))) []
    trapon := boolAt st 7, schk := boolAt st 6, sstrict := boolAt st 5, priv := Priv.ofCode (bits st 1 0)
    frm := (rmOf (bits (field b (o + 272) 8) 2 0)).getD .rne, fflags := FFlags.ofNat (field b (o + 280) 8)
    trapvec := w 296, trappc := w 304, trapcause := w 312, trapaddr := w 320, trapinsn0 := w 328, trapinsn1 := w 336
    waitCount := field b (o + 344) 8
    run := if (field b (o + 352) 8).testBit 1 then (if m.over then m.run else .halted) else if m.over then .stopped else m.run
    vpend := m.vpend && (field b (o + 352) 8).testBit 2
    tshape := (List.range 8).foldl (fun t k =>
      let v := field b (o + 360 + 8 * k) 8
      tset {} t k { fmt := (tfmtOf (bits v 63 60)).getD .int8, cols := bits v 16 8, rows := bits v 6 0 }) []
    zdim := (List.range 8).foldl (fun t k =>
      let v := field b (o + 424 + 8 * k) 8
      tset {} t k { fp := bits v 31 28 = 6, cols := bits v 14 8, rows := bits v 6 0 }) []
    trapmask := maskAt b (o + 488)
    pend := pends
    awin := if boolAt aw 63 then some {
        base := w 664, n := bits aw 42 32, llofs := bits aw 31 0
        ty := match bits aw 46 43 with
          | 3 => .i64
          | 6 => .f32
          | 10 => .u32
          | 11 => .u64
          | _ => .i32
        op := match bits aw 48 47 with
          | 1 => .min
          | 2 => .max
          | _ => .add } else none }

/-- Tiles and accumulator images of a strand, from offset `o` on: the strand, and the offset behind them. -/
def loadTiles (b : List Byte) (o : Nat) (m : Strand) : Strand × Nat :=
  let t0 := (List.range m.tdecl).foldl (fun (a : Tab Byte × Nat) k =>
    let n := (tget {} m.tshape k).rows * 208
    (((List.range n).foldl (fun t i => tset 0 t (tileKey k (i / 208) (i % 208)) (b.getD (a.2 + i) 0)) a.1), a.2 + n)) ([], o)
  let z := (List.range m.zdecl).foldl (fun (t : Tab Word32) k =>
    (List.range 4096).foldl (fun t e => tset 0 t (k * 4096 + e) (BitVec.ofNat 32 (field b (t0.2 + 16384 * k + 4 * e) 4))) t) []
  ({ m with tiles := t0.1, zimg := z }, t0.2 + 16384 * m.zdecl)

end Sys2Proof.Machine
end

