-- ==== Sys2Proof/Machine/Place.lean ====
section
/-! DEFINITION. Where a crew fits and how it is placed (R261 to R270, R356, R378, R413, R419, R424, R443), the audit selection at
dispatch (R436 to R438), and turns (R420, R421). -/

namespace Sys2Proof.Machine
open Sys2Proof

/-! ### Partitions' units -/

/-- A core, or one half of a split core. -/
abbrev CoreUnit := Nat × Bool

/-- Units that the Factor of partition `p` may use: owned, scrubbed, not retired, and with no request pending (R424, R443). -/
def unitsOf (s : State) (p : Nat) : List CoreUnit :=
  (List.range Config.stewardBase).flatMap fun c =>
    let e := s.assign (State.entryOf c)
    let r := s.coreReg c
    if e.scrub || r.retired || r.req ≠ [] then []
    else if c < 160 && e.split then (if e.own0 = p then [(c, false)] else []) ++ (if e.own1 = p then [(c, true)] else [])
    else if e.own0 = p then [(c, false)] else []

/-- R268: affinity `wide` admits Wide cores and half-cores. -/
def affine (d : Decl) (cl : CoreClass) : Bool :=
  match d.affinity with
  | 1 => cl = .wide || cl = .half
  | 2 => cl = .lean
  | _ => cl ≠ .steward

def Crew.onCore (c : Crew) : Bool := c.state = .resident || c.state = .stopping || c.state = .reserved

/-- Crews that hold resources of a unit. -/
def crewsOn (s : State) (u : CoreUnit) : List (Nat × Crew) :=
  s.crews.filter fun e => e.2.onCore && e.2.core = u.1 && e.2.half = u.2

/-- Rows that strands switched out lazily still own on a unit (R375). -/
def lazyRows (s : State) (u : CoreUnit) : Nat :=
  sumOf (s.strands.filter fun e => e.2.vpend && e.2.core = u.1 && e.2.half = u.2) fun e => e.2.vheld * (e.2.vlmax / 32)

/-- Whether a queued instruction has finished its translation (R142, R202). -/
def VOp.translated (o : VOp) : Bool := o.fin || o.started || o.placed.isSome || o.wait.isSome || pipelineKind o.instr = 0

/-- Whether a slot can take a new strand: a halted strand whose instructions have finished their translation may still drain in it, and
never two (R142, R263). -/
def slotFree (s : State) (u : CoreUnit) (slot : Nat) : Bool :=
  let here := ((crewsOn s u).flatMap fun e => e.2.sids).map s.strand |>.filter (·.slot = slot)
  here.all (fun m => m.run = .drained || (m.run = .halted && m.viq.all (·.translated))) && (here.filter (·.run = .halted)).length ≤ 1

def freeSlotsOf (s : State) (u : CoreUnit) : List Nat :=
  (List.range (s.classOf u.1).slots).filter (slotFree s u)

def freeRowsOf (s : State) (u : CoreUnit) : Nat :=
  (s.classOf u.1).rows - sumOf (crewsOn s u) (fun e => e.2.decl.quota) - lazyRows s u

/-- R269 for one unit, over what the crews of `on` hold there and `csp` bytes in use in its cluster. -/
def fitsBeside (s : State) (p : Nat) (d : Decl) (u : CoreUnit) (on : List Decl) (slots rows csp : Nat) : Bool :=
  let cl := s.classOf u.1
  affine d cl && d.strands ≤ slots && d.quota ≤ rows
    && sumOf on (fun x => x.strands * x.tdecl) + d.strands * d.tdecl ≤ cl.tileSlots
    && sumOf on (fun x => x.strands * x.zdecl) + d.strands * d.zdecl ≤ cl.images
    && sumOf on Decl.laneBytes + d.laneBytes ≤ cl.laneLocal
    && csp + d.csp ≤ cspShare s (clusterOf u.1) p

/-- Scratchpad bytes that the partition's crews hold in a cluster. -/
def cspUsed (s : State) (cluster p : Nat) : Nat :=
  sumOf (s.crews.filter fun e => e.2.onCore && clusterOf e.2.core = cluster && (s.grid e.2.grid).part = p) fun e => e.2.decl.csp

def fits (s : State) (p : Nat) (d : Decl) (u : CoreUnit) : Bool :=
  fitsBeside s p d u ((crewsOn s u).map (·.2.decl)) (freeSlotsOf s u).length (freeRowsOf s u) (cspUsed s (clusterOf u.1) p)

def fitsEmpty (s : State) (p : Nat) (d : Decl) (u : CoreUnit) : Bool :=
  fitsBeside s p d u [] (s.classOf u.1).slots (s.classOf u.1).rows 0

/-- How many crews of a declaration an empty unit takes, scratchpad aside; at most `n`. -/
def unitRoom (s : State) (d : Decl) (u : CoreUnit) (n : Nat) : Nat :=
  let cl := s.classOf u.1
  let cap (have_ each : Nat) : Nat := if each = 0 then n else have_ / each
  if !affine d cl then 0
  else min (min (min n (cap cl.slots d.strands)) (min (cap cl.rows d.quota) (cap cl.tileSlots (d.strands * d.tdecl))))
    (min (cap cl.images (d.strands * d.zdecl)) (cap cl.laneLocal d.laneBytes))

/-- Whether `n` crews fit the empty partition at once (R351). -/
def gridFitsEmpty (s : State) (p : Nat) (d : Decl) (n : Nat) : Bool :=
  let us := unitsOf s p
  let total := sumOf (List.range 72) fun cl =>
    let mine := sumOf (us.filter fun u => clusterOf u.1 = cl) fun u => unitRoom s d u n
    if d.csp = 0 then mine else min mine (cspShare s cl p / d.csp)
  n ≤ total

/-- Best fit (R356): fewest free slots after, then fewest free rows, then the lowest core, the first half first. -/
def bestUnit (s : State) (d : Decl) (us : List CoreUnit) : Option CoreUnit :=
  us.foldl (fun b u => match b with
    | none => some u
    | some v =>
      let su := (freeSlotsOf s u).length
      let sv := (freeSlotsOf s v).length
      if su < sv || (su = sv && freeRowsOf s u < freeRowsOf s v) then some u else some v) (none : Option CoreUnit)
    |>.filter fun _ => d.strands > 0

/-- The unit for a new crew. -/
def placeFor (s : State) (p : Nat) (d : Decl) : Option CoreUnit := bestUnit s d ((unitsOf s p).filter (fits s p d))

/-! ### Save-arena room (R419) -/

/-- The longest image that a crew can need: its quota bounds the vector sections. -/
def imageRoom (d : Decl) : Nat :=
  areaBase d.strands + pad64 (3392 * d.strands + 128 * d.quota) + pad64 (d.strands * (d.tdecl * 64 * 208 + d.zdecl * 16384))
    + pad64 d.laneBytes + pad64 (d.spbytes + (d.spbytes / 16 + 7) / 8 + 1) + 128 * d.strands

/-- The lowest offset of `n` bytes among ranges, below `size`. -/
def roomAt (held : List (Nat × Nat)) (size n : Nat) : Option Nat :=
  ((0 :: held.map fun h => pad64 (h.1 + h.2)).filter fun o =>
    o + n ≤ size && held.all fun h => o + n ≤ h.1 || h.1 + h.2 ≤ o).foldl
    (fun b o => match b with
      | none => some o
      | some x => some (min x o)) none

def arenaRoom (s : State) (v n : Nat) : Option Nat :=
  roomAt ((s.vf v).arena.map fun a => (a.1, a.2.1)) ((s.vf v).savesize * 65536) n

def reserveRoom (v o n cid : Nat) (s : State) : State := s.modVf v fun f => { f with arena := f.arena ++ [(o, n, cid)] }

/-! ### Turns (R420, R421) and stopped dispatch -/

def enabledVfs (s : State) (p : Nat) : List Nat := (s.vfs.filter fun e => e.2.en && e.2.part = p).map (·.1)

def turnOk (s : State) (p v : Nat) : Bool :=
  let f := s.vf v
  f.en && f.part = p && ((enabledVfs s p).length ≤ 1 || ((s.part p).turn = v && (s.part p).qlive))

/-- Whether the Factor of the partition dispatches (R391, R410, R424). -/
def dispatches (s : State) (p : Nat) : Bool :=
  let x := s.part p
  x.en && !x.stop && !x.scrubbing && (s.freeze.state = .idle || s.freeze.state = .frozen || s.freeze.state = .resuming)

/-- While any crew of a VF is held for debug, no crew of it is dispatched (R472). -/
def vfHeld (s : State) (v : Nat) : Bool := s.crews.any fun e => e.2.dbgHold && e.2.state ≠ .ended && (s.grid e.2.grid).vf = v

/-! ### Audit (R436 to R438) -/

/-- The entries of a manifest for crew `c`: base, length, W; none where it breaks R437. -/
def manifestRanges (b : List Byte) (c : Nat) : Option (List (Nat × Nat × Bool)) :=
  let n := field b 0 8
  if n < 1 || n > 32 || b.length < 8 + 32 * n then none
  else
    let es := (List.range n).map fun i =>
      let o := 8 + 32 * i
      ((field b o 8 + c * field b (o + 8) 8) % 2 ^ 64, field b (o + 16) 8, field b (o + 24) 8)
    if es.any fun e => e.2.2 > 1 then none else some (es.map fun e => (e.1, e.2.1, e.2.2 = 1))

/-- The ranges of a selected crew with their bytes, none where the crew is skipped. -/
def auditRanges (s : State) (q c : Nat) (x : Ctx) : Option (List (Nat × Nat × Bool × List Byte)) :=
  let a := (tget 0 s.assayer.manifest q).toNat / 64 * 64
  match fetchBytes s x a 8 [] with
  | .bytes h =>
    if field h 0 8 > 32 then none
    else match fetchBytes s x a (8 + 32 * field h 0 8) [] with
      | .bytes b =>
        (manifestRanges b c).bind fun rs =>
          if sumOf rs (·.2.1) > 64 * 1048576 then none
          else rs.mapM fun r => match fetchBytes s x r.1 r.2.1 [] with
            | .bytes d => some (r.1, r.2.1, r.2.2, d)
            | _ => none
      | _ => none
  | _ => none

/-- ASSAY_SELECT and ASSAY_RANGE_COPY for the crew that has just been dispatched. -/
def assaySelect (cid : Nat) (s : State) : State :=
  let c := s.crew cid
  let g := s.grid c.grid
  let a := s.assayer
  if !a.en || !(tget 0 a.manifest g.queue).getLsbD 0 then s
  else
    let s := { s with assayer := { a with seq := a.seq + 1 } }
    if (a.seq + 1).toNat % 2 ^ a.k ≠ 0 then s
    else
      let s := { s with assayer := { s.assayer with sampled := (s.assayer.sampled + 1) % 2 ^ 32 } }
      let skip : State := { s with assayer := { s.assayer with skip := (s.assayer.skip + 1) % 2 ^ 32 } }
      match auditRanges s g.queue c.index g.ctx with
      | none => skip
      | some rs =>
        let n := pad64 (sumOf rs (·.2.1))
        match arenaRoom s g.vf n with
        | none => skip
        | some o => (reserveRoom g.vf o n (2 ^ 40 + cid) s).modCrew cid fun c => { c with audited := true, auditCopy := rs, auditCore := c.core }

/-! ### Dispatch (R48, R270) -/

/-- Strand `i` of a new crew (R48). -/
def newStrand (g : Grid) (d : Decl) (cid i : Nat) (u : CoreUnit) (slot : Nat) (run : RunState) : Strand :=
  { crew := cid, index := i, core := u.1, half := u.2, slot := slot, run := run, pc := d.entry
    regs := tset 0 [] 1 g.lrec.args, vheld := d.vheld, tdecl := d.tdecl, zdecl := d.zdecl, vlmaxc := d.vlmaxc
    schk := g.lrec.schk, sstrict := g.lrec.sstrict, trapvec := g.lrec.handler }

/-- Strand number `i` of a crew. -/
def sidOf (cid i : Nat) : Nat := 16 * cid + i

/-- What the crews that were switched out lazily on a unit still have to save is written before work of another context enters, or a
strand without a handler (R374); crew `but` is the one that enters. -/
def saveLazies (but v : Nat) (handled : Bool) (u : CoreUnit) (s : State) : State :=
  let l := s.crews.filter fun e => e.1 ≠ but && e.2.stays u.1 (some u.2) && (!handled || (s.grid e.2.grid).vf ≠ v)
  l.foldl (fun s e => saveEngineWrite e.1 s) s

/-- The first dispatch of an elastic quantum begins it (R421). -/
def firstDispatch (p : Nat) (s : State) : State :=
  if (s.part p).fresh then s.modPart p fun x => { x with qstart := s.cycle, fresh := false } else s

/-- Places crew `idx` of a grid on a unit: slots, rows, scratchpad and lane-local slices of zero, bands and barriers (R270). -/
def placeCrew (gid idx : Nat) (u : CoreUnit) (run : RunState) (s : State) : Option State :=
  let g := s.grid gid
  let s := saveLazies s.nextCrew g.vf (bitsOf g.lrec.handler 5 0 ≠ 0) u s
  let d := g.decl
  let cid := s.nextCrew
  let cl := clusterOf u.1
  let slots := (freeSlotsOf s u).take d.strands
  let sids := (List.range d.strands).map (sidOf cid)
  match arenaRoom s g.vf (imageRoom d), roomAt (cspHeld s cl) (2 ^ 32) d.csp, roomAt (laneHeld s u.1) (2 ^ 32) d.laneBytes with
  | some o, some cb, some lb =>
    let c : Crew := {
      grid := gid, index := idx, kdesc := g.lrec.kernel, decl := d, core := u.1, half := u.2
      state := if run = .absent then .reserved else .resident, cspBase := cb, llBase := lb, sids := sids
      bands := tset 0 [] 0 (BitVec.ofNat 32 (2 ^ d.strands - 1))
      barriers := []
      freeRows := List.replicate (d.quota - d.strands * d.vheld * (d.vlmax / 32)) ([], false)
      tstart := s.cycle, charged := s.cycle, dispatchNo := s.serial, image := (s.vf g.vf).savebase + word o }
    let s := { s with nextCrew := cid + 1, serial := s.serial + 1, crews := tset {} s.crews cid c }
    let s := reserveRoom g.vf o (imageRoom d) cid s
    let s := clearKeys (cspKey cl cb) d.csp (clearKeys (laneKey u.1 lb) d.laneBytes s)
    let s := (sids.zip slots).foldl (fun s e => s.setStrand e.1 (newStrand g d cid (e.1 - 16 * cid) u e.2 run)) s
    let s := firstDispatch g.part (dropLines u.1 s)
    let s := (s.modGrid gid fun g => { g with dispatched := g.dispatched + 1, noRoom := none, owed := false })
    some (assaySelect cid s)
  | _, _, _ => none

/-- Dispatches the next crew of a grid where it fits (R354, R356). -/
def dispatchNext (gid : Nat) (run : RunState) (s : State) : Option State :=
  let g := s.grid gid
  (placeFor s g.part g.decl).bind fun u => placeCrew gid g.dispatched u run s

/-- Dispatches `n` more crews of a grid, all or none (R358). -/
def dispatchAll (gid : Nat) (run : RunState) : Nat → State → Option State
  | 0, s => some s
  | n + 1, s => (dispatchNext gid run s).bind (dispatchAll gid run n)

/-! ### Resumption (R378) -/

/-- The class, and per strand the grant, that a crew that is not at a strip boundary needs. -/
def resumeFits (s : State) (c : Crew) (u : CoreUnit) : Bool :=
  let g := s.grid c.grid
  let s := c.sids.foldl (fun s i => s.modStrand i fun m => { m with vpend := false }) s
  let cl := s.classOf u.1
  let sameClass := cl.code = c.savedClass
  let grants := c.sids.all fun i =>
    let m := s.strand i
    m.run = .drained || !m.gshape.gv || (m.gshape.gm ≤ maxMOf s u.1 && m.gshape.gn ≤ maxNOf s u.1)
  fits s g.part c.decl u && (c.stripSaved || (sameClass && grants))

/-- Whether a crew that was switched out lazily can take back its slots, with its rows in place (R377). -/
def inPlace (s : State) (c : Crew) (u : CoreUnit) : Bool :=
  c.lazy && (c.core, c.half) = u && c.sids.all fun i => (s.strand i).slot ∈ freeSlotsOf s u

/-- The unit on which a pre-empted crew resumes: where its rows still stand, else the best fit. -/
def resumeUnit (s : State) (cid : Nat) : Option CoreUnit :=
  let c := s.crew cid
  let us := (unitsOf s (s.grid c.grid).part).filter (resumeFits s c)
  if inPlace s c (c.core, c.half) && (c.core, c.half) ∈ us then some (c.core, c.half) else bestUnit s c.decl us

/-- A pre-empted crew as it would stand on its unit; none where it has no room. -/
def standIn (s : State) (cid : Nat) : Option State :=
  (resumeUnit s cid).map fun u =>
    let sids := (s.crew cid).sids
    let slots := (freeSlotsOf s u).take sids.length
    let s := (sids.zip slots).foldl (fun s e => s.modStrand e.1 fun m => { m with slot := e.2, core := u.1, half := u.2, vpend := false }) s
    s.modCrew cid fun c => { c with state := .reserved, core := u.1, half := u.2 }

/-- Whether a pre-empted crew has room now; a co-resident or gang grid needs room for all its crews at once (R280, R354). -/
def hasRoom (s : State) (cid : Nat) : Bool :=
  let g := (s.crew cid).grid
  let r := (s.grid g).lrec
  if r.cores || r.isGang then
    let all := s.crews.filter fun e => e.2.grid = g && e.2.state ≠ .resident && e.2.state ≠ .ended
    all.all (·.2.state = .ready) && (all.foldl (fun (o : Option State) e => o.bind fun t => standIn t e.1) (some s)).isSome
  else (resumeUnit s cid).isSome

end Sys2Proof.Machine
end

