-- ==== Sys2Proof/Machine/Factor.lean ====
section
/-! DEFINITION. Queues and the Factor: indices and records (R344 to R353), the choice of the next crew (R354 to R358), yielding
(R279), work queries (R362), completion (R360, R361), and gangs (R363 to R365). -/

namespace Sys2Proof.Machine
open Sys2Proof

/-! ### Queue registers (R344 to R346, R353) -/

/-- A notice waits in order while its ring is full, up to 64 of them (R434); one that has room is written at HEAD. -/
def noticeBytes (n : Notice) : List Byte := leBytes 2 n.kind ++ leBytes 2 n.source ++ leBytes 4 n.detail ++ leBytes 8 n.data.toNat

def ringFull (r : Ring) : Bool := (r.head + 1) % 256 = r.tail

/-- Puts a notice into a ring: the ring, and the offset and bytes to write. -/
def Ring.push (r : Ring) (n : Notice) : Ring × Option (Nat × List Byte) :=
  if !ringFull r && r.waiting = [] then ({ r with head := (r.head + 1) % 256 }, some (16 * r.head, noticeBytes n))
  else if r.waiting.length < 64 then ({ r with waiting := r.waiting ++ [n] }, none)
  else ({ r with drop := min (r.drop + 1) (2 ^ 32 - 1) }, none)

/-- Writes at a Steward address, whose SRAM window holds the Casien ring. -/
def writeSteward (va : Nat) (b : List Byte) (s : State) : State :=
  match translateSteward s va with
  | .ok (.cell k) => homeWrite none none k b s
  | _ => s

def postCasien (n : Notice) (s : State) : State :=
  let r := s.ras.casienRing.push n
  let s := { s with ras := { s.ras with casienRing := r.1 } }
  match r.2 with
  | some (o, b) => writeSteward (r.1.base.toNat + o) b s
  | none => s

/-- The host ring lies in host memory as the physical function addresses it: number 64 (log entry 8). -/
def postHost (n : Notice) (s : State) : State :=
  let r := s.ras.hostRing.push n
  let s := { s with ras := { s.ras with hostRing := r.1 } }
  match r.2 with
  | some (o, b) => homeWrite none none (hostKey 64 0 (r.1.base.toNat + o)) b s
  | none => s

/-- R435: the Casien ring receives every kind but 9, the host ring the kinds marked H. -/
def post (n : Notice) (s : State) : State :=
  let s := if n.kind = 9 then s else postCasien n s
  if n.kind ∈ [1, 4, 5, 6, 7, 9] then postHost n s else s

/-- QWIDX_WRITE (R346). -/
def qwidxWrite (q : Nat) (v : Word) (s : State) : State :=
  let x := s.queue q
  let new : Word32 := v.setWidth 32
  let step := (new - x.widx).toNat
  if x.dev then s.modQueue q fun x => { x with devq := true }
  else if 0 < step && step ≤ 2 ^ x.lsize - (x.widx - x.ridx).toNat then s.modQueue q fun x => { x with widx := new }
  else s.modQueue q fun x => { x with badidx := true }

def execQwidxWrite (s : State) : Out :=
  .next (match s.input with
    | some (.qwidxWrite q v) => qwidxWrite q v s
    | _ => s)

/-- QSTAT_CLEAR (R345): the sticky bits that the value names. -/
def execQstatClear (s : State) : Out :=
  .next (match s.input with
    | some (.qstatClear q v) => s.modQueue q fun x => { x with
        rfault := x.rfault && !v.getLsbD 3, wfault := x.wfault && !v.getLsbD 2, devq := x.devq && !v.getLsbD 1
        badidx := x.badidx && !v.getLsbD 0 }
    | _ => s)

def setQueue (q : Nat) (on : Bool) (s : State) : State := s.modQueue q fun x => { x with en := on }

/-- QUEUE_ENABLE and QUEUE_DISABLE (R353). -/
def execQueueEnable (s : State) : Out :=
  .next (match s.input with
    | some (.queueEnable q) => setQueue q true s
    | _ => s)

def execQueueDisable (s : State) : Out :=
  .next (match s.input with
    | some (.queueDisable q) => setQueue q false s
    | _ => s)

/-! ### Completion writes (R360, R361) -/

/-- A completion write of the Factor: done, dropped for a fault, or waiting for an answer. -/
inductive Put where
  | done (s : State)
  | dropped
  | stalled

def putThrough (s : State) (c : Ctx) (va : Nat) (b : List Byte) : Put :=
  match pagesOf s c .wr va (pageCount va b.length) with
  | .ok pages => .done (pages.foldl (fun s p =>
      let lo := max va p.1
      let hi := min (va + b.length) (p.1 + 65536)
      if lo < hi then homeWrite none none (p.2 + (lo - p.1)) ((b.drop (lo - va)).take (hi - lo)) s else s) s)
  | .fault .. => .dropped
  | .stall2 _ => .stalled
  | .stallPri _ => .stalled

/-- Lanes that joined a strand's DEADMASK. -/
def killedLanes (m : Strand) : Nat := popcount m.everDead.toNat 1024

/-- The header of a crew's record. -/
def recordHeader (c : Crew) (killed : Nat) : List Byte :=
  leBytes 4 c.status ++ leBytes 4 (c.cause1 + c.cause2 * 2 ^ 8 + c.causeStrand * 2 ^ 16 + c.causeRank * 2 ^ 20)
    ++ leBytes 8 c.tpc.toNat ++ leBytes 8 c.taddr.toNat ++ leBytes 8 c.scyc ++ leBytes 8 c.tstart ++ leBytes 8 c.tend
    ++ leBytes 4 killed ++ zeros 12

def crewRecord (s : State) (c : Crew) : List Byte :=
  recordHeader c (sumOf c.sids fun i => killedLanes (s.strand i)) ++ (c.sids.flatMap fun i => maskBytes (s.strand i).deadmask)
    ++ zeros (128 * (c.decl.strands - c.sids.length))

/-- The records of a completed grid: offsets from COMPREC and bytes. A refused grid writes the header of crew 0, and a gang
abort the header of every crew, also of those that have run (R364). -/
def gridRecords (s : State) (gid : Nat) : List (Nat × List Byte) :=
  let g := s.grid gid
  let size := 64 + 128 * g.decl.strands
  if g.reason = 0 then
    (s.crews.filter fun e => e.2.grid = gid && e.2.state = .ended).map fun e => (e.2.index * size, crewRecord s e.2)
  else if g.reason < 256 then [(0, recordHeader { status := 5, cause1 := g.reason, tend := s.cycle } 0)]
  else (List.range g.lrec.crews).map fun i => (i * size,
    match s.crews.find? fun e => e.2.grid = gid && e.2.state = .ended && e.2.index = i with
    | some (_, c) => recordHeader c (sumOf c.sids fun i => killedLanes (s.strand i))
    | none => recordHeader { status := 3, causeRank := g.reason - 256, tend := s.cycle } 0)

/-- Writes the records in order, then adds 1 to DONECTR; none while an answer is awaited. -/
def writeRecords (gid : Nat) : List (Nat × List Byte) → State → Option State
  | [], s =>
    let g := s.grid gid
    if g.lrec.donectr = 0 then some s
    else match fetchBytes s g.ctx g.lrec.donectr.toNat 8 [] with
      | .bytes b => match putThrough s g.ctx g.lrec.donectr.toNat (leBytes 8 (leVal b + 1)) with
        | .done t => some t
        | .dropped => some (s.modQueue g.queue fun q => { q with wfault := true })
        | .stalled => none
      | .unreadable => some (s.modQueue g.queue fun q => { q with wfault := true })
      | .stalled => none
  | (o, b) :: t, s =>
    let g := s.grid gid
    if g.lrec.comprec = 0 then writeRecords gid t s
    else match putThrough s g.ctx (g.lrec.comprec.toNat + o) b with
      | .done u => writeRecords gid t u
      | .dropped => writeRecords gid t (s.modQueue g.queue fun q => { q with wfault := true })
      | .stalled => none

/-- Whether a grid is ready to complete: every crew has, its heaps are written back, its remote stores acknowledged, and its
replays have been settled. -/
def gridOver (s : State) (gid : Nat) : Bool :=
  let g := s.grid gid
  let mine := s.crews.filter fun e => e.2.grid = gid
  g.state ≠ .complete && (g.reason ≠ 0 || g.completed = g.lrec.crews) && g.heaps = [] && !(s.freeze.heaps.any (·.grid = some gid))
    && mine.all fun e => e.2.state = .ended && !(s.rstores.any fun r => r.sid ∈ e.2.sids)

/-- Clears the group entry of a grid (R365). -/
def clearGroup (gid : Nat) (s : State) : State := { s with groups := s.groups.filter fun e => !(e.2.valid && e.2.grid = gid) }

/-- The grid is complete: its crews and strands leave State, its group entry is cleared. A crew under audit stays for its replay, and what
is known of a gang whose record was refused here stays for the coordinator's ABORT. -/
def retireGrid (gid : Nat) (s : State) : State :=
  let gone := s.crews.filter fun e => e.2.grid = gid && !e.2.audited
  let sids := gone.flatMap fun e => e.2.sids
  let s := { s with
    crews := s.crews.filter fun e => !(e.2.grid = gid && !e.2.audited)
    others := s.others.filter fun e => e.1 ∉ sids
    gangs := s.gangs.filter fun e => e.2.grid ≠ some gid || 0 < (s.grid gid).reason
    linkFail := s.linkFail.filter fun e => e.1 ∉ sids }
  let q := (s.grid gid).queue
  clearGroup gid ((s.modGrid gid fun g => { g with state := .complete }).modQueue q fun x => { x with grids := x.grids.filter (· ≠ gid) })

def gridComplete (gid : Nat) (s : State) : State :=
  let s := writeFrozen gid s
  if !gridOver s gid then s
  else match writeRecords gid (gridRecords s gid) s with
    | some t => clearFailed (s.grid gid).vf (retireGrid gid t)
    | none =>
      let g := s.grid gid
      noteStall g.ctx true g.lrec.donectr.toNat 8
        ((gridRecords s gid).foldl (fun s r => noteStall g.ctx true (g.lrec.comprec.toNat + r.1) r.2.length s) s)

/-- GRID_COMPLETE. -/
def execGridComplete (s : State) : Out :=
  .next (match s.input with
    | some (.gridComplete g) => gridComplete g s
    | _ => s)

/-! ### Records and readiness (R346, R351 to R353) -/

/-- A refused grid completes at once with STATUS 5; a gang member tells its coordinator (R364). -/
def refuseGrid (gid reason : Nat) (s : State) : State :=
  let g := s.grid gid
  let s := s.modGrid gid fun g => { g with reason := reason }
  let s := s.modQueue g.queue fun q => { q with last := reason }
  let r := g.lrec
  let s := if r.isGang then
      let s := { s with gangs := tmod {} s.gangs r.gtag.toNat fun x => { x with grid := some gid } }
      if r.rank = 0 then { s with events := s.events ++ [.gangRefusal r.gtag.toNat 0 reason] }
      else { s with outbox := s.outbox ++ [.refusal r.gtag.toNat r.rank reason] }
    else s
  { s with events := s.events ++ [.gridComplete gid] }

/-- The Factors read queues except while a Freeze stops and saves (R391). -/
def readsQueues (s : State) : Bool := s.freeze.state = .idle || s.freeze.state = .frozen || s.freeze.state = .resuming

/-- Whether every crew of a grid has been dispatched (R352): those of a gang that only holds their places are not, before COMMIT
(R363). -/
def allDispatched (s : State) (gid : Nat) : Bool :=
  let g := s.grid gid
  g.reason = 0 && g.dispatched = g.lrec.crews
    && (g.state ≠ .reserved || g.lrec.eager || s.gangs.any fun e => e.2.grid = some gid && e.2.committed)

/-- Whether the next record of a queue is at its head: the grid of the record before it holds none of its crews back (R346,
R352, R353). -/
def atHead (s : State) (x : QueueReg) : Bool :=
  match x.lastGrid with
  | none => true
  | some k => (s.grid k).state = .complete || (s.grid k).reason ≠ 0 || allDispatched s k

/-- A record of a gang whose ABORT has come before it (R364): its grid completes with STATUS 3 at once. -/
def lateAbort (gid : Nat) (s : State) : Option Nat :=
  let r := (s.grid gid).lrec
  if r.isGang then (tget {} s.gangs r.gtag.toNat).aborted else none

/-- LAUNCH_RECORD_READ. -/
def launchRecordRead (q : Nat) (s : State) : State :=
  let x := s.queue q
  if !x.en || !atHead s x || x.ridx = x.widx || !(s.vf x.vf).en || (s.vf x.vf).part ≠ x.part || !readsQueues s then s
  else match fetchBytes s x.ctx (slotAddr x x.ridx.toNat) 128 [] with
    | .stalled => noteStall x.ctx false (slotAddr x x.ridx.toNat) 128 s
    | .unreadable => clearFailed x.vf (s.modQueue q fun x => { x with ridx := x.ridx + 1, last := 1, rfault := true, lastGrid := none })
    | .bytes b =>
      let r := parseRec b
      let gid := s.nextGrid
      let g : Grid := { queue := q, part := x.part, vf := x.vf, lrec := r, state := .copied, prev := x.lastGrid }
      let s := { s with nextGrid := (gid + 1) % 2 ^ 32, grids := tset {} s.grids gid g }
      let s := s.modQueue q fun x => { x with ridx := x.ridx + 1, grids := x.grids ++ [gid], lastGrid := some gid }
      if postCheck r ≠ 0 then refuseGrid gid (postCheck r) s
      else match lateAbort gid s with
        | some rank => { s with events := s.events ++ [.abort r.gtag.toNat rank] }
        | none => s

def execLaunchRecordRead (s : State) : Out :=
  .next (match s.input with
    | some (.launchRecordRead q) => launchRecordRead q s
    | _ => s)

/-- R352. -/
def eligible (s : State) (g : Grid) : Bool :=
  match g.prev with
  | none => true
  | some k => (s.grid k).state = .complete || (!g.lrec.ser && allDispatched s k)

/-- A dependence: met, not met, or unreadable. -/
def depMet (s : State) (c : Ctx) (a v : Word) : Option Bool :=
  if a = 0 then some true
  else match fetchBytes s c a.toNat 8 [] with
    | .bytes b => some (decide (v.toNat ≤ leVal b))
    | .unreadable => none
    | .stalled => some false

/-- Residency (R387); the record lists keys / 65,536. -/
def residency (s : State) (v : Nat) : Nat :=
  let r := (s.vf v).record
  if r = [] then 1024 else (r.filter fun x => inTier1 s (x / 2 ^ 38) (x % 2 ^ 38)).length * 1024 / r.length

/-- Dispatch to a grid of an elastic partition is held until its context's residency reaches RTHR (R388). -/
def resident (s : State) (g : Grid) : Bool := !(s.part g.part).elastic || bits g.lrec.rthr 10 0 ≤ residency s g.vf

/-- What the heaps of a grid still need: nothing, a wait, or a refusal (R319, R351, R353). -/
inductive Heaps where
  | ok
  | wait
  | refuse

def heapsReady (s : State) (g : Grid) : Heaps :=
  let n := g.lrec.nheap
  if n = 0 then .ok
  else if n > (s.part g.part).heaps then .refuse
  else match heapTable s g.ctx g.lrec with
    | .stalled => .wait
    | .unreadable => .refuse
    | .bytes b =>
      let imgs := tableEntries n b
      if imgs.any (imageHeld s g.vf) || (freeSlots s g.part).length < n || (s.part g.part).heaps < slotsHeld s g.part + n then .wait
      else
        let rs := imgs.map (readImage s g.ctx)
        if rs.any fun r => match r with
          | .invalid => true
          | _ => false then .refuse
        else if imgs.eraseDups.length < n then .refuse
        else if rs.any fun r => match r with
          | .stalled => true
          | _ => false then .wait
        else .ok

/-- The descriptor of a record: none where it is not valid or cannot be read; stalled reads wait. -/
def readDesc (s : State) (g : Grid) : Option Decl :=
  match fetchBytes s g.ctx g.lrec.kernel.toNat 64 [] with
  | .bytes b => parseDesc b
  | _ => none

def descStalled (s : State) (g : Grid) : Bool := fetchBytes s g.ctx g.lrec.kernel.toNat 64 [] = .stalled

/-- LAUNCH_TOO_LARGE (R351). -/
def tooLarge (s : State) (g : Grid) (d : Decl) : Bool :=
  !((unitsOf s g.part).any (fitsEmpty s g.part d))
    || ((g.lrec.cores || g.lrec.isGang) && !gridFitsEmpty s g.part d g.lrec.crews)

def groupKey (p k : Nat) : Nat := p * 256 + k

def groupBusy (s : State) (g : Grid) : Bool := g.lrec.isGang && (tget {} s.groups (groupKey g.part g.lrec.cgroup)).valid

/-- The dispatch checks (R351): the smallest reason that fails, or 0. -/
def dispatchCheck (s : State) (g : Grid) : Nat :=
  match readDesc s g with
  | none => 3
  | some d =>
    if tooLarge s g d then 4
    else if (match heapsReady s g with
      | .refuse => true
      | _ => false) then 5
    else if groupBusy s g then 6 else 0

/-- The conditions of R353 that do not read memory. -/
def mayReady (s : State) (g : Grid) : Bool :=
  g.state = .copied && g.reason = 0 && eligible s g && (s.queue g.queue).en && (s.vf g.vf).en
    && resident s g && !(s.part g.part).scrubbing && readsQueues s

/-- Asks for what the reads of a grid's checks stall on. -/
def noteGrid (g : Grid) (s : State) : State :=
  let r := g.lrec
  let s := if r.dep0a = 0 then s else noteStall g.ctx false r.dep0a.toNat 8 s
  let s := if r.dep1a = 0 then s else noteStall g.ctx false r.dep1a.toNat 8 s
  let s := noteStall g.ctx false r.kernel.toNat 64 s
  if r.nheap = 0 then s
  else match heapTable s g.ctx r with
    | .bytes b => (tableEntries r.nheap b).foldl (fun s va => noteStall g.ctx true va (imageBytes s g.ctx va) s) s
    | _ => noteStall g.ctx false r.heaptab.toNat (8 * r.nheap) s

/-- GRID_READY: the dependences are tested, then the dispatch checks run; the images are then bound. -/
def gridReady (gid : Nat) (s : State) : State :=
  let g := s.grid gid
  if !mayReady s g then s
  else match depMet s g.ctx g.lrec.dep0a g.lrec.dep0v, depMet s g.ctx g.lrec.dep1a g.lrec.dep1v with
    | some true, some true =>
      match heapsReady s g with
      | .wait => noteGrid g s
      | _ =>
        if descStalled s g then noteGrid g s
        else if dispatchCheck s g ≠ 0 then clearFailed g.vf (refuseGrid gid (dispatchCheck s g) s)
        else
          let s := s.modGrid gid fun g => { g with state := .ready, decl := (readDesc s g).getD {} }
          let bind : List Event := if g.lrec.nheap = 0 then [] else [.heapBind gid]
          { s with events := s.events ++ bind ++ if g.lrec.isGang then [.gangPrepare gid] else [] }
    | some _, some _ => noteGrid g s
    | _, _ => clearFailed g.vf (s.modQueue g.queue fun q => { q with rfault := true })

def execGridReady (s : State) : Out :=
  .next (match s.input with
    | some (.gridReady g) => gridReady g s
    | _ => s)

/-- DEPENDENCE_POLL: the counters are read again (R353). -/
def execDependencePoll (s : State) : Out :=
  .next (match s.input with
    | some (.dependencePoll g) => gridReady g s
    | _ => s)

/-! ### Binding (R327) -/

/-- HEAP_BIND: the images of a ready grid are bound to free slots within the partition's allowance; each heap accepts operations once its
bind has completed. An image that has become invalid refuses the launch, and one that is held elsewhere is waited for (R319). A grid whose heaps
a Freeze holds is bound again at its resume alone (R328). -/
def bindHeaps (g : Nat) (s : State) : State :=
  let gr := s.grid g
  let n := gr.lrec.nheap
  if gr.state ≠ .ready || gr.reason ≠ 0 || gr.heaps ≠ [] || n = 0 || s.freeze.heaps.any (·.grid = some g) then s
  else match heapTable s gr.ctx gr.lrec with
    | .bytes b =>
      let imgs := tableEntries n b
      let slots := (freeSlots s gr.part).take n
      let binds := imgs.map (readImage s gr.ctx)
      if imgs.any (imageHeld s gr.vf) || slots.length < n || (s.part gr.part).heaps < slotsHeld s gr.part + n then s
      else if binds.any fun x => match x with
          | .invalid => true
          | _ => false then refuseGrid g 5 s
      else if binds.any fun x => match x with
          | .stalled => true
          | _ => false then imgs.foldl (fun s va => noteStall gr.ctx true va (imageBytes s gr.ctx va) s) s
      else
        let s := (slots.zip binds).foldl (fun s e => match e.2 with
          | .heap h => s.modHeap e.1 fun _ => { h with grid := some g }
          | _ => s) s
        let s := s.modGrid g fun x => { x with heaps := slots }
        if s.deferred then s else { s with events := s.events ++ slots.map Event.heapBindComplete }
    | .unreadable => refuseGrid g 5 s
    | .stalled => noteStall gr.ctx false gr.lrec.heaptab.toNat (8 * n) s

def execHeapBind (s : State) : Out :=
  .next (match s.input with
    | some (.heapBind g) => bindHeaps g s
    | _ => s)

/-! ### The choice (R354 to R358) -/

/-- What a queue has ready. -/
inductive Ready where
  | resume (cid : Nat)
  | fresh (gid : Nat)
  | whole (gid : Nat)
  deriving DecidableEq, Repr

/-- Pre-empted crews of a grid that may resume, oldest pre-emption first. -/
def readyCrews (s : State) (gid : Nat) : List Nat :=
  let l := s.crews.filter fun e => e.2.grid = gid && e.2.state = .ready && !e.2.dbgHold
  (l.foldl (fun (acc : List (Nat × Crew)) e =>
    (acc.filter fun x => x.2.preemptNo ≤ e.2.preemptNo) ++ [e] ++ acc.filter fun x => x.2.preemptNo > e.2.preemptNo) []).map (·.1)

/-- A frozen context is held until its release (R391, R393). -/
def vfFrozen (s : State) (v : Nat) : Bool := s.crews.any fun e => e.2.state = .frozen && (s.grid e.2.grid).vf = v

/-- Whether crews of a grid may be dispatched or resumed. -/
def mayRun (s : State) (g : Grid) : Bool := turnOk s g.part g.vf && !vfHeld s g.vf && !vfFrozen s g.vf && resident s g

/-- A ready grid that has undispatched crews; with EN 0 only where a crew of it has been dispatched (R353). -/
def offers (s : State) (g : Grid) : Bool :=
  g.state = .ready && g.reason = 0 && g.dispatched < g.lrec.crews && g.heaps.length = g.lrec.nheap
    && ((s.queue g.queue).en || 0 < g.dispatched)

/-- A grid that may still dispatch crews one by one. -/
def offersFresh (s : State) (g : Grid) : Bool := offers s g && !g.lrec.isGang

/-- Whether a crew of the grid is being pre-empted: it resumes before any fresh crew of the grid is dispatched (R278). -/
def stopsCrew (s : State) (gid : Nat) : Bool := s.crews.any fun e => e.2.grid = gid && e.2.state = .stopping

/-- The ready crew of a queue (R354); a co-resident grid or a gang's grid is ready where it fits whole (R358, R363). -/
def readyOf (s : State) (q : Nat) : Option Ready :=
  let gs := (s.queue q).grids.filter fun g => mayRun s (s.grid g)
  match (gs.filter fun g => !(s.grid g).owed).flatMap (readyCrews s) with
  | cid :: rest => ((cid :: rest).find? (hasRoom s)).map .resume
  | [] =>
    match gs.find? fun g => offers s (s.grid g) with
    | none => none
    | some g =>
      let r := (s.grid g).lrec
      if stopsCrew s g then none
      else if r.cores || r.isGang then if (dispatchAll g .running r.crews s).isSome then some (.whole g) else none
      else if (dispatchNext g .running s).isSome then some (.fresh g) else none

/-- A co-resident grid at level `p` that waits for its place holds back the levels below it (R358). -/
def coresWaiting (s : State) (part level : Nat) : Bool :=
  s.queues.any fun e => e.2.part = part && e.2.prio = level
    && match e.2.grids.find? fun g => offers s (s.grid g) && mayRun s (s.grid g) with
      | some g => (s.grid g).lrec.cores
      | none => false

/-- Rounds of replenishment until one of the queues has a positive deficit. -/
def roundsFor (x : QueueReg) : Nat := if x.deficit > 0 then 0 else ((-x.deficit).toNat / (65536 * x.weight)) + 1

def replenish (x : QueueReg) (n : Nat) : QueueReg :=
  if n = 0 then x else { x with deficit := min (x.deficit + n * (65536 * x.weight : Nat)) (65536 * x.weight : Nat) }

/-- The queue of a level that is served next: its number, and the state with the deficits of R354. -/
def pickQueue (part level : Nat) (r : List Nat) (s : State) : Option Nat × State :=
  if r = [] then (none, s)
  else
    let n := (r.map fun q => roundsFor (s.queue q)).foldl min (roundsFor (s.queue (r.headD 0)))
    let s := r.foldl (fun s q => s.modQueue q fun x => replenish x n) s
    let at_ := tget 0 (s.part part).ptr level
    let ok := r.filter fun q => (s.queue q).deficit > 0
    let q := (ok.find? (· ≥ at_)).or ok.head?
    (q, match q with
      | some k => s.modPart part fun p => { p with ptr := tset 0 p.ptr level (k + 1) }
      | none => s)

/-- Levels from 15 down; a waiting co-resident grid ends the search at its level. -/
def chooseCrew (part : Nat) : Nat → State → Option Ready × State
  | 0, s => (none, s)
  | n + 1, s =>
    let r := (s.queues.filter fun e => e.2.part = part && e.2.prio = n && (readyOf s e.1).isSome).map (·.1)
    match pickQueue part n r s with
    | (some q, t) => (readyOf s q, t)
    | (none, _) => if coresWaiting s part n then (none, s) else chooseCrew part n s

/-- Charges the deficits of a partition's queues up to now (R355). -/
def chargeAll (part : Nat) (s : State) : State :=
  (s.crews.filter fun e => e.2.onCore && (s.grid e.2.grid).part = part).foldl (fun s e => charge e.1 s) s

/-- A resident crew of the grid has been blocked since this cycle: when the last of its strands blocked (R276). -/
def blockedSince (s : State) (c : Crew) : Option Nat :=
  let live := c.sids.filter fun i => (s.strand i).run = .running
  if live ≠ [] && live.all fun i => (s.strand i).blocked then some (live.foldl (fun n i => max n ((s.strand i).blockedFrom.getD 0)) 0) else none

def residentOf (s : State) (gid : Nat) : List (Nat × Crew) := s.crews.filter fun e => e.2.grid = gid && e.2.state = .resident

/-- The condition of R279. -/
def yieldDue (s : State) (gid : Nat) : Bool :=
  let g := s.grid gid
  let rs := residentOf s gid
  offersFresh s g && rs ≠ [] && rs.all fun e => match blockedSince s e.2 with
    | some t => t + g.lrec.yieldCycles ≤ s.cycle
    | none => false

/-- The crew blocked longest, the lowest index among equals. -/
def longestBlocked (s : State) (gid : Nat) : Option (Nat × Crew) :=
  (residentOf s gid).foldl (fun b e => match b with
    | none => some e
    | some x =>
      let te := (blockedSince s e.2).getD s.cycle
      let tx := (blockedSince s x.2).getD s.cycle
      if te < tx || (te = tx && e.2.index < x.2.index) then some e else b) none

/-- A crew as it leaves its unit; a lazy switch leaves the rows of its strands (R375). -/
def leave (isLazy : Bool) (cid : Nat) (s : State) : State :=
  let c := s.crew cid
  let s := if isLazy then c.sids.foldl (fun s i => s.modStrand i fun m => { m with vpend := !m.spent }) s else s
  s.modCrew cid fun c => { c with state := .captured }

/-- Whether a declaration fits a unit that the crews of `vs` leave, those of VF `v` lazily (R279, R375). -/
def lazySuffices (s : State) (p v : Nat) (d : Decl) (u : CoreUnit) (vs : List Nat) : Bool :=
  fits (vs.foldl (fun s c => leave ((s.grid (s.crew c).grid).vf = v) c s) s) p d u

/-- YIELD_THRESHOLD: the oldest undispatched crew is dispatched, or room is made for it, once; the switch is lazy where the incoming
strand has a handler and what is freed suffices (R279, R374). -/
def yieldThreshold (gid : Nat) (s : State) : State :=
  let g := s.grid gid
  if !yieldDue s gid || !dispatches s g.part || !mayRun s g || (g.owed && stopsCrew s gid) then s
  else match dispatchNext gid .running s with
    | some t => t
    | none =>
      match longestBlocked s gid with
      | some (cid, c) =>
        let isLazy := bitsOf g.lrec.handler 5 0 ≠ 0 && lazySuffices s g.part g.vf g.decl (c.core, c.half) [cid]
        let s := s.modCrew cid fun c => { c with yields := true, wantLazy := isLazy }
        let s := s.modGrid gid fun g => { g with owed := true }
        { s with events := s.events ++ [.preemptRequest cid] }
      | none => s

def execYieldThreshold (s : State) : Out :=
  .next (match s.input with
    | some (.yieldThreshold g) => yieldThreshold g s
    | _ => s)

/-- Notes since when the crew of a PREEMPT queue has found no room without a break (R357). -/
def noteNoRoom (part : Nat) (s : State) : State :=
  s.queues.foldl (fun s e =>
    if e.2.part = part && e.2.preempt then
      match e.2.grids.find? fun g => (offers s (s.grid g) && mayRun s (s.grid g)) || readyCrews s g ≠ [] with
      | some g => if (readyOf s e.1).isNone then s.modGrid g fun x => { x with noRoom := x.noRoom.or (some s.cycle) }
          else s.modGrid g fun x => { x with noRoom := none }
      | none => s
    else s) s

def gang (s : State) (t : Nat) : Gang := tget {} s.gangs t

def modGang (t : Nat) (f : Gang → Gang) (s : State) : State := { s with gangs := tmod {} s.gangs t f }

/-- Writes the group entry of a gang (R365). -/
def makeGroup (t : Nat) (s : State) : State :=
  let x := gang s t
  match x.grid with
  | some g =>
    let e : Group := { valid := true, size := x.size, rank := x.rank, grid := g }
    { s with groups := tset {} s.groups (groupKey (s.grid g).part x.cgroup) e }
  | none => s

/-- Step 1 of R363: the whole grid's places are reserved, or with EAGER its crews start; PREPARED goes to the coordinator. -/
def reserveGang (gid : Nat) (s : State) : State :=
  let r := (s.grid gid).lrec
  match dispatchAll gid (if r.eager then .running else .absent) r.crews s with
  | none => s
  | some s =>
    let t := r.gtag.toNat
    let s := s.modGrid gid fun g => { g with state := .reserved }
    let s := modGang t (fun x => { x with grid := some gid, size := r.size, rank := r.rank, cgroup := r.cgroup, eager := r.eager,
                                          since := s.cycle }) s
    let s := if r.eager then makeGroup t s else s
    if r.rank = 0 then { s with events := s.events ++ [.prepared t 0] }
    else { s with outbox := s.outbox ++ [.prepared t r.rank] }

/-- A grid whose crews are placed in one step (R358, R363). -/
def placeWhole (gid : Nat) (s : State) : State :=
  let r := (s.grid gid).lrec
  if r.isGang then reserveGang gid s else (dispatchAll gid .running r.crews s).getD s

/-- CREW_DISPATCH: the crew that R279 names, or one crew of the partition, or a whole co-resident or gang grid. -/
def crewDispatch (part : Nat) (s : State) : State :=
  if !dispatches s part then s
  else
    let t := chargeAll part s
    let owed := s.grids.find? fun e => e.2.part = part && e.2.owed && offersFresh s e.2 && mayRun s e.2 && (dispatchNext e.1 .running s).isSome
    noteNoRoom part (match owed with
      | some e => (dispatchNext e.1 .running t).getD t
      | none => match chooseCrew part 16 t with
        | (some (.resume cid), t) => { t with events := t.events ++ [.crewResume cid] }
        | (some (.fresh g), t) => (dispatchNext g .running t).getD t
        | (some (.whole g), t) => placeWhole g t
        | (none, _) => s)

def execCrewDispatch (s : State) : Out :=
  .next (match s.input with
    | some (.crewDispatch p) => crewDispatch p s
    | _ => s)

/-- Victims on one unit in the order of R357: lowest level first, then the most recently dispatched first. -/
def victimsOn (s : State) (level : Nat) (u : CoreUnit) : List (Nat × Crew) :=
  let l := (crewsOn s u).filter fun e => e.2.state = .resident && (s.queue (s.grid e.2.grid).queue).prio < level
    && !(s.grid e.2.grid).lrec.cores
  let prio (e : Nat × Crew) : Nat := (s.queue (s.grid e.2.grid).queue).prio
  let before (a b : Nat × Crew) : Bool := prio a < prio b || (prio a = prio b && a.2.dispatchNo > b.2.dispatchNo)
  l.foldl (fun acc e => (acc.filter fun x => before x e) ++ [e] ++ acc.filter fun x => !before x e) []

/-- The crews to pre-empt on a unit so that a declaration fits there: the shortest prefix of its victims. -/
def neededOn (s : State) (p level : Nat) (d : Decl) (u : CoreUnit) : Option (List Nat) :=
  let vs := (victimsOn s level u).map (·.1)
  let without (n : Nat) : State := (vs.take n).foldl (fun s c => leave false c s) s
  ((List.range (vs.length + 1)).find? fun n => fits (without n) p d u).map vs.take

/-- Whether the crews that are stopping already will make room (R357): no more are pre-empted then. -/
def roomComing (s : State) (p : Nat) (d : Decl) : Bool :=
  let t := (s.crews.filter fun e => e.2.state = .stopping).foldl (fun s e => leave false e.1 s) s
  (unitsOf s p).any (fits t p d)

/-- Whether every strand of a grid's next crew comes with a handler (R374). -/
def nextHandled (s : State) (gid : Nat) : Bool :=
  match readyCrews s gid with
  | c :: _ => (s.crew c).sids.all fun i => (s.strand i).over || bitsOf (s.strand i).trapvec 5 0 ≠ 0
  | [] => bitsOf (s.grid gid).lrec.handler 5 0 ≠ 0

/-- Pre-empts the victims of a unit: those of the incoming crew's context lazily, where what they free suffices (R375). -/
def preemptOn (gid : Nat) (d : Decl) (u : CoreUnit) (vs : List Nat) (s : State) : State :=
  let g := s.grid gid
  let isLazy := nextHandled s gid && lazySuffices s g.part g.vf d u vs
  let s := vs.foldl (fun s c => if isLazy && (s.grid (s.crew c).grid).vf = g.vf then s.modCrew c fun c => { c with wantLazy := true } else s) s
  { s with events := s.events ++ vs.map Event.preemptRequest }

/-- A co-resident grid is pre-empted whole (R280). -/
def wholeVictims (s : State) (part level : Nat) : List Nat :=
  (s.crews.filter fun e => e.2.state = .resident && (s.grid e.2.grid).part = part && (s.grid e.2.grid).lrec.cores
    && (s.queue (s.grid e.2.grid).queue).prio < level).map (·.1)

/-- PRIORITY_PREEMPT (R357). -/
def priorityPreempt (q : Nat) (s : State) : State :=
  let x := s.queue q
  match x.grids.find? fun g => match (s.grid g).noRoom with
      | some t => reached s (t + 1024)
      | none => false with
  | none => s
  | some gid =>
    let d := match readyCrews s gid with
      | c :: _ => (s.crew c).decl
      | [] => (s.grid gid).decl
    if !x.preempt || (readyOf s q).isSome || roomComing s x.part d then s
    else
      let us := (unitsOf s x.part).filterMap fun u => (neededOn s x.part x.prio d u).map (u, ·)
      match us.foldl (fun (b : Option (CoreUnit × List Nat)) l => match b with
          | none => some l
          | some m => if l.2.length < m.2.length then some l else b) none with
      | some (u, vs) => preemptOn gid d u vs s
      | none => { s with events := s.events ++ (wholeVictims s x.part x.prio).map Event.preemptRequest }

def execPriorityPreempt (s : State) : Out :=
  .next (match s.input with
    | some (.priorityPreempt q) => priorityPreempt q s
    | _ => s)

/-! ### Work queries (R153, R362) -/

/-- The reply for the next item of a grid. -/
def itemReply (g : Grid) : List Byte :=
  let n := g.lrec.wsx * g.lrec.wsy
  if g.item < n then leBytes 8 g.item ++ leBytes 4 (g.item % g.lrec.wsx) ++ leBytes 4 (g.item / g.lrec.wsx)
  else List.replicate 16 0xFF

/-- Gives a reply to the oldest unserved query of a strand. -/
def answerQuery (sid : Nat) (b : List Byte) : List Query → List Query
  | [] => []
  | q :: t => if q.sid = sid && q.reply.isNone then { q with reply := some b } :: t else q :: answerQuery sid b t

/-- Whether query `a` comes before query `b` (R362): by arrival, then by core, then by slot. -/
def askBefore (s : State) (a b : Nat × Nat) : Bool :=
  let x := s.strand a.2
  let y := s.strand b.2
  a.1 < b.1 || (a.1 = b.1 && (x.core < y.core || (x.core = y.core && x.slot < y.slot)))

/-- The query of a grid that is served next: the first of those that have arrived. -/
def nextAsk (s : State) (g : Grid) : Option (Nat × Nat) :=
  (g.asks.filter fun a => reached s a.1).foldl (fun b a => match b with
    | none => some a
    | some x => if askBefore s a x then some a else b) none

/-- WQRY_SERVICE: the Factor serves the grid's next query. -/
def wqryService (gid : Nat) (s : State) : State :=
  let g := s.grid gid
  match nextAsk s g with
  | none => s
  | some a =>
    let s := s.modCrew (s.strand a.2).crew fun c => { c with queries := answerQuery a.2 (itemReply g) c.queries }
    s.modGrid gid fun g => { g with asks := g.asks.erase a, item := if g.item < g.lrec.wsx * g.lrec.wsy then g.item + 1 else g.item }

def execWqryService (s : State) : Out :=
  .next (match s.input with
    | some (.wqryService g) => wqryService g s
    | _ => s)

/-! ### Gangs (R363 to R365) -/

/-- GANG_PREPARE: when the choice of R354 falls on the gang's grid, and it fits whole. -/
def gangPrepare (gid : Nat) (s : State) : State :=
  let g := s.grid gid
  if g.state ≠ .ready || !g.lrec.isGang || !dispatches s g.part then s
  else match chooseCrew g.part 16 (chargeAll g.part s) with
    | (some (.whole k), t) => if k = gid then reserveGang gid t else s
    | _ => s

def execGangPrepare (s : State) : Out :=
  .next (match s.input with
    | some (.gangPrepare g) => gangPrepare g s
    | _ => s)

/-- PREPARED at the coordinator: with every rank's within 2 ms of its own, COMMIT goes to every member. -/
def prepared (t rank : Nat) (s : State) : State :=
  let s := modGang t (fun x => { x with prepared := addOnce x.prepared rank }) s
  let x := gang s t
  if x.grid.isSome && x.rank = 0 && !x.committed && (List.range x.size).all (· ∈ x.prepared)
      && s.cycle ≤ x.since + 2 * Config.msCycles then
    { s with outbox := s.outbox ++ [.commit t], events := s.events ++ [.commit t] }
  else s

def execPrepared (s : State) : Out :=
  .next (match s.input with
    | some (.prepared t r) => prepared t r s
    | _ => s)

/-- The crews of a grid, ended ones aside. -/
def crewsOf (s : State) (gid : Nat) : List (Nat × Crew) := s.crews.filter fun e => e.2.grid = gid && e.2.state ≠ .ended

/-- COMMIT: the reserved crews start, and the group entry is written. -/
def commit (t : Nat) (s : State) : State :=
  let x := gang s t
  match x.grid with
  | none => s
  | some gid =>
    if x.committed then s
    else
      let s := (crewsOf s gid).foldl (fun s e =>
        if e.2.state = .reserved then
          let s := s.modCrew e.1 fun c => { c with state := .resident, tstart := s.cycle, charged := s.cycle }
          e.2.sids.foldl (fun s i => s.modStrand i fun m => { m with run := .running }) (dropLines e.2.core s)
        else s) s
      makeGroup t (modGang t (fun x => { x with committed := true }) s)

def execCommit (s : State) : Out :=
  .next (match s.input with
    | some (.commit t) => commit t s
    | _ => s)

/-- Removes every crew of a grid with its strands; nothing of them is kept. -/
def discardCrews (gid : Nat) (s : State) : State :=
  let l := crewsOf s gid
  let sids := l.flatMap fun e => e.2.sids
  let s := l.foldl (fun s e => freeRoom e.1 (releaseTasks e.1 (charge e.1 s))) s
  let s := withdraw sids gid s
  let s := sids.foldl (fun s i => s.modStrand i Strand.ended) s
  { s with
    crews := s.crews.filter fun e => e.2.grid ≠ gid
    others := s.others.filter fun e => e.1 ∉ sids
    colls := s.colls.filter fun k => k.sid ∉ sids }

/-- GANG_ABORT of R435. -/
def abortNotice (rank reason t : Nat) : Notice := { kind := 5, source := rank, detail := reason, data := word t }

/-- The crews of a gang's grid end with the gang (R364): a crew that has run keeps its record, and what it has stored stands; a place that
was only held is given back. -/
def endGang (gid rank : Nat) (s : State) : State :=
  let ran := (crewsOf s gid).filter fun e => e.2.state ≠ .reserved
  let sids := ran.flatMap fun e => e.2.sids
  let s := { s with colls := s.colls.filter fun k => k.sid ∉ sids }
  if ran = [] then discardCrews gid s else ran.foldl (fun s e => endCrew e.1 3 0 0 0 rank 0 0 s) s

/-- The grid of a gang completes with STATUS 3 and the failing rank (R364). -/
def abortGrid (t gid rank : Nat) (s : State) : State :=
  let x := gang s t
  let s := clearGroup gid (endGang gid rank s)
  let d := if (s.grid gid).state = .copied then (readDesc s (s.grid gid)).getD {} else (s.grid gid).decl
  let s := s.modGrid gid fun g => { g with reason := 256 + rank, completed := g.lrec.crews, decl := d }
  let s := post (abortNotice rank x.reason t) { s with gangs := s.gangs.filter (·.1 ≠ t) }
  { s with events := s.events ++ (s.grid gid).heaps.map Event.heapWriteBack ++ [.gridComplete gid] }

/-- The grid of a gang that this device has a record of (R363). -/
def gangGrid (s : State) (t : Nat) : Option Nat :=
  (s.grids.find? fun e => e.2.lrec.isGang && e.2.lrec.gtag.toNat = t && e.2.state ≠ .complete && e.2.reason = 0).map (·.1)

/-- ABORT: the reservation is released, and the grid completes with STATUS 3 and the failing rank, also where it has not prepared; an
ABORT that comes before the record is kept for it. A member that has refused its record has completed already (R364). -/
def abort (t rank : Nat) (s : State) : State :=
  let x := gang s t
  if x.committed then s
  else match x.grid.or (gangGrid s t) with
    | some gid =>
      if (s.grid gid).reason ≠ 0 then { s with gangs := s.gangs.filter (·.1 ≠ t) } else abortGrid t gid rank s
    | none => modGang t (fun x => { x with aborted := some rank }) s

def execAbort (s : State) : Out :=
  .next (match s.input with
    | some (.abort t r) => abort t r s
    | _ => s)

/-- The coordinator aborts a gang. -/
def abortGang (t rank reason : Nat) (s : State) : State :=
  let s := modGang t (fun x => { x with reason := reason }) s
  { s with outbox := s.outbox ++ [.abort t rank], events := s.events ++ [.abort t rank] }

/-- GANG_REFUSAL. -/
def execGangRefusal (s : State) : Out :=
  .next (match s.input with
    | some (.gangRefusal t rank reason) => if (gang s t).committed then s else abortGang t rank reason s
    | _ => s)

/-- Whether the timers of quanta and gangs run: they stop while a Freeze stops, saves, demotes and holds (R392). -/
def timersRun (s : State) : Bool := s.freeze.state = .idle || s.freeze.state = .resuming

/-- GANG_PREPARE_TIMEOUT: the lowest rank whose PREPARED is missing fails. -/
def execGangPrepareTimeout (s : State) : Out :=
  .next (match s.input with
    | some (.gangPrepareTimeout t) =>
      let x := gang s t
      if x.grid.isSome && x.rank = 0 && !x.committed && timersRun s && reached s (x.since + 2 * Config.msCycles) then
        match (List.range x.size).find? (· ∉ x.prepared) with
        | some r => abortGang t r 0 s
        | none => s
      else s
    | _ => s)

/-- GANG_COMMIT_TIMEOUT: the member aborts by itself, naming rank 0. -/
def execGangCommitTimeout (s : State) : Out :=
  .next (match s.input with
    | some (.gangCommitTimeout t) =>
      let x := gang s t
      if x.grid.isSome && x.rank ≠ 0 && !x.committed && timersRun s && reached s (x.since + 4 * Config.msCycles) then abort t 0 s else s
    | _ => s)

end Sys2Proof.Machine
end

