-- ==== Sys2Proof/Machine/Preempt.lean ====
section
/-! DEFINITION. Pre-emption, capture and resumption (R366 to R378), quanta and overruns (R383 to R386, R420, R421), page moves
(R389), and the answers of work queries (R152, R362). -/

namespace Sys2Proof.Machine
open Sys2Proof

/-- Queues an event of the device's own, once. -/
def pushOnce (e : Event) (s : State) : State := if e ∈ s.events then s else { s with events := s.events ++ [e] }

/-! ### Stopping (R366 to R373) -/

/-- Waits whose standing a stopped strand keeps: an arrival at a barrier (R272). -/
def Wait.kept : Wait → Bool
  | .bsync _ | .gbar => true
  | _ => false

/-- An entry of the queue as it is saved (R370): a blocking wait goes on counting later (R277), and an `mma` executes again in full
(R237). -/
def VOp.rest (now : Nat) (o : VOp) : VOp :=
  match o.wait with
  | none => o
  | some .mma => o
  | some w => { o with wait := none, waitCount := if w.blocking then o.waitCount + (now - o.waitFrom) else o.waitCount }

/-- Entry `k` of the current strand goes on while the groups below it that older instructions of its chain have committed are there. -/
def alignEntry (k : Nat) : Nat → State → State
  | 0, s => s
  | n + 1, s =>
    match s.me.viq[k]? with
    | some o => if o.started && !o.fin && o.wait = none && chains s.me k o then alignEntry k n (runEntry k resume s) else s
    | none => s

/-- The queue of the current strand comes to its stop points (R367 to R370): instructions that chain stop at one group boundary, and what
waits is saved as it waits. -/
def restQueue (s : State) : State :=
  let s := (List.range (s.me.viq.length - 1)).foldl (fun s i => alignEntry (i + 1) 32 s) s
  (leaveFe s.cur s).modMe fun m => { m with viq := m.viq.map (VOp.rest s.cycle) }

/-- The current strand stops (R367 to R370): a trap that is due comes first; an arrival at a barrier stands; any other wait of the front
end is abandoned, and a blocking one goes on counting later (R277). `strip` is none where the stop itself decides. -/
def stopMe (strip : Option Bool) (s : State) : State :=
  let s := takeDue s.cur (fun _ => true) s
  let m := s.me
  if m.run ≠ .running then s
  else
    let count := m.waited s.cycle
    let s := match m.wait with
      | none => s
      | some w =>
        if w.kept then s.modMe fun m => { m with waitCount := count, waitFrom := s.cycle }
        else (withdrawWait w s).modMe fun m =>
          { m with wait := none, waitCount := 0, carry := if w.blocking then some count else m.carry }
    let s := restQueue s
    let b := strip.getD (s.me.wait = none && atStrip s)
    s.modMe fun m => { m.stopHere s.cycle with strip := b, links := [], failed := [], line := if m.wait = none then none else m.line }

/-- When no strand of a stopping crew runs any more, its state can be captured. -/
def settleStop (cid : Nat) (s : State) : State :=
  let c := s.crew cid
  if c.state = .stopping && c.sids.all fun i => (s.strand i).run ≠ .running then pushOnce (.stateCapture cid) s else s

def stopStrand (sid : Nat) (strip : Option Bool) (s : State) : State :=
  let s := onStrand sid (stopMe strip) s
  settleStop (s.strand sid).crew s

/-- Whether the crews of a grid are held because a member of its gang is lost (R446). -/
def gangHolds (s : State) (gid : Nat) : Bool := s.gangs.any fun e => e.2.grid = some gid && e.2.lost.isSome && !e.2.resumed

/-- Whether a Freeze that stops and saves takes the crew: every one, or those of one gang (R391, R392). -/
def freezing (s : State) (c : Crew) : Bool :=
  (s.freeze.state = .stopping || s.freeze.state = .saving) && match s.freeze.scope with
    | none => true
    | some t => s.gangs.any fun e => e.1 = t && e.2.grid = some c.grid

/-- Whether a request stops its strands at once: under PMODE 0, in a Freeze, for the debugger, and for a lost gang. -/
def stopsAtOnce (s : State) (c : Crew) : Bool :=
  let g := s.grid c.grid
  g.lrec.pmode = 0 || freezing s c || c.dbgHold
    || gangHolds s c.grid

/-- PREEMPT_REQUEST (R366): a second request joins the first. -/
def preemptRequest (cid : Nat) (s : State) : State :=
  let c := s.crew cid
  if c.state ≠ .resident then s
  else
    let s := wakeIdle cid (s.modCrew cid fun c => { c with state := .stopping, reqAt := s.cycle })
    let s := c.sids.foldl (fun s i =>
      if (s.strand i).run = .halted then onStrand i restQueue s
      else if (s.strand i).run ≠ .running then s
      else if stopsAtOnce s c || (s.strand i).blocked then stopStrand i none s
      else s.modStrand i fun m => { m with stopReq := true }) s
    settleStop cid s

def execPreemptRequest (s : State) : Out :=
  .next (match s.input with
    | some (.preemptRequest cid) => preemptRequest cid s
    | _ => s)

/-- What a strand that has been asked to stop at a strip does before a head (R372). -/
inductive Gate where
  | go
  | stop (strip : Option Bool)
  | drain
  deriving DecidableEq, Repr

/-- R141, R372: 6,000 cycles after the request no head issues. -/
def stripGate (i : Instr) (s : State) : Gate :=
  if !s.me.stopReq then .go
  else match i with
    | .settile .. =>
      if reached s (s.myCrew.reqAt + 6000) then .stop (some false)
      else if outstanding s s.cur || s.me.viq ≠ [] then .drain else .stop (some !s.me.trapon)
    | .amerge | .colred .. | .colbcast .. => .stop (some false)
    | _ => if reached s (s.myCrew.reqAt + 6000) then .stop (some false) else .go

/-- A strand that has reached its `settile`, and all of whose work is over. -/
def drained (s : State) (sid : Nat) : Bool :=
  (s.strand sid).wait = some .drain && !outstanding s sid && (s.strand sid).viq = []

/-- Strands that have been asked to stop at a strip, and that stop now (R372): one that has drained before its `settile`, at a strip boundary
within 8,000 cycles of the request, and one that blocks. -/
def stopDue (s : State) : State :=
  s.strands.foldl (fun s e =>
    let m := s.strand e.1
    if !m.stopReq || m.run ≠ .running then s
    else if drained s e.1 then stopStrand e.1 (some (!m.trapon && s.cycle ≤ (s.crew m.crew).reqAt + 8000)) s
    else if m.blocked then stopStrand e.1 none s
    else s) s

/-- STRIP_WAIT_EXPIRE: 6,000 cycles without a `settile` (R372). -/
def execStripWaitExpire (s : State) : Out :=
  .next (match s.input with
    | some (.stripWaitExpire sid) =>
      let m := s.strand sid
      if m.stopReq && m.wait ≠ some .drain && reached s ((s.crew m.crew).reqAt + 6000) then stopStrand sid (some false) s else s
    | _ => s)

/-- DRAIN_WAIT_EXPIRE: a `settile` that waits to drain for 8,000 cycles after the request (R372). -/
def execDrainWaitExpire (s : State) : Out :=
  .next (match s.input with
    | some (.drainWaitExpire sid) =>
      let m := s.strand sid
      if m.stopReq && m.wait = some .drain && reached s ((s.crew m.crew).reqAt + 8000) then stopStrand sid (some false) s else s
    | _ => s)

/-! ### Capture (R371, R374, R375, R475) -/

/-- The work of a stopped crew that completes first: copies, engine releases, stores, and rows that return. -/
def completeWork (cid : Nat) (s : State) : State :=
  let s := landAll cid (s.crew cid).landings.length s
  let s := (s.crew cid).releases.foldl (fun s r => engineRelease cid r.2.1 r.2.2 s) s
  let s := drainCore (s.crew cid).core (s.modCrew cid fun c => { c with releases := [] })
  let s := freeRows cid (charge cid s)
  (s.crew cid).sids.foldl (fun s i => drainStrand i s) s

/-- At a strip boundary tiles are empty and TSHAPE reads zero, as the next `settile` leaves them (R30, R378). -/
def emptyTiles (cid : Nat) (s : State) : State :=
  (s.crew cid).sids.foldl (fun s i => s.modStrand i fun m => { m with tiles := [], tshape := [], tpois := [] }) s

/-- Where a crew stands after its capture. -/
def capturedState (s : State) (c : Crew) : CrewState :=
  if freezing s c then .frozen
  else if gangHolds s c.grid then .lostHeld
  else .ready

/-- The vector sections of the strands whose rows stay are left where they are; the rest goes to the image (R375). -/
def saveLazy (cid : Nat) (img : List Byte) (bad : List Nat) (s : State) : Saved :=
  let c := s.crew cid
  let o2 := offTileOf img
  let secs := vecSections img c.decl.vlmax (c.sids.map s.strand) (offVecOf img)
  let there := (c.sids.zip secs).filter fun e => !(s.strand e.1).vpend
  writeParts (s.grid c.grid).ctx c.image.toNat img bad
    ((0, areaBase c.decl.strands) :: there.map (fun e => (e.2.1, imageLen e.2.2 c.decl.vlmax)) ++ [(o2, img.length - o2)]) s

def saveWhole (cid : Nat) (img : List Byte) (bad : List Nat) (s : State) : Saved :=
  let c := s.crew cid
  if freezing s c then
    .ok (s.modCrew cid fun c => { c with frozen := img, frozenBad := bad })
  else writeArena (s.grid c.grid).ctx c.image.toNat img bad s

def hasArmed (s : State) (cid : Nat) : Bool := s.colls.any fun k => k.armed && k.sid ∈ (s.crew cid).sids

/-- Whether a store of the crew to another device is still to be performed there (R300). -/
def storesOut (s : State) (cid : Nat) : Bool := s.rstores.any fun x => x.sid ∈ (s.crew cid).sids

/-- STATE_CAPTURE: the slots are free for other strands once the image is written, or with a lazy switch all of it but the vector
contexts. -/
def stateCapture (cid : Nat) (s : State) : State :=
  let c := s.crew cid
  if c.state ≠ .stopping || c.sids.any (fun i => (s.strand i).run = .running) || hasArmed s cid then s
  else
    let s := completeWork cid s
    if (s.crew cid).state = .ended || storesOut s cid then s
    else
      let strip := c.sids.all fun i => (s.strand i).over || (s.strand i).strip
      let s := if strip then emptyTiles cid s else s
      let lazy := c.wantLazy && !c.dbgHold && capturedState s c = .ready
      let s := if lazy then c.sids.foldl (fun s i => s.modStrand i fun m => { m with vpend := !m.spent }) s else s
      let img := imageOf s cid strip
      let bad := imagePoison s cid
      match (if lazy then saveLazy cid img bad s else saveWhole cid img bad s) with
      | .lost x a => loseCrew cid x a s
      | .ok s =>
        let s := s.modCrew cid fun c => { c with
          state := capturedState s c, lazy := lazy, wantLazy := false, stripSaved := strip, savedClass := (s.classOf c.core).code
          imageLen := img.length, preemptNo := if c.yields then -(s.serial : Int) else s.serial, yields := false }
        { s with serial := s.serial + 1 }

def execStateCapture (s : State) : Out :=
  .next (match s.input with
    | some (.stateCapture cid) => stateCapture cid s
    | _ => s)

/-! ### Resumption (R328, R378, R382) -/

/-- Re-binds the heaps of a grid that a Freeze wrote back, exactly as they were saved; none while too few slots are free. -/
def rebind (gid : Nat) (s : State) : Option State :=
  let hs := s.freeze.heaps.filter (·.grid = some gid)
  if hs = [] then some s
  else
    let p := (s.grid gid).part
    let slots := (freeSlots s p).take hs.length
    if slots.length < hs.length || (s.part p).heaps < slotsHeld s p + hs.length then none
    else
      let s := (slots.zip hs).foldl (fun s e => s.modHeap e.1 fun _ => e.2) s
      let s := s.modGrid gid fun g => { g with heaps := slots }
      some { s with freeze := { s.freeze with heaps := s.freeze.heaps.filter (·.grid ≠ some gid) } }

/-- The bits [lo, lo + n) of an image as bytes. -/
def slice (b : List Byte) (lo n : Nat) : List Byte := (b.drop lo).take n

/-- Poisoned sectors of a stored range, from those of the image. -/
def restorePoison (bad : List Nat) (o n key : Nat) (s : State) : State :=
  let hit := bad.filter fun x => o ≤ x * 64 && x * 64 < o + n
  let l := hit.foldl (fun l x => (sectors (key + (64 * x - o)) (min 64 (n - (64 * x - o)))).foldl addOnce l) s.mpois
  { s with mpois := l }

/-- Poison of a strand's registers, tiles and accumulators from the sectors of the image (R427, R428). -/
def poisonRows (bad : List Nat) (vec tile : Nat) (m : Strand) : Strand :=
  let hit (o n : Nat) : Bool := (sectors o n).any (· ∈ bad)
  let rows := m.vlmax / 32
  let tileAt (k : Nat) : Nat := tile + 208 * sumOf (List.range k) (fun j => (tget {} m.tshape j).rows)
  let tiles := (List.range m.tdecl).flatMap fun k => (List.range (tget {} m.tshape k).rows).map fun r => (64 * k + r, tileAt k + 208 * r)
  let zs := (List.range (64 * m.zdecl)).map fun x => (x, tileAt m.tdecl + 256 * x)
  { m with
    vpois := if m.vpend then m.vpois else ((List.range (m.vheld * rows)).filter fun i => hit (vec + 3392 + 128 * i) 128).map
      fun i => i / rows * 32 + i % rows
    tpois := (tiles.filter fun e => hit e.2 208).map (·.1)
    zpois := (zs.filter fun e => hit e.2 256).map (·.1) }

/-- Restores strand `idx` of a crew from its image on its new slot; the bytes of its tiles begin at `tile`, and the answer is
where the next strand's begin. -/
def restoreStrand (x : ReadImage) (vec tile : Nat) (u : CoreUnit) (slot sid idx : Nat) (s : State) : State × Nat :=
  let b := x.bytes
  let m := loadArea b (areaBase idx) (s.strand sid)
  let m := if m.vpend then m else loadImage m (b.drop vec)
  let r := loadTiles b tile m
  let m := poisonRows x.bad vec tile r.1
  let kept := match m.wait with
    | some w => w.kept
    | none => false
  let m := { m with
    core := u.1, half := u.2, slot := slot, vpend := false, strip := false, waitFrom := s.cycle
    viq := if field b (opaqueAt b idx) 4 = 0 then [] else m.viq
    carry := if kept || m.waitCount = 0 then none else some m.waitCount
    run := if m.run = .stopped then .running else m.run }
  let s := s.setStrand sid m
  let gs := word (field b (areaBase idx + 288) 8)
  (onStrand sid (fun s => (writeSys s 6 gs).getD s) s, r.2)

/-- Puts a crew back on a unit from its image. -/
def restoreCrew (cid : Nat) (u : CoreUnit) (x : ReadImage) (s : State) : Option State :=
  let c := s.crew cid
  let d := c.decl
  let cl := clusterOf u.1
  let stays := inPlace s c u
  let secs := vecSections x.bytes d.vlmax (c.sids.map s.strand) (offVecOf x.bytes)
  let slots := if stays then c.sids.map fun i => (s.strand i).slot else (freeSlotsOf s u).take d.strands
  match roomAt (cspHeld s cl) (2 ^ 32) d.csp, roomAt (laneHeld s u.1) (2 ^ 32) d.laneBytes with
  | some cb, some lb =>
    let b := x.bytes
    let s := clearKeys (cspKey cl cb) d.csp (clearKeys (laneKey u.1 lb) d.laneBytes s)
    let mem := putBytes s.mem (laneKey u.1 lb) (slice b (offLaneOf b) d.laneBytes)
    let s := { s with mem := putBytes mem (cspKey cl cb) (slice b (offCspOf b) d.spbytes) }
    let bits8 := b.drop (offCspOf b + d.spbytes)
    let s := setFull true (((List.range ((d.spbytes + 15) / 16)).filter fun g => (bits8.getD (g / 8) 0).toNat.testBit (g % 8)).map
      (· + cspKey cl cb / 16)) s
    let s := restorePoison x.bad (offCspOf b) d.spbytes (cspKey cl cb)
      (restorePoison x.bad (offLaneOf b) d.laneBytes (laneKey u.1 lb) s)
    let s := ((c.sids.zip slots).zipIdx.foldl (fun (r : State × Nat) e =>
      restoreStrand x (secs.getD e.2 (0, 0)).1 r.2 u e.1.2 e.1.1 e.2 r.1) (s, offTileOf b)).1
    let held := sumOf c.sids fun i => (s.strand i).vheld * (d.vlmax / 32)
    let moved := c.audited && c.savedClass ≠ (s.classOf u.1).code
    let s := s.modCrew cid fun c => { c with
      state := .resident, core := u.1, half := u.2, cspBase := cb, llBase := lb, lazy := false, charged := s.cycle
      frozen := [], frozenBad := [], stripSaved := false, audited := c.audited && !moved
      auditCopy := if moved then [] else c.auditCopy
      freeRows := if stays then c.freeRows else List.replicate (d.quota - held) ([], false)
      bands := (List.range 16).foldl (fun t i => tset 0 t i (BitVec.ofNat 32 (field b (128 + 4 * i) 2))) []
      arrived := (List.range 16).foldl (fun t i => tset 0 t i (BitVec.ofNat 32 (field b (130 + 4 * i) 2))) []
      barriers := (List.range d.nsb).foldl (fun t i =>
        let o := 192 + 24 * i
        tset {} t i { ph := BitVec.ofNat 32 (field b o 4), rph := BitVec.ofNat 32 (field b (o + 4) 4), exp := field b (o + 8) 4
                      arr := field b (o + 12) 4, rcnt := field b (o + 16) 1, rdone := field b (o + 17) 1
                      ovr := field b (o + 18) 1 ≠ 0, read := (tget {} c.barriers i).read }) [] }
    let s := if moved then { s with assayer := { s.assayer with abandon := (s.assayer.abandon + 1) % 2 ^ 32 } } else s
    some (firstDispatch (s.grid c.grid).part (dropLines u.1 (s.modGrid c.grid fun g => { g with noRoom := none })))
  | _, _ => none

/-- A resume that the image check refuses ends the crew (R382). -/
def refuseResume (cid : Nat) (s : State) : State :=
  let c := s.crew cid
  let low := (c.sids.find? fun i => !(s.strand i).over).getD 0
  endCrew cid 1 (Cause.code .descInvalid) 0 (s.strand low).index 0 (s.strand low).pc c.image s

/-- Resumes one crew; none where it has to wait. -/
def resumeOne (cid : Nat) (s : State) : Option State :=
  let c := s.crew cid
  let g := s.grid c.grid
  if c.state ≠ .ready || c.dbgHold || !dispatches s g.part || !mayRun s g then none
  else (rebind c.grid s).bind fun s =>
    if (s.grid c.grid).heaps.length ≠ g.lrec.nheap then none
    else (resumeUnit s cid).bind fun u =>
      let handled := c.sids.all fun i => (s.strand i).over || bitsOf (s.strand i).trapvec 5 0 ≠ 0
      let s := saveLazies cid g.vf handled u (if c.lazy && !inPlace s c u then saveEngineWrite cid s else s)
      if (s.crew cid).state = .ended then some s
      else match fetchImage s cid with
        | .stalled => none
        | .bad => some (refuseResume cid s)
        | .ok x => if imageRefused s cid (s.classOf u.1).code x then some (refuseResume cid s) else restoreCrew cid u x s

/-- CREW_RESUME: a co-resident grid or a gang's grid resumes whole (R280). -/
def crewResume (cid : Nat) (s : State) : State :=
  let c := s.crew cid
  let g := s.grid c.grid
  if g.lrec.cores || g.lrec.isGang then
    let all := (crewsOf s c.grid).filter fun e => e.2.state ≠ .resident
    if all.any fun e => e.2.state ≠ .ready then s
    else ((all.map (·.1)).foldl (fun (o : Option State) i => o.bind (resumeOne i)) (some s)).getD s
  else (resumeOne cid s).getD (if c.state = .ready && c.frozen = [] then noteStall g.ctx false c.image.toNat c.imageLen s else s)

/-- CREW_RESUME. -/
def execCrewResume (s : State) : Out :=
  .next (match s.input with
    | some (.crewResume cid) => crewResume cid s
    | _ => s)

/-! ### Quanta (R383 to R386, R420, R421) -/

/-- Cycles of a quantum, and of the window between quanta of an isolated partition (R420). -/
def quantumCycles (p : Partition) : Nat := p.quantum * 9400
def windowCycles (s : State) (p : Nat) : Nat := 940 * (if (s.part p).swwin = 0 then swMin s p else (s.part p).swwin)

/-- Quanta stop during a Freeze, until its release (R392). -/
def quantaRun (s : State) : Bool := timersRun s

/-- The end of the running quantum; an excess is deducted from it (R384). -/
def quantumDeadline (s : State) (p : Nat) : Nat := (s.part p).qstart + quantumCycles (s.part p) - tget 0 (s.part p).excess (s.part p).turn

/-- Whether the VFs of a partition take turns, and a quantum runs. -/
def turning (s : State) (p : Nat) : Bool :=
  (s.part p).en && quantaRun s && 2 ≤ (enabledVfs s p).length && (s.part p).qlive

/-- GUARD_BAND_START: the last 7,520 cycles of a quantum (R383). -/
def execGuardBandStart (s : State) : Out :=
  .next (match s.input with
    | some (.guardBandStart p) =>
      if turning s p && !(s.part p).guard && reached s (quantumDeadline s p - 7520) then s.modPart p fun x => { x with guard := true }
      else s
    | _ => s)

/-- Crews of a VF in partition `p` with a state that `f` picks. -/
def vfCrews (s : State) (v : Nat) (f : CrewState → Bool) : List Nat :=
  (s.crews.filter fun e => (s.grid e.2.grid).vf = v && f e.2.state).map (·.1)

/-- Whether a VF has ready work (R421). -/
def hasWork (s : State) (p v : Nat) : Bool :=
  s.queues.any fun e => e.2.vf = v && e.2.part = p
    && ((e.2.en && e.2.ridx ≠ e.2.widx) || e.2.grids.any fun g => (s.grid g).state ≠ .complete)

/-- The VF after `v` in ascending order among `vs`. -/
def nextVf (vs : List Nat) (v : Nat) : Nat := ((vs.find? (· > v)).or vs.head?).getD v

/-- Strands that the guard band holds issue again in their context's quantum (R383). -/
def endGuard (p : Nat) (s : State) : State :=
  s.strands.foldl (fun s e =>
    if .guardBand ∈ e.2.waits && (s.grid (s.crew e.2.crew).grid).part = p then wakeWaits e.1 (· = .guardBand) s else s)
    (s.modPart p fun x => { x with guard := false })

/-- QUANTUM_END (R384, R421). -/
def quantumEnd (p : Nat) (s : State) : State :=
  let x := s.part p
  if !turning s p || !reached s (quantumDeadline s p) then s
  else
    let v := x.turn
    let rest := (enabledVfs s p).filter (· ≠ v)
    if x.elastic && !(rest.any (hasWork s p)) then
      endGuard p (s.modPart p fun x => { x with qstart := s.cycle, excess := tset 0 x.excess v 0 })
    else
      let s := s.modPart p fun x => { x with qlive := false, guard := false, qend := s.cycle, outVf := v, excess := tset 0 x.excess v 0 }
      let s := s.modVf v fun f => { f with record := f.touched, touched := [] }
      { s with events := s.events ++ (vfCrews s v (· = .resident)).map Event.preemptRequest }

def execQuantumEnd (s : State) : Out :=
  .next (match s.input with
    | some (.quantumEnd p) => quantumEnd p s
    | _ => s)

/-- The scrub of a VF switch: lane-local stores and scratchpads of the partition that no crew holds (R423). -/
def scrubPartition (p : Nat) (s : State) : State :=
  let cs := ((unitsOf s p).map (·.1)).eraseDups
  let s := cs.foldl (fun s c => scrubLanes c s) s
  ((cs.map clusterOf).eraseDups).foldl (fun s c => scrubCsp c s) s

/-- The latest access to a page by the contexts `vs`, counted from 1; 0 for none. -/
def pageTouched (s : State) (vs : List Nat) (page : Nat) : Nat := vs.foldl (fun n v => max n (tget 0 (s.vf v).lastTouch page)) 0

/-- Tier-1 pages of a partition that the contexts `vs` have touched, least recently first (R388). -/
def coldPages (s : State) (p : Nat) (vs : List Nat) : List Nat :=
  let pages := ((vs.flatMap fun v => (s.vf v).lastTouch.map (·.1)).filter fun x => x / 2 ^ 38 = p && inTier1 s p (x % 2 ^ 38)).eraseDups
  pages.mergeSort fun a b => pageTouched s vs a ≤ pageTouched s vs b

/-- Frames of a partition in tier 1. -/
def tier1Used (s : State) (p : Nat) : Nat :=
  let mine := (s.moved.filter fun e => e.1 / 2 ^ 38 = p && e.2).map (·.1 % 2 ^ 38)
  tier1Frames (s.part p) + (mine.filter fun f => f ≥ tier1Frames (s.part p)).length - (mine.filter fun f => f < tier1Frames (s.part p)).length

/-- The Carter's swap at an elastic switch (R388): pages of the outgoing context that the incoming record lacks are demoted as far as
tier 1 needs the space, and the incoming record's pages are promoted. -/
def swapMoves (s : State) (p out v : Nat) : List Event :=
  let up := (s.vf v).record.filter fun x => x / 2 ^ 38 = p && !inTier1 s p (x % 2 ^ 38)
  let down := ((coldPages s p [out]).filter (· ∉ (s.vf v).record)).take (up.length - (tier1Frames (s.part p) - tier1Used s p))
  down.map (fun x => .pageMove p (x % 2 ^ 38) false) ++ up.map fun x => .pageMove p (x % 2 ^ 38) true

/-- What the crews of a VF still have to save after lazy switches is written before another context's turn (R374). -/
def saveVfLazies (v : Nat) (s : State) : State :=
  (s.crews.filter fun e => e.2.lazy && (s.grid e.2.grid).vf = v).foldl (fun s e => saveEngineWrite e.1 s) s

/-- Begins the quantum of VF `v` at `start` (R420, R421). -/
def beginQuantum (p v start : Nat) (s : State) : State :=
  let x := s.part p
  let s := if v ≠ x.outVf then scrubPartition p (writeBack x.outVf (saveVfLazies x.outVf s)) else s
  let s := endGuard p (s.modPart p fun x => { x with turn := v, qlive := true, qstart := start, fresh := x.elastic })
  if x.elastic then { s with events := s.events ++ swapMoves s p x.outVf v } else s

/-- QUANTUM_START: isolated at its fixed time; elastic once the outgoing context has stopped. -/
def quantumStart (p : Nat) (s : State) : State :=
  let x := s.part p
  let vs := enabledVfs s p
  if !x.en || !quantaRun s || vs.length < 2 || x.qlive then s
  else if x.elastic then
    let out := vfCrews s x.outVf fun t => t = .resident || t = .stopping
    let work := vs.filter (hasWork s p)
    if out ≠ [] || work = [] then s else beginQuantum p (nextVf work x.outVf) s.cycle s
  else
    let start := x.qstart + quantumCycles x + windowCycles s p
    if reached s start then beginQuantum p (nextVf vs x.outVf) start s else s

def execQuantumStart (s : State) : Out :=
  .next (match s.input with
    | some (.quantumStart p) => quantumStart p s
    | _ => s)

/-- Turns begin anew when STOP becomes 0 or the set of enabled VFs changes (R420). -/
def restartTurns (p : Nat) (s : State) : State :=
  endGuard p (s.modPart p fun x => { x with
    turn := (enabledVfs s p).headD 0, outVf := (enabledVfs s p).headD 0, qstart := s.cycle, qlive := true, fresh := x.elastic })

/-- Notes the excess of a context whose operation has run past its quantum (R384). -/
def noteExcess (sid : Nat) (s : State) : State :=
  let c := s.crew (s.strand sid).crew
  let g := s.grid c.grid
  let x := s.part g.part
  if c.state = .stopping && x.outVf = g.vf && 2 ≤ (enabledVfs s g.part).length then
    s.modPart g.part fun x => { x with excess := tset 0 x.excess g.vf (max (tget 0 x.excess g.vf) (s.cycle - x.qend)) }
  else s

/-- Whether an operation of the VF that cannot be pre-empted still runs past its quantum. -/
def overrunning (s : State) (v : Nat) : Bool := (vfCrews s v (· = .stopping)).any (hasArmed s)

/-- Every crew of a VF ends, and its gangs lose a member (R385, R407, R445). -/
def endVf (v status : Nat) (cause : Option Cause) (s : State) : State :=
  let cs := vfCrews s v (· ≠ .ended)
  let sids := cs.flatMap fun c => (s.crew c).sids
  let gone := s.gangs.filterMap fun e => match e.2.grid with
    | some g => if (s.grid g).vf = v then some (Event.lost e.1 e.2.rank 3) else none
    | none => none
  let s := { s with colls := s.colls.filter fun k => k.sid ∉ sids }
  cs.foldl (fun s c => endCrew c status ((cause.map Cause.code).getD 0) 0 0 0 0 0 s) { s with events := s.events ++ gone }

/-- OVERRUN_KILL: an excess of 15,040 cycles (R384, R385, R435). -/
def overrunKill (v : Nat) (s : State) : State :=
  let p := (s.vf v).part
  let x := s.part p
  if x.outVf = v && overrunning s v && 2 ≤ (enabledVfs s p).length && reached s (x.qend + 15040) then
    let s := s.modPart p fun x => { x with excess := tset 0 x.excess v (s.cycle - x.qend) }
    post { kind := 7, source := v, detail := p, data := word (s.cycle - x.qend) } (endVf v 2 (some .fatalOverrun) s)
  else s

def execOverrunKill (s : State) : Out :=
  .next (match s.input with
    | some (.overrunKill v) => overrunKill v s
    | _ => s)

/-! ### Page moves (R388, R389, R415) -/

/-- Pages, as memory keys / 65,536, that the Carter does not move: those of bound heap images, of stash windows with lines, and of the
footprints of copies that have not landed. -/
def pinned (s : State) (page : Nat) : Bool :=
  (s.heaps.any fun e => e.2.grid.isSome && e.2.pages.any fun x => x.2 / 65536 = page)
    || (s.stash.any fun l => l.key / 256 = page)
    || s.crews.any fun e => e.2.landings.any fun l => page ∈ l.pages

/-- A page changes its tier as one unit, and no access sees a difference; the stash lines of an open window are written back and dropped
first. -/
def shiftPage (page : Nat) (s : State) : State :=
  let s := { s with stash := s.stash.filter fun l => l.key / 256 ≠ page }
  if pinned s page then s else { s with moved := tset false s.moved page (!(tget false s.moved page)) }

/-- Makes room in a full tier 1 for a page that is served from tier 2: a page of another context goes down, else one of the running
context, the least recently touched (R388). -/
def makeRoom (p : Nat) (s : State) : State :=
  if tier1Used s p < tier1Frames (s.part p) then s
  else
    let vs := enabledVfs s p
    let others := coldPages s p (vs.filter (· ≠ (s.part p).turn))
    let own := (s.vf (s.part p).turn).record ++ (s.vf (s.part p).turn).touched
    match (others.filter (· ∉ own) ++ coldPages s p vs).find? fun x => !pinned s x with
    | some x => shiftPage x s
    | none => s

/-- PAGE_MOVE (R389, R415). -/
def pageMove (p f : Nat) (up : Bool) (s : State) : State :=
  if !(s.part p).elastic || f ≥ (s.part p).frames || inTier1 s p f = up then s
  else if up then
    let s := makeRoom p s
    if tier1Used s p ≥ tier1Frames (s.part p) then s else shiftPage (frameSlot p f) s
  else shiftPage (frameSlot p f) s

def execPageMove (s : State) : Out :=
  .next (match s.input with
    | some (.pageMove p f up) => pageMove p f up s
    | _ => s)

/-! ### Replies of work queries (R152, R287, R381) -/

/-- Writes into the image of a crew that is not resident. -/
def writeSaved (cid o : Nat) (b : List Byte) (s : State) : State :=
  let c := s.crew cid
  if c.frozen ≠ [] then s.modCrew cid fun c => { c with frozen := c.frozen.take o ++ b ++ c.frozen.drop (o + b.length) }
  else (writeThrough s (s.grid c.grid).ctx (c.image.toNat + o) b).getD s

/-- Writes a granule of a crew's scratchpad and sets its full bit, in the image where the crew is not resident (R381); none
where it must be empty and is not, or where the image cannot be read. -/
def fillGranule (cid off : Nat) (b : List Byte) (mustBeEmpty : Bool) (s : State) : Option State :=
  let c := s.crew cid
  if c.onCore then
    let k := cspKey (clusterOf c.core) (c.cspBase + off)
    if mustBeEmpty && s.isFull (k / 16) then none
    else some (setFull true [k / 16]
      { s with mem := putBytes s.mem k b, mpois := s.mpois.filter (· ∉ wholeSectors k b.length) })
  else match fetchImage s cid with
    | .ok x =>
      let o := offCspOf x.bytes
      let fo := o + c.decl.spbytes + off / 16 / 8
      let old := (x.bytes.getD fo 0).toNat
      if mustBeEmpty && old.testBit (off / 16 % 8) then none
      else some (writeSaved cid fo [BitVec.ofNat 8 (old ||| 2 ^ (off / 16 % 8))] (writeSaved cid (o + off) b s))
    | _ => none

/-- The oldest query of a strand. -/
def oldestQuery (c : Crew) (sid : Nat) : Option Query := c.queries.find? (·.sid = sid)

/-- WQRY_REPLY: replies are written in the order of the strand's queries, and only into an empty granule. -/
def wqryReply (sid : Nat) (s : State) : State :=
  let cid := (s.strand sid).crew
  match oldestQuery (s.crew cid) sid with
  | some q =>
    match q.reply with
    | none => s
    | some b =>
      match fillGranule cid q.off b true s with
      | none => s
      | some s =>
        let s := s.modCrew cid fun c => { c with queries := c.queries.erase q }
        let s := if (s.strand sid).wait = some .query then wake sid s else s
        wakeIdle cid s
  | none => s

def execWqryReply (s : State) : Out :=
  .next (match s.input with
    | some (.wqryReply sid) => wqryReply sid s
    | _ => s)

end Sys2Proof.Machine
end

