-- ==== Sys2Proof/Machine/Collective.lean ====
section
/-! DEFINITION. Collectives (R254 to R257, R365), and the interlocks of a strand with its own outstanding copies and collectives
(R95, R258). -/

namespace Sys2Proof.Machine
open Sys2Proof

/-! ### What a head names -/

def movScal : MovS → List SReg
  | .ext d _ => [d]
  | .ins _ a => [a]

/-- The scalar registers that an instruction names, as sources or as destinations. -/
def scalarNames : Instr → List SReg
  | .add _ d a b | .sub _ d a b | .and _ d a b | .or _ d a b | .xor _ d a b | .shl _ d a b | .shr _ d a b
  | .sra _ d a b | .min _ _ d a b | .max _ _ d a b | .seq _ d a b | .slt _ d a b | .sltu _ d a b | .lea _ d a b
  | .leaImm _ d a b _ | .mul _ d a b | .mulh _ _ d a b | .div _ _ d a b | .rem _ _ d a b | .fadd _ _ _ d a b
  | .fmul _ _ _ d a b | .launch d a b | .launchImm d a b _ | .amo _ _ _ d a b | .stwin _ d a b | .gadd _ _ d a b
  | .gset _ _ d a b => [d, a, b]
  | .sel d a b c | .ffma _ _ _ _ d a b c | .amoCas _ _ d a b c | .settile _ d a b c | .tcopy _ _ _ d a b c
  | .tcopyo _ d a b c => [d, a, b, c]
  | .clz _ d a | .popc _ d a | .sext _ d a | .zext _ d a | .addi _ d a _ | .li _ d a _ | .fcvt _ _ _ d a
  | .beq d a _ _ | .bne d a _ _ | .blt d a _ _ | .bge d a _ _ | .bltu d a _ _ | .bgeu d a _ _ | .jr d a
  | .scrub _ _ _ _ d a | .ld _ _ _ _ _ d a | .ldImm _ _ _ _ _ d a _ | .vsetvl _ d a | .vsetvlType _ d a _
  | .sbwait _ _ d a | .hgrow _ d a => [d, a]
  | .call d _ _ | .mfs d _ | .elect d _ | .mpop d _ _ | .mfirst d _ _ | .vany d _ _ | .vall d _ _ | .hres _ _ d => [d]
  | .ret a | .mts _ a | .trap a _ _ | .idle a | .wqry a | .wqryImm a _ | .vsave a | .vsaveImm a _ | .vrestore a
  | .vrestoreImm a _ | .dcfence a | .dcfenceImm a _ | .vsettype a | .vldseg _ _ _ _ a _ | .vldsegImm _ _ _ _ a _ _
  | .vstseg _ _ _ _ a _ | .vstsegImm _ _ _ _ a _ _ | .vgather _ _ _ a _ _ | .vscatter _ _ _ a _ _
  | .vgatherL _ _ a _ _ | .vscatterC _ _ _ a _ _ | .vldFe _ _ _ a _ | .vldFeImm _ _ _ a _ _ | .vstFe _ _ a _
  | .vstFeImm _ _ a _ _ | .vwait _ _ _ _ _ a _ _ _ | .tdfence a | .sbinit _ a | .sbexp _ a | .hdone _ _ a => [a]
  | .st _ _ _ _ a b | .stImm _ _ _ _ a b _ | .vld _ _ _ a b _ | .vldImm _ _ _ a b _ _ | .vst _ _ _ a b _
  | .vstImm _ _ _ a b _ _ | .vlds _ _ _ a b _ | .vldsImm _ _ _ a b _ _ | .vsts _ _ _ a b _ | .vstsImm _ _ _ a b _ _
  | .cvld _ _ a b _ | .cvldImm _ _ a b _ _ | .spclr _ a b | .spclrImm _ a b _ | .awin _ _ a b _ | .tld _ _ _ _ a b
  | .tldE _ _ _ _ a b | .tst _ _ _ a b | .tldg _ _ _ a b _ _ | .zld _ _ _ a b | .zldImm _ _ _ a b _ | .zst _ _ _ _ a b
  | .zstImm _ _ _ _ a b _ => [a, b]
  | .vadd _ _ _ _ y _ | .vsub _ _ _ _ y _ | .vmul _ _ _ y _ | .vmulh _ _ _ y _ | .vmin _ _ _ y _ | .vmax _ _ _ y _
  | .vand _ _ _ y _ | .vor _ _ _ y _ | .vxor _ _ _ y _ | .vshl _ _ _ y _ | .vshr _ _ _ y _ | .vsra _ _ _ y _
  | .vfadd _ _ _ _ y _ | .vfsub _ _ _ _ y _ | .vfmul _ _ _ _ _ y _ | .vffma _ _ _ _ _ _ y _ | .vfmin _ _ _ _ y _
  | .vfmax _ _ _ _ y _ | .vfdiv _ _ _ _ y _ | .vcmp _ _ _ _ _ y _ | .vsel _ _ _ y _ | .vmov _ _ y _ => vsrcScal y
  | .vcvt _ _ mode _ _ _ => cvtScal mode
  | .vlmulGiven _ g _ _ _ _ | .vladdGiven _ g _ _ _ _ => vsrcScal g
  | .vslideup _ _ _ b _ | .vslidedn _ _ _ b _ | .vbcast _ _ _ b _ => [b]
  | .vcompress _ _ _ _ c _ => [c]
  | .vmovs _ op b => [b] ++ movScal op
  | .vmovsImm _ op _ => movScal op
  | .vredsum _ d _ b _ | .vredmax _ d _ b _ | .vredmin _ d _ b _ => [d, b]
  | .vgatherBounded _ _ _ a _ c _ | .vscatterBounded _ _ _ a _ c _ | .vgatherLBounded _ _ a _ c _
  | .vscatterCBounded _ _ _ a _ c _ => [a, c]
  | .tldLns6 _ _ _ _ a b c _ | .tldELns6 _ _ _ _ a b c _ | .tstLns6 _ _ _ a b c _ => [a, b, c]
  | .colred _ _ _ _ _ d a c | .colbcast _ _ _ _ d a c => [d, a, c]
  | .hpop _ _ d c => [d, c]
  | _ => []

/-- A byte range of the scratchpad, by offset and length. -/
abbrev Span := Nat × Nat

def Span.meets (a b : Span) : Bool := a.1 < b.1 + b.2 && b.1 < a.1 + a.2

/-- A span that covers `n` elements of `size` bytes from `base`, `stride` apart. -/
def strideSpan (base stride : Int) (n size : Nat) : Span :=
  let last := base + stride * ((n : Int) - 1)
  let lo := min base last
  if n = 0 then (0, 0) else (lo.toNat, (max base last - lo).toNat + size)

/-- Spans of the scratchpad that an instruction of the current strand accesses. Lanes that are not active and holes between
strided elements are included, and an indexed access counts as one to the whole allocation. -/
def cspSpans (i : Instr) (s : State) : List Span :=
  let all : Span := (0, s.myCrew.decl.spbytes)
  let at_ (a : SReg) (x : Imm) : Int := (s.ea a x).toInt
  let val (a : SReg) : Int := (s.rd a).toInt
  let unit (t : Ty) (a b : SReg) (x : Imm) : List Span :=
    let e := s.me.elemTy t
    if isLns e then [strideSpan (at_ a x) 1 ((6 * s.me.vl + 7) / 8) 1, strideSpan (val b) 1 (s.me.vl / 16 + 1) 1]
    else [strideSpan (at_ a x) (elemBytes e) s.me.vl (elemBytes e)]
  let strided (t : Ty) (a b : SReg) (x : Imm) : List Span :=
    [strideSpan (at_ a x) (val b) s.me.vl (elemBytes (s.me.elemTy t))]
  let seg (nf : Nat) (t : Ty) (a : SReg) (x : Imm) : List Span :=
    let n := (nf + 1) * elemBytes (s.me.elemTy t)
    [strideSpan (at_ a x) n s.me.vl n]
  let rows (a b : SReg) (x : Imm) (n size : Nat) : Span := strideSpan (at_ a x) (val b) n size
  let whole (a : SReg) (n : Nat) : Span := ((s.rd a).toNat, n)
  match i with
  | .ld wd _ true _ _ _ a => [strideSpan (at_ a 0) 1 1 (accBytes wd)]
  | .ldImm wd _ true _ _ _ a x => [strideSpan (at_ a x) 1 1 (accBytes wd)]
  | .st wd true _ _ a _ => [strideSpan (at_ a 0) 1 1 (accBytes wd)]
  | .stImm wd true _ _ a _ x => [strideSpan (at_ a x) 1 1 (accBytes wd)]
  | .vld t true _ a b _ | .vst t true _ a b _ => unit t a b 0
  | .vldImm t true _ a b x _ | .vstImm t true _ a b x _ => unit t a b x
  | .vldFe t _ _ a _ | .vstFe t _ a _ => unit t a a 0
  | .vldFeImm t _ _ a x _ | .vstFeImm t _ a x _ => unit t a a x
  | .vlds t true _ a b _ | .vsts t true _ a b _ => strided t a b 0
  | .vldsImm t true _ a b x _ | .vstsImm t true _ a b x _ => strided t a b x
  | .vldseg nf t true _ a _ | .vstseg nf t true _ a _ => seg nf t a 0
  | .vldsegImm nf t true _ a x _ | .vstsegImm nf t true _ a x _ => seg nf t a x
  | .vgather _ true _ _ _ _ | .vgatherBounded _ true _ _ _ _ _ | .vscatter _ true _ _ _ _ | .vscatterBounded _ true _ _ _ _ _
  | .vwait _ _ true _ _ _ _ _ _ | .tldLns6 _ true _ _ _ _ _ _ | .tldELns6 _ _ _ _ _ _ _ _ | .tstLns6 _ true _ _ _ _ _ => [all]
  | .tld _ true _ _ a b | .tst _ true _ a b => [rows a b 0 64 192]
  | .tldE _ _ _ _ a b => [rows a b 0 64 192]
  | .zld _ true _ a b | .zst _ true _ _ a b => [rows a b 0 64 256]
  | .zldImm _ true _ a b x | .zstImm _ true _ _ a b x => [rows a b x 64 256]
  | .spclr _ a b => [((s.ea a 0).toNat, (s.rd b).toNat)]
  | .spclrImm _ a b x => [((s.ea a x).toNat, (s.rd b).toNat)]
  | .tcopy _ _ _ _ a _ _ | .tcopyo _ _ a _ _ => [whole a (2 ^ 20)]
  | .colred _ _ _ _ len _ a _ | .colbcast _ _ len _ _ a _ => [whole a (16 * len.val)]
  | _ => []

/-- FFLAGS of an outstanding fold is read or written by the head (R50). -/
def touchesFlags : Instr → Bool
  | .mfs _ n | .mts n _ => n.val = 5
  | _ => false

/-- System registers whose `mfs` waits for older vector, tile, matrix and copy work (R50): FFLAGS, VSTART, TSHAPE, ZDIM and DEADMASK. -/
def drainedSys (n : Nat) : Bool := n = 3 || n = 5 || (8 ≤ n && n < 0x18) || (0x40 ≤ n && n < 0x50)

/-- Heads that wait for the copies of their strand: the reads and writes of R50, and what releases older accesses (R146, R148, R154,
R301, R302, R338). -/
def awaitsCopies : Instr → Bool
  | .mfs _ n => drainedSys n
  | .mts n _ => n.val = 5 || (0x40 ≤ n.val && n.val < 0x50)
  | .fence sem _ => sem ≠ .acq
  | .st _ _ rel _ _ _ | .stImm _ _ rel _ _ _ _ => rel
  | .amo _ _ ord _ _ _ | .amoCas _ ord _ _ _ _ => ord = .rel || ord = .ar
  | .gadd rel _ _ _ _ | .gset rel _ _ _ _ | .hdone rel _ _ => rel
  | .vldFe _ take _ _ _ | .vldFeImm _ take _ _ _ _ => take
  | .bsync _ | .gbar | .launch .. | .launchImm .. | .vstFe .. | .vstFeImm .. | .amerge | .sbrel _ | .colred .. | .colbcast ..
  | .tdfence _ | .dcfence _ | .dcfenceImm .. => true
  | _ => false

/-- Whether a head waits for an outstanding collective or copy of its own strand: for the status register, for the flags of a
fold, for a scratchpad range, or for what R50 and R302 name (R95, R255, R258). -/
def interlocked (i : Instr) (s : State) : Bool :=
  let cs := s.colls.filter (·.sid = s.cur)
  let ls := s.myCrew.landings.filter (·.sid = s.cur)
  if cs = [] && ls = [] then false
  else
    let held := cs.map (fun k => (k.off, k.len)) ++ ls.map fun l => (l.off, l.bytes.length)
    cs.any (fun k => k.d.val ≠ 0 && k.d ∈ scalarNames i)
      || (touchesFlags i && cs.any fun k => !k.bcast && k.ty = .f32)
      || (awaitsCopies i && ls ≠ [])
      || (cspSpans i s).any fun a => held.any fun h => Span.meets a h

/-! ### The dependence tracker (R305) -/

/-- Instructions that declare a footprint (R258). -/
def tracked : Instr → Bool
  | .tld .. | .tldLns6 .. | .tldE .. | .tldELns6 .. | .tldg .. | .tst .. | .tstLns6 .. | .mmaO .. | .mmaR .. | .zld .. | .zldImm ..
  | .zst .. | .zstImm .. | .zclr .. | .tcopy .. | .tcopyo .. | .colred .. | .colbcast .. => true
  | _ => false

/-- Footprints that the tracker of a core holds: those of copies that have not landed, of collectives without a status, and of queued
matrix instructions. -/
def footprints (s : State) (core : Nat) : Nat :=
  sumOf (s.crews.filter fun e => e.2.onCore && e.2.core = core) (fun e => (e.2.landings.filter (·.last)).length)
    + (s.colls.filter fun x => (s.strand x.sid).core = core).length
    + sumOf (s.strands.filter fun e => e.2.core = core) fun e => (e.2.viq.filter fun o => tracked o.instr && !o.fin).length

/-- An operation that finds the tracker of its core full waits at issue (R305). -/
def trackerFull (i : Instr) (s : State) : Bool := tracked i && decide (footprints s s.me.core ≥ 256)

/-- Strands that wait for the tracker of their core try again once it has room. -/
def wakeTracker (s : State) : State :=
  s.strands.foldl (fun s e => if e.2.wait = some .tracker && footprints s e.2.core < 256 then wake e.1 s else s) s

/-! ### The instructions -/

def colTy (t : Ty) : AwTy := (awTyOf t).getD .i32

/-- What members must agree on (R255): kind, T, OP, LEN16 and ROOT. -/
def kindWord (bcast : Bool) (t : Ty) (op : Fold) (len root : Nat) : Nat :=
  if bcast then 1 + 2 * len + 2 ^ 16 * root
  else 2 * len + 2 ^ 24 * awTyCode (colTy t) + 2 ^ 28 * foldCode op

structure ColOps where
  bcast : Bool
  t : Ty
  op : Fold
  bv : Bool
  sb : Fin 16
  len : Nat
  root : Nat
  d : SReg
  a : SReg
  c : SReg

/-- The collective is issued: the contribution is captured, and pairs with the same count of every other member (R255). -/
def colStart (o : ColOps) (e : Group) (s : State) : State :=
  let g := (s.rd o.c).toNat
  let off := (s.rd o.a).toNat
  let n := 16 * o.len
  let x : Coll := {
    part := s.myGrid.part, group := g, k := e.count, sid := s.cur, d := o.d, off := off, len := n, bcast := o.bcast, ty := o.t
    op := o.op, root := o.root, sb := if o.bv then some o.sb.val else none
    parts := [(e.rank, some (kindWord o.bcast o.t o.op o.len o.root, s.homeBytes (s.csp off) n))], armed := false }
  finish { s with
    groups := tset {} s.groups (groupKey s.myGrid.part g) { e with count := e.count + 1 }, colls := s.colls ++ [x] }

/-- Issue (R254 to R256): inside a closing guard band the device holds it; older accesses of the strand are released at domain scope
(R301). A broken group answers status 3 at once (R447). -/
def colIssue (o : ColOps) (s : State) : State :=
  let off := (s.rd o.a).toNat
  let n := 16 * o.len
  let g := (s.rd o.c).toNat
  let e := tget {} s.groups (groupKey s.myGrid.part g)
  if s.poisoned (s.csp off) n then
    let x := ((sectors (s.csp off) n).find? (· ∈ s.mpois)).getD 0
    takeTrap { cause := .poison, addr := word ((64 * x - s.csp off + off) / 64 * 64) } s
  else if (s.part s.myGrid.part).guard then beginWait .guardBand s
  else if g ≥ 256 || !e.valid || e.grid ≠ s.myCrew.grid then finish (s.wr o.d 1)
  else if e.broken then finish (s.wr o.d 3)
  else release .domain (colStart o e) s

def colHead (o : ColOps) (s : State) : State :=
  let va := s.rd o.a
  tileHead false (o.bv && badBarrier s o.sb) [o.a, o.c] []
    (checked [misaligned va 16 1 true, outsideCsp s va (16 * o.len) true] (colIssue o)) s

def execColred (t : Ty) (op : Fold) (bv : Bool) (sb : Fin 16) (len : Fin 512) (d a c : SReg) (s : State) : Out :=
  .next (colHead ⟨false, t, op, bv, sb, len, 0, d, a, c⟩ s)
def execColbcast (bv : Bool) (sb : Fin 16) (len : Fin 512) (root : Fin 256) (d a c : SReg) (s : State) : Out :=
  .next (colHead ⟨true, .i32, .add, bv, sb, len, root, d, a, c⟩ s)

/-- R257. -/
def execColwait (s : State) : Out :=
  .next (checked [notOnSteward s, vown s] (fun s =>
    if s.colls.any (·.sid = s.cur) then beginWait .colwait s else finish s) s)

/-! ### Arming and completion (R255, R256, R446) -/

/-- COLLECTIVE_ARM: every member's k-th collective has arrived; `parts` holds what the others contribute. -/
def collectiveArm (p g : Nat) (parts : List (Nat × Nat × List Byte)) (s : State) : State :=
  let e := tget {} s.groups (groupKey p g)
  match s.colls.find? fun x => x.part = p && x.group = g && !x.armed with
  | none => s
  | some x =>
    let got := parts.foldl (fun t r => if r.1 = e.rank then t else tset none t r.1 (some r.2)) x.parts
    if e.valid && !e.broken && (List.range e.size).all fun r => (tget none got r).isSome then
      { s with colls := s.colls.map fun y => if y = x then { x with parts := got, armed := true } else y }
    else s

def execCollectiveArm (s : State) : Out :=
  .next (match s.input with
    | some (.collectiveArm p g parts) => collectiveArm p g parts s
    | _ => s)

/-- The fold of the contributions, element by element in ascending rank order, with the flags of its roundings. -/
def foldBytes (t : AwTy) (op : Fold) (len : Nat) (l : List (List Byte)) : List Byte × FFlags :=
  let w := elemBytes (awElem t)
  let r := (List.range (len / w)).map fun i =>
    match l.map fun b => field b (i * w) w with
    | [] => ({ bits := 0 } : FRes)
    | x :: rest => rest.foldl (fun (a : FRes) y => let z := awStep op t a.bits y; { bits := z.bits, fl := a.fl.or z.fl }) { bits := x }
  (r.flatMap fun x => leBytes w x.bits, orFlags r)

/-- Status, the bytes that land, and the flags of a collective. A root that is no member leaves no region to deliver. -/
def collectiveResult (e : Group) (x : Coll) : Nat × List Byte × FFlags :=
  let l := (List.range e.size).filterMap fun r => tget none x.parts r
  if e.broken || !e.valid then (3, [], {})
  else if l.any fun y => y.1 ≠ (l.headD (0, [])).1 then (2, [], {})
  else if x.bcast then
    match tget none x.parts x.root with
    | some y => (0, y.2, {})
    | none => (2, [], {})
  else
    let r := foldBytes (colTy x.ty) x.op x.len (l.map (·.2))
    (0, r.1, r.2)

/-- A granule of the result lands, and counts into the barrier (R250, R255); for a crew that is not resident all of it goes to the
image. -/
def landResult (cid off : Nat) (b : List Byte) (sb : Option Nat) (s : State) : State :=
  let s := (fillGranule cid off b false s).getD s
  match sb with
  | none => wakeIdle cid s
  | some k =>
    let s := modBarrier cid k (arriveBytes 16) s
    if (s.crew cid).onCore then s else writeSaved cid (192 + 24 * k) (barrierBytes (tget {} (s.crew cid).barriers k)) s

/-- The status and the flags reach the strand and what its queue has of it younger than the collective, in its image where it is not
resident. The completion acquires every contributor's release: older first-level lines are not used (R255, R301). -/
def deliverStatus (x : Coll) (status : Nat) (fl : FFlags) (s : State) : State :=
  let s := (dropLines (s.strand x.sid).core s).modStrand x.sid fun m => { m.wr x.d (word status) with
    fflags := m.fflags.or fl, viq := m.viq.map fun o => { o with front := o.front.take fl (some (x.d, word status)) none } }
  let m := s.strand x.sid
  if (s.crew m.crew).onCore then s
  else
    let o := areaBase m.index
    let s := if x.d.val = 0 then s else writeSaved m.crew (o + 8 + 8 * x.d.val) (leBytes 8 status) s
    writeSaved m.crew (o + 280) (leBytes 8 m.fflags.toNat) s

/-- COLLECTIVE_COMPLETE: the oldest armed collective of a group, or of a broken group the oldest. -/
def collectiveComplete (p g : Nat) (s : State) : State :=
  let e := tget {} s.groups (groupKey p g)
  match s.colls.find? fun x => x.part = p && x.group = g && (x.armed || e.broken) with
  | none => s
  | some x =>
    let cid := (s.strand x.sid).crew
    let r := collectiveResult e x
    let s := { s with colls := s.colls.erase x }
    let s := (List.range (r.2.1.length / 16)).foldl (fun s i =>
      landResult cid (x.off + 16 * i) (slice r.2.1 (16 * i) 16) x.sb s) s
    let s := noteExcess x.sid (deliverStatus x r.1 r.2.2 s)
    let m := s.strand x.sid
    let s := wakeWaits x.sid (· = .collective) s
    let s := if (m.wait = some .colwait && !s.colls.any (·.sid = x.sid)) then wake x.sid s else s
    let s := if m.run = .halted then pushOnce (.strandDrained x.sid) s else s
    settleStop cid s

def execCollectiveComplete (s : State) : Out :=
  .next (match s.input with
    | some (.collectiveComplete p g) => collectiveComplete p g s
    | _ => s)

end Sys2Proof.Machine
end

