-- ==== Sys2Proof/Machine/Control.lean ====
section
/-! DEFINITION. The registers of partitions, assignments, functions and queues, and what their writes do (R344, R345, R409 to R424);
zeroing (R425); invalidation, fault replies and page responses (R399 to R406); function resets (R407, R408). -/

namespace Sys2Proof.Machine
open Sys2Proof

/-! ### Refusals -/

/-- The latest write of a partition entry was refused (R410). -/
def refusePart (p reason : Nat) (s : State) : State := if p < 64 then s.modPart p fun x => { x with err := true, reason := reason } else s

/-- The latest write was accepted. -/
def acceptPart (p : Nat) (s : State) : State := s.modPart p fun x => { x with err := false }

/-- A VF of the partition is locked by its TDI (R408). -/
def lockedPart (s : State) (p : Nat) : Bool := s.vfs.any fun e => e.2.lock && e.2.part = p

/-! ### Partitions (R410, R411) -/

/-- The fields of PCTL but EN. -/
def pctlFields (v : Word) (x : Partition) : Partition :=
  { x with
    swwin := bitsOf v 63 48, quantum := if bitsOf v 47 32 = 0 then 200 else bitsOf v 47 32, heaps := bitsOf v 12 8
    elastic := v.getLsbD 3, stop := v.getLsbD 1 }

/-- Whether a PCTL write leaves the fields that EN fixes as they are. -/
def sameFields (x : Partition) (v : Word) : Bool :=
  let y := pctlFields v x
  y.swwin = x.swwin && y.quantum = x.quantum && y.heaps = x.heaps && y.elastic = x.elastic

def enabledOthers (s : State) (p : Nat) : List Partition := (s.parts.filter fun e => e.2.en && e.1 ≠ p).map (·.2)

/-- The first failure of an enable (R411), or 0. -/
def enableFault (s : State) (p : Nat) (v : Word) : Nat :=
  let x := pctlFields v (s.part p)
  let o := enabledOthers s p
  if x.chmask = 0 || o.any (fun y => y.chmask &&& x.chmask ≠ 0) then 1
  else if o.any (fun y => y.banks &&& x.banks ≠ 0) || x.nstash > popcount x.banks.toNat 64 then 2
  else if sumOf o (·.heaps) + x.heaps > 16 then 3
  else if sumOf o (·.t2) + x.t2 > s.hyp.t2pool then 4
  else if !x.elastic && x.swwin ≠ 0 && x.swwin < swMin s p then 5
  else 0

/-- DEF and PTR start at 0 when a partition is configured (R355). -/
def startQueues (p : Nat) (s : State) : State :=
  let s := s.queues.foldl (fun s e => if e.2.part = p then s.modQueue e.1 fun x => { x with deficit := 0 } else s) s
  s.modPart p fun x => { x with ptr := [] }

/-- PARTITION_ENABLE: the scrub of its frame space begins (R411, R423). -/
def partitionEnable (p : Nat) (v : Word) (s : State) : State :=
  if lockedPart s p then refusePart p 8 s
  else if enableFault s p v ≠ 0 then refusePart p (enableFault s p v) s
  else startQueues p (restartTurns p (acceptPart p (s.modPart p fun x => { pctlFields v x with en := true, scrubbing := true })))

def execPartitionEnable (s : State) : Out :=
  .next (match s.input with
    | some (.partitionEnable p v) => partitionEnable p v s
    | _ => s)

/-- PARTITION_DISABLE: STOP is judged as the write would leave it; a write that also changes fields which EN fixes is ignored
with REASON 6. -/
def partitionDisable (p : Nat) (v : Word) (s : State) : State :=
  let busy := s.crews.any fun e => e.2.onCore && (s.grid e.2.grid).part = p
  if lockedPart s p then refusePart p 8 s
  else if !sameFields (s.part p) v then refusePart p 6 s
  else if !v.getLsbD 1 || busy || enabledVfs s p ≠ [] then refusePart p 7 s
  else acceptPart p (s.modPart p fun x => { x with en := false, stop := true, scrubbing := false, held := x.chmask })

def execPartitionDisable (s : State) : Out :=
  .next (match s.input with
    | some (.partitionDisable p v) => partitionDisable p v s
    | _ => s)

/-- PARTITION_STOP: a PCTL write that leaves EN. STOP may be written at any time, the other fields while EN is 0. -/
def partitionStop (p : Nat) (v : Word) (s : State) : State :=
  let x := s.part p
  if lockedPart s p then refusePart p 8 s
  else
    let s := if !x.en then acceptPart p (s.modPart p (pctlFields v))
      else
        let t := s.modPart p fun x => { x with stop := v.getLsbD 1 }
        if sameFields x v then acceptPart p t else refusePart p 6 t
    if x.stop && !v.getLsbD 1 then restartTurns p s else s

def execPartitionStop (s : State) : Out :=
  .next (match s.input with
    | some (.partitionStop p v) => partitionStop p v s
    | _ => s)

/-- Rounding of the CAP fields (R411). -/
def capField (n most : Nat) : Nat := min most (max 8 (n / 8 * 8))

/-- Dwords 1 to 5 of a partition entry. -/
def partDword (dw : Nat) (v : Word) (x : Partition) : Partition :=
  match dw with
  | 1 => { x with chmask := v.setWidth 48 }
  | 2 => { x with banks := v }
  | 3 => { x with nstash := bitsOf v 6 0 }
  | 4 => { x with t2 := bitsOf v 31 0 }
  | 5 => { x with cap := { ck := capField (bitsOf v 24 16) 256, cn := capField (bitsOf v 14 8) 64, cm := capField (bitsOf v 6 0) 64 } }
  | _ => x

/-- Channels that leave a partition's mask have no owner of their contents any more (R423). -/
def dropChannels (p : Nat) (new : BitVec 48) (s : State) : State :=
  let gone := (List.range 48).filter fun c => (s.part p).chmask.getLsbD c && !new.getLsbD c && tget 0 s.chOwner c = p + 1
  { s with chOwner := gone.foldl (fun t c => tset 0 t c 0) s.chOwner }

def writePart (p dw : Nat) (v : Word) (s : State) : State :=
  if lockedPart s p then refusePart p 8 s
  else if dw = 0 || dw > 5 then s
  else if (s.part p).en then refusePart p 6 s
  else acceptPart p ((if dw = 1 then dropChannels p (v.setWidth 48) s else s).modPart p (partDword dw v))

/-! ### Channels (R414, R423) -/

def channelsOf (m : BitVec 48) : List Nat := (List.range 48).filter m.getLsbD

/-- The channel and the channel offset of a tier-1 address (R414). -/
def channelAt (l : List Nat) (a : Nat) : Nat × Nat :=
  let g := a / 256
  let r := g / l.length
  (l.getD ((g + r) % l.length) 0, 256 * r + a % 256)

/-- The address of a channel offset, where the channel is among `l`. -/
def addressAt (l : List Nat) (ch off : Nat) : Option Nat :=
  let n := l.length
  let r := off / 256
  match l.zipIdx.find? (·.1 = ch) with
  | some (_, i) => some ((r * n + (i + n - r % n) % n) * 256 + off % 256)
  | none => none

/-- Where a byte of a partition's old frame space lies in the new one, if its channel is not zeroed. A frame that the Carter had
moved keeps nothing. -/
def keepOffset (s : State) (p : Nat) (old new : List Nat) (o : Nat) : Option Nat :=
  if old = [] || o ≥ 244140 * 65536 * old.length || tget false s.moved (frameSlot p (o / 65536)) then none
  else
    let c := channelAt old o
    if tget 0 s.chOwner c.1 = p + 1 then addressAt new c.1 c.2 else none

/-- Zeroes the frame space of a partition: every channel that has had another owner, or none, since it was last zeroed, and tier
2. -/
def zeroPartition (p : Nat) (s : State) : State :=
  let old := channelsOf (s.part p).held
  let new := channelsOf (s.part p).chmask
  let mine (k : Nat) : Bool := p * 2 ^ 54 ≤ k && k < (p + 1) * 2 ^ 54
  let kept := s.mem.filterMap fun e => if mine e.1 then (keepOffset s p old new (e.1 % 2 ^ 54)).map fun o => (o, e.2) else none
  let mem := kept.foldl (fun t e => tset 0 t (frameKey p e.1) e.2) (s.mem.filter fun e => !mine e.1)
  let bad := (s.mpois.filter fun x => mine (64 * x)).filterMap fun x => keepOffset s p old new (64 * x % 2 ^ 54)
  { s with
    mem := mem, mpois := s.mpois.filter (fun x => !mine (64 * x)) ++ bad.map fun o => frameKey p o / 64
    moved := s.moved.filter fun e => e.1 / 2 ^ 38 ≠ p
    chOwner := new.foldl (fun t c => tset 0 t c (p + 1)) s.chOwner
    l1 := s.l1.filter fun l => !mine (64 * l.key), sbuf := s.sbuf.filter fun b => !mine b.key
    old := { s.old with entries := s.old.entries.filter fun o => !mine o.key } }

/-! ### Assignment (R412) -/

def validOwner (n : Nat) : Bool := n < 64 || n = 127

/-- Units of an entry whose owner a write changes: old owner, core and half. -/
def changedUnits (e : Nat) (a b : Assign) : List (Nat × Nat × Option Bool) :=
  if e ≥ 160 then (if a.own0 = b.own0 then [] else (coresOf (40 + (e - 160))).map fun c => (a.own0, c, none))
  else
    let o1 (x : Assign) : Nat := if x.split then x.own1 else x.own0
    let all := a.split ≠ b.split
    (if all || a.own0 ≠ b.own0 then [(a.own0, e, if a.split then some false else none)] else [])
      ++ (if all || o1 a ≠ o1 b then [(o1 a, e, if a.split then some true else none)] else [])

/-- ASSIGNMENT_WRITE (R412): a refused write changes nothing but REFUSED. What a lazy switch has left on a unit is saved before the unit
passes on (R374). -/
def assignmentWrite (e : Nat) (v : Word) (s : State) : State :=
  let a := s.assign e
  let split := e < 160 && v.getLsbD 15
  let b : Assign := { own0 := bitsOf v 6 0, own1 := if split then bitsOf v 14 8 else 127, split := split, scrub := a.scrub }
  let us := changedUnits e a b
  let owners := (if a.split then [a.own0, a.own1] else [a.own0]).filter (· < 64)
  let refuse : State := s.modAssign e fun x => { x with refused := true }
  match owners.find? (lockedPart s) with
  | some p => refusePart p 8 s
  | none =>
    if e ≥ 192 then s
    else if !validOwner b.own0 || (split && !validOwner b.own1) || (e ≥ 160 && v.getLsbD 15) then refuse
    else if us.any fun u => s.crews.any (fun c => c.2.holds u.2.1 u.2.2) || (u.1 < 64 && !(s.part u.1).stop) then refuse
    else
      let stay := s.crews.filter fun c => us.any fun u => c.2.stays u.2.1 u.2.2
      (stay.foldl (fun s c => saveEngineWrite c.1 s) s).modAssign e fun _ => { b with scrub := a.scrub || us ≠ [] }

def execAssignmentWrite (s : State) : Out :=
  .next (match s.input with
    | some (.assignmentWrite e v) => assignmentWrite e v s
    | _ => s)

/-- SCRUB_COMPLETE (R423): the unit reads as zero, and its bit falls. -/
def scrubComplete (u : ScrubUnit) (s : State) : State :=
  match u with
  | .entry e =>
    if !(s.assign e).scrub then s
    else
      let cs := if e < 160 then [e] else coresOf (40 + (e - 160))
      let s := cs.foldl (fun s c => scrubLanes c s) s
      (scrubCsp (clusterOf (cs.headD 0)) s).modAssign e fun a => { a with scrub := false }
  | .partition p =>
    if !(s.part p).scrubbing then s
    else (zeroPartition p s).modPart p fun x => { x with scrubbing := false, held := x.chmask }

def execScrubComplete (s : State) : Out :=
  .next (match s.input with
    | some (.scrubComplete u) => scrubComplete u s
    | _ => s)

/-! ### Virtual functions (R416, R417) -/

def vfFields (v : Word) (f : Vf) : Vf := { f with stash := bitsOf v 39 32, part := bitsOf v 14 8 }

/-- Whether enabling VF `n` with its fields as they stand is refused (R417). -/
def vfRefused (s : State) (n : Nat) : Bool :=
  let f := s.vf n
  let p := s.part f.part
  let share := sumOf ((enabledVfs s f.part).filter (· ≠ n)) (fun k => (s.vf k).stash) + f.stash
  f.part ≥ 64 || !p.en || (if p.elastic then f.stash > p.nstash * 4 else share > p.nstash * 4)

/-- VF_ENABLE: PART and STASH of the write are stored, since EN is 0; EN itself may be refused. -/
def vfEnable (n : Nat) (v : Word) (s : State) : State :=
  if (s.vf n).lock then refusePart (s.vf n).part 8 s
  else
    let s := s.modVf n (vfFields v)
    let p := (s.vf n).part
    if vfRefused s n then refusePart p 9 s
    else restartTurns p (acceptPart p (s.modVf n fun f => { f with en := true }))

def execVfEnable (s : State) : Out :=
  .next (match s.input with
    | some (.vfEnable n v) => vfEnable n v s
    | _ => s)

/-- VF_DISABLE: no crew of the VF may be resident, pre-empted or frozen. -/
def vfDisable (n : Nat) (s : State) : State :=
  let p := (s.vf n).part
  if (s.vf n).lock then refusePart p 8 s
  else if vfCrews s n (· ≠ .ended) ≠ [] then refusePart p 10 s
  else restartTurns p (acceptPart p (s.modVf n fun f => { f with en := false }))

def execVfDisable (s : State) : Out :=
  .next (match s.input with
    | some (.vfDisable n _) => vfDisable n s
    | _ => s)

/-- VFPRI_CLEAR (R416), which a locked entry refuses (R408). -/
def execVfpriClear (s : State) : Out :=
  .next (match s.input with
    | some (.vfpriClear n) => if (s.vf n).lock then refusePart (s.vf n).part 8 s else s.modVf n fun f => { f with stale := 0 }
    | _ => s)

/-- The rest of a VF entry: VFCTL that leaves EN, and S2ROOT. -/
def writeVfEntry (n dw : Nat) (v : Word) (s : State) : State :=
  let f := s.vf n
  if f.lock then refusePart f.part 8 s
  else if dw > 1 || f.en then s
  else if dw = 0 then s.modVf n (vfFields v)
  else s.modVf n fun f => { f with s2root := word (bitsOf v 55 11 * 2 ^ 11) }

/-! ### Queues (R344, R345, R353) -/

/-- A write to a queue's block; VF and PART are written at HYP, and not while the VF is locked (R408). -/
def writeQueue (hyp : Bool) (q off : Nat) (v : Word) (s : State) : State :=
  let x := s.queue q
  match off with
  | 0x00 => if x.en then s else s.modQueue q fun x => { x with qbase := word (bitsOf v 63 12 * 4096) }
  | 0x08 =>
    let own := hyp && !(s.vf x.vf).lock
    let refused := hyp && (s.vf x.vf).lock && (bitsOf v 47 42 ≠ x.vf || bitsOf v 41 36 ≠ x.part)
    let ls := bitsOf v 7 4
    let s := if refused then refusePart (s.vf x.vf).part 8 s else s
    let s := s.modQueue q fun x => { x with
      vf := if own then bitsOf v 47 42 else x.vf, part := if own then bitsOf v 41 36 else x.part
      weight := max 1 (bitsOf v 23 16), prio := bitsOf v 11 8, preempt := v.getLsbD 3
      lsize := if x.en then x.lsize else if 4 ≤ ls && ls ≤ 12 then ls else 4
      dev := if x.en then x.dev else v.getLsbD 2 }
    setQueue q (v.getLsbD 0) s
  | _ => s

/-! ### The VF block (R419, R401, R402) -/

/-- Keeps a surface entry that a write replaces, if it is valid. -/
def keepSurface (v k : Nat) (s : State) : State :=
  let x := tget {} (s.vf v).surfaces k
  if x.valid then { s with old := { s.old with surfaces := s.old.surfaces ++ [⟨v, k, x, s.old.marks⟩] } } else s

/-- Keeps the root that a write replaces; 0, its reset value, is none. -/
def keepRoot (v : Nat) (s : State) : State :=
  let r := (s.vf v).s1root
  if r = 0 then s else { s with old := { s.old with roots := s.old.roots ++ [⟨v, r, s.old.marks⟩] } }

def writeVf (f off : Nat) (v : Word) (s : State) : State :=
  if 0x100 ≤ off && off < 0x200 then
    let k := (off - 0x100) / 16
    let s := keepSurface f k s
    s.modVf f fun x => { x with surfaces := tmod {} x.surfaces k fun y =>
      if off % 16 < 8 then { y with plain := word (bitsOf v 63 16 * 65536), nseg := bitsOf v 15 0 }
      else { y with packed := word (bitsOf v 63 6 * 64), valid := v.getLsbD 0 } }
  else if 0x10000 ≤ off && off < 0x18000 then writeQueue false ((off - 0x10000) / 64) (off % 64) v s
  else match off with
    | 0x0 =>
      (keepRoot f s).modVf f fun x => { x with s1root := word (bitsOf v 55 11 * 2 ^ 11) }
    | 0x8 => s.modVf f fun x => { x with savebase := word (bitsOf v 63 16 * 65536) }
    | 0x10 => s.modVf f fun x => { x with savesize := bitsOf v 39 16 }
    | 0x20 => s.modVf f fun x => { x with invaddr := word (bitsOf v 63 16 * 65536) }
    | 0x28 => s.modVf f fun x => { x with invcount := bitsOf v 63 32 }
    | _ => s

/-! ### Freeze and other HYP registers -/

/-- The fields of FRZCTL but GO and RELEASE; POD is written when idle (R390). -/
def frzFields (v : Word) (s : State) : State :=
  { s with freeze := { s.freeze with
      demote := bitsOf v 43 31, pod := if s.freeze.state = .idle then bitsOf v 22 16 else s.freeze.pod
      host := v.getLsbD 3, bcast := v.getLsbD 1 } }

def writeHyp (off : Nat) (v : Word) (s : State) : State :=
  if 0x10000 ≤ off && off < 0x18000 then writeQueue true ((off - 0x10000) / 64) (off % 64) v s
  else if 0x20000 ≤ off && off < 0x21000 then writePart ((off - 0x20000) / 64) (off % 64 / 8) v s
  else if 0x22000 ≤ off && off < 0x23000 then writeVfEntry ((off - 0x22000) / 64) (off % 64 / 8) v s
  else match off with
    | 0x23000 => { s with hyp := { s.hyp with s2invaddr := word (bitsOf v 55 16 * 65536) } }
    | 0x23008 => { s with hyp := { s.hyp with s2invcount := bitsOf v 63 32, s2invvf := bitsOf v 13 8 } }
    | 0x23040 => { s with hyp := { s.hyp with mzaddr := word (bitsOf v 53 16 * 65536) } }
    | 0x23048 => { s with hyp := { s.hyp with mzcount := bitsOf v 63 32, mzpart := bitsOf v 13 8 } }
    | 0x23080 => { s with hyp := { s.hyp with s2ring := word (bitsOf v 63 12 * 4096) } }
    | 0x30000 =>
      let s := frzFields v s
      if v.getLsbD 2 then { s with events := s.events ++ [.freezeRelease] } else s
    | 0x30008 => { s with freeze := { s.freeze with dest := word (bitsOf v 63 12 * 4096) } }
    | _ => s

/-! ### Zeroing (R425) -/

/-- Zeroes frame-space bytes at device scope. -/
def zeroFrames (p a n : Nat) (s : State) : State :=
  let k := frameKey p a
  let lines (x : Nat) : Bool := k ≤ 64 * x && 64 * x < k + n
  let cut (m : Strand) : Strand := if m.links = [] then m else { m with links := m.links.filter fun x => !lines x }
  let ds := ((s.mem.filter fun e => k ≤ e.1 && e.1 < k + n).map (·.1 / 8)).eraseDups
  { s with
    mem := zeroRange s.mem k n, mpois := s.mpois.filter fun x => !lines x
    old := s.old.note ds s.mem (zeroRange s.mem k n)
    stash := s.stash.filter fun l => !(k ≤ 256 * l.key && 256 * l.key < k + n)
    me := cut s.me, others := s.others.map fun e => (e.1, cut e.2) }

/-- MEMORY_ZERO: the request of MZCTL is issued. -/
def execMemoryZero (s : State) : Out :=
  .next (match s.input with
    | some (.memoryZero v) =>
      let h := { s.hyp with mzcount := bitsOf v 63 32, mzpart := bitsOf v 13 8, mzissued := s.hyp.mzissued + 1 }
      { s with hyp := { h with mzwork := h.mzwork ++ [(h.mzpart, h.mzaddr.toNat, h.mzcount)] } }
    | _ => s)

/-- MEMORY_ZERO_DONE: the oldest request is performed and counts; frames beyond FRAMES do not exist. -/
def execMemoryZeroDone (s : State) : Out :=
  .next (match s.input with
    | some .memoryZeroDone =>
      match s.hyp.mzwork with
      | [] => s
      | (p, a, n) :: rest =>
        let s := { s with hyp := { s.hyp with mzwork := rest, mzdone := s.hyp.mzdone + 1 } }
        zeroFrames p a (min (65536 * n) ((s.part p).frames * 65536 - a)) s
    | _ => s)

/-! ### Invalidation (R401 to R404) -/

/-- An invalidation is issued. -/
def Superseded.issue (two : Bool) (v base count : Nat) (h : Superseded) : Superseded :=
  { h with marks := h.marks + 1, pending := h.pending ++ [⟨two, v, base, count, h.marks + 1⟩] }

/-- The oldest invalidation that `f` picks completes; one of a whole space takes the place of those before it. -/
def Superseded.complete (f : Inval → Bool) (h : Superseded) : Superseded :=
  match h.pending.find? f with
  | none => h
  | some i =>
    let done := if i.count = 0 then h.done.filter fun j => !(j.two = i.two && j.vf = i.vf) else h.done
    { h with pending := h.pending.erase i, done := done ++ [i] }

/-- INVALIDATE and S2_INVALIDATE: one more is issued. -/
def execInvalidate (s : State) : Out :=
  .next (match s.input with
    | some (.invalidate f v) =>
      { s with old := s.old.issue false f (s.vf f).invaddr.toNat (bitsOf v 63 32) }.modVf f fun x => { x with invcount := bitsOf v 63 32, issued := x.issued + 1 }
    | _ => s)

def execS2Invalidate (s : State) : Out :=
  .next (match s.input with
    | some (.s2Invalidate v) => { s with
        old := s.old.issue true (bitsOf v 13 8) s.hyp.s2invaddr.toNat (bitsOf v 63 32)
        hyp := { s.hyp with
          s2invcount := bitsOf v 63 32, s2invvf := bitsOf v 13 8, s2issued := s.hyp.s2issued + 1 } }
    | _ => s)

/-- Every access that has used a translation is performed at its home (R403): buffered stores and decoded sectors are what an
access through an old one has left. -/
def performAll (s : State) : State := { drainWhere (fun _ => true) s with dcache := [] }

/-- INVALIDATE_DONE: the oldest invalidation of a VF's register, or of the HYP register, completes. -/
def execInvalidateDone (s : State) : Out :=
  .next (match s.input with
    | some (.invalidateDone (some f)) =>
      if (s.vf f).issued = (s.vf f).done then s
      else
        let s := performAll s
        { s with old := s.old.complete fun i => !i.two && i.vf = f }.modVf f fun x => { x with done := x.done + 1 }
    | some (.invalidateDone none) =>
      if s.hyp.s2issued = s.hyp.s2done then s
      else
        let s := performAll s
        { s with hyp := { s.hyp with s2done := s.hyp.s2done + 1 }, old := s.old.complete (·.two) }
    | _ => s)

/-! ### Second-stage faults (R399) -/

/-- The access that a strand waits with fails: the head, or the fetch where no line is in use, takes the trap. -/
def failWait (sid : Nat) (t : Trap) (s : State) : State :=
  onStrand sid (fun s =>
    let ir := if lineInUse s.me then s.me.ir else s.me.via
    takeTrapAs ir t (s.modMe fun m => { m with wait := none })) s

def dropNotice (id : Nat) (s : State) : State :=
  { s with hyp := { s.hyp with s2notices := s.hyp.s2notices.filter (·.id ≠ id) } }

def isS2 (id : Nat) : Wait → Bool
  | .s2 k .. => k = id
  | _ => false

def isPri (idx : Nat) : Wait → Bool
  | .pri k .. => k = idx
  | _ => false

/-- The strands of a VF. -/
def vfStrands (s : State) (v : Nat) : List Nat :=
  (s.strands.filter fun e => !e.2.onSteward && (s.grid (s.crew e.2.crew).grid).vf = v).map (·.1)

/-- A `vwait` goes on testing its other lanes while a page is awaited; it finds the page missing at its next test (R225). -/
def Strand.tellVwait (two : Bool) (page : Nat) (m : Strand) : Strand :=
  { m with
    failed := if m.wait.any isVwait then addOnce m.failed (two, page) else m.failed
    viq := m.viq.map fun o => if o.wait.any isVwait then { o with failed := addOnce o.failed (two, page) } else o }

/-- A page is missing: the waits that `f` picks of strands of the VF, its `vwait`s and its engines find it so (R399, R406). -/
def pageMissing (v : Nat) (two : Bool) (page : Nat) (f : Wait → Bool) (s : State) : State :=
  (vfStrands s v).foldl (fun s i => (failPage i two page f s).modStrand i (Strand.tellVwait two page)) (failEngine v two page s)

/-- RETRY: every waiting access walks again. -/
def s2Retry (id : Nat) (s : State) : State :=
  let s := match s.hyp.s2notices.find? (·.id = id) with
    | some n => s.modVf n.vf fun f => { f with asked := f.asked.filter (· ≠ (true, n.ipa / 65536)) }
    | none => s
  s.strands.foldl (fun s e => if e.2.waits.any (isS2 id) then wakeWaits e.1 (isS2 id) s else s) (dropNotice id s)

/-- FAIL: every access that waits for the page traps once it has its other answers; an access of an engine finds its page failed. -/
def s2Fail (id : Nat) (s : State) : State :=
  match s.hyp.s2notices.find? (·.id = id) with
  | none => s
  | some n => pageMissing n.vf true (n.ipa / 65536) (isS2 id) (dropNotice id s)

def execS2freplyRetry (s : State) : Out :=
  .next (match s.input with
    | some (.s2freplyRetry id) => s2Retry id s
    | _ => s)

def execS2freplyFail (s : State) : Out :=
  .next (match s.input with
    | some (.s2freplyFail id) => s2Fail id s
    | _ => s)

/-- S2_FAULT_TIMEOUT: no answer within 2^20 cycles. -/
def execS2FaultTimeout (s : State) : Out :=
  .next (match s.input with
    | some (.s2FaultTimeout id) =>
      if s.hyp.s2notices.any fun n => n.id = id && reached s (n.at_ + Config.answerCycles) then s2Fail id s else s
    | _ => s)

/-- Notices that wait are written while the ring has room, in order. -/
def postWaiting : Nat → State → State
  | 0, s => s
  | k + 1, s =>
    match s.hyp.s2notices.find? (!·.posted) with
    | none => s
    | some n =>
      if !s2Room s then s
      else
        let t := writeS2 n s
        let ns := t.hyp.s2notices.map fun m => if m.id = n.id then { m with posted := true } else m
        postWaiting k { t with hyp := { t.hyp with s2notices := ns } }

/-- S2FIDX_WRITE: Casien has taken notices. -/
def execS2fidxWrite (s : State) : Out :=
  .next (match s.input with
    | some (.s2fidxWrite v) => postWaiting s.hyp.s2notices.length { s with hyp := { s.hyp with s2tail := bitsOf v 39 32 } }
    | _ => s)

/-! ### Page requests (R405, R406) -/

/-- The accesses that wait with a page request fail. -/
def priFail (v idx page : Nat) (s : State) : State := pageMissing v false page (isPri idx) s

/-- Accesses of a VF that wait for room among its page requests, and those that `f` picks, are tried again. -/
def retryVf (v : Nat) (f : Wait → Bool) (s : State) : State :=
  (vfStrands s v).foldl (fun s i => wakeWaits i (fun w => w = .priRoom || f w) s) s

/-- PRI_RESPONSE. -/
def priResponse (v idx : Nat) (code : PriCode) (s : State) : State :=
  match (s.vf v).pri.find? (·.idx = idx) with
  | none => s
  | some p =>
    let cur := p.gen = (s.vf v).gen
    let s := s.modVf v fun f => { f with pri := f.pri.filter (·.idx ≠ idx) }
    if !cur then s.modVf v fun f => { f with stale := (f.stale + 1) % 2 ^ 32 }
    else match code with
      | .success =>
        retryVf v (isPri idx) (s.modVf v fun f => { f with
          pages := addOnce f.pages p.page, asked := f.asked.filter (· ≠ (false, p.page)) })
      | .invalid => retryVf v (fun _ => false) (priFail v idx p.page s)
      | .failure => retryVf v (fun _ => false) (priFail v idx p.page (s.modVf v fun f => { f with priOff := true }))

def execPriResponse (s : State) : Out :=
  .next (match s.input with
    | some (.priResponse v idx code) => priResponse v idx code s
    | _ => s)

/-- PRI_TIMEOUT: no response within 2^20 cycles. The group index stays out until its response arrives. -/
def execPriTimeout (s : State) : Out :=
  .next (match s.input with
    | some (.priTimeout v idx) =>
      match (s.vf v).pri.find? (·.idx = idx) with
      | some p => if p.gen = (s.vf v).gen && reached s (p.at_ + Config.answerCycles) then priFail v idx p.page s else s
      | none => s
    | _ => s)

/-- ATS_INVALIDATE: no covered entry remains, and the accesses that used one have been performed. -/
def execAtsInvalidate (s : State) : Out :=
  .next (match s.input with
    | some (.atsInvalidate v base n) =>
      (performAll s).modVf v fun f => { f with atsGen := f.atsGen + 1, pages := f.pages.filter fun x => !(base < (x + 1) * 65536 && x * 65536 < base + n) }
    | _ => s)

/-! ### Function resets (R407, R408, R470) -/

/-- A VF's debug bit clears: the crews that the debugger holds are released (R470). -/
def relock (v : Nat) (s : State) : State :=
  let s := { s with plat := { s.plat with unlock := s.plat.unlock &&& ~~~(word (2 ^ v)) } }
  (vfCrews s v (· ≠ .ended)).foldl (fun s c => s.modCrew c fun c => { c with dbgHold := false }) s

/-- R407: the steps in their order. -/
def resetVf (v : Nat) (s : State) : State :=
  let s := s.modVf v fun f => { f with gen := (f.gen + 1) % 256 }
  let s := endVf v 1 none s
  let s := s.queues.foldl (fun s e => if e.2.vf = v then setQueue e.1 false s else s) s
  let s := s.modVf v fun f => { f with pages := [], asked := [], failed := [], priOff := false, lock := false }
  relock v (scrubPartition (s.vf v).part s)

def execFunctionLevelReset (s : State) : Out :=
  .next (match s.input with
    | some (.functionLevelReset v) => resetVf v s
    | _ => s)

def execStopInterface (s : State) : Out :=
  .next (match s.input with
    | some (.stopInterface v) => resetVf v s
    | _ => s)

/-- TDI_LOCK: the TDI enters CONFIG_LOCKED (R408). -/
def execTdiLock (s : State) : Out :=
  .next (match s.input with
    | some (.tdiLock v) => s.modVf v fun f => { f with lock := true }
    | _ => s)

/-- TDI_ERROR: entry to the ERROR state (R408). -/
def execTdiError (s : State) : Out :=
  .next (match s.input with
    | some (.tdiError v) => resetVf v s
    | _ => s)

end Sys2Proof.Machine
end

