-- ==== Sys2Proof/Machine/Ras.lean ====
section
/-! DEFINITION. Error banks and poison (R426 to R433), notices (R434, R435), the Assayer's replays (R439, R440), map-out (R442,
R443), loss of gang members (R445 to R447), the Limner (R448 to R450), and Freeze (R390 to R393). -/

namespace Sys2Proof.Machine
open Sys2Proof

/-! ### The Limner (R448 to R450) -/

/-- Slot of a strand in its core's snapshot: the slots of a second half follow those of the first. -/
def snapSlot (m : Strand) : Nat := m.slot + if m.half then 8 else 0

/-- The strands that occupy slots of a core, by snapshot slot. -/
def occupants (s : State) (core : Nat) : List (Nat × Strand) :=
  (s.strands.filter fun e => e.2.core = core && (e.2.run = .running || e.2.run = .halted || e.2.run = .stopped)).map fun e =>
    (snapSlot e.2, e.2)

def slotBits (l : List (Nat × Strand)) (f : Strand → Bool) : Nat := sumOf (l.filter fun e => f e.2) fun e => 2 ^ e.1

/-- Dwords 2 to 21 of a core's snapshot, and in dwords 24 to 27 the VF of each occupied slot (R450, R473). -/
def coreSnap (s : State) (core : Nat) : List (Nat × Nat) :=
  let l := occupants s core
  let viq (e : Nat × Strand) : Nat := e.2.viq.length * 2 ^ (8 * (e.1 % 8))
  let vf (e : Nat × Strand) : Nat := (128 + (s.grid (s.crew e.2.crew).grid).vf) * 2 ^ (8 * (e.1 % 8))
  let half (i : Nat) (f : Nat × Strand → Nat) : Nat := sumOf (l.filter fun e => e.1 / 8 = i) f
  l.map (fun e => (2 + e.1, e.2.pc.toNat))
    ++ [(18, slotBits l (fun _ => true) + slotBits l Strand.blocked * 2 ^ 16
          + slotBits l (fun m => m.viq.any fun o => o.isPromoted s.cycle) * 2 ^ 32),
        (19, half 0 viq), (20, half 1 viq),
        (21, freeRowsOf s (core, false) + (if s.classOf core = .half then freeRowsOf s (core, true) else 0)
          + if l.any (fun e => e.2.viq.any fun o => o.wait = some .mma) then 2 ^ 16 else 0),
        (24, half 0 vf), (25, half 1 vf)]

/-- The dwords from 2 on of a block's snapshot. -/
def blockSnap (s : State) (b : Nat) : List (Nat × Nat) :=
  let count (d : Nat) : Nat × Nat := (d, Config.blockCount b d s.cycle)
  if b < 416 then coreSnap s b
  else if 488 ≤ b && b < 540 || b = 565 || b = 566 then [count 2, count 3]
  else if 540 ≤ b && b < 564 then
    let p := tget {} s.ports (b - 540)
    [(2, p.sent), (3, p.received), (4, p.retries)]
  else []

/-- Every block latches. -/
def latch (s : State) : Tab Word :=
  (List.range 572).foldl (fun t b =>
    let t := tset 0 (tset 0 t (32 * b) (word s.cycle)) (32 * b + 1) (word (ebstat (bank s b)))
    (blockSnap s b).foldl (fun t e => tset 0 t (32 * b + e.1) (word e.2)) t) []

/-- A trigger of enabled sources (R449): it latches, or counts as missed; sources that fire in the cycle of the latch all appear in FIRED. -/
def trigger (src : BitVec 4) (s : State) : State :=
  let l := s.limner
  let f := src &&& l.src
  if f = 0 then s
  else if !l.armed && l.held && l.time = s.cycle then { s with limner := { l with fired := l.fired ||| f } }
  else if !l.armed then { s with limner := { l with missed := min (l.missed + 1) (2 ^ 32 - 1), fired := f } }
  else
    let t := latch s
    let s := { s with limner := { l with snap := t, armed := false, held := true, fired := f, time := s.cycle } }
    let s := if l.bcast then { s with outbox := s.outbox ++ [.trigger] } else s
    post { kind := 8, source := f.toNat, detail := 0, data := word s.cycle } s

/-- LIMNER_ARM. -/
def execLimnerArm (s : State) : Out :=
  .next (match s.input with
    | some .limnerArm => { s with limner := { s.limner with armed := true, held := false } }
    | _ => s)

def execLimnerFire (s : State) : Out :=
  .next (match s.input with
    | some .limnerFire => trigger 1 s
    | _ => s)

/-- LIMNER_CYCLE_MATCH: the clock has reached LMCYC, once for each value written (R448). -/
def execLimnerCycleMatch (s : State) : Out :=
  .next (match s.input with
    | some .limnerCycleMatch => 
      if s.limner.ahead && reached s s.limner.cyc.toNat then trigger 4 { s with limner := { s.limner with ahead := false } } else s
    | _ => s)

def execLimnerLinkTrigger (s : State) : Out :=
  .next (match s.input with
    | some .limnerLinkTrigger => trigger 8 s
    | _ => s)

/-! ### Error banks (R430 to R433) -/

def modBank (b : Nat) (f : Bank → Bank) (s : State) : State := { s with banks := tmod {} s.banks b f }

/-- A bank holds a record. -/
def Bank.hold (x : Bank) (r : ErrRec) (ue : Bool) (now : Nat) : Bank :=
  { x with valid := true, ue := ue, addr := r.addr, struct := r.struct, group := r.group, part := r.part, synd := r.synd, time := now }

/-- `corrected` of R432. -/
def corrected (b : Nat) (r : ErrRec) (s : State) : State :=
  let x := bank s b
  let n := min (x.cecnt + 1) (2 ^ 32 - 1)
  let y := { x with cecnt := n }
  let s := modBank b (fun _ => if x.valid then y else y.hold r false s.cycle) s
  if s.ras.cethr ≠ 0 && n = s.ras.cethr then post { kind := 2, source := b, detail := n, data := 0 } s else s

def execErrorCorrected (s : State) : Out :=
  .next (match s.input with
    | some (.errorCorrected b r) => corrected b r s
    | _ => s)

/-- EBINFO[55:32]. -/
def ueDetail (r : ErrRec) : Nat := r.struct * 2 ^ 16 + r.group * 2 ^ 8 + r.part

/-- `uncorrectable` of R432; a record that is taken is a source of the Limner (R448). -/
def uncorrectable (b : Nat) (r : ErrRec) (s : State) : State :=
  let x := bank s b
  let y := { x with uecnt := min (x.uecnt + 1) 65535 }
  if !x.valid || !x.ue then
    trigger 2 (post { kind := 1, source := b, detail := ueDetail r, data := r.addr } (modBank b (fun _ => y.hold r true s.cycle) s))
  else modBank b (fun _ => { y with ovfUe := true }) s

/-- A record of an error that the device meets by itself; its address and syndrome are left open. -/
def ownError (b struct part : Nat) (s : State) : State :=
  let a := draw s
  let y := draw a.2
  uncorrectable b { addr := a.1, struct := struct, group := 0, part := part, synd := y.1.toNat % 2 ^ 32 } y.2

/-- EBSTAT_CLEAR. -/
def execEbstatClear (s : State) : Out :=
  .next (match s.input with
    | some (.ebstatClear b) => modBank b (fun _ => {}) s
    | _ => s)

/-! ### Map-out (R442, R443) -/

/-- Whether a request is refused. -/
def mapRefused (s : State) (op core group : Nat) : Bool :=
  op > 2 || core > 415 || (op = 0 && (core ≥ Config.wideCores || (s.coreReg core).mout.getLsbD group))

/-- Posts a request for a core. -/
def mapRequest (op core group : Nat) (s : State) : State :=
  if mapRefused s op core group then { s with ras := { s.ras with mapErr := true } }
  else { s.modCore core (fun c => { c with req := c.req ++ [(op, group)] }) with ras := { s.ras with mapErr := false } }

/-- A write of MAPREQ with GO. -/
def mapWrite (op core group : Nat) (s : State) : State :=
  mapRequest op core group { s with ras := { s.ras with mapCore := core, mapGroup := group, mapOp := op } }

def execMapoutGroup (s : State) : Out :=
  .next (match s.input with
    | some (.mapoutGroup core g) => mapWrite 0 core g s
    | _ => s)

def execRetireCore (s : State) : Out :=
  .next (match s.input with
    | some (.retireCore core) => mapWrite 1 core 0 s
    | _ => s)

def execRestoreCore (s : State) : Out :=
  .next (match s.input with
    | some (.restoreCore core) => mapWrite 2 core 0 s
    | _ => s)

/-- Whether a core has drained: no strand resident, no rows owned lazily, no save pending. -/
def coreDrained (s : State) (core : Nat) : Bool :=
  !s.crews.any fun e => e.2.core = core && (e.2.onCore || (e.2.lazy && e.2.state ≠ .ended))

/-- Effect of a request on a core. -/
def CoreReg.mapped (c : CoreReg) (r : Nat × Nat) : CoreReg :=
  match r.1 with
  | 0 =>
    let m := c.mout ||| BitVec.ofNat 8 (2 ^ r.2)
    { c with mout := m, retired := c.retired || m = 0xFF }
  | 1 => { c with retired := true }
  | _ => { c with mout := 0, retired := false }

/-- MAPOUT_APPLY: the requests of a drained core take effect in their order, and each posts MAPOUT_DONE. -/
def mapoutApply (core : Nat) (s : State) : State :=
  if !coreDrained s core then s
  else
    let rs := (s.coreReg core).req
    rs.foldl (fun s r =>
      let s := s.modCore core fun c => c.mapped r
      post { kind := 4, source := core, detail := coreClassCode s core % 2 ^ 12, data := 0 } s)
      (s.modCore core fun c => { c with req := [] })

def execMapoutApply (s : State) : Out :=
  .next (match s.input with
    | some (.mapoutApply core) => mapoutApply core s
    | _ => s)

/-! ### What an uncorrectable error strikes (R427, R428) -/

/-- A crew ends with a fault completion whose first cause is POISON; the PC and the address of the cause are left open. -/
def poisonCrew (cid idx : Nat) (s : State) : State :=
  let p := draw s
  let a := draw p.2
  endCrew cid 1 (Cause.code .poison) 0 idx 0 p.1 a.1 a.2

/-- The crews of a grid that have not been dispatched end with the grid: each has a record of its own. -/
def endUndispatched (gid : Nat) (s : State) : State :=
  let g := s.grid gid
  let n := g.lrec.crews - g.dispatched
  let s := (List.range n).foldl (fun s i =>
    let c : Crew := { grid := gid, index := g.dispatched + i, kdesc := g.lrec.kernel, decl := g.decl, state := .ended, status := 1
                      cause1 := Cause.code .poison, tstart := s.cycle, tend := s.cycle }
    { s with crews := tset {} s.crews s.nextCrew c, nextCrew := s.nextCrew + 1 }) s
  let s := s.modGrid gid fun g => { g with dispatched := g.dispatched + n, completed := g.completed + n }
  if n ≠ 0 && (s.grid gid).completed = g.lrec.crews then afterEnd (s.nextCrew - 1) s else s

/-- An error in an entry of a heap: every crew of the grid that is bound to it ends (R428). -/
def poisonHeap (slot task : Nat) (s : State) : State :=
  match (s.heap slot).grid with
  | none => s
  | some gid =>
    let s := endUndispatched gid (s.modHeap slot fun h => { h with poison := addOnce h.poison task })
    (crewsOf s gid).foldl (fun s e => poisonCrew e.1 0 s) s

/-- Poison, or the end of the work that held the state. -/
def strike (t : ErrTarget) (s : State) : State :=
  match t with
  | .memory k => { s with mpois := addOnce s.mpois (k / 64) }
  | .vrow sid r row => s.modStrand sid fun m => { m with vpois := addOnce m.vpois (32 * r + row) }
  | .sreg sid r => if r = 0 then s else s.modStrand sid fun m => { m with spois := addOnce m.spois r }
  | .trow sid k row => s.modStrand sid fun m => { m with tpois := addOnce m.tpois (64 * k + row) }
  | .zrow sid k row => s.modStrand sid fun m => { m with zpois := addOnce m.zpois (64 * k + row) }
  | .frontEnd sid =>
    if (s.strand sid).onSteward then onStrand sid (stopSteward (Cause.code .poison)) s
    else poisonCrew (s.strand sid).crew (s.strand sid).index s
  | .heapEntry h t => poisonHeap h t s
  | .other => s

/-- ERROR_UNCORRECTABLE; with AUTOMAP an error of an array asks for map-out of its group (R442). -/
def errorUncorrectable (b : Nat) (r : ErrRec) (t : ErrTarget) (s : State) : State :=
  let s := strike t (uncorrectable b r s)
  if r.struct = 6 && s.ras.automap then mapRequest 0 b r.group s else s

def execErrorUncorrectable (s : State) : Out :=
  .next (match s.input with
    | some (.errorUncorrectable b r t) => errorUncorrectable b r t s
    | _ => s)

/-- The bank of a sector that the patrol reads: a channel of tier 1, a tier-2 port, or the bonded SRAM (R430). -/
def patrolBank (s : State) (k : Nat) : Nat × Nat :=
  let p := k / 2 ^ 54
  let o := k % 2 ^ 54
  if k ≥ 2 ^ 60 then (488, 9)
  else if inTier1 s p (o / 65536) then (492 + (channelAt (channelsOf (s.part p).chmask) o).1, 11)
  else (565 + (if s.plat.t2kind = 1 then Config.t2Port p (o / 65536) % 2 else 0), 12)

/-- PATROL: a sector that reads well, or is corrected, keeps its value; one that does not is poisoned and recorded. -/
def execPatrol (s : State) : Out :=
  .next (match s.input with
    | some (.patrol k ok) =>
      if ok then s
      else
        let b := patrolBank s k
        ownError b.1 b.2 (if k < 2 ^ 60 then k / 2 ^ 54 else 127) { s with mpois := addOnce s.mpois (k / 64) }
    | _ => s)

/-! ### Notice rings (R434) -/

/-- Waiting notices are written while the Casien ring has room. -/
def drainCasien : Nat → State → State
  | 0, s => s
  | n + 1, s =>
    match s.ras.casienRing.waiting with
    | [] => s
    | x :: t =>
      if ringFull s.ras.casienRing then s
      else drainCasien n (postCasien x { s with ras := { s.ras with casienRing := { s.ras.casienRing with waiting := [] } } }
        |> fun s => { s with ras := { s.ras with casienRing := { s.ras.casienRing with waiting := t } } })

def drainHost : Nat → State → State
  | 0, s => s
  | n + 1, s =>
    match s.ras.hostRing.waiting with
    | [] => s
    | x :: t =>
      if ringFull s.ras.hostRing then s
      else drainHost n (postHost x { s with ras := { s.ras with hostRing := { s.ras.hostRing with waiting := [] } } }
        |> fun s => { s with ras := { s.ras with hostRing := { s.ras.hostRing with waiting := t } } })

/-- NOTICE_TAIL_WRITE. -/
def execNoticeTailWrite (s : State) : Out :=
  .next (match s.input with
    | some (.noticeTailWrite true v) =>
      drainHost 64 { s with ras := { s.ras with hostRing := { s.ras.hostRing with tail := bitsOf v 39 32 } } }
    | some (.noticeTailWrite false v) =>
      drainCasien 64 { s with ras := { s.ras with casienRing := { s.ras.casienRing with tail := bitsOf v 39 32 } } }
    | _ => s)

/-- NDROP_CLEAR. -/
def execNdropClear (s : State) : Out :=
  .next (match s.input with
    | some .ndropClear =>
      let r := s.ras
      { s with ras := { r with casienRing := { r.casienRing with drop := 0 }, hostRing := { r.hostRing with drop := 0 } } }
    | _ => s)

/-! ### The Assayer (R436, R439, R440) -/

/-- An audit is over: its copies and, where the grid has completed, the crew leave State. -/
def dropAudit (cid : Nat) (s : State) : State :=
  let c := s.crew cid
  let v := (s.grid c.grid).vf
  let s := s.modVf v fun f => { f with arena := f.arena.filter (·.2.2 ≠ 2 ^ 40 + cid) }
  let s := { s with assayer := { s.assayer with replays := s.assayer.replays.filter (·.1 ≠ cid) } }
  if (s.grid c.grid).state = .complete then
    { s with crews := s.crews.filter (·.1 ≠ cid), others := s.others.filter fun e => e.1 ∉ c.sids }
  else s.modCrew cid fun c => { c with audited := false, auditCopy := [] }

/-- Cores of a partition with the class of `core`, that core aside. -/
def replayCores (s : State) (p core : Nat) : List Nat :=
  (((unitsOf s p).map (·.1)).eraseDups).filter fun c => c ≠ core && s.classOf c = s.classOf core

/-- ASSAY_REPLAY_DISPATCH: while no queue of the partition has a ready crew, and in the quanta of the VF. -/
def assayReplayDispatch (cid core : Nat) (s : State) : State :=
  let c := s.crew cid
  let g := s.grid c.grid
  if !c.audited || c.state ≠ .ended || s.assayer.replays.any (·.1 = cid) then s
  else if replayCores s g.part c.auditCore = [] then dropAudit cid (abandonAudit cid s)
  else if core ∉ replayCores s g.part c.auditCore || !dispatches s g.part || !turnOk s g.part g.vf
      || s.queues.any (fun e => e.2.part = g.part && (readyOf s e.1).isSome) then s
  else { s with assayer := { s.assayer with replays := s.assayer.replays ++ [(cid, core)] } }

def execAssayReplayDispatch (s : State) : Out :=
  .next (match s.input with
    | some (.assayReplayDispatch cid core) => assayReplayDispatch cid core s
    | _ => s)

/-- A mismatch is counted and posted. -/
def mismatch (cid core : Nat) (s : State) : State :=
  let c := s.crew cid
  let s := { s with assayer := { s.assayer with mismatch := (s.assayer.mismatch + 1) % 2 ^ 32 } }
  post { kind := 3, source := (s.grid c.grid).queue, detail := c.auditCore + core * 2 ^ 16, data := word (c.grid * 2 ^ 32 + c.index) } s

/-- ASSAY_COMPARE: the replay on the other core has ended. -/
def assayCompare (cid : Nat) (r : ReplayEnd) (s : State) : State :=
  match s.assayer.replays.find? (·.1 = cid) with
  | none => s
  | some (_, core) =>
    match r with
    | .abandoned => dropAudit cid (abandonAudit cid s)
    | .fault => dropAudit cid (mismatch cid core s)
    | .signature s1 =>
      if s1 = (s.crew cid).auditS0 then
        dropAudit cid { s with assayer := { s.assayer with pass := (s.assayer.pass + 1) % 2 ^ 32 } }
      else dropAudit cid (mismatch cid core s)

def execAssayCompare (s : State) : Out :=
  .next (match s.input with
    | some (.assayCompare cid r) => assayCompare cid r s
    | _ => s)

/-- ASCNT_CLEAR: both fields of the counter register. -/
def execAscntClear (s : State) : Out :=
  .next (match s.input with
    | some (.ascntClear n) => { s with assayer := match n.val with
        | 0 => { s.assayer with pass := 0, sampled := 0 }
        | 1 => { s.assayer with skip := 0, mismatch := 0 }
        | _ => { s.assayer with abandon := 0 } }
    | _ => s)

/-! ### Loss of a gang member (R445 to R447) -/

/-- Every crew of a grid ends with STATUS 4 and a rank, and so do the records of those that have ended. -/
def loseGrid (gid rank : Nat) (s : State) : State :=
  let sids := (crewsOf s gid).flatMap fun e => e.2.sids
  let s := { s with colls := s.colls.filter fun k => k.sid ∉ sids }
  let s := (crewsOf s gid).foldl (fun s e => endCrew e.1 4 0 0 0 rank 0 0 s) s
  { s with crews := s.crews.map fun e => if e.2.grid = gid then (e.1, { e.2 with status := 4, causeRank := rank }) else e }

/-- The group of a gang is broken: its collectives have status 3 (R255). -/
def breakGroup (t : Nat) (s : State) : State :=
  let x := gang s t
  match x.grid with
  | none => s
  | some gid =>
    let p := (s.grid gid).part
    let mine := s.colls.filter fun k => k.part = p && k.group = x.cgroup
    { s with
      groups := tmod {} s.groups (groupKey p x.cgroup) fun e => { e with broken := true }
      events := s.events ++ mine.map fun _ => .collectiveComplete p x.cgroup }

/-- The crews of a gang's grid are pre-empted with eager switches and held. -/
def holdGang (gid : Nat) (s : State) : State :=
  (crewsOf s gid).foldl (fun s e =>
    let s := s.modCrew e.1 fun c => { c with wantLazy := false, state := if c.state = .ready then .lostHeld else c.state }
    if e.2.state = .resident then { s with events := s.events ++ [.preemptRequest e.1] } else s) s

/-- LOST: the first for a gang counts. Before commit it aborts the gang. -/
def lostMember (t rank cause : Nat) (s : State) : State :=
  let x := gang s t
  match x.grid with
  | none => s
  | some gid =>
    if x.lost.isSome then s
    else if !x.committed then
      if x.rank = 0 then abortGang t rank 0 s
      else if rank = x.rank then { s with outbox := s.outbox ++ [.refusal t rank 0] } else s
    else
      let s := modGang t (fun x => { x with lost := some rank }) s
      if rank = x.rank then loseGrid gid rank { s with outbox := s.outbox ++ [.lost t rank] }
      else post { kind := 6, source := rank, detail := cause, data := word t } (holdGang gid (breakGroup t s))

def execLost (s : State) : Out :=
  .next (match s.input with
    | some (.lost t rank cause) => lostMember t rank cause s
    | _ => s)

/-- LINK_UNREACHABLE: a device of the domain that has been unreachable for 1 ms; the members of this device's gangs that ran there
are lost, and this device broadcasts LOST for them. -/
def execLinkUnreachable (s : State) : Out :=
  .next (match s.input with
    | some (.linkUnreachable dev members) =>
      members.foldl (fun s e => if (gang s e.1).grid.isSome && e.2 ≠ (gang s e.1).rank then
          lostMember e.1 e.2 2 { s with outbox := s.outbox ++ [.lost e.1 e.2] } else s)
        { s with unreachable := addOnce s.unreachable dev }
    | _ => s)

/-- The gang that GANGTAG names, where it is held. -/
def heldGang (s : State) : Option (Nat × Gang) :=
  s.gangs.find? fun e => e.1 = s.ras.gangtag.toNat && e.2.grid.isSome && e.2.lost.isSome && !e.2.resumed

/-- GANGCMD names no held gang. -/
def gangcmdFail (s : State) : State := { s with ras := { s.ras with gangstat := true } }

/-- GANGCMD_DISCARD: the held crews end, and the grid completes with STATUS 4 and the lost rank. -/
def execGangcmdDiscard (s : State) : Out :=
  .next (match s.input with
    | some .gangcmdDiscard => match heldGang s with
      | some (_, x) => match x.grid with
        | some gid => clearGroup gid (loseGrid gid (x.lost.getD 0) s)
        | none => gangcmdFail s
      | none => gangcmdFail s
    | _ => s)

/-- GANGCMD_RESUME: the held crews are pre-empted ready crews again; the group stays broken. -/
def execGangcmdResume (s : State) : Out :=
  .next (match s.input with
    | some .gangcmdResume => match heldGang s with
      | some (_, x) => match x.grid with
        | some gid =>
          let s := modGang s.ras.gangtag.toNat (fun x => { x with resumed := true }) s
          (crewsOf s gid).foldl (fun s e => s.modCrew e.1 fun c => { c with state := if c.state = .lostHeld then .ready else c.state }) s
        | none => gangcmdFail s
      | none => gangcmdFail s
    | _ => s)

/-! ### Freeze (R390 to R393) -/

/-- Bytes of tier 2 that no enabled partition holds. -/
def tier2Free (s : State) : Nat := (s.hyp.t2pool - sumOf (s.parts.filter (·.2.en)) fun e => e.2.t2) * 2 ^ 30

/-- Bytes that the images of a Freeze need at its destination. -/
def freezeBytes (s : State) (demote : Nat) : Nat :=
  sumOf (s.crews.filter fun e => e.2.state ≠ .ended) (fun e => imageRoom e.2.decl)
    + sumOf (s.heaps.filter fun e => e.2.grid.isSome) (fun e => 64 + 16 * e.2.cap) + demote * 2 ^ 26

/-- A gang that is not committed gives its reservations back, and its record is ready again; one whose crews run already under EAGER holds
no reservation (R363, R392). -/
def unreserve (s : State) : State :=
  (s.gangs.filter fun e => !e.2.committed).foldl (fun s e => match e.2.grid with
    | some gid =>
      if (crewsOf s gid).any fun c => c.2.state ≠ .reserved then s
      else
        let s := clearGroup gid (discardCrews gid s)
        let s := s.modGrid gid fun g => { g with state := .ready, dispatched := 0 }
        { s with gangs := s.gangs.filter (·.1 ≠ e.1) }
    | none => s) s

/-- The swaps of an elastic switch are abandoned (R392). -/
def dropMoves (s : State) : State :=
  { s with events := s.events.filter fun e => match e with
    | .pageMove .. => false
    | _ => true }

/-- The crews that a Freeze takes. -/
def freezeCrews (s : State) : List (Nat × Crew) := s.crews.filter fun e => e.2.state ≠ .ended && freezing s e.2

/-- Phases 1 and 2 begin. -/
def beginFreeze (scope : Option Nat) (s : State) : State :=
  let f := s.freeze
  let s := { s with freeze := { f with
    state := .stopping, goAt := s.cycle, result := 0, elapsed := 0, scope := scope, crews := [], heaps := [], demoted := [] } }
  let s := dropMoves (if scope = none then unreserve s else s)
  (freezeCrews s).foldl (fun s e =>
    let s := s.modCrew e.1 fun c => { c with wantLazy := false }
    preemptRequest e.1 s) s

/-- GO (R390, R391). -/
def freezeGo (bcast : Bool) (scope : Option Nat) (v : Word) (s : State) : State :=
  if s.freeze.state ≠ .idle then { s with freeze := { s.freeze with result := 3 } }
  else
    let s := frzFields v s
    let f := s.freeze
    if f.demote > 5722 || (f.host && f.demote > 2861) then { s with freeze := { f with result := 2 } }
    else if (if f.host then !Config.hostReserves f.dest.toNat (freezeBytes s f.demote) else freezeBytes s f.demote > tier2Free s) then { s with freeze := { f with result := 1 } }
    else
      let gangs : List Msg := (s.gangs.filter fun e => e.2.committed && (scope = none)).map fun e => .freezeGang e.1 v
      let pod : List Msg := if bcast && f.bcast then [.freeze f.pod v] else []
      beginFreeze scope { s with outbox := s.outbox ++ pod ++ gangs }

def execFreezeGo (s : State) : Out :=
  .next (match s.input with
    | some (.freezeGo v) => freezeGo true none v s
    | _ => s)

/-- FREEZE_BCAST_RECEIVE: a broadcast to this device's pod, or to the members of a gang. -/
def execFreezeBcastReceive (s : State) : Out :=
  .next (match s.input with
    | some (.freezeBcastReceive pod none v) => if pod = s.plat.pod then freezeGo false none v s else s
    | some (.freezeBcastReceive _ (some t) v) =>
      if (gang s t).grid.isSome && (gang s t).committed then freezeGo false (some t) v s else s
    | _ => s)

/-- Phase 3: a pre-empted crew's image goes to the destination. -/
def freezeCrew (cid : Nat) (s : State) : State :=
  let s := saveEngineWrite cid s
  let c := s.crew cid
  if c.state = .frozen || c.state = .ended then s
  else
    let img := match fetchImage s cid with
      | .ok x => (x.bytes, x.bad)
      | _ => ([], [])
    s.modCrew cid fun c => { c with state := .frozen, frozen := img.1, frozenBad := img.2 }

/-- Heaps of the grids that a Freeze takes leave the heap unit with all their state (R343). -/
def freezeHeaps (s : State) : State :=
  let taken (h : Heap) : Bool := match h.grid with
    | some g => freezing s { grid := g }
    | none => false
  let gs := ((s.heaps.filter fun e => taken e.2).filterMap fun e => e.2.grid).eraseDups
  gs.foldl (fun s g =>
    let l := (s.grid g).heaps
    let s := { s with freeze := { s.freeze with heaps := s.freeze.heaps ++ l.map s.heap } }
    (l.foldl (fun s h => s.modHeap h fun _ => {}) s).modGrid g fun x => { x with heaps := [] }) s

/-- Whether no crew that the Freeze takes runs any more. -/
def freezeStopped (s : State) : Bool := !(freezeCrews s).any fun e => e.2.onCore

/-- The VFs whose contexts a Freeze holds. -/
def frozenVfs (s : State) : List Nat := ((s.freeze.crews.map fun c => (s.grid (s.crew c).grid).vf)).eraseDups

/-- Pages of tier 1, as memory keys / 65,536, that a Freeze demotes, the least recently touched first: of its partitions all, as GO stops every
context; for one gang those that its contexts have touched (R391, phase 4). -/
def demotable (s : State) : List Nat :=
  let vs := frozenVfs s
  let ps := (vs.map fun v => (s.vf v).part).eraseDups
  let all := ps.flatMap fun p => ((List.range (s.part p).frames).filter (inTier1 s p)).map (frameSlot p)
  let mine := if s.freeze.scope = none then all else all.filter fun x => vs.any fun v => (tget 0 (s.vf v).lastTouch x) ≠ 0
  (mine.mergeSort fun a b => pageTouched s (List.range 64) a ≤ pageTouched s (List.range 64) b).take (1024 * s.freeze.demote)

/-- Bytes with their poisoned sectors go to host memory at address `a` of the physical function. -/
def hostPut (a : Nat) (b : List Byte) (bad : List Nat) (s : State) : State :=
  let s := (List.range (pageCount a b.length)).foldl (fun s i =>
    let lo := max a ((a / 65536 + i) * 65536)
    let hi := min (a + b.length) ((a / 65536 + i + 1) * 65536)
    homeWrite none none (hostKey 64 0 lo) ((b.drop (lo - a)).take (hi - lo)) s) s
  { s with mpois := bad.foldl (fun l x => addOnce l (hostKey 64 0 (a + 64 * x) / 64)) s.mpois }

/-- The images of a Freeze, of crews and then of heaps. -/
def freezeImages (s : State) : List (List Byte × List Nat) :=
  s.freeze.crews.map (fun c => ((s.crew c).frozen, (s.crew c).frozenBad)) ++ s.freeze.heaps.map fun h => (h.bytes, h.badSectors)

/-- Images follow one another in 4 KiB units. -/
def imageUnits (b : List Byte) : Nat := (b.length + 4095) / 4096 * 4096

/-- With HOST, the images go to FRZDEST, one after the other. -/
def hostImages : List (List Byte × List Nat) → Nat → State → State
  | [], _, s => s
  | x :: t, a, s => hostImages t (a + imageUnits x.1) (hostPut a x.1 x.2 s)

/-- With HOST, the demoted pages follow the images. -/
def hostPages (l : List Nat) (a : Nat) (s : State) : State :=
  (l.zipIdx).foldl (fun s e =>
    let bad := (List.range 1024).filter fun i => s.badSector (e.1 * 1024 + i)
    hostPut (a + 65536 * e.2) (s.homeBytes (e.1 * 65536) 65536) bad s) s

def flipFrames (l : List Nat) (s : State) : State :=
  { s with moved := l.foldl (fun t k => tset false t k (!(tget false t k))) s.moved }

/-- Pages that a Freeze has demoted come back while tier 1 has room (R393). -/
def promoteBack (l : List Nat) (s : State) : State :=
  l.foldl (fun s x =>
    let p := x / 2 ^ 38
    if inTier1 s p (x % 2 ^ 38) || tier1Used s p ≥ tier1Frames (s.part p) then s else flipFrames [x] s) s

/-- A frozen context that has not come back yet. -/
def stillFrozen (s : State) (cid : Nat) : Bool :=
  let c := s.crew cid
  c.state ≠ .ended && (c.state = .frozen || c.frozen ≠ [])

/-- Heaps that wait for free slots are bound again (R328, R393). -/
def rebindAll (s : State) : State :=
  ((s.freeze.heaps.filterMap (·.grid)).eraseDups).foldl (fun s g => (rebind g s).getD s) s

/-- FREEZE_PHASE_DONE. -/
def freezePhaseDone (s : State) : State :=
  match s.freeze.state with
  | .idle | .frozen => s
  | .stopping =>
    if !freezeStopped s then s
    else
      let l := (freezeCrews s).map (·.1)
      let s := l.foldl (fun s c => freezeCrew c s) s
      let s := freezeHeaps s
      let s := { s with freeze := { s.freeze with state := .saving, crews := l } }
      (frozenVfs s).foldl (fun s v => writeBack v s) s
  | .saving =>
    let s := if s.freeze.host then hostImages (freezeImages s) s.freeze.dest.toNat s else s
    { s with freeze := { s.freeze with state := .demoting } }
  | .demoting =>
    let l := if s.freeze.demote = 0 then [] else (demotable s).filter fun x => !pinned s x
    let s := if s.freeze.host then hostPages l (s.freeze.dest.toNat + sumOf (freezeImages s) fun x => imageUnits x.1) s else s
    let s := flipFrames l s
    { s with freeze := { s.freeze with state := .frozen, demoted := l, elapsed := (s.cycle - s.freeze.goAt) / 940 } }
  | .resuming =>
    let s := rebindAll s
    if s.freeze.crews.any (stillFrozen s) || s.freeze.heaps ≠ [] then s
    else { s with freeze := { s.freeze with state := .idle, crews := [], scope := none } }

def execFreezePhaseDone (s : State) : Out :=
  .next (match s.input with
    | some .freezePhaseDone => freezePhaseDone s
    | _ => s)

/-- A clock value that a pause since `goAt` does not count towards (R392). -/
def pausedFrom (goAt now t : Nat) : Nat := t + (now - max goAt t)

/-- Quanta go on where GO stopped them, and the timers of gangs that are not committed start anew (R392). -/
def restartTimers (s : State) : State :=
  let f := s.freeze.goAt
  { s with
    parts := s.parts.map fun e => (e.1, { e.2 with qstart := pausedFrom f s.cycle e.2.qstart, qend := pausedFrom f s.cycle e.2.qend })
    gangs := s.gangs.map fun e => (e.1, if e.2.committed then e.2 else { e.2 with since := s.cycle }) }

/-- FREEZE_RELEASE: the frozen contexts are pre-empted ready crews, heaps are bound again, pages return, and gangs prepare anew. -/
def freezeRelease (s : State) : State :=
  if s.freeze.state ≠ .frozen then s
  else
    let s := s.freeze.crews.foldl (fun s c => s.modCrew c fun x => { x with
      state := if x.state ≠ .frozen then x.state
        else if gangHolds s x.grid then .lostHeld else .ready }) s
    let s := restartTimers (promoteBack s.freeze.demoted s)
    let gangs := (s.grids.filter fun e => e.2.state = .ready && e.2.lrec.isGang && e.2.reason = 0).map fun e => Event.gangPrepare e.1
    rebindAll { s with freeze := { s.freeze with state := .resuming, demoted := [] }, events := s.events ++ gangs }

def execFreezeRelease (s : State) : Out :=
  .next (match s.input with
    | some .freezeRelease => freezeRelease s
    | _ => s)

end Sys2Proof.Machine
end

