-- ==== Sys2Proof/Machine/Platform.lean ====
section
/-! DEFINITION. Links and remote accesses (R453 to R457), power (R458 to R460), boot and the Steward's programs (R444, R461 to
R466), measurements (R468, R469), the debug function (R470 to R473), and the write of any other register (R409). -/

namespace Sys2Proof.Machine
open Sys2Proof

/-! ### Tedomlink (R454 to R457) -/

/-- Whether every port that the route of a device names is up. -/
def reachable (s : State) (dev : Nat) : Bool :=
  dev ∉ s.unreachable
    && ((List.range 24).filter (tget 0 s.plat.routes dev).toNat.testBit).all fun p => (tget {} s.ports p).up

def modPort (p : Nat) (f : Port → Port) (s : State) : State := { s with ports := tmod {} s.ports p f }

/-- Strands that await acknowledgements look again. -/
def wakeAcks (s : State) : State := s.strands.foldl (fun s e => if .acks ∈ e.2.waits then wakeWaits e.1 (· = .acks) s else s) s

/-- A link is back: stores that await it are performed, and strands that await it go on. -/
def linkBack (s : State) : State :=
  let go := s.rstores.filter fun r => (lostDevice s r.key).isNone
  let s := performRemote (fun r => (lostDevice s r.key).isNone) s
  let s := go.foldl (fun s r => pushOnce (.gridComplete (s.crew (s.strand r.sid).crew).grid) s) s
  wakeAcks (s.strands.foldl (fun s e =>
    let back (w : Wait) : Bool := match w with
      | .remote d _ => reachable s d
      | _ => false
    if e.2.waits.any back then wakeWaits e.1 back s else s) s)

/-- FLIT_RECEIVE: a flit whose CRC fails is retried, and counts; any other is delivered, so that the link is up. -/
def execFlitReceive (s : State) : Out :=
  .next (match s.input with
    | some (.flitReceive p ok) =>
      let s := modPort p (fun x => { x with received := x.received + 1 }) s
      if ok then linkBack (modPort p (fun x => { x with up := true, retrainFrom := none }) s)
      else
        let s := modPort p (fun x => { x with retries := x.retries + 1 }) s
        { s with outbox := s.outbox ++ [.flitRetry p] }
    | _ => s)

/-- PORT_RETRAIN: the port loses its link. -/
def execPortRetrain (s : State) : Out :=
  .next (match s.input with
    | some (.portRetrain p) => modPort p (fun x => { x with up := false, retrainFrom := some s.cycle }) s
    | _ => s)

/-- PORT_RETRAIN_TIMEOUT: after 1 ms the port leaves every route entry, and the error is recorded. -/
def execPortRetrainTimeout (s : State) : Out :=
  .next (match s.input with
    | some (.portRetrainTimeout p) =>
      match (tget {} s.ports p).retrainFrom with
      | some t =>
        if reached s (t + Config.msCycles) then
          let routes := s.plat.routes.foldl (fun l e => tset 0 l e.1 (e.2 &&& ~~~(word (2 ^ p)))) []
          linkBack (ownError (540 + p) 13 127
            { modPort p (fun x => { x with retrainFrom := none }) s with plat := { s.plat with routes := routes } })
        else s
      | none => s
    | _ => s)

/-- The frame-space address that an export entry gives a remote access (R456). -/
def admitted (s : State) (dev part off : Nat) : Option Nat :=
  match s.plat.exports.find? fun e => e.2.valid && e.2.srcdev = dev && e.2.srcpart = part with
  | some (_, x) =>
    let a := x.base * 65536 + off
    if off < x.size * 65536 && a < (s.part x.part).frames * 65536 then some (frameKey x.part a) else none
  | none => none

/-- What an admitted access reads and writes: bytes for the reply, and bytes to write. -/
def remoteEffect (s : State) (k : Nat) : RemoteKind → List Byte × Option (List Byte)
  | .load n => (s.homeBytes k n, none)
  | .store b => ([], some b)
  | .amo op dbl v =>
    let n := if dbl then 8 else 4
    let old := s.homeBytes k n
    let r := amoNew op (8 * n) (BitVec.ofNat (8 * n) (leVal old)) (BitVec.ofNat (8 * n) v)
    (old, some (leBytes n r.1.toNat))
  | .cas dbl cmp new =>
    let n := if dbl then 8 else 4
    let old := s.homeBytes k n
    (old, if leVal old = cmp % 2 ^ (8 * n) then some (leBytes n new) else none)

/-- REMOTE_ACCESS: performed at its home here, or refused, so that the requester traps ACCESS with REASON 5. -/
def remoteAccess (dev part off : Nat) (kind : RemoteKind) (s : State) : State :=
  match admitted s dev part off with
  | none => { s with outbox := s.outbox ++ [.remoteReply dev none] }
  | some k =>
    let r := remoteEffect s k kind
    let msg : Msg := if r.1 ≠ [] && s.poisoned k r.1.length then .remotePoison dev else .remoteReply dev (some (leVal r.1))
    let s := match r.2 with
      | some b => if r.1 ≠ [] && s.poisoned k r.1.length then s else homeWrite none none k b s
      | none => s
    { s with outbox := s.outbox ++ [msg] }

def execRemoteAccess (s : State) : Out :=
  .next (match s.input with
    | some (.remoteAccess dev part off kind) => remoteAccess dev part off kind s
    | _ => s)

/-- The access of a head that a device has not answered has waited too long: its trap, where it has (R457). -/
def remoteLate (s : State) (w : Option Wait) (since : Nat) : Option Trap :=
  match w with
  | some (.remote d va) => if reached s (since + Config.msCycles) then some { cause := .link, detail := d, addr := va } else none
  | _ => none

/-- REMOTE_LOAD_TIMEOUT: no reply 1 ms after the access left. -/
def remoteLoadTimeout (sid : Nat) (s : State) : State :=
  let m := s.strand sid
  match remoteLate s m.wait m.waitFrom, m.viq.head?.bind fun o => remoteLate s o.wait o.waitFrom with
  | some t, _ => failWait sid t s
  | none, some t => onStrand sid (runEntry 0 fun s => takeTrap t (s.modMe fun m => { m with wait := none })) s
  | none, none => s

def execRemoteLoadTimeout (s : State) : Out :=
  .next (match s.input with
    | some (.remoteLoadTimeout sid) => remoteLoadTimeout sid s
    | _ => s)

/-- REMOTE_STORE_TIMEOUT: the store is dropped and recorded; its strand meets the failure later. -/
def remoteStoreTimeout (i : Nat) (s : State) : State :=
  match s.rstores[i]? with
  | none => s
  | some r =>
    if !reached s (r.at_ + Config.msCycles) then s
    else
      let s := { s with rstores := s.rstores.eraseIdx i, linkFail := s.linkFail ++ [(r.sid, r.dev, r.va)] }
      let s := match r.port with
        | some p => ownError (540 + p) 13 127 s
        | none => s
      let s := wakeAcks s
      let cid := (s.strand r.sid).crew
      let late := (s.crew cid).state = .ended && (s.crew cid).status = 0
      let s := if late then s.modCrew cid fun c => { c with
          status := 1, cause1 := Cause.code .link, causeStrand := (s.strand r.sid).index, tpc := (s.strand r.sid).pc, taddr := r.va }
        else s
      pushOnce (.gridComplete (s.crew cid).grid) s

def execRemoteStoreTimeout (s : State) : Out :=
  .next (match s.input with
    | some (.remoteStoreTimeout i) => remoteStoreTimeout i s
    | _ => s)

/-- CXL_DEVICE_FAILURE: the device of one of the two CXL ports is removed or fails (R453). -/
def execCxlDeviceFailure (s : State) : Out :=
  .next (match s.input with
    | some (.cxlDeviceFailure p) =>
      if s.plat.t2kind = 1 then ownError (565 + p % 2) 12 127 { s with t2lost := addOnce s.t2lost (p % 2) } else s
    | _ => s)

/-! ### Power (R458 to R460) -/

/-- Shares of the isolated partitions. -/
def shares (s : State) : Nat := sumOf (s.plat.pshare.filter fun e => !(s.part e.1).elastic) (·.2)

/-- The latest power write is refused, or accepted. -/
def powerErr (b : Bool) (s : State) : State := { s with plat := { s.plat with err := b } }

/-- A package limit in its range (R458). -/
def clampLimit (n : Nat) : Nat := min 1800 (max 900 n)

/-- PWRLIM_WRITE. -/
def pwrlimWrite (v : Word) (s : State) : State :=
  let n := clampLimit (bitsOf v 10 0)
  if 200 + shares s > n then powerErr true s else powerErr false { s with plat := { s.plat with limit := n } }

def execPwrlimWrite (s : State) : Out :=
  .next (match s.input with
    | some (.pwrlimWrite v) => pwrlimWrite v s
    | _ => s)

/-- PSHARE_WRITE. -/
def pshareWrite (p : Nat) (v : Word) (s : State) : State :=
  let t := { s with plat := { s.plat with pshare := tset 0 s.plat.pshare p (bitsOf v 10 0) } }
  if (s.part p).en || 200 + shares t > s.plat.limit then powerErr true s else powerErr false t

def execPshareWrite (s : State) : Out :=
  .next (match s.input with
    | some (.pshareWrite p v) => pshareWrite p v s
    | _ => s)

/-- The partition that a core draws its share from: an isolated owner's number, else none. -/
def powerOwner (s : State) (core : Nat) : Option Nat :=
  let o := (s.assign (State.entryOf core)).own0
  if o < 64 && !(s.part o).elastic then some o else none

/-- Grant over demand for a core, as a fraction, and not above one (R459, R460). -/
def grantRatio (s : State) (core : Nat) : Nat × Nat :=
  let total (o : Option Nat) : Nat := sumOf (s.cores.filter fun e => powerOwner s e.1 = o) fun e => e.2.demand
  let o := powerOwner s core
  let b := match o with
    | some p => tget 0 s.plat.pshare p
    | none => s.plat.limit - 200 - shares s
  let r := if total o ≤ b then (1, 1) else (b, total o)
  if s.plat.hot then (r.1, 2 * r.2) else r

/-- Skipped issue cycles of every 16. -/
def skipOf (r : Nat × Nat) : Nat := min 15 ((16 * (r.2 - r.1) + r.2 - 1) / r.2)

/-- The grants of every core from the demands that stand. -/
def arbitrate (s : State) : State :=
  { s with cores := s.cores.map fun e =>
      let r := grantRatio s e.1
      (e.1, { e.2 with grant := e.2.demand * r.1 / r.2, skip := if e.2.demand = 0 then 0 else skipOf r }) }

/-- POWER_INTERVAL: every core's demand, and the grants for the next 940 cycles. -/
def powerInterval (demand : List (Nat × Nat)) (s : State) : State :=
  let s := s.cores.foldl (fun s e => s.modCore e.1 fun c => { c with demand := 0, grant := 0, skip := 0 }) s
  let s := demand.foldl (fun s e => s.modCore e.1 fun c => { c with demand := e.2 }) s
  arbitrate { s with plat := { s.plat with draw := Config.packageDraw (s.cycle / 940) % 2 ^ 11 } }

def execPowerInterval (s : State) : Out :=
  .next (match s.input with
    | some (.powerInterval d) => powerInterval d s
    | _ => s)

/-- THERMAL_TRIP: each entry counts. -/
def execThermalTrip (s : State) : Out :=
  .next (match s.input with
    | some .thermalTrip =>
      if s.plat.hot then s
      else arbitrate { s with plat := { s.plat with hot := true, therm := min (s.plat.therm + 1) (2 ^ 32 - 1) } }
    | _ => s)

def execThermalClear (s : State) : Out :=
  .next (match s.input with
    | some .thermalClear => arbitrate { s with plat := { s.plat with hot := false } }
    | _ => s)

/-! ### Boot (R461 to R463) -/

/-- The valid slot with the highest version that is not below the counter; slot A among equals. -/
def bestSlot (l : List FlashSlot) (low : Nat) : Option FlashSlot :=
  (l.filter fun x => x.valid && low ≤ x.version).foldl (fun b x => match b with
    | none => some x
    | some y => if x.version > y.version then some x else b) none

/-- The images that boot: Casien's and the configuration. -/
def bootImages (f : Flash) : Option (FlashSlot × FlashSlot) :=
  match bestSlot f.casien f.casienMin, bestSlot f.config f.configMin with
  | some c, some g => some (c, g)
  | _, _ => none

/-- A map byte of a core (R462). -/
def mapByte (core : Nat) (b : Byte) (c : CoreReg) : CoreReg :=
  if core < Config.wideCores then { c with mout := b, retired := b = 0xFF } else { c with retired := b.getLsbD 0 }

/-- The map in force, with the repair counter: that of a repair record that amends the booted image, else the image's own. -/
def mapInForce (f : Flash) (g : FlashSlot) : Tab Byte × Nat :=
  match bestSlot f.repair f.repairMin with
  | some r => if r.basever = g.version then (r.map, r.version) else (g.map, f.repairMin)
  | none => (g.map, f.repairMin)

/-- Tier-2 GiB that are present: none without an attachment, and at most 4,096 GB (R7, R453). -/
def t2capacity (g : FlashSlot) : Nat := if g.t2kind = 1 || g.t2kind = 2 then min 3814 g.t2gib else 0

/-- Casien starts on Steward core 0 at HYP. -/
def startCasien (c : FlashSlot) (s : State) : State :=
  let s := { s with mem := putBytes s.mem (sramKey 0) c.code }
  s.setStrand 0 { core := Config.stewardBase, run := .running, priv := .hyp, pc := c.entry }

/-- The state that a device reset leaves before the boot ROM's work: module flash and memory outside the device stay. -/
def cleared (s : State) : State :=
  { flash := s.flash, mem := s.mem.filter fun e => 2 ^ 61 ≤ e.1 && e.1 < 2 ^ 63, outbox := s.outbox, draws := s.draws }

/-- DEVICE_RESET. Where a slot pair has no valid image, the failure is recorded in bank 567, and nothing starts. -/
def deviceReset (s : State) : State :=
  let s := cleared s
  match bootImages s.flash with
  | none => ownError 567 15 127 s
  | some (c, g) =>
    let m := mapInForce s.flash g
    let f := { s.flash with casienMin := c.version, configMin := g.version, repairMin := m.2 }
    let s := m.1.foldl (fun s e => s.modCore e.1 (mapByte e.1 e.2)) s
    let p := { s.plat with devid := g.devid, pod := g.pod, limit := clampLimit g.plimdef, t2kind := g.t2kind }
    startCasien c { s with flash := f, plat := p, hyp := { s.hyp with t2pool := t2capacity g } }

def execDeviceReset (s : State) : Out :=
  .next (match s.input with
    | some .deviceReset => deviceReset s
    | _ => s)

/-- POWER_LOSS: nothing but flash survives on the device. -/
def execPowerLoss (s : State) : Out :=
  .next (match s.input with
    | some .powerLoss => { cleared s with powered := false }
    | _ => s)

/-- STWDOG_WRITE. -/
def execStwdogWrite (s : State) : Out :=
  .next (match s.input with
    | some .stwdogWrite => { s with ras := { s.ras with stwdogAt := s.cycle } }
    | _ => s)

/-- STEWARD_WATCHDOG_EXPIRE: the Steward cores reset and Casien is verified and started again; nothing else stops. -/
def stewardWatchdogExpire (s : State) : State :=
  if !reached s (s.ras.stwdogAt + 100 * Config.msCycles) then s
  else
    let s := (List.range 4).foldl (fun s c => s.setStrand c {}) s
    let s := { s with ras := { s.ras with stwdogAt := s.cycle }, plat := { s.plat with steward := [] } }
    let s := match bootImages s.flash with
      | some (c, _) => startCasien c s
      | none => ownError 567 15 127 s
    post { kind := 9, source := 0, detail := 0, data := word s.cycle } s

def execStewardWatchdogExpire (s : State) : Out :=
  .next (match s.input with
    | some .stewardWatchdogExpire => stewardWatchdogExpire s
    | _ => s)

/-! ### Steward programs (R464 to R466) -/

def modSteward (c : Nat) (f : StReg → StReg) (s : State) : State :=
  { s with plat := { s.plat with steward := tmod {} s.plat.steward c f } }

/-- A descriptor that a Steward program may have (R464). -/
def stewardDecl (d : Decl) : Bool :=
  d.strands = 1 && d.vheld = 0 && d.tdecl = 0 && d.zdecl = 0 && d.quota = 0 && d.spbytes = 0 && d.nsb = 0 && d.llbytes = 0

/-- STEWARD_START: a write of STENTRY with GO. -/
def stewardStart (c : Nat) (v : Word) (s : State) : State :=
  let s := modSteward c (fun r => { r with desc := word (bitsOf v 63 6 * 64) }) s
  let r := tget {} s.plat.steward c
  let refuse (s : State) : State := modSteward c (fun r => { r with err := true }) s
  if r.busy then refuse s
  else
    let s := modSteward c (fun r => { r with code := 0, err := false, fault := false, done := false }) s
    let x : Ctx := { vf := 0, part := 0, app := false, steward := true }
    match fetchBytes s x r.desc.toNat 64 [] with
    | .bytes b =>
      match parseDesc b with
      | some d =>
        if stewardDecl d then
          let m : Strand := {
            core := Config.stewardBase + c, run := .running, priv := .hyp, pc := d.entry, regs := tset 0 [] 1 r.args, trapvec := r.vec }
          modSteward c (fun r => { r with busy := true }) (s.setStrand c m)
        else refuse s
      | none => refuse s
    | _ => refuse s

def execStewardStart (s : State) : Out :=
  .next (match s.input with
    | some (.stewardStart c v) => if 1 ≤ c && c ≤ 3 then stewardStart c v s else s
    | _ => s)

/-! ### Measurements (R467 to R469) -/

/-- Valid entries of a second-stage table and of the tables below it, by address. -/
def s2Entries (s : State) (p : Nat) : List (Nat × Nat × Nat) → Nat → List (Nat × Nat)
  | [], _ => []
  | (_, _, w) :: rest, t => (List.range (2 ^ w)).flatMap fun i =>
    let a := t + 8 * i
    let e := leVal (s.homeBytes (frameKey p a) 8)
    if !e.testBit 0 then [] else (a, e) :: (if e.testBit 1 then s2Entries s p rest (bits e 55 8 * 256) else [])

/-- Units of a partition by class. -/
def unitCount (s : State) (p : Nat) (c : CoreClass) : Nat := ((unitsOf s p).filter fun u => s.classOf u.1 = c).length

/-- A measurement block; block 0 is the interface report of R469. -/
def measurement (s : State) (v block : Nat) : List Byte :=
  let f := s.vf v
  let p := f.part
  match block with
  | 0 => leBytes 8 131072 ++ leBytes 8 p ++ leBytes 8 v ++ leBytes 8 (unitCount s p .wide) ++ leBytes 8 (unitCount s p .half)
      ++ leBytes 8 (unitCount s p .lean) ++ leBytes 8 (capCode (s.part p).cap) ++ leBytes 8 f.stash ++ leBytes 8 f.gen
  | 1 => Config.digest384 Config.bootRom
  | 2 => Config.digest384 ((bootImages s.flash).elim [] (·.1.code))
  | 3 => Config.digest384 ((bootImages s.flash).elim [] (·.2.code))
  | 4 => ((List.range 8).flatMap fun d => leBytes 8 (readPart s p d))
      ++ (((List.range 192).filter fun e => (s.assign e).own0 = p || ((s.assign e).split && (s.assign e).own1 = p)).flatMap
        fun e => leBytes 8 (readAssign s e))
  | 5 =>
    let es := (s2Entries s p levels f.s2root.toNat).foldl (fun (t : Tab Nat) e => tset 0 t e.1 e.2) []
    ((List.range 8).flatMap fun d => leBytes 8 (readVfEntry f d)) ++ Config.digest384 (es.flatMap fun e => leBytes 8 e.2)
  | 6 => (s.queues.filter (·.2.vf = v)).flatMap fun e => leBytes 8 (readQueue e.2 8)
  | _ => []

/-- The next leaf of the alias key goes to flash before the signature is released; an exhausted key is replaced and certified. -/
def nextLeaf (f : Flash) : Flash :=
  if f.aliasLeaf < 1024 then { f with aliasLeaf := f.aliasLeaf + 1 }
  else { f with aliasLeaf := 1, aliasGen := f.aliasGen + 1, deviceLeaf := f.deviceLeaf + 1 }

/-- SPDM_REQUEST: the block of the VF whose TDI is bound to the session, and its signature. -/
def execSpdmRequest (s : State) : Out :=
  .next (match s.input with
    | some (.spdmRequest v block) =>
      let f := nextLeaf s.flash
      let leaf := f.aliasLeaf - 1
      let m := measurement s v block
      { s with flash := f, outbox := s.outbox ++ [.spdm v block leaf (m ++ Config.signature f.aliasGen leaf m)] }
    | _ => s)

/-! ### Debug (R470 to R472) -/

/-- DEBUG_UNLOCK. -/
def execDebugUnlock (s : State) : Out :=
  .next (match s.input with
    | some (.debugUnlock v) => { s with plat := { s.plat with unlock := s.plat.unlock ||| word (2 ^ v) } }
    | _ => s)

/-- DEBUG_RELOCK. -/
def execDebugRelock (s : State) : Out :=
  .next (match s.input with
    | some (.debugRelock v) => relock v s
    | _ => s)

/-- Whether the debug registers of a VF act (R470). -/
def debugOpen (s : State) (v : Nat) : Bool := s.plat.unlock.getLsbD v

/-- DBGCTL_STOP: resident crews are asked to stop with eager switches, and every crew of the VF is held. -/
def dbgStop (v : Nat) (s : State) : State :=
  let s := (vfCrews s v (· ≠ .ended)).foldl (fun s c => s.modCrew c fun c => { c with dbgHold := true, wantLazy := false }) s
  (vfCrews s v (· = .resident)).foldl (fun s c => preemptRequest c s) s

def execDbgctlStop (s : State) : Out :=
  .next (match s.input with
    | some (.dbgctlStop v) => if debugOpen s v then dbgStop v s else s
    | _ => s)

/-- DBGCTL_CONT. -/
def execDbgctlCont (s : State) : Out :=
  .next (match s.input with
    | some (.dbgctlCont v) =>
      if debugOpen s v then (vfCrews s v (· ≠ .ended)).foldl (fun s c => s.modCrew c fun c => { c with dbgHold := false }) s else s
    | _ => s)

/-- The context of a debug access: SUP, through the VF's translation. -/
def debugCtx (s : State) (v : Nat) : Ctx := { vf := v, part := (s.vf v).part, app := false, steward := false, engine := true }

/-- The 8 bytes at DBGADDR; an access that faults, stalls or meets poison reads zero. -/
def debugRead (s : State) (v : Nat) : Word :=
  let a := s.plat.dbgaddr.toNat
  let c := debugCtx s v
  if a % 8 ≠ 0 then 0
  else match translate s c .rd a with
    | .ok (.cell k) => if s.poisoned k 8 then 0 else word (leVal (s.homeBytes k 8))
    | .ok (.reg sp o) => readReg s sp o
    | .ok (.plain w f o) => match decodeInto c [(w, f, o / 64)] s with
      | .ok t => word (leVal (plainBytes t w f o 8))
      | _ => 0
    | _ => 0

/-- DBGDATA_READ. -/
def execDbgdataRead (s : State) : Out :=
  .next (match s.input with
    | some .dbgdataRead =>
      if debugOpen s s.plat.dbgvf then { s with plat := { s.plat with dbgdata := debugRead s s.plat.dbgvf } } else s
    | _ => s)

/-- Whether a virtual address lies in the save arena of a VF (R419). -/
def inArena (f : Vf) (a : Nat) : Bool := f.savebase.toNat ≤ a && a < f.savebase.toNat + f.savesize * 65536

/-- DBGDATA_WRITE: ignored inside the save arena, and where the access faults. -/
def dbgdataWrite (v : Word) (s : State) : State :=
  let a := s.plat.dbgaddr.toNat
  let n := s.plat.dbgvf
  if !debugOpen s n || a % 8 ≠ 0 || inArena (s.vf n) a then s
  else match translate s (debugCtx s n) .wr a with
    | .ok (.cell k) => homeWrite none none k (leBytes 8 v.toNat) s
    | .ok (.reg sp o) => { s with events := s.events ++ [regEvent s sp o v] }
    | _ => s

def execDbgdataWrite (s : State) : Out :=
  .next (match s.input with
    | some (.dbgdataWrite v) => dbgdataWrite v s
    | _ => s)

/-! ### Other registers (R409) -/

def writeRas (off : Nat) (v : Word) (s : State) : State :=
  let r := s.ras
  if 0x12000 ≤ off && off < 0x13000 then
    { s with assayer := { s.assayer with manifest := tset 0 s.assayer.manifest ((off - 0x12000) / 8) (v &&& 0xFFFFFFFFFFFFFFC1) } }
  else match off with
    | 0x10000 => { s with ras := { r with cethr := bitsOf v 31 16, automap := v.getLsbD 0 } }
    | 0x10008 => { s with ras := { r with casienRing := { r.casienRing with base := word (bitsOf v 63 12 * 4096) } } }
    | 0x10018 => { s with ras := { r with hostRing := { r.hostRing with base := word (bitsOf v 63 12 * 4096) } } }
    | 0x11000 => { s with assayer := { s.assayer with en := v.getLsbD 8, k := min 20 (bitsOf v 4 0) } }
    | 0x13000 => { s with ras := { r with
        mapCore := bitsOf v 11 0, mapGroup := bitsOf v 14 12, mapOp := bitsOf v 17 16, mapErr := r.mapErr || v.getLsbD 31 } }
    | 0x14000 => { s with ras := { r with gangtag := v } }
    | 0x15000 =>
      let arm : List Event := if v.getLsbD 0 then [.limnerArm] else []
      let fire : List Event := if v.getLsbD 1 then [.limnerFire] else []
      { s with
        limner := { s.limner with bcast := v.getLsbD 8, src := BitVec.ofNat 4 (bitsOf v 7 4) }
        events := arm ++ fire ++ s.events }
    | 0x15008 => { s with limner := { s.limner with cyc := v, ahead := s.cycle ≤ v.toNat } }
    | _ => s

/-- One dword of an export entry. -/
def exportDword (hi : Bool) (v : Word) (x : Export) : Export :=
  if hi then { x with base := bitsOf v 63 32, size := bitsOf v 31 0 }
  else { x with valid := v.getLsbD 63, srcdev := bitsOf v 55 48, srcpart := bitsOf v 47 42, part := bitsOf v 41 36 }

/-- DBGUNLOCK: the VFs whose bit falls are locked again. -/
def writeUnlock (v : Word) (s : State) : State :=
  let fall := (List.range 64).filter fun i => s.plat.unlock.getLsbD i && !v.getLsbD i
  let s := fall.foldl (fun s i => relock i s) s
  { s with plat := { s.plat with unlock := v } }

def writePlatform (off : Nat) (v : Word) (s : State) : State :=
  let p := s.plat
  if 0x1800 ≤ off && off < 0x2000 then
    let d := (off - 0x1800) / 8
    linkBack { s with
      plat := { p with routes := tset 0 p.routes d (word (bitsOf v 23 0)) }
      unreachable := if bitsOf v 23 0 = 0 then s.unreachable else s.unreachable.filter (· ≠ d) }
  else if 0x2000 ≤ off && off < 0x2400 then
    { s with plat := { p with exports := tmod {} p.exports ((off - 0x2000) / 16) (exportDword (off % 16 = 8) v) } }
  else if off = 0x3000 then writeUnlock v s
  else if 0x4020 ≤ off && off < 0x4080 then
    modSteward ((off - 0x4000) / 32) (fun r => match off % 32 with
      | 0 => { r with desc := word (bitsOf v 63 6 * 64) }
      | 8 => { r with args := v }
      | 16 => { r with vec := v }
      | _ => r) s
  else s

/-- Writes of the debug function (R471); all but DBGVF are ignored while the VF is locked. -/
def writeDebug (off : Nat) (v : Word) (s : State) : State :=
  if off = 0 then { s with plat := { s.plat with dbgvf := bitsOf v 5 0 } }
  else if !debugOpen s s.plat.dbgvf then s
  else match off with
    | 0x8 =>
      let n := s.plat.dbgvf
      let stop : List Event := if v.getLsbD 0 then [.dbgctlStop n] else []
      let cont : List Event := if v.getLsbD 1 then [.dbgctlCont n] else []
      let s := s.modVf n fun f => { f with stopbrk := v.getLsbD 2 }
      { s with events := stop ++ cont ++ s.events }
    | 0x18 => { s with plat := { s.plat with dbgaddr := v } }
    | _ => s

/-- REGISTER_WRITE: a write to a register that has no row of its own; a register that is read-only or absent ignores it. -/
def registerWrite (sp : Space) (off : Nat) (v : Word) (s : State) : State :=
  match sp with
  | .hyp => writeHyp off v s
  | .vf f => writeVf f off v s
  | .ras => writeRas off v s
  | .platform => writePlatform off v s
  | .debug => writeDebug off v s

def execRegisterWrite (s : State) : Out :=
  .next (match s.input with
    | some (.registerWrite sp off v) => registerWrite sp off v s
    | _ => s)

end Sys2Proof.Machine
end

