-- ==== Sys2Proof/Machine/Dispatch.lean ====
section
/-! DEFINITION. The dispatch of one instruction, or of the row of an event, to its meaning. -/

namespace Sys2Proof.Machine
open Sys2Proof

def exec (i : Instr) (s : State) : Host.Outcome State Fault Refusal :=
  match i with
  | .nop => Sys2Proof.Machine.execNop s
  | .add w d a b => Sys2Proof.Machine.execAdd w d a b s
  | .sub w d a b => Sys2Proof.Machine.execSub w d a b s
  | .and w d a b => Sys2Proof.Machine.execAnd w d a b s
  | .or w d a b => Sys2Proof.Machine.execOr w d a b s
  | .xor w d a b => Sys2Proof.Machine.execXor w d a b s
  | .shl w d a b => Sys2Proof.Machine.execShl w d a b s
  | .shr w d a b => Sys2Proof.Machine.execShr w d a b s
  | .sra w d a b => Sys2Proof.Machine.execSra w d a b s
  | .min w u d a b => Sys2Proof.Machine.execMin w u d a b s
  | .max w u d a b => Sys2Proof.Machine.execMax w u d a b s
  | .seq w d a b => Sys2Proof.Machine.execSeq w d a b s
  | .slt w d a b => Sys2Proof.Machine.execSlt w d a b s
  | .sltu w d a b => Sys2Proof.Machine.execSltu w d a b s
  | .sel d a b c => Sys2Proof.Machine.execSel d a b c s
  | .lea n d a b => Sys2Proof.Machine.execLea n d a b s
  | .leaImm n d a b imm => Sys2Proof.Machine.execLeaImm n d a b imm s
  | .mul w d a b => Sys2Proof.Machine.execMul w d a b s
  | .mulh w u d a b => Sys2Proof.Machine.execMulh w u d a b s
  | .div w u d a b => Sys2Proof.Machine.execDiv w u d a b s
  | .rem w u d a b => Sys2Proof.Machine.execRem w u d a b s
  | .clz w d a => Sys2Proof.Machine.execClz w d a s
  | .popc w d a => Sys2Proof.Machine.execPopc w d a s
  | .sext x d a => Sys2Proof.Machine.execSext x d a s
  | .zext x d a => Sys2Proof.Machine.execZext x d a s
  | .addi w d a imm => Sys2Proof.Machine.execAddi w d a imm s
  | .li hi d a imm => Sys2Proof.Machine.execLi hi d a imm s
  | .fadd t rm nb d a b => Sys2Proof.Machine.execFadd t rm nb d a b s
  | .fmul t rm np d a b => Sys2Proof.Machine.execFmul t rm np d a b s
  | .ffma t rm np nc d a b c => Sys2Proof.Machine.execFfma t rm np nc d a b c s
  | .fcvt dt src rm d a => Sys2Proof.Machine.execFcvt dt src rm d a s
  | .br off hi => Sys2Proof.Machine.execBr off hi s
  | .beq d a off hi => Sys2Proof.Machine.execBeq d a off hi s
  | .bne d a off hi => Sys2Proof.Machine.execBne d a off hi s
  | .blt d a off hi => Sys2Proof.Machine.execBlt d a off hi s
  | .bge d a off hi => Sys2Proof.Machine.execBge d a off hi s
  | .bltu d a off hi => Sys2Proof.Machine.execBltu d a off hi s
  | .bgeu d a off hi => Sys2Proof.Machine.execBgeu d a off hi s
  | .call d off hi => Sys2Proof.Machine.execCall d off hi s
  | .ret a => Sys2Proof.Machine.execRet a s
  | .jr d a => Sys2Proof.Machine.execJr d a s
  | .mfs d n => Sys2Proof.Machine.execMfs d n s
  | .mts n a => Sys2Proof.Machine.execMts n a s
  | .trap a code detail => Sys2Proof.Machine.execTrap a code detail s
  | .tret mode => Sys2Proof.Machine.execTret mode s
  | .brk n => Sys2Proof.Machine.execBrk n s
  | .sysc n => Sys2Proof.Machine.execSysc n s
  | .yield => Sys2Proof.Machine.execYield s
  | .halt => Sys2Proof.Machine.execHalt s
  | .idle a => Sys2Proof.Machine.execIdle a s
  | .join b => Sys2Proof.Machine.execJoin b s
  | .leave b => Sys2Proof.Machine.execLeave b s
  | .bsync b => Sys2Proof.Machine.execBsync b s
  | .gbar => Sys2Proof.Machine.execGbar s
  | .elect d b => Sys2Proof.Machine.execElect d b s
  | .regclm n => Sys2Proof.Machine.execRegclm n s
  | .regrel n => Sys2Proof.Machine.execRegrel n s
  | .wqry a => Sys2Proof.Machine.execWqry a s
  | .wqryImm a imm => Sys2Proof.Machine.execWqryImm a imm s
  | .launch d a b => Sys2Proof.Machine.execLaunch d a b s
  | .launchImm d a b imm => Sys2Proof.Machine.execLaunchImm d a b imm s
  | .vsave a => Sys2Proof.Machine.execVsave a s
  | .vsaveImm a imm => Sys2Proof.Machine.execVsaveImm a imm s
  | .vrestore a => Sys2Proof.Machine.execVrestore a s
  | .vrestoreImm a imm => Sys2Proof.Machine.execVrestoreImm a imm s
  | .scrub csp tile reg ll d a => Sys2Proof.Machine.execScrub csp tile reg ll d a s
  | .ld wd u sp acq sc d a => Sys2Proof.Machine.execLd wd u sp acq sc d a s
  | .ldImm wd u sp acq sc d a imm => Sys2Proof.Machine.execLdImm wd u sp acq sc d a imm s
  | .st wd sp rel sc a b => Sys2Proof.Machine.execSt wd sp rel sc a b s
  | .stImm wd sp rel sc a b imm => Sys2Proof.Machine.execStImm wd sp rel sc a b imm s
  | .amo op dbl ord d a b => Sys2Proof.Machine.execAmo op dbl ord d a b s
  | .amoCas dbl ord d a b c => Sys2Proof.Machine.execAmoCas dbl ord d a b c s
  | .fence sem sc => Sys2Proof.Machine.execFence sem sc s
  | .stwin w d a b => Sys2Proof.Machine.execStwin w d a b s
  | .stflush w => Sys2Proof.Machine.execStflush w s
  | .stinv discard w => Sys2Proof.Machine.execStinv discard w s
  | .dcfence a => Sys2Proof.Machine.execDcfence a s
  | .dcfenceImm a imm => Sys2Proof.Machine.execDcfenceImm a imm s
  | .vadd t sat d a y m => Sys2Proof.Machine.execVadd t sat d a y m s
  | .vaddImm t sat d a imm m => Sys2Proof.Machine.execVaddImm t sat d a imm m s
  | .vsub t sat d a y m => Sys2Proof.Machine.execVsub t sat d a y m s
  | .vsubImm t sat d a imm m => Sys2Proof.Machine.execVsubImm t sat d a imm m s
  | .vmul t d a y m => Sys2Proof.Machine.execVmul t d a y m s
  | .vmulImm t d a imm m => Sys2Proof.Machine.execVmulImm t d a imm m s
  | .vmulh t d a y m => Sys2Proof.Machine.execVmulh t d a y m s
  | .vmulhImm t d a imm m => Sys2Proof.Machine.execVmulhImm t d a imm m s
  | .vmin t d a y m => Sys2Proof.Machine.execVmin t d a y m s
  | .vminImm t d a imm m => Sys2Proof.Machine.execVminImm t d a imm m s
  | .vmax t d a y m => Sys2Proof.Machine.execVmax t d a y m s
  | .vmaxImm t d a imm m => Sys2Proof.Machine.execVmaxImm t d a imm m s
  | .vand t d a y m => Sys2Proof.Machine.execVand t d a y m s
  | .vandImm t d a imm m => Sys2Proof.Machine.execVandImm t d a imm m s
  | .vor t d a y m => Sys2Proof.Machine.execVor t d a y m s
  | .vorImm t d a imm m => Sys2Proof.Machine.execVorImm t d a imm m s
  | .vxor t d a y m => Sys2Proof.Machine.execVxor t d a y m s
  | .vxorImm t d a imm m => Sys2Proof.Machine.execVxorImm t d a imm m s
  | .vshl t d a y m => Sys2Proof.Machine.execVshl t d a y m s
  | .vshlImm t d a imm m => Sys2Proof.Machine.execVshlImm t d a imm m s
  | .vshr t d a y m => Sys2Proof.Machine.execVshr t d a y m s
  | .vshrImm t d a imm m => Sys2Proof.Machine.execVshrImm t d a imm m s
  | .vsra t d a y m => Sys2Proof.Machine.execVsra t d a y m s
  | .vsraImm t d a imm m => Sys2Proof.Machine.execVsraImm t d a imm m s
  | .vfadd t rm d a y m => Sys2Proof.Machine.execVfadd t rm d a y m s
  | .vfaddImm t rm d a imm m => Sys2Proof.Machine.execVfaddImm t rm d a imm m s
  | .vfsub t rm d a y m => Sys2Proof.Machine.execVfsub t rm d a y m s
  | .vfsubImm t rm d a imm m => Sys2Proof.Machine.execVfsubImm t rm d a imm m s
  | .vfmul t rm np d a y m => Sys2Proof.Machine.execVfmul t rm np d a y m s
  | .vfmulImm t rm np d a imm m => Sys2Proof.Machine.execVfmulImm t rm np d a imm m s
  | .vffma t rm np nc d a y m => Sys2Proof.Machine.execVffma t rm np nc d a y m s
  | .vffmaImm t rm np nc d a imm m => Sys2Proof.Machine.execVffmaImm t rm np nc d a imm m s
  | .vfmin t rm d a y m => Sys2Proof.Machine.execVfmin t rm d a y m s
  | .vfminImm t rm d a imm m => Sys2Proof.Machine.execVfminImm t rm d a imm m s
  | .vfmax t rm d a y m => Sys2Proof.Machine.execVfmax t rm d a y m s
  | .vfmaxImm t rm d a imm m => Sys2Proof.Machine.execVfmaxImm t rm d a imm m s
  | .vfdiv t rm d a y m => Sys2Proof.Machine.execVfdiv t rm d a y m s
  | .vfdivImm t rm d a imm m => Sys2Proof.Machine.execVfdivImm t rm d a imm m s
  | .vfsqrt t rm d a m => Sys2Proof.Machine.execVfsqrt t rm d a m s
  | .vfrsq t rm d a m => Sys2Proof.Machine.execVfrsq t rm d a m s
  | .vfexp2 t rm d a m => Sys2Proof.Machine.execVfexp2 t rm d a m s
  | .vflog2 t rm d a m => Sys2Proof.Machine.execVflog2 t rm d a m s
  | .vcvt dt src mode d a m => Sys2Proof.Machine.execVcvt dt src mode d a m s
  | .vlmul t d a b m => Sys2Proof.Machine.execVlmul t d a b m s
  | .vlmulGiven t g d a b m => Sys2Proof.Machine.execVlmulGiven t g d a b m s
  | .vladd t d a b m => Sys2Proof.Machine.execVladd t d a b m s
  | .vladdGiven t g d a b m => Sys2Proof.Machine.execVladdGiven t g d a b m s
  | .vsetvl pad d a => Sys2Proof.Machine.execVsetvl pad d a s
  | .vsetvlType pad d a vt => Sys2Proof.Machine.execVsetvlType pad d a vt s
  | .vsettype a => Sys2Proof.Machine.execVsettype a s
  | .vsettypeImm vt => Sys2Proof.Machine.execVsettypeImm vt s
  | .vcmp cc t z d a y m => Sys2Proof.Machine.execVcmp cc t z d a y m s
  | .vcmpImm cc t z d a imm m => Sys2Proof.Machine.execVcmpImm cc t z d a imm m s
  | .mand d a b => Sys2Proof.Machine.execMand d a b s
  | .mor d a b => Sys2Proof.Machine.execMor d a b s
  | .mxor d a b => Sys2Proof.Machine.execMxor d a b s
  | .mnot d a => Sys2Proof.Machine.execMnot d a s
  | .mpop d a m => Sys2Proof.Machine.execMpop d a m s
  | .mfirst d a m => Sys2Proof.Machine.execMfirst d a m s
  | .vif neg a => Sys2Proof.Machine.execVif neg a s
  | .velse => Sys2Proof.Machine.execVelse s
  | .vend => Sys2Proof.Machine.execVend s
  | .vsel t d a y m => Sys2Proof.Machine.execVsel t d a y m s
  | .vselImm t d a imm m => Sys2Proof.Machine.execVselImm t d a imm m s
  | .vperm t d a b m => Sys2Proof.Machine.execVperm t d a b m s
  | .vslideup t d a b m => Sys2Proof.Machine.execVslideup t d a b m s
  | .vslideupImm t d a imm m => Sys2Proof.Machine.execVslideupImm t d a imm m s
  | .vslidedn t d a b m => Sys2Proof.Machine.execVslidedn t d a b m s
  | .vslidednImm t d a imm m => Sys2Proof.Machine.execVslidednImm t d a imm m s
  | .vbcast t d a b m => Sys2Proof.Machine.execVbcast t d a b m s
  | .vbcastImm t d a imm m => Sys2Proof.Machine.execVbcastImm t d a imm m s
  | .vcompress t d x a c m => Sys2Proof.Machine.execVcompress t d x a c m s
  | .vexpand t d a m => Sys2Proof.Machine.execVexpand t d a m s
  | .viota t d a m => Sys2Proof.Machine.execViota t d a m s
  | .vmov t d y m => Sys2Proof.Machine.execVmov t d y m s
  | .vmovImm t d imm m => Sys2Proof.Machine.execVmovImm t d imm m s
  | .vmovs t op b => Sys2Proof.Machine.execVmovs t op b s
  | .vmovsImm t op imm => Sys2Proof.Machine.execVmovsImm t op imm s
  | .vid t d m => Sys2Proof.Machine.execVid t d m s
  | .vredsum t d a b m => Sys2Proof.Machine.execVredsum t d a b m s
  | .vredmax t d a b m => Sys2Proof.Machine.execVredmax t d a b m s
  | .vredmin t d a b m => Sys2Proof.Machine.execVredmin t d a b m s
  | .vany d a m => Sys2Proof.Machine.execVany d a m s
  | .vall d a m => Sys2Proof.Machine.execVall d a m s
  | .vld t sp d a b m => Sys2Proof.Machine.execVld t sp d a b m s
  | .vldImm t sp d a b imm m => Sys2Proof.Machine.execVldImm t sp d a b imm m s
  | .vst t sp d a b m => Sys2Proof.Machine.execVst t sp d a b m s
  | .vstImm t sp d a b imm m => Sys2Proof.Machine.execVstImm t sp d a b imm m s
  | .vlds t sp d a b m => Sys2Proof.Machine.execVlds t sp d a b m s
  | .vldsImm t sp d a b imm m => Sys2Proof.Machine.execVldsImm t sp d a b imm m s
  | .vsts t sp d a b m => Sys2Proof.Machine.execVsts t sp d a b m s
  | .vstsImm t sp d a b imm m => Sys2Proof.Machine.execVstsImm t sp d a b imm m s
  | .vldseg nf t sp d a m => Sys2Proof.Machine.execVldseg nf t sp d a m s
  | .vldsegImm nf t sp d a imm m => Sys2Proof.Machine.execVldsegImm nf t sp d a imm m s
  | .vstseg nf t sp d a m => Sys2Proof.Machine.execVstseg nf t sp d a m s
  | .vstsegImm nf t sp d a imm m => Sys2Proof.Machine.execVstsegImm nf t sp d a imm m s
  | .vgather t sp d a b m => Sys2Proof.Machine.execVgather t sp d a b m s
  | .vgatherBounded t sp d a b c m => Sys2Proof.Machine.execVgatherBounded t sp d a b c m s
  | .vscatter t sp d a b m => Sys2Proof.Machine.execVscatter t sp d a b m s
  | .vscatterBounded t sp d a b c m => Sys2Proof.Machine.execVscatterBounded t sp d a b c m s
  | .vgatherL t d a b m => Sys2Proof.Machine.execVgatherL t d a b m s
  | .vgatherLBounded t d a b c m => Sys2Proof.Machine.execVgatherLBounded t d a b c m s
  | .vscatterC t md d a b m => Sys2Proof.Machine.execVscatterC t md d a b m s
  | .vscatterCBounded t md d a b c m => Sys2Proof.Machine.execVscatterCBounded t md d a b c m s
  | .vldFe t take d a m => Sys2Proof.Machine.execVldFe t take d a m s
  | .vldFeImm t take d a imm m => Sys2Proof.Machine.execVldFeImm t take d a imm m s
  | .vstFe t d a m => Sys2Proof.Machine.execVstFe t d a m s
  | .vstFeImm t d a imm m => Sys2Proof.Machine.execVstFeImm t d a imm m s
  | .cvld t d a b m => Sys2Proof.Machine.execCvld t d a b m s
  | .cvldImm t d a b imm m => Sys2Proof.Machine.execCvldImm t d a b imm m s
  | .lldx t d a m => Sys2Proof.Machine.execLldx t d a m s
  | .lldxImm t d a imm m => Sys2Proof.Machine.execLldxImm t d a imm m s
  | .lstx t d a m => Sys2Proof.Machine.execLstx t d a m s
  | .lstxImm t d a imm m => Sys2Proof.Machine.execLstxImm t d a imm m s
  | .spclr zero a b => Sys2Proof.Machine.execSpclr zero a b s
  | .spclrImm zero a b imm => Sys2Proof.Machine.execSpclrImm zero a b imm s
  | .awin t op a b imm => Sys2Proof.Machine.execAwin t op a b imm s
  | .aupd a b m => Sys2Proof.Machine.execAupd a b m s
  | .amerge => Sys2Proof.Machine.execAmerge s
  | .vwait cc t sp tmo d a b c m => Sys2Proof.Machine.execVwait cc t sp tmo d a b c m s
  | .settile t d a b c => Sys2Proof.Machine.execSettile t d a b c s
  | .tld t sp role d a b => Sys2Proof.Machine.execTld t sp role d a b s
  | .tldLns6 t sp role d a b c stride => Sys2Proof.Machine.execTldLns6 t sp role d a b c stride s
  | .tldE t role sb d a b => Sys2Proof.Machine.execTldE t role sb d a b s
  | .tldELns6 t role sb d a b c stride => Sys2Proof.Machine.execTldELns6 t role sb d a b c stride s
  | .tst t sp d a b => Sys2Proof.Machine.execTst t sp d a b s
  | .tstLns6 t sp d a b c stride => Sys2Proof.Machine.execTstLns6 t sp d a b c stride s
  | .tldg t role d a b c m => Sys2Proof.Machine.execTldg t role d a b c m s
  | .mmaO t ua ub z d a b => Sys2Proof.Machine.execMmaO t ua ub z d a b s
  | .mmaR t ua ub z d a b => Sys2Proof.Machine.execMmaR t ua ub z d a b s
  | .zld t sp d a b => Sys2Proof.Machine.execZld t sp d a b s
  | .zldImm t sp d a b imm => Sys2Proof.Machine.execZldImm t sp d a b imm s
  | .zst t sp rm d a b => Sys2Proof.Machine.execZst t sp rm d a b s
  | .zstImm t sp rm d a b imm => Sys2Proof.Machine.execZstImm t sp rm d a b imm s
  | .zclr f d => Sys2Proof.Machine.execZclr f d s
  | .tcopy gr bv sb d a b c => Sys2Proof.Machine.execTcopy gr bv sb d a b c s
  | .tcopyo gr d a b c => Sys2Proof.Machine.execTcopyo gr d a b c s
  | .tdfence a => Sys2Proof.Machine.execTdfence a s
  | .sbinit b a => Sys2Proof.Machine.execSbinit b a s
  | .sbexp b a => Sys2Proof.Machine.execSbexp b a s
  | .sbwait fr b d a => Sys2Proof.Machine.execSbwait fr b d a s
  | .sbrel b => Sys2Proof.Machine.execSbrel b s
  | .colred t op bv sb len d a c => Sys2Proof.Machine.execColred t op bv sb len d a c s
  | .colbcast bv sb len root d a c => Sys2Proof.Machine.execColbcast bv sb len root d a c s
  | .colwait => Sys2Proof.Machine.execColwait s
  | .hpop nb h d c => Sys2Proof.Machine.execHpop nb h d c s
  | .gadd rel h d a b => Sys2Proof.Machine.execGadd rel h d a b s
  | .gset rel h d a b => Sys2Proof.Machine.execGset rel h d a b s
  | .hgrow h d a => Sys2Proof.Machine.execHgrow h d a s
  | .hdone rel h a => Sys2Proof.Machine.execHdone rel h a s
  | .hres sel h d => Sys2Proof.Machine.execHres sel h d s
  | .lineFetch => Sys2Proof.Machine.execLineFetch s
  | .trapEntry => Sys2Proof.Machine.execTrapEntry s
  | .vectorGroupIssue => Sys2Proof.Machine.execVectorGroupIssue s
  | .promotion => Sys2Proof.Machine.execPromotion s
  | .loadReply => Sys2Proof.Machine.execLoadReply s
  | .loadReplyAbandon => Sys2Proof.Machine.execLoadReplyAbandon s
  | .regclmGrant => Sys2Proof.Machine.execRegclmGrant s
  | .rowsFreed => Sys2Proof.Machine.execRowsFreed s
  | .regDeadlockDeclare => Sys2Proof.Machine.execRegDeadlockDeclare s
  | .regDeadlockTrap => Sys2Proof.Machine.execRegDeadlockTrap s
  | .strandDrained => Sys2Proof.Machine.execStrandDrained s
  | .heapWriteBack => Sys2Proof.Machine.execHeapWriteBack s
  | .gridComplete => Sys2Proof.Machine.execGridComplete s
  | .crewWatchdogExpire => Sys2Proof.Machine.execCrewWatchdogExpire s
  | .idleDeadline => Sys2Proof.Machine.execIdleDeadline s
  | .wqryService => Sys2Proof.Machine.execWqryService s
  | .wqryReply => Sys2Proof.Machine.execWqryReply s
  | .feAccessPerform => Sys2Proof.Machine.execFeAccessPerform s
  | .vwaitLaneMet => Sys2Proof.Machine.execVwaitLaneMet s
  | .vwaitTimeout => Sys2Proof.Machine.execVwaitTimeout s
  | .tcopyGranuleLand => Sys2Proof.Machine.execTcopyGranuleLand s
  | .tldEEngineRelease => Sys2Proof.Machine.execTldEEngineRelease s
  | .collectiveArm => Sys2Proof.Machine.execCollectiveArm s
  | .collectiveComplete => Sys2Proof.Machine.execCollectiveComplete s
  | .hpopWake => Sys2Proof.Machine.execHpopWake s
  | .heapBind => Sys2Proof.Machine.execHeapBind s
  | .qwidxWrite => Sys2Proof.Machine.execQwidxWrite s
  | .qstatClear => Sys2Proof.Machine.execQstatClear s
  | .queueEnable => Sys2Proof.Machine.execQueueEnable s
  | .queueDisable => Sys2Proof.Machine.execQueueDisable s
  | .launchRecordRead => Sys2Proof.Machine.execLaunchRecordRead s
  | .gridReady => Sys2Proof.Machine.execGridReady s
  | .dependencePoll => Sys2Proof.Machine.execDependencePoll s
  | .crewDispatch => Sys2Proof.Machine.execCrewDispatch s
  | .yieldThreshold => Sys2Proof.Machine.execYieldThreshold s
  | .priorityPreempt => Sys2Proof.Machine.execPriorityPreempt s
  | .preemptRequest => Sys2Proof.Machine.execPreemptRequest s
  | .stripWaitExpire => Sys2Proof.Machine.execStripWaitExpire s
  | .drainWaitExpire => Sys2Proof.Machine.execDrainWaitExpire s
  | .stateCapture => Sys2Proof.Machine.execStateCapture s
  | .saveEngineWrite => Sys2Proof.Machine.execSaveEngineWrite s
  | .crewResume => Sys2Proof.Machine.execCrewResume s
  | .guardBandStart => Sys2Proof.Machine.execGuardBandStart s
  | .quantumEnd => Sys2Proof.Machine.execQuantumEnd s
  | .quantumStart => Sys2Proof.Machine.execQuantumStart s
  | .overrunKill => Sys2Proof.Machine.execOverrunKill s
  | .pageMove => Sys2Proof.Machine.execPageMove s
  | .freezeGo => Sys2Proof.Machine.execFreezeGo s
  | .freezePhaseDone => Sys2Proof.Machine.execFreezePhaseDone s
  | .freezeBcastReceive => Sys2Proof.Machine.execFreezeBcastReceive s
  | .freezeRelease => Sys2Proof.Machine.execFreezeRelease s
  | .invalidate => Sys2Proof.Machine.execInvalidate s
  | .s2Invalidate => Sys2Proof.Machine.execS2Invalidate s
  | .invalidateDone => Sys2Proof.Machine.execInvalidateDone s
  | .s2freplyRetry => Sys2Proof.Machine.execS2freplyRetry s
  | .s2freplyFail => Sys2Proof.Machine.execS2freplyFail s
  | .s2FaultTimeout => Sys2Proof.Machine.execS2FaultTimeout s
  | .s2fidxWrite => Sys2Proof.Machine.execS2fidxWrite s
  | .priResponse => Sys2Proof.Machine.execPriResponse s
  | .priTimeout => Sys2Proof.Machine.execPriTimeout s
  | .atsInvalidate => Sys2Proof.Machine.execAtsInvalidate s
  | .functionLevelReset => Sys2Proof.Machine.execFunctionLevelReset s
  | .stopInterface => Sys2Proof.Machine.execStopInterface s
  | .tdiLock => Sys2Proof.Machine.execTdiLock s
  | .tdiError => Sys2Proof.Machine.execTdiError s
  | .partitionEnable => Sys2Proof.Machine.execPartitionEnable s
  | .partitionDisable => Sys2Proof.Machine.execPartitionDisable s
  | .partitionStop => Sys2Proof.Machine.execPartitionStop s
  | .assignmentWrite => Sys2Proof.Machine.execAssignmentWrite s
  | .scrubComplete => Sys2Proof.Machine.execScrubComplete s
  | .memoryZero => Sys2Proof.Machine.execMemoryZero s
  | .memoryZeroDone => Sys2Proof.Machine.execMemoryZeroDone s
  | .vfEnable => Sys2Proof.Machine.execVfEnable s
  | .vfDisable => Sys2Proof.Machine.execVfDisable s
  | .vfpriClear => Sys2Proof.Machine.execVfpriClear s
  | .errorCorrected => Sys2Proof.Machine.execErrorCorrected s
  | .errorUncorrectable => Sys2Proof.Machine.execErrorUncorrectable s
  | .patrol => Sys2Proof.Machine.execPatrol s
  | .ebstatClear => Sys2Proof.Machine.execEbstatClear s
  | .noticeTailWrite => Sys2Proof.Machine.execNoticeTailWrite s
  | .ndropClear => Sys2Proof.Machine.execNdropClear s
  | .assayReplayDispatch => Sys2Proof.Machine.execAssayReplayDispatch s
  | .assayCompare => Sys2Proof.Machine.execAssayCompare s
  | .ascntClear => Sys2Proof.Machine.execAscntClear s
  | .mapoutGroup => Sys2Proof.Machine.execMapoutGroup s
  | .retireCore => Sys2Proof.Machine.execRetireCore s
  | .restoreCore => Sys2Proof.Machine.execRestoreCore s
  | .mapoutApply => Sys2Proof.Machine.execMapoutApply s
  | .stwdogWrite => Sys2Proof.Machine.execStwdogWrite s
  | .stewardWatchdogExpire => Sys2Proof.Machine.execStewardWatchdogExpire s
  | .gangPrepare => Sys2Proof.Machine.execGangPrepare s
  | .prepared => Sys2Proof.Machine.execPrepared s
  | .commit => Sys2Proof.Machine.execCommit s
  | .abort => Sys2Proof.Machine.execAbort s
  | .gangRefusal => Sys2Proof.Machine.execGangRefusal s
  | .gangPrepareTimeout => Sys2Proof.Machine.execGangPrepareTimeout s
  | .gangCommitTimeout => Sys2Proof.Machine.execGangCommitTimeout s
  | .lost => Sys2Proof.Machine.execLost s
  | .linkUnreachable => Sys2Proof.Machine.execLinkUnreachable s
  | .gangcmdDiscard => Sys2Proof.Machine.execGangcmdDiscard s
  | .gangcmdResume => Sys2Proof.Machine.execGangcmdResume s
  | .limnerArm => Sys2Proof.Machine.execLimnerArm s
  | .limnerFire => Sys2Proof.Machine.execLimnerFire s
  | .limnerCycleMatch => Sys2Proof.Machine.execLimnerCycleMatch s
  | .limnerLinkTrigger => Sys2Proof.Machine.execLimnerLinkTrigger s
  | .pwrlimWrite => Sys2Proof.Machine.execPwrlimWrite s
  | .pshareWrite => Sys2Proof.Machine.execPshareWrite s
  | .powerInterval => Sys2Proof.Machine.execPowerInterval s
  | .thermalTrip => Sys2Proof.Machine.execThermalTrip s
  | .thermalClear => Sys2Proof.Machine.execThermalClear s
  | .flitReceive => Sys2Proof.Machine.execFlitReceive s
  | .portRetrainTimeout => Sys2Proof.Machine.execPortRetrainTimeout s
  | .remoteAccess => Sys2Proof.Machine.execRemoteAccess s
  | .remoteLoadTimeout => Sys2Proof.Machine.execRemoteLoadTimeout s
  | .remoteStoreTimeout => Sys2Proof.Machine.execRemoteStoreTimeout s
  | .cxlDeviceFailure => Sys2Proof.Machine.execCxlDeviceFailure s
  | .deviceReset => Sys2Proof.Machine.execDeviceReset s
  | .stewardStart => Sys2Proof.Machine.execStewardStart s
  | .spdmRequest => Sys2Proof.Machine.execSpdmRequest s
  | .debugUnlock => Sys2Proof.Machine.execDebugUnlock s
  | .debugRelock => Sys2Proof.Machine.execDebugRelock s
  | .dbgctlStop => Sys2Proof.Machine.execDbgctlStop s
  | .dbgctlCont => Sys2Proof.Machine.execDbgctlCont s
  | .dbgdataRead => Sys2Proof.Machine.execDbgdataRead s
  | .dbgdataWrite => Sys2Proof.Machine.execDbgdataWrite s
  | .registerWrite => Sys2Proof.Machine.execRegisterWrite s
  | .mmaComplete => Sys2Proof.Machine.execMmaComplete s
  | .storePerformed => Sys2Proof.Machine.execStorePerformed s
  | .heapBindComplete => Sys2Proof.Machine.execHeapBindComplete s
  | .powerLoss => Sys2Proof.Machine.execPowerLoss s
  | .portRetrain => Sys2Proof.Machine.execPortRetrain s

end Sys2Proof.Machine
end

