-- ==== Sys2Proof/Machine/Issue.lean ====
section
/-! DEFINITION. The issue of one head: the line in use, decoding, the class of the core, and the interlocks (R93 to R95, R103,
R104); the device's own turn, in which an event that is enabled takes place, another strand is chosen, and time passes; and the
placing of a program's first line. -/

namespace Sys2Proof.Machine
open Sys2Proof

/-! ### One head -/

/-- Fetches the line of the PC where it is not in use. -/
def prepare (s : State) : State := if lineInUse s.me then s else lineFetch s

/-- The head of the PC and its tail. -/
def headIr (m : Strand) : Ir :=
  match m.line with
  | some l => headAt l.halfs (bitsOf m.pc 5 0)
  | none => {}

/-- R4, R116: what the Steward does not implement, from MAJ and FN alone. -/
def classLacks (m : Strand) (f : Coding.Fields) : Bool :=
  m.onSteward && (f.maj > 0x2F || (f.maj = 0x21 && f.fn ≤ 10))

/-- Whether a field that only the state's format makes reserved is not zero: unsigned operands of `mma` (R235), and the scales' register of
`vld`, `vst` and `cvld` (R207). -/
def stateReserved (m : Strand) (f : Coding.Fields) : Bool :=
  bits f.md 10 7 = 15 && ((f.maj = 0x70 && (f.fn = 5 || f.fn = 6) && bits f.md 6 5 ≠ 0 && m.gshape.fmt ≠ .int8)
    || (f.maj = 0x60 && (f.fn = 0 || f.fn = 3 || f.fn = 12) && f.b ≠ 0 && m.vtype.fmt ≠ .lns6))

/-- The DETAIL of an encoding that is refused (R103): the smallest that applies (R104). -/
def rejectDetail (m : Strand) (f : Coding.Fields) (r : Coding.Reject) : Nat :=
  if stateReserved m f then min 4 r.detail else r.detail

/-- Heads that issue while older work is queued (R262): of the front end alone, or for the queue. The others read or write what queued work
may still change, or have an effect outside the strand, which a trap of queued work must come before (R49, R50, R133). -/
def runsAhead (i : Instr) : Bool :=
  match i with
  | .vif .. | .velse | .vend => false
  | .mfs _ n => !drainedSys n
  | .mts n _ => n.val = 1 || n.val = 2 || n.val = 4
  | .yield | .halt | .idle _ | .regclm _ | .regrel _ | .mmaO .. | .mmaR .. => true
  | _ => let maj := (Coding.encodeFields i).maj
    maj ≤ 0x18 || (0x30 ≤ maj && maj ≤ 0x61)

/-- Heads that neither read nor write VL. -/
def ignoresVl (i : Instr) : Bool := (Coding.encodeFields i).maj ≤ 0x18

/-- Whether a head waits for the strand's queue: it may not run ahead, it names a scalar register that queued work writes (R96), or VL is
still to be written by a queued `vcompress`. -/
def awaitsQueue (i : Instr) (m : Strand) : Bool :=
  m.viq ≠ [] && (!runsAhead i || (m.viq.any fun o => (scalarDst o.instr).any fun d => d.val ≠ 0 && d ∈ scalarNames i)
    || (!ignoresVl i && m.viq.any fun o => writesVl o.instr))

/-- A decoded head: a strand that has been asked to stop may stop before it (R372), and it may have to wait for its queue, for operations of
its own that are outstanding (R95, R258), or for room in the tracker (R305); otherwise it executes. -/
def issue (i : Instr) (s : State) : Out :=
  match stripGate i s with
  | .stop strip => .next (stopStrand s.cur strip s)
  | .drain => .next (beginWait .drain s)
  | .go =>
    if awaitsQueue i s.me then .next (beginWait .viq s)
    else if interlocked i s then .next (beginWait .collective s)
    else if trackerFull i s then .next (beginWait .tracker s)
    else exec i s

/-- The head of the PC, of a line that is in use. -/
def runHead (s : State) : Out :=
  let ir := headIr s.me
  let s := s.modMe fun m => { m with ir := ir }
  let f := Coding.splitFields ir.head.toNat ir.tail.toNat
  if classLacks s.me f then .next (takeTrap (illegal 7) s)
  else match Coding.decodeHead ir.head.toNat ir.tail.toNat with
    | .ok c => issue c.insn s
    | .error r => .next (takeTrap (illegal (rejectDetail s.me f r)) s)

def runnable (m : Strand) : Bool := m.run = .running && m.wait = none

/-- One move of the current strand: a trap that is due, once the strand's older work is over (R133), or its next head. -/
def runMe (s : State) : Out :=
  if s.me.due.isSome then
    if s.me.viq ≠ [] then .next (beginWait .viq s)
    else if s.landing s.cur then .next (beginWait .collective s)
    else .next (takeDue s.cur (fun _ => true) s)
  else
    let t := prepare s
    if lineInUse t.me && runnable t.me then runHead t else .next t

/-- A posted write of the host reaches device memory, in the order in which the host has issued its writes (R303); without power it is
lost. -/
def hostWrite (k : Nat) (b : List Byte) (s : State) : State := if s.powered then homeWrite none none k b s else s

/-- An event takes place. -/
def runEvent (e : Event) (s : State) : Out := exec e.row { s with input := some e }

/-! ### The device's own turn -/

/-- The units that serve a strand's queue: the arithmetic and the memory pipeline of its core or half-core. -/
def unitsFor (m : Strand) : List Nat :=
  let u := m.core * 4 + m.half.toNat * 2
  if m.viq.any fun o => o.wait = none && !o.fin then [u, u + 1] else []

/-- What may end a wait of a strand. -/
def waitEvents (sid : Nat) : Wait → List Event
  | .loadReply => [.loadReply sid]
  | .mma => [.mmaComplete sid]
  | .fe .. => [.feAccessPerform sid, .crewWatchdogExpire sid]
  | .vwait .. => [.vwaitLaneMet sid, .vwaitTimeout sid, .crewWatchdogExpire sid]
  | .idle _ => [.idleDeadline sid]
  | .remote .. => [.remoteLoadTimeout sid]
  | .query => [.wqryReply sid]
  | _ => [.crewWatchdogExpire sid]

def strandEvents (e : Nat × Strand) : List Event :=
  let (sid, m) := e
  let waits := (unitsFor m).map Event.vectorGroupIssue ++ m.waits.flatMap (waitEvents sid)
  let stops : List Event := if m.stopReq then [.stripWaitExpire sid, .drainWaitExpire sid] else []
  let ends : List Event := if m.run = .halted then [.strandDrained sid] else []
  waits ++ stops ++ ends ++ (if m.due.isSome then [.regDeadlockTrap sid] else [])

def crewEvents (s : State) (e : Nat × Crew) : List Event :=
  let (cid, c) := e
  if c.state = .ended then []
  else
    let engines : List Event := (if c.landings ≠ [] then [.tcopyGranuleLand cid] else [])
      ++ (c.releases.map fun r => Event.tldEEngineRelease r.1)
    let pool : List Event := if c.claims ≠ [] || c.returning ≠ [] then [.rowsFreed cid, .regclmGrant cid, .regDeadlockDeclare cid] else []
    let life : List Event := match c.state with
      | .stopping => [.stateCapture cid]
      | _ => []
    engines ++ pool ++ life ++ (if c.lazy then [.saveEngineWrite cid] else [])
      ++ (if c.audited then (replayCores s (s.grid c.grid).part c.core).head?.toList.map (Event.assayReplayDispatch cid) else [])
      ++ (c.queries.map fun q => Event.wqryReply q.sid)

def gridEvents (e : Nat × Grid) : List Event :=
  if e.2.state = .complete then [.gridComplete e.1]
  else [.heapBind e.1, .gridReady e.1, .gangPrepare e.1, .wqryService e.1, .yieldThreshold e.1, .gridComplete e.1]

/-- What the device may do next by itself; each event takes place only where its condition holds. -/
def ownEvents (s : State) : List Event :=
  s.strands.flatMap strandEvents ++ s.crews.flatMap (crewEvents s) ++ s.grids.flatMap gridEvents
    ++ s.queues.flatMap (fun e => [.launchRecordRead e.1, .priorityPreempt e.1])
    ++ s.parts.flatMap (fun e =>
      [.crewDispatch e.1, .quantumEnd e.1, .quantumStart e.1, .guardBandStart e.1, .scrubComplete (.partition e.1)])
    ++ (s.assigns.filter (·.2.scrub)).map (fun e => .scrubComplete (.entry e.1))
    ++ s.heaps.flatMap (fun e => [.heapBindComplete e.1, .hpopWake e.1, .heapWriteBack e.1])
    ++ s.vfs.flatMap (fun e => [.overrunKill e.1, .invalidateDone (some e.1)] ++ e.2.pri.map fun p => .priTimeout e.1 p.idx)
    ++ [.invalidateDone none, .memoryZeroDone, .freezePhaseDone]
    ++ s.hyp.s2notices.map (fun n => .s2FaultTimeout n.id)
    ++ (s.cores.filter (·.2.req ≠ [])).map (fun e => .mapoutApply e.1)
    ++ s.gangs.flatMap (fun e => [.gangPrepareTimeout e.1, .gangCommitTimeout e.1])
    ++ s.colls.flatMap (fun x => [.collectiveArm x.part x.group [], .collectiveComplete x.part x.group])
    ++ (s.ports.filter (·.2.retrainFrom.isSome)).map (fun e => .portRetrainTimeout e.1)
    ++ (List.range s.rstores.length).map Event.remoteStoreTimeout
    ++ (if s.limner.ahead then [.limnerCycleMatch] else [])
    ++ s.sbuf.head?.toList.map (fun p => .storePerformed p.core 0)
    ++ [.stewardWatchdogExpire]

/-- The state after the first event of a list that changes anything. -/
def firstEnabled (s : State) : List Event → Option State
  | [] => none
  | e :: l =>
    match runEvent e s with
    | .next t => if t = { s with input := some e } then firstEnabled s l else some t
    | _ => firstEnabled s l

/-- A list from its element `k` on, then from its start. -/
def rotate {α : Type} (l : List α) (k : Nat) : List α := l.drop (k % l.length) ++ l.take (k % l.length)

/-- Strands whose release has waited for stores to other devices, which are all answered. -/
def wakeStored (s : State) : State :=
  s.strands.foldl (fun s e =>
    if .acks ∈ e.2.waits && !(s.rstores.any (·.core = e.2.core)) then wakeWaits e.1 (· = .acks) s else s) s

/-- The next strand that can move, in ascending order after the current one. -/
def nextStrand (s : State) : Option Nat :=
  let l := (s.strands.filter fun e => runnable e.2).map (·.1)
  let after := l.filter (· > s.cur)
  match after with
  | x :: t => some (t.foldl min x)
  | [] => match l with
    | x :: t => some (t.foldl min x)
    | [] => none

/-- When a wait that began at `t`, with `n` cycles counted before a pre-emption, may end by itself; `dog` is the crew's watchdog. -/
def waitDeadlines (dog t n : Nat) (w : Wait) : List Nat :=
  (match w with
    | .idle (some d) => [d]
    | .vwait _ _ (some d) => [d]
    | .remote .. => [t + Config.msCycles]
    | _ => []) ++ if w.blocking then [t + (dog - n)] else []

/-- Cycles at which something may fall due. -/
def deadlines (s : State) : List Nat :=
  s.strands.flatMap (fun (_, m) =>
    let dog := (s.grid (s.crew m.crew).grid).lrec.watchdog
    let req := (s.crew m.crew).reqAt
    (m.wait.toList.flatMap (waitDeadlines dog m.waitFrom m.waitCount))
      ++ (m.viq.flatMap fun o => o.wait.toList.flatMap (waitDeadlines dog o.waitFrom o.waitCount))
      ++ if m.stopReq then [req + 6000, req + 8000] else [])
    ++ s.hyp.s2notices.map (·.at_ + Config.answerCycles)
    ++ s.vfs.flatMap (fun e => e.2.pri.map (·.at_ + Config.answerCycles))
    ++ s.grids.flatMap (fun e => e.2.asks.map (·.1))
    ++ s.grids.flatMap (fun (g, x) => x.noRoom.toList.map (· + 1024)
      ++ (residentOf s g).flatMap fun e => (blockedSince s e.2).toList.map (· + x.lrec.yieldCycles))
    ++ s.gangs.flatMap (fun e => [e.2.since + 2 * Config.msCycles, e.2.since + 4 * Config.msCycles])
    ++ s.ports.flatMap (fun e => e.2.retrainFrom.toList.map (· + Config.msCycles))
    ++ s.rstores.map (·.at_ + Config.msCycles)
    ++ [s.ras.stwdogAt + 100 * Config.msCycles, s.limner.cyc.toNat]
    ++ s.parts.flatMap (fun (p, x) =>
      [quantumDeadline s p - 7520, quantumDeadline s p, x.qend + 15040, x.qstart + quantumCycles x + windowCycles s p])
    ++ s.sbuf.map (·.at_ + Config.storeLife)

/-- Nothing can act: the clock goes on to the next deadline, or by one cycle. -/
def passTime (s : State) : State :=
  match (deadlines s).filter (· > s.cycle) with
  | [] => tick 1 s
  | x :: t => { s with cycle := t.foldl min x }

/-- The device's turn: one event of its own that is enabled, or else time where no strand can move; then the next strand. -/
def deviceTurn (s : State) : State :=
  let s := wakeStored (wakeTracker (stopDue s))
  let s := match firstEnabled s (rotate (ownEvents s) s.turn) with
    | some t => tick 1 t
    | none => if (nextStrand s).isSome then tick 1 s else passTime s
  match nextStrand s with
  | some sid => switchTo sid s
  | none => s

/-! ### Placing a first line

A program comes from outside: the host writes it to memory and posts a launch record. `firstLine` stands for that, for one
instruction. -/

/-- The halfwords of a line whose head `i` is `head` with its tail, behind `i − 1` heads that are `nop` (R83, R84). -/
def lineOf (i : Nat) (head tail : Nat) : List Half :=
  let n := Coding.tailHalfs (head / 2 ^ 14)
  BitVec.ofNat 16 (i * 2 ^ 11) :: (List.replicate (i - 1) (0 : Half) ++ [BitVec.ofNat 16 head]
    ++ List.replicate (31 - i - n) (0 : Half) ++ Coding.halfsOfVal n tail)

def bytesOfHalfs (l : List Half) : List Byte := l.flatMap fun h => leBytes 2 h.toNat

/-- Where the next line is fetched from, where the current strand can fetch. -/
def fetchKey (s : State) : Option Nat :=
  let busy := s.me.viq ≠ [] || s.landing s.cur || s.colls.any (·.sid = s.cur)
  if runnable s.me && !busy && s.me.due = none && bitsOf s.me.pc 5 0 ≤ 26 then
    match translate s s.ctx .fetch (s.me.pc.toNat / 64 * 64) with
    | .ok (.cell k) => some k
    | _ => none
  else none

/-- A table entry of R395. -/
def tableEntry (table : Bool) (flags a : Nat) : List Byte := leBytes 8 (a + flags * 4 + table.toNat * 2 + 1)

/-- Tables at 0x1000 to 0x6FFF of frame space 0: both stages map the first GiB to itself. -/
def identityTables (m : Tab Byte) : Tab Byte :=
  [(0x1000, tableEntry true 0 0x2000), (0x2000, tableEntry true 0 0x3000), (0x3000, tableEntry false 7 0),
   (0x4000, tableEntry true 0 0x5000), (0x5000, tableEntry true 0 0x6000), (0x6000, tableEntry false 15 0)].foldl
    (fun m e => putBytes m (frameKey 0 e.1) e.2) m

/-- A crew of one strand on Wide core 0, in VF 0 and partition 0, whose memory is mapped one to one, with its PC at the first head
of the line at 0x10000. -/
def launchOne (s : State) : State :=
  let cid := s.nextCrew
  let gid := s.nextGrid
  let sid := sidOf cid 0
  let d : Decl := { entry := 0x10001, quota := 64 }
  let g : Grid := { state := .ready, decl := d, lrec := { crews := 1, flags := 1 }, dispatched := 1 }
  let c : Crew := { grid := gid, decl := d, state := .resident, sids := [sid], bands := [(0, 1)] }
  let s := switchTo sid { s with
    mem := identityTables s.mem, old := {}
    grids := tset {} s.grids gid g, nextGrid := gid + 1, crews := tset {} s.crews cid c, nextCrew := cid + 1 }
  let s := s.modPart 0 fun p => { p with en := true, stop := false, chmask := p.chmask ||| 1 }
  let s := (s.modAssign 0 fun a => { a with own0 := 0 }).modVf 0 fun v => { v with en := true, part := 0, s2root := 0x1000, s1root := 0x4000 }
  { s with me := { crew := cid, run := .running, pc := 0x10001 } }

/-- Puts a line at a memory key, as every agent then sees it. -/
def placeLine (k : Nat) (b : List Byte) (s : State) : State :=
  { s with
    mem := putBytes s.mem k b, mpois := s.mpois.filter (· ≠ k / 64), l1 := s.l1.filter (·.key ≠ k / 64)
    sbuf := s.sbuf.filter fun p => p.key + p.bytes.length ≤ k || k + 64 ≤ p.key, me := { s.me with line := none, stopReq := false } }

/-- Places one instruction where the next step fetches it. -/
def firstLine (head tail : Nat) (s : State) : State :=
  let s := { s with powered := true, events := [], posted := [], schedule := [], turn := 0 }
  let s := if (fetchKey s).isSome then s else launchOne s
  let s := if bitsOf s.me.pc 5 0 = 0 then s.modMe fun m => { m with pc := m.pc + 1 } else s
  placeLine ((fetchKey s).getD 0) (bytesOfHalfs (lineOf (bitsOf s.me.pc 5 0) head tail)) s

end Sys2Proof.Machine
end

