-- ==== Sys2Proof/Machine/Step.lean ====
section
/-! DEFINITION. One step of the device, and the placing of an instruction for the next step. -/

namespace Sys2Proof.Machine
open Sys2Proof

/-- One step: a write of the host, an event that has arrived, a change of strand that the schedule asks for, one head of the current strand,
or the device's own turn, which comes when the strand cannot move and after 63 of its moves. -/
def step (s : State) : Host.Outcome State Fault Refusal :=
  match s.posted with
  | (k, b) :: rest => .next (hostWrite k b { s with posted := rest })
  | [] => match s.events with
  | e :: rest => if s.powered || e = .deviceReset then runEvent e { s with events := rest } else .fault .noPower
  | [] =>
    if !s.powered then .fault .noPower
    else match s.schedule with
      | sid :: rest => .next (switchTo sid { s with schedule := rest })
      | [] =>
        if runnable s.me && s.turn % 64 ≠ 63 then runMe { s with turn := s.turn + 1 }
        else .next (deviceTurn { s with turn := s.turn + 1 })

/-- `s` with an instruction, numbered as the opcode table numbers its bits, where `step` fetches next. -/
def State.withFetchWord (s : State) (nbits w : Nat) : State :=
  firstLine (w % 2 ^ nbits % 65536) (w % 2 ^ nbits / 65536 % 2 ^ 64) s

end Sys2Proof.Machine
end

