-- ==== Sys2Proof/Safety.lean ====
section
/-! DEFINITION. The terms that claims are written in: when a head can read its registers, what a completed head leaves alone,
and results of the manual written without the machine's own helpers. -/

namespace Sys2Proof.Machine
open Sys2Proof

/-- The registers of `rs` can be read: with SCHK set none has an undelivered result (R98), and none holds an uncorrectable error
(R428). -/
def Readable (s : State) (rs : List SReg) : Prop :=
  (s.me.schk = true → ∀ r ∈ rs, r.val ≠ 0 → ∀ p ∈ s.me.pend, p.reg ≠ r) ∧ ∀ r ∈ rs, r.val ∉ s.me.spois

/-- The value that a register has once every outstanding result is delivered (R99, R100). -/
def State.finalVal (s : State) (r : SReg) : Word := if r.val = 0 then 0 else tget 0 s.me.deliverAll.regs r.val

/-- The whole device but the current strand and the clock is as it was: memory, crews, grids, partitions and every other
register. -/
def OnlyMe (s t : State) : Prop := t = { s with me := t.me, cycle := t.cycle }

/-- Of the current strand, only scalar registers, FFLAGS and the place in the program differ. -/
def OnlyScalars (s t : State) : Prop :=
  t.me = { s.me with
    regs := t.me.regs, pend := t.me.pend, spois := t.me.spois, fflags := t.me.fflags, pc := t.me.pc, via := t.me.via
    carry := t.me.carry, line := t.me.line, failed := t.me.failed }

/-- Every scalar register but `d` has the value that the passing of `n` cycles gives it (R97). -/
def OtherRegs (s t : State) (d : SReg) (n : Nat) : Prop :=
  ∀ r : SReg, r ≠ d → t.rd r = { s with me := s.me.age n }.rd r

/-- The pass of a head (R95): the next head issues no earlier than 1 + SC cycles later. -/
def PassedHead (s t : State) : Prop := s.cycle + 1 + s.me.ir.sc ≤ t.cycle

/-- A trap of the strand may be taken by a handler at once: TRAPON is 0, TRAPVEC names a head (R34, R47), the strand has not halted, and no
older queued work or copy of it remains that could still trap (R133). -/
def Handled (s : State) : Prop :=
  s.me.trapon = false ∧ bitsOf s.me.trapvec 5 0 ≠ 0 ∧ s.me.run ≠ .halted ∧ s.me.viq = [] ∧ s.landing s.cur = false

/-- What trap entry writes (R134): the trap registers, the level, and the transfer to the handler with every outstanding result
delivered (R100). -/
def Entered (s t : State) (ir : Ir) (x : Trap) : Prop :=
  t.me.trappc = s.me.pc ∧ t.me.trapcause = word (x.detail % 2 ^ 16 * 2 ^ 16 + s.me.priv.code * 2 ^ 8 + x.cause.code)
    ∧ t.me.trapaddr = x.addr ∧ t.me.trapmask = x.lanes ∧ t.me.trapinsn0 = ir.tail ∧ t.me.trapinsn1.toNat = ir.head.toNat
    ∧ t.me.trapon = true ∧ t.me.priv = (if s.me.priv = .app then .sup else s.me.priv) ∧ t.me.pc = s.me.trapvec
    ∧ ∀ r, t.rd r = s.finalVal r

/-- Of the current strand, only the trap registers, the level and the place in the program differ, and every outstanding scalar
result is delivered. -/
def OnlyTrapState (s t : State) : Prop :=
  t.me = { s.me with
    regs := t.me.regs, pend := t.me.pend, trappc := t.me.trappc, trapcause := t.me.trapcause, trapaddr := t.me.trapaddr
    trapmask := t.me.trapmask, trapinsn0 := t.me.trapinsn0, trapinsn1 := t.me.trapinsn1, trapon := t.me.trapon
    priv := t.me.priv, pc := t.me.pc, via := t.me.via, line := t.me.line, links := t.me.links, wait := t.me.wait
    due := t.me.due, vop := t.me.vop, carry := t.me.carry, failed := t.me.failed }

/-- The trap `x` of the head being executed is taken by the handler: what the entry writes, and that nothing else changes. -/
def Takes (s t : State) (x : Trap) : Prop :=
  Entered s t s.me.ir x ∧ t.me.links = [] ∧ t.me.wait = none ∧ OnlyTrapState s t ∧ OnlyMe s t ∧ s.cycle + 1 ≤ t.cycle

/-! ### Vector heads -/

/-- The strand can execute vector instructions on its data: a compute core, no vector context of another strand in its slot, no
register with an uncorrectable error, no queue that stays filled, and nothing in it. -/
def VecReady (s : State) : Prop :=
  s.me.onSteward = false ∧ lazyOwner s = none ∧ s.me.vpois = [] ∧ s.deferred = false ∧ s.me.viq = [] ∧ s.me.vop = none

/-- Registers named for elements of type `e` are held, and even where they name pairs (R19, R20). -/
def Held (s : State) (e : Ty) (vs : List VReg) : Prop :=
  ∀ v ∈ vs, (isPair e = true → v.val % 2 = 0) ∧ v.val + (if isPair e then 1 else 0) < s.me.vheld

/-- Of the current strand, only vector state, scalar registers, FFLAGS and the place in the program differ; VSTART is 0. -/
def OnlyVectors (s t : State) : Prop :=
  t.me = { s.me with
    regs := t.me.regs, pend := t.me.pend, spois := t.me.spois, pc := t.me.pc, via := t.me.via, carry := t.me.carry
    fflags := t.me.fflags, vregs := t.me.vregs, masks := t.me.masks, vpois := t.me.vpois, vl := t.me.vl, vstart := 0
    failed := t.me.failed }

/-- Every container but those of the listed lanes of the listed registers is as it was (R21). -/
def OtherLanes (s t : State) (vs : List Nat) (lanes : List Nat) : Prop :=
  ∀ v l, l < 1024 → ¬ (v ∈ vs ∧ l ∈ lanes) → t.me.box v l = s.me.box v l

/-- Every scalar register has the value that the passing of the head gives it. -/
def AgedRegs (s t : State) : Prop := ∀ r, t.rd r = State.rd { s with me := s.me.age (1 + s.me.ir.sc) } r

/-- A vector instruction has completed: the following head is next, and nothing outside the strand has changed. -/
def VecPassed (s t : State) : Prop :=
  t.me.pc = nextPc s.me ∧ PassedHead s t ∧ OnlyVectors s t ∧ OnlyMe s t ∧ ∀ k, t.home k = s.home k

/-- As `VecPassed`, and VL and every mask are as they were. -/
def VecDone (s t : State) : Prop := VecPassed s t ∧ t.me.vl = s.me.vl ∧ t.me.masks = s.me.masks

/-- As `OnlyScalars`, but stores may have broken links (R210). -/
def ScalarsAndLinks (s t : State) : Prop := OnlyScalars { s with me := { s.me with links := t.me.links } } t

/-- As `OnlyVectors`, but stores may have broken links (R210). -/
def VectorsAndLinks (s t : State) : Prop := OnlyVectors { s with me := { s.me with links := t.me.links } } t

/-- As `OnlyScalars`, and the strand has been through a wait. -/
def WaitedScalars (s t : State) : Prop :=
  OnlyScalars { s with me := { s.me with waitFrom := t.me.waitFrom, waitCount := t.me.waitCount } } t

/-- The strand stands at its head and waits for `w`; nothing else of it has changed. -/
def Waits (s t : State) (w : Wait) : Prop :=
  t.me = { s.me with
    wait := some w, waitFrom := s.cycle, waitCount := t.me.waitCount, carry := if w.blocking then none else s.me.carry }

/-- Of the current strand, only VL, VTYPE, the mask stack, scalar registers and the place in the program differ. -/
def OnlyStack (s t : State) : Prop :=
  t.me = { s.me with
    regs := t.me.regs, pend := t.me.pend, spois := t.me.spois, pc := t.me.pc, via := t.me.via, carry := t.me.carry
    vl := t.me.vl, vtype := t.me.vtype, mstack := t.me.mstack, failed := t.me.failed }

/-- Of the current strand, only tiles, scalar registers, FFLAGS and the place in the program differ. -/
def OnlyTiles (s t : State) : Prop :=
  t.me = { s.me with
    regs := t.me.regs, pend := t.me.pend, spois := t.me.spois, pc := t.me.pc, via := t.me.via, carry := t.me.carry
    tiles := t.me.tiles, tshape := t.me.tshape, tpois := t.me.tpois, gshape := t.me.gshape, failed := t.me.failed }

/-- Of the current strand, only images, scalar registers, FFLAGS and the place in the program differ. -/
def OnlyImages (s t : State) : Prop :=
  t.me = { s.me with
    regs := t.me.regs, pend := t.me.pend, spois := t.me.spois, pc := t.me.pc, via := t.me.via, carry := t.me.carry
    fflags := t.me.fflags, zimg := t.me.zimg, zdim := t.me.zdim, zpois := t.me.zpois, failed := t.me.failed }

end Sys2Proof.Machine

namespace Sys2Proof.Spec
open Sys2Proof Sys2Proof.Machine

/-! ### Scalar results (R117 to R123) -/

/-- Operand width under W (R118). -/
def width (w : Bool) : Nat := if w then 32 else 64

/-- An exact result, narrowed to the width of the operation and sign-extended (R118). -/
def narrowed (w : Bool) (x : Int) : Word := if w then (BitVec.ofInt 32 x).signExtend 64 else BitVec.ofInt 64 x

/-- An operand as an unsigned number of its width, and as a signed one. -/
def uns (w : Bool) (x : Word) : Nat := x.toNat % 2 ^ width w

def sgn (w : Bool) (x : Word) : Int := if x.getLsbD (width w - 1) then (uns w x : Int) - 2 ^ width w else uns w x

/-- As `u` says. -/
def num (w u : Bool) (x : Word) : Int := if u then uns w x else sgn w x

def truth (b : Bool) : Word := if b then 1 else 0

/-- Bits set below `n`. -/
def ones (n : Nat) (x : Word) : Nat := ((List.range n).filter fun i => x.getLsbD i).length

/-- The shift amount: modulo the width (R118). -/
def shamt (w : Bool) (x : Word) : Nat := x.toNat % width w

/-- A scalar integer or address head: registers read in operand order, the destination, the latency (none for an interlocked
result, R96), and the result. -/
structure AluSpec where
  reads : List SReg
  dest : SReg
  latency : Option Nat
  value : Word

def alu (i : Instr) (s : State) : Option AluSpec :=
  let v (r : SReg) : Word := s.rd r
  match i with
  | .nop => some ⟨[], 0, some 0, 0⟩
  | .add w d a b => some ⟨[a, b], d, some 1, narrowed w (sgn w (v a) + sgn w (v b))⟩
  | .sub w d a b => some ⟨[a, b], d, some 1, narrowed w (sgn w (v a) - sgn w (v b))⟩
  | .and w d a b => some ⟨[a, b], d, some 1, narrowed w (Nat.land (uns w (v a)) (uns w (v b)))⟩
  | .or w d a b => some ⟨[a, b], d, some 1, narrowed w (Nat.lor (uns w (v a)) (uns w (v b)))⟩
  | .xor w d a b => some ⟨[a, b], d, some 1, narrowed w (Nat.xor (uns w (v a)) (uns w (v b)))⟩
  | .shl w d a b => some ⟨[a, b], d, some 1, narrowed w (uns w (v a) * 2 ^ shamt w (v b))⟩
  | .shr w d a b => some ⟨[a, b], d, some 1, narrowed w (uns w (v a) / 2 ^ shamt w (v b))⟩
  | .sra w d a b => some ⟨[a, b], d, some 1, narrowed w (sgn w (v a) / 2 ^ shamt w (v b))⟩
  | .min w u d a b => some ⟨[a, b], d, some 1, narrowed w (if num w u (v a) ≤ num w u (v b) then num w u (v a) else num w u (v b))⟩
  | .max w u d a b => some ⟨[a, b], d, some 1, narrowed w (if num w u (v a) ≤ num w u (v b) then num w u (v b) else num w u (v a))⟩
  | .seq w d a b => some ⟨[a, b], d, some 1, truth (uns w (v a) = uns w (v b))⟩
  | .slt w d a b => some ⟨[a, b], d, some 1, truth (sgn w (v a) < sgn w (v b))⟩
  | .sltu w d a b => some ⟨[a, b], d, some 1, truth (uns w (v a) < uns w (v b))⟩
  | .sel d a b c => some ⟨[a, b, c], d, some 1, if v c = 0 then v b else v a⟩
  | .lea n d a b => some ⟨[a, b], d, some 1, narrowed false ((v a).toNat + (v b).toNat * 2 ^ n.val)⟩
  | .leaImm n d a b imm => some ⟨[a, b], d, some 1, narrowed false ((v a).toNat + (v b).toNat * 2 ^ n.val + imm.toInt)⟩
  | .mul w d a b => some ⟨[a, b], d, some 3, narrowed w (sgn w (v a) * sgn w (v b))⟩
  | .mulh w u d a b => some ⟨[a, b], d, some 3, narrowed w (num w u (v a) * num w u (v b) / 2 ^ width w)⟩
  | .div w u d a b =>
    some ⟨[a, b], d, none, narrowed w (if uns w (v b) = 0 then -1 else (num w u (v a)).tdiv (num w u (v b)))⟩
  | .rem w u d a b =>
    some ⟨[a, b], d, none, narrowed w (if uns w (v b) = 0 then sgn w (v a) else (num w u (v a)).tmod (num w u (v b)))⟩
  | .clz w d a => some ⟨[a], d, some 2, narrowed false (width w - Nat.size (uns w (v a)))⟩
  | .popc w d a => some ⟨[a], d, some 2, narrowed false (ones (width w) (v a))⟩
  | .sext .b d a => some ⟨[a], d, some 1, narrowed false (((v a).toNat + 128) % 256 - 128)⟩
  | .sext .h d a => some ⟨[a], d, some 1, narrowed false (((v a).toNat + 32768) % 65536 - 32768)⟩
  | .sext .w d a => some ⟨[a], d, some 1, narrowed false (sgn true (v a))⟩
  | .zext .b d a => some ⟨[a], d, some 1, narrowed false ((v a).toNat % 256)⟩
  | .zext .h d a => some ⟨[a], d, some 1, narrowed false ((v a).toNat % 65536)⟩
  | .zext .w d a => some ⟨[a], d, some 1, narrowed false (uns true (v a))⟩
  | .addi w d a imm => some ⟨[a], d, some 1, narrowed w (sgn w (v a) + imm.toInt)⟩
  | .li false d _ imm => some ⟨[], d, some 1, narrowed false imm.toInt⟩
  | .li true d a imm => some ⟨[a], d, some 1, narrowed false (imm.toNat * 2 ^ 32 + (v a).toNat % 2 ^ 32)⟩
  | _ => none

/-! ### Scalar floating results (R125 to R128) -/

structure FpSpec where
  reads : List SReg
  dest : SReg
  result : FRes

/-- The exact sum, product or fused result, rounded once, from the decoded operands. -/
def fpu (i : Instr) (s : State) : Option FpSpec :=
  let x (t : FTy) (r : SReg) : FVal := (ftyForm t).decode ((s.rd r).toNat % 2 ^ (ftyForm t).width)
  match i with
  | .fadd t rm nb d a b => some ⟨[a, b], d, (ftyForm t).addOp (s.me.mode rm) (x t a) (if nb then (x t b).neg else x t b)⟩
  | .fmul t rm np d a b => some ⟨[a, b], d, (ftyForm t).mulOp (s.me.mode rm) (if np then (x t a).neg else x t a) (x t b)⟩
  | .ffma t rm np nc d a b c => some ⟨[a, b, c], d, (ftyForm t).fmaOp (s.me.mode rm) np nc (x t a) (x t b) (x t c)⟩
  | .fcvt dt st rm d a => some ⟨[a], d, fcvtVal (s.me.mode rm) dt st (s.rd a).toNat⟩
  | _ => none

/-! ### Transfers (R92, R129 to R131) -/

/-- The target of a TB tail: a line relative to the one that holds the branch, and a head (R92). -/
def target (pc : Word) (off : BitVec 15) (hi : Fin 32) : Word :=
  BitVec.ofInt 64 (((pc.toNat / 64 : Nat) + off.toInt) * 64 + hi.val)

structure JumpSpec where
  reads : List SReg
  taken : Bool
  goal : Word
  link : Option SReg := none

def jump (i : Instr) (s : State) : Option JumpSpec :=
  let v (r : SReg) : Word := s.rd r
  match i with
  | .br off hi => some ⟨[], true, target s.me.pc off hi, none⟩
  | .beq d a off hi => some ⟨[d, a], v d = v a, target s.me.pc off hi, none⟩
  | .bne d a off hi => some ⟨[d, a], v d ≠ v a, target s.me.pc off hi, none⟩
  | .blt d a off hi => some ⟨[d, a], sgn false (v d) < sgn false (v a), target s.me.pc off hi, none⟩
  | .bge d a off hi => some ⟨[d, a], sgn false (v d) ≥ sgn false (v a), target s.me.pc off hi, none⟩
  | .bltu d a off hi => some ⟨[d, a], (v d).toNat < (v a).toNat, target s.me.pc off hi, none⟩
  | .bgeu d a off hi => some ⟨[d, a], (v d).toNat ≥ (v a).toNat, target s.me.pc off hi, none⟩
  | .call d off hi => some ⟨[], true, target s.me.pc off hi, some d⟩
  | .ret a => some ⟨[a], true, v a, none⟩
  | .jr d a => some ⟨[a], true, v a, some d⟩
  | _ => none

/-! ### System registers and traps (R31, R132 to R140) -/

/-- Numbers that `mfs` reads at APP, and that `mts` writes at APP and above it, on a compute core (R31). -/
def appReads (n : Nat) : Bool := n < 0x100
def appWrites (n : Nat) : Bool := n = 0 || n = 4 || n = 5 || (0x08 ≤ n && n ≤ 0x17)
def readOnly (n : Nat) : Bool := n = 7 || (0x20 ≤ n && n ≤ 0x24)

/-- Traps that an instruction raises by itself: registers read, and the trap. -/
def softTrap (i : Instr) (s : State) (reads : List SReg) (x : Trap) : Prop :=
  match i with
  | .sysc n => reads = [] ∧ x = { cause := .syscall, detail := n.val }
  | .brk n => reads = [] ∧ x = { cause := .brk, detail := n.val } ∧ stopsOnBreak s = false
  | .trap a code detail =>
    reads = [a] ∧ (a.val = 0 ∨ s.rd a ≠ 0) ∧ x.cause.code = code.val ∧ x = { cause := x.cause, detail := detail.toNat }
  | _ => False

/-- Lanes below VLMAX of a set of lanes. -/
def lanesBelow (n : Nat) (m : Mask) : Mask := m &&& BitVec.ofNat 1024 (2 ^ n - 1)

/-- The first head after the head at `pc` in a line of `h` heads (R91, R137). -/
def following (pc : Word) (h : Nat) : Word :=
  BitVec.ofNat 64 (if pc.toNat % 64 < h then pc.toNat / 64 * 64 + pc.toNat % 64 + 1 else (pc.toNat / 64 + 1) * 64 + 1)

/-! ### Lane results (R54, R161, R162, R170 to R172, R183, R184) -/

/-- The second operand: a register, or one value for every lane. -/
inductive Second where
  | reg (v : VReg)
  | con (x : Nat)

def second (s : State) : VSrc → Second
  | .vec v => .reg v
  | .scal r => .con (s.rd r).toNat

def secondNames : Second → List VReg
  | .reg v => [v]
  | .con _ => []

def scalarNames : VSrc → List SReg
  | .vec _ => []
  | .scal r => [r]

def secondAt (s : State) (e : Ty) (l : Nat) : Second → Nat
  | .reg v => s.me.elem e v l
  | .con x => x % 2 ^ tyBits e

/-- Immediates: integers are sign-extended, floating codes stand in the low bits (R162). -/
def intImm (i : Imm) : Second := .con (BitVec.ofInt 64 i.toInt).toNat
def codeImm (i : Imm) : Second := .con i.toNat

def isUnsigned (e : Ty) : Bool := e = .u8 || e = .u16 || e = .u32 || e = .u64

/-- The number that an element's code stands for. -/
def toNum (e : Ty) (x : Nat) : Int := if isUnsigned e || x < 2 ^ (tyBits e - 1) then x else x - 2 ^ tyBits e

/-- The low bits of an exact result. -/
def low (e : Ty) (x : Int) : Nat := (x % 2 ^ tyBits e).toNat

/-- Clamped to the range of the type (R54). -/
def clamped (e : Ty) (x : Int) : Int :=
  if isUnsigned e then max 0 (min (2 ^ tyBits e - 1) x) else max (-(2 ^ (tyBits e - 1))) (min (2 ^ (tyBits e - 1) - 1) x)

def saturated (sat : Bool) (e : Ty) (x : Int) : Nat := low e (if sat then clamped e x else x)

/-- A lane-by-lane instruction: its type, the types that it accepts, the scalars it reads, the vectors it names but for the
destination, and a lane's result code and flags from the lane's number. -/
structure VecSpec where
  ty : Ty
  accepts : Ty → Bool
  reads : List SReg := []
  names : List VReg := []
  dst : VReg
  mask : MReg
  immOk : Ty → Bool := fun _ => true
  result : Ty → Nat → FRes

def ints (s : State) (t : Ty) (d a : VReg) (y : Second) (rs : List SReg) (m : MReg) (f : Ty → Nat → Nat → Nat) : VecSpec :=
  { ty := t, accepts := isInt, reads := rs, names := a :: secondNames y, dst := d, mask := m
    result := fun e l => { bits := f e (s.me.elem e a l) (secondAt s e l y) } }

/-- The exact results of R170, before their low bits are taken. -/
def vAdd (sat : Bool) (e : Ty) (x y : Nat) : Nat := saturated sat e (toNum e x + toNum e y)
def vSub (sat : Bool) (e : Ty) (x y : Nat) : Nat := saturated sat e (toNum e x - toNum e y)
def vMul (e : Ty) (x y : Nat) : Nat := low e (toNum e x * toNum e y)
def vMulh (e : Ty) (x y : Nat) : Nat := low e (toNum e x * toNum e y / 2 ^ tyBits e)
def vMin (e : Ty) (x y : Nat) : Nat := if toNum e x ≤ toNum e y then x else y
def vMax (e : Ty) (x y : Nat) : Nat := if toNum e x ≤ toNum e y then y else x
def vSra (e : Ty) (x y : Nat) : Nat :=
  low e ((if x < 2 ^ (tyBits e - 1) then (x : Int) else x - 2 ^ tyBits e) / 2 ^ (y % tyBits e))

def floats (s : State) (t : Ty) (d a : VReg) (y : Second) (rs : List SReg) (m : MReg) (addend : Bool) (immOk : Ty → Bool)
    (f : FForm → FVal → FVal → FVal → FRes) : VecSpec :=
  { ty := t, accepts := isFloat, reads := rs, names := (a :: secondNames y) ++ (if addend then [d] else []), dst := d, mask := m
    immOk := immOk
    result := fun e l =>
      let g := floatOf e
      f g (g.decode (s.me.elem e a l)) (g.decode (secondAt s e l y)) (g.decode (s.me.elem e d l)) }

/-- A 16-bit format takes an immediate of 16 bits (R162). -/
def fits (i : Imm) (e : Ty) : Bool := e = .f32 || i.toNat < 2 ^ 16

def signIf (np : Bool) (x : FVal) : FVal := if np then x.neg else x

/-- Minimum and maximum choose one of the codes (R64). -/
def picks (s : State) (t : Ty) (d a : VReg) (y : Second) (rs : List SReg) (m : MReg) (immOk : Ty → Bool) (big : Bool) : VecSpec :=
  { floats s t d a y rs m false immOk (fun g _ _ _ => g.minMax big 0 0) with
    result := fun e l => (floatOf e).minMax big (s.me.elem e a l) (secondAt s e l y) }

/-- What each lane-by-lane instruction answers. -/
def vec (i : Instr) (s : State) : Option VecSpec :=
  let md (rm : Rmo) : RM := match rm with
    | .frm => s.me.frm
    | .fixed r => r
  let sec := second s
  let sc := scalarNames
  let all : Ty → Bool := fun _ => true
  let iI := intImm
  let cI := codeImm
  match i with
  | .vadd t sat d a y m => some (ints s t d a (sec y) (sc y) m (vAdd sat))
  | .vaddImm t sat d a x m => some (ints s t d a (iI x) [] m (vAdd sat))
  | .vsub t sat d a y m => some (ints s t d a (sec y) (sc y) m (vSub sat))
  | .vsubImm t sat d a x m => some (ints s t d a (iI x) [] m (vSub sat))
  | .vmul t d a y m => some (ints s t d a (sec y) (sc y) m vMul)
  | .vmulImm t d a x m => some (ints s t d a (iI x) [] m vMul)
  | .vmulh t d a y m => some (ints s t d a (sec y) (sc y) m vMulh)
  | .vmulhImm t d a x m => some (ints s t d a (iI x) [] m vMulh)
  | .vmin t d a y m => some (ints s t d a (sec y) (sc y) m vMin)
  | .vminImm t d a x m => some (ints s t d a (iI x) [] m vMin)
  | .vmax t d a y m => some (ints s t d a (sec y) (sc y) m vMax)
  | .vmaxImm t d a x m => some (ints s t d a (iI x) [] m vMax)
  | .vand t d a y m => some (ints s t d a (sec y) (sc y) m fun _ => Nat.land)
  | .vandImm t d a x m => some (ints s t d a (iI x) [] m fun _ => Nat.land)
  | .vor t d a y m => some (ints s t d a (sec y) (sc y) m fun _ => Nat.lor)
  | .vorImm t d a x m => some (ints s t d a (iI x) [] m fun _ => Nat.lor)
  | .vxor t d a y m => some (ints s t d a (sec y) (sc y) m fun _ => Nat.xor)
  | .vxorImm t d a x m => some (ints s t d a (iI x) [] m fun _ => Nat.xor)
  | .vshl t d a y m => some (ints s t d a (sec y) (sc y) m fun e x k => x * 2 ^ (k % tyBits e))
  | .vshlImm t d a x m => some (ints s t d a (iI x) [] m fun e x k => x * 2 ^ (k % tyBits e))
  | .vshr t d a y m => some (ints s t d a (sec y) (sc y) m fun e x k => x / 2 ^ (k % tyBits e))
  | .vshrImm t d a x m => some (ints s t d a (iI x) [] m fun e x k => x / 2 ^ (k % tyBits e))
  | .vsra t d a y m => some (ints s t d a (sec y) (sc y) m vSra)
  | .vsraImm t d a x m => some (ints s t d a (iI x) [] m vSra)
  | .vfadd t rm d a y m => some (floats s t d a (sec y) (sc y) m false all fun g x y _ => g.addOp (md rm) x y)
  | .vfaddImm t rm d a x m => some (floats s t d a (cI x) [] m false (fits x) fun g x y _ => g.addOp (md rm) x y)
  | .vfsub t rm d a y m => some (floats s t d a (sec y) (sc y) m false all fun g x y _ => g.addOp (md rm) x y.neg)
  | .vfsubImm t rm d a x m => some (floats s t d a (cI x) [] m false (fits x) fun g x y _ => g.addOp (md rm) x y.neg)
  | .vfmul t rm np d a y m => some (floats s t d a (sec y) (sc y) m false all fun g x y _ => g.mulOp (md rm) (signIf np x) y)
  | .vfmulImm t rm np d a x m =>
    some (floats s t d a (cI x) [] m false (fits x) fun g x y _ => g.mulOp (md rm) (signIf np x) y)
  | .vffma t rm np nc d a y m => some (floats s t d a (sec y) (sc y) m true all fun g x y z => g.fmaOp (md rm) np nc x y z)
  | .vffmaImm t rm np nc d a x m =>
    some (floats s t d a (cI x) [] m true (fits x) fun g x y z => g.fmaOp (md rm) np nc x y z)
  | .vfmin t _ d a y m => some (picks s t d a (sec y) (sc y) m all false)
  | .vfminImm t _ d a x m => some (picks s t d a (cI x) [] m (fits x) false)
  | .vfmax t _ d a y m => some (picks s t d a (sec y) (sc y) m all true)
  | .vfmaxImm t _ d a x m => some (picks s t d a (cI x) [] m (fits x) true)
  | .vfdiv t rm d a y m => some (floats s t d a (sec y) (sc y) m false all fun g x y _ => g.divOp (md rm) x y)
  | .vfdivImm t rm d a x m => some (floats s t d a (cI x) [] m false (fits x) fun g x y _ => g.divOp (md rm) x y)
  | .vfsqrt t rm d a m => some (floats s t d a (.con 0) [] m false all fun g x _ _ => g.sqrtOp (md rm) x)
  | .vfrsq t rm d a m => some (floats s t d a (.con 0) [] m false all fun g x _ _ => g.rsqOp (md rm) x)
  | .vfexp2 t rm d a m => some (floats s t d a (.con 0) [] m false all fun g x _ _ => g.exp2Op (md rm) x)
  | .vflog2 t rm d a m => some (floats s t d a (.con 0) [] m false all fun g x _ _ => g.log2Op (md rm) x)
  | .vid t d m => some { ty := t, accepts := isInt, dst := d, mask := m, result := fun _ l => { bits := l } }
  | .vmov t d y m => some { ty := t, accepts := fun e => e ≠ .lns6, reads := sc y, names := secondNames (sec y), dst := d, mask := m
                            result := fun e l => { bits := secondAt s e l (sec y) } }
  | .vmovImm t d x m => some { ty := t, accepts := fun e => e ≠ .lns6, dst := d, mask := m
                               immOk := fun e => isInt e || fits x e
                               result := fun e l => { bits := secondAt s e l (if isInt e then iI x else cI x) } }
  | _ => none

/-! ### Conversions and LNS6 (R165, R173 to R176, R474) -/

/-- One lane of a conversion whose destination is not LNS6: the exact value, rounded once (R174). -/
def convert (dt st : Ty) (mode : CvtMode) (m : Strand) (a : VReg) (l : Nat) : FRes :=
  let rm : RM := match mode with
    | .round .frm => m.frm
    | .round (.fixed r) => r
    | _ => .rne
  if isInt dt then
    if isInt st then { bits := saturated (mode = .sat) dt (toNum st (m.elem st a l)) }
    else
      let r := (laneVal m st a l).cvtInt rm (intOf dt)
      { bits := low dt r.1, fl := r.2 }
  else if isInt st then (floatOf dt).ofInt rm (toNum st (m.elem st a l))
  else (floatOf dt).cvt rm (laneVal m st a l)

/-- The scale given for a block, where one is (R173). -/
def givenScale (s : State) (mode : CvtMode) (j : Nat) : Option Int :=
  match mode with
  | .gs r => some (signed8 (s.rd r).toNat)
  | .gv v => some (signed8 (s.me.box v (j * s.me.blen)))
  | _ => none

/-- A block's codes and scale from its exact values (R73). -/
def encodeBlock (vals : List FVal) (given : Option Int) : List FRes × Int :=
  let sc := given.getD (lnsOwnScale vals)
  (vals.map fun v => lnsEnc v sc, sc)

/-- `vlmul` of a block (R175), from its lanes' codes and the sum of its scales. -/
def mulBlock (ps : List (Nat × Nat)) (S : Int) (given : Option Int) : List FRes × Int :=
  let logs := ps.filterMap fun p => if p.1 = 48 ∨ p.2 = 48 ∨ p.1 = 16 ∨ p.2 = 16 then none else some (lnsLog p.1 + lnsLog p.2)
  let own : Int := match logs with
    | [] => 0
    | x :: t => max (-128) (min 127 (S + (t.foldl max x) / 4 - 3))
  let sc := given.getD own
  (ps.map fun p =>
    if p.1 = 48 ∨ p.2 = 48 then { bits := 48, fl := { nv := true } }
    else if p.1 = 16 ∨ p.2 = 16 then { bits := 16 }
    else
      let k := lnsLog p.1 + lnsLog p.2 - 4 * (sc - S)
      let sg := if p.1 / 32 = p.2 / 32 then 0 else 32
      if k > 15 then { bits := sg + 15, fl := { of := true, nx := true } }
      else if k < -15 then { bits := 16, fl := { uf := true, nx := true } }
      else { bits := sg + (k % 32).toNat }, sc)

/-- An LNS6 writer: named registers, scalars read, destination, mask, and the result of block `j` on its active lanes. -/
structure LnsSpec where
  reads : List SReg := []
  names : List VReg
  dst : VReg
  mask : MReg
  block : Nat → List Nat → List FRes × Int

def modeReads : CvtMode → List SReg
  | .gs r => [r]
  | _ => []

def modeNames : CvtMode → List VReg
  | .gv v => [v]
  | _ => []

def lns (i : Instr) (s : State) : Option LnsSpec :=
  let blk (v : VReg) (j : Nat) : Int := s.me.scale v (j * s.me.blen)
  let mulOf (md : CvtMode) (a b : VReg) (j : Nat) (ls : List Nat) : List FRes × Int :=
    mulBlock (ls.map fun l => (s.me.box a l % 64, s.me.box b l % 64)) (blk a j + blk b j) (givenScale s md j)
  let addOf (md : CvtMode) (a b : VReg) (j : Nat) (ls : List Nat) : List FRes × Int :=
    encodeBlock (ls.map fun l => ((laneVal s.me .lns6 a l).add .rne (laneVal s.me .lns6 b l)).1) (givenScale s md j)
  let given (g : VSrc) : CvtMode := match g with
    | .scal r => .gs r
    | .vec v => .gv v
  match i with
  | .vcvt .lns6 st md d a m => some ⟨modeReads md, a :: modeNames md, d, m,
      fun j ls => encodeBlock (ls.map (laneVal s.me st a)) (givenScale s md j)⟩
  | .vlmul _ d a b m => some ⟨[], [a, b], d, m, mulOf .own a b⟩
  | .vlmulGiven _ g d a b m => some ⟨modeReads (given g), [a, b] ++ modeNames (given g), d, m, mulOf (given g) a b⟩
  | .vladd _ d a b m => some ⟨[], [a, b], d, m, addOf .own a b⟩
  | .vladdGiven _ g d a b m => some ⟨modeReads (given g), [a, b] ++ modeNames (given g), d, m, addOf (given g) a b⟩
  | _ => none

/-- The type condition of an LNS6 writer: VTYPE.FMT is LNS6 where T is 0xF; `vcvt` compares no type. -/
def lnsTyped (i : Instr) (s : State) : Bool :=
  match i with
  | .vcvt _ st _ _ a _ => !(isPair st && a.val % 2 = 1)
  | .vlmul t _ _ _ _ | .vlmulGiven t _ _ _ _ _ | .vladd t _ _ _ _ | .vladdGiven t _ _ _ _ _ => !(s.me.badTy t isLns)
  | _ => false

/-- A scale as it stands in bits [15:8] of a container. -/
def scaleByte (x : Int) : Nat := (x % 256).toNat

/-! ### Compares, masks and votes (R177 to R179, R193) -/

/-- The outcome of one lane, and whether it sets NV. -/
def compare (cc : VCc) (e : Ty) (m : Strand) (a : VReg) (l : Nat) (y : Nat) (yv : FVal) : Bool × Bool :=
  if isInt e then
    let p := toNum e (m.elem e a l)
    let q := toNum e y
    (match cc with | .eq => p = q | .ne => p ≠ q | .lt => p < q | .le => p ≤ q | .gt => p > q | .ge => p ≥ q | .un => false, false)
  else
    let p := laneVal m e a l
    let nan := p.isNan || yv.isNan
    let o := p.cmp yv
    (match cc with
      | .eq => !nan && o = .eq | .ne => nan || o ≠ .eq | .lt => !nan && o = .lt | .le => !nan && o ≠ .gt
      | .gt => !nan && o = .gt | .ge => !nan && o ≠ .lt | .un => nan,
      if e = .lns6 then nan
      else match cc with
        | .eq | .ne | .un => p.isSig || yv.isSig
        | _ => nan)

/-- The operand of a compare as a code and as an exact value. -/
def compareAt (s : State) (e : Ty) (l : Nat) (y : Second) : Nat × FVal :=
  match y with
  | .reg v => (s.me.elem e v l, laneVal s.me e v l)
  | .con x => (x % 2 ^ tyBits e,
      if isInt e then .ofInt (toNum e (x % 2 ^ tyBits e))
      else if e = .lns6 then lnsVal (x % 64) (signed8 (x / 256)) else (floatOf e).decode (x % 2 ^ tyBits e))

/-- A mask logical of R178. -/
def logical (i : Instr) : Option (MReg × MReg × MReg × (Bool → Bool → Bool)) :=
  match i with
  | .mand d a b => some (d, a, b, fun x y => x && y)
  | .mor d a b => some (d, a, b, fun x y => x || y)
  | .mxor d a b => some (d, a, b, fun x y => x != y)
  | .mnot d a => some (d, a, a, fun x _ => !x)
  | _ => none

/-- A vote or a count over the active lanes (R179, R193): destination, mask, governing mask, result. -/
def vote (i : Instr) (s : State) : Option (SReg × MReg × Word) :=
  let on (a : MReg) (l : Nat) : Bool := (s.me.mask a).getLsbD l
  match i with
  | .mpop d a m => some (d, m, BitVec.ofNat 64 ((s.me.lanes m).filter (on a)).length)
  | .mfirst d a m => some (d, m, match (s.me.lanes m).filter (on a) with | [] => BitVec.ofInt 64 (-1) | l :: _ => BitVec.ofNat 64 l)
  | .vany d a m => some (d, m, if ∃ l ∈ s.me.lanes m, on a l = true then 1 else 0)
  | .vall d a m => some (d, m, if ∀ l ∈ s.me.lanes m, on a l = true then 1 else 0)
  | _ => none

/-! ### Permutes (R185 to R191) and reductions (R80, R81, R192) -/

/-- A permute: type, scalars read, vectors named beside source and destination, destination, source, mask, and from the active
lanes each written lane with the index that it reads. -/
structure PermSpec where
  ty : Ty
  reads : List SReg := []
  names : List VReg := []
  dst : VReg
  src : VReg
  mask : MReg
  picks : List (Nat × Nat)

def perm (i : Instr) (s : State) : Option PermSpec :=
  let up (k : Nat) (ls : List Nat) : List (Nat × Nat) := (ls.filter fun l => k ≤ l).map fun l => (l, l - k)
  let L (m : MReg) : List Nat := s.me.lanes m
  match i with
  | .vperm t d a b m => some { ty := t, names := [b], dst := d, src := a, mask := m, picks := (L m).map fun l => (l, s.me.box b l) }
  | .vslideup t d a b m => some { ty := t, reads := [b], dst := d, src := a, mask := m, picks := up (s.rd b).toNat (L m) }
  | .vslideupImm t d a x m => some { ty := t, dst := d, src := a, mask := m, picks := up x.toNat (L m) }
  | .vslidedn t d a b m => some { ty := t, reads := [b], dst := d, src := a, mask := m, picks := (L m).map fun l => (l, l + (s.rd b).toNat) }
  | .vslidednImm t d a x m => some { ty := t, dst := d, src := a, mask := m, picks := (L m).map fun l => (l, l + x.toNat) }
  | .vbcast t d a b m => some { ty := t, reads := [b], dst := d, src := a, mask := m, picks := (L m).map fun l => (l, (s.rd b).toNat) }
  | .vbcastImm t d a x m => some { ty := t, dst := d, src := a, mask := m, picks := (L m).map fun l => (l, x.toNat) }
  | .vexpand t d a m => some { ty := t, dst := d, src := a, mask := m, picks := (L m).zipIdx }
  | _ => none

/-- An integer reduction: the exact result, at 32 bits with IOV where it does not fit, or at 64 bits. -/
def intReduce (op : Red) (e : Ty) (xs : List Nat) (init : Word) : Word × Bool :=
  let wide := tyBits e = 64
  let acc : Ty := if wide then e else if isUnsigned e then .u32 else .i32
  let x0 := toNum acc (init.toNat % 2 ^ tyBits acc)
  let ys := xs.map (toNum e)
  let r : Int := match op with
    | .sum => ys.foldl (· + ·) x0
    | .max => ys.foldl max x0
    | .min => ys.foldl min x0
  (BitVec.ofInt 64 (toNum acc (low acc r)), !wide && r ≠ clamped acc r)

def reduction (i : Instr) : Option (Red × Ty × SReg × VReg × SReg × MReg) :=
  match i with
  | .vredsum t d a b m => some (.sum, t, d, a, b, m)
  | .vredmax t d a b m => some (.max, t, d, a, b, m)
  | .vredmin t d a b m => some (.min, t, d, a, b, m)
  | _ => none

/-! ### Memory (R196 to R227) -/

/-- A scalar load or store of any form: width, unsigned, scratchpad, ordered, scope, data or destination register, address
register, offset. -/
structure AccSpec where
  wd : AccW
  u : Bool := false
  sp : Bool
  ord : Bool
  sc : Scope
  reg : SReg
  base : SReg
  off : Imm

def scalarLoad (i : Instr) : Option AccSpec :=
  match i with
  | .ld wd u sp acq sc d a => some ⟨wd, u, sp, acq, sc, d, a, 0⟩
  | .ldImm wd u sp acq sc d a x => some ⟨wd, u, sp, acq, sc, d, a, x⟩
  | _ => none

def scalarStore (i : Instr) : Option AccSpec :=
  match i with
  | .st wd sp rel sc a b => some ⟨wd, false, sp, rel, sc, b, a, 0⟩
  | .stImm wd sp rel sc a b x => some ⟨wd, false, sp, rel, sc, b, a, x⟩
  | _ => none

def bytesOf : AccW → Nat
  | .b => 1 | .h => 2 | .w => 4 | .d => 8

/-- `n` bytes as a 64-bit value, by sign or by zeros (R206). -/
def extended (n : Nat) (u : Bool) (bs : List Byte) : Word :=
  let v := leVal bs
  if u || v < 2 ^ (8 * n - 1) then BitVec.ofNat 64 v else BitVec.ofInt 64 ((v : Int) - 2 ^ (8 * n))

/-- An atomic's new value from the old one and its operands, each of `n` bytes (R223); FP32 for the floating sum. -/
def atomicNew (op : AmoOp) (n x y : Nat) : Nat :=
  let m : Nat := 2 ^ (8 * n)
  let sg (v : Nat) : Int := if v < m / 2 then v else (v : Int) - m
  match op with
  | .add => (x + y) % m
  | .and => Nat.land x y
  | .or => Nat.lor x y
  | .xor => Nat.xor x y
  | .min => if sg y < sg x then y else x
  | .max => if sg x < sg y then y else x
  | .minu => if y < x then y else x
  | .maxu => if x < y then y else x
  | .swap => y
  | .fadd => (FForm.f32.addOp .rne (FForm.f32.decode x) (FForm.f32.decode y)).bits % m

/-- The byte that the last of some writes leaves at a key. -/
def lastByte (ws : List (Nat × List Byte)) (x : Nat) : Option Byte :=
  ws.foldl (fun r w => if w.1 ≤ x ∧ x < w.1 + w.2.length then w.2[x - w.1]? else r) none

/-- A vector access of elements that are not LNS6: whether it stores, its type, space and plain view, its first register,
scalars and vectors read for addresses, mask, and its pieces in order. -/
structure VMemSpec where
  store : Bool
  ty : Ty
  spc : Spc
  plainOk : Bool := false
  dst : VReg
  fields : Nat := 1
  reads : List SReg
  names : List VReg := []
  mask : MReg
  pieces : Ty → List Piece

def spaceOf (sp : Bool) : Spc := if sp then .sp else .gen

/-- Pieces of `nf` fields: registers step by one, or by two for pairs. -/
def pieceList (d : VReg) (nf : Nat) (lanes : List Nat) (addr : Nat → Nat → Nat → Word) (e : Ty) : List Piece :=
  lanes.flatMap fun l => (List.range nf).map fun f =>
    { lane := l, tag := d.val + f * (if tyBits e = 64 then 2 else 1), addr := addr (tyBits e / 8) l f, n := tyBits e / 8
      align := tyBits e / 8 }

/-- Value(sa) + sext(imm32) (R206). -/
def effective (s : State) (a : SReg) (x : Imm) : Word := s.rd a + BitVec.ofInt 64 x.toInt

def vmem (i : Instr) (s : State) : Option VMemSpec :=
  let L (m : MReg) : List Nat := s.me.lanes m
  let unit (st : Bool) (t : Ty) (spc : Spc) (pl : Bool) (d : VReg) (a : SReg) (x : Imm) (m : MReg) : VMemSpec :=
    { store := st, ty := t, spc := spc, plainOk := pl, dst := d, reads := [a], mask := m
      pieces := pieceList d 1 (L m) fun n l _ => effective s a x + BitVec.ofNat 64 (l * n) }
  let strided (st : Bool) (t : Ty) (sp : Bool) (d : VReg) (a b : SReg) (x : Imm) (m : MReg) : VMemSpec :=
    { store := st, ty := t, spc := spaceOf sp, dst := d, reads := [a, b], mask := m
      pieces := pieceList d 1 (L m) fun _ l _ => effective s a x + BitVec.ofNat 64 l * s.rd b }
  let seg (st : Bool) (nf : Fin 8) (t : Ty) (sp : Bool) (d : VReg) (a : SReg) (x : Imm) (m : MReg) : VMemSpec :=
    { store := st, ty := t, spc := spaceOf sp, dst := d, fields := nf.val + 1, reads := [a], mask := m
      pieces := pieceList d (nf.val + 1) (L m) fun n l f => effective s a x + BitVec.ofNat 64 ((l * (nf.val + 1) + f) * n) }
  let local_ (st : Bool) (t : Ty) (d a : VReg) (x : Imm) (m : MReg) : VMemSpec :=
    { store := st, ty := t, spc := .ll, dst := d, reads := [], names := [a], mask := m
      pieces := pieceList d 1 (L m) fun _ l _ => BitVec.ofNat 64 (s.me.box a l) + BitVec.ofInt 64 x.toInt }
  match i with
  | .vld t sp d a _ m => some (unit false t (spaceOf sp) false d a 0 m)
  | .vldImm t sp d a _ x m => some (unit false t (spaceOf sp) false d a x m)
  | .vst t sp d a _ m => some (unit true t (spaceOf sp) false d a 0 m)
  | .vstImm t sp d a _ x m => some (unit true t (spaceOf sp) false d a x m)
  | .cvld t d a _ m => some (unit false t .gen true d a 0 m)
  | .cvldImm t d a _ x m => some (unit false t .gen true d a x m)
  | .vlds t sp d a b m => some (strided false t sp d a b 0 m)
  | .vldsImm t sp d a b x m => some (strided false t sp d a b x m)
  | .vsts t sp d a b m => some (strided true t sp d a b 0 m)
  | .vstsImm t sp d a b x m => some (strided true t sp d a b x m)
  | .vldseg nf t sp d a m => some (seg false nf t sp d a 0 m)
  | .vldsegImm nf t sp d a x m => some (seg false nf t sp d a x m)
  | .vstseg nf t sp d a m => some (seg true nf t sp d a 0 m)
  | .vstsegImm nf t sp d a x m => some (seg true nf t sp d a x m)
  | .lldx t d a m => some (local_ false t d a 0 m)
  | .lldxImm t d a x m => some (local_ false t d a x m)
  | .lstx t d a m => some (local_ true t d a 0 m)
  | .lstxImm t d a x m => some (local_ true t d a x m)
  | _ => none

/-- An encoding of a unit form reserves the scale operand for types other than LNS6. -/
def noScale (i : Instr) : Bool :=
  match i with
  | .vld _ _ _ _ b _ | .vldImm _ _ _ _ b _ _ | .vst _ _ _ _ b _ | .vstImm _ _ _ _ b _ _ | .cvld _ _ _ b _ | .cvldImm _ _ _ b _ _ =>
    b = 0
  | _ => true

/-- Registers of an access: one for each field, or a pair. -/
def regList (d : VReg) (nf : Nat) (e : Ty) : List Nat := (List.range (nf * (if tyBits e = 64 then 2 else 1))).map fun k => d.val + k

/-! LNS6 in memory (R71, R72, R201): the code of lane l is 6 bits at bit 6·l of the data, the scale of block j byte j of the
scales. -/

/-- The pieces of an LNS6 access with blocks of `bl` lanes. -/
def lnsBytes (bl : Nat) (base sb : Word) (lanes : List Nat) : List Piece :=
  lanes.flatMap fun l =>
    ((List.range ((6 * l + 5) / 8 + 1)).filter fun o => 6 * l / 8 ≤ o).map (fun o => { lane := l, addr := base + BitVec.ofNat 64 o, n := 1 })
      ++ [{ lane := l, tag := 1, addr := sb + BitVec.ofNat 64 (l / bl), n := 1 }]

/-- The byte that stands at an address of a placed access. -/
def found (u : State) (pw : Machine.Placed) (a : Word) : Nat :=
  match pw.find? fun e => e.1.addr = a with
  | some e => leVal (e.2.bytes u 1)
  | none => 0

/-- A unit-stride LNS6 access: whether it stores, its type, space and plain view, register, address, scale address, mask. -/
structure LnsMemSpec where
  store : Bool
  ty : Ty
  spc : Spc
  plainOk : Bool := false
  dst : VReg
  base : SReg
  scales : SReg
  off : Imm
  mask : MReg

def lnsMem (i : Instr) : Option LnsMemSpec :=
  match i with
  | .vld t sp d a b m => some ⟨false, t, spaceOf sp, false, d, a, b, 0, m⟩
  | .vldImm t sp d a b x m => some ⟨false, t, spaceOf sp, false, d, a, b, x, m⟩
  | .cvld t d a b m => some ⟨false, t, .gen, true, d, a, b, 0, m⟩
  | .cvldImm t d a b x m => some ⟨false, t, .gen, true, d, a, b, x, m⟩
  | .vst t sp d a b m => some ⟨true, t, spaceOf sp, false, d, a, b, 0, m⟩
  | .vstImm t sp d a b x m => some ⟨true, t, spaceOf sp, false, d, a, b, x, m⟩
  | _ => none

/-- Every piece leads to a place of memory that is reached at present. -/
def Placed (s : State) (spc : Spc) (acc : Acc) (plainOk : Bool) (ps : List Piece) (pw : Machine.Placed) : Prop :=
  pw.map (·.1) = ps ∧ ∀ e ∈ pw, judge s spc acc plainOk e.1 = .ok e.2 ∧ ∀ k, e.2 = .cell k → lostDevice s k = none

/-- The writes of a store, in order. -/
def writesOf (s : State) (e : Ty) (pw : Machine.Placed) : List (Nat × List Byte) :=
  pw.filterMap fun p => match p.2 with
    | .cell k => some (k, leBytes p.1.n (s.me.elem e p.1.tag p.1.lane))
    | .plain .. => none

/-- What an index of a gather or a scatter resolves to (R208): an address, no access, or a fault. -/
inductive Index where
  | addr (a : Word)
  | skip
  | fault

def index (oob : Oob) (base : Word) (bound : Option Nat) (size : Nat) (i : Int) : Index :=
  if 0 ≤ i ∧ (∀ n, bound = some n → i < n) then .addr (base + BitVec.ofInt 64 (i * size))
  else match oob with
    | .fault => .fault
    | .zero => .skip
    | .clamp => match bound with
      | some 0 => .skip
      | some n => .addr (if i < 0 then base else base + BitVec.ofNat 64 ((n - 1) * size))
      | none => .addr base

/-- A gather or a scatter: type, space, data register, base, index register, bound, mask. -/
structure IdxSpec where
  ty : Ty
  spc : Spc
  dst : VReg
  base : SReg
  idx : VReg
  bound : Option SReg
  mask : MReg

def gather (i : Instr) : Option (IdxSpec × Bool) :=
  match i with
  | .vgather t sp d a b m => some (⟨t, spaceOf sp, d, a, b, none, m⟩, false)
  | .vgatherBounded t sp d a b c m => some (⟨t, spaceOf sp, d, a, b, some c, m⟩, false)
  | .vgatherL t d a b m => some (⟨t, .gen, d, a, b, none, m⟩, true)
  | .vgatherLBounded t d a b c m => some (⟨t, .gen, d, a, b, some c, m⟩, true)
  | _ => none

def scatter (i : Instr) : Option IdxSpec :=
  match i with
  | .vscatter t sp d a b m => some ⟨t, spaceOf sp, d, a, b, none, m⟩
  | .vscatterBounded t sp d a b c m => some ⟨t, spaceOf sp, d, a, b, some c, m⟩
  | _ => none

def condScatter (i : Instr) : Option (IdxSpec × MReg) :=
  match i with
  | .vscatterC t md d a b m => some (⟨t, .gen, d, a, b, none, m⟩, md)
  | .vscatterCBounded t md d a b c m => some (⟨t, .gen, d, a, b, some c, m⟩, md)
  | _ => none

/-- What lane `l` resolves to. -/
def IdxSpec.at_ (x : IdxSpec) (s : State) (l : Nat) : Index :=
  index s.me.vtype.oob (s.rd x.base) (x.bound.map fun c => (s.rd c).toNat) (tyBits (s.me.elemTy x.ty) / 8)
    (BitVec.ofNat 32 (s.me.box x.idx l)).toInt

def IdxSpec.pieces (x : IdxSpec) (s : State) : List Piece :=
  let n := tyBits (s.me.elemTy x.ty) / 8
  (s.me.lanes x.mask).filterMap fun l => match x.at_ s l with
    | .addr a => some { lane := l, tag := x.dst.val, addr := a, n := n, align := n }
    | _ => none

/-- A full/empty access: whether it loads, whether it takes, type, data register, base, offset, mask. -/
structure FeSpec where
  load : Bool
  take : Bool
  ty : Ty
  dst : VReg
  base : SReg
  off : Imm
  mask : MReg

def fullEmpty (i : Instr) : Option FeSpec :=
  match i with
  | .vldFe t tk d a m => some ⟨true, tk, t, d, a, 0, m⟩
  | .vldFeImm t tk d a x m => some ⟨true, tk, t, d, a, x, m⟩
  | .vstFe t d a m => some ⟨false, false, t, d, a, 0, m⟩
  | .vstFeImm t d a x m => some ⟨false, false, t, d, a, x, m⟩
  | _ => none

/-! ### Accumulation windows (R220 to R222) and waits (R225) -/

/-- Bytes of an element of a window. -/
def awBytes (t : AwTy) : Nat := tyBits (awElem t) / 8

/-- The identity of a fold. -/
def identity (op : Fold) (t : AwTy) : Nat :=
  match op, t with
  | .add, .f32 => 0x80000000
  | .min, .f32 => 0x7F800000
  | .max, .f32 => 0xFF800000
  | .add, _ => 0
  | .min, .i32 => 2 ^ 31 - 1
  | .min, .u32 => 2 ^ 32 - 1
  | .min, .i64 => 2 ^ 63 - 1
  | .min, .u64 => 2 ^ 64 - 1
  | .max, .i32 => 2 ^ 31
  | .max, .i64 => 2 ^ 63
  | .max, _ => 0

/-- One fold of two codes. -/
def fold (op : Fold) (t : AwTy) (x y : Nat) : FRes :=
  match t with
  | .f32 => match op with
    | .add => FForm.f32.addOp .rne (FForm.f32.decode x) (FForm.f32.decode y)
    | .min => FForm.f32.minMax false x y
    | .max => FForm.f32.minMax true x y
  | _ =>
    let e := awElem t
    { bits := low e (match op with
      | .add => toNum e x + toNum e y
      | .min => min (toNum e x) (toNum e y)
      | .max => max (toNum e x) (toNum e y)) }

/-- The comparison of `vwait`. -/
def waitMeets (cc : WCc) (x y : Int) : Bool :=
  match cc with
  | .eq => x = y
  | .ne => x ≠ y
  | .ge => x ≥ y
  | .lt => x < y

/-! ### Tiles and matrices (R230 to R240) -/

/-- The grant of R230. -/
def grant (s : State) (f : TFmt) (m n k : Nat) : GShape :=
  let q (x : Nat) : Nat := min x 1023
  let g8 (q c : Nat) : Nat := if q = 0 then 0 else max 8 (8 * (min q c / 8))
  let ck := min (match f with | .int8 => 192 | .fp16 => 96 | .bf16 => 96 | .fp32 => 48 | .lns6 => 256) s.capShape.ck
  let bl := s.me.blen
  let gm := g8 (q m) (min (maxMOf s s.me.core) s.capShape.cm)
  let gn := g8 (q n) (min (maxNOf s s.me.core) s.capShape.cn)
  let gk := if f = .lns6 then (if q k = 0 ∨ ck < bl then 0 else max bl (bl * (min (q k) ck / bl))) else g8 (q k) ck
  { fmt := f, gv := decide (gm > 0 ∧ gn > 0 ∧ gk > 0), gk := gk, gn := gn, gm := gm, qk := q k, qn := q n, qm := q m }

def tileTy : TFmt → Ty
  | .int8 => .i8 | .fp16 => .f16 | .bf16 => .bf16 | .fp32 => .f32 | .lns6 => .lns6

/-- Bits of an element, and bytes of a row of `n`. -/
def elemBits (f : TFmt) : Nat := tyBits (tileTy f)
def bytesOfRow (f : TFmt) (n : Nat) : Nat := (elemBits f * n + 7) / 8

/-- Blocks of a row. -/
def blocksOf (n bl : Nat) : Nat := (n + bl - 1) / bl

/-- A range of memory by its pages: at most two pieces, without a lane. -/
def span (lane tag : Nat) (a : Word) (n align : Nat) : List Piece :=
  let room := 65536 - a.toNat % 65536
  if n = 0 then []
  else if n ≤ room then [{ lane := lane, tag := tag, addr := a, n := n, align := align }]
  else [{ lane := lane, tag := tag, addr := a, n := room, align := align },
    { lane := lane, tag := tag, addr := a + BitVec.ofNat 64 room, n := n - room, align := 1 }]

/-- The bytes under a tag, in order. -/
def dataOf (u : State) (pw : Machine.Placed) (tag : Nat) : List Byte :=
  (pw.filter fun p => p.1.tag = tag).flatMap fun p => p.2.bytes u p.1.n

/-- A tile load or store: type, space, role, tile, address and stride registers, scale registers of the LNS6 form, barrier. -/
structure TileSpec where
  ty : Ty
  spc : Spc
  role : Bool := false
  tile : TReg
  a : SReg
  b : SReg
  lns : Option (SReg × Half) := none
  bar : Option (Fin 16) := none

def TileSpec.reads (x : TileSpec) : List SReg := [x.a, x.b] ++ (x.lns.map (·.1)).toList

/-- Its type and its form name the format. -/
def TileSpec.names (x : TileSpec) (f : TFmt) : Prop := (x.ty = .dflt ∨ x.ty = tileTy f) ∧ (f = .lns6 ↔ x.lns.isSome = true)

/-- Row `r`: the address of its data, and of its scales. -/
def TileSpec.row (x : TileSpec) (s : State) (r : Nat) : Word := s.rd x.a + BitVec.ofNat 64 r * s.rd x.b
def TileSpec.scaleRow (x : TileSpec) (s : State) (r : Nat) : Word :=
  match x.lns with
  | some (c, h) => s.rd c + BitVec.ofNat 64 r * BitVec.ofNat 64 h.toNat
  | none => 0

/-- Rows under even tags, scales of the LNS6 form under odd ones. -/
def TileSpec.pieces (x : TileSpec) (s : State) (f : TFmt) (rows cols : Nat) : List Piece :=
  (List.range rows).flatMap fun r =>
    span 1024 (2 * r) (x.row s r) (bytesOfRow f cols) (if f = .lns6 then 1 else elemBits f / 8)
      ++ if f = .lns6 then span 1024 (2 * r + 1) (x.scaleRow s r) (blocksOf cols s.me.blen) 1 else []

def tileLoad (i : Instr) : Option TileSpec :=
  match i with
  | .tld t sp role d a b => some { ty := t, spc := spaceOf sp, role := role, tile := d, a := a, b := b }
  | .tldLns6 t sp role d a b c h => some { ty := t, spc := spaceOf sp, role := role, tile := d, a := a, b := b, lns := some (c, h) }
  | .tldE t role sb d a b => some { ty := t, spc := .sp, role := role, tile := d, a := a, b := b, bar := some sb }
  | .tldELns6 t role sb d a b c h =>
    some { ty := t, spc := .sp, role := role, tile := d, a := a, b := b, lns := some (c, h), bar := some sb }
  | _ => none

def tileStore (i : Instr) : Option TileSpec :=
  match i with
  | .tst t sp d a b => some { ty := t, spc := spaceOf sp, tile := d, a := a, b := b }
  | .tstLns6 t sp d a b c h => some { ty := t, spc := spaceOf sp, tile := d, a := a, b := b, lns := some (c, h) }
  | _ => none

/-- A matrix multiply: type, signs, zero, order, image, tiles. -/
def multiply (i : Instr) : Option (MmaOps × Bool) :=
  match i with
  | .mmaO t ua ub z d a b => some (⟨t, ua, ub, z, true, d, a, b⟩, true)
  | .mmaR t ua ub z d a b => some (⟨t, ua, ub, z, false, d, a, b⟩, false)
  | _ => none

/-- The exact INT8 sum of an element, and whether it lies outside the accumulator's range (R54, R235). -/
def intDot (m : Strand) (o : MmaOps) (i j : Nat) : Int :=
  let unsigned := o.ua && o.ub
  let c := (tget 0 m.zimg (zKey o.d i j)).toNat
  let elem (u : Bool) (k r n : Nat) : Int := match m.tileElem .int8 k r n with
    | some (x, _) => toNum (if u then .u8 else .i8) x
    | none => 0
  (if o.z then 0 else toNum (if unsigned then .u32 else .i32) c)
    + ((List.range m.gshape.lk).map fun n => elem o.ua o.a i n * elem o.ub o.b j n).sum

/-! ### Stage barriers (R246 to R253) and tensor copies (R241 to R245) -/

/-- What R250 does once a phase has been filled or released. -/
def freed (x : Barrier) : Barrier :=
  if x.rdone = x.rcnt ∧ x.rph ≠ x.ph then { x with rph := x.rph + 1, rdone := 0, read := [] } else x

/-- What R250 does once the bytes or the announcement have changed. -/
def filled (x : Barrier) : Barrier :=
  if 0 < x.exp ∧ x.exp ≤ x.arr then freed { x with ph := x.ph + 1, arr := x.arr - x.exp, exp := 0 } else x

/-- Arrivals of 16 bytes each. -/
def arrived : Nat → Barrier → Barrier
  | 0, x => x
  | n + 1, x => arrived n (filled { x with ovr := x.ovr || decide (x.exp ≤ x.arr), arr := (x.arr + 16) % 2 ^ 32 })

/-- One release. -/
def released (x : Barrier) : Barrier := if x.rdone = x.rcnt then { x with ovr := true } else freed { x with rdone := x.rdone + 1 }

/-- A copy: whether it writes out, its grant role, barrier, and registers. -/
def tensorCopy (i : Instr) : Option CopyOps :=
  match i with
  | .tcopy gr bv sb d a b c => some ⟨gr, bv, sb, d, a, b, c, false⟩
  | .tcopyo gr d a b c => some ⟨gr, false, 0, d, a, b, c, true⟩
  | _ => none

/-- Digit of dimension `d` of the element `x` along PERM[0] in scratchpad row `r`: PERM[1] varies fastest (R243). -/
def digit (l : Layout) (r x d : Nat) : Nat :=
  if d = l.perm.getD 0 0 then x
  else r / (((l.perm.drop 1).takeWhile (· ≠ d)).foldl (fun n p => n * l.box.getD p 0) 1) % l.box.getD d 0

def coord (l : Layout) (r x d : Nat) : Int := l.org.getD d 0 + digit l r x d

/-- Whether an element of the box lies in the tensor. -/
def inTensor (t : Tensor) (l : Layout) (r x : Nat) : Prop := ∀ d < 5, 0 ≤ coord l r x d ∧ coord l r x d < (t.ext.getD d 0 : Nat)

/-- The bit of generic memory at which an element starts: strides are in units of 16 bytes, dimension 0 is packed. -/
def memBit (t : Tensor) (l : Layout) (r x : Nat) : Int :=
  8 * (t.base + 16 * ((List.range 4).map fun d => t.str.getD (d + 1) 0 * coord l r x (d + 1)).sum) + elemBits l.fmt * coord l r x 0

/-- The bit of the scratchpad range at which it starts. -/
def rowBit (l : Layout) (r x : Nat) : Nat := 8 * (r * l.rowLen) + elemBits l.fmt * x

/-- A bit of a byte-addressed range. -/
def bitAt (f : Nat → Byte) (n : Nat) : Bool := (f (n / 8)).getLsbD (n % 8)

/-- The scale of block `j` of row `r`: its place in memory, none outside the tensor. -/
def scaleByteAt (t : Tensor) (l : Layout) (bl r j : Nat) : Option Word :=
  let i0 : Int := l.org.getD 0 0 + j * bl
  let c (d : Nat) : Int := coord l r 0 d
  let e (d : Nat) : Int := (t.ext.getD d 0 : Nat)
  let row := c 1 + e 1 * (c 2 + e 2 * (c 3 + e 3 * c 4))
  if (∀ d < 5, d ≠ 0 → 0 ≤ c d ∧ c d < e d) ∧ 0 ≤ i0 ∧ i0 < e 0 then
    some (BitVec.ofInt 64 (t.sbase + row * blocksOf (t.ext.getD 0 0) bl + i0 / bl))
  else none

/-! ### Collectives (R254 to R257) and heaps (R329 to R335) -/

def collective (i : Instr) : Option ColOps :=
  match i with
  | .colred t op bv sb len d a c => some ⟨false, t, op, bv, sb, len.val, 0, d, a, c⟩
  | .colbcast bv sb len root d a c => some ⟨true, .i32, .add, bv, sb, len.val, root.val, d, a, c⟩
  | _ => none

/-- The task that a pop takes: live, idle, of the largest gain, the lowest of several. -/
def takes (h : Heap) (t : Nat) : Prop :=
  let g (u : Nat) : Nat := tget 0 h.gain u
  let idle (u : Nat) : Prop := u < h.live ∧ tget none h.runs u = none
  idle t ∧ 0 < g t ∧ ∀ u, idle u → g u < g t ∨ (g u = g t ∧ t ≤ u)

/-- A stored gain and what it does to a heap (R323). -/
def stored (h : Heap) (t : Nat) (x : Int) : Heap :=
  let v : Nat := (max 0 (min (2 ^ 49 - 1) x)).toNat
  { h with
    gneg := h.gneg || decide (x < 0), gsat := h.gsat || decide (2 ^ 49 ≤ x)
    resid := h.resid + v - tget 0 h.gain t, gain := tset 0 h.gain t v }

/-- A heap revision: release, heap, destination, task and operand registers, and whether it adds. -/
def revision (i : Instr) : Option (Bool × Fin 4 × SReg × SReg × SReg × Bool) :=
  match i with
  | .gadd rel h d a b => some (rel, h, d, a, b, true)
  | .gset rel h d a b => some (rel, h, d, a, b, false)
  | _ => none

/-- What a multiply needs: a valid grant, formats that agree, tiles and an image that the strand has declared, and no error (R235, R236). -/
def multiplies (s : State) (o : MmaOps) : Prop :=
  let g := s.me.gshape
  g.gv = true ∧ (o.t = .dflt ∨ o.t = tileTy g.fmt) ∧ ((o.ua || o.ub) = true → g.fmt = .int8)
    ∧ (g.fmt = .lns6 → g.gk % s.me.blen = 0) ∧ (o.z = false → ((tget {} s.me.zdim o.d).fp = true ↔ g.fmt ≠ .int8))
    ∧ o.a.val < s.me.tdecl ∧ o.b.val < s.me.tdecl ∧ o.d.val < s.me.zdecl ∧ s.me.tpois = [] ∧ s.me.zpois = []

/-! ### Events -/

/-- The oldest instruction in the queue of strand `sid`, which is not idle, is `o`, none behind it has completed, no register has an
error, and `v` is what `o` finds: its strand current, with the front end of its place in program order. -/
def OldestEntry (s : State) (sid : Nat) (o : VOp) (v : State) : Prop :=
  let u := switchTo sid s
  u.me.run = .running ∧ u.me.viq.head? = some o ∧ (u.me.viq.drop 1).all (fun p => !p.fin) = true ∧ u.me.pool = []
    ∧ (∀ d, u.me.wait ≠ some (.idle d)) ∧ u.me.vpois = [] ∧ u.me.onSteward = false ∧ v = { u with me := u.me.asEntry o }
    ∧ lazyOwner v = none

/-- The oldest instruction of strand `sid` has completed and left the queue, its flags count, and the front end stands as it stood. -/
def EntryDone (s t : State) (sid : Nat) (fl : FFlags) : Prop :=
  let m := s.strand sid
  let x := t.strand sid
  x.pc = m.pc ∧ x.run = m.run ∧ x.regs = m.regs ∧ x.vl = m.vl ∧ x.fflags = m.fflags.or fl
    ∧ x.viq.map (·.instr) = (m.viq.drop 1).map (·.instr)

/-- `s` with the current strand's instruction at issue and no older work, so that it acts at once. -/
def atOnce (s : State) : State := { s with deferred := false, me := { s.me with vop := none } }

/-- The order of R264: a promoted instruction first, the oldest of them; then fewer groups, then older, then the lower slot. -/
def Sooner (a b : Candidate) : Prop :=
  (a.promoted = true ∧ b.promoted = false)
    ∨ (a.promoted = true ∧ b.promoted = true ∧ (a.entered < b.entered ∨ (a.entered = b.entered ∧ a.slot < b.slot)))
    ∨ (a.promoted = false ∧ b.promoted = false ∧ (a.groups < b.groups ∨ (a.groups = b.groups
      ∧ (a.entered < b.entered ∨ (a.entered = b.entered ∧ a.slot < b.slot)))))

/-- What the expiry of a wait reports that names no lane (R251, R277). -/
def expired : Wait → Option Trap
  | .bsync b => some { cause := .watchdog, detail := 1, addr := word b }
  | .gbar => some { cause := .watchdog, detail := 2 }
  | .regclm _ => some { cause := .watchdog, detail := 3 }
  | .colwait => some { cause := .watchdog, detail := 4 }
  | .hpop h _ _ => some { cause := .watchdog, detail := 5, addr := word h }
  | .sbwait b _ _ => some { cause := .feTimeout, addr := word b }
  | .tldE b => some { cause := .feTimeout, addr := word b }
  | _ => none

end Sys2Proof.Spec
end

