-- ==== Sys2Proof/Certificates/Slice0/Obligations.lean ====
section
/-! DEFINITION. The statements for the provers. -/


open Sys2Proof Sys2Proof.Machine

/-! ### Scalar instructions -/

/-- R96, R97, R99, R117 to R124: every scalar integer and address instruction, and `nop`, completes wherever its registers can be read. The
destination takes the manual's result, at once where its latency is no more than 1 + SC or the result is interlocked, else with
older results until then; `s0` discards it; nothing else changes. -/
def Obligations.ScalarIntegerResult : Prop :=
  ∀ (i : Instr) (s : State) (x : Spec.AluSpec), Spec.alu i s = some x → Readable s x.reads →
    ∃ t, exec i s = .next t ∧ t.me.pc = nextPc s.me ∧ PassedHead s t
      ∧ t.finalVal x.dest = (if x.dest = 0 then 0 else x.value)
      ∧ (x.latency.getD 0 ≤ 1 + s.me.ir.sc → t.rd x.dest = if x.dest = 0 then 0 else x.value)
      ∧ (x.latency.getD 0 > 1 + s.me.ir.sc → t.rd x.dest = State.rd { s with me := s.me.age (1 + s.me.ir.sc) } x.dest)
      ∧ OtherRegs s t x.dest (1 + s.me.ir.sc) ∧ t.me.fflags = s.me.fflags ∧ t.me.line = s.me.line
      ∧ OnlyScalars s t ∧ OnlyMe s t ∧ ∀ k, t.home k = s.home k


/-- R18, R126 to R128: every scalar floating instruction completes wherever its registers can be read; the code of the once
rounded result, zero above its width, reaches the destination with latency 4, and its flags are raised at issue. -/
def Obligations.ScalarFloatResult : Prop :=
  ∀ (i : Instr) (s : State) (x : Spec.FpSpec), Spec.fpu i s = some x → Readable s x.reads →
    ∃ t, exec i s = .next t ∧ t.me.pc = nextPc s.me ∧ PassedHead s t
      ∧ t.finalVal x.dest = (if x.dest = 0 then 0 else BitVec.ofNat 64 x.result.bits)
      ∧ (4 ≤ 1 + s.me.ir.sc → t.rd x.dest = if x.dest = 0 then 0 else BitVec.ofNat 64 x.result.bits)
      ∧ OtherRegs s t x.dest (1 + s.me.ir.sc) ∧ t.me.fflags = s.me.fflags.or x.result.fl ∧ t.me.line = s.me.line
      ∧ OnlyScalars s t ∧ OnlyMe s t ∧ ∀ k, t.home k = s.home k

/-- R91, R92, R129 to R131: every branch, call and return completes wherever its registers can be read: it goes to its target
where it transfers and to the following head where it does not; a link register takes the PC of the following head. -/
def Obligations.TransferResult : Prop :=
  ∀ (i : Instr) (s : State) (x : Spec.JumpSpec), Spec.jump i s = some x → Readable s x.reads →
    ∃ t, exec i s = .next t ∧ t.me.pc = (if x.taken then x.goal else nextPc s.me) ∧ PassedHead s t
      ∧ (∀ d, x.link = some d → t.rd d = (if d = 0 then 0 else nextPc s.me) ∧ OtherRegs s t d (1 + s.me.ir.sc))
      ∧ (x.link = none → ∀ r, t.rd r = State.rd { s with me := s.me.age (1 + s.me.ir.sc) } r)
      ∧ t.me.fflags = s.me.fflags ∧ OnlyScalars s t ∧ OnlyMe s t ∧ ∀ k, t.home k = s.home k

/-- R98: a head that reads a register whose youngest writer is undelivered traps STALL_SHORT with SCHK set, before any effect:
the producer's PC in TRAPADDR, the register number in DETAIL. -/
def Obligations.StallShortTraps : Prop :=
  ∀ (i : Instr) (s : State) (rs : List SReg) (r : SReg) (p : Pend),
    ((∃ x, Spec.alu i s = some x ∧ rs = x.reads) ∨ (∃ x, Spec.fpu i s = some x ∧ rs = x.reads)
      ∨ ∃ x, Spec.jump i s = some x ∧ rs = x.reads) →
    s.me.schk = true → rs.find? (fun q => decide (q.val ≠ 0 ∧ ∃ w ∈ s.me.pend, w.reg = q)) = some r →
    s.me.pend.reverse.find? (fun w => w.reg = r) = some p → Handled s →
    ∃ t, exec i s = .next t ∧ Takes s t { cause := .stallShort, detail := r.val, addr := p.pc }


/-! ### System registers, traps, stopping -/

/-- R31, R132: `mfs` completes for every register that the level may read and delivers its value at once; R31 also: a register
of the trap handler is denied to APP, with the number in DETAIL. What CAPSHAPE shows is log entry 78. -/
def Obligations.SystemRegisterRead : Prop :=
  ∀ (d : SReg) (n : Fin 1024) (s : State), s.me.onSteward = false →
    ((s.me.priv ≠ .app ∨ Spec.appReads n = true) → (vectorSys n = true → vown s = none) →
      ∃ t, exec (.mfs d n) s = .next t ∧ t.rd d = (if d = 0 then 0 else readSys s n) ∧ t.me.pc = nextPc s.me ∧ PassedHead s t
        ∧ OtherRegs s t d (1 + s.me.ir.sc) ∧ t.me.fflags = s.me.fflags ∧ OnlyScalars s t ∧ OnlyMe s t ∧ ∀ k, t.home k = s.home k)
    ∧ (s.me.priv = .app → Spec.appReads n = false → Handled s →
      ∃ t, exec (.mfs d n) s = .next t ∧ Takes s t { cause := .priv, detail := n.val })

/-- R31, R32, R132: `mts` completes where the level may write the register and no reserved encoding would be placed: the register
takes the value under its write rule. A read-only register, and at APP every register but STRCTL, FRM, FFLAGS, TSHAPE and ZDIM,
is denied, with the number in DETAIL; a refused value traps ILLEGAL_INSN with DETAIL 6 and writes nothing. Which values of
TRAPCAUSE are refused is log entry 77. -/
def Obligations.SystemRegisterWrite : Prop :=
  ∀ (n : Fin 1024) (a : SReg) (s : State), s.me.onSteward = false → Readable s [a] → (vectorSys n = true → vown s = none) →
    (Spec.readOnly n = false → (s.me.priv ≠ .app ∨ Spec.appWrites n = true) →
      (∀ u, writeSys s n (s.rd a) = some u → ∃ t, exec (.mts n a) s = .next t ∧ t = finish u ∧ t.me.pc = nextPc s.me
        ∧ PassedHead s t ∧ OnlyMe s t ∧ (∀ r, t.rd r = State.rd { s with me := s.me.age (1 + s.me.ir.sc) } r)
        ∧ ∀ k, t.home k = s.home k)
      ∧ (writeSys s n (s.rd a) = none → Handled s → ∃ t, exec (.mts n a) s = .next t ∧ Takes s t { cause := .illegalInsn, detail := 6 }))
    ∧ ((Spec.readOnly n = true ∨ (s.me.priv = .app ∧ Spec.appWrites n = false)) → Handled s →
      ∃ t, exec (.mts n a) s = .next t ∧ Takes s t { cause := .priv, detail := n.val })

/-- The write rules of R32, R33, R36: what a permitted `mts` to STRCTL, VL, VSTART, FRM, FFLAGS, DEADMASK and TRAPVEC leaves. -/
def Obligations.WriteRules : Prop :=
  ∀ (s : State) (x : Word),
    (∀ u, writeSys s 0 x = some u → u.me.schk = x.getLsbD 6 ∧ u.me.sstrict = x.getLsbD 5 ∧ u.me.priv = s.me.priv
      ∧ u.me.vheld = s.me.vheld ∧ u.me.tdecl = s.me.tdecl ∧ u.me.zdecl = s.me.zdecl ∧ u.me.vlmaxc = s.me.vlmaxc
      ∧ u.me.mstack = s.me.mstack ∧ u.me.trapon = (if s.me.priv = .app then s.me.trapon else x.getLsbD 7))
    ∧ (∃ u, writeSys s 1 x = some u ∧ u.me.vl = min x.toNat s.me.vlmax ∧ OnlyMe s u)
    ∧ (∃ u, writeSys s 3 x = some u ∧ u.me.vstart = x.toNat % 2048 ∧ OnlyMe s u)
    ∧ (x.toNat % 8 ≥ 5 → writeSys s 4 x = none) ∧ (x.toNat % 8 < 5 → ∃ u, writeSys s 4 x = some u ∧ rmCode u.me.frm = x.toNat % 8)
    ∧ (∃ u, writeSys s 5 x = some u ∧ u.me.fflags.toNat = x.toNat % 128)
    ∧ (∀ w : Fin 16, ∃ u, writeSys s (0x40 + w.val) x = some u ∧ OnlyMe s u ∧ ∀ l : Fin 1024,
      u.me.deadmask.getLsbD l =
        (decide (l.val < s.me.vlmax) && if l.val / 64 = w.val then x.getLsbD (l.val % 64) else s.me.deadmask.getLsbD l))
    ∧ ∃ u, writeSys s 0x100 x = some u ∧ u.me.trapvec = x ∧ OnlyMe s u




/-- R134, R138 to R140: `sysc`, `brk` and a `trap` that is taken enter the handler: the PC of the trapping head, the cause, the
level it came from and the head are saved, TRAPON is set, APP becomes SUP, every outstanding result is delivered, and nothing
else changes. A `trap` whose register is zero has no effect. Where the debugger holds the strand's tenant unlocked with
stop-on-break set, `brk` completes and its crew is held. -/
def Obligations.SoftwareTraps : Prop :=
  ∀ s : State,
    (∀ (i : Instr) (rs : List SReg) (x : Trap), Spec.softTrap i s rs x → Readable s rs → Handled s →
      ∃ t, exec i s = .next t ∧ Takes s t x ∧ ∀ k, t.home k = s.home k)
    ∧ (∀ (a : SReg) (code : Fin 256) (detail : BitVec 16), a.val ≠ 0 → Readable s [a] → s.rd a = 0 →
      ∃ t, exec (.trap a code detail) s = .next t ∧ t.me.pc = nextPc s.me ∧ PassedHead s t ∧ OnlyScalars s t ∧ OnlyMe s t
        ∧ AgedRegs s t ∧ t.me.fflags = s.me.fflags)
    ∧ (stopsOnBreak s = true → ∀ n : Fin 16,
      ∃ t, exec (.brk n) s = .next t ∧ t.me.pc = nextPc s.me ∧ (t.crew s.me.crew).dbgHold = true
        ∧ t.events = s.events ++ [.preemptRequest s.me.crew] ∧ t.me.trapon = s.me.trapon ∧ t.mem = s.mem)

/-- R137: `tret` in a handler at SUP or HYP lowers the level to the smaller of TRAPCAUSE.FROM and its own, clears TRAPON, delivers
every result and goes to TRAPPC, or after it under `.next`; `.kill` first adds the lanes of TRAPMASK below VLMAX to DEADMASK.
Outside a handler it traps ILLEGAL_INSN with DETAIL 6. That DETAIL 6 comes before PRIV at APP is log entry 65. -/
def Obligations.TrapReturn : Prop :=
  ∀ (mode : TretMode) (s : State),
    (s.me.trapon = true → s.me.priv ≠ .app →
      ∀ p, (match mode with
        | .retry => p = s.me.trappc
        | .kill => p = s.me.trappc
        | .next => ∃ hs, fetchLine s (s.me.trappc.toNat / 64 * 64) = .line hs ∧ p = Spec.following s.me.trappc (headCount hs)) →
      ∃ t, exec (.tret mode) s = .next t ∧ t.me.pc = p ∧ t.me.trapon = false
        ∧ t.me.priv.code = min (s.me.trapcause.toNat / 256 % 4) s.me.priv.code
        ∧ (∀ r, t.rd r = s.finalVal r) ∧ PassedHead s t ∧ OnlyMe s t
        ∧ t.me.deadmask = (if mode = .kill then s.me.deadmask ||| Spec.lanesBelow s.me.vlmax s.me.trapmask else s.me.deadmask)
        ∧ t.me = { s.me with
            regs := t.me.regs, pend := t.me.pend, priv := t.me.priv, trapon := false, pc := p, via := t.me.via
            line := t.me.line, deadmask := t.me.deadmask, everDead := t.me.everDead })
    ∧ (s.me.trapon = false → Handled s → ∃ t, exec (.tret mode) s = .next t ∧ Takes s t { cause := .illegalInsn, detail := 6 })



/-- R34, R47, R133, R142: while older queued work of the strand remains a trap is not taken, and the head waits. Else a trap while TRAPON is
1 runs no handler: the crew ends with a fault completion that carries the cause in TRAPCAUSE, TRAPPC and TRAPADDR as they stand, and
the new cause second; the trap registers are not rewritten. With TRAPVEC.HEAD 0, or of a strand that has halted, a POISON trap that
concerns lanes makes them dead and executes the instruction again; any other cause ends the crew with a fault completion that
carries the PC, the cause and the address. That the lanes' death is no trap entry is log entry 69. -/
def Obligations.UnhandledTraps : Prop :=
  ∀ (x : Trap) (s : State),
    let t := takeTrap x s
    (s.me.viq ≠ [] → t.me.wait = some .viq ∧ t.me.pc = s.me.pc ∧ t.me.regs = s.me.regs ∧ t.me.trapon = s.me.trapon ∧ OnlyMe s t)
    ∧ (s.me.viq = [] → s.landing s.cur = false →
      (s.me.trapon = true → s.me.run ≠ .halted → s.me.onSteward = false → s.myCrew.state ≠ .ended → s.cur ∈ s.myCrew.sids →
        (t.crew s.me.crew).state = .ended ∧ (t.crew s.me.crew).status = 1
          ∧ (t.crew s.me.crew).cause1 = s.me.trapcause.toNat % 256 ∧ (t.crew s.me.crew).cause2 = x.cause.code
          ∧ (t.crew s.me.crew).tpc = s.me.trappc ∧ (t.crew s.me.crew).taddr = s.me.trapaddr
          ∧ (t.crew s.me.crew).causeStrand = s.me.index ∧ t.me.run = .drained ∧ t.me.trappc = s.me.trappc
          ∧ t.me.trapcause = s.me.trapcause ∧ t.me.trapaddr = s.me.trapaddr ∧ t.me.regs = s.me.regs)
      ∧ (s.me.run = .halted ∨ (s.me.trapon = false ∧ s.me.trapvec.toNat % 64 = 0) →
        (x.cause = .poison → x.lanes ≠ 0 →
          t.me.deadmask = s.me.deadmask ||| x.lanes ∧ t.me.pc = s.me.pc ∧ t.me.regs = s.me.regs ∧ t.me.trapon = s.me.trapon ∧ OnlyMe s t)
        ∧ (x.cause ≠ .poison → s.me.onSteward = false → s.myCrew.state ≠ .ended →
          (t.crew s.me.crew).state = .ended ∧ (t.crew s.me.crew).status = 1
            ∧ (t.crew s.me.crew).cause1 = x.cause.code ∧ (t.crew s.me.crew).cause2 = 0
            ∧ (t.crew s.me.crew).tpc = s.me.pc ∧ (t.crew s.me.crew).taddr = x.addr)))

/-- R141 to R143: `yield` completes and stops the strand where it has been asked to stop; `idle` waits, with its deadline where
the a field names a register, and completes at once where a pre-emption is asked for (its stall count holds back no head, R95,
log entry 80); `halt` on a compute core ends the strand, delivers its results, takes it out of every band and leaves its other members. Which events end an idle is log entry 36. -/
def Obligations.StoppingAndWaiting : Prop :=
  ∀ s : State,
    (∃ t, exec .yield s = .next t ∧ t.me.pc = nextPc s.me ∧ t.me.run = (if s.me.stopReq then .stopped else s.me.run)
      ∧ PassedHead s t ∧ OnlyMe s t ∧ AgedRegs s t ∧ t.me.fflags = s.me.fflags
      ∧ (s.me.stopReq = false → OnlyScalars s t)
      ∧ (s.me.stopReq = true → OnlyScalars { s with me := { s.me with
          run := .stopped, stopReq := false, stopAt := t.me.stopAt, strip := t.me.strip, links := [] } } t))
    ∧ (∀ a, Readable s [a] → ∃ t, exec (.idle a) s = .next t ∧ OnlyMe s t
      ∧ (s.me.stopReq = true → t.me.pc = nextPc s.me ∧ s.cycle < t.cycle ∧ AgedRegs s t ∧ OnlyScalars s t ∧ t.me.fflags = s.me.fflags)
      ∧ (s.me.stopReq = false → Waits s t (.idle (if a.val = 0 then none else some (s.rd a).toNat))))
    ∧ (s.me.onSteward = false → s.me.wait = none → s.me.index < 32 → twf 0 s.myCrew.bands = true →
      ∃ t, exec .halt s = .next t ∧ t.me.run = .halted ∧ (∀ r, t.rd r = s.finalVal r) ∧ .strandDrained s.cur ∈ t.events
        ∧ (∀ b, tget 0 (t.crew s.me.crew).bands b = tget 0 s.myCrew.bands b &&& ~~~(BitVec.ofNat 32 (2 ^ s.me.index)))
        ∧ t.mem = s.mem ∧ t.me.pc = s.me.pc ∧ t.me.fflags = s.me.fflags
        ∧ OnlyScalars { s with me := { s.me with run := .halted, stopReq := false } } t)

/-- R465: on a Steward core, whose strand queues nothing, `halt` ends the program with DONE set, and a trap that no handler takes with
FAULT and the cause. -/
def Obligations.StewardStops : Prop :=
  ∀ s : State, s.me.onSteward = true →
    (∃ t, exec .halt s = .next t ∧ t.me.run = .drained
      ∧ (tget {} t.plat.steward (s.me.core - 416)).done = true ∧ (tget {} t.plat.steward (s.me.core - 416)).busy = false)
    ∧ ∀ x : Trap, s.me.viq = [] → s.landing s.cur = false → x.cause ≠ .poison → (s.me.trapon = true ∨ s.me.trapvec.toNat % 64 = 0) →
      (takeTrap x s).me.run = .drained ∧ (tget {} (takeTrap x s).plat.steward (s.me.core - 416)).fault = true
        ∧ (tget {} (takeTrap x s).plat.steward (s.me.core - 416)).code = x.cause.code
        ∧ (tget {} (takeTrap x s).plat.steward (s.me.core - 416)).busy = false

/-! ### Bands, barriers, the register pool, queries, launch -/

/-- R144, R145, R147: `join` and `leave` put the strand into a band and take it out, and leave every other band and member;
`elect` answers 1 to the lowest member of a band that has the strand, and 0 to every other. -/
def Obligations.BandMembership : Prop :=
  ∀ (b : Fin 16) (s : State), s.me.onSteward = false → s.me.wait = none →
    (∃ t, exec (.join b) s = .next t ∧ t.me.pc = nextPc s.me ∧ PassedHead s t
      ∧ tget 0 (t.crew s.me.crew).bands b = tget 0 s.myCrew.bands b ||| BitVec.ofNat 32 (2 ^ s.me.index)
      ∧ (∀ c, c ≠ b.val → tget 0 (t.crew s.me.crew).bands c = tget 0 s.myCrew.bands c)
      ∧ (∀ c, c ≠ s.me.crew → t.crew c = s.crew c) ∧ t = { s with me := t.me, cycle := t.cycle, crews := t.crews }
      ∧ OnlyScalars s t ∧ AgedRegs s t ∧ t.me.fflags = s.me.fflags)
    ∧ (∃ t, exec (.leave b) s = .next t ∧ t.me.pc = nextPc s.me ∧ PassedHead s t
      ∧ tget 0 (t.crew s.me.crew).bands b = tget 0 s.myCrew.bands b &&& ~~~(BitVec.ofNat 32 (2 ^ s.me.index))
      ∧ (∀ c, c ≠ b.val → tget 0 (t.crew s.me.crew).bands c = tget 0 s.myCrew.bands c)
      ∧ (∀ c, c ≠ s.me.crew → t.crew c = s.crew c)
      ∧ t = { s with me := t.me, others := t.others, cycle := t.cycle, crews := t.crews } ∧ OnlyScalars s t
      ∧ AgedRegs s t ∧ t.me.fflags = s.me.fflags)
    ∧ ∀ d : SReg, ∃ t, exec (.elect d b) s = .next t ∧ t.me.pc = nextPc s.me ∧ PassedHead s t
      ∧ (d ≠ 0 → s.me.index < 16 → t.rd d =
        if (tget 0 s.myCrew.bands b).getLsbD s.me.index ∧ ∀ j < s.me.index, (tget 0 s.myCrew.bands b).getLsbD j = false then 1 else 0)
      ∧ OtherRegs s t d (1 + s.me.ir.sc) ∧ OnlyScalars s t ∧ OnlyMe s t ∧ t.me.fflags = s.me.fflags



/-- R95, R146, R148: `bsync` of a member completes when every other member that has not halted has arrived, which ends the phase, and
else waits at the head with its arrival noted; of a strand outside the band it traps ILLEGAL_INSN with DETAIL 6. `gbar` of a grid
with CORES, of whose core no store awaits another device, completes when every strand of the grid that has not halted has arrived and
all crews are dispatched, and else waits; its core's stores have reached their homes, and at completion its core uses no older
first-level line. Where such a store remains it waits for it. Without CORES it traps GBAR_ILLEGAL. -/
def Obligations.Barriers : Prop :=
  ∀ s : State, s.me.onSteward = false → s.me.run = .running → s.me.wait = none →
    (∀ b : Fin 16, s.me.index < 32 → s.myCrew.sids[s.me.index]? = some s.cur →
      let set := tget 0 s.myCrew.bands b
      let others := (List.range s.myCrew.sids.length).filter fun j => j ≠ s.me.index && set.getLsbD j && running s (s.myCrew.sids.getD j 0)
      (set.getLsbD s.me.index = true →
        (others.all (fun j => (tget 0 s.myCrew.arrived b).getLsbD j) = true →
          ∃ t, exec (.bsync b) s = .next t ∧ t.me.wait = none ∧ t.me.pc = nextPc s.me ∧ PassedHead s t
            ∧ tget 0 (t.crew s.me.crew).arrived b = 0 ∧ t.mem = s.mem
            ∧ WaitedScalars s t ∧ AgedRegs s t ∧ t.me.fflags = s.me.fflags)
        ∧ (others.any (fun j => !(tget 0 s.myCrew.arrived b).getLsbD j) = true →
          ∃ t, exec (.bsync b) s = .next t ∧ Waits s t (.bsync b)
            ∧ (tget 0 (t.crew s.me.crew).arrived b).getLsbD s.me.index = true ∧ t.mem = s.mem))
      ∧ (set.getLsbD s.me.index = false → Handled s →
        ∃ t, exec (.bsync b) s = .next t ∧ Takes s t { cause := .illegalInsn, detail := 6 }))
    ∧ (s.myGrid.lrec.cores = true →
      let u := drainCore s.me.core s
      let linked (t : State) : State := { s with me := { s.me with links := t.me.links } }
      let done := s.myGrid.dispatched = s.myGrid.lrec.crews ∧ ∀ e ∈ s.crews, e.2.grid = s.myCrew.grid → e.2.state ≠ .ended →
        ∀ sid ∈ e.2.sids, running s sid = true → sid = s.cur ∨ sid ∈ s.myGrid.arrived
      ((∀ x ∈ u.rstores, x.core ≠ s.me.core) →
        (done → ∃ t, exec .gbar s = .next t ∧ t.me.wait = none ∧ t.me.pc = nextPc s.me ∧ PassedHead s t
          ∧ (t.grid s.myCrew.grid).arrived = [] ∧ WaitedScalars (linked t) t ∧ AgedRegs s t ∧ t.me.fflags = s.me.fflags
          ∧ (∀ l ∈ t.l1, l.core ≠ s.me.core) ∧ (∀ p ∈ t.sbuf, p.core ≠ s.me.core) ∧ t.mem = u.mem)
        ∧ (¬ done → ∃ t, exec .gbar s = .next t ∧ Waits (linked t) t .gbar
          ∧ s.cur ∈ (t.grid s.myCrew.grid).arrived ∧ (∀ p ∈ t.sbuf, p.core ≠ s.me.core) ∧ t.mem = u.mem))
      ∧ ((∃ x ∈ u.rstores, x.core = s.me.core) → ∃ t, exec .gbar s = .next t ∧ Waits (linked t) t .acks ∧ t.mem = u.mem))
    ∧ (s.myGrid.lrec.cores = false → Handled s →
      ∃ t, exec .gbar s = .next t ∧ Takes s t { cause := .gbarIllegal })

/-- R149, R150, R273: a claim that the free rows cover, with no claim before it, is granted at once; one that they do not cover
waits; more than 64 registers, or more rows than the quota, trap REG_QUOTA. A release lowers VHELD, and the registers above it
read zero; a release of more than is held traps. When released rows are free, and that a release waits for queued instructions that name
none of its registers, is log entry 38. -/
def Obligations.RegisterPool : Prop :=
  ∀ (n : Fin 128) (s : State), s.me.onSteward = false → vown s = none → s.me.wait = none →
    let need := n.val * rowsPer s.myCrew.decl
    (s.me.vheld + n.val ≤ 64 → need ≤ s.myCrew.decl.quota → s.myCrew.claims = [] →
      (need ≤ s.myCrew.freeRows.length → ∃ t, exec (.regclm n) s = .next t ∧ t.me.wait = none ∧ t.me.pc = nextPc s.me
        ∧ PassedHead s t ∧ t.me.vheld = s.me.vheld + n.val
        ∧ (t.crew s.me.crew).freeRows.length = s.myCrew.freeRows.length - need
        ∧ (t.crew s.me.crew).claims = [] ∧ t.mem = s.mem
        ∧ (∀ v l, v < s.me.vheld → l < 1024 → t.me.box v l = s.me.box v l) ∧ AgedRegs s t ∧ t.me.fflags = s.me.fflags
        ∧ (s.me.viq = [] → t.me.pool = s.me.pool)
        ∧ WaitedScalars { s with me := { s.me with
            vheld := t.me.vheld, vregs := t.me.vregs, vpois := t.me.vpois, pool := t.me.pool } } t)
      ∧ (s.myCrew.freeRows.length < need → ∃ t, exec (.regclm n) s = .next t ∧ Waits s t (.regclm n)
        ∧ (t.crew s.me.crew).claims = [⟨s.cur, n, need⟩] ∧ t.mem = s.mem))
    ∧ (s.me.vheld + n.val > 64 → Handled s →
      ∃ t, exec (.regclm n) s = .next t ∧ Takes s t { cause := .regQuota, detail := 1, addr := word need })
    ∧ (s.me.vheld + n.val ≤ 64 → need > s.myCrew.decl.quota → Handled s →
      ∃ t, exec (.regclm n) s = .next t ∧ Takes s t { cause := .regQuota, detail := 2, addr := word need })
    ∧ (n.val ≤ s.me.vheld →
      (s.me.viq.all (·.namesAbove (s.me.vheld - n.val)) = true →
        ∃ t, exec (.regrel n) s = .next t ∧ t.me.vheld = s.me.vheld - n.val ∧ t.me.pc = nextPc s.me ∧ PassedHead s t
        ∧ (∀ v l, v < s.me.vheld - n.val → l < 1024 → t.me.box v l = s.me.box v l)
        ∧ (∀ v l, s.me.vheld - n.val ≤ v → v < s.me.vheld → l < 32 * rowsPer s.myCrew.decl → l < 1024 → t.me.box v l = 0)
        ∧ t.events = s.events ++ [.rowsFreed s.me.crew] ∧ t.mem = s.mem ∧ AgedRegs s t ∧ t.me.fflags = s.me.fflags
        ∧ (s.me.viq = [] → t.me.pool = s.me.pool)
        ∧ OnlyScalars { s with me := { s.me with
            vheld := t.me.vheld, vregs := t.me.vregs, vpois := t.me.vpois, pool := t.me.pool } } t)
      ∧ (s.me.viq.all (·.namesAbove (s.me.vheld - n.val)) = false → ∃ t, exec (.regrel n) s = .next t ∧ Waits s t .viq ∧ OnlyMe s t))
    ∧ (s.me.vheld < n.val → Handled s →
      ∃ t, exec (.regrel n) s = .next t ∧ Takes s t { cause := .regQuota, detail := 3, addr := word need })

/-- R152, R154, R347, R351, R362: a work query of a 16-byte aligned place inside the crew's scratchpad, with fewer than two outstanding,
is sent to the Factor, which it reaches later by the way from the core, and the strand goes on. A device-side launch, once the core's
older stores are performed at device scope, answers 2 where the queue is not open to the strand, 3 for a record that fails the checks
at posting, 1 where the queue is full, and else stores the record's 128 bytes into the slot of the write index, advances the index and
answers 0; `s0` discards the answer. WR 1 of the query's traps is log entry 18. -/
def Obligations.QueryAndLaunch : Prop :=
  (∀ (i : Instr) (a : SReg) (imm : Imm) (s : State),
     ((i = .wqry a ∧ imm = 0) ∨ i = .wqryImm a imm) → s.me.onSteward = false → Readable s [a] →
     (s.ea a imm).toNat % 16 = 0 → (s.ea a imm).toNat + 16 ≤ s.myCrew.decl.spbytes →
     (s.myCrew.queries.filter (·.sid = s.cur)).length < 2 →
     ∃ t, exec i s = .next t ∧ t.me.pc = nextPc s.me ∧ PassedHead s t
       ∧ (t.crew s.me.crew).queries = s.myCrew.queries ++ [⟨s.cur, (s.ea a imm).toNat, none⟩]
       ∧ (t.grid s.myCrew.grid).asks = s.myGrid.asks ++ [(s.cycle + (if dieOf s.me.core = 0 then 30 else 38), s.cur)]
       ∧ t = { s with me := t.me, cycle := t.cycle, crews := t.crews, grids := t.grids } ∧ OnlyScalars s t
       ∧ AgedRegs s t ∧ t.me.fflags = s.me.fflags)
  ∧ (∀ (i : Instr) (d a b : SReg) (imm : Imm) (s : State) (k : Nat),
       ((i = .launch d a b ∧ imm = 0) ∨ i = .launchImm d a b imm) → s.me.onSteward = false → Readable s [a, b] →
       (s.ea a imm).toNat % 128 = 0 → translate s s.ctx .rd (s.ea a imm).toNat = .ok (.cell k) →
       let u := drainCore s.me.core s
       let v := touch k u
       (∀ x ∈ u.rstores, x.core ≠ s.me.core) → lostDevice u k = none → u.poisonedFor s.me.core k 128 = false →
       let bytes := u.viewBytes s.me.core k 128
       let n := (s.rd b).toNat
       let q := s.queue n
       let mayPost := n < 512 ∧ q.dev = true ∧ q.en = true ∧ q.vf = s.ctx.vf ∧ q.part = s.ctx.part
       let answers (t : State) (c : Word) : Prop := t.rd d = (if d = 0 then 0 else c) ∧ t.me.pc = nextPc s.me ∧ PassedHead s t
         ∧ OtherRegs s t d (1 + s.me.ir.sc) ∧ ScalarsAndLinks s t ∧ t.me.fflags = s.me.fflags
       let turned (c : Word) : Prop := ∃ t, exec i s = .next t ∧ answers t c ∧ OnlyMe v t ∧ ∀ x, t.home x = u.home x
       (¬ mayPost → turned 2)
       ∧ (mayPost → postCheck (parseRec bytes) ≠ 0 → turned 3)
       ∧ (mayPost → postCheck (parseRec bytes) = 0 → queueFull q = true → turned 1)
       ∧ ∀ kq, mayPost → postCheck (parseRec bytes) = 0 → queueFull q = false → lostTier2 v kq = false →
         translate v { v.ctx with app := false } .wr (slotAddr q q.widx.toNat) = .ok (.cell kq) →
         ∃ t, exec i s = .next t ∧ answers t 0 ∧ (t.queue n).widx = q.widx + 1
           ∧ (∀ j < 128, t.home (kq + j) = bytes.getD j 0) ∧ ∀ x, (x < kq ∨ kq + 128 ≤ x) → t.home x = u.home x)



/-- R155 to R157: `vsave` at SUP or HYP writes the strand's vector image (here to one page) and leaves the strand's vector context
as it is; `vrestore` of an image that passes the checks takes VL, VSTART, VHELD, DEADMASK and every register from it. What else the
checks count as reserved is log entry 70. -/
def Obligations.VectorContext : Prop :=
  ∀ (a : SReg) (imm : Imm) (s : State), s.me.onSteward = false → s.me.priv ≠ .app → Readable s [a] → lazyOwner s = none →
    (s.ea a imm).toNat % 64 = 0 →
    let va := (s.ea a imm).toNat
    let img := vectorImage s.me s.myCrew.index (gridId s.myGrid s.myCrew.grid)
    (∀ i pages, ((i = .vsave a ∧ imm = 0) ∨ i = .vsaveImm a imm) → s.me.vpois = [] →
      pagesOf s s.ctx .wr va (pageCount va img.length) = .ok pages →
      ∃ t, exec i s = .next t ∧ t.me.pc = nextPc s.me ∧ ScalarsAndLinks s t ∧ AgedRegs s t
        ∧ t.me.fflags = s.me.fflags
        ∧ (∀ page k, pages = [(page, k)] → isGeneric k = true → isGeneric (k + 65536) = true →
          t.mem = s.mem ∧ (∀ j < img.length, t.view s.me.core (k + (va - page) + j) = img.getD j 0)
          ∧ ∀ x, (x < k + (va - page) ∨ k + (va - page) + img.length ≤ x) → t.view s.me.core x = s.view s.me.core x))
    ∧ ∀ i pages0 pages, ((i = .vrestore a ∧ imm = 0) ∨ i = .vrestoreImm a imm) → s.me.wait = none →
      (∀ c ∈ s.myCrew.claims, c.sid ≠ s.cur) →
      pagesOf s s.ctx .rd va (pageCount va 3392) = .ok pages0 →
      let st := field (readRange s pages0 va 3392) 24 8
      let len := if bits st 47 41 ≤ 64 ∧ bits st 32 31 ≠ 3 then imageLen (bits st 47 41) (256 * 2 ^ bits st 32 31) else 3392
      pagesOf s s.ctx .rd va (pageCount va len) = .ok pages → rangePoison s pages va len = none →
      let img := readRange s pages va len
      imageCheck s.me s.myCrew.index (gridId s.myGrid s.myCrew.grid)
        (s.myCrew.freeRows.length + s.me.vheld * rowsPer s.myCrew.decl) img = 0 →
      ∃ t, exec i s = .next t ∧ t.me.pc = nextPc s.me ∧ t.me.vl = field img 0 8 ∧ t.me.vstart = field img 16 8 % 2048
        ∧ t.me.vheld = bits st 47 41 ∧ t.me.deadmask.toNat = field img 64 128
        ∧ (∀ v l, v < bits st 47 41 → l < s.me.vlmax → t.me.box v l = field img (3392 + 4 * (v * s.me.vlmax + l)) 4)
        ∧ t.mem = s.mem ∧ AgedRegs s t ∧ t.me.fflags = s.me.fflags
        ∧ OnlyScalars { s with me := { s.me with
            vl := t.me.vl, vtype := t.me.vtype, vstart := t.me.vstart, vheld := t.me.vheld, deadmask := t.me.deadmask
            everDead := t.me.everDead, masks := t.me.masks, mstack := t.me.mstack, vregs := t.me.vregs, vpois := t.me.vpois } } t

/-- R158: `scrub` at HYP answers 2 for a bad operand, 1 where the unit holds a resident crew or an owner's dispatch is not
stopped, and else zeroes what it names and answers 0; `s0` discards the answer, and with an answer that is not 0 nothing is zeroed.
Below HYP it traps PRIV. Here: a core's lane-local store, and a cluster's scratchpad. That 2 comes before 1 is log entry 75. -/
def Obligations.ScrubZeroes : Prop :=
  ∀ (csp tile reg ll : Bool) (d a : SReg) (s : State), Readable s [a] →
    (s.me.priv = .hyp → ∃ t, exec (.scrub csp tile reg ll d a) s = .next t ∧ t.me.pc = nextPc s.me
      ∧ OtherRegs s t d (1 + s.me.ir.sc) ∧ OnlyScalars s t ∧ t.me.fflags = s.me.fflags ∧ PassedHead s t
      ∧ t = { s with me := t.me, cycle := t.cycle, mem := t.mem, full := t.full, mpois := t.mpois }
      ∧ (let x := (s.rd a).toNat
         let status := (scrubRun csp tile reg ll x s).2
         let zeroed (k : Nat) : Prop := (∀ o < 2 ^ 32, t.home (k + o) = 0) ∧ ∀ a, (a < k ∨ k + 2 ^ 32 ≤ a) → t.home a = s.home a
         let bare : Prop := ∀ e ∈ s.crews, e.2.state = .ended ∧ e.2.lazy = false
         t.rd d = (if d = 0 then 0 else word status) ∧ (status ≠ 0 → OnlyMe s t) ∧ (x / 2 ^ 16 ≠ 0 → status = 2)
         ∧ (∀ c < 72, x = 2 ^ 15 + c → tile = false → reg = false → ll = false →
           ((∃ e ∈ s.crews, e.2.state = .resident ∧ e.2.core ∈ coresOf c) → status = 1)
           ∧ (bare → (∀ y ∈ coresOf c, ∀ p ∈ ownersOf s y none, p ≥ 64 ∨ (s.part p).stop = true) →
             status = 0 ∧ zeroed (cspKey c 0)))
         ∧ ∀ c < 416, x = c → csp = false →
           ((∃ e ∈ s.crews, e.2.state = .resident ∧ e.2.core = c ∧ ((s.assign c).split = true → e.2.half = false)) → status = 1)
           ∧ (bare → (∀ p ∈ ownersOf s c none, p ≥ 64 ∨ (s.part p).stop = true) →
             status = 0 ∧ (ll = true → zeroed (laneKey c 0)) ∧ (ll = false → OnlyMe s t))))
    ∧ (s.me.priv ≠ .hyp → Handled s → ∃ t, exec (.scrub csp tile reg ll d a) s = .next t ∧ Takes s t { cause := .priv })

/-! ### Vector instructions -/

/-- R20, R21, R162, R163, R170 to R172, R183, R184: every lane-by-lane integer, floating and move instruction of an element type
that it accepts, on registers that the strand holds, completes: each active lane of the destination has the exact result at the
element's width, rounded once where it is floating, with zeros above the width; every other container is as it was; the lanes'
flags are merged into FFLAGS. -/
def Obligations.LaneResult : Prop :=
  ∀ (i : Instr) (s : State) (x : Spec.VecSpec), Spec.vec i s = some x → VecReady s → Readable s x.reads →
    s.me.badTy x.ty x.accepts = false → x.immOk (s.me.elemTy x.ty) = true → Held s (s.me.elemTy x.ty) (x.dst :: x.names) →
    let e := s.me.elemTy x.ty
    let lanes := s.me.lanes x.mask
    ∃ t, exec i s = .next t ∧ VecDone s t ∧ (∀ l ∈ lanes, t.me.boxes e x.dst l = (x.result e l).bits % 2 ^ tyBits e)
      ∧ OtherLanes s t (regsOf e x.dst) lanes ∧ t.me.fflags = s.me.fflags.or (orFlags (lanes.map (x.result e)))
      ∧ t.me.masks = s.me.masks ∧ t.me.vl = s.me.vl ∧ AgedRegs s t

/-- R165, R173 to R176: a conversion whose destination is not LNS6 gives each active lane the exact value of its element, rounded
or clamped once. That the mode rounds LNS6 to FP32 too is log entry 76. -/
def Obligations.ConversionResult : Prop :=
  ∀ (dt st : Ty) (mode : CvtMode) (d a : VReg) (m : MReg) (s : State), dt ≠ .lns6 → dt ≠ .dflt → st ≠ .dflt → VecReady s →
    Readable s (Spec.modeReads mode) → Held s dt [d] → Held s st [a] → (∀ v ∈ Spec.modeNames mode, v.val < s.me.vheld) →
    let lanes := s.me.lanes m
    ∃ t, exec (.vcvt dt st mode d a m) s = .next t ∧ VecDone s t
      ∧ (∀ l ∈ lanes, t.me.boxes dt d l = (Spec.convert dt st mode s.me a l).bits % 2 ^ tyBits dt)
      ∧ OtherLanes s t (regsOf dt d) lanes ∧ t.me.fflags = s.me.fflags.or (orFlags (lanes.map (Spec.convert dt st mode s.me a)))
      ∧ t.me.masks = s.me.masks ∧ AgedRegs s t

/-- R73, R165, R175, R176: an instruction that writes LNS6 gives each block with an active lane its codes in the active lanes and
its scale in every lane of the block; a block with no active lane, and every other register, is as it was. -/
def Obligations.LnsResult : Prop :=
  ∀ (i : Instr) (s : State) (x : Spec.LnsSpec), Spec.lns i s = some x → Spec.lnsTyped i s = true → VecReady s → Readable s x.reads →
    (∀ v ∈ x.dst :: x.names, v.val < s.me.vheld) →
    (∀ dt st md d a m, i = .vcvt dt st md d a m → ∀ v ∈ regsOf st a, v < s.me.vheld) →
    let lanes := s.me.lanes x.mask
    let bl := s.me.blen
    let at_ (j : Nat) : List FRes × Int := x.block j (lanes.filter fun l => l / bl = j)
    ∃ t, exec i s = .next t ∧ VecDone s t
      ∧ (∀ j k r, (lanes.filter fun l => l / bl = j)[k]? = some r → t.me.box x.dst r =
        ((at_ j).1.getD k ⟨0, {}⟩).bits % 64 + 256 * Spec.scaleByte (at_ j).2)
      ∧ (∀ l < 1024, l ∉ lanes → (lanes.any fun r => r / bl = l / bl) = true → t.me.box x.dst l =
        s.me.box x.dst l - s.me.box x.dst l / 256 % 256 * 256 + 256 * Spec.scaleByte (at_ (l / bl)).2)
      ∧ (∀ l < 1024, (lanes.any fun r => r / bl = l / bl) = false → t.me.box x.dst l = s.me.box x.dst l)
      ∧ (∀ v l, v ≠ x.dst.val → l < 1024 → t.me.box v l = s.me.box v l)
      ∧ t.me.fflags = s.me.fflags.or (orFlags ((byBlock bl lanes).flatMap fun e => (x.block e.1 e.2).1))
      ∧ t.me.masks = s.me.masks ∧ AgedRegs s t

/-- R163, R165, R183, R184, R474: `vsel` of a type other than LNS6 takes each active lane's element from va where the mask is set (or m
is 0) and from the second operand elsewhere. `vmov` and `vsel` of LNS6 elements write as every LNS6 writer does: the active lanes of a
block receive their codes, and every lane of a block with an active lane its scale, which is that of the sources taken, and that of a
scalar or immediate operand where a lane takes it. Which scale a block has whose lanes take vectors of two scales is log entry 68: the
statement holds for every one. -/
def Obligations.SelectResult : Prop :=
  ∀ (t : Ty) (d a : VReg) (m : MReg) (s : State), VecReady s → s.me.badTy t anyTy = false →
    let e := s.me.elemTy t
    let bl := s.me.blen
    let lanes := s.me.lanesOf s.me.top
    let fromA (l : Nat) : Bool := m.val = 0 || (s.me.mask m).getLsbD l
    let moved (u : State) (ls : List Nat) (code : Nat → Nat) (sc : Nat → Int) : Prop :=
      (∀ l ∈ ls, u.me.box d l = code l % 64 + 256 * Spec.scaleByte (sc (l / bl)))
      ∧ (∀ l < 1024, l ∉ ls → (ls.any fun r => r / bl = l / bl) = true → u.me.box d l =
        s.me.box d l - s.me.box d l / 256 % 256 * 256 + 256 * Spec.scaleByte (sc (l / bl)))
      ∧ (∀ l < 1024, (ls.any fun r => r / bl = l / bl) = false → u.me.box d l = s.me.box d l)
      ∧ ∀ v l, v ≠ d.val → l < 1024 → u.me.box v l = s.me.box v l
    (∀ i y rs, ((∃ z, i = .vsel t d a z m ∧ y = Spec.second s z ∧ rs = Spec.scalarNames z)
        ∨ ∃ x, i = .vselImm t d a x m ∧ y = (if isInt e then Spec.intImm x else Spec.codeImm x) ∧ rs = [] ∧ (e = .f16 ∨ e = .bf16 → x.toNat < 2 ^ 16)) →
      e ≠ .lns6 → Readable s rs → Held s e ([d, a] ++ Spec.secondNames y) →
      ∃ u, exec i s = .next u ∧ VecDone s u ∧ OtherLanes s u (regsOf e d) lanes ∧ u.me.fflags = s.me.fflags ∧ AgedRegs s u
        ∧ ∀ l ∈ lanes, u.me.boxes e d l = if fromA l then s.me.elem e a l else Spec.secondAt s e l y)
    ∧ (∀ b, e = .lns6 → Held s e [d, a, b] →
      (∃ u sc, exec (.vsel t d a (.vec b) m) s = .next u ∧ VecDone { s with draws := u.draws } u ∧ u.me.fflags = s.me.fflags ∧ AgedRegs s u
        ∧ moved u lanes (fun l => if fromA l then s.me.box a l else s.me.box b l) sc
        ∧ ∀ l ∈ lanes, ((∀ r ∈ lanes, r / bl = l / bl → fromA r = fromA l) ∨ s.me.scale a l = s.me.scale b l) →
          sc (l / bl) = if fromA l then s.me.scale a l else s.me.scale b l)
      ∧ ∃ u, exec (.vmov t d (.vec b) m) s = .next u ∧ VecDone s u ∧ u.me.fflags = s.me.fflags ∧ AgedRegs s u
        ∧ moved u (s.me.lanes m) (s.me.box b) fun j => s.me.scale b (j * bl))
    ∧ (∀ i x, ((∃ r, i = .vsel t d a (.scal r) m ∧ x = (s.rd r).toNat ∧ Readable s [r])
        ∨ ∃ z, i = .vselImm t d a z m ∧ x = z.toNat ∧ z.toNat < 2 ^ 16 ∧ bits z.toNat 7 6 = 0) → e = .lns6 → Held s e [d, a] →
      ∃ u, exec i s = .next u ∧ VecDone { s with draws := u.draws } u ∧ u.me.fflags = s.me.fflags ∧ AgedRegs s u
        ∧ moved u lanes (fun l => if fromA l then s.me.box a l else x) fun j =>
          if lanes.any (fun r => r / bl = j && !fromA r) then signed8 (x / 256) else s.me.scale a (j * bl))
    ∧ ∀ i x, ((∃ r, i = .vmov t d (.scal r) m ∧ x = (s.rd r).toNat ∧ Readable s [r])
        ∨ ∃ z, i = .vmovImm t d z m ∧ x = z.toNat ∧ z.toNat < 2 ^ 16 ∧ bits z.toNat 7 6 = 0) → e = .lns6 → Held s e [d] →
      ∃ u, exec i s = .next u ∧ VecDone s u ∧ u.me.fflags = s.me.fflags ∧ AgedRegs s u
        ∧ moved u (s.me.lanes m) (fun _ => x) fun _ => signed8 (x / 256)

/-- R177: a compare writes the outcome of each active lane into the mask register; with Z every other lane's bit is 0, without it
every other bit stays; NV follows the condition; no other mask changes. -/
def Obligations.CompareResult : Prop :=
  ∀ (cc : VCc) (t : Ty) (z : Bool) (d : MReg) (a : VReg) (m : MReg) (i : Instr) (y : Spec.Second) (rs : List SReg) (s : State),
    let e := s.me.elemTy t
    ((∃ v, i = .vcmp cc t z d a v m ∧ y = Spec.second s v ∧ rs = Spec.scalarNames v)
      ∨ ∃ x, i = .vcmpImm cc t z d a x m ∧ y = (if isInt e then Spec.intImm x else Spec.codeImm x) ∧ rs = [] ∧ badImm e x = false) →
    VecReady s → Readable s rs → s.me.badTy t anyTy = false → (cc = .un → isInt e = false) → Held s e (a :: Spec.secondNames y) →
    let lanes := s.me.lanes m
    let out (l : Nat) : Bool × Bool := Spec.compare cc e s.me a l (Spec.compareAt s e l y).1 (Spec.compareAt s e l y).2
    ∃ u, exec i s = .next u ∧ VecPassed s u ∧ u.me.vl = s.me.vl
      ∧ (∀ l < 1024, (u.me.mask d).getLsbD l = if l ∈ lanes then (out l).1 else if z then false else (s.me.mask d).getLsbD l)
      ∧ (∀ k, k ≠ d → u.me.mask k = s.me.mask k) ∧ u.me.fflags = s.me.fflags.or { nv := lanes.any fun l => (out l).2 }
      ∧ u.me.vregs = s.me.vregs ∧ AgedRegs s u

/-- R178, R179, R193: mask logicals write bits 0 to VL − 1 and keep the others; counts and votes look at active lanes only. -/
def Obligations.MaskResult : Prop :=
  ∀ (i : Instr) (s : State), VecReady s →
    (∀ d a b f, Spec.logical i = some (d, a, b, f) → ∃ t, exec i s = .next t ∧ VecPassed s t ∧ t.me.vl = s.me.vl
      ∧ (∀ l < 1024, (t.me.mask d).getLsbD l =
        if l < s.me.vl then f ((s.me.mask a).getLsbD l) ((s.me.mask b).getLsbD l) else (s.me.mask d).getLsbD l)
      ∧ (∀ k, k ≠ d → t.me.mask k = s.me.mask k) ∧ t.me.fflags = s.me.fflags ∧ t.me.vregs = s.me.vregs ∧ AgedRegs s t)
    ∧ ∀ d m v, Spec.vote i s = some (d, m, v) → ∃ t, exec i s = .next t ∧ VecDone s t
      ∧ t.rd d = (if d = 0 then 0 else v) ∧ OtherRegs s t d (1 + s.me.ir.sc) ∧ t.me.fflags = s.me.fflags
      ∧ t.me.vregs = s.me.vregs ∧ t.me.masks = s.me.masks

/-- R35, R180 to R182: `vif` pushes the top of the stack with the condition or its complement, and VTYPE; `velse` complements the top
within its parent; `vend` pops it; both restore VTYPE. Each of them leaves VSTART 0 (R35). A seventeenth entry traps MSTACK_OVF, an
empty stack MSTACK_UNF. -/
def Obligations.MaskStack : Prop :=
  ∀ (s : State), s.me.onSteward = false → lazyOwner s = none → s.me.vop = none →
    let from0 : State := { s with me := { s.me with vstart := 0 } }
    (∀ (neg : Bool) (a : MReg), (s.me.mstack.length < 16 → ∃ t n, exec (.vif neg a) s = .next t
        ∧ t.me.mstack = ⟨n, s.me.vtype⟩ :: s.me.mstack ∧ (∀ l < 1024, n.getLsbD l =
          (s.me.top.getLsbD l && ((s.me.mask a).getLsbD l != neg) && decide (l < s.me.vlmax)))
        ∧ t.me.pc = nextPc s.me ∧ PassedHead s t ∧ OnlyMe s t ∧ AgedRegs s t ∧ OnlyStack from0 t ∧ t.me.vl = s.me.vl ∧ t.me.vtype = s.me.vtype)
      ∧ (16 ≤ s.me.mstack.length → Handled s → ∃ t, exec (.vif neg a) s = .next t ∧ Takes s t { cause := .mstackOvf }))
    ∧ (∀ e rest, s.me.mstack = e :: rest →
      (∃ t n, exec .velse s = .next t ∧ t.me.mstack = ⟨n, e.vtype⟩ :: rest ∧ t.me.vtype = e.vtype
        ∧ (∀ l < 1024, n.getLsbD l = (!e.mask.getLsbD l && match rest with
          | p :: _ => p.mask.getLsbD l
          | [] => decide (l < s.me.vlmax)))
        ∧ t.me.pc = nextPc s.me ∧ PassedHead s t ∧ OnlyMe s t ∧ AgedRegs s t ∧ OnlyStack from0 t ∧ t.me.vl = s.me.vl)
      ∧ ∃ t, exec .vend s = .next t ∧ t.me.mstack = rest ∧ t.me.vtype = e.vtype ∧ t.me.pc = nextPc s.me ∧ PassedHead s t
        ∧ OnlyMe s t ∧ AgedRegs s t ∧ OnlyStack from0 t ∧ t.me.vl = s.me.vl)
    ∧ (s.me.mstack = [] → Handled s → (∃ t, exec .velse s = .next t ∧ Takes s t { cause := .mstackUnf })
      ∧ ∃ t, exec .vend s = .next t ∧ Takes s t { cause := .mstackUnf })

/-- R35, R167, R168: `vsetvl` grants the smaller of the request and VLMAX, rounded down to whole blocks for LNS6 without PAD, to
VL and the destination, under the type that it sets or keeps; `vsettype` sets VTYPE, and refuses a reserved encoding or a set bit at or
above bit 14 with DETAIL 6. That bits 9 to 4 have no effect is log entry 24. -/
def Obligations.VectorLength : Prop :=
  ∀ (s : State), s.me.onSteward = false → lazyOwner s = none →
    (∀ (i : Instr) (pad : Bool) (d a : SReg) (vt : VType),
      ((i = .vsetvl pad d a ∧ vt = s.me.vtype) ∨ i = .vsetvlType pad d a vt) → Readable s [a] →
      let g := min (s.rd a).toNat s.me.vlmax
      let n := if vt.fmt = .lns6 ∧ pad = false then blenVal vt.blen * (g / blenVal vt.blen) else g
      ∃ t, exec i s = .next t ∧ t.me.vl = n ∧ t.me.vtype = vt ∧ t.rd d = (if d = 0 then 0 else BitVec.ofNat 64 n)
        ∧ OtherRegs s t d (1 + s.me.ir.sc) ∧ t.me.pc = nextPc s.me ∧ PassedHead s t ∧ OnlyMe s t ∧ OnlyStack s t
        ∧ t.me.mstack = s.me.mstack)
    ∧ (∀ (i : Instr) (vt : VType), (i = .vsettypeImm vt ∨ ∃ a k, i = .vsettype a ∧ Readable s [a] ∧ k < 64 ∧ (s.rd a).toNat = vtypeCode vt + 16 * k) →
      ∃ t, exec i s = .next t ∧ t.me.vtype = vt ∧ t.me.vl = s.me.vl ∧ t.me.pc = nextPc s.me ∧ PassedHead s t ∧ OnlyMe s t ∧ AgedRegs s t
        ∧ OnlyStack s t ∧ t.me.mstack = s.me.mstack)
    ∧ ∀ a, Readable s [a] → (∀ (vt : VType) (k : Nat), k < 64 → (s.rd a).toNat ≠ vtypeCode vt + 16 * k) → Handled s →
      ∃ t, exec (.vsettype a) s = .next t ∧ Takes s t { cause := .illegalInsn, detail := 6 }

/-- R186 to R188, R190: each written lane of a permute has the source's containers at its index; an index at or above VL reads 0,
a dead source lane reads 0 and sets DL; every other lane is as it was. Containers moved whole are log entry 25. -/
def Obligations.PermuteResult : Prop :=
  ∀ (i : Instr) (s : State) (x : Spec.PermSpec), Spec.perm i s = some x → VecReady s → Readable s x.reads →
    s.me.badTy x.ty anyTy = false → Held s (s.me.elemTy x.ty) [x.dst, x.src] → (∀ v ∈ x.names, v.val < s.me.vheld) →
    let e := s.me.elemTy x.ty
    let live (j : Nat) : Bool := decide (j < s.me.vl) && !s.me.deadmask.getLsbD j
    ∃ t, exec i s = .next t ∧ VecDone s t
      ∧ (∀ p ∈ x.picks, t.me.boxes e x.dst p.1 = if live p.2 then s.me.boxes e x.src p.2 else 0)
      ∧ OtherLanes s t (regsOf e x.dst) (x.picks.map (·.1))
      ∧ t.me.fflags = s.me.fflags.or { dl := x.picks.any fun p => decide (p.2 < s.me.vl) && s.me.deadmask.getLsbD p.2 }
      ∧ t.me.masks = s.me.masks ∧ AgedRegs s t

/-- R185, R189, R191: `vcompress` packs the active lanes and their numbers and sets VL and the scalar to their count; `viota` counts
the set active lanes below; `vmovs` moves one element between a vector and a scalar. -/
def Obligations.PackAndMove : Prop :=
  ∀ (t : Ty) (s : State), VecReady s →
    let e := s.me.elemTy t
    (∀ (d x a : VReg) (c : SReg) (m : MReg), s.me.badTy t anyTy = false → Held s e [d, a] → x.val < s.me.vheld → x ≠ d →
      (isPair e = true → x.val ≠ d.val + 1) →
      let lanes := s.me.lanes m
      ∃ u, exec (.vcompress t d x a c m) s = .next u ∧ VecPassed s u ∧ u.me.masks = s.me.masks
        ∧ u.me.fflags = s.me.fflags ∧ u.me.vl = lanes.length
        ∧ u.rd c = (if c = 0 then 0 else BitVec.ofNat 64 lanes.length) ∧ OtherRegs s u c (1 + s.me.ir.sc)
        ∧ (∀ k l, lanes[k]? = some l → u.me.boxes e d k = s.me.boxes e a l ∧ u.me.box x k = l)
        ∧ (∀ v l, l < 1024 → (v ∉ regsOf e d ∧ v ≠ x.val ∨ lanes.length ≤ l) → u.me.box v l = s.me.box v l))
    ∧ (∀ (d : VReg) (a m : MReg), s.me.badTy t isInt = false → Held s e [d] →
      ∃ u, exec (.viota t d a m) s = .next u ∧ VecDone s u ∧ OtherLanes s u (regsOf e d) (s.me.lanes m) ∧ AgedRegs s u
        ∧ u.me.fflags = s.me.fflags
        ∧ ∀ l ∈ s.me.lanes m, u.me.boxes e d l =
          ((s.me.lanes m).filter fun j => decide (j < l) && (s.me.mask a).getLsbD j).length % 2 ^ tyBits e)
    ∧ (∀ (i : Instr) (k : Nat) (rs : List SReg) (op : MovS),
      ((∃ b, i = .vmovs t op b ∧ k = (s.rd b).toNat ∧ rs = [b]) ∨ ∃ z, i = .vmovsImm t op z ∧ k = z.toNat ∧ rs = []) →
      s.me.badTy t anyTy = false →
      let live := k < s.me.vl ∧ s.me.deadmask.getLsbD k = false
      (∀ d a, op = .ext d a → Readable s rs → Held s e [a] → ∃ u, exec i s = .next u ∧ VecDone s u
        ∧ (live → u.rd d = if d = 0 then 0 else scalarOf s.me e a k) ∧ (¬ live → u.rd d = 0) ∧ OtherRegs s u d (1 + s.me.ir.sc)
        ∧ u.me.fflags = s.me.fflags.or { dl := decide (k < s.me.vl) && s.me.deadmask.getLsbD k } ∧ u.me.vregs = s.me.vregs)
      ∧ (∀ d a, op = .ins d a → Readable s (a :: rs) → Held s e [d] → ∃ u, exec i s = .next u ∧ VecDone s u ∧ AgedRegs s u
        ∧ u.me.fflags = s.me.fflags ∧ (¬ live → u.me.vregs = s.me.vregs)
        ∧ (live → k < 1024 → e ≠ .lns6 → u.me.boxes e d k = (s.rd a).toNat % 2 ^ tyBits e ∧ OtherLanes s u (regsOf e d) [k])
        ∧ (live → k < 1024 → e = .lns6 → u.me.box d k = (s.rd a).toNat % 64 + 256 * ((s.rd a).toNat / 256 % 256))))

/-- R54, R80, R81, R192: an integer reduction of the active lanes is the exact result mod 2^32 with IOV, or mod 2^64, extended; a
floating one follows the tree of R80 or the choice of R64; with no active lane it is the initial value. -/
def Obligations.ReductionResult : Prop :=
  ∀ (i : Instr) (s : State) (op : Red) (t : Ty) (d b : SReg) (a : VReg) (m : MReg),
    Spec.reduction i = some (op, t, d, a, b, m) → VecReady s → Readable s [b] → s.me.badTy t anyTy = false →
    let e := s.me.elemTy t
    let lanes := s.me.lanes m
    Held s e [a] → ∃ u, exec i s = .next u ∧ VecDone s u ∧ OtherRegs s u d (1 + s.me.ir.sc) ∧ u.me.vregs = s.me.vregs
      ∧ (isInt e = true → let r := Spec.intReduce op e (lanes.map (s.me.elem e a)) (s.rd b)
        u.rd d = (if d = 0 then 0 else r.1) ∧ u.me.fflags = s.me.fflags.or { iov := r.2 })
      ∧ (isInt e = false → let r := redFloat op s.me e a lanes ((s.rd b).toNat % 2 ^ 32)
        u.rd d = (if d = 0 then 0 else BitVec.ofNat 64 r.bits) ∧ u.me.fflags = s.me.fflags.or r.fl
        ∧ (lanes = [] → r.bits = (s.rd b).toNat % 2 ^ 32))

/-! ### Memory instructions -/

/-- R18, R198, R206, R298: a scalar load of an aligned place completes with the bytes of the place, extended, in the destination:
the scratchpad's bytes, memory as the core sees it, memory without the core's older lines under a wide acquire, or the value of
a 64-bit register of a register space. -/
def Obligations.ScalarLoadResult : Prop :=
  ∀ (i : Instr) (s : State) (x : Spec.AccSpec), Spec.scalarLoad i = some x → Readable s [x.base] →
    let va := Spec.effective s x.base x.off
    let n := Spec.bytesOf x.wd
    va.toNat % n = 0 →
    let wide := x.ord && wideScope x.sc
    let lines (t : State) : Prop := wide = true → ∀ l ∈ t.l1, l.core ≠ s.me.core
    (x.sp = true → va.toNat + n ≤ s.myCrew.decl.spbytes → s.poisoned (s.csp va.toNat) n = false →
      ∃ t, exec i s = .next t ∧ t.me.pc = nextPc s.me ∧ PassedHead s t ∧ OnlyScalars s t ∧ lines t
        ∧ t = { s with me := t.me, cycle := t.cycle, l1 := t.l1 } ∧ (wide = false → t.l1 = s.l1)
        ∧ t.rd x.reg = (if x.reg = 0 then 0 else Spec.extended n x.u (s.homeBytes (s.csp va.toNat) n))
        ∧ OtherRegs s t x.reg (1 + s.me.ir.sc) ∧ t.me.fflags = s.me.fflags ∧ ∀ k, t.home k = s.home k)
    ∧ (∀ k, x.sp = false → translate s s.ctx .rd va.toNat = .ok (.cell k) → lostDevice s k = none → s.poisonedFor s.me.core k n = false →
      ∃ t, exec i s = .next t ∧ t.me.pc = nextPc s.me ∧ PassedHead s t ∧ OnlyScalars s t
        ∧ t.rd x.reg = (if x.reg = 0 then 0 else Spec.extended n x.u
            (if wide then (dropLines s.me.core s).viewBytes s.me.core k n else s.viewBytes s.me.core k n))
        ∧ OtherRegs s t x.reg (1 + s.me.ir.sc) ∧ t.me.fflags = s.me.fflags ∧ lines t
        ∧ t = { s with me := t.me, cycle := t.cycle, vfs := t.vfs, l1 := t.l1, stash := t.stash, events := t.events }
        ∧ ∀ k, t.home k = s.home k)
    ∧ ∀ sp off, x.sp = false → x.wd = .d → translate s s.ctx .rd va.toNat = .ok (.reg sp off) →
      ∃ t, exec i s = .next t ∧ t.me.pc = nextPc s.me ∧ PassedHead s t ∧ OnlyScalars s t ∧ OnlyMe s t
        ∧ t.rd x.reg = (if x.reg = 0 then 0 else readReg s sp off) ∧ OtherRegs s t x.reg (1 + s.me.ir.sc)
        ∧ t.me.fflags = s.me.fflags ∧ ∀ k, t.home k = s.home k

/-- R198, R206, R295, R296, R298: a scalar store of an aligned place completes: the scratchpad byte at once; a generic store as its core
sees it, its home not before the store is performed there; a 64-bit store to a register becomes that register's event. Under a wide
release every older store of the core is first performed at its home; the store completes where none of them still awaits another
device, and else waits. -/
def Obligations.ScalarStoreResult : Prop :=
  ∀ (i : Instr) (s : State) (x : Spec.AccSpec), Spec.scalarStore i = some x → Readable s [x.base, x.reg] →
    let va := Spec.effective s x.base x.off
    let n := Spec.bytesOf x.wd
    let byte (j : Nat) : Byte := BitVec.ofNat 8 ((s.rd x.reg).toNat / 256 ^ j)
    let waits := x.ord && wideScope x.sc
    let u := if waits then drainCore s.me.core s else s
    let passed (t : State) : Prop := t.me.pc = nextPc s.me ∧ PassedHead s t ∧ AgedRegs s t ∧ ScalarsAndLinks s t ∧ t.me.fflags = s.me.fflags
    va.toNat % n = 0 → (domainScope x.sc = true → x.ord = true → s.linkFail.find? (·.1 = s.cur) = none) →
    ((waits = true → ∀ p ∈ u.rstores, p.core ≠ s.me.core) →
      (x.sp = true → va.toNat + n ≤ s.myCrew.decl.spbytes →
        ∃ t, exec i s = .next t ∧ passed t ∧ (∀ j < n, t.home (s.csp va.toNat + j) = byte j)
          ∧ (∀ k, (k < s.csp va.toNat ∨ s.csp va.toNat + n ≤ k) → t.home k = u.home k)
          ∧ (waits = true → ∀ p ∈ t.sbuf, p.core ≠ s.me.core))
      ∧ (∀ k, x.sp = false → translate s s.ctx .wr va.toNat = .ok (.cell k) → k + 8 ≤ 2 ^ 63 →
        ∃ t, exec i s = .next t ∧ passed t ∧ (∀ j < n, t.view s.me.core (k + j) = byte j) ∧ (∀ y, t.home y = u.home y)
          ∧ (∀ y, (y < k ∨ k + n ≤ y) → State.view { t with cycle := s.cycle } s.me.core y = u.view s.me.core y)
          ∧ (∀ p ∈ u.sbuf, p ∈ t.sbuf) ∧ (waits = true → ∀ p ∈ t.sbuf, p.core = s.me.core → p.key = k))
      ∧ ∀ sp off, x.sp = false → x.wd = .d → translate s s.ctx .wr va.toNat = .ok (.reg sp off) →
        ∃ t, exec i s = .next t ∧ passed t ∧ t.mem = u.mem ∧ t.events = s.events ++ [regEvent u sp off (s.rd x.reg)])
    ∧ (waits = true → (∃ p ∈ u.rstores, p.core = s.me.core) → x.sp = true → va.toNat + n ≤ s.myCrew.decl.spbytes →
      ∃ t, exec i s = .next t ∧ Waits { s with me := { s.me with links := t.me.links } } t .acks ∧ t.mem = u.mem)

/-- R199, R203: a misaligned scalar access traps MISALIGNED, and one outside the crew's scratchpad traps ACCESS with REASON 2,
with the address, and with the space and the direction in DETAIL; a translation that fails traps its cause. MISALIGNED before
ACCESS is log entry 15. -/
def Obligations.ScalarAccessTraps : Prop :=
  ∀ (i : Instr) (s : State) (x : Spec.AccSpec) (wr : Bool),
    ((wr = false ∧ Spec.scalarLoad i = some x) ∨ (wr = true ∧ Spec.scalarStore i = some x)) →
    Readable s (if wr then [x.base, x.reg] else [x.base]) → Handled s →
    let va := Spec.effective s x.base x.off
    let n := Spec.bytesOf x.wd
    (va.toNat % n ≠ 0 → ∃ t, exec i s = .next t ∧ Takes s t { cause := .misaligned, detail := 2 * x.sp.toNat + wr.toNat, addr := va })
    ∧ (va.toNat % n = 0 → x.sp = true → va.toNat + n > s.myCrew.decl.spbytes →
      ∃ t, exec i s = .next t ∧ Takes s t { cause := .access, detail := 32 + 2 + wr.toNat, addr := va })
    ∧ ∀ c r, va.toNat % n = 0 → x.sp = false → translate s s.ctx (if wr then .wr else .rd) va.toNat = .fault c r none →
      ∃ t, exec i s = .next t ∧ Takes s t { cause := c, detail := (if c = .access then 16 * r else 0) + wr.toNat, addr := va }

/-- R223: an atomic of an aligned generic place completes in one step at its home: the old value, sign-extended, reaches the
destination, and the new value memory; nothing else of memory changes once the core's older stores are performed. R298: where it
releases, no store of its core may await another device; where it acquires, its core uses no older line. -/
def Obligations.AtomicResult : Prop :=
  ∀ (i : Instr) (s : State) (dbl : Bool) (o : AOrd) (d a : SReg) (rs : List SReg) (f : Nat → Nat) (fl : Nat → FFlags),
    let n := if dbl then 8 else 4
    let cut (r : SReg) : Nat := (s.rd r).toNat % 2 ^ (8 * n)
    ((∃ op b, i = .amo op dbl o d a b ∧ rs = [a, b] ∧ f = (fun x => Spec.atomicNew op n x (cut b))
        ∧ fl = (fun x => if op = .fadd then (FForm.f32.addOp .rne (FForm.f32.decode x) (FForm.f32.decode (cut b))).fl else {}))
      ∨ ∃ b c, i = .amoCas dbl o d a b c ∧ rs = [a, b, c] ∧ f = (fun x => if x = cut b then cut c else x) ∧ fl = fun _ => {}) →
    Readable s rs → (s.rd a).toNat % n = 0 →
    ∀ k, translate s s.ctx .rw (s.rd a).toNat = .ok (.cell k) → k < 2 ^ 62 → s.poisonedFor s.me.core k n = false → lostTier2 s k = false →
      let s1 := drainCore s.me.core s
      let old := leVal (s1.homeBytes k n)
      (o = .rel ∨ o = .ar → ∀ p ∈ s1.rstores, p.core ≠ s.me.core) →
      ∃ t, exec i s = .next t ∧ t.me.pc = nextPc s.me ∧ PassedHead s t ∧ ScalarsAndLinks s t
        ∧ t.rd d = (if d = 0 then 0 else Spec.extended n false (s1.homeBytes k n)) ∧ OtherRegs s t d (1 + s.me.ir.sc)
        ∧ (∀ j < n, t.home (k + j) = BitVec.ofNat 8 (f old / 256 ^ j)) ∧ (∀ y, (y < k ∨ k + n ≤ y) → t.home y = s1.home y)
        ∧ t.me.fflags = s.me.fflags.or (fl old) ∧ (o = .acq ∨ o = .ar → ∀ l ∈ t.l1, l.core ≠ s.me.core)

/-- R224, R298, R299: a fence that releases at device scope or wider has the core's stores performed at their homes, and completes where
none of them awaits another device, for which it waits else; one that acquires there leaves no older first-level line; a failed
remote store met at domain or system scope is a LINK trap. R216 to R219, R282, R283: `stwin` closes the window of its number and opens
the new range with status 0, or refuses: 3 for a length that no window may have, 1 for a range that overlaps another open window, 2
beyond the share of the stash (`s0` discards the status); `stflush` writes its lines back; `stinv` drops them, and with `.discard`
shows the bytes behind its dirty lines again; `dcfence` drops the decoded copies of the surfaces at its address. The order of the three
statuses of stwin is log entry 16, that 2 looks at the range alone log entry 72, the length of a packed view log entry 17. -/
def Obligations.FencesAndStash : Prop :=
  (∀ (m : Sem) (sc : Scope) (s : State),
     let rel := m = .rel ∨ m = .ar
     let acq := m = .acq ∨ m = .ar
     let u := if m = .acq ∨ wideScope sc = false then s else drainCore s.me.core s
     ((rel → domainScope sc = true → s.linkFail.find? (·.1 = s.cur) = none) →
       ((rel → wideScope sc = true → ∀ x ∈ u.rstores, x.core ≠ s.me.core) →
         ∃ t, exec (.fence m sc) s = .next t ∧ t.me.pc = nextPc s.me ∧ PassedHead s t ∧ AgedRegs s t
           ∧ ScalarsAndLinks s t ∧ t.me.fflags = s.me.fflags
           ∧ (rel → wideScope sc = true → ∀ p ∈ t.sbuf, p.core ≠ s.me.core)
           ∧ (acq → wideScope sc = true → ∀ l ∈ t.l1, l.core ≠ s.me.core) ∧ t.mem = u.mem)
       ∧ (rel → wideScope sc = true → (∃ x ∈ u.rstores, x.core = s.me.core) →
         ∃ t, exec (.fence m sc) s = .next t ∧ Waits { s with me := { s.me with links := t.me.links } } t .acks ∧ t.mem = u.mem))
     ∧ ∀ e, rel → domainScope sc = true → s.linkFail.find? (·.1 = s.cur) = some e → Handled s →
       ∃ t, exec (.fence m sc) s = .next t ∧ Entered s t s.me.ir { cause := .link, detail := e.2.1, addr := e.2.2 }
         ∧ t.linkFail = s.linkFail.filter (·.1 ≠ s.cur) ∧ t.mem = u.mem)
  ∧ (∀ (s : State),
       let v := s.ctx.vf
       let u := drainCore s.me.core s
       let kept (t : State) : Prop := t.me.pc = nextPc s.me ∧ PassedHead s t ∧ ScalarsAndLinks s t ∧ t.me.fflags = s.me.fflags
       (∀ (w : Fin 16) (d a b : SReg), Readable s [a, b] → (s.rd a).toNat % 65536 = 0 →
         let len := (s.rd b).toNat
         let base := s.rd a
         let others := (tset none (s.vf v).windows w none).filterMap (·.2)
         let status : Nat := if len = 0 then 0 else if len % 65536 ≠ 0 ∨ len > 2 ^ 30 then 3
           else if ∃ x ∈ others, base.toNat < x.base.toNat + x.len ∧ x.base.toNat < base.toNat + len then 1
           else if s.me.onSteward ∨ len > (s.vf v).stash * 2 ^ 24 then 2 else 0
         ∃ t, exec (.stwin w d a b) s = .next t ∧ kept t ∧ OtherRegs s t d (1 + s.me.ir.sc)
           ∧ t = { s with me := t.me, cycle := t.cycle, vfs := t.vfs, stash := t.stash }
           ∧ t.rd d = (if d = 0 then 0 else word status)
           ∧ (tget none (t.vf v).windows w).map (fun x => (x.base, x.len)) = if status = 0 ∧ len ≠ 0 then some (base, len) else none)
       ∧ (∀ w : Fin 16, ∃ t, exec (.stflush w) s = .next t ∧ kept t ∧ AgedRegs s t ∧ t.mem = u.mem
         ∧ (∀ l ∈ t.stash, l.vf = v → l.w = w → l.dirty = false) ∧ ∀ p ∈ t.sbuf, p.core ≠ s.me.core)
       ∧ (∀ (w : Fin 16) (discard : Bool), ∃ t, exec (.stinv discard w) s = .next t ∧ kept t ∧ AgedRegs s t
         ∧ (tget none (s.vf v).windows w = none → OnlyMe s t)
         ∧ (∀ x, tget none (s.vf v).windows w = some x →
           let dirty := u.stash.filter fun l => l.vf = v && l.w = w.val && l.dirty
           (∀ l ∈ t.stash, ¬ (l.vf = v ∧ l.w = w.val)) ∧ (∀ l ∈ t.me.links, x.leads u v (l / 1024) = false)
           ∧ (discard = false → t.mem = u.mem)
           ∧ (discard = true → (∀ k, (∀ l ∈ dirty, k < l.key * 256 ∨ l.key * 256 + l.behind.length ≤ k) → t.home k = u.home k)
             ∧ ∀ l, dirty = [l] → ∀ j < l.behind.length, t.home (l.key * 256 + j) = l.behind.getD j 0)))
       ∧ ∀ i a z, ((i = .dcfence a ∧ z = 0) ∨ i = .dcfenceImm a z) → Readable s [a] →
         ∃ t, exec i s = .next t ∧ kept t ∧ AgedRegs s t ∧ t.mem = u.mem
           ∧ (∀ e ∈ t.dcache, e.1.1 = v → ∀ f, (e.1.2.1, f) ∈ (s.vf v).surfaces → f.has (Spec.effective s a z).toNat = false)
           ∧ ∀ p ∈ t.sbuf, p.core ≠ s.me.core)



/-- R196 to R203, R207, R212, R218: a unit-stride, strided, segment, lane-local or compressed load of elements that are not LNS6,
all of whose places are memory without error (or decoded sectors), completes with each active lane's element in its register, and
changes no other lane and no memory. -/
def Obligations.VectorLoadResult : Prop :=
  ∀ (i : Instr) (s : State) (x : Spec.VMemSpec), Spec.vmem i s = some x → x.store = false → Spec.noScale i = true → VecReady s →
    Readable s x.reads → s.me.badTy x.ty anyTy = false →
    let e := s.me.elemTy x.ty
    let lanes := s.me.lanes x.mask
    e ≠ .lns6 → Held s e [x.dst] → (∀ v ∈ Spec.regList x.dst x.fields e, v < 64 ∧ v < s.me.vheld) → (∀ v ∈ x.names, v.val < s.me.vheld) →
    ∀ (pw : Machine.Placed) (u : State), Spec.Placed s x.spc .rd x.plainOk (x.pieces e) pw →
      decodeInto s.ctx (pw.flatMap fun p => p.2.sectors p.1.n) (touchAll pw s) = .ok u → dataPoison u pw = none →
      ∃ t, exec i s = .next t ∧ t.me.pc = nextPc s.me ∧ PassedHead s t ∧ OnlyVectors s t ∧ AgedRegs s t
        ∧ (∀ p ∈ pw, t.me.boxes e p.1.tag p.1.lane = leVal (p.2.bytes u p.1.n) % 2 ^ tyBits e)
        ∧ (∀ p ∈ pw, ∀ k, p.2 = .cell k → p.2.bytes u p.1.n = s.viewBytes s.me.core k p.1.n)
        ∧ OtherLanes s t (Spec.regList x.dst x.fields e) lanes ∧ t.mem = s.mem ∧ t.sbuf = s.sbuf ∧ t.me.fflags = s.me.fflags
        ∧ t.me.masks = s.me.masks ∧ t.me.vl = s.me.vl

/-- R196 to R203, R205, R207, R212: a unit-stride, strided, segment or lane-local store of elements that are not LNS6, all of whose
places are memory, completes: as its core sees it, every byte is the one that the last of its lanes wrote, or as before. -/
def Obligations.VectorStoreResult : Prop :=
  ∀ (i : Instr) (s : State) (x : Spec.VMemSpec), Spec.vmem i s = some x → x.store = true → Spec.noScale i = true → VecReady s →
    Readable s x.reads → s.me.badTy x.ty anyTy = false → s.mpois = [] →
    let e := s.me.elemTy x.ty
    e ≠ .lns6 → Held s e [x.dst] → (∀ v ∈ Spec.regList x.dst x.fields e, v < 64 ∧ v < s.me.vheld) → (∀ v ∈ x.names, v.val < s.me.vheld) →
    ∀ pw : Machine.Placed, Spec.Placed s x.spc .wr x.plainOk (x.pieces e) pw →
      (∀ p ∈ pw, ∀ k, p.2 = .cell k → k + 8 ≤ 2 ^ 63 ∨ 2 ^ 63 ≤ k) →
      ∃ t, exec i s = .next t ∧ t.me.pc = nextPc s.me ∧ PassedHead s t ∧ AgedRegs s t ∧ t.me.vregs = s.me.vregs
        ∧ t.me.fflags = s.me.fflags ∧ t.me.masks = s.me.masks ∧ t.me.vl = s.me.vl ∧ VectorsAndLinks s t
        ∧ ∀ k, State.view { t with cycle := s.cycle } s.me.core k = (Spec.lastByte (Spec.writesOf s e pw) k).getD (s.view s.me.core k)

/-- R71, R72, R201, R212: a unit-stride LNS6 load puts each active lane's six bits of the packed codes, and its block's scale byte,
into the lane's container; a store changes at the codes' homes the bits of active lanes only, and stores the scale of each
block with an active lane. Lane-local access moves whole containers. -/
def Obligations.LnsMemory : Prop :=
  ∀ (s : State), VecReady s → s.me.vtype.fmt = .lns6 → s.mpois = [] → s.t2lost = [] →
    (∀ (i : Instr) (x : Spec.LnsMemSpec), Spec.lnsMem i = some x → s.me.badTy x.ty isLns = false → Readable s [x.base, x.scales] →
      x.scales ≠ 0 → x.dst.val < s.me.vheld →
      let lanes := s.me.lanes x.mask
      let base := Spec.effective s x.base x.off
      let sb := s.rd x.scales
      let ps := Spec.lnsBytes s.me.blen base sb lanes
      (x.store = false → ∀ (pw : Machine.Placed) (u : State), Spec.Placed s x.spc .rd x.plainOk ps pw →
        decodeInto s.ctx (pw.flatMap fun p => p.2.sectors p.1.n) (touchAll pw s) = .ok u → dataPoison u pw = none →
        ∃ t, exec i s = .next t ∧ t.me.pc = nextPc s.me ∧ PassedHead s t ∧ OnlyVectors s t ∧ AgedRegs s t
          ∧ (∀ l ∈ lanes, t.me.box x.dst l =
            (Spec.found u pw (base + BitVec.ofNat 64 (6 * l / 8)) + 256 * Spec.found u pw (base + BitVec.ofNat 64 ((6 * l + 5) / 8)))
              / 2 ^ (6 * l % 8) % 64 + 256 * Spec.found u pw (sb + BitVec.ofNat 64 (l / s.me.blen)))
          ∧ (∀ v l, l < 1024 → ¬ (v = x.dst.val ∧ (lanes.any fun r => r / s.me.blen = l / s.me.blen) = true) →
            t.me.box v l = s.me.box v l)
          ∧ t.mem = s.mem ∧ t.sbuf = s.sbuf ∧ t.me.fflags = s.me.fflags ∧ t.me.masks = s.me.masks ∧ t.me.vl = s.me.vl)
      ∧ (x.store = true → s.sbuf = [] → ∀ key : Word → Nat,
        (∀ p ∈ ps, judge s x.spc .rw false p = .ok (.cell (key p.addr)) ∧ lostDevice s (key p.addr) = none) →
        (∀ p ∈ ps, ∀ q ∈ ps, key p.addr = key q.addr → p.addr = q.addr ∧ p.tag = q.tag) →
        ∃ t, exec i s = .next t ∧ t.me.pc = nextPc s.me ∧ PassedHead s t ∧ AgedRegs s t ∧ t.me.vregs = s.me.vregs
          ∧ t.me.masks = s.me.masks ∧ t.me.vl = s.me.vl ∧ t.me.fflags = s.me.fflags ∧ VectorsAndLinks s t
          ∧ (∀ n, (∃ p ∈ ps, p.tag = 0 ∧ p.addr = base + BitVec.ofNat 64 (n / 8)) → n < 6144 →
            (t.home (key (base + BitVec.ofNat 64 (n / 8)))).getLsbD (n % 8) =
              if n / 6 ∈ lanes then (s.me.box x.dst (n / 6)).testBit (n % 6)
              else (s.home (key (base + BitVec.ofNat 64 (n / 8)))).getLsbD (n % 8))
          ∧ (∀ l ∈ lanes, (State.view t s.me.core (key (sb + BitVec.ofNat 64 (l / s.me.blen)))).toNat =
            s.me.box x.dst (l / s.me.blen * s.me.blen) / 256 % 256)
          ∧ ∀ k, (∀ p ∈ ps, key p.addr ≠ k) → t.home k = s.home k))
    ∧ ∀ (ty : Ty) (d a : VReg) (z : Imm) (m : MReg), s.me.badTy ty isLns = false → d.val < s.me.vheld → a.val < s.me.vheld →
      let lanes := s.me.lanes m
      let off (l : Nat) : Word := BitVec.ofNat 64 (s.me.box a l) + BitVec.ofInt 64 z.toInt
      (∀ l ∈ lanes, (off l).toNat + 4 ≤ s.myCrew.decl.llbytes) →
      (∀ i, ((i = .lldx ty d a m ∧ z = 0) ∨ i = .lldxImm ty d a z m) →
        ∃ t, exec i s = .next t ∧ VecDone s t ∧ OtherLanes s t [d] lanes ∧ AgedRegs s t ∧ t.me.fflags = s.me.fflags
          ∧ ∀ l ∈ lanes, t.me.box d l = leVal (s.homeBytes (s.llKey l (off l).toNat) 4))
      ∧ ∀ i, ((i = .lstx ty d a m ∧ z = 0) ∨ i = .lstxImm ty d a z m) →
        ∃ t, exec i s = .next t ∧ t.me.pc = nextPc s.me ∧ PassedHead s t ∧ AgedRegs s t ∧ t.me.vregs = s.me.vregs
          ∧ t.me.masks = s.me.masks ∧ t.me.vl = s.me.vl ∧ t.me.fflags = s.me.fflags ∧ VectorsAndLinks s t
          ∧ ∀ k, t.home k = (Spec.lastByte (lanes.map fun l => (s.llKey l (off l).toNat, leBytes 4 (s.me.box d l))) k).getD (s.home k)

/-- R208 to R210: a gather whose indices resolve and whose places are memory without error completes: each active lane has the
element at its address, or 0 where it has none; a linked gather reads at the homes and leaves a link on each line. A linked gather
that reads at the homes is log entry 28. -/
def Obligations.GatherResult : Prop :=
  ∀ (i : Instr) (s : State) (x : Spec.IdxSpec) (linked : Bool), Spec.gather i = some (x, linked) → VecReady s →
    Readable s (x.base :: x.bound.toList) → s.me.badTy x.ty notLns = false →
    let e := s.me.elemTy x.ty
    let lanes := s.me.lanes x.mask
    Held s e [x.dst] → x.idx.val < s.me.vheld → (∀ l ∈ lanes, x.at_ s l ≠ .fault) →
    ∀ pw : Machine.Placed, Spec.Placed s x.spc .rd false (x.pieces s) pw → s.mpois = [] → s.t2lost = [] →
      ∃ t, exec i s = .next t ∧ t.me.pc = nextPc s.me ∧ PassedHead s t ∧ AgedRegs s t
        ∧ (linked = false → ∀ p ∈ pw, ∀ k, p.2 = .cell k →
          t.me.boxes e x.dst p.1.lane = leVal (s.viewBytes s.me.core k p.1.n) % 2 ^ tyBits e)
        ∧ (linked = true → s.sbuf = [] → (∀ x ∈ s.rstores, x.core ≠ s.me.core) → ∀ p ∈ pw, ∀ k, p.2 = .cell k →
          t.me.boxes e x.dst p.1.lane = leVal (s.homeBytes k p.1.n) % 2 ^ tyBits e ∧ k / 64 ∈ t.me.links)
        ∧ (∀ l ∈ lanes, x.at_ s l = .skip → t.me.boxes e x.dst l = 0)
        ∧ OtherLanes s t (regsOf e x.dst) lanes ∧ t.me.fflags = s.me.fflags ∧ t.me.masks = s.me.masks
        ∧ t.me.vl = s.me.vl ∧ VectorsAndLinks s t
        ∧ (s.sbuf = [] → t.mem = s.mem)

/-- R205, R208, R209, R211: a scatter stores each lane that has an address, the highest lane's bytes remaining; a conditional one
stores, of the lanes on a linked line, the lowest with each address, sets exactly their bits in its mask, and clears every link. A
conditional scatter that acts at the homes is log entry 28. -/
def Obligations.ScatterResult : Prop :=
  ∀ (i : Instr) (s : State) (x : Spec.IdxSpec), VecReady s → Readable s (x.base :: x.bound.toList) →
    s.me.badTy x.ty notLns = false → s.mpois = [] → s.t2lost = [] →
    let e := s.me.elemTy x.ty
    let lanes := s.me.lanes x.mask
    Held s e [x.dst] → x.idx.val < s.me.vheld → (∀ l ∈ lanes, x.at_ s l ≠ .fault) →
    ∀ pw : Machine.Placed, (∀ p ∈ pw, ∀ k, p.2 = .cell k → k + 8 ≤ 2 ^ 63 ∨ 2 ^ 63 ≤ k) →
      (Spec.scatter i = some x → Spec.Placed s x.spc .wr false (x.pieces s) pw →
        ∃ t, exec i s = .next t ∧ t.me.pc = nextPc s.me ∧ PassedHead s t ∧ AgedRegs s t ∧ t.me.vregs = s.me.vregs
          ∧ t.me.masks = s.me.masks ∧ t.me.vl = s.me.vl ∧ t.me.fflags = s.me.fflags ∧ VectorsAndLinks s t
          ∧ ∀ k, State.view { t with cycle := s.cycle } s.me.core k = (Spec.lastByte (Spec.writesOf s e pw) k).getD (s.view s.me.core k))
      ∧ ∀ md, Spec.condScatter i = some (x, md) → Spec.Placed s x.spc .rw false (x.pieces s) pw → s.sbuf = [] →
        let keys := pw.filterMap fun p => match p.2 with
          | .cell k => some (p.1.lane, k, p.1.addr)
          | .plain .. => none
        let good (p : Nat × Nat × Word) : Bool :=
          decide (p.2.1 / 64 ∈ s.me.links) && keys.all fun q => !(decide (q.1 < p.1) && q.2.2 = p.2.2)
        ∃ t, exec i s = .next t ∧ t.me.pc = nextPc s.me ∧ PassedHead s t ∧ AgedRegs s t ∧ t.me.links = []
          ∧ t.me.vregs = s.me.vregs ∧ t.me.vl = s.me.vl ∧ t.me.fflags = s.me.fflags ∧ VectorsAndLinks s t
          ∧ (∀ l < 1024, (t.me.mask md).getLsbD l = keys.any fun p => p.1 = l && good p)
          ∧ (∀ k, k ≠ md → t.me.mask k = s.me.mask k)
          ∧ ∀ k, t.home k = (Spec.lastByte ((keys.filter good).map fun p => (p.2.1, leBytes (tyBits e / 8) (s.me.elem e x.dst p.1))) k).getD
            (s.home k)

/-- R213, R284: a full/empty access whose granules are all in the needed state, with no older access waiting for one of them, acts
in one step: a load reads and, where it takes, empties them; a store writes and fills them. Where a granule is not in that state the
instruction waits in its queue with nothing done, and the strand goes on. R215: `spclr` of an aligned range inside the allocation empties its granules, zeroes their bytes where it is asked
to, and changes no other granule and no other byte. The order among waiting accesses is log entries 37 and
71. -/
def Obligations.FullEmptyResult : Prop :=
  (∀ (i : Instr) (s : State) (x : Spec.FeSpec), Spec.fullEmpty i = some x → VecReady s → Readable s [x.base] →
     s.me.badTy x.ty notLns = false → s.mpois = [] →
     let e := s.me.elemTy x.ty
     let lanes := s.me.lanes x.mask
     let ps := Spec.pieceList x.dst 1 lanes (fun n l _ => Spec.effective s x.base x.off + BitVec.ofNat 64 (l * n)) e
     Held s e [x.dst] → lanes ≠ [] → s.t2lost = [] → s.me.wait = none → s.cur ∉ s.myCrew.feQueue →
     ∀ pw : Machine.Placed, Spec.Placed s .sp (if x.load then .rd else .wr) false ps pw →
       let gs := placedGranules pw
       ((∀ g ∈ gs, tget false s.full g = x.load) → feBehind s s.cur gs x.load = false →
         ∃ t, exec i s = .next t ∧ t.me.pc = nextPc s.me ∧ t.me.wait = none ∧ AgedRegs s t
           ∧ VectorsAndLinks s t ∧ t.me.masks = s.me.masks ∧ t.me.vl = s.me.vl ∧ t.me.fflags = s.me.fflags
           ∧ (∀ g, tget false t.full g = if g ∈ gs then (if x.load then (if x.take then false else tget false s.full g) else true)
             else tget false s.full g)
           ∧ (x.load = true → t.mem = s.mem ∧ OtherLanes s t (regsOf e x.dst) lanes ∧ ∀ p ∈ pw, ∀ k, p.2 = .cell k →
             t.me.boxes e x.dst p.1.lane = leVal (s.homeBytes k p.1.n) % 2 ^ tyBits e)
           ∧ (x.load = false → t.me.vregs = s.me.vregs
             ∧ ∀ k, t.home k = (Spec.lastByte (Spec.writesOf s e pw) k).getD (s.home k)))
       ∧ ((gs.any fun g => tget false s.full g ≠ x.load) = true → slotEntries s < 64 →
         ∃ t, exec i s = .next t ∧ t.me.pc = nextPc s.me ∧ PassedHead s t ∧ AgedRegs s t ∧ t.me.vregs = s.me.vregs ∧ t.full = s.full
           ∧ t.mem = s.mem ∧ t.me.masks = s.me.masks ∧ t.me.fflags = s.me.fflags ∧ t.me.vstart = 0
           ∧ (t.crew s.me.crew).feQueue = s.myCrew.feQueue ++ [s.cur]
           ∧ ∃ v ls lo, t.me.viq = [v] ∧ v.instr = i ∧ v.wait = some (.fe gs x.load ls lo) ∧ v.front = s.me.front))
  ∧ (∀ (i : Instr) (zero : Bool) (a b : SReg) (z : Imm) (s : State),
       ((i = .spclr zero a b ∧ z = 0) ∨ i = .spclrImm zero a b z) → VecReady s → Readable s [a, b] → s.me.wait = none →
       let o := (Spec.effective s a z).toNat
       let n := (s.rd b).toNat
       let k := s.csp o
       o % 16 = 0 → n % 16 = 0 → (n = 0 ∨ o + n ≤ s.myCrew.decl.spbytes) → s.myCrew.cspBase % 16 = 0 →
       ∃ t, exec i s = .next t ∧ t.me.pc = nextPc s.me ∧ PassedHead s t ∧ AgedRegs s t
         ∧ OnlyScalars { s with me := { s.me with vstart := 0 } } t ∧ t.me.fflags = s.me.fflags
         ∧ (∀ g, tget false t.full g = if k / 16 ≤ g ∧ g < (k + n) / 16 then false else tget false s.full g)
         ∧ ∀ y, t.home y = if zero = true ∧ k ≤ y ∧ y < k + n then 0 else s.home y)



/-- R220 to R222, R225: `awin` opens a window and gives every lane's copy the identity; `aupd` folds each active lane's element
into its own copy; `amerge` folds the copies of the live lanes, in ascending order, into memory and closes the window; `vwait`
completes with an empty mask when every lane's flag meets its condition, and else waits in its queue with the unmet lanes. Each leaves
VSTART 0 (R35). -/
def Obligations.WindowResult : Prop :=
  ∀ (s : State), VecReady s →
    (∀ (t : Ty) (ty : AwTy) (op : Fold) (a b : SReg) (x : Imm),
      (t, ty) ∈ [(Ty.i32, AwTy.i32), (.u32, .u32), (.i64, .i64), (.u64, .u64), (.f32, .f32)] → Readable s [a, b] →
      let n := (s.rd b).toNat
      let size := Spec.awBytes ty
      1 ≤ n → n ≤ 1024 → x.toNat + n * size ≤ s.myCrew.decl.llbytes → (s.rd a).toNat % size = 0 → x.toNat % size = 0 →
      ∃ u, exec (.awin t op a b x) s = .next u ∧ u.me.awin = some ⟨s.rd a, n, ty, op, x.toNat⟩ ∧ u.me.pc = nextPc s.me ∧ PassedHead s u
        ∧ AgedRegs s u ∧ OnlyScalars { s with me := { s.me with awin := u.me.awin, vstart := 0 } } u
        ∧ u = { s with me := u.me, mem := u.mem, cycle := u.cycle }
        ∧ (∀ l < s.me.vlmax, ∀ e < n, leVal (u.homeBytes (s.llKey l (x.toNat + e * size)) size) = Spec.identity op ty)
        ∧ ∀ k, (∀ l < s.me.vlmax, k < s.llKey l x.toNat ∨ s.llKey l x.toNat + n * size ≤ k) → u.home k = s.home k)
    ∧ (∀ (a b : VReg) (m : MReg) (w : AWin), s.me.awin = some w →
      let e := awElem w.ty
      let size := Spec.awBytes w.ty
      let lanes := s.me.lanes m
      let key (l : Nat) (i : Word) : Nat := s.llKey l (w.llofs + i.toNat * size)
      let at_ (l : Nat) : Spec.Index := Spec.index s.me.vtype.oob 0 (some w.n) 1 (BitVec.ofNat 32 (s.me.box a l)).toInt
      let new (l : Nat) (i : Word) : FRes := Spec.fold w.op w.ty (leVal (s.homeBytes (key l i) size)) (s.me.elem e b l)
      Held s e [b] → a.val < s.me.vheld → s.mpois = [] → s.t2lost = [] → w.llofs + w.n * size ≤ s.myCrew.decl.llbytes → (∀ l ∈ lanes, at_ l ≠ .fault) →
      ∃ u, exec (.aupd a b m) s = .next u ∧ u.me.pc = nextPc s.me ∧ PassedHead s u ∧ AgedRegs s u ∧ u.me.vregs = s.me.vregs
        ∧ u.me.masks = s.me.masks ∧ u.me.vl = s.me.vl ∧ OnlyVectors s u
        ∧ (∀ l ∈ lanes, ∀ i, at_ l = .addr i → leVal (u.homeBytes (key l i) size) = (new l i).bits)
        ∧ (∀ k, (∀ l ∈ lanes, ∀ i, at_ l = .addr i → k < key l i ∨ key l i + size ≤ k) → u.home k = s.home k)
        ∧ u.me.fflags = s.me.fflags.or (orFlags (lanes.filterMap fun l => match at_ l with
          | .addr i => some (new l i)
          | _ => none)))
    ∧ (∀ (w : AWin) (key : Nat → Nat), s.me.awin = some w → (s.part s.myGrid.part).guard = false → s.sbuf = [] → s.mpois = [] →
      s.t2lost = [] →
      let size := Spec.awBytes w.ty
      let live := (List.range s.me.vlmax).filter fun l => !s.me.deadmask.getLsbD l
      let copies (e : Nat) : FRes := live.foldl (fun r l =>
        let x := Spec.fold w.op w.ty r.bits (leVal (s.homeBytes (s.llKey l (w.llofs + e * size)) size))
        ⟨x.bits, r.fl.or x.fl⟩) ⟨Spec.identity w.op w.ty, {}⟩
      let new (e : Nat) : FRes := Spec.fold w.op w.ty (leVal (s.homeBytes (key e) size)) (copies e).bits
      (∀ e < w.n, judge s .gen .rw false { lane := 1024, tag := e, addr := w.base + BitVec.ofNat 64 (e * size), n := size } = .ok (.cell (key e))
        ∧ lostDevice s (key e) = none ∧ key e < 2 ^ 63) →
      (∀ e < w.n, ∀ f < w.n, e < f → key e + size ≤ key f ∨ key f + size ≤ key e) →
      ∃ u, exec .amerge s = .next u ∧ u.me.pc = nextPc s.me ∧ PassedHead s u ∧ AgedRegs s u ∧ u.me.awin = none
        ∧ ScalarsAndLinks { s with me := { s.me with awin := none, vstart := 0 } } u
        ∧ (∀ e < w.n, leVal (u.homeBytes (key e) size) = (new e).bits)
        ∧ (∀ k, (∀ e < w.n, k < key e ∨ key e + size ≤ k) → u.home k = s.home k)
        ∧ u.me.fflags = s.me.fflags.or (orFlags ((List.range w.n).flatMap fun e => [copies e, new e])))
    ∧ ∀ (cc : WCc) (t : Ty) (sp : Bool) (tmo : BitVec 26) (d : MReg) (a : SReg) (b c : VReg) (m : MReg),
      t ∈ [Ty.i32, .u32, .i64, .u64] → Readable s [a] → Held s t [c] → b.val < s.me.vheld → s.me.wait = none → s.mpois = [] → s.t2lost = [] →
      let i := Instr.vwait cc t sp tmo d a b c m
      let x : Spec.IdxSpec := ⟨t, Spec.spaceOf sp, c, a, b, none, m⟩
      (∀ l ∈ s.me.lanes m, x.at_ s l ≠ .fault) → ∀ pw : Machine.Placed, Spec.Placed s x.spc .rd false (x.pieces s) pw →
      let met (p : Piece × Where) : Bool :=
        Spec.waitMeets cc (Spec.toNum t (leVal (p.2.bytes (dropLines s.me.core s) p.1.n))) (Spec.toNum t (s.me.elem t c p.1.lane))
      (pw.all met = true → ∃ u, exec i s = .next u ∧ u.me.pc = nextPc s.me ∧ u.me.wait = none ∧ AgedRegs s u ∧ u.me.mask d = 0
        ∧ (∀ k, k ≠ d → u.me.mask k = s.me.mask k) ∧ u.me.vl = s.me.vl ∧ OnlyVectors s u ∧ u.me.vregs = s.me.vregs ∧ u.mem = s.mem ∧ u.me.fflags = s.me.fflags
        ∧ ∀ l ∈ u.l1, l.core ≠ s.me.core)
      ∧ (pw.all met = false → slotEntries s < 64 → ∃ u v pend, exec i s = .next u ∧ u.me.pc = nextPc s.me ∧ PassedHead s u
        ∧ u.me.viq = [v] ∧ v.instr = i ∧ v.front = s.me.front
        ∧ v.wait = some (.vwait i pend (if tmo = 0 then none else some (s.cycle + 64 * tmo.toNat)))
        ∧ (∀ l < 1024, pend.getLsbD l = pw.any fun p => p.1.lane = l && !met p)
        ∧ AgedRegs s u ∧ u.me.masks = s.me.masks ∧ u.me.vregs = s.me.vregs ∧ u.mem = s.mem)

/-! ### Tiles, matrices, copies -/

/-- R230 to R234, R253: `settile` gives the grant, empties every tile and leaves the images; a tile load fills the live rows of its
role from memory, with zeros elsewhere in the tile, once the barrier that it names is filled; a tile store writes the tile's
rows and columns; a gathered load takes each live column from the row that its index names. That the bits behind the
codes of a stored LNS6 row stay is log entry 82. -/
def Obligations.TileResult : Prop :=
  ∀ (s : State), VecReady s →
    (∀ (t : Ty) (f : TFmt) (d a b c : SReg), Spec.tileTy f = t → Readable s [a, b, c] →
      let g := Spec.grant s f (s.rd a).toNat (s.rd b).toNat (s.rd c).toNat
      ∃ u, exec (.settile t d a b c) s = .next u ∧ u.me.gshape = g ∧ u.me.tiles = [] ∧ u.me.tshape = []
        ∧ u.rd d = (if d = 0 then 0 else word (gshapeCode g)) ∧ OtherRegs s u d (1 + s.me.ir.sc) ∧ u.me.pc = nextPc s.me ∧ PassedHead s u
        ∧ OnlyMe s u ∧ OnlyTiles s u)
    ∧ (∀ (i : Instr) (x : Spec.TileSpec), Spec.tileLoad i = some x → s.me.gshape.gv = true → x.names s.me.gshape.fmt → Readable s x.reads →
      x.tile.val < s.me.tdecl →
      let g := s.me.gshape
      let f := g.fmt
      let rows := if x.role then min g.qn g.gn else min g.qm g.gm
      let cols := min g.qk g.gk
      let n := Spec.bytesOfRow f cols
      let ns := if f = .lns6 then Spec.blocksOf cols s.me.blen else 0
      rows ≤ 64 → n ≤ 192 → ns ≤ 16 →
      (∀ b, x.bar = some b → b.val < s.myCrew.decl.nsb ∧ (s.me.sstrict = false ∨ (s.barrier b).ovr = false)) →
      ((∀ b, x.bar = some b → (s.barrier b).ph ≠ (s.barrier b).rph) →
        ∀ (pw : Machine.Placed) (u : State), Spec.Placed s x.spc .rd (decide (x.spc = .gen)) (x.pieces s f rows cols) pw →
          decodeInto s.ctx (pw.flatMap fun p => p.2.sectors p.1.n) (touchAll pw s) = .ok u → dataPoison u pw = none →
          ∃ t, exec i s = .next t ∧ t.me.pc = nextPc s.me ∧ PassedHead s t ∧ AgedRegs s t ∧ OnlyTiles s t ∧ t.me.gshape = g
            ∧ (∀ r < rows, leVal (t.me.tileBytes x.tile r 0 n) = leVal (Spec.dataOf u pw (2 * r)) % 2 ^ (Spec.elemBits f * cols))
            ∧ (∀ r < rows, ns ≠ 0 → t.me.tileBytes x.tile r 192 ns = Spec.dataOf u pw (2 * r + 1))
            ∧ (∀ r < 64, ∀ b < 208, ¬ (r < rows ∧ (b < n ∨ (192 ≤ b ∧ b < 192 + ns))) → tget 0 t.me.tiles (tileKey x.tile r b) = 0)
            ∧ (∀ k r b, k ≠ x.tile.val → r < 64 → b < 208 → tget 0 t.me.tiles (tileKey k r b) = tget 0 s.me.tiles (tileKey k r b))
            ∧ (∀ k, tget {} t.me.tshape k = if k = x.tile.val then ⟨f, cols, rows⟩ else tget {} s.me.tshape k)
            ∧ t.mem = s.mem ∧ t.sbuf = s.sbuf
            ∧ t.events = u.events ++ (if x.bar.isSome then [.tldEEngineRelease s.cur] else []))
      ∧ ∀ b, x.bar = some b → (s.barrier b).ph = (s.barrier b).rph →
        ∃ t, exec i s = .next t ∧ t.me.wait = some (.tldE b) ∧ t.me.pc = s.me.pc ∧ t.me.tiles = s.me.tiles ∧ t.mem = s.mem)
    ∧ (∀ (i : Instr) (x : Spec.TileSpec), Spec.tileStore i = some x →
      let ts := tget {} s.me.tshape x.tile
      let rows := if ts.cols = 0 then 0 else ts.rows
      x.names ts.fmt → Readable s x.reads → x.tile.val < s.me.tdecl → (∀ r, x.tile.val * 64 + r ∉ s.me.tpois) → s.mpois = [] →
      s.t2lost = [] → Spec.bytesOfRow ts.fmt ts.cols ≤ 192 →
      ∀ pw : Machine.Placed,
        Spec.Placed s x.spc (if ts.fmt = .lns6 then .rw else .wr) false (x.pieces s ts.fmt rows ts.cols) pw →
        (∀ p ∈ pw, ∀ k, p.2 = .cell k → k + p.1.n ≤ 2 ^ 63 ∨ 2 ^ 63 ≤ k) →
        let off (p : Piece) (j : Nat) : Nat :=
          (p.addr - if p.tag % 2 = 0 then x.row s (p.tag / 2) else x.scaleRow s (p.tag / 2)).toNat + j
        let byte (p : Piece) (j : Nat) : Byte := tget 0 s.me.tiles (tileKey x.tile (p.tag / 2) ((if p.tag % 2 = 0 then 0 else 192) + off p j))
        let ws := pw.filterMap fun p => match p.2 with
          | .cell k => some (k, (List.range p.1.n).map (byte p.1))
          | .plain .. => none
        (ts.fmt ≠ .lns6 →
          ∃ t, exec i s = .next t ∧ t.me.pc = nextPc s.me ∧ PassedHead s t ∧ AgedRegs s t ∧ ScalarsAndLinks s t
            ∧ t.me.fflags = s.me.fflags
            ∧ ∀ k, State.view { t with cycle := s.cycle } s.me.core k = (Spec.lastByte ws k).getD (s.view s.me.core k))
        ∧ (ts.fmt = .lns6 → s.sbuf = [] → (∀ y ∈ s.rstores, y.core ≠ s.me.core) → (pw.Pairwise fun p q => ∀ j k, p.2 = .cell j → q.2 = .cell k → j + p.1.n ≤ k ∨ k + q.1.n ≤ j) →
          ∃ t, exec i s = .next t ∧ t.me.pc = nextPc s.me ∧ PassedHead s t ∧ AgedRegs s t ∧ ScalarsAndLinks s t
            ∧ t.me.fflags = s.me.fflags
            ∧ (∀ p ∈ pw, ∀ k, p.2 = .cell k → ∀ j < p.1.n,
              let live := if p.1.tag % 2 = 0 then min 8 (6 * ts.cols - 8 * off p.1 j) else 8
              (State.view { t with cycle := s.cycle } s.me.core (k + j)).toNat =
                (byte p.1 j).toNat % 2 ^ live + (s.home (k + j)).toNat / 2 ^ live * 2 ^ live)
            ∧ ∀ y, (∀ w ∈ ws, y < w.1 ∨ w.1 + w.2.length ≤ y) → t.home y = s.home y))
    ∧ ∀ (ty : Ty) (role : Bool) (d : TReg) (a b : SReg) (c : VReg) (m : MReg),
      let g := s.me.gshape
      let f := g.fmt
      let rows := if role then min g.qn g.gn else min g.qm g.gm
      let cols := min g.qk g.gk
      let e := Spec.elemBits f / 8
      let act := (s.me.lanes m).filter (· < cols)
      let index (l : Nat) : Int := (BitVec.ofNat 32 (s.me.box c l)).toInt
      let column (l : Nat) : Option Word :=
        if 0 ≤ index l then some (s.rd a + BitVec.ofInt 64 (index l) * s.rd b) else if s.me.vtype.oob = .clamp then some (s.rd a) else none
      let ps := act.flatMap fun l => match column l with
        | some w => Spec.span l l w (rows * e) e
        | none => []
      g.gv = true → f ≠ .lns6 → (ty = .dflt ∨ ty = Spec.tileTy f) → Readable s [a, b] → d.val < s.me.tdecl → c.val < s.me.vheld →
      rows ≤ 64 → cols * e ≤ 192 → (s.me.vtype.oob = .fault → ∀ l ∈ act, 0 ≤ index l) →
      ∀ (pw : Machine.Placed) (u : State), Spec.Placed s .gen .rd true ps pw →
        decodeInto s.ctx (pw.flatMap fun p => p.2.sectors p.1.n) (touchAll pw s) = .ok u → dataPoison u pw = none →
        ∃ t, exec (.tldg ty role d a b c m) s = .next t ∧ t.me.pc = nextPc s.me ∧ PassedHead s t ∧ AgedRegs s t ∧ OnlyTiles s t
          ∧ (∀ r < rows, ∀ l < cols, t.me.tileBytes d r (l * e) e =
            if l ∈ act ∧ (column l).isSome then ((Spec.dataOf u pw l).drop (r * e)).take e else zeros e)
          ∧ (∀ k, tget {} t.me.tshape k = if k = d.val then ⟨f, cols, rows⟩ else tget {} s.me.tshape k)
          ∧ (∀ k r y, k ≠ d.val → r < 64 → y < 208 → tget 0 t.me.tiles (tileKey k r y) = tget 0 s.me.tiles (tileKey k r y))
          ∧ t.mem = s.mem ∧ t.sbuf = s.sbuf

/-- R54, R75 to R79, R235, R236, R238 to R240: a multiply gives every live element of its image the sum of products of the two
tiles' rows, exact for INT8 and in the order of R76 or R78 else, and leaves every other element and image; `zld`, `zst` and `zclr`
load, store and clear an image. An image element's error that stays is log entry 32. -/
def Obligations.MatrixResult : Prop :=
  ∀ (s : State), VecReady s →
    (∀ (i : Instr) (o : MmaOps) (ordered : Bool), Spec.multiply i = some (o, ordered) →
      let g := s.me.gshape
      let f := g.fmt
      let rows := min g.qm g.gm
      let cols := min g.qn g.gn
      let zd := tget {} s.me.zdim o.d
      g.gv = true → (o.t = .dflt ∨ o.t = Spec.tileTy f) → ((o.ua || o.ub) = true → f = .int8) → (f = .lns6 → g.gk % s.me.blen = 0) →
      (o.z = false → (zd.fp = true ↔ f ≠ .int8)) → o.a.val < s.me.tdecl → o.b.val < s.me.tdecl → o.d.val < s.me.zdecl →
      s.me.tpois = [] → s.me.zpois = [] → rows ≤ 64 → cols ≤ 64 →
      let terms (r c : Nat) : List (FVal × Bool) :=
        (List.range (min g.qk g.gk)).map fun k => tileProduct f (s.me.tileElem f o.a r k) (s.me.tileElem f o.b c k)
      let old (r c : Nat) : Nat := if o.z then 0 else (tget 0 s.me.zimg (zKey o.d r c)).toNat
      let new (r c : Nat) : FRes :=
        if f = .int8 then
          let x := Spec.intDot s.me o r c
          let e : Ty := if o.ua && o.ub then .u32 else .i32
          { bits := Spec.low e x, fl := { iov := decide (x ≠ Spec.clamped e x) } }
        else if ordered then chainO (old r c) (terms r c) else chainR (old r c) (terms r c)
      ∃ t, exec i s = .next t ∧ t.me.pc = nextPc s.me ∧ PassedHead s t ∧ AgedRegs s t ∧ OnlyImages s t ∧ OnlyMe s t
        ∧ (∀ r < rows, ∀ c < cols, (tget 0 t.me.zimg (zKey o.d r c)).toNat = (new r c).bits % 2 ^ 32)
        ∧ (∀ k r c, r < 64 → c < 64 → (k ≠ o.d.val ∨ rows ≤ r ∨ cols ≤ c) → tget 0 t.me.zimg (zKey k r c) = tget 0 s.me.zimg (zKey k r c))
        ∧ (∀ k, tget {} t.me.zdim k = if k = o.d.val then
            { fp := if o.z then decide (f ≠ .int8) else zd.fp, rows := max zd.rows rows, cols := max zd.cols cols }
          else tget {} s.me.zdim k)
        ∧ t.me.fflags = s.me.fflags.or (orFlags ((List.range rows).flatMap fun r => (List.range cols).map (new r))))
    ∧ (∀ (i : Instr) (t : Ty) (sp : Bool) (d : ZReg) (a b : SReg) (x : Imm), ((i = .zld t sp d a b ∧ x = 0) ∨ i = .zldImm t sp d a b x) →
      let g := s.me.gshape
      let rows := min g.qm g.gm
      let cols := min g.qn g.gn
      let row (r : Nat) : Word := Spec.effective s a x + BitVec.ofNat 64 r * s.rd b
      g.gv = true → Readable s [a, b] → d.val < s.me.zdecl → rows ≤ 64 → cols ≤ 64 → s.mpois = [] → s.t2lost = [] →
      ∀ pw : Machine.Placed,
        Spec.Placed s (Spec.spaceOf sp) .rd false ((List.range rows).flatMap fun r => Spec.span 1024 r (row r) (4 * cols) 4) pw →
        ∃ u, exec i s = .next u ∧ u.me.pc = nextPc s.me ∧ PassedHead s u ∧ AgedRegs s u ∧ OnlyImages s u
          ∧ (∀ k r c, r < 64 → c < 64 → (tget 0 u.me.zimg (zKey k r c)).toNat =
            if k ≠ d.val then (tget 0 s.me.zimg (zKey k r c)).toNat
            else if r < rows ∧ c < cols then leVal (((Spec.dataOf s pw r).drop (4 * c)).take 4) else 0)
          ∧ (∀ k, tget {} u.me.zdim k = if k = d.val then ⟨decide (t = .f32), cols, rows⟩ else tget {} s.me.zdim k)
          ∧ u.mem = s.mem ∧ u.sbuf = s.sbuf ∧ u.me.fflags = s.me.fflags)
    ∧ (∀ (i : Instr) (t : Ty) (sp : Bool) (rm : Rmo) (d : ZReg) (a b : SReg) (x : Imm),
      ((i = .zst t sp rm d a b ∧ x = 0) ∨ i = .zstImm t sp rm d a b x) →
      let zd := tget {} s.me.zdim d
      let rows := if zd.cols = 0 then 0 else zd.rows
      let e := tyBits t / 8
      let row (r : Nat) : Word := Spec.effective s a x + BitVec.ofNat 64 r * s.rd b
      let code (r c : Nat) : FRes :=
        let z := (tget 0 s.me.zimg (zKey d r c)).toNat
        if t = .f16 ∨ t = .bf16 then (floatOf t).cvt (s.me.mode rm) (FForm.f32.decode z) else { bits := z }
      ((t ∈ [Ty.f32, .f16, .bf16] ∧ zd.fp = true) ∨ (t = .i32 ∧ zd.fp = false)) → (t = .f32 ∨ t = .i32 → rm = .frm) →
      Readable s [a, b] → d.val < s.me.zdecl → s.me.zpois = [] → s.mpois = [] → zd.cols ≤ 64 →
      ∀ pw : Machine.Placed,
        Spec.Placed s (Spec.spaceOf sp) .wr false ((List.range rows).flatMap fun r => Spec.span 1024 r (row r) (e * zd.cols) e) pw →
        (∀ p ∈ pw, ∀ k, p.2 = .cell k → k + p.1.n ≤ 2 ^ 63 ∨ 2 ^ 63 ≤ k) →
        let ws := pw.filterMap fun p => match p.2 with
          | .cell k => some (k, (List.range p.1.n).map fun j =>
              let o := (p.1.addr - row p.1.tag).toNat + j
              BitVec.ofNat 8 ((code p.1.tag (o / e)).bits / 256 ^ (o % e)))
          | .plain .. => none
        ∃ u, exec i s = .next u ∧ u.me.pc = nextPc s.me ∧ PassedHead s u ∧ AgedRegs s u ∧ ScalarsAndLinks s u
          ∧ u.me.fflags = s.me.fflags.or (orFlags ((List.range rows).flatMap fun r => (List.range zd.cols).map (code r)))
          ∧ ∀ k, State.view { u with cycle := s.cycle } s.me.core k = (Spec.lastByte ws k).getD (s.view s.me.core k))
    ∧ ∀ (fp : Bool) (d : ZReg), d.val < s.me.zdecl →
      ∃ u, exec (.zclr fp d) s = .next u ∧ u.me.pc = nextPc s.me ∧ PassedHead s u ∧ AgedRegs s u ∧ OnlyImages s u ∧ OnlyMe s u
        ∧ (∀ k r c, r < 64 → c < 64 → tget 0 u.me.zimg (zKey k r c) = if k = d.val then 0 else tget 0 s.me.zimg (zKey k r c))
        ∧ (∀ k, tget {} u.me.zdim k = if k = d.val then ⟨fp, 0, 0⟩ else tget {} s.me.zdim k) ∧ u.me.fflags = s.me.fflags

/-- R242, R246 to R252: `sbinit` sets a barrier, `sbexp` announces bytes and completes a phase that has them, `sbwait` answers the
state word once its phase has passed and else waits, `sbrel` releases; a barrier with OVER traps STAGE_OVER under SSTRICT, which
clears it. `tdfence` performs the core's stores at their homes and drops the held copy of a descriptor; where a store of the core awaits
another device it waits for it. -/
def Obligations.StageBarriers : Prop :=
  ∀ (s : State), VecReady s → s.me.wait = none →
    (∀ (b : Fin 16), b.val < s.myCrew.decl.nsb →
      let x := s.barrier b
      let quiet := s.me.sstrict = false ∨ x.ovr = false
      let done (i : Instr) (y : Barrier) : Prop := ∃ t, exec i s = .next t ∧ t.barrier b = y ∧ t.me.pc = nextPc s.me ∧ PassedHead s t
        ∧ AgedRegs s t ∧ OnlyScalars s t ∧ t.me.fflags = s.me.fflags ∧ t.mem = s.mem ∧ t.full = s.full ∧ ∀ c : Nat, c ≠ b.val → t.barrier c = s.barrier c
      (∀ a, Readable s [a] → 1 ≤ (s.rd a).toNat → (s.rd a).toNat ≤ 16 → done (.sbinit b a) { rcnt := (s.rd a).toNat })
      ∧ (∀ a, Readable s [a] → ((s.rd a).toNat = 0 ∨ 16 < (s.rd a).toNat) → Handled s →
        ∃ t, exec (.sbinit b a) s = .next t ∧ Takes s t { cause := .illegalInsn, detail := 6 })
      ∧ (∀ a, Readable s [a] → (s.rd a).toNat % 16 = 0 → (s.rd a).toNat < 2 ^ 32 → quiet →
        done (.sbexp b a) (Spec.filled { x with exp := min (x.exp + (s.rd a).toNat) (2 ^ 32 - 1) }))
      ∧ (quiet → done (.sbrel b) (Spec.released x))
      ∧ (∀ (free : Bool) (d a : SReg), Readable s [a] → quiet →
        let c : Word32 := if free then x.rph else x.ph
        let v : Word32 := BitVec.ofNat 32 (s.rd a).toNat
        let passed := (c - v - 1).toNat < 2 ^ 31
        (passed → ∃ t, exec (.sbwait free b d a) s = .next t ∧ t.me.pc = nextPc s.me ∧ PassedHead s t ∧ OnlyMe s t ∧ OnlyScalars s t
          ∧ t.rd d = (if d = 0 then 0 else BitVec.ofNat 64
            ((if x.ovr then 2 ^ 63 else 0) + x.rcnt * 2 ^ 37 + x.rdone * 2 ^ 32 + x.rph.toNat % 2 ^ 16 * 2 ^ 16 + x.ph.toNat % 2 ^ 16))
          ∧ OtherRegs s t d (1 + s.me.ir.sc) ∧ t.me.fflags = s.me.fflags)
        ∧ (¬ passed → ∃ t, exec (.sbwait free b d a) s = .next t ∧ Waits s t (.sbwait b free v) ∧ t.mem = s.mem))
      ∧ (¬ quiet → ∀ i, (i = .sbrel b ∨ (∃ free d a, i = .sbwait free b d a ∧ Readable s [a])
          ∨ ∃ a, i = .sbexp b a ∧ Readable s [a] ∧ (s.rd a).toNat % 16 = 0 ∧ (s.rd a).toNat < 2 ^ 32) → Handled s →
        ∃ t, exec i s = .next t ∧ Entered s t s.me.ir { cause := .stageOver, addr := BitVec.ofNat 64 b.val }
          ∧ t.barrier b = { x with ovr := false }))
    ∧ ∀ a, Readable s [a] → (s.rd a).toNat % 64 = 0 →
      ((∃ x ∈ (drainCore s.me.core s).rstores, x.core = s.me.core) →
        ∃ t, exec (.tdfence a) s = .next t ∧ Waits { s with me := { s.me with links := t.me.links } } t .acks
          ∧ t.mem = (drainCore s.me.core s).mem)
      ∧ ((∀ x ∈ (drainCore s.me.core s).rstores, x.core ≠ s.me.core) →
      ∃ t, exec (.tdfence a) s = .next t ∧ t.me.pc = nextPc s.me ∧ PassedHead s t ∧ AgedRegs s t
        ∧ ScalarsAndLinks s t ∧ t.me.fflags = s.me.fflags
        ∧ (∀ p ∈ t.sbuf, p.core ≠ s.me.core)
        ∧ ∀ k, translate (drainCore s.me.core s) { s.ctx with app := false } .rd (s.rd a).toNat = .ok (.cell k) →
          t.desc = s.desc.filter (·.1 ≠ k))

/-- R241 to R245, R250: a copy whose descriptor is right and whose places are memory completes. In, every bit of an element of the
box that lies in the tensor is that of memory, every other element is zero (the zero code of LNS6), scales likewise; the granules
become full and count into the barrier. Out, every such bit of memory is that of the scratchpad, and nothing else is written. A
descriptor that fails a check traps DESC_INVALID with its DETAIL. That a copy lands at once is log entry 30, and that
the bits behind the codes of an LNS6 row stay log entry 82. -/
def Obligations.TensorCopies : Prop :=
  ∀ (i : Instr) (o : CopyOps) (s : State), Spec.tensorCopy i = some o → VecReady s → s.me.wait = none → Readable s [o.a, o.b, o.c, o.d] →
    (o.bv = true → o.sb.val < s.myCrew.decl.nsb) → (o.gr ≠ .none → s.me.gshape.gv = true) → s.mpois = [] → s.t2lost = [] →
    s.sbuf = [] → s.rstores = [] → s.myCrew.landings = [] → s.myCrew.cspBase % 16 = 0 → s.myCrew.core = s.me.core →
    ∀ dk, judge s .gen .rd false { lane := 1024, addr := s.rd o.b, n := 64, align := 64 } = .ok (.cell dk) → lostDevice s dk = none →
      let desc := (cachedDesc s dk).getD (s.homeBytes dk 64)
      let t := parseTensor desc
      let bl := s.me.blen
      let l := copyLayout t (copyBox t o.gr s.me.gshape) (copyOrigin t (s.rd o.c) (s.rd o.d)) bl
      let off := (s.rd o.a).toNat
      let ps := segPieces (copySegs t l bl)
      let w := Spec.elemBits l.fmt
      let q := l.perm.getD 0 0
      (tensorFault t l bl ≠ 0 → Handled s →
        ∃ u, exec i s = .next u ∧ Entered s u s.me.ir { cause := .descInvalid, detail := tensorFault t l bl, addr := s.rd o.b })
      ∧ (tensorFault t l bl = 0 → off % 16 = 0 → off + l.total ≤ s.myCrew.decl.spbytes → ∀ key : Word → Nat,
        (∀ p ∈ ps, judge s .gen (if o.out then (if l.fmt = .lns6 then .rw else .wr) else .rd) (!o.out) p = .ok (.cell (key p.addr))
          ∧ lostDevice s (key p.addr) = none ∧ key p.addr + p.n ≤ 2 ^ 63
          ∧ ∀ j < p.n, key (p.addr + BitVec.ofNat 64 j) = key p.addr + j) →
        let mem (f : Nat → Byte) (n : Int) : Bool := (f (key (BitVec.ofInt 64 (n / 8)))).getLsbD (n % 8).toNat
        (o.out = false →
          ∃ u, exec i s = .next u ∧ u.me.pc = nextPc s.me ∧ PassedHead s u ∧ AgedRegs s u ∧ ScalarsAndLinks s u
            ∧ u.me.fflags = s.me.fflags ∧ u.sbuf = []
            ∧ (∀ r < l.rows, ∀ x < l.box.getD q 0, ∀ n < w,
              (Spec.inTensor t l r x →
                Spec.bitAt (fun y => u.home (s.csp off + y)) (Spec.rowBit l r x + n) = mem (s.view s.me.core) (Spec.memBit t l r x + n))
              ∧ (¬ Spec.inTensor t l r x →
                Spec.bitAt (fun y => u.home (s.csp off + y)) (Spec.rowBit l r x + n) = decide (l.fmt = .lns6 ∧ n = 4)))
            ∧ (l.fmt ≠ .lns6 → ∀ r < l.rows, ∀ y < l.rowLen, l.box.getD q 0 * (w / 8) ≤ y → u.home (s.csp off + r * l.rowLen + y) = 0)
            ∧ (l.fmt = .lns6 → ∀ r < l.rows, ∀ j < Spec.blocksOf (l.box.getD 0 0) bl,
              u.home (s.csp off + l.rows * l.rowLen + r * Spec.blocksOf (l.box.getD 0 0) bl + j) =
                match Spec.scaleByteAt t l bl r j with
                | some a => s.view s.me.core (key a)
                | none => 0)
            ∧ (∀ y, (y < s.csp off ∨ s.csp off + l.total ≤ y) → u.home y = s.home y)
            ∧ (∀ g, tget false u.full g = if s.csp off / 16 ≤ g ∧ g < (s.csp off + l.total) / 16 then true else tget false s.full g)
            ∧ ∀ b : Fin 16, u.barrier b = if o.bv = true ∧ b = o.sb then Spec.arrived (l.total / 16) (s.barrier b) else s.barrier b)
        ∧ (o.out = true → (ps.Pairwise fun p p' => key p.addr + p.n ≤ key p'.addr ∨ key p'.addr + p'.n ≤ key p.addr) →
          ∃ u, exec i s = .next u ∧ u.me.pc = nextPc s.me ∧ PassedHead s u ∧ AgedRegs s u ∧ ScalarsAndLinks s u
            ∧ u.me.fflags = s.me.fflags ∧ u.full = s.full
            ∧ (∀ r < l.rows, ∀ x < l.box.getD q 0, ∀ n < w, Spec.inTensor t l r x →
              mem (State.view { u with cycle := s.cycle } s.me.core) (Spec.memBit t l r x + n) =
                Spec.bitAt (fun y => s.home (s.csp off + y)) (Spec.rowBit l r x + n))
            ∧ (l.fmt = .lns6 → ∀ r < l.rows, ∀ j < Spec.blocksOf (l.box.getD 0 0) bl, ∀ a, Spec.scaleByteAt t l bl r j = some a →
              State.view { u with cycle := s.cycle } s.me.core (key a) =
                s.home (s.csp off + l.rows * l.rowLen + r * Spec.blocksOf (l.box.getD 0 0) bl + j))
            ∧ ∀ y, (∀ p ∈ ps, y < key p.addr ∨ key p.addr + p.n ≤ y) → u.home y = s.home y))

/-- R254 to R257, R301, R447: a collective of an aligned range inside the allocation is captured at issue, once the core's stores are
performed at their homes, and joins the group's sequence; where a store of the core awaits another device it waits for it, and a failed
one of its own traps LINK; for a group that the grid does not have it answers status 1 at once, and for a broken group 3. `colwait` completes where
the strand has no collective outstanding, and else waits. The hold in a guard band and the status of a broken group at issue are
log entry 43. -/
def Obligations.CollectiveResult : Prop :=
  ∀ (s : State), VecReady s →
    (∀ (i : Instr) (o : ColOps), Spec.collective i = some o → Readable s [o.a, o.c] → (o.bv = true → o.sb.val < s.myCrew.decl.nsb) →
      let off := (s.rd o.a).toNat
      let n := 16 * o.len
      let g := (s.rd o.c).toNat
      let e := tget {} s.groups (groupKey s.myGrid.part g)
      let known := g < 256 ∧ e.valid = true ∧ e.grid = s.myCrew.grid
      off % 16 = 0 → off + n ≤ s.myCrew.decl.spbytes → s.poisoned (s.csp off) n = false → (s.part s.myGrid.part).guard = false →
      (¬ known → ∃ t, exec i s = .next t ∧ t.me.pc = nextPc s.me ∧ PassedHead s t ∧ OnlyMe s t ∧ OnlyScalars s t
        ∧ t.rd o.d = (if o.d = 0 then 0 else 1) ∧ OtherRegs s t o.d (1 + s.me.ir.sc) ∧ t.me.fflags = s.me.fflags)
      ∧ (known → e.broken = true → ∃ t, exec i s = .next t ∧ t.me.pc = nextPc s.me ∧ PassedHead s t ∧ OnlyMe s t ∧ OnlyScalars s t
        ∧ t.rd o.d = (if o.d = 0 then 0 else 3) ∧ OtherRegs s t o.d (1 + s.me.ir.sc) ∧ t.me.fflags = s.me.fflags)
      ∧ (∀ l, known → e.broken = false → s.linkFail.find? (·.1 = s.cur) = some l → Handled s →
        ∃ t, exec i s = .next t ∧ Entered s t s.me.ir { cause := .link, detail := l.2.1, addr := l.2.2 })
      ∧ (known → e.broken = false → s.linkFail.find? (·.1 = s.cur) = none → (∃ x ∈ (drainCore s.me.core s).rstores, x.core = s.me.core) →
        ∃ t, exec i s = .next t ∧ Waits { s with me := { s.me with links := t.me.links } } t .acks ∧ t.colls = s.colls)
      ∧ (known → e.broken = false → s.linkFail.find? (·.1 = s.cur) = none → (∀ x ∈ (drainCore s.me.core s).rstores, x.core ≠ s.me.core) →
        ∃ t x, exec i s = .next t ∧ t.me.pc = nextPc s.me ∧ PassedHead s t ∧ AgedRegs s t
        ∧ ScalarsAndLinks s t ∧ t.me.fflags = s.me.fflags ∧ t.colls = s.colls ++ [x] ∧ x.sid = s.cur ∧ x.d = o.d ∧ x.off = off ∧ x.len = n ∧ x.bcast = o.bcast ∧ x.k = e.count
        ∧ x.armed = false ∧ x.part = s.myGrid.part ∧ x.group = g ∧ x.sb = (if o.bv then some o.sb.val else none)
        ∧ (tget none x.parts e.rank).map (·.2) = some ((drainCore s.me.core s).homeBytes (s.csp off) n)
        ∧ tget {} t.groups (groupKey s.myGrid.part g) = { e with count := e.count + 1 } ∧ ∀ p ∈ t.sbuf, p.core ≠ s.me.core))
    ∧ ((∀ x ∈ s.colls, x.sid ≠ s.cur) → ∃ t, exec .colwait s = .next t ∧ t.me.pc = nextPc s.me ∧ PassedHead s t ∧ AgedRegs s t
      ∧ OnlyMe s t ∧ OnlyScalars s t ∧ t.me.fflags = s.me.fflags)
    ∧ ∀ x ∈ s.colls, x.sid = s.cur → ∃ t, exec .colwait s = .next t ∧ Waits s t .colwait ∧ t.mem = s.mem

/-- R329 to R335, R338: the heap instructions on a bound heap with no pop waiting: `hpop` answers the end, the task worth most
with its gain, or under NB that there is none, and else waits; `gadd` and `gset` answer the old gain and store the new one in its
range; `hgrow` answers the first new index; `hdone` ends a run; `hres` reads an item. Indexes out of bounds trap HEAP_BOUNDS. The
order of the writes of hpop is log entry 39. A form with release waits while a store of its core awaits another device. -/
def Obligations.HeapResult : Prop :=
  ∀ (h : Fin 4) (s : State), s.me.onSteward = false → s.me.wait = none → h.val < s.myGrid.heaps.length →
    let slot := s.myGrid.heaps.getD h.val 0
    let x := s.heap slot
    x.ready = true → x.waiting = [] → twf 0 x.gain = true →
    let acked (rel : Bool) : Prop := rel = true → ∀ x ∈ (drainCore s.me.core s).rstores, x.core ≠ s.me.core
    let fin : Word := BitVec.ofNat 64 (2 ^ 64 - 1)
    let passes (i : Instr) (d : SReg) (v : Word) (y : Heap) : Prop := ∃ t, exec i s = .next t ∧ t.me.pc = nextPc s.me ∧ PassedHead s t
      ∧ t.rd d = (if d = 0 then 0 else v) ∧ OtherRegs s t d (1 + s.me.ir.sc)
      ∧ ScalarsAndLinks s t ∧ t.me.fflags = s.me.fflags ∧ t.heap slot = y
      ∧ (∀ n, n ≠ slot → t.heap n = s.heap n)
    let pops (nb : Bool) (d c : SReg) (v g : Word) (y : Heap) : Prop := ∃ t, exec (.hpop nb h d c) s = .next t ∧ t.me.pc = nextPc s.me
      ∧ PassedHead s t ∧ t.rd c = (if c = 0 then 0 else g) ∧ (d ≠ c → t.rd d = if d = 0 then 0 else v) ∧ OnlyScalars s t ∧ t.me.fflags = s.me.fflags
      ∧ (∀ r, r ≠ d → r ≠ c → t.rd r = State.rd { s with me := s.me.age (1 + s.me.ir.sc) } r) ∧ t.heap slot = y
      ∧ (∀ n, n ≠ slot → t.heap n = s.heap n) ∧ t.mem = s.mem
    (∀ (nb : Bool) (d c : SReg),
      let spent := x.resid < x.tol ∨ (x.running = 0 ∧ x.resid = 0)
      (x.done = true → pops nb d c fin 0 x)
      ∧ (x.done = false → spent → pops nb d c fin 0 { x with done := true })
      ∧ (x.done = false → ¬ spent → ∀ t, Spec.takes x t → pops nb d c (BitVec.ofNat 64 t) (BitVec.ofNat 64 (tget 0 x.gain t))
        { x with
          gain := tset 0 x.gain t 0, runs := tset none x.runs t (some (tget 0 x.gain t, s.me.crew)), running := x.running + 1
          contrib := x.contrib.filter (· ≠ t) })
      ∧ (x.done = false → ¬ spent → (∀ t, ¬ Spec.takes x t) →
        (nb = true → pops nb d c (fin - 1) 0 x)
        ∧ (nb = false → ∃ t, exec (.hpop nb h d c) s = .next t ∧ Waits s t (.hpop h d c)
          ∧ t.heap slot = { x with waiting := [s.cur] } ∧ t.mem = s.mem)))
    ∧ (∀ (i : Instr) (rel : Bool) (d a b : SReg) (adds : Bool), Spec.revision i = some (rel, h, d, a, b, adds) → Readable s [a, b] →
      (s.rd a).toNat < x.live → acked rel →
      let t := (s.rd a).toNat
      let old := tget 0 x.gain t
      let y := Spec.stored x t ((if adds then (old : Int) else 0) + (s.rd b).toInt)
      passes i d (BitVec.ofNat 64 old) (if rel then { y with contrib := addOnce x.contrib t } else y))
    ∧ (∀ d a, Readable s [a] →
      (x.live + (s.rd a).toNat ≤ x.cap → passes (.hgrow h d a) d (BitVec.ofNat 64 x.live) { x with live := x.live + (s.rd a).toNat })
      ∧ (x.cap < x.live + (s.rd a).toNat → passes (.hgrow h d a) d fin x))
    ∧ (∀ (rel : Bool) (a : SReg), Readable s [a] → (s.rd a).toNat < x.live → acked rel →
      let t := (s.rd a).toNat
      (∀ g o, tget none x.runs t = some (g, o) → passes (.hdone rel h a) 0 0
        { x with
          resid := x.resid - g, runs := tset none x.runs t none, running := x.running - 1
          contrib := if rel then addOnce x.contrib t else x.contrib })
      ∧ (tget none x.runs t = none → s.sbuf = [] → Handled s →
        ∃ u, exec (.hdone rel h a) s = .next u ∧ Takes s u { cause := .heapBounds, detail := 2, addr := s.rd a }))
    ∧ (∀ (i : Instr) (a : SReg), ((∃ rel d b adds, Spec.revision i = some (rel, h, d, a, b, adds) ∧ Readable s [a, b])
        ∨ ∃ rel, i = .hdone rel h a ∧ Readable s [a]) → x.live ≤ (s.rd a).toNat → s.sbuf = [] →
      (∀ x ∈ s.rstores, x.core ≠ s.me.core) → Handled s →
      ∃ u, exec i s = .next u ∧ Takes s u { cause := .heapBounds, detail := 1, addr := s.rd a })
    ∧ (∀ (i : Instr) (a : SReg), ((∃ d b adds, Spec.revision i = some (true, h, d, a, b, adds) ∧ Readable s [a, b])
        ∨ i = .hdone true h a ∧ Readable s [a]) → (∃ x ∈ (drainCore s.me.core s).rstores, x.core = s.me.core) →
      ∃ u, exec i s = .next u ∧ Waits { s with me := { s.me with links := u.me.links } } u .acks ∧ u.heap slot = x)
    ∧ ∀ (sel : HSel) (d : SReg), passes (.hres sel h d) d (BitVec.ofNat 64 (match sel with
      | .rlo => x.resid
      | .rhi => x.resid / 2 ^ 64
      | .live => x.live
      | .run => x.running
      | .flags => 4 * x.gsat.toNat + 2 * x.gneg.toNat + x.done.toNat
      | .tol => x.tol
      | .cap => x.cap)) x

/-! ### Events -/

/-- R93, R133, R143, R202, R213, R214, R225, R236, R264, R266, R277, R296, R369: what the events of a strand do. A line that is fetched
is in use, or traps as malformed or as having no such head; a trap that is due is entered. Of the instructions ready at a unit the
first in the order issues a group of 32 lanes, as the instruction at once with VL ending there, and the others' waiting counts towards
promotion; a queued memory instruction translates all its pages first, and a load's group is a request that its reply commits, or that is
given up after 2,048 cycles; a full/empty access, a multiply and a wait on flags act when their condition holds. A wait ends with what it
waited for, or with the trap of its expiry. A queued instruction finds the front end of its own place, and the front end of its strand goes
on undisturbed. The operands of events are the model's (log entry 4), as are the order in which queued work is waited for (22) and the
ends of waits (36). -/
def Obligations.StrandEvents : Prop :=
  ∀ s : State,
    (s.input = some .lineFetch → s.me.run = .running → s.me.wait = none →
      let va := s.me.pc.toNat / 64 * 64
      ∀ k, translate s s.ctx .fetch va = .ok (.cell k) → lostDevice s k = none → s.poisonedFor s.me.core k 64 = false →
      let halfs := halfsOf (s.viewBytes s.me.core k 64)
      (lineFault halfs = none → 1 ≤ bitsOf s.me.pc 5 0 → bitsOf s.me.pc 5 0 ≤ headCount halfs →
        ∃ t, exec .lineFetch s = .next t ∧ t.me = { s.me with line := some { addr := word va, halfs := halfs } } ∧ t.mem = s.mem
          ∧ t.cycle = s.cycle)
      ∧ (lineFault halfs = none → bitsOf s.me.pc 5 0 = 0 ∨ headCount halfs < bitsOf s.me.pc 5 0 → Handled s →
        ∃ t, exec .lineFetch s = .next t ∧ Entered s t s.me.via { cause := .badTarget, detail := headCount halfs, addr := word va })
      ∧ ∀ d, lineFault halfs = some d → Handled s →
        ∃ t, exec .lineFetch s = .next t ∧ Entered s t s.me.via { cause := .lineMalformed, detail := d, addr := word va })
    ∧ (∀ code detail addr lanes, s.input = some (.trapEntry code detail addr lanes) →
      s.me.due = some (.ofCode code, detail, addr, lanes) → s.me.run = .running → Handled s →
      ∃ t, exec .trapEntry s = .next t ∧ t.me.due = none
        ∧ Entered s t s.me.ir { cause := .ofCode code, detail := detail, addr := addr, lanes := lanes })
    ∧ (∀ n c o v, s.input = some (.vectorGroupIssue n) →
      let rows := (s.classOf (n / 4)).laneRows
      let cs := candidates s (n / 4) (n / 2 % 2 = 1) (n % 2 = 1)
      0 < rows → c ∈ cs → (∀ d ∈ cs, d ≠ c → Spec.Sooner c d) → c.k = 0 → Spec.OldestEntry s c.sid o v →
      (∀ x, n % 2 = 0 → Spec.vec o.instr v = some x → Readable v x.reads → v.me.badTy x.ty x.accepts = false →
        x.immOk (v.me.elemTy x.ty) = true → v.me.elemTy x.ty ≠ .lns6 → Held v (v.me.elemTy x.ty) (x.dst :: x.names) →
        let lanes := v.me.lanes x.mask
        let g := lanes.headD 0 / 32
        (rows = 1 ∨ ((∀ e ∈ s.strands, e.1 ≠ c.sid → e.2.viq = []) ∧ (s.strand c.sid).viq = [o] ∧ lanes.all (· / 32 = g) = true)) →
        ∃ t w, exec o.instr (Spec.atOnce { v with me := { v.me with vl := min v.me.vl (32 * (g + 1)) } }) = .next w
          ∧ exec .vectorGroupIssue s = .next t ∧ (t.strand c.sid).vregs = w.me.vregs ∧ (t.strand c.sid).masks = w.me.masks
          ∧ (lanes.all (· / 32 = g) = true → Spec.EntryDone s t c.sid w.me.fflags)
          ∧ (lanes.all (· / 32 = g) = false → (t.strand c.sid).pc = (s.strand c.sid).pc ∧ (t.strand c.sid).fflags = (s.strand c.sid).fflags
            ∧ ∃ y, (t.strand c.sid).viq.head? = some y ∧ y.instr = o.instr ∧ y.front.vstart = 32 * (g + 1)
              ∧ y.front.fflags = w.me.fflags ∧ y.started = true ∧ y.ready = none)
          ∧ t.mem = s.mem ∧ (∀ i, i ≠ c.sid → t.strand i = { s.strand i with viq := (t.strand i).viq })
          ∧ ∀ d ∈ cs, d.sid ≠ c.sid → ∀ p, (s.strand d.sid).viq[d.k]? = some p → pipelineKind p.instr = 0 →
            ((t.strand d.sid).viq[d.k]?).map (·.ready) = some (some (p.ready.getD s.cycle)))
      ∧ (∀ x, n % 2 = 1 → pipelineKind o.instr ∈ [1, 2] → Spec.vmem o.instr v = some x → Spec.noScale o.instr = true → Readable v x.reads →
        v.me.badTy x.ty anyTy = false →
        let e := v.me.elemTy x.ty
        e ≠ .lns6 → Held v e [x.dst] → (∀ r ∈ Spec.regList x.dst x.fields e, r < 64 ∧ r < v.me.vheld) → (∀ r ∈ x.names, r.val < v.me.vheld) →
        (o.placed = none → rows = 1 → ∀ pw : Machine.Placed,
          Spec.Placed v x.spc (if x.store then .wr else .rd) x.plainOk (x.pieces e) pw →
          ∃ t, exec .vectorGroupIssue s = .next t ∧ (t.strand c.sid).viq.head?.map (·.placed) = some (some pw)
            ∧ (t.strand c.sid).vregs = (s.strand c.sid).vregs ∧ t.mem = s.mem)
        ∧ (o.placed.isSome = true → x.store = false → (rows = 1 ∨ ∀ d ∈ cs, d = c) →
          ∃ t, exec .vectorGroupIssue s = .next t ∧ (t.strand c.sid).viq.head? =
              some { o with ready := none, promoted := c.promoted, wait := some .loadReply, waitFrom := s.cycle, started := true }
            ∧ (t.strand c.sid).vregs = (s.strand c.sid).vregs ∧ t.mem = s.mem)))
    ∧ (∀ sid, s.input = some (.promotion sid) →
      ∃ t, exec .promotion s = .next t ∧ t.strand sid = { s.strand sid with viq := (s.strand sid).viq.map fun o =>
          { o with promoted := o.promoted || o.ready.any fun r => decide (r + 256 ≤ s.cycle) } }
        ∧ ∀ i, i ≠ sid → t.strand i = s.strand i)
    ∧ (∀ sid o v x all, s.input = some (.loadReply sid) → Spec.OldestEntry s sid o v → o.wait = some .loadReply → o.placed = some all →
      pipelineKind o.instr = 2 → Spec.vmem o.instr v = some x → Spec.noScale o.instr = true → Readable v x.reads → v.me.badTy x.ty anyTy = false →
      let e := v.me.elemTy x.ty
      let lanes := v.me.lanes x.mask
      let g := lanes.headD 0 / 32
      let group := lanes.filter (· / 32 = g)
      let pw : Machine.Placed := all.filter fun p => p.1.lane ∈ lanes
      e ≠ .lns6 → Held v e [x.dst] → (∀ r ∈ Spec.regList x.dst x.fields e, r < 64 ∧ r < v.me.vheld) → (∀ r ∈ x.names, r.val < v.me.vheld) →
      all.map (·.1) = x.pieces e →
      ∀ w, decodeInto v.ctx (pw.flatMap fun p => p.2.sectors p.1.n) v = .ok w → dataPoison w pw = none →
      ∃ t, exec .loadReply s = .next t ∧ t.mem = s.mem ∧ OtherLanes (switchTo sid s) (switchTo sid t) (Spec.regList x.dst x.fields e) group
        ∧ (∀ p ∈ pw, p.1.lane ∈ group → (t.strand sid).boxes e p.1.tag p.1.lane = leVal (p.2.bytes w p.1.n) % 2 ^ tyBits e)
        ∧ (lanes.all (· / 32 = g) = true → Spec.EntryDone s t sid v.me.fflags)
        ∧ (lanes.all (· / 32 = g) = false → (t.strand sid).pc = (s.strand sid).pc
          ∧ ∃ y, (t.strand sid).viq.head? = some y ∧ y.instr = o.instr ∧ y.front.vstart = 32 * (g + 1) ∧ y.wait = none))
    ∧ (∀ sid o r, s.input = some (.loadReplyAbandon sid) → (s.strand sid).viq = o :: r → o.wait = some .loadReply →
      o.waitFrom + 2048 ≤ s.cycle →
      ∃ t, exec .loadReplyAbandon s = .next t ∧ t.strand sid = { s.strand sid with viq := { o with wait := none } :: r }
        ∧ ∀ i, i ≠ sid → t.strand i = s.strand i)
    ∧ (∀ sid o v gs ls lo x, s.input = some (.feAccessPerform sid) → Spec.OldestEntry s sid o v → Spec.fullEmpty o.instr = some x →
      o.wait = some (.fe gs x.load ls lo) → feNeeds (s.strand sid) = some (gs, x.load) → Readable v [x.base] →
      v.me.badTy x.ty notLns = false → s.mpois = [] → s.t2lost = [] →
      let e := v.me.elemTy x.ty
      let lanes := v.me.lanes x.mask
      Held v e [x.dst] → lanes ≠ [] → ∀ pw : Machine.Placed,
      Spec.Placed v .sp (if x.load then .rd else .wr) false
        (Spec.pieceList x.dst 1 lanes (fun n l _ => Spec.effective v x.base x.off + BitVec.ofNat 64 (l * n)) e) pw →
      gs = placedGranules pw → (∀ g ∈ gs, tget false s.full g = x.load) → feBehind s sid gs x.load = false →
      ∃ t, exec .feAccessPerform s = .next t ∧ Spec.EntryDone s t sid v.me.fflags
        ∧ (∀ g, tget false t.full g = if g ∈ gs then (if x.load then (if x.take then false else tget false s.full g) else true)
          else tget false s.full g)
        ∧ sid ∉ (t.crew v.me.crew).feQueue
        ∧ (x.load = true → t.mem = s.mem ∧ OtherLanes (switchTo sid s) (switchTo sid t) (regsOf e x.dst) lanes
          ∧ ∀ p ∈ pw, ∀ k, p.2 = .cell k → (t.strand sid).boxes e x.dst p.1.lane = leVal (s.homeBytes k p.1.n) % 2 ^ tyBits e)
        ∧ (x.load = false → (t.strand sid).vregs = (s.strand sid).vregs
          ∧ ∀ k, t.home k = (Spec.lastByte (Spec.writesOf v e pw) k).getD (s.home k)))
    ∧ (∀ sid o op ordered v, s.input = some (.mmaComplete sid) → Spec.OldestEntry s sid o v → o.wait = some .mma →
      Spec.multiply o.instr = some (op, ordered) → Spec.multiplies v op →
      ∃ t w, exec o.instr (Spec.atOnce v) = .next w ∧ exec .mmaComplete s = .next t ∧ (t.strand sid).zimg = w.me.zimg
        ∧ (t.strand sid).zdim = w.me.zdim ∧ t.mem = s.mem ∧ Spec.EntryDone s t sid w.me.fflags)
    ∧ (∀ sid, s.input = some (.crewWatchdogExpire sid) →
      let u := switchTo sid s
      (u.me.run = .running → u.myGrid.lrec.watchdog ≤ u.me.waitCount + (s.cycle - u.me.waitFrom) → Handled u →
        ∀ w x, u.me.wait = some w → Spec.expired w = some x →
        ∃ t, exec .crewWatchdogExpire s = .next t ∧ Entered u (switchTo sid t) u.me.ir x ∧ (switchTo sid t).me.wait = none)
      ∧ ∀ o v i pend dl, Spec.OldestEntry s sid o v → o.wait = some (.vwait i pend dl) → Handled v →
        u.myGrid.lrec.watchdog ≤ o.waitCount + (s.cycle - o.waitFrom) →
        ∃ t a, exec .crewWatchdogExpire s = .next t ∧ (switchTo sid t).me.wait = none ∧ (switchTo sid t).me.viq = []
          ∧ Entered v (switchTo sid t) v.me.ir { cause := .feTimeout, addr := a, lanes := pend &&& ~~~v.me.deadmask })
    ∧ (∀ sid d, s.input = some (.idleDeadline sid) → (s.strand sid).wait = some (.idle (some d)) → d ≤ s.cycle →
      ∃ t, exec .idleDeadline s = .next t ∧ (t.strand sid).wait = none ∧ (t.strand sid).pc = nextPc (s.strand sid))
    ∧ (∀ sid o v cc ty sp tmo d a b c m pend dl, s.input = some (.vwaitLaneMet sid) → Spec.OldestEntry s sid o v →
      let i := Instr.vwait cc ty sp tmo d a b c m
      o.instr = i → o.wait = some (.vwait i pend dl) → ty ∈ [Ty.i32, .u32, .i64, .u64] → s.mpois = [] → s.t2lost = [] →
      let x : Spec.IdxSpec := ⟨ty, Spec.spaceOf sp, c, a, b, none, m⟩
      let left := (List.range v.me.vlmax).filter fun l => pend.getLsbD l && !v.me.deadmask.getLsbD l
      (∀ l ∈ left, x.at_ v l ≠ .fault ∧ x.at_ v l ≠ .skip) →
      let ps := left.filterMap fun l => match x.at_ v l with
        | .addr y => some ({ lane := l, tag := c.val, addr := y, n := elemBytes ty, align := elemBytes ty } : Piece)
        | _ => none
      ∀ pw : Machine.Placed, Spec.Placed v x.spc .rd false ps pw →
      let met (p : Piece × Where) : Bool :=
        Spec.waitMeets cc (Spec.toNum ty (leVal (p.2.bytes (dropLines v.me.core v) p.1.n))) (Spec.toNum ty (v.me.elem ty c p.1.lane))
      (pw.all met = true → ∃ t, exec .vwaitLaneMet s = .next t ∧ Spec.EntryDone s t sid v.me.fflags ∧ (t.strand sid).mask d = 0)
      ∧ (pw.all met = false → ∃ t q, exec .vwaitLaneMet s = .next t ∧ (t.strand sid).pc = (s.strand sid).pc
        ∧ (t.strand sid).viq.head?.bind (·.wait) = some (.vwait i q dl)
        ∧ ∀ l < 1024, q.getLsbD l = pw.any fun p => p.1.lane = l && !met p))
    ∧ (∀ sid o v cc ty sp tmo d a b c m pend dl, s.input = some (.vwaitTimeout sid) → Spec.OldestEntry s sid o v →
      o.wait = some (.vwait (.vwait cc ty sp tmo d a b c m) pend (some dl)) → dl ≤ s.cycle →
      ∃ t, exec .vwaitTimeout s = .next t ∧ Spec.EntryDone s t sid v.me.fflags
        ∧ (t.strand sid).mask d = pend &&& ~~~(s.strand sid).deadmask)
    ∧ ∀ core j p, s.input = some (.storePerformed core j) → s.sbuf[j]? = some p → p.core = core →
      (∀ q ∈ s.sbuf.take j, q.core = core → p.key + p.bytes.length ≤ q.key ∨ q.key + q.bytes.length ≤ p.key) →
      (∀ r ∈ s.rstores, p.key + p.bytes.length ≤ r.key ∨ r.key + r.bytes.length ≤ p.key) →
      lostDevice s p.key = none → lostTier2 s p.key = false →
      ∃ t, exec .storePerformed s = .next t ∧ t.sbuf = s.sbuf.eraseIdx j
        ∧ ∀ x, t.home x = if p.key ≤ x ∧ x < p.key + p.bytes.length then p.bytes.getD (x - p.key) 0 else s.home x

/-- R142, R149, R151, R152, R153, R253, R255, R256, R273, R327, R331, R342, R359 to R362: what the events of a crew and of its
grid do. A claim is granted from the free rows; released rows become free together; a deadlock withdraws every claim and traps
each claimant; a drained strand leaves, and the last one completes the crew; the work query that has reached the Factor first is served,
by core and slot among equals, and its reply fills an empty granule; a copied granule lands; an engine release frees a phase and empties what it read; a collective is armed and completes; a
waiting pop is answered; heaps are bound, and written back where they were bound; a grid whose work is over completes, with its record and its counter.
The operands of events are the model's (log entry 4), as are the landing of copies (30), engine releases (32, 81), returning
rows (38), waiting pops (39) and dropped records (40). -/
def Obligations.CrewEvents : Prop :=
  ∀ s : State,
    (∀ cid q rest n, s.input = some (.regclmGrant cid) → (s.crew cid).claims = q :: rest → q.need ≤ (s.crew cid).freeRows.length →
      (s.strand q.sid).wait = some (.regclm n) →
      ∃ t, exec .regclmGrant s = .next t ∧ (t.crew cid).claims = rest
        ∧ (t.crew cid).freeRows.length = (s.crew cid).freeRows.length - q.need ∧ (t.strand q.sid).wait = none
        ∧ (t.strand q.sid).vheld = (s.strand q.sid).vheld + q.n ∧ (t.strand q.sid).pc = nextPc (s.strand q.sid))
    ∧ (∀ cid, s.input = some (.rowsFreed cid) → (s.crew cid).claims = [] → (∀ e ∈ (s.crew cid).returning, (s.strand e.1).viq = []) →
      ∃ t, exec .rowsFreed s = .next t ∧ (t.crew cid).returning = []
        ∧ (t.crew cid).freeRows = (s.crew cid).freeRows ++ (s.crew cid).returning.flatMap (·.2))
    ∧ (∀ cid q rest, s.input = some (.regDeadlockDeclare cid) →
      let c := s.crew cid
      c.claims = q :: rest → c.state = .resident → c.returning = [] → c.freeRows.length < q.need → (c.claims.map (·.sid)).Nodup →
      (∀ i ∈ c.sids, (s.strand i).vheld = 0 ∨ (s.strand i).run = .drained ∨ ∃ p ∈ c.claims, p.sid = i) →
      ∃ t, exec .regDeadlockDeclare s = .next t ∧ (t.crew cid).claims = []
        ∧ ∀ p ∈ c.claims, (t.strand p.sid).wait = none ∧ (t.strand p.sid).due = some (.regDeadlock, c.claims.length,
          BitVec.ofNat 64 (p.need * 2 ^ 32 + c.decl.quota * 2 ^ 16 + c.freeRows.length), 0))
    ∧ (∀ sid n a, s.input = some (.regDeadlockTrap sid) →
      let u := switchTo sid s
      u.me.due = some (.regDeadlock, n, a, 0) → u.me.run = .running → Handled u →
      ∃ t, exec .regDeadlockTrap s = .next t ∧ Entered u (switchTo sid t) u.me.ir { cause := .regDeadlock, detail := n, addr := a })
    ∧ (∀ sid, s.input = some (.strandDrained sid) →
      let m := s.strand sid
      let c := s.crew m.crew
      m.run = .halted → m.viq = [] → (∀ l ∈ c.landings, l.sid ≠ sid) → (∀ k ∈ s.colls, k.sid ≠ sid) → c.claims = [] → c.state = .resident →
      (∀ i ∈ c.sids, i ≠ sid → (s.strand i).run ≠ .drained →
        ∃ t, exec .strandDrained s = .next t ∧ (t.strand sid).run = .drained ∧ (t.strand sid).vheld = 0)
      ∧ ((∀ i ∈ c.sids, i ≠ sid → (s.strand i).run = .drained) → (∀ f ∈ s.linkFail, f.1 ∉ c.sids) →
        ∃ t, exec .strandDrained s = .next t ∧ (t.crew m.crew).state = .ended ∧ (t.crew m.crew).status = 0
          ∧ (t.grid c.grid).completed = (s.grid c.grid).completed + 1)
      ∧ ∀ i d va, (∀ j ∈ c.sids, j ≠ sid → (s.strand j).run = .drained) → s.linkFail.find? (fun e => e.1 ∈ c.sids) = some (i, d, va) →
        ∃ t, exec .strandDrained s = .next t ∧ (t.crew m.crew).state = .ended ∧ (t.crew m.crew).status = 1
          ∧ (t.crew m.crew).cause1 = 0x1A ∧ (t.crew m.crew).taddr = va)
    ∧ (∀ gid at_ sid l r off, s.input = some (.wqryService gid) →
      let g := s.grid gid
      let m := s.strand sid
      let cid := m.crew
      let n := g.lrec.wsx * g.lrec.wsy
      (at_, sid) ∈ g.asks → at_ ≤ s.cycle →
      (∀ y ∈ g.asks, y ≠ (at_, sid) → s.cycle < y.1 ∨ at_ < y.1
        ∨ (at_ = y.1 ∧ (m.core < (s.strand y.2).core ∨ (m.core = (s.strand y.2).core ∧ m.slot < (s.strand y.2).slot)))) →
      (s.crew cid).queries = l ++ [⟨sid, off, none⟩] ++ r → (∀ q ∈ l, q.sid = sid → q.reply ≠ none) →
      ∃ t, exec .wqryService s = .next t ∧ (t.grid gid).asks = g.asks.erase (at_, sid) ∧ (t.grid gid).item = (if g.item < n then g.item + 1 else g.item)
        ∧ (t.crew cid).queries = l ++ [⟨sid, off, some (if g.item < n then
            leBytes 8 g.item ++ leBytes 4 (g.item % g.lrec.wsx) ++ leBytes 4 (g.item / g.lrec.wsx) else List.replicate 16 0xFF)⟩] ++ r)
    ∧ (∀ sid off b, s.input = some (.wqryReply sid) →
      let cid := (s.strand sid).crew
      let c := s.crew cid
      let k := cspKey (clusterOf c.core) (c.cspBase + off)
      c.queries.find? (·.sid = sid) = some ⟨sid, off, some b⟩ → b.length = 16 → c.state = .resident → tget false s.full (k / 16) = false →
      s.t2lost = [] →
      ∃ t, exec .wqryReply s = .next t ∧ (t.crew cid).queries = c.queries.erase ⟨sid, off, some b⟩ ∧ tget false t.full (k / 16) = true
        ∧ (∀ j < 16, t.home (k + j) = b.getD j 0) ∧ ∀ j, (j < k ∨ k + 16 ≤ j) → t.home j = s.home j)
    ∧ (∀ cid x rest, s.input = some (.tcopyGranuleLand cid) →
      let c := s.crew cid
      let k := cspKey (clusterOf c.core) (c.cspBase + x.off)
      c.landings = x :: rest → x.bytes.length = 16 → x.off % 16 = 0 → c.cspBase % 16 = 0 → s.t2lost = [] →
      ∃ t, exec .tcopyGranuleLand s = .next t ∧ (t.crew cid).landings = rest ∧ tget false t.full (k / 16) = true
        ∧ (∀ j < 16, t.home (k + j) = x.bytes.getD j 0) ∧ (∀ j, (j < k ∨ k + 16 ≤ j) → t.home j = s.home j)
        ∧ (x.poison = true → k / 64 ∈ t.mpois)
        ∧ ∀ b, x.sb = some b → tget {} (t.crew cid).barriers b = Spec.arrived 1 (tget {} c.barriers b))
    ∧ (∀ sid b gs, s.input = some (.tldEEngineRelease sid) →
      let cid := (s.strand sid).crew
      let c := s.crew cid
      c.releases.find? (·.1 = sid) = some (sid, b, gs) →
      let x := tget {} c.barriers b
      let y := { x with read := x.read ++ gs }
      let frees := x.rdone ≠ x.rcnt ∧ x.rdone + 1 = x.rcnt ∧ x.rph ≠ x.ph
      ∃ t, exec .tldEEngineRelease s = .next t ∧ (t.crew cid).releases = c.releases.erase (sid, b, gs)
        ∧ tget {} (t.crew cid).barriers b = Spec.released y
        ∧ ∀ g, tget false t.full g = if frees ∧ g ∈ y.read then false else tget false s.full g)
    ∧ (∀ p g parts x, s.input = some (.collectiveArm p g parts) →
      let e := tget {} s.groups (groupKey p g)
      s.colls.find? (fun y => y.part = p && y.group = g && !y.armed) = some x → e.valid = true → e.broken = false →
      (parts.map (·.1)).Nodup → (tget none x.parts e.rank).isSome = true → (∀ r < e.size, r = e.rank ∨ ∃ y ∈ parts, y.1 = r) →
      ∃ t y, exec .collectiveArm s = .next t ∧ t.colls = s.colls.map (fun z => if z = x then y else z) ∧ y = { x with parts := y.parts, armed := true }
        ∧ tget none y.parts e.rank = tget none x.parts e.rank ∧ ∀ z ∈ parts, z.1 ≠ e.rank → tget none y.parts z.1 = some z.2)
    ∧ (∀ p g x, s.input = some (.collectiveComplete p g) →
      let e := tget {} s.groups (groupKey p g)
      let c := s.crew (s.strand x.sid).crew
      let k := cspKey (clusterOf c.core) (c.cspBase + x.off)
      s.colls.find? (fun y => y.part = p && y.group = g && (y.armed || e.broken)) = some x → c.state = .resident → s.t2lost = [] →
      let ends (status : Word) (P : State → Prop) : Prop := ∃ t, exec .collectiveComplete s = .next t ∧ t.colls = s.colls.erase x
        ∧ (x.d.val ≠ 0 → tget 0 (t.strand x.sid).regs x.d.val = status) ∧ P t
      (e.broken = true → ends 3 fun t => t.mem = s.mem)
      ∧ ∀ kw (bs : List (List Byte)), e.broken = false → e.valid = true → 0 < e.size → bs.length = e.size → x.len % 16 = 0 →
        (∀ r < e.size, tget none x.parts r = some (kw, bs.getD r []) ∧ (bs.getD r []).length = x.len) →
        (x.bcast = true → x.root < e.size → ends 0 fun t => ∀ j < x.len, t.home (k + j) = (bs.getD x.root []).getD j 0)
        ∧ (x.bcast = false →
          let w := Spec.awBytes (colTy x.ty)
          let at_ (r i : Nat) : Nat := leVal (((bs.getD r []).drop (i * w)).take w)
          ends 0 fun t => ∀ i < x.len / w, leVal (t.homeBytes (k + i * w) w)
            = (List.range (e.size - 1)).foldl (fun a r => (Spec.fold x.op (colTy x.ty) a (at_ (r + 1) i)).bits) (at_ 0 i)))
    ∧ (∀ slot sid h d c t, s.input = some (.hpopWake slot) →
      let x := s.heap slot
      x.waiting = [sid] → (s.strand sid).wait = some (.hpop h d c) → twf 0 x.gain = true → x.done = false → x.tol ≤ x.resid →
      ¬ (x.running = 0 ∧ x.resid = 0) → Spec.takes x t →
      ∃ u, exec .hpopWake s = .next u ∧ (u.strand sid).wait = none ∧ (u.strand sid).pc = nextPc (s.strand sid)
        ∧ u.heap slot = { x with
          gain := tset 0 x.gain t 0, runs := tset none x.runs t (some (tget 0 x.gain t, (s.strand sid).crew)), running := x.running + 1
          contrib := x.contrib.filter (· ≠ t), waiting := [] }
        ∧ (c.val ≠ 0 → tget 0 (u.strand sid).regs c.val = BitVec.ofNat 64 (tget 0 x.gain t))
        ∧ (d.val ≠ 0 → d ≠ c → tget 0 (u.strand sid).regs d.val = BitVec.ofNat 64 t))
    ∧ (∀ gid b, s.input = some (.heapBind gid) →
      let g := s.grid gid
      let n := g.lrec.nheap
      g.state = .ready → g.reason = 0 → g.heaps = [] → n ≠ 0 → (∀ h ∈ s.freeze.heaps, h.grid ≠ some gid) →
      heapTable s g.ctx g.lrec = .bytes b → n ≤ (freeSlots s g.part).length → slotsHeld s g.part + n ≤ (s.part g.part).heaps →
      (tableEntries n b).any (imageHeld s g.vf) = false →
      (∀ va ∈ tableEntries n b, ∃ h, readImage s g.ctx va = .heap h) →
      ∃ t, exec .heapBind s = .next t ∧ (t.grid gid).heaps = (freeSlots s g.part).take n
        ∧ ∀ e ∈ (freeSlots s g.part).zip (tableEntries n b), ∀ h, readImage s g.ctx e.2 = .heap h → t.heap e.1 = { h with grid := some gid })
    ∧ (∀ slot, s.input = some (.heapBindComplete slot) → (s.heap slot).grid ≠ none →
      ∃ t, exec .heapBindComplete s = .next t ∧ (t.heap slot).ready = true
        ∧ ∀ sid, (s.strand sid).wait = some .heapBind → (t.strand sid).wait = none)
    ∧ (∀ slot gid page k, s.input = some (.heapWriteBack slot) →
      let h := s.heap slot
      let g := s.grid gid
      let va := h.image.toNat
      h.grid = some gid → g.lrec.crews ≤ g.completed → s.t2lost = [] → h.pages = [(page, k)] → page ≤ va →
      va + h.bytes.length ≤ page + 65536 →
      ∃ t, exec .heapWriteBack s = .next t ∧ t.heap slot = {} ∧ (t.grid gid).heaps = g.heaps.filter (· ≠ slot)
        ∧ ∀ j < h.bytes.length, t.home (k + (va - page) + j) = h.bytes.getD j 0)
    ∧ ∀ gid, s.input = some (.gridComplete gid) → gridOver s gid = true → s.t2lost = [] →
      let g := s.grid gid
      let ends (P : State → Prop) : Prop := ∃ t, exec .gridComplete s = .next t ∧ (t.grid gid).state = .complete
        ∧ gid ∉ (t.queue g.queue).grids ∧ (∀ e ∈ t.crews, e.2.grid = gid → e.2.audited = true) ∧ P t
      (g.lrec.comprec = 0 → g.lrec.donectr = 0 → ends fun t => t.mem = s.mem)
      ∧ (∀ b k,
        let va := g.lrec.donectr.toNat
        g.lrec.comprec = 0 → va ≠ 0 → va % 8 = 0 → fetchBytes s g.ctx va 8 [] = .bytes b →
        pagesOf s g.ctx .wr va (pageCount va 8) = .ok [(va / 65536 * 65536, k)] →
        ends fun t => ∀ j < 8, t.home (k + va % 65536 + j) = (leBytes 8 (leVal b + 1)).getD j 0)
      ∧ ∀ cid c k,
        let va := g.lrec.comprec.toNat + c.index * (64 + 128 * g.decl.strands)
        let rcd := leBytes 4 c.status ++ leBytes 4 (c.cause1 + c.cause2 * 2 ^ 8 + c.causeStrand * 2 ^ 16 + c.causeRank * 2 ^ 20)
          ++ leBytes 8 c.tpc.toNat ++ leBytes 8 c.taddr.toNat ++ leBytes 8 c.scyc ++ leBytes 8 c.tstart ++ leBytes 8 c.tend
        g.reason = 0 → s.crews.filter (fun e => e.2.grid = gid && e.2.state = .ended) = [(cid, c)] → g.lrec.comprec ≠ 0 →
        g.lrec.donectr = 0 → va % 64 = 0 → pagesOf s g.ctx .wr va (pageCount va (crewRecord s c).length) = .ok [(va / 65536 * 65536, k)] →
        ends fun t => ∀ j < 48, t.home (k + va % 65536 + j) = rcd.getD j 0

/-- R48, R270, R279, R345 to R347, R351 to R353, R356, R357, R363 to R365, R445 to R447: what the events of queues, of the Factor
and of gangs do. An index write within the free slots is taken, another is refused; records are read in order and checked; a grid
whose dependences are met and whose checks pass is ready; a crew is placed with its strands as R48 says; crews yield or are
pre-empted for others; a gang's grid reserves its places when the choice of R354 falls on it, and its members start or abort together, an
abort that comes before the record included; a loss breaks a committed gang. The
operands of events are the model's (log entry 4), as are first-fit places (19), the order of victims and of pre-empted crews (41)
and what a gang reports (42). -/
def Obligations.FactorEvents : Prop :=
  ∀ s : State,
    (∀ q v, s.input = some (.qwidxWrite q v) →
      let x := s.queue q
      let new : Word32 := BitVec.ofNat 32 (v.toNat % 2 ^ 32)
      let step := (new.toNat + 2 ^ 32 - x.widx.toNat) % 2 ^ 32
      let used := (x.widx.toNat + 2 ^ 32 - x.ridx.toNat) % 2 ^ 32
      ∃ t, exec .qwidxWrite s = .next t ∧ t.mem = s.mem ∧ t.queue q = (if x.dev then { x with devq := true }
        else if 0 < step ∧ step + used ≤ 2 ^ x.lsize then { x with widx := new } else { x with badidx := true }))
    ∧ (∀ q v, s.input = some (.qstatClear q v) →
      let x := s.queue q
      ∃ t, exec .qstatClear s = .next t ∧ t.queue q = { x with
        rfault := x.rfault && !v.getLsbD 3, wfault := x.wfault && !v.getLsbD 2, devq := x.devq && !v.getLsbD 1
        badidx := x.badidx && !v.getLsbD 0 })
    ∧ (∀ q, s.input = some (.queueEnable q) → ∃ t, exec .queueEnable s = .next t ∧ t.queue q = { s.queue q with en := true })
    ∧ (∀ q, s.input = some (.queueDisable q) → ∃ t, exec .queueDisable s = .next t ∧ t.queue q = { s.queue q with en := false })
    ∧ (∀ q, s.input = some (.launchRecordRead q) →
      let x := s.queue q
      let va := x.qbase.toNat + 128 * (x.ridx.toNat % 2 ^ x.lsize)
      let reads := fetchBytes s x.ctx va 128 []
      x.en = true → (∀ k, x.lastGrid = some k → (s.grid k).state = .complete ∨ (s.grid k).reason ≠ 0) → x.ridx ≠ x.widx → (s.vf x.vf).en = true → (s.vf x.vf).part = x.part → s.freeze.state = .idle →
      (reads = .unreadable → ∃ t, exec .launchRecordRead s = .next t ∧ t.queue q =
        { x with ridx := x.ridx + 1, last := 1, rfault := true, lastGrid := none })
      ∧ ∀ b, reads = .bytes b →
        let r := parseRec b
        ∃ t, exec .launchRecordRead s = .next t
          ∧ t.queue q = { x with
              ridx := x.ridx + 1, grids := x.grids ++ [s.nextGrid], lastGrid := some s.nextGrid
              last := (if postCheck r = 0 then x.last else postCheck r) }
          ∧ t.grid s.nextGrid = { queue := q, part := x.part, vf := x.vf, lrec := r, state := .copied, reason := postCheck r, prev := x.lastGrid })
    ∧ (∀ i gid d, (i = .gridReady ∧ s.input = some (.gridReady gid)) ∨ (i = .dependencePoll ∧ s.input = some (.dependencePoll gid)) →
      let g := s.grid gid
      mayReady s g = true → depMet s g.ctx g.lrec.dep0a g.lrec.dep0v = some true → depMet s g.ctx g.lrec.dep1a g.lrec.dep1v = some true →
      heapsReady s g = .ok → readDesc s g = some d →
      (tooLarge s g d = false → groupBusy s g = false → ∃ t, exec i s = .next t ∧ t.grid gid = { g with state := .ready, decl := d })
      ∧ (tooLarge s g d = true → g.lrec.isGang = false → ∃ t, exec i s = .next t ∧ (t.grid gid).reason = 4 ∧ (t.queue g.queue).last = 4
        ∧ .gridComplete gid ∈ t.events))
    ∧ (∀ p gid u o cb lb, s.input = some (.crewDispatch p) →
      let g := s.grid gid
      let d := g.decl
      let cid := s.nextCrew
      dispatches s p = true → (∀ e ∈ s.grids, e.2.owed = false) → ∀ s1, chooseCrew p 16 (chargeAll p s) = (some (.fresh gid), s1) → s1.nextCrew = s.nextCrew →
      (∀ e ∈ s1.crews, e.2.lazy = false) →
      s1.grids = s.grids → placeFor s1 g.part d = some u → d.strands ≤ 16 → d.strands ≤ (freeSlotsOf s1 u).length →
      arenaRoom s1 g.vf (imageRoom d) = some o → roomAt (cspHeld s1 (clusterOf u.1)) (2 ^ 32) d.csp = some cb →
      roomAt (laneHeld s1 u.1) (2 ^ 32) d.laneBytes = some lb → s.assayer.en = false → s1.assayer = s.assayer →
      ∃ t, exec .crewDispatch s = .next t ∧ (t.grid gid).dispatched = g.dispatched + 1 ∧ (t.crew cid).state = .resident ∧ (t.crew cid).grid = gid
        ∧ (t.crew cid).index = g.dispatched ∧ (t.crew cid).core = u.1 ∧ (t.crew cid).decl = d
        ∧ (∀ i < d.strands,
          let m := t.strand (16 * cid + i)
          m.run = .running ∧ m.index = i ∧ m.pc = d.entry ∧ tget 0 m.regs 1 = g.lrec.args ∧ (∀ r, r ≠ 1 → tget 0 m.regs r = 0)
            ∧ m.vl = 0 ∧ m.vheld = d.vheld ∧ m.vregs = [] ∧ m.priv = .app ∧ m.trapon = false ∧ m.trapvec = g.lrec.handler ∧ m.deadmask = 0)
        ∧ (∀ j < d.csp, t.home (cspKey (clusterOf u.1) (cb + j)) = 0) ∧ ∀ j < d.laneBytes, t.home (laneKey u.1 (lb + j)) = 0)
    ∧ (∀ gid cid c, s.input = some (.yieldThreshold gid) →
      let g := s.grid gid
      offersFresh s g = true → residentOf s gid = [(cid, c)] → dispatches s g.part = true → mayRun s g = true → s.crew cid = c →
      (∃ i ∈ c.sids, (s.strand i).run = .running) →
      (∀ i ∈ c.sids, (s.strand i).run = .running → ∃ w, (s.strand i).blockedFrom = some w ∧ w + g.lrec.yieldCycles ≤ s.cycle) →
      g.owed = false → dispatchNext gid .running s = none →
      ∃ t, exec .yieldThreshold s = .next t ∧ t.events = s.events ++ [.preemptRequest cid] ∧ (t.grid gid).owed = true
        ∧ (t.crew cid).yields = true ∧ (bitsOf g.lrec.handler 5 0 = 0 → (t.crew cid).wantLazy = false))
    ∧ (∀ q gid u vs n, s.input = some (.priorityPreempt q) →
      let x := s.queue q
      x.preempt = true → x.grids = [gid] → (s.grid gid).noRoom = some n → n + 1024 ≤ s.cycle → readyOf s q = none → readyCrews s gid = [] →
      roomComing s x.part (s.grid gid).decl = false →
      unitsOf s x.part = [u] → neededOn s x.part x.prio (s.grid gid).decl u = some vs →
      ∃ t, exec .priorityPreempt s = .next t ∧ t.events = s.events ++ vs.map Event.preemptRequest)
    ∧ (∀ gid s1 u, s.input = some (.gangPrepare gid) →
      let g := s.grid gid
      let r := g.lrec
      g.state = .ready → r.isGang = true → dispatches s g.part = true → r.eager = false →
      chooseCrew g.part 16 (chargeAll g.part s) = (some (.whole gid), s1) → (s1.grid gid).lrec = r →
      dispatchAll gid .absent r.crews s1 = some u → u.outbox = s.outbox → u.gangs = s.gangs → u.cycle = s.cycle →
      ∃ t, exec .gangPrepare s = .next t ∧ (t.grid gid).state = .reserved
        ∧ (r.rank ≠ 0 → t.outbox = s.outbox ++ [.prepared r.gtag.toNat r.rank])
        ∧ (r.rank = 0 → t.outbox = s.outbox ∧ .prepared r.gtag.toNat 0 ∈ t.events)
        ∧ (gang t r.gtag.toNat).grid = some gid ∧ (gang t r.gtag.toNat).since = s.cycle ∧ (gang t r.gtag.toNat).rank = r.rank)
    ∧ (∀ gt rank, s.input = some (.prepared gt rank) →
      let x := gang s gt
      let all := ∀ r < x.size, r = rank ∨ r ∈ x.prepared
      ∃ t, exec .prepared s = .next t ∧ rank ∈ (gang t gt).prepared
        ∧ (x.grid.isSome → x.rank = 0 → x.committed = false → all → s.cycle ≤ x.since + 1880000 →
          t.outbox = s.outbox ++ [.commit gt] ∧ t.events = s.events ++ [.commit gt])
        ∧ (¬ all → t.outbox = s.outbox ∧ t.events = s.events))
    ∧ (∀ gt gid cid, s.input = some (.commit gt) →
      let x := gang s gt
      let c := s.crew cid
      x.grid = some gid → x.committed = false → (crewsOf s gid).map (·.1) = [cid] → c.state = .reserved → c.grid = gid →
      ∃ t, exec .commit s = .next t ∧ (gang t gt).committed = true ∧ (t.crew cid).state = .resident ∧ (∀ i ∈ c.sids, (t.strand i).run = .running)
        ∧ tget {} t.groups (256 * (s.grid gid).part + x.cgroup) = { valid := true, size := x.size, rank := x.rank, grid := gid })
    ∧ (∀ gt rank, s.input = some (.abort gt rank) → (gang s gt).committed = false →
      (∀ gid, (gang s gt).grid.or (gangGrid s gt) = some gid → (s.grid gid).reason = 0 →
        ∃ t, exec .abort s = .next t ∧ (t.grid gid).reason = 256 + rank ∧ (∀ e ∈ t.gangs, e.1 ≠ gt) ∧ .gridComplete gid ∈ t.events
          ∧ ((∀ e ∈ crewsOf s gid, e.2.state = .reserved) → ∀ e ∈ t.crews, e.2.grid ≠ gid)
          ∧ ∀ cid c, crewsOf s gid = [(cid, c)] → s.crew cid = c → c.state = .resident →
            (t.crew cid).state = .ended ∧ (t.crew cid).status = 3 ∧ (t.crew cid).causeRank = rank)
      ∧ ((gang s gt).grid = none → gangGrid s gt = none → ∃ t, exec .abort s = .next t ∧ (gang t gt).aborted = some rank ∧ t.mem = s.mem))
    ∧ (∀ gt rank reason, s.input = some (.gangRefusal gt rank reason) → (gang s gt).committed = false →
      ∃ t, exec .gangRefusal s = .next t ∧ t.outbox = s.outbox ++ [.abort gt rank] ∧ t.events = s.events ++ [.abort gt rank]
        ∧ gang t gt = { gang s gt with reason := reason })
    ∧ (∀ gt rank, s.input = some (.gangPrepareTimeout gt) →
      let x := gang s gt
      x.grid.isSome → x.rank = 0 → x.committed = false → s.freeze.state = .idle → x.since + 1880000 ≤ s.cycle → rank < x.size → rank ∉ x.prepared →
      (∀ r < rank, r ∈ x.prepared) →
      ∃ t, exec .gangPrepareTimeout s = .next t ∧ t.outbox = s.outbox ++ [.abort gt rank] ∧ t.events = s.events ++ [.abort gt rank])
    ∧ (∀ gt gid, s.input = some (.gangCommitTimeout gt) →
      let x := gang s gt
      x.grid = some gid → x.rank ≠ 0 → x.committed = false → s.freeze.state = .idle → (s.grid gid).reason = 0 → x.since + 3760000 ≤ s.cycle →
      ∃ t, exec .gangCommitTimeout s = .next t ∧ (t.grid gid).reason = 256 ∧ (∀ e ∈ t.gangs, e.1 ≠ gt)
        ∧ ((∀ e ∈ crewsOf s gid, e.2.state = .reserved) → ∀ e ∈ t.crews, e.2.grid ≠ gid))
    ∧ (∀ gt rank cause gid, s.input = some (.lost gt rank cause) →
      let x := gang s gt
      let key := 256 * (s.grid gid).part + x.cgroup
      x.grid = some gid → x.lost = none →
      (x.committed = true → rank ≠ x.rank → ∃ t, exec .lost s = .next t ∧ (gang t gt).lost = some rank ∧ (tget {} t.groups key).broken = true
        ∧ ∀ e ∈ s.crews, e.2.grid = gid → e.2.state = .resident → .preemptRequest e.1 ∈ t.events)
      ∧ (x.committed = true → rank = x.rank → ∃ t, exec .lost s = .next t ∧ .lost gt rank ∈ t.outbox
        ∧ ∀ e ∈ t.crews, e.2.grid = gid → e.2.status = 4 ∧ e.2.causeRank = rank)
      ∧ (x.committed = false → x.rank = 0 → ∃ t, exec .lost s = .next t ∧ t.outbox = s.outbox ++ [.abort gt rank]))
    ∧ (∀ dev gt rank gid, s.input = some (.linkUnreachable dev [(gt, rank)]) →
      let x := gang s gt
      x.grid = some gid → x.lost = none → x.committed = true → rank ≠ x.rank →
      ∃ t, exec .linkUnreachable s = .next t ∧ dev ∈ t.unreachable ∧ .lost gt rank ∈ t.outbox ∧ (gang t gt).lost = some rank)
    ∧ (∀ gt x gid r, s.input = some .gangcmdDiscard →
      s.gangs.find? (fun e => e.1 = s.ras.gangtag.toNat && e.2.grid.isSome && e.2.lost.isSome && !e.2.resumed) = some (gt, x) →
      x.grid = some gid → x.lost = some r →
      ∃ t, exec .gangcmdDiscard s = .next t ∧ (∀ e ∈ t.crews, e.2.grid = gid → e.2.status = 4 ∧ e.2.causeRank = r)
        ∧ ∀ e ∈ t.groups, e.2.valid = true → e.2.grid ≠ gid)
    ∧ ∀ gt x gid, s.input = some .gangcmdResume →
      s.gangs.find? (fun e => e.1 = s.ras.gangtag.toNat && e.2.grid.isSome && e.2.lost.isSome && !e.2.resumed) = some (gt, x) →
      x.grid = some gid →
      ∃ t, exec .gangcmdResume s = .next t ∧ (gang t s.ras.gangtag.toNat).resumed = true
        ∧ ∀ cid, cid ∈ (crewsOf s gid).map (·.1) → (s.crew cid).state = .lostHeld → (t.crew cid).state = .ready

/-- R366, R367, R372, R375, R378, R382 to R386, R389 to R393, R420, R421: what the events of pre-emption, of turns and of a Freeze
do. A request stops strands at once or asks them to stop at a strip, where a strand that blocks stops at once; a strip or drain wait
that has lasted is ended; a stopped crew is captured once its stores have been performed, lazily pending sections are written, and a
ready crew resumes with the state of its image, or is refused; quanta begin, close and end; an overrun kills; a page moves with no
byte changed; a Freeze goes through its phases, writes its images to host memory where its destination is there, and is released. The
operands of events are the model's (log entry 4), as are strip boundaries and what is saved (45), refused images (44), frozen
images (46, 47), the layout at a Freeze's destination (83), the start of quanta (53) and
quanta during a Freeze (88). -/
def Obligations.SwitchEvents : Prop :=
  ∀ s : State,
    (∀ cid, s.input = some (.preemptRequest cid) →
      let c := s.crew cid
      c.state = .resident → c.sids.Nodup → (∀ i ∈ c.sids, (s.strand i).due = none ∧ (s.strand i).run = .running ∧ (s.strand i).viq = []) →
      (stopsAtOnce s c = true → ∃ t, exec .preemptRequest s = .next t ∧ (t.crew cid).state = .stopping ∧ (t.crew cid).reqAt = s.cycle
        ∧ (∀ i ∈ c.sids, (t.strand i).run = .stopped) ∧ .stateCapture cid ∈ t.events)
      ∧ (stopsAtOnce s c = false → (∀ i ∈ c.sids, (s.strand i).wait = none) →
        ∃ t, exec .preemptRequest s = .next t ∧ (t.crew cid).state = .stopping ∧ (t.crew cid).reqAt = s.cycle
          ∧ ∀ i ∈ c.sids, t.strand i = { s.strand i with stopReq := true })
      ∧ ∀ sid, c.sids = [sid] → (s.strand sid).blocked = true →
        ∃ t, exec .preemptRequest s = .next t ∧ (t.crew cid).state = .stopping ∧ (t.strand sid).run = .stopped ∧ .stateCapture cid ∈ t.events)
    ∧ (∀ sid, s.input = some (.stripWaitExpire sid) →
      let m := s.strand sid
      m.stopReq = true → m.run = .running → m.due = none → m.viq = [] → m.wait ≠ some .drain → (s.crew m.crew).reqAt + 6000 ≤ s.cycle →
      ∃ t, exec .stripWaitExpire s = .next t ∧ (t.strand sid).run = .stopped ∧ (t.strand sid).strip = false ∧ (t.strand sid).pc = m.pc)
    ∧ (∀ sid, s.input = some (.drainWaitExpire sid) →
      let m := s.strand sid
      m.stopReq = true → m.run = .running → m.due = none → m.viq = [] → m.wait = some .drain → (s.crew m.crew).reqAt + 8000 ≤ s.cycle →
      ∃ t, exec .drainWaitExpire s = .next t ∧ (t.strand sid).run = .stopped ∧ (t.strand sid).strip = false ∧ (t.strand sid).pc = m.pc)
    ∧ (∀ cid u, s.input = some (.stateCapture cid) →
      let c := s.crew cid
      let s1 := completeWork cid s
      let strip := c.sids.all fun i => (s1.strand i).over || (s1.strand i).strip
      let s2 := if strip then emptyTiles cid s1 else s1
      let img := imageOf s2 cid strip
      c.state = .stopping → (∀ i ∈ c.sids, (s.strand i).run ≠ .running) → (∀ k ∈ s.colls, k.armed = true → k.sid ∉ c.sids) →
      (s1.crew cid).state = .stopping → storesOut s1 cid = false → c.wantLazy = false → s1.freeze.state = .idle → s1.gangs = [] →
      u.freeze = s1.freeze → u.gangs = s1.gangs → writeArena (s2.grid (s2.crew cid).grid).ctx (s2.crew cid).image.toNat img (imagePoison s2 cid) s2 = .ok u →
      ∃ t, exec .stateCapture s = .next t ∧ (t.crew cid).state = .ready ∧ (t.crew cid).lazy = false ∧ (t.crew cid).stripSaved = strip
        ∧ (t.crew cid).imageLen = img.length ∧ t.mem = u.mem)
    ∧ (∀ cid sid u, s.input = some (.saveEngineWrite cid) →
      let c := s.crew cid
      let img := imageOf s cid c.stripSaved
      let o := offVecOf img
      let n := imageLen (s.strand sid).vheld c.decl.vlmax
      c.lazy = true → c.sids = [sid] → (s.strand sid).vpend = true →
      writeArena (s.grid c.grid).ctx (c.image.toNat + o) ((img.drop o).take n)
        (((imagePoison s cid).filter fun x => o ≤ x * 64 && x * 64 < o + n).map (· - o / 64)) s = .ok u → u.crews = s.crews → u.strand sid = s.strand sid →
      ∃ t, exec .saveEngineWrite s = .next t ∧ (t.crew cid).lazy = false ∧ (t.strand sid).vpend = false)
    ∧ (∀ cid sid u x cb lb, s.input = some (.crewResume cid) →
      let c := s.crew cid
      let g := s.grid c.grid
      let at_ (k n : Nat) : Nat := leVal ((x.bytes.drop (areaBase 0 + k)).take n)
      g.lrec.cores = false → g.lrec.isGang = false → c.state = .ready → c.dbgHold = false → dispatches s g.part = true → mayRun s g = true →
      s.freeze.heaps = [] → g.heaps.length = g.lrec.nheap → resumeUnit s cid = some u → (∀ e ∈ s.crews, e.2.lazy = false) → c.lazy = false → c.sids = [sid] →
      fetchImage s cid = .ok x → (s.strand sid).run = .stopped →
      (imageRefused s cid (s.classOf u.1).code x = false → (freeSlotsOf s u) ≠ [] → c.decl.strands = 1 → c.audited = false → (at_ 352 8).testBit 1 = false →
        roomAt (cspHeld s (clusterOf u.1)) (2 ^ 32) c.decl.csp = some cb → roomAt (laneHeld s u.1) (2 ^ 32) c.decl.laneBytes = some lb →
        ∃ t, exec .crewResume s = .next t ∧ (t.crew cid).state = .resident ∧ (t.crew cid).core = u.1
          ∧ (let m := t.strand sid
             m.run = .running ∧ m.core = u.1 ∧ m.pc = BitVec.ofNat 64 (at_ 0 8)
              ∧ (∀ r, 1 ≤ r → r < 32 → tget 0 m.regs r = BitVec.ofNat 64 (at_ (8 + 8 * r) 8)) ∧ m.trapvec = BitVec.ofNat 64 (at_ 296 8)
              ∧ m.trappc = BitVec.ofNat 64 (at_ 304 8) ∧ m.trapcause = BitVec.ofNat 64 (at_ 312 8)))
      ∧ (imageRefused s cid (s.classOf u.1).code x = true →
        ∃ t, exec .crewResume s = .next t ∧ (t.crew cid).state = .ended ∧ (t.crew cid).status = 1 ∧ (t.crew cid).cause1 = 0x17
          ∧ (t.crew cid).taddr = c.image))
    ∧ (∀ p, s.input = some (.guardBandStart p) → turning s p = true → (s.part p).guard = false → quantumDeadline s p ≤ s.cycle + 7520 →
      ∃ t, exec .guardBandStart s = .next t ∧ t.part p = { s.part p with guard := true })
    ∧ (∀ p, s.input = some (.quantumEnd p) →
      let x := s.part p
      x.en = true → quantaRun s = true → 2 ≤ (enabledVfs s p).length → x.qlive = true →
      x.qstart + 9400 * x.quantum ≤ s.cycle + tget 0 x.excess x.turn →
      (x.elastic = false → ∃ t, exec .quantumEnd s = .next t ∧ (t.part p).qlive = false ∧ (t.part p).guard = false ∧ (t.part p).qend = s.cycle
        ∧ (t.part p).outVf = x.turn
        ∧ ∀ e ∈ s.crews, (s.grid e.2.grid).vf = x.turn → e.2.state = .resident → .preemptRequest e.1 ∈ t.events)
      ∧ (x.elastic = true → (∀ v ∈ enabledVfs s p, v ≠ x.turn → hasWork s p v = false) →
        ∃ t, exec .quantumEnd s = .next t ∧ (t.part p).qlive = true ∧ (t.part p).turn = x.turn ∧ (t.part p).qstart = s.cycle))
    ∧ (∀ p, s.input = some (.quantumStart p) →
      let x := s.part p
      let window := 940 * if x.swwin = 0 then swMin s p else x.swwin
      x.en = true → quantaRun s = true → 2 ≤ (enabledVfs s p).length → x.qlive = false → (∀ e ∈ s.crews, e.2.lazy = false) →
      (x.elastic = false → x.qstart + 9400 * x.quantum + window ≤ s.cycle →
        ∃ t, exec .quantumStart s = .next t ∧ (t.part p).qlive = true ∧ (t.part p).qstart = x.qstart + 9400 * x.quantum + window
          ∧ (t.part p).turn ∈ enabledVfs s p
          ∧ ∀ v ∈ enabledVfs s p, x.outVf < v → (enabledVfs s p).Pairwise (· < ·) → x.outVf < (t.part p).turn ∧ (t.part p).turn ≤ v)
      ∧ (x.elastic = true → (∀ e ∈ s.crews, (s.grid e.2.grid).vf = x.outVf → e.2.state ≠ .resident ∧ e.2.state ≠ .stopping) →
        (∃ v ∈ enabledVfs s p, hasWork s p v = true) →
        ∃ t, exec .quantumStart s = .next t ∧ (t.part p).qlive = true ∧ (t.part p).qstart = s.cycle ∧ hasWork s p (t.part p).turn = true))
    ∧ (∀ v, s.input = some (.overrunKill v) →
      let p := (s.vf v).part
      (s.part p).outVf = v → overrunning s v = true → 2 ≤ (enabledVfs s p).length → (s.part p).qend + 15040 ≤ s.cycle →
      ∃ t, exec .overrunKill s = .next t
        ∧ ∀ e ∈ s.crews, (s.grid e.2.grid).vf = v → s.crew e.1 = e.2 → e.2.state ≠ .ended →
          (t.crew e.1).state = .ended ∧ (t.crew e.1).status = 2 ∧ (t.crew e.1).cause1 = 0x1B)
    ∧ (∀ p f up, s.input = some (.pageMove p f up) → (s.part p).elastic = true → f < (s.part p).frames → inTier1 s p f = !up →
      (up = true → tier1Used s p < tier1Frames (s.part p)) → s.stash = [] → pinned s (p * 2 ^ 38 + f) = false →
      ∃ t, exec .pageMove s = .next t ∧ inTier1 t p f = up ∧ t.mem = s.mem)
    ∧ (∀ v, s.input = some (.freezeGo v) →
      (s.freeze.state ≠ .idle → ∃ t, exec .freezeGo s = .next t ∧ t.freeze = { s.freeze with result := 3 })
      ∧ (s.freeze.state = .idle →
        let n := bitsOf v 43 31
        let host := v.getLsbD 3
        (n > 5722 ∨ (host = true ∧ n > 2861) → ∃ t, exec .freezeGo s = .next t ∧ t.freeze.result = 2 ∧ t.freeze.state = .idle)
        ∧ (n ≤ 5722 → host = false → tier2Free s < freezeBytes s n → ∃ t, exec .freezeGo s = .next t ∧ t.freeze.result = 1 ∧ t.freeze.state = .idle)
        ∧ (n ≤ 5722 → (host = true → n ≤ 2861) → (host = false → freezeBytes s n ≤ tier2Free s) → s.gangs = [] → s.crews = [] →
          ∃ t, exec .freezeGo s = .next t
            ∧ (let reserved := !host || Config.hostReserves s.freeze.dest.toNat (freezeBytes s n)
               (reserved = false → t.freeze.result = 1 ∧ t.freeze.state = .idle)
               ∧ (reserved = true → t.freeze.result = 0 ∧ t.freeze.state = .stopping ∧ t.freeze.goAt = s.cycle ∧ t.freeze.demote = n
                 ∧ t.outbox = s.outbox ++ if v.getLsbD 1 then [.freeze (bitsOf v 22 16) v] else [])))))
    ∧ (∀ pod v, s.input = some (.freezeBcastReceive pod none v) →
      (pod ≠ s.plat.pod → exec .freezeBcastReceive s = .next s)
      ∧ (pod = s.plat.pod → s.freeze.state = .idle → v.getLsbD 3 = true → bitsOf v 43 31 ≤ 2861 → s.gangs = [] → s.crews = [] →
        ∃ t, exec .freezeBcastReceive s = .next t ∧ t.outbox = s.outbox
          ∧ t.freeze.state = if Config.hostReserves s.freeze.dest.toNat (freezeBytes s (bitsOf v 43 31)) then .stopping else .idle))
    ∧ (s.input = some .freezePhaseDone →
      (s.freeze.state = .saving → s.freeze.host = false →
        ∃ t, exec .freezePhaseDone s = .next t ∧ t.freeze = { s.freeze with state := .demoting } ∧ t.mem = s.mem)
      ∧ (∀ c,
        let a := s.freeze.dest.toNat
        let img := (s.crew c).frozen
        s.freeze.state = .saving → s.freeze.host = true → s.freeze.crews = [c] → s.freeze.heaps = [] → s.t2lost = [] →
        a % 65536 + img.length ≤ 65536 →
        ∃ t, exec .freezePhaseDone s = .next t ∧ t.freeze = { s.freeze with state := .demoting }
          ∧ ∀ j < img.length, t.home (hostKey 64 0 a + j) = img.getD j 0)
      ∧ (s.freeze.state = .demoting → s.freeze.demote = 0 → ∃ t, exec .freezePhaseDone s = .next t ∧ t.mem = s.mem
        ∧ t.freeze = { s.freeze with state := .frozen, demoted := [], elapsed := (s.cycle - s.freeze.goAt) / 940 })
      ∧ (s.freeze.state = .stopping → s.freeze.scope = none → (∀ e ∈ s.crews, e.2.state = .frozen ∧ e.2.lazy = false) → s.heaps = [] →
        ∃ t, exec .freezePhaseDone s = .next t ∧ t.freeze.state = .saving ∧ t.freeze.crews = s.crews.map (·.1)
          ∧ ∀ l ∈ t.stash, l ∈ s.stash ∧ ∀ e ∈ s.crews, l.vf ≠ (s.grid (s.crew e.1).grid).vf)
      ∧ (s.freeze.state = .resuming → s.freeze.heaps = [] → (∀ c ∈ s.freeze.crews, stillFrozen s c = false) →
        ∃ t, exec .freezePhaseDone s = .next t ∧ t.freeze.state = .idle))
    ∧ (s.input = some .freezeRelease → s.freeze.state = .frozen → s.gangs = [] → s.freeze.heaps = [] →
      ∃ t, exec .freezeRelease s = .next t ∧ t.freeze.state = .resuming ∧ t.freeze.demoted = [] ∧ t.mem = s.mem
        ∧ (∀ p ∈ s.parts.map (·.1), (t.part p).qstart = (s.part p).qstart + (s.cycle - max s.freeze.goAt (s.part p).qstart))
        ∧ ∀ c ∈ s.freeze.crews, (s.crew c).state = .frozen → (t.crew c).state = .ready)

/-- R399, R401, R403, R405 to R408, R410 to R412, R416, R417, R423, R425: what the events of translation and of the hypervisor's
registers do. An invalidation is counted; once it has completed, a translation of an address that it covers uses no entry that
stood before it was issued; an answer to a fault or a page request lets the waiting accesses go on, or they find the page missing, which traps; a function reset
ends the function's crews; partition, assignment and function writes take effect or are refused with their reason, as every write of a locked function is; scrubs and
zeroing leave zeros. The operands of events are the model's (log entry 4), as are what is kept of replaced entries (35), writes
while enabled (48), refused enables (49), reserved owners (50), zeroed channels (51), what a scrub zeroes (52), the answers to
engines (54) and those of the host (8). -/
def Obligations.ControlEvents : Prop :=
  ∀ s : State,
    (∀ f v, s.input = some (.invalidate f v) → ∃ t, exec .invalidate s = .next t
      ∧ t.vf f = { s.vf f with invcount := bitsOf v 63 32, issued := (s.vf f).issued + 1 } ∧ t.mem = s.mem)
    ∧ (∀ v, s.input = some (.s2Invalidate v) → ∃ t, exec .s2Invalidate s = .next t ∧ t.mem = s.mem
      ∧ t.hyp = { s.hyp with s2invcount := bitsOf v 63 32, s2invvf := bitsOf v 13 8, s2issued := s.hyp.s2issued + 1 })
    ∧ (∀ f, s.input = some (.invalidateDone (some f)) → (s.vf f).issued ≠ (s.vf f).done →
      ∃ t, exec .invalidateDone s = .next t ∧ (t.vf f).done = (s.vf f).done + 1 ∧ t.sbuf = [] ∧ t.dcache = []
        ∧ ∀ i, s.old.pending.find? (fun i => !i.two && i.vf = f) = some i → ∀ a k,
          (i.count = 0 ∨ (a + 2 ^ 64 - i.base) % 2 ^ 64 < 65536 * i.count) →
          ∀ v ∈ oldEntries t false f a k, ∃ o ∈ t.old.entries, o.key = k ∧ o.val = v ∧ i.mark ≤ o.stamp)
    ∧ (s.input = some (.invalidateDone none) → s.hyp.s2issued ≠ s.hyp.s2done →
      ∃ t, exec .invalidateDone s = .next t ∧ t.hyp.s2done = s.hyp.s2done + 1 ∧ t.sbuf = [] ∧ t.dcache = []
        ∧ ∀ i, s.old.pending.find? (·.two) = some i → ∀ a k,
          (i.count = 0 ∨ (a + 2 ^ 64 - i.base) % 2 ^ 64 < 65536 * i.count) →
          ∀ v ∈ oldEntries t true i.vf a k, ∃ o ∈ t.old.entries, o.key = k ∧ o.val = v ∧ i.mark ≤ o.stamp)
    ∧ (∀ id, s.input = some (.s2freplyRetry id) →
      ∃ t, exec .s2freplyRetry s = .next t ∧ (∀ n ∈ t.hyp.s2notices, n.id ≠ id)
        ∧ ∀ sid va wr ix ls, (s.strand sid).wait = some (.s2 id va wr ix ls) → (t.strand sid).wait = none)
    ∧ (∀ i id n, (i = .s2freplyFail ∧ s.input = some (.s2freplyFail id)
        ∨ i = .s2FaultTimeout ∧ s.input = some (.s2FaultTimeout id) ∧ n.at_ + 1048576 ≤ s.cycle) →
      s.hyp.s2notices.find? (·.id = id) = some n →
      let page := n.ipa / 65536
      ∃ t, exec i s = .next t ∧ (∀ m ∈ t.hyp.s2notices, m.id ≠ id)
        ∧ ((true, page) ∈ (s.vf n.vf).asked → (true, page) ∈ (t.vf n.vf).failed)
        ∧ ∀ sid ∈ vfStrands s n.vf, ∀ va wr ix ls, (s.strand sid).wait = some (.s2 id va wr ix ls) →
          (t.strand sid).wait = none ∧ (true, page) ∈ (t.strand sid).failed)
    ∧ (∀ (c : Ctx) acc ipa x, c.engine = false →
      (s2 s c acc ipa = .stall2 x → s2 s { c with failed := (true, x / 65536) :: c.failed } acc ipa = .fault .s2Fault 0 none)
      ∧ (bits x 55 54 = 2 → bits x 53 0 / 65536 ∉ (s.vf c.vf).pages →
        target s { c with failed := (false, bits x 53 0 / 65536) :: c.failed } x =
          if Config.hostPresent c.vf (bits x 53 0 / 65536) (s.vf c.vf).priNext then .ok (.cell (hostKey c.vf (s.vf c.vf).atsGen (bits x 53 0)))
          else .fault .pageFault 0 none))
    ∧ (∀ v, s.input = some (.s2fidxWrite v) →
      ((∀ n ∈ s.hyp.s2notices, n.posted = true) →
        ∃ t, exec .s2fidxWrite s = .next t ∧ t.hyp = { s.hyp with s2tail := bitsOf v 39 32 } ∧ t.mem = s.mem)
      ∧ ∀ n, s.hyp.s2notices = [n] → n.posted = false → (s.hyp.s2head + 1) % 256 ≠ bitsOf v 39 32 →
        ∃ t, exec .s2fidxWrite s = .next t ∧ t.hyp.s2notices = [{ n with posted := true }] ∧ t.hyp.s2head = (s.hyp.s2head + 1) % 256
          ∧ ∀ j < 16, t.home (sramKey (s.hyp.s2ring.toNat % 2 ^ 26 + 16 * s.hyp.s2head) + j)
            = (leBytes 8 n.ipa ++ [BitVec.ofNat 8 n.vf, BitVec.ofNat 8 n.kind, 0, 0] ++ leBytes 4 n.id).getD j 0)
    ∧ (∀ v idx code p, s.input = some (.priResponse v idx code) → (s.vf v).pri.find? (·.idx = idx) = some p →
      (p.gen ≠ (s.vf v).gen → ∃ t, exec .priResponse s = .next t ∧ (t.vf v).stale = ((s.vf v).stale + 1) % 2 ^ 32
        ∧ (t.vf v).pri = (s.vf v).pri.filter (·.idx ≠ idx) ∧ (t.vf v).pages = (s.vf v).pages)
      ∧ (p.gen = (s.vf v).gen → code = .success → ∃ t, exec .priResponse s = .next t ∧ p.page ∈ (t.vf v).pages
        ∧ (t.vf v).pri = (s.vf v).pri.filter (·.idx ≠ idx)
        ∧ ∀ sid ∈ vfStrands s v, ∀ va wr ix ls, (s.strand sid).wait = some (.pri idx va wr ix ls) → (t.strand sid).wait = none)
      ∧ (p.gen = (s.vf v).gen → code = .failure → ∃ t, exec .priResponse s = .next t ∧ (t.vf v).priOff = true
        ∧ (t.vf v).pages = (s.vf v).pages))
    ∧ (∀ i v idx p, (i = .priResponse ∧ (s.input = some (.priResponse v idx .invalid) ∨ s.input = some (.priResponse v idx .failure))
        ∨ i = .priTimeout ∧ s.input = some (.priTimeout v idx) ∧ p.at_ + 1048576 ≤ s.cycle) →
      (s.vf v).pri.find? (·.idx = idx) = some p → p.gen = (s.vf v).gen →
      ∃ t, exec i s = .next t ∧ ((false, p.page) ∈ (s.vf v).asked → (false, p.page) ∈ (t.vf v).failed)
        ∧ ∀ sid ∈ vfStrands s v, ∀ va wr ix ls, (s.strand sid).wait = some (.pri idx va wr ix ls) →
          (t.strand sid).wait = none ∧ (false, p.page) ∈ (t.strand sid).failed)
    ∧ (∀ v base n, s.input = some (.atsInvalidate v base n) →
      ∃ t, exec .atsInvalidate s = .next t ∧ t.sbuf = [] ∧ t.dcache = []
        ∧ ∀ p, p ∈ (t.vf v).pages ↔ p ∈ (s.vf v).pages ∧ ¬ (base < (p + 1) * 65536 ∧ p * 65536 < base + n))
    ∧ (∀ i v, (i = .functionLevelReset ∧ s.input = some (.functionLevelReset v) ∨ i = .stopInterface ∧ s.input = some (.stopInterface v)
        ∨ i = .tdiError ∧ s.input = some (.tdiError v)) →
      ∃ t, exec i s = .next t ∧ (t.vf v).gen = ((s.vf v).gen + 1) % 256 ∧ (t.vf v).lock = false ∧ (t.vf v).pages = []
        ∧ (∀ q, (s.queue q).vf = v → (t.queue q).en = false)
        ∧ ∀ e ∈ s.crews, (s.grid e.2.grid).vf = v → s.crew e.1 = e.2 → e.2.state ≠ .ended →
          (t.crew e.1).state = .ended ∧ (t.crew e.1).status = 1 ∧ (t.crew e.1).cause1 = 0)
    ∧ (∀ v, s.input = some (.tdiLock v) → ∃ t, exec .tdiLock s = .next t ∧ t.vf v = { s.vf v with lock := true })
    ∧ (∀ p v, s.input = some (.partitionEnable p v) →
      (lockedPart s p = true → p < 64 → ∃ t, exec .partitionEnable s = .next t ∧ t.part p = { s.part p with err := true, reason := 8 })
      ∧ (lockedPart s p = false → p < 64 → (s.part p).chmask = 0 →
        ∃ t, exec .partitionEnable s = .next t ∧ t.part p = { s.part p with err := true, reason := 1 })
      ∧ (lockedPart s p = false → enableFault s p v = 0 → ∃ t, exec .partitionEnable s = .next t
        ∧ (t.part p).en = true ∧ (t.part p).scrubbing = true ∧ (t.part p).err = false ∧ (t.part p).swwin = bitsOf v 63 48
        ∧ (t.part p).quantum = (if bitsOf v 47 32 = 0 then 200 else bitsOf v 47 32) ∧ (t.part p).heaps = bitsOf v 12 8
        ∧ (t.part p).elastic = v.getLsbD 3 ∧ (t.part p).stop = v.getLsbD 1 ∧ (t.part p).chmask = (s.part p).chmask
        ∧ (t.part p).ptr = [] ∧ ∀ q, (s.queue q).part = p → (t.queue q).deficit = 0))
    ∧ (∀ p v, s.input = some (.partitionDisable p v) → lockedPart s p = false → sameFields (s.part p) v = true →
      let busy := ∃ e ∈ s.crews, e.2.onCore = true ∧ (s.grid e.2.grid).part = p
      (v.getLsbD 1 = true → ¬ busy → enabledVfs s p = [] →
        ∃ t, exec .partitionDisable s = .next t ∧ (t.part p).en = false ∧ (t.part p).stop = true ∧ (t.part p).err = false)
      ∧ (v.getLsbD 1 = false ∨ busy ∨ enabledVfs s p ≠ [] → p < 64 →
        ∃ t, exec .partitionDisable s = .next t ∧ t.part p = { s.part p with err := true, reason := 7 }))
    ∧ (∀ p v, s.input = some (.partitionStop p v) → lockedPart s p = false → (s.part p).en = true → sameFields (s.part p) v = true →
      ∃ t, exec .partitionStop s = .next t ∧ (t.part p).stop = v.getLsbD 1 ∧ (t.part p).en = true ∧ (t.part p).err = false)
    ∧ (∀ e v, s.input = some (.assignmentWrite e v) → e < 160 → v.getLsbD 15 = false → lockedPart s (s.assign e).own0 = false →
      (s.assign e).split = false → (bitsOf v 6 0 < 64 ∨ bitsOf v 6 0 = 127) →
      let a := s.assign e
      let free := (∀ c ∈ s.crews, c.2.holds e none = false) ∧ (a.own0 < 64 → (s.part a.own0).stop = true)
      (a.own0 ≠ bitsOf v 6 0 → free →
        ∃ t, exec .assignmentWrite s = .next t ∧ t.assign e = { own0 := bitsOf v 6 0, scrub := true })
      ∧ (a.own0 ≠ bitsOf v 6 0 → ¬ free → ∃ t, exec .assignmentWrite s = .next t ∧ t.assign e = { a with refused := true }))
    ∧ (∀ e, s.input = some (.scrubComplete (.entry e)) → (s.assign e).scrub = true →
      ∃ t, exec .scrubComplete s = .next t ∧ t.assign e = { s.assign e with scrub := false }
        ∧ (e < 160 → (∀ c ∈ s.crews, c.2.holds e none = false) → ∀ a < 2 ^ 32, t.home (laneKey e a) = 0))
    ∧ (∀ p, s.input = some (.scrubComplete (.partition p)) → (s.part p).scrubbing = true → (∀ c, tget 0 s.chOwner c ≠ p + 1) →
      ∃ t, exec .scrubComplete s = .next t ∧ (t.part p).scrubbing = false ∧ (∀ a < 2 ^ 54, t.home (frameKey p a) = 0)
        ∧ ∀ c < 48, (s.part p).chmask.getLsbD c = true → tget 0 t.chOwner c = p + 1)
    ∧ (∀ v, s.input = some (.memoryZero v) → ∃ t, exec .memoryZero s = .next t ∧ t.mem = s.mem ∧ t.hyp.mzissued = s.hyp.mzissued + 1
      ∧ t.hyp.mzwork = s.hyp.mzwork ++ [(bitsOf v 13 8, s.hyp.mzaddr.toNat, bitsOf v 63 32)])
    ∧ (∀ p a n rest, s.input = some .memoryZeroDone → s.hyp.mzwork = (p, a, n) :: rest →
      let len := min (65536 * n) ((s.part p).frames * 65536 - a)
      ∃ t, exec .memoryZeroDone s = .next t ∧ t.hyp.mzdone = s.hyp.mzdone + 1 ∧ t.hyp.mzwork = rest
        ∧ ∀ k, t.home k = if frameKey p a ≤ k ∧ k < frameKey p a + len then 0 else s.home k)
    ∧ (∀ n v, s.input = some (.vfEnable n v) → (s.vf n).lock = false →
      let p := bitsOf v 14 8
      let s1 := s.modVf n (vfFields v)
      (vfRefused s1 n = false → ∃ t, exec .vfEnable s = .next t
        ∧ t.vf n = { s.vf n with en := true, stash := bitsOf v 39 32, part := p } ∧ (t.part p).err = false)
      ∧ (vfRefused s1 n = true → p < 64 → ∃ t, exec .vfEnable s = .next t ∧ (t.vf n).en = (s.vf n).en ∧ (t.part p).err = true ∧ (t.part p).reason = 9))
    ∧ (∀ n v, s.input = some (.vfDisable n v) → (s.vf n).lock = false →
      let p := (s.vf n).part
      let live := ∃ e ∈ s.crews, (s.grid e.2.grid).vf = n ∧ e.2.state ≠ .ended
      (¬ live → ∃ t, exec .vfDisable s = .next t ∧ t.vf n = { s.vf n with en := false } ∧ (t.part p).err = false)
      ∧ (live → p < 64 → ∃ t, exec .vfDisable s = .next t ∧ t.vf n = s.vf n ∧ t.part p = { s.part p with err := true, reason := 10 }))
    ∧ (∀ n, s.input = some (.vfpriClear n) → (s.vf n).lock = false →
      ∃ t, exec .vfpriClear s = .next t ∧ t.vf n = { s.vf n with stale := 0 } ∧ t.parts = s.parts)
    ∧ ∀ i n v, (i = .vfEnable ∧ s.input = some (.vfEnable n v) ∨ i = .vfDisable ∧ s.input = some (.vfDisable n v)
        ∨ i = .vfpriClear ∧ s.input = some (.vfpriClear n)) → (s.vf n).lock = true → (s.vf n).part < 64 →
      ∃ t, exec i s = .next t ∧ t.vfs = s.vfs
        ∧ t.part (s.vf n).part = { s.part (s.vf n).part with err := true, reason := 8 }

/-- R427, R428, R432 to R434, R436, R439, R440, R442 to R444: what the events of error reporting and repair do. A bank takes a
corrected error while it is empty and counts it, and an uncorrectable one over anything but another; poison stands where the error
struck, and a struck front end ends its crew; notices leave as their ring is read; a replay is dispatched and compared; map-out
requests are posted or refused, and take effect on a drained core; the Steward's watchdog starts Casien again. The operands of
events are the model's (log entry 4), as are replays (55), map-out queues (57) and poison seen past a buffered store (58). -/
def Obligations.RasEvents : Prop :=
  ∀ s : State,
    (∀ b r, s.input = some (.errorCorrected b r) →
      let x := bank s b
      let n := min (x.cecnt + 1) (2 ^ 32 - 1)
      ∃ t, exec .errorCorrected s = .next t
        ∧ bank t b = (if x.valid then { x with cecnt := n } else { x with
          valid := true, ue := false, cecnt := n, addr := r.addr, struct := r.struct, group := r.group, part := r.part, synd := r.synd
          time := s.cycle })
        ∧ (s.ras.cethr = n → ringFull s.ras.casienRing = false → s.ras.casienRing.waiting = [] →
          t.ras.casienRing.head = (s.ras.casienRing.head + 1) % 256)
        ∧ (s.ras.cethr ≠ n → t.ras = s.ras ∧ t.mem = s.mem))
    ∧ (∀ b r what, s.input = some (.errorUncorrectable b r what) → (∀ h k, what ≠ .heapEntry h k) → r.struct ≠ 6 →
      let x := bank s b
      let n := min (x.uecnt + 1) 65535
      ∃ t, exec .errorUncorrectable s = .next t
        ∧ bank t b = (if x.valid = true ∧ x.ue = true then { x with uecnt := n, ovfUe := true } else { x with
          valid := true, ue := true, uecnt := n, addr := r.addr, struct := r.struct, group := r.group, part := r.part, synd := r.synd
          time := s.cycle })
        ∧ (∀ k, what = .memory k → k / 64 ∈ t.mpois)
        ∧ (∀ sid v row, what = .vrow sid v row → 32 * v + row ∈ (t.strand sid).vpois)
        ∧ (∀ sid v, what = .sreg sid v → v ≠ 0 → v ∈ (t.strand sid).spois)
        ∧ (∀ sid k row, what = .trow sid k row → 64 * k + row ∈ (t.strand sid).tpois)
        ∧ (∀ sid k row, what = .zrow sid k row → 64 * k + row ∈ (t.strand sid).zpois)
        ∧ (∀ sid, what = .frontEnd sid → (s.strand sid).onSteward = false → (s.crew (s.strand sid).crew).state ≠ .ended →
          let c := t.crew (s.strand sid).crew
          c.state = .ended ∧ c.status = 1 ∧ c.cause1 = 0x0B ∧ c.causeStrand = (s.strand sid).index))
    ∧ (∀ k, s.input = some (.patrol k true) → exec .patrol s = .next s)
    ∧ (∀ k, s.input = some (.patrol k false) → ∃ t, exec .patrol s = .next t ∧ k / 64 ∈ t.mpois
      ∧ (bank t (patrolBank s k).1).valid = true ∧ (bank t (patrolBank s k).1).ue = true)
    ∧ (∀ b, s.input = some (.ebstatClear b) → ∃ t, exec .ebstatClear s = .next t ∧ bank t b = {} ∧ ∀ c, c ≠ b → bank t c = bank s c)
    ∧ (∀ v, s.input = some (.noticeTailWrite false v) →
      (s.ras.casienRing.waiting = [] → ∃ t, exec .noticeTailWrite s = .next t
        ∧ t.ras = { s.ras with casienRing := { s.ras.casienRing with tail := bitsOf v 39 32 } })
      ∧ ∀ n, s.ras.casienRing.waiting = [n] → (s.ras.casienRing.head + 1) % 256 ≠ bitsOf v 39 32 →
        ∃ t, exec .noticeTailWrite s = .next t ∧ t.ras.casienRing.waiting = [] ∧ t.ras.casienRing.head = (s.ras.casienRing.head + 1) % 256)
    ∧ (∀ v, s.input = some (.noticeTailWrite true v) → s.ras.hostRing.waiting = [] → ∃ t, exec .noticeTailWrite s = .next t
      ∧ t.ras = { s.ras with hostRing := { s.ras.hostRing with tail := bitsOf v 39 32 } })
    ∧ (s.input = some .ndropClear → ∃ t, exec .ndropClear s = .next t ∧ t.ras.casienRing.drop = 0 ∧ t.ras.hostRing.drop = 0
      ∧ t.ras.casienRing.head = s.ras.casienRing.head ∧ t.ras.hostRing.head = s.ras.hostRing.head)
    ∧ (∀ cid core, s.input = some (.assayReplayDispatch cid core) →
      let c := s.crew cid
      let g := s.grid c.grid
      c.audited = true → c.state = .ended → (∀ e ∈ s.assayer.replays, e.1 ≠ cid) → core ∈ replayCores s g.part c.auditCore →
      dispatches s g.part = true → turnOk s g.part g.vf = true → (∀ e ∈ s.queues, e.2.part = g.part → readyOf s e.1 = none) →
      ∃ t, exec .assayReplayDispatch s = .next t ∧ t.assayer.replays = s.assayer.replays ++ [(cid, core)])
    ∧ (∀ cid core r, s.input = some (.assayCompare cid r) → s.assayer.replays.find? (·.1 = cid) = some (cid, core) →
      let s0 := (s.crew cid).auditS0
      let up (n : Nat) : Nat := (n + 1) % 2 ^ 32
      ∃ t, exec .assayCompare s = .next t ∧ t.assayer.replays = s.assayer.replays.filter (·.1 ≠ cid)
        ∧ t.assayer.pass = (if r = .signature s0 then up s.assayer.pass else s.assayer.pass)
        ∧ t.assayer.abandon = (if r = .abandoned then up s.assayer.abandon else s.assayer.abandon)
        ∧ t.assayer.mismatch = (if r = .signature s0 ∨ r = .abandoned then s.assayer.mismatch else up s.assayer.mismatch))
    ∧ (∀ n, s.input = some (.ascntClear n) → ∃ t, exec .ascntClear s = .next t
      ∧ (n.val = 0 → t.assayer = { s.assayer with pass := 0, sampled := 0 })
      ∧ (n.val = 1 → t.assayer = { s.assayer with skip := 0, mismatch := 0 })
      ∧ (n.val = 2 → t.assayer = { s.assayer with abandon := 0 }))
    ∧ (∀ i op core g, (i = .mapoutGroup ∧ s.input = some (.mapoutGroup core g) ∧ op = 0 ∨ i = .retireCore ∧ s.input = some (.retireCore core) ∧ op = 1 ∧ g = 0
        ∨ i = .restoreCore ∧ s.input = some (.restoreCore core) ∧ op = 2 ∧ g = 0) →
      let refused := 415 < core ∨ (op = 0 ∧ (160 ≤ core ∨ (s.coreReg core).mout.getLsbD g = true))
      (¬ refused → ∃ t, exec i s = .next t ∧ (t.coreReg core).req = (s.coreReg core).req ++ [(op, g)] ∧ t.ras.mapErr = false)
      ∧ (refused → ∃ t, exec i s = .next t ∧ t.cores = s.cores ∧ t.ras.mapErr = true))
    ∧ (∀ core op g, s.input = some (.mapoutApply core) → (s.coreReg core).req = [(op, g)] → op ≤ 2 →
      (∀ e ∈ s.crews, e.2.core = core → e.2.onCore = false ∧ (e.2.lazy = false ∨ e.2.state = .ended)) →
      let c := s.coreReg core
      let m := c.mout ||| BitVec.ofNat 8 (2 ^ g)
      ∃ t, exec .mapoutApply s = .next t ∧ (t.coreReg core).req = []
        ∧ (t.coreReg core).mout = (if op = 0 then m else if op = 2 then 0 else c.mout)
        ∧ (t.coreReg core).retired = (if op = 0 then c.retired || m = 0xFF else op = 1))
    ∧ (s.input = some .stwdogWrite → ∃ t, exec .stwdogWrite s = .next t ∧ t.ras = { s.ras with stwdogAt := s.cycle })
    ∧ ∀ c g, s.input = some .stewardWatchdogExpire → s.ras.stwdogAt + 94000000 ≤ s.cycle → bootImages s.flash = some (c, g) →
      ∃ t, exec .stewardWatchdogExpire s = .next t ∧ t.ras.stwdogAt = s.cycle ∧ t.plat.steward = []
        ∧ t.strand 0 = { core := 416, run := .running, priv := .hyp, pc := c.entry }
        ∧ (∀ i, 1 ≤ i → i ≤ 3 → t.strand i = {}) ∧ ∀ i, 4 ≤ i → t.strand i = s.strand i

/-- R393, R448, R449, R453 to R463, R465, R466, R468, R470 to R472, R409: what the platform's events do. A trigger latches a
snapshot once, sources of one cycle join in FIRED, and a match of LMCYC fires once; power writes are checked against the limit, and grants follow from demand; links come back, retrain and fail; a
remote access is performed here or refused; a reset boots the images, and a loss of power leaves flash; a Steward core starts a
program; a measurement is signed; the debug function reads, writes, stops and releases only where it is unlocked. The operands of
events are the model's (log entry 4), as are snapshots (56), links (59), power (60), boot and reports (61), debug accesses (62)
and refused starts (63). -/
def Obligations.PlatformEvents : Prop :=
  ∀ s : State,
    (s.input = some .limnerArm → ∃ t, exec .limnerArm s = .next t ∧ t.limner = { s.limner with armed := true, held := false })
    ∧ (∀ i (f : BitVec 4), (i = .limnerFire ∧ s.input = some .limnerFire ∧ f = 1
        ∨ i = .limnerCycleMatch ∧ s.input = some .limnerCycleMatch ∧ f = 4 ∧ s.limner.ahead = true ∧ s.limner.cyc.toNat ≤ s.cycle
        ∨ i = .limnerLinkTrigger ∧ s.input = some .limnerLinkTrigger ∧ f = 8) →
      let l := { s.limner with ahead := s.limner.ahead && f ≠ 4 }
      (s.limner.src &&& f = 0 → exec i s = .next { s with limner := l })
      ∧ (s.limner.src &&& f ≠ 0 → s.limner.armed = false → ¬ (s.limner.held = true ∧ s.limner.time = s.cycle) → ∃ t, exec i s = .next t
        ∧ t.limner = { l with missed := min (s.limner.missed + 1) (2 ^ 32 - 1), fired := f })
      ∧ (s.limner.src &&& f ≠ 0 → s.limner.armed = false → s.limner.held = true → s.limner.time = s.cycle → ∃ t, exec i s = .next t
        ∧ t.limner = { l with fired := s.limner.fired ||| f })
      ∧ (s.limner.src &&& f ≠ 0 → s.limner.armed = true → ∃ t, exec i s = .next t
        ∧ t.limner.armed = false ∧ t.limner.held = true ∧ t.limner.fired = f ∧ t.limner.ahead = l.ahead ∧ t.limner.time = s.cycle ∧ t.limner.missed = s.limner.missed
        ∧ t.outbox = s.outbox ++ (if s.limner.bcast then [.trigger] else [])
        ∧ (∀ b < 572, tget 0 t.limner.snap (32 * b) = BitVec.ofNat 64 s.cycle
          ∧ tget 0 t.limner.snap (32 * b + 1) = BitVec.ofNat 64 (ebstat (bank s b)))
        ∧ ∀ c < 416, ∀ k < 16, ∀ m, occupants s c = [(k, m)] → tget 0 t.limner.snap (32 * c + 2 + k) = m.pc))
    ∧ (∀ v, s.input = some (.pwrlimWrite v) →
      let n := min 1800 (max 900 (bitsOf v 10 0))
      (200 + shares s ≤ n → ∃ t, exec .pwrlimWrite s = .next t ∧ t.plat = { s.plat with limit := n, err := false })
      ∧ (n < 200 + shares s → ∃ t, exec .pwrlimWrite s = .next t ∧ t.plat = { s.plat with err := true }))
    ∧ (∀ p v, s.input = some (.pshareWrite p v) →
      let n := bitsOf v 10 0
      let others := ((s.plat.pshare.filter fun e => e.1 ≠ p && !(s.part e.1).elastic).map (·.2)).sum
      twf 0 s.plat.pshare = true → (s.part p).elastic = false →
      ((s.part p).en = false → 200 + others + n ≤ s.plat.limit →
        ∃ t, exec .pshareWrite s = .next t ∧ tget 0 t.plat.pshare p = n ∧ t.plat.err = false)
      ∧ ((s.part p).en = true ∨ s.plat.limit < 200 + others + n →
        ∃ t, exec .pshareWrite s = .next t ∧ t.plat = { s.plat with err := true }))
    ∧ (∀ c w, s.input = some (.powerInterval [(c, w)]) → (s.cores.map (·.1)).Nodup → s.plat.hot = false → 0 < w →
      let o := (s.assign (State.entryOf c)).own0
      let b := if o < 64 ∧ (s.part o).elastic = false then tget 0 s.plat.pshare o else s.plat.limit - 200 - shares s
      ∃ t, exec .powerInterval s = .next t ∧ (t.coreReg c).demand = w ∧ (t.coreReg c).grant = min w b
        ∧ (t.coreReg c).skip = min 15 ((16 * (w - b) + w - 1) / w) ∧ ∀ k, k ≠ c → (t.coreReg k).grant = 0 ∧ (t.coreReg k).skip = 0)
    ∧ (s.input = some .thermalTrip → s.plat.hot = false → ∃ t, exec .thermalTrip s = .next t
      ∧ t.plat = { s.plat with hot := true, therm := min (s.plat.therm + 1) (2 ^ 32 - 1) })
    ∧ (s.input = some .thermalClear → ∃ t, exec .thermalClear s = .next t ∧ t.plat = { s.plat with hot := false })
    ∧ (∀ p ok, s.input = some (.flitReceive p ok) →
      let x := tget {} s.ports p
      ∃ t, exec .flitReceive s = .next t
        ∧ tget {} t.ports p = (if ok then { x with received := x.received + 1, up := true, retrainFrom := none }
          else { x with received := x.received + 1, retries := x.retries + 1 })
        ∧ t.outbox = s.outbox ++ (if ok then [] else [.flitRetry p])
        ∧ ∀ r, ok = true → s.rstores = [r] → s.t2lost = [] → lostDevice { s with ports := t.ports } r.key = none →
          t.rstores = [] ∧ ∀ j < r.bytes.length, t.home (r.key + j) = r.bytes.getD j 0)
    ∧ (∀ p, s.input = some (.portRetrain p) → ∃ t, exec .portRetrain s = .next t
      ∧ tget {} t.ports p = { tget {} s.ports p with up := false, retrainFrom := some s.cycle })
    ∧ (∀ p c, s.input = some (.portRetrainTimeout p) → p < 24 → (tget {} s.ports p).retrainFrom = some c → c + 940000 ≤ s.cycle →
      ∃ t, exec .portRetrainTimeout s = .next t ∧ (tget {} t.ports p).retrainFrom = none
        ∧ (∀ d, (tget 0 t.plat.routes d).getLsbD p = false) ∧ (bank t (540 + p)).valid = true ∧ (bank t (540 + p)).ue = true)
    ∧ (∀ dev part off kind, s.input = some (.remoteAccess dev part off kind) →
      (admitted s dev part off = none → ∃ t, exec .remoteAccess s = .next t ∧ t.outbox = s.outbox ++ [.remoteReply dev none] ∧ t.mem = s.mem)
      ∧ ∀ k, admitted s dev part off = some k → s.t2lost = [] →
        (∀ n, kind = .load n → s.poisoned k n = false → ∃ t, exec .remoteAccess s = .next t ∧ t.mem = s.mem
          ∧ t.outbox = s.outbox ++ [.remoteReply dev (some (leVal (s.homeBytes k n)))])
        ∧ (∀ b, kind = .store b → ∃ t, exec .remoteAccess s = .next t ∧ t.outbox = s.outbox ++ [.remoteReply dev (some 0)]
          ∧ ∀ x, t.home x = if k ≤ x ∧ x < k + b.length then b.getD (x - k) 0 else s.home x)
        ∧ ∀ dbl n (f : Nat → Nat), n = (if dbl then 8 else 4) →
          ((∃ op v, kind = .amo op dbl v ∧ f = fun x => Spec.atomicNew op n x (v % 2 ^ (8 * n)))
            ∨ ∃ a b, kind = .cas dbl a b ∧ f = fun x => if x = a % 2 ^ (8 * n) then b % 2 ^ (8 * n) else x) →
          s.poisoned k n = false →
          let old := leVal (s.homeBytes k n)
          ∃ t, exec .remoteAccess s = .next t ∧ t.outbox = s.outbox ++ [.remoteReply dev (some old)]
            ∧ (∀ j < n, t.home (k + j) = BitVec.ofNat 8 (f old / 256 ^ j)) ∧ ∀ x, (x < k ∨ k + n ≤ x) → t.home x = s.home x)
    ∧ (∀ sid dev va, s.input = some (.remoteLoadTimeout sid) →
      let u := switchTo sid s
      u.me.wait = some (.remote dev va) → u.me.waitFrom + 940000 ≤ s.cycle → Handled u →
      ∃ t, exec .remoteLoadTimeout s = .next t
        ∧ Entered u (switchTo sid t) (if u.me.line.isSome then u.me.ir else u.me.via) { cause := .link, detail := dev, addr := va })
    ∧ (∀ j r, s.input = some (.remoteStoreTimeout j) → s.rstores[j]? = some r → r.at_ + 940000 ≤ s.cycle →
      ∃ t, exec .remoteStoreTimeout s = .next t ∧ t.rstores = s.rstores.eraseIdx j ∧ t.linkFail = s.linkFail ++ [(r.sid, r.dev, r.va)])
    ∧ (∀ p, s.input = some (.cxlDeviceFailure p) →
      (s.plat.t2kind ≠ 1 → exec .cxlDeviceFailure s = .next s)
      ∧ (s.plat.t2kind = 1 → ∃ t, exec .cxlDeviceFailure s = .next t ∧ p % 2 ∈ t.t2lost
        ∧ (bank t (565 + p % 2)).valid = true ∧ (bank t (565 + p % 2)).ue = true))
    ∧ (s.input = some .deviceReset →
      (bootImages s.flash = none → ∃ t, exec .deviceReset s = .next t ∧ t.parts = [] ∧ t.crews = [] ∧ t.flash = s.flash ∧ (bank t 567).valid = true)
      ∧ ∀ c g, bootImages s.flash = some (c, g) → ∃ t, exec .deviceReset s = .next t ∧ t.parts = [] ∧ t.crews = [] ∧ t.vfs = [] ∧ t.powered = true
        ∧ t.strand 0 = { core := 416, run := .running, priv := .hyp, pc := c.entry } ∧ (∀ i, i ≠ 0 → t.strand i = {})
        ∧ t.plat.limit = min 1800 (max 900 g.plimdef) ∧ t.plat.devid = g.devid ∧ t.plat.pod = g.pod ∧ t.plat.t2kind = g.t2kind
        ∧ t.hyp.t2pool = (if g.t2kind = 1 ∨ g.t2kind = 2 then min 3814 g.t2gib else 0)
        ∧ t.flash.casienMin = c.version ∧ t.flash.configMin = g.version ∧ (∀ k < 2 ^ 60, t.home k = 0)
        ∧ ∀ j < c.code.length, t.home (2 ^ 60 + j) = c.code.getD j 0)
    ∧ (s.input = some .powerLoss → ∃ t, exec .powerLoss s = .next t ∧ t.powered = false ∧ t.flash = s.flash ∧ t.crews = [] ∧ t.parts = []
      ∧ (∀ k < 2 ^ 61, t.home k = 0) ∧ ∀ k, 2 ^ 61 ≤ k → k < 2 ^ 63 → t.home k = s.home k)
    ∧ (∀ c v, s.input = some (.stewardStart c v) → 1 ≤ c → c ≤ 3 →
      let r := tget {} s.plat.steward c
      let da := bitsOf v 63 6 * 64
      let x : Ctx := { vf := 0, part := 0, app := false, steward := true }
      (r.busy = true → ∃ t, exec .stewardStart s = .next t ∧ (tget {} t.plat.steward c).err = true ∧ t.strand c = s.strand c)
      ∧ ∀ b d, r.busy = false → fetchBytes s x da 64 [] = .bytes b → parseDesc b = some d → stewardDecl d = true →
        ∃ t, exec .stewardStart s = .next t
          ∧ tget {} t.plat.steward c = { r with desc := word da, code := 0, err := false, fault := false, done := false, busy := true }
          ∧ t.strand c = { core := 416 + c, run := .running, priv := .hyp, pc := d.entry, regs := tset 0 [] 1 r.args, trapvec := r.vec })
    ∧ (∀ v block, s.input = some (.spdmRequest v block) → s.flash.aliasLeaf < 1024 → ∃ t, exec .spdmRequest s = .next t
      ∧ t.flash = { s.flash with aliasLeaf := s.flash.aliasLeaf + 1 }
      ∧ ∃ data sig, t.outbox = s.outbox ++ [.spdm v block s.flash.aliasLeaf (data ++ sig)] ∧ data = measurement s v block)
    ∧ (∀ v, s.input = some (.debugUnlock v) → v < 64 → ∃ t, exec .debugUnlock s = .next t ∧ t.plat.unlock.getLsbD v = true
      ∧ ∀ w, w ≠ v → t.plat.unlock.getLsbD w = s.plat.unlock.getLsbD w)
    ∧ (∀ v, s.input = some (.debugRelock v) → v < 64 → ∃ t, exec .debugRelock s = .next t ∧ t.plat.unlock.getLsbD v = false
      ∧ (∀ w, w ≠ v → t.plat.unlock.getLsbD w = s.plat.unlock.getLsbD w)
      ∧ ∀ e ∈ s.crews, (s.grid e.2.grid).vf = v → s.crew e.1 = e.2 → e.2.state ≠ .ended → (t.crew e.1).dbgHold = false)
    ∧ (∀ v, s.input = some (.dbgctlStop v) →
      (s.plat.unlock.getLsbD v = false → exec .dbgctlStop s = .next s)
      ∧ (s.plat.unlock.getLsbD v = true → (∀ e ∈ s.crews, (s.grid e.2.grid).vf = v → e.2.state ≠ .resident) →
        ∃ t, exec .dbgctlStop s = .next t
          ∧ ∀ e ∈ s.crews, (s.grid e.2.grid).vf = v → s.crew e.1 = e.2 → e.2.state ≠ .ended → (t.crew e.1).dbgHold = true))
    ∧ (∀ v, s.input = some (.dbgctlCont v) →
      (s.plat.unlock.getLsbD v = false → exec .dbgctlCont s = .next s)
      ∧ (s.plat.unlock.getLsbD v = true → ∃ t, exec .dbgctlCont s = .next t
        ∧ ∀ e ∈ s.crews, (s.grid e.2.grid).vf = v → s.crew e.1 = e.2 → e.2.state ≠ .ended → (t.crew e.1).dbgHold = false))
    ∧ (∀ k, s.input = some .dbgdataRead →
      let v := s.plat.dbgvf
      let a := s.plat.dbgaddr.toNat
      (s.plat.unlock.getLsbD v = false → exec .dbgdataRead s = .next s)
      ∧ (s.plat.unlock.getLsbD v = true → a % 8 = 0 → translate s (debugCtx s v) .rd a = .ok (.cell k) → s.poisoned k 8 = false →
        ∃ t, exec .dbgdataRead s = .next t ∧ t.plat = { s.plat with dbgdata := BitVec.ofNat 64 (leVal (s.homeBytes k 8)) } ∧ t.mem = s.mem))
    ∧ (∀ w k, s.input = some (.dbgdataWrite w) →
      let v := s.plat.dbgvf
      let a := s.plat.dbgaddr.toNat
      let saved := (s.vf v).savebase.toNat ≤ a ∧ a < (s.vf v).savebase.toNat + (s.vf v).savesize * 65536
      (s.plat.unlock.getLsbD v = false ∨ saved → exec .dbgdataWrite s = .next s)
      ∧ (s.plat.unlock.getLsbD v = true → a % 8 = 0 → ¬ saved → translate s (debugCtx s v) .wr a = .ok (.cell k) → s.t2lost = [] →
        ∃ t, exec .dbgdataWrite s = .next t ∧ (∀ j < 8, t.home (k + j) = (leBytes 8 w.toNat).getD j 0)
          ∧ ∀ x, (x < k ∨ k + 8 ≤ x) → t.home x = s.home x))
    ∧ ∀ sp off v, s.input = some (.registerWrite sp off v) →
      (∀ f, sp = .vf f → off = 0 → ∃ t, exec .registerWrite s = .next t ∧ t.vf f = { s.vf f with s1root := word (bitsOf v 55 11 * 2 ^ 11) })
      ∧ (∀ f, sp = .vf f → off = 0x10 → ∃ t, exec .registerWrite s = .next t ∧ t.vf f = { s.vf f with savesize := bitsOf v 39 16 })
      ∧ (sp = .hyp → off = 0x23080 → ∃ t, exec .registerWrite s = .next t ∧ t.hyp = { s.hyp with s2ring := word (bitsOf v 63 12 * 4096) })
      ∧ (sp = .ras → off = 0x14000 → ∃ t, exec .registerWrite s = .next t ∧ t.ras = { s.ras with gangtag := v })
      ∧ (sp = .ras → off = 0x10000 → ∃ t, exec .registerWrite s = .next t
        ∧ t.ras = { s.ras with cethr := bitsOf v 31 16, automap := v.getLsbD 0 })
      ∧ (∀ e < 64, sp = .platform → off = 0x2000 + 16 * e + 8 → ∃ t, exec .registerWrite s = .next t
        ∧ tget {} t.plat.exports e = { tget {} s.plat.exports e with base := bitsOf v 63 32, size := bitsOf v 31 0 })
      ∧ (sp = .debug → off = 0 → ∃ t, exec .registerWrite s = .next t ∧ t.plat = { s.plat with dbgvf := bitsOf v 5 0 })
      ∧ (sp = .debug → off = 0x18 → s.plat.unlock.getLsbD s.plat.dbgvf = true →
        ∃ t, exec .registerWrite s = .next t ∧ t.plat = { s.plat with dbgaddr := v })

/-! ### Encoding, steps, memory, reset -/

/-- R86 to R89, R102 and the encoding tables: words of the manual's own listings read as the instructions that it prints beside
them. -/
def Obligations.DecodeWords : Prop :=
  decodeTableWord 48 (0x9010 + 0x0C414000 * 2 ^ 16) = some (.mul false 3 4 5)
    ∧ decodeTableWord 80 (0xC020 + 0x20800000 * 2 ^ 16 + 0xFFFFFFFF * 2 ^ 48) = some (.addi false 8 8 0xFFFFFFFF)
    ∧ decodeTableWord 48 (0x8182 + 0x20000001 * 2 ^ 16) = some (.bne 8 0 0 1)
    ∧ decodeTableWord 32 (0x4208 + 0x00E0 * 2 ^ 16) = some (.idle 14)
    ∧ decodeTableWord 80 (0xC281 + 0x00824600 * 2 ^ 16 + 8 * 2 ^ 48) = some (.stImm .d false false .strand 8 9 8)
    ∧ decodeTableWord 48 (0x8400 + 0x10518B00 * 2 ^ 16) = some (.vfadd .f32 .frm 4 5 (.vec 6) 1)
    ∧ decodeTableWord 80 (0xC606 + 0x10615100 * 2 ^ 16 + 0x1C000000 * 2 ^ 48) = some (.vgatherBounded .i32 false 4 6 5 7 2)
    ∧ decodeTableWord 48 (0x8705 + 0x08004280 * 2 ^ 16) = some (.mmaO .bf16 false false false 2 0 1)
    ∧ decodeTableWord 80 (0xC780 + 0x00A2C000 * 2 ^ 16 + 0x30000033 * 2 ^ 48) = some (.tcopy .a true 3 0 10 11 12)
    ∧ decodeTableWord 48 (0x87C1 + 0x00D30004 * 2 ^ 16) = some (.gadd true 0 0 13 12)
    ∧ decodeTableWord 16 0x0206 = some .yield

/-- Every well-formed instruction, with every operand and every stall count, is what its words decode to, and the words after it
are left (R82, R86 to R89, R102). -/
def Obligations.EncodeThenDecode : Prop :=
  ∀ (c : Coding.Coded) (rest : List Half), c.sc < 8 → c.insn.wellFormed = true →
    Coding.decodeHalfs (Coding.encode c ++ rest) = some (.ok c, rest)

/-- Words that decode are the words of the one well-formed instruction that they decode to: every reserved bit is zero, and no two
encodings are one instruction (R88, R102, R103). -/
def Obligations.DecodeThenEncode : Prop :=
  ∀ (l rest : List Half) (c : Coding.Coded), Coding.decodeHalfs l = some (.ok c, rest) →
    c.sc < 8 ∧ c.insn.wellFormed = true ∧ Coding.encode c ++ rest = l

/-- A step. A posted write of the host is performed first. Without power nothing acts. An event that has arrived comes next, and is the
meaning of its row with the event at hand. Otherwise, where the current strand can move, its head is executed: the line of its PC is
fetched where it is not in use (R91, R93), a head whose words decode to an instruction is that instruction's meaning, where nothing of
the strand is outstanding that the head may have to wait for, and a head whose words do not traps ILLEGAL_INSN with the smallest reason
of R103 that applies (R104); on the Steward a withheld head has DETAIL 7 (R4). What a step counts beside this, and that host writes and
events come first, is the model's own (log entries 4 and 13). -/
def Obligations.StepRuns : Prop :=
  ∀ s : State,
    (∀ k b rest, s.posted = (k, b) :: rest → ∃ t, step s = .next t ∧ t.posted = rest ∧ t.events = s.events
      ∧ (s.powered = true → s.t2lost = [] → (∀ e ∈ s.vfs, e.2.windows = []) → ∀ x, t.home x = if k ≤ x ∧ x < k + b.length then b.getD (x - k) 0 else s.home x)
      ∧ (s.powered = false → t.mem = s.mem))
    ∧ (s.powered = false → s.posted = [] → s.events.head? ≠ some .deviceReset → step s = .fault .noPower)
    ∧ (∀ e rest, s.posted = [] → s.events = e :: rest → s.powered = true ∨ e = .deviceReset →
      step s = exec e.row { s with events := rest, input := some e })
    ∧ (s.powered = true → s.posted = [] → s.events = [] →
      (∀ sid rest, s.schedule = sid :: rest → step s = .next (switchTo sid { s with schedule := rest }))
      ∧ ∀ (l : LineBuf) (v : State), s.schedule = [] → s.me.run = .running → s.me.wait = none → s.me.due = none → s.turn % 64 ≠ 63 →
        let s1 := { s with turn := s.turn + 1 }
        let va := s.me.pc.toNat / 64 * 64
        (s.me.line = some l ∧ v = s1 ∨ s.me.line = none ∧ fetchLine s1 va = .line l.halfs
          ∧ ∃ k, translate s1 s1.ctx .fetch va = .ok (.cell k) ∧ v = touch k s1) →
        l.addr = word va → 1 ≤ bitsOf s.me.pc 5 0 → bitsOf s.me.pc 5 0 ≤ headCount l.halfs →
        let ir := headAt l.halfs (bitsOf s.me.pc 5 0)
        let u := { v with me := { v.me with line := some l, ir := ir } }
        let f := Coding.splitFields ir.head.toNat ir.tail.toNat
        (∀ c, Coding.decodeHead ir.head.toNat ir.tail.toNat = .ok c → (s.me.onSteward = true → f.maj ≤ 0x2F ∧ (f.maj = 0x21 → f.fn = 11)) →
          s.me.stopReq = false → s.me.viq = [] → s.colls = [] → s.myCrew.landings = [] →
          (tracked c.insn = true → footprints s s.me.core < 256) → step s = exec c.insn u)
        ∧ (∀ r, Coding.decodeHead ir.head.toNat ir.tail.toNat = .error r → s.me.onSteward = false → Handled s →
          ∃ t, step s = .next t
            ∧ Takes u t { cause := .illegalInsn, detail := if stateReserved s.me f = true then min 4 r.detail else r.detail })
        ∧ (s.me.onSteward = true → (f.maj > 0x2F ∨ (f.maj = 0x21 ∧ f.fn ≤ 10)) → Handled s →
          ∃ t, step s = .next t ∧ Takes u t { cause := .illegalInsn, detail := 7 }))

/-- Every step keeps memory in its canonical form: addresses that rise, and no byte listed that an unlisted address reads as. The
form is the model's own (log entry 2). -/
def Obligations.MemoryCanonical : Prop :=
  ∀ s t : State, Memory.wf s.mem = true → step s = .next t → Memory.wf t.mem = true

/-- What reset leaves. Of the whole device: nothing is resident, assigned, enabled or recorded, and memory lists nothing. Of a
strand: the reset values of the field maps of R35, R37, R38, R41 and R45, as `mfs` reads them. Where no field map gives a value
the model's choice is log entry 1. -/
def Obligations.ResetState : Prop :=
  let s := State.reset
  s.cycle = 0 ∧ Memory.wf s.mem = true ∧ (∀ k, s.home k = 0)
    ∧ (∀ i, (s.strand i).run = .absent) ∧ s.crews = [] ∧ s.grids = [] ∧ s.gangs = []
    ∧ (∀ p, (s.part p).en = false ∧ (s.part p).err = false ∧ (s.part p).reason = 0)
    ∧ (∀ v, (s.vf v).en = false ∧ (s.vf v).lock = false)
    ∧ (∀ q, (s.queue q).en = false) ∧ (∀ b, (bank s b).valid = false)
    ∧ (∀ e, (s.assign e).own0 = 127 ∧ (s.assign e).split = false)
    ∧ (∀ c, (s.coreReg c).mout = 0 ∧ (s.coreReg c).retired = false)
    ∧ (∀ e, tget {} s.plat.exports e = {}) ∧ s.plat.unlock = 0 ∧ s.plat.therm = 0 ∧ s.plat.err = false
    ∧ s.freeze.state = .idle ∧ s.assayer.en = false ∧ s.limner.armed = false
    ∧ readSys s 1 = 0 ∧ readSys s 2 = 0x2002 ∧ readSys s 3 = 0 ∧ readSys s 4 = 0 ∧ readSys s 5 = 0 ∧ readSys s 6 = 0
    ∧ (∀ k < 8, readSys s (8 + k) = 0 ∧ readSys s (0x10 + k) = 0x60000000)
    ∧ (∀ k < 6, readSys s (0x100 + k) = 0) ∧ ∀ k < 16, readSys s (0x40 + k) = 0 ∧ readSys s (0x140 + k) = 0
end

