-- ==== Sys2Proof/Laws/State.lean ====
section
/-! SUPPORT. One lemma for each field and each update of State and of a strand: what the update leaves, and what it writes. -/

namespace Sys2Proof.Machine
open Sys2Proof


/-! ### `modMe` -/

@[simp] theorem State.modMe_powered (s : State) (f : Strand → Strand) : (s.modMe f).powered = s.powered := rfl
@[simp] theorem State.modMe_cycle (s : State) (f : Strand → Strand) : (s.modMe f).cycle = s.cycle := rfl
@[simp] theorem State.modMe_cur (s : State) (f : Strand → Strand) : (s.modMe f).cur = s.cur := rfl
@[simp] theorem State.modMe_me (s : State) (f : Strand → Strand) : (s.modMe f).me = f s.me := rfl
@[simp] theorem State.modMe_others (s : State) (f : Strand → Strand) : (s.modMe f).others = s.others := rfl
@[simp] theorem State.modMe_crews (s : State) (f : Strand → Strand) : (s.modMe f).crews = s.crews := rfl
@[simp] theorem State.modMe_grids (s : State) (f : Strand → Strand) : (s.modMe f).grids = s.grids := rfl
@[simp] theorem State.modMe_queues (s : State) (f : Strand → Strand) : (s.modMe f).queues = s.queues := rfl
@[simp] theorem State.modMe_heaps (s : State) (f : Strand → Strand) : (s.modMe f).heaps = s.heaps := rfl
@[simp] theorem State.modMe_parts (s : State) (f : Strand → Strand) : (s.modMe f).parts = s.parts := rfl
@[simp] theorem State.modMe_assigns (s : State) (f : Strand → Strand) : (s.modMe f).assigns = s.assigns := rfl
@[simp] theorem State.modMe_vfs (s : State) (f : Strand → Strand) : (s.modMe f).vfs = s.vfs := rfl
@[simp] theorem State.modMe_cores (s : State) (f : Strand → Strand) : (s.modMe f).cores = s.cores := rfl
@[simp] theorem State.modMe_banks (s : State) (f : Strand → Strand) : (s.modMe f).banks = s.banks := rfl
@[simp] theorem State.modMe_mem (s : State) (f : Strand → Strand) : (s.modMe f).mem = s.mem := rfl
@[simp] theorem State.modMe_mpois (s : State) (f : Strand → Strand) : (s.modMe f).mpois = s.mpois := rfl
@[simp] theorem State.modMe_full (s : State) (f : Strand → Strand) : (s.modMe f).full = s.full := rfl
@[simp] theorem State.modMe_sbuf (s : State) (f : Strand → Strand) : (s.modMe f).sbuf = s.sbuf := rfl
@[simp] theorem State.modMe_l1 (s : State) (f : Strand → Strand) : (s.modMe f).l1 = s.l1 := rfl
@[simp] theorem State.modMe_stash (s : State) (f : Strand → Strand) : (s.modMe f).stash = s.stash := rfl
@[simp] theorem State.modMe_dcache (s : State) (f : Strand → Strand) : (s.modMe f).dcache = s.dcache := rfl
@[simp] theorem State.modMe_desc (s : State) (f : Strand → Strand) : (s.modMe f).desc = s.desc := rfl
@[simp] theorem State.modMe_old (s : State) (f : Strand → Strand) : (s.modMe f).old = s.old := rfl
@[simp] theorem State.modMe_colls (s : State) (f : Strand → Strand) : (s.modMe f).colls = s.colls := rfl
@[simp] theorem State.modMe_groups (s : State) (f : Strand → Strand) : (s.modMe f).groups = s.groups := rfl
@[simp] theorem State.modMe_gangs (s : State) (f : Strand → Strand) : (s.modMe f).gangs = s.gangs := rfl
@[simp] theorem State.modMe_moved (s : State) (f : Strand → Strand) : (s.modMe f).moved = s.moved := rfl
@[simp] theorem State.modMe_chOwner (s : State) (f : Strand → Strand) : (s.modMe f).chOwner = s.chOwner := rfl
@[simp] theorem State.modMe_t2lost (s : State) (f : Strand → Strand) : (s.modMe f).t2lost = s.t2lost := rfl
@[simp] theorem State.modMe_ports (s : State) (f : Strand → Strand) : (s.modMe f).ports = s.ports := rfl
@[simp] theorem State.modMe_rstores (s : State) (f : Strand → Strand) : (s.modMe f).rstores = s.rstores := rfl
@[simp] theorem State.modMe_linkFail (s : State) (f : Strand → Strand) : (s.modMe f).linkFail = s.linkFail := rfl
@[simp] theorem State.modMe_unreachable (s : State) (f : Strand → Strand) : (s.modMe f).unreachable = s.unreachable := rfl
@[simp] theorem State.modMe_hyp (s : State) (f : Strand → Strand) : (s.modMe f).hyp = s.hyp := rfl
@[simp] theorem State.modMe_ras (s : State) (f : Strand → Strand) : (s.modMe f).ras = s.ras := rfl
@[simp] theorem State.modMe_assayer (s : State) (f : Strand → Strand) : (s.modMe f).assayer = s.assayer := rfl
@[simp] theorem State.modMe_limner (s : State) (f : Strand → Strand) : (s.modMe f).limner = s.limner := rfl
@[simp] theorem State.modMe_freeze (s : State) (f : Strand → Strand) : (s.modMe f).freeze = s.freeze := rfl
@[simp] theorem State.modMe_plat (s : State) (f : Strand → Strand) : (s.modMe f).plat = s.plat := rfl
@[simp] theorem State.modMe_flash (s : State) (f : Strand → Strand) : (s.modMe f).flash = s.flash := rfl
@[simp] theorem State.modMe_outbox (s : State) (f : Strand → Strand) : (s.modMe f).outbox = s.outbox := rfl
@[simp] theorem State.modMe_nextGrid (s : State) (f : Strand → Strand) : (s.modMe f).nextGrid = s.nextGrid := rfl
@[simp] theorem State.modMe_nextCrew (s : State) (f : Strand → Strand) : (s.modMe f).nextCrew = s.nextCrew := rfl
@[simp] theorem State.modMe_serial (s : State) (f : Strand → Strand) : (s.modMe f).serial = s.serial := rfl
@[simp] theorem State.modMe_posted (s : State) (f : Strand → Strand) : (s.modMe f).posted = s.posted := rfl
@[simp] theorem State.modMe_events (s : State) (f : Strand → Strand) : (s.modMe f).events = s.events := rfl
@[simp] theorem State.modMe_input (s : State) (f : Strand → Strand) : (s.modMe f).input = s.input := rfl
@[simp] theorem State.modMe_schedule (s : State) (f : Strand → Strand) : (s.modMe f).schedule = s.schedule := rfl
@[simp] theorem State.modMe_deferred (s : State) (f : Strand → Strand) : (s.modMe f).deferred = s.deferred := rfl
@[simp] theorem State.modMe_draws (s : State) (f : Strand → Strand) : (s.modMe f).draws = s.draws := rfl
@[simp] theorem State.modMe_turn (s : State) (f : Strand → Strand) : (s.modMe f).turn = s.turn := rfl

/-! ### `modCrew` -/

@[simp] theorem State.modCrew_powered (s : State) (c : Nat) (f : Crew → Crew) : (s.modCrew c f).powered = s.powered := rfl
@[simp] theorem State.modCrew_cycle (s : State) (c : Nat) (f : Crew → Crew) : (s.modCrew c f).cycle = s.cycle := rfl
@[simp] theorem State.modCrew_cur (s : State) (c : Nat) (f : Crew → Crew) : (s.modCrew c f).cur = s.cur := rfl
@[simp] theorem State.modCrew_me (s : State) (c : Nat) (f : Crew → Crew) : (s.modCrew c f).me = s.me := rfl
@[simp] theorem State.modCrew_others (s : State) (c : Nat) (f : Crew → Crew) : (s.modCrew c f).others = s.others := rfl
@[simp] theorem State.modCrew_crews (s : State) (c : Nat) (f : Crew → Crew) : (s.modCrew c f).crews = tmod {} s.crews c f := rfl
@[simp] theorem State.modCrew_grids (s : State) (c : Nat) (f : Crew → Crew) : (s.modCrew c f).grids = s.grids := rfl
@[simp] theorem State.modCrew_queues (s : State) (c : Nat) (f : Crew → Crew) : (s.modCrew c f).queues = s.queues := rfl
@[simp] theorem State.modCrew_heaps (s : State) (c : Nat) (f : Crew → Crew) : (s.modCrew c f).heaps = s.heaps := rfl
@[simp] theorem State.modCrew_parts (s : State) (c : Nat) (f : Crew → Crew) : (s.modCrew c f).parts = s.parts := rfl
@[simp] theorem State.modCrew_assigns (s : State) (c : Nat) (f : Crew → Crew) : (s.modCrew c f).assigns = s.assigns := rfl
@[simp] theorem State.modCrew_vfs (s : State) (c : Nat) (f : Crew → Crew) : (s.modCrew c f).vfs = s.vfs := rfl
@[simp] theorem State.modCrew_cores (s : State) (c : Nat) (f : Crew → Crew) : (s.modCrew c f).cores = s.cores := rfl
@[simp] theorem State.modCrew_banks (s : State) (c : Nat) (f : Crew → Crew) : (s.modCrew c f).banks = s.banks := rfl
@[simp] theorem State.modCrew_mem (s : State) (c : Nat) (f : Crew → Crew) : (s.modCrew c f).mem = s.mem := rfl
@[simp] theorem State.modCrew_mpois (s : State) (c : Nat) (f : Crew → Crew) : (s.modCrew c f).mpois = s.mpois := rfl
@[simp] theorem State.modCrew_full (s : State) (c : Nat) (f : Crew → Crew) : (s.modCrew c f).full = s.full := rfl
@[simp] theorem State.modCrew_sbuf (s : State) (c : Nat) (f : Crew → Crew) : (s.modCrew c f).sbuf = s.sbuf := rfl
@[simp] theorem State.modCrew_l1 (s : State) (c : Nat) (f : Crew → Crew) : (s.modCrew c f).l1 = s.l1 := rfl
@[simp] theorem State.modCrew_stash (s : State) (c : Nat) (f : Crew → Crew) : (s.modCrew c f).stash = s.stash := rfl
@[simp] theorem State.modCrew_dcache (s : State) (c : Nat) (f : Crew → Crew) : (s.modCrew c f).dcache = s.dcache := rfl
@[simp] theorem State.modCrew_desc (s : State) (c : Nat) (f : Crew → Crew) : (s.modCrew c f).desc = s.desc := rfl
@[simp] theorem State.modCrew_old (s : State) (c : Nat) (f : Crew → Crew) : (s.modCrew c f).old = s.old := rfl
@[simp] theorem State.modCrew_colls (s : State) (c : Nat) (f : Crew → Crew) : (s.modCrew c f).colls = s.colls := rfl
@[simp] theorem State.modCrew_groups (s : State) (c : Nat) (f : Crew → Crew) : (s.modCrew c f).groups = s.groups := rfl
@[simp] theorem State.modCrew_gangs (s : State) (c : Nat) (f : Crew → Crew) : (s.modCrew c f).gangs = s.gangs := rfl
@[simp] theorem State.modCrew_moved (s : State) (c : Nat) (f : Crew → Crew) : (s.modCrew c f).moved = s.moved := rfl
@[simp] theorem State.modCrew_chOwner (s : State) (c : Nat) (f : Crew → Crew) : (s.modCrew c f).chOwner = s.chOwner := rfl
@[simp] theorem State.modCrew_t2lost (s : State) (c : Nat) (f : Crew → Crew) : (s.modCrew c f).t2lost = s.t2lost := rfl
@[simp] theorem State.modCrew_ports (s : State) (c : Nat) (f : Crew → Crew) : (s.modCrew c f).ports = s.ports := rfl
@[simp] theorem State.modCrew_rstores (s : State) (c : Nat) (f : Crew → Crew) : (s.modCrew c f).rstores = s.rstores := rfl
@[simp] theorem State.modCrew_linkFail (s : State) (c : Nat) (f : Crew → Crew) : (s.modCrew c f).linkFail = s.linkFail := rfl
@[simp] theorem State.modCrew_unreachable (s : State) (c : Nat) (f : Crew → Crew) : (s.modCrew c f).unreachable = s.unreachable := rfl
@[simp] theorem State.modCrew_hyp (s : State) (c : Nat) (f : Crew → Crew) : (s.modCrew c f).hyp = s.hyp := rfl
@[simp] theorem State.modCrew_ras (s : State) (c : Nat) (f : Crew → Crew) : (s.modCrew c f).ras = s.ras := rfl
@[simp] theorem State.modCrew_assayer (s : State) (c : Nat) (f : Crew → Crew) : (s.modCrew c f).assayer = s.assayer := rfl
@[simp] theorem State.modCrew_limner (s : State) (c : Nat) (f : Crew → Crew) : (s.modCrew c f).limner = s.limner := rfl
@[simp] theorem State.modCrew_freeze (s : State) (c : Nat) (f : Crew → Crew) : (s.modCrew c f).freeze = s.freeze := rfl
@[simp] theorem State.modCrew_plat (s : State) (c : Nat) (f : Crew → Crew) : (s.modCrew c f).plat = s.plat := rfl
@[simp] theorem State.modCrew_flash (s : State) (c : Nat) (f : Crew → Crew) : (s.modCrew c f).flash = s.flash := rfl
@[simp] theorem State.modCrew_outbox (s : State) (c : Nat) (f : Crew → Crew) : (s.modCrew c f).outbox = s.outbox := rfl
@[simp] theorem State.modCrew_nextGrid (s : State) (c : Nat) (f : Crew → Crew) : (s.modCrew c f).nextGrid = s.nextGrid := rfl
@[simp] theorem State.modCrew_nextCrew (s : State) (c : Nat) (f : Crew → Crew) : (s.modCrew c f).nextCrew = s.nextCrew := rfl
@[simp] theorem State.modCrew_serial (s : State) (c : Nat) (f : Crew → Crew) : (s.modCrew c f).serial = s.serial := rfl
@[simp] theorem State.modCrew_posted (s : State) (c : Nat) (f : Crew → Crew) : (s.modCrew c f).posted = s.posted := rfl
@[simp] theorem State.modCrew_events (s : State) (c : Nat) (f : Crew → Crew) : (s.modCrew c f).events = s.events := rfl
@[simp] theorem State.modCrew_input (s : State) (c : Nat) (f : Crew → Crew) : (s.modCrew c f).input = s.input := rfl
@[simp] theorem State.modCrew_schedule (s : State) (c : Nat) (f : Crew → Crew) : (s.modCrew c f).schedule = s.schedule := rfl
@[simp] theorem State.modCrew_deferred (s : State) (c : Nat) (f : Crew → Crew) : (s.modCrew c f).deferred = s.deferred := rfl
@[simp] theorem State.modCrew_draws (s : State) (c : Nat) (f : Crew → Crew) : (s.modCrew c f).draws = s.draws := rfl
@[simp] theorem State.modCrew_turn (s : State) (c : Nat) (f : Crew → Crew) : (s.modCrew c f).turn = s.turn := rfl

/-! ### `modGrid` -/

@[simp] theorem State.modGrid_powered (s : State) (c : Nat) (f : Grid → Grid) : (s.modGrid c f).powered = s.powered := rfl
@[simp] theorem State.modGrid_cycle (s : State) (c : Nat) (f : Grid → Grid) : (s.modGrid c f).cycle = s.cycle := rfl
@[simp] theorem State.modGrid_cur (s : State) (c : Nat) (f : Grid → Grid) : (s.modGrid c f).cur = s.cur := rfl
@[simp] theorem State.modGrid_me (s : State) (c : Nat) (f : Grid → Grid) : (s.modGrid c f).me = s.me := rfl
@[simp] theorem State.modGrid_others (s : State) (c : Nat) (f : Grid → Grid) : (s.modGrid c f).others = s.others := rfl
@[simp] theorem State.modGrid_crews (s : State) (c : Nat) (f : Grid → Grid) : (s.modGrid c f).crews = s.crews := rfl
@[simp] theorem State.modGrid_grids (s : State) (c : Nat) (f : Grid → Grid) : (s.modGrid c f).grids = tmod {} s.grids c f := rfl
@[simp] theorem State.modGrid_queues (s : State) (c : Nat) (f : Grid → Grid) : (s.modGrid c f).queues = s.queues := rfl
@[simp] theorem State.modGrid_heaps (s : State) (c : Nat) (f : Grid → Grid) : (s.modGrid c f).heaps = s.heaps := rfl
@[simp] theorem State.modGrid_parts (s : State) (c : Nat) (f : Grid → Grid) : (s.modGrid c f).parts = s.parts := rfl
@[simp] theorem State.modGrid_assigns (s : State) (c : Nat) (f : Grid → Grid) : (s.modGrid c f).assigns = s.assigns := rfl
@[simp] theorem State.modGrid_vfs (s : State) (c : Nat) (f : Grid → Grid) : (s.modGrid c f).vfs = s.vfs := rfl
@[simp] theorem State.modGrid_cores (s : State) (c : Nat) (f : Grid → Grid) : (s.modGrid c f).cores = s.cores := rfl
@[simp] theorem State.modGrid_banks (s : State) (c : Nat) (f : Grid → Grid) : (s.modGrid c f).banks = s.banks := rfl
@[simp] theorem State.modGrid_mem (s : State) (c : Nat) (f : Grid → Grid) : (s.modGrid c f).mem = s.mem := rfl
@[simp] theorem State.modGrid_mpois (s : State) (c : Nat) (f : Grid → Grid) : (s.modGrid c f).mpois = s.mpois := rfl
@[simp] theorem State.modGrid_full (s : State) (c : Nat) (f : Grid → Grid) : (s.modGrid c f).full = s.full := rfl
@[simp] theorem State.modGrid_sbuf (s : State) (c : Nat) (f : Grid → Grid) : (s.modGrid c f).sbuf = s.sbuf := rfl
@[simp] theorem State.modGrid_l1 (s : State) (c : Nat) (f : Grid → Grid) : (s.modGrid c f).l1 = s.l1 := rfl
@[simp] theorem State.modGrid_stash (s : State) (c : Nat) (f : Grid → Grid) : (s.modGrid c f).stash = s.stash := rfl
@[simp] theorem State.modGrid_dcache (s : State) (c : Nat) (f : Grid → Grid) : (s.modGrid c f).dcache = s.dcache := rfl
@[simp] theorem State.modGrid_desc (s : State) (c : Nat) (f : Grid → Grid) : (s.modGrid c f).desc = s.desc := rfl
@[simp] theorem State.modGrid_old (s : State) (c : Nat) (f : Grid → Grid) : (s.modGrid c f).old = s.old := rfl
@[simp] theorem State.modGrid_colls (s : State) (c : Nat) (f : Grid → Grid) : (s.modGrid c f).colls = s.colls := rfl
@[simp] theorem State.modGrid_groups (s : State) (c : Nat) (f : Grid → Grid) : (s.modGrid c f).groups = s.groups := rfl
@[simp] theorem State.modGrid_gangs (s : State) (c : Nat) (f : Grid → Grid) : (s.modGrid c f).gangs = s.gangs := rfl
@[simp] theorem State.modGrid_moved (s : State) (c : Nat) (f : Grid → Grid) : (s.modGrid c f).moved = s.moved := rfl
@[simp] theorem State.modGrid_chOwner (s : State) (c : Nat) (f : Grid → Grid) : (s.modGrid c f).chOwner = s.chOwner := rfl
@[simp] theorem State.modGrid_t2lost (s : State) (c : Nat) (f : Grid → Grid) : (s.modGrid c f).t2lost = s.t2lost := rfl
@[simp] theorem State.modGrid_ports (s : State) (c : Nat) (f : Grid → Grid) : (s.modGrid c f).ports = s.ports := rfl
@[simp] theorem State.modGrid_rstores (s : State) (c : Nat) (f : Grid → Grid) : (s.modGrid c f).rstores = s.rstores := rfl
@[simp] theorem State.modGrid_linkFail (s : State) (c : Nat) (f : Grid → Grid) : (s.modGrid c f).linkFail = s.linkFail := rfl
@[simp] theorem State.modGrid_unreachable (s : State) (c : Nat) (f : Grid → Grid) : (s.modGrid c f).unreachable = s.unreachable := rfl
@[simp] theorem State.modGrid_hyp (s : State) (c : Nat) (f : Grid → Grid) : (s.modGrid c f).hyp = s.hyp := rfl
@[simp] theorem State.modGrid_ras (s : State) (c : Nat) (f : Grid → Grid) : (s.modGrid c f).ras = s.ras := rfl
@[simp] theorem State.modGrid_assayer (s : State) (c : Nat) (f : Grid → Grid) : (s.modGrid c f).assayer = s.assayer := rfl
@[simp] theorem State.modGrid_limner (s : State) (c : Nat) (f : Grid → Grid) : (s.modGrid c f).limner = s.limner := rfl
@[simp] theorem State.modGrid_freeze (s : State) (c : Nat) (f : Grid → Grid) : (s.modGrid c f).freeze = s.freeze := rfl
@[simp] theorem State.modGrid_plat (s : State) (c : Nat) (f : Grid → Grid) : (s.modGrid c f).plat = s.plat := rfl
@[simp] theorem State.modGrid_flash (s : State) (c : Nat) (f : Grid → Grid) : (s.modGrid c f).flash = s.flash := rfl
@[simp] theorem State.modGrid_outbox (s : State) (c : Nat) (f : Grid → Grid) : (s.modGrid c f).outbox = s.outbox := rfl
@[simp] theorem State.modGrid_nextGrid (s : State) (c : Nat) (f : Grid → Grid) : (s.modGrid c f).nextGrid = s.nextGrid := rfl
@[simp] theorem State.modGrid_nextCrew (s : State) (c : Nat) (f : Grid → Grid) : (s.modGrid c f).nextCrew = s.nextCrew := rfl
@[simp] theorem State.modGrid_serial (s : State) (c : Nat) (f : Grid → Grid) : (s.modGrid c f).serial = s.serial := rfl
@[simp] theorem State.modGrid_posted (s : State) (c : Nat) (f : Grid → Grid) : (s.modGrid c f).posted = s.posted := rfl
@[simp] theorem State.modGrid_events (s : State) (c : Nat) (f : Grid → Grid) : (s.modGrid c f).events = s.events := rfl
@[simp] theorem State.modGrid_input (s : State) (c : Nat) (f : Grid → Grid) : (s.modGrid c f).input = s.input := rfl
@[simp] theorem State.modGrid_schedule (s : State) (c : Nat) (f : Grid → Grid) : (s.modGrid c f).schedule = s.schedule := rfl
@[simp] theorem State.modGrid_deferred (s : State) (c : Nat) (f : Grid → Grid) : (s.modGrid c f).deferred = s.deferred := rfl
@[simp] theorem State.modGrid_draws (s : State) (c : Nat) (f : Grid → Grid) : (s.modGrid c f).draws = s.draws := rfl
@[simp] theorem State.modGrid_turn (s : State) (c : Nat) (f : Grid → Grid) : (s.modGrid c f).turn = s.turn := rfl

/-! ### `modQueue` -/

@[simp] theorem State.modQueue_powered (s : State) (c : Nat) (f : QueueReg → QueueReg) : (s.modQueue c f).powered = s.powered := rfl
@[simp] theorem State.modQueue_cycle (s : State) (c : Nat) (f : QueueReg → QueueReg) : (s.modQueue c f).cycle = s.cycle := rfl
@[simp] theorem State.modQueue_cur (s : State) (c : Nat) (f : QueueReg → QueueReg) : (s.modQueue c f).cur = s.cur := rfl
@[simp] theorem State.modQueue_me (s : State) (c : Nat) (f : QueueReg → QueueReg) : (s.modQueue c f).me = s.me := rfl
@[simp] theorem State.modQueue_others (s : State) (c : Nat) (f : QueueReg → QueueReg) : (s.modQueue c f).others = s.others := rfl
@[simp] theorem State.modQueue_crews (s : State) (c : Nat) (f : QueueReg → QueueReg) : (s.modQueue c f).crews = s.crews := rfl
@[simp] theorem State.modQueue_grids (s : State) (c : Nat) (f : QueueReg → QueueReg) : (s.modQueue c f).grids = s.grids := rfl
@[simp] theorem State.modQueue_queues (s : State) (c : Nat) (f : QueueReg → QueueReg) : (s.modQueue c f).queues = tmod {} s.queues c f := rfl
@[simp] theorem State.modQueue_heaps (s : State) (c : Nat) (f : QueueReg → QueueReg) : (s.modQueue c f).heaps = s.heaps := rfl
@[simp] theorem State.modQueue_parts (s : State) (c : Nat) (f : QueueReg → QueueReg) : (s.modQueue c f).parts = s.parts := rfl
@[simp] theorem State.modQueue_assigns (s : State) (c : Nat) (f : QueueReg → QueueReg) : (s.modQueue c f).assigns = s.assigns := rfl
@[simp] theorem State.modQueue_vfs (s : State) (c : Nat) (f : QueueReg → QueueReg) : (s.modQueue c f).vfs = s.vfs := rfl
@[simp] theorem State.modQueue_cores (s : State) (c : Nat) (f : QueueReg → QueueReg) : (s.modQueue c f).cores = s.cores := rfl
@[simp] theorem State.modQueue_banks (s : State) (c : Nat) (f : QueueReg → QueueReg) : (s.modQueue c f).banks = s.banks := rfl
@[simp] theorem State.modQueue_mem (s : State) (c : Nat) (f : QueueReg → QueueReg) : (s.modQueue c f).mem = s.mem := rfl
@[simp] theorem State.modQueue_mpois (s : State) (c : Nat) (f : QueueReg → QueueReg) : (s.modQueue c f).mpois = s.mpois := rfl
@[simp] theorem State.modQueue_full (s : State) (c : Nat) (f : QueueReg → QueueReg) : (s.modQueue c f).full = s.full := rfl
@[simp] theorem State.modQueue_sbuf (s : State) (c : Nat) (f : QueueReg → QueueReg) : (s.modQueue c f).sbuf = s.sbuf := rfl
@[simp] theorem State.modQueue_l1 (s : State) (c : Nat) (f : QueueReg → QueueReg) : (s.modQueue c f).l1 = s.l1 := rfl
@[simp] theorem State.modQueue_stash (s : State) (c : Nat) (f : QueueReg → QueueReg) : (s.modQueue c f).stash = s.stash := rfl
@[simp] theorem State.modQueue_dcache (s : State) (c : Nat) (f : QueueReg → QueueReg) : (s.modQueue c f).dcache = s.dcache := rfl
@[simp] theorem State.modQueue_desc (s : State) (c : Nat) (f : QueueReg → QueueReg) : (s.modQueue c f).desc = s.desc := rfl
@[simp] theorem State.modQueue_old (s : State) (c : Nat) (f : QueueReg → QueueReg) : (s.modQueue c f).old = s.old := rfl
@[simp] theorem State.modQueue_colls (s : State) (c : Nat) (f : QueueReg → QueueReg) : (s.modQueue c f).colls = s.colls := rfl
@[simp] theorem State.modQueue_groups (s : State) (c : Nat) (f : QueueReg → QueueReg) : (s.modQueue c f).groups = s.groups := rfl
@[simp] theorem State.modQueue_gangs (s : State) (c : Nat) (f : QueueReg → QueueReg) : (s.modQueue c f).gangs = s.gangs := rfl
@[simp] theorem State.modQueue_moved (s : State) (c : Nat) (f : QueueReg → QueueReg) : (s.modQueue c f).moved = s.moved := rfl
@[simp] theorem State.modQueue_chOwner (s : State) (c : Nat) (f : QueueReg → QueueReg) : (s.modQueue c f).chOwner = s.chOwner := rfl
@[simp] theorem State.modQueue_t2lost (s : State) (c : Nat) (f : QueueReg → QueueReg) : (s.modQueue c f).t2lost = s.t2lost := rfl
@[simp] theorem State.modQueue_ports (s : State) (c : Nat) (f : QueueReg → QueueReg) : (s.modQueue c f).ports = s.ports := rfl
@[simp] theorem State.modQueue_rstores (s : State) (c : Nat) (f : QueueReg → QueueReg) : (s.modQueue c f).rstores = s.rstores := rfl
@[simp] theorem State.modQueue_linkFail (s : State) (c : Nat) (f : QueueReg → QueueReg) : (s.modQueue c f).linkFail = s.linkFail := rfl
@[simp] theorem State.modQueue_unreachable (s : State) (c : Nat) (f : QueueReg → QueueReg) : (s.modQueue c f).unreachable = s.unreachable := rfl
@[simp] theorem State.modQueue_hyp (s : State) (c : Nat) (f : QueueReg → QueueReg) : (s.modQueue c f).hyp = s.hyp := rfl
@[simp] theorem State.modQueue_ras (s : State) (c : Nat) (f : QueueReg → QueueReg) : (s.modQueue c f).ras = s.ras := rfl
@[simp] theorem State.modQueue_assayer (s : State) (c : Nat) (f : QueueReg → QueueReg) : (s.modQueue c f).assayer = s.assayer := rfl
@[simp] theorem State.modQueue_limner (s : State) (c : Nat) (f : QueueReg → QueueReg) : (s.modQueue c f).limner = s.limner := rfl
@[simp] theorem State.modQueue_freeze (s : State) (c : Nat) (f : QueueReg → QueueReg) : (s.modQueue c f).freeze = s.freeze := rfl
@[simp] theorem State.modQueue_plat (s : State) (c : Nat) (f : QueueReg → QueueReg) : (s.modQueue c f).plat = s.plat := rfl
@[simp] theorem State.modQueue_flash (s : State) (c : Nat) (f : QueueReg → QueueReg) : (s.modQueue c f).flash = s.flash := rfl
@[simp] theorem State.modQueue_outbox (s : State) (c : Nat) (f : QueueReg → QueueReg) : (s.modQueue c f).outbox = s.outbox := rfl
@[simp] theorem State.modQueue_nextGrid (s : State) (c : Nat) (f : QueueReg → QueueReg) : (s.modQueue c f).nextGrid = s.nextGrid := rfl
@[simp] theorem State.modQueue_nextCrew (s : State) (c : Nat) (f : QueueReg → QueueReg) : (s.modQueue c f).nextCrew = s.nextCrew := rfl
@[simp] theorem State.modQueue_serial (s : State) (c : Nat) (f : QueueReg → QueueReg) : (s.modQueue c f).serial = s.serial := rfl
@[simp] theorem State.modQueue_posted (s : State) (c : Nat) (f : QueueReg → QueueReg) : (s.modQueue c f).posted = s.posted := rfl
@[simp] theorem State.modQueue_events (s : State) (c : Nat) (f : QueueReg → QueueReg) : (s.modQueue c f).events = s.events := rfl
@[simp] theorem State.modQueue_input (s : State) (c : Nat) (f : QueueReg → QueueReg) : (s.modQueue c f).input = s.input := rfl
@[simp] theorem State.modQueue_schedule (s : State) (c : Nat) (f : QueueReg → QueueReg) : (s.modQueue c f).schedule = s.schedule := rfl
@[simp] theorem State.modQueue_deferred (s : State) (c : Nat) (f : QueueReg → QueueReg) : (s.modQueue c f).deferred = s.deferred := rfl
@[simp] theorem State.modQueue_draws (s : State) (c : Nat) (f : QueueReg → QueueReg) : (s.modQueue c f).draws = s.draws := rfl
@[simp] theorem State.modQueue_turn (s : State) (c : Nat) (f : QueueReg → QueueReg) : (s.modQueue c f).turn = s.turn := rfl

/-! ### `modHeap` -/

@[simp] theorem State.modHeap_powered (s : State) (c : Nat) (f : Heap → Heap) : (s.modHeap c f).powered = s.powered := rfl
@[simp] theorem State.modHeap_cycle (s : State) (c : Nat) (f : Heap → Heap) : (s.modHeap c f).cycle = s.cycle := rfl
@[simp] theorem State.modHeap_cur (s : State) (c : Nat) (f : Heap → Heap) : (s.modHeap c f).cur = s.cur := rfl
@[simp] theorem State.modHeap_me (s : State) (c : Nat) (f : Heap → Heap) : (s.modHeap c f).me = s.me := rfl
@[simp] theorem State.modHeap_others (s : State) (c : Nat) (f : Heap → Heap) : (s.modHeap c f).others = s.others := rfl
@[simp] theorem State.modHeap_crews (s : State) (c : Nat) (f : Heap → Heap) : (s.modHeap c f).crews = s.crews := rfl
@[simp] theorem State.modHeap_grids (s : State) (c : Nat) (f : Heap → Heap) : (s.modHeap c f).grids = s.grids := rfl
@[simp] theorem State.modHeap_queues (s : State) (c : Nat) (f : Heap → Heap) : (s.modHeap c f).queues = s.queues := rfl
@[simp] theorem State.modHeap_heaps (s : State) (c : Nat) (f : Heap → Heap) : (s.modHeap c f).heaps = tmod {} s.heaps c f := rfl
@[simp] theorem State.modHeap_parts (s : State) (c : Nat) (f : Heap → Heap) : (s.modHeap c f).parts = s.parts := rfl
@[simp] theorem State.modHeap_assigns (s : State) (c : Nat) (f : Heap → Heap) : (s.modHeap c f).assigns = s.assigns := rfl
@[simp] theorem State.modHeap_vfs (s : State) (c : Nat) (f : Heap → Heap) : (s.modHeap c f).vfs = s.vfs := rfl
@[simp] theorem State.modHeap_cores (s : State) (c : Nat) (f : Heap → Heap) : (s.modHeap c f).cores = s.cores := rfl
@[simp] theorem State.modHeap_banks (s : State) (c : Nat) (f : Heap → Heap) : (s.modHeap c f).banks = s.banks := rfl
@[simp] theorem State.modHeap_mem (s : State) (c : Nat) (f : Heap → Heap) : (s.modHeap c f).mem = s.mem := rfl
@[simp] theorem State.modHeap_mpois (s : State) (c : Nat) (f : Heap → Heap) : (s.modHeap c f).mpois = s.mpois := rfl
@[simp] theorem State.modHeap_full (s : State) (c : Nat) (f : Heap → Heap) : (s.modHeap c f).full = s.full := rfl
@[simp] theorem State.modHeap_sbuf (s : State) (c : Nat) (f : Heap → Heap) : (s.modHeap c f).sbuf = s.sbuf := rfl
@[simp] theorem State.modHeap_l1 (s : State) (c : Nat) (f : Heap → Heap) : (s.modHeap c f).l1 = s.l1 := rfl
@[simp] theorem State.modHeap_stash (s : State) (c : Nat) (f : Heap → Heap) : (s.modHeap c f).stash = s.stash := rfl
@[simp] theorem State.modHeap_dcache (s : State) (c : Nat) (f : Heap → Heap) : (s.modHeap c f).dcache = s.dcache := rfl
@[simp] theorem State.modHeap_desc (s : State) (c : Nat) (f : Heap → Heap) : (s.modHeap c f).desc = s.desc := rfl
@[simp] theorem State.modHeap_old (s : State) (c : Nat) (f : Heap → Heap) : (s.modHeap c f).old = s.old := rfl
@[simp] theorem State.modHeap_colls (s : State) (c : Nat) (f : Heap → Heap) : (s.modHeap c f).colls = s.colls := rfl
@[simp] theorem State.modHeap_groups (s : State) (c : Nat) (f : Heap → Heap) : (s.modHeap c f).groups = s.groups := rfl
@[simp] theorem State.modHeap_gangs (s : State) (c : Nat) (f : Heap → Heap) : (s.modHeap c f).gangs = s.gangs := rfl
@[simp] theorem State.modHeap_moved (s : State) (c : Nat) (f : Heap → Heap) : (s.modHeap c f).moved = s.moved := rfl
@[simp] theorem State.modHeap_chOwner (s : State) (c : Nat) (f : Heap → Heap) : (s.modHeap c f).chOwner = s.chOwner := rfl
@[simp] theorem State.modHeap_t2lost (s : State) (c : Nat) (f : Heap → Heap) : (s.modHeap c f).t2lost = s.t2lost := rfl
@[simp] theorem State.modHeap_ports (s : State) (c : Nat) (f : Heap → Heap) : (s.modHeap c f).ports = s.ports := rfl
@[simp] theorem State.modHeap_rstores (s : State) (c : Nat) (f : Heap → Heap) : (s.modHeap c f).rstores = s.rstores := rfl
@[simp] theorem State.modHeap_linkFail (s : State) (c : Nat) (f : Heap → Heap) : (s.modHeap c f).linkFail = s.linkFail := rfl
@[simp] theorem State.modHeap_unreachable (s : State) (c : Nat) (f : Heap → Heap) : (s.modHeap c f).unreachable = s.unreachable := rfl
@[simp] theorem State.modHeap_hyp (s : State) (c : Nat) (f : Heap → Heap) : (s.modHeap c f).hyp = s.hyp := rfl
@[simp] theorem State.modHeap_ras (s : State) (c : Nat) (f : Heap → Heap) : (s.modHeap c f).ras = s.ras := rfl
@[simp] theorem State.modHeap_assayer (s : State) (c : Nat) (f : Heap → Heap) : (s.modHeap c f).assayer = s.assayer := rfl
@[simp] theorem State.modHeap_limner (s : State) (c : Nat) (f : Heap → Heap) : (s.modHeap c f).limner = s.limner := rfl
@[simp] theorem State.modHeap_freeze (s : State) (c : Nat) (f : Heap → Heap) : (s.modHeap c f).freeze = s.freeze := rfl
@[simp] theorem State.modHeap_plat (s : State) (c : Nat) (f : Heap → Heap) : (s.modHeap c f).plat = s.plat := rfl
@[simp] theorem State.modHeap_flash (s : State) (c : Nat) (f : Heap → Heap) : (s.modHeap c f).flash = s.flash := rfl
@[simp] theorem State.modHeap_outbox (s : State) (c : Nat) (f : Heap → Heap) : (s.modHeap c f).outbox = s.outbox := rfl
@[simp] theorem State.modHeap_nextGrid (s : State) (c : Nat) (f : Heap → Heap) : (s.modHeap c f).nextGrid = s.nextGrid := rfl
@[simp] theorem State.modHeap_nextCrew (s : State) (c : Nat) (f : Heap → Heap) : (s.modHeap c f).nextCrew = s.nextCrew := rfl
@[simp] theorem State.modHeap_serial (s : State) (c : Nat) (f : Heap → Heap) : (s.modHeap c f).serial = s.serial := rfl
@[simp] theorem State.modHeap_posted (s : State) (c : Nat) (f : Heap → Heap) : (s.modHeap c f).posted = s.posted := rfl
@[simp] theorem State.modHeap_events (s : State) (c : Nat) (f : Heap → Heap) : (s.modHeap c f).events = s.events := rfl
@[simp] theorem State.modHeap_input (s : State) (c : Nat) (f : Heap → Heap) : (s.modHeap c f).input = s.input := rfl
@[simp] theorem State.modHeap_schedule (s : State) (c : Nat) (f : Heap → Heap) : (s.modHeap c f).schedule = s.schedule := rfl
@[simp] theorem State.modHeap_deferred (s : State) (c : Nat) (f : Heap → Heap) : (s.modHeap c f).deferred = s.deferred := rfl
@[simp] theorem State.modHeap_draws (s : State) (c : Nat) (f : Heap → Heap) : (s.modHeap c f).draws = s.draws := rfl
@[simp] theorem State.modHeap_turn (s : State) (c : Nat) (f : Heap → Heap) : (s.modHeap c f).turn = s.turn := rfl

/-! ### `modPart` -/

@[simp] theorem State.modPart_powered (s : State) (c : Nat) (f : Partition → Partition) : (s.modPart c f).powered = s.powered := rfl
@[simp] theorem State.modPart_cycle (s : State) (c : Nat) (f : Partition → Partition) : (s.modPart c f).cycle = s.cycle := rfl
@[simp] theorem State.modPart_cur (s : State) (c : Nat) (f : Partition → Partition) : (s.modPart c f).cur = s.cur := rfl
@[simp] theorem State.modPart_me (s : State) (c : Nat) (f : Partition → Partition) : (s.modPart c f).me = s.me := rfl
@[simp] theorem State.modPart_others (s : State) (c : Nat) (f : Partition → Partition) : (s.modPart c f).others = s.others := rfl
@[simp] theorem State.modPart_crews (s : State) (c : Nat) (f : Partition → Partition) : (s.modPart c f).crews = s.crews := rfl
@[simp] theorem State.modPart_grids (s : State) (c : Nat) (f : Partition → Partition) : (s.modPart c f).grids = s.grids := rfl
@[simp] theorem State.modPart_queues (s : State) (c : Nat) (f : Partition → Partition) : (s.modPart c f).queues = s.queues := rfl
@[simp] theorem State.modPart_heaps (s : State) (c : Nat) (f : Partition → Partition) : (s.modPart c f).heaps = s.heaps := rfl
@[simp] theorem State.modPart_parts (s : State) (c : Nat) (f : Partition → Partition) : (s.modPart c f).parts = tmod {} s.parts c f := rfl
@[simp] theorem State.modPart_assigns (s : State) (c : Nat) (f : Partition → Partition) : (s.modPart c f).assigns = s.assigns := rfl
@[simp] theorem State.modPart_vfs (s : State) (c : Nat) (f : Partition → Partition) : (s.modPart c f).vfs = s.vfs := rfl
@[simp] theorem State.modPart_cores (s : State) (c : Nat) (f : Partition → Partition) : (s.modPart c f).cores = s.cores := rfl
@[simp] theorem State.modPart_banks (s : State) (c : Nat) (f : Partition → Partition) : (s.modPart c f).banks = s.banks := rfl
@[simp] theorem State.modPart_mem (s : State) (c : Nat) (f : Partition → Partition) : (s.modPart c f).mem = s.mem := rfl
@[simp] theorem State.modPart_mpois (s : State) (c : Nat) (f : Partition → Partition) : (s.modPart c f).mpois = s.mpois := rfl
@[simp] theorem State.modPart_full (s : State) (c : Nat) (f : Partition → Partition) : (s.modPart c f).full = s.full := rfl
@[simp] theorem State.modPart_sbuf (s : State) (c : Nat) (f : Partition → Partition) : (s.modPart c f).sbuf = s.sbuf := rfl
@[simp] theorem State.modPart_l1 (s : State) (c : Nat) (f : Partition → Partition) : (s.modPart c f).l1 = s.l1 := rfl
@[simp] theorem State.modPart_stash (s : State) (c : Nat) (f : Partition → Partition) : (s.modPart c f).stash = s.stash := rfl
@[simp] theorem State.modPart_dcache (s : State) (c : Nat) (f : Partition → Partition) : (s.modPart c f).dcache = s.dcache := rfl
@[simp] theorem State.modPart_desc (s : State) (c : Nat) (f : Partition → Partition) : (s.modPart c f).desc = s.desc := rfl
@[simp] theorem State.modPart_old (s : State) (c : Nat) (f : Partition → Partition) : (s.modPart c f).old = s.old := rfl
@[simp] theorem State.modPart_colls (s : State) (c : Nat) (f : Partition → Partition) : (s.modPart c f).colls = s.colls := rfl
@[simp] theorem State.modPart_groups (s : State) (c : Nat) (f : Partition → Partition) : (s.modPart c f).groups = s.groups := rfl
@[simp] theorem State.modPart_gangs (s : State) (c : Nat) (f : Partition → Partition) : (s.modPart c f).gangs = s.gangs := rfl
@[simp] theorem State.modPart_moved (s : State) (c : Nat) (f : Partition → Partition) : (s.modPart c f).moved = s.moved := rfl
@[simp] theorem State.modPart_chOwner (s : State) (c : Nat) (f : Partition → Partition) : (s.modPart c f).chOwner = s.chOwner := rfl
@[simp] theorem State.modPart_t2lost (s : State) (c : Nat) (f : Partition → Partition) : (s.modPart c f).t2lost = s.t2lost := rfl
@[simp] theorem State.modPart_ports (s : State) (c : Nat) (f : Partition → Partition) : (s.modPart c f).ports = s.ports := rfl
@[simp] theorem State.modPart_rstores (s : State) (c : Nat) (f : Partition → Partition) : (s.modPart c f).rstores = s.rstores := rfl
@[simp] theorem State.modPart_linkFail (s : State) (c : Nat) (f : Partition → Partition) : (s.modPart c f).linkFail = s.linkFail := rfl
@[simp] theorem State.modPart_unreachable (s : State) (c : Nat) (f : Partition → Partition) : (s.modPart c f).unreachable = s.unreachable := rfl
@[simp] theorem State.modPart_hyp (s : State) (c : Nat) (f : Partition → Partition) : (s.modPart c f).hyp = s.hyp := rfl
@[simp] theorem State.modPart_ras (s : State) (c : Nat) (f : Partition → Partition) : (s.modPart c f).ras = s.ras := rfl
@[simp] theorem State.modPart_assayer (s : State) (c : Nat) (f : Partition → Partition) : (s.modPart c f).assayer = s.assayer := rfl
@[simp] theorem State.modPart_limner (s : State) (c : Nat) (f : Partition → Partition) : (s.modPart c f).limner = s.limner := rfl
@[simp] theorem State.modPart_freeze (s : State) (c : Nat) (f : Partition → Partition) : (s.modPart c f).freeze = s.freeze := rfl
@[simp] theorem State.modPart_plat (s : State) (c : Nat) (f : Partition → Partition) : (s.modPart c f).plat = s.plat := rfl
@[simp] theorem State.modPart_flash (s : State) (c : Nat) (f : Partition → Partition) : (s.modPart c f).flash = s.flash := rfl
@[simp] theorem State.modPart_outbox (s : State) (c : Nat) (f : Partition → Partition) : (s.modPart c f).outbox = s.outbox := rfl
@[simp] theorem State.modPart_nextGrid (s : State) (c : Nat) (f : Partition → Partition) : (s.modPart c f).nextGrid = s.nextGrid := rfl
@[simp] theorem State.modPart_nextCrew (s : State) (c : Nat) (f : Partition → Partition) : (s.modPart c f).nextCrew = s.nextCrew := rfl
@[simp] theorem State.modPart_serial (s : State) (c : Nat) (f : Partition → Partition) : (s.modPart c f).serial = s.serial := rfl
@[simp] theorem State.modPart_posted (s : State) (c : Nat) (f : Partition → Partition) : (s.modPart c f).posted = s.posted := rfl
@[simp] theorem State.modPart_events (s : State) (c : Nat) (f : Partition → Partition) : (s.modPart c f).events = s.events := rfl
@[simp] theorem State.modPart_input (s : State) (c : Nat) (f : Partition → Partition) : (s.modPart c f).input = s.input := rfl
@[simp] theorem State.modPart_schedule (s : State) (c : Nat) (f : Partition → Partition) : (s.modPart c f).schedule = s.schedule := rfl
@[simp] theorem State.modPart_deferred (s : State) (c : Nat) (f : Partition → Partition) : (s.modPart c f).deferred = s.deferred := rfl
@[simp] theorem State.modPart_draws (s : State) (c : Nat) (f : Partition → Partition) : (s.modPart c f).draws = s.draws := rfl
@[simp] theorem State.modPart_turn (s : State) (c : Nat) (f : Partition → Partition) : (s.modPart c f).turn = s.turn := rfl

/-! ### `modAssign` -/

@[simp] theorem State.modAssign_powered (s : State) (c : Nat) (f : Assign → Assign) : (s.modAssign c f).powered = s.powered := rfl
@[simp] theorem State.modAssign_cycle (s : State) (c : Nat) (f : Assign → Assign) : (s.modAssign c f).cycle = s.cycle := rfl
@[simp] theorem State.modAssign_cur (s : State) (c : Nat) (f : Assign → Assign) : (s.modAssign c f).cur = s.cur := rfl
@[simp] theorem State.modAssign_me (s : State) (c : Nat) (f : Assign → Assign) : (s.modAssign c f).me = s.me := rfl
@[simp] theorem State.modAssign_others (s : State) (c : Nat) (f : Assign → Assign) : (s.modAssign c f).others = s.others := rfl
@[simp] theorem State.modAssign_crews (s : State) (c : Nat) (f : Assign → Assign) : (s.modAssign c f).crews = s.crews := rfl
@[simp] theorem State.modAssign_grids (s : State) (c : Nat) (f : Assign → Assign) : (s.modAssign c f).grids = s.grids := rfl
@[simp] theorem State.modAssign_queues (s : State) (c : Nat) (f : Assign → Assign) : (s.modAssign c f).queues = s.queues := rfl
@[simp] theorem State.modAssign_heaps (s : State) (c : Nat) (f : Assign → Assign) : (s.modAssign c f).heaps = s.heaps := rfl
@[simp] theorem State.modAssign_parts (s : State) (c : Nat) (f : Assign → Assign) : (s.modAssign c f).parts = s.parts := rfl
@[simp] theorem State.modAssign_assigns (s : State) (c : Nat) (f : Assign → Assign) : (s.modAssign c f).assigns = tmod {} s.assigns c f := rfl
@[simp] theorem State.modAssign_vfs (s : State) (c : Nat) (f : Assign → Assign) : (s.modAssign c f).vfs = s.vfs := rfl
@[simp] theorem State.modAssign_cores (s : State) (c : Nat) (f : Assign → Assign) : (s.modAssign c f).cores = s.cores := rfl
@[simp] theorem State.modAssign_banks (s : State) (c : Nat) (f : Assign → Assign) : (s.modAssign c f).banks = s.banks := rfl
@[simp] theorem State.modAssign_mem (s : State) (c : Nat) (f : Assign → Assign) : (s.modAssign c f).mem = s.mem := rfl
@[simp] theorem State.modAssign_mpois (s : State) (c : Nat) (f : Assign → Assign) : (s.modAssign c f).mpois = s.mpois := rfl
@[simp] theorem State.modAssign_full (s : State) (c : Nat) (f : Assign → Assign) : (s.modAssign c f).full = s.full := rfl
@[simp] theorem State.modAssign_sbuf (s : State) (c : Nat) (f : Assign → Assign) : (s.modAssign c f).sbuf = s.sbuf := rfl
@[simp] theorem State.modAssign_l1 (s : State) (c : Nat) (f : Assign → Assign) : (s.modAssign c f).l1 = s.l1 := rfl
@[simp] theorem State.modAssign_stash (s : State) (c : Nat) (f : Assign → Assign) : (s.modAssign c f).stash = s.stash := rfl
@[simp] theorem State.modAssign_dcache (s : State) (c : Nat) (f : Assign → Assign) : (s.modAssign c f).dcache = s.dcache := rfl
@[simp] theorem State.modAssign_desc (s : State) (c : Nat) (f : Assign → Assign) : (s.modAssign c f).desc = s.desc := rfl
@[simp] theorem State.modAssign_old (s : State) (c : Nat) (f : Assign → Assign) : (s.modAssign c f).old = s.old := rfl
@[simp] theorem State.modAssign_colls (s : State) (c : Nat) (f : Assign → Assign) : (s.modAssign c f).colls = s.colls := rfl
@[simp] theorem State.modAssign_groups (s : State) (c : Nat) (f : Assign → Assign) : (s.modAssign c f).groups = s.groups := rfl
@[simp] theorem State.modAssign_gangs (s : State) (c : Nat) (f : Assign → Assign) : (s.modAssign c f).gangs = s.gangs := rfl
@[simp] theorem State.modAssign_moved (s : State) (c : Nat) (f : Assign → Assign) : (s.modAssign c f).moved = s.moved := rfl
@[simp] theorem State.modAssign_chOwner (s : State) (c : Nat) (f : Assign → Assign) : (s.modAssign c f).chOwner = s.chOwner := rfl
@[simp] theorem State.modAssign_t2lost (s : State) (c : Nat) (f : Assign → Assign) : (s.modAssign c f).t2lost = s.t2lost := rfl
@[simp] theorem State.modAssign_ports (s : State) (c : Nat) (f : Assign → Assign) : (s.modAssign c f).ports = s.ports := rfl
@[simp] theorem State.modAssign_rstores (s : State) (c : Nat) (f : Assign → Assign) : (s.modAssign c f).rstores = s.rstores := rfl
@[simp] theorem State.modAssign_linkFail (s : State) (c : Nat) (f : Assign → Assign) : (s.modAssign c f).linkFail = s.linkFail := rfl
@[simp] theorem State.modAssign_unreachable (s : State) (c : Nat) (f : Assign → Assign) : (s.modAssign c f).unreachable = s.unreachable := rfl
@[simp] theorem State.modAssign_hyp (s : State) (c : Nat) (f : Assign → Assign) : (s.modAssign c f).hyp = s.hyp := rfl
@[simp] theorem State.modAssign_ras (s : State) (c : Nat) (f : Assign → Assign) : (s.modAssign c f).ras = s.ras := rfl
@[simp] theorem State.modAssign_assayer (s : State) (c : Nat) (f : Assign → Assign) : (s.modAssign c f).assayer = s.assayer := rfl
@[simp] theorem State.modAssign_limner (s : State) (c : Nat) (f : Assign → Assign) : (s.modAssign c f).limner = s.limner := rfl
@[simp] theorem State.modAssign_freeze (s : State) (c : Nat) (f : Assign → Assign) : (s.modAssign c f).freeze = s.freeze := rfl
@[simp] theorem State.modAssign_plat (s : State) (c : Nat) (f : Assign → Assign) : (s.modAssign c f).plat = s.plat := rfl
@[simp] theorem State.modAssign_flash (s : State) (c : Nat) (f : Assign → Assign) : (s.modAssign c f).flash = s.flash := rfl
@[simp] theorem State.modAssign_outbox (s : State) (c : Nat) (f : Assign → Assign) : (s.modAssign c f).outbox = s.outbox := rfl
@[simp] theorem State.modAssign_nextGrid (s : State) (c : Nat) (f : Assign → Assign) : (s.modAssign c f).nextGrid = s.nextGrid := rfl
@[simp] theorem State.modAssign_nextCrew (s : State) (c : Nat) (f : Assign → Assign) : (s.modAssign c f).nextCrew = s.nextCrew := rfl
@[simp] theorem State.modAssign_serial (s : State) (c : Nat) (f : Assign → Assign) : (s.modAssign c f).serial = s.serial := rfl
@[simp] theorem State.modAssign_posted (s : State) (c : Nat) (f : Assign → Assign) : (s.modAssign c f).posted = s.posted := rfl
@[simp] theorem State.modAssign_events (s : State) (c : Nat) (f : Assign → Assign) : (s.modAssign c f).events = s.events := rfl
@[simp] theorem State.modAssign_input (s : State) (c : Nat) (f : Assign → Assign) : (s.modAssign c f).input = s.input := rfl
@[simp] theorem State.modAssign_schedule (s : State) (c : Nat) (f : Assign → Assign) : (s.modAssign c f).schedule = s.schedule := rfl
@[simp] theorem State.modAssign_deferred (s : State) (c : Nat) (f : Assign → Assign) : (s.modAssign c f).deferred = s.deferred := rfl
@[simp] theorem State.modAssign_draws (s : State) (c : Nat) (f : Assign → Assign) : (s.modAssign c f).draws = s.draws := rfl
@[simp] theorem State.modAssign_turn (s : State) (c : Nat) (f : Assign → Assign) : (s.modAssign c f).turn = s.turn := rfl

/-! ### `modVf` -/

@[simp] theorem State.modVf_powered (s : State) (c : Nat) (f : Vf → Vf) : (s.modVf c f).powered = s.powered := rfl
@[simp] theorem State.modVf_cycle (s : State) (c : Nat) (f : Vf → Vf) : (s.modVf c f).cycle = s.cycle := rfl
@[simp] theorem State.modVf_cur (s : State) (c : Nat) (f : Vf → Vf) : (s.modVf c f).cur = s.cur := rfl
@[simp] theorem State.modVf_me (s : State) (c : Nat) (f : Vf → Vf) : (s.modVf c f).me = s.me := rfl
@[simp] theorem State.modVf_others (s : State) (c : Nat) (f : Vf → Vf) : (s.modVf c f).others = s.others := rfl
@[simp] theorem State.modVf_crews (s : State) (c : Nat) (f : Vf → Vf) : (s.modVf c f).crews = s.crews := rfl
@[simp] theorem State.modVf_grids (s : State) (c : Nat) (f : Vf → Vf) : (s.modVf c f).grids = s.grids := rfl
@[simp] theorem State.modVf_queues (s : State) (c : Nat) (f : Vf → Vf) : (s.modVf c f).queues = s.queues := rfl
@[simp] theorem State.modVf_heaps (s : State) (c : Nat) (f : Vf → Vf) : (s.modVf c f).heaps = s.heaps := rfl
@[simp] theorem State.modVf_parts (s : State) (c : Nat) (f : Vf → Vf) : (s.modVf c f).parts = s.parts := rfl
@[simp] theorem State.modVf_assigns (s : State) (c : Nat) (f : Vf → Vf) : (s.modVf c f).assigns = s.assigns := rfl
@[simp] theorem State.modVf_vfs (s : State) (c : Nat) (f : Vf → Vf) : (s.modVf c f).vfs = tmod {} s.vfs c f := rfl
@[simp] theorem State.modVf_cores (s : State) (c : Nat) (f : Vf → Vf) : (s.modVf c f).cores = s.cores := rfl
@[simp] theorem State.modVf_banks (s : State) (c : Nat) (f : Vf → Vf) : (s.modVf c f).banks = s.banks := rfl
@[simp] theorem State.modVf_mem (s : State) (c : Nat) (f : Vf → Vf) : (s.modVf c f).mem = s.mem := rfl
@[simp] theorem State.modVf_mpois (s : State) (c : Nat) (f : Vf → Vf) : (s.modVf c f).mpois = s.mpois := rfl
@[simp] theorem State.modVf_full (s : State) (c : Nat) (f : Vf → Vf) : (s.modVf c f).full = s.full := rfl
@[simp] theorem State.modVf_sbuf (s : State) (c : Nat) (f : Vf → Vf) : (s.modVf c f).sbuf = s.sbuf := rfl
@[simp] theorem State.modVf_l1 (s : State) (c : Nat) (f : Vf → Vf) : (s.modVf c f).l1 = s.l1 := rfl
@[simp] theorem State.modVf_stash (s : State) (c : Nat) (f : Vf → Vf) : (s.modVf c f).stash = s.stash := rfl
@[simp] theorem State.modVf_dcache (s : State) (c : Nat) (f : Vf → Vf) : (s.modVf c f).dcache = s.dcache := rfl
@[simp] theorem State.modVf_desc (s : State) (c : Nat) (f : Vf → Vf) : (s.modVf c f).desc = s.desc := rfl
@[simp] theorem State.modVf_old (s : State) (c : Nat) (f : Vf → Vf) : (s.modVf c f).old = s.old := rfl
@[simp] theorem State.modVf_colls (s : State) (c : Nat) (f : Vf → Vf) : (s.modVf c f).colls = s.colls := rfl
@[simp] theorem State.modVf_groups (s : State) (c : Nat) (f : Vf → Vf) : (s.modVf c f).groups = s.groups := rfl
@[simp] theorem State.modVf_gangs (s : State) (c : Nat) (f : Vf → Vf) : (s.modVf c f).gangs = s.gangs := rfl
@[simp] theorem State.modVf_moved (s : State) (c : Nat) (f : Vf → Vf) : (s.modVf c f).moved = s.moved := rfl
@[simp] theorem State.modVf_chOwner (s : State) (c : Nat) (f : Vf → Vf) : (s.modVf c f).chOwner = s.chOwner := rfl
@[simp] theorem State.modVf_t2lost (s : State) (c : Nat) (f : Vf → Vf) : (s.modVf c f).t2lost = s.t2lost := rfl
@[simp] theorem State.modVf_ports (s : State) (c : Nat) (f : Vf → Vf) : (s.modVf c f).ports = s.ports := rfl
@[simp] theorem State.modVf_rstores (s : State) (c : Nat) (f : Vf → Vf) : (s.modVf c f).rstores = s.rstores := rfl
@[simp] theorem State.modVf_linkFail (s : State) (c : Nat) (f : Vf → Vf) : (s.modVf c f).linkFail = s.linkFail := rfl
@[simp] theorem State.modVf_unreachable (s : State) (c : Nat) (f : Vf → Vf) : (s.modVf c f).unreachable = s.unreachable := rfl
@[simp] theorem State.modVf_hyp (s : State) (c : Nat) (f : Vf → Vf) : (s.modVf c f).hyp = s.hyp := rfl
@[simp] theorem State.modVf_ras (s : State) (c : Nat) (f : Vf → Vf) : (s.modVf c f).ras = s.ras := rfl
@[simp] theorem State.modVf_assayer (s : State) (c : Nat) (f : Vf → Vf) : (s.modVf c f).assayer = s.assayer := rfl
@[simp] theorem State.modVf_limner (s : State) (c : Nat) (f : Vf → Vf) : (s.modVf c f).limner = s.limner := rfl
@[simp] theorem State.modVf_freeze (s : State) (c : Nat) (f : Vf → Vf) : (s.modVf c f).freeze = s.freeze := rfl
@[simp] theorem State.modVf_plat (s : State) (c : Nat) (f : Vf → Vf) : (s.modVf c f).plat = s.plat := rfl
@[simp] theorem State.modVf_flash (s : State) (c : Nat) (f : Vf → Vf) : (s.modVf c f).flash = s.flash := rfl
@[simp] theorem State.modVf_outbox (s : State) (c : Nat) (f : Vf → Vf) : (s.modVf c f).outbox = s.outbox := rfl
@[simp] theorem State.modVf_nextGrid (s : State) (c : Nat) (f : Vf → Vf) : (s.modVf c f).nextGrid = s.nextGrid := rfl
@[simp] theorem State.modVf_nextCrew (s : State) (c : Nat) (f : Vf → Vf) : (s.modVf c f).nextCrew = s.nextCrew := rfl
@[simp] theorem State.modVf_serial (s : State) (c : Nat) (f : Vf → Vf) : (s.modVf c f).serial = s.serial := rfl
@[simp] theorem State.modVf_posted (s : State) (c : Nat) (f : Vf → Vf) : (s.modVf c f).posted = s.posted := rfl
@[simp] theorem State.modVf_events (s : State) (c : Nat) (f : Vf → Vf) : (s.modVf c f).events = s.events := rfl
@[simp] theorem State.modVf_input (s : State) (c : Nat) (f : Vf → Vf) : (s.modVf c f).input = s.input := rfl
@[simp] theorem State.modVf_schedule (s : State) (c : Nat) (f : Vf → Vf) : (s.modVf c f).schedule = s.schedule := rfl
@[simp] theorem State.modVf_deferred (s : State) (c : Nat) (f : Vf → Vf) : (s.modVf c f).deferred = s.deferred := rfl
@[simp] theorem State.modVf_draws (s : State) (c : Nat) (f : Vf → Vf) : (s.modVf c f).draws = s.draws := rfl
@[simp] theorem State.modVf_turn (s : State) (c : Nat) (f : Vf → Vf) : (s.modVf c f).turn = s.turn := rfl

/-! ### `modCore` -/

@[simp] theorem State.modCore_powered (s : State) (c : Nat) (f : CoreReg → CoreReg) : (s.modCore c f).powered = s.powered := rfl
@[simp] theorem State.modCore_cycle (s : State) (c : Nat) (f : CoreReg → CoreReg) : (s.modCore c f).cycle = s.cycle := rfl
@[simp] theorem State.modCore_cur (s : State) (c : Nat) (f : CoreReg → CoreReg) : (s.modCore c f).cur = s.cur := rfl
@[simp] theorem State.modCore_me (s : State) (c : Nat) (f : CoreReg → CoreReg) : (s.modCore c f).me = s.me := rfl
@[simp] theorem State.modCore_others (s : State) (c : Nat) (f : CoreReg → CoreReg) : (s.modCore c f).others = s.others := rfl
@[simp] theorem State.modCore_crews (s : State) (c : Nat) (f : CoreReg → CoreReg) : (s.modCore c f).crews = s.crews := rfl
@[simp] theorem State.modCore_grids (s : State) (c : Nat) (f : CoreReg → CoreReg) : (s.modCore c f).grids = s.grids := rfl
@[simp] theorem State.modCore_queues (s : State) (c : Nat) (f : CoreReg → CoreReg) : (s.modCore c f).queues = s.queues := rfl
@[simp] theorem State.modCore_heaps (s : State) (c : Nat) (f : CoreReg → CoreReg) : (s.modCore c f).heaps = s.heaps := rfl
@[simp] theorem State.modCore_parts (s : State) (c : Nat) (f : CoreReg → CoreReg) : (s.modCore c f).parts = s.parts := rfl
@[simp] theorem State.modCore_assigns (s : State) (c : Nat) (f : CoreReg → CoreReg) : (s.modCore c f).assigns = s.assigns := rfl
@[simp] theorem State.modCore_vfs (s : State) (c : Nat) (f : CoreReg → CoreReg) : (s.modCore c f).vfs = s.vfs := rfl
@[simp] theorem State.modCore_cores (s : State) (c : Nat) (f : CoreReg → CoreReg) : (s.modCore c f).cores = tmod {} s.cores c f := rfl
@[simp] theorem State.modCore_banks (s : State) (c : Nat) (f : CoreReg → CoreReg) : (s.modCore c f).banks = s.banks := rfl
@[simp] theorem State.modCore_mem (s : State) (c : Nat) (f : CoreReg → CoreReg) : (s.modCore c f).mem = s.mem := rfl
@[simp] theorem State.modCore_mpois (s : State) (c : Nat) (f : CoreReg → CoreReg) : (s.modCore c f).mpois = s.mpois := rfl
@[simp] theorem State.modCore_full (s : State) (c : Nat) (f : CoreReg → CoreReg) : (s.modCore c f).full = s.full := rfl
@[simp] theorem State.modCore_sbuf (s : State) (c : Nat) (f : CoreReg → CoreReg) : (s.modCore c f).sbuf = s.sbuf := rfl
@[simp] theorem State.modCore_l1 (s : State) (c : Nat) (f : CoreReg → CoreReg) : (s.modCore c f).l1 = s.l1 := rfl
@[simp] theorem State.modCore_stash (s : State) (c : Nat) (f : CoreReg → CoreReg) : (s.modCore c f).stash = s.stash := rfl
@[simp] theorem State.modCore_dcache (s : State) (c : Nat) (f : CoreReg → CoreReg) : (s.modCore c f).dcache = s.dcache := rfl
@[simp] theorem State.modCore_desc (s : State) (c : Nat) (f : CoreReg → CoreReg) : (s.modCore c f).desc = s.desc := rfl
@[simp] theorem State.modCore_old (s : State) (c : Nat) (f : CoreReg → CoreReg) : (s.modCore c f).old = s.old := rfl
@[simp] theorem State.modCore_colls (s : State) (c : Nat) (f : CoreReg → CoreReg) : (s.modCore c f).colls = s.colls := rfl
@[simp] theorem State.modCore_groups (s : State) (c : Nat) (f : CoreReg → CoreReg) : (s.modCore c f).groups = s.groups := rfl
@[simp] theorem State.modCore_gangs (s : State) (c : Nat) (f : CoreReg → CoreReg) : (s.modCore c f).gangs = s.gangs := rfl
@[simp] theorem State.modCore_moved (s : State) (c : Nat) (f : CoreReg → CoreReg) : (s.modCore c f).moved = s.moved := rfl
@[simp] theorem State.modCore_chOwner (s : State) (c : Nat) (f : CoreReg → CoreReg) : (s.modCore c f).chOwner = s.chOwner := rfl
@[simp] theorem State.modCore_t2lost (s : State) (c : Nat) (f : CoreReg → CoreReg) : (s.modCore c f).t2lost = s.t2lost := rfl
@[simp] theorem State.modCore_ports (s : State) (c : Nat) (f : CoreReg → CoreReg) : (s.modCore c f).ports = s.ports := rfl
@[simp] theorem State.modCore_rstores (s : State) (c : Nat) (f : CoreReg → CoreReg) : (s.modCore c f).rstores = s.rstores := rfl
@[simp] theorem State.modCore_linkFail (s : State) (c : Nat) (f : CoreReg → CoreReg) : (s.modCore c f).linkFail = s.linkFail := rfl
@[simp] theorem State.modCore_unreachable (s : State) (c : Nat) (f : CoreReg → CoreReg) : (s.modCore c f).unreachable = s.unreachable := rfl
@[simp] theorem State.modCore_hyp (s : State) (c : Nat) (f : CoreReg → CoreReg) : (s.modCore c f).hyp = s.hyp := rfl
@[simp] theorem State.modCore_ras (s : State) (c : Nat) (f : CoreReg → CoreReg) : (s.modCore c f).ras = s.ras := rfl
@[simp] theorem State.modCore_assayer (s : State) (c : Nat) (f : CoreReg → CoreReg) : (s.modCore c f).assayer = s.assayer := rfl
@[simp] theorem State.modCore_limner (s : State) (c : Nat) (f : CoreReg → CoreReg) : (s.modCore c f).limner = s.limner := rfl
@[simp] theorem State.modCore_freeze (s : State) (c : Nat) (f : CoreReg → CoreReg) : (s.modCore c f).freeze = s.freeze := rfl
@[simp] theorem State.modCore_plat (s : State) (c : Nat) (f : CoreReg → CoreReg) : (s.modCore c f).plat = s.plat := rfl
@[simp] theorem State.modCore_flash (s : State) (c : Nat) (f : CoreReg → CoreReg) : (s.modCore c f).flash = s.flash := rfl
@[simp] theorem State.modCore_outbox (s : State) (c : Nat) (f : CoreReg → CoreReg) : (s.modCore c f).outbox = s.outbox := rfl
@[simp] theorem State.modCore_nextGrid (s : State) (c : Nat) (f : CoreReg → CoreReg) : (s.modCore c f).nextGrid = s.nextGrid := rfl
@[simp] theorem State.modCore_nextCrew (s : State) (c : Nat) (f : CoreReg → CoreReg) : (s.modCore c f).nextCrew = s.nextCrew := rfl
@[simp] theorem State.modCore_serial (s : State) (c : Nat) (f : CoreReg → CoreReg) : (s.modCore c f).serial = s.serial := rfl
@[simp] theorem State.modCore_posted (s : State) (c : Nat) (f : CoreReg → CoreReg) : (s.modCore c f).posted = s.posted := rfl
@[simp] theorem State.modCore_events (s : State) (c : Nat) (f : CoreReg → CoreReg) : (s.modCore c f).events = s.events := rfl
@[simp] theorem State.modCore_input (s : State) (c : Nat) (f : CoreReg → CoreReg) : (s.modCore c f).input = s.input := rfl
@[simp] theorem State.modCore_schedule (s : State) (c : Nat) (f : CoreReg → CoreReg) : (s.modCore c f).schedule = s.schedule := rfl
@[simp] theorem State.modCore_deferred (s : State) (c : Nat) (f : CoreReg → CoreReg) : (s.modCore c f).deferred = s.deferred := rfl
@[simp] theorem State.modCore_draws (s : State) (c : Nat) (f : CoreReg → CoreReg) : (s.modCore c f).draws = s.draws := rfl
@[simp] theorem State.modCore_turn (s : State) (c : Nat) (f : CoreReg → CoreReg) : (s.modCore c f).turn = s.turn := rfl

/-! ### `modMyCrew` -/

@[simp] theorem State.modMyCrew_powered (s : State) (f : Crew → Crew) : (s.modMyCrew f).powered = s.powered := rfl
@[simp] theorem State.modMyCrew_cycle (s : State) (f : Crew → Crew) : (s.modMyCrew f).cycle = s.cycle := rfl
@[simp] theorem State.modMyCrew_cur (s : State) (f : Crew → Crew) : (s.modMyCrew f).cur = s.cur := rfl
@[simp] theorem State.modMyCrew_me (s : State) (f : Crew → Crew) : (s.modMyCrew f).me = s.me := rfl
@[simp] theorem State.modMyCrew_others (s : State) (f : Crew → Crew) : (s.modMyCrew f).others = s.others := rfl
@[simp] theorem State.modMyCrew_crews (s : State) (f : Crew → Crew) : (s.modMyCrew f).crews = tmod {} s.crews s.me.crew f := rfl
@[simp] theorem State.modMyCrew_grids (s : State) (f : Crew → Crew) : (s.modMyCrew f).grids = s.grids := rfl
@[simp] theorem State.modMyCrew_queues (s : State) (f : Crew → Crew) : (s.modMyCrew f).queues = s.queues := rfl
@[simp] theorem State.modMyCrew_heaps (s : State) (f : Crew → Crew) : (s.modMyCrew f).heaps = s.heaps := rfl
@[simp] theorem State.modMyCrew_parts (s : State) (f : Crew → Crew) : (s.modMyCrew f).parts = s.parts := rfl
@[simp] theorem State.modMyCrew_assigns (s : State) (f : Crew → Crew) : (s.modMyCrew f).assigns = s.assigns := rfl
@[simp] theorem State.modMyCrew_vfs (s : State) (f : Crew → Crew) : (s.modMyCrew f).vfs = s.vfs := rfl
@[simp] theorem State.modMyCrew_cores (s : State) (f : Crew → Crew) : (s.modMyCrew f).cores = s.cores := rfl
@[simp] theorem State.modMyCrew_banks (s : State) (f : Crew → Crew) : (s.modMyCrew f).banks = s.banks := rfl
@[simp] theorem State.modMyCrew_mem (s : State) (f : Crew → Crew) : (s.modMyCrew f).mem = s.mem := rfl
@[simp] theorem State.modMyCrew_mpois (s : State) (f : Crew → Crew) : (s.modMyCrew f).mpois = s.mpois := rfl
@[simp] theorem State.modMyCrew_full (s : State) (f : Crew → Crew) : (s.modMyCrew f).full = s.full := rfl
@[simp] theorem State.modMyCrew_sbuf (s : State) (f : Crew → Crew) : (s.modMyCrew f).sbuf = s.sbuf := rfl
@[simp] theorem State.modMyCrew_l1 (s : State) (f : Crew → Crew) : (s.modMyCrew f).l1 = s.l1 := rfl
@[simp] theorem State.modMyCrew_stash (s : State) (f : Crew → Crew) : (s.modMyCrew f).stash = s.stash := rfl
@[simp] theorem State.modMyCrew_dcache (s : State) (f : Crew → Crew) : (s.modMyCrew f).dcache = s.dcache := rfl
@[simp] theorem State.modMyCrew_desc (s : State) (f : Crew → Crew) : (s.modMyCrew f).desc = s.desc := rfl
@[simp] theorem State.modMyCrew_old (s : State) (f : Crew → Crew) : (s.modMyCrew f).old = s.old := rfl
@[simp] theorem State.modMyCrew_colls (s : State) (f : Crew → Crew) : (s.modMyCrew f).colls = s.colls := rfl
@[simp] theorem State.modMyCrew_groups (s : State) (f : Crew → Crew) : (s.modMyCrew f).groups = s.groups := rfl
@[simp] theorem State.modMyCrew_gangs (s : State) (f : Crew → Crew) : (s.modMyCrew f).gangs = s.gangs := rfl
@[simp] theorem State.modMyCrew_moved (s : State) (f : Crew → Crew) : (s.modMyCrew f).moved = s.moved := rfl
@[simp] theorem State.modMyCrew_chOwner (s : State) (f : Crew → Crew) : (s.modMyCrew f).chOwner = s.chOwner := rfl
@[simp] theorem State.modMyCrew_t2lost (s : State) (f : Crew → Crew) : (s.modMyCrew f).t2lost = s.t2lost := rfl
@[simp] theorem State.modMyCrew_ports (s : State) (f : Crew → Crew) : (s.modMyCrew f).ports = s.ports := rfl
@[simp] theorem State.modMyCrew_rstores (s : State) (f : Crew → Crew) : (s.modMyCrew f).rstores = s.rstores := rfl
@[simp] theorem State.modMyCrew_linkFail (s : State) (f : Crew → Crew) : (s.modMyCrew f).linkFail = s.linkFail := rfl
@[simp] theorem State.modMyCrew_unreachable (s : State) (f : Crew → Crew) : (s.modMyCrew f).unreachable = s.unreachable := rfl
@[simp] theorem State.modMyCrew_hyp (s : State) (f : Crew → Crew) : (s.modMyCrew f).hyp = s.hyp := rfl
@[simp] theorem State.modMyCrew_ras (s : State) (f : Crew → Crew) : (s.modMyCrew f).ras = s.ras := rfl
@[simp] theorem State.modMyCrew_assayer (s : State) (f : Crew → Crew) : (s.modMyCrew f).assayer = s.assayer := rfl
@[simp] theorem State.modMyCrew_limner (s : State) (f : Crew → Crew) : (s.modMyCrew f).limner = s.limner := rfl
@[simp] theorem State.modMyCrew_freeze (s : State) (f : Crew → Crew) : (s.modMyCrew f).freeze = s.freeze := rfl
@[simp] theorem State.modMyCrew_plat (s : State) (f : Crew → Crew) : (s.modMyCrew f).plat = s.plat := rfl
@[simp] theorem State.modMyCrew_flash (s : State) (f : Crew → Crew) : (s.modMyCrew f).flash = s.flash := rfl
@[simp] theorem State.modMyCrew_outbox (s : State) (f : Crew → Crew) : (s.modMyCrew f).outbox = s.outbox := rfl
@[simp] theorem State.modMyCrew_nextGrid (s : State) (f : Crew → Crew) : (s.modMyCrew f).nextGrid = s.nextGrid := rfl
@[simp] theorem State.modMyCrew_nextCrew (s : State) (f : Crew → Crew) : (s.modMyCrew f).nextCrew = s.nextCrew := rfl
@[simp] theorem State.modMyCrew_serial (s : State) (f : Crew → Crew) : (s.modMyCrew f).serial = s.serial := rfl
@[simp] theorem State.modMyCrew_posted (s : State) (f : Crew → Crew) : (s.modMyCrew f).posted = s.posted := rfl
@[simp] theorem State.modMyCrew_events (s : State) (f : Crew → Crew) : (s.modMyCrew f).events = s.events := rfl
@[simp] theorem State.modMyCrew_input (s : State) (f : Crew → Crew) : (s.modMyCrew f).input = s.input := rfl
@[simp] theorem State.modMyCrew_schedule (s : State) (f : Crew → Crew) : (s.modMyCrew f).schedule = s.schedule := rfl
@[simp] theorem State.modMyCrew_deferred (s : State) (f : Crew → Crew) : (s.modMyCrew f).deferred = s.deferred := rfl
@[simp] theorem State.modMyCrew_draws (s : State) (f : Crew → Crew) : (s.modMyCrew f).draws = s.draws := rfl
@[simp] theorem State.modMyCrew_turn (s : State) (f : Crew → Crew) : (s.modMyCrew f).turn = s.turn := rfl

/-! ### `wr` -/

@[simp] theorem State.wr_powered (s : State) (r : SReg) (v : Word) : (s.wr r v).powered = s.powered := rfl
@[simp] theorem State.wr_cycle (s : State) (r : SReg) (v : Word) : (s.wr r v).cycle = s.cycle := rfl
@[simp] theorem State.wr_cur (s : State) (r : SReg) (v : Word) : (s.wr r v).cur = s.cur := rfl
@[simp] theorem State.wr_me (s : State) (r : SReg) (v : Word) : (s.wr r v).me = s.me.wr r v := rfl
@[simp] theorem State.wr_others (s : State) (r : SReg) (v : Word) : (s.wr r v).others = s.others := rfl
@[simp] theorem State.wr_crews (s : State) (r : SReg) (v : Word) : (s.wr r v).crews = s.crews := rfl
@[simp] theorem State.wr_grids (s : State) (r : SReg) (v : Word) : (s.wr r v).grids = s.grids := rfl
@[simp] theorem State.wr_queues (s : State) (r : SReg) (v : Word) : (s.wr r v).queues = s.queues := rfl
@[simp] theorem State.wr_heaps (s : State) (r : SReg) (v : Word) : (s.wr r v).heaps = s.heaps := rfl
@[simp] theorem State.wr_parts (s : State) (r : SReg) (v : Word) : (s.wr r v).parts = s.parts := rfl
@[simp] theorem State.wr_assigns (s : State) (r : SReg) (v : Word) : (s.wr r v).assigns = s.assigns := rfl
@[simp] theorem State.wr_vfs (s : State) (r : SReg) (v : Word) : (s.wr r v).vfs = s.vfs := rfl
@[simp] theorem State.wr_cores (s : State) (r : SReg) (v : Word) : (s.wr r v).cores = s.cores := rfl
@[simp] theorem State.wr_banks (s : State) (r : SReg) (v : Word) : (s.wr r v).banks = s.banks := rfl
@[simp] theorem State.wr_mem (s : State) (r : SReg) (v : Word) : (s.wr r v).mem = s.mem := rfl
@[simp] theorem State.wr_mpois (s : State) (r : SReg) (v : Word) : (s.wr r v).mpois = s.mpois := rfl
@[simp] theorem State.wr_full (s : State) (r : SReg) (v : Word) : (s.wr r v).full = s.full := rfl
@[simp] theorem State.wr_sbuf (s : State) (r : SReg) (v : Word) : (s.wr r v).sbuf = s.sbuf := rfl
@[simp] theorem State.wr_l1 (s : State) (r : SReg) (v : Word) : (s.wr r v).l1 = s.l1 := rfl
@[simp] theorem State.wr_stash (s : State) (r : SReg) (v : Word) : (s.wr r v).stash = s.stash := rfl
@[simp] theorem State.wr_dcache (s : State) (r : SReg) (v : Word) : (s.wr r v).dcache = s.dcache := rfl
@[simp] theorem State.wr_desc (s : State) (r : SReg) (v : Word) : (s.wr r v).desc = s.desc := rfl
@[simp] theorem State.wr_old (s : State) (r : SReg) (v : Word) : (s.wr r v).old = s.old := rfl
@[simp] theorem State.wr_colls (s : State) (r : SReg) (v : Word) : (s.wr r v).colls = s.colls := rfl
@[simp] theorem State.wr_groups (s : State) (r : SReg) (v : Word) : (s.wr r v).groups = s.groups := rfl
@[simp] theorem State.wr_gangs (s : State) (r : SReg) (v : Word) : (s.wr r v).gangs = s.gangs := rfl
@[simp] theorem State.wr_moved (s : State) (r : SReg) (v : Word) : (s.wr r v).moved = s.moved := rfl
@[simp] theorem State.wr_chOwner (s : State) (r : SReg) (v : Word) : (s.wr r v).chOwner = s.chOwner := rfl
@[simp] theorem State.wr_t2lost (s : State) (r : SReg) (v : Word) : (s.wr r v).t2lost = s.t2lost := rfl
@[simp] theorem State.wr_ports (s : State) (r : SReg) (v : Word) : (s.wr r v).ports = s.ports := rfl
@[simp] theorem State.wr_rstores (s : State) (r : SReg) (v : Word) : (s.wr r v).rstores = s.rstores := rfl
@[simp] theorem State.wr_linkFail (s : State) (r : SReg) (v : Word) : (s.wr r v).linkFail = s.linkFail := rfl
@[simp] theorem State.wr_unreachable (s : State) (r : SReg) (v : Word) : (s.wr r v).unreachable = s.unreachable := rfl
@[simp] theorem State.wr_hyp (s : State) (r : SReg) (v : Word) : (s.wr r v).hyp = s.hyp := rfl
@[simp] theorem State.wr_ras (s : State) (r : SReg) (v : Word) : (s.wr r v).ras = s.ras := rfl
@[simp] theorem State.wr_assayer (s : State) (r : SReg) (v : Word) : (s.wr r v).assayer = s.assayer := rfl
@[simp] theorem State.wr_limner (s : State) (r : SReg) (v : Word) : (s.wr r v).limner = s.limner := rfl
@[simp] theorem State.wr_freeze (s : State) (r : SReg) (v : Word) : (s.wr r v).freeze = s.freeze := rfl
@[simp] theorem State.wr_plat (s : State) (r : SReg) (v : Word) : (s.wr r v).plat = s.plat := rfl
@[simp] theorem State.wr_flash (s : State) (r : SReg) (v : Word) : (s.wr r v).flash = s.flash := rfl
@[simp] theorem State.wr_outbox (s : State) (r : SReg) (v : Word) : (s.wr r v).outbox = s.outbox := rfl
@[simp] theorem State.wr_nextGrid (s : State) (r : SReg) (v : Word) : (s.wr r v).nextGrid = s.nextGrid := rfl
@[simp] theorem State.wr_nextCrew (s : State) (r : SReg) (v : Word) : (s.wr r v).nextCrew = s.nextCrew := rfl
@[simp] theorem State.wr_serial (s : State) (r : SReg) (v : Word) : (s.wr r v).serial = s.serial := rfl
@[simp] theorem State.wr_posted (s : State) (r : SReg) (v : Word) : (s.wr r v).posted = s.posted := rfl
@[simp] theorem State.wr_events (s : State) (r : SReg) (v : Word) : (s.wr r v).events = s.events := rfl
@[simp] theorem State.wr_input (s : State) (r : SReg) (v : Word) : (s.wr r v).input = s.input := rfl
@[simp] theorem State.wr_schedule (s : State) (r : SReg) (v : Word) : (s.wr r v).schedule = s.schedule := rfl
@[simp] theorem State.wr_deferred (s : State) (r : SReg) (v : Word) : (s.wr r v).deferred = s.deferred := rfl
@[simp] theorem State.wr_draws (s : State) (r : SReg) (v : Word) : (s.wr r v).draws = s.draws := rfl
@[simp] theorem State.wr_turn (s : State) (r : SReg) (v : Word) : (s.wr r v).turn = s.turn := rfl

/-! ### `tick` -/

@[simp] theorem tick_powered (n : Nat) (s : State) : (tick n s).powered = s.powered := rfl
@[simp] theorem tick_cycle (n : Nat) (s : State) : (tick n s).cycle = s.cycle + n := rfl
@[simp] theorem tick_cur (n : Nat) (s : State) : (tick n s).cur = s.cur := rfl
@[simp] theorem tick_me (n : Nat) (s : State) : (tick n s).me = s.me := rfl
@[simp] theorem tick_others (n : Nat) (s : State) : (tick n s).others = s.others := rfl
@[simp] theorem tick_crews (n : Nat) (s : State) : (tick n s).crews = s.crews := rfl
@[simp] theorem tick_grids (n : Nat) (s : State) : (tick n s).grids = s.grids := rfl
@[simp] theorem tick_queues (n : Nat) (s : State) : (tick n s).queues = s.queues := rfl
@[simp] theorem tick_heaps (n : Nat) (s : State) : (tick n s).heaps = s.heaps := rfl
@[simp] theorem tick_parts (n : Nat) (s : State) : (tick n s).parts = s.parts := rfl
@[simp] theorem tick_assigns (n : Nat) (s : State) : (tick n s).assigns = s.assigns := rfl
@[simp] theorem tick_vfs (n : Nat) (s : State) : (tick n s).vfs = s.vfs := rfl
@[simp] theorem tick_cores (n : Nat) (s : State) : (tick n s).cores = s.cores := rfl
@[simp] theorem tick_banks (n : Nat) (s : State) : (tick n s).banks = s.banks := rfl
@[simp] theorem tick_mem (n : Nat) (s : State) : (tick n s).mem = s.mem := rfl
@[simp] theorem tick_mpois (n : Nat) (s : State) : (tick n s).mpois = s.mpois := rfl
@[simp] theorem tick_full (n : Nat) (s : State) : (tick n s).full = s.full := rfl
@[simp] theorem tick_sbuf (n : Nat) (s : State) : (tick n s).sbuf = s.sbuf := rfl
@[simp] theorem tick_l1 (n : Nat) (s : State) : (tick n s).l1 = s.l1 := rfl
@[simp] theorem tick_stash (n : Nat) (s : State) : (tick n s).stash = s.stash := rfl
@[simp] theorem tick_dcache (n : Nat) (s : State) : (tick n s).dcache = s.dcache := rfl
@[simp] theorem tick_desc (n : Nat) (s : State) : (tick n s).desc = s.desc := rfl
@[simp] theorem tick_old (n : Nat) (s : State) : (tick n s).old = s.old := rfl
@[simp] theorem tick_colls (n : Nat) (s : State) : (tick n s).colls = s.colls := rfl
@[simp] theorem tick_groups (n : Nat) (s : State) : (tick n s).groups = s.groups := rfl
@[simp] theorem tick_gangs (n : Nat) (s : State) : (tick n s).gangs = s.gangs := rfl
@[simp] theorem tick_moved (n : Nat) (s : State) : (tick n s).moved = s.moved := rfl
@[simp] theorem tick_chOwner (n : Nat) (s : State) : (tick n s).chOwner = s.chOwner := rfl
@[simp] theorem tick_t2lost (n : Nat) (s : State) : (tick n s).t2lost = s.t2lost := rfl
@[simp] theorem tick_ports (n : Nat) (s : State) : (tick n s).ports = s.ports := rfl
@[simp] theorem tick_rstores (n : Nat) (s : State) : (tick n s).rstores = s.rstores := rfl
@[simp] theorem tick_linkFail (n : Nat) (s : State) : (tick n s).linkFail = s.linkFail := rfl
@[simp] theorem tick_unreachable (n : Nat) (s : State) : (tick n s).unreachable = s.unreachable := rfl
@[simp] theorem tick_hyp (n : Nat) (s : State) : (tick n s).hyp = s.hyp := rfl
@[simp] theorem tick_ras (n : Nat) (s : State) : (tick n s).ras = s.ras := rfl
@[simp] theorem tick_assayer (n : Nat) (s : State) : (tick n s).assayer = s.assayer := rfl
@[simp] theorem tick_limner (n : Nat) (s : State) : (tick n s).limner = s.limner := rfl
@[simp] theorem tick_freeze (n : Nat) (s : State) : (tick n s).freeze = s.freeze := rfl
@[simp] theorem tick_plat (n : Nat) (s : State) : (tick n s).plat = s.plat := rfl
@[simp] theorem tick_flash (n : Nat) (s : State) : (tick n s).flash = s.flash := rfl
@[simp] theorem tick_outbox (n : Nat) (s : State) : (tick n s).outbox = s.outbox := rfl
@[simp] theorem tick_nextGrid (n : Nat) (s : State) : (tick n s).nextGrid = s.nextGrid := rfl
@[simp] theorem tick_nextCrew (n : Nat) (s : State) : (tick n s).nextCrew = s.nextCrew := rfl
@[simp] theorem tick_serial (n : Nat) (s : State) : (tick n s).serial = s.serial := rfl
@[simp] theorem tick_posted (n : Nat) (s : State) : (tick n s).posted = s.posted := rfl
@[simp] theorem tick_events (n : Nat) (s : State) : (tick n s).events = s.events := rfl
@[simp] theorem tick_input (n : Nat) (s : State) : (tick n s).input = s.input := rfl
@[simp] theorem tick_schedule (n : Nat) (s : State) : (tick n s).schedule = s.schedule := rfl
@[simp] theorem tick_deferred (n : Nat) (s : State) : (tick n s).deferred = s.deferred := rfl
@[simp] theorem tick_draws (n : Nat) (s : State) : (tick n s).draws = s.draws := rfl
@[simp] theorem tick_turn (n : Nat) (s : State) : (tick n s).turn = s.turn := rfl

/-! ### `finish` -/

@[simp] theorem finish_powered (s : State) : (finish s).powered = s.powered := rfl
@[simp] theorem finish_cycle (s : State) : (finish s).cycle = s.cycle + (1 + s.me.ir.sc) := rfl
@[simp] theorem finish_cur (s : State) : (finish s).cur = s.cur := rfl
@[simp] theorem finish_me (s : State) : (finish s).me = { s.me.age (1 + s.me.ir.sc) with pc := nextPc s.me, via := {}, carry := none, failed := [] } := rfl
@[simp] theorem finish_others (s : State) : (finish s).others = s.others := rfl
@[simp] theorem finish_crews (s : State) : (finish s).crews = s.crews := rfl
@[simp] theorem finish_grids (s : State) : (finish s).grids = s.grids := rfl
@[simp] theorem finish_queues (s : State) : (finish s).queues = s.queues := rfl
@[simp] theorem finish_heaps (s : State) : (finish s).heaps = s.heaps := rfl
@[simp] theorem finish_parts (s : State) : (finish s).parts = s.parts := rfl
@[simp] theorem finish_assigns (s : State) : (finish s).assigns = s.assigns := rfl
@[simp] theorem finish_vfs (s : State) : (finish s).vfs = s.vfs := rfl
@[simp] theorem finish_cores (s : State) : (finish s).cores = s.cores := rfl
@[simp] theorem finish_banks (s : State) : (finish s).banks = s.banks := rfl
@[simp] theorem finish_mem (s : State) : (finish s).mem = s.mem := rfl
@[simp] theorem finish_mpois (s : State) : (finish s).mpois = s.mpois := rfl
@[simp] theorem finish_full (s : State) : (finish s).full = s.full := rfl
@[simp] theorem finish_sbuf (s : State) : (finish s).sbuf = s.sbuf := rfl
@[simp] theorem finish_l1 (s : State) : (finish s).l1 = s.l1 := rfl
@[simp] theorem finish_stash (s : State) : (finish s).stash = s.stash := rfl
@[simp] theorem finish_dcache (s : State) : (finish s).dcache = s.dcache := rfl
@[simp] theorem finish_desc (s : State) : (finish s).desc = s.desc := rfl
@[simp] theorem finish_old (s : State) : (finish s).old = s.old := rfl
@[simp] theorem finish_colls (s : State) : (finish s).colls = s.colls := rfl
@[simp] theorem finish_groups (s : State) : (finish s).groups = s.groups := rfl
@[simp] theorem finish_gangs (s : State) : (finish s).gangs = s.gangs := rfl
@[simp] theorem finish_moved (s : State) : (finish s).moved = s.moved := rfl
@[simp] theorem finish_chOwner (s : State) : (finish s).chOwner = s.chOwner := rfl
@[simp] theorem finish_t2lost (s : State) : (finish s).t2lost = s.t2lost := rfl
@[simp] theorem finish_ports (s : State) : (finish s).ports = s.ports := rfl
@[simp] theorem finish_rstores (s : State) : (finish s).rstores = s.rstores := rfl
@[simp] theorem finish_linkFail (s : State) : (finish s).linkFail = s.linkFail := rfl
@[simp] theorem finish_unreachable (s : State) : (finish s).unreachable = s.unreachable := rfl
@[simp] theorem finish_hyp (s : State) : (finish s).hyp = s.hyp := rfl
@[simp] theorem finish_ras (s : State) : (finish s).ras = s.ras := rfl
@[simp] theorem finish_assayer (s : State) : (finish s).assayer = s.assayer := rfl
@[simp] theorem finish_limner (s : State) : (finish s).limner = s.limner := rfl
@[simp] theorem finish_freeze (s : State) : (finish s).freeze = s.freeze := rfl
@[simp] theorem finish_plat (s : State) : (finish s).plat = s.plat := rfl
@[simp] theorem finish_flash (s : State) : (finish s).flash = s.flash := rfl
@[simp] theorem finish_outbox (s : State) : (finish s).outbox = s.outbox := rfl
@[simp] theorem finish_nextGrid (s : State) : (finish s).nextGrid = s.nextGrid := rfl
@[simp] theorem finish_nextCrew (s : State) : (finish s).nextCrew = s.nextCrew := rfl
@[simp] theorem finish_serial (s : State) : (finish s).serial = s.serial := rfl
@[simp] theorem finish_posted (s : State) : (finish s).posted = s.posted := rfl
@[simp] theorem finish_events (s : State) : (finish s).events = s.events := rfl
@[simp] theorem finish_input (s : State) : (finish s).input = s.input := rfl
@[simp] theorem finish_schedule (s : State) : (finish s).schedule = s.schedule := rfl
@[simp] theorem finish_deferred (s : State) : (finish s).deferred = s.deferred := rfl
@[simp] theorem finish_draws (s : State) : (finish s).draws = s.draws := rfl
@[simp] theorem finish_turn (s : State) : (finish s).turn = s.turn := rfl

/-! ### `finishTo` -/

@[simp] theorem finishTo_powered (p : Word) (s : State) : (finishTo p s).powered = s.powered := rfl
@[simp] theorem finishTo_cycle (p : Word) (s : State) : (finishTo p s).cycle = s.cycle + (1 + s.me.ir.sc) := rfl
@[simp] theorem finishTo_cur (p : Word) (s : State) : (finishTo p s).cur = s.cur := rfl
@[simp] theorem finishTo_me (p : Word) (s : State) : (finishTo p s).me = { s.me.age (1 + s.me.ir.sc) with
    pc := p, via := s.me.ir, carry := none, failed := [], line := if p.toNat / 64 = s.me.pc.toNat / 64 then s.me.line else none } := rfl
@[simp] theorem finishTo_others (p : Word) (s : State) : (finishTo p s).others = s.others := rfl
@[simp] theorem finishTo_crews (p : Word) (s : State) : (finishTo p s).crews = s.crews := rfl
@[simp] theorem finishTo_grids (p : Word) (s : State) : (finishTo p s).grids = s.grids := rfl
@[simp] theorem finishTo_queues (p : Word) (s : State) : (finishTo p s).queues = s.queues := rfl
@[simp] theorem finishTo_heaps (p : Word) (s : State) : (finishTo p s).heaps = s.heaps := rfl
@[simp] theorem finishTo_parts (p : Word) (s : State) : (finishTo p s).parts = s.parts := rfl
@[simp] theorem finishTo_assigns (p : Word) (s : State) : (finishTo p s).assigns = s.assigns := rfl
@[simp] theorem finishTo_vfs (p : Word) (s : State) : (finishTo p s).vfs = s.vfs := rfl
@[simp] theorem finishTo_cores (p : Word) (s : State) : (finishTo p s).cores = s.cores := rfl
@[simp] theorem finishTo_banks (p : Word) (s : State) : (finishTo p s).banks = s.banks := rfl
@[simp] theorem finishTo_mem (p : Word) (s : State) : (finishTo p s).mem = s.mem := rfl
@[simp] theorem finishTo_mpois (p : Word) (s : State) : (finishTo p s).mpois = s.mpois := rfl
@[simp] theorem finishTo_full (p : Word) (s : State) : (finishTo p s).full = s.full := rfl
@[simp] theorem finishTo_sbuf (p : Word) (s : State) : (finishTo p s).sbuf = s.sbuf := rfl
@[simp] theorem finishTo_l1 (p : Word) (s : State) : (finishTo p s).l1 = s.l1 := rfl
@[simp] theorem finishTo_stash (p : Word) (s : State) : (finishTo p s).stash = s.stash := rfl
@[simp] theorem finishTo_dcache (p : Word) (s : State) : (finishTo p s).dcache = s.dcache := rfl
@[simp] theorem finishTo_desc (p : Word) (s : State) : (finishTo p s).desc = s.desc := rfl
@[simp] theorem finishTo_old (p : Word) (s : State) : (finishTo p s).old = s.old := rfl
@[simp] theorem finishTo_colls (p : Word) (s : State) : (finishTo p s).colls = s.colls := rfl
@[simp] theorem finishTo_groups (p : Word) (s : State) : (finishTo p s).groups = s.groups := rfl
@[simp] theorem finishTo_gangs (p : Word) (s : State) : (finishTo p s).gangs = s.gangs := rfl
@[simp] theorem finishTo_moved (p : Word) (s : State) : (finishTo p s).moved = s.moved := rfl
@[simp] theorem finishTo_chOwner (p : Word) (s : State) : (finishTo p s).chOwner = s.chOwner := rfl
@[simp] theorem finishTo_t2lost (p : Word) (s : State) : (finishTo p s).t2lost = s.t2lost := rfl
@[simp] theorem finishTo_ports (p : Word) (s : State) : (finishTo p s).ports = s.ports := rfl
@[simp] theorem finishTo_rstores (p : Word) (s : State) : (finishTo p s).rstores = s.rstores := rfl
@[simp] theorem finishTo_linkFail (p : Word) (s : State) : (finishTo p s).linkFail = s.linkFail := rfl
@[simp] theorem finishTo_unreachable (p : Word) (s : State) : (finishTo p s).unreachable = s.unreachable := rfl
@[simp] theorem finishTo_hyp (p : Word) (s : State) : (finishTo p s).hyp = s.hyp := rfl
@[simp] theorem finishTo_ras (p : Word) (s : State) : (finishTo p s).ras = s.ras := rfl
@[simp] theorem finishTo_assayer (p : Word) (s : State) : (finishTo p s).assayer = s.assayer := rfl
@[simp] theorem finishTo_limner (p : Word) (s : State) : (finishTo p s).limner = s.limner := rfl
@[simp] theorem finishTo_freeze (p : Word) (s : State) : (finishTo p s).freeze = s.freeze := rfl
@[simp] theorem finishTo_plat (p : Word) (s : State) : (finishTo p s).plat = s.plat := rfl
@[simp] theorem finishTo_flash (p : Word) (s : State) : (finishTo p s).flash = s.flash := rfl
@[simp] theorem finishTo_outbox (p : Word) (s : State) : (finishTo p s).outbox = s.outbox := rfl
@[simp] theorem finishTo_nextGrid (p : Word) (s : State) : (finishTo p s).nextGrid = s.nextGrid := rfl
@[simp] theorem finishTo_nextCrew (p : Word) (s : State) : (finishTo p s).nextCrew = s.nextCrew := rfl
@[simp] theorem finishTo_serial (p : Word) (s : State) : (finishTo p s).serial = s.serial := rfl
@[simp] theorem finishTo_posted (p : Word) (s : State) : (finishTo p s).posted = s.posted := rfl
@[simp] theorem finishTo_events (p : Word) (s : State) : (finishTo p s).events = s.events := rfl
@[simp] theorem finishTo_input (p : Word) (s : State) : (finishTo p s).input = s.input := rfl
@[simp] theorem finishTo_schedule (p : Word) (s : State) : (finishTo p s).schedule = s.schedule := rfl
@[simp] theorem finishTo_deferred (p : Word) (s : State) : (finishTo p s).deferred = s.deferred := rfl
@[simp] theorem finishTo_draws (p : Word) (s : State) : (finishTo p s).draws = s.draws := rfl
@[simp] theorem finishTo_turn (p : Word) (s : State) : (finishTo p s).turn = s.turn := rfl

/-! ### `wrFixed` -/

@[simp] theorem State.wrFixed_powered (s : State) (r : SReg) (v : Word) (lat : Nat) : (s.wrFixed r v lat).powered = s.powered := by
  unfold State.wrFixed; split <;> rfl
@[simp] theorem State.wrFixed_cycle (s : State) (r : SReg) (v : Word) (lat : Nat) : (s.wrFixed r v lat).cycle = s.cycle := by
  unfold State.wrFixed; split <;> rfl
@[simp] theorem State.wrFixed_cur (s : State) (r : SReg) (v : Word) (lat : Nat) : (s.wrFixed r v lat).cur = s.cur := by
  unfold State.wrFixed; split <;> rfl
@[simp] theorem State.wrFixed_others (s : State) (r : SReg) (v : Word) (lat : Nat) : (s.wrFixed r v lat).others = s.others := by
  unfold State.wrFixed; split <;> rfl
@[simp] theorem State.wrFixed_crews (s : State) (r : SReg) (v : Word) (lat : Nat) : (s.wrFixed r v lat).crews = s.crews := by
  unfold State.wrFixed; split <;> rfl
@[simp] theorem State.wrFixed_grids (s : State) (r : SReg) (v : Word) (lat : Nat) : (s.wrFixed r v lat).grids = s.grids := by
  unfold State.wrFixed; split <;> rfl
@[simp] theorem State.wrFixed_queues (s : State) (r : SReg) (v : Word) (lat : Nat) : (s.wrFixed r v lat).queues = s.queues := by
  unfold State.wrFixed; split <;> rfl
@[simp] theorem State.wrFixed_heaps (s : State) (r : SReg) (v : Word) (lat : Nat) : (s.wrFixed r v lat).heaps = s.heaps := by
  unfold State.wrFixed; split <;> rfl
@[simp] theorem State.wrFixed_parts (s : State) (r : SReg) (v : Word) (lat : Nat) : (s.wrFixed r v lat).parts = s.parts := by
  unfold State.wrFixed; split <;> rfl
@[simp] theorem State.wrFixed_assigns (s : State) (r : SReg) (v : Word) (lat : Nat) : (s.wrFixed r v lat).assigns = s.assigns := by
  unfold State.wrFixed; split <;> rfl
@[simp] theorem State.wrFixed_vfs (s : State) (r : SReg) (v : Word) (lat : Nat) : (s.wrFixed r v lat).vfs = s.vfs := by
  unfold State.wrFixed; split <;> rfl
@[simp] theorem State.wrFixed_cores (s : State) (r : SReg) (v : Word) (lat : Nat) : (s.wrFixed r v lat).cores = s.cores := by
  unfold State.wrFixed; split <;> rfl
@[simp] theorem State.wrFixed_banks (s : State) (r : SReg) (v : Word) (lat : Nat) : (s.wrFixed r v lat).banks = s.banks := by
  unfold State.wrFixed; split <;> rfl
@[simp] theorem State.wrFixed_mem (s : State) (r : SReg) (v : Word) (lat : Nat) : (s.wrFixed r v lat).mem = s.mem := by
  unfold State.wrFixed; split <;> rfl
@[simp] theorem State.wrFixed_mpois (s : State) (r : SReg) (v : Word) (lat : Nat) : (s.wrFixed r v lat).mpois = s.mpois := by
  unfold State.wrFixed; split <;> rfl
@[simp] theorem State.wrFixed_full (s : State) (r : SReg) (v : Word) (lat : Nat) : (s.wrFixed r v lat).full = s.full := by
  unfold State.wrFixed; split <;> rfl
@[simp] theorem State.wrFixed_sbuf (s : State) (r : SReg) (v : Word) (lat : Nat) : (s.wrFixed r v lat).sbuf = s.sbuf := by
  unfold State.wrFixed; split <;> rfl
@[simp] theorem State.wrFixed_l1 (s : State) (r : SReg) (v : Word) (lat : Nat) : (s.wrFixed r v lat).l1 = s.l1 := by
  unfold State.wrFixed; split <;> rfl
@[simp] theorem State.wrFixed_stash (s : State) (r : SReg) (v : Word) (lat : Nat) : (s.wrFixed r v lat).stash = s.stash := by
  unfold State.wrFixed; split <;> rfl
@[simp] theorem State.wrFixed_dcache (s : State) (r : SReg) (v : Word) (lat : Nat) : (s.wrFixed r v lat).dcache = s.dcache := by
  unfold State.wrFixed; split <;> rfl
@[simp] theorem State.wrFixed_desc (s : State) (r : SReg) (v : Word) (lat : Nat) : (s.wrFixed r v lat).desc = s.desc := by
  unfold State.wrFixed; split <;> rfl
@[simp] theorem State.wrFixed_old (s : State) (r : SReg) (v : Word) (lat : Nat) : (s.wrFixed r v lat).old = s.old := by
  unfold State.wrFixed; split <;> rfl
@[simp] theorem State.wrFixed_colls (s : State) (r : SReg) (v : Word) (lat : Nat) : (s.wrFixed r v lat).colls = s.colls := by
  unfold State.wrFixed; split <;> rfl
@[simp] theorem State.wrFixed_groups (s : State) (r : SReg) (v : Word) (lat : Nat) : (s.wrFixed r v lat).groups = s.groups := by
  unfold State.wrFixed; split <;> rfl
@[simp] theorem State.wrFixed_gangs (s : State) (r : SReg) (v : Word) (lat : Nat) : (s.wrFixed r v lat).gangs = s.gangs := by
  unfold State.wrFixed; split <;> rfl
@[simp] theorem State.wrFixed_moved (s : State) (r : SReg) (v : Word) (lat : Nat) : (s.wrFixed r v lat).moved = s.moved := by
  unfold State.wrFixed; split <;> rfl
@[simp] theorem State.wrFixed_chOwner (s : State) (r : SReg) (v : Word) (lat : Nat) : (s.wrFixed r v lat).chOwner = s.chOwner := by
  unfold State.wrFixed; split <;> rfl
@[simp] theorem State.wrFixed_t2lost (s : State) (r : SReg) (v : Word) (lat : Nat) : (s.wrFixed r v lat).t2lost = s.t2lost := by
  unfold State.wrFixed; split <;> rfl
@[simp] theorem State.wrFixed_ports (s : State) (r : SReg) (v : Word) (lat : Nat) : (s.wrFixed r v lat).ports = s.ports := by
  unfold State.wrFixed; split <;> rfl
@[simp] theorem State.wrFixed_rstores (s : State) (r : SReg) (v : Word) (lat : Nat) : (s.wrFixed r v lat).rstores = s.rstores := by
  unfold State.wrFixed; split <;> rfl
@[simp] theorem State.wrFixed_linkFail (s : State) (r : SReg) (v : Word) (lat : Nat) : (s.wrFixed r v lat).linkFail = s.linkFail := by
  unfold State.wrFixed; split <;> rfl
@[simp] theorem State.wrFixed_unreachable (s : State) (r : SReg) (v : Word) (lat : Nat) : (s.wrFixed r v lat).unreachable = s.unreachable := by
  unfold State.wrFixed; split <;> rfl
@[simp] theorem State.wrFixed_hyp (s : State) (r : SReg) (v : Word) (lat : Nat) : (s.wrFixed r v lat).hyp = s.hyp := by
  unfold State.wrFixed; split <;> rfl
@[simp] theorem State.wrFixed_ras (s : State) (r : SReg) (v : Word) (lat : Nat) : (s.wrFixed r v lat).ras = s.ras := by
  unfold State.wrFixed; split <;> rfl
@[simp] theorem State.wrFixed_assayer (s : State) (r : SReg) (v : Word) (lat : Nat) : (s.wrFixed r v lat).assayer = s.assayer := by
  unfold State.wrFixed; split <;> rfl
@[simp] theorem State.wrFixed_limner (s : State) (r : SReg) (v : Word) (lat : Nat) : (s.wrFixed r v lat).limner = s.limner := by
  unfold State.wrFixed; split <;> rfl
@[simp] theorem State.wrFixed_freeze (s : State) (r : SReg) (v : Word) (lat : Nat) : (s.wrFixed r v lat).freeze = s.freeze := by
  unfold State.wrFixed; split <;> rfl
@[simp] theorem State.wrFixed_plat (s : State) (r : SReg) (v : Word) (lat : Nat) : (s.wrFixed r v lat).plat = s.plat := by
  unfold State.wrFixed; split <;> rfl
@[simp] theorem State.wrFixed_flash (s : State) (r : SReg) (v : Word) (lat : Nat) : (s.wrFixed r v lat).flash = s.flash := by
  unfold State.wrFixed; split <;> rfl
@[simp] theorem State.wrFixed_outbox (s : State) (r : SReg) (v : Word) (lat : Nat) : (s.wrFixed r v lat).outbox = s.outbox := by
  unfold State.wrFixed; split <;> rfl
@[simp] theorem State.wrFixed_nextGrid (s : State) (r : SReg) (v : Word) (lat : Nat) : (s.wrFixed r v lat).nextGrid = s.nextGrid := by
  unfold State.wrFixed; split <;> rfl
@[simp] theorem State.wrFixed_nextCrew (s : State) (r : SReg) (v : Word) (lat : Nat) : (s.wrFixed r v lat).nextCrew = s.nextCrew := by
  unfold State.wrFixed; split <;> rfl
@[simp] theorem State.wrFixed_serial (s : State) (r : SReg) (v : Word) (lat : Nat) : (s.wrFixed r v lat).serial = s.serial := by
  unfold State.wrFixed; split <;> rfl
@[simp] theorem State.wrFixed_posted (s : State) (r : SReg) (v : Word) (lat : Nat) : (s.wrFixed r v lat).posted = s.posted := by
  unfold State.wrFixed; split <;> rfl
@[simp] theorem State.wrFixed_events (s : State) (r : SReg) (v : Word) (lat : Nat) : (s.wrFixed r v lat).events = s.events := by
  unfold State.wrFixed; split <;> rfl
@[simp] theorem State.wrFixed_input (s : State) (r : SReg) (v : Word) (lat : Nat) : (s.wrFixed r v lat).input = s.input := by
  unfold State.wrFixed; split <;> rfl
@[simp] theorem State.wrFixed_schedule (s : State) (r : SReg) (v : Word) (lat : Nat) : (s.wrFixed r v lat).schedule = s.schedule := by
  unfold State.wrFixed; split <;> rfl
@[simp] theorem State.wrFixed_deferred (s : State) (r : SReg) (v : Word) (lat : Nat) : (s.wrFixed r v lat).deferred = s.deferred := by
  unfold State.wrFixed; split <;> rfl
@[simp] theorem State.wrFixed_draws (s : State) (r : SReg) (v : Word) (lat : Nat) : (s.wrFixed r v lat).draws = s.draws := by
  unfold State.wrFixed; split <;> rfl
@[simp] theorem State.wrFixed_turn (s : State) (r : SReg) (v : Word) (lat : Nat) : (s.wrFixed r v lat).turn = s.turn := by
  unfold State.wrFixed; split <;> rfl
@[simp] theorem State.wrFixed_me_crew (s : State) (r : SReg) (v : Word) (lat : Nat) : (s.wrFixed r v lat).me.crew = s.me.crew := by
  unfold State.wrFixed; split <;> rfl
@[simp] theorem State.wrFixed_me_index (s : State) (r : SReg) (v : Word) (lat : Nat) : (s.wrFixed r v lat).me.index = s.me.index := by
  unfold State.wrFixed; split <;> rfl
@[simp] theorem State.wrFixed_me_core (s : State) (r : SReg) (v : Word) (lat : Nat) : (s.wrFixed r v lat).me.core = s.me.core := by
  unfold State.wrFixed; split <;> rfl
@[simp] theorem State.wrFixed_me_half (s : State) (r : SReg) (v : Word) (lat : Nat) : (s.wrFixed r v lat).me.half = s.me.half := by
  unfold State.wrFixed; split <;> rfl
@[simp] theorem State.wrFixed_me_slot (s : State) (r : SReg) (v : Word) (lat : Nat) : (s.wrFixed r v lat).me.slot = s.me.slot := by
  unfold State.wrFixed; split <;> rfl
@[simp] theorem State.wrFixed_me_run (s : State) (r : SReg) (v : Word) (lat : Nat) : (s.wrFixed r v lat).me.run = s.me.run := by
  unfold State.wrFixed; split <;> rfl
@[simp] theorem State.wrFixed_me_pc (s : State) (r : SReg) (v : Word) (lat : Nat) : (s.wrFixed r v lat).me.pc = s.me.pc := by
  unfold State.wrFixed; split <;> rfl
@[simp] theorem State.wrFixed_me_regs (s : State) (r : SReg) (v : Word) (lat : Nat) : (s.wrFixed r v lat).me.regs = s.me.regs := by
  unfold State.wrFixed; split <;> rfl
@[simp] theorem State.wrFixed_me_vheld (s : State) (r : SReg) (v : Word) (lat : Nat) : (s.wrFixed r v lat).me.vheld = s.me.vheld := by
  unfold State.wrFixed; split <;> rfl
@[simp] theorem State.wrFixed_me_tdecl (s : State) (r : SReg) (v : Word) (lat : Nat) : (s.wrFixed r v lat).me.tdecl = s.me.tdecl := by
  unfold State.wrFixed; split <;> rfl
@[simp] theorem State.wrFixed_me_zdecl (s : State) (r : SReg) (v : Word) (lat : Nat) : (s.wrFixed r v lat).me.zdecl = s.me.zdecl := by
  unfold State.wrFixed; split <;> rfl
@[simp] theorem State.wrFixed_me_vlmaxc (s : State) (r : SReg) (v : Word) (lat : Nat) : (s.wrFixed r v lat).me.vlmaxc = s.me.vlmaxc := by
  unfold State.wrFixed; split <;> rfl
@[simp] theorem State.wrFixed_me_trapon (s : State) (r : SReg) (v : Word) (lat : Nat) : (s.wrFixed r v lat).me.trapon = s.me.trapon := by
  unfold State.wrFixed; split <;> rfl
@[simp] theorem State.wrFixed_me_schk (s : State) (r : SReg) (v : Word) (lat : Nat) : (s.wrFixed r v lat).me.schk = s.me.schk := by
  unfold State.wrFixed; split <;> rfl
@[simp] theorem State.wrFixed_me_sstrict (s : State) (r : SReg) (v : Word) (lat : Nat) : (s.wrFixed r v lat).me.sstrict = s.me.sstrict := by
  unfold State.wrFixed; split <;> rfl
@[simp] theorem State.wrFixed_me_priv (s : State) (r : SReg) (v : Word) (lat : Nat) : (s.wrFixed r v lat).me.priv = s.me.priv := by
  unfold State.wrFixed; split <;> rfl
@[simp] theorem State.wrFixed_me_vl (s : State) (r : SReg) (v : Word) (lat : Nat) : (s.wrFixed r v lat).me.vl = s.me.vl := by
  unfold State.wrFixed; split <;> rfl
@[simp] theorem State.wrFixed_me_vtype (s : State) (r : SReg) (v : Word) (lat : Nat) : (s.wrFixed r v lat).me.vtype = s.me.vtype := by
  unfold State.wrFixed; split <;> rfl
@[simp] theorem State.wrFixed_me_vstart (s : State) (r : SReg) (v : Word) (lat : Nat) : (s.wrFixed r v lat).me.vstart = s.me.vstart := by
  unfold State.wrFixed; split <;> rfl
@[simp] theorem State.wrFixed_me_frm (s : State) (r : SReg) (v : Word) (lat : Nat) : (s.wrFixed r v lat).me.frm = s.me.frm := by
  unfold State.wrFixed; split <;> rfl
@[simp] theorem State.wrFixed_me_fflags (s : State) (r : SReg) (v : Word) (lat : Nat) : (s.wrFixed r v lat).me.fflags = s.me.fflags := by
  unfold State.wrFixed; split <;> rfl
@[simp] theorem State.wrFixed_me_gshape (s : State) (r : SReg) (v : Word) (lat : Nat) : (s.wrFixed r v lat).me.gshape = s.me.gshape := by
  unfold State.wrFixed; split <;> rfl
@[simp] theorem State.wrFixed_me_tshape (s : State) (r : SReg) (v : Word) (lat : Nat) : (s.wrFixed r v lat).me.tshape = s.me.tshape := by
  unfold State.wrFixed; split <;> rfl
@[simp] theorem State.wrFixed_me_zdim (s : State) (r : SReg) (v : Word) (lat : Nat) : (s.wrFixed r v lat).me.zdim = s.me.zdim := by
  unfold State.wrFixed; split <;> rfl
@[simp] theorem State.wrFixed_me_vregs (s : State) (r : SReg) (v : Word) (lat : Nat) : (s.wrFixed r v lat).me.vregs = s.me.vregs := by
  unfold State.wrFixed; split <;> rfl
@[simp] theorem State.wrFixed_me_masks (s : State) (r : SReg) (v : Word) (lat : Nat) : (s.wrFixed r v lat).me.masks = s.me.masks := by
  unfold State.wrFixed; split <;> rfl
@[simp] theorem State.wrFixed_me_mstack (s : State) (r : SReg) (v : Word) (lat : Nat) : (s.wrFixed r v lat).me.mstack = s.me.mstack := by
  unfold State.wrFixed; split <;> rfl
@[simp] theorem State.wrFixed_me_deadmask (s : State) (r : SReg) (v : Word) (lat : Nat) : (s.wrFixed r v lat).me.deadmask = s.me.deadmask := by
  unfold State.wrFixed; split <;> rfl
@[simp] theorem State.wrFixed_me_tiles (s : State) (r : SReg) (v : Word) (lat : Nat) : (s.wrFixed r v lat).me.tiles = s.me.tiles := by
  unfold State.wrFixed; split <;> rfl
@[simp] theorem State.wrFixed_me_zimg (s : State) (r : SReg) (v : Word) (lat : Nat) : (s.wrFixed r v lat).me.zimg = s.me.zimg := by
  unfold State.wrFixed; split <;> rfl
@[simp] theorem State.wrFixed_me_trapvec (s : State) (r : SReg) (v : Word) (lat : Nat) : (s.wrFixed r v lat).me.trapvec = s.me.trapvec := by
  unfold State.wrFixed; split <;> rfl
@[simp] theorem State.wrFixed_me_trappc (s : State) (r : SReg) (v : Word) (lat : Nat) : (s.wrFixed r v lat).me.trappc = s.me.trappc := by
  unfold State.wrFixed; split <;> rfl
@[simp] theorem State.wrFixed_me_trapcause (s : State) (r : SReg) (v : Word) (lat : Nat) : (s.wrFixed r v lat).me.trapcause = s.me.trapcause := by
  unfold State.wrFixed; split <;> rfl
@[simp] theorem State.wrFixed_me_trapaddr (s : State) (r : SReg) (v : Word) (lat : Nat) : (s.wrFixed r v lat).me.trapaddr = s.me.trapaddr := by
  unfold State.wrFixed; split <;> rfl
@[simp] theorem State.wrFixed_me_trapinsn0 (s : State) (r : SReg) (v : Word) (lat : Nat) : (s.wrFixed r v lat).me.trapinsn0 = s.me.trapinsn0 := by
  unfold State.wrFixed; split <;> rfl
@[simp] theorem State.wrFixed_me_trapinsn1 (s : State) (r : SReg) (v : Word) (lat : Nat) : (s.wrFixed r v lat).me.trapinsn1 = s.me.trapinsn1 := by
  unfold State.wrFixed; split <;> rfl
@[simp] theorem State.wrFixed_me_trapmask (s : State) (r : SReg) (v : Word) (lat : Nat) : (s.wrFixed r v lat).me.trapmask = s.me.trapmask := by
  unfold State.wrFixed; split <;> rfl
@[simp] theorem State.wrFixed_me_awin (s : State) (r : SReg) (v : Word) (lat : Nat) : (s.wrFixed r v lat).me.awin = s.me.awin := by
  unfold State.wrFixed; split <;> rfl
@[simp] theorem State.wrFixed_me_links (s : State) (r : SReg) (v : Word) (lat : Nat) : (s.wrFixed r v lat).me.links = s.me.links := by
  unfold State.wrFixed; split <;> rfl
@[simp] theorem State.wrFixed_me_line (s : State) (r : SReg) (v : Word) (lat : Nat) : (s.wrFixed r v lat).me.line = s.me.line := by
  unfold State.wrFixed; split <;> rfl
@[simp] theorem State.wrFixed_me_ir (s : State) (r : SReg) (v : Word) (lat : Nat) : (s.wrFixed r v lat).me.ir = s.me.ir := by
  unfold State.wrFixed; split <;> rfl
@[simp] theorem State.wrFixed_me_via (s : State) (r : SReg) (v : Word) (lat : Nat) : (s.wrFixed r v lat).me.via = s.me.via := by
  unfold State.wrFixed; split <;> rfl
@[simp] theorem State.wrFixed_me_wait (s : State) (r : SReg) (v : Word) (lat : Nat) : (s.wrFixed r v lat).me.wait = s.me.wait := by
  unfold State.wrFixed; split <;> rfl
@[simp] theorem State.wrFixed_me_waitFrom (s : State) (r : SReg) (v : Word) (lat : Nat) : (s.wrFixed r v lat).me.waitFrom = s.me.waitFrom := by
  unfold State.wrFixed; split <;> rfl
@[simp] theorem State.wrFixed_me_waitCount (s : State) (r : SReg) (v : Word) (lat : Nat) : (s.wrFixed r v lat).me.waitCount = s.me.waitCount := by
  unfold State.wrFixed; split <;> rfl
@[simp] theorem State.wrFixed_me_vop (s : State) (r : SReg) (v : Word) (lat : Nat) : (s.wrFixed r v lat).me.vop = s.me.vop := by
  unfold State.wrFixed; split <;> rfl
@[simp] theorem State.wrFixed_me_viq (s : State) (r : SReg) (v : Word) (lat : Nat) : (s.wrFixed r v lat).me.viq = s.me.viq := by
  unfold State.wrFixed; split <;> rfl
@[simp] theorem State.wrFixed_me_pool (s : State) (r : SReg) (v : Word) (lat : Nat) : (s.wrFixed r v lat).me.pool = s.me.pool := by
  unfold State.wrFixed; split <;> rfl
@[simp] theorem State.wrFixed_me_failed (s : State) (r : SReg) (v : Word) (lat : Nat) : (s.wrFixed r v lat).me.failed = s.me.failed := by
  unfold State.wrFixed; split <;> rfl
@[simp] theorem State.wrFixed_me_everDead (s : State) (r : SReg) (v : Word) (lat : Nat) : (s.wrFixed r v lat).me.everDead = s.me.everDead := by
  unfold State.wrFixed; split <;> rfl
@[simp] theorem State.wrFixed_me_vpois (s : State) (r : SReg) (v : Word) (lat : Nat) : (s.wrFixed r v lat).me.vpois = s.me.vpois := by
  unfold State.wrFixed; split <;> rfl
@[simp] theorem State.wrFixed_me_tpois (s : State) (r : SReg) (v : Word) (lat : Nat) : (s.wrFixed r v lat).me.tpois = s.me.tpois := by
  unfold State.wrFixed; split <;> rfl
@[simp] theorem State.wrFixed_me_zpois (s : State) (r : SReg) (v : Word) (lat : Nat) : (s.wrFixed r v lat).me.zpois = s.me.zpois := by
  unfold State.wrFixed; split <;> rfl
@[simp] theorem State.wrFixed_me_due (s : State) (r : SReg) (v : Word) (lat : Nat) : (s.wrFixed r v lat).me.due = s.me.due := by
  unfold State.wrFixed; split <;> rfl
@[simp] theorem State.wrFixed_me_stopReq (s : State) (r : SReg) (v : Word) (lat : Nat) : (s.wrFixed r v lat).me.stopReq = s.me.stopReq := by
  unfold State.wrFixed; split <;> rfl
@[simp] theorem State.wrFixed_me_strip (s : State) (r : SReg) (v : Word) (lat : Nat) : (s.wrFixed r v lat).me.strip = s.me.strip := by
  unfold State.wrFixed; split <;> rfl
@[simp] theorem State.wrFixed_me_stopAt (s : State) (r : SReg) (v : Word) (lat : Nat) : (s.wrFixed r v lat).me.stopAt = s.me.stopAt := by
  unfold State.wrFixed; split <;> rfl
@[simp] theorem State.wrFixed_me_vpend (s : State) (r : SReg) (v : Word) (lat : Nat) : (s.wrFixed r v lat).me.vpend = s.me.vpend := by
  unfold State.wrFixed; split <;> rfl
@[simp] theorem State.wrFixed_me_carry (s : State) (r : SReg) (v : Word) (lat : Nat) : (s.wrFixed r v lat).me.carry = s.me.carry := by
  unfold State.wrFixed; split <;> rfl

/-! ### `Strand.age`, `Strand.deliverAll` and `Strand.wr` -/

@[simp] theorem Strand.age_crew (m : Strand) (d : Nat) : (m.age d).crew = m.crew := by
  unfold Strand.age; split <;> rfl
@[simp] theorem Strand.deliverAll_crew (m : Strand) : m.deliverAll.crew = m.crew := Strand.age_crew m 8
@[simp] theorem Strand.age_index (m : Strand) (d : Nat) : (m.age d).index = m.index := by
  unfold Strand.age; split <;> rfl
@[simp] theorem Strand.deliverAll_index (m : Strand) : m.deliverAll.index = m.index := Strand.age_index m 8
@[simp] theorem Strand.age_core (m : Strand) (d : Nat) : (m.age d).core = m.core := by
  unfold Strand.age; split <;> rfl
@[simp] theorem Strand.deliverAll_core (m : Strand) : m.deliverAll.core = m.core := Strand.age_core m 8
@[simp] theorem Strand.age_half (m : Strand) (d : Nat) : (m.age d).half = m.half := by
  unfold Strand.age; split <;> rfl
@[simp] theorem Strand.deliverAll_half (m : Strand) : m.deliverAll.half = m.half := Strand.age_half m 8
@[simp] theorem Strand.age_slot (m : Strand) (d : Nat) : (m.age d).slot = m.slot := by
  unfold Strand.age; split <;> rfl
@[simp] theorem Strand.deliverAll_slot (m : Strand) : m.deliverAll.slot = m.slot := Strand.age_slot m 8
@[simp] theorem Strand.age_run (m : Strand) (d : Nat) : (m.age d).run = m.run := by
  unfold Strand.age; split <;> rfl
@[simp] theorem Strand.deliverAll_run (m : Strand) : m.deliverAll.run = m.run := Strand.age_run m 8
@[simp] theorem Strand.age_pc (m : Strand) (d : Nat) : (m.age d).pc = m.pc := by
  unfold Strand.age; split <;> rfl
@[simp] theorem Strand.deliverAll_pc (m : Strand) : m.deliverAll.pc = m.pc := Strand.age_pc m 8
@[simp] theorem Strand.age_vheld (m : Strand) (d : Nat) : (m.age d).vheld = m.vheld := by
  unfold Strand.age; split <;> rfl
@[simp] theorem Strand.deliverAll_vheld (m : Strand) : m.deliverAll.vheld = m.vheld := Strand.age_vheld m 8
@[simp] theorem Strand.age_tdecl (m : Strand) (d : Nat) : (m.age d).tdecl = m.tdecl := by
  unfold Strand.age; split <;> rfl
@[simp] theorem Strand.deliverAll_tdecl (m : Strand) : m.deliverAll.tdecl = m.tdecl := Strand.age_tdecl m 8
@[simp] theorem Strand.age_zdecl (m : Strand) (d : Nat) : (m.age d).zdecl = m.zdecl := by
  unfold Strand.age; split <;> rfl
@[simp] theorem Strand.deliverAll_zdecl (m : Strand) : m.deliverAll.zdecl = m.zdecl := Strand.age_zdecl m 8
@[simp] theorem Strand.age_vlmaxc (m : Strand) (d : Nat) : (m.age d).vlmaxc = m.vlmaxc := by
  unfold Strand.age; split <;> rfl
@[simp] theorem Strand.deliverAll_vlmaxc (m : Strand) : m.deliverAll.vlmaxc = m.vlmaxc := Strand.age_vlmaxc m 8
@[simp] theorem Strand.age_trapon (m : Strand) (d : Nat) : (m.age d).trapon = m.trapon := by
  unfold Strand.age; split <;> rfl
@[simp] theorem Strand.deliverAll_trapon (m : Strand) : m.deliverAll.trapon = m.trapon := Strand.age_trapon m 8
@[simp] theorem Strand.age_schk (m : Strand) (d : Nat) : (m.age d).schk = m.schk := by
  unfold Strand.age; split <;> rfl
@[simp] theorem Strand.deliverAll_schk (m : Strand) : m.deliverAll.schk = m.schk := Strand.age_schk m 8
@[simp] theorem Strand.age_sstrict (m : Strand) (d : Nat) : (m.age d).sstrict = m.sstrict := by
  unfold Strand.age; split <;> rfl
@[simp] theorem Strand.deliverAll_sstrict (m : Strand) : m.deliverAll.sstrict = m.sstrict := Strand.age_sstrict m 8
@[simp] theorem Strand.age_priv (m : Strand) (d : Nat) : (m.age d).priv = m.priv := by
  unfold Strand.age; split <;> rfl
@[simp] theorem Strand.deliverAll_priv (m : Strand) : m.deliverAll.priv = m.priv := Strand.age_priv m 8
@[simp] theorem Strand.age_vl (m : Strand) (d : Nat) : (m.age d).vl = m.vl := by
  unfold Strand.age; split <;> rfl
@[simp] theorem Strand.deliverAll_vl (m : Strand) : m.deliverAll.vl = m.vl := Strand.age_vl m 8
@[simp] theorem Strand.age_vtype (m : Strand) (d : Nat) : (m.age d).vtype = m.vtype := by
  unfold Strand.age; split <;> rfl
@[simp] theorem Strand.deliverAll_vtype (m : Strand) : m.deliverAll.vtype = m.vtype := Strand.age_vtype m 8
@[simp] theorem Strand.age_vstart (m : Strand) (d : Nat) : (m.age d).vstart = m.vstart := by
  unfold Strand.age; split <;> rfl
@[simp] theorem Strand.deliverAll_vstart (m : Strand) : m.deliverAll.vstart = m.vstart := Strand.age_vstart m 8
@[simp] theorem Strand.age_frm (m : Strand) (d : Nat) : (m.age d).frm = m.frm := by
  unfold Strand.age; split <;> rfl
@[simp] theorem Strand.deliverAll_frm (m : Strand) : m.deliverAll.frm = m.frm := Strand.age_frm m 8
@[simp] theorem Strand.age_fflags (m : Strand) (d : Nat) : (m.age d).fflags = m.fflags := by
  unfold Strand.age; split <;> rfl
@[simp] theorem Strand.deliverAll_fflags (m : Strand) : m.deliverAll.fflags = m.fflags := Strand.age_fflags m 8
@[simp] theorem Strand.age_gshape (m : Strand) (d : Nat) : (m.age d).gshape = m.gshape := by
  unfold Strand.age; split <;> rfl
@[simp] theorem Strand.deliverAll_gshape (m : Strand) : m.deliverAll.gshape = m.gshape := Strand.age_gshape m 8
@[simp] theorem Strand.age_tshape (m : Strand) (d : Nat) : (m.age d).tshape = m.tshape := by
  unfold Strand.age; split <;> rfl
@[simp] theorem Strand.deliverAll_tshape (m : Strand) : m.deliverAll.tshape = m.tshape := Strand.age_tshape m 8
@[simp] theorem Strand.age_zdim (m : Strand) (d : Nat) : (m.age d).zdim = m.zdim := by
  unfold Strand.age; split <;> rfl
@[simp] theorem Strand.deliverAll_zdim (m : Strand) : m.deliverAll.zdim = m.zdim := Strand.age_zdim m 8
@[simp] theorem Strand.age_vregs (m : Strand) (d : Nat) : (m.age d).vregs = m.vregs := by
  unfold Strand.age; split <;> rfl
@[simp] theorem Strand.deliverAll_vregs (m : Strand) : m.deliverAll.vregs = m.vregs := Strand.age_vregs m 8
@[simp] theorem Strand.age_masks (m : Strand) (d : Nat) : (m.age d).masks = m.masks := by
  unfold Strand.age; split <;> rfl
@[simp] theorem Strand.deliverAll_masks (m : Strand) : m.deliverAll.masks = m.masks := Strand.age_masks m 8
@[simp] theorem Strand.age_mstack (m : Strand) (d : Nat) : (m.age d).mstack = m.mstack := by
  unfold Strand.age; split <;> rfl
@[simp] theorem Strand.deliverAll_mstack (m : Strand) : m.deliverAll.mstack = m.mstack := Strand.age_mstack m 8
@[simp] theorem Strand.age_deadmask (m : Strand) (d : Nat) : (m.age d).deadmask = m.deadmask := by
  unfold Strand.age; split <;> rfl
@[simp] theorem Strand.deliverAll_deadmask (m : Strand) : m.deliverAll.deadmask = m.deadmask := Strand.age_deadmask m 8
@[simp] theorem Strand.age_tiles (m : Strand) (d : Nat) : (m.age d).tiles = m.tiles := by
  unfold Strand.age; split <;> rfl
@[simp] theorem Strand.deliverAll_tiles (m : Strand) : m.deliverAll.tiles = m.tiles := Strand.age_tiles m 8
@[simp] theorem Strand.age_zimg (m : Strand) (d : Nat) : (m.age d).zimg = m.zimg := by
  unfold Strand.age; split <;> rfl
@[simp] theorem Strand.deliverAll_zimg (m : Strand) : m.deliverAll.zimg = m.zimg := Strand.age_zimg m 8
@[simp] theorem Strand.age_trapvec (m : Strand) (d : Nat) : (m.age d).trapvec = m.trapvec := by
  unfold Strand.age; split <;> rfl
@[simp] theorem Strand.deliverAll_trapvec (m : Strand) : m.deliverAll.trapvec = m.trapvec := Strand.age_trapvec m 8
@[simp] theorem Strand.age_trappc (m : Strand) (d : Nat) : (m.age d).trappc = m.trappc := by
  unfold Strand.age; split <;> rfl
@[simp] theorem Strand.deliverAll_trappc (m : Strand) : m.deliverAll.trappc = m.trappc := Strand.age_trappc m 8
@[simp] theorem Strand.age_trapcause (m : Strand) (d : Nat) : (m.age d).trapcause = m.trapcause := by
  unfold Strand.age; split <;> rfl
@[simp] theorem Strand.deliverAll_trapcause (m : Strand) : m.deliverAll.trapcause = m.trapcause := Strand.age_trapcause m 8
@[simp] theorem Strand.age_trapaddr (m : Strand) (d : Nat) : (m.age d).trapaddr = m.trapaddr := by
  unfold Strand.age; split <;> rfl
@[simp] theorem Strand.deliverAll_trapaddr (m : Strand) : m.deliverAll.trapaddr = m.trapaddr := Strand.age_trapaddr m 8
@[simp] theorem Strand.age_trapinsn0 (m : Strand) (d : Nat) : (m.age d).trapinsn0 = m.trapinsn0 := by
  unfold Strand.age; split <;> rfl
@[simp] theorem Strand.deliverAll_trapinsn0 (m : Strand) : m.deliverAll.trapinsn0 = m.trapinsn0 := Strand.age_trapinsn0 m 8
@[simp] theorem Strand.age_trapinsn1 (m : Strand) (d : Nat) : (m.age d).trapinsn1 = m.trapinsn1 := by
  unfold Strand.age; split <;> rfl
@[simp] theorem Strand.deliverAll_trapinsn1 (m : Strand) : m.deliverAll.trapinsn1 = m.trapinsn1 := Strand.age_trapinsn1 m 8
@[simp] theorem Strand.age_trapmask (m : Strand) (d : Nat) : (m.age d).trapmask = m.trapmask := by
  unfold Strand.age; split <;> rfl
@[simp] theorem Strand.deliverAll_trapmask (m : Strand) : m.deliverAll.trapmask = m.trapmask := Strand.age_trapmask m 8
@[simp] theorem Strand.age_awin (m : Strand) (d : Nat) : (m.age d).awin = m.awin := by
  unfold Strand.age; split <;> rfl
@[simp] theorem Strand.deliverAll_awin (m : Strand) : m.deliverAll.awin = m.awin := Strand.age_awin m 8
@[simp] theorem Strand.age_links (m : Strand) (d : Nat) : (m.age d).links = m.links := by
  unfold Strand.age; split <;> rfl
@[simp] theorem Strand.deliverAll_links (m : Strand) : m.deliverAll.links = m.links := Strand.age_links m 8
@[simp] theorem Strand.age_line (m : Strand) (d : Nat) : (m.age d).line = m.line := by
  unfold Strand.age; split <;> rfl
@[simp] theorem Strand.deliverAll_line (m : Strand) : m.deliverAll.line = m.line := Strand.age_line m 8
@[simp] theorem Strand.age_ir (m : Strand) (d : Nat) : (m.age d).ir = m.ir := by
  unfold Strand.age; split <;> rfl
@[simp] theorem Strand.deliverAll_ir (m : Strand) : m.deliverAll.ir = m.ir := Strand.age_ir m 8
@[simp] theorem Strand.age_via (m : Strand) (d : Nat) : (m.age d).via = m.via := by
  unfold Strand.age; split <;> rfl
@[simp] theorem Strand.deliverAll_via (m : Strand) : m.deliverAll.via = m.via := Strand.age_via m 8
@[simp] theorem Strand.age_wait (m : Strand) (d : Nat) : (m.age d).wait = m.wait := by
  unfold Strand.age; split <;> rfl
@[simp] theorem Strand.deliverAll_wait (m : Strand) : m.deliverAll.wait = m.wait := Strand.age_wait m 8
@[simp] theorem Strand.age_waitFrom (m : Strand) (d : Nat) : (m.age d).waitFrom = m.waitFrom := by
  unfold Strand.age; split <;> rfl
@[simp] theorem Strand.deliverAll_waitFrom (m : Strand) : m.deliverAll.waitFrom = m.waitFrom := Strand.age_waitFrom m 8
@[simp] theorem Strand.age_waitCount (m : Strand) (d : Nat) : (m.age d).waitCount = m.waitCount := by
  unfold Strand.age; split <;> rfl
@[simp] theorem Strand.deliverAll_waitCount (m : Strand) : m.deliverAll.waitCount = m.waitCount := Strand.age_waitCount m 8
@[simp] theorem Strand.age_vop (m : Strand) (d : Nat) : (m.age d).vop = m.vop := by
  unfold Strand.age; split <;> rfl
@[simp] theorem Strand.age_viq (m : Strand) (d : Nat) : (m.age d).viq = m.viq := by
  unfold Strand.age; split <;> rfl
@[simp] theorem Strand.age_pool (m : Strand) (d : Nat) : (m.age d).pool = m.pool := by
  unfold Strand.age; split <;> rfl
@[simp] theorem Strand.age_failed (m : Strand) (d : Nat) : (m.age d).failed = m.failed := by
  unfold Strand.age; split <;> rfl
@[simp] theorem Strand.deliverAll_vop (m : Strand) : m.deliverAll.vop = m.vop := Strand.age_vop m 8
@[simp] theorem Strand.deliverAll_viq (m : Strand) : m.deliverAll.viq = m.viq := Strand.age_viq m 8
@[simp] theorem Strand.deliverAll_pool (m : Strand) : m.deliverAll.pool = m.pool := Strand.age_pool m 8
@[simp] theorem Strand.deliverAll_failed (m : Strand) : m.deliverAll.failed = m.failed := Strand.age_failed m 8
@[simp] theorem Strand.age_everDead (m : Strand) (d : Nat) : (m.age d).everDead = m.everDead := by
  unfold Strand.age; split <;> rfl
@[simp] theorem Strand.deliverAll_everDead (m : Strand) : m.deliverAll.everDead = m.everDead := Strand.age_everDead m 8
@[simp] theorem Strand.age_spois (m : Strand) (d : Nat) : (m.age d).spois = m.spois := by
  unfold Strand.age; split <;> rfl
@[simp] theorem Strand.deliverAll_spois (m : Strand) : m.deliverAll.spois = m.spois := Strand.age_spois m 8
@[simp] theorem Strand.age_vpois (m : Strand) (d : Nat) : (m.age d).vpois = m.vpois := by
  unfold Strand.age; split <;> rfl
@[simp] theorem Strand.deliverAll_vpois (m : Strand) : m.deliverAll.vpois = m.vpois := Strand.age_vpois m 8
@[simp] theorem Strand.age_tpois (m : Strand) (d : Nat) : (m.age d).tpois = m.tpois := by
  unfold Strand.age; split <;> rfl
@[simp] theorem Strand.deliverAll_tpois (m : Strand) : m.deliverAll.tpois = m.tpois := Strand.age_tpois m 8
@[simp] theorem Strand.age_zpois (m : Strand) (d : Nat) : (m.age d).zpois = m.zpois := by
  unfold Strand.age; split <;> rfl
@[simp] theorem Strand.deliverAll_zpois (m : Strand) : m.deliverAll.zpois = m.zpois := Strand.age_zpois m 8
@[simp] theorem Strand.age_due (m : Strand) (d : Nat) : (m.age d).due = m.due := by
  unfold Strand.age; split <;> rfl
@[simp] theorem Strand.deliverAll_due (m : Strand) : m.deliverAll.due = m.due := Strand.age_due m 8
@[simp] theorem Strand.age_stopReq (m : Strand) (d : Nat) : (m.age d).stopReq = m.stopReq := by
  unfold Strand.age; split <;> rfl
@[simp] theorem Strand.deliverAll_stopReq (m : Strand) : m.deliverAll.stopReq = m.stopReq := Strand.age_stopReq m 8
@[simp] theorem Strand.age_strip (m : Strand) (d : Nat) : (m.age d).strip = m.strip := by
  unfold Strand.age; split <;> rfl
@[simp] theorem Strand.deliverAll_strip (m : Strand) : m.deliverAll.strip = m.strip := Strand.age_strip m 8
@[simp] theorem Strand.age_stopAt (m : Strand) (d : Nat) : (m.age d).stopAt = m.stopAt := by
  unfold Strand.age; split <;> rfl
@[simp] theorem Strand.deliverAll_stopAt (m : Strand) : m.deliverAll.stopAt = m.stopAt := Strand.age_stopAt m 8
@[simp] theorem Strand.age_vpend (m : Strand) (d : Nat) : (m.age d).vpend = m.vpend := by
  unfold Strand.age; split <;> rfl
@[simp] theorem Strand.deliverAll_vpend (m : Strand) : m.deliverAll.vpend = m.vpend := Strand.age_vpend m 8
@[simp] theorem Strand.age_carry (m : Strand) (d : Nat) : (m.age d).carry = m.carry := by
  unfold Strand.age; split <;> rfl
@[simp] theorem Strand.deliverAll_carry (m : Strand) : m.deliverAll.carry = m.carry := Strand.age_carry m 8
@[simp] theorem Strand.wr_crew (m : Strand) (r : SReg) (v : Word) : (m.wr r v).crew = m.crew := by
  unfold Strand.wr; split <;> rfl
@[simp] theorem Strand.wr_index (m : Strand) (r : SReg) (v : Word) : (m.wr r v).index = m.index := by
  unfold Strand.wr; split <;> rfl
@[simp] theorem Strand.wr_core (m : Strand) (r : SReg) (v : Word) : (m.wr r v).core = m.core := by
  unfold Strand.wr; split <;> rfl
@[simp] theorem Strand.wr_half (m : Strand) (r : SReg) (v : Word) : (m.wr r v).half = m.half := by
  unfold Strand.wr; split <;> rfl
@[simp] theorem Strand.wr_slot (m : Strand) (r : SReg) (v : Word) : (m.wr r v).slot = m.slot := by
  unfold Strand.wr; split <;> rfl
@[simp] theorem Strand.wr_run (m : Strand) (r : SReg) (v : Word) : (m.wr r v).run = m.run := by
  unfold Strand.wr; split <;> rfl
@[simp] theorem Strand.wr_pc (m : Strand) (r : SReg) (v : Word) : (m.wr r v).pc = m.pc := by
  unfold Strand.wr; split <;> rfl
@[simp] theorem Strand.wr_vheld (m : Strand) (r : SReg) (v : Word) : (m.wr r v).vheld = m.vheld := by
  unfold Strand.wr; split <;> rfl
@[simp] theorem Strand.wr_tdecl (m : Strand) (r : SReg) (v : Word) : (m.wr r v).tdecl = m.tdecl := by
  unfold Strand.wr; split <;> rfl
@[simp] theorem Strand.wr_zdecl (m : Strand) (r : SReg) (v : Word) : (m.wr r v).zdecl = m.zdecl := by
  unfold Strand.wr; split <;> rfl
@[simp] theorem Strand.wr_vlmaxc (m : Strand) (r : SReg) (v : Word) : (m.wr r v).vlmaxc = m.vlmaxc := by
  unfold Strand.wr; split <;> rfl
@[simp] theorem Strand.wr_trapon (m : Strand) (r : SReg) (v : Word) : (m.wr r v).trapon = m.trapon := by
  unfold Strand.wr; split <;> rfl
@[simp] theorem Strand.wr_schk (m : Strand) (r : SReg) (v : Word) : (m.wr r v).schk = m.schk := by
  unfold Strand.wr; split <;> rfl
@[simp] theorem Strand.wr_sstrict (m : Strand) (r : SReg) (v : Word) : (m.wr r v).sstrict = m.sstrict := by
  unfold Strand.wr; split <;> rfl
@[simp] theorem Strand.wr_priv (m : Strand) (r : SReg) (v : Word) : (m.wr r v).priv = m.priv := by
  unfold Strand.wr; split <;> rfl
@[simp] theorem Strand.wr_vl (m : Strand) (r : SReg) (v : Word) : (m.wr r v).vl = m.vl := by
  unfold Strand.wr; split <;> rfl
@[simp] theorem Strand.wr_vtype (m : Strand) (r : SReg) (v : Word) : (m.wr r v).vtype = m.vtype := by
  unfold Strand.wr; split <;> rfl
@[simp] theorem Strand.wr_vstart (m : Strand) (r : SReg) (v : Word) : (m.wr r v).vstart = m.vstart := by
  unfold Strand.wr; split <;> rfl
@[simp] theorem Strand.wr_frm (m : Strand) (r : SReg) (v : Word) : (m.wr r v).frm = m.frm := by
  unfold Strand.wr; split <;> rfl
@[simp] theorem Strand.wr_fflags (m : Strand) (r : SReg) (v : Word) : (m.wr r v).fflags = m.fflags := by
  unfold Strand.wr; split <;> rfl
@[simp] theorem Strand.wr_gshape (m : Strand) (r : SReg) (v : Word) : (m.wr r v).gshape = m.gshape := by
  unfold Strand.wr; split <;> rfl
@[simp] theorem Strand.wr_tshape (m : Strand) (r : SReg) (v : Word) : (m.wr r v).tshape = m.tshape := by
  unfold Strand.wr; split <;> rfl
@[simp] theorem Strand.wr_zdim (m : Strand) (r : SReg) (v : Word) : (m.wr r v).zdim = m.zdim := by
  unfold Strand.wr; split <;> rfl
@[simp] theorem Strand.wr_vregs (m : Strand) (r : SReg) (v : Word) : (m.wr r v).vregs = m.vregs := by
  unfold Strand.wr; split <;> rfl
@[simp] theorem Strand.wr_masks (m : Strand) (r : SReg) (v : Word) : (m.wr r v).masks = m.masks := by
  unfold Strand.wr; split <;> rfl
@[simp] theorem Strand.wr_mstack (m : Strand) (r : SReg) (v : Word) : (m.wr r v).mstack = m.mstack := by
  unfold Strand.wr; split <;> rfl
@[simp] theorem Strand.wr_deadmask (m : Strand) (r : SReg) (v : Word) : (m.wr r v).deadmask = m.deadmask := by
  unfold Strand.wr; split <;> rfl
@[simp] theorem Strand.wr_tiles (m : Strand) (r : SReg) (v : Word) : (m.wr r v).tiles = m.tiles := by
  unfold Strand.wr; split <;> rfl
@[simp] theorem Strand.wr_zimg (m : Strand) (r : SReg) (v : Word) : (m.wr r v).zimg = m.zimg := by
  unfold Strand.wr; split <;> rfl
@[simp] theorem Strand.wr_trapvec (m : Strand) (r : SReg) (v : Word) : (m.wr r v).trapvec = m.trapvec := by
  unfold Strand.wr; split <;> rfl
@[simp] theorem Strand.wr_trappc (m : Strand) (r : SReg) (v : Word) : (m.wr r v).trappc = m.trappc := by
  unfold Strand.wr; split <;> rfl
@[simp] theorem Strand.wr_trapcause (m : Strand) (r : SReg) (v : Word) : (m.wr r v).trapcause = m.trapcause := by
  unfold Strand.wr; split <;> rfl
@[simp] theorem Strand.wr_trapaddr (m : Strand) (r : SReg) (v : Word) : (m.wr r v).trapaddr = m.trapaddr := by
  unfold Strand.wr; split <;> rfl
@[simp] theorem Strand.wr_trapinsn0 (m : Strand) (r : SReg) (v : Word) : (m.wr r v).trapinsn0 = m.trapinsn0 := by
  unfold Strand.wr; split <;> rfl
@[simp] theorem Strand.wr_trapinsn1 (m : Strand) (r : SReg) (v : Word) : (m.wr r v).trapinsn1 = m.trapinsn1 := by
  unfold Strand.wr; split <;> rfl
@[simp] theorem Strand.wr_trapmask (m : Strand) (r : SReg) (v : Word) : (m.wr r v).trapmask = m.trapmask := by
  unfold Strand.wr; split <;> rfl
@[simp] theorem Strand.wr_awin (m : Strand) (r : SReg) (v : Word) : (m.wr r v).awin = m.awin := by
  unfold Strand.wr; split <;> rfl
@[simp] theorem Strand.wr_links (m : Strand) (r : SReg) (v : Word) : (m.wr r v).links = m.links := by
  unfold Strand.wr; split <;> rfl
@[simp] theorem Strand.wr_line (m : Strand) (r : SReg) (v : Word) : (m.wr r v).line = m.line := by
  unfold Strand.wr; split <;> rfl
@[simp] theorem Strand.wr_ir (m : Strand) (r : SReg) (v : Word) : (m.wr r v).ir = m.ir := by
  unfold Strand.wr; split <;> rfl
@[simp] theorem Strand.wr_via (m : Strand) (r : SReg) (v : Word) : (m.wr r v).via = m.via := by
  unfold Strand.wr; split <;> rfl
@[simp] theorem Strand.wr_wait (m : Strand) (r : SReg) (v : Word) : (m.wr r v).wait = m.wait := by
  unfold Strand.wr; split <;> rfl
@[simp] theorem Strand.wr_waitFrom (m : Strand) (r : SReg) (v : Word) : (m.wr r v).waitFrom = m.waitFrom := by
  unfold Strand.wr; split <;> rfl
@[simp] theorem Strand.wr_waitCount (m : Strand) (r : SReg) (v : Word) : (m.wr r v).waitCount = m.waitCount := by
  unfold Strand.wr; split <;> rfl
@[simp] theorem Strand.wr_vop (m : Strand) (r : SReg) (v : Word) : (m.wr r v).vop = m.vop := by
  unfold Strand.wr; split <;> rfl
@[simp] theorem Strand.wr_viq (m : Strand) (r : SReg) (v : Word) : (m.wr r v).viq = m.viq := by
  unfold Strand.wr; split <;> rfl
@[simp] theorem Strand.wr_pool (m : Strand) (r : SReg) (v : Word) : (m.wr r v).pool = m.pool := by
  unfold Strand.wr; split <;> rfl
@[simp] theorem Strand.wr_failed (m : Strand) (r : SReg) (v : Word) : (m.wr r v).failed = m.failed := by
  unfold Strand.wr; split <;> rfl
@[simp] theorem Strand.wr_everDead (m : Strand) (r : SReg) (v : Word) : (m.wr r v).everDead = m.everDead := by
  unfold Strand.wr; split <;> rfl
@[simp] theorem Strand.wr_vpois (m : Strand) (r : SReg) (v : Word) : (m.wr r v).vpois = m.vpois := by
  unfold Strand.wr; split <;> rfl
@[simp] theorem Strand.wr_tpois (m : Strand) (r : SReg) (v : Word) : (m.wr r v).tpois = m.tpois := by
  unfold Strand.wr; split <;> rfl
@[simp] theorem Strand.wr_zpois (m : Strand) (r : SReg) (v : Word) : (m.wr r v).zpois = m.zpois := by
  unfold Strand.wr; split <;> rfl
@[simp] theorem Strand.wr_due (m : Strand) (r : SReg) (v : Word) : (m.wr r v).due = m.due := by
  unfold Strand.wr; split <;> rfl
@[simp] theorem Strand.wr_stopReq (m : Strand) (r : SReg) (v : Word) : (m.wr r v).stopReq = m.stopReq := by
  unfold Strand.wr; split <;> rfl
@[simp] theorem Strand.wr_strip (m : Strand) (r : SReg) (v : Word) : (m.wr r v).strip = m.strip := by
  unfold Strand.wr; split <;> rfl
@[simp] theorem Strand.wr_stopAt (m : Strand) (r : SReg) (v : Word) : (m.wr r v).stopAt = m.stopAt := by
  unfold Strand.wr; split <;> rfl
@[simp] theorem Strand.wr_vpend (m : Strand) (r : SReg) (v : Word) : (m.wr r v).vpend = m.vpend := by
  unfold Strand.wr; split <;> rfl
@[simp] theorem Strand.wr_carry (m : Strand) (r : SReg) (v : Word) : (m.wr r v).carry = m.carry := by
  unfold Strand.wr; split <;> rfl

end Sys2Proof.Machine
end

