-- ==== Sys2Proof/Laws/Table.lean ====
section
/-! SUPPORT. Laws of the tables that State is built from: what a read finds after a write, and that every operation keeps the
canonical form. -/

namespace Sys2Proof.Machine
open Sys2Proof

variable {α : Type}

theorem tget_terase_same (d : α) (t : Tab α) (k : Nat) : tget d (terase t k) k = d := by
  induction t with
  | nil => rfl
  | cons e t ih =>
    obtain ⟨j, v⟩ := e
    by_cases h : j = k <;> simp [terase, tget, h, ih]

theorem tget_terase_other (d : α) (t : Tab α) {k j : Nat} (h : j ≠ k) : tget d (terase t k) j = tget d t j := by
  induction t with
  | nil => rfl
  | cons e t ih =>
    obtain ⟨i, v⟩ := e
    by_cases hi : i = k
    · have : i ≠ j := by omega
      simp [terase, tget, hi, ih, Ne.symm h]
    · by_cases hj : i = j
      · simp [terase, tget, hj, h]
      · simp [terase, tget, hi, hj, ih]

theorem tget_tinsert_same (d : α) (t : Tab α) (k : Nat) (v : α) : tget d (tinsert t k v) k = v := by
  induction t with
  | nil => simp [tinsert, tget]
  | cons e t ih =>
    obtain ⟨i, w⟩ := e
    by_cases hi : i < k
    · have : i ≠ k := by omega
      simp [tinsert, tget, hi, this, ih]
    · simp [tinsert, tget, hi]

theorem tget_tinsert_other (d : α) (t : Tab α) {k j : Nat} (v : α) (h : j ≠ k) :
    tget d (tinsert t k v) j = tget d t j := by
  induction t with
  | nil => simp [tinsert, tget, Ne.symm h]
  | cons e t ih =>
    obtain ⟨i, w⟩ := e
    by_cases hi : i < k
    · by_cases hj : i = j
      · subst hj; simp [tinsert, tget, hi]
      · simp [tinsert, tget, hi, hj, ih]
    · simp [tinsert, tget, hi, Ne.symm h]

/-- A read after a write of the same key gives the value written. -/
@[simp] theorem tget_tset_same [DecidableEq α] (d : α) (t : Tab α) (k : Nat) (v : α) : tget d (tset d t k v) k = v := by
  unfold tset
  split
  · rw [tget_terase_same]; exact (by assumption : v = d).symm
  · exact tget_tinsert_same d _ k v

/-- A write leaves every other key alone. -/
theorem tget_tset_other [DecidableEq α] (d : α) (t : Tab α) {k j : Nat} (v : α) (h : j ≠ k) :
    tget d (tset d t k v) j = tget d t j := by
  unfold tset
  split
  · exact tget_terase_other d t h
  · rw [tget_tinsert_other d _ v h, tget_terase_other d t h]

theorem tget_tset [DecidableEq α] (d : α) (t : Tab α) (k j : Nat) (v : α) :
    tget d (tset d t k v) j = if j = k then v else tget d t j := by
  split
  · subst_vars; simp
  · exact tget_tset_other d t v (by assumption)

@[simp] theorem tget_tmod_same [DecidableEq α] (d : α) (t : Tab α) (k : Nat) (f : α → α) :
    tget d (tmod d t k f) k = f (tget d t k) := by simp [tmod]

theorem tget_tmod_other [DecidableEq α] (d : α) (t : Tab α) {k j : Nat} (f : α → α) (h : j ≠ k) :
    tget d (tmod d t k f) j = tget d t j := tget_tset_other d t _ h

/-! ### The canonical form -/

/-- The form as a list property: each entry differs from the default, and keys rise. -/
theorem twf_iff [DecidableEq α] (d : α) (t : Tab α) :
    twf d t = true ↔ t.Pairwise (fun a b => a.1 < b.1) ∧ ∀ e ∈ t, e.2 ≠ d := by
  induction t with
  | nil => simp [twf]
  | cons e t ih =>
    obtain ⟨j, v⟩ := e
    cases t with
    | nil => simp [twf]
    | cons f t =>
      obtain ⟨k, w⟩ := f
      have hw : twf d ((j, v) :: (k, w) :: t) = (v ≠ d && j < k && twf d ((k, w) :: t)) := rfl
      rw [hw, Bool.and_eq_true, Bool.and_eq_true, ih]
      simp only [decide_eq_true_eq, List.pairwise_cons, List.mem_cons, forall_eq_or_imp]
      constructor
      · rintro ⟨⟨hv, hjk⟩, ⟨hk, hp⟩, hw, ht⟩
        exact ⟨⟨⟨hjk, fun a ha => Nat.lt_trans hjk (hk a ha)⟩, hk, hp⟩, hv, hw, ht⟩
      · rintro ⟨⟨⟨hjk, _⟩, hk, hp⟩, hv, hw, ht⟩
        exact ⟨⟨hv, hjk⟩, ⟨hk, hp⟩, hw, ht⟩

theorem twf_nil [DecidableEq α] (d : α) : twf d ([] : Tab α) = true := rfl

/-- Any part of a canonical table, in its order, is canonical. -/
theorem twf_of_sublist [DecidableEq α] (d : α) {t u : Tab α} (h : t.Sublist u) (hu : twf d u = true) : twf d t = true := by
  rw [twf_iff] at hu ⊢
  exact ⟨hu.1.sublist h, fun e he => hu.2 e (h.subset he)⟩

theorem twf_filter [DecidableEq α] (d : α) {t : Tab α} (p : Nat × α → Bool) (h : twf d t = true) :
    twf d (t.filter p) = true := twf_of_sublist d List.filter_sublist h

theorem terase_eq_filter (t : Tab α) (k : Nat) : terase t k = t.filter (fun e => e.1 ≠ k) := by
  induction t with
  | nil => rfl
  | cons e t ih =>
    obtain ⟨j, v⟩ := e
    by_cases h : j = k <;> simp [terase, h, ih]

theorem twf_terase [DecidableEq α] (d : α) {t : Tab α} (k : Nat) (h : twf d t = true) : twf d (terase t k) = true := by
  rw [terase_eq_filter]; exact twf_filter d _ h

theorem mem_tinsert (t : Tab α) (k : Nat) (v : α) (e : Nat × α) : e ∈ tinsert t k v ↔ e = (k, v) ∨ e ∈ t := by
  induction t with
  | nil => simp [tinsert]
  | cons f t ih =>
    obtain ⟨j, w⟩ := f
    by_cases h : j < k
    · simp only [tinsert, h, if_true, List.mem_cons, ih]; tauto
    · simp [tinsert, h]

theorem twf_tinsert [DecidableEq α] (d : α) {t : Tab α} (k : Nat) {v : α} (hv : v ≠ d) (hk : ∀ e ∈ t, e.1 ≠ k)
    (h : twf d t = true) : twf d (tinsert t k v) = true := by
  rw [twf_iff] at h ⊢
  refine ⟨?_, fun e he => ?_⟩
  · obtain ⟨hp, -⟩ := h
    induction t with
    | nil => simp [tinsert]
    | cons f t ih =>
      obtain ⟨j, w⟩ := f
      rw [List.pairwise_cons] at hp
      have hjk : j ≠ k := hk (j, w) (by simp)
      by_cases hj : j < k
      · simp only [tinsert, hj, if_true, List.pairwise_cons]
        refine ⟨fun e he => ?_, ih (fun e he => hk e (by simp [he])) hp.2⟩
        rcases (mem_tinsert t k v e).mp he with rfl | he
        · exact hj
        · exact hp.1 e he
      · simp only [tinsert, hj, if_false, List.pairwise_cons, List.mem_cons, forall_eq_or_imp]
        exact ⟨⟨by omega, fun e he => Nat.lt_of_le_of_lt (by omega) (hp.1 e he)⟩, hp⟩
  · rcases (mem_tinsert t k v e).mp he with rfl | he
    · exact hv
    · exact h.2 e he

/-- A write keeps the canonical form. -/
theorem twf_tset [DecidableEq α] (d : α) {t : Tab α} (k : Nat) (v : α) (h : twf d t = true) : twf d (tset d t k v) = true := by
  unfold tset
  split
  · exact twf_terase d k h
  · refine twf_tinsert d k (by assumption) (fun e he => ?_) (twf_terase d k h)
    rw [terase_eq_filter] at he
    simpa using (List.mem_filter.mp he).2

theorem twf_tmod [DecidableEq α] (d : α) {t : Tab α} (k : Nat) (f : α → α) (h : twf d t = true) :
    twf d (tmod d t k f) = true := twf_tset d k _ h

end Sys2Proof.Machine
end

