-- ==== Sys2Proof/Laws/Head.lean ====
section
/-! SUPPORT. Laws of a head: when its checks let it run, what a fixed-latency and an interlocked result become, and what a
completed head and a trap leave. -/

namespace Sys2Proof.Machine
open Sys2Proof

/-! ### Checks -/

theorem firstTrap_none (l : List (Option Trap)) (h : ∀ t ∈ l, t = none) : firstTrap l = none := by
  induction l with
  | nil => rfl
  | cons a l ih =>
    have ha : a = none := h a (by simp)
    subst ha
    exact ih fun t ht => h t (by simp [ht])

/-- A head of which no check speaks runs. -/
theorem checked_go (l : List (Option Trap)) (k : State → State) (s : State) (h : ∀ t ∈ l, t = none) : checked l k s = k s := by
  rw [checked, firstTrap_none l h]

/-- A check that speaks after checks that do not is the trap taken. -/
theorem checked_trap (l r : List (Option Trap)) (t : Trap) (k : State → State) (s : State) (h : ∀ t ∈ l, t = none) :
    checked (l ++ some t :: r) k s = takeTrap t s := by
  have : firstTrap (l ++ some t :: r) = some t := by
    induction l with
    | nil => rfl
    | cons a l ih =>
      have ha : a = none := h a (by simp)
      subst ha
      exact ih fun t ht => h t (by simp [ht])
  rw [checked, this]

theorem stallShort_readable (s : State) (rs : List SReg) (h : Readable s rs) : stallShort s rs = none := by
  unfold stallShort
  cases hs : s.me.schk with
  | false => simp
  | true =>
    simp only [Bool.not_true, Bool.false_eq_true, if_false, List.findSome?_eq_none_iff]
    intro r hr
    split
    · rfl
    · rename_i hz
      rw [Option.map_eq_none_iff, List.find?_eq_none]
      intro p hp
      simpa using h.1 hs r hr hz p (by simpa using hp)

theorem scalarPoison_readable (s : State) (rs : List SReg) (h : Readable s rs) : scalarPoison s rs = none := by
  unfold scalarPoison
  split
  · rfl
  · rw [Option.map_eq_none_iff, List.find?_eq_none]
    intro r hr
    simpa using h.2 r hr

/-- A head whose registers can be read runs. -/
theorem readRegs_go (rs : List SReg) (k : State → State) (s : State) (h : Readable s rs) : readRegs rs k s = k s := by
  unfold readRegs
  exact checked_go _ _ _ (by simp [stallShort_readable s rs h, scalarPoison_readable s rs h])

/-! ### Results -/

/-- The youngest result is delivered last. -/
theorem deliver_append (l : List Pend) (p : Pend) : ∀ acc : Tab Word × List Pend,
    deliver (l ++ [p]) acc = if p.rem = 0 then
        (tset 0 (deliver l acc).1 p.reg.val p.val, (deliver l acc).2.filter (·.reg ≠ p.reg))
      else ((deliver l acc).1, (deliver l acc).2 ++ [p]) := by
  induction l with
  | nil =>
    rintro ⟨regs, kept⟩
    by_cases h : p.rem = 0 <;> simp [deliver, h]
  | cons q l ih =>
    rintro ⟨regs, kept⟩
    by_cases h : q.rem = 0 <;> simp only [List.cons_append, deliver, h, if_true, if_false] <;> exact ih _

/-- Delivery changes only registers that a result names. -/
theorem deliver_other (l : List Pend) (r : SReg) : ∀ regs kept, (∀ p ∈ l, p.reg ≠ r) →
    tget 0 (deliver l (regs, kept)).1 r.val = tget 0 regs r.val := by
  induction l with
  | nil => exact fun _ _ _ => rfl
  | cons q l ih =>
    intro regs kept h
    have hq : r.val ≠ q.reg.val := fun e => h q (by simp) (Fin.ext e.symm)
    have hl : ∀ p ∈ l, p.reg ≠ r := fun p hp => h p (by simp [hp])
    by_cases hz : q.rem = 0
    · simp only [deliver, hz, if_true]
      rw [ih _ _ hl, tget_tset_other 0 regs q.val hq]
    · simp only [deliver, hz, if_false]
      exact ih _ _ hl

/-- Results of register `d` do not bear on what another register receives. -/
theorem deliver_filter (l : List Pend) (d r : SReg) (hr : r ≠ d) : ∀ regs regs' kept kept',
    tget 0 regs r.val = tget 0 regs' r.val →
    tget 0 (deliver (l.filter (·.reg ≠ d)) (regs, kept)).1 r.val = tget 0 (deliver l (regs', kept')).1 r.val := by
  induction l with
  | nil => exact fun _ _ _ _ h => h
  | cons q l ih =>
    intro regs regs' kept kept' h
    by_cases hd : q.reg = d
    · have hqr : r.val ≠ q.reg.val := fun e => hr ((Fin.ext e).trans hd)
      simp only [List.filter_cons, hd, ne_eq, not_true, decide_false, Bool.false_eq_true, if_false]
      by_cases hz : q.rem = 0
      · simp only [deliver, hz, if_true]
        apply ih
        rw [tget_tset_other 0 regs' q.val hqr, h]
      · simp only [deliver, hz, if_false]
        exact ih _ _ _ _ h
    · have : (q :: l).filter (·.reg ≠ d) = q :: l.filter (·.reg ≠ d) := by simp [hd]
      rw [this]
      by_cases hz : q.rem = 0
      · simp only [deliver, hz, if_true]
        apply ih
        rw [tget_tset, tget_tset, h]
      · simp only [deliver, hz, if_false]
        exact ih _ _ _ _ h

/-- Registers after a passing of `d` units, in one form with no case for an empty list. -/
theorem Strand.age_regs (m : Strand) (d : Nat) :
    (m.age d).regs = (deliver (m.pend.map fun p => { p with rem := p.rem - d }) (m.regs, [])).1 := by
  unfold Strand.age
  split
  · simp [deliver, *]
  · rfl

theorem Strand.age_pend (m : Strand) (d : Nat) :
    (m.age d).pend = (deliver (m.pend.map fun p => { p with rem := p.rem - d }) (m.regs, [])).2 := by
  unfold Strand.age
  split
  · simp [deliver, *]
  · rfl

theorem rd_of_ne_zero (s : State) (r : SReg) (h : r.val ≠ 0) : s.rd r = tget 0 s.me.regs r.val := by simp [State.rd, h]

@[simp] theorem rd_zero (s : State) : s.rd 0 = 0 := rfl

/-- The strand with one more undelivered result. -/
theorem State.wrFixed_me_pend (s : State) (r : SReg) (v : Word) (lat : Nat) (h : r.val ≠ 0) :
    (s.wrFixed r v lat).me.pend = s.me.pend ++ [{ reg := r, val := v, rem := lat, pc := s.me.pc }] := by
  simp [State.wrFixed, h, State.modMe]

/-- A fixed-latency result after `n` units: delivered where `n` reaches its latency, else with older results until then. -/
theorem age_wrFixed_dest (s : State) (d : SReg) (v : Word) (lat n : Nat) (h : d.val ≠ 0) :
    tget 0 ((s.wrFixed d v lat).me.age n).regs d.val = if lat ≤ n then v else tget 0 (s.me.age n).regs d.val := by
  rw [Strand.age_regs, Strand.age_regs, State.wrFixed_me_pend s d v lat h, State.wrFixed_me_regs, List.map_append, List.map_cons,
    List.map_nil, deliver_append]
  by_cases hl : lat ≤ n
  · have : lat - n = 0 := by omega
    simp [this, hl]
  · have : lat - n ≠ 0 := by omega
    simp only [this, hl, if_false]

theorem age_wrFixed_other (s : State) (d r : SReg) (v : Word) (lat n : Nat) (h : r ≠ d) :
    tget 0 ((s.wrFixed d v lat).me.age n).regs r.val = tget 0 (s.me.age n).regs r.val := by
  by_cases hd : d.val = 0
  · simp [State.wrFixed, hd]
  · have hne : r.val ≠ d.val := fun e => h (Fin.ext e)
    rw [Strand.age_regs, Strand.age_regs, State.wrFixed_me_pend s d v lat hd, State.wrFixed_me_regs, List.map_append, List.map_cons,
      List.map_nil, deliver_append]
    by_cases hl : lat - n = 0
    · simp only [hl, if_true]; exact tget_tset_other 0 _ v hne
    · simp only [hl, if_false]

/-- An interlocked result is at once its register's value, and stays it. -/
theorem age_wr_dest (m : Strand) (d : SReg) (v : Word) (n : Nat) (h : d.val ≠ 0) :
    tget 0 ((m.wr d v).age n).regs d.val = v := by
  rw [Strand.age_regs]
  simp only [Strand.wr, h, if_false]
  rw [deliver_other]
  · simp
  · intro p hp
    rw [List.mem_map] at hp
    obtain ⟨q, hq, rfl⟩ := hp
    simpa using (List.mem_filter.mp hq).2

theorem age_wr_other (m : Strand) (d r : SReg) (v : Word) (n : Nat) (h : r ≠ d) :
    tget 0 ((m.wr d v).age n).regs r.val = tget 0 (m.age n).regs r.val := by
  by_cases hd : d.val = 0
  · simp [Strand.wr, hd]
  · have hne : r.val ≠ d.val := fun e => h (Fin.ext e)
    rw [Strand.age_regs, Strand.age_regs]
    simp only [Strand.wr, hd, if_false]
    have : (m.pend.filter (·.reg ≠ d)).map (fun p => { p with rem := p.rem - n })
        = (m.pend.map fun p => { p with rem := p.rem - n }).filter (·.reg ≠ d) := by
      rw [List.filter_map]; rfl
    rw [this]
    exact deliver_filter _ d r h _ _ _ _ (tget_tset_other 0 m.regs v hne)

end Sys2Proof.Machine
end

