-- ==== Sys2Proof/Laws/Memory.lean ====
section
/-! SUPPORT. Laws of memory: what a byte reads after a write, and that every operation on memory keeps its canonical form. -/

namespace Sys2Proof.Machine
open Sys2Proof

/-! ### Bytes -/

/-- After bytes are written from key `k` upward, a key in their range reads its byte, and every other key reads as before. -/
theorem tget_putBytes (bs : List Byte) : ∀ (m : Tab Byte) (k j : Nat),
    tget 0 (putBytes m k bs) j = if k ≤ j ∧ j < k + bs.length then bs.getD (j - k) 0 else tget 0 m j := by
  induction bs with
  | nil => intro m k j; simp only [putBytes, List.length_nil]; rw [if_neg (by omega)]
  | cons b t ih =>
    intro m k j
    rw [putBytes, ih]
    simp only [List.length_cons]
    by_cases h : j = k
    · subst h
      rw [if_neg (by omega), if_pos (by omega), tget_tset_same]
      simp
    · rw [tget_tset_other 0 m b h]
      by_cases h1 : k + 1 ≤ j ∧ j < k + 1 + t.length
      · rw [if_pos h1, if_pos (by omega)]
        have : j - k = j - (k + 1) + 1 := by omega
        rw [this, List.getD_cons_succ]
      · rw [if_neg h1, if_neg (by omega)]

theorem tget_putBytes_outside (m : Tab Byte) (k j : Nat) (bs : List Byte) (h : j < k ∨ k + bs.length ≤ j) :
    tget 0 (putBytes m k bs) j = tget 0 m j := by
  rw [tget_putBytes, if_neg (by omega)]

theorem tget_filter {α : Type} (d : α) (p : Nat → Bool) (t : Tab α) (j : Nat) :
    tget d (t.filter fun e => p e.1) j = if p j then tget d t j else d := by
  induction t with
  | nil => simp [tget]
  | cons e t ih =>
    obtain ⟨i, v⟩ := e
    rw [List.filter_cons]
    by_cases hi : p i = true
    · rw [if_pos hi]
      by_cases hj : i = j
      · subst hj; simp [tget, hi]
      · simp only [tget, hj, if_false, ih]
    · rw [if_neg hi, ih]
      by_cases hj : i = j
      · subst hj; simp [hi]
      · simp only [tget, hj, if_false]

/-- A zeroed range reads zero, and every other key reads as before. -/
theorem tget_zeroRange (m : Tab Byte) (k n j : Nat) :
    tget 0 (zeroRange m k n) j = if k ≤ j ∧ j < k + n then 0 else tget 0 m j := by
  have := tget_filter (0 : Byte) (fun x => decide (x < k) || decide (k + n ≤ x)) m j
  unfold zeroRange
  rw [this]
  simp only [Bool.or_eq_true, decide_eq_true_eq]
  by_cases h : k ≤ j ∧ j < k + n
  · rw [if_pos h, if_neg (by omega)]
  · rw [if_neg h, if_pos (by omega)]

@[simp] theorem length_leBytes (n v : Nat) : (leBytes n v).length = n := by
  induction n generalizing v with
  | zero => rfl
  | succ n ih => simp [leBytes, ih]

/-- The bytes of a number have it as their value, as far as they reach. -/
theorem leVal_leBytes (n v : Nat) : leVal (leBytes n v) = v % 256 ^ n := by
  induction n generalizing v with
  | zero => simp [leBytes, leVal, Nat.mod_one]
  | succ n ih =>
    simp only [leBytes, leVal, ih, BitVec.toNat_ofNat, Nat.pow_succ, Nat.mul_comm (256 ^ n) 256]
    exact (Nat.mod_mul (a := 256) (b := 256 ^ n)).symm

@[simp] theorem length_homeBytes (s : State) (k n : Nat) : (s.homeBytes k n).length = n := by
  induction n generalizing k with
  | zero => rfl
  | succ n ih => simp [State.homeBytes, ih]

@[simp] theorem length_viewBytes (s : State) (core k n : Nat) : (s.viewBytes core k n).length = n := by
  induction n generalizing k with
  | zero => rfl
  | succ n ih => simp [State.viewBytes, ih]

/-- A part of the bytes of a range. -/
theorem take_drop_viewBytes (s : State) (core : Nat) : ∀ o k n m : Nat,
    ((s.viewBytes core k n).drop o).take m = s.viewBytes core (k + o) (min m (n - o))
  | 0, k, n, m => by
    induction n generalizing k m with
    | zero => simp [State.viewBytes]
    | succ n ih =>
      cases m with
      | zero => simp [State.viewBytes]
      | succ m =>
        have := ih (k + 1) m
        simp only [List.drop_zero, Nat.add_zero, Nat.sub_zero] at this
        simp [State.viewBytes, this, Nat.succ_min_succ]
  | o + 1, k, 0, m => by simp [State.viewBytes]
  | o + 1, k, n + 1, m => by
    have := take_drop_viewBytes s core o (k + 1) n m
    simp only [State.viewBytes, List.drop_succ_cons, Nat.add_sub_add_right]
    rw [this, Nat.add_right_comm, Nat.add_assoc]

/-! ### The canonical form -/

theorem wf_putBytes (bs : List Byte) : ∀ (m : Tab Byte) (k : Nat), Memory.wf m = true → Memory.wf (putBytes m k bs) = true := by
  induction bs with
  | nil => exact fun _ _ h => h
  | cons b t ih => exact fun m k h => ih _ _ (twf_tset 0 k b h)

theorem wf_filter {m : Tab Byte} (p : Nat × Byte → Bool) (h : Memory.wf m = true) : Memory.wf (m.filter p) = true :=
  twf_filter 0 p h

theorem wf_zeroRange {m : Tab Byte} (k n : Nat) (h : Memory.wf m = true) : Memory.wf (zeroRange m k n) = true :=
  wf_filter _ h

theorem wf_reset : Memory.wf State.reset.mem = true := rfl

/-- A fold keeps a property of the state that each of its steps keeps. -/
theorem foldl_keeps {β σ : Type} (P : σ → Prop) (f : σ → β → σ) (hf : ∀ s b, P s → P (f s b)) (l : List β) :
    ∀ s, P s → P (l.foldl f s) := by
  induction l with
  | nil => exact fun _ h => h
  | cons b t ih => exact fun s h => ih _ (hf s b h)

/-- A fold leaves a part of the state that each of its steps leaves. -/
theorem foldl_same {β σ γ : Type} (g : σ → γ) (f : σ → β → σ) (hf : ∀ s b, g (f s b) = g s) (l : List β) (s : σ) :
    g (l.foldl f s) = g s := foldl_keeps (fun t => g t = g s) f (fun t b h => (hf t b).trans h) l s rfl

@[simp] theorem breakLinks_mem (lines : List Nat) (keep : Option Nat) (s : State) : (breakLinks lines keep s).mem = s.mem := rfl

/-- A touch of a window's line changes the lines that the windows hold, and nothing else. -/
theorem touchLine_frame (v w line : Nat) (write : Bool) (s : State) : ∃ l, touchLine v w line write s = { s with stash := l } := by
  unfold touchLine
  dsimp only
  split
  · exact ⟨_, rfl⟩
  · unfold evictLine
    split
    · exact ⟨_, rfl⟩
    · split <;> exact ⟨_, rfl⟩

/-- An access to windows changes the lines that they hold, and nothing else (R282). -/
theorem noteStash_frame (write : Bool) (k n : Nat) (s : State) : ∃ l, noteStash write k n s = { s with stash := l } := by
  unfold noteStash
  split
  · exact ⟨s.stash, rfl⟩
  · refine foldl_keeps (fun t : State => ∃ l, t = { s with stash := l }) _ (fun t i ht => ?_) _ s ⟨s.stash, rfl⟩
    split
    · exact ht
    · obtain ⟨l, rfl⟩ := ht
      obtain ⟨l', h⟩ := touchLine_frame _ _ (k / 256 + i) write { s with stash := l }
      exact ⟨l', h⟩

@[simp] theorem noteStash_mem (write : Bool) (k n : Nat) (s : State) : (noteStash write k n s).mem = s.mem := by
  obtain ⟨l, h⟩ := noteStash_frame write k n s
  rw [h]

/-- What a write at its home does to memory: nothing where it has no bytes or its tier is lost, else its bytes alone. -/
theorem homeWrite_mem (core keep : Option Nat) (k : Nat) (bs : List Byte) (s : State) :
    (homeWrite core keep k bs s).mem = if bs.length = 0 || lostTier2 s k then s.mem else putBytes s.mem k bs := by
  unfold homeWrite
  dsimp only
  split
  · rfl
  · simp

theorem homeWrite_wf (core keep : Option Nat) (k : Nat) (bs : List Byte) (s : State) (h : Memory.wf s.mem = true) :
    Memory.wf (homeWrite core keep k bs s).mem = true := by
  rw [homeWrite_mem]
  split
  · exact h
  · exact wf_putBytes bs _ _ h

theorem performRemote_wf (f : RemoteStore → Bool) (s : State) (h : Memory.wf s.mem = true) :
    Memory.wf (performRemote f s).mem = true := by
  unfold performRemote
  exact foldl_keeps (fun t : State => Memory.wf t.mem = true) _ (fun t r ht => homeWrite_wf _ _ _ _ _ ht) (s.rstores.partition f).1 _ h

theorem performStore_wf (p : PStore) (s : State) (h : Memory.wf s.mem = true) : Memory.wf (performStore p s).mem = true := by
  unfold performStore
  split
  · exact h
  · exact homeWrite_wf _ _ _ _ _ (performRemote_wf _ _ h)

theorem drainWhere_wf (f : PStore → Bool) (s : State) (h : Memory.wf s.mem = true) : Memory.wf (drainWhere f s).mem = true := by
  unfold drainWhere
  exact foldl_keeps (fun t : State => Memory.wf t.mem = true) _ (fun t p ht => performStore_wf p t ht) (s.sbuf.partition f).1 _ h

theorem drainCore_wf (core : Nat) (s : State) (h : Memory.wf s.mem = true) : Memory.wf (drainCore core s).mem = true := by
  unfold drainCore
  split
  · exact h
  · exact drainWhere_wf _ _ h

/-- A store's effect on memory: a generic store waits in its core's buffer, any other is performed at once. -/
theorem storeBytes_mem (core sid k : Nat) (va : Word) (bs : List Byte) (s : State) :
    (storeBytes core sid k va bs s).mem = if bs.length = 0 || isGeneric k then s.mem else putBytes s.mem k bs := by
  unfold storeBytes
  by_cases h : bs.length = 0
  · simp [h]
  · by_cases g : isGeneric k = true <;> simp [h, g]

theorem storeBytes_wf (core sid k : Nat) (va : Word) (bs : List Byte) (s : State) (h : Memory.wf s.mem = true) :
    Memory.wf (storeBytes core sid k va bs s).mem = true := by
  rw [storeBytes_mem]
  split
  · exact h
  · exact wf_putBytes bs _ _ h

@[simp] theorem fillLines_mem (core k n : Nat) (s : State) : (fillLines core k n s).mem = s.mem := by
  unfold fillLines
  split
  · refine foldl_same State.mem _ (fun s b => ?_) _ s
    dsimp only
    split <;> rfl
  · rfl

theorem writeThrough_wf (s : State) (c : Ctx) (va : Nat) (bs : List Byte) (t : State) (h : Memory.wf s.mem = true)
    (e : writeThrough s c va bs = some t) : Memory.wf t.mem = true := by
  unfold writeThrough at e
  rw [Option.map_eq_some_iff] at e
  obtain ⟨ks, -, rfl⟩ := e
  exact foldl_keeps (fun t : State => Memory.wf t.mem = true) _ (fun t e ht => homeWrite_wf _ _ _ _ _ ht) _ _ h

theorem writeS2_wf (n : S2Notice) (s : State) (h : Memory.wf s.mem = true) : Memory.wf (writeS2 n s).mem = true :=
  wf_putBytes _ _ _ h

theorem postS2_wf (v ipa kind : Nat) (s : State) (h : Memory.wf s.mem = true) : Memory.wf (postS2 v ipa kind s).1.mem = true := by
  unfold postS2
  split
  · exact h
  · dsimp only
    split
    · exact writeS2_wf _ _ h
    · exact h

/-! ### Replaced table entries (R403) -/

@[simp] theorem breakLinks_old (lines : List Nat) (keep : Option Nat) (s : State) : (breakLinks lines keep s).old = s.old := rfl

@[simp] theorem noteStash_old (write : Bool) (k n : Nat) (s : State) : (noteStash write k n s).old = s.old := by
  obtain ⟨l, h⟩ := noteStash_frame write k n s
  rw [h]

/-- A write at home keeps replaced entries, and leaves the invalidations. -/
theorem homeWrite_old (core keep : Option Nat) (k : Nat) (bs : List Byte) (s : State) :
    (homeWrite core keep k bs s).old.pending = s.old.pending ∧ (homeWrite core keep k bs s).old.done = s.old.done
      ∧ (homeWrite core keep k bs s).old.marks = s.old.marks := by
  unfold homeWrite
  dsimp only
  split
  · exact ⟨rfl, rfl, rfl⟩
  · simp [Superseded.note]

/-- A choice among old values is one of them or the present one. -/
theorem pickOld_cases {α : Type} (s : State) (k a : Nat) (olds : List α) (now : α) :
    pickOld s k a olds now = now ∨ pickOld s k a olds now ∈ olds := by
  unfold pickOld
  split
  · exact .inl rfl
  · rename_i o t
    rcases h : (o :: t)[Config.entryPick (xlTime s) k (a / 65536) % (t.length + 2)]? with _ | x
    · exact .inl rfl
    · exact .inr (List.mem_of_getElem? h)

/-- Where no old value may be used, the entry is what stands in memory. -/
theorem entryValue_present (s : State) (two : Bool) (v a k : Nat) (h : oldEntries s two v a k = []) :
    entryValue s two v a k = leVal (s.homeBytes k 8) := by
  unfold entryValue
  rw [h]
  rfl

end Sys2Proof.Machine
end

