-- ==== Sys2Proof/Laws/PerInstr.lean ====
section
/-! SUPPORT. One lemma for each constructor of `Instr`: the fields that the encoder gives it fit the places that R86 and R88 give
them, so that a head and its tail hold every one of them whole. -/

set_option Elab.async false
set_option linter.unusedTactic false
set_option linter.unreachableTactic false

namespace Sys2Proof.Laws.F
open Sys2Proof Sys2Proof.Coding Sys2Proof.Machine

/-- The fields fit their places, and a field that a tail of this size does not have is zero (R86, R88). -/
def Fits (f : Fields) : Prop :=
  f.ts < 4 ∧ f.maj < 128 ∧ f.fn < 16 ∧ f.d < 64 ∧ f.a < 64 ∧ f.b < 64 ∧ f.m < 8 ∧ f.md < 2048 ∧ f.w1 < 4294967296
    ∧ (f.ts < 3 → f.w1 = 0) ∧ (f.ts < 2 → f.b = 0) ∧ (f.ts < 2 → f.m = 0) ∧ (f.ts < 2 → f.md < 16)
    ∧ (f.ts < 1 → f.d = 0) ∧ (f.ts < 1 → f.a = 0) ∧ (f.ts < 1 → f.md = 0)

/-- What is said of every instruction: the fields of its words fit. -/
def Statement (i : Instr) : Prop := Fits (encodeFields i)

theorem tyCode_lt (t : Ty) : tyCode t < 16 := by cases t <;> decide
theorem rmoCode_lt (r : Rmo) : rmoCode r < 6 := by
  cases r with
  | frm => decide
  | fixed m => cases m <;> decide
theorem ftyCode_lt (t : FTy) : ftyCode t < 16 := by cases t <;> decide
theorem scopeCode_lt (c : Scope) : scopeCode c < 8 := by cases c <;> decide
theorem accCode_lt (x : AccW) : accCode x < 4 := by cases x <;> decide
theorem extCode_lt (x : ExtW) : extCode x < 4 := by cases x <;> decide
theorem tretCode_lt (m : TretMode) : tretCode m < 16 := by cases m <;> decide
theorem amoCode_lt (o : AmoOp) : amoCode o < 16 := by cases o <;> decide
theorem aordCode_lt (o : AOrd) : aordCode o < 4 := by cases o <;> decide
theorem semCode_lt (m : Sem) : semCode m < 4 := by cases m <;> decide
theorem foldCode_lt (f : Fold) : Coding.foldCode f < 4 := by cases f <;> decide
theorem wccCode_lt (c : WCc) : wccCode c < 4 := by cases c <;> decide
theorem vccCode_lt (c : VCc) : vccCode c < 8 := by cases c <;> decide
theorem grantCode_lt (g : Grant) : grantCode g < 4 := by cases g <;> decide
theorem hselCode_lt (h : HSel) : hselCode h < 8 := by cases h <;> decide
theorem ySel_lt (y : VSrc) : ySel y < 2 := by cases y <;> simp [ySel]
theorem yReg_lt (y : VSrc) : yReg y < 64 := by cases y <;> simp only [yReg] <;> omega
theorem cvtCode_lt (m : CvtMode) : cvtCode m < 8 := by
  cases m with
  | round r => have := rmoCode_lt r; simp only [cvtCode]; omega
  | _ => simp [cvtCode]
theorem cvtReg_lt (m : CvtMode) : cvtReg m < 64 := by cases m <;> simp only [cvtReg] <;> omega
theorem movD_lt (m : MovS) : movD m < 64 := by cases m <;> simp only [movD] <;> omega
theorem movA_lt (m : MovS) : movA m < 64 := by cases m <;> simp only [movA] <;> omega
theorem movIns_lt (m : MovS) : movIns m < 2 := by cases m <;> simp [movIns]
theorem vtypeCode_lt (v : VType) : vtypeCode v < 4294967296 := by
  obtain ⟨o, b, f⟩ := v
  cases o <;> cases b <;> cases f <;> decide

theorem nop : Statement .nop := by simp [Statement, Fits, encodeFields]
theorem add (w : Bool) (d a b : SReg) : Statement (.add w d a b) := by
  have h0 := Bool.toNat_lt w
  simp only [Statement, Fits, encodeFields, encR, Bool.toNat_false]; and_intros; all_goals first | omega | exact fun _ => trivial
theorem sub (w : Bool) (d a b : SReg) : Statement (.sub w d a b) := by
  have h0 := Bool.toNat_lt w
  simp only [Statement, Fits, encodeFields, encR, Bool.toNat_false]; and_intros; all_goals first | omega | exact fun _ => trivial
theorem and (w : Bool) (d a b : SReg) : Statement (.and w d a b) := by
  have h0 := Bool.toNat_lt w
  simp only [Statement, Fits, encodeFields, encR, Bool.toNat_false]; and_intros; all_goals first | omega | exact fun _ => trivial
theorem or (w : Bool) (d a b : SReg) : Statement (.or w d a b) := by
  have h0 := Bool.toNat_lt w
  simp only [Statement, Fits, encodeFields, encR, Bool.toNat_false]; and_intros; all_goals first | omega | exact fun _ => trivial
theorem xor (w : Bool) (d a b : SReg) : Statement (.xor w d a b) := by
  have h0 := Bool.toNat_lt w
  simp only [Statement, Fits, encodeFields, encR, Bool.toNat_false]; and_intros; all_goals first | omega | exact fun _ => trivial
theorem shl (w : Bool) (d a b : SReg) : Statement (.shl w d a b) := by
  have h0 := Bool.toNat_lt w
  simp only [Statement, Fits, encodeFields, encR, Bool.toNat_false]; and_intros; all_goals first | omega | exact fun _ => trivial
theorem shr (w : Bool) (d a b : SReg) : Statement (.shr w d a b) := by
  have h0 := Bool.toNat_lt w
  simp only [Statement, Fits, encodeFields, encR, Bool.toNat_false]; and_intros; all_goals first | omega | exact fun _ => trivial
theorem sra (w : Bool) (d a b : SReg) : Statement (.sra w d a b) := by
  have h0 := Bool.toNat_lt w
  simp only [Statement, Fits, encodeFields, encR, Bool.toNat_false]; and_intros; all_goals first | omega | exact fun _ => trivial
theorem min (w u : Bool) (d a b : SReg) : Statement (.min w u d a b) := by
  have h0 := Bool.toNat_lt w
  have h1 := Bool.toNat_lt u
  simp only [Statement, Fits, encodeFields, encR]; and_intros; all_goals first | omega | exact fun _ => trivial
theorem max (w u : Bool) (d a b : SReg) : Statement (.max w u d a b) := by
  have h0 := Bool.toNat_lt w
  have h1 := Bool.toNat_lt u
  simp only [Statement, Fits, encodeFields, encR]; and_intros; all_goals first | omega | exact fun _ => trivial
theorem seq (w : Bool) (d a b : SReg) : Statement (.seq w d a b) := by
  have h0 := Bool.toNat_lt w
  simp only [Statement, Fits, encodeFields, encR, Bool.toNat_false]; and_intros; all_goals first | omega | exact fun _ => trivial
theorem slt (w : Bool) (d a b : SReg) : Statement (.slt w d a b) := by
  have h0 := Bool.toNat_lt w
  simp only [Statement, Fits, encodeFields, encR, Bool.toNat_false]; and_intros; all_goals first | omega | exact fun _ => trivial
theorem sltu (w : Bool) (d a b : SReg) : Statement (.sltu w d a b) := by
  have h0 := Bool.toNat_lt w
  simp only [Statement, Fits, encodeFields, encR, Bool.toNat_false]; and_intros; all_goals first | omega | exact fun _ => trivial
theorem sel (d a b c : SReg) : Statement (.sel d a b c) := by
  simp only [Statement, Fits, encodeFields]; and_intros; all_goals first | omega | exact fun _ => trivial
theorem lea (n : Fin 8) (d a b : SReg) : Statement (.lea n d a b) := by
  simp only [Statement, Fits, encodeFields]; and_intros; all_goals first | omega | exact fun _ => trivial
theorem leaImm (n : Fin 8) (d a b : SReg) (imm : Imm) : Statement (.leaImm n d a b imm) := by
  simp only [Statement, Fits, encodeFields]; and_intros; all_goals first | omega | exact fun _ => trivial
theorem mul (w : Bool) (d a b : SReg) : Statement (.mul w d a b) := by
  have h0 := Bool.toNat_lt w
  simp only [Statement, Fits, encodeFields, encR, Bool.toNat_false]; and_intros; all_goals first | omega | exact fun _ => trivial
theorem mulh (w u : Bool) (d a b : SReg) : Statement (.mulh w u d a b) := by
  have h0 := Bool.toNat_lt w
  have h1 := Bool.toNat_lt u
  simp only [Statement, Fits, encodeFields, encR]; and_intros; all_goals first | omega | exact fun _ => trivial
theorem div (w u : Bool) (d a b : SReg) : Statement (.div w u d a b) := by
  have h0 := Bool.toNat_lt w
  have h1 := Bool.toNat_lt u
  simp only [Statement, Fits, encodeFields, encR]; and_intros; all_goals first | omega | exact fun _ => trivial
theorem rem (w u : Bool) (d a b : SReg) : Statement (.rem w u d a b) := by
  have h0 := Bool.toNat_lt w
  have h1 := Bool.toNat_lt u
  simp only [Statement, Fits, encodeFields, encR]; and_intros; all_goals first | omega | exact fun _ => trivial
theorem clz (w : Bool) (d a : SReg) : Statement (.clz w d a) := by
  have h0 := Bool.toNat_lt w
  simp only [Statement, Fits, encodeFields]; and_intros; all_goals first | omega | exact fun _ => trivial
theorem popc (w : Bool) (d a : SReg) : Statement (.popc w d a) := by
  have h0 := Bool.toNat_lt w
  simp only [Statement, Fits, encodeFields]; and_intros; all_goals first | omega | exact fun _ => trivial
theorem sext (x : ExtW) (d a : SReg) : Statement (.sext x d a) := by
  have h0 := extCode_lt x
  simp only [Statement, Fits, encodeFields]; and_intros; all_goals first | omega | exact fun _ => trivial
theorem zext (x : ExtW) (d a : SReg) : Statement (.zext x d a) := by
  have h0 := extCode_lt x
  simp only [Statement, Fits, encodeFields]; and_intros; all_goals first | omega | exact fun _ => trivial
theorem addi (w : Bool) (d a : SReg) (imm : Imm) : Statement (.addi w d a imm) := by
  have h0 := Bool.toNat_lt w
  simp only [Statement, Fits, encodeFields]; and_intros; all_goals first | omega | exact fun _ => trivial
theorem li (hi : Bool) (d a : SReg) (imm : Imm) : Statement (.li hi d a imm) := by
  have h0 := Bool.toNat_lt hi
  simp only [Statement, Fits, encodeFields]; and_intros; all_goals first | omega | exact fun _ => trivial
theorem fadd (t : FTy) (rm : Rmo) (nb : Bool) (d a b : SReg) : Statement (.fadd t rm nb d a b) := by
  have h0 := ftyCode_lt t
  have h1 := rmoCode_lt rm
  have h2 := Bool.toNat_lt nb
  simp only [Statement, Fits, encodeFields]; and_intros; all_goals first | omega | exact fun _ => trivial
theorem fmul (t : FTy) (rm : Rmo) (np : Bool) (d a b : SReg) : Statement (.fmul t rm np d a b) := by
  have h0 := ftyCode_lt t
  have h1 := rmoCode_lt rm
  have h2 := Bool.toNat_lt np
  simp only [Statement, Fits, encodeFields]; and_intros; all_goals first | omega | exact fun _ => trivial
theorem ffma (t : FTy) (rm : Rmo) (np nc : Bool) (d a b c : SReg) : Statement (.ffma t rm np nc d a b c) := by
  have h0 := ftyCode_lt t
  have h1 := rmoCode_lt rm
  have h2 := Bool.toNat_lt np
  have h3 := Bool.toNat_lt nc
  simp only [Statement, Fits, encodeFields]; and_intros; all_goals first | omega | exact fun _ => trivial
theorem fcvt (dt st : Ty) (rm : Rmo) (d a : SReg) : Statement (.fcvt dt st rm d a) := by
  have h0 := tyCode_lt dt
  have h1 := tyCode_lt st
  have h2 := rmoCode_lt rm
  simp only [Statement, Fits, encodeFields]; and_intros; all_goals first | omega | exact fun _ => trivial
theorem br (off : BitVec 15) (hi : Fin 32) : Statement (.br off hi) := by
  simp only [Statement, Fits, encodeFields, encB]; and_intros; all_goals first | omega | exact fun _ => trivial
theorem beq (d a : SReg) (off : BitVec 15) (hi : Fin 32) : Statement (.beq d a off hi) := by
  simp only [Statement, Fits, encodeFields, encB]; and_intros; all_goals first | omega | exact fun _ => trivial
theorem bne (d a : SReg) (off : BitVec 15) (hi : Fin 32) : Statement (.bne d a off hi) := by
  simp only [Statement, Fits, encodeFields, encB]; and_intros; all_goals first | omega | exact fun _ => trivial
theorem blt (d a : SReg) (off : BitVec 15) (hi : Fin 32) : Statement (.blt d a off hi) := by
  simp only [Statement, Fits, encodeFields, encB]; and_intros; all_goals first | omega | exact fun _ => trivial
theorem bge (d a : SReg) (off : BitVec 15) (hi : Fin 32) : Statement (.bge d a off hi) := by
  simp only [Statement, Fits, encodeFields, encB]; and_intros; all_goals first | omega | exact fun _ => trivial
theorem bltu (d a : SReg) (off : BitVec 15) (hi : Fin 32) : Statement (.bltu d a off hi) := by
  simp only [Statement, Fits, encodeFields, encB]; and_intros; all_goals first | omega | exact fun _ => trivial
theorem bgeu (d a : SReg) (off : BitVec 15) (hi : Fin 32) : Statement (.bgeu d a off hi) := by
  simp only [Statement, Fits, encodeFields, encB]; and_intros; all_goals first | omega | exact fun _ => trivial
theorem call (d : SReg) (off : BitVec 15) (hi : Fin 32) : Statement (.call d off hi) := by
  simp only [Statement, Fits, encodeFields, encB]; and_intros; all_goals first | omega | exact fun _ => trivial
theorem ret (a : SReg) : Statement (.ret a) := by
  simp only [Statement, Fits, encodeFields]; and_intros; all_goals first | omega | exact fun _ => trivial
theorem jr (d a : SReg) : Statement (.jr d a) := by
  simp only [Statement, Fits, encodeFields]; and_intros; all_goals first | omega | exact fun _ => trivial
theorem mfs (d : SReg) (n : Fin 1024) : Statement (.mfs d n) := by
  simp only [Statement, Fits, encodeFields]; and_intros; all_goals first | omega | exact fun _ => trivial
theorem mts (n : Fin 1024) (a : SReg) : Statement (.mts n a) := by
  simp only [Statement, Fits, encodeFields]; and_intros; all_goals first | omega | exact fun _ => trivial
theorem trap (a : SReg) (code : Fin 256) (detail : BitVec 16) : Statement (.trap a code detail) := by
  simp only [Statement, Fits, encodeFields]; and_intros; all_goals first | omega | exact fun _ => trivial
theorem tret (mode : TretMode) : Statement (.tret mode) := by
  have h0 := tretCode_lt mode
  simp only [Statement, Fits, encodeFields]; and_intros; all_goals first | omega | exact fun _ => trivial
theorem brk (n : Fin 16) : Statement (.brk n) := by
  simp only [Statement, Fits, encodeFields]; and_intros; all_goals first | omega | exact fun _ => trivial
theorem sysc (n : Fin 2048) : Statement (.sysc n) := by
  simp only [Statement, Fits, encodeFields]; and_intros; all_goals first | omega | exact fun _ => trivial
theorem yield : Statement .yield := by simp [Statement, Fits, encodeFields]
theorem halt : Statement .halt := by simp [Statement, Fits, encodeFields]
theorem idle (a : SReg) : Statement (.idle a) := by
  simp only [Statement, Fits, encodeFields]; and_intros; all_goals first | omega | exact fun _ => trivial
theorem join (b : Fin 16) : Statement (.join b) := by
  simp only [Statement, Fits, encodeFields]; and_intros; all_goals first | omega | exact fun _ => trivial
theorem leave (b : Fin 16) : Statement (.leave b) := by
  simp only [Statement, Fits, encodeFields]; and_intros; all_goals first | omega | exact fun _ => trivial
theorem bsync (b : Fin 16) : Statement (.bsync b) := by
  simp only [Statement, Fits, encodeFields]; and_intros; all_goals first | omega | exact fun _ => trivial
theorem gbar : Statement .gbar := by simp [Statement, Fits, encodeFields]
theorem elect (d : SReg) (b : Fin 16) : Statement (.elect d b) := by
  simp only [Statement, Fits, encodeFields]; and_intros; all_goals first | omega | exact fun _ => trivial
theorem regclm (n : Fin 128) : Statement (.regclm n) := by
  simp only [Statement, Fits, encodeFields]; and_intros; all_goals first | omega | exact fun _ => trivial
theorem regrel (n : Fin 128) : Statement (.regrel n) := by
  simp only [Statement, Fits, encodeFields]; and_intros; all_goals first | omega | exact fun _ => trivial
theorem wqry (a : SReg) : Statement (.wqry a) := by
  simp only [Statement, Fits, encodeFields]; and_intros; all_goals first | omega | exact fun _ => trivial
theorem wqryImm (a : SReg) (imm : Imm) : Statement (.wqryImm a imm) := by
  simp only [Statement, Fits, encodeFields]; and_intros; all_goals first | omega | exact fun _ => trivial
theorem launch (d a b : SReg) : Statement (.launch d a b) := by
  simp only [Statement, Fits, encodeFields]; and_intros; all_goals first | omega | exact fun _ => trivial
theorem launchImm (d a b : SReg) (imm : Imm) : Statement (.launchImm d a b imm) := by
  simp only [Statement, Fits, encodeFields]; and_intros; all_goals first | omega | exact fun _ => trivial
theorem vsave (a : SReg) : Statement (.vsave a) := by
  simp only [Statement, Fits, encodeFields]; and_intros; all_goals first | omega | exact fun _ => trivial
theorem vsaveImm (a : SReg) (imm : Imm) : Statement (.vsaveImm a imm) := by
  simp only [Statement, Fits, encodeFields]; and_intros; all_goals first | omega | exact fun _ => trivial
theorem vrestore (a : SReg) : Statement (.vrestore a) := by
  simp only [Statement, Fits, encodeFields]; and_intros; all_goals first | omega | exact fun _ => trivial
theorem vrestoreImm (a : SReg) (imm : Imm) : Statement (.vrestoreImm a imm) := by
  simp only [Statement, Fits, encodeFields]; and_intros; all_goals first | omega | exact fun _ => trivial
theorem scrub (csp tile reg ll : Bool) (d a : SReg) : Statement (.scrub csp tile reg ll d a) := by
  have h0 := Bool.toNat_lt csp
  have h1 := Bool.toNat_lt tile
  have h2 := Bool.toNat_lt reg
  have h3 := Bool.toNat_lt ll
  simp only [Statement, Fits, encodeFields]; and_intros; all_goals first | omega | exact fun _ => trivial
theorem ld (wd : AccW) (u sp acq : Bool) (sc : Scope) (d a : SReg) : Statement (.ld wd u sp acq sc d a) := by
  have h0 := accCode_lt wd
  have h1 := Bool.toNat_lt u
  have h2 := Bool.toNat_lt sp
  have h3 := Bool.toNat_lt acq
  have h4 := scopeCode_lt sc
  simp only [Statement, Fits, encodeFields, encOrd]; and_intros; all_goals first | omega | exact fun _ => trivial
theorem ldImm (wd : AccW) (u sp acq : Bool) (sc : Scope) (d a : SReg) (imm : Imm) : Statement (.ldImm wd u sp acq sc d a imm) := by
  have h0 := accCode_lt wd
  have h1 := Bool.toNat_lt u
  have h2 := Bool.toNat_lt sp
  have h3 := Bool.toNat_lt acq
  have h4 := scopeCode_lt sc
  simp only [Statement, Fits, encodeFields, encOrd]; and_intros; all_goals first | omega | exact fun _ => trivial
theorem st (wd : AccW) (sp rel : Bool) (sc : Scope) (a b : SReg) : Statement (.st wd sp rel sc a b) := by
  have h0 := accCode_lt wd
  have h1 := Bool.toNat_lt sp
  have h2 := Bool.toNat_lt rel
  have h3 := scopeCode_lt sc
  simp only [Statement, Fits, encodeFields, encOrd, Bool.toNat_false]; and_intros; all_goals first | omega | exact fun _ => trivial
theorem stImm (wd : AccW) (sp rel : Bool) (sc : Scope) (a b : SReg) (imm : Imm) : Statement (.stImm wd sp rel sc a b imm) := by
  have h0 := accCode_lt wd
  have h1 := Bool.toNat_lt sp
  have h2 := Bool.toNat_lt rel
  have h3 := scopeCode_lt sc
  simp only [Statement, Fits, encodeFields, encOrd, Bool.toNat_false]; and_intros; all_goals first | omega | exact fun _ => trivial
theorem amo (op : AmoOp) (dbl : Bool) (ord : AOrd) (d a b : SReg) : Statement (.amo op dbl ord d a b) := by
  have h0 := amoCode_lt op
  have h1 := Bool.toNat_lt dbl
  have h2 := aordCode_lt ord
  simp only [Statement, Fits, encodeFields]; and_intros; all_goals first | omega | exact fun _ => trivial
theorem amoCas (dbl : Bool) (ord : AOrd) (d a b c : SReg) : Statement (.amoCas dbl ord d a b c) := by
  have h0 := Bool.toNat_lt dbl
  have h1 := aordCode_lt ord
  simp only [Statement, Fits, encodeFields]; and_intros; all_goals first | omega | exact fun _ => trivial
theorem fence (sem : Sem) (sc : Scope) : Statement (.fence sem sc) := by
  have h0 := semCode_lt sem
  have h1 := scopeCode_lt sc
  simp only [Statement, Fits, encodeFields]; and_intros; all_goals first | omega | exact fun _ => trivial
theorem stwin (w : Fin 16) (d a b : SReg) : Statement (.stwin w d a b) := by
  simp only [Statement, Fits, encodeFields]; and_intros; all_goals first | omega | exact fun _ => trivial
theorem stflush (w : Fin 16) : Statement (.stflush w) := by
  simp only [Statement, Fits, encodeFields]; and_intros; all_goals first | omega | exact fun _ => trivial
theorem stinv (discard : Bool) (w : Fin 16) : Statement (.stinv discard w) := by
  have h0 := Bool.toNat_lt discard
  simp only [Statement, Fits, encodeFields]; and_intros; all_goals first | omega | exact fun _ => trivial
theorem dcfence (a : SReg) : Statement (.dcfence a) := by
  simp only [Statement, Fits, encodeFields]; and_intros; all_goals first | omega | exact fun _ => trivial
theorem dcfenceImm (a : SReg) (imm : Imm) : Statement (.dcfenceImm a imm) := by
  simp only [Statement, Fits, encodeFields]; and_intros; all_goals first | omega | exact fun _ => trivial
theorem vadd (t : Ty) (sat : Bool) (d a : VReg) (y : VSrc) (m : MReg) : Statement (.vadd t sat d a y m) := by
  have h0 := tyCode_lt t
  have h1 := Bool.toNat_lt sat
  have h2 := ySel_lt y
  have h3 := yReg_lt y
  simp only [Statement, Fits, encodeFields, encI]; and_intros; all_goals first | omega | exact fun _ => trivial
theorem vaddImm (t : Ty) (sat : Bool) (d a : VReg) (imm : Imm) (m : MReg) : Statement (.vaddImm t sat d a imm m) := by
  have h0 := tyCode_lt t
  have h1 := Bool.toNat_lt sat
  simp only [Statement, Fits, encodeFields, encIImm]; and_intros; all_goals first | omega | exact fun _ => trivial
theorem vsub (t : Ty) (sat : Bool) (d a : VReg) (y : VSrc) (m : MReg) : Statement (.vsub t sat d a y m) := by
  have h0 := tyCode_lt t
  have h1 := Bool.toNat_lt sat
  have h2 := ySel_lt y
  have h3 := yReg_lt y
  simp only [Statement, Fits, encodeFields, encI]; and_intros; all_goals first | omega | exact fun _ => trivial
theorem vsubImm (t : Ty) (sat : Bool) (d a : VReg) (imm : Imm) (m : MReg) : Statement (.vsubImm t sat d a imm m) := by
  have h0 := tyCode_lt t
  have h1 := Bool.toNat_lt sat
  simp only [Statement, Fits, encodeFields, encIImm]; and_intros; all_goals first | omega | exact fun _ => trivial
theorem vmul (t : Ty) (d a : VReg) (y : VSrc) (m : MReg) : Statement (.vmul t d a y m) := by
  have h0 := tyCode_lt t
  have h1 := ySel_lt y
  have h2 := yReg_lt y
  simp only [Statement, Fits, encodeFields, encI, Bool.toNat_false]; and_intros; all_goals first | omega | exact fun _ => trivial
theorem vmulImm (t : Ty) (d a : VReg) (imm : Imm) (m : MReg) : Statement (.vmulImm t d a imm m) := by
  have h0 := tyCode_lt t
  simp only [Statement, Fits, encodeFields, encIImm, Bool.toNat_false]; and_intros; all_goals first | omega | exact fun _ => trivial
theorem vmulh (t : Ty) (d a : VReg) (y : VSrc) (m : MReg) : Statement (.vmulh t d a y m) := by
  have h0 := tyCode_lt t
  have h1 := ySel_lt y
  have h2 := yReg_lt y
  simp only [Statement, Fits, encodeFields, encI, Bool.toNat_false]; and_intros; all_goals first | omega | exact fun _ => trivial
theorem vmulhImm (t : Ty) (d a : VReg) (imm : Imm) (m : MReg) : Statement (.vmulhImm t d a imm m) := by
  have h0 := tyCode_lt t
  simp only [Statement, Fits, encodeFields, encIImm, Bool.toNat_false]; and_intros; all_goals first | omega | exact fun _ => trivial
theorem vmin (t : Ty) (d a : VReg) (y : VSrc) (m : MReg) : Statement (.vmin t d a y m) := by
  have h0 := tyCode_lt t
  have h1 := ySel_lt y
  have h2 := yReg_lt y
  simp only [Statement, Fits, encodeFields, encI, Bool.toNat_false]; and_intros; all_goals first | omega | exact fun _ => trivial
theorem vminImm (t : Ty) (d a : VReg) (imm : Imm) (m : MReg) : Statement (.vminImm t d a imm m) := by
  have h0 := tyCode_lt t
  simp only [Statement, Fits, encodeFields, encIImm, Bool.toNat_false]; and_intros; all_goals first | omega | exact fun _ => trivial
theorem vmax (t : Ty) (d a : VReg) (y : VSrc) (m : MReg) : Statement (.vmax t d a y m) := by
  have h0 := tyCode_lt t
  have h1 := ySel_lt y
  have h2 := yReg_lt y
  simp only [Statement, Fits, encodeFields, encI, Bool.toNat_false]; and_intros; all_goals first | omega | exact fun _ => trivial
theorem vmaxImm (t : Ty) (d a : VReg) (imm : Imm) (m : MReg) : Statement (.vmaxImm t d a imm m) := by
  have h0 := tyCode_lt t
  simp only [Statement, Fits, encodeFields, encIImm, Bool.toNat_false]; and_intros; all_goals first | omega | exact fun _ => trivial
theorem vand (t : Ty) (d a : VReg) (y : VSrc) (m : MReg) : Statement (.vand t d a y m) := by
  have h0 := tyCode_lt t
  have h1 := ySel_lt y
  have h2 := yReg_lt y
  simp only [Statement, Fits, encodeFields, encI, Bool.toNat_false]; and_intros; all_goals first | omega | exact fun _ => trivial
theorem vandImm (t : Ty) (d a : VReg) (imm : Imm) (m : MReg) : Statement (.vandImm t d a imm m) := by
  have h0 := tyCode_lt t
  simp only [Statement, Fits, encodeFields, encIImm, Bool.toNat_false]; and_intros; all_goals first | omega | exact fun _ => trivial
theorem vor (t : Ty) (d a : VReg) (y : VSrc) (m : MReg) : Statement (.vor t d a y m) := by
  have h0 := tyCode_lt t
  have h1 := ySel_lt y
  have h2 := yReg_lt y
  simp only [Statement, Fits, encodeFields, encI, Bool.toNat_false]; and_intros; all_goals first | omega | exact fun _ => trivial
theorem vorImm (t : Ty) (d a : VReg) (imm : Imm) (m : MReg) : Statement (.vorImm t d a imm m) := by
  have h0 := tyCode_lt t
  simp only [Statement, Fits, encodeFields, encIImm, Bool.toNat_false]; and_intros; all_goals first | omega | exact fun _ => trivial
theorem vxor (t : Ty) (d a : VReg) (y : VSrc) (m : MReg) : Statement (.vxor t d a y m) := by
  have h0 := tyCode_lt t
  have h1 := ySel_lt y
  have h2 := yReg_lt y
  simp only [Statement, Fits, encodeFields, encI, Bool.toNat_false]; and_intros; all_goals first | omega | exact fun _ => trivial
theorem vxorImm (t : Ty) (d a : VReg) (imm : Imm) (m : MReg) : Statement (.vxorImm t d a imm m) := by
  have h0 := tyCode_lt t
  simp only [Statement, Fits, encodeFields, encIImm, Bool.toNat_false]; and_intros; all_goals first | omega | exact fun _ => trivial
theorem vshl (t : Ty) (d a : VReg) (y : VSrc) (m : MReg) : Statement (.vshl t d a y m) := by
  have h0 := tyCode_lt t
  have h1 := ySel_lt y
  have h2 := yReg_lt y
  simp only [Statement, Fits, encodeFields, encI, Bool.toNat_false]; and_intros; all_goals first | omega | exact fun _ => trivial
theorem vshlImm (t : Ty) (d a : VReg) (imm : Imm) (m : MReg) : Statement (.vshlImm t d a imm m) := by
  have h0 := tyCode_lt t
  simp only [Statement, Fits, encodeFields, encIImm, Bool.toNat_false]; and_intros; all_goals first | omega | exact fun _ => trivial
theorem vshr (t : Ty) (d a : VReg) (y : VSrc) (m : MReg) : Statement (.vshr t d a y m) := by
  have h0 := tyCode_lt t
  have h1 := ySel_lt y
  have h2 := yReg_lt y
  simp only [Statement, Fits, encodeFields, encI, Bool.toNat_false]; and_intros; all_goals first | omega | exact fun _ => trivial
theorem vshrImm (t : Ty) (d a : VReg) (imm : Imm) (m : MReg) : Statement (.vshrImm t d a imm m) := by
  have h0 := tyCode_lt t
  simp only [Statement, Fits, encodeFields, encIImm, Bool.toNat_false]; and_intros; all_goals first | omega | exact fun _ => trivial
theorem vsra (t : Ty) (d a : VReg) (y : VSrc) (m : MReg) : Statement (.vsra t d a y m) := by
  have h0 := tyCode_lt t
  have h1 := ySel_lt y
  have h2 := yReg_lt y
  simp only [Statement, Fits, encodeFields, encI, Bool.toNat_false]; and_intros; all_goals first | omega | exact fun _ => trivial
theorem vsraImm (t : Ty) (d a : VReg) (imm : Imm) (m : MReg) : Statement (.vsraImm t d a imm m) := by
  have h0 := tyCode_lt t
  simp only [Statement, Fits, encodeFields, encIImm, Bool.toNat_false]; and_intros; all_goals first | omega | exact fun _ => trivial
theorem vfadd (t : Ty) (rm : Rmo) (d a : VReg) (y : VSrc) (m : MReg) : Statement (.vfadd t rm d a y m) := by
  have h0 := tyCode_lt t
  have h1 := rmoCode_lt rm
  have h2 := ySel_lt y
  have h3 := yReg_lt y
  simp only [Statement, Fits, encodeFields, encF, Bool.toNat_false]; and_intros; all_goals first | omega | exact fun _ => trivial
theorem vfaddImm (t : Ty) (rm : Rmo) (d a : VReg) (imm : Imm) (m : MReg) : Statement (.vfaddImm t rm d a imm m) := by
  have h0 := tyCode_lt t
  have h1 := rmoCode_lt rm
  simp only [Statement, Fits, encodeFields, encFImm, Bool.toNat_false]; and_intros; all_goals first | omega | exact fun _ => trivial
theorem vfsub (t : Ty) (rm : Rmo) (d a : VReg) (y : VSrc) (m : MReg) : Statement (.vfsub t rm d a y m) := by
  have h0 := tyCode_lt t
  have h1 := rmoCode_lt rm
  have h2 := ySel_lt y
  have h3 := yReg_lt y
  simp only [Statement, Fits, encodeFields, encF, Bool.toNat_false]; and_intros; all_goals first | omega | exact fun _ => trivial
theorem vfsubImm (t : Ty) (rm : Rmo) (d a : VReg) (imm : Imm) (m : MReg) : Statement (.vfsubImm t rm d a imm m) := by
  have h0 := tyCode_lt t
  have h1 := rmoCode_lt rm
  simp only [Statement, Fits, encodeFields, encFImm, Bool.toNat_false]; and_intros; all_goals first | omega | exact fun _ => trivial
theorem vfmul (t : Ty) (rm : Rmo) (np : Bool) (d a : VReg) (y : VSrc) (m : MReg) : Statement (.vfmul t rm np d a y m) := by
  have h0 := tyCode_lt t
  have h1 := rmoCode_lt rm
  have h2 := Bool.toNat_lt np
  have h3 := ySel_lt y
  have h4 := yReg_lt y
  simp only [Statement, Fits, encodeFields, encF, Bool.toNat_false]; and_intros; all_goals first | omega | exact fun _ => trivial
theorem vfmulImm (t : Ty) (rm : Rmo) (np : Bool) (d a : VReg) (imm : Imm) (m : MReg) : Statement (.vfmulImm t rm np d a imm m) := by
  have h0 := tyCode_lt t
  have h1 := rmoCode_lt rm
  have h2 := Bool.toNat_lt np
  simp only [Statement, Fits, encodeFields, encFImm, Bool.toNat_false]; and_intros; all_goals first | omega | exact fun _ => trivial
theorem vffma (t : Ty) (rm : Rmo) (np nc : Bool) (d a : VReg) (y : VSrc) (m : MReg) : Statement (.vffma t rm np nc d a y m) := by
  have h0 := tyCode_lt t
  have h1 := rmoCode_lt rm
  have h2 := Bool.toNat_lt np
  have h3 := Bool.toNat_lt nc
  have h4 := ySel_lt y
  have h5 := yReg_lt y
  simp only [Statement, Fits, encodeFields, encF]; and_intros; all_goals first | omega | exact fun _ => trivial
theorem vffmaImm (t : Ty) (rm : Rmo) (np nc : Bool) (d a : VReg) (imm : Imm) (m : MReg) : Statement (.vffmaImm t rm np nc d a imm m) := by
  have h0 := tyCode_lt t
  have h1 := rmoCode_lt rm
  have h2 := Bool.toNat_lt np
  have h3 := Bool.toNat_lt nc
  simp only [Statement, Fits, encodeFields, encFImm]; and_intros; all_goals first | omega | exact fun _ => trivial
theorem vfmin (t : Ty) (rm : Rmo) (d a : VReg) (y : VSrc) (m : MReg) : Statement (.vfmin t rm d a y m) := by
  have h0 := tyCode_lt t
  have h1 := rmoCode_lt rm
  have h2 := ySel_lt y
  have h3 := yReg_lt y
  simp only [Statement, Fits, encodeFields, encF, Bool.toNat_false]; and_intros; all_goals first | omega | exact fun _ => trivial
theorem vfminImm (t : Ty) (rm : Rmo) (d a : VReg) (imm : Imm) (m : MReg) : Statement (.vfminImm t rm d a imm m) := by
  have h0 := tyCode_lt t
  have h1 := rmoCode_lt rm
  simp only [Statement, Fits, encodeFields, encFImm, Bool.toNat_false]; and_intros; all_goals first | omega | exact fun _ => trivial
theorem vfmax (t : Ty) (rm : Rmo) (d a : VReg) (y : VSrc) (m : MReg) : Statement (.vfmax t rm d a y m) := by
  have h0 := tyCode_lt t
  have h1 := rmoCode_lt rm
  have h2 := ySel_lt y
  have h3 := yReg_lt y
  simp only [Statement, Fits, encodeFields, encF, Bool.toNat_false]; and_intros; all_goals first | omega | exact fun _ => trivial
theorem vfmaxImm (t : Ty) (rm : Rmo) (d a : VReg) (imm : Imm) (m : MReg) : Statement (.vfmaxImm t rm d a imm m) := by
  have h0 := tyCode_lt t
  have h1 := rmoCode_lt rm
  simp only [Statement, Fits, encodeFields, encFImm, Bool.toNat_false]; and_intros; all_goals first | omega | exact fun _ => trivial
theorem vfdiv (t : Ty) (rm : Rmo) (d a : VReg) (y : VSrc) (m : MReg) : Statement (.vfdiv t rm d a y m) := by
  have h0 := tyCode_lt t
  have h1 := rmoCode_lt rm
  have h2 := ySel_lt y
  have h3 := yReg_lt y
  simp only [Statement, Fits, encodeFields, encF, Bool.toNat_false]; and_intros; all_goals first | omega | exact fun _ => trivial
theorem vfdivImm (t : Ty) (rm : Rmo) (d a : VReg) (imm : Imm) (m : MReg) : Statement (.vfdivImm t rm d a imm m) := by
  have h0 := tyCode_lt t
  have h1 := rmoCode_lt rm
  simp only [Statement, Fits, encodeFields, encFImm, Bool.toNat_false]; and_intros; all_goals first | omega | exact fun _ => trivial
theorem vfsqrt (t : Ty) (rm : Rmo) (d a : VReg) (m : MReg) : Statement (.vfsqrt t rm d a m) := by
  have h0 := tyCode_lt t
  have h1 := rmoCode_lt rm
  simp only [Statement, Fits, encodeFields, encF1]; and_intros; all_goals first | omega | exact fun _ => trivial
theorem vfrsq (t : Ty) (rm : Rmo) (d a : VReg) (m : MReg) : Statement (.vfrsq t rm d a m) := by
  have h0 := tyCode_lt t
  have h1 := rmoCode_lt rm
  simp only [Statement, Fits, encodeFields, encF1]; and_intros; all_goals first | omega | exact fun _ => trivial
theorem vfexp2 (t : Ty) (rm : Rmo) (d a : VReg) (m : MReg) : Statement (.vfexp2 t rm d a m) := by
  have h0 := tyCode_lt t
  have h1 := rmoCode_lt rm
  simp only [Statement, Fits, encodeFields, encF1]; and_intros; all_goals first | omega | exact fun _ => trivial
theorem vflog2 (t : Ty) (rm : Rmo) (d a : VReg) (m : MReg) : Statement (.vflog2 t rm d a m) := by
  have h0 := tyCode_lt t
  have h1 := rmoCode_lt rm
  simp only [Statement, Fits, encodeFields, encF1]; and_intros; all_goals first | omega | exact fun _ => trivial
theorem vcvt (dt st : Ty) (mode : CvtMode) (d a : VReg) (m : MReg) : Statement (.vcvt dt st mode d a m) := by
  have h0 := tyCode_lt dt
  have h1 := tyCode_lt st
  have h2 := cvtCode_lt mode
  have h3 := cvtReg_lt mode
  simp only [Statement, Fits, encodeFields]; and_intros; all_goals first | omega | exact fun _ => trivial
theorem vlmul (t : Ty) (d a b : VReg) (m : MReg) : Statement (.vlmul t d a b m) := by
  have h0 := tyCode_lt t
  simp only [Statement, Fits, encodeFields, encT]; and_intros; all_goals first | omega | exact fun _ => trivial
theorem vlmulGiven (t : Ty) (g : VSrc) (d a b : VReg) (m : MReg) : Statement (.vlmulGiven t g d a b m) := by
  have h0 := tyCode_lt t
  have h1 := ySel_lt g
  have h2 := yReg_lt g
  simp only [Statement, Fits, encodeFields, encGiven]; and_intros; all_goals first | omega | exact fun _ => trivial
theorem vladd (t : Ty) (d a b : VReg) (m : MReg) : Statement (.vladd t d a b m) := by
  have h0 := tyCode_lt t
  simp only [Statement, Fits, encodeFields, encT]; and_intros; all_goals first | omega | exact fun _ => trivial
theorem vladdGiven (t : Ty) (g : VSrc) (d a b : VReg) (m : MReg) : Statement (.vladdGiven t g d a b m) := by
  have h0 := tyCode_lt t
  have h1 := ySel_lt g
  have h2 := yReg_lt g
  simp only [Statement, Fits, encodeFields, encGiven]; and_intros; all_goals first | omega | exact fun _ => trivial
theorem vsetvl (pad : Bool) (d a : SReg) : Statement (.vsetvl pad d a) := by
  have h0 := Bool.toNat_lt pad
  simp only [Statement, Fits, encodeFields]; and_intros; all_goals first | omega | exact fun _ => trivial
theorem vsetvlType (pad : Bool) (d a : SReg) (vt : VType) : Statement (.vsetvlType pad d a vt) := by
  have h0 := Bool.toNat_lt pad
  have h1 := vtypeCode_lt vt
  simp only [Statement, Fits, encodeFields]; and_intros; all_goals first | omega | exact fun _ => trivial
theorem vsettype (a : SReg) : Statement (.vsettype a) := by
  simp only [Statement, Fits, encodeFields]; and_intros; all_goals first | omega | exact fun _ => trivial
theorem vsettypeImm (vt : VType) : Statement (.vsettypeImm vt) := by
  have h0 := vtypeCode_lt vt
  simp only [Statement, Fits, encodeFields]; and_intros; all_goals first | omega | exact fun _ => trivial
theorem vcmp (cc : VCc) (t : Ty) (z : Bool) (d : MReg) (a : VReg) (y : VSrc) (m : MReg) : Statement (.vcmp cc t z d a y m) := by
  have h0 := vccCode_lt cc
  have h1 := tyCode_lt t
  have h2 := Bool.toNat_lt z
  have h3 := ySel_lt y
  have h4 := yReg_lt y
  simp only [Statement, Fits, encodeFields]; and_intros; all_goals first | omega | exact fun _ => trivial
theorem vcmpImm (cc : VCc) (t : Ty) (z : Bool) (d : MReg) (a : VReg) (imm : Imm) (m : MReg) : Statement (.vcmpImm cc t z d a imm m) := by
  have h0 := vccCode_lt cc
  have h1 := tyCode_lt t
  have h2 := Bool.toNat_lt z
  simp only [Statement, Fits, encodeFields]; and_intros; all_goals first | omega | exact fun _ => trivial
theorem mand (d a b : MReg) : Statement (.mand d a b) := by
  simp only [Statement, Fits, encodeFields, encM]; and_intros; all_goals first | omega | exact fun _ => trivial
theorem mor (d a b : MReg) : Statement (.mor d a b) := by
  simp only [Statement, Fits, encodeFields, encM]; and_intros; all_goals first | omega | exact fun _ => trivial
theorem mxor (d a b : MReg) : Statement (.mxor d a b) := by
  simp only [Statement, Fits, encodeFields, encM]; and_intros; all_goals first | omega | exact fun _ => trivial
theorem mnot (d a : MReg) : Statement (.mnot d a) := by
  simp only [Statement, Fits, encodeFields]; and_intros; all_goals first | omega | exact fun _ => trivial
theorem mpop (d : SReg) (a : MReg) (m : MReg) : Statement (.mpop d a m) := by
  simp only [Statement, Fits, encodeFields, encM]; and_intros; all_goals first | omega | exact fun _ => trivial
theorem mfirst (d : SReg) (a : MReg) (m : MReg) : Statement (.mfirst d a m) := by
  simp only [Statement, Fits, encodeFields, encM]; and_intros; all_goals first | omega | exact fun _ => trivial
theorem vif (neg : Bool) (a : MReg) : Statement (.vif neg a) := by
  have h0 := Bool.toNat_lt neg
  simp only [Statement, Fits, encodeFields]; and_intros; all_goals first | omega | exact fun _ => trivial
theorem velse : Statement .velse := by simp [Statement, Fits, encodeFields]
theorem vend : Statement .vend := by simp [Statement, Fits, encodeFields]
theorem vsel (t : Ty) (d a : VReg) (y : VSrc) (m : MReg) : Statement (.vsel t d a y m) := by
  have h0 := tyCode_lt t
  have h1 := ySel_lt y
  have h2 := yReg_lt y
  simp only [Statement, Fits, encodeFields, encY]; and_intros; all_goals first | omega | exact fun _ => trivial
theorem vselImm (t : Ty) (d a : VReg) (imm : Imm) (m : MReg) : Statement (.vselImm t d a imm m) := by
  have h0 := tyCode_lt t
  simp only [Statement, Fits, encodeFields, encTImm]; and_intros; all_goals first | omega | exact fun _ => trivial
theorem vperm (t : Ty) (d a b : VReg) (m : MReg) : Statement (.vperm t d a b m) := by
  have h0 := tyCode_lt t
  simp only [Statement, Fits, encodeFields, encT]; and_intros; all_goals first | omega | exact fun _ => trivial
theorem vslideup (t : Ty) (d a : VReg) (b : SReg) (m : MReg) : Statement (.vslideup t d a b m) := by
  have h0 := tyCode_lt t
  simp only [Statement, Fits, encodeFields, encT]; and_intros; all_goals first | omega | exact fun _ => trivial
theorem vslideupImm (t : Ty) (d a : VReg) (imm : Imm) (m : MReg) : Statement (.vslideupImm t d a imm m) := by
  have h0 := tyCode_lt t
  simp only [Statement, Fits, encodeFields, encTImm]; and_intros; all_goals first | omega | exact fun _ => trivial
theorem vslidedn (t : Ty) (d a : VReg) (b : SReg) (m : MReg) : Statement (.vslidedn t d a b m) := by
  have h0 := tyCode_lt t
  simp only [Statement, Fits, encodeFields, encT]; and_intros; all_goals first | omega | exact fun _ => trivial
theorem vslidednImm (t : Ty) (d a : VReg) (imm : Imm) (m : MReg) : Statement (.vslidednImm t d a imm m) := by
  have h0 := tyCode_lt t
  simp only [Statement, Fits, encodeFields, encTImm]; and_intros; all_goals first | omega | exact fun _ => trivial
theorem vbcast (t : Ty) (d a : VReg) (b : SReg) (m : MReg) : Statement (.vbcast t d a b m) := by
  have h0 := tyCode_lt t
  simp only [Statement, Fits, encodeFields, encT]; and_intros; all_goals first | omega | exact fun _ => trivial
theorem vbcastImm (t : Ty) (d a : VReg) (imm : Imm) (m : MReg) : Statement (.vbcastImm t d a imm m) := by
  have h0 := tyCode_lt t
  simp only [Statement, Fits, encodeFields, encTImm]; and_intros; all_goals first | omega | exact fun _ => trivial
theorem vcompress (t : Ty) (d x a : VReg) (c : SReg) (m : MReg) : Statement (.vcompress t d x a c m) := by
  have h0 := tyCode_lt t
  simp only [Statement, Fits, encodeFields]; and_intros; all_goals first | omega | exact fun _ => trivial
theorem vexpand (t : Ty) (d a : VReg) (m : MReg) : Statement (.vexpand t d a m) := by
  have h0 := tyCode_lt t
  simp only [Statement, Fits, encodeFields, encT]; and_intros; all_goals first | omega | exact fun _ => trivial
theorem viota (t : Ty) (d : VReg) (a : MReg) (m : MReg) : Statement (.viota t d a m) := by
  have h0 := tyCode_lt t
  simp only [Statement, Fits, encodeFields, encT]; and_intros; all_goals first | omega | exact fun _ => trivial
theorem vmov (t : Ty) (d : VReg) (y : VSrc) (m : MReg) : Statement (.vmov t d y m) := by
  have h0 := tyCode_lt t
  have h1 := ySel_lt y
  have h2 := yReg_lt y
  simp only [Statement, Fits, encodeFields, encY]; and_intros; all_goals first | omega | exact fun _ => trivial
theorem vmovImm (t : Ty) (d : VReg) (imm : Imm) (m : MReg) : Statement (.vmovImm t d imm m) := by
  have h0 := tyCode_lt t
  simp only [Statement, Fits, encodeFields, encTImm]; and_intros; all_goals first | omega | exact fun _ => trivial
theorem vmovs (t : Ty) (op : MovS) (b : SReg) : Statement (.vmovs t op b) := by
  have h0 := tyCode_lt t
  have h1 := movD_lt op
  have h2 := movA_lt op
  have h3 := movIns_lt op
  simp only [Statement, Fits, encodeFields]; and_intros; all_goals first | omega | exact fun _ => trivial
theorem vmovsImm (t : Ty) (op : MovS) (imm : Imm) : Statement (.vmovsImm t op imm) := by
  have h0 := tyCode_lt t
  have h1 := movD_lt op
  have h2 := movA_lt op
  have h3 := movIns_lt op
  simp only [Statement, Fits, encodeFields]; and_intros; all_goals first | omega | exact fun _ => trivial
theorem vid (t : Ty) (d : VReg) (m : MReg) : Statement (.vid t d m) := by
  have h0 := tyCode_lt t
  simp only [Statement, Fits, encodeFields, encT]; and_intros; all_goals first | omega | exact fun _ => trivial
theorem vredsum (t : Ty) (d : SReg) (a : VReg) (b : SReg) (m : MReg) : Statement (.vredsum t d a b m) := by
  have h0 := tyCode_lt t
  simp only [Statement, Fits, encodeFields, encT]; and_intros; all_goals first | omega | exact fun _ => trivial
theorem vredmax (t : Ty) (d : SReg) (a : VReg) (b : SReg) (m : MReg) : Statement (.vredmax t d a b m) := by
  have h0 := tyCode_lt t
  simp only [Statement, Fits, encodeFields, encT]; and_intros; all_goals first | omega | exact fun _ => trivial
theorem vredmin (t : Ty) (d : SReg) (a : VReg) (b : SReg) (m : MReg) : Statement (.vredmin t d a b m) := by
  have h0 := tyCode_lt t
  simp only [Statement, Fits, encodeFields, encT]; and_intros; all_goals first | omega | exact fun _ => trivial
theorem vany (d : SReg) (a : MReg) (m : MReg) : Statement (.vany d a m) := by
  simp only [Statement, Fits, encodeFields, encM]; and_intros; all_goals first | omega | exact fun _ => trivial
theorem vall (d : SReg) (a : MReg) (m : MReg) : Statement (.vall d a m) := by
  simp only [Statement, Fits, encodeFields, encM]; and_intros; all_goals first | omega | exact fun _ => trivial
theorem vld (t : Ty) (sp : Bool) (d : VReg) (a b : SReg) (m : MReg) : Statement (.vld t sp d a b m) := by
  have h0 := tyCode_lt t
  have h1 := Bool.toNat_lt sp
  simp only [Statement, Fits, encodeFields, encV, encX]; and_intros; all_goals first | omega | exact fun _ => trivial
theorem vldImm (t : Ty) (sp : Bool) (d : VReg) (a b : SReg) (imm : Imm) (m : MReg) : Statement (.vldImm t sp d a b imm m) := by
  have h0 := tyCode_lt t
  have h1 := Bool.toNat_lt sp
  simp only [Statement, Fits, encodeFields, encVImm, encX]; and_intros; all_goals first | omega | exact fun _ => trivial
theorem vst (t : Ty) (sp : Bool) (d : VReg) (a b : SReg) (m : MReg) : Statement (.vst t sp d a b m) := by
  have h0 := tyCode_lt t
  have h1 := Bool.toNat_lt sp
  simp only [Statement, Fits, encodeFields, encV, encX]; and_intros; all_goals first | omega | exact fun _ => trivial
theorem vstImm (t : Ty) (sp : Bool) (d : VReg) (a b : SReg) (imm : Imm) (m : MReg) : Statement (.vstImm t sp d a b imm m) := by
  have h0 := tyCode_lt t
  have h1 := Bool.toNat_lt sp
  simp only [Statement, Fits, encodeFields, encVImm, encX]; and_intros; all_goals first | omega | exact fun _ => trivial
theorem vlds (t : Ty) (sp : Bool) (d : VReg) (a b : SReg) (m : MReg) : Statement (.vlds t sp d a b m) := by
  have h0 := tyCode_lt t
  have h1 := Bool.toNat_lt sp
  simp only [Statement, Fits, encodeFields, encV, encX]; and_intros; all_goals first | omega | exact fun _ => trivial
theorem vldsImm (t : Ty) (sp : Bool) (d : VReg) (a b : SReg) (imm : Imm) (m : MReg) : Statement (.vldsImm t sp d a b imm m) := by
  have h0 := tyCode_lt t
  have h1 := Bool.toNat_lt sp
  simp only [Statement, Fits, encodeFields, encVImm, encX]; and_intros; all_goals first | omega | exact fun _ => trivial
theorem vsts (t : Ty) (sp : Bool) (d : VReg) (a b : SReg) (m : MReg) : Statement (.vsts t sp d a b m) := by
  have h0 := tyCode_lt t
  have h1 := Bool.toNat_lt sp
  simp only [Statement, Fits, encodeFields, encV, encX]; and_intros; all_goals first | omega | exact fun _ => trivial
theorem vstsImm (t : Ty) (sp : Bool) (d : VReg) (a b : SReg) (imm : Imm) (m : MReg) : Statement (.vstsImm t sp d a b imm m) := by
  have h0 := tyCode_lt t
  have h1 := Bool.toNat_lt sp
  simp only [Statement, Fits, encodeFields, encVImm, encX]; and_intros; all_goals first | omega | exact fun _ => trivial
theorem vldseg (nf : Fin 8) (t : Ty) (sp : Bool) (d : VReg) (a : SReg) (m : MReg) : Statement (.vldseg nf t sp d a m) := by
  have h0 := tyCode_lt t
  have h1 := Bool.toNat_lt sp
  simp only [Statement, Fits, encodeFields, encV, encX]; and_intros; all_goals first | omega | exact fun _ => trivial
theorem vldsegImm (nf : Fin 8) (t : Ty) (sp : Bool) (d : VReg) (a : SReg) (imm : Imm) (m : MReg) : Statement (.vldsegImm nf t sp d a imm m) := by
  have h0 := tyCode_lt t
  have h1 := Bool.toNat_lt sp
  simp only [Statement, Fits, encodeFields, encVImm, encX]; and_intros; all_goals first | omega | exact fun _ => trivial
theorem vstseg (nf : Fin 8) (t : Ty) (sp : Bool) (d : VReg) (a : SReg) (m : MReg) : Statement (.vstseg nf t sp d a m) := by
  have h0 := tyCode_lt t
  have h1 := Bool.toNat_lt sp
  simp only [Statement, Fits, encodeFields, encV, encX]; and_intros; all_goals first | omega | exact fun _ => trivial
theorem vstsegImm (nf : Fin 8) (t : Ty) (sp : Bool) (d : VReg) (a : SReg) (imm : Imm) (m : MReg) : Statement (.vstsegImm nf t sp d a imm m) := by
  have h0 := tyCode_lt t
  have h1 := Bool.toNat_lt sp
  simp only [Statement, Fits, encodeFields, encVImm, encX]; and_intros; all_goals first | omega | exact fun _ => trivial
theorem vgather (t : Ty) (sp : Bool) (d : VReg) (a : SReg) (b : VReg) (m : MReg) : Statement (.vgather t sp d a b m) := by
  have h0 := tyCode_lt t
  have h1 := Bool.toNat_lt sp
  simp only [Statement, Fits, encodeFields, encV, encX]; and_intros; all_goals first | omega | exact fun _ => trivial
theorem vgatherBounded (t : Ty) (sp : Bool) (d : VReg) (a : SReg) (b : VReg) (c : SReg) (m : MReg) : Statement (.vgatherBounded t sp d a b c m) := by
  have h0 := tyCode_lt t
  have h1 := Bool.toNat_lt sp
  simp only [Statement, Fits, encodeFields, encVC, encX]; and_intros; all_goals first | omega | exact fun _ => trivial
theorem vscatter (t : Ty) (sp : Bool) (d : VReg) (a : SReg) (b : VReg) (m : MReg) : Statement (.vscatter t sp d a b m) := by
  have h0 := tyCode_lt t
  have h1 := Bool.toNat_lt sp
  simp only [Statement, Fits, encodeFields, encV, encX]; and_intros; all_goals first | omega | exact fun _ => trivial
theorem vscatterBounded (t : Ty) (sp : Bool) (d : VReg) (a : SReg) (b : VReg) (c : SReg) (m : MReg) : Statement (.vscatterBounded t sp d a b c m) := by
  have h0 := tyCode_lt t
  have h1 := Bool.toNat_lt sp
  simp only [Statement, Fits, encodeFields, encVC, encX]; and_intros; all_goals first | omega | exact fun _ => trivial
theorem vgatherL (t : Ty) (d : VReg) (a : SReg) (b : VReg) (m : MReg) : Statement (.vgatherL t d a b m) := by
  have h0 := tyCode_lt t
  simp only [Statement, Fits, encodeFields, encV, encX, Bool.toNat_false]; and_intros; all_goals first | omega | exact fun _ => trivial
theorem vgatherLBounded (t : Ty) (d : VReg) (a : SReg) (b : VReg) (c : SReg) (m : MReg) : Statement (.vgatherLBounded t d a b c m) := by
  have h0 := tyCode_lt t
  simp only [Statement, Fits, encodeFields, encVC, encX, Bool.toNat_false]; and_intros; all_goals first | omega | exact fun _ => trivial
theorem vscatterC (t : Ty) (md : MReg) (d : VReg) (a : SReg) (b : VReg) (m : MReg) : Statement (.vscatterC t md d a b m) := by
  have h0 := tyCode_lt t
  simp only [Statement, Fits, encodeFields, encV, encX, Bool.toNat_false]; and_intros; all_goals first | omega | exact fun _ => trivial
theorem vscatterCBounded (t : Ty) (md : MReg) (d : VReg) (a : SReg) (b : VReg) (c : SReg) (m : MReg) : Statement (.vscatterCBounded t md d a b c m) := by
  have h0 := tyCode_lt t
  simp only [Statement, Fits, encodeFields, encVC, encX, Bool.toNat_false]; and_intros; all_goals first | omega | exact fun _ => trivial
theorem vldFe (t : Ty) (take : Bool) (d : VReg) (a : SReg) (m : MReg) : Statement (.vldFe t take d a m) := by
  have h0 := tyCode_lt t
  have h1 := Bool.toNat_lt take
  simp only [Statement, Fits, encodeFields, encV, encX, Bool.toNat_true]; and_intros; all_goals first | omega | exact fun _ => trivial
theorem vldFeImm (t : Ty) (take : Bool) (d : VReg) (a : SReg) (imm : Imm) (m : MReg) : Statement (.vldFeImm t take d a imm m) := by
  have h0 := tyCode_lt t
  have h1 := Bool.toNat_lt take
  simp only [Statement, Fits, encodeFields, encVImm, encX, Bool.toNat_true]; and_intros; all_goals first | omega | exact fun _ => trivial
theorem vstFe (t : Ty) (d : VReg) (a : SReg) (m : MReg) : Statement (.vstFe t d a m) := by
  have h0 := tyCode_lt t
  simp only [Statement, Fits, encodeFields, encV, encX, Bool.toNat_true]; and_intros; all_goals first | omega | exact fun _ => trivial
theorem vstFeImm (t : Ty) (d : VReg) (a : SReg) (imm : Imm) (m : MReg) : Statement (.vstFeImm t d a imm m) := by
  have h0 := tyCode_lt t
  simp only [Statement, Fits, encodeFields, encVImm, encX, Bool.toNat_true]; and_intros; all_goals first | omega | exact fun _ => trivial
theorem cvld (t : Ty) (d : VReg) (a b : SReg) (m : MReg) : Statement (.cvld t d a b m) := by
  have h0 := tyCode_lt t
  simp only [Statement, Fits, encodeFields, encV, encX, Bool.toNat_false]; and_intros; all_goals first | omega | exact fun _ => trivial
theorem cvldImm (t : Ty) (d : VReg) (a b : SReg) (imm : Imm) (m : MReg) : Statement (.cvldImm t d a b imm m) := by
  have h0 := tyCode_lt t
  simp only [Statement, Fits, encodeFields, encVImm, encX, Bool.toNat_false]; and_intros; all_goals first | omega | exact fun _ => trivial
theorem lldx (t : Ty) (d a : VReg) (m : MReg) : Statement (.lldx t d a m) := by
  have h0 := tyCode_lt t
  simp only [Statement, Fits, encodeFields, encT]; and_intros; all_goals first | omega | exact fun _ => trivial
theorem lldxImm (t : Ty) (d a : VReg) (imm : Imm) (m : MReg) : Statement (.lldxImm t d a imm m) := by
  have h0 := tyCode_lt t
  simp only [Statement, Fits, encodeFields, encTImm]; and_intros; all_goals first | omega | exact fun _ => trivial
theorem lstx (t : Ty) (d a : VReg) (m : MReg) : Statement (.lstx t d a m) := by
  have h0 := tyCode_lt t
  simp only [Statement, Fits, encodeFields, encT]; and_intros; all_goals first | omega | exact fun _ => trivial
theorem lstxImm (t : Ty) (d a : VReg) (imm : Imm) (m : MReg) : Statement (.lstxImm t d a imm m) := by
  have h0 := tyCode_lt t
  simp only [Statement, Fits, encodeFields, encTImm]; and_intros; all_goals first | omega | exact fun _ => trivial
theorem spclr (zero : Bool) (a b : SReg) : Statement (.spclr zero a b) := by
  have h0 := Bool.toNat_lt zero
  simp only [Statement, Fits, encodeFields]; and_intros; all_goals first | omega | exact fun _ => trivial
theorem spclrImm (zero : Bool) (a b : SReg) (imm : Imm) : Statement (.spclrImm zero a b imm) := by
  have h0 := Bool.toNat_lt zero
  simp only [Statement, Fits, encodeFields]; and_intros; all_goals first | omega | exact fun _ => trivial
theorem awin (t : Ty) (op : Fold) (a b : SReg) (imm : Imm) : Statement (.awin t op a b imm) := by
  have h0 := tyCode_lt t
  have h1 := foldCode_lt op
  simp only [Statement, Fits, encodeFields]; and_intros; all_goals first | omega | exact fun _ => trivial
theorem aupd (a b : VReg) (m : MReg) : Statement (.aupd a b m) := by
  simp only [Statement, Fits, encodeFields, encM]; and_intros; all_goals first | omega | exact fun _ => trivial
theorem amerge : Statement .amerge := by simp [Statement, Fits, encodeFields]
theorem vwait (cc : WCc) (t : Ty) (sp : Bool) (tmo : BitVec 26) (d : MReg) (a : SReg) (b c : VReg) (m : MReg) : Statement (.vwait cc t sp tmo d a b c m) := by
  have h0 := wccCode_lt cc
  have h1 := tyCode_lt t
  have h2 := Bool.toNat_lt sp
  simp only [Statement, Fits, encodeFields]; and_intros; all_goals first | omega | exact fun _ => trivial
theorem settile (t : Ty) (d a b c : SReg) : Statement (.settile t d a b c) := by
  have h0 := tyCode_lt t
  simp only [Statement, Fits, encodeFields]; and_intros; all_goals first | omega | exact fun _ => trivial
theorem tld (t : Ty) (sp role : Bool) (d : TReg) (a b : SReg) : Statement (.tld t sp role d a b) := by
  have h0 := tyCode_lt t
  have h1 := Bool.toNat_lt sp
  have h2 := Bool.toNat_lt role
  simp only [Statement, Fits, encodeFields, encTile]; and_intros; all_goals first | omega | exact fun _ => trivial
theorem tldLns6 (t : Ty) (sp role : Bool) (d : TReg) (a b c : SReg) (stride : Half) : Statement (.tldLns6 t sp role d a b c stride) := by
  have h0 := tyCode_lt t
  have h1 := Bool.toNat_lt sp
  have h2 := Bool.toNat_lt role
  simp only [Statement, Fits, encodeFields, encTileLns]; and_intros; all_goals first | omega | exact fun _ => trivial
theorem tldE (t : Ty) (role : Bool) (sb : Fin 16) (d : TReg) (a b : SReg) : Statement (.tldE t role sb d a b) := by
  have h0 := tyCode_lt t
  have h1 := Bool.toNat_lt role
  simp only [Statement, Fits, encodeFields, encTile, Bool.toNat_true]; and_intros; all_goals first | omega | exact fun _ => trivial
theorem tldELns6 (t : Ty) (role : Bool) (sb : Fin 16) (d : TReg) (a b c : SReg) (stride : Half) : Statement (.tldELns6 t role sb d a b c stride) := by
  have h0 := tyCode_lt t
  have h1 := Bool.toNat_lt role
  simp only [Statement, Fits, encodeFields, encTileLns, Bool.toNat_true]; and_intros; all_goals first | omega | exact fun _ => trivial
theorem tst (t : Ty) (sp : Bool) (d : TReg) (a b : SReg) : Statement (.tst t sp d a b) := by
  have h0 := tyCode_lt t
  have h1 := Bool.toNat_lt sp
  simp only [Statement, Fits, encodeFields, encTile, Bool.toNat_false]; and_intros; all_goals first | omega | exact fun _ => trivial
theorem tstLns6 (t : Ty) (sp : Bool) (d : TReg) (a b c : SReg) (stride : Half) : Statement (.tstLns6 t sp d a b c stride) := by
  have h0 := tyCode_lt t
  have h1 := Bool.toNat_lt sp
  simp only [Statement, Fits, encodeFields, encTileLns, Bool.toNat_false]; and_intros; all_goals first | omega | exact fun _ => trivial
theorem tldg (t : Ty) (role : Bool) (d : TReg) (a b : SReg) (c : VReg) (m : MReg) : Statement (.tldg t role d a b c m) := by
  have h0 := tyCode_lt t
  have h1 := Bool.toNat_lt role
  simp only [Statement, Fits, encodeFields]; and_intros; all_goals first | omega | exact fun _ => trivial
theorem mmaO (t : Ty) (ua ub z : Bool) (d : ZReg) (a b : TReg) : Statement (.mmaO t ua ub z d a b) := by
  have h0 := tyCode_lt t
  have h1 := Bool.toNat_lt ua
  have h2 := Bool.toNat_lt ub
  have h3 := Bool.toNat_lt z
  simp only [Statement, Fits, encodeFields, encMma]; and_intros; all_goals first | omega | exact fun _ => trivial
theorem mmaR (t : Ty) (ua ub z : Bool) (d : ZReg) (a b : TReg) : Statement (.mmaR t ua ub z d a b) := by
  have h0 := tyCode_lt t
  have h1 := Bool.toNat_lt ua
  have h2 := Bool.toNat_lt ub
  have h3 := Bool.toNat_lt z
  simp only [Statement, Fits, encodeFields, encMma]; and_intros; all_goals first | omega | exact fun _ => trivial
theorem zld (t : Ty) (sp : Bool) (d : ZReg) (a b : SReg) : Statement (.zld t sp d a b) := by
  have h0 := tyCode_lt t
  have h1 := Bool.toNat_lt sp
  simp only [Statement, Fits, encodeFields, encTile, Bool.toNat_false]; and_intros; all_goals first | omega | exact fun _ => trivial
theorem zldImm (t : Ty) (sp : Bool) (d : ZReg) (a b : SReg) (imm : Imm) : Statement (.zldImm t sp d a b imm) := by
  have h0 := tyCode_lt t
  have h1 := Bool.toNat_lt sp
  simp only [Statement, Fits, encodeFields]; and_intros; all_goals first | omega | exact fun _ => trivial
theorem zst (t : Ty) (sp : Bool) (rm : Rmo) (d : ZReg) (a b : SReg) : Statement (.zst t sp rm d a b) := by
  have h0 := tyCode_lt t
  have h1 := Bool.toNat_lt sp
  have h2 := rmoCode_lt rm
  simp only [Statement, Fits, encodeFields, encTile, Bool.toNat_false]; and_intros; all_goals first | omega | exact fun _ => trivial
theorem zstImm (t : Ty) (sp : Bool) (rm : Rmo) (d : ZReg) (a b : SReg) (imm : Imm) : Statement (.zstImm t sp rm d a b imm) := by
  have h0 := tyCode_lt t
  have h1 := Bool.toNat_lt sp
  have h2 := rmoCode_lt rm
  simp only [Statement, Fits, encodeFields]; and_intros; all_goals first | omega | exact fun _ => trivial
theorem zclr (f : Bool) (d : ZReg) : Statement (.zclr f d) := by
  have h0 := Bool.toNat_lt f
  simp only [Statement, Fits, encodeFields]; and_intros; all_goals first | omega | exact fun _ => trivial
theorem tcopy (gr : Grant) (bv : Bool) (sb : Fin 16) (d a b c : SReg) : Statement (.tcopy gr bv sb d a b c) := by
  have h0 := grantCode_lt gr
  have h1 := Bool.toNat_lt bv
  simp only [Statement, Fits, encodeFields]; and_intros; all_goals first | omega | exact fun _ => trivial
theorem tcopyo (gr : Grant) (d a b c : SReg) : Statement (.tcopyo gr d a b c) := by
  have h0 := grantCode_lt gr
  simp only [Statement, Fits, encodeFields]; and_intros; all_goals first | omega | exact fun _ => trivial
theorem tdfence (a : SReg) : Statement (.tdfence a) := by
  simp only [Statement, Fits, encodeFields]; and_intros; all_goals first | omega | exact fun _ => trivial
theorem sbinit (b : Fin 16) (a : SReg) : Statement (.sbinit b a) := by
  simp only [Statement, Fits, encodeFields]; and_intros; all_goals first | omega | exact fun _ => trivial
theorem sbexp (b : Fin 16) (a : SReg) : Statement (.sbexp b a) := by
  simp only [Statement, Fits, encodeFields]; and_intros; all_goals first | omega | exact fun _ => trivial
theorem sbwait (free : Bool) (b : Fin 16) (d a : SReg) : Statement (.sbwait free b d a) := by
  have h0 := Bool.toNat_lt free
  simp only [Statement, Fits, encodeFields]; and_intros; all_goals first | omega | exact fun _ => trivial
theorem sbrel (b : Fin 16) : Statement (.sbrel b) := by
  simp only [Statement, Fits, encodeFields]; and_intros; all_goals first | omega | exact fun _ => trivial
theorem colred (t : Ty) (op : Fold) (bv : Bool) (sb : Fin 16) (len : Fin 512) (d a c : SReg) : Statement (.colred t op bv sb len d a c) := by
  have h0 := tyCode_lt t
  have h1 := foldCode_lt op
  have h2 := Bool.toNat_lt bv
  simp only [Statement, Fits, encodeFields]; and_intros; all_goals first | omega | exact fun _ => trivial
theorem colbcast (bv : Bool) (sb : Fin 16) (len : Fin 512) (root : Fin 256) (d a c : SReg) : Statement (.colbcast bv sb len root d a c) := by
  have h0 := Bool.toNat_lt bv
  simp only [Statement, Fits, encodeFields]; and_intros; all_goals first | omega | exact fun _ => trivial
theorem colwait : Statement .colwait := by simp [Statement, Fits, encodeFields]
theorem hpop (nb : Bool) (h : Fin 4) (d c : SReg) : Statement (.hpop nb h d c) := by
  have h0 := Bool.toNat_lt nb
  simp only [Statement, Fits, encodeFields]; and_intros; all_goals first | omega | exact fun _ => trivial
theorem gadd (rel : Bool) (h : Fin 4) (d a b : SReg) : Statement (.gadd rel h d a b) := by
  have h0 := Bool.toNat_lt rel
  simp only [Statement, Fits, encodeFields, encH]; and_intros; all_goals first | omega | exact fun _ => trivial
theorem gset (rel : Bool) (h : Fin 4) (d a b : SReg) : Statement (.gset rel h d a b) := by
  have h0 := Bool.toNat_lt rel
  simp only [Statement, Fits, encodeFields, encH]; and_intros; all_goals first | omega | exact fun _ => trivial
theorem hgrow (h : Fin 4) (d a : SReg) : Statement (.hgrow h d a) := by
  simp only [Statement, Fits, encodeFields, encH, Bool.toNat_false]; and_intros; all_goals first | omega | exact fun _ => trivial
theorem hdone (rel : Bool) (h : Fin 4) (a : SReg) : Statement (.hdone rel h a) := by
  have h0 := Bool.toNat_lt rel
  simp only [Statement, Fits, encodeFields, encH]; and_intros; all_goals first | omega | exact fun _ => trivial
theorem hres (sel : HSel) (h : Fin 4) (d : SReg) : Statement (.hres sel h d) := by
  have h0 := hselCode_lt sel
  simp only [Statement, Fits, encodeFields, encH, Bool.toNat_false]; and_intros; all_goals first | omega | exact fun _ => trivial
theorem lineFetch : Statement .lineFetch := by simp [Statement, Fits, encodeFields]
theorem trapEntry : Statement .trapEntry := by simp [Statement, Fits, encodeFields]
theorem vectorGroupIssue : Statement .vectorGroupIssue := by simp [Statement, Fits, encodeFields]
theorem promotion : Statement .promotion := by simp [Statement, Fits, encodeFields]
theorem loadReply : Statement .loadReply := by simp [Statement, Fits, encodeFields]
theorem loadReplyAbandon : Statement .loadReplyAbandon := by simp [Statement, Fits, encodeFields]
theorem regclmGrant : Statement .regclmGrant := by simp [Statement, Fits, encodeFields]
theorem rowsFreed : Statement .rowsFreed := by simp [Statement, Fits, encodeFields]
theorem regDeadlockDeclare : Statement .regDeadlockDeclare := by simp [Statement, Fits, encodeFields]
theorem regDeadlockTrap : Statement .regDeadlockTrap := by simp [Statement, Fits, encodeFields]
theorem strandDrained : Statement .strandDrained := by simp [Statement, Fits, encodeFields]
theorem heapWriteBack : Statement .heapWriteBack := by simp [Statement, Fits, encodeFields]
theorem gridComplete : Statement .gridComplete := by simp [Statement, Fits, encodeFields]
theorem crewWatchdogExpire : Statement .crewWatchdogExpire := by simp [Statement, Fits, encodeFields]
theorem idleDeadline : Statement .idleDeadline := by simp [Statement, Fits, encodeFields]
theorem wqryService : Statement .wqryService := by simp [Statement, Fits, encodeFields]
theorem wqryReply : Statement .wqryReply := by simp [Statement, Fits, encodeFields]
theorem feAccessPerform : Statement .feAccessPerform := by simp [Statement, Fits, encodeFields]
theorem vwaitLaneMet : Statement .vwaitLaneMet := by simp [Statement, Fits, encodeFields]
theorem vwaitTimeout : Statement .vwaitTimeout := by simp [Statement, Fits, encodeFields]
theorem tcopyGranuleLand : Statement .tcopyGranuleLand := by simp [Statement, Fits, encodeFields]
theorem tldEEngineRelease : Statement .tldEEngineRelease := by simp [Statement, Fits, encodeFields]
theorem collectiveArm : Statement .collectiveArm := by simp [Statement, Fits, encodeFields]
theorem collectiveComplete : Statement .collectiveComplete := by simp [Statement, Fits, encodeFields]
theorem hpopWake : Statement .hpopWake := by simp [Statement, Fits, encodeFields]
theorem heapBind : Statement .heapBind := by simp [Statement, Fits, encodeFields]
theorem qwidxWrite : Statement .qwidxWrite := by simp [Statement, Fits, encodeFields]
theorem qstatClear : Statement .qstatClear := by simp [Statement, Fits, encodeFields]
theorem queueEnable : Statement .queueEnable := by simp [Statement, Fits, encodeFields]
theorem queueDisable : Statement .queueDisable := by simp [Statement, Fits, encodeFields]
theorem launchRecordRead : Statement .launchRecordRead := by simp [Statement, Fits, encodeFields]
theorem gridReady : Statement .gridReady := by simp [Statement, Fits, encodeFields]
theorem dependencePoll : Statement .dependencePoll := by simp [Statement, Fits, encodeFields]
theorem crewDispatch : Statement .crewDispatch := by simp [Statement, Fits, encodeFields]
theorem yieldThreshold : Statement .yieldThreshold := by simp [Statement, Fits, encodeFields]
theorem priorityPreempt : Statement .priorityPreempt := by simp [Statement, Fits, encodeFields]
theorem preemptRequest : Statement .preemptRequest := by simp [Statement, Fits, encodeFields]
theorem stripWaitExpire : Statement .stripWaitExpire := by simp [Statement, Fits, encodeFields]
theorem drainWaitExpire : Statement .drainWaitExpire := by simp [Statement, Fits, encodeFields]
theorem stateCapture : Statement .stateCapture := by simp [Statement, Fits, encodeFields]
theorem saveEngineWrite : Statement .saveEngineWrite := by simp [Statement, Fits, encodeFields]
theorem crewResume : Statement .crewResume := by simp [Statement, Fits, encodeFields]
theorem guardBandStart : Statement .guardBandStart := by simp [Statement, Fits, encodeFields]
theorem quantumEnd : Statement .quantumEnd := by simp [Statement, Fits, encodeFields]
theorem quantumStart : Statement .quantumStart := by simp [Statement, Fits, encodeFields]
theorem overrunKill : Statement .overrunKill := by simp [Statement, Fits, encodeFields]
theorem pageMove : Statement .pageMove := by simp [Statement, Fits, encodeFields]
theorem freezeGo : Statement .freezeGo := by simp [Statement, Fits, encodeFields]
theorem freezePhaseDone : Statement .freezePhaseDone := by simp [Statement, Fits, encodeFields]
theorem freezeBcastReceive : Statement .freezeBcastReceive := by simp [Statement, Fits, encodeFields]
theorem freezeRelease : Statement .freezeRelease := by simp [Statement, Fits, encodeFields]
theorem invalidate : Statement .invalidate := by simp [Statement, Fits, encodeFields]
theorem s2Invalidate : Statement .s2Invalidate := by simp [Statement, Fits, encodeFields]
theorem invalidateDone : Statement .invalidateDone := by simp [Statement, Fits, encodeFields]
theorem s2freplyRetry : Statement .s2freplyRetry := by simp [Statement, Fits, encodeFields]
theorem s2freplyFail : Statement .s2freplyFail := by simp [Statement, Fits, encodeFields]
theorem s2FaultTimeout : Statement .s2FaultTimeout := by simp [Statement, Fits, encodeFields]
theorem s2fidxWrite : Statement .s2fidxWrite := by simp [Statement, Fits, encodeFields]
theorem priResponse : Statement .priResponse := by simp [Statement, Fits, encodeFields]
theorem priTimeout : Statement .priTimeout := by simp [Statement, Fits, encodeFields]
theorem atsInvalidate : Statement .atsInvalidate := by simp [Statement, Fits, encodeFields]
theorem functionLevelReset : Statement .functionLevelReset := by simp [Statement, Fits, encodeFields]
theorem stopInterface : Statement .stopInterface := by simp [Statement, Fits, encodeFields]
theorem tdiLock : Statement .tdiLock := by simp [Statement, Fits, encodeFields]
theorem tdiError : Statement .tdiError := by simp [Statement, Fits, encodeFields]
theorem partitionEnable : Statement .partitionEnable := by simp [Statement, Fits, encodeFields]
theorem partitionDisable : Statement .partitionDisable := by simp [Statement, Fits, encodeFields]
theorem partitionStop : Statement .partitionStop := by simp [Statement, Fits, encodeFields]
theorem assignmentWrite : Statement .assignmentWrite := by simp [Statement, Fits, encodeFields]
theorem scrubComplete : Statement .scrubComplete := by simp [Statement, Fits, encodeFields]
theorem memoryZero : Statement .memoryZero := by simp [Statement, Fits, encodeFields]
theorem memoryZeroDone : Statement .memoryZeroDone := by simp [Statement, Fits, encodeFields]
theorem vfEnable : Statement .vfEnable := by simp [Statement, Fits, encodeFields]
theorem vfDisable : Statement .vfDisable := by simp [Statement, Fits, encodeFields]
theorem vfpriClear : Statement .vfpriClear := by simp [Statement, Fits, encodeFields]
theorem errorCorrected : Statement .errorCorrected := by simp [Statement, Fits, encodeFields]
theorem errorUncorrectable : Statement .errorUncorrectable := by simp [Statement, Fits, encodeFields]
theorem patrol : Statement .patrol := by simp [Statement, Fits, encodeFields]
theorem ebstatClear : Statement .ebstatClear := by simp [Statement, Fits, encodeFields]
theorem noticeTailWrite : Statement .noticeTailWrite := by simp [Statement, Fits, encodeFields]
theorem ndropClear : Statement .ndropClear := by simp [Statement, Fits, encodeFields]
theorem assayReplayDispatch : Statement .assayReplayDispatch := by simp [Statement, Fits, encodeFields]
theorem assayCompare : Statement .assayCompare := by simp [Statement, Fits, encodeFields]
theorem ascntClear : Statement .ascntClear := by simp [Statement, Fits, encodeFields]
theorem mapoutGroup : Statement .mapoutGroup := by simp [Statement, Fits, encodeFields]
theorem retireCore : Statement .retireCore := by simp [Statement, Fits, encodeFields]
theorem restoreCore : Statement .restoreCore := by simp [Statement, Fits, encodeFields]
theorem mapoutApply : Statement .mapoutApply := by simp [Statement, Fits, encodeFields]
theorem stwdogWrite : Statement .stwdogWrite := by simp [Statement, Fits, encodeFields]
theorem stewardWatchdogExpire : Statement .stewardWatchdogExpire := by simp [Statement, Fits, encodeFields]
theorem gangPrepare : Statement .gangPrepare := by simp [Statement, Fits, encodeFields]
theorem prepared : Statement .prepared := by simp [Statement, Fits, encodeFields]
theorem commit : Statement .commit := by simp [Statement, Fits, encodeFields]
theorem abort : Statement .abort := by simp [Statement, Fits, encodeFields]
theorem gangRefusal : Statement .gangRefusal := by simp [Statement, Fits, encodeFields]
theorem gangPrepareTimeout : Statement .gangPrepareTimeout := by simp [Statement, Fits, encodeFields]
theorem gangCommitTimeout : Statement .gangCommitTimeout := by simp [Statement, Fits, encodeFields]
theorem lost : Statement .lost := by simp [Statement, Fits, encodeFields]
theorem linkUnreachable : Statement .linkUnreachable := by simp [Statement, Fits, encodeFields]
theorem gangcmdDiscard : Statement .gangcmdDiscard := by simp [Statement, Fits, encodeFields]
theorem gangcmdResume : Statement .gangcmdResume := by simp [Statement, Fits, encodeFields]
theorem limnerArm : Statement .limnerArm := by simp [Statement, Fits, encodeFields]
theorem limnerFire : Statement .limnerFire := by simp [Statement, Fits, encodeFields]
theorem limnerCycleMatch : Statement .limnerCycleMatch := by simp [Statement, Fits, encodeFields]
theorem limnerLinkTrigger : Statement .limnerLinkTrigger := by simp [Statement, Fits, encodeFields]
theorem pwrlimWrite : Statement .pwrlimWrite := by simp [Statement, Fits, encodeFields]
theorem pshareWrite : Statement .pshareWrite := by simp [Statement, Fits, encodeFields]
theorem powerInterval : Statement .powerInterval := by simp [Statement, Fits, encodeFields]
theorem thermalTrip : Statement .thermalTrip := by simp [Statement, Fits, encodeFields]
theorem thermalClear : Statement .thermalClear := by simp [Statement, Fits, encodeFields]
theorem flitReceive : Statement .flitReceive := by simp [Statement, Fits, encodeFields]
theorem portRetrainTimeout : Statement .portRetrainTimeout := by simp [Statement, Fits, encodeFields]
theorem remoteAccess : Statement .remoteAccess := by simp [Statement, Fits, encodeFields]
theorem remoteLoadTimeout : Statement .remoteLoadTimeout := by simp [Statement, Fits, encodeFields]
theorem remoteStoreTimeout : Statement .remoteStoreTimeout := by simp [Statement, Fits, encodeFields]
theorem cxlDeviceFailure : Statement .cxlDeviceFailure := by simp [Statement, Fits, encodeFields]
theorem deviceReset : Statement .deviceReset := by simp [Statement, Fits, encodeFields]
theorem stewardStart : Statement .stewardStart := by simp [Statement, Fits, encodeFields]
theorem spdmRequest : Statement .spdmRequest := by simp [Statement, Fits, encodeFields]
theorem debugUnlock : Statement .debugUnlock := by simp [Statement, Fits, encodeFields]
theorem debugRelock : Statement .debugRelock := by simp [Statement, Fits, encodeFields]
theorem dbgctlStop : Statement .dbgctlStop := by simp [Statement, Fits, encodeFields]
theorem dbgctlCont : Statement .dbgctlCont := by simp [Statement, Fits, encodeFields]
theorem dbgdataRead : Statement .dbgdataRead := by simp [Statement, Fits, encodeFields]
theorem dbgdataWrite : Statement .dbgdataWrite := by simp [Statement, Fits, encodeFields]
theorem registerWrite : Statement .registerWrite := by simp [Statement, Fits, encodeFields]
theorem mmaComplete : Statement .mmaComplete := by simp [Statement, Fits, encodeFields]
theorem storePerformed : Statement .storePerformed := by simp [Statement, Fits, encodeFields]
theorem heapBindComplete : Statement .heapBindComplete := by simp [Statement, Fits, encodeFields]
theorem powerLoss : Statement .powerLoss := by simp [Statement, Fits, encodeFields]
theorem portRetrain : Statement .portRetrain := by simp [Statement, Fits, encodeFields]

end Sys2Proof.Laws.F

namespace Sys2Proof.Laws
open Sys2Proof Sys2Proof.Coding Sys2Proof.Machine Sys2Proof.Laws.F
/-- Fields that fit are what a head and its tail are split into (R86, R88). -/
theorem splitFields_head_tail (f : Fields) (sc : Nat) (hs : sc < 8) (h : F.Fits f) : splitFields (f.head sc) f.tail = f := by
  obtain ⟨ts, maj, fn, d, a, b, m, md, w1⟩ := f
  simp only [F.Fits] at h
  obtain ⟨h1, h2, h3, h4, h5, h6, h7, h8, h9, h10, h11, h12, h13, h14, h15, h16⟩ := h
  have e : ts * 2 ^ 14 + sc * 2 ^ 11 + maj * 2 ^ 4 + fn = ts * 16384 + (sc * 2048 + maj * 16 + fn) := by omega
  have e1 : (ts * 16384 + (sc * 2048 + maj * 16 + fn)) / 2 ^ 14 = ts := by omega
  obtain rfl | rfl | rfl | rfl : ts = 0 ∨ ts = 1 ∨ ts = 2 ∨ ts = 3 := by omega
  all_goals
    simp only [splitFields, Fields.head, Fields.tail, e, e1, Fields.mk.injEq, reduceIte]
    refine ⟨?_, ?_, ?_, ?_, ?_, ?_, ?_, ?_, ?_⟩ <;> simp at * <;> omega
end Sys2Proof.Laws
end

