-- ==== Sys2Proof/Tests/Slice0.lean ====
section
/-! SUPPORT. The author's tests. Words written out from the manual's encoding tables decode to the instructions they stand for;
ill-formed terms are refused; single instructions do what the manual's worked examples say; and for every obligation with
hypotheses, states and operands that meet them, at the boundaries of its clauses (`witness_…`). -/

namespace Sys2Proof.Tests
open Sys2Proof Sys2Proof.Machine

set_option Elab.async false

/-! ### Decoding -/

/-- Each head, the words of its tail, and the instruction that they read as. -/
def reads (l : List (Nat × Nat × Nat × Instr)) : Bool :=
  l.all fun e => decodeTableWord 80 (e.1 + 2 ^ 16 * e.2.1 + 2 ^ 48 * e.2.2.1) = some e.2.2.2

theorem test_decode_integer : reads [
    (0x0000, 0, 0, .nop),
    (0x8001, 0x0427c400, 0, .add true 1 2 31),
    (0x8002, 0x0427c400, 0, .sub true 1 2 31),
    (0x8003, 0x0427c400, 0, .and true 1 2 31),
    (0x8004, 0x0427c400, 0, .or true 1 2 31),
    (0x8005, 0x0427c400, 0, .xor true 1 2 31),
    (0x8006, 0x0427c400, 0, .shl true 1 2 31),
    (0x8007, 0x0427c400, 0, .shr true 1 2 31),
    (0x8008, 0x0427c400, 0, .sra true 1 2 31),
    (0x8009, 0x0420c200, 0, .min false true 1 2 3),
    (0x800a, 0x0420c200, 0, .max false true 1 2 3),
    (0x800b, 0x0420c400, 0, .seq true 1 2 3),
    (0x800c, 0x0420c400, 0, .slt true 1 2 3),
    (0x800d, 0x0420c400, 0, .sltu true 1 2 3),
    (0xc00e, 0x0420c000, 0x10000000, .sel 1 2 3 4),
    (0x800f, 0x0420c007, 0, .lea 7 1 2 3),
    (0xc00f, 0x0420c003, 0xfffffff8, .leaImm 3 1 2 3 0xFFFFFFF8),
    (0x8010, 0x0420c400, 0, .mul true 1 2 3),
    (0x8011, 0x0420c600, 0, .mulh true true 1 2 3),
    (0x8012, 0x0420c600, 0, .div true true 1 2 3),
    (0x8013, 0x0420c600, 0, .rem true true 1 2 3),
    (0x4014, 0x0428, 0, .clz true 1 2),
    (0x4015, 0x0428, 0, .popc true 1 2),
    (0x4016, 0x0421, 0, .sext .h 1 2),
    (0x4017, 0x0422, 0, .zext .w 1 2),
    (0xc020, 0x04200400, 0xfffffff8, .addi true 1 2 0xFFFFFFF8),
    (0xc021, 0x04200200, 0xfffffff8, .li true 1 2 0xFFFFFFF8)] = true := by decide +kernel

theorem test_decode_float : reads [
    (0x8100, 0x0420c214, 0, .fadd .f16 (.fixed .rne) true 1 2 3),
    (0x8101, 0x0420c2d8, 0, .fmul .bf16 (.fixed .rmm) true 1 2 3),
    (0xc102, 0x0420c308, 0x10000000, .ffma .f32 .frm true false 1 2 3 4),
    (0x8103, 0x042005a6, 0, .fcvt .u64 .f32 (.fixed .rtz) 1 2)] = true := by decide +kernel

theorem test_decode_control : reads [
    (0x8180, 0x00080025, 0, .br 0x4001 5),
    (0x8181, 0x04280025, 0, .beq 1 2 0x4001 5),
    (0x8182, 0x04280025, 0, .bne 1 2 0x4001 5),
    (0x8183, 0x04280025, 0, .blt 1 2 0x4001 5),
    (0x8184, 0x04280025, 0, .bge 1 2 0x4001 5),
    (0x8185, 0x04280025, 0, .bltu 1 2 0x4001 5),
    (0x8186, 0x04280025, 0, .bgeu 1 2 0x4001 5),
    (0x8187, 0x74080025, 0, .call 29 0x4001 5),
    (0x4188, 0x01d0, 0, .ret 29),
    (0x4189, 0x0420, 0, .jr 1 2)] = true := by decide +kernel

theorem test_decode_system : reads [
    (0x8200, 0x0400014f, 0, .mfs 1 0x14F),
    (0x8201, 0x00200100, 0, .mts 0x100 2),
    (0xc202, 0x00200000, 0xabcd0009, .trap 2 9 0xABCD),
    (0x4203, 0x0002, 0, .tret .kill),
    (0x4204, 0x000f, 0, .brk 15),
    (0x8205, 0x000007ff, 0, .sysc 2047),
    (0x0206, 0, 0, .yield),
    (0x0207, 0, 0, .halt),
    (0x4208, 0x0020, 0, .idle 2)] = true := by decide +kernel

theorem test_decode_crew : reads [
    (0x4210, 0x000f, 0, .join 15),
    (0x4211, 0x000f, 0, .leave 15),
    (0x4212, 0x000f, 0, .bsync 15),
    (0x0213, 0, 0, .gbar),
    (0x4214, 0x040f, 0, .elect 1 15),
    (0x8215, 0x00000040, 0, .regclm 64),
    (0x8216, 0x00000040, 0, .regrel 64),
    (0x8217, 0x00200000, 0, .wqry 2),
    (0xc217, 0x00200000, 0xfffffff8, .wqryImm 2 0xFFFFFFF8),
    (0x8219, 0x00200000, 0, .vsave 2),
    (0xc219, 0x00200000, 0xfffffff8, .vsaveImm 2 0xFFFFFFF8),
    (0x821a, 0x00200000, 0, .vrestore 2),
    (0xc21a, 0x00200000, 0xfffffff8, .vrestoreImm 2 0xFFFFFFF8),
    (0x8218, 0x0420c000, 0, .launch 1 2 3),
    (0xc218, 0x0420c000, 0xfffffff8, .launchImm 1 2 3 0xFFFFFFF8),
    (0x821b, 0x04200009, 0, .scrub true false false true 1 2)] = true := by decide +kernel

theorem test_decode_memory : reads [
    (0x8280, 0x0420035c, 0, .ld .h true true true .system 1 2),
    (0xc280, 0x04200400, 0xfffffff8, .ldImm .w false false false .strand 1 2 0xFFFFFFF8),
    (0x8281, 0x0020c618, 0, .st .d false true .device 2 3),
    (0xc281, 0x0020c040, 0xfffffff8, .stImm .b true false .strand 2 3 0xFFFFFFF8),
    (0x8282, 0x0420c070, 0, .amo .add true .ar 1 2 3),
    (0x8282, 0x0420c0f0, 0, .amo .and true .ar 1 2 3),
    (0x8282, 0x0420c170, 0, .amo .or true .ar 1 2 3),
    (0x8282, 0x0420c1f0, 0, .amo .xor true .ar 1 2 3),
    (0x8282, 0x0420c270, 0, .amo .min true .ar 1 2 3),
    (0x8282, 0x0420c2f0, 0, .amo .max true .ar 1 2 3),
    (0x8282, 0x0420c370, 0, .amo .minu true .ar 1 2 3),
    (0x8282, 0x0420c3f0, 0, .amo .maxu true .ar 1 2 3),
    (0x8282, 0x0420c470, 0, .amo .swap true .ar 1 2 3),
    (0x8282, 0x0420c510, 0, .amo .fadd false .acq 1 2 3),
    (0xc282, 0x0420c4e0, 0x10000000, .amoCas true .rel 1 2 3 4),
    (0x8283, 0x0000003a, 0, .fence .ar .domain),
    (0x8290, 0x0420c00f, 0, .stwin 15 1 2 3),
    (0x8291, 0x0000000f, 0, .stflush 15),
    (0x8292, 0x00000013, 0, .stinv true 3),
    (0x8293, 0x00200000, 0, .dcfence 2),
    (0xc293, 0x00200000, 0xfffffff8, .dcfenceImm 2 0xFFFFFFF8)] = true := by decide +kernel

theorem test_decode_vectorInteger : reads [
    (0x8300, 0xa3f7ece0, 0, .vadd .u16 true 40 63 (.scal 31) 5),
    (0x8300, 0xa3f82f80, 0, .vadd .dflt false 40 63 (.vec 32) 5),
    (0xc300, 0xa3f02980, 0xfffffff8, .vaddImm .i64 false 40 63 0xFFFFFFF8 5),
    (0x8301, 0xa3f7ece0, 0, .vsub .u16 true 40 63 (.scal 31) 5),
    (0x8301, 0xa3f82f80, 0, .vsub .dflt false 40 63 (.vec 32) 5),
    (0xc301, 0xa3f02980, 0xfffffff8, .vsubImm .i64 false 40 63 0xFFFFFFF8 5),
    (0x8302, 0xa3f7ecc0, 0, .vmul .u16 40 63 (.scal 31) 5),
    (0x8302, 0xa3f82f80, 0, .vmul .dflt 40 63 (.vec 32) 5),
    (0xc302, 0xa3f02980, 0xfffffff8, .vmulImm .i64 40 63 0xFFFFFFF8 5),
    (0x8303, 0xa3f7ecc0, 0, .vmulh .u16 40 63 (.scal 31) 5),
    (0x8303, 0xa3f82f80, 0, .vmulh .dflt 40 63 (.vec 32) 5),
    (0xc303, 0xa3f02980, 0xfffffff8, .vmulhImm .i64 40 63 0xFFFFFFF8 5),
    (0x8304, 0xa3f7ecc0, 0, .vmin .u16 40 63 (.scal 31) 5),
    (0x8304, 0xa3f82f80, 0, .vmin .dflt 40 63 (.vec 32) 5),
    (0xc304, 0xa3f02980, 0xfffffff8, .vminImm .i64 40 63 0xFFFFFFF8 5),
    (0x8305, 0xa3f7ecc0, 0, .vmax .u16 40 63 (.scal 31) 5),
    (0x8305, 0xa3f82f80, 0, .vmax .dflt 40 63 (.vec 32) 5),
    (0xc305, 0xa3f02980, 0xfffffff8, .vmaxImm .i64 40 63 0xFFFFFFF8 5),
    (0x8306, 0xa3f7ecc0, 0, .vand .u16 40 63 (.scal 31) 5),
    (0x8306, 0xa3f82f80, 0, .vand .dflt 40 63 (.vec 32) 5),
    (0xc306, 0xa3f02980, 0xfffffff8, .vandImm .i64 40 63 0xFFFFFFF8 5),
    (0x8307, 0xa3f7ecc0, 0, .vor .u16 40 63 (.scal 31) 5),
    (0x8307, 0xa3f82f80, 0, .vor .dflt 40 63 (.vec 32) 5),
    (0xc307, 0xa3f02980, 0xfffffff8, .vorImm .i64 40 63 0xFFFFFFF8 5),
    (0x8308, 0xa3f7ecc0, 0, .vxor .u16 40 63 (.scal 31) 5),
    (0x8308, 0xa3f82f80, 0, .vxor .dflt 40 63 (.vec 32) 5),
    (0xc308, 0xa3f02980, 0xfffffff8, .vxorImm .i64 40 63 0xFFFFFFF8 5),
    (0x8309, 0xa3f7ecc0, 0, .vshl .u16 40 63 (.scal 31) 5),
    (0x8309, 0xa3f82f80, 0, .vshl .dflt 40 63 (.vec 32) 5),
    (0xc309, 0xa3f02980, 0xfffffff8, .vshlImm .i64 40 63 0xFFFFFFF8 5),
    (0x830a, 0xa3f7ecc0, 0, .vshr .u16 40 63 (.scal 31) 5),
    (0x830a, 0xa3f82f80, 0, .vshr .dflt 40 63 (.vec 32) 5),
    (0xc30a, 0xa3f02980, 0xfffffff8, .vshrImm .i64 40 63 0xFFFFFFF8 5),
    (0x830b, 0xa3f7ecc0, 0, .vsra .u16 40 63 (.scal 31) 5),
    (0x830b, 0xa3f82f80, 0, .vsra .dflt 40 63 (.vec 32) 5),
    (0xc30b, 0xa3f02980, 0xfffffff8, .vsraImm .i64 40 63 0xFFFFFFF8 5)] = true := by decide +kernel

theorem test_decode_vectorFloat : reads [
    (0x8400, 0xa3f7eac8, 0, .vfadd .bf16 (.fixed .rdn) 40 63 (.scal 31) 5),
    (0xc400, 0xa3f02b00, 0x3f800000, .vfaddImm .f32 .frm 40 63 0x3F800000 5),
    (0x8401, 0xa3f7eac8, 0, .vfsub .bf16 (.fixed .rdn) 40 63 (.scal 31) 5),
    (0xc401, 0xa3f02b00, 0x3f800000, .vfsubImm .f32 .frm 40 63 0x3F800000 5),
    (0x8402, 0xa3f7eacc, 0, .vfmul .bf16 (.fixed .rdn) true 40 63 (.scal 31) 5),
    (0xc402, 0xa3f02b04, 0x3f800000, .vfmulImm .f32 .frm true 40 63 0x3F800000 5),
    (0x8403, 0xa3f7eace, 0, .vffma .bf16 (.fixed .rdn) true true 40 63 (.scal 31) 5),
    (0xc403, 0xa3f02b06, 0x3f800000, .vffmaImm .f32 .frm true true 40 63 0x3F800000 5),
    (0x8404, 0xa3f7eac8, 0, .vfmin .bf16 (.fixed .rdn) 40 63 (.scal 31) 5),
    (0xc404, 0xa3f02b00, 0x3f800000, .vfminImm .f32 .frm 40 63 0x3F800000 5),
    (0x8405, 0xa3f7eac8, 0, .vfmax .bf16 (.fixed .rdn) 40 63 (.scal 31) 5),
    (0xc405, 0xa3f02b00, 0x3f800000, .vfmaxImm .f32 .frm 40 63 0x3F800000 5),
    (0x8406, 0xa3f7eac8, 0, .vfdiv .bf16 (.fixed .rdn) 40 63 (.scal 31) 5),
    (0xc406, 0xa3f02b00, 0x3f800000, .vfdivImm .f32 .frm 40 63 0x3F800000 5),
    (0x8407, 0xa3f02a30, 0, .vfsqrt .f16 (.fixed .rup) 40 63 5),
    (0x8408, 0xa3f02a30, 0, .vfrsq .f16 (.fixed .rup) 40 63 5),
    (0x8409, 0xa3f02a30, 0, .vfexp2 .f16 (.fixed .rup) 40 63 5),
    (0x840a, 0xa3f02a30, 0, .vflog2 .f16 (.fixed .rup) 40 63 5),
    (0x8410, 0xa3f02826, 0, .vcvt .i8 .f32 (.round (.fixed .rtz)) 40 63 5),
    (0x8410, 0xa3f02c12, 0, .vcvt .u8 .i32 .sat 40 63 5),
    (0x8410, 0xa3f7eb96, 0, .vcvt .lns6 .f32 (.gs 31) 40 63 5),
    (0x8410, 0xa3f82ba6, 0, .vcvt .lns6 .f32 (.gv 32) 40 63 5),
    (0x8411, 0xa3f82b80, 0, .vlmul .lns6 40 63 32 5),
    (0xc411, 0xa3f82f90, 0x7c000000, .vlmulGiven .dflt (.scal 31) 40 63 32 5),
    (0xc411, 0xa3f82ba0, 0x84000000, .vlmulGiven .lns6 (.vec 33) 40 63 32 5),
    (0x8412, 0xa3f82b80, 0, .vladd .lns6 40 63 32 5),
    (0xc412, 0xa3f82f90, 0x7c000000, .vladdGiven .dflt (.scal 31) 40 63 32 5),
    (0xc412, 0xa3f82ba0, 0x84000000, .vladdGiven .lns6 (.vec 33) 40 63 32 5)] = true := by decide +kernel

theorem test_decode_vectorLength : reads [
    (0x8500, 0x04200001, 0, .vsetvl true 1 2),
    (0xc500, 0x04200000, 0x00001807, .vsetvlType false 1 2 ⟨.clamp, .b64, .lns6⟩),
    (0x4501, 0x0020, 0, .vsettype 2),
    (0xc501, 0x00000000, 0x00002404, .vsettypeImm ⟨.fault, .b32, .fp16⟩),
    (0x8502, 0x1ff7eb44, 0, .vcmp .eq .f32 true 7 63 (.scal 31) 5),
    (0x8502, 0x1ff7eb4c, 0, .vcmp .ne .f32 true 7 63 (.scal 31) 5),
    (0x8502, 0x1ff7eb54, 0, .vcmp .lt .f32 true 7 63 (.scal 31) 5),
    (0x8502, 0x1ff7eb5c, 0, .vcmp .le .f32 true 7 63 (.scal 31) 5),
    (0x8502, 0x1ff7eb64, 0, .vcmp .gt .f32 true 7 63 (.scal 31) 5),
    (0x8502, 0x1ff7eb6c, 0, .vcmp .ge .f32 true 7 63 (.scal 31) 5),
    (0x8502, 0x1ff7eb74, 0, .vcmp .un .f32 true 7 63 (.scal 31) 5),
    (0xc502, 0x1ff02c28, 0xfffffff8, .vcmpImm .ge .u8 false 7 63 0xFFFFFFF8 5),
    (0x8503, 0x1461c000, 0, .mand 5 6 7),
    (0x8504, 0x1461c000, 0, .mor 5 6 7),
    (0x8505, 0x1461c000, 0, .mxor 5 6 7),
    (0x4506, 0x1460, 0, .mnot 5 6),
    (0x8507, 0x7c602800, 0, .mpop 31 6 5),
    (0x8508, 0x7c602800, 0, .mfirst 31 6 5),
    (0x4509, 0x0061, 0, .vif true 6),
    (0x050a, 0, 0, .velse),
    (0x050b, 0, 0, .vend)] = true := by decide +kernel

theorem test_decode_permute : reads [
    (0x8580, 0xa3f7e940, 0, .vsel .i32 40 63 (.scal 31) 5),
    (0xc580, 0xa3f02900, 0xfffffff8, .vselImm .i32 40 63 0xFFFFFFF8 5),
    (0x8581, 0xa3f82900, 0, .vperm .i32 40 63 32 5),
    (0x8582, 0xa3f7e900, 0, .vslideup .i32 40 63 31 5),
    (0xc582, 0xa3f02900, 0x000003ff, .vslideupImm .i32 40 63 1023 5),
    (0x8583, 0xa3f7e900, 0, .vslidedn .i32 40 63 31 5),
    (0xc583, 0xa3f02900, 0x000003ff, .vslidednImm .i32 40 63 1023 5),
    (0x8584, 0xa3f7e900, 0, .vbcast .i32 40 63 31 5),
    (0xc584, 0xa3f02900, 0x000003ff, .vbcastImm .i32 40 63 1023 5),
    (0xc585, 0xa3fa6900, 0x7c000000, .vcompress .i32 40 41 63 31 5),
    (0x8586, 0xa3f02900, 0, .vexpand .i32 40 63 5),
    (0x8587, 0xa0602900, 0, .viota .i32 40 6 5),
    (0x8588, 0xa00feb00, 0, .vmov .f32 40 (.vec 63) 5),
    (0xc588, 0xa0002b00, 0x3f800000, .vmovImm .f32 40 0x3F800000 5),
    (0x8589, 0xa1f78120, 0, .vmovs .i32 (.ins 40 31) 30),
    (0xc589, 0x7ff00100, 0x000003ff, .vmovsImm .i32 (.ext 31 63) 1023),
    (0x858a, 0xa0002900, 0, .vid .i32 40 5),
    (0x8590, 0x7bf7eb00, 0, .vredsum .f32 30 63 31 5),
    (0x8591, 0x7bf7eb00, 0, .vredmax .f32 30 63 31 5),
    (0x8592, 0x7bf7eb00, 0, .vredmin .f32 30 63 31 5),
    (0x8593, 0x7c602800, 0, .vany 31 6 5),
    (0x8594, 0x7c602800, 0, .vall 31 6 5)] = true := by decide +kernel

theorem test_decode_vectorMemory : reads [
    (0x8600, 0xa020eba0, 0, .vld .lns6 true 40 2 3 5),
    (0xc600, 0xa0202900, 0xfffffff8, .vldImm .i32 false 40 2 0 0xFFFFFFF8 5),
    (0x8603, 0xa020eba0, 0, .vst .lns6 true 40 2 3 5),
    (0xc603, 0xa0202900, 0xfffffff8, .vstImm .i32 false 40 2 0 0xFFFFFFF8 5),
    (0x8601, 0xa020e920, 0, .vlds .i32 true 40 2 3 5),
    (0xc601, 0xa020e900, 0xfffffff8, .vldsImm .i32 false 40 2 3 0xFFFFFFF8 5),
    (0x8604, 0xa020e920, 0, .vsts .i32 true 40 2 3 5),
    (0xc604, 0xa020e900, 0xfffffff8, .vstsImm .i32 false 40 2 3 0xFFFFFFF8 5),
    (0x8602, 0xa0202927, 0, .vldseg 7 .i32 true 40 2 5),
    (0xc602, 0xa0202901, 0xfffffff8, .vldsegImm 1 .i32 false 40 2 0xFFFFFFF8 5),
    (0x8605, 0xa0202927, 0, .vstseg 7 .i32 true 40 2 5),
    (0xc605, 0xa0202901, 0xfffffff8, .vstsegImm 1 .i32 false 40 2 0xFFFFFFF8 5),
    (0x8606, 0xa02fe920, 0, .vgather .i32 true 40 2 63 5),
    (0xc606, 0xa02fe900, 0x10000000, .vgatherBounded .i32 false 40 2 63 4 5),
    (0x8607, 0xa02fe920, 0, .vscatter .i32 true 40 2 63 5),
    (0xc607, 0xa02fe900, 0x10000000, .vscatterBounded .i32 false 40 2 63 4 5),
    (0x8608, 0xa02fe900, 0, .vgatherL .i32 40 2 63 5),
    (0xc608, 0xa02fe900, 0x10000000, .vgatherLBounded .i32 40 2 63 4 5),
    (0x8609, 0xa02fe906, 0, .vscatterC .i32 6 40 2 63 5),
    (0xc609, 0xa02fe906, 0x10000000, .vscatterCBounded .i32 6 40 2 63 4 5),
    (0x860a, 0xa0202928, 0, .vldFe .i32 true 40 2 5),
    (0xc60a, 0xa0202920, 0xfffffff8, .vldFeImm .i32 false 40 2 0xFFFFFFF8 5),
    (0x860b, 0xa0202920, 0, .vstFe .i32 40 2 5),
    (0xc60b, 0xa0202920, 0xfffffff8, .vstFeImm .i32 40 2 0xFFFFFFF8 5),
    (0x860c, 0xa0202900, 0, .cvld .i32 40 2 0 5),
    (0xc60c, 0xa0202900, 0xfffffff8, .cvldImm .i32 40 2 0 0xFFFFFFF8 5)] = true := by decide +kernel

theorem test_decode_window : reads [
    (0x8610, 0xa3f02900, 0, .lldx .i32 40 63 5),
    (0xc610, 0xa3f02900, 0xfffffff8, .lldxImm .i32 40 63 0xFFFFFFF8 5),
    (0x8611, 0xa3f02900, 0, .lstx .i32 40 63 5),
    (0xc611, 0xa3f02900, 0xfffffff8, .lstxImm .i32 40 63 0xFFFFFFF8 5),
    (0x8612, 0x0020c001, 0, .spclr true 2 3),
    (0xc612, 0x0020c000, 0xfffffff8, .spclrImm false 2 3 0xFFFFFFF8),
    (0xc613, 0x0020c5c0, 0x00000100, .awin .u64 .max 2 3 0x100),
    (0x8614, 0x03fa2800, 0, .aupd 63 40 5),
    (0x0615, 0, 0, .amerge),
    (0xc616, 0x1c2fed30, 0xa3ffffff, .vwait .ge .u32 true 0x3FFFFFF 7 2 63 40 5)] = true := by decide +kernel

theorem test_decode_tile : reads [
    (0xc700, 0x0420c280, 0x10000000, .settile .bf16 1 2 3 4),
    (0x8701, 0x1c20c230, 0, .tld .f16 true true 7 2 3),
    (0xc701, 0x1c20c390, 0x1000ffff, .tldLns6 .lns6 false true 7 2 3 4 0xFFFF),
    (0x8702, 0x1c20c03f, 0, .tldE .i8 true 15 7 2 3),
    (0xc702, 0x1c20c7af, 0x10000010, .tldELns6 .dflt false 15 7 2 3 4 0x10),
    (0x8703, 0x1c20c320, 0, .tst .f32 true 7 2 3),
    (0xc703, 0x1c20c3a0, 0x10000010, .tstLns6 .lns6 true 7 2 3 4 0x10),
    (0xc704, 0x1c20eb10, 0xfc000000, .tldg .f32 true 7 2 3 63 5),
    (0x8705, 0x1c518050, 0, .mmaO .i8 true false true 7 5 6),
    (0x8706, 0x1c5187a0, 0, .mmaR .dflt false true false 7 5 6),
    (0x8707, 0x1c20c120, 0, .zld .i32 true 7 2 3),
    (0xc707, 0x1c20c300, 0xfffffff8, .zldImm .f32 false 7 2 3 0xFFFFFFF8),
    (0x8708, 0x1c20c2ac, 0, .zst .bf16 true (.fixed .rup) 7 2 3),
    (0xc708, 0x1c20c100, 0xfffffff8, .zstImm .i32 false .frm 7 2 3 0xFFFFFFF8),
    (0x4709, 0x1c08, 0, .zclr true 7)] = true := by decide +kernel

theorem test_decode_copy : reads [
    (0xc780, 0x0420c000, 0x1000005f, .tcopy .b true 15 1 2 3 4),
    (0xc781, 0x0420c000, 0x10000020, .tcopyo .a 1 2 3 4),
    (0x8782, 0x00200000, 0, .tdfence 2),
    (0x8783, 0x0020000f, 0, .sbinit 15 2),
    (0x8784, 0x0020000f, 0, .sbexp 15 2),
    (0x8785, 0x0420001f, 0, .sbwait true 15 1 2),
    (0x4786, 0x000f, 0, .sbrel 15),
    (0xc790, 0x0420053f, 0x10000100, .colred .u32 .min true 15 256 1 2 4),
    (0xc791, 0x0420001f, 0x1001fe01, .colbcast true 15 1 255 1 2 4),
    (0x0792, 0, 0, .colwait)] = true := by decide +kernel

theorem test_decode_heap : reads [
    (0xc7c0, 0x04000007, 0x10000000, .hpop true 3 1 4),
    (0x87c1, 0x0420c007, 0, .gadd true 3 1 2 3),
    (0x87c2, 0x0420c003, 0, .gset false 3 1 2 3),
    (0x87c3, 0x04200003, 0, .hgrow 3 1 2),
    (0x87c4, 0x00200007, 0, .hdone true 3 2),
    (0x87c5, 0x04000003, 0, .hres .rlo 3 1),
    (0x87c5, 0x0400000b, 0, .hres .rhi 3 1),
    (0x87c5, 0x04000013, 0, .hres .live 3 1),
    (0x87c5, 0x0400001b, 0, .hres .run 3 1),
    (0x87c5, 0x04000023, 0, .hres .flags 3 1),
    (0x87c5, 0x0400002b, 0, .hres .tol 3 1),
    (0x87c5, 0x04000033, 0, .hres .cap 3 1)] = true := by decide +kernel

/-! ### A small state

One strand of one crew on Wide core 0, in VF 0 and partition 0, whose memory is mapped one to one. -/

def tDecl : Decl := { entry := 0x10001, vheld := 16, tdecl := 4, zdecl := 4, quota := 256, spbytes := 4096, nsb := 4, llbytes := 256 }

def tCrew : Crew :=
  { grid := 0, decl := tDecl, state := .resident, sids := [16], bands := [(0, 1)], freeRows := List.replicate 16 ([], false) }

def tGrid : Grid := { state := .ready, decl := tDecl, lrec := { crews := 1, flags := 1 }, dispatched := 1 }

def tMe : Strand :=
  { crew := 1, run := .running, pc := 0x10001, vheld := 16, tdecl := 4, zdecl := 4, vl := 4, trapvec := 0x20001
    regs := [(1, 0x10080), (2, 5), (3, 3), (4, 64), (5, 0x10100)] }

def tS : State :=
  { cur := 16, me := tMe, crews := [(1, tCrew)], grids := [(0, tGrid)], nextCrew := 2, nextGrid := 1
    parts := [(0, { en := true, stop := false, chmask := 1 })], assigns := [(0, { own0 := 0 })]
    vfs := [(0, { en := true, part := 0, s2root := 0x1000, s1root := 0x4000 })], mem := identityTables [] }

/-- The small state with another strand, crew or grid. -/
def tM (f : Strand → Strand) : State := { tS with me := f tMe }
def tC (f : Crew → Crew) : State := { tS with crews := [(1, f tCrew)] }
def tG (f : Grid → Grid) : State := { tS with grids := [(0, f tGrid)] }
/-- The small state with an event at hand. -/
def tE (e : Event) : State := { tS with input := some e }

theorem readable_of {s : State} {rs : List SReg} (h : s.me.pend = []) (hp : s.me.spois = []) : Readable s rs := by
  constructor
  · intro _ r _ _ p hmem; rw [h] at hmem; cases hmem
  · intro r _; rw [hp]; simp

theorem handled_of {s : State} (h : s.me.trapon = false) (hv : bitsOf s.me.trapvec 5 0 ≠ 0)
    (hr : s.me.run ≠ .halted := by exact (show RunState.running ≠ .halted by decide)) (hq : s.me.viq = [] := by rfl)
    (hl : s.landing s.cur = false := by rfl) : Handled s := ⟨h, hv, hr, hq, hl⟩

theorem vecReady_of {s : State} (h : s.me.onSteward = false) (hl : lazyOwner s = none) (hp : s.me.vpois = []) (hd : s.deferred = false)
    (hq : s.me.viq = [] := by rfl) (ho : s.me.vop = none := by rfl) : VecReady s := ⟨h, hl, hp, hd, hq, ho⟩

theorem readable_tS (rs : List SReg) : Readable tS rs := readable_of rfl rfl
theorem handled_tS : Handled tS := handled_of rfl (by decide)
theorem vecReady_tS : VecReady tS := vecReady_of rfl rfl rfl rfl

/-- The places of pieces, and whether every piece has one that can be reached. -/
def tPlaces (s : State) (spc : Spc) (acc : Acc) (po : Bool) (ps : List Piece) : Machine.Placed :=
  ps.filterMap fun p => match judge s spc acc po p with
    | .ok w => some (p, w)
    | _ => none

def allPlaced (s : State) (spc : Spc) (acc : Acc) (po : Bool) (ps : List Piece) : Bool :=
  ps.all fun p => match judge s spc acc po p with
    | .ok (.cell k) => lostDevice s k = none
    | _ => false

theorem placed_of {s : State} {spc : Spc} {acc : Acc} {po : Bool} {ps : List Piece} (h : allPlaced s spc acc po ps = true) :
    Spec.Placed s spc acc po ps (tPlaces s spc acc po ps) := by
  induction ps with
  | nil => exact ⟨rfl, by simp [tPlaces]⟩
  | cons p ps ih =>
    simp only [allPlaced, List.all_cons, Bool.and_eq_true] at h
    obtain ⟨h1, h2⟩ := h
    have ih := ih h2
    split at h1
    · rename_i k hk
      have he : tPlaces s spc acc po (p :: ps) = (p, .cell k) :: tPlaces s spc acc po ps := by simp [tPlaces, hk]
      rw [he]
      refine ⟨by simp [ih.1], ?_⟩
      intro e hmem
      rcases List.mem_cons.mp hmem with rfl | hmem
      · exact ⟨hk, fun j hj => by cases hj; simpa using h1⟩
      · exact ih.2 e hmem
    · exact absurd h1 (by simp)

theorem no_sectors {s : State} {spc : Spc} {acc : Acc} {po : Bool} {ps : List Piece} (h : allPlaced s spc acc po ps = true) (c : Ctx) (u : State) :
    decodeInto c ((tPlaces s spc acc po ps).flatMap fun p => p.2.sectors p.1.n) u = .ok u := by
  have : ((tPlaces s spc acc po ps).flatMap fun p => p.2.sectors p.1.n) = [] := by
    induction ps with
    | nil => rfl
    | cons p ps ih =>
      simp only [allPlaced, List.all_cons, Bool.and_eq_true] at h
      obtain ⟨h1, h2⟩ := h
      split at h1
      · rename_i k hk
        have he : tPlaces s spc acc po (p :: ps) = (p, .cell k) :: tPlaces s spc acc po ps := by simp [tPlaces, hk]
        rw [he, List.flatMap_cons, ih h2]; rfl
      · exact absurd h1 (by simp)
  rw [this]; rfl

theorem decode_none {c : Ctx} {l : List (Nat × Nat × Nat)} {u : State} (h : l = []) : decodeInto c l u = .ok u := by subst h; rfl

theorem cells_of {pw : Machine.Placed} (f : Piece → Nat → Prop) [∀ p k, Decidable (f p k)]
    (h : (pw.all fun p => match p.2 with
      | .cell k => decide (f p.1 k)
      | .plain .. => true) = true) : ∀ p ∈ pw, ∀ k, p.2 = .cell k → f p.1 k := by
  intro p hp k hk
  have := List.all_eq_true.mp h p hp
  rw [hk] at this
  exact of_decide_eq_true this

theorem witness_ScalarIntegerResult : ∃ x, Spec.alu (.add true 2 2 3) tS = some x ∧ Readable tS x.reads :=
  ⟨_, rfl, readable_tS _⟩

theorem witness_ScalarFloatResult : ∃ x, Spec.fpu (.fadd .f32 .frm true 2 2 3) tS = some x ∧ Readable tS x.reads :=
  ⟨_, rfl, readable_tS _⟩

theorem witness_TransferResult :
    (∃ x, Spec.jump (.beq 2 2 0x7FFF 1) tS = some x ∧ x.taken = true ∧ Readable tS x.reads)
    ∧ (∃ x, Spec.jump (.bne 2 2 0 1) tS = some x ∧ x.taken = false ∧ Readable tS x.reads)
    ∧ ∃ x, Spec.jump (.call 29 0 1) tS = some x ∧ x.link = some 29 ∧ Readable tS x.reads :=
  ⟨⟨_, rfl, rfl, readable_tS _⟩, ⟨_, rfl, rfl, readable_tS _⟩, ⟨_, rfl, rfl, readable_tS _⟩⟩

/-- A result of `s2` that is not delivered, under the checking scoreboard. -/
def tPend : State := tM fun m => { m with schk := true, pend := [⟨2, 7, 1, 0x10001⟩] }

theorem witness_StallShortTraps :
    ((∃ x, Spec.alu (.add false 1 3 2) tPend = some x ∧ [3, 2] = x.reads) ∨ (∃ x, Spec.fpu (.add false 1 3 2) tPend = some x ∧ [3, 2] = x.reads)
      ∨ ∃ x, Spec.jump (.add false 1 3 2) tPend = some x ∧ [3, 2] = x.reads)
    ∧ tPend.me.schk = true ∧ ([3, 2] : List SReg).find? (fun q => decide (q.val ≠ 0 ∧ ∃ w ∈ tPend.me.pend, w.reg = q)) = some 2
    ∧ tPend.me.pend.reverse.find? (fun w => w.reg = 2) = some ⟨2, 7, 1, 0x10001⟩ ∧ Handled tPend :=
  ⟨.inl ⟨_, rfl, rfl⟩, rfl, by decide, by decide, handled_of rfl (by decide)⟩

theorem witness_SystemRegisterRead :
    (tS.me.onSteward = false ∧ Spec.appReads 0x24 = true ∧ (vectorSys 1 = true → vown tS = none))
    ∧ tS.me.onSteward = false ∧ tS.me.priv = .app ∧ Spec.appReads 0x100 = false ∧ Handled tS := by
  exact ⟨⟨rfl, by decide, fun _ => rfl⟩, rfl, rfl, by decide, handled_tS⟩

theorem witness_SystemRegisterWrite :
    (tS.me.onSteward = false ∧ Readable tS [3] ∧ Spec.readOnly 4 = false ∧ Spec.appWrites 4 = true ∧ ∃ u, writeSys tS 4 (tS.rd 3) = some u)
    ∧ (Spec.readOnly 4 = false ∧ Spec.appWrites 4 = true ∧ writeSys tS 4 (tS.rd 2) = none ∧ Handled tS)
    ∧ Spec.readOnly 7 = true ∧ tS.me.priv = .app ∧ Spec.appWrites 1 = false ∧ vown tS = none :=
  ⟨⟨rfl, readable_tS _, by decide, by decide, _, rfl⟩, ⟨by decide, by decide, by decide, handled_tS⟩, by decide, rfl, by decide, rfl⟩

theorem witness_WriteRules :
    (∃ u, writeSys tS 0 0xE0 = some u) ∧ (5 : Word).toNat % 8 ≥ 5 ∧ (4 : Word).toNat % 8 < 5 :=
  ⟨⟨_, rfl⟩, by decide, by decide⟩

/-- The debugger holds the tenant, with stop-on-break. -/
def tDebug : State :=
  { tS with
    plat := { unlock := 1 }
    vfs := [(0, { en := true, part := 0, s2root := 0x1000, s1root := 0x4000, stopbrk := true })] }

theorem witness_SoftwareTraps :
    (Spec.softTrap (.sysc 2047) tS [] { cause := .syscall, detail := 2047 } ∧ Spec.softTrap (.brk 15) tS [] { cause := .brk, detail := 15 }
      ∧ Spec.softTrap (.trap 2 1 0xFFFF) tS [2] { cause := .illegalInsn, detail := 65535 } ∧ Readable tS [2] ∧ Handled tS)
    ∧ ((9 : SReg).val ≠ 0 ∧ Readable tS [9] ∧ tS.rd 9 = 0) ∧ stopsOnBreak tDebug = true :=
  ⟨⟨⟨rfl, rfl⟩, ⟨rfl, rfl, by decide⟩, ⟨rfl, .inr (by decide), rfl, rfl⟩, readable_tS _, handled_tS⟩,
    ⟨by decide, readable_tS _, by decide⟩, by decide⟩

/-- In a handler, with a line of one head at the trapping PC. -/
def tHandler : State :=
  { tS with
    me := { tMe with trapon := true, priv := .sup, trappc := 0x10001 }
    mem := putBytes (identityTables []) (frameKey 0 0x10000) [0, 8] }

theorem witness_TrapReturn :
    (tHandler.me.trapon = true ∧ tHandler.me.priv ≠ .app
      ∧ ∃ hs, fetchLine tHandler (tHandler.me.trappc.toNat / 64 * 64) = .line hs ∧ headCount hs = 1)
    ∧ tS.me.trapon = false ∧ Handled tS := by
  refine ⟨⟨rfl, by decide, (match fetchLine tHandler 0x10000 with | .line hs => hs | _ => []), by decide +kernel, by decide +kernel⟩, rfl, handled_tS⟩

/-- With an instruction in the queue. -/
def tQueued (i : Instr) : State := tM fun m => { m with viq := [{ instr := i, entered := 0 }] }

theorem witness_UnhandledTraps :
    (tQueued (.vmovImm .dflt 1 2 0)).me.viq ≠ []
    ∧ (∃ s : State, s.me.viq = [] ∧ s.landing s.cur = false ∧ s.me.trapon = true ∧ s.me.run ≠ .halted ∧ s.me.onSteward = false
      ∧ s.myCrew.state ≠ .ended ∧ s.cur ∈ s.myCrew.sids)
    ∧ (∃ (s : State) (x : Trap), s.me.viq = [] ∧ s.landing s.cur = false ∧ s.me.trapon = false ∧ s.me.trapvec.toNat % 64 = 0 ∧ x.cause = .poison
      ∧ x.lanes ≠ 0)
    ∧ (∃ (s : State) (x : Trap), s.me.viq = [] ∧ s.landing s.cur = false ∧ s.me.run = .halted ∧ x.cause = .poison ∧ x.lanes ≠ 0)
    ∧ ∃ (s : State) (x : Trap), s.me.viq = [] ∧ s.landing s.cur = false ∧ s.me.trapon = false ∧ s.me.trapvec.toNat % 64 = 0 ∧ x.cause ≠ .poison
      ∧ s.me.onSteward = false ∧ s.myCrew.state ≠ .ended :=
  ⟨by decide, ⟨tHandler, by decide⟩, ⟨tM fun m => { m with trapvec := 64 }, { cause := .poison, lanes := 1 }, by decide +kernel⟩,
    ⟨tM fun m => { m with run := .halted }, { cause := .poison, lanes := 1 }, by decide +kernel⟩, tM fun m => { m with trapvec := 64 }, { cause := .syscall }, by decide⟩

theorem witness_StoppingAndWaiting :
    Readable tS [0] ∧ (tM fun m => { m with stopReq := true }).me.stopReq = true ∧ tS.me.stopReq = false
    ∧ tS.me.onSteward = false ∧ tS.me.wait = none ∧ tS.me.index < 32 ∧ twf 0 tS.myCrew.bands = true :=
  ⟨readable_tS _, rfl, rfl, rfl, rfl, by decide, by decide⟩

/-- A Steward program. -/
def tSteward : State := tM fun m => { m with core := 417, priv := .hyp, trapvec := 0 }

theorem witness_StewardStops :
    tSteward.me.onSteward = true ∧ tSteward.me.viq = [] ∧ tSteward.landing tSteward.cur = false ∧ tSteward.me.trapvec.toNat % 64 = 0 ∧ Cause.syscall ≠ .poison := by
  decide

theorem witness_BandMembership : tS.me.onSteward = false ∧ tS.me.wait = none ∧ (31 : SReg) ≠ 0 ∧ tS.me.index < 16 := by decide

/-- With a store of core 0 that another device has not acknowledged. -/
def tUnacked : State := { tS with rstores := [⟨0, 16, 3, 0, 0x10080, [], 0, none⟩] }

theorem witness_Barriers :
    (tS.me.onSteward = false ∧ tS.me.run = .running ∧ tS.me.wait = none ∧ tS.me.index < 32 ∧ tS.myCrew.sids[tS.me.index]? = some tS.cur
      ∧ (tget 0 tS.myCrew.bands 0).getLsbD tS.me.index = true ∧ (tget 0 tS.myCrew.bands 15).getLsbD tS.me.index = false ∧ Handled tS)
    ∧ (let s := { tS with crews := [(1, { tCrew with sids := [16, 17], bands := [(0, 3)] })], others := [(17, { crew := 1, index := 1, run := .running })] }
       ((List.range s.myCrew.sids.length).filter fun j => j ≠ s.me.index && (tget 0 s.myCrew.bands 0).getLsbD j
          && running s (s.myCrew.sids.getD j 0)).any (fun j => !(tget 0 s.myCrew.arrived 0).getLsbD j) = true)
    ∧ (tS.myGrid.lrec.cores = true ∧ (∀ x ∈ (drainCore tS.me.core tS).rstores, x.core ≠ tS.me.core))
    ∧ (tUnacked.myGrid.lrec.cores = true ∧ ∃ x ∈ (drainCore tUnacked.me.core tUnacked).rstores, x.core = tUnacked.me.core)
    ∧ (tS.myGrid.dispatched = tS.myGrid.lrec.crews ∧ ∀ e ∈ tS.crews, e.2.grid = tS.myCrew.grid → e.2.state ≠ .ended →
        ∀ sid ∈ e.2.sids, running tS sid = true → sid = tS.cur ∨ sid ∈ tS.myGrid.arrived)
    ∧ (tG fun g => { g with dispatched := 0 }).myGrid.dispatched ≠ 1
    ∧ (tG fun g => { g with lrec := { crews := 1 } }).myGrid.lrec.cores = false := by
  refine ⟨⟨rfl, rfl, rfl, by decide, rfl, by decide, by decide, handled_tS⟩, by decide, by decide, by decide, by decide, by decide, by decide⟩

theorem witness_RegisterPool :
    (tS.me.onSteward = false ∧ vown tS = none ∧ tS.me.wait = none ∧ tS.me.vheld + 2 ≤ 64 ∧ 2 * rowsPer tS.myCrew.decl ≤ tS.myCrew.decl.quota
      ∧ tS.myCrew.claims = [] ∧ 2 * rowsPer tS.myCrew.decl ≤ tS.myCrew.freeRows.length)
    ∧ (tS.me.vheld + 3 ≤ 64 ∧ 3 * rowsPer tS.myCrew.decl ≤ tS.myCrew.decl.quota ∧ tS.myCrew.freeRows.length < 3 * rowsPer tS.myCrew.decl)
    ∧ (tS.me.vheld + 49 > 64 ∧ Handled tS)
    ∧ (tS.me.vheld + 33 ≤ 64 ∧ 33 * rowsPer tS.myCrew.decl > tS.myCrew.decl.quota)
    ∧ (16 ≤ tS.me.vheld ∧ tS.me.viq.all (·.namesAbove 0) = true)
    ∧ ((tQueued (.vmovImm .dflt 1 2 0)).me.viq.all (·.namesAbove 2) = false ∧ (tQueued (.vmovImm .dflt 15 2 0)).me.viq.all (·.namesAbove 15) = true)
    ∧ tS.me.vheld < 17 :=
  ⟨⟨rfl, rfl, rfl, by decide, by decide, by decide, by decide⟩, by decide, ⟨by decide, handled_tS⟩, by decide, by decide, by decide, by decide⟩

/-- An open device queue, with a launch record of one crew at 0x10080. -/
def tQueue : State :=
  { tS with
    mem := putBytes (identityTables []) (frameKey 0 0x10080) (List.replicate 24 0 ++ [1])
    queues := [(5, { qbase := 0x20000, dev := true, en := true })] }

theorem witness_QueryAndLaunch :
    (tS.me.onSteward = false ∧ Readable tS [0] ∧ (tS.ea 0 4080).toNat % 16 = 0 ∧ (tS.ea 0 4080).toNat + 16 ≤ tS.myCrew.decl.spbytes
      ∧ (tS.myCrew.queries.filter (·.sid = tS.cur)).length < 2)
    ∧ (∃ k, (tQueue.ea 1 0).toNat % 128 = 0 ∧ translate tQueue tQueue.ctx .rd (tQueue.ea 1 0).toNat = .ok (.cell k)
      ∧ (let u := drainCore tQueue.me.core tQueue
         (∀ x ∈ u.rstores, x.core ≠ tQueue.me.core) ∧ lostDevice u k = none ∧ u.poisonedFor tQueue.me.core k 128 = false)
      ∧ (let q := tQueue.queue (tQueue.rd 2).toNat
         ((tQueue.rd 2).toNat < 512 ∧ q.dev = true ∧ q.en = true ∧ q.vf = tQueue.ctx.vf ∧ q.part = tQueue.ctx.part)
          ∧ postCheck (parseRec (State.viewBytes (drainCore tQueue.me.core tQueue) tQueue.me.core k 128)) = 0 ∧ queueFull q = false
          ∧ ∃ kq, let v := touch k (drainCore tQueue.me.core tQueue)
            lostTier2 v kq = false ∧ translate v { v.ctx with app := false } .wr (slotAddr q q.widx.toNat) = .ok (.cell kq)))
    ∧ ¬ ((tQueue.queue 512).dev = true)
    ∧ postCheck (parseRec (tQueue.viewBytes tQueue.me.core (frameKey 0 0x11000) 128)) ≠ 0
    ∧ queueFull { dev := true, en := true, lsize := 4, widx := 16 } = true := by
  refine ⟨⟨rfl, readable_tS _, by decide, by decide, by decide⟩, ⟨frameKey 0 0x10080, by decide +kernel, by decide +kernel, ⟨by decide +kernel, by decide +kernel, by decide +kernel⟩, by decide +kernel, by decide +kernel, by decide +kernel, frameKey 0 0x20000, by decide +kernel, by decide +kernel⟩, by decide +kernel, by decide +kernel, by decide +kernel⟩

/-- A supervisor without vector registers, whose image stands at 0x10080: VL 4, VTYPE 0x2002, length 3392. -/
def tImage : State :=
  let k := frameKey 0 0x10080
  { tS with
    me := { tMe with priv := .sup, vheld := 0 }
    mem := identityTables [] ++ [(k, 4), (k + 8, 2), (k + 9, 0x20), (k + 56, 0x40), (k + 57, 0x0D)] }

theorem length_maskBytes (m : Mask) : (maskBytes m).length = 128 := length_leBytes _ _

theorem length_image : (vectorImage tImage.me 0 0).length = 3392 := by
  have h : tImage.me.vheld = 0 := rfl
  have hs : tImage.me.mstack = [] := rfl
  unfold vectorImage
  simp [h, hs, length_maskBytes, zeros, List.length_flatMap, List.map_const']

def tPages : List (Nat × Nat) := [(0x10000, frameKey 0 0x10000)]

theorem image_bytes : readRange tImage tPages 0x10080 3392 = tImage.viewBytes 0 (frameKey 0 0x10080) 3392 := by
  unfold readRange tPages
  rw [List.flatMap_cons, List.flatMap_nil, List.append_nil, if_pos (by decide)]
  rfl

theorem image_field : field (readRange tImage tPages 0x10080 3392) =
    fun o n => leVal (tImage.viewBytes 0 (frameKey 0 0x10080 + o) (min n (3392 - o))) := by
  funext o n
  rw [image_bytes, field, take_drop_viewBytes]

theorem witness_VectorContext :
    (tImage.me.onSteward = false ∧ tImage.me.priv ≠ .app ∧ Readable tImage [1] ∧ lazyOwner tImage = none ∧ (tImage.ea 1 0).toNat % 64 = 0
      ∧ tImage.me.vpois = [] ∧ (vectorImage tImage.me 0 0).length = 3392
      ∧ pagesOf tImage tImage.ctx .wr 0x10080 (pageCount 0x10080 3392) = .ok tPages ∧ isGeneric (frameKey 0 0x10000) = true
      ∧ isGeneric (frameKey 0 0x10000 + 65536) = true)
    ∧ (tImage.me.wait = none ∧ ∀ c ∈ tImage.myCrew.claims, c.sid ≠ tImage.cur)
    ∧ pagesOf tImage tImage.ctx .rd 0x10080 (pageCount 0x10080 3392) = .ok tPages ∧ rangePoison tImage tPages 0x10080 3392 = none
    ∧ (let img := readRange tImage tPages 0x10080 3392
       bits (field img 24 8) 47 41 = 0 ∧ bits (field img 24 8) 32 31 = 0 ∧ imageLen 0 256 = 3392
        ∧ imageCheck tImage.me tImage.myCrew.index (gridId tImage.myGrid tImage.myCrew.grid)
          (tImage.myCrew.freeRows.length + tImage.me.vheld * rowsPer tImage.myCrew.decl) img = 0) := by
  refine ⟨⟨rfl, by decide, readable_of rfl rfl, rfl, by decide, rfl, length_image, by decide +kernel, by decide +kernel, by decide +kernel⟩,
    ⟨rfl, by decide⟩, by decide +kernel, by decide +kernel, ?_⟩
  unfold imageCheck
  simp only [image_field]
  decide +kernel

/-- The device monitor, no crew resident, every dispatch stopped; `s1` names cluster 71. -/
def tScrub : State :=
  { tS with
    me := { tMe with core := 416, priv := .hyp, regs := [(1, 0x8047)] }, crews := [(1, { tCrew with state := .ended })]
    parts := [(0, { en := true, stop := true, chmask := 1 })] }

theorem witness_ScrubZeroes :
    (Readable tScrub [1] ∧ tScrub.me.priv = .hyp ∧ (tScrub.rd 1).toNat = 2 ^ 15 + 71 ∧ (∀ e ∈ tScrub.crews, e.2.state = .ended ∧ e.2.lazy = false)
      ∧ (∀ x ∈ coresOf 71, ∀ p ∈ ownersOf tScrub x none, p ≥ 64 ∨ (tScrub.part p).stop = true))
    ∧ (∀ x, x = 0 ∨ x = 2 ^ 15 → let s := tM fun m => { m with priv := .hyp, regs := [(1, word x)] }
      Readable s [1] ∧ s.me.priv = .hyp ∧ (s.rd 1).toNat = x ∧ ∃ e ∈ s.crews, e.2.state = .resident ∧ e.2.core = 0 ∧ e.2.core ∈ coresOf 0
        ∧ ((s.assign 0).split = true → e.2.half = false))
    ∧ (let s := { tScrub with me := { tScrub.me with regs := [(1, 415)] } }
       (s.rd 1).toNat = 415 ∧ (∀ e ∈ s.crews, e.2.state = .ended ∧ e.2.lazy = false) ∧ ∀ p ∈ ownersOf s 415 none, p ≥ 64 ∨ (s.part p).stop = true)
    ∧ (0x10080 : Word).toNat / 2 ^ 16 ≠ 0 ∧ tS.me.priv ≠ .hyp ∧ Handled tS := by
  refine ⟨⟨readable_of rfl rfl, rfl, by decide, by decide, by decide⟩, ?_, by decide, by decide, by decide, handled_tS⟩
  rintro x (rfl | rfl) <;> exact ⟨readable_of rfl rfl, rfl, by decide, (1, tCrew), by decide⟩

theorem witness_LaneResult :
    (∃ x, Spec.vec (.vadd .i32 true 1 15 (.scal 2) 0) tS = some x ∧ VecReady tS ∧ Readable tS x.reads ∧ tS.me.badTy x.ty x.accepts = false
      ∧ x.immOk (tS.me.elemTy x.ty) = true ∧ Held tS (tS.me.elemTy x.ty) (x.dst :: x.names))
    ∧ (let s := tM fun m => { m with vtype := ⟨.fault, .b16, .int64⟩ }
       ∃ x, Spec.vec (.vmulImm .i64 14 2 0xFFFFFFFF 0) s = some x ∧ s.me.badTy x.ty x.accepts = false ∧ Held s (s.me.elemTy x.ty) (x.dst :: x.names))
    ∧ (let s := tM fun m => { m with vtype := ⟨.fault, .b16, .fp16⟩ }
       ∃ x, Spec.vec (.vfaddImm .f16 .frm 1 2 0x3C00 0) s = some x ∧ s.me.badTy x.ty x.accepts = false ∧ x.immOk (s.me.elemTy x.ty) = true
        ∧ Held s (s.me.elemTy x.ty) (x.dst :: x.names)) :=
  ⟨⟨_, rfl, vecReady_tS, readable_tS _, by decide, by decide, by unfold Held; decide⟩, ⟨_, rfl, by decide, by unfold Held; decide⟩,
    ⟨_, rfl, by decide, by decide, by unfold Held; decide⟩⟩

theorem witness_ConversionResult :
    Ty.i8 ≠ .lns6 ∧ Ty.i8 ≠ .dflt ∧ Ty.i64 ≠ .dflt ∧ VecReady tS ∧ Readable tS (Spec.modeReads .sat) ∧ Held tS .i8 [15] ∧ Held tS .i64 [14]
    ∧ ∀ v ∈ Spec.modeNames .sat, v.val < tS.me.vheld := by
  refine ⟨by decide, by decide, by decide, vecReady_tS, readable_tS _, ?_, ?_, ?_⟩ <;> (try unfold Held) <;> decide

/-- Under LNS6. -/
def tLns : State := tM fun m => { m with vtype := ⟨.fault, .b16, .lns6⟩, vl := 16 }

theorem witness_LnsResult :
    (∃ x, Spec.lns (.vlmulGiven .lns6 (.scal 31) 1 2 15 0) tLns = some x ∧ Spec.lnsTyped (.vlmulGiven .lns6 (.scal 31) 1 2 15 0) tLns = true
      ∧ VecReady tLns ∧ Readable tLns x.reads ∧ ∀ v ∈ x.dst :: x.names, v.val < tLns.me.vheld)
    ∧ ∃ x, Spec.lns (.vcvt .lns6 .f32 .own 1 15 0) tLns = some x ∧ Spec.lnsTyped (.vcvt .lns6 .f32 .own 1 15 0) tLns = true
      ∧ (∀ v ∈ x.dst :: x.names, v.val < tLns.me.vheld) ∧ ∀ v ∈ regsOf .f32 15, v < tLns.me.vheld :=
  ⟨⟨_, rfl, by decide, vecReady_of rfl rfl rfl rfl, readable_of rfl rfl, by decide⟩, ⟨_, rfl, by decide, by decide, by decide⟩⟩

theorem witness_SelectResult :
    (VecReady tS ∧ tS.me.badTy .i32 anyTy = false ∧ tS.me.elemTy .i32 ≠ .lns6 ∧ Readable tS (Spec.scalarNames (.scal 2))
      ∧ Held tS .i32 ([1, 2] ++ Spec.secondNames (Spec.second tS (.scal 2))))
    ∧ (VecReady tLns ∧ tLns.me.badTy .lns6 anyTy = false ∧ tLns.me.elemTy .lns6 = .lns6 ∧ Held tLns .lns6 [1, 2, 15] ∧ Held tLns .lns6 [1, 2]
      ∧ Held tLns .lns6 [1] ∧ Readable tLns [2])
    ∧ (let lanes := tLns.me.lanesOf tLns.me.top
       0 ∈ lanes ∧ tLns.me.scale 1 0 = tLns.me.scale 2 0)
    ∧ (0xFF3F : Imm).toNat < 2 ^ 16 ∧ bits (0xFF3F : Imm).toNat 7 6 = 0 :=
  ⟨⟨vecReady_tS, by decide, by decide, readable_tS _, by unfold Held; decide⟩,
    ⟨vecReady_of rfl rfl rfl rfl, by decide, by decide, by unfold Held; decide, by unfold Held; decide, by unfold Held; decide, readable_of rfl rfl⟩,
    by decide +kernel, by decide⟩

theorem witness_CompareResult :
    (VecReady tS ∧ Readable tS [] ∧ tS.me.badTy .i32 anyTy = false ∧ (VCc.lt = .un → isInt (tS.me.elemTy .i32) = false)
      ∧ Held tS (tS.me.elemTy .i32) (2 :: Spec.secondNames (Spec.second tS (.vec 15))))
    ∧ (let s := tM fun m => { m with vtype := ⟨.fault, .b16, .fp32⟩ }
       s.me.badTy .f32 anyTy = false ∧ isInt (s.me.elemTy .f32) = false ∧ badImm (s.me.elemTy .f32) 0x7FC00000 = false
        ∧ Held s (s.me.elemTy .f32) [2]) :=
  ⟨⟨vecReady_tS, readable_tS _, by decide, by decide, by unfold Held; decide⟩, by decide, by decide, by decide, by unfold Held; decide⟩

theorem witness_MaskResult :
    VecReady tS ∧ (∃ d a b f, Spec.logical (.mxor 7 1 2) = some (d, a, b, f)) ∧ ∃ d m v, Spec.vote (.mpop 1 7 0) tS = some (d, m, v) :=
  ⟨vecReady_tS, ⟨_, _, _, _, rfl⟩, ⟨_, _, _, rfl⟩⟩

/-- A mask stack of `n` entries. -/
def tStack (n : Nat) : State := tM fun m => { m with mstack := List.replicate n ⟨5, ⟨.fault, .b16, .int16⟩⟩ }

theorem witness_MaskStack :
    ((tStack 15).me.onSteward = false ∧ lazyOwner (tStack 15) = none ∧ (tStack 15).me.vop = none ∧ (tStack 15).me.mstack.length < 16)
    ∧ (16 ≤ (tStack 16).me.mstack.length ∧ Handled (tStack 16))
    ∧ (∃ e rest, (tStack 2).me.mstack = e :: rest ∧ rest ≠ []) ∧ (∃ e, (tStack 1).me.mstack = [e]) ∧ (tStack 0).me.mstack = [] :=
  ⟨⟨rfl, rfl, rfl, by decide⟩, ⟨by decide, handled_of rfl (by decide)⟩, ⟨_, _, rfl, by simp⟩, ⟨_, rfl⟩, rfl⟩

theorem witness_VectorLength :
    (tS.me.onSteward = false ∧ lazyOwner tS = none ∧ Readable tS [2])
    ∧ (∀ k, k = 0 ∨ k = 63 → let s := tM fun m => { m with regs := [(1, word (vtypeCode ⟨.clamp, .b64, .lns6⟩ + 16 * k))] }
      Readable s [1] ∧ (s.rd 1).toNat = vtypeCode ⟨.clamp, .b64, .lns6⟩ + 16 * k)
    ∧ ((∀ (vt : VType) (k : Nat), k < 64 → ((tM fun m => { m with regs := [(1, 2 ^ 14)] }).rd 1).toNat ≠ vtypeCode vt + 16 * k) ∧ Handled (tM fun m => { m with regs := [(1, 2 ^ 14)] })) := by
  refine ⟨⟨rfl, rfl, readable_tS _⟩, ?_, ?_, handled_of rfl (by decide)⟩
  · rintro k (rfl | rfl) <;> exact ⟨readable_of rfl rfl, by decide⟩
  · rintro ⟨o, b, f⟩ k hk
    have hr : ((tM fun m => { m with regs := [(1, 2 ^ 14)] }).rd 1).toNat = 16384 := by decide
    have hv : vtypeCode ⟨o, b, f⟩ < 15360 := by cases o <;> cases b <;> cases f <;> decide
    omega

theorem witness_PermuteResult :
    ∃ x, Spec.perm (.vslideup .i32 1 2 3 0) tS = some x ∧ VecReady tS ∧ Readable tS x.reads ∧ tS.me.badTy x.ty anyTy = false
      ∧ Held tS (tS.me.elemTy x.ty) [x.dst, x.src] ∧ ∀ v ∈ x.names, v.val < tS.me.vheld :=
  ⟨_, rfl, vecReady_tS, readable_tS _, by decide, by unfold Held; decide, by decide⟩

theorem witness_PackAndMove :
    (VecReady tS ∧ tS.me.badTy .i32 anyTy = false ∧ Held tS (tS.me.elemTy .i32) [1, 2] ∧ (15 : VReg).val < tS.me.vheld ∧ (15 : VReg) ≠ 1
      ∧ (isPair (tS.me.elemTy .i32) = true → (15 : VReg).val ≠ (1 : VReg).val + 1))
    ∧ (tS.me.badTy .i32 isInt = false ∧ Held tS (tS.me.elemTy .i32) [1])
    ∧ (Readable tS [3] ∧ (tS.rd 3).toNat < tS.me.vl ∧ tS.me.deadmask.getLsbD 3 = false ∧ Readable tS (2 :: [3])) ∧ ¬ (tS.rd 2).toNat < tS.me.vl := by
  refine ⟨⟨vecReady_tS, by decide, ?_, by decide, by decide, by decide⟩, ⟨by decide, ?_⟩, ⟨readable_tS _, by decide, by decide +kernel, readable_tS _⟩, by decide⟩ <;>
    unfold Held <;> decide

theorem witness_ReductionResult :
    (∃ op t d a b m, Spec.reduction (.vredsum .i32 1 15 2 0) = some (op, t, d, a, b, m) ∧ VecReady tS ∧ Readable tS [b]
      ∧ tS.me.badTy t anyTy = false ∧ Held tS (tS.me.elemTy t) [a] ∧ isInt (tS.me.elemTy t) = true)
    ∧ (let s := tM fun m => { m with vtype := ⟨.fault, .b16, .fp32⟩, vl := 0 }
       s.me.badTy .f32 anyTy = false ∧ isInt (s.me.elemTy .f32) = false ∧ Held s (s.me.elemTy .f32) [15] ∧ s.me.lanes 0 = []) := by
  refine ⟨⟨_, _, _, _, _, _, rfl, vecReady_tS, readable_tS _, by decide, by unfold Held; decide, by decide⟩, by decide, by decide, by unfold Held; decide, by decide +kernel⟩

/-- The address 0x10080 in memory. -/
def tK : Nat := frameKey 0 0x10080

/-- A page of the partition's register space in the monitor's tables. -/
def tCasien : State := tM fun m => { m with core := 416, priv := .hyp, regs := [(1, 0xFFFFFF8000000000)] }

theorem witness_registers :
    (∃ x, Spec.scalarLoad (.ld .d true false false .strand 2 1) = some x ∧ Readable tCasien [x.base] ∧ (Spec.effective tCasien x.base x.off).toNat % 8 = 0
      ∧ x.sp = false ∧ x.wd = .d ∧ ∃ sp off, translate tCasien tCasien.ctx .rd (Spec.effective tCasien x.base x.off).toNat = .ok (.reg sp off))
    ∧ ∃ x, Spec.scalarStore (.st .d false false .strand 1 2) = some x ∧ Readable tCasien [x.base, x.reg]
      ∧ (Spec.effective tCasien x.base x.off).toNat % 8 = 0 ∧ x.sp = false ∧ x.wd = .d ∧ (x.ord && wideScope x.sc) = false
      ∧ ∃ sp off, translate tCasien tCasien.ctx .wr (Spec.effective tCasien x.base x.off).toNat = .ok (.reg sp off) :=
  ⟨⟨_, rfl, readable_of rfl rfl, by decide, rfl, rfl, .hyp, 0, by decide +kernel⟩,
    ⟨_, rfl, readable_of rfl rfl, by decide, rfl, rfl, by decide, .hyp, 0, by decide +kernel⟩⟩

theorem witness_ScalarLoadResult :
    (∃ x, Spec.scalarLoad (.ldImm .d true true true .crew 2 0 4088) = some x ∧ Readable tS [x.base] ∧ (Spec.effective tS x.base x.off).toNat % 8 = 0
      ∧ x.sp = true ∧ (Spec.effective tS x.base x.off).toNat + 8 ≤ tS.myCrew.decl.spbytes ∧ tS.poisoned (tS.csp 4088) 8 = false)
    ∧ ∃ x, Spec.scalarLoad (.ld .w false false true .device 2 1) = some x ∧ Readable tS [x.base] ∧ (Spec.effective tS x.base x.off).toNat % 4 = 0
      ∧ x.sp = false ∧ translate tS tS.ctx .rd (Spec.effective tS x.base x.off).toNat = .ok (.cell tK) ∧ lostDevice tS tK = none
      ∧ tS.poisonedFor tS.me.core tK 4 = false :=
  ⟨⟨_, rfl, readable_tS _, by decide, rfl, by decide, by decide +kernel⟩, ⟨_, rfl, readable_tS _, by decide, rfl, by decide +kernel, by decide +kernel, by decide +kernel⟩⟩

theorem witness_ScalarStoreResult :
    (∃ x, Spec.scalarStore (.stImm .h true true .crew 0 2 4094) = some x ∧ Readable tS [x.base, x.reg] ∧ (Spec.effective tS x.base x.off).toNat % 2 = 0
      ∧ x.sp = true ∧ (Spec.effective tS x.base x.off).toNat + 2 ≤ tS.myCrew.decl.spbytes)
    ∧ (∃ x, Spec.scalarStore (.st .d false true .domain 1 2) = some x ∧ (Spec.effective tS x.base x.off).toNat % 8 = 0
      ∧ (x.ord && wideScope x.sc) = true ∧ domainScope x.sc = true ∧ (tS.linkFail = [] ∧ ∀ p ∈ (drainCore tS.me.core tS).rstores, p.core ≠ tS.me.core)
      ∧ x.sp = false ∧ translate tS tS.ctx .wr (Spec.effective tS x.base x.off).toNat = .ok (.cell tK) ∧ tK + 8 ≤ 2 ^ 63)
    ∧ (∃ x, Spec.scalarStore (.stImm .h true true .device 0 2 4094) = some x ∧ (x.ord && wideScope x.sc) = true ∧ domainScope x.sc = false ∧ x.sp = true
      ∧ ∃ p ∈ (drainCore tUnacked.me.core tUnacked).rstores, p.core = tUnacked.me.core)
    ∧ ∃ x, Spec.scalarStore (.st .d false false .strand 1 2) = some x ∧ (x.ord && wideScope x.sc) = false :=
  ⟨⟨_, rfl, readable_tS _, by decide, rfl, by decide⟩,
    ⟨_, rfl, by decide, by decide, by decide, ⟨rfl, by decide +kernel⟩, rfl, by decide +kernel, by decide +kernel⟩,
    ⟨_, rfl, by decide, by decide, rfl, by decide +kernel⟩, ⟨_, rfl, by decide⟩⟩

theorem witness_ScalarAccessTraps :
    (∃ x, Spec.scalarLoad (.ldImm .w false false false .strand 2 0 4095) = some x ∧ Readable tS [x.base] ∧ Handled tS
      ∧ (Spec.effective tS x.base x.off).toNat % 4 ≠ 0)
    ∧ (∃ x, Spec.scalarStore (.stImm .w true false .strand 0 2 4096) = some x ∧ Readable tS [x.base, x.reg]
      ∧ (Spec.effective tS x.base x.off).toNat % 4 = 0 ∧ x.sp = true ∧ (Spec.effective tS x.base x.off).toNat + 4 > tS.myCrew.decl.spbytes)
    ∧ ∃ x c r, Spec.scalarLoad (.ldImm .b false false false .strand 2 0 0xFFFFFFFF) = some x ∧ x.sp = false
      ∧ translate tS tS.ctx .rd (Spec.effective tS x.base x.off).toNat = .fault c r none := by
  refine ⟨⟨_, rfl, readable_tS _, handled_tS, by decide⟩, ⟨_, rfl, readable_tS _, by decide, rfl, by decide⟩, ⟨_, .pageFault, 0, rfl, rfl, by decide +kernel⟩⟩

theorem witness_AtomicResult :
    ((tS.rd 1).toNat % 8 = 0 ∧ Readable tS [1, 2] ∧ translate tS tS.ctx .rw (tS.rd 1).toNat = .ok (.cell tK) ∧ tK < 2 ^ 62
      ∧ tS.poisonedFor tS.me.core tK 8 = false ∧ lostTier2 tS tK = false ∧ (∀ p ∈ (drainCore tS.me.core tS).rstores, p.core ≠ tS.me.core))
    ∧ ∃ op b, Instr.amo .add true .ar 2 1 2 = .amo op true .ar 2 1 b :=
  ⟨⟨by decide, readable_tS _, by decide +kernel, by decide +kernel, by decide +kernel, by decide +kernel, by decide +kernel⟩, _, _, rfl⟩

theorem witness_FencesAndStash :
    (domainScope .system = true ∧ tS.linkFail.find? (·.1 = tS.cur) = none ∧ ∀ x ∈ (drainCore tS.me.core tS).rstores, x.core ≠ tS.me.core)
    ∧ (let s := { tS with linkFail := [(16, 3, 0x10080)] }
       s.linkFail.find? (·.1 = s.cur) = some (16, 3, 0x10080) ∧ Handled s)
    ∧ (wideScope .device = true ∧ tUnacked.linkFail.find? (·.1 = tUnacked.cur) = none
      ∧ ∃ x ∈ (drainCore tUnacked.me.core tUnacked).rstores, x.core = tUnacked.me.core)
    ∧ (Readable tS [0, 4] ∧ (tS.rd 0).toNat % 65536 = 0 ∧ (31 : SReg) ≠ 0)
    ∧ tget none (tS.vf tS.ctx.vf).windows 15 = none
    ∧ (let s := { tS with vfs := [(0, { en := true, windows := [(15, some { base := 0, len := 65536 })] })], stash := [⟨0, 15, 5, [1, 2], [], true, 0⟩] }
       (∃ x, tget none (s.vf s.ctx.vf).windows 15 = some x)
        ∧ (State.stash (drainCore s.me.core s)).filter (fun l => l.vf = s.ctx.vf && l.w = 15 && l.dirty) = [⟨0, 15, 5, [1, 2], [], true, 0⟩]) ∧ Readable tS [1] :=
  ⟨by decide +kernel, ⟨by decide, handled_of rfl (by decide)⟩, by decide +kernel, ⟨readable_tS _, by decide, by decide⟩, by decide, ⟨⟨_, rfl⟩, by decide +kernel⟩, readable_tS _⟩

theorem witness_VectorLoadResult :
    (∃ x, Spec.vmem (.vldImm .i32 false 15 1 0 0xFFFFFFFC 0) tS = some x ∧ x.store = false ∧ Spec.noScale (.vldImm .i32 false 15 1 0 0xFFFFFFFC 0) = true
      ∧ VecReady tS ∧ Readable tS x.reads ∧ tS.me.badTy x.ty anyTy = false ∧ tS.me.elemTy x.ty ≠ .lns6 ∧ Held tS (tS.me.elemTy x.ty) [x.dst]
      ∧ (∀ v ∈ Spec.regList x.dst x.fields (tS.me.elemTy x.ty), v < 64 ∧ v < tS.me.vheld) ∧ (∀ v ∈ x.names, v.val < tS.me.vheld)
      ∧ ∃ pw u, Spec.Placed tS x.spc .rd x.plainOk (x.pieces (tS.me.elemTy x.ty)) pw
        ∧ decodeInto tS.ctx (pw.flatMap fun p => p.2.sectors p.1.n) (touchAll pw tS) = .ok u ∧ dataPoison u pw = none)
    ∧ ∃ x, Spec.vmem (.vldseg 7 .i32 true 8 0 0) tS = some x ∧ x.store = false
      ∧ (∀ v ∈ Spec.regList x.dst x.fields (tS.me.elemTy x.ty), v < 64 ∧ v < tS.me.vheld)
      ∧ allPlaced tS x.spc .rd x.plainOk (x.pieces (tS.me.elemTy x.ty)) = true := by
  refine ⟨⟨_, rfl, rfl, rfl, vecReady_tS, readable_tS _, by decide, by decide, by unfold Held; decide, by decide, by decide, ?_⟩, ⟨_, rfl, rfl, by decide, by decide +kernel⟩⟩
  refine ⟨_, _, placed_of (by decide +kernel), no_sectors (by decide +kernel) _ _, by decide +kernel⟩

theorem witness_VectorStoreResult :
    ∃ x, Spec.vmem (.vsts .i32 false 15 1 4 0) tS = some x ∧ x.store = true ∧ Spec.noScale (.vsts .i32 false 15 1 4 0) = true ∧ VecReady tS
      ∧ Readable tS x.reads ∧ tS.me.badTy x.ty anyTy = false ∧ tS.mpois = [] ∧ tS.me.elemTy x.ty ≠ .lns6 ∧ Held tS (tS.me.elemTy x.ty) [x.dst]
      ∧ (∀ v ∈ Spec.regList x.dst x.fields (tS.me.elemTy x.ty), v < 64 ∧ v < tS.me.vheld) ∧ (∀ v ∈ x.names, v.val < tS.me.vheld)
      ∧ ∃ pw, Spec.Placed tS x.spc .wr x.plainOk (x.pieces (tS.me.elemTy x.ty)) pw
        ∧ ∀ p ∈ pw, ∀ k, p.2 = .cell k → k + 8 ≤ 2 ^ 63 ∨ 2 ^ 63 ≤ k := by
  refine ⟨_, rfl, rfl, rfl, vecReady_tS, readable_tS _, by decide, rfl, by decide, by unfold Held; decide, by decide, by decide, _, placed_of (by decide +kernel), ?_⟩
  exact cells_of (fun _ k => k + 8 ≤ 2 ^ 63 ∨ 2 ^ 63 ≤ k) (by decide +kernel)

def tLns' : State := tM fun m => { m with vtype := ⟨.fault, .b16, .lns6⟩, vl := 16 }

theorem witness_LnsMemory :
    (VecReady tLns' ∧ tLns'.me.vtype.fmt = .lns6 ∧ tLns'.mpois = [] ∧ tLns'.t2lost = [])
    ∧ (∃ x, Spec.lnsMem (.vld .lns6 false 15 1 5 0) = some x ∧ tLns'.me.badTy x.ty isLns = false ∧ Readable tLns' [x.base, x.scales] ∧ x.scales ≠ 0
      ∧ x.dst.val < tLns'.me.vheld ∧ x.store = false
      ∧ ∃ pw u, Spec.Placed tLns' x.spc .rd x.plainOk (Spec.lnsBytes tLns'.me.blen (Spec.effective tLns' x.base x.off) (tLns'.rd x.scales) (tLns'.me.lanes x.mask)) pw
        ∧ decodeInto tLns'.ctx (pw.flatMap fun p => p.2.sectors p.1.n) (touchAll pw tLns') = .ok u ∧ dataPoison u pw = none)
    ∧ (∃ x, Spec.lnsMem (.vst .lns6 false 15 1 5 0) = some x ∧ x.store = true ∧ tLns'.sbuf = []
      ∧ (let ps := Spec.lnsBytes tLns'.me.blen (Spec.effective tLns' x.base x.off) (tLns'.rd x.scales) (tLns'.me.lanes x.mask)
         let key (a : Word) : Nat := frameKey 0 a.toNat
         (∀ p ∈ ps, judge tLns' x.spc .rw false p = .ok (.cell (key p.addr)) ∧ lostDevice tLns' (key p.addr) = none)
          ∧ ∀ p ∈ ps, ∀ q ∈ ps, key p.addr = key q.addr → p.addr = q.addr ∧ p.tag = q.tag))
    ∧ tLns'.me.badTy .lns6 isLns = false ∧ (∀ l ∈ tLns'.me.lanes 0, (BitVec.ofNat 64 (tLns'.me.box 15 l) + BitVec.ofInt 64 (252 : Imm).toInt).toNat + 4 ≤ tLns'.myCrew.decl.llbytes) := by
  refine ⟨⟨vecReady_of rfl rfl rfl rfl, rfl, rfl, rfl⟩, ⟨_, rfl, by decide, readable_of rfl rfl, by decide, by decide, rfl, ?_⟩, ⟨_, rfl, rfl, rfl, ?_⟩, by decide, by decide +kernel⟩
  · exact ⟨_, _, placed_of (by decide +kernel), no_sectors (by decide +kernel) _ _, by decide +kernel⟩
  · constructor <;> decide +kernel

theorem witness_GatherResult :
    ∃ x, Spec.gather (.vgatherLBounded .i32 15 1 14 2 0) = some (x, true) ∧ VecReady tS ∧ Readable tS (x.base :: x.bound.toList)
      ∧ tS.me.badTy x.ty notLns = false ∧ Held tS (tS.me.elemTy x.ty) [x.dst] ∧ x.idx.val < tS.me.vheld
      ∧ (∀ l ∈ tS.me.lanes x.mask, x.at_ tS l ≠ .fault) ∧ (∃ pw, Spec.Placed tS x.spc .rd false (x.pieces tS) pw) ∧ tS.mpois = [] ∧ tS.t2lost = []
      ∧ tS.sbuf = [] ∧ ∀ x ∈ tS.rstores, x.core ≠ tS.me.core := by
  refine ⟨_, rfl, vecReady_tS, readable_tS _, by decide, by unfold Held; decide, by decide, ?_, ⟨_, placed_of (by decide +kernel)⟩, rfl, rfl, rfl, by decide⟩
  intro l _
  have hb : tS.me.box 14 l = 0 := rfl
  simp [Spec.IdxSpec.at_, Spec.index, hb]
  have : tS.rd 2 = 5 := rfl
  simp [this]

theorem witness_ScatterResult :
    ∃ x, Spec.condScatter (.vscatterC .i32 7 15 1 14 0) = some (x, 7) ∧ Spec.scatter (.vscatter .i32 false 15 1 14 0) = some x ∧ VecReady tS
      ∧ Readable tS (x.base :: x.bound.toList) ∧ tS.me.badTy x.ty notLns = false ∧ tS.mpois = [] ∧ tS.t2lost = []
      ∧ Held tS (tS.me.elemTy x.ty) [x.dst] ∧ x.idx.val < tS.me.vheld ∧ (∀ l ∈ tS.me.lanes x.mask, x.at_ tS l ≠ .fault) ∧ tS.sbuf = []
      ∧ (∃ pw, Spec.Placed tS x.spc .wr false (x.pieces tS) pw ∧ ∀ p ∈ pw, ∀ k, p.2 = .cell k → k + 8 ≤ 2 ^ 63 ∨ 2 ^ 63 ≤ k)
      ∧ ∃ pw, Spec.Placed tS x.spc .rw false (x.pieces tS) pw ∧ ∀ p ∈ pw, ∀ k, p.2 = .cell k → k + 8 ≤ 2 ^ 63 ∨ 2 ^ 63 ≤ k := by
  refine ⟨_, rfl, rfl, vecReady_tS, readable_tS _, by decide, rfl, rfl, by unfold Held; decide, by decide, ?_, rfl, ⟨_, placed_of (by decide +kernel), ?_⟩,
    _, placed_of (by decide +kernel), ?_⟩
  · intro l _
    have hb : tS.me.box 14 l = 0 := rfl
    simp [Spec.IdxSpec.at_, Spec.index, hb]
  · exact cells_of (fun _ k => k + 8 ≤ 2 ^ 63 ∨ 2 ^ 63 ≤ k) (by decide +kernel)
  · exact cells_of (fun _ k => k + 8 ≤ 2 ^ 63 ∨ 2 ^ 63 ≤ k) (by decide +kernel)

theorem witness_FullEmptyResult :
    (∃ x, Spec.fullEmpty (.vstFeImm .i32 15 0 0xFF0 0) = some x ∧ VecReady tS ∧ Readable tS [x.base] ∧ tS.me.badTy x.ty notLns = false ∧ tS.mpois = []
      ∧ Held tS (tS.me.elemTy x.ty) [x.dst] ∧ tS.me.lanes x.mask ≠ [] ∧ tS.t2lost = [] ∧ tS.me.wait = none
      ∧ tS.cur ∉ tS.myCrew.feQueue ∧ slotEntries tS < 64
      ∧ (let ps := Spec.pieceList x.dst 1 (tS.me.lanes x.mask) (fun n l _ => Spec.effective tS x.base x.off + BitVec.ofNat 64 (l * n)) (tS.me.elemTy x.ty)
         ∃ pw, Spec.Placed tS .sp .wr false ps pw ∧ (∀ g ∈ placedGranules pw, tget false tS.full g = x.load) ∧ feBehind tS tS.cur (placedGranules pw) x.load = false))
    ∧ (∃ x, Spec.fullEmpty (.vldFe .i32 true 15 0 0) = some x
      ∧ (let ps := Spec.pieceList x.dst 1 (tS.me.lanes x.mask) (fun n l _ => Spec.effective tS x.base x.off + BitVec.ofNat 64 (l * n)) (tS.me.elemTy x.ty)
         ∃ pw, Spec.Placed tS .sp .rd false ps pw ∧ ((placedGranules pw).any fun g => tget false tS.full g ≠ x.load) = true))
    ∧ (Instr.spclrImm true 0 4 4032 = .spclrImm true 0 4 4032 ∧ VecReady tS ∧ tS.me.wait = none ∧ Readable tS [0, 4]
      ∧ (Spec.effective tS 0 4032).toNat % 16 = 0 ∧ (tS.rd 4).toNat % 16 = 0 ∧ (Spec.effective tS 0 4032).toNat + (tS.rd 4).toNat ≤ tS.myCrew.decl.spbytes
      ∧ tS.myCrew.cspBase % 16 = 0) := by
  refine ⟨⟨_, rfl, vecReady_tS, readable_tS _, by decide, rfl, by unfold Held; decide, by decide +kernel, rfl, rfl, by decide, by decide, _, placed_of (by decide +kernel), by decide +kernel, by decide +kernel⟩,
    ⟨_, rfl, _, placed_of (by decide +kernel), by decide +kernel⟩, rfl, vecReady_tS, rfl, readable_tS _, by decide, by decide, by decide, by decide⟩

def tWin (ty : AwTy) : AWin := ⟨0x10080, 5, ty, .add, 216⟩

theorem witness_WindowResult :
    (VecReady tS ∧ (Ty.i64, AwTy.i64) ∈ [(Ty.i32, AwTy.i32), (.u32, .u32), (.i64, .i64), (.u64, .u64), (.f32, .f32)] ∧ Readable tS [1, 2]
      ∧ 1 ≤ (tS.rd 2).toNat ∧ (tS.rd 2).toNat ≤ 1024 ∧ (216 : Imm).toNat + (tS.rd 2).toNat * Spec.awBytes .i64 ≤ tS.myCrew.decl.llbytes
      ∧ (tS.rd 1).toNat % Spec.awBytes .i64 = 0 ∧ (216 : Imm).toNat % Spec.awBytes .i64 = 0)
    ∧ (let s := tM fun m => { m with awin := some (tWin .i64) }
       VecReady s ∧ s.me.awin = some (tWin .i64) ∧ s.mpois = [] ∧ s.t2lost = [] ∧ Held s (awElem .i64) [14] ∧ (15 : VReg).val < s.me.vheld
        ∧ (tWin .i64).llofs + (tWin .i64).n * 8 ≤ s.myCrew.decl.llbytes
        ∧ ∀ l ∈ s.me.lanes 0, Spec.index s.me.vtype.oob 0 (some (tWin .i64).n) 1 (BitVec.ofNat 32 (s.me.box 15 l)).toInt ≠ .fault)
    ∧ (let s := tM fun m => { m with awin := some (tWin .f32) }
       let key (e : Nat) : Nat := frameKey 0 (0x10080 + 4 * e)
       (s.part s.myGrid.part).guard = false ∧ s.sbuf = [] ∧ s.mpois = [] ∧ s.t2lost = []
        ∧ (∀ e < 5, judge s .gen .rw false { lane := 1024, tag := e, addr := (tWin .f32).base + BitVec.ofNat 64 (e * 4), n := 4 } = .ok (.cell (key e))
          ∧ lostDevice s (key e) = none ∧ key e < 2 ^ 63)
        ∧ ∀ e < 5, ∀ f < 5, e < f → key e + 4 ≤ key f ∨ key f + 4 ≤ key e)
    ∧ (let x : Spec.IdxSpec := ⟨.i32, Spec.spaceOf false, 15, 1, 14, none, 0⟩
       tS.me.wait = none ∧ slotEntries tS < 64 ∧ tS.mpois = [] ∧ tS.t2lost = [] ∧ Held tS .i32 [15] ∧ (∀ l ∈ tS.me.lanes 0, x.at_ tS l ≠ .fault)
        ∧ ∃ pw, Spec.Placed tS x.spc .rd false (x.pieces tS) pw
          ∧ (let met (cc : WCc) (p : Piece × Where) : Bool :=
               Spec.waitMeets cc (Spec.toNum .i32 (leVal (p.2.bytes (dropLines tS.me.core tS) p.1.n))) (Spec.toNum .i32 (tS.me.elem .i32 15 p.1.lane))
             pw.all (met .eq) = true ∧ pw.all (met .ne) = false)) := by
  refine ⟨⟨vecReady_tS, by decide, readable_tS _, by decide, by decide, by decide, by decide, by decide⟩, ⟨vecReady_of rfl rfl rfl rfl, rfl, rfl, rfl, ?_, by decide, by decide, ?_⟩,
    ⟨rfl, rfl, rfl, rfl, by decide +kernel, by decide +kernel⟩, ⟨rfl, by decide, rfl, rfl, by unfold Held; decide, ?_, _, placed_of (by decide +kernel), by decide +kernel, by decide +kernel⟩⟩
  · unfold Held; decide
  · intro l _
    have hb : (tM fun m => { m with awin := some (tWin .i64) }).me.box 15 l = 0 := rfl
    rw [hb]; exact fun h => Spec.Index.noConfusion h
  · intro l _
    have hb : tS.me.box 14 l = 0 := rfl
    simp [Spec.IdxSpec.at_, Spec.index, hb]

def tTile (f : TFmt) : State :=
  { tM fun m => { m with gshape := { fmt := f, gv := true, gk := 16, gn := 8, gm := 8, qk := 16, qn := 8, qm := 2 }
                         tshape := [(3, ⟨f, 16, 2⟩)], zdim := [(3, ⟨decide (f ≠ .int8), 3, 2⟩)] } with
    crews := [(1, { tCrew with barriers := [(3, { ph := 1 })] })] }

theorem witness_TileResult :
    (VecReady tS ∧ Spec.tileTy .lns6 = .lns6 ∧ Readable tS [1, 2, 3])
    ∧ (∃ x, Spec.tileLoad (.tldE .i8 true 3 3 0 4) = some x ∧ VecReady (tTile .int8) ∧ (tTile .int8).me.gshape.gv = true ∧ x.names .int8
      ∧ Readable (tTile .int8) x.reads ∧ x.tile.val < (tTile .int8).me.tdecl ∧ Spec.bytesOfRow .int8 16 ≤ 192
      ∧ (∀ b, x.bar = some b → b.val < (tTile .int8).myCrew.decl.nsb ∧ (tTile .int8).me.sstrict = false)
      ∧ (∀ b, x.bar = some b → ((tTile .int8).barrier b).ph ≠ ((tTile .int8).barrier b).rph)
      ∧ ∃ pw u, Spec.Placed (tTile .int8) x.spc .rd (decide (x.spc = .gen)) (x.pieces (tTile .int8) .int8 8 16) pw
        ∧ decodeInto (tTile .int8).ctx (pw.flatMap fun p => p.2.sectors p.1.n) (touchAll pw (tTile .int8)) = .ok u ∧ dataPoison u pw = none)
    ∧ (∃ x, Spec.tileLoad (.tldLns6 .dflt false false 0 1 4 5 64) = some x ∧ x.names .lns6 ∧ Readable (tTile .lns6) x.reads
      ∧ Spec.bytesOfRow .lns6 16 ≤ 192 ∧ Spec.blocksOf 16 (tTile .lns6).me.blen ≤ 16
      ∧ ∃ pw u, Spec.Placed (tTile .lns6) x.spc .rd (decide (x.spc = .gen)) (x.pieces (tTile .lns6) .lns6 2 16) pw
        ∧ decodeInto (tTile .lns6).ctx (pw.flatMap fun p => p.2.sectors p.1.n) (touchAll pw (tTile .lns6)) = .ok u ∧ dataPoison u pw = none)
    ∧ (∃ x b, Spec.tileLoad (.tldELns6 .lns6 true 0 3 1 4 5 64) = some x ∧ x.bar = some b ∧ ((tTile .lns6).barrier b).ph = ((tTile .lns6).barrier b).rph)
    ∧ (∃ x, Spec.tileStore (.tst .f32 false 3 1 4) = some x ∧ x.names .fp32 ∧ Readable (tTile .fp32) x.reads ∧ x.tile.val < (tTile .fp32).me.tdecl
      ∧ (∀ r, x.tile.val * 64 + r ∉ (tTile .fp32).me.tpois) ∧ Spec.bytesOfRow .fp32 16 ≤ 192
      ∧ ∃ pw, Spec.Placed (tTile .fp32) x.spc .wr false (x.pieces (tTile .fp32) .fp32 2 16) pw
        ∧ ∀ p ∈ pw, ∀ k, p.2 = .cell k → k + p.1.n ≤ 2 ^ 63 ∨ 2 ^ 63 ≤ k)
    ∧ (∃ x, Spec.tileStore (.tstLns6 .dflt false 3 1 4 5 64) = some x ∧ x.names .lns6 ∧ (tTile .lns6).sbuf = []
      ∧ (∀ y ∈ (tTile .lns6).rstores, y.core ≠ (tTile .lns6).me.core)
      ∧ ∃ pw, Spec.Placed (tTile .lns6) x.spc .rw false (x.pieces (tTile .lns6) .lns6 2 16) pw
        ∧ (∀ p ∈ pw, ∀ k, p.2 = .cell k → k + p.1.n ≤ 2 ^ 63 ∨ 2 ^ 63 ≤ k)
        ∧ pw.Pairwise fun p q => ∀ j k, p.2 = .cell j → q.2 = .cell k → j + p.1.n ≤ k ∨ k + q.1.n ≤ j)
    ∧ (let s := tTile .int8
       let ps := ((s.me.lanes 0).filter (· < 16)).flatMap fun l => Spec.span l l (s.rd 1) 2 1
       s.me.gshape.gv = true ∧ Readable s [1, 4] ∧ (3 : TReg).val < s.me.tdecl ∧ (15 : VReg).val < s.me.vheld ∧ 16 * (Spec.elemBits .int8 / 8) ≤ 192
        ∧ (s.me.vtype.oob = .fault → ∀ l ∈ (s.me.lanes 0).filter (· < 16), 0 ≤ (BitVec.ofNat 32 (s.me.box 15 l)).toInt)
        ∧ ∃ pw u, Spec.Placed s .gen .rd true ps pw
          ∧ decodeInto s.ctx (pw.flatMap fun p => p.2.sectors p.1.n) (touchAll pw s) = .ok u ∧ dataPoison u pw = none) := by
  refine ⟨⟨vecReady_tS, rfl, readable_tS _⟩,
    ⟨_, rfl, vecReady_of rfl rfl rfl rfl, rfl, ⟨.inr rfl, by decide⟩, readable_of rfl rfl, by decide, by decide, ?_, ?_, _, _, placed_of (by decide +kernel),
      no_sectors (by decide +kernel) _ _, by decide +kernel⟩,
    ⟨_, rfl, ⟨.inl rfl, by decide⟩, readable_of rfl rfl, by decide, by decide, _, _, placed_of (by decide +kernel), no_sectors (by decide +kernel) _ _, by decide +kernel⟩,
    ⟨_, 0, rfl, rfl, by decide⟩,
    ⟨_, rfl, ⟨.inr rfl, by decide⟩, readable_of rfl rfl, by decide, (by intro r h; cases h), by decide, _, placed_of (by decide +kernel), ?_⟩,
    ⟨_, rfl, ⟨.inl rfl, by decide⟩, rfl, by decide, _, placed_of (by decide +kernel), ?_, ?_⟩,
    rfl, readable_of rfl rfl, by decide, by decide, by decide, by decide +kernel, _, _, placed_of (by decide +kernel), no_sectors (by decide +kernel) _ _, by decide +kernel⟩
  · intro b h; cases h; decide
  · intro b h; cases h; decide
  · exact cells_of (fun p k => k + p.n ≤ 2 ^ 63 ∨ 2 ^ 63 ≤ k) (by decide +kernel)
  · exact cells_of (fun p k => k + p.n ≤ 2 ^ 63 ∨ 2 ^ 63 ≤ k) (by decide +kernel)
  · let apart (p q : Piece × Where) : Bool := match p.2, q.2 with
      | .cell j, .cell k => decide (j + p.1.n ≤ k ∨ k + q.1.n ≤ j)
      | _, _ => true
    have h : ∀ (p q : Piece × Where), apart p q = true → ∀ j k, p.2 = .cell j → q.2 = .cell k → j + p.1.n ≤ k ∨ k + q.1.n ≤ j := by
      intro p q hh j k hj hk; simp only [apart, hj, hk, decide_eq_true_eq] at hh; exact hh
    exact List.Pairwise.imp (fun hh => h _ _ hh) (show List.Pairwise (fun p q => apart p q = true) _ by decide +kernel)

theorem witness_MatrixResult :
    (∃ o, Spec.multiply (.mmaR .i8 true true true 3 0 3) = some (o, false) ∧ VecReady (tTile .int8) ∧ (tTile .int8).me.gshape.gv = true
      ∧ (o.t = .dflt ∨ o.t = Spec.tileTy .int8) ∧ o.a.val < (tTile .int8).me.tdecl ∧ o.b.val < (tTile .int8).me.tdecl ∧ o.d.val < (tTile .int8).me.zdecl
      ∧ (tTile .int8).me.tpois = [] ∧ (tTile .int8).me.zpois = [])
    ∧ (∃ o, Spec.multiply (.mmaO .dflt false false false 3 0 3) = some (o, true) ∧ (tTile .lns6).me.gshape.gk % (tTile .lns6).me.blen = 0
      ∧ ((tget {} (tTile .lns6).me.zdim o.d).fp = true ↔ TFmt.lns6 ≠ .int8))
    ∧ (Readable (tTile .fp32) [1, 4] ∧ (3 : ZReg).val < (tTile .fp32).me.zdecl ∧ (tTile .fp32).mpois = [] ∧ (tTile .fp32).t2lost = []
      ∧ (∃ pw, Spec.Placed (tTile .fp32) (Spec.spaceOf true) .rd false ((List.range 2).flatMap fun r =>
          Spec.span 1024 r (Spec.effective (tTile .fp32) 0 8 + BitVec.ofNat 64 r * (tTile .fp32).rd 4) (4 * 8) 4) pw)
      ∧ ∃ pw, Spec.Placed (tTile .fp32) (Spec.spaceOf false) .wr false ((List.range 2).flatMap fun r =>
          Spec.span 1024 r (Spec.effective (tTile .fp32) 1 2 + BitVec.ofNat 64 r * (tTile .fp32).rd 4) (2 * 3) 2) pw
        ∧ ∀ p ∈ pw, ∀ k, p.2 = .cell k → k + p.1.n ≤ 2 ^ 63 ∨ 2 ^ 63 ≤ k)
    ∧ Instr.zldImm .f32 true 3 0 4 8 = .zldImm .f32 true 3 0 4 8 ∧ Instr.zstImm .f16 false .frm 3 1 4 2 = .zstImm .f16 false .frm 3 1 4 2 := by
  refine ⟨⟨_, rfl, vecReady_of rfl rfl rfl rfl, rfl, .inr rfl, by decide, by decide, by decide, rfl, rfl⟩, ⟨_, rfl, by decide, by decide⟩,
    ⟨readable_of rfl rfl, by decide, rfl, rfl, ⟨_, placed_of (by decide +kernel)⟩, _, placed_of (by decide +kernel), ?_⟩, rfl, rfl⟩
  exact cells_of (fun p k => k + p.n ≤ 2 ^ 63 ∨ 2 ^ 63 ≤ k) (by decide +kernel)

theorem witness_StageBarriers :
    (VecReady tS ∧ tS.me.wait = none ∧ (3 : Fin 16).val < tS.myCrew.decl.nsb ∧ Readable tS [3] ∧ 1 ≤ (tS.rd 3).toNat ∧ (tS.rd 3).toNat ≤ 16
      ∧ ((tS.rd 0).toNat = 0 ∨ 16 < (tS.rd 0).toNat) ∧ Handled tS ∧ (tS.rd 4).toNat % 16 = 0 ∧ (tS.rd 4).toNat < 2 ^ 32
      ∧ (tS.me.sstrict = false ∨ (tS.barrier 3).ovr = false))
    ∧ (((tS.barrier 3).rph - BitVec.ofNat 32 (tS.rd 0).toNat - 1).toNat < 2 ^ 31) = False
    ∧ (((tTile .int8).barrier 3).ph - BitVec.ofNat 32 ((tTile .int8).rd 0).toNat - 1).toNat < 2 ^ 31
    ∧ (let s := { tM fun m => { m with sstrict := true } with crews := [(1, { tCrew with barriers := [(3, { ovr := true })] })] }
       VecReady s ∧ Handled s ∧ Readable s [4] ∧ ¬ (s.me.sstrict = false ∨ (s.barrier 3).ovr = false))
    ∧ (VecReady tUnacked ∧ tUnacked.me.wait = none ∧ Readable tUnacked [1] ∧ (tUnacked.rd 1).toNat % 64 = 0
      ∧ ∃ x ∈ (drainCore tUnacked.me.core tUnacked).rstores, x.core = tUnacked.me.core)
    ∧ ((tS.rd 1).toNat % 64 = 0 ∧ (∀ x ∈ (drainCore tS.me.core tS).rstores, x.core ≠ tS.me.core) ∧ translate (drainCore tS.me.core tS) { tS.ctx with app := false } .rd (tS.rd 1).toNat = .ok (.cell tK)) :=
  ⟨⟨vecReady_tS, rfl, by decide, readable_tS _, by decide, by decide, by decide, handled_tS, by decide, by decide, by decide⟩, by decide, by decide,
    ⟨vecReady_of rfl rfl rfl rfl, handled_of rfl (by decide), readable_of rfl rfl, by decide⟩,
    ⟨vecReady_of rfl rfl rfl rfl, rfl, readable_of rfl rfl, by decide, by decide +kernel⟩, by decide, by decide +kernel, by decide +kernel⟩

/-- A descriptor at 0x10100 of one dimension of four FP32 elements at 0x10200, with a box of three or, out, of the same. -/
def tTensor (ext : Byte) : State :=
  { tS with mem := identityTables ((List.range 64).filterMap fun n =>
      let b : Byte := match n with
        | 1 => 2 | 2 => 1 | 16 => ext | 36 => 3 | 41 => 6 | 42 => 0x88 | 43 => 0x46 | _ => 0
      if b = 0 then none else some (frameKey 0 0x10100 + n, b)) }

/-- The layout of the copies of the small descriptor, whose box starts at the first element. -/
def tCopyLayout (ext : Byte) : Layout :=
  let s := tTensor ext
  let t := parseTensor (s.homeBytes (frameKey 0 0x10100) 64)
  copyLayout t (copyBox t .none s.me.gshape) (copyOrigin t (s.rd 0) (s.rd 0)) s.me.blen

theorem witness_TensorCopies :
    (let s := tTensor 4
     let t := parseTensor (s.homeBytes (frameKey 0 0x10100) 64)
     let l := tCopyLayout 4
     Spec.tensorCopy (.tcopy .none true 3 0 4 5 0) = some ⟨.none, true, 3, 0, 4, 5, 0, false⟩
      ∧ Spec.tensorCopy (.tcopyo .none 0 4 5 0) = some ⟨.none, false, 0, 0, 4, 5, 0, true⟩
      ∧ VecReady s ∧ s.me.wait = none ∧ Readable s [4, 5, 0, 0] ∧ (3 : Fin 16).val < s.myCrew.decl.nsb ∧ s.mpois = [] ∧ s.t2lost = []
      ∧ s.sbuf = [] ∧ s.rstores = [] ∧ s.myCrew.landings = [] ∧ s.myCrew.cspBase % 16 = 0 ∧ s.myCrew.core = s.me.core
      ∧ judge s .gen .rd false { lane := 1024, addr := s.rd 5, n := 64, align := 64 } = .ok (.cell (frameKey 0 0x10100))
      ∧ lostDevice s (frameKey 0 0x10100) = none ∧ cachedDesc s (frameKey 0 0x10100) = none
      ∧ tensorFault t l s.me.blen = 0 ∧ (s.rd 4).toNat % 16 = 0 ∧ (s.rd 4).toNat + l.total ≤ s.myCrew.decl.spbytes
      ∧ (∀ p ∈ segPieces (copySegs t l s.me.blen), judge s .gen .rd true p = .ok (.cell (frameKey 0 p.addr.toNat))
        ∧ judge s .gen .wr false p = .ok (.cell (frameKey 0 p.addr.toNat)) ∧ lostDevice s (frameKey 0 p.addr.toNat) = none
        ∧ frameKey 0 p.addr.toNat + p.n ≤ 2 ^ 63 ∧ ∀ j < p.n, frameKey 0 (p.addr + BitVec.ofNat 64 j).toNat = frameKey 0 p.addr.toNat + j)
      ∧ (segPieces (copySegs t l s.me.blen)).Pairwise fun p q =>
        frameKey 0 p.addr.toNat + p.n ≤ frameKey 0 q.addr.toNat ∨ frameKey 0 q.addr.toNat + q.n ≤ frameKey 0 p.addr.toNat)
    ∧ (let s := tTensor 0
       Handled s ∧ tensorFault (parseTensor (s.homeBytes (frameKey 0 0x10100) 64)) (tCopyLayout 0) s.me.blen ≠ 0) := by
  refine ⟨⟨rfl, rfl, vecReady_of rfl rfl rfl rfl, rfl, readable_of rfl rfl, by decide, rfl, rfl, rfl, rfl, rfl, by decide, rfl, ?_⟩, handled_of rfl (by decide), by decide +kernel⟩
  exact ⟨by decide +kernel, by decide +kernel, by decide +kernel, by decide +kernel, by decide, by decide +kernel, by decide +kernel, by decide +kernel⟩

def tGroup (b : Bool) : State := { tS with groups := [(groupKey 0 5, { valid := true, size := 2, grid := 0, broken := b })] }
def tColl : Coll := ⟨0, 5, 0, 16, 1, 64, 16, false, .i32, .add, 0, none, [], false⟩

theorem witness_CollectiveResult :
    (∃ o, Spec.collective (.colred .i32 .add true 3 256 1 4 2) = some o ∧ VecReady tS ∧ Readable tS [o.a, o.c] ∧ o.sb.val < tS.myCrew.decl.nsb)
    ∧ (∃ o, Spec.collective (.colred .f32 .max true 3 1 1 4 2) = some o ∧ (tS.rd o.a).toNat % 16 = 0
      ∧ (tS.rd o.a).toNat + 16 * o.len ≤ tS.myCrew.decl.spbytes ∧ tS.poisoned (tS.csp 64) 16 = false ∧ (tS.part tS.myGrid.part).guard = false
      ∧ ¬ ((tS.rd o.c).toNat < 256 ∧ (tget {} tS.groups (groupKey tS.myGrid.part (tS.rd o.c).toNat)).valid = true))
    ∧ (∃ o, Spec.collective (.colbcast false 0 252 255 1 4 2) = some o ∧ (tS.rd o.a).toNat + 16 * o.len ≤ tS.myCrew.decl.spbytes)
    ∧ (∀ b, VecReady (tGroup b) ∧ Readable (tGroup b) [4, 2] ∧ (tGroup b).poisoned ((tGroup b).csp 64) 16 = false
      ∧ ((tGroup b).part (tGroup b).myGrid.part).guard = false
      ∧ (let e := tget {} (tGroup b).groups (groupKey (tGroup b).myGrid.part ((tGroup b).rd 2).toNat)
         ((tGroup b).rd 2).toNat < 256 ∧ e.valid = true ∧ e.grid = (tGroup b).myCrew.grid ∧ e.broken = b)
      ∧ (tGroup b).linkFail.find? (·.1 = (tGroup b).cur) = none
      ∧ ∀ x ∈ (drainCore (tGroup b).me.core (tGroup b)).rstores, x.core ≠ (tGroup b).me.core)
    ∧ (let s := { tGroup false with linkFail := [(16, 3, 0x10080)] }
       VecReady s ∧ Handled s ∧ s.linkFail.find? (·.1 = s.cur) = some (16, 3, 0x10080))
    ∧ (let s := { tGroup false with rstores := tUnacked.rstores }
       VecReady s ∧ s.linkFail.find? (·.1 = s.cur) = none ∧ ∃ x ∈ (drainCore s.me.core s).rstores, x.core = s.me.core)
    ∧ (∀ x ∈ tS.colls, x.sid ≠ tS.cur)
    ∧ (let s := { tS with colls := [tColl] }
       VecReady s ∧ ∃ x ∈ s.colls, x.sid = s.cur) := by
  refine ⟨⟨_, rfl, vecReady_tS, readable_tS _, by decide⟩, ⟨_, rfl, by decide, by decide, by decide +kernel, by decide, by decide⟩, ⟨_, rfl, by decide⟩, ?_,
    ⟨vecReady_of rfl rfl rfl rfl, handled_of rfl (show bitsOf tMe.trapvec 5 0 ≠ 0 by decide), by decide⟩, ⟨vecReady_of rfl rfl rfl rfl, rfl, by decide +kernel⟩, by decide,
    vecReady_of rfl rfl rfl rfl, tColl, by simp, rfl⟩
  intro b
  refine ⟨vecReady_of rfl rfl rfl rfl, readable_of rfl rfl, by cases b <;> decide +kernel, by cases b <;> decide, ?_, rfl, ?_⟩
  · cases b <;> decide
  · cases b <;> decide +kernel

/-- A bound heap of three live items. -/
def tHeap (f : Heap → Heap) : State :=
  { tG fun g => { g with heaps := [2] } with
    heaps := [(2, f { grid := some 0, ready := true, cap := 8, live := 3, tol := 1, gain := [(0, 7), (2, 9)], resid := 16 })] }

theorem witness_HeapResult :
    (∀ f ∈ [fun h : Heap => h, fun h => { h with done := true }, fun h => { h with tol := 17 }, fun h => { h with tol := 0, resid := 0, gain := [] },
        fun h => { h with gain := [], runs := [(2, some (16, 1))], running := 1 }],
      let s := tHeap f
      s.me.onSteward = false ∧ s.me.wait = none ∧ (0 : Fin 4).val < s.myGrid.heaps.length ∧ s.myGrid.heaps.getD 0 0 = 2
        ∧ (s.heap 2).ready = true ∧ (s.heap 2).waiting = [] ∧ twf 0 (s.heap 2).gain = true ∧ Readable s [3] ∧ Handled s)
    ∧ ((tHeap fun h => { h with done := true }).heap 2).done = true
    ∧ ((tHeap fun h => { h with tol := 17 }).heap 2).resid < ((tHeap fun h => { h with tol := 17 }).heap 2).tol
    ∧ (let x := (tHeap fun h => { h with tol := 0, resid := 0, gain := [] }).heap 2
       x.done = false ∧ ¬ x.resid < x.tol ∧ x.running = 0 ∧ x.resid = 0)
    ∧ (let x := (tHeap id).heap 2
       x.done = false ∧ ¬ (x.resid < x.tol ∨ (x.running = 0 ∧ x.resid = 0)) ∧ Spec.takes x 2)
    ∧ (let x := (tHeap fun h => { h with gain := [], runs := [(2, some (16, 1))], running := 1 }).heap 2
       x.done = false ∧ ¬ (x.resid < x.tol ∨ (x.running = 0 ∧ x.resid = 0)) ∧ (∀ t, ¬ Spec.takes x t))
    ∧ (∃ rel d a b adds, Spec.revision (.gset true 0 1 0 3) = some (rel, 0, d, a, b, adds) ∧ Readable (tHeap id) [a, b]
      ∧ ((tHeap id).rd a).toNat < ((tHeap id).heap 2).live)
    ∧ (∃ rel d a b adds, Spec.revision (.gadd false 0 1 3 4) = some (rel, 0, d, a, b, adds) ∧ ((tHeap id).heap 2).live ≤ ((tHeap id).rd a).toNat)
    ∧ (((tHeap id).heap 2).live + ((tHeap id).rd 2).toNat ≤ ((tHeap id).heap 2).cap)
    ∧ (((tHeap id).heap 2).cap < ((tHeap id).heap 2).live + ((tHeap id).rd 4).toNat)
    ∧ (let s := tHeap fun h => { h with runs := [(0, some (16, 1))], running := 1 }
       (s.rd 0).toNat < (s.heap 2).live ∧ tget none (s.heap 2).runs (s.rd 0).toNat = some (16, 1))
    ∧ (let s := { tHeap id with rstores := tUnacked.rstores }
       (s.heap 2).ready = true ∧ ∃ x ∈ (drainCore s.me.core s).rstores, x.core = s.me.core)
    ∧ ((∀ x ∈ (drainCore (tHeap id).me.core (tHeap id)).rstores, x.core ≠ (tHeap id).me.core) ∧ (tHeap id).rstores = [])
    ∧ (tget none ((tHeap id).heap 2).runs ((tHeap id).rd 0).toNat = none ∧ (tHeap id).sbuf = [] ∧ Handled (tHeap id)) := by
  refine ⟨?_, rfl, by decide, by decide, ⟨rfl, by decide, ?_⟩, ⟨rfl, by decide, ?_⟩, ⟨_, _, _, _, _, rfl, readable_of rfl rfl, by decide⟩,
    ⟨_, _, _, _, _, rfl, by decide⟩, by decide, by decide, ⟨by decide, by decide⟩, ⟨rfl, by decide +kernel⟩, ⟨by decide +kernel, rfl⟩, rfl, rfl, handled_of rfl (by decide)⟩
  · intro f hf
    simp only [List.mem_cons, List.not_mem_nil, or_false] at hf
    rcases hf with rfl | rfl | rfl | rfl | rfl <;>
      exact ⟨rfl, rfl, by decide, rfl, rfl, rfl, rfl, readable_of rfl rfl, handled_of rfl (by decide)⟩
  · refine ⟨⟨by decide, rfl⟩, by decide, ?_⟩
    rintro u ⟨hu, -⟩
    have : u < 3 := hu
    interval_cases u <;> decide
  · rintro t ⟨-, h, -⟩
    have : tget 0 ([] : Tab Nat) t = 0 := rfl
    exact absurd h (by show ¬ 0 < tget 0 ([] : Tab Nat) t; rw [this]; decide)

/-- The small state with an event at hand and another strand. -/
def tEv (e : Event) (f : Strand → Strand) : State := { tS with input := some e, me := f tMe }

/-- A line at 0x10000 whose header is `b` in its upper byte. -/
def tFetch (b : Byte) (pc : Word) : State :=
  { tEv .lineFetch fun m => { m with pc := pc } with mem := identityTables (if b = 0 then [] else [(frameKey 0 0x10001, b)]) }

/-- An instruction of a queue, whose front end had four or forty lanes. -/
def tEntry (i : Instr) (vl : Nat := 4) : VOp :=
  { instr := i, entered := 5, front := { pc := 0x10001, vheld := 16, vl := vl, regs := tMe.regs, gshape := { gv := true, gk := 16, gn := 8, gm := 8 } } }

/-- A strand with a queue. -/
def tBusy (core : Nat) (l : List VOp) : Strand :=
  { crew := 1, core := core, run := .running, vheld := 16, tdecl := 4, zdecl := 4, vl := 4, trapvec := 0x20001, viq := l }

/-- The small state with an event at hand and another strand, with a queue. -/
def tWork (e : Event) (core : Nat) (l : List VOp) : State := { tE e with others := [(17, tBusy core l)] }

/-- What an instruction of a queue finds. -/
def tView (s : State) (sid : Nat) (o : VOp) : State := { switchTo sid s with me := (switchTo sid s).me.asEntry o }

theorem oldest_of {s : State} {sid : Nat} {o : VOp} (hr : (switchTo sid s).me.run = .running) (hq : (switchTo sid s).me.viq = [o])
    (hp : (switchTo sid s).me.pool = []) (hw : (switchTo sid s).me.wait = none) (hv : (switchTo sid s).me.vpois = [])
    (hs : (switchTo sid s).me.onSteward = false) (hl : lazyOwner (tView s sid o) = none) : Spec.OldestEntry s sid o (tView s sid o) :=
  ⟨hr, by rw [hq]; rfl, by rw [hq]; rfl, hp, (by rw [hw]; exact fun _ h => nomatch h), hv, hs, rfl, hl⟩

def tVwait : Instr := .vwait .eq .i32 false 7 3 1 15 14 0

theorem fetch_halfs : halfsOf ((tFetch 0x08 0).viewBytes 0 (frameKey 0 0x10000) 64) = 0x0800 :: List.replicate 31 0 := by decide +kernel
theorem fetch_none : halfsOf ((tFetch 0 0).viewBytes 0 (frameKey 0 0x10000) 64) = List.replicate 32 0 := by decide +kernel

theorem witness_lines :
    (let s := tFetch 0x08 0x10001
     let k := frameKey 0 0x10000
     let halfs := halfsOf (s.viewBytes s.me.core k 64)
     s.input = some .lineFetch ∧ s.me.run = .running ∧ s.me.wait = none ∧ translate s s.ctx .fetch (s.me.pc.toNat / 64 * 64) = .ok (.cell k)
        ∧ s.poisonedFor s.me.core k 64 = false ∧ lineFault halfs = none ∧ 1 ≤ bitsOf s.me.pc 5 0 ∧ bitsOf s.me.pc 5 0 ≤ headCount halfs)
    ∧ (∀ pc, pc = (0x10000 : Word) ∨ pc = 0x10002 →
      let s := tFetch 0x08 pc
      let k := frameKey 0 0x10000
      let halfs := halfsOf (s.viewBytes s.me.core k 64)
      translate s s.ctx .fetch (s.me.pc.toNat / 64 * 64) = .ok (.cell k) ∧ lineFault halfs = none
        ∧ (bitsOf s.me.pc 5 0 = 0 ∨ headCount halfs < bitsOf s.me.pc 5 0) ∧ Handled s)
    ∧ (let s := tFetch 0 0x10001
       let k := frameKey 0 0x10000
       translate s s.ctx .fetch (s.me.pc.toNat / 64 * 64) = .ok (.cell k) ∧ lineFault (halfsOf (s.viewBytes s.me.core k 64)) = some 1 ∧ Handled s) := by
  have h (pc : Word) : halfsOf ((tFetch 0x08 pc).viewBytes (tFetch 0x08 pc).me.core (frameKey 0 0x10000) 64) = 0x0800 :: List.replicate 31 0 := fetch_halfs
  have h0 (pc : Word) : halfsOf ((tFetch 0 pc).viewBytes (tFetch 0 pc).me.core (frameKey 0 0x10000) 64) = List.replicate 32 0 := fetch_none
  refine ⟨⟨rfl, rfl, rfl, by decide +kernel, by decide +kernel, by rw [h]; decide, by decide, by rw [h]; decide⟩, ?_, by decide +kernel, by rw [h0]; decide, handled_of rfl (by decide)⟩
  rintro pc (rfl | rfl)
  · exact ⟨by decide +kernel, by rw [h]; decide, .inl (by decide), handled_of rfl (by decide)⟩
  · exact ⟨by decide +kernel, by rw [h]; decide, .inr (by rw [h]; decide), handled_of rfl (by decide)⟩

/-- One instruction on core 0, or two of two strands on core 160, which fills one row a cycle. -/
def tIssue (n vl : Nat) (i : Instr) : State :=
  let s := tWork (.vectorGroupIssue n) (n / 4) [tEntry i vl]
  if n / 4 = 0 then s else { s with others := s.others ++ [(18, tBusy (n / 4) [{ tEntry i vl with entered := 6 }])] }

theorem witness_StrandEvents :
    (let s := tEv (.trapEntry 0x05 6 7 8) fun m => { m with due := some (.ofCode 0x05, 6, 7, 8) }
     s.input = some (.trapEntry 0x05 6 7 8) ∧ s.me.due = some (.ofCode 0x05, 6, 7, 8) ∧ s.me.run = .running ∧ Handled s)
    ∧ (∀ n vl, (n, vl) ∈ [(0, 4), (640, 40)] →
      let i : Instr := .vadd .i32 true 1 15 (.scal 2) 0
      let s := tIssue n vl i
      let o := tEntry i vl
      let cs := candidates s (n / 4) (n / 2 % 2 = 1) (n % 2 = 1)
      (∃ c ∈ cs, c.sid = 17 ∧ c.k = 0 ∧ (∀ d ∈ cs, d ≠ c → Spec.Sooner c d) ∧ Spec.OldestEntry s c.sid o (tView s 17 o)) ∧ n % 2 = 0
        ∧ 0 < (s.classOf (n / 4)).laneRows
        ∧ (∃ x, Spec.vec i (tView s 17 o) = some x ∧ Readable (tView s 17 o) x.reads ∧ (tView s 17 o).me.badTy x.ty x.accepts = false
          ∧ x.immOk ((tView s 17 o).me.elemTy x.ty) = true ∧ (tView s 17 o).me.elemTy x.ty ≠ .lns6
          ∧ Held (tView s 17 o) ((tView s 17 o).me.elemTy x.ty) (x.dst :: x.names)
          ∧ ((s.classOf (n / 4)).laneRows = 1 ∨ ((∀ e ∈ s.strands, e.1 ≠ 17 → e.2.viq = []) ∧ (s.strand 17).viq = [o]
            ∧ ((tView s 17 o).me.lanes x.mask).all (· / 32 = ((tView s 17 o).me.lanes x.mask).headD 0 / 32) = true))
          ∧ ((tView s 17 o).me.lanes x.mask).all (· / 32 = ((tView s 17 o).me.lanes x.mask).headD 0 / 32) = decide (n = 0)))
    ∧ (∀ st : Bool,
      let i : Instr := if st then .vst .i32 false 15 1 0 0 else .vld .i32 false 15 1 0 0
      let s := tIssue 641 4 i
      let o := tEntry i 4
      let v := tView s 17 o
      pipelineKind i ∈ [1, 2] ∧ o.placed = none ∧ (s.classOf 160).laneRows = 1
        ∧ (∃ c ∈ candidates s 160 false true, c.sid = 17 ∧ c.k = 0 ∧ (∀ d ∈ candidates s 160 false true, d ≠ c → Spec.Sooner c d) ∧ Spec.OldestEntry s c.sid o v)
        ∧ ∃ x, Spec.vmem i v = some x ∧ x.store = st ∧ Spec.noScale i = true ∧ Readable v x.reads ∧ v.me.badTy x.ty anyTy = false ∧ v.me.elemTy x.ty ≠ .lns6
          ∧ Held v (v.me.elemTy x.ty) [x.dst] ∧ (∀ r ∈ Spec.regList x.dst x.fields (v.me.elemTy x.ty), r < 64 ∧ r < v.me.vheld)
          ∧ (∀ r ∈ x.names, r.val < v.me.vheld)
          ∧ ∃ pw, Spec.Placed v x.spc (if x.store then .wr else .rd) x.plainOk (x.pieces (v.me.elemTy x.ty)) pw)
    ∧ (let s := tWork (.vectorGroupIssue 1) 0 [{ tEntry (.vld .i32 false 15 1 0 0) with placed := some [] }]
       candidates s 0 false true = [⟨17, 0, false, 1, 5, 0, false⟩] ∧ ({ tEntry (.vld .i32 false 15 1 0 0) with placed := some [] } : VOp).placed.isSome = true)
    ∧ (∃ sid, (tE (.promotion sid)).input = some (.promotion sid))
    ∧ (let s := { tE (.loadReplyAbandon 17) with cycle := 2048, others := [(17, tBusy 0 [{ tEntry tVwait with wait := some .loadReply }])] }
       ∃ o, (s.strand 17).viq = o :: [] ∧ o.wait = some .loadReply ∧ o.waitFrom + 2048 ≤ s.cycle) := by
  refine ⟨⟨rfl, rfl, rfl, handled_of rfl (by decide)⟩, ?_, ?_, by decide +kernel, ⟨16, rfl⟩, _, rfl, rfl, by decide⟩
  · intro n vl h
    simp only [List.mem_cons, List.not_mem_nil, or_false, Prod.mk.injEq] at h
    rcases h with ⟨rfl, rfl⟩ | ⟨rfl, rfl⟩
    · exact ⟨⟨_, List.Mem.head _, rfl, rfl, by unfold Spec.Sooner; decide +kernel, oldest_of rfl rfl rfl rfl rfl rfl rfl⟩, by decide, by decide,
        _, rfl, readable_of rfl rfl, by decide, by decide, by decide, by unfold Held; decide, by decide +kernel, by decide +kernel⟩
    · exact ⟨⟨_, List.Mem.head _, rfl, rfl, by unfold Spec.Sooner; decide +kernel, oldest_of rfl rfl rfl rfl rfl rfl rfl⟩, by decide, by decide,
        _, rfl, readable_of rfl rfl, by decide, by decide, by decide, by unfold Held; decide, by decide +kernel, by decide +kernel⟩
  · intro st
    cases st <;>
      exact ⟨by decide, rfl, by decide, ⟨_, List.Mem.head _, rfl, rfl, by unfold Spec.Sooner; decide +kernel, oldest_of rfl rfl rfl rfl rfl rfl rfl⟩,
        _, rfl, rfl, rfl, readable_of rfl rfl, by decide, by decide, by unfold Held; decide, by decide, by decide, _, placed_of (by decide +kernel)⟩

/-- A load whose places are known and that waits for its reply, and what it finds. -/
def tLoad : VOp :=
  let v := tView (tWork (.loadReply 17) 0 [tEntry (.vld .i32 false 15 1 0 0) 40]) 17 (tEntry (.vld .i32 false 15 1 0 0) 40)
  { tEntry (.vld .i32 false 15 1 0 0) 40 with
    wait := some .loadReply
    placed := some (match Spec.vmem (.vld .i32 false 15 1 0 0) v with
      | some x => tPlaces v x.spc .rd x.plainOk (x.pieces .i32)
      | none => []) }

/-- A full/empty load that waits for its granules. -/
def tFe : VOp := { tEntry (.vldFe .i32 true 15 0 0) with wait := some (.fe [2 ^ 63 / 16] true 0 0) }

def tMma : VOp := { tEntry (.mmaO .dflt false false true 0 0 0) with wait := some .mma }

theorem witness_replies :
    (let s := tWork (.loadReply 17) 0 [tLoad]
     let v := tView s 17 tLoad
     Spec.OldestEntry s 17 tLoad v ∧ tLoad.wait = some .loadReply ∧ pipelineKind tLoad.instr = 2
      ∧ ∃ x all, tLoad.placed = some all ∧ Spec.vmem tLoad.instr v = some x ∧ Spec.noScale tLoad.instr = true ∧ Readable v x.reads ∧ v.me.badTy x.ty anyTy = false
        ∧ v.me.elemTy x.ty ≠ .lns6 ∧ Held v (v.me.elemTy x.ty) [x.dst]
        ∧ (∀ r ∈ Spec.regList x.dst x.fields (v.me.elemTy x.ty), r < 64 ∧ r < v.me.vheld) ∧ (∀ r ∈ x.names, r.val < v.me.vheld)
        ∧ all.map (·.1) = x.pieces (v.me.elemTy x.ty)
        ∧ ∃ w, decodeInto v.ctx ((all.filter fun p => p.1.lane ∈ v.me.lanes x.mask).flatMap fun p => p.2.sectors p.1.n) v = .ok w
          ∧ dataPoison w (all.filter fun p => p.1.lane ∈ v.me.lanes x.mask) = none)
    ∧ (let s := { tWork (.feAccessPerform 17) 0 [tFe] with full := [(2 ^ 63 / 16, true)] }
       let v := tView s 17 tFe
       let gs := [2 ^ 63 / 16]
       Spec.OldestEntry s 17 tFe v ∧ feNeeds (s.strand 17) = some (gs, true) ∧ s.mpois = [] ∧ s.t2lost = []
        ∧ ∃ x, Spec.fullEmpty tFe.instr = some x ∧ x.load = true ∧ tFe.wait = some (.fe gs x.load 0 0) ∧ Readable v [x.base] ∧ v.me.badTy x.ty notLns = false
          ∧ Held v (v.me.elemTy x.ty) [x.dst] ∧ v.me.lanes x.mask ≠ []
          ∧ (∃ pw, Spec.Placed v .sp .rd false
            (Spec.pieceList x.dst 1 (v.me.lanes x.mask) (fun n l _ => Spec.effective v x.base x.off + BitVec.ofNat 64 (l * n)) (v.me.elemTy x.ty)) pw
            ∧ gs = placedGranules pw)
          ∧ (∀ g ∈ gs, tget false s.full g = x.load) ∧ feBehind s 17 gs x.load = false)
    ∧ (let s := tWork (.mmaComplete 17) 0 [tMma]
       let v := tView s 17 tMma
       Spec.OldestEntry s 17 tMma v ∧ tMma.wait = some .mma ∧ ∃ op ordered, Spec.multiply tMma.instr = some (op, ordered) ∧ Spec.multiplies v op) := by
  refine ⟨⟨oldest_of rfl rfl rfl rfl rfl rfl rfl, rfl, rfl, _, _, rfl, rfl, rfl, readable_of rfl rfl, by decide, by decide, by unfold Held; decide, by decide, by decide,
      by decide +kernel, _, decode_none (by decide +kernel), by decide +kernel⟩,
    ⟨oldest_of rfl rfl rfl rfl rfl rfl rfl, rfl, rfl, rfl, _, rfl, rfl, rfl, readable_of rfl rfl, by decide, by unfold Held; decide, by decide +kernel,
      ⟨_, placed_of (by decide +kernel), by decide +kernel⟩, by decide +kernel, by decide +kernel⟩,
    oldest_of rfl rfl rfl rfl rfl rfl rfl, rfl, _, _, rfl, by unfold Spec.multiplies; decide⟩

/-- The small state with a queue of its own, with an event at hand. -/
def tOwn (e : Event) (o : VOp) : State := tEv e fun m => { m with viq := [o] }

def tFlags (dl : Option Nat) : VOp := { tEntry tVwait with wait := some (.vwait tVwait 9 dl) }

theorem witness_waits :
    (∀ w x, Spec.expired w = some x → let s := { tEv (.crewWatchdogExpire 16) fun m => { m with wait := some w } with cycle := 2 ^ 40 }
      (switchTo 16 s).me.run = .running ∧ (switchTo 16 s).myGrid.lrec.watchdog ≤ (switchTo 16 s).me.waitCount + (s.cycle - (switchTo 16 s).me.waitFrom)
        ∧ Handled (switchTo 16 s) ∧ (switchTo 16 s).me.wait = some w)
    ∧ (∀ w ∈ [Wait.bsync 15, .gbar, .regclm 1, .colwait, .hpop 3 0 0, .sbwait 15 true 0, .tldE 15], (Spec.expired w).isSome = true)
    ∧ (let s := { tOwn (.crewWatchdogExpire 16) (tFlags none) with cycle := 2 ^ 40 }
       Spec.OldestEntry s 16 (tFlags none) (tView s 16 (tFlags none)) ∧ Handled (tView s 16 (tFlags none))
        ∧ (switchTo 16 s).myGrid.lrec.watchdog ≤ (tFlags none).waitCount + (s.cycle - (tFlags none).waitFrom))
    ∧ (let s := tEv (.idleDeadline 16) fun m => { m with wait := some (.idle (some 0)) }
       (s.strand 16).wait = some (.idle (some 0)) ∧ 0 ≤ s.cycle)
    ∧ (let s := tOwn (.vwaitLaneMet 16) (tFlags none)
       let v := tView s 16 (tFlags none)
       let x : Spec.IdxSpec := ⟨.i32, .gen, 14, 1, 15, none, 0⟩
       let left := (List.range v.me.vlmax).filter fun l => (9 : Mask).getLsbD l && !v.me.deadmask.getLsbD l
       Spec.OldestEntry s 16 (tFlags none) v ∧ s.mpois = [] ∧ s.t2lost = [] ∧ (∀ l ∈ left, x.at_ v l ≠ .fault ∧ x.at_ v l ≠ .skip)
        ∧ ∃ pw, Spec.Placed v x.spc .rd false (left.filterMap fun l => match x.at_ v l with
          | .addr y => some ({ lane := l, tag := (14 : VReg).val, addr := y, n := elemBytes .i32, align := elemBytes .i32 } : Piece)
          | _ => none) pw)
    ∧ (let s := tOwn (.vwaitTimeout 16) (tFlags (some 0))
       Spec.OldestEntry s 16 (tFlags (some 0)) (tView s 16 (tFlags (some 0))) ∧ (tFlags (some 0)).wait = some (.vwait tVwait 9 (some 0)) ∧ 0 ≤ s.cycle)
    ∧ (let p (k : Nat) : PStore := ⟨0, 16, k, 0, [1, 2], 0⟩
       let s := { tE (.storePerformed 0 1) with sbuf := [p 0x100, p 0x102] }
       s.sbuf[1]? = some (p 0x102) ∧ (p 0x102).core = 0
        ∧ (∀ q ∈ s.sbuf.take 1, q.core = 0 → (p 0x102).key + (p 0x102).bytes.length ≤ q.key ∨ q.key + q.bytes.length ≤ (p 0x102).key)
        ∧ (∀ r ∈ s.rstores, (p 0x102).key + (p 0x102).bytes.length ≤ r.key ∨ r.key + r.bytes.length ≤ (p 0x102).key)
        ∧ lostDevice s 0x102 = none ∧ lostTier2 s 0x102 = false) := by
  refine ⟨fun w x _ => ⟨rfl, show tGrid.lrec.watchdog ≤ 0 + (2 ^ 40 - 0) by decide, handled_of rfl (show bitsOf tMe.trapvec 5 0 ≠ 0 by decide), rfl⟩, by decide,
    ⟨oldest_of rfl rfl rfl rfl rfl rfl rfl, handled_of rfl (by decide), by decide⟩, ⟨rfl, by decide⟩,
    ⟨oldest_of rfl rfl rfl rfl rfl rfl rfl, rfl, rfl, ?_, _, placed_of (by decide +kernel)⟩, ⟨oldest_of rfl rfl rfl rfl rfl rfl rfl, rfl, by decide⟩,
    rfl, rfl, by decide, by decide, by decide +kernel, by decide +kernel⟩
  intro l _
  have hb : (tView (tOwn (.vwaitLaneMet 16) (tFlags none)) 16 (tFlags none)).me.box 15 l = 0 := rfl
  simp only [Spec.IdxSpec.at_]
  exact ⟨fun h => Spec.Index.noConfusion h, fun h => Spec.Index.noConfusion h⟩

/-- The small state with an event at hand and another strand, crew and grid. -/
def tEvs (e : Event) (f : Strand → Strand) (c : Crew → Crew) (g : Grid → Grid) : State :=
  { tS with input := some e, me := f tMe, crews := [(1, c tCrew)], grids := [(0, g tGrid)] }
def tEvC (e : Event) (c : Crew → Crew) : State := tEvs e id c id
def tEvG (e : Event) (g : Grid → Grid) : State := tEvs e id id g

theorem witness_pool :
    (let s := tEvs (.regclmGrant 1) (fun m => { m with wait := some (.regclm 16) }) (fun c => { c with claims := [⟨16, 16, 16⟩] }) id
     (s.crew 1).claims = [⟨16, 16, 16⟩] ∧ 16 ≤ (s.crew 1).freeRows.length ∧ (s.strand 16).wait = some (.regclm 16))
    ∧ (let s := tEvC (.rowsFreed 1) fun c => { c with returning := [(16, [([], false)])] }
       (s.crew 1).claims = [] ∧ ∀ e ∈ (s.crew 1).returning, (s.strand e.1).viq = [])
    ∧ (let s := tEvs (.regDeadlockDeclare 1) (fun m => { m with wait := some (.regclm 17) }) (fun c => { c with claims := [⟨16, 17, 17⟩] }) id
       let c := s.crew 1
       c.claims = [⟨16, 17, 17⟩] ∧ c.state = .resident ∧ c.returning = [] ∧ c.freeRows.length < 17 ∧ (c.claims.map (·.sid)).Nodup
        ∧ ∀ i ∈ c.sids, (s.strand i).vheld = 0 ∨ (s.strand i).run = .drained ∨ ∃ p ∈ c.claims, p.sid = i)
    ∧ (let u := switchTo 16 (tEv (.regDeadlockTrap 16) fun m => { m with due := some (.regDeadlock, 1, 0, 0) })
       u.me.due = some (.regDeadlock, 1, 0, 0) ∧ u.me.run = .running ∧ Handled u) :=
  ⟨by decide, by decide, by decide, rfl, rfl, handled_of rfl (show bitsOf tMe.trapvec 5 0 ≠ 0 by decide)⟩

theorem witness_drained :
    (let s := tEvs (.strandDrained 16) (fun m => { m with run := .halted }) id id
     let m := s.strand 16
     let c := s.crew m.crew
     m.run = .halted ∧ m.viq = [] ∧ (∀ l ∈ c.landings, l.sid ≠ 16) ∧ (∀ k ∈ s.colls, k.sid ≠ 16) ∧ c.claims = [] ∧ c.state = .resident
      ∧ (∀ i ∈ c.sids, i ≠ 16 → (s.strand i).run = .drained) ∧ ∀ f ∈ s.linkFail, f.1 ∉ c.sids)
    ∧ (let s := { tEvs (.strandDrained 16) (fun m => { m with run := .halted }) (fun c => { c with sids := [16, 17] }) id with
        others := [(17, { crew := 1, run := .running })] }
       ∃ i ∈ (s.crew (s.strand 16).crew).sids, i ≠ 16 ∧ (s.strand i).run ≠ .drained)
    ∧ (let s := { tEvs (.strandDrained 16) (fun m => { m with run := .halted }) id id with linkFail := [(16, 3, 0x10080)] }
       s.linkFail.find? (fun e => e.1 ∈ (s.crew (s.strand 16).crew).sids) = some (16, 3, 0x10080)) :=
  ⟨by decide, ⟨17, by decide, by decide, by decide⟩, by decide⟩

theorem witness_queries :
    (∀ n, n = 0 ∨ n = 1 →
      let s := tEvs (.wqryService 0) id (fun c => { c with queries := [⟨16, 0, none⟩] })
        (fun g => { g with asks := [(0, 16)], lrec := { g.lrec with wsx := 1, wsy := n } })
      (0, 16) ∈ (s.grid 0).asks ∧ 0 ≤ s.cycle ∧ (∀ y ∈ (s.grid 0).asks, y ≠ (0, 16) → s.cycle < y.1) ∧ (s.crew (s.strand 16).crew).queries = [] ++ [⟨16, 0, none⟩] ++ [] ∧ (s.grid 0).item = 0
        ∧ (s.grid 0).lrec.wsx * (s.grid 0).lrec.wsy = n)
    ∧ (let s := tEvC (.wqryReply 16) fun c => { c with queries := [⟨16, 0, some (List.replicate 16 0xFF)⟩] }
       let c := s.crew (s.strand 16).crew
       c.queries.find? (·.sid = 16) = some ⟨16, 0, some (List.replicate 16 0xFF)⟩ ∧ c.state = .resident
        ∧ tget false s.full (cspKey (clusterOf c.core) (c.cspBase + 0) / 16) = false ∧ s.t2lost = [])
    ∧ (let s := tEvC (.tcopyGranuleLand 1) fun c => { c with landings := [{ sid := 16, off := 4080, bytes := List.replicate 16 1, poison := true, sb := some 3 }] }
       let c := s.crew 1
       c.landings = [{ sid := 16, off := 4080, bytes := List.replicate 16 1, poison := true, sb := some 3 }] ∧ (List.replicate 16 (1 : Byte)).length = 16 ∧ c.cspBase % 16 = 0 ∧ s.t2lost = [])
    ∧ (let s := tEvC (.tldEEngineRelease 16) fun c => { c with releases := [(16, 3, [9])] }
       (s.crew (s.strand 16).crew).releases.find? (·.1 = 16) = some (16, 3, [9])) := by
  refine ⟨?_, by decide, by decide, by decide⟩
  rintro n (rfl | rfl) <;> decide

/-- The strand's collective of the two members of group 5. -/
def tOp (bcast armed : Bool) (own : List (Nat × Nat × List Byte)) : Coll :=
  ⟨0, 5, 0, 16, 1, 64, 16, bcast, .i32, .add, 1, none, own.map fun e => (e.1, some e.2), armed⟩

def tColls (e : Event) (broken : Bool) (x : Coll) : State :=
  { tEvC e id with groups := [(groupKey 0 5, { valid := true, size := 2, grid := 0, broken := broken })], colls := [x] }

def tBlock (v : Byte) : List Byte := List.replicate 16 v

theorem witness_collectives :
    (let x := tOp false false [(0, 2, tBlock 1)]
     let s := tColls (.collectiveArm 0 5 [(1, 2, tBlock 3)]) false x
     let e := tget {} s.groups (groupKey 0 5)
     s.colls.find? (fun y => y.part = 0 && y.group = 5 && !y.armed) = some x ∧ e.valid = true ∧ e.broken = false
      ∧ (([(1, 2, tBlock 3)] : List (Nat × Nat × List Byte)).map (·.1)).Nodup ∧ (tget none x.parts e.rank).isSome = true
      ∧ ∀ r < e.size, r = e.rank ∨ ∃ y ∈ ([(1, 2, tBlock 3)] : List (Nat × Nat × List Byte)), y.1 = r)
    ∧ (let x := tOp false false [(0, 2, tBlock 1)]
       let s := tColls (.collectiveComplete 0 5) true x
       s.colls.find? (fun y => y.part = 0 && y.group = 5 && (y.armed || (tget {} s.groups (groupKey 0 5)).broken)) = some x
        ∧ (s.crew (s.strand x.sid).crew).state = .resident ∧ s.t2lost = [] ∧ (tget {} s.groups (groupKey 0 5)).broken = true)
    ∧ ∀ bcast : Bool,
      let x := tOp bcast true [(0, 2, tBlock 1), (1, 2, tBlock 3)]
      let s := tColls (.collectiveComplete 0 5) false x
      let e := tget {} s.groups (groupKey 0 5)
      s.colls.find? (fun y => y.part = 0 && y.group = 5 && (y.armed || e.broken)) = some x ∧ e.broken = false ∧ e.valid = true ∧ e.size = 2
        ∧ x.len % 16 = 0 ∧ x.root < e.size ∧ x.bcast = bcast
        ∧ ∀ r < e.size, tget none x.parts r = some (2, [tBlock 1, tBlock 3].getD r []) ∧ ([tBlock 1, tBlock 3].getD r []).length = x.len := by
  refine ⟨⟨rfl, rfl, rfl, by decide, rfl, by decide⟩, ⟨rfl, rfl, rfl, rfl⟩, ?_⟩
  intro b
  cases b <;> exact ⟨rfl, rfl, rfl, rfl, by decide, by decide, rfl, by decide⟩

/-- A table at 0x10080 of one image at 0x10100, of capacity 1 and without items. -/
def tHeapImage : State :=
  { tEvG (.heapBind 0) fun g => { g with lrec := { g.lrec with flags := 17, heaptab := 0x10080 } } with
    parts := [(0, { en := true, stop := false, chmask := 1, heaps := 1 })]
    mem := identityTables [(frameKey 0 0x10081, 1), (frameKey 0 0x10082, 1), (frameKey 0 0x10100, 1)] }

def isHeap : Bind → Bool
  | .heap _ => true
  | _ => false

theorem witness_heaps :
    (let s := { tHeap (fun h => { h with waiting := [16] }) with
        input := some (.hpopWake 2), me := { tMe with wait := some (.hpop 0 1 2) } }
     let x := s.heap 2
     x.waiting = [16] ∧ (s.strand 16).wait = some (.hpop 0 1 2) ∧ twf 0 x.gain = true ∧ x.done = false ∧ x.tol ≤ x.resid
      ∧ ¬ (x.running = 0 ∧ x.resid = 0) ∧ Spec.takes x 2)
    ∧ (let g := tHeapImage.grid 0
       g.state = .ready ∧ g.reason = 0 ∧ g.heaps = [] ∧ g.lrec.nheap = 1 ∧ tHeapImage.freeze.heaps = [] ∧ heapTable tHeapImage g.ctx g.lrec = .bytes [0, 1, 1, 0, 0, 0, 0, 0]
        ∧ 1 ≤ (freeSlots tHeapImage g.part).length
      ∧ slotsHeld tHeapImage g.part + 1 ≤ (tHeapImage.part g.part).heaps ∧ (tableEntries 1 [0, 1, 1, 0, 0, 0, 0, 0]).any (imageHeld tHeapImage g.vf) = false
      ∧ ∀ va ∈ tableEntries 1 [0, 1, 1, 0, 0, 0, 0, 0], isHeap (readImage tHeapImage g.ctx va) = true)
    ∧ (((tHeap id).heap 2).grid ≠ none)
    ∧ (let s := { tHeap (fun h => { h with image := 0x10100, pages := [(0x10000, frameKey 0 0x10000)] }) with
        input := some (.heapWriteBack 2), grids := [(0, { tGrid with heaps := [2], completed := 1 })] }
       let h := s.heap 2
       h.grid = some 0 ∧ (s.grid 0).lrec.crews ≤ (s.grid 0).completed ∧ s.t2lost = []
        ∧ h.pages = [(0x10000, frameKey 0 0x10000)] ∧ 0x10000 ≤ h.image.toNat ∧ h.image.toNat + h.bytes.length ≤ 0x10000 + 65536) := by
  refine ⟨⟨rfl, rfl, rfl, rfl, by decide, by decide, ⟨by decide, rfl⟩, by decide, ?_⟩, ?_, by decide, ⟨rfl, by decide, rfl, rfl, by decide, by decide +kernel⟩⟩
  · rintro u ⟨hu, -⟩
    have : u < 3 := hu
    interval_cases u <;> decide
  · exact ⟨rfl, rfl, rfl, by decide, rfl, by decide +kernel, by decide +kernel, by decide +kernel, by decide +kernel, by decide +kernel⟩

def tOver (r : LaunchRec → LaunchRec) : State :=
  tEvs (.gridComplete 0) id (fun c => { c with state := .ended }) fun g => { g with lrec := r g.lrec, completed := 1 }

theorem witness_completion :
    (let s := tOver id
     gridOver s 0 = true ∧ s.t2lost = [] ∧ (s.grid 0).lrec.comprec = 0 ∧ (s.grid 0).lrec.donectr = 0)
    ∧ (let s := tOver fun r => { r with donectr := 0x10FFF8 }
       let g := s.grid 0
       let va := g.lrec.donectr.toNat
       gridOver s 0 = true ∧ g.lrec.comprec = 0 ∧ va ≠ 0 ∧ va % 8 = 0 ∧ fetchBytes s g.ctx va 8 [] = .bytes (List.replicate 8 0)
        ∧ pagesOf s g.ctx .wr va (pageCount va 8) = .ok [(va / 65536 * 65536, frameKey 0 0x100000)])
    ∧ (let s := tOver fun r => { r with comprec := 0x10080 }
       let g := s.grid 0
       let c : Crew := { tCrew with state := .ended }
       let va := g.lrec.comprec.toNat + c.index * (64 + 128 * g.decl.strands)
       gridOver s 0 = true ∧ g.reason = 0 ∧ s.crews.filter (fun e => e.2.grid = 0 && e.2.state = .ended) = [(1, c)] ∧ g.lrec.comprec ≠ 0
        ∧ g.lrec.donectr = 0 ∧ va % 64 = 0
        ∧ pagesOf s g.ctx .wr va (pageCount va (crewRecord s c).length) = .ok [(va / 65536 * 65536, frameKey 0 0x10000)]) :=
  ⟨by decide, by decide +kernel, by decide +kernel⟩

def tReady : Grid :=
  { state := .ready, decl := { entry := 0x10001, strands := 2, quota := 64, spbytes := 16, llbytes := 4 }, lrec := { crews := 2 }, dispatched := 1 }
def tQ : QueueReg := { en := true, preempt := true, prio := 3, grids := [0] }

/-- The small state with a grid in a queue, of which a crew is to be dispatched. -/
def tDisp (e : Event) (g : Grid → Grid) : State :=
  { tE e with
    grids := [(0, g tReady)], queues := [(0, tQ)]
    vfs := [(0, { en := true, part := 0, s2root := 0x1000, s1root := 0x4000, savesize := 16 })] }

theorem witness_queueRegisters :
    tE (.qwidxWrite 767 5) = { tS with input := some (.qwidxWrite 767 5) } ∧ tE (.qstatClear 0 15) = { tS with input := some (.qstatClear 0 15) }
      ∧ tE (.queueEnable 0) = { tS with input := some (.queueEnable 0) } ∧ tE (.queueDisable 0) = { tS with input := some (.queueDisable 0) } :=
  ⟨rfl, rfl, rfl, rfl⟩

/-- A queue with one record to read. -/
def tRecord (base : Word) : State := { tE (.launchRecordRead 0) with queues := [(0, { en := true, qbase := base, widx := 1 })] }

theorem witness_records :
    (∀ base, let x := (tRecord base).queue 0
      x.en = true ∧ x.lastGrid = none ∧ x.ridx ≠ x.widx ∧ ((tRecord base).vf x.vf).en = true ∧ ((tRecord base).vf x.vf).part = x.part
        ∧ (tRecord base).freeze.state = .idle)
    ∧ (∀ g : Grid, g = { state := .complete } ∨ g = { reason := 1 } → let s := { tRecord 0x10080 with queues := [(0, { en := true, qbase := 0x10080, widx := 1, lastGrid := some 0 })], grids := [(0, g)] }
      (s.queue 0).lastGrid = some 0 ∧ ((s.grid 0).state = .complete ∨ (s.grid 0).reason ≠ 0))
    ∧ fetchBytes (tRecord 0x40000000) ((tRecord 0x40000000).queue 0).ctx 0x40000000 128 [] = .unreadable
    ∧ fetchBytes (tRecord 0x10080) ((tRecord 0x10080).queue 0).ctx 0x10080 128 [] = .bytes (List.replicate 128 0) := by
  refine ⟨fun base => ⟨rfl, rfl, ?_, rfl, rfl, rfl⟩, ?_, by decide +kernel, by decide +kernel⟩
  · show (0 : Word32) ≠ 1
    decide
  · rintro g (rfl | rfl) <;> exact ⟨rfl, by decide⟩

/-- A copied record whose descriptor at 0x10100 has `b` in the top byte of its quota. -/
def tCopied (b : Byte) : State :=
  { tDisp (.gridReady 0) (fun g => { g with state := .copied, dispatched := 0, lrec := { g.lrec with kernel := 0x10100 } }) with
    mem := identityTables ((if b = 0 then [] else [(frameKey 0 0x1010F, b)]).foldl (fun m e => tset 0 m e.1 e.2) [(frameKey 0 0x10108, 1)]) }

theorem witness_ready :
    ∀ b, b = 0 ∨ b = 1 →
      let s := tCopied b
      let g := s.grid 0
      let d : Decl := { quota := b.toNat * 2 ^ 24 }
      mayReady s g = true ∧ depMet s g.ctx g.lrec.dep0a g.lrec.dep0v = some true ∧ depMet s g.ctx g.lrec.dep1a g.lrec.dep1v = some true
        ∧ heapsReady s g = .ok ∧ readDesc s g = some d ∧ (tooLarge s g d = if b = 0 then false else true) ∧ groupBusy s g = false ∧ g.lrec.isGang = false := by
  rintro b (rfl | rfl)
  · exact ⟨by decide +kernel, rfl, rfl, rfl, by decide +kernel, by decide +kernel, rfl, rfl⟩
  · exact ⟨by decide +kernel, rfl, rfl, rfl, by decide +kernel, by decide +kernel, rfl, rfl⟩

def isFresh : Option Ready → Bool
  | some (.fresh 0) => true
  | _ => false

theorem witness_dispatch :
    let s := tDisp (.crewDispatch 0) id
    let r := chooseCrew 0 16 (chargeAll 0 s)
    dispatches s 0 = true ∧ (∀ e ∈ s.grids, e.2.owed = false) ∧ isFresh r.1 = true ∧ r.2.nextCrew = s.nextCrew ∧ (∀ e ∈ r.2.crews, e.2.lazy = false) ∧ r.2.grids = s.grids
      ∧ placeFor r.2 0 tReady.decl = some (0, false) ∧ tReady.decl.strands ≤ (freeSlotsOf r.2 (0, false)).length
      ∧ arenaRoom r.2 0 (imageRoom tReady.decl) = some 0 ∧ roomAt (cspHeld r.2 0) (2 ^ 32) tReady.decl.csp = some 4096
      ∧ roomAt (laneHeld r.2 0) (2 ^ 32) tReady.decl.laneBytes = some 65536 ∧ s.assayer.en = false ∧ r.2.assayer = s.assayer := by
  refine ⟨?_, ?_, ?_, ?_, ?_, ?_, ?_, ?_, ?_, ?_, ?_, rfl, ?_⟩ <;> decide +kernel

theorem witness_yield :
    let s := { tDisp (.yieldThreshold 0) (fun g => { g with decl := { g.decl with spbytes := 2 ^ 30 } }) with
      cycle := 2 ^ 30, me := { tMe with wait := some (.bsync 0) } }
    let g := s.grid 0
    offersFresh s g = true ∧ residentOf s 0 = [(1, tCrew)] ∧ dispatches s g.part = true ∧ mayRun s g = true ∧ s.crew 1 = tCrew
      ∧ (∃ i ∈ tCrew.sids, (s.strand i).run = .running)
      ∧ (∀ i ∈ tCrew.sids, (s.strand i).run = .running → (s.strand i).blockedFrom = some 0 ∧ 0 + g.lrec.yieldCycles ≤ s.cycle)
      ∧ g.owed = false ∧ (dispatchNext 0 .running s).isSome = false := by
  refine ⟨by decide, by decide, by decide, by decide, by decide, by decide, by decide, by decide, by decide +kernel⟩

def tVictim : State :=
  { tE (.priorityPreempt 0) with
    cycle := 1024, crews := [(1, { tCrew with grid := 1, decl := { tDecl with quota := 2050 } })]
    grids := [(0, { tReady with noRoom := some 0, decl := { tReady.decl with quota := 2050 } }), (1, { tGrid with queue := 1, lrec := { crews := 1 } })]
    queues := [(0, tQ), (1, { prio := 2 })] }

theorem witness_priority :
    let x := tVictim.queue 0
    x.preempt = true ∧ x.grids = [0] ∧ (tVictim.grid 0).noRoom = some 0 ∧ 0 + 1024 ≤ tVictim.cycle ∧ (readyOf tVictim 0).isNone = true
      ∧ readyCrews tVictim 0 = [] ∧ roomComing tVictim x.part (tVictim.grid 0).decl = false ∧ unitsOf tVictim x.part = [(0, false)] ∧ neededOn tVictim x.part x.prio (tVictim.grid 0).decl (0, false) = some [1] := by
  refine ⟨rfl, rfl, rfl, by decide, ?_, ?_, ?_, ?_, ?_⟩ <;> decide +kernel

/-- The small state with a member of gang 7. -/
def tGang (e : Event) (x : Gang) (c : Crew → Crew) : State :=
  { tEvC e c with gangs := [(7, x)], cycle := 2 ^ 30 }
def tMember : Gang := { grid := some 0, size := 2, rank := 1 }

def isWhole : Option Ready → Bool
  | some (.whole 0) => true
  | _ => false

theorem witness_gangs :
    (let s := { tDisp (.gangPrepare 0) (fun g => { g with dispatched := 0, lrec := { g.lrec with crews := 1, gang := 0x202 } }) with crews := [] }
     let g := s.grid 0
     let r := chooseCrew g.part 16 (chargeAll g.part s)
     g.state = .ready ∧ g.lrec.isGang = true ∧ dispatches s g.part = true ∧ g.lrec.eager = false ∧ isWhole r.1 = true ∧ (r.2.grid 0).lrec = g.lrec
      ∧ ((dispatchAll 0 .absent 1 r.2).map fun u => decide (u.outbox = s.outbox ∧ u.gangs = s.gangs ∧ u.cycle = s.cycle)) = some true)
    ∧ (let s := { tGang (.prepared 7 1) { tMember with rank := 0, prepared := [0] } id with cycle := 1880000 }
       let x := gang s 7
       x.grid.isSome = true ∧ x.rank = 0 ∧ x.committed = false ∧ (∀ r < x.size, r = 1 ∨ r ∈ x.prepared) ∧ s.cycle ≤ x.since + 1880000)
    ∧ (let s := tGang (.commit 7) tMember fun c => { c with state := .reserved }
       (gang s 7).grid = some 0 ∧ (gang s 7).committed = false ∧ (crewsOf s 0).map (·.1) = [1] ∧ (s.crew 1).state = .reserved ∧ (s.crew 1).grid = 0)
    ∧ (∀ b : Bool, let s := tGang (.abort 7 1) tMember fun c => { c with state := if b then .reserved else .resident }
       (gang s 7).committed = false ∧ (gang s 7).grid.or (gangGrid s 7) = some 0 ∧ (s.grid 0).reason = 0
        ∧ (if b then ∀ e ∈ crewsOf s 0, e.2.state = .reserved else (crewsOf s 0).map (·.1) = [1] ∧ (s.crew 1).state = .resident))
    ∧ (let s := tDisp (.abort 7 1) fun g => { g with lrec := { g.lrec with gang := 0x702 } }
       (gang s 2).grid = none ∧ (gang s 9).grid = none ∧ gangGrid s 9 = none ∧ (gang s 9).committed = false)
    ∧ (gang (tE (.gangRefusal 7 1 4)) 7).committed = false
    ∧ (let s := tGang (.gangPrepareTimeout 7) { tMember with rank := 0, prepared := [0] } id
       let x := gang s 7
       x.grid.isSome = true ∧ x.rank = 0 ∧ x.committed = false ∧ s.freeze.state = .idle ∧ x.since + 1880000 ≤ s.cycle ∧ 1 < x.size ∧ 1 ∉ x.prepared ∧ ∀ r < 1, r ∈ x.prepared)
    ∧ (let s := tGang (.gangCommitTimeout 7) tMember id
       let x := gang s 7
       x.grid = some 0 ∧ x.rank ≠ 0 ∧ x.committed = false ∧ s.freeze.state = .idle ∧ (s.grid 0).reason = 0 ∧ x.since + 3760000 ≤ s.cycle)
    ∧ (∀ b, let s := tGang (.lost 7 1 0) { tMember with committed := b, rank := 0 } id
       (gang s 7).grid = some 0 ∧ (gang s 7).lost = none ∧ (gang s 7).committed = b ∧ 1 ≠ (gang s 7).rank)
    ∧ (let s := tGang (.lost 7 1 0) { tMember with committed := true } id
       (gang s 7).committed = true ∧ 1 = (gang s 7).rank)
    ∧ (let s := tGang (.linkUnreachable 3 [(7, 0)]) { tMember with committed := true } id
       (gang s 7).grid = some 0 ∧ (gang s 7).lost = none ∧ (gang s 7).committed = true ∧ 0 ≠ (gang s 7).rank)
    ∧ ∀ e, e = Event.gangcmdDiscard ∨ e = .gangcmdResume →
      let s := { tGang e { tMember with committed := true, lost := some 0 } (fun c => { c with state := .lostHeld }) with ras := { gangtag := 7 } }
      s.gangs.find? (fun e => e.1 = s.ras.gangtag.toNat && e.2.grid.isSome && e.2.lost.isSome && !e.2.resumed)
        = some (7, { tMember with committed := true, lost := some 0 }) ∧ 1 ∈ (crewsOf s 0).map (·.1) ∧ (s.crew 1).state = .lostHeld := by
  refine ⟨⟨rfl, by decide, by decide, by decide, by decide +kernel, by decide +kernel, by decide +kernel⟩, by decide, by decide, ?_, by decide, by decide, by decide, by decide,
    ?_, by decide, by decide, ?_⟩
  · intro b; cases b <;> decide
  · intro b; cases b <;> decide
  · rintro e (rfl | rfl) <;> decide

/-! ### Pre-emption, turns, Freeze -/

def tSmall : Decl := { entry := 0x10001, quota := 1, spbytes := 16, llbytes := 1 }

/-- The small state with a crew that holds little and has room in the save arena. -/
def tSaved (e : Event) (c : Crew → Crew) (f : Strand → Strand) : State :=
  { tE e with
    me := f { tMe with vheld := 0, tdecl := 0, zdecl := 0 }
    crews := [(1, c { tCrew with decl := tSmall, image := 0x200000, freeRows := [([], false)] })]
    grids := [(0, { tGrid with decl := tSmall, lrec := { crews := 1 } })], queues := [(0, tQ)]
    vfs := [(0, { en := true, part := 0, s2root := 0x1000, s1root := 0x4000, savesize := 16 })] }

/-- The bytes of a table, zero elsewhere. -/
def tBytes (l : List (Nat × Byte)) (n : Nat) : List Byte := (List.range n).map fun k => tget 0 l k

/-- An image of one strand with an empty opaque section, and with its check code. -/
def tImg : List Byte :=
  tBytes [(0, 1), (9, 20), (64, 64), (65, 5), (72, 128), (73, 18), (80, 128), (81, 18), (88, 128), (89, 19), (96, 192), (97, 19), (576, 1), (578, 1)] 5056
    ++ leBytes 8 (Config.checkCode [] % 2 ^ 29 * 2 ^ 35) ++ zeros 56

def tResume (img : List Byte) : State :=
  tSaved (.crewResume 1) (fun c => { c with state := .ready, frozen := img, imageLen := 5120, stripSaved := true })
    fun m => { m with run := .stopped, vpend := true }

theorem tImg_rest : tImg.drop 5056 = leBytes 8 (Config.checkCode [] % 2 ^ 29 * 2 ^ 35) ++ zeros 56 := by
  unfold tImg; rw [List.append_assoc, List.drop_left' (by decide +kernel)]

theorem header_bits (y : Nat) (h : y < 2 ^ 29) : leVal (leBytes 8 (y * 2 ^ 35)) = y * 2 ^ 35 ∧ bits (y * 2 ^ 35) 31 0 = 0 ∧ bits (y * 2 ^ 35) 63 35 = y := by
  have e : (2 : Nat) ^ 35 = 34359738368 := by decide
  have f : (256 : Nat) ^ 8 = 18446744073709551616 := by decide
  have g : (2 : Nat) ^ 29 = 536870912 := by decide
  rw [leVal_leBytes]
  unfold bits
  rw [e, f, show (2 : Nat) ^ 0 = 1 from rfl, show (2 : Nat) ^ (31 + 1 - 0) = 4294967296 by decide, show (2 : Nat) ^ (63 + 1 - 35) = 536870912 by decide]
  rw [g] at h
  omega

theorem tImg_header : field tImg 5056 8 = Config.checkCode [] % 2 ^ 29 * 2 ^ 35 := by
  unfold field
  rw [tImg_rest, List.take_left' (length_leBytes 8 _)]
  exact (header_bits _ (Nat.mod_lt _ (by decide))).1

theorem tImg_opaque : opaqueAt tImg 0 = 5056 := by decide +kernel
theorem tImg_zero : field tImg (5056 + 8) 56 = 0 := by decide +kernel

theorem opaque_ok (b : List Byte) (o y : Nat) (st : Bool) (cls : Nat) (hy : y < 2 ^ 29) (hs : st = true) (hf : field b o 8 = y * 2 ^ 35)
    (hz : field b (o + 8) 56 = 0) (hc : y = Config.checkCode [] % 2 ^ 29) :
    (!st && decide (bits (field b o 8) 34 32 ≠ cls) || decide (field b (o + 8) 56 ≠ 0)
      || decide (bits (field b o 8) 63 35 ≠ Config.checkCode (List.take (bits (field b o 8) 31 0) (List.drop (o + 64) b)) % 2 ^ 29)) = false := by
  rw [hf, hz, (header_bits y hy).2.1, (header_bits y hy).2.2, List.take_zero, ← hc, hs]
  simp

theorem tImg_taken : imageRefused (tResume tImg) 1 0 ⟨tImg, []⟩ = false := by
  unfold imageRefused
  simp only [Bool.or_eq_false_iff]
  refine ⟨⟨⟨⟨⟨⟨⟨⟨⟨⟨⟨⟨?_, ?_⟩, ?_⟩, ?_⟩, ?_⟩, ?_⟩, ?_⟩, ?_⟩, ?_⟩, ?_⟩, ?_⟩, ?_⟩, ?_⟩
  case refine_11 =>
    rw [show ((tResume tImg).crew 1).decl.strands = 1 from rfl, List.range_one, List.any_cons, List.any_nil, Bool.or_false, tImg_opaque]
    exact opaque_ok tImg 5056 _ _ 0 (Nat.mod_lt _ (by decide)) rfl tImg_header tImg_zero rfl
  all_goals decide +kernel

theorem fetch_frozen (img : List Byte) (h : img ≠ []) : fetchImage (tResume img) 1 = .ok ⟨img, []⟩ := by
  unfold fetchImage
  have e : ((tResume img).crew 1).frozen = img := rfl
  have f : ((tResume img).crew 1).frozenBad = [] := rfl
  simp only [e, f, if_pos h]

theorem tImg_long : tImg.length = 5120 := by decide +kernel
theorem tImg_ne : tImg ≠ [] := fun h => by have := tImg_long; rw [h] at this; exact absurd this (by decide)

theorem witness_resume :
    (let s := tResume tImg
     let c := s.crew 1
     let g := s.grid c.grid
     g.lrec.cores = false ∧ g.lrec.isGang = false ∧ c.state = .ready ∧ c.dbgHold = false ∧ dispatches s g.part = true ∧ mayRun s g = true
      ∧ s.freeze.heaps = [] ∧ g.heaps.length = g.lrec.nheap ∧ resumeUnit s 1 = some (0, false) ∧ (∀ e ∈ s.crews, e.2.lazy = false) ∧ c.lazy = false ∧ c.sids = [16]
      ∧ fetchImage s 1 = .ok ⟨tImg, []⟩ ∧ (s.strand 16).run = .stopped ∧ imageRefused s 1 (s.classOf 0).code ⟨tImg, []⟩ = false
      ∧ freeSlotsOf s (0, false) ≠ [] ∧ c.decl.strands = 1 ∧ c.audited = false
      ∧ (leVal ((tImg.drop (areaBase 0 + 352)).take 8)).testBit 1 = false
      ∧ roomAt (cspHeld s (clusterOf 0)) (2 ^ 32) c.decl.csp = some 0 ∧ roomAt (laneHeld s 0) (2 ^ 32) c.decl.laneBytes = some 0)
    ∧ (let s := tResume [0]
       resumeUnit s 1 = some (0, false) ∧ fetchImage s 1 = .ok ⟨[0], []⟩ ∧ imageRefused s 1 (s.classOf 0).code ⟨[0], []⟩ = true) := by
  refine ⟨⟨rfl, by decide, rfl, rfl, by decide, by decide, rfl, by decide, by decide +kernel, by decide, rfl, rfl, fetch_frozen _ tImg_ne, rfl, tImg_taken, by decide +kernel, rfl, rfl,
    by decide +kernel, by decide +kernel, by decide +kernel⟩, by decide +kernel, fetch_frozen _ (by decide), by decide +kernel⟩

def okOf : Saved → Option State
  | .ok u => some u
  | _ => none

def tCapture : State := tSaved (.stateCapture 1) (fun c => { c with state := .stopping }) fun m => { m with run := .stopped }
def tLazy : State :=
  tSaved (.saveEngineWrite 1) (fun c => { c with state := .ready, lazy := true }) fun m => { m with run := .stopped, vpend := true }

theorem witness_capture :
    (let s := tCapture
     let c := s.crew 1
     let s1 := completeWork 1 s
     let img := imageOf s1 1 false
     storesOut s1 1 = false ∧ (c.sids.all fun i => (s1.strand i).over || (s1.strand i).strip) = false ∧ c.state = .stopping ∧ (∀ i ∈ c.sids, (s.strand i).run ≠ .running)
      ∧ (∀ k ∈ s.colls, k.armed = true → k.sid ∉ c.sids) ∧ (s1.crew 1).state = .stopping ∧ (s1.crew 1).core = c.core ∧ c.wantLazy = false
      ∧ s1.freeze.state = .idle ∧ s1.gangs = []
      ∧ (okOf (writeArena (s1.grid (s1.crew 1).grid).ctx (s1.crew 1).image.toNat img (imagePoison s1 1) s1)).map
        (fun u => decide (u.freeze = s1.freeze ∧ u.gangs = s1.gangs)) = some true)
    ∧ (let s := tLazy
       let c := s.crew 1
       let img := imageOf s 1 c.stripSaved
       let o := offVecOf img
       let n := imageLen (s.strand 16).vheld c.decl.vlmax
       c.lazy = true ∧ c.sids = [16] ∧ (s.strand 16).vpend = true
        ∧ (okOf (writeArena (s.grid c.grid).ctx (c.image.toNat + o) ((img.drop o).take n)
          (((imagePoison s 1).filter fun x => o ≤ x * 64 && x * 64 < o + n).map (· - o / 64)) s)).map
            (fun u => decide (u.crews = s.crews ∧ u.strand 16 = s.strand 16)) = some true) := by
  refine ⟨⟨?_, ?_, rfl, ?_, ?_, ?_, ?_, rfl, ?_, ?_, ?_⟩, rfl, rfl, rfl, ?_⟩ <;> decide +kernel

theorem witness_stops :
    (let s := tEvC (.preemptRequest 1) id
     let c := s.crew 1
     c.state = .resident ∧ c.sids.Nodup ∧ (∀ i ∈ c.sids, (s.strand i).due = none ∧ (s.strand i).run = .running ∧ (s.strand i).viq = []) ∧ stopsAtOnce s c = true)
    ∧ (let s := tEvG (.preemptRequest 1) fun g => { g with lrec := { g.lrec with flags := 0x100 } }
       stopsAtOnce s (s.crew 1) = false ∧ ∀ i ∈ (s.crew 1).sids, (s.strand i).wait = none)
    ∧ (let s := tEv (.preemptRequest 1) fun m => { m with wait := some (.bsync 0) }
       (s.crew 1).state = .resident ∧ (s.crew 1).sids = [16] ∧ (s.strand 16).blocked = true ∧ (s.strand 16).due = none ∧ (s.strand 16).viq = [])
    ∧ (let s := { tEv (.stripWaitExpire 16) fun m => { m with stopReq := true } with cycle := 6000 }
       let m := s.strand 16
       m.stopReq = true ∧ m.run = .running ∧ m.due = none ∧ m.viq = [] ∧ m.wait ≠ some .drain ∧ (s.crew m.crew).reqAt + 6000 ≤ s.cycle)
    ∧ (let s := { tEv (.drainWaitExpire 16) fun m => { m with stopReq := true, wait := some .drain } with cycle := 8000 }
       let m := s.strand 16
       m.stopReq = true ∧ m.run = .running ∧ m.due = none ∧ m.viq = [] ∧ m.wait = some .drain ∧ (s.crew m.crew).reqAt + 8000 ≤ s.cycle) := by
  refine ⟨?_, ?_, ?_, ?_, ?_⟩ <;> decide

/-- Two functions that share partition 0. -/
def tTurns (e : Event) (cycle : Nat) (p : Partition → Partition) : State :=
  { tE e with
    cycle := cycle, parts := [(0, p { en := true, stop := false, chmask := 1, quantum := 1, swwin := 1 })]
    vfs := [(0, { en := true, part := 0 }), (3, { en := true, part := 0 })], queues := [(0, { vf := 3, en := true, widx := 1 })] }

theorem witness_turns :
    (let s := tTurns (.guardBandStart 0) 1880 id
     turning s 0 = true ∧ (s.part 0).guard = false ∧ quantumDeadline s 0 ≤ s.cycle + 7520)
    ∧ (∀ b, let s := tTurns (.quantumEnd 0) 9400 fun p => { p with elastic := b }
       let x := s.part 0
       x.en = true ∧ quantaRun s = true ∧ 2 ≤ (enabledVfs s 0).length ∧ x.qlive = true ∧ x.qstart + 9400 * x.quantum ≤ s.cycle + tget 0 x.excess x.turn)
    ∧ (let s := { tTurns (.quantumEnd 0) 9400 fun p => { p with elastic := true } with queues := [] }
       ∀ v ∈ enabledVfs s 0, v ≠ (s.part 0).turn → hasWork s 0 v = false)
    ∧ (let s := tTurns (.quantumStart 0) 10340 fun p => { p with qlive := false }
       let x := s.part 0
       x.en = true ∧ quantaRun s = true ∧ 2 ≤ (enabledVfs s 0).length ∧ (∀ e ∈ s.crews, e.2.lazy = false) ∧ x.qlive = false ∧ x.elastic = false ∧ x.qstart + 9400 * x.quantum + 940 * (if x.swwin = 0 then swMin s 0 else x.swwin) ≤ s.cycle
        ∧ 3 ∈ enabledVfs s 0 ∧ x.outVf < 3 ∧ (enabledVfs s 0).Pairwise (· < ·))
    ∧ (let s := { tTurns (.quantumStart 0) 1 fun p => { p with qlive := false, elastic := true } with crews := [] }
       (s.part 0).elastic = true ∧ (∀ e ∈ s.crews, (s.grid e.2.grid).vf = (s.part 0).outVf → e.2.state ≠ .resident ∧ e.2.state ≠ .stopping)
        ∧ ∃ v ∈ enabledVfs s 0, hasWork s 0 v = true)
    ∧ (let s := { tTurns (.overrunKill 0) 15040 id with
        crews := [(1, { tCrew with state := .stopping })], colls := [{ tColl with armed := true }] }
       let p := (s.vf 0).part
       (s.part p).outVf = 0 ∧ overrunning s 0 = true ∧ 2 ≤ (enabledVfs s p).length ∧ (s.part p).qend + 15040 ≤ s.cycle)
    ∧ (let s := tTurns (.pageMove 0 244140 true) 0 fun p => { p with elastic := true, t2 := 1 }
       (s.part 0).elastic = true ∧ 244140 < (s.part 0).frames ∧ inTier1 s 0 244140 = false ∧ s.stash = [] ∧ pinned s (0 * 2 ^ 38 + 244140) = false)
    ∧ (let s := { tTurns (.pageMove 0 244140 true) 0 fun p => { p with elastic := true, t2 := 1 } with moved := [(frameSlot 0 5, true)] }
       tier1Used s 0 < tier1Frames (s.part 0))
    ∧ (let s := tTurns (.pageMove 0 244139 false) 0 fun p => { p with elastic := true }
       244139 < (s.part 0).frames ∧ inTier1 s 0 244139 = true) := by
  refine ⟨by decide, ?_, by decide, by decide, ⟨rfl, by decide, 3, by decide, by decide⟩, by decide, by decide +kernel, by decide +kernel, by decide +kernel⟩
  intro b; cases b <;> decide

def tFreeze (e : Event) (st : FrzState) : State := { tE e with crews := [], freeze := { state := st } }

theorem witness_freeze :
    ((tFreeze (.freezeGo 0) .frozen).freeze.state ≠ .idle)
    ∧ (bitsOf (BitVec.ofNat 64 (5723 * 2 ^ 31)) 43 31 > 5722)
    ∧ (bitsOf (BitVec.ofNat 64 (2862 * 2 ^ 31 + 8)) 43 31 > 2861 ∧ (BitVec.ofNat 64 (2862 * 2 ^ 31 + 8)).getLsbD 3 = true)
    ∧ (let s := tFreeze (.freezeGo 0) .idle
       let v : Word := BitVec.ofNat 64 (5722 * 2 ^ 31)
       s.freeze.state = .idle ∧ bitsOf v 43 31 ≤ 5722 ∧ v.getLsbD 3 = false ∧ tier2Free s < freezeBytes s (bitsOf v 43 31))
    ∧ (∀ v : Word, v = 2 ∨ v = BitVec.ofNat 64 (2861 * 2 ^ 31 + 8) →
      let s := tFreeze (.freezeGo v) .idle
      bitsOf v 43 31 ≤ 5722 ∧ (v.getLsbD 3 = true → bitsOf v 43 31 ≤ 2861) ∧ (v.getLsbD 3 = false → freezeBytes s (bitsOf v 43 31) ≤ tier2Free s)
        ∧ s.gangs = [] ∧ s.crews = [])
    ∧ (let s := tFreeze (.freezeBcastReceive 0 none 8) .idle
       (0 = s.plat.pod ∧ (1 : Nat) ≠ s.plat.pod) ∧ s.freeze.state = .idle ∧ (8 : Word).getLsbD 3 = true ∧ bitsOf (8 : Word) 43 31 ≤ 2861
        ∧ s.gangs = [] ∧ s.crews = [])
    ∧ (∀ st, (tFreeze .freezePhaseDone st).input = some .freezePhaseDone ∧ (tFreeze .freezePhaseDone st).freeze.state = st
      ∧ (tFreeze .freezePhaseDone st).freeze.host = false ∧ (tFreeze .freezePhaseDone st).freeze.scope = none
      ∧ (tFreeze .freezePhaseDone st).freeze.demote = 0 ∧ (tFreeze .freezePhaseDone st).heaps = []
      ∧ (tFreeze .freezePhaseDone st).freeze.heaps = [] ∧ ∀ c ∈ (tFreeze .freezePhaseDone st).freeze.crews, stillFrozen (tFreeze .freezePhaseDone st) c = false)
    ∧ (let s := { tFreeze .freezePhaseDone .stopping with
        crews := [(1, { tCrew with state := .frozen })], stash := [⟨0, 3, 5, [1, 2], [], true, 0⟩] }
       s.heaps = [] ∧ ∀ e ∈ s.crews, e.2.state = .frozen ∧ e.2.lazy = false)
    ∧ (let s := { tFreeze .freezePhaseDone .saving with
        crews := [(1, { tCrew with state := .frozen, frozen := [1, 2, 3] })], freeze := { state := .saving, host := true, dest := 0x10080, crews := [1] } }
       s.freeze.host = true ∧ s.freeze.crews = [1] ∧ s.freeze.heaps = [] ∧ s.t2lost = [] ∧ s.freeze.dest.toNat % 65536 + (s.crew 1).frozen.length ≤ 65536)
    ∧ (let s := { tFreeze .freezeRelease .frozen with
        crews := [(1, { tCrew with state := .frozen })], freeze := { state := .frozen, crews := [1] } }
       s.input = some .freezeRelease ∧ s.freeze.state = .frozen ∧ s.gangs = [] ∧ s.freeze.heaps = [] ∧ ∀ c ∈ s.freeze.crews, (s.crew c).state = .frozen) := by
  refine ⟨by decide, by decide, by decide, by decide, ?_, by decide, fun st => ⟨rfl, rfl, rfl, rfl, rfl, rfl, rfl, ?_⟩, by decide, by decide, by decide⟩
  · rintro v (rfl | rfl) <;> decide
  · intro c h
    cases h

def tHyp (e : Event) (h : HypRegs → HypRegs) (f : Strand → Strand) : State := { tE e with hyp := h {}, me := f tMe }

/-- R401, R403: a replaced leaf may be used until an invalidation that covers its page has completed. The leaf of
`identityTables` has V, R, W, X and U set: 61. -/
def tRemapped : State := { homeWrite none none (frameKey 0 0x6000) (zeros 8) tS with input := some (.invalidate 0 (2 ^ 32 + 1)) }
def tPending : State := { tRemapped with
  input := some (.invalidateDone (some 0)), vfs := [(0, { en := true, part := 0, s2root := 0x1000, s1root := 0x4000, issued := 1 })]
  old := tRemapped.old.issue false 0 0 1 }

theorem test_replaced_entry_may_be_used :
    oldEntries tRemapped false 0 0xFFFF (frameKey 0 0x6000) = [61] ∧ oldEntries tPending false 0 0xFFFF (frameKey 0 0x6000) = [61] := by decide

theorem test_invalidation_ends_old_entry :
    (match execInvalidateDone tPending with
      | .next t => (oldEntries t false 0 0xFFFF (frameKey 0 0x6000), oldEntries t false 0 0x10000 (frameKey 0 0x6000))
      | _ => ([0], [0])) = ([], [61]) := by decide

theorem witness_invalidations :
    (∀ f v, (tE (.invalidate f v)).input = some (.invalidate f v)) ∧ (∀ v, (tE (.s2Invalidate v)).input = some (.s2Invalidate v))
    ∧ (let s := { tE (.invalidateDone (some 63)) with
          vfs := [(63, { issued := 0, done := 0xFFFFFFFF })], old := { marks := 1, pending := [⟨false, 63, 0xFFFFFFFFFFFF0000, 2, 1⟩] } }
       let i : Inval := ⟨false, 63, 0xFFFFFFFFFFFF0000, 2, 1⟩
       (s.vf 63).issued ≠ (s.vf 63).done ∧ s.old.pending.find? (fun i => !i.two && i.vf = 63) = some i
        ∧ (0xFFFF + 2 ^ 64 - i.base) % 2 ^ 64 < 65536 * i.count ∧ ¬ (0x10000 + 2 ^ 64 - i.base) % 2 ^ 64 < 65536 * i.count)
    ∧ (let s := { tHyp (.invalidateDone none) (fun h => { h with s2issued := 1 }) id with old := { marks := 1, pending := [⟨true, 5, 0, 0, 1⟩] } }
       s.hyp.s2issued ≠ s.hyp.s2done ∧ s.old.pending.find? (·.two) = some ⟨true, 5, 0, 0, 1⟩)
    ∧ (tHyp (.s2freplyRetry 4) (fun h => { h with s2notices := [⟨4, 0x10000, 0, 1, true, 0⟩] }) id).input = some (.s2freplyRetry 4)
    ∧ (∀ e, e = Event.s2freplyFail 4 ∨ e = .s2FaultTimeout 4 →
      let n : S2Notice := ⟨4, 0x10000, 0, 1, true, 0⟩
      let s := { tHyp e (fun h => { h with s2notices := [n] }) (fun m => { m with wait := some (.s2 4 0x10080 true false 3) }) with
        cycle := 1048576, vfs := [(0, { en := true, part := 0, asked := [(true, 1)] })] }
      n.at_ + 1048576 ≤ s.cycle ∧ s.hyp.s2notices.find? (·.id = 4) = some n ∧ (true, n.ipa / 65536) ∈ (s.vf n.vf).asked
        ∧ 16 ∈ vfStrands s n.vf ∧ (s.strand 16).wait = some (.s2 4 0x10080 true false 3))
    ∧ (let s := { tS with mem := [] }
       s.ctx.engine = false ∧ (match s2 s s.ctx .rd 0x10080 with | .stall2 x => decide (x = 0x10080) | _ => false) = true
        ∧ bits (2 ^ 55 + 0x10080) 55 54 = 2 ∧ bits (2 ^ 55 + 0x10080) 53 0 / 65536 ∉ (s.vf s.ctx.vf).pages)
    ∧ (let s := tHyp (.s2fidxWrite 0) (fun h => { h with s2notices := [⟨4, 0x10000, 0, 1, true, 0⟩] }) id
       ∀ n ∈ s.hyp.s2notices, n.posted = true)
    ∧ (let n : S2Notice := ⟨4, 0x10000, 0, 1, false, 0⟩
       let v : Word := BitVec.ofNat 64 (5 * 2 ^ 32)
       let s := tHyp (.s2fidxWrite v) (fun h => { h with s2notices := [n], s2head := 255 }) id
       s.hyp.s2notices = [n] ∧ n.posted = false ∧ (s.hyp.s2head + 1) % 256 ≠ bitsOf v 39 32) := by
  refine ⟨fun _ _ => rfl, fun _ => rfl, by decide, by decide, rfl, ?_, ⟨rfl, by decide +kernel, by decide, by decide⟩, by decide, by decide⟩
  rintro e (rfl | rfl) <;> exact ⟨by decide, by decide, by decide, by decide, rfl⟩

/-- A function with a page request, for which the strand waits. -/
def tPri (e : Event) (gen : Nat) (f : Strand → Strand) : State :=
  { tE e with
    me := f tMe, cycle := 1048576
    vfs := [(0, { en := true, part := 0, gen := gen, pri := [⟨511, 1, 9, 0⟩], pages := [8], asked := [(false, 9)] })] }
def tAsks (m : Strand) : Strand := { m with wait := some (.pri 511 0x10080 false true 5) }

theorem witness_pages :
    (let s := tPri (.priResponse 0 511 .success) 2 id
     (s.vf 0).pri.find? (·.idx = 511) = some ⟨511, 1, 9, 0⟩ ∧ 1 ≠ (s.vf 0).gen)
    ∧ (let s := tPri (.priResponse 0 511 .success) 1 tAsks
       (s.vf 0).pri.find? (·.idx = 511) = some ⟨511, 1, 9, 0⟩ ∧ 1 = (s.vf 0).gen ∧ 16 ∈ vfStrands s 0
        ∧ (s.strand 16).wait = some (.pri 511 0x10080 false true 5))
    ∧ (let s := tPri (.priResponse 0 511 .failure) 1 id
       1 = (s.vf 0).gen)
    ∧ (∀ e, e ∈ [Event.priResponse 0 511 .invalid, .priResponse 0 511 .failure, .priTimeout 0 511] →
      let s := tPri e 1 tAsks
      0 + 1048576 ≤ s.cycle ∧ (s.vf 0).pri.find? (·.idx = 511) = some ⟨511, (s.vf 0).gen, 9, 0⟩ ∧ (false, 9) ∈ (s.vf 0).asked
        ∧ 16 ∈ vfStrands s 0 ∧ (s.strand 16).wait = some (.pri 511 0x10080 false true 5))
    ∧ (let s := tPri (.atsInvalidate 0 0x80000 0x10000) 1 id
       ∃ p ∈ (s.vf 0).pages, 0x80000 < (p + 1) * 65536 ∧ p * 65536 < 0x80000 + 0x10000) := by
  refine ⟨by decide, by decide +kernel, rfl, ?_, by decide⟩
  intro e he
  simp only [List.mem_cons, List.not_mem_nil, or_false] at he
  rcases he with rfl | rfl | rfl <;> decide +kernel

theorem witness_functions :
    (∀ e, e = Event.functionLevelReset 0 ∨ e = .stopInterface 0 ∨ e = .tdiError 0 →
      let s := tE e
      s.input = some e ∧ ∃ x ∈ s.crews, (s.grid x.2.grid).vf = 0 ∧ s.crew x.1 = x.2 ∧ x.2.state ≠ .ended)
    ∧ (tE (.tdiLock 0)).input = some (.tdiLock 0)
    ∧ (let s := { tE (.vfEnable 3 0) with vfs := [] }
       (s.vf 3).lock = false ∧ vfRefused (s.modVf 3 (vfFields (2 ^ 32 - 1))) 3 = true ∧ vfRefused (s.modVf 3 (vfFields (BitVec.ofNat 64 1))) 3 = false)
    ∧ (let s := tE (.vfDisable 0 0)
       (s.vf 0).lock = false ∧ ∃ e ∈ s.crews, (s.grid e.2.grid).vf = 0 ∧ e.2.state ≠ .ended)
    ∧ (let s := tE (.vfDisable 3 0)
       (s.vf 3).lock = false ∧ ¬ ∃ e ∈ s.crews, (s.grid e.2.grid).vf = 3 ∧ e.2.state ≠ .ended)
    ∧ ((tE (.vfpriClear 0)).input = some (.vfpriClear 0) ∧ ((tE (.vfpriClear 0)).vf 0).lock = false)
    ∧ (∀ e, e ∈ [Event.vfEnable 0 1, .vfDisable 0 0, .vfpriClear 0] → let s := { tE e with vfs := [(0, { en := true, lock := true, part := 0 })] }
      s.input = some e ∧ (s.vf 0).lock = true ∧ (s.vf 0).part = 0) := by
  refine ⟨?_, rfl, by decide, by decide, by decide, by decide, fun e _ => ⟨rfl, rfl, rfl⟩⟩
  rintro e (rfl | rfl | rfl) <;> exact ⟨rfl, (1, tCrew), by decide, by decide, by decide, by decide⟩

def tLocked : State := { tE (.partitionEnable 0 0) with vfs := [(0, { en := true, lock := true, part := 0 })] }

theorem witness_partitions :
    (lockedPart tLocked 0 = true ∧ 0 < 64)
    ∧ (let s := { tE (.partitionEnable 63 0) with parts := [] }
       lockedPart s 63 = false ∧ (s.part 63).chmask = 0)
    ∧ (let s := tE (.partitionEnable 0 1)
       lockedPart s 0 = false ∧ enableFault s 0 1 = 0)
    ∧ (let v : Word := BitVec.ofNat 64 (200 * 2 ^ 32 + 2)
       let s := { tE (.partitionDisable 0 v) with crews := [], vfs := [] }
       lockedPart s 0 = false ∧ sameFields (s.part 0) v = true ∧ v.getLsbD 1 = true ∧ (¬ ∃ e ∈ s.crews, e.2.onCore = true ∧ (s.grid e.2.grid).part = 0)
        ∧ enabledVfs s 0 = [])
    ∧ (let v : Word := BitVec.ofNat 64 (200 * 2 ^ 32)
       let s := tE (.partitionDisable 0 v)
       sameFields (s.part 0) v = true ∧ v.getLsbD 1 = false ∧ ∃ e ∈ s.crews, e.2.onCore = true ∧ (s.grid e.2.grid).part = 0)
    ∧ (let v : Word := BitVec.ofNat 64 (200 * 2 ^ 32 + 3)
       let s := tE (.partitionStop 0 v)
       lockedPart s 0 = false ∧ (s.part 0).en = true ∧ sameFields (s.part 0) v = true)
    ∧ (let s := tE (.assignmentWrite 159 127)
       (127 : Word).getLsbD 15 = false ∧ lockedPart s (s.assign 159).own0 = false ∧ (s.assign 159).split = false ∧ bitsOf (127 : Word) 6 0 = 127)
    ∧ (let s := tE (.assignmentWrite 159 63)
       (s.assign 159).own0 ≠ bitsOf (63 : Word) 6 0 ∧ (∀ c ∈ s.crews, c.2.holds 159 none = false) ∧ ((s.assign 159).own0 < 64 → (s.part (s.assign 159).own0).stop = true))
    ∧ (let s := tE (.assignmentWrite 0 63)
       (s.assign 0).own0 ≠ bitsOf (63 : Word) 6 0 ∧ ¬ ((∀ c ∈ s.crews, c.2.holds 0 none = false) ∧ ((s.assign 0).own0 < 64 → (s.part (s.assign 0).own0).stop = true)))
    ∧ (let s := { tE (.scrubComplete (.entry 159)) with assigns := [(159, { scrub := true })] }
       (s.assign 159).scrub = true ∧ ∀ c ∈ s.crews, c.2.holds 159 none = false)
    ∧ (let s := { tE (.scrubComplete (.partition 0)) with parts := [(0, { en := true, scrubbing := true, chmask := 1 })] }
       (s.part 0).scrubbing = true ∧ ∀ c, tget 0 s.chOwner c ≠ 0 + 1)
    ∧ (∀ v, (tE (.memoryZero v)).input = some (.memoryZero v))
    ∧ (let s := tHyp .memoryZeroDone (fun h => { h with mzwork := [(0, 0x10000, 1)] }) id
       s.input = some .memoryZeroDone ∧ s.hyp.mzwork = (0, 0x10000, 1) :: []) := by
  refine ⟨by decide, by decide, by decide, by decide, by decide, by decide, by decide, by decide, by decide, by decide, ⟨rfl, ?_⟩, fun _ => rfl, by decide⟩
  intro c
  exact (show (0 : Nat) ≠ 1 by decide)

def tErr : ErrRec := ⟨0x10080, 0, 3, 0, 1⟩
def tRas (e : Event) (r : Ras) : State := { tE e with ras := r }

theorem witness_errors :
    (let s := tRas (.errorCorrected 571 tErr) { cethr := 1 }
     s.ras.cethr = min ((bank s 571).cecnt + 1) (2 ^ 32 - 1) ∧ ringFull s.ras.casienRing = false ∧ s.ras.casienRing.waiting = [])
    ∧ (let s := { tRas (.errorCorrected 0 tErr) {} with banks := [(0, { valid := true, cecnt := 2 ^ 32 - 1 })] }
       (bank s 0).valid = true ∧ s.ras.cethr ≠ min ((bank s 0).cecnt + 1) (2 ^ 32 - 1))
    ∧ (∀ what, what ∈ [ErrTarget.memory 0x10080, .vrow 16 15 31, .sreg 16 31, .trow 16 7 63, .zrow 16 7 63, .frontEnd 16, .other] →
      (tE (.errorUncorrectable 0 tErr what)).input = some (.errorUncorrectable 0 tErr what) ∧ (∀ h k, what ≠ .heapEntry h k) ∧ tErr.struct ≠ 6)
    ∧ (let s := tE (.errorUncorrectable 0 tErr (.frontEnd 16))
       (s.strand 16).onSteward = false ∧ (s.crew (s.strand 16).crew).state ≠ .ended)
    ∧ (let s := { tE (.errorUncorrectable 0 tErr .other) with banks := [(0, { valid := true, ue := true })] }
       (bank s 0).valid = true ∧ (bank s 0).ue = true)
    ∧ (∀ k ok, (tE (.patrol k ok)).input = some (.patrol k ok)) ∧ (∀ b, (tE (.ebstatClear b)).input = some (.ebstatClear b)) := by
  refine ⟨by decide, by decide, ?_, by decide, by decide, fun _ _ => rfl, fun _ => rfl⟩
  intro what h
  simp only [List.mem_cons, List.not_mem_nil, or_false] at h
  rcases h with rfl | rfl | rfl | rfl | rfl | rfl | rfl <;> exact ⟨rfl, (fun _ _ h => by cases h), by decide⟩

theorem witness_notices :
    (∀ v, let s := tRas (.noticeTailWrite false v) {}
      s.ras.casienRing.waiting = [] ∧ (tRas (.noticeTailWrite true v) {}).ras.hostRing.waiting = [])
    ∧ (let v : Word := BitVec.ofNat 64 (2 ^ 32)
       let s := tRas (.noticeTailWrite false v) { casienRing := { head := 255, waiting := [⟨1, 2, 3, 4⟩] } }
       s.ras.casienRing.waiting = [⟨1, 2, 3, 4⟩] ∧ (s.ras.casienRing.head + 1) % 256 ≠ bitsOf v 39 32)
    ∧ (tE .ndropClear).input = some .ndropClear :=
  ⟨fun _ => ⟨rfl, rfl⟩, by decide, rfl⟩

theorem witness_replays :
    (let s := { tE (.assayReplayDispatch 1 1) with
        crews := [(1, { tCrew with state := .ended, audited := true })], assigns := [(0, { own0 := 0 }), (1, { own0 := 0 })] }
     let c := s.crew 1
     let g := s.grid c.grid
     c.audited = true ∧ c.state = .ended ∧ (∀ e ∈ s.assayer.replays, e.1 ≠ 1) ∧ 1 ∈ replayCores s g.part c.auditCore ∧ dispatches s g.part = true
      ∧ turnOk s g.part g.vf = true ∧ ∀ e ∈ s.queues, e.2.part = g.part → (readyOf s e.1).isNone = true)
    ∧ (∀ r, let s := { tE (.assayCompare 1 r) with assayer := { replays := [(1, 1)] } }
       s.assayer.replays.find? (·.1 = 1) = some (1, 1))
    ∧ ∀ n, (tE (.ascntClear n)).input = some (.ascntClear n) := by
  refine ⟨⟨rfl, rfl, by decide, by decide +kernel, by decide, by decide, ?_⟩, fun _ => rfl, fun _ => rfl⟩
  intro e he; cases he

theorem witness_repair :
    (∀ op core, (op = 0 ∧ core = 159) ∨ (op = 1 ∧ core = 415) ∨ (op = 2 ∧ core = 0) → ¬ (415 < core ∨ (op = 0 ∧ (160 ≤ core ∨ (tS.coreReg core).mout.getLsbD 7 = true))))
    ∧ (∀ op core, (op = 0 ∧ core = 160) ∨ (op = 1 ∧ core = 416) ∨ (op = 2 ∧ core = 416) → (415 < core ∨ (op = 0 ∧ 160 ≤ core)))
    ∧ (∀ op, let s := { tE (.mapoutApply 1) with cores := [(1, { req := [(op, 7)] })] }
       (s.coreReg 1).req = [(op, 7)] ∧ ∀ e ∈ s.crews, e.2.core = 1 → e.2.onCore = false ∧ (e.2.lazy = false ∨ e.2.state = .ended))
    ∧ (tE .stwdogWrite).input = some .stwdogWrite
    ∧ (let s := { tE .stewardWatchdogExpire with cycle := 94000000, flash := { casien := [{ valid := true }], config := [{ valid := true }] } }
       s.ras.stwdogAt + 94000000 ≤ s.cycle ∧ bootImages s.flash = some ({ valid := true }, { valid := true })) := by
  refine ⟨?_, ?_, fun op => ⟨rfl, by intro e he; rcases List.mem_singleton.mp he with rfl; intro h; cases h⟩, rfl, by decide⟩
  · rintro op core (⟨rfl, rfl⟩ | ⟨rfl, rfl⟩ | ⟨rfl, rfl⟩) <;> decide
  · rintro op core (⟨rfl, rfl⟩ | ⟨rfl, rfl⟩ | ⟨rfl, rfl⟩) <;> decide

def tLimner (e : Event) (a : Bool) : State := { tE e with limner := { armed := a, src := 13, ahead := true }, cycle := 9 }

theorem witness_limner :
    (tE .limnerArm).input = some .limnerArm
    ∧ (∀ a, (tLimner .limnerFire a).limner.src &&& (1 : BitVec 4) ≠ 0 ∧ (tLimner .limnerCycleMatch a).limner.cyc.toNat ≤ (tLimner .limnerCycleMatch a).cycle
      ∧ (tLimner .limnerCycleMatch a).limner.ahead = true ∧ ¬ ((tLimner .limnerCycleMatch a).limner.held = true)
      ∧ (tLimner .limnerCycleMatch a).limner.src &&& (4 : BitVec 4) ≠ 0 ∧ (tLimner .limnerLinkTrigger a).limner.src &&& (8 : BitVec 4) ≠ 0
      ∧ (tLimner .limnerFire a).limner.armed = a)
    ∧ (let s := { tLimner .limnerFire false with limner := { src := 13, held := true, time := 9 } }
       s.limner.src &&& (1 : BitVec 4) ≠ 0 ∧ s.limner.armed = false ∧ s.limner.held = true ∧ s.limner.time = s.cycle)
    ∧ (tE .limnerFire).limner.src &&& (1 : BitVec 4) = 0 ∧ occupants (tLimner .limnerFire true) 0 = [(snapSlot tMe, tMe)] ∧ snapSlot tMe < 16 := by
  refine ⟨rfl, ?_, by decide, by decide, rfl, by decide⟩
  intro a; cases a <;> decide

theorem witness_power :
    (200 + shares tS ≤ min 1800 (max 900 (bitsOf (899 : Word) 10 0)))
    ∧ (let s := { tE (.pwrlimWrite 900) with plat := { pshare := [(0, 701)] } }
       min 1800 (max 900 (bitsOf (900 : Word) 10 0)) < 200 + shares s)
    ∧ (let s := { tE (.pshareWrite 5 700) with plat := { limit := 900 } }
       twf 0 s.plat.pshare = true ∧ (s.part 5).elastic = false ∧ (s.part 5).en = false
        ∧ 200 + ((s.plat.pshare.filter fun e => e.1 ≠ 5 && !(s.part e.1).elastic).map (·.2)).sum + bitsOf (700 : Word) 10 0 ≤ s.plat.limit)
    ∧ (tS.part 0).en = true
    ∧ (let s := tE (.powerInterval [(0, 5)])
       (s.cores.map (·.1)).Nodup ∧ s.plat.hot = false ∧ 0 < 5)
    ∧ (tE .thermalTrip).input = some .thermalTrip ∧ (tE .thermalClear).input = some .thermalClear := by
  refine ⟨by decide, by decide, by decide, by decide, by decide, rfl, rfl⟩

theorem witness_links :
    (∀ p ok, (tE (.flitReceive p ok)).input = some (.flitReceive p ok)) ∧ (∀ p, (tE (.portRetrain p)).input = some (.portRetrain p))
    ∧ (let s := { tE (.portRetrainTimeout 23) with ports := [(23, { up := false, retrainFrom := some 0 })], cycle := 940000 }
       (tget ({} : Machine.Port) s.ports 23).retrainFrom = some 0 ∧ 0 + 940000 ≤ s.cycle)
    ∧ (let s := { tE (.remoteAccess 9 8 0xFFF8 (.load 8)) with plat := { exports := [(63, ⟨true, 9, 8, 0, 2, 1⟩)] } }
       admitted s 9 8 0x10000 = none ∧ admitted s 9 8 0xFFF8 = some (frameKey 0 0x2FFF8) ∧ s.t2lost = [] ∧ s.poisoned (frameKey 0 0x2FFF8) 8 = false)
    ∧ (let s := { tEv (.remoteLoadTimeout 16) (fun m => { m with wait := some (.remote 9 0x10080) }) with cycle := 940000 }
       (switchTo 16 s).me.wait = some (.remote 9 0x10080) ∧ (switchTo 16 s).me.waitFrom + 940000 ≤ s.cycle
        ∧ Handled (switchTo 16 s))
    ∧ (let s := { tE (.remoteStoreTimeout 0) with rstores := tUnacked.rstores, cycle := 940000 }
       s.rstores[0]? = some ⟨0, 16, 3, 0, 0x10080, [], 0, none⟩ ∧ 0 + 940000 ≤ s.cycle)
    ∧ (let s := { tE (.flitReceive 5 true) with rstores := [⟨0, 16, 3, remoteKey 3 0x80, 0x10080, [7], 0, some 5⟩], plat := { routes := [(3, 0x20)] } }
       let t := { s with ports := tset ({} : Machine.Port) s.ports 5 { received := 1, up := true } }
       s.rstores = [⟨0, 16, 3, remoteKey 3 0x80, 0x10080, [7], 0, some 5⟩] ∧ s.t2lost = [] ∧ lostDevice { s with ports := t.ports } (remoteKey 3 0x80) = none)
    ∧ ∀ p, (tE (.cxlDeviceFailure p)).input = some (.cxlDeviceFailure p) ∧ (tE (.cxlDeviceFailure p)).plat.t2kind ≠ 1
      ∧ ({ tE (.cxlDeviceFailure p) with plat := { t2kind := 1 } } : State).plat.t2kind = 1 := by
  refine ⟨fun _ _ => rfl, fun _ => rfl, by decide, by decide, ⟨rfl, by decide, handled_of rfl (show bitsOf tMe.trapvec 5 0 ≠ 0 by decide)⟩, by decide, by decide +kernel,
    fun _ => ⟨rfl, (by show (0 : Nat) ≠ 1; decide), rfl⟩⟩

/-- A descriptor for a Steward core in its SRAM. -/
def tStarter (b : Bool) : State :=
  { tE (.stewardStart 3 0xFFFFFF0000000000) with
    mem := (if b then [(2 ^ 60 + 8, 1)] else []), plat := { steward := if b then [] else [(3, { busy := true })] } }

theorem witness_start :
    (bootImages ({} : Flash) = none)
    ∧ (bootImages { casien := [{ valid := true, version := 1 }, { valid := true, version := 2 }], config := [{ valid := true }] }
      = some ({ valid := true, version := 2 }, { valid := true }))
    ∧ (tE .deviceReset).input = some .deviceReset ∧ (tE .powerLoss).input = some .powerLoss
    ∧ (tget {} (tStarter false).plat.steward 3).busy = true
    ∧ (∃ b, (tget {} (tStarter true).plat.steward 3).busy = false
      ∧ fetchBytes (tStarter true) { vf := 0, part := 0, app := false, steward := true } (bitsOf (0xFFFFFF0000000000 : Word) 63 6 * 64) 64 [] = .bytes b
      ∧ parseDesc b = some {} ∧ stewardDecl {} = true)
    ∧ (tE (.spdmRequest 0 0)).flash.aliasLeaf < 1024
    ∧ (∀ v, (tE (.debugUnlock v)).input = some (.debugUnlock v) ∧ (tE (.debugRelock v)).input = some (.debugRelock v)) := by
  refine ⟨rfl, by decide, rfl, rfl, rfl, ⟨(List.range 64).map fun n => if n = 8 then 1 else 0, rfl, by decide +kernel, by decide +kernel, rfl⟩, by decide, fun _ => ⟨rfl, rfl⟩⟩

def tDebugger (e : Event) (a : Word) : State := { tE e with plat := { unlock := 1, dbgaddr := a } }

theorem witness_debug :
    (tE (.dbgctlStop 0)).plat.unlock.getLsbD 0 = false
    ∧ (let s := { tDebugger (.dbgctlStop 0) 0 with crews := [(1, { tCrew with state := .ready })] }
       s.plat.unlock.getLsbD 0 = true ∧ ∀ e ∈ s.crews, (s.grid e.2.grid).vf = 0 → e.2.state ≠ .resident)
    ∧ (tDebugger (.dbgctlCont 0) 0).plat.unlock.getLsbD 0 = true
    ∧ (∀ e, e = Event.dbgdataRead ∨ e = .dbgdataWrite 5 →
      let s := tDebugger e 0x10080
      let a := s.plat.dbgaddr.toNat
      s.plat.unlock.getLsbD s.plat.dbgvf = true ∧ a % 8 = 0 ∧ translate s (debugCtx s 0) .rd a = .ok (.cell tK) ∧ translate s (debugCtx s 0) .wr a = .ok (.cell tK)
        ∧ s.poisoned tK 8 = false ∧ s.t2lost = [] ∧ ¬ ((s.vf 0).savebase.toNat ≤ a ∧ a < (s.vf 0).savebase.toNat + (s.vf 0).savesize * 65536))
    ∧ (let s := { tDebugger (.dbgdataWrite 5) 0x1FFF8 with vfs := [(0, { savebase := 0x10000, savesize := 1 })] }
       (s.vf 0).savebase.toNat ≤ s.plat.dbgaddr.toNat ∧ s.plat.dbgaddr.toNat < (s.vf 0).savebase.toNat + (s.vf 0).savesize * 65536)
    ∧ ∀ sp off v, (tE (.registerWrite sp off v)).input = some (.registerWrite sp off v) := by
  refine ⟨by decide, by decide, by decide, ?_, by decide, fun _ _ _ => rfl⟩
  rintro e (rfl | rfl) <;>
    exact ⟨by decide, by decide, by decide +kernel, by decide +kernel, by decide +kernel, rfl, by decide⟩

theorem witness_EncodeThenDecode :
    (let c : Coding.Coded := ⟨7, .colbcast true 15 256 255 31 30 29⟩
     c.sc < 8 ∧ c.insn.wellFormed = true)
    ∧ ∃ c, Coding.decodeHalfs [0xC020, 0x0000, 0x2080, 0xFFFF, 0xFFFF, 7] = some (.ok c, [7]) :=
  ⟨by decide, _, rfl⟩

/-- A line in use of the one head `h`. -/
def tLine (h : Half) : LineBuf := { addr := 0x10000, halfs := 0x0800 :: h :: List.replicate 30 0 }
def tAt (core : Nat) (h : Half) : State := tM fun m => { m with core := core, line := some (tLine h) }

theorem witness_fetch : fetchLine { tFetch 0x08 0x10001 with turn := 1 } 0x10000 = .line (0x0800 :: List.replicate 31 0)
    ∧ ∃ k, translate { tFetch 0x08 0x10001 with turn := 1 } (State.ctx { tFetch 0x08 0x10001 with turn := 1 }) .fetch 0x10000 = .ok (.cell k) := by
  have ht : translate { tFetch 0x08 0x10001 with turn := 1 } (State.ctx { tFetch 0x08 0x10001 with turn := 1 }) .fetch 0x10000
      = .ok (.cell (frameKey 0 0x10000)) := by decide +kernel
  have hp : State.poisonedFor { tFetch 0x08 0x10001 with turn := 1 } 0 (frameKey 0 0x10000) 64 = false := by decide +kernel
  have hh : halfsOf (State.viewBytes { tFetch 0x08 0x10001 with turn := 1 } 0 (frameKey 0 0x10000) 64) = 0x0800 :: List.replicate 31 0 := by decide +kernel
  have hl : lineFault (0x0800 :: List.replicate 31 0) = none := by decide
  refine ⟨?_, _, ht⟩
  unfold fetchLine
  rw [ht]
  show (if State.poisonedFor { tFetch 0x08 0x10001 with turn := 1 } 0 (frameKey 0 0x10000) 64 = true then _ else
    match lineFault (halfsOf (State.viewBytes { tFetch 0x08 0x10001 with turn := 1 } 0 (frameKey 0 0x10000) 64)) with
    | some d => Fetched.trap { cause := .lineMalformed, detail := d, addr := word 0x10000 }
    | none => .line (halfsOf (State.viewBytes { tFetch 0x08 0x10001 with turn := 1 } 0 (frameKey 0 0x10000) 64))) = _
  rw [hp, hh, hl]
  rfl

theorem witness_StepRuns :
    (∀ b, let s := { tS with powered := b, posted := [(frameKey 0 0x10080, [7])] }
      s.posted = (frameKey 0 0x10080, [7]) :: [] ∧ s.powered = b ∧ s.t2lost = [] ∧ ∀ e ∈ s.vfs, e.2.windows = [])
    ∧ (let s := { tS with powered := false }
       s.powered = false ∧ s.posted = [] ∧ s.events.head? ≠ some .deviceReset)
    ∧ (let s := { tS with powered := false, events := [.deviceReset] }
       s.posted = [] ∧ s.events = Event.deviceReset :: [])
    ∧ (let s := { tS with events := [.limnerArm, .limnerFire] }
       s.posted = [] ∧ s.events = Event.limnerArm :: [.limnerFire] ∧ s.powered = true)
    ∧ (let s := { tS with schedule := [17] }
       s.powered = true ∧ s.posted = [] ∧ s.events = [] ∧ s.schedule = 17 :: [])
    ∧ (∀ core h, (core, h) ∈ [(0, (0x0206 : Half)), (0, 0x07FF), (416, 0x0206), (416, 0x0400)] →
      let s := tAt core h
      let l := tLine h
      s.powered = true ∧ s.posted = [] ∧ s.events = [] ∧ s.schedule = [] ∧ s.me.run = .running ∧ s.me.wait = none ∧ s.me.due = none ∧ s.turn % 64 ≠ 63
        ∧ s.me.line = some l ∧ l.addr = word (s.me.pc.toNat / 64 * 64) ∧ 1 ≤ bitsOf s.me.pc 5 0 ∧ bitsOf s.me.pc 5 0 ≤ headCount l.halfs
        ∧ s.me.stopReq = false ∧ s.me.viq = [] ∧ s.colls = [] ∧ s.myCrew.landings = [] ∧ footprints s s.me.core < 256)
    ∧ (let ir := headAt (tLine 0x0206).halfs 1
       Coding.decodeHead ir.head.toNat ir.tail.toNat = .ok ⟨0, .yield⟩ ∧ (Coding.splitFields ir.head.toNat ir.tail.toNat).maj ≤ 0x2F
        ∧ ((Coding.splitFields ir.head.toNat ir.tail.toNat).maj = 0x21 → (Coding.splitFields ir.head.toNat ir.tail.toNat).fn = 11))
    ∧ (let ir := headAt (tLine 0x07FF).halfs 1
       ∃ r, Coding.decodeHead ir.head.toNat ir.tail.toNat = .error r ∧ r ≠ .regRange ∧ (tAt 0 0x07FF).me.onSteward = false ∧ Handled (tAt 0 0x07FF))
    ∧ (let ir := headAt (tLine 0x0400).halfs 1
       (Coding.splitFields ir.head.toNat ir.tail.toNat).maj > 0x2F ∧ (tAt 416 0x0400).me.onSteward = true ∧ Handled (tAt 416 0x0400)) := by
  refine ⟨fun b => ⟨rfl, rfl, rfl, (show ∀ e ∈ tS.vfs, e.2.windows = [] by decide)⟩, by decide, by decide, by decide, by decide, ?_, by decide, ⟨_, rfl, by decide, by decide, handled_of rfl (show bitsOf tMe.trapvec 5 0 ≠ 0 by decide)⟩,
    by decide, by decide, handled_of rfl (show bitsOf tMe.trapvec 5 0 ≠ 0 by decide)⟩
  intro core h hm
  simp only [List.mem_cons, List.not_mem_nil, or_false, Prod.mk.injEq] at hm
  rcases hm with ⟨rfl, rfl⟩ | ⟨rfl, rfl⟩ | ⟨rfl, rfl⟩ | ⟨rfl, rfl⟩ <;>
    exact ⟨rfl, rfl, rfl, rfl, rfl, rfl, rfl, by decide, rfl, by decide, by decide, by decide, rfl, rfl, rfl, rfl, by decide⟩

theorem witness_MemoryCanonical :
    Memory.wf tS.mem = true ∧ ∃ t, step { tS with events := [.limnerArm] } = .next t := ⟨by decide +kernel, _, rfl⟩

/-! ### Ill-formed instructions and words that are refused -/

/-- A term for each check of `Instr.wellFormed`, which the check refuses. -/
def illFormed (l : List Instr) : Bool := l.all fun i => !i.wellFormed

theorem test_illFormed_scalar : illFormed [.li false 1 2 0, .fcvt .i32 .u8 .frm 1 2, .fcvt .lns6 .f32 .frm 1 2, .fcvt .f32 .dflt .frm 1 2, .mfs 1 0x18,
    .mts 0x25 1, .mfs 1 0x106, .mts 0x150 1, .trap 0 0 0, .trap 0 0x0B 0, .trap 0 0x15 0, .trap 0 0x1C 0, .regclm 65, .regrel 65,
    .scrub false false false false 0 0] = true := by decide

theorem test_illFormed_memory : illFormed [.ld .d false false false .crew 1 2, .ldImm .d false false false .system 1 2 8, .st .d false false .crew 1 2,
    .stImm .d false false .crew 1 2 8, .amo .fadd true .ar 1 2 3, .vld .i32 false 1 2 3 0, .vldImm .f32 false 1 2 3 0 0, .vst .u8 false 1 2 3 0,
    .vstImm .i64 true 1 2 3 0 0, .vldseg 0 .i32 false 1 2 0, .vldsegImm 0 .i32 false 1 2 0 0, .vstseg 0 .i32 false 1 2 0, .vstsegImm 0 .i32 false 1 2 0 0,
    .cvld .i32 1 2 3 0, .cvldImm .i32 1 2 3 0 0, .awin .f16 .add 1 2 0, .vwait .eq .f32 false 0 1 2 3 4 0] = true := by decide

theorem test_illFormed_vector : illFormed [.vadd .f32 false 1 2 (.vec 3) 0, .vsraImm .lns6 1 2 0 0, .vfadd .i32 .frm 1 2 (.vec 3) 0, .vfdivImm .lns6 .frm 1 2 0 0,
    .vfsqrt .i8 .frm 1 2 0, .vcvt .dflt .f32 (.round .frm) 1 2 0, .vcvt .i8 .i16 (.round .frm) 1 2 0, .vcvt .f32 .lns6 .own 1 2 0, .vcvt .lns6 .f32 .plain 1 2 0,
    .vlmul .f32 1 2 3 0, .vlmulGiven .i8 (.scal 1) 1 2 3 0, .vladd .bf16 1 2 3 0, .vladdGiven .f32 (.vec 1) 1 2 3 0, .vcompress .i32 5 5 6 1 0,
    .viota .f32 1 2 0, .vid .bf16 1 0] = true := by decide

theorem test_illFormed_matrix : illFormed [.settile .dflt 1 2 3 4, .settile .i16 1 2 3 4, .tld .lns6 false false 0 1 2, .tldLns6 .f32 false false 0 1 2 3 0,
    .tldE .lns6 false 0 0 1 2, .tldELns6 .i8 false 0 0 1 2 3 0, .tst .u8 false 0 1 2, .tstLns6 .f16 false 0 1 2 3 0, .tldg .lns6 false 0 1 2 3 0,
    .mmaO .f32 true false false 0 1 2, .mmaR .u8 false false false 0 1 2, .zld .f16 false 0 1 2, .zldImm .i8 false 0 1 2 0, .zst .i8 false .frm 0 1 2,
    .zst .f32 false (.fixed .rtz) 0 1 2, .zstImm .i32 true (.fixed .rne) 0 1 2 8, .tcopy .none false 3 0 1 2 3, .colred .u64 .add false 0 1 1 2 3,
    .colred .i32 .add false 4 1 1 2 3, .colred .i32 .add true 4 0 1 2 3, .colbcast false 4 1 0 1 2 3, .colbcast false 0 257 0 1 2 3, .lineFetch, .powerLoss] = true := by
  decide

/-- The DETAIL with which a head and its tail are refused (R103). -/
def refusedAs (l : List (Nat × Nat × Nat)) : Bool :=
  l.all fun e => match Coding.decodeHead e.1 e.2.1 with
    | .error r => r.detail = e.2.2
    | .ok _ => false

/-- R86 to R90, R102, R103: MAJ 0x7F is unassigned, and so is FN 14 of MAJ 0x01; `halt` has no tail, `idle` needs one, `mul` one of
two halfwords; the low bits of the tails of `add` and `mul` are reserved; t8 is no tile; `trap` raises neither 0 nor POISON. -/
theorem test_decode_refuses : refusedAs [(0x07F0, 0, 1), (0x001E, 0, 2), (0x8207, 0, 3), (0x0208, 0, 3), (0x0010, 0, 3), (0x8001, 0x0427C401, 4),
    (0x9010, 0x0C414001, 4), (0x8705, 0x20000280, 5), (0xC202, 0, 6), (0xC202, 0xB00000000, 6)] = true := by decide

/-! ### One step each, on the manual's own examples -/

/-- What an instruction leaves, where it goes on. -/
def after (i : Instr) (s : State) (f : State → Bool) : Bool :=
  match exec i s with
  | .next t => f t
  | _ => false

/-- Vector registers: a number, and its lanes from 0 on. -/
def tLanes (l : List (Nat × List Word32)) : Tab Word32 := l.flatMap fun e => e.2.zipIdx.map fun x => (1024 * e.1 + x.2, x.1)
def lanesAre (t : State) (v : VReg) (l : List Nat) : Bool := (List.range l.length).map (t.me.box v) = l

/-- R121 and "A complete kernel": 6 × 7. -/
theorem test_mul : after (.mul false 3 4 5) (tM fun m => { m with regs := [(4, 6), (5, 7)] }) (fun t => t.finalVal 3 = 42) = true := by decide +kernel
/-- R116: a 32-bit sum wraps and is extended with its sign. -/
theorem test_add_w : after (.add true 3 1 2) (tM fun m => { m with regs := [(1, 0x7FFFFFFF), (2, 1)] }) (fun t => t.finalVal 3 = 0xFFFFFFFF80000000) = true := by
  decide +kernel
/-- R98: after `mul … !0` at head 1 the next `add` reads too early; with SCHK the trap names the writer, and its DETAIL is 3. -/
theorem test_stall_short : after (.mul false 3 4 5) (tM fun m => { m with schk := true, pc := 0x7F0000100041, line := some { addr := 0x7F0000100040, halfs := [0x2800] } })
    (fun u => after (.add false 7 3 7) u (fun t =>
      t.me.trappc = 0x7F0000100042 && t.me.trapaddr = 0x7F0000100041 && t.me.trapcause.toNat / 65536 = 3)) = true := by decide +kernel
/-- R93, R135: the loop branch of "A line worked to the bit" goes to head 1 of its own line. -/
theorem test_bne : after (.bne 8 0 0 1) (tM fun m => { m with regs := [(8, 2)], pc := 0x10044 }) (fun t => t.me.pc = 0x10041) = true := by decide +kernel
/-- R134, R140: the table of `sysc 5` from APP code. -/
theorem test_sysc : after (.sysc 5) (tM fun m => { m with pc := 0x7F0000200002, ir := { head := 0x8205, tail := 5 } }) (fun t =>
    t.me.pc = 0x20001 && t.me.trapon && t.me.priv = .sup && t.me.trappc = 0x7F0000200002 && t.me.trapcause = 0x50014
      && t.me.trapinsn0 = 5 && t.me.trapinsn1 = 0x8205) = true := by decide +kernel
/-- R137: `tret.next` of its handler. -/
theorem test_tret_next : after (.tret .next) { tFetch 0x10 0x20001 with me := { tMe with trapon := true, priv := .sup, trappc := 0x10002, trapcause := 0x50014 } }
    (fun t => t.me.priv = .app && !t.me.trapon && t.me.pc = 0x10041) = true := by decide +kernel
/-- R43: CORECLASS of a Wide core with column group 7 mapped out. -/
theorem test_coreclass : after (.mfs 3 0x23) { tS with cores := [(0, { mout := 0x80 })] } (fun t => t.finalVal 3 = 0x38400800) = true := by decide +kernel
/-- R178 and the example of R182, step 1. -/
theorem test_vsetvl : after (.vsetvlType false 4 5 ⟨.fault, .b16, .fp32⟩) (tM fun m => { m with regs := [(5, 8)] })
    (fun t => t.me.vl = 8 && readSys t 2 = 0x2006) = true := by decide +kernel

def tCompare : State :=
  tM fun m => { m with
    vl := 8, vtype := ⟨.fault, .b16, .fp32⟩, masks := [(2, 0x35)]
    vregs := tLanes [(1, [0x3F800000, 0x40A00000, 0x40000000, 0x40E00000, 0x40400000, 0, 0x41100000, 0x40800000]), (2, List.replicate 8 0x40800000)] }
/-- Steps 2 and 3 of the same, and step 6 on the stack that step 3 leaves. -/
theorem test_vcmp : after (.vcmp .lt .f32 true 2 1 (.vec 2) 0) tCompare (fun t => (t.me.mask 2).toNat % 256 = 0x35) = true := by decide +kernel
theorem test_velse : after (.vif false 2) tCompare (fun u => u.me.top.toNat % 256 = 0x35
    && after .velse u (fun t => t.me.top.toNat % 256 = 0xCA)) = true := by decide +kernel
/-- Step 7. -/
theorem test_vfmul : after (.vfmul .f32 .frm false 4 1 (.vec 2) 2) tCompare (fun t => lanesAre t 4 [0x40800000, 0, 0x41000000, 0, 0x41400000, 0]) = true := by
  decide +kernel
/-- R170: saturating sums, and a shift count taken modulo the width. -/
theorem test_vadd_sat : after (.vadd .u8 true 3 1 (.vec 2) 0) (tM fun m => { m with vtype := ⟨.fault, .b16, .int8⟩, vregs := tLanes [(1, [200]), (2, [100])], vl := 1 }) (fun t => lanesAre t 3 [255])
    = true := by decide +kernel
theorem test_vsub_sat : after (.vsub .i8 true 3 1 (.vec 2) 0) (tM fun m => { m with vtype := ⟨.fault, .b16, .int8⟩, vregs := tLanes [(1, [0x9C]), (2, [100])], vl := 1 }) (fun t => lanesAre t 3 [0x80])
    = true := by decide +kernel
theorem test_vsra : after (.vsraImm .i16 3 1 17 0) (tM fun m => { m with vtype := ⟨.fault, .b16, .int16⟩, vregs := tLanes [(1, [0x8001])], vl := 1 }) (fun t => lanesAre t 3 [0xC000]) = true := by
  decide +kernel
/-- R175: the block of the table there. -/
theorem test_vlmul : after (.vlmul .lns6 3 1 2 0) (tM fun m => { m with
      vtype := ⟨.fault, .b16, .lns6⟩, vl := 16, vregs := tLanes [(1, [0x0E, 0x3E] ++ List.replicate 14 0x10), (2, [0x213, 0x20E] ++ List.replicate 14 0x210)] })
    (fun t => lanesAre t 3 ([0x201, 0x22C] ++ List.replicate 14 0x210) && t.me.fflags = {}) = true := by decide +kernel
/-- R80: the tree of the example gives 2^-24 and not zero. -/
theorem test_vredsum : after (.vredsum .f32 3 1 0 0) (tM fun m => { m with vtype := ⟨.fault, .b16, .fp32⟩, vregs := tLanes [(1, [0x3F800000, 0x33800000, 0x33800000, 0xBF800000])] })
    (fun t => t.finalVal 3 = 0x33800000 && t.me.fflags = { nx := true }) = true := by decide +kernel
/-- R69: the multipliers of LNS6. -/
theorem test_lns_decode : ([1, 2, 3].map fun c => (lnsToF32 c 0).bits) = [0x3F983800, 0x3FB50500, 0x3FD74500] := by decide +kernel
/-- R71: the codes of the data example. -/
theorem test_lns_packing : after (.vst .lns6 false 1 1 4 0) (tM fun m => { m with
      vtype := ⟨.fault, .b16, .lns6⟩, vl := 4, vregs := tLanes [(1, [0x0E, 0x3E, 0x13, 0x10])], regs := [(1, 0x10080), (4, 0x10100)] })
    (fun t => t.homeBytes tK 3 = [0x8E, 0x3F, 0x41]) = true := by decide +kernel
/-- R76, R78: sixteen products 2^-24 added to 1.0, one by one and as a block. -/
theorem test_chains : let p : FVal × Bool := tileProduct .bf16 (some (0x3980, 0)) (some (0x3980, 0))
    (chainO 0x3F800000 (List.replicate 16 p)).bits = 0x3F800000 ∧ (chainR 0x3F800000 (List.replicate 16 p)).bits = 0x3F800008 := by decide +kernel
/-- R231: the grant of the example on a Lean core. -/
theorem test_settile : after (.settile .bf16 1 2 3 4) (tM fun m => { m with core := 160, regs := [(2, 8), (3, 16), (4, 8)] })
    (fun t => t.rd 1 = 0x5802080800804008) = true := by decide +kernel
/-- R206: a scratchpad store is little-endian. -/
theorem test_store : after (.stImm .w true false .strand 0 2 4092) (tM fun m => { m with regs := [(2, 0x11223344)] })
    (fun t => t.homeBytes (t.csp 4092) 4 = [0x44, 0x33, 0x22, 0x11]) = true := by decide +kernel
/-- R223: an atomic answers what it found. -/
theorem test_amo : after (.amo .add true .relaxed 3 1 2) { tS with mem := tset 0 tS.mem tK 7 } (fun t => t.finalVal 3 = 7 && t.homeBytes tK 2 = [12, 0]) = true := by
  decide +kernel
/-- R142: `halt`. -/
theorem test_halt : after .halt tS (fun t => t.me.run = .halted) = true := by decide +kernel
/-- R250: a release of a filled phase that has all its releases frees it. -/
theorem test_sbrel : after (.sbrel 3) { tS with crews := [(1, { tCrew with barriers := [(3, { ph := 1 })] })] } (fun t => (t.barrier 3).rph = 1) = true := by decide +kernel
/-- R331: the task worth most. -/
theorem test_hpop : after (.hpop false 0 3 4) (tHeap id) (fun t => t.rd 3 = 2 && t.rd 4 = 9 && (t.heap 2).running = 1) = true := by decide +kernel

end Sys2Proof.Tests
end

section
/-! SUPPORT. The step (R91, R93, R103, R303): what each of its branches answers, what a trap that a handler takes leaves, and when
the head of a line that is at hand executes. -/

namespace Sys2Proof.Machine
open Sys2Proof

/-! ### The host's posted writes (R303) -/

@[simp] theorem noteStash_posted (write : Bool) (k n : Nat) (s : State) : (noteStash write k n s).posted = s.posted := by
  obtain ⟨l, h⟩ := noteStash_frame write k n s
  rw [h]

@[simp] theorem noteStash_events (write : Bool) (k n : Nat) (s : State) : (noteStash write k n s).events = s.events := by
  obtain ⟨l, h⟩ := noteStash_frame write k n s
  rw [h]

@[simp] theorem homeWrite_posted (core keep : Option Nat) (k : Nat) (bs : List Byte) (s : State) :
    (homeWrite core keep k bs s).posted = s.posted := by
  unfold homeWrite
  dsimp only
  split
  · rfl
  · exact noteStash_posted true k bs.length s

@[simp] theorem homeWrite_events (core keep : Option Nat) (k : Nat) (bs : List Byte) (s : State) :
    (homeWrite core keep k bs s).events = s.events := by
  unfold homeWrite
  dsimp only
  split
  · rfl
  · exact noteStash_events true k bs.length s

theorem lostTier2_of_none {s : State} (h : s.t2lost = []) (k : Nat) : lostTier2 s k = false := by
  simp [lostTier2, h]

/-- While no tier is lost, a write at its home is read back byte for byte, and no other byte differs. -/
theorem homeWrite_home (core keep : Option Nat) (k : Nat) (bs : List Byte) (s : State) (h : s.t2lost = []) (x : Nat) :
    (homeWrite core keep k bs s).home x = if k ≤ x ∧ x < k + bs.length then bs.getD (x - k) 0 else s.home x := by
  unfold State.home
  rw [homeWrite_mem, lostTier2_of_none h, Bool.or_false, ← tget_putBytes]
  cases bs with
  | nil => rfl
  | cons b t => rfl

theorem hostWrite_home {s : State} (h : s.powered = true) (ht : s.t2lost = []) (k : Nat) (b : List Byte) (x : Nat) :
    (hostWrite k b s).home x = if k ≤ x ∧ x < k + b.length then b.getD (x - k) 0 else s.home x := by
  rw [hostWrite, if_pos h, homeWrite_home none none k b s ht]

theorem hostWrite_mem_unpowered {s : State} (h : s.powered = false) (k : Nat) (b : List Byte) :
    (hostWrite k b s).mem = s.mem := by
  rw [hostWrite, h, if_neg Bool.false_ne_true]

@[simp] theorem hostWrite_posted (k : Nat) (b : List Byte) (s : State) : (hostWrite k b s).posted = s.posted := by
  unfold hostWrite
  split
  · exact homeWrite_posted none none k b s
  · rfl

@[simp] theorem hostWrite_events (k : Nat) (b : List Byte) (s : State) : (hostWrite k b s).events = s.events := by
  unfold hostWrite
  split
  · exact homeWrite_events none none k b s
  · rfl

/-! ### Trap entry (R134) -/

/-- Delivery touches registers and undelivered results alone. -/
theorem Strand.deliverAll_frame (m : Strand) : ∃ rs ps, m.deliverAll = { m with regs := rs, pend := ps } := by
  unfold Strand.deliverAll Strand.age
  split
  · exact ⟨m.regs, m.pend, rfl⟩
  · exact ⟨_, _, rfl⟩

/-- The state in which the handler of the trap `x` of the head `ir` starts. -/
def trapEntry (ir : Ir) (x : Trap) (s : State) : State :=
  { s with
    cycle := s.cycle + 1
    me := { s.me.deliverAll with
      trappc := s.me.pc, trapcause := word (x.detail % 65536 * 65536 + s.me.priv.code * 256 + x.cause.code)
      trapaddr := x.addr, trapmask := x.lanes, trapinsn0 := ir.tail, trapinsn1 := word ir.head.toNat
      trapon := true, priv := if s.me.priv = .app then .sup else s.me.priv, pc := s.me.trapvec, via := {}, line := none
      links := [], wait := none, due := none, vop := none, carry := none, failed := [] } }

theorem takeTrapAs_of_handled {s : State} (h : Handled s) (ir : Ir) (x : Trap) : takeTrapAs ir x s = trapEntry ir x s := by
  obtain ⟨hon, hvec, hrun, hviq, hland⟩ := h
  unfold takeTrapAs
  simp only [tick, hviq, hland, hon, hvec, hrun, ne_eq, not_true_eq_false, Bool.false_and, Bool.or_self, decide_false,
    Bool.false_eq_true, if_false]
  rfl

/-- A trap that a handler may take at once is taken by it. -/
theorem takes_takeTrap {s : State} (h : Handled s) (x : Trap) : Takes s (takeTrap x s) x := by
  rw [takeTrap, takeTrapAs_of_handled h]
  have hword : (word s.me.ir.head.toNat).toNat = s.me.ir.head.toNat :=
    Nat.mod_eq_of_lt (Nat.lt_trans s.me.ir.head.isLt (by decide))
  have honly : OnlyTrapState s (trapEntry s.me.ir x s) := by
    obtain ⟨rs, ps, hd⟩ := s.me.deliverAll_frame
    simp only [OnlyTrapState, trapEntry, hd]
  exact ⟨⟨rfl, rfl, rfl, rfl, rfl, hword, rfl, rfl, rfl, fun _ => rfl⟩, rfl, rfl, honly, rfl, Nat.le_refl _⟩

/-- The copies of the current strand are among its crew's. -/
theorem landing_cur (s : State) : s.landing s.cur = s.myCrew.landings.any (·.sid = s.cur) := by
  rw [State.landing, State.strand, if_pos rfl, State.myCrew]

/-! ### The issue of a decoded head -/

theorem awaitsQueue_of_empty {m : Strand} (h : m.viq = []) (i : Instr) : awaitsQueue i m = false := by
  simp [awaitsQueue, h]

theorem interlocked_of_idle {s : State} (hc : s.colls = []) (hl : s.myCrew.landings = []) (i : Instr) :
    interlocked i s = false := by
  simp [interlocked, hc, hl]

theorem trackerFull_of_room {i : Instr} {s : State} (h : tracked i = true → footprints s s.me.core < 256) :
    trackerFull i s = false := by
  cases ht : tracked i with
  | false => simp [trackerFull, ht]
  | true => simpa [trackerFull, ht] using h ht

theorem stripGate_of_unasked {s : State} (h : s.me.stopReq = false) (i : Instr) : stripGate i s = .go := by
  simp [stripGate, h]

/-- A decoded head for which nothing of the strand is outstanding, and which finds room in the tracker, executes. -/
theorem issue_eq_exec {i : Instr} {s : State} (hstop : s.me.stopReq = false) (hviq : s.me.viq = []) (hc : s.colls = [])
    (hl : s.myCrew.landings = []) (ht : tracked i = true → footprints s s.me.core < 256) : issue i s = exec i s := by
  simp [issue, stripGate_of_unasked hstop, awaitsQueue_of_empty hviq, interlocked_of_idle hc hl, trackerFull_of_room ht]

/-! ### The line of the PC (R91, R93) -/

/-- A touch changes the lines that windows hold, what is recorded of pages, and the events that have arrived, and nothing else. -/
theorem touch_frame (k : Nat) (s : State) : ∃ st vs ev, touch k s = { s with stash := st, vfs := vs, events := ev } := by
  obtain ⟨l, hl⟩ := noteStash_frame false k 1 s
  unfold touch
  rw [hl]
  dsimp only
  split
  · split <;> exact ⟨_, _, _, rfl⟩
  · exact ⟨_, _, _, rfl⟩

/-- The line `l` of the PC is in use, and `v` is `s`, or its fetch answers it, and `v` is the state that the access to it leaves. -/
def LineReady (s v : State) (l : LineBuf) : Prop :=
  s.me.line = some l ∧ v = s ∨ s.me.line = none ∧ fetchLine s (s.me.pc.toNat / 64 * 64) = .line l.halfs
    ∧ ∃ k, translate s s.ctx .fetch (s.me.pc.toNat / 64 * 64) = .ok (.cell k) ∧ v = touch k s

/-- The line `l` is that of the PC, and has the PC's head. -/
def HoldsHead (m : Strand) (l : LineBuf) : Prop :=
  l.addr = word (m.pc.toNat / 64 * 64) ∧ 1 ≤ bitsOf m.pc 5 0 ∧ bitsOf m.pc 5 0 ≤ headCount l.halfs

/-- The state with the line `l` in use. -/
def withLine (l : LineBuf) (s : State) : State := s.modMe fun m => { m with line := some l }

theorem LineReady.frame {s v : State} {l : LineBuf} (h : LineReady s v l) :
    ∃ st vs ev, v = { s with stash := st, vfs := vs, events := ev } := by
  obtain ⟨-, rfl⟩ | ⟨-, -, k, -, rfl⟩ := h
  · exact ⟨_, _, _, rfl⟩
  · exact touch_frame k s

theorem lineInUse_of_holdsHead {m : Strand} {l : LineBuf} (hm : m.line = some l) (h : HoldsHead m l) : lineInUse m = true := by
  obtain ⟨ha, hi, hh⟩ := h
  simp [lineInUse, hm, ha, hi, hh]

theorem lineFetch_of_line {s : State} {l : LineBuf} {k : Nat} (hf : fetchLine s (s.me.pc.toNat / 64 * 64) = .line l.halfs)
    (hk : translate s s.ctx .fetch (s.me.pc.toNat / 64 * 64) = .ok (.cell k)) (h : HoldsHead s.me l) :
    lineFetch s = withLine l (touch k s) := by
  obtain ⟨ha, hi, hh⟩ := h
  have hin : (decide (bitsOf s.me.pc 5 0 < 1) || decide (headCount l.halfs < bitsOf s.me.pc 5 0)) = false := by
    simp [Nat.not_lt.mpr hi, Nat.not_lt.mpr hh]
  simp only [lineFetch, hf, hin, hk, withLine, ← ha, Bool.false_eq_true, if_false]

theorem prepare_of_lineReady {s v : State} {l : LineBuf} (hr : LineReady s v l) (h : HoldsHead s.me l) :
    prepare s = withLine l v := by
  obtain ⟨hl, rfl⟩ | ⟨hl, hf, k, hk, rfl⟩ := hr
  · have hsame : withLine l v = v := by simp only [withLine, State.modMe, ← hl]
    rw [prepare, if_pos (lineInUse_of_holdsHead hl h), hsame]
  · have hno : lineInUse s.me = false := by simp [lineInUse, hl]
    rw [prepare, hno, if_neg Bool.false_ne_true, lineFetch_of_line hf hk h]

/-- A strand that runs, and whose line is at hand, executes its head. -/
theorem runMe_of_lineReady {s v : State} {l : LineBuf} (hr : LineReady s v l) (h : HoldsHead s.me l)
    (hrun : s.me.run = .running) (hwait : s.me.wait = none) (hdue : s.me.due = none) : runMe s = runHead (withLine l v) := by
  have hp := prepare_of_lineReady hr h
  obtain ⟨st, vs, ev, rfl⟩ := hr.frame
  have huse : lineInUse (withLine l { s with stash := st, vfs := vs, events := ev }).me = true :=
    lineInUse_of_holdsHead (l := l) rfl h
  have hgo : runnable (withLine l { s with stash := st, vfs := vs, events := ev }).me = true := by
    simp [runnable, withLine, hrun, hwait]
  simp [runMe, hdue, hp, huse, hgo]

/-! ### The head of the PC -/

/-- The head of the PC, of the line `l`. -/
def pcIr (l : LineBuf) (m : Strand) : Ir := headAt l.halfs (bitsOf m.pc 5 0)

def irFields (ir : Ir) : Coding.Fields := Coding.splitFields ir.head.toNat ir.tail.toNat

/-- The state in which the head `ir` of the line `l` is executed. -/
def issuing (l : LineBuf) (ir : Ir) (s : State) : State := { s with me := { s.me with line := some l, ir := ir } }

/-- A head is withheld (R4), or what it decodes to is issued, or it traps as no instruction (R103). -/
theorem runHead_withLine {v : State} {m : Strand} (hm : v.me = m) (l : LineBuf) :
    runHead (withLine l v) =
      if classLacks m (irFields (pcIr l m)) then .next (takeTrap (illegal 7) (issuing l (pcIr l m) v))
      else match Coding.decodeHead (pcIr l m).head.toNat (pcIr l m).tail.toNat with
        | .ok c => issue c.insn (issuing l (pcIr l m) v)
        | .error r => .next (takeTrap (illegal (rejectDetail m (irFields (pcIr l m)) r)) (issuing l (pcIr l m) v)) := by
  subst hm
  rfl

/-- R4: the Steward withholds majors above 0x2F, and of 0x21 the functions up to 10. -/
theorem classLacks_iff (m : Strand) (f : Coding.Fields) :
    classLacks m f = true ↔ m.onSteward = true ∧ (f.maj > 0x2F ∨ (f.maj = 0x21 ∧ f.fn ≤ 10)) := by
  simp [classLacks]

theorem classLacks_compute {m : Strand} (h : m.onSteward = false) (f : Coding.Fields) : classLacks m f = false := by
  simp [classLacks, h]

theorem classLacks_given {m : Strand} {f : Coding.Fields} (h : m.onSteward = true → f.maj ≤ 0x2F ∧ (f.maj = 0x21 → f.fn = 11)) :
    classLacks m f = false := by
  rw [← Bool.not_eq_true, classLacks_iff]
  rintro ⟨hs, hw⟩
  obtain ⟨hmaj, hfn⟩ := h hs
  omega

/-! ### What making a line ready leaves -/

theorem handled_issuing {s v : State} {l : LineBuf} (hr : LineReady s v l) (ir : Ir) (h : Handled s) : Handled (issuing l ir v) := by
  obtain ⟨st, vs, ev, rfl⟩ := hr.frame
  obtain ⟨hon, hvec, hrun, hviq, hland⟩ := h
  rw [landing_cur] at hland
  exact ⟨hon, hvec, hrun, hviq, (landing_cur _).trans hland⟩

theorem footprints_issuing {s v : State} {l : LineBuf} (hr : LineReady s v l) (ir : Ir) (core : Nat) :
    footprints (issuing l ir v) core = footprints s core := by
  obtain ⟨st, vs, ev, rfl⟩ := hr.frame
  have hcore (i : Nat) : ((issuing l ir { s with stash := st, vfs := vs, events := ev }).strand i).core = (s.strand i).core := by
    simp only [State.strand, apply_ite Strand.core]
    rfl
  unfold footprints
  simp only [hcore, State.strands]
  by_cases h : s.me.core = core <;> simp [issuing, sumOf, h]

/-- The head of a line that is ready executes, where nothing of the strand is outstanding and the tracker has room. -/
theorem issue_issuing {s v : State} {l : LineBuf} {i : Instr} (hr : LineReady s v l) (ir : Ir) (hstop : s.me.stopReq = false)
    (hviq : s.me.viq = []) (hc : s.colls = []) (hl : s.myCrew.landings = [])
    (ht : tracked i = true → footprints s s.me.core < 256) : issue i (issuing l ir v) = exec i (issuing l ir v) := by
  have hfoot := footprints_issuing hr ir s.me.core
  obtain ⟨st, vs, ev, rfl⟩ := hr.frame
  exact issue_eq_exec hstop hviq hc hl fun h => hfoot.trans_lt (ht h)

/-! ### The step -/

theorem step_posted {s : State} {k : Nat} {b : List Byte} {rest : List (Nat × List Byte)} (h : s.posted = (k, b) :: rest) :
    step s = .next (hostWrite k b { s with posted := rest }) := by
  simp only [step, h]

theorem step_event {s : State} {e : Event} {rest : List Event} (hp : s.posted = []) (he : s.events = e :: rest)
    (h : s.powered = true ∨ e = .deviceReset) : step s = exec e.row { s with events := rest, input := some e } := by
  have hgo : (s.powered || decide (e = .deviceReset)) = true := by simpa using h
  simp only [step, hp, he, hgo, if_true]
  rfl

theorem step_unpowered {s : State} (hw : s.powered = false) (hp : s.posted = []) (he : s.events.head? ≠ some .deviceReset) :
    step s = .fault .noPower := by
  cases hev : s.events with
  | nil => simp [step, hp, hev, hw]
  | cons e rest =>
    have hne : e ≠ .deviceReset := by simpa [hev] using he
    simp [step, hp, hev, hw, hne]

section
variable {s : State} (hw : s.powered = true) (hp : s.posted = []) (he : s.events = [])
include hw hp he

theorem step_schedule {sid : Nat} {rest : List Nat} (h : s.schedule = sid :: rest) :
    step s = .next (switchTo sid { s with schedule := rest }) := by
  simp [step, hp, he, hw, h]

theorem step_runMe (h : s.schedule = []) (hrun : s.me.run = .running) (hwait : s.me.wait = none) (ht : s.turn % 64 ≠ 63) :
    step s = runMe { s with turn := s.turn + 1 } := by
  simp [step, hp, he, hw, h, runnable, hrun, hwait, ht]

end

/-- The step is that of the current strand, which can move; `v` is the state with its line, `l`, at hand. -/
structure Moves (s v : State) (l : LineBuf) : Prop where
  powered : s.powered = true
  posted : s.posted = []
  events : s.events = []
  schedule : s.schedule = []
  run : s.me.run = .running
  wait : s.me.wait = none
  due : s.me.due = none
  turn : s.turn % 64 ≠ 63
  ready : LineReady { s with turn := s.turn + 1 } v l
  holds : HoldsHead s.me l

section
variable {s v : State} {l : LineBuf} (h : Moves s v l)
include h

theorem Moves.step_eq : step s = runHead (withLine l v) := by
  rw [step_runMe h.powered h.posted h.events h.schedule h.run h.wait h.turn]
  exact runMe_of_lineReady h.ready h.holds h.run h.wait h.due

theorem Moves.me_eq : v.me = s.me := by
  obtain ⟨st, vs, ev, rfl⟩ := h.ready.frame
  rfl

theorem Moves.takes (hh : Handled s) (ir : Ir) (x : Trap) : Takes (issuing l ir v) (takeTrap x (issuing l ir v)) x :=
  takes_takeTrap (handled_issuing h.ready ir hh) x

/-- A head that is withheld traps with DETAIL 7. -/
theorem Moves.step_withheld (hw : classLacks s.me (irFields (pcIr l s.me)) = true) (hh : Handled s) :
    ∃ t, step s = .next t ∧ Takes (issuing l (pcIr l s.me) v) t (illegal 7) := by
  refine ⟨_, ?_, h.takes hh _ _⟩
  rw [h.step_eq, runHead_withLine h.me_eq, if_pos hw]

/-- A head that is no instruction traps with the smallest reason that applies (R103, R104). -/
theorem Moves.step_rejected {r : Coding.Reject} (hw : classLacks s.me (irFields (pcIr l s.me)) = false)
    (hd : Coding.decodeHead (pcIr l s.me).head.toNat (pcIr l s.me).tail.toNat = .error r) (hh : Handled s) :
    ∃ t, step s = .next t
      ∧ Takes (issuing l (pcIr l s.me) v) t (illegal (rejectDetail s.me (irFields (pcIr l s.me)) r)) := by
  refine ⟨_, ?_, h.takes hh _ _⟩
  rw [h.step_eq, runHead_withLine h.me_eq, hw, if_neg Bool.false_ne_true, hd]

theorem Moves.step_decoded {c : Coding.Coded} (hw : classLacks s.me (irFields (pcIr l s.me)) = false)
    (hd : Coding.decodeHead (pcIr l s.me).head.toNat (pcIr l s.me).tail.toNat = .ok c) :
    step s = issue c.insn (issuing l (pcIr l s.me) v) := by
  rw [h.step_eq, runHead_withLine h.me_eq, hw, if_neg Bool.false_ne_true, hd]

end

/-- Settles O58: each branch of the step, and of a head whose line is at hand, has its lemma above. -/
theorem stepRuns : Obligations.StepRuns := by
  unfold Obligations.StepRuns
  intro s
  refine ⟨fun k b rest hp => ?posted, fun hw hp he => step_unpowered hw hp he, fun e rest hp he h => step_event hp he h,
    fun hw hp he => ⟨fun sid rest h => step_schedule hw hp he h, ?head⟩⟩
  case posted =>
    exact ⟨_, step_posted hp, hostWrite_posted .., hostWrite_events ..,
      fun hw ht _ x => hostWrite_home (s := { s with posted := rest }) hw ht k b x,
      fun hw => hostWrite_mem_unpowered (s := { s with posted := rest }) hw k b⟩
  case head =>
    intro l v hs hrun hwait hdue ht s1 va hr haddr hlow hhigh ir u f
    have h : Moves s v l := ⟨hw, hp, he, hs, hrun, hwait, hdue, ht, hr, haddr, hlow, hhigh⟩
    refine ⟨fun c hd hmaj hstop hviq hc hland htr => ?decoded, fun r hd hst hh => ?rejected, fun hst hmaj hh => ?withheld⟩
    case decoded => exact (h.step_decoded (classLacks_given hmaj) hd).trans (issue_issuing h.ready ir hstop hviq hc hland htr)
    case rejected => exact h.step_rejected (classLacks_compute hst f) hd hh
    case withheld => exact h.step_withheld ((classLacks_iff s.me f).mpr ⟨hst, hmaj⟩) hh

end Sys2Proof.Machine
end
section
/-! SUPPORT. The completion of a head (R95, R97): what each kind of result leaves in the scalar registers, and that a completed
head changes the strand and the clock alone. -/

namespace Sys2Proof.Machine
open Sys2Proof

/-! ### Frames -/

/-- The passing of units touches registers and undelivered results alone. -/
theorem Strand.age_frame (m : Strand) (d : Nat) : ∃ rs ps, m.age d = { m with regs := rs, pend := ps } := by
  unfold Strand.age
  split
  · exact ⟨m.regs, m.pend, rfl⟩
  · exact ⟨_, _, rfl⟩

/-- An interlocked result touches its register, its undelivered results and its error alone. -/
theorem Strand.wr_frame (m : Strand) (r : SReg) (v : Word) :
    ∃ rs ps sp, m.wr r v = { m with regs := rs, pend := ps, spois := sp } := by
  unfold Strand.wr
  split
  · exact ⟨m.regs, m.pend, m.spois, rfl⟩
  · exact ⟨_, _, _, rfl⟩

theorem State.wr_frame (s : State) (r : SReg) (v : Word) :
    ∃ rs ps sp, s.wr r v = { s with me := { s.me with regs := rs, pend := ps, spois := sp } } := by
  obtain ⟨rs, ps, sp, h⟩ := s.me.wr_frame r v
  exact ⟨rs, ps, sp, by rw [State.wr, State.modMe, h]⟩

/-- A fixed-latency result joins the undelivered results and hides an error of its register. -/
theorem State.wrFixed_frame (s : State) (r : SReg) (v : Word) (lat : Nat) :
    ∃ ps sp, s.wrFixed r v lat = { s with me := { s.me with pend := ps, spois := sp } } := by
  unfold State.wrFixed
  split
  · exact ⟨s.me.pend, s.me.spois, rfl⟩
  · exact ⟨_, _, rfl⟩

theorem nextPc_congr {m n : Strand} (hpc : n.pc = m.pc) (hl : n.line = m.line) : nextPc n = nextPc m := by
  simp only [nextPc, hpc, hl]

theorem onlyMe_trans {s t u : State} (h : OnlyMe s t) (k : OnlyMe t u) : OnlyMe s u := by
  unfold OnlyMe at *
  rw [k, h]

theorem onlyMe_withMe (s : State) (m : Strand) : OnlyMe s { s with me := m } := rfl

theorem onlyMe_modMe (s : State) (f : Strand → Strand) : OnlyMe s (s.modMe f) := rfl

theorem onlyMe_wr (s : State) (r : SReg) (v : Word) : OnlyMe s (s.wr r v) := rfl

theorem onlyMe_wrFixed (s : State) (r : SReg) (v : Word) (lat : Nat) : OnlyMe s (s.wrFixed r v lat) := by
  obtain ⟨ps, sp, h⟩ := s.wrFixed_frame r v lat
  rw [h, OnlyMe]

theorem onlyMe_finish (s : State) : OnlyMe s (finish s) := rfl

theorem OnlyMe.finish {s t : State} (h : OnlyMe s t) : OnlyMe s (finish t) := onlyMe_trans h (onlyMe_finish t)

theorem OnlyMe.home {s t : State} (h : OnlyMe s t) (k : Nat) : t.home k = s.home k := by
  rw [h]
  rfl

theorem passedHead_finish {s t : State} (hc : t.cycle = s.cycle) (hir : t.me.ir = s.me.ir) : PassedHead s (finish t) := by
  rw [PassedHead, finish_cycle, hc, hir]
  omega

/-! ### Checks -/

@[simp] theorem checked_nil (k : State → State) (s : State) : checked [] k s = k s := rfl

@[simp] theorem checked_none (l : List (Option Trap)) (k : State → State) (s : State) : checked (none :: l) k s = checked l k s := rfl

@[simp] theorem checked_some (x : Trap) (l : List (Option Trap)) (k : State → State) (s : State) :
    checked (some x :: l) k s = takeTrap x s := rfl

@[simp] theorem trapIf_false (x : Trap) : trapIf false x = none := rfl

@[simp] theorem trapIf_true (x : Trap) : trapIf true x = some x := rfl

/-! ### Registers -/

/-- The register after `n` units of distance, in a strand. -/
theorem rd_age (s : State) (m : Strand) (n : Nat) (r : SReg) :
    State.rd { s with me := m.age n } r = if r.val = 0 then 0 else tget 0 (m.age n).regs r.val := rfl

theorem finish_rd (s : State) (r : SReg) :
    (finish s).rd r = if r.val = 0 then 0 else tget 0 (s.me.age (1 + s.me.ir.sc)).regs r.val := rfl

/-- Registers age alike in strands with the same registers and results. -/
theorem age_regs_congr {m n : Strand} (hr : n.regs = m.regs) (hp : n.pend = m.pend) (d : Nat) : (n.age d).regs = (m.age d).regs := by
  rw [Strand.age_regs, Strand.age_regs, hr, hp]

/-- A completed head that writes no scalar register lets every one age. -/
theorem agedRegs_finish {s t : State} (hr : t.me.regs = s.me.regs) (hp : t.me.pend = s.me.pend) (hir : t.me.ir = s.me.ir) :
    AgedRegs s (finish t) := by
  intro r
  rw [finish_rd, rd_age, hir, age_regs_congr hr hp]

/-- A completed head with an interlocked result delivers it. -/
theorem finish_wr_rd (s : State) (d : SReg) (v : Word) : (finish (s.wr d v)).rd d = if d = 0 then 0 else v := by
  rw [finish_rd]
  by_cases h : d = 0
  · subst h; rfl
  · have hz : d.val ≠ 0 := fun e => h (Fin.ext e)
    rw [if_neg hz, if_neg h]
    exact age_wr_dest s.me d v _ hz

/-- Every other register of a completed head with an interlocked result ages. -/
theorem otherRegs_finish_wr (s : State) (d : SReg) (v : Word) : OtherRegs s (finish (s.wr d v)) d (1 + s.me.ir.sc) := by
  intro r hr
  rw [finish_rd, rd_age, State.wr_me, Strand.wr_ir, age_wr_other s.me d r v _ hr]

/-- Of a result whose latency has passed nothing undelivered is left. -/
theorem age_pend_delivered {m : Strand} {l : List Pend} {p : Pend} (hp : m.pend = l ++ [p]) (n : Nat) (h : p.rem ≤ n) :
    ∀ q ∈ (m.age n).pend, q.reg ≠ p.reg := by
  have hz : p.rem - n = 0 := by omega
  rw [Strand.age_pend, hp, List.map_append, List.map_cons, List.map_nil, deliver_append, if_pos hz]
  exact fun q hq => by simpa using (List.mem_filter.mp hq).2

/-- A younger result that is still undelivered stays the last. -/
theorem age_pend_undelivered {m : Strand} {l : List Pend} {p : Pend} (hp : m.pend = l ++ [p]) (n : Nat) (h : n < p.rem) :
    ∃ l', (m.age n).pend = l' ++ [{ p with rem := p.rem - n }] := by
  have hz : p.rem - n ≠ 0 := by omega
  rw [Strand.age_pend, hp, List.map_append, List.map_cons, List.map_nil, deliver_append, if_neg hz]
  exact ⟨_, rfl⟩

theorem age_regs_last {m : Strand} {l : List Pend} {p : Pend} (hp : m.pend = l ++ [p]) (n : Nat) (h : p.rem ≤ n) :
    tget 0 (m.age n).regs p.reg.val = p.val := by
  have hz : p.rem - n = 0 := by omega
  rw [Strand.age_regs, hp, List.map_append, List.map_cons, List.map_nil, deliver_append, if_pos hz, tget_tset_same]

/-- The youngest result reaches its register once its latency has passed, in however many heads (R97, R99). -/
theorem age_age_last {m : Strand} {l : List Pend} {p : Pend} (hp : m.pend = l ++ [p]) (n k : Nat) (h : p.rem ≤ n + k) :
    tget 0 ((m.age n).age k).regs p.reg.val = p.val := by
  rcases Nat.lt_or_ge n p.rem with hn | hn
  · obtain ⟨l', hl⟩ := age_pend_undelivered hp n hn
    exact age_regs_last hl k (Nat.sub_le_iff_le_add'.mpr h)
  · rw [Strand.age_regs, deliver_other _ _ _ _ ?none, age_regs_last hp n hn]
    case none =>
      intro q hq
      obtain ⟨q', hq', rfl⟩ := List.mem_map.mp hq
      exact age_pend_delivered hp n hn q' hq'

/-- A result whose latency is at most 8 is its register's final value (R96, R100). -/
theorem finalVal_finish {s : State} {l : List Pend} {p : Pend} (hp : s.me.pend = l ++ [p]) (hz : p.reg.val ≠ 0) (hl : p.rem ≤ 8) :
    (finish s).finalVal p.reg = p.val := by
  have hregs : (finish s).me.deliverAll.regs = ((s.me.age (1 + s.me.ir.sc)).age 8).regs :=
    age_regs_congr (m := s.me.age _) (n := (finish s).me) rfl rfl 8
  rw [State.finalVal, if_neg hz, hregs]
  exact age_age_last hp _ 8 (by omega)

end Sys2Proof.Machine
end

section
/-! SUPPORT. Scalar floating instructions (R126 to R128): O2. -/

namespace Sys2Proof.Machine
open Sys2Proof

/-- The state that a floating head completes: its result undelivered, its flags raised (R128). -/
def withFloat (d : SReg) (r : FRes) (s : State) : State :=
  (s.wrFixed d (word r.bits) 4).modMe fun m => { m with fflags := m.fflags.or r.fl }

theorem fpHead_go {rs : List SReg} {s : State} (h : Readable s rs) (d : SReg) (f : State → FRes) :
    fpHead rs d f s = finish (withFloat d (f s) s) := readRegs_go rs _ s h

/-- A floating instruction is a floating head with the result that is stated for it. -/
theorem exec_fpu {i : Instr} {s : State} {x : Spec.FpSpec} (h : Spec.fpu i s = some x) :
    ∃ f, exec i s = .next (fpHead x.reads x.dest f s) ∧ f s = x.result := by
  unfold Spec.fpu at h
  split at h <;> cases h <;> exact ⟨_, rfl, rfl⟩

theorem withFloat_me_pend (d : SReg) (r : FRes) (s : State) (h : d.val ≠ 0) :
    (withFloat d r s).me.pend = s.me.pend ++ [{ reg := d, val := word r.bits, rem := 4, pc := s.me.pc }] :=
  State.wrFixed_me_pend s d _ 4 h

theorem withFloat_frame (d : SReg) (r : FRes) (s : State) :
    ∃ ps sp, withFloat d r s = { s with me := { s.me with pend := ps, spois := sp, fflags := s.me.fflags.or r.fl } } := by
  obtain ⟨ps, sp, h⟩ := s.wrFixed_frame d (word r.bits) 4
  exact ⟨ps, sp, by rw [withFloat, h, State.modMe]⟩

/-- The flags bear on no register. -/
theorem age_withFloat_regs (d : SReg) (r : FRes) (s : State) (n : Nat) :
    ((withFloat d r s).me.age n).regs = ((s.wrFixed d (word r.bits) 4).me.age n).regs :=
  age_regs_congr (m := (s.wrFixed d (word r.bits) 4).me) (n := (withFloat d r s).me) rfl rfl n

theorem finalVal_finish_withFloat (d : SReg) (r : FRes) (s : State) :
    (finish (withFloat d r s)).finalVal d = if d = 0 then 0 else BitVec.ofNat 64 r.bits := by
  by_cases hd : d = 0
  · subst hd; rfl
  · have hz : d.val ≠ 0 := fun e => hd (Fin.ext e)
    rw [if_neg hd]
    exact finalVal_finish (withFloat_me_pend d r s hz) hz (show 4 ≤ 8 by decide)

theorem onlyScalars_finish_withFloat (d : SReg) (r : FRes) (s : State) : OnlyScalars s (finish (withFloat d r s)) := by
  obtain ⟨ps, sp, h⟩ := withFloat_frame d r s
  obtain ⟨rs, ps', ha⟩ := Strand.age_frame { s.me with pend := ps, spois := sp, fflags := s.me.fflags.or r.fl } (1 + s.me.ir.sc)
  simp only [OnlyScalars, finish_me, h, ha]

/-- Settles O2: a floating head is one result of latency 4, and its flags. -/
theorem scalarFloatResult : Obligations.ScalarFloatResult := by
  unfold Obligations.ScalarFloatResult
  intro i s x hx hr
  obtain ⟨f, hexec, hf⟩ := exec_fpu hx
  rw [fpHead_go hr, hf] at hexec
  obtain ⟨ps, sp, hframe⟩ := withFloat_frame x.dest x.result s
  have honly : OnlyMe s (finish (withFloat x.dest x.result s)) := by rw [hframe]; exact rfl
  have hir : (withFloat x.dest x.result s).me.ir = s.me.ir := by rw [hframe]
  refine ⟨_, hexec, ?pc, passedHead_finish (by rw [hframe]) hir, finalVal_finish_withFloat .., ?dest, ?others, ?flags, ?line,
    onlyScalars_finish_withFloat .., honly, honly.home⟩
  case pc => rw [hframe]; rfl
  case flags => rw [finish_me, hframe]; exact Strand.age_fflags _ _
  case line => rw [finish_me, hframe]; exact Strand.age_line _ _
  case dest =>
    intro hsc
    rw [finish_rd, hir, age_withFloat_regs]
    by_cases hd : x.dest = 0
    · rw [hd]; rfl
    · have hz : x.dest.val ≠ 0 := fun e => hd (Fin.ext e)
      rw [if_neg hz, if_neg hd, age_wrFixed_dest s x.dest _ 4 _ hz, if_pos hsc]
      rfl
  case others =>
    intro r hne
    rw [finish_rd, rd_age, hir, age_withFloat_regs, age_wrFixed_other s x.dest r _ 4 _ hne]

end Sys2Proof.Machine
end

section
/-! SUPPORT. System registers (R31, R32, R132): O5, O6 and O7. -/

namespace Sys2Proof.Machine
open Sys2Proof

/-! ### Heads that write no scalar register -/

/-- `u` is `s` but for its strand, whose place in the program and scalar registers are those of `s`. -/
structure SamePlace (s u : State) : Prop where
  only : u = { s with me := u.me }
  regs : u.me.regs = s.me.regs
  pend : u.me.pend = s.me.pend
  ir : u.me.ir = s.me.ir
  pc : u.me.pc = s.me.pc
  line : u.me.line = s.me.line

section
variable {s u : State} (h : SamePlace s u)
include h

theorem SamePlace.cycle : u.cycle = s.cycle := by rw [h.only]

theorem SamePlace.finish_pc : (finish u).me.pc = nextPc s.me := nextPc_congr h.pc h.line

theorem SamePlace.passed : PassedHead s (finish u) := passedHead_finish h.cycle h.ir

theorem SamePlace.onlyMe : OnlyMe s u := by
  unfold OnlyMe
  rw [h.cycle]
  exact h.only

theorem SamePlace.aged : AgedRegs s (finish u) := agedRegs_finish h.regs h.pend h.ir

end

/-! ### `mfs` (R31) -/

theorem readDenied_eq (p : Priv) (n : Nat) : readDenied p n = (decide (p = .app) && !Spec.appReads n) := by
  simp only [readDenied, Spec.appReads, ← decide_not, Nat.not_lt, ge_iff_le]

theorem readDenied_of_may {p : Priv} {n : Nat} (h : p ≠ .app ∨ Spec.appReads n = true) : readDenied p n = false := by
  rw [readDenied_eq]
  rcases h with h | h <;> simp [h]

theorem vown_none_of {b : Bool} {s : State} (h : b = true → vown s = none) : (if b then vown s else none) = none := by
  cases b
  · rfl
  · exact h rfl

theorem exec_mfs_go {d : SReg} {n : Fin 1024} {s : State} (hc : s.me.onSteward = false) (hd : readDenied s.me.priv n = false)
    (hv : vectorSys n = true → vown s = none) : exec (.mfs d n) s = .next (finish (s.wr d (readSys s n))) := by
  show execMfs d n s = _
  simp [execMfs, hc, hd, vown_none_of hv]

theorem exec_mfs_denied {d : SReg} {n : Fin 1024} {s : State} (hc : s.me.onSteward = false) (hd : readDenied s.me.priv n = true) :
    exec (.mfs d n) s = .next (takeTrap { cause := .priv, detail := n } s) := by
  show execMfs d n s = _
  simp [execMfs, hc, hd]

theorem onlyScalars_finish_wr (s : State) (d : SReg) (v : Word) : OnlyScalars s (finish (s.wr d v)) := by
  obtain ⟨rs, ps, sp, h⟩ := s.me.wr_frame d v
  obtain ⟨rs', ps', ha⟩ := Strand.age_frame { s.me with regs := rs, pend := ps, spois := sp } (1 + s.me.ir.sc)
  simp only [OnlyScalars, finish_me, State.wr_me, h, ha]

theorem fflags_finish_wr (s : State) (d : SReg) (v : Word) : (finish (s.wr d v)).me.fflags = s.me.fflags := by
  simp only [finish_me, State.wr_me, Strand.age_fflags, Strand.wr_fflags]

theorem passed_finish_wr (s : State) (d : SReg) (v : Word) : PassedHead s (finish (s.wr d v)) :=
  passedHead_finish rfl (Strand.wr_ir ..)

theorem pc_finish_wr (s : State) (d : SReg) (v : Word) : (finish (s.wr d v)).me.pc = nextPc s.me :=
  nextPc_congr (Strand.wr_pc ..) (Strand.wr_line ..)

/-- Settles O5: a permitted read is an interlocked result; a denied one is the trap PRIV. -/
theorem systemRegisterRead : Obligations.SystemRegisterRead := by
  unfold Obligations.SystemRegisterRead
  intro d n s hc
  refine ⟨fun hmay hv => ?read, fun hp ha hh => ?denied⟩
  case read =>
    have honly : OnlyMe s (finish (s.wr d (readSys s n))) := rfl
    exact ⟨_, exec_mfs_go hc (readDenied_of_may hmay) hv, finish_wr_rd .., pc_finish_wr .., passed_finish_wr ..,
      otherRegs_finish_wr s d _, fflags_finish_wr .., onlyScalars_finish_wr .., honly, honly.home⟩
  case denied =>
    exact ⟨_, exec_mfs_denied hc (by simp [readDenied_eq, hp, ha]), takes_takeTrap hh _⟩

/-! ### `mts` (R31, R32) -/

theorem writeDenied_eq (p : Priv) (n : Nat) :
    writeDenied p n = (Spec.readOnly n || decide (p = .app) && !Spec.appWrites n) := rfl

theorem samePlace_ite {s : State} {c : Prop} [Decidable c] {a b : Option State} (ha : ∀ u ∈ a, SamePlace s u)
    (hb : ∀ u ∈ b, SamePlace s u) : ∀ u ∈ (if c then a else b), SamePlace s u := by
  split
  · exact ha
  · exact hb

theorem samePlace_bind {α : Type} {s : State} {o : Option α} {f : α → Option State} (h : ∀ a, ∀ u ∈ f a, SamePlace s u) :
    ∀ u ∈ o.bind f, SamePlace s u := by
  intro u hu
  obtain ⟨a, -, ha⟩ := Option.bind_eq_some_iff.mp hu
  exact h a u ha

theorem samePlace_none {s : State} : ∀ u ∈ (none : Option State), SamePlace s u := fun _ h => by cases h

theorem samePlace_some {s : State} {m : Strand} (hr : m.regs = s.me.regs) (hp : m.pend = s.me.pend) (hi : m.ir = s.me.ir)
    (hpc : m.pc = s.me.pc) (hl : m.line = s.me.line) : ∀ u ∈ some { s with me := m }, SamePlace s u := by
  rintro u ⟨⟩
  exact ⟨rfl, hr, hp, hi, hpc, hl⟩

/-- A write of a system register leaves the place in the program and the scalar registers. -/
theorem writeSys_samePlace {s : State} {n : Nat} {x : Word} : ∀ u ∈ writeSys s n x, SamePlace s u := by
  unfold writeSys
  dsimp only
  repeat' first | apply samePlace_ite | apply samePlace_none | (apply samePlace_bind; intro _)
  all_goals exact samePlace_some rfl rfl rfl rfl rfl

theorem valueIllegal_readable {s : State} {rs : List SReg} (h : Readable s rs) (bad : Bool) :
    valueIllegal s rs bad = trapIf bad (illegal 6) := by
  simp [valueIllegal, stallShort_readable s rs h, scalarPoison_readable s rs h]

section
variable {s : State} {n : Fin 1024} {a : SReg} (hc : s.me.onSteward = false) (hr : Readable s [a])
include hc

theorem exec_mts_denied (hd : writeDenied s.me.priv n = true) :
    exec (.mts n a) s = .next (takeTrap { cause := .priv, detail := n } s) := by
  show execMts n a s = _
  simp [execMts, hc, hd]

include hr

theorem exec_mts_refused (hd : writeDenied s.me.priv n = false) (hw : writeSys s n (s.rd a) = none) :
    exec (.mts n a) s = .next (takeTrap (illegal 6) s) := by
  show execMts n a s = _
  simp [execMts, hc, hd, hw, valueIllegal_readable hr]

theorem exec_mts_go (hv : vectorSys n = true → vown s = none) (hd : writeDenied s.me.priv n = false) {u : State}
    (hw : writeSys s n (s.rd a) = some u) : exec (.mts n a) s = .next (finish u) := by
  show execMts n a s = _
  simp [execMts, hc, hd, hw, valueIllegal_readable hr, stallShort_readable s [a] hr, scalarPoison_readable s [a] hr,
    vown_none_of hv]

end

/-- Settles O6: a permitted write completes with what its rule leaves; a denied and a refused one trap. -/
theorem systemRegisterWrite : Obligations.SystemRegisterWrite := by
  unfold Obligations.SystemRegisterWrite
  intro n a s hc hr hv
  refine ⟨fun hro hmay => ?may, fun hno hh => ⟨_, exec_mts_denied hc ?no, takes_takeTrap hh _⟩⟩
  case no =>
    rw [writeDenied_eq]
    rcases hno with h | ⟨hp, h⟩
    · simp [h]
    · simp [hp, h]
  case may =>
    have hd : writeDenied s.me.priv n = false := by
      rw [writeDenied_eq, hro]
      rcases hmay with h | h <;> simp [h]
    refine ⟨fun u hu => ?go, fun hw hh => ⟨_, exec_mts_refused hc hr hd hw, takes_takeTrap hh _⟩⟩
    have hs := writeSys_samePlace u hu
    exact ⟨_, exec_mts_go hc hr hv hd hu, rfl, hs.finish_pc, hs.passed, hs.onlyMe.finish, hs.aged, hs.onlyMe.finish.home⟩

end Sys2Proof.Machine
end

section
/-! SUPPORT. What a permitted write of a system register leaves (R32, R33, R36): O7. -/

namespace Sys2Proof.Machine
open Sys2Proof

/-- Every value of seven bits is a value of FFLAGS (R37). -/
theorem fflags_toNat_ofNat : ∀ n < 128, (FFlags.ofNat n).toNat = n := by decide

theorem rmOf_eq_none : ∀ n < 8, 5 ≤ n → rmOf n = none := by decide

theorem rmOf_eq_some : ∀ n < 5, ∃ r, rmOf n = some r ∧ rmCode r = n
  | 0, _ => ⟨.rne, rfl, rfl⟩
  | 1, _ => ⟨.rtz, rfl, rfl⟩
  | 2, _ => ⟨.rup, rfl, rfl⟩
  | 3, _ => ⟨.rdn, rfl, rfl⟩
  | 4, _ => ⟨.rmm, rfl, rfl⟩
  | n + 5, h => by omega

/-! ### Words of a mask (R32) -/

theorem vlmax_le (m : Strand) : m.vlmax ≤ 1024 := by
  have h : ∀ c : Fin 3, 256 * 2 ^ c.val ≤ 1024 := by decide
  exact h m.vlmaxc

theorem laneMask_getLsbD (m : Strand) (l : Nat) : m.laneMask.getLsbD l = decide (l < m.vlmax) := by
  have := vlmax_le m
  rw [Strand.laneMask, BitVec.getLsbD_ofNat, Nat.testBit_two_pow_sub_one]
  by_cases h : l < m.vlmax
  · have hl : l < 1024 := by omega
    simp [h, hl]
  · simp [h]

/-- A number cut at bit `k`, with the 64 bits from there replaced. -/
theorem testBit_setWord (m x k l : Nat) (hx : x < 2 ^ 64) :
    (m % 2 ^ k + x * 2 ^ k + m / 2 ^ (k + 64) * 2 ^ (k + 64)).testBit l
      = if k ≤ l ∧ l < k + 64 then x.testBit (l - k) else m.testBit l := by
  have hsplit : m % 2 ^ k + x * 2 ^ k + m / 2 ^ (k + 64) * 2 ^ (k + 64) = 2 ^ k * (2 ^ 64 * (m / 2 ^ (k + 64)) + x) + m % 2 ^ k := by
    rw [Nat.pow_add]; ring
  rw [hsplit, Nat.testBit_two_pow_mul_add _ (Nat.mod_lt _ (Nat.two_pow_pos k))]
  by_cases hk : l < k
  · rw [if_pos hk, if_neg (by omega), Nat.testBit_mod_two_pow]
    simp [hk]
  · rw [if_neg hk, Nat.testBit_two_pow_mul_add _ hx]
    by_cases hl : l < k + 64
    · rw [if_pos (by omega), if_pos (by omega)]
    · rw [if_neg (by omega), if_neg (by omega), Nat.testBit_div_two_pow]
      exact congrArg m.testBit (by omega)

theorem setMaskWord_getLsbD (m : Mask) (w : Nat) (x : Word) (l : Nat) (hl : l < 1024) :
    (setMaskWord m w x).getLsbD l = if l / 64 = w then x.getLsbD (l % 64) else m.getLsbD l := by
  have hw : 64 * (w + 1) = 64 * w + 64 := by omega
  rw [setMaskWord, BitVec.getLsbD_ofNat, hw, testBit_setWord _ _ _ _ x.isLt]
  simp only [hl, decide_true, Bool.true_and]
  by_cases h : l / 64 = w
  · have hsub : l - 64 * w = l % 64 := by omega
    rw [if_pos (by omega), if_pos h, hsub]
    rfl
  · rw [if_neg (by omega), if_neg h]
    rfl

/-- The rule of DEADMASK: a word of it, below VLMAX. -/
theorem writeSys_deadmask (s : State) (w : Fin 16) (x : Word) : writeSys s (0x40 + w.val) x = some (s.modMe fun m =>
    { m with
      deadmask := setMaskWord m.deadmask w.val x &&& m.laneMask
      everDead := m.everDead ||| setMaskWord m.deadmask w.val x &&& m.laneMask }) := by
  have hw : 0x40 + w.val - 0x40 = w.val := by omega
  have hin : (decide (0x40 ≤ 0x40 + w.val) && decide (0x40 + w.val < 0x50)) = true := by simp; omega
  unfold writeSys
  simp only [hw, hin, if_true, State.modMe]
  repeat rw [if_neg (by omega)]

/-- Settles O7, register by register. -/
theorem writeRules : Obligations.WriteRules := by
  unfold Obligations.WriteRules
  intro s x
  have hfrm : writeSys s 4 x = (rmOf (x.toNat % 8)).bind fun r => some (s.modMe fun m => { m with frm := r }) := by
    have hb : bits x.toNat 2 0 = x.toNat % 8 := by simp [bits]
    rw [← hb]
    rfl
  refine ⟨fun u hu => ?strctl, ⟨_, rfl, rfl, rfl⟩, ⟨_, rfl, ?vstart, rfl⟩, fun hres => ?reserved, fun hmode => ?frm, ⟨_, rfl, ?fflags⟩,
    fun w => ⟨_, writeSys_deadmask s w x, rfl, fun l => ?deadmask⟩, _, rfl, rfl, rfl⟩
  case strctl => cases hu; exact ⟨rfl, rfl, rfl, rfl, rfl, rfl, rfl, rfl, rfl⟩
  case vstart => simp [bits]
  case reserved => rw [hfrm, rmOf_eq_none _ (Nat.mod_lt _ (by decide)) hres]; rfl
  case frm =>
    obtain ⟨r, hr, hcode⟩ := rmOf_eq_some _ hmode
    rw [hfrm, hr]
    exact ⟨_, rfl, hcode⟩
  case fflags =>
    have hb : bits x.toNat 6 0 = x.toNat % 128 := by simp [bits]
    rw [hb]
    exact fflags_toNat_ofNat _ (Nat.mod_lt _ (by decide))
  case deadmask =>
    rw [State.modMe_me, BitVec.getLsbD_and, setMaskWord_getLsbD _ _ _ _ l.isLt, laneMask_getLsbD, Bool.and_comm]

end Sys2Proof.Machine
end

section
/-! SUPPORT. The state after reset (R35, R37, R38, R41, R45): O60. -/

namespace Sys2Proof.Machine
open Sys2Proof

/-- No strand of the device after reset is placed. -/
theorem reset_strand (i : Nat) : State.reset.strand i = {} := by
  unfold State.strand
  split <;> rfl

/-- TSHAPE and ZDIM after reset: FMT 0x0 with no extent, and FMT 0x6 with no extent. -/
theorem readSys_reset_shapes : ∀ k < 8, readSys .reset (8 + k) = 0 ∧ readSys .reset (0x10 + k) = 0x60000000 := by decide

theorem readSys_reset_trap : ∀ k < 6, readSys .reset (0x100 + k) = 0 := by decide

theorem maskWord_zero (w : Nat) : maskWord 0 w = 0 := by
  simp only [maskWord, BitVec.ofNat_eq_ofNat, BitVec.toNat_zero, Nat.zero_div]
  rfl

/-- The words of DEADMASK and of TRAPMASK, as `mfs` reads them. -/
theorem readSys_deadmask (s : State) (w : Nat) (h : w < 16) : readSys s (0x40 + w) = maskWord s.me.deadmask w := by
  have hw : 0x40 + w - 0x40 = w := by omega
  have hin : (decide (0x40 ≤ 0x40 + w) && decide (0x40 + w < 0x50)) = true := by simp; omega
  unfold readSys
  simp only [hw, hin, if_true]
  repeat rw [if_neg (by omega)]

theorem readSys_trapmask (s : State) (w : Nat) (h : w < 16) : readSys s (0x140 + w) = maskWord s.me.trapmask w := by
  have hw : 0x140 + w - 0x140 = w := by omega
  have hin : (decide (0x140 ≤ 0x140 + w) && decide (0x140 + w < 0x150)) = true := by simp; omega
  have hout : (decide (0x40 ≤ 0x140 + w) && decide (0x140 + w < 0x50)) = false := by simp; omega
  unfold readSys
  simp only [hw, hin, hout, if_true, Bool.false_eq_true, if_false]
  repeat rw [if_neg (by omega)]

theorem readSys_reset_masks (k : Nat) (h : k < 16) : readSys .reset (0x40 + k) = 0 ∧ readSys .reset (0x140 + k) = 0 := by
  rw [readSys_deadmask _ k h, readSys_trapmask _ k h]
  exact ⟨maskWord_zero k, maskWord_zero k⟩

/-- Settles O60: every table is empty, so each entry is its default, and so is the strand. -/
theorem resetState : Obligations.ResetState := by
  unfold Obligations.ResetState
  have hrun (i : Nat) : (State.reset.strand i).run = .absent := by rw [reset_strand]
  refine ⟨rfl, wf_reset, fun _ => rfl, hrun, rfl, rfl, rfl, fun _ => ⟨rfl, rfl, rfl⟩, fun _ => ⟨rfl, rfl⟩, fun _ => rfl,
    fun _ => rfl, fun _ => ⟨rfl, rfl⟩, fun _ => ⟨rfl, rfl⟩, fun _ => rfl, rfl, rfl, rfl, rfl, rfl, rfl, rfl, rfl, rfl, rfl, rfl, rfl,
    readSys_reset_shapes, readSys_reset_trap, readSys_reset_masks⟩

end Sys2Proof.Machine
end

section
/-! SUPPORT. The mask stack (R180 to R182) and vector length and type (R167, R168): O25 and O26. -/

namespace Sys2Proof.Machine
open Sys2Proof

/-! ### Vector heads -/

theorem readable_nil (s : State) : Readable s [] := ⟨fun _ _ h => (List.not_mem_nil h).elim, fun _ h => (List.not_mem_nil h).elim⟩

theorem vown_eq_none {s : State} (h : lazyOwner s = none) : vown s = none := by rw [vown, h, Option.map_none]

theorem notOnSteward_compute {s : State} (h : s.me.onSteward = false) : notOnSteward s = none := by rw [notOnSteward, h, trapIf_false]

theorem regQuota_held {s : State} {vs : List Nat} (h : ∀ v ∈ vs, v < s.me.vheld) : regQuota s vs = none := by
  rw [regQuota, Option.map_eq_none_iff, List.find?_eq_none]
  exact fun v hv => by simpa using h v hv

/-- A vector head on a compute core with its own context and readable scalar registers, and named registers held, runs. -/
theorem vhead_go {s : State} {rs : List SReg} {vs : List Nat} (k : State → State) (hc : s.me.onSteward = false)
    (hl : lazyOwner s = none) (hr : Readable s rs) (hq : ∀ v ∈ vs, v < s.me.vheld) : vhead false rs vs k s = k s := by
  simp [vhead, notOnSteward_compute hc, stallShort_readable s rs hr, vown_eq_none hl, regQuota_held hq, scalarPoison_readable s rs hr]

/-- A vector head that names no vector register. -/
theorem vhead_bare {s : State} {rs : List SReg} (k : State → State) (hc : s.me.onSteward = false) (hl : lazyOwner s = none)
    (hr : Readable s rs) : vhead false rs [] k s = k s := vhead_go k hc hl hr fun _ h => (List.not_mem_nil h).elim

/-- A vector instruction that acts at once completes as a head, with VSTART 0 (R35). -/
theorem vdone_of_front {s : State} (h : s.me.vop = none) : vdone s = finish (s.modMe fun m => { m with vstart := 0 }) := by
  simp only [vdone, complete, State.modMe_me, h]

theorem complete_of_front {s : State} (h : s.me.vop = none) : complete s = finish s := by
  simp only [complete, h]

/-! ### The mask stack (R180 to R182) -/

/-- The state that a mask stack instruction completes. -/
def withStack (st : List MEntry) (vt : VType) (s : State) : State :=
  s.modMe fun m => { m with mstack := st, vtype := vt, vstart := 0 }

theorem vdone_stack {s : State} (h : s.me.vop = none) (st : List MEntry) (vt : VType) :
    vdone (s.modMe fun m => { m with mstack := st, vtype := vt }) = finish (withStack st vt s) :=
  vdone_of_front (s := s.modMe fun m => { m with mstack := st, vtype := vt }) h

theorem withStack_samePlace (st : List MEntry) (vt : VType) (s : State) : SamePlace s (withStack st vt s) :=
  ⟨rfl, rfl, rfl, rfl, rfl, rfl⟩

theorem onlyStack_finish_withStack (st : List MEntry) (vt : VType) (s : State) :
    OnlyStack { s with me := { s.me with vstart := 0 } } (finish (withStack st vt s)) := by
  obtain ⟨rs, ps, ha⟩ := Strand.age_frame (withStack st vt s).me (1 + (withStack st vt s).me.ir.sc)
  simp only [OnlyStack, finish_me, ha]
  rfl

/-- What each of the three leaves beside the stack and VTYPE. -/
theorem finish_withStack (st : List MEntry) (vt : VType) (s : State) :
    (finish (withStack st vt s)).me.mstack = st ∧ (finish (withStack st vt s)).me.vtype = vt
      ∧ (finish (withStack st vt s)).me.vl = s.me.vl := by
  simp only [finish_me, Strand.age_mstack, Strand.age_vtype, Strand.age_vl, withStack, State.modMe_me, and_self]

/-- The entry that `vif` pushes (R180). -/
def vifMask (neg : Bool) (a : MReg) (m : Strand) : Mask := m.top &&& (if neg then ~~~m.mask a else m.mask a) &&& m.laneMask

theorem vifMask_getLsbD (neg : Bool) (a : MReg) (m : Strand) {l : Nat} (hl : l < 1024) : (vifMask neg a m).getLsbD l =
    (m.top.getLsbD l && ((m.mask a).getLsbD l != neg) && decide (l < m.vlmax)) := by
  rw [vifMask, BitVec.getLsbD_and, BitVec.getLsbD_and, laneMask_getLsbD]
  cases neg <;> simp [hl]

/-- The entry that `velse` leaves on top of `rest` (R181). -/
def velseMask (e : MEntry) (rest : List MEntry) (m : Strand) : Mask :=
  (match rest with
    | p :: _ => p.mask
    | [] => m.laneMask) &&& ~~~e.mask

theorem velseMask_getLsbD (e : MEntry) (rest : List MEntry) (m : Strand) {l : Nat} (hl : l < 1024) :
    (velseMask e rest m).getLsbD l = (!e.mask.getLsbD l && match rest with
      | p :: _ => p.mask.getLsbD l
      | [] => decide (l < m.vlmax)) := by
  unfold velseMask
  rw [BitVec.getLsbD_and, BitVec.getLsbD_not, Bool.and_comm]
  cases rest with
  | nil => simp only [hl, decide_true, Bool.true_and, laneMask_getLsbD]
  | cons p rest => simp only [hl, decide_true, Bool.true_and]

section
variable {s : State} (hc : s.me.onSteward = false) (hl : lazyOwner s = none)
include hc hl

theorem exec_vif_full {neg : Bool} {a : MReg} (hf : 16 ≤ s.me.mstack.length) :
    exec (.vif neg a) s = .next (takeTrap { cause := .mstackOvf } s) := by
  show execVif neg a s = _
  rw [execVif, vhead_bare _ hc hl (readable_nil s), if_pos hf]

theorem exec_velse_empty (he : s.me.mstack = []) : exec .velse s = .next (takeTrap { cause := .mstackUnf } s) := by
  show execVelse s = _
  rw [execVelse, vhead_bare _ hc hl (readable_nil s), he]

theorem exec_vend_empty (he : s.me.mstack = []) : exec .vend s = .next (takeTrap { cause := .mstackUnf } s) := by
  show execVend s = _
  rw [execVend, vhead_bare _ hc hl (readable_nil s), he]

variable (hv : s.me.vop = none)
include hv

theorem exec_vif_room {neg : Bool} {a : MReg} (hf : s.me.mstack.length < 16) : exec (.vif neg a) s =
    .next (finish (withStack (⟨vifMask neg a s.me, s.me.vtype⟩ :: s.me.mstack) s.me.vtype s)) := by
  show execVif neg a s = _
  rw [execVif, vhead_bare _ hc hl (readable_nil s), if_neg (by omega)]
  exact congrArg _ (vdone_stack hv _ _)

theorem exec_velse_cons {e : MEntry} {rest : List MEntry} (he : s.me.mstack = e :: rest) :
    exec .velse s = .next (finish (withStack (⟨velseMask e rest s.me, e.vtype⟩ :: rest) e.vtype s)) := by
  show execVelse s = _
  rw [execVelse, vhead_bare _ hc hl (readable_nil s), he]
  exact congrArg _ (vdone_stack hv _ _)

theorem exec_vend_cons {e : MEntry} {rest : List MEntry} (he : s.me.mstack = e :: rest) :
    exec .vend s = .next (finish (withStack rest e.vtype s)) := by
  show execVend s = _
  rw [execVend, vhead_bare _ hc hl (readable_nil s), he]
  exact congrArg _ (vdone_stack hv _ _)

end

/-- Settles O25: each of the three is a new stack and VTYPE, or the trap of its end of the stack. -/
theorem maskStack : Obligations.MaskStack := by
  unfold Obligations.MaskStack
  intro s hc hl hv
  have hplace (st : List MEntry) (vt : VType) := withStack_samePlace st vt s
  refine ⟨fun neg a => ⟨fun hf => ?vif, fun hf hh => ⟨_, exec_vif_full hc hl hf, takes_takeTrap hh _⟩⟩,
    fun e rest he => ⟨?velse, ?vend⟩,
    fun he hh => ⟨⟨_, exec_velse_empty hc hl he, takes_takeTrap hh _⟩, _, exec_vend_empty hc hl he, takes_takeTrap hh _⟩⟩
  case vif =>
    have h := hplace (⟨vifMask neg a s.me, s.me.vtype⟩ :: s.me.mstack) s.me.vtype
    obtain ⟨hst, hvt, hvl⟩ := finish_withStack (⟨vifMask neg a s.me, s.me.vtype⟩ :: s.me.mstack) s.me.vtype s
    exact ⟨_, _, exec_vif_room hc hl hv hf, hst, fun _ hlt => vifMask_getLsbD neg a s.me hlt, h.finish_pc, h.passed, h.onlyMe.finish,
      h.aged, onlyStack_finish_withStack .., hvl, hvt⟩
  case velse =>
    have h := hplace (⟨velseMask e rest s.me, e.vtype⟩ :: rest) e.vtype
    obtain ⟨hst, hvt, hvl⟩ := finish_withStack (⟨velseMask e rest s.me, e.vtype⟩ :: rest) e.vtype s
    exact ⟨_, _, exec_velse_cons hc hl hv he, hst, hvt, fun _ hlt => velseMask_getLsbD e rest s.me hlt, h.finish_pc, h.passed,
      h.onlyMe.finish, h.aged, onlyStack_finish_withStack .., hvl⟩
  case vend =>
    have h := hplace rest e.vtype
    obtain ⟨hst, hvt, hvl⟩ := finish_withStack rest e.vtype s
    exact ⟨_, exec_vend_cons hc hl hv he, hst, hvt, h.finish_pc, h.passed, h.onlyMe.finish, h.aged, onlyStack_finish_withStack .., hvl⟩

/-! ### Vector length and type (R167, R168) -/

theorem oobOf_oobCode : ∀ o, oobOf (oobCode o) = some o
  | .zero => rfl
  | .clamp => rfl
  | .fault => rfl

theorem blenOf_blenCode : ∀ b, blenOf (blenCode b) = some b
  | .b16 => rfl
  | .b32 => rfl
  | .b64 => rfl

theorem fmtOf_vtypeFmtCode : ∀ f, fmtOf (vtypeFmtCode f) = some f
  | .int8 => rfl
  | .int16 => rfl
  | .int32 => rfl
  | .int64 => rfl
  | .fp16 => rfl
  | .bf16 => rfl
  | .fp32 => rfl
  | .lns6 => rfl

theorem eq_oobCode {n : Nat} {o : Oob} (h : oobOf n = some o) : n = oobCode o := by
  unfold oobOf at h
  split at h <;> cases h <;> rfl

theorem eq_blenCode {n : Nat} {b : BLen} (h : blenOf n = some b) : n = blenCode b := by
  unfold blenOf at h
  split at h <;> cases h <;> rfl

theorem eq_vtypeFmtCode {n : Nat} {f : Fmt} (h : fmtOf n = some f) : n = vtypeFmtCode f := by
  unfold fmtOf at h
  split at h <;> cases h <;> rfl

theorem oobCode_lt (o : Oob) : oobCode o < 4 := by cases o <;> decide
theorem blenCode_lt (b : BLen) : blenCode b < 4 := by cases b <;> decide
theorem vtypeFmtCode_lt (f : Fmt) : vtypeFmtCode f < 16 := by cases f <;> decide

/-- The fields of VTYPE do not see bits 9 to 4. -/
theorem vtypeOf_code (vt : VType) {k : Nat} (hk : k < 64) : vtypeOf (vtypeCode vt + 16 * k) = some vt := by
  have ho := oobCode_lt vt.oob
  have hb := blenCode_lt vt.blen
  have hf := vtypeFmtCode_lt vt.fmt
  have eo : bits (vtypeCode vt + 16 * k) 13 12 = oobCode vt.oob := by simp only [bits, vtypeCode]; omega
  have eb : bits (vtypeCode vt + 16 * k) 11 10 = blenCode vt.blen := by simp only [bits, vtypeCode]; omega
  have ef : bits (vtypeCode vt + 16 * k) 3 0 = vtypeFmtCode vt.fmt := by simp only [bits, vtypeCode]; omega
  rw [vtypeOf, eo, eb, ef, oobOf_oobCode, blenOf_blenCode, fmtOf_vtypeFmtCode]

/-- A word below bit 14 that VTYPE takes is a code of it, but for bits 9 to 4. -/
theorem code_of_vtypeOf {x : Nat} {vt : VType} (hx : x < 2 ^ 14) (h : vtypeOf x = some vt) :
    ∃ k < 64, x = vtypeCode vt + 16 * k := by
  unfold vtypeOf at h
  split at h
  next o b f ho hb hf =>
    cases h
    refine ⟨bits x 9 4, Nat.mod_lt _ (by decide), ?_⟩
    simp only [vtypeCode, ← eq_oobCode ho, ← eq_blenCode hb, ← eq_vtypeFmtCode hf, bits]
    omega
  next => cases h

/-- The state that `vsettype` completes. -/
def withVType (vt : VType) (s : State) : State := s.modMe fun m => { m with vtype := vt }

theorem withVType_samePlace (vt : VType) (s : State) : SamePlace s (withVType vt s) := ⟨rfl, rfl, rfl, rfl, rfl, rfl⟩

theorem onlyStack_finish_withVType (vt : VType) (s : State) : OnlyStack s (finish (withVType vt s)) := by
  obtain ⟨rs, ps, ha⟩ := Strand.age_frame (withVType vt s).me (1 + (withVType vt s).me.ir.sc)
  simp only [OnlyStack, finish_me, ha]
  rfl

theorem finish_withVType (vt : VType) (s : State) : (finish (withVType vt s)).me.vtype = vt
    ∧ (finish (withVType vt s)).me.vl = s.me.vl ∧ (finish (withVType vt s)).me.mstack = s.me.mstack := by
  simp only [finish_me, Strand.age_mstack, Strand.age_vtype, Strand.age_vl, withVType, State.modMe_me, and_self]

/-- Whole blocks (R167). -/
theorem grantVl_eq (vlmax r : Nat) (pad : Bool) (vt : VType) : grantVl vlmax r pad vt =
    if vt.fmt = .lns6 ∧ pad = false then blenVal vt.blen * (min r vlmax / blenVal vt.blen) else min r vlmax := by
  have hwhole : min r vlmax - min r vlmax % blenVal vt.blen = blenVal vt.blen * (min r vlmax / blenVal vt.blen) :=
    Nat.sub_eq_of_eq_add (Nat.div_add_mod _ _).symm
  simp only [grantVl, hwhole, Bool.and_eq_true, decide_eq_true_eq, Bool.not_eq_true']

/-- The state that `vsetvl` completes. -/
def withGrant (pad : Bool) (d a : SReg) (vt : VType) (s : State) : State :=
  (s.modMe fun m => { m with vtype := vt, vl := grantVl s.me.vlmax (s.rd a).toNat pad vt }).wr d
    (word (grantVl s.me.vlmax (s.rd a).toNat pad vt))

theorem withGrant_frame (pad : Bool) (d a : SReg) (vt : VType) (s : State) : ∃ rs ps sp, withGrant pad d a vt s =
    { s with me := { s.me with
      regs := rs, pend := ps, spois := sp, vtype := vt, vl := grantVl s.me.vlmax (s.rd a).toNat pad vt } } := by
  obtain ⟨rs, ps, sp, h⟩ := (s.modMe fun m => { m with vtype := vt, vl := grantVl s.me.vlmax (s.rd a).toNat pad vt }).wr_frame d
    (word (grantVl s.me.vlmax (s.rd a).toNat pad vt))
  exact ⟨rs, ps, sp, h⟩

theorem onlyStack_finish_withGrant (pad : Bool) (d a : SReg) (vt : VType) (s : State) :
    OnlyStack s (finish (withGrant pad d a vt s)) := by
  obtain ⟨rs, ps, sp, h⟩ := withGrant_frame pad d a vt s
  obtain ⟨rs', ps', ha⟩ := Strand.age_frame { s.me with
    regs := rs, pend := ps, spois := sp, vtype := vt, vl := grantVl s.me.vlmax (s.rd a).toNat pad vt } (1 + s.me.ir.sc)
  simp only [OnlyStack, finish_me, h, ha]

theorem finish_withGrant (pad : Bool) (d a : SReg) (vt : VType) (s : State) :
    (finish (withGrant pad d a vt s)).me.vl = grantVl s.me.vlmax (s.rd a).toNat pad vt
      ∧ (finish (withGrant pad d a vt s)).me.vtype = vt ∧ (finish (withGrant pad d a vt s)).me.mstack = s.me.mstack := by
  simp only [finish_me, Strand.age_mstack, Strand.age_vtype, Strand.age_vl, withGrant, State.wr_me, Strand.wr_mstack, Strand.wr_vtype,
    Strand.wr_vl, State.modMe_me, and_self]

/-- VL and VTYPE bear on no register. -/
theorem otherRegs_finish_withGrant (pad : Bool) (d a : SReg) (vt : VType) (s : State) :
    OtherRegs s (finish (withGrant pad d a vt s)) d (1 + s.me.ir.sc) := by
  intro r hr
  have h := otherRegs_finish_wr (s.modMe fun m => { m with vtype := vt, vl := grantVl s.me.vlmax (s.rd a).toNat pad vt }) d
    (word (grantVl s.me.vlmax (s.rd a).toNat pad vt)) r hr
  rw [withGrant, h, rd_age, rd_age, State.modMe_me,
    age_regs_congr (m := s.me) (n := { s.me with vtype := vt, vl := grantVl s.me.vlmax (s.rd a).toNat pad vt }) rfl rfl]

section
variable {s : State} (hc : s.me.onSteward = false) (hl : lazyOwner s = none)
include hc hl

theorem exec_vsetvl {i : Instr} {pad : Bool} {d a : SReg} {vt : VType}
    (hi : (i = .vsetvl pad d a ∧ vt = s.me.vtype) ∨ i = .vsetvlType pad d a vt) (hr : Readable s [a]) :
    exec i s = .next (finish (withGrant pad d a vt s)) := by
  rcases hi with ⟨rfl, rfl⟩ | rfl
  · show execVsetvl pad d a s = _
    rw [execVsetvl, vhead_bare _ hc hl hr]
    rfl
  · show execVsetvlType pad d a vt s = _
    rw [execVsetvlType, vhead_bare _ hc hl hr]
    rfl

theorem exec_vsettypeImm (vt : VType) : exec (.vsettypeImm vt) s = .next (finish (withVType vt s)) := by
  show execVsettypeImm vt s = _
  rw [execVsettypeImm, vhead_bare _ hc hl (readable_nil s)]
  rfl

theorem exec_vsettype {a : SReg} {vt : VType} {k : Nat} (hr : Readable s [a]) (hk : k < 64)
    (hx : (s.rd a).toNat = vtypeCode vt + 16 * k) : exec (.vsettype a) s = .next (finish (withVType vt s)) := by
  have hlt : (s.rd a).toNat < 2 ^ 14 := by
    have ho := oobCode_lt vt.oob
    have hb := blenCode_lt vt.blen
    have hf := vtypeFmtCode_lt vt.fmt
    have hu : oobCode vt.oob ≠ 3 := by cases vt.oob <;> decide
    simp only [hx, vtypeCode]
    omega
  have hz : (s.rd a).toNat / 2 ^ 14 = 0 := Nat.div_eq_of_lt hlt
  have hvt : vtypeOf (s.rd a).toNat = some vt := by rw [hx, vtypeOf_code vt hk]
  show execVsettype a s = _
  simp only [execVsettype, notOnSteward_compute hc, valueIllegal_readable hr, hz, hvt, Option.isNone_some, ne_eq, not_true_eq_false,
    decide_false, Bool.or_self, trapIf_false, checked_none, checked_nil, vhead_bare _ hc hl hr, Option.getD_some]
  rfl

end

theorem exec_vsettype_refused {s : State} {a : SReg} (hc : s.me.onSteward = false) (hr : Readable s [a])
    (hx : ∀ (vt : VType) (k : Nat), k < 64 → (s.rd a).toNat ≠ vtypeCode vt + 16 * k) :
    exec (.vsettype a) s = .next (takeTrap (illegal 6) s) := by
  have hbad : (decide ((s.rd a).toNat / 2 ^ 14 ≠ 0) || (vtypeOf (s.rd a).toNat).isNone) = true := by
    rw [Bool.or_eq_true, decide_eq_true_eq, Option.isNone_iff_eq_none]
    by_contra hno
    obtain ⟨hz, hsome⟩ := not_or.mp hno
    obtain ⟨vt, hvt⟩ := Option.ne_none_iff_exists'.mp hsome
    obtain ⟨k, hk, heq⟩ := code_of_vtypeOf (by omega) hvt
    exact hx vt k hk heq
  show execVsettype a s = _
  simp only [execVsettype, notOnSteward_compute hc, valueIllegal_readable hr, hbad, trapIf_true, checked_none, checked_some]

/-- Settles O26: `vsetvl` is one grant and one interlocked result; VTYPE is the fields of a word, whatever its bits 9 to 4. -/
theorem vectorLength : Obligations.VectorLength := by
  unfold Obligations.VectorLength
  intro s hc hl
  refine ⟨fun i pad d a vt hi hr => ?vsetvl, fun i vt hi => ?vsettype, fun a hr hx hh =>
    ⟨_, exec_vsettype_refused hc hr hx, takes_takeTrap hh _⟩⟩
  case vsetvl =>
    obtain ⟨hvl, hvt, hst⟩ := finish_withGrant pad d a vt s
    have hrd := finish_wr_rd (s.modMe fun m => { m with vtype := vt, vl := grantVl s.me.vlmax (s.rd a).toNat pad vt }) d
      (word (grantVl s.me.vlmax (s.rd a).toNat pad vt))
    have hn := grantVl_eq s.me.vlmax (s.rd a).toNat pad vt
    refine ⟨_, exec_vsetvl hc hl hi hr, hvl.trans hn, hvt, hrd.trans (by rw [hn]; rfl), otherRegs_finish_withGrant pad d a vt s, ?pc, ?passed,
      rfl, onlyStack_finish_withGrant .., hst⟩
    case pc => exact nextPc_congr (Strand.wr_pc ..) (Strand.wr_line ..)
    case passed => exact passedHead_finish rfl (Strand.wr_ir ..)
  case vsettype =>
    have h := withVType_samePlace vt s
    obtain ⟨hvt, hvl, hst⟩ := finish_withVType vt s
    have hexec : exec i s = .next (finish (withVType vt s)) := by
      rcases hi with rfl | ⟨a, k, rfl, hr, hk, hx⟩
      · exact exec_vsettypeImm hc hl vt
      · exact exec_vsettype hc hl hr hk hx
    exact ⟨_, hexec, hvt, hvl, h.finish_pc, h.passed, h.onlyMe.finish, h.aged, onlyStack_finish_withVType .., hst⟩

end Sys2Proof.Machine
end

section
/-! SUPPORT. Lane-by-lane vector instructions (R162, R163, R170 to R172, R183, R184): O19. -/

namespace Sys2Proof.Machine
open Sys2Proof

/-! ### Elements of a register (R20, R21) -/

theorem boxKey_eq {v v' l l' : Nat} (h : l < 1024) (h' : l' < 1024) : v * 1024 + l = v' * 1024 + l' ↔ v = v' ∧ l = l' := by omega

/-- Written containers hold what is written, and every other one stays. -/
theorem putBoxes_box (v : Nat) (g : Nat → Nat) (lanes : List Nat) (hlanes : ∀ l ∈ lanes, l < 1024) (v' : Nat) {l' : Nat} (hl : l' < 1024) :
    ∀ m : Strand, (m.putBoxes v (lanes.map fun l => (l, g l))).box v' l' =
      if v' = v ∧ l' ∈ lanes then g l' % 2 ^ 32 else m.box v' l' := by
  induction lanes with
  | nil => intro m; simp [Strand.putBoxes]
  | cons l ls ih =>
    intro m
    have hl0 : l < 1024 := hlanes l (by simp)
    have hcons : m.putBoxes v ((l :: ls).map fun l => (l, g l)) = (m.putBoxes v [(l, g l)]).putBoxes v (ls.map fun l => (l, g l)) := rfl
    have hone : (m.putBoxes v [(l, g l)]).box v' l' = if v' = v ∧ l' = l then g l' % 2 ^ 32 else m.box v' l' := by
      show (tget 0 (tset 0 m.vregs (v * 1024 + l) (BitVec.ofNat 32 (g l))) (v' * 1024 + l')).toNat = _
      rw [tget_tset]
      simp only [boxKey_eq hl hl0]
      split
      · next h => rw [h.2, BitVec.toNat_ofNat]
      · rfl
    rw [hcons, ih (fun x hx => hlanes x (by simp [hx])), hone]
    by_cases hv : v' = v <;> by_cases hin : l' ∈ ls <;> simp [hv, hin]

theorem unpoison_clean {m : Strand} (h : m.vpois = []) (v : Nat) (lanes : List Nat) : m.unpoison v lanes = m := by
  rw [Strand.unpoison, if_pos h]

section
variable {m : Strand} (hp : m.vpois = []) (e : Ty) (d : Nat) (g : Nat → Nat) {lanes : List Nat} (hlanes : ∀ l ∈ lanes, l < 1024)
include hp

/-- Elements written to a register without an error are written containers. -/
theorem setElems_clean : m.setElems e d (lanes.map fun l => (l, g l)) =
    if isPair e then (m.putBoxes d (lanes.map fun l => (l, g l % 2 ^ tyBits e))).putBoxes (d + 1)
      (lanes.map fun l => (l, g l % 2 ^ tyBits e / 2 ^ 32))
    else m.putBoxes d (lanes.map fun l => (l, g l % 2 ^ tyBits e)) := by
  have hclean (xs ys : List (Nat × Nat)) : ((m.putBoxes d xs).putBoxes (d + 1) ys).vpois = [] := hp
  have hclean1 (xs : List (Nat × Nat)) : (m.putBoxes d xs).vpois = [] := hp
  simp only [Strand.setElems, Strand.put, List.map_map, Function.comp_def, unpoison_clean (hclean _ _), unpoison_clean (hclean1 _)]

/-- Only containers differ. -/
theorem setElems_frame : ∃ vr, m.setElems e d (lanes.map fun l => (l, g l)) = { m with vregs := vr } := by
  rw [setElems_clean hp]
  split <;> exact ⟨_, rfl⟩

include hlanes

/-- Each listed lane has its element. -/
theorem setElems_boxes {l : Nat} (hl : l ∈ lanes) :
    (m.setElems e d (lanes.map fun l => (l, g l))).boxes e d l = g l % 2 ^ tyBits e := by
  have hlt := hlanes l hl
  rw [setElems_clean hp, Strand.boxes]
  by_cases hpair : isPair e = true
  · have hbits : tyBits e = 64 := by simpa [isPair] using hpair
    have hd : d ≠ d + 1 := by omega
    simp only [hpair, if_true, putBoxes_box _ _ _ hlanes _ hlt, hd, false_and, if_false, true_and, hl, hbits]
    omega
  · have hsmall : tyBits e ≤ 32 := by cases e <;> first | exact absurd rfl hpair | decide
    have hpow : 2 ^ tyBits e ≤ 2 ^ 32 := Nat.pow_le_pow_right (by decide) hsmall
    have hmod : g l % 2 ^ tyBits e < 2 ^ 32 := Nat.lt_of_lt_of_le (Nat.mod_lt _ (Nat.two_pow_pos _)) hpow
    rw [if_neg hpair, if_neg hpair, putBoxes_box _ _ _ hlanes _ hlt, if_pos ⟨rfl, hl⟩, Nat.mod_eq_of_lt hmod]

/-- Every container but those of the listed lanes of the register stays. -/
theorem setElems_box_other {v l : Nat} (hl : l < 1024) (h : ¬ (v ∈ regsOf e d ∧ l ∈ lanes)) :
    (m.setElems e d (lanes.map fun l => (l, g l))).box v l = m.box v l := by
  rw [setElems_clean hp]
  by_cases hpair : isPair e = true
  · simp only [regsOf, hpair, if_true, List.mem_cons, List.not_mem_nil, or_false] at h
    rw [if_pos hpair, putBoxes_box _ _ _ hlanes _ hl, if_neg (by tauto), putBoxes_box _ _ _ hlanes _ hl, if_neg (by tauto)]
  · simp only [regsOf, hpair, Bool.false_eq_true, if_false, List.mem_cons, List.not_mem_nil, or_false] at h
    rw [if_neg hpair, putBoxes_box _ _ _ hlanes _ hl, if_neg h]

end

/-! ### Results of every lane -/

/-- The state in which the lanes of `d` have the results `f`, and FFLAGS their flags. -/
def withLanes (e : Ty) (d : Nat) (f : Nat → FRes) (lanes : List Nat) (s : State) : State :=
  s.modMe fun m => { m.setElems e d (lanes.map fun l => (l, (f l).bits)) with fflags := m.fflags.or (orFlags (lanes.map f)) }

theorem setElems_fflags (m : Strand) (e : Ty) (d : Nat) (xs : List (Nat × Nat)) : (m.setElems e d xs).fflags = m.fflags := by
  have hun (m : Strand) (v : Nat) (ls : List Nat) : (m.unpoison v ls).fflags = m.fflags := by
    unfold Strand.unpoison
    split <;> rfl
  unfold Strand.setElems Strand.put
  dsimp only
  split
  · rw [hun, hun]; rfl
  · rw [hun]; rfl

theorem writeLanes_eq (e : Ty) (d : Nat) (F : Strand → Nat → FRes) (lanes : List Nat) (s : State) :
    writeLanes e d F lanes s = withLanes e d (F s.me) lanes s := by
  have hzip : lanes.zip ((lanes.map (F s.me)).map (·.bits)) = lanes.map fun l => (l, (F s.me l).bits) := by
    rw [List.map_map]
    exact List.map_prod_left_eq_zip.symm
  simp only [writeLanes, addFlags, hzip, withLanes, State.modMe, setElems_fflags]

theorem fflags_or_empty (f : FFlags) : f.or {} = f := by simp [FFlags.or]

theorem orFlags_of_none (lanes : List Nat) (g : Nat → Nat) : orFlags (lanes.map fun l => ({ bits := g l } : FRes)) = {} := by
  unfold orFlags
  induction lanes with
  | nil => rfl
  | cons l ls ih => exact ih

/-- Lanes that raise no flag are elements alone. -/
theorem withLanes_of_none (e : Ty) (d : Nat) (g : Nat → Nat) (lanes : List Nat) (s : State) :
    withLanes e d (fun l => { bits := g l }) lanes s = s.modMe fun m => m.setElems e d (lanes.map fun l => (l, g l)) := by
  simp only [withLanes, orFlags_of_none, fflags_or_empty, State.modMe, ← setElems_fflags s.me e d (lanes.map fun l => (l, g l))]

theorem lanesOf_lt (m : Strand) (k : Mask) : ∀ l ∈ m.lanesOf k, l < 1024 := by
  intro l hl
  have hbit : (k &&& ~~~m.deadmask).getLsbD l = true := (List.mem_filter.mp hl).2
  exact BitVec.lt_of_getLsbD hbit

/-- What a completed instruction with the lane results `f` leaves. -/
theorem vdone_withLanes_passed {s : State} (hp : s.me.vpois = []) (e : Ty) (d : Nat) (f : Nat → FRes) {lanes : List Nat}
    (hv : s.me.vop = none) : VecDone s (vdone (withLanes e d f lanes s)) ∧ AgedRegs s (vdone (withLanes e d f lanes s))
    ∧ (vdone (withLanes e d f lanes s)).me.fflags = s.me.fflags.or (orFlags (lanes.map f))
    ∧ (vdone (withLanes e d f lanes s)).me.vregs = (s.me.setElems e d (lanes.map fun l => (l, (f l).bits))).vregs := by
  obtain ⟨vr, hvr⟩ := setElems_frame hp e d (fun l => (f l).bits) (lanes := lanes)
  have hw : withLanes e d f lanes s = { s with me := { s.me with vregs := vr, fflags := s.me.fflags.or (orFlags (lanes.map f)) } } := by
    simp only [withLanes, State.modMe, hvr]
  rw [vdone_of_front (by rw [hw]; exact hv), hw, hvr]
  obtain ⟨rs, ps, ha⟩ := Strand.age_frame { s.me with
    vregs := vr, fflags := s.me.fflags.or (orFlags (lanes.map f)), vstart := 0 } (1 + s.me.ir.sc)
  have hs : SamePlace s (State.modMe { s with me := { s.me with vregs := vr, fflags := s.me.fflags.or (orFlags (lanes.map f)) } }
      fun m => { m with vstart := 0 }) := ⟨rfl, rfl, rfl, rfl, rfl, rfl⟩
  refine ⟨⟨⟨hs.finish_pc, hs.passed, ?only, hs.onlyMe.finish, hs.onlyMe.finish.home⟩, ?vl, ?masks⟩, hs.aged, ?flags, ?vregs⟩
  case only => simp only [OnlyVectors, finish_me, State.modMe_me, ha]
  case vl => simp only [finish_me, State.modMe_me, ha]
  case masks => simp only [finish_me, State.modMe_me, ha]
  case flags => simp only [finish_me, State.modMe_me, ha]
  case vregs => simp only [finish_me, State.modMe_me, ha]

end Sys2Proof.Machine
end

section
/-! SUPPORT. The exact results of lane-by-lane instructions (R54, R170 to R172) and their heads: O19. -/

namespace Sys2Proof.Machine
open Sys2Proof

/-! ### Integers (R53, R54, R170) -/

theorem intOf_of_isInt {e : Ty} (h : isInt e = true) : intOf e = ⟨tyBits e, !Spec.isUnsigned e⟩ := by
  cases e <;> first | rfl | exact absurd h (by decide)

theorem tyBits_pos (e : Ty) : 0 < tyBits e := by cases e <;> decide

theorem wrap_eq_low {e : Ty} (h : isInt e = true) (x : Int) : (intOf e).wrap x = Spec.low e x := by
  rw [intOf_of_isInt h]; rfl

theorem clamp_eq_clamped {e : Ty} (h : isInt e = true) (x : Int) : (intOf e).clamp x = Spec.clamped e x := by
  rw [intOf_of_isInt h, IntTy.clamp, IntTy.lo, IntTy.hi, Spec.clamped]
  cases Spec.isUnsigned e <;> rfl

theorem read_signed (w x : Nat) (hx : x < 2 ^ w) :
    (IntTy.mk w true).read x = if x < 2 ^ (w - 1) then (x : Int) else x - 2 ^ w := by
  simp only [IntTy.read, Nat.mod_eq_of_lt hx, Bool.true_and, decide_eq_true_eq]
  by_cases h : x < 2 ^ (w - 1)
  · rw [if_neg (by omega), if_pos h]
  · rw [if_pos (by omega), if_neg h]

theorem read_eq_toNum {e : Ty} (h : isInt e = true) {x : Nat} (hx : x < 2 ^ tyBits e) : (intOf e).read x = Spec.toNum e x := by
  rw [intOf_of_isInt h, Spec.toNum]
  cases hu : Spec.isUnsigned e with
  | true => simp [IntTy.read, Nat.mod_eq_of_lt hx]
  | false => simpa using read_signed (tyBits e) x hx

/-- An element's code is the low bits of its number. -/
theorem low_toNum (e : Ty) {x : Nat} (hx : x < 2 ^ tyBits e) : Spec.low e (Spec.toNum e x) = x := by
  have hpow : ((2 : Int) ^ tyBits e) = ((2 ^ tyBits e : Nat) : Int) := by push_cast; rfl
  unfold Spec.low Spec.toNum
  rw [hpow]
  split
  · rw [← Int.natCast_mod, Nat.mod_eq_of_lt hx, Int.toNat_natCast]
  · rw [Int.sub_emod_right, ← Int.natCast_mod, Nat.mod_eq_of_lt hx, Int.toNat_natCast]

/-- The model's integer operation `op` answers, at every integer type, the low bits that `f` states. -/
def LaneOp (op : IOp) (f : Ty → Nat → Nat → Nat) : Prop :=
  ∀ e, isInt e = true → ∀ x y, x < 2 ^ tyBits e → y < 2 ^ tyBits e → intLane op (intOf e) x y = f e x y

theorem width_intOf {e : Ty} (h : isInt e = true) : (intOf e).w = tyBits e := by rw [intOf_of_isInt h]

theorem laneOp_add (sat : Bool) : LaneOp (.add sat) (Spec.vAdd sat) := by
  intro e he x y hx hy
  simp only [intLane, read_eq_toNum he hx, read_eq_toNum he hy, wrap_eq_low he, clampIf, clamp_eq_clamped he, Spec.vAdd, Spec.saturated]

theorem laneOp_sub (sat : Bool) : LaneOp (.sub sat) (Spec.vSub sat) := by
  intro e he x y hx hy
  simp only [intLane, read_eq_toNum he hx, read_eq_toNum he hy, wrap_eq_low he, clampIf, clamp_eq_clamped he, Spec.vSub, Spec.saturated]

theorem laneOp_mul : LaneOp .mul Spec.vMul := by
  intro e he x y hx hy
  simp only [intLane, read_eq_toNum he hx, read_eq_toNum he hy, wrap_eq_low he, Spec.vMul]

theorem laneOp_mulh : LaneOp .mulh Spec.vMulh := by
  intro e he x y hx hy
  simp only [intLane, read_eq_toNum he hx, read_eq_toNum he hy, wrap_eq_low he, width_intOf he, Spec.vMulh]

theorem laneOp_min : LaneOp .min Spec.vMin := by
  intro e he x y hx hy
  simp only [intLane, read_eq_toNum he hx, read_eq_toNum he hy, wrap_eq_low he, Spec.vMin]
  by_cases h : Spec.toNum e y < Spec.toNum e x
  · rw [if_pos h, if_neg (by omega), low_toNum e hy]
  · rw [if_neg h, if_pos (by omega), low_toNum e hx]

theorem laneOp_max : LaneOp .max Spec.vMax := by
  intro e he x y hx hy
  simp only [intLane, read_eq_toNum he hx, read_eq_toNum he hy, wrap_eq_low he, Spec.vMax]
  rcases Int.lt_trichotomy (Spec.toNum e x) (Spec.toNum e y) with h | h | h
  · rw [if_pos h, if_pos (by omega), low_toNum e hy]
  · rw [if_neg (by omega), if_pos (by omega), h, low_toNum e hy]
  · rw [if_neg (by omega), if_neg (by omega), low_toNum e hx]

theorem laneOp_sra : LaneOp .sra Spec.vSra := by
  intro e he x y hx _
  simp only [intLane, width_intOf he, wrap_eq_low he, read_signed _ x hx, Spec.vSra]

theorem laneOp_and : LaneOp .and fun _ => Nat.land := fun _ _ _ _ _ _ => rfl
theorem laneOp_or : LaneOp .or fun _ => Nat.lor := fun _ _ _ _ _ _ => rfl
theorem laneOp_xor : LaneOp .xor fun _ => Nat.xor := fun _ _ _ _ _ _ => rfl

theorem laneOp_shl : LaneOp .shl fun e x k => x * 2 ^ (k % tyBits e) := by
  intro e he x y _ _
  simp only [intLane, width_intOf he]

theorem laneOp_shr : LaneOp .shr fun e x k => x / 2 ^ (k % tyBits e) := by
  intro e he x y _ _
  simp only [intLane, width_intOf he]

/-! ### The second operand (R162) -/

/-- The source that an operand of the statements names. -/
def srcOf : Spec.Second → YSrc
  | .reg v => .vec v
  | .con x => .val x

theorem yOf_eq_srcOf (s : State) (y : VSrc) : s.yOf y = srcOf (Spec.second s y) := by cases y <;> rfl

theorem vsrcScal_eq (y : VSrc) : vsrcScal y = Spec.scalarNames y := by cases y <;> rfl

theorem srcOf_get (s : State) (e : Ty) (l : Nat) (z : Spec.Second) : (srcOf z).get s.me e l = Spec.secondAt s e l z := by cases z <;> rfl

theorem secondAt_lt (s : State) (e : Ty) (l : Nat) (z : Spec.Second) : Spec.secondAt s e l z < 2 ^ tyBits e := by
  cases z <;> exact Nat.mod_lt _ (Nat.two_pow_pos _)

theorem elem_lt (m : Strand) (e : Ty) (v l : Nat) : m.elem e v l < 2 ^ tyBits e := Nat.mod_lt _ (Nat.two_pow_pos _)

theorem immY_int {t : Ty} (h : isInt t = true) (x : Imm) : immY t x = srcOf (Spec.intImm x) := by
  rw [immY, if_pos h]
  rfl

theorem immY_code {t : Ty} (h : isInt t = false) (x : Imm) : immY t x = srcOf (Spec.codeImm x) := by
  rw [immY, h, if_neg Bool.false_ne_true]
  rfl

/-! ### Heads -/

/-- What O19 asks of a state in which the instruction that `x` states acts. -/
structure LanesReady (s : State) (x : Spec.VecSpec) : Prop where
  vec : VecReady s
  scalars : Readable s x.reads
  type : s.me.badTy x.ty x.accepts = false
  imm : x.immOk (s.me.elemTy x.ty) = true
  held : Held s (s.me.elemTy x.ty) (x.dst :: x.names)

/-- The instruction has completed with the lane results that `x` states. -/
def LanesAnswered (s : State) (x : Spec.VecSpec) (t : State) : Prop :=
  let e := s.me.elemTy x.ty
  ∃ f, t = vdone (withLanes e x.dst f (s.me.lanes x.mask) s) ∧ ∀ l, f l = x.result e l

theorem badTy_eq_false {m : Strand} {t : Ty} {ok : Ty → Bool} (h : m.badTy t ok = false) :
    (t = .dflt ∨ sameFmt t m.vtype.fmt = true) ∧ ok (m.elemTy t) = true := by
  simpa [Strand.badTy, or_iff_not_imp_left] using h

theorem badTy_of_accepts {m : Strand} {t : Ty} {ok ok' : Ty → Bool} (h : m.badTy t ok = false)
    (himp : ok (m.elemTy t) = true → ok' (m.elemTy t) = true) : m.badTy t ok' = false := by
  obtain ⟨hfmt, hok⟩ := badTy_eq_false h
  rcases hfmt with hd | hs
  · simp [Strand.badTy, hd] at himp ⊢; exact himp (by simpa [hd] using hok)
  · simp [Strand.badTy, hs, himp hok]

theorem held_regs {s : State} {e : Ty} {vs : List VReg} (h : Held s e vs) {v : VReg} (hv : v ∈ vs) :
    ∀ r ∈ regsOf e v.val, r < s.me.vheld := by
  obtain ⟨-, hlt⟩ := h v hv
  intro r hr
  cases hp : isPair e <;> simp [regsOf, hp] at hr hlt <;> omega

theorem held_even {s : State} {e : Ty} {vs : List VReg} (h : Held s e vs) {us : List VReg} (hu : ∀ v ∈ us, v ∈ vs) :
    oddPair e us = false := by
  cases hp : isPair e with
  | false => simp [oddPair, hp]
  | true =>
    simp only [oddPair, hp, Bool.true_and, List.any_eq_false, decide_eq_true_eq]
    intro v hv
    have := (h v (hu v hv)).1 hp
    omega

theorem vpoison_clean {s : State} (h : s.me.vpois = []) (rds : List Rd) : vpoison s rds = none := by rw [vpoison, if_pos h]

/-- A vector instruction on an empty queue acts at once, on all its lanes. -/
theorem sweep_at_once {s : State} (h : VecReady s) (i : Instr) (chunk : Nat) (lanes : List Nat) (rds : List Rd)
    (body : List Nat → State → State) : sweep i chunk lanes rds body s = vdone (body lanes s) := by
  obtain ⟨-, -, hp, hd, hq, hv⟩ := h
  simp only [sweep, queued, queues, hd, hq, hv, ne_eq, not_true_eq_false, decide_false, Bool.or_self, Bool.and_false,
    Bool.false_eq_true, if_false, vpoison_clean hp]

/-- A lane-by-lane head of which every register is held runs its body on the active lanes. -/
theorem lanewise_go {s : State} {x : Spec.VecSpec} (h : LanesReady s x) {ok bad : Ty → Bool} {srcs : List VReg} {z : Spec.Second}
    (i : Instr) (body : Ty → List Nat → State → State) (hnames : ∀ v ∈ srcs ++ Spec.secondNames z, v ∈ x.dst :: x.names)
    (hok : ∀ e, x.accepts e = true → ok e = true) (hbad : bad (s.me.elemTy x.ty) = false) :
    lanewise i ok x.ty bad x.reads srcs (srcOf z) x.dst x.mask body s =
      vdone (body (s.me.elemTy x.ty) (s.me.lanes x.mask) s) := by
  have hty : s.me.badTy x.ty ok = false := badTy_of_accepts h.type (hok _)
  have hdst : oddPair (s.me.elemTy x.ty) (x.dst :: srcs) = false :=
    held_even h.held fun v hv => (List.mem_cons.mp hv).elim (fun e => e ▸ by simp) fun hs => hnames v (by simp [hs])
  have hsrcs : ∀ r ∈ srcs.flatMap fun v => regsOf (s.me.elemTy x.ty) v.val, r < s.me.vheld := by
    intro r hr
    obtain ⟨v, hv, hrv⟩ := List.mem_flatMap.mp hr
    exact held_regs h.held (hnames v (by simp [hv])) r hrv
  have hd := held_regs h.held (List.mem_cons_self (a := x.dst) (l := x.names))
  unfold lanewise
  cases z with
  | con c =>
    simp only [srcOf, hty, hdst, hbad, Bool.or_self]
    rw [vhead_go _ h.vec.1 h.vec.2.1 h.scalars, sweep_at_once h.vec]
    intro r hr
    rcases List.mem_append.mp hr with hr | hr
    · exact hsrcs r (by simpa using hr)
    · exact hd r hr
  | reg v =>
    have hv : v ∈ x.dst :: x.names := hnames v (by simp [Spec.secondNames])
    have heven : (isPair (s.me.elemTy x.ty) && decide (v.val % 2 = 1)) = false := by
      simpa [oddPair] using held_even h.held (us := [v]) (by simpa using hv)
    simp only [srcOf, hty, hdst, hbad, heven, Bool.or_self]
    rw [vhead_go _ h.vec.1 h.vec.2.1 h.scalars, sweep_at_once h.vec]
    intro r hr
    rcases List.mem_append.mp hr with hr | hr
    · rcases List.mem_append.mp hr with hr | hr
      · exact held_regs h.held hv r hr
      · exact hsrcs r hr
    · exact hd r hr

/-- A head that writes the result of each lane answers what `x` states, where its lane function does. -/
theorem lanewise_answers {s : State} {x : Spec.VecSpec} (h : LanesReady s x) {ok bad : Ty → Bool} {srcs : List VReg} {z : Spec.Second}
    (i : Instr) (F : Ty → Strand → Nat → FRes) (hnames : ∀ v ∈ srcs ++ Spec.secondNames z, v ∈ x.dst :: x.names)
    (hok : ∀ e, x.accepts e = true → ok e = true) (hbad : bad (s.me.elemTy x.ty) = false)
    (hF : ∀ l, F (s.me.elemTy x.ty) s.me l = x.result (s.me.elemTy x.ty) l) :
    LanesAnswered s x (lanewise i ok x.ty bad x.reads srcs (srcOf z) x.dst x.mask (fun e => writeLanes e x.dst (F e)) s) := by
  refine ⟨F (s.me.elemTy x.ty) s.me, ?_, hF⟩
  rw [lanewise_go h i _ hnames hok hbad, writeLanes_eq]

/-! ### The families (R170 to R172, R183) -/

section
variable {s : State} {i : Instr} {t : Ty} {rm : Rmo} {d a : VReg} {m : MReg}

theorem intVec_answers {op : IOp} {f : Ty → Nat → Nat → Nat} (hop : LaneOp op f) {rs : List SReg} {z : Spec.Second}
    (h : LanesReady s (Spec.ints s t d a z rs m f)) :
    LanesAnswered s (Spec.ints s t d a z rs m f) (intVec i op t rs (srcOf z) d a m s) := by
  have hint : isInt (s.me.elemTy t) = true := (badTy_eq_false h.type).2
  refine lanewise_answers h i (fun e st l => { bits := intLane op (intOf e) (st.elem e a l) ((srcOf z).get st e l) })
    (srcs := [a]) (z := z) (fun v hv => List.mem_cons_of_mem _ hv) (fun _ he => he) rfl fun l => ?_
  simp only [Spec.ints, srcOf_get]
  rw [hop _ hint _ _ (elem_lt ..) (secondAt_lt ..)]

theorem intY_answers {op : IOp} {f : Ty → Nat → Nat → Nat} (hop : LaneOp op f) {y : VSrc}
    (h : LanesReady s (Spec.ints s t d a (Spec.second s y) (Spec.scalarNames y) m f)) :
    ∃ u, intY i op t d a y m s = .next u ∧ LanesAnswered s (Spec.ints s t d a (Spec.second s y) (Spec.scalarNames y) m f) u := by
  refine ⟨_, rfl, ?_⟩
  rw [yOf_eq_srcOf, vsrcScal_eq]
  exact intVec_answers hop h

theorem intI_answers {op : IOp} {f : Ty → Nat → Nat → Nat} (hop : LaneOp op f) {x : Imm}
    (h : LanesReady s (Spec.ints s t d a (Spec.intImm x) [] m f)) :
    ∃ u, intI i op t d a x m s = .next u ∧ LanesAnswered s (Spec.ints s t d a (Spec.intImm x) [] m f) u := by
  refine ⟨_, rfl, ?_⟩
  rw [immY_int rfl]
  exact intVec_answers hop h

/-- The model's floating operation answers `f` of the decoded operands. -/
def FloatOp (s : State) (F : Strand → FForm → Nat → Nat → Nat → FRes) (f : FForm → FVal → FVal → FVal → FRes) : Prop :=
  ∀ g x y z, F s.me g x y z = f g (g.decode x) (g.decode y) (g.decode z)

theorem addend_names {z : Spec.Second} (addend : Bool) : ∀ v ∈ (if addend then [a, d] else [a]) ++ Spec.secondNames z,
    v ∈ d :: ((a :: Spec.secondNames z) ++ if addend then [d] else []) := by
  cases addend <;> simp <;> tauto

theorem floatVec_answers {F : Strand → FForm → Nat → Nat → Nat → FRes} {f : FForm → FVal → FVal → FVal → FRes} (hF : FloatOp s F f)
    {rs : List SReg} {z : Spec.Second} {addend : Bool} {immOk bad : Ty → Bool}
    (hbad : ∀ e, isFloat e = true → immOk e = true → bad e = false)
    (h : LanesReady s (Spec.floats s t d a z rs m addend immOk f)) :
    LanesAnswered s (Spec.floats s t d a z rs m addend immOk f) (floatVec i t rs (srcOf z) bad F d a m addend s) := by
  obtain ⟨-, hfloat⟩ := badTy_eq_false h.type
  refine lanewise_answers h i
    (fun e st l => F st (floatOf e) (st.elem e a l) ((srcOf z).get st e l) (st.elem e d l))
    (z := z) (addend_names addend) (fun _ he => he) (hbad _ hfloat h.imm) fun l => ?_
  simp only [Spec.floats, srcOf_get]
  exact hF ..

/-- R162: an immediate that fits the type is not refused. -/
theorem badImm_of_fits {x : Imm} {e : Ty} (he : isFloat e = true) (h : Spec.fits x e = true) : badImm e x = false := by
  simp only [Spec.fits, Bool.or_eq_true, decide_eq_true_eq] at h
  cases e <;> first | exact absurd he (by decide) | simp_all [badImm]

theorem floatY_answers {op : FOp} {f : FForm → FVal → FVal → FVal → FRes} (hop : FloatOp s (floatLane op rm) f) {y : VSrc}
    (h : LanesReady s (Spec.floats s t d a (Spec.second s y) (Spec.scalarNames y) m op.readsD (fun _ => true) f)) :
    ∃ u, floatY i op t rm d a y m s = .next u
      ∧ LanesAnswered s (Spec.floats s t d a (Spec.second s y) (Spec.scalarNames y) m op.readsD (fun _ => true) f) u := by
  refine ⟨_, rfl, ?_⟩
  rw [yOf_eq_srcOf, vsrcScal_eq]
  exact floatVec_answers hop (fun _ _ _ => rfl) h

theorem floatI_answers {op : FOp} {f : FForm → FVal → FVal → FVal → FRes} (hop : FloatOp s (floatLane op rm) f) {x : Imm}
    (h : LanesReady s (Spec.floats s t d a (Spec.codeImm x) [] m op.readsD (Spec.fits x) f)) :
    ∃ u, floatI i op t rm d a x m s = .next u
      ∧ LanesAnswered s (Spec.floats s t d a (Spec.codeImm x) [] m op.readsD (Spec.fits x) f) u :=
  ⟨_, rfl, floatVec_answers hop (fun _ => badImm_of_fits) h⟩

theorem unary_answers {op : FForm → RM → FVal → FRes}
    (h : LanesReady s (Spec.floats s t d a (.con 0) [] m false (fun _ => true) fun g x _ _ => op g (s.me.mode rm) x)) :
    ∃ u, unary i op t rm d a m s = .next u
      ∧ LanesAnswered s (Spec.floats s t d a (.con 0) [] m false (fun _ => true) fun g x _ _ => op g (s.me.mode rm) x) u :=
  ⟨_, rfl, floatVec_answers (z := .con 0) (fun _ _ _ _ => rfl) (fun _ _ _ => rfl) h⟩

/-- Minimum and maximum see the codes (R64). -/
theorem picks_answers {big : Bool} {op : FOp} (hop : ∀ g x y z, floatLane op rm s.me g x y z = g.minMax big x y)
    (hd : op.readsD = false) {rs : List SReg} {z : Spec.Second} {immOk bad : Ty → Bool}
    (hbad : ∀ e, isFloat e = true → immOk e = true → bad e = false) (h : LanesReady s (Spec.picks s t d a z rs m immOk big)) :
    LanesAnswered s (Spec.picks s t d a z rs m immOk big) (floatVec i t rs (srcOf z) bad (floatLane op rm) d a m op.readsD s) := by
  obtain ⟨-, hfloat⟩ := badTy_eq_false h.type
  rw [hd]
  refine lanewise_answers h i
    (fun e st l => floatLane op rm st (floatOf e) (st.elem e a l) ((srcOf z).get st e l) (st.elem e d l))
    (z := z) (addend_names false) (fun _ he => he) (hbad _ hfloat h.imm) fun l => ?_
  simp only [Spec.picks, srcOf_get, hop]

theorem picksY_answers {big : Bool} {op : FOp} (hop : ∀ g x y z, floatLane op rm s.me g x y z = g.minMax big x y)
    (hd : op.readsD = false) {y : VSrc}
    (h : LanesReady s (Spec.picks s t d a (Spec.second s y) (Spec.scalarNames y) m (fun _ => true) big)) :
    ∃ u, floatY i op t rm d a y m s = .next u
      ∧ LanesAnswered s (Spec.picks s t d a (Spec.second s y) (Spec.scalarNames y) m (fun _ => true) big) u := by
  refine ⟨_, rfl, ?_⟩
  rw [yOf_eq_srcOf, vsrcScal_eq]
  exact picks_answers hop hd (fun _ _ _ => rfl) h

theorem picksI_answers {big : Bool} {op : FOp} (hop : ∀ g x y z, floatLane op rm s.me g x y z = g.minMax big x y)
    (hd : op.readsD = false) {x : Imm} (h : LanesReady s (Spec.picks s t d a (Spec.codeImm x) [] m (Spec.fits x) big)) :
    ∃ u, floatI i op t rm d a x m s = .next u ∧ LanesAnswered s (Spec.picks s t d a (Spec.codeImm x) [] m (Spec.fits x) big) u :=
  ⟨_, rfl, picks_answers hop hd (fun _ => badImm_of_fits) h⟩

/-- A move of an element type other than LNS6 writes the second operand to each lane (R183). -/
theorem movVec_answers {x : Spec.VecSpec} (h : LanesReady s x) {z : Spec.Second} {bad : Ty → Bool}
    (hacc : ∀ e, x.accepts e = true → e ≠ .lns6) (hnames : ∀ v ∈ Spec.secondNames z, v ∈ x.dst :: x.names)
    (hbad : bad (s.me.elemTy x.ty) = false)
    (hres : ∀ l, x.result (s.me.elemTy x.ty) l = { bits := Spec.secondAt s (s.me.elemTy x.ty) l z }) :
    LanesAnswered s x (movVec i x.ty x.reads (srcOf z) bad x.dst x.mask s) := by
  obtain ⟨-, hne⟩ := badTy_eq_false h.type
  refine ⟨fun l => { bits := Spec.secondAt s (s.me.elemTy x.ty) l z }, ?_, fun l => (hres l).symm⟩
  rw [movVec, lanewise_go h (ok := anyTy) i _ (by simpa using hnames) (fun _ _ => rfl) hbad, withLanes_of_none]
  simp only [putY, if_neg (hacc _ hne), State.modMe, srcOf_get]

end

theorem elemTy_ne_dflt (m : Strand) (t : Ty) : m.elemTy t ≠ .dflt := by
  unfold Strand.elemTy
  split
  · cases m.vtype.fmt <;> decide
  · assumption

/-- R162, R474: an immediate that is sign-extended, or fits its floating type, is not refused. -/
theorem badImm_of_move {x : Imm} {e : Ty} (hd : e ≠ .dflt) (hl : e ≠ .lns6) (h : (isInt e || Spec.fits x e) = true) :
    badImm e x = false := by
  cases hi : isInt e with
  | true => cases e <;> first | rfl | exact absurd hi (by decide)
  | false =>
    have hf : isFloat e = true := by cases e <;> first | rfl | exact absurd hi (by decide) | contradiction
    exact badImm_of_fits hf (by simpa [hi] using h)

theorem immY_eq_srcOf (e : Ty) (x : Imm) : immY e x = srcOf (if isInt e then Spec.intImm x else Spec.codeImm x) := by
  cases h : isInt e with
  | true => exact immY_int h x
  | false => exact immY_code h x

/-- Every lane-by-lane instruction answers what is stated for it. -/
theorem exec_vec {i : Instr} {s : State} {x : Spec.VecSpec} (hx : Spec.vec i s = some x) (h : LanesReady s x) :
    ∃ u, exec i s = .next u ∧ LanesAnswered s x u := by
  unfold Spec.vec at hx
  split at hx
  all_goals cases hx
  next t sat d a y m => exact intY_answers (laneOp_add sat) h
  next t sat d a x m => exact intI_answers (laneOp_add sat) h
  next t sat d a y m => exact intY_answers (laneOp_sub sat) h
  next t sat d a x m => exact intI_answers (laneOp_sub sat) h
  next t d a y m => exact intY_answers laneOp_mul h
  next t d a x m => exact intI_answers laneOp_mul h
  next t d a y m => exact intY_answers laneOp_mulh h
  next t d a x m => exact intI_answers laneOp_mulh h
  next t d a y m => exact intY_answers laneOp_min h
  next t d a x m => exact intI_answers laneOp_min h
  next t d a y m => exact intY_answers laneOp_max h
  next t d a x m => exact intI_answers laneOp_max h
  next t d a y m => exact intY_answers laneOp_and h
  next t d a x m => exact intI_answers laneOp_and h
  next t d a y m => exact intY_answers laneOp_or h
  next t d a x m => exact intI_answers laneOp_or h
  next t d a y m => exact intY_answers laneOp_xor h
  next t d a x m => exact intI_answers laneOp_xor h
  next t d a y m => exact intY_answers laneOp_shl h
  next t d a x m => exact intI_answers laneOp_shl h
  next t d a y m => exact intY_answers laneOp_shr h
  next t d a x m => exact intI_answers laneOp_shr h
  next t d a y m => exact intY_answers laneOp_sra h
  next t d a x m => exact intI_answers laneOp_sra h
  next => exact floatY_answers (fun _ _ _ _ => rfl) h
  next => exact floatI_answers (fun _ _ _ _ => rfl) h
  next => exact floatY_answers (fun _ _ _ _ => rfl) h
  next => exact floatI_answers (fun _ _ _ _ => rfl) h
  next => exact floatY_answers (fun _ _ _ _ => rfl) h
  next => exact floatI_answers (fun _ _ _ _ => rfl) h
  next => exact floatY_answers (fun _ _ _ _ => rfl) h
  next => exact floatI_answers (fun _ _ _ _ => rfl) h
  next => exact picksY_answers (fun _ _ _ _ => rfl) rfl h
  next => exact picksI_answers (fun _ _ _ _ => rfl) rfl h
  next => exact picksY_answers (fun _ _ _ _ => rfl) rfl h
  next => exact picksI_answers (fun _ _ _ _ => rfl) rfl h
  next => exact floatY_answers (fun _ _ _ _ => rfl) h
  next => exact floatI_answers (fun _ _ _ _ => rfl) h
  next => exact unary_answers h
  next => exact unary_answers h
  next => exact unary_answers h
  next => exact unary_answers h
  next t d m =>
    exact ⟨_, rfl, lanewise_answers h (.vid t d m) (fun _ _ l => { bits := l }) (srcs := []) (z := .con 0) (by simp [Spec.secondNames])
      (fun _ he => he) rfl fun _ => rfl⟩
  next t d y m =>
    refine ⟨_, rfl, ?_⟩
    rw [yOf_eq_srcOf, vsrcScal_eq]
    exact movVec_answers h (by simp) (fun v hv => List.mem_cons_of_mem _ hv) rfl fun _ => rfl
  next t d x m =>
    have hl : s.me.elemTy t ≠ .lns6 := of_decide_eq_true (badTy_eq_false h.type).2
    refine ⟨_, rfl, ?_⟩
    rw [immY_eq_srcOf]
    refine movVec_answers h (by simp) (fun v hv => ?_) (badImm_of_move (elemTy_ne_dflt s.me t) hl h.imm) fun _ => rfl
    cases hi : isInt (s.me.elemTy t) <;> simp [hi, Spec.secondNames, Spec.intImm, Spec.codeImm] at hv

/-- Settles O19: the instruction is one write of its lanes' results, whose containers, flags and frame are those of `withLanes`. -/
theorem laneResult : Obligations.LaneResult := by
  unfold Obligations.LaneResult
  intro i s x hx hready hread hty himm hheld
  obtain ⟨t, hexec, f, rfl, hf⟩ := exec_vec hx ⟨hready, hread, hty, himm, hheld⟩
  obtain ⟨-, -, hp, -, -, hv⟩ := hready
  have hlanes : ∀ l ∈ s.me.lanes x.mask, l < 1024 := lanesOf_lt s.me _
  obtain ⟨hdone, haged, hflags, hregs⟩ := vdone_withLanes_passed hp (s.me.elemTy x.ty) x.dst f (lanes := s.me.lanes x.mask) hv
  have hbox (v l : Nat) : (vdone (withLanes (s.me.elemTy x.ty) x.dst f (s.me.lanes x.mask) s)).me.box v l =
      (s.me.setElems (s.me.elemTy x.ty) x.dst ((s.me.lanes x.mask).map fun l => (l, (f l).bits))).box v l := by
    rw [Strand.box, Strand.box, hregs]
  obtain rfl : f = x.result (s.me.elemTy x.ty) := funext hf
  refine ⟨_, hexec, hdone, fun l hl => ?lane, fun v l hl hne => ?other, hflags, hdone.2.2, hdone.2.1, haged⟩
  case lane =>
    rw [← setElems_boxes hp (s.me.elemTy x.ty) x.dst (fun l => (x.result (s.me.elemTy x.ty) l).bits) hlanes hl]
    simp only [Strand.boxes, hbox]
  case other =>
    rw [hbox]
    exact setElems_box_other hp _ _ _ hlanes hl hne

end Sys2Proof.Machine
end

section
/-! SUPPORT. Scalar loads (R198, R206, R296, R298): what first-level lines leave visible, and O30. -/

namespace Sys2Proof.Machine
open Sys2Proof

/-! ### What a core sees (R296) -/

theorem lineByte_congr {s t : State} (h : t.cycle = s.cycle) (core k : Nat) (l : List L1Line) :
    lineByte t core k l = lineByte s core k l := by
  induction l with
  | nil => rfl
  | cons x l ih => simp only [lineByte, h, ih]

/-- A byte as a core sees it rests on memory, buffered and unacknowledged stores, lines and the clock. -/
theorem view_congr {s t : State} (hb : t.sbuf = s.sbuf) (hr : t.rstores = s.rstores) (hl : t.l1 = s.l1) (hc : t.cycle = s.cycle)
    (hm : t.mem = s.mem) (core k : Nat) : t.view core k = s.view core k := by
  simp only [State.view, State.home, hb, hr, hl, hm, lineByte_congr hc]

theorem viewBytes_congr {s t : State} {core : Nat} (h : ∀ k, t.view core k = s.view core k) (k n : Nat) :
    t.viewBytes core k n = s.viewBytes core k n := by
  induction n generalizing k with
  | zero => rfl
  | succ n ih => rw [State.viewBytes, State.viewBytes, h, ih]

theorem getElem?_homeBytes (s : State) (k : Nat) : ∀ n i, i < n → (s.homeBytes k n)[i]? = some (s.home (k + i)) := by
  intro n
  induction n generalizing k with
  | zero => intro i h; omega
  | succ n ih =>
    intro i h
    cases i with
    | zero => rfl
    | succ i =>
      rw [State.homeBytes, List.getElem?_cons_succ, ih (k + 1) i (by omega)]
      exact congrArg (fun x => some (s.home x)) (by omega)

/-- The lines that a fill of core `core` keeps: those of other cores, and those that still live. -/
def livingLines (core : Nat) (s : State) : List L1Line := s.l1.filter fun l => l.core ≠ core || s.cycle ≤ l.filled + Config.l1Life

/-- A line that no longer lives is not seen. -/
theorem lineByte_livingLines (s : State) (core k : Nat) : lineByte s core k (livingLines core s) = lineByte s core k s.l1 := by
  unfold livingLines
  induction s.l1 with
  | nil => rfl
  | cons x l ih =>
    rw [List.filter_cons]
    split
    · next h => rw [lineByte, lineByte, ih]
    · next h =>
      have hx : (decide (x.core = core) && decide (x.key = k / 64) && decide (s.cycle ≤ x.filled + Config.l1Life)) = false := by
        simp only [ne_eq, Bool.or_eq_true, decide_eq_true_eq, not_or, not_not] at h
        simp [h.2]
      rw [ih, lineByte, hx, if_neg Bool.false_ne_true]

/-- Whether a load of core `core` at `k` finds the line. -/
def showsLine (s : State) (core k : Nat) (l : L1Line) : Bool := l.core = core && l.key = k / 64 && s.cycle ≤ l.filled + Config.l1Life

theorem lineByte_cons (s : State) (core k : Nat) (x : L1Line) (l : List L1Line) :
    lineByte s core k (x :: l) = if showsLine s core k x then x.bytes[k % 64]? else lineByte s core k l := rfl

theorem lineByte_none {s : State} {core k : Nat} {l : List L1Line} (h : l.any (showsLine s core k) = false) :
    lineByte s core k l = none := by
  induction l with
  | nil => rfl
  | cons y l ih =>
    rw [List.any_cons, Bool.or_eq_false_iff] at h
    rw [lineByte_cons, h.1, if_neg Bool.false_ne_true, ih h.2]

/-- A line behind the others is seen where none of them is. -/
theorem lineByte_append (s : State) (core k : Nat) (x : L1Line) (l : List L1Line) : lineByte s core k (l ++ [x]) =
    if l.any (showsLine s core k) then lineByte s core k l else lineByte s core k [x] := by
  induction l with
  | nil => rfl
  | cons y l ih =>
    rw [List.cons_append, lineByte_cons, lineByte_cons, List.any_cons, ih]
    cases showsLine s core k y <;> rfl

/-- The line that a fill reads from memory. -/
def filledLine (core line : Nat) (s : State) : L1Line :=
  { core := core, key := line, bytes := s.homeBytes (64 * line) 64, filled := s.cycle }

theorem lineByte_filledLine (s : State) (core line k : Nat) :
    lineByte s core k [filledLine core line s] = if line = k / 64 then some (s.home k) else none := by
  have hk : 64 * (k / 64) + k % 64 = k := Nat.div_add_mod k 64
  have hs : showsLine s core k (filledLine core line s) = true ↔ line = k / 64 := by
    simp only [showsLine, filledLine, decide_true, Bool.true_and, Nat.le_add_right, Bool.and_true]
    exact decide_eq_true_iff
  rw [lineByte_cons]
  by_cases h : line = k / 64
  · rw [if_pos (hs.mpr h), if_pos h, filledLine, getElem?_homeBytes s _ 64 _ (Nat.mod_lt _ (by decide)), h, hk]
  · rw [if_neg (hs.not.mpr h), if_neg h, lineByte]

/-- One line of a fill. -/
def fillLine (core : Nat) (s : State) (line : Nat) : State :=
  if (livingLines core s).any (fun l => l.core = core && l.key = line) then { s with l1 := livingLines core s }
  else { s with l1 := livingLines core s ++ [filledLine core line s] }

theorem fillLines_eq (core k n : Nat) (s : State) :
    fillLines core k n s = if isGeneric k then (sectors k n).foldl (fillLine core) s else s := rfl

theorem fillLine_frame (core : Nat) (s : State) (line : Nat) : ∃ l, fillLine core s line = { s with l1 := l } := by
  unfold fillLine
  split <;> exact ⟨_, rfl⟩

theorem view_withLines {s : State} {core k : Nat} {l : List L1Line}
    (h : (lineByte s core k l).getD (s.home k) = (lineByte s core k s.l1).getD (s.home k)) :
    State.view { s with l1 := l } core k = s.view core k := by
  have hl : lineByte { s with l1 := l } core k l = lineByte s core k l :=
    lineByte_congr (s := s) (t := { s with l1 := l }) rfl core k l
  simp only [State.view, hl]
  split
  · split
    · rfl
    · generalize lineByte s core k l = x at h
      generalize lineByte s core k s.l1 = y at h
      cases x <;> cases y <;> exact h
  · rfl

/-- A line filled from memory shows what was seen before (R296). -/
theorem fillLine_view (core : Nat) (s : State) (line k : Nat) : (fillLine core s line).view core k = s.view core k := by
  have hlive := lineByte_livingLines s core k
  unfold fillLine
  split
  · exact view_withLines (by rw [hlive])
  · refine view_withLines ?_
    rw [lineByte_append, lineByte_filledLine]
    split
    · rw [hlive]
    · next hseen =>
      rw [← hlive, lineByte_none (Bool.eq_false_iff.mpr hseen)]
      split <;> rfl

/-- Filled lines show what was seen before, and nothing else changes. -/
theorem fillLines_frame (core k n : Nat) (s : State) : ∃ l, fillLines core k n s = { s with l1 := l }
    ∧ ∀ j, State.view { s with l1 := l } core j = s.view core j := by
  rw [fillLines_eq]
  split
  · refine foldl_keeps (fun t : State => ∃ l, t = { s with l1 := l } ∧ ∀ j, State.view { s with l1 := l } core j = s.view core j)
      _ (fun t line ht => ?_) _ s ⟨s.l1, rfl, fun _ => rfl⟩
    obtain ⟨l, rfl, hv⟩ := ht
    obtain ⟨l', hl'⟩ := fillLine_frame core { s with l1 := l } line
    refine ⟨l', hl', fun j => ?_⟩
    have h := fillLine_view core { s with l1 := l } line j
    rw [hl', hv] at h
    exact h
  · exact ⟨s.l1, rfl, fun _ => rfl⟩

end Sys2Proof.Machine
end

section
/-! SUPPORT. Scalar loads (R18, R198, R206, R298): O30. -/

namespace Sys2Proof.Machine
open Sys2Proof

/-! ### Values (R206) -/

theorem leVal_lt : ∀ b : List Byte, leVal b < 2 ^ (8 * b.length)
  | [] => by decide
  | x :: t => by
    have ih := leVal_lt t
    have hx := x.isLt
    rw [leVal, List.length_cons, Nat.mul_succ, Nat.pow_add]
    omega

/-- The bytes of a place, extended, as R206 states it. -/
theorem extend_eq_extended {n : Nat} (hn : 0 < n) (u : Bool) {b : List Byte} (hb : b.length = n) :
    extend n u b = Spec.extended n u b := by
  have hlt : leVal b < 2 ^ (8 * n) := hb ▸ leVal_lt b
  have hhalf : 2 ^ (8 * n) = 2 * 2 ^ (8 * n - 1) := by
    rw [← Nat.pow_succ']
    exact congrArg _ (by omega)
  cases u with
  | true => rfl
  | false =>
    show (BitVec.ofNat (8 * n) (leVal b)).signExtend 64 = _
    rw [BitVec.signExtend, BitVec.toInt_eq_toNat_cond, BitVec.toNat_ofNat, Nat.mod_eq_of_lt hlt, Spec.extended]
    by_cases h : leVal b < 2 ^ (8 * n - 1)
    · have h2 : 2 * leVal b < 2 ^ (8 * n) := by omega
      simp only [h2, h, if_true, decide_true, Bool.or_true, BitVec.ofInt_natCast]
    · have h2 : ¬ 2 * leVal b < 2 ^ (8 * n) := by omega
      simp only [h2, h, if_false, decide_false, Bool.or_self, Bool.false_eq_true]
      push_cast
      rfl

theorem accBytes_pos (wd : AccW) : 0 < accBytes wd := by cases wd <;> decide

theorem bytesOf_eq (wd : AccW) : Spec.bytesOf wd = accBytes wd := by cases wd <;> rfl

theorem effective_eq (s : State) (a : SReg) (x : Imm) : Spec.effective s a x = s.ea a x := rfl

/-! ### A completed load -/

/-- What a head with the interlocked result `v` leaves of the strand. -/
def Delivered (s t : State) (d : SReg) (v : Word) : Prop :=
  t.me.pc = nextPc s.me ∧ PassedHead s t ∧ OnlyScalars s t ∧ t.rd d = (if d = 0 then 0 else v)
    ∧ OtherRegs s t d (1 + s.me.ir.sc) ∧ t.me.fflags = s.me.fflags

/-- A result is delivered whatever the head has done to the device beside its strand and the clock. -/
theorem delivered_finish_wr {s u : State} (hme : u.me = s.me) (hc : u.cycle = s.cycle) (d : SReg) (v : Word) :
    Delivered s (finish (u.wr d v)) d v := by
  refine ⟨?pc, ?passed, ?only, finish_wr_rd .., ?others, ?flags⟩
  case pc => rw [pc_finish_wr, hme]
  case passed => exact passedHead_finish hc ((Strand.wr_ir ..).trans (by rw [hme]))
  case only => simpa only [OnlyScalars, hme] using onlyScalars_finish_wr u d v
  case others =>
    have h := otherRegs_finish_wr u d v
    rw [hme] at h
    intro r hr
    rw [h r hr, rd_age, rd_age, hme]
  case flags => rw [fflags_finish_wr, hme]

theorem acquire_frame (sc : Scope) (s : State) : ∃ l, acquire sc s = { s with l1 := l } := by
  unfold acquire
  split <;> exact ⟨_, rfl⟩

theorem acquire_narrow {sc : Scope} (h : wideScope sc = false) (s : State) : acquire sc s = s := by
  rw [acquire, h, if_neg Bool.false_ne_true]

theorem acquire_wide {sc : Scope} (h : wideScope sc = true) (s : State) : acquire sc s = dropLines s.me.core s := by
  rw [acquire, if_pos h]

theorem dropLines_core {core : Nat} {s : State} : ∀ l ∈ (dropLines core s).l1, l.core ≠ core := fun _ hl => by
  simpa using (List.mem_filter.mp hl).2

/-- A load of the given form. -/
theorem exec_scalarLoad {i : Instr} {x : Spec.AccSpec} (h : Spec.scalarLoad i = some x) (s : State) :
    exec i s = .next (loadHead x.wd x.u x.sp x.ord x.sc x.reg x.base x.off s) := by
  unfold Spec.scalarLoad at h
  split at h <;> cases h <;> rfl

section
variable {s : State} {wd : AccW} {u acq : Bool} {sc : Scope} {d a : SReg} {x : Imm}
  (hal : (s.ea a x).toNat % accBytes wd = 0) (hr : Readable s [a])
include hal

theorem misaligned_none (sp : Nat) (wr : Bool) : misaligned (s.ea a x) (accBytes wd) sp wr = none := by
  simp [misaligned, hal]

include hr

theorem loadHead_scratchpad (hin : (s.ea a x).toNat + accBytes wd ≤ s.myCrew.decl.spbytes)
    (hp : s.poisoned (s.csp (s.ea a x).toNat) (accBytes wd) = false) :
    loadHead wd u true acq sc d a x s = finish ((if acq then acquire sc s else s).wr d
      (extend (accBytes wd) u (s.homeBytes (s.csp (s.ea a x).toNat) (accBytes wd)))) := by
  have hout : outsideCsp s (s.ea a x) (accBytes wd) false = none := by
    have hnot : ¬ (s.ea a x).toNat + accBytes wd > s.myCrew.decl.spbytes := by omega
    simp [outsideCsp, hnot]
  simp only [loadHead, stallShort_readable s [a] hr, scalarPoison_readable s [a] hr, misaligned_none hal, hout, if_true,
    List.cons_append, List.nil_append, checked_none, checked_nil, hp, Bool.false_eq_true, if_false]

theorem loadHead_generic : loadHead wd u false acq sc d a x s =
    atPlace (s.ea a x) (accBytes wd) .rd true false false
      (fun r off s => if wd = .d then finish (s.wr d (readReg s r off)) else regRefused (s.ea a x) false s)
      (fun k s =>
        let s := if acq then acquire sc s else fillLines s.me.core k (accBytes wd) s
        finish (s.wr d (extend (accBytes wd) u (s.viewBytes s.me.core k (accBytes wd))))) s := by
  simp only [loadHead, stallShort_readable s [a] hr, scalarPoison_readable s [a] hr, misaligned_none hal,
    List.cons_append, List.nil_append, checked_none, checked_nil, Bool.false_eq_true, if_false]
  rfl

end

/-- The state that a generic load has made: after its acquire, or with its lines filled (R296, R298). -/
def loaded (acq : Bool) (sc : Scope) (k n : Nat) (s : State) : State := if acq then acquire sc s else fillLines s.me.core k n s

/-- A load sees memory without the older lines of its core under a wide acquire, and else what the core saw. -/
theorem loaded_frame (acq : Bool) (sc : Scope) (k n : Nat) (s : State) : ∃ l, loaded acq sc k n s = { s with l1 := l }
    ∧ (acq && wideScope sc → ∀ x ∈ l, x.core ≠ s.me.core)
    ∧ ∀ j, State.view { s with l1 := l } s.me.core j =
        if acq && wideScope sc then (dropLines s.me.core s).view s.me.core j else s.view s.me.core j := by
  cases acq with
  | false =>
    obtain ⟨l, hl, hv⟩ := fillLines_frame s.me.core k n s
    exact ⟨l, hl, fun h => absurd h (by simp), hv⟩
  | true =>
    cases hw : wideScope sc with
    | false => exact ⟨s.l1, acquire_narrow hw s, fun h => absurd h (by simp), fun _ => rfl⟩
    | true => exact ⟨_, acquire_wide hw s, fun _ => dropLines_core, fun _ => rfl⟩

theorem atPlace_reg {s : State} {va : Word} {n : Nat} {acc : Acc} {reads wr idx : Bool} {reg : Space → Nat → State → State}
    {k : Nat → State → State} {sp : Space} {off : Nat} (h : translate s s.ctx acc va.toNat = .ok (.reg sp off)) :
    atPlace va n acc reads wr idx reg k s = reg sp off s := by
  simp only [atPlace, h]

theorem atPlace_read {s : State} {va : Word} {n : Nat} {acc : Acc} {wr idx : Bool} {reg : Space → Nat → State → State}
    {k : Nat → State → State} {key : Nat} (h : translate s s.ctx acc va.toNat = .ok (.cell key)) (hl : lostDevice s key = none)
    (hp : s.poisonedFor s.me.core key n = false) : atPlace va n acc true wr idx reg k s = k key (touch key s) := by
  simp only [atPlace, h, if_true, hl, hp, Bool.true_and, Bool.false_eq_true, if_false]

/-- A generic load of a byte of memory delivers what its core sees, and leaves memory. -/
theorem delivered_loaded (s : State) (acq : Bool) (sc : Scope) (d : SReg) (wd : AccW) (u : Bool) (k : Nat) :
    let n := accBytes wd
    let v := loaded acq sc k n (touch k s)
    let t := finish (v.wr d (extend n u (v.viewBytes v.me.core k n)))
    Delivered s t d (Spec.extended n u
        (if acq && wideScope sc then (dropLines s.me.core s).viewBytes s.me.core k n else s.viewBytes s.me.core k n))
      ∧ (acq && wideScope sc → ∀ l ∈ t.l1, l.core ≠ s.me.core)
      ∧ t = { s with me := t.me, cycle := t.cycle, vfs := t.vfs, l1 := t.l1, stash := t.stash, events := t.events } := by
  obtain ⟨st, vs, ev, htouch⟩ := touch_frame k s
  obtain ⟨l, hl, hlines, hview⟩ := loaded_frame acq sc k (accBytes wd) { s with stash := st, vfs := vs, events := ev }
  have hbytes : State.viewBytes { s with stash := st, vfs := vs, events := ev, l1 := l } s.me.core k (accBytes wd) =
      if acq && wideScope sc then (dropLines s.me.core s).viewBytes s.me.core k (accBytes wd) else s.viewBytes s.me.core k (accBytes wd) := by
    split
    · next h =>
      refine viewBytes_congr (fun j => ?_) k _
      have hj := hview j
      rw [if_pos h] at hj
      exact hj.trans (by apply view_congr <;> rfl)
    · next h =>
      refine viewBytes_congr (fun j => ?_) k _
      have hj := hview j
      rw [if_neg h] at hj
      exact hj.trans (by apply view_congr <;> rfl)
  intro n v t
  have hv : v = { s with stash := st, vfs := vs, events := ev, l1 := l } := by
    show loaded acq sc k (accBytes wd) (touch k s) = _
    rw [htouch, hl]
  have hval : extend n u (v.viewBytes v.me.core k n) = Spec.extended n u
      (if acq && wideScope sc then (dropLines s.me.core s).viewBytes s.me.core k n else s.viewBytes s.me.core k n) := by
    rw [extend_eq_extended (accBytes_pos wd) u (length_viewBytes ..), hv]
    exact congrArg _ hbytes
  refine ⟨hval ▸ delivered_finish_wr (by rw [hv]) (by rw [hv]) d _, ?_, ?_⟩
  · show _ → ∀ x ∈ v.l1, _
    rw [hv]
    exact hlines
  · have ht : t = finish (State.wr { s with stash := st, vfs := vs, events := ev, l1 := l } d
        (extend n u (v.viewBytes v.me.core k n))) := by rw [← hv]
    rw [ht]
    rfl

/-- A load of the scratchpad delivers its bytes; its acquire drops the older lines of its core. -/
theorem delivered_scratchpad (s : State) (acq : Bool) (sc : Scope) (d : SReg) (v : Word) :
    let t := finish ((if acq then acquire sc s else s).wr d v)
    Delivered s t d v ∧ (acq && wideScope sc → ∀ l ∈ t.l1, l.core ≠ s.me.core)
      ∧ t = { s with me := t.me, cycle := t.cycle, l1 := t.l1 } ∧ ((acq && wideScope sc) = false → t.l1 = s.l1) := by
  cases acq with
  | false => exact ⟨delivered_finish_wr rfl rfl d v, fun h => absurd h (by simp), rfl, fun _ => rfl⟩
  | true =>
    cases hw : wideScope sc with
    | false =>
      intro t
      have ht : t = finish (s.wr d v) := by
        show finish ((acquire sc s).wr d v) = _
        rw [acquire_narrow hw]
      rw [ht]
      exact ⟨delivered_finish_wr rfl rfl d v, fun h => absurd h (by simp), rfl, fun _ => rfl⟩
    | true =>
      intro t
      have ht : t = finish ((dropLines s.me.core s).wr d v) := by
        show finish ((acquire sc s).wr d v) = _
        rw [acquire_wide hw]
      rw [ht]
      exact ⟨delivered_finish_wr rfl rfl d v, fun _ => dropLines_core (s := s), rfl, fun h => absurd h (by simp)⟩

theorem home_of_mem {s t : State} (h : t.mem = s.mem) (k : Nat) : t.home k = s.home k := by rw [State.home, State.home, h]

/-- Settles O30: by the place that the address leads to. -/
theorem scalarLoadResult : Obligations.ScalarLoadResult := by
  unfold Obligations.ScalarLoadResult
  intro i s x hx hr
  have hexec := exec_scalarLoad hx s
  rw [effective_eq, bytesOf_eq]
  intro va n hal wide lines
  refine ⟨fun hsp hin hp => ?scratchpad, fun k hsp hk hlost hp => ?cell, fun sp off hsp hd hk => ?reg⟩
  case scratchpad =>
    rw [hsp, loadHead_scratchpad hal hr hin hp, extend_eq_extended (accBytes_pos _) x.u (length_homeBytes ..)] at hexec
    obtain ⟨⟨hpc, hpass, hscal, hrd, hoth, hfl⟩, hlines, hframe, hl1⟩ := delivered_scratchpad s x.ord x.sc x.reg
      (Spec.extended n x.u (s.homeBytes (s.csp va.toNat) n))
    have hmem := congrArg State.mem hframe
    exact ⟨_, hexec, hpc, hpass, hscal, hlines, hframe, hl1, hrd, hoth, hfl, home_of_mem hmem⟩
  case cell =>
    rw [hsp, loadHead_generic hal hr, atPlace_read hk hlost hp] at hexec
    obtain ⟨⟨hpc, hpass, hscal, hrd, hoth, hfl⟩, hlines, hframe⟩ := delivered_loaded s x.ord x.sc x.reg x.wd x.u k
    have hmem := congrArg State.mem hframe
    exact ⟨_, hexec, hpc, hpass, hscal, hrd, hoth, hfl, hlines, hframe, home_of_mem hmem⟩
  case reg =>
    rw [hsp, loadHead_generic hal hr, atPlace_reg hk, if_pos hd] at hexec
    obtain ⟨hpc, hpass, hscal, hrd, hoth, hfl⟩ := delivered_finish_wr (s := s) (u := s) rfl rfl x.reg (readReg s sp off)
    exact ⟨_, hexec, hpc, hpass, hscal, rfl, hrd, hoth, hfl, home_of_mem rfl⟩

end Sys2Proof.Machine
end

section
/-! SUPPORT. The end of a crew (R34, R359): what writes at home, wakes and the end of a crew leave of a strand, of the crews and of the
messages, and O10. -/

namespace Sys2Proof.Machine
open Sys2Proof

/-! ### Writes at home -/

/-- What a write at its home can change: memory and its poison, replaced entries, lines, the stash, stores under way, and the links
of strands (R204, R210, R282, R296, R403). -/
structure HomePart where
  mem : Tab Byte
  mpois : List Nat
  old : Superseded
  l1 : List L1Line
  stash : List StashLine
  sbuf : List PStore
  rstores : List RemoteStore
  links : List Nat
  others : Tab Strand

/-- A state with its home part replaced. -/
def State.withHome (s : State) (p : HomePart) : State :=
  { s with
    mem := p.mem, mpois := p.mpois, old := p.old, l1 := p.l1, stash := p.stash, sbuf := p.sbuf, rstores := p.rstores
    me := { s.me with links := p.links }, others := p.others }

/-- Nothing but the home part has changed. -/
def HomeOnly (s t : State) : Prop := ∃ p, t = s.withHome p

theorem homeOnly_refl (s : State) : HomeOnly s s :=
  ⟨⟨s.mem, s.mpois, s.old, s.l1, s.stash, s.sbuf, s.rstores, s.me.links, s.others⟩, rfl⟩

theorem homeOnly_trans {s t u : State} (h : HomeOnly s t) (k : HomeOnly t u) : HomeOnly s u := by
  obtain ⟨p, rfl⟩ := h
  obtain ⟨q, rfl⟩ := k
  exact ⟨q, rfl⟩

theorem homeOnly_foldl {β : Type} (f : State → β → State) (hf : ∀ s b, HomeOnly s (f s b)) (l : List β) (s : State) :
    HomeOnly s (l.foldl f s) :=
  foldl_keeps (HomeOnly s) f (fun t b h => homeOnly_trans h (hf t b)) l s (homeOnly_refl s)

theorem breakLinks_homeOnly (lines : List Nat) (keep : Option Nat) (s : State) : HomeOnly s (breakLinks lines keep s) := by
  refine ⟨⟨s.mem, s.mpois, s.old, s.l1, s.stash, s.sbuf, s.rstores, (breakLinks lines keep s).me.links, (breakLinks lines keep s).others⟩, ?_⟩
  unfold breakLinks State.withHome
  dsimp only
  split <;> rfl

theorem homeWrite_homeOnly (core keep : Option Nat) (k : Nat) (bs : List Byte) (s : State) : HomeOnly s (homeWrite core keep k bs s) := by
  unfold homeWrite
  dsimp only
  split
  · exact homeOnly_refl s
  · refine homeOnly_trans ?_ (breakLinks_homeOnly _ keep _)
    obtain ⟨l, h⟩ := noteStash_frame true k bs.length s
    rw [h]
    exact ⟨⟨_, _, _, _, l, s.sbuf, s.rstores, s.me.links, s.others⟩, rfl⟩

theorem performRemote_homeOnly (f : RemoteStore → Bool) (s : State) : HomeOnly s (performRemote f s) :=
  homeOnly_trans ⟨⟨s.mem, s.mpois, s.old, s.l1, s.stash, s.sbuf, _, s.me.links, s.others⟩, rfl⟩
    (homeOnly_foldl _ (fun t (r : RemoteStore) => homeWrite_homeOnly (some r.core) none r.key r.bytes t) _ _)

theorem performStore_homeOnly (p : PStore) (s : State) : HomeOnly s (performStore p s) := by
  unfold performStore
  split
  · exact ⟨⟨s.mem, s.mpois, s.old, s.l1, s.stash, s.sbuf, _, s.me.links, s.others⟩, rfl⟩
  · exact homeOnly_trans (performRemote_homeOnly _ s) (homeWrite_homeOnly _ _ _ _ _)

theorem drainCore_homeOnly (core : Nat) (s : State) : HomeOnly s (drainCore core s) := by
  unfold drainCore
  split
  · exact homeOnly_refl s
  · exact homeOnly_trans ⟨⟨s.mem, s.mpois, s.old, s.l1, s.stash, _, s.rstores, s.me.links, s.others⟩, rfl⟩
      (homeOnly_foldl _ (fun t p => performStore_homeOnly p t) _ _)

/-! ### Wakes -/

/-- What a wake can change: strands and the clock; where a grid's barrier completes, the grid's arrivals and first-level lines too. -/
structure WakePart where
  me : Strand
  others : Tab Strand
  cycle : Nat
  grids : Tab Grid
  l1 : List L1Line

/-- A state with its wake part replaced. -/
def State.withWake (s : State) (p : WakePart) : State :=
  { s with me := p.me, others := p.others, cycle := p.cycle, grids := p.grids, l1 := p.l1 }

/-- Nothing but the wake part has changed, and the current strand neither where it does not wait. -/
def WakeOnly (s t : State) : Prop := (∃ p, t = s.withWake p) ∧ (s.me.wait = none → t.me = s.me)

theorem wakeOnly_refl (s : State) : WakeOnly s s := ⟨⟨⟨s.me, s.others, s.cycle, s.grids, s.l1⟩, rfl⟩, fun _ => rfl⟩

theorem wakeOnly_trans {s t u : State} (h : WakeOnly s t) (k : WakeOnly t u) : WakeOnly s u := by
  obtain ⟨⟨p, hp⟩, hm⟩ := h
  obtain ⟨⟨q, hq⟩, km⟩ := k
  refine ⟨⟨q, hq.trans (by rw [hp]; rfl)⟩, fun hw => ?_⟩
  rw [km (by rw [hm hw]; exact hw), hm hw]

theorem wakeOnly_foldl {β : Type} (f : State → β → State) (hf : ∀ s b, WakeOnly s (f s b)) (l : List β) (s : State) :
    WakeOnly s (l.foldl f s) :=
  foldl_keeps (WakeOnly s) f (fun t b h => wakeOnly_trans h (hf t b)) l s (wakeOnly_refl s)

theorem wakeOnly_modGrid (g : Nat) (f : Grid → Grid) (s : State) : WakeOnly s (s.modGrid g f) :=
  ⟨⟨⟨s.me, s.others, s.cycle, _, s.l1⟩, rfl⟩, fun _ => rfl⟩

theorem wakeOnly_dropLines (core : Nat) (s : State) : WakeOnly s (dropLines core s) :=
  ⟨⟨⟨s.me, s.others, s.cycle, s.grids, _⟩, rfl⟩, fun _ => rfl⟩

/-- The end of a wait changes the strand that waits alone. -/
theorem completeWait_wakeOnly (sid : Nat) (w v : Wait) (s : State) (h : (s.strand sid).wait = some w) :
    WakeOnly s (completeWait sid v s) := by
  unfold completeWait State.setStrand
  dsimp only
  by_cases hc : sid = s.cur
  · rw [if_pos hc]
    refine ⟨⟨⟨_, s.others, _, s.grids, s.l1⟩, rfl⟩, fun hw => ?_⟩
    rw [State.strand, if_pos hc, hw] at h
    exact absurd h (by simp)
  · rw [if_neg hc]
    exact ⟨⟨⟨s.me, _, _, s.grids, s.l1⟩, rfl⟩, fun _ => rfl⟩

theorem wakeComplete_wakeOnly (sids : List Nat) (f : Wait → Bool) (s : State) : WakeOnly s (wakeComplete sids f s) := by
  refine wakeOnly_foldl _ (fun t sid => ?_) sids s
  split
  · next w h =>
    split
    · exact completeWait_wakeOnly sid w w t h
    · exact wakeOnly_refl t
  · exact wakeOnly_refl t

theorem wakeIdle_wakeOnly (cid : Nat) (s : State) : WakeOnly s (wakeIdle cid s) := wakeComplete_wakeOnly _ _ s

theorem settleGbar_wakeOnly (g : Nat) (s : State) : WakeOnly s (settleGbar g s) := by
  unfold settleGbar
  dsimp only
  split
  · refine wakeOnly_trans ?_ (wakeOnly_foldl _ (fun t (e : Nat × Crew) => wakeIdle_wakeOnly e.1 t) _ _)
    refine wakeOnly_trans ?_ (wakeComplete_wakeOnly _ _ _)
    refine wakeOnly_trans (wakeOnly_modGrid g _ s) (wakeOnly_foldl _ (fun t (i : Nat) => ?_) _ _)
    exact wakeOnly_dropLines (t.strand i).core t
  · exact wakeOnly_refl s

/-! ### The end of a crew -/

/-- What the settlement of a crew's accounts keeps: the current strand, its links aside, and the messages. -/
def Quiet (s t : State) : Prop := t.cur = s.cur ∧ (∃ l, t.me = { s.me with links := l }) ∧ t.outbox = s.outbox

theorem quiet_of_same {s t : State} (hc : t.cur = s.cur) (hm : t.me = s.me) (ho : t.outbox = s.outbox) : Quiet s t :=
  ⟨hc, ⟨s.me.links, hm⟩, ho⟩

theorem quiet_trans {s t u : State} (h : Quiet s t) (k : Quiet t u) : Quiet s u := by
  obtain ⟨hc, ⟨l, hm⟩, ho⟩ := h
  obtain ⟨kc, ⟨l', km⟩, ko⟩ := k
  exact ⟨kc.trans hc, ⟨l', by rw [km, hm]⟩, ko.trans ho⟩

theorem HomeOnly.quiet {s t : State} (h : HomeOnly s t) : Quiet s t := by
  obtain ⟨p, rfl⟩ := h
  exact ⟨rfl, ⟨p.links, rfl⟩, rfl⟩

theorem charge_quiet (cid : Nat) (s : State) : Quiet s (charge cid s) := quiet_of_same rfl rfl rfl

theorem auditEnd_quiet (cid status : Nat) (s : State) : Quiet s (auditEnd cid status s) := by
  unfold auditEnd abandonAudit
  dsimp only
  split
  · exact quiet_of_same rfl rfl rfl
  · split
    · exact quiet_of_same rfl rfl rfl
    · split <;> exact quiet_of_same rfl rfl rfl

theorem releaseTasks_quiet (cid : Nat) (s : State) : Quiet s (releaseTasks cid s) := by
  unfold releaseTasks
  refine foldl_keeps (Quiet s) _ (fun t h ht => ?_) _ _ (quiet_of_same rfl rfl rfl)
  exact ht

/-- A crew's end up to the release of what it holds: everything before its strands stop. -/
def settleAccounts (cid status : Nat) (s : State) : State :=
  let c := s.crew cid
  let s := drainCore c.core (charge cid s)
  freeRoom cid (releaseTasks cid (auditEnd cid status (writeBack (s.grid c.grid).vf s)))

theorem settleAccounts_quiet (cid status : Nat) (s : State) : Quiet s (settleAccounts cid status s) := by
  unfold settleAccounts
  dsimp only
  refine quiet_trans ?_ (quiet_of_same rfl rfl rfl)
  refine quiet_trans ?_ (releaseTasks_quiet cid _)
  refine quiet_trans ?_ (auditEnd_quiet cid status _)
  refine quiet_trans ?_ (quiet_of_same rfl rfl rfl)
  exact quiet_trans (charge_quiet cid s) (drainCore_homeOnly _ _).quiet

/-- The strands of a list stop. -/
def endStrands (sids : List Nat) (s : State) : State := sids.foldl (fun s sid => s.modStrand sid Strand.ended) s

/-- A crew as its end leaves it, with what its record of R360 tells. -/
def Crew.ending (status c1 c2 idx rank : Nat) (tpc taddr : Word) (now : Nat) (c : Crew) : Crew :=
  { c with
    state := .ended, status := status, cause1 := c1, cause2 := c2, causeStrand := idx, causeRank := rank, tpc := tpc,
    taddr := taddr, tend := now, claims := [], feQueue := [], landings := [], releases := [], queries := [], freeRows := [],
    returning := [], frozen := [], frozenBad := [], lazy := false, dbgHold := false }

/-- What the end of crew `cid` does to its entry and to its grid once its strands have stopped. -/
def recordEnd (cid gid : Nat) (f : Crew → Crew) (s : State) : State :=
  afterEnd cid (settleGbar gid ((s.modCrew cid f).modGrid gid fun g => { g with completed := g.completed + 1 }))

theorem recordEnd_frame (cid gid : Nat) (f : Crew → Crew) (s : State) :
    (recordEnd cid gid f s).crew cid = f (s.crew cid) ∧ (recordEnd cid gid f s).outbox = s.outbox
      ∧ (s.me.wait = none → (recordEnd cid gid f s).me = s.me) := by
  obtain ⟨⟨p, hp⟩, hm⟩ := settleGbar_wakeOnly gid ((s.modCrew cid f).modGrid gid fun g => { g with completed := g.completed + 1 })
  refine ⟨?_, ?_, hm⟩
  · show tget {} (settleGbar gid _).crews cid = _
    rw [hp]
    exact tget_tmod_same _ _ _ _
  · show (settleGbar gid _).outbox = _
    rw [hp]
    rfl

/-- The end of a crew that has not ended: its accounts, its strands, its own entry, and what follows for its grid. -/
theorem endCrew_eq (cid status c1 c2 idx rank : Nat) (tpc taddr : Word) (s : State) (h : (s.crew cid).state ≠ .ended) :
    endCrew cid status c1 c2 idx rank tpc taddr s =
      let c := s.crew cid
      let t := withdraw c.sids c.grid (endStrands c.sids (settleAccounts cid status s))
      recordEnd cid c.grid (Crew.ending status c1 c2 idx rank tpc taddr t.cycle) t := by
  unfold endCrew
  exact if_neg h

/-- What an end writes into the crew's entry. -/
theorem endCrew_crew (cid status c1 c2 idx rank : Nat) (tpc taddr : Word) (s : State) (h : (s.crew cid).state ≠ .ended) :
    ∃ c n, (endCrew cid status c1 c2 idx rank tpc taddr s).crew cid = Crew.ending status c1 c2 idx rank tpc taddr n c := by
  rw [endCrew_eq _ _ _ _ _ _ _ _ _ h]
  exact ⟨_, _, (recordEnd_frame _ _ _ _).1⟩

/-- A strand among those that stop has ended; its registers stay. -/
theorem endStrands_me (sids : List Nat) : ∀ s : State, (endStrands sids s).cur = s.cur
    ∧ (endStrands sids s).me = (if s.cur ∈ sids then s.me.ended else s.me) ∧ (endStrands sids s).outbox = s.outbox := by
  induction sids with
  | nil => exact fun s => ⟨rfl, rfl, rfl⟩
  | cons i l ih =>
    intro s
    obtain ⟨hc, hm, ho⟩ := ih (s.modStrand i Strand.ended)
    have step : (s.modStrand i Strand.ended).cur = s.cur ∧ (s.modStrand i Strand.ended).outbox = s.outbox
        ∧ (s.modStrand i Strand.ended).me = if i = s.cur then s.me.ended else s.me := by
      unfold State.modStrand State.setStrand State.strand
      split <;> exact ⟨rfl, rfl, rfl⟩
    obtain ⟨sc, so, sm⟩ := step
    refine ⟨hc.trans sc, hm.trans ?_, ho.trans so⟩
    rw [sc, sm]
    by_cases h1 : i = s.cur
    · rw [if_pos h1, if_pos (List.mem_cons.mpr (.inl h1.symm))]
      split <;> rfl
    · simp only [if_neg h1, List.mem_cons, Ne.symm h1, false_or]

theorem withdraw_me (sids : List Nat) (g : Nat) (s : State) : (withdraw sids g s).me = s.me := rfl

theorem withdraw_outbox (sids : List Nat) (g : Nat) (s : State) : (withdraw sids g s).outbox = s.outbox := rfl

/-- Where the crew that ends holds the current strand, that strand has ended, with its registers as they stood. -/
theorem endCrew_me (cid status c1 c2 idx rank : Nat) (tpc taddr : Word) (s : State) (h : (s.crew cid).state ≠ .ended)
    (hs : s.cur ∈ (s.crew cid).sids) : (endCrew cid status c1 c2 idx rank tpc taddr s).me = s.me.ended := by
  rw [endCrew_eq _ _ _ _ _ _ _ _ _ h]
  dsimp only
  obtain ⟨hc, ⟨l, hm⟩, -⟩ := settleAccounts_quiet cid status s
  obtain ⟨-, em, -⟩ := endStrands_me (s.crew cid).sids (settleAccounts cid status s)
  rw [if_pos (by rw [hc]; exact hs), hm] at em
  obtain ⟨-, -, hr⟩ := recordEnd_frame cid (s.crew cid).grid (Crew.ending status c1 c2 idx rank tpc taddr
    (withdraw (s.crew cid).sids (s.crew cid).grid (endStrands (s.crew cid).sids (settleAccounts cid status s))).cycle)
    (withdraw (s.crew cid).sids (s.crew cid).grid (endStrands (s.crew cid).sids (settleAccounts cid status s)))
  rw [withdraw_me, em] at hr
  exact hr rfl

/-- An end sends no message. -/
theorem endCrew_outbox (cid status c1 c2 idx rank : Nat) (tpc taddr : Word) (s : State) :
    (endCrew cid status c1 c2 idx rank tpc taddr s).outbox = s.outbox := by
  by_cases h : (s.crew cid).state = .ended
  · unfold endCrew
    exact congrArg State.outbox (if_pos h)
  · rw [endCrew_eq _ _ _ _ _ _ _ _ _ h]
    dsimp only
    rw [(recordEnd_frame _ _ _ _).2.1, withdraw_outbox, (endStrands_me _ _).2.2]
    exact (settleAccounts_quiet cid status s).2.2

/-! ### Traps without a handler -/

/-- What `takeTrapAs` looks at once no older work of the strand is left. -/
theorem takeTrapAs_free (ir : Ir) (x : Trap) (s : State) (hv : s.me.viq = []) (hl : s.landing s.cur = false) :
    takeTrapAs ir x s =
      if s.me.trapon && s.me.run ≠ .halted then
        if s.me.onSteward then stopSteward x.cause.code (tick 1 s)
        else endFault (bitsOf s.me.trapcause 7 0) x.cause.code s.me.trappc s.me.trapaddr (tick 1 s)
      else if bitsOf s.me.trapvec 5 0 = 0 || s.me.run = .halted then
        if x.cause = .poison && x.lanes ≠ 0 then
          { tick 1 s with me := { s.me with
              deadmask := s.me.deadmask ||| x.lanes, everDead := s.me.everDead ||| x.lanes, wait := none, vop := none, via := {}, failed := [] } }
        else if s.me.onSteward then stopSteward x.cause.code (tick 1 s)
        else endFault x.cause.code 0 s.me.pc x.addr (tick 1 s)
      else takeTrapAs ir x s := by
  by_cases h1 : (s.me.trapon && s.me.run ≠ .halted) = true
  · rw [if_pos h1]
    unfold takeTrapAs
    rw [if_neg (not_not.mpr hv), hl, if_neg Bool.false_ne_true]
    exact if_pos h1
  · rw [if_neg h1]
    by_cases h2 : (bitsOf s.me.trapvec 5 0 = 0 || s.me.run = .halted) = true
    · rw [if_pos h2]
      unfold takeTrapAs
      rw [if_neg (not_not.mpr hv), hl, if_neg Bool.false_ne_true]
      exact (if_neg h1).trans (if_pos h2)
    · rw [if_neg h2]

theorem bitsOf_low (w : Word) (n : Nat) : bitsOf w n 0 = w.toNat % 2 ^ (n + 1) := by
  simp [bitsOf, bits]

/-- Settles O10: `takeTrapAs_free` names the outcomes; `endCrew_crew` and `endCrew_me` say what a crew's end leaves of its entry and of
the strand that trapped. -/
theorem unhandledTraps : Obligations.UnhandledTraps := by
  unfold Obligations.UnhandledTraps
  intro x s
  refine ⟨fun hv => ?_, fun hv hl => ⟨fun hon hrun hst hcr hsid => ?_, fun hno => ⟨fun hp hx => ?_, fun hp hst hcr => ?_⟩⟩⟩
  · have e : takeTrap x s = beginWait .viq s := if_pos hv
    rw [e]
    exact ⟨rfl, rfl, rfl, rfl, rfl⟩
  · have e : takeTrap x s = endCrew s.me.crew 1 (bitsOf s.me.trapcause 7 0) x.cause.code s.me.index 0 s.me.trappc s.me.trapaddr (tick 1 s) := by
      rw [takeTrap, takeTrapAs_free _ _ _ hv hl, if_pos (by simp [hon, hrun]), if_neg (by simp [hst])]
      rfl
    obtain ⟨c, n, hc⟩ := endCrew_crew s.me.crew 1 (bitsOf s.me.trapcause 7 0) x.cause.code s.me.index 0 s.me.trappc s.me.trapaddr (tick 1 s) hcr
    have hm := endCrew_me s.me.crew 1 (bitsOf s.me.trapcause 7 0) x.cause.code s.me.index 0 s.me.trappc s.me.trapaddr (tick 1 s) hcr hsid
    rw [e, hc, hm]
    exact ⟨rfl, rfl, bitsOf_low _ 7, rfl, rfl, rfl, rfl, rfl, rfl, rfl, rfl, rfl⟩
  all_goals
    have h1 : ¬(s.me.trapon && s.me.run ≠ .halted) = true := by
      rcases hno with h | ⟨h, -⟩ <;> simp [h]
    have h2 : (bitsOf s.me.trapvec 5 0 = 0 || s.me.run = .halted) = true := by
      rcases hno with h | ⟨-, h⟩
      · simp [h]
      · simp [bitsOf_low, h]
  · have e := takeTrapAs_free s.me.ir x s hv hl
    rw [if_neg h1, if_pos h2, if_pos (by rw [Bool.and_eq_true, decide_eq_true_eq, decide_eq_true_eq]; exact ⟨hp, hx⟩)] at e
    rw [takeTrap, e]
    exact ⟨rfl, rfl, rfl, rfl, rfl⟩
  · have e : takeTrap x s = endCrew s.me.crew 1 x.cause.code 0 s.me.index 0 s.me.pc x.addr (tick 1 s) := by
      rw [takeTrap, takeTrapAs_free _ _ _ hv hl, if_neg h1, if_pos h2, if_neg (by simp [hp]), if_neg (by simp [hst])]
      rfl
    obtain ⟨c, n, hc⟩ := endCrew_crew s.me.crew 1 x.cause.code 0 s.me.index 0 s.me.pc x.addr (tick 1 s) hcr
    rw [e, hc]
    exact ⟨rfl, rfl, rfl, rfl, rfl, rfl⟩

end Sys2Proof.Machine
end

section
/-! SUPPORT. Queues and readiness (R345, R346, R351, R353): index writes, records as they are read, and the checks of a grid. -/

namespace Sys2Proof.Machine
open Sys2Proof

/-! ### Entries after a change -/

@[simp] theorem State.queue_modQueue (s : State) (q : Nat) (f : QueueReg → QueueReg) : (s.modQueue q f).queue q = f (s.queue q) :=
  tget_tmod_same _ _ _ _

@[simp] theorem State.grid_modGrid (s : State) (g : Nat) (f : Grid → Grid) : (s.modGrid g f).grid g = f (s.grid g) :=
  tget_tmod_same _ _ _ _

@[simp] theorem State.crew_modCrew (s : State) (c : Nat) (f : Crew → Crew) : (s.modCrew c f).crew c = f (s.crew c) :=
  tget_tmod_same _ _ _ _

@[simp] theorem State.queue_modGrid (s : State) (g q : Nat) (f : Grid → Grid) : (s.modGrid g f).queue q = s.queue q := rfl

@[simp] theorem State.grid_modQueue (s : State) (q g : Nat) (f : QueueReg → QueueReg) : (s.modQueue q f).grid g = s.grid g := rfl

/-! ### Queue registers -/

theorem word32_sub_toNat (x y : Word32) : (x - y).toNat = (x.toNat + 2 ^ 32 - y.toNat) % 2 ^ 32 := by
  have := y.isLt
  rw [BitVec.toNat_sub]
  exact congrArg (· % 2 ^ 32) (by omega)

/-- An index write goes to its queue's register alone: it is taken, or counted as bad, or refused for a queue of the device. -/
theorem qwidxWrite_queue (q : Nat) (v : Word) (s : State) :
    let x := s.queue q
    let new : Word32 := BitVec.ofNat 32 (v.toNat % 2 ^ 32)
    let step := (new.toNat + 2 ^ 32 - x.widx.toNat) % 2 ^ 32
    let used := (x.widx.toNat + 2 ^ 32 - x.ridx.toNat) % 2 ^ 32
    (qwidxWrite q v s).mem = s.mem ∧ (qwidxWrite q v s).queue q = (if x.dev then { x with devq := true }
      else if 0 < step ∧ step + used ≤ 2 ^ x.lsize then { x with widx := new } else { x with badidx := true }) := by
  intro x new step used
  have hnew : v.setWidth 32 = new := BitVec.eq_of_toNat_eq (by simp [new])
  have hroom : (decide (0 < step) && decide (step ≤ 2 ^ x.lsize - used)) = decide (0 < step ∧ step + used ≤ 2 ^ x.lsize) := by
    rw [← Bool.decide_and, decide_eq_decide]
    omega
  unfold qwidxWrite
  dsimp only
  rw [hnew, word32_sub_toNat, word32_sub_toNat]
  show (if x.dev = true then _ else if (decide (0 < step) && decide (step ≤ 2 ^ x.lsize - used)) = true then _ else _ : State).mem = _
    ∧ (if x.dev = true then _ else if (decide (0 < step) && decide (step ≤ 2 ^ x.lsize - used)) = true then _ else _ : State).queue q = _
  rw [hroom]
  by_cases hd : x.dev = true
  · rw [if_pos hd, if_pos hd]
    exact ⟨rfl, State.queue_modQueue ..⟩
  · by_cases hr : 0 < step ∧ step + used ≤ 2 ^ x.lsize
    · rw [if_neg hd, if_neg hd, if_pos (decide_eq_true hr), if_pos hr]
      exact ⟨rfl, State.queue_modQueue ..⟩
    · rw [if_neg hd, if_neg hd, if_neg (by rw [decide_eq_true_eq]; exact hr), if_neg hr]
      exact ⟨rfl, State.queue_modQueue ..⟩

/-! ### Records -/

theorem atHead_of_over (s : State) (x : QueueReg)
    (h : ∀ k, x.lastGrid = some k → (s.grid k).state = .complete ∨ (s.grid k).reason ≠ 0) : atHead s x = true := by
  unfold atHead
  split
  · rfl
  · next k hk => rcases h k hk with h | h <;> simp [h]

/-- The conditions under which a queue reads a record. -/
def readsNext (s : State) (x : QueueReg) : Bool :=
  !(!x.en || !atHead s x || x.ridx = x.widx || !(s.vf x.vf).en || (s.vf x.vf).part ≠ x.part || !readsQueues s)

theorem readsNext_of (s : State) (x : QueueReg) (hen : x.en = true) (hhead : atHead s x = true) (hidx : x.ridx ≠ x.widx)
    (hvf : (s.vf x.vf).en = true) (hpart : (s.vf x.vf).part = x.part) (hidle : s.freeze.state = .idle) : readsNext s x = true := by
  simp [readsNext, readsQueues, hen, hhead, hidx, hvf, hpart, hidle]

/-- A record that cannot be read is passed over, with LAST 1 and RFAULT. -/
theorem launchRecordRead_unreadable (q : Nat) (s : State) (hr : readsNext s (s.queue q) = true)
    (hb : fetchBytes s (s.queue q).ctx (slotAddr (s.queue q) (s.queue q).ridx.toNat) 128 [] = .unreadable) :
    (launchRecordRead q s).queue q =
      { s.queue q with ridx := (s.queue q).ridx + 1, last := 1, rfault := true, lastGrid := none } := by
  unfold launchRecordRead
  rw [readsNext, Bool.not_eq_true'] at hr
  dsimp only
  rw [if_neg (by rw [hr]; exact Bool.false_ne_true), hb]
  show (s.modQueue q fun x => { x with ridx := x.ridx + 1, last := 1, rfault := true, lastGrid := none }).queue q = _
  exact State.queue_modQueue s q _

/-- What a refusal writes at once: the reason, and LAST of the queue. -/
def noteReason (gid reason : Nat) (s : State) : State :=
  (s.modGrid gid fun g => { g with reason := reason }).modQueue (s.grid gid).queue fun q => { q with last := reason }

theorem noteReason_frame (gid reason : Nat) (s : State) :
    (noteReason gid reason s).grid gid = { s.grid gid with reason := reason }
      ∧ (noteReason gid reason s).queue (s.grid gid).queue = { s.queue (s.grid gid).queue with last := reason } := by
  unfold noteReason
  simp only [State.queue_modQueue, State.grid_modQueue, State.grid_modGrid, State.queue_modGrid, and_self]

/-- A refused grid has its reason, its queue tells it, and its completion is to come. -/
theorem refuseGrid_frame (gid reason : Nat) (s : State) :
    (refuseGrid gid reason s).grid gid = { s.grid gid with reason := reason }
      ∧ (refuseGrid gid reason s).queue (s.grid gid).queue = { s.queue (s.grid gid).queue with last := reason }
      ∧ .gridComplete gid ∈ (refuseGrid gid reason s).events := by
  have hn := noteReason_frame gid reason s
  refine ⟨?_, ?_, List.mem_append_right _ (List.mem_singleton.mpr rfl)⟩
  · refine Eq.trans ?_ hn.1
    unfold refuseGrid
    dsimp only
    split
    · split <;> rfl
    · rfl
  · refine Eq.trans ?_ hn.2
    unfold refuseGrid
    dsimp only
    split
    · split <;> rfl
    · rfl

/-- The state with a record's grid entered, before its check. -/
def enterRecord (q : Nat) (r : LaunchRec) (s : State) : State :=
  let x := s.queue q
  let g : Grid := { queue := q, part := x.part, vf := x.vf, lrec := r, state := .copied, prev := x.lastGrid }
  ({ s with nextGrid := (s.nextGrid + 1) % 2 ^ 32, grids := tset {} s.grids s.nextGrid g }).modQueue q fun x =>
    { x with ridx := x.ridx + 1, grids := x.grids ++ [s.nextGrid], lastGrid := some s.nextGrid }

theorem enterRecord_grid (q : Nat) (r : LaunchRec) (s : State) :
    (enterRecord q r s).grid s.nextGrid =
      { queue := q, part := (s.queue q).part, vf := (s.queue q).vf, lrec := r, state := .copied, prev := (s.queue q).lastGrid } :=
  tget_tset_same _ _ _ _

theorem enterRecord_queue (q : Nat) (r : LaunchRec) (s : State) :
    (enterRecord q r s).queue q =
      { s.queue q with
        ridx := (s.queue q).ridx + 1, grids := (s.queue q).grids ++ [s.nextGrid], lastGrid := some s.nextGrid } := by
  unfold enterRecord
  exact State.queue_modQueue _ q _

/-- A record that is read enters its grid; one that is not valid refuses it at once. -/
theorem launchRecordRead_bytes (q : Nat) (s : State) (hr : readsNext s (s.queue q) = true) (b : List Byte)
    (hb : fetchBytes s (s.queue q).ctx (slotAddr (s.queue q) (s.queue q).ridx.toNat) 128 [] = .bytes b) :
    (launchRecordRead q s).queue q = { s.queue q with
        ridx := (s.queue q).ridx + 1, grids := (s.queue q).grids ++ [s.nextGrid], lastGrid := some s.nextGrid
        last := (if postCheck (parseRec b) = 0 then (s.queue q).last else postCheck (parseRec b)) }
      ∧ (launchRecordRead q s).grid s.nextGrid =
        { queue := q, part := (s.queue q).part, vf := (s.queue q).vf, lrec := parseRec b, state := .copied,
          reason := postCheck (parseRec b), prev := (s.queue q).lastGrid } := by
  have hread : launchRecordRead q s =
      if postCheck (parseRec b) ≠ 0 then refuseGrid s.nextGrid (postCheck (parseRec b)) (enterRecord q (parseRec b) s)
      else match lateAbort s.nextGrid (enterRecord q (parseRec b) s) with
        | some rank =>
          { enterRecord q (parseRec b) s with
            events := (enterRecord q (parseRec b) s).events ++ [.abort (parseRec b).gtag.toNat rank] }
        | none => enterRecord q (parseRec b) s := by
    unfold launchRecordRead
    rw [readsNext, Bool.not_eq_true'] at hr
    dsimp only
    rw [if_neg (by rw [hr]; exact Bool.false_ne_true), hb]
    rfl
  have hg := enterRecord_grid q (parseRec b) s
  have hq := enterRecord_queue q (parseRec b) s
  rw [hread]
  by_cases hp : postCheck (parseRec b) = 0
  · rw [if_neg (not_not.mpr hp), if_pos hp, hp]
    split
    · exact ⟨hq, hg⟩
    · exact ⟨hq, hg⟩
  · rw [if_pos hp, if_neg hp]
    obtain ⟨rg, rq, -⟩ := refuseGrid_frame s.nextGrid (postCheck (parseRec b)) (enterRecord q (parseRec b) s)
    rw [hg] at rg rq
    exact ⟨rq.trans (by rw [hq]), rg⟩

/-! ### Readiness -/

/-- A grid whose dependences are met and whose reads have answered comes to its dispatch checks. -/
theorem gridReady_checked (gid : Nat) (s : State) (d : Decl) (hm : mayReady s (s.grid gid) = true)
    (ha : depMet s (s.grid gid).ctx (s.grid gid).lrec.dep0a (s.grid gid).lrec.dep0v = some true)
    (hb : depMet s (s.grid gid).ctx (s.grid gid).lrec.dep1a (s.grid gid).lrec.dep1v = some true)
    (hh : heapsReady s (s.grid gid) = .ok) (hd : readDesc s (s.grid gid) = some d) :
    gridReady gid s =
      if dispatchCheck s (s.grid gid) ≠ 0 then
        clearFailed (s.grid gid).vf (refuseGrid gid (dispatchCheck s (s.grid gid)) s)
      else
        let s' := s.modGrid gid fun g => { g with state := .ready, decl := (readDesc s g).getD {} }
        { s' with events := s'.events ++ (if (s.grid gid).lrec.nheap = 0 then [] else [.heapBind gid])
            ++ if (s.grid gid).lrec.isGang then [.gangPrepare gid] else [] } := by
  have hs : descStalled s (s.grid gid) = false := by
    unfold readDesc at hd
    unfold descStalled
    split at hd
    · next h => rw [h]; rfl
    · exact absurd hd (by simp)
  unfold gridReady
  dsimp only
  rw [hm, ha, hb, hh, hs]
  rfl

theorem dispatchCheck_pass (s : State) (g : Grid) (d : Decl) (hh : heapsReady s g = .ok) (hd : readDesc s g = some d)
    (ht : tooLarge s g d = false) (hg : groupBusy s g = false) : dispatchCheck s g = 0 := by
  simp [dispatchCheck, hd, ht, hh, hg]

theorem dispatchCheck_large (s : State) (g : Grid) (d : Decl) (hd : readDesc s g = some d) (ht : tooLarge s g d = true) :
    dispatchCheck s g = 4 := by
  simp [dispatchCheck, hd, ht]

/-- A grid that passes its dispatch checks is ready with its declaration. -/
theorem gridReady_pass (gid : Nat) (s : State) (d : Decl) (hm : mayReady s (s.grid gid) = true)
    (ha : depMet s (s.grid gid).ctx (s.grid gid).lrec.dep0a (s.grid gid).lrec.dep0v = some true)
    (hb : depMet s (s.grid gid).ctx (s.grid gid).lrec.dep1a (s.grid gid).lrec.dep1v = some true)
    (hh : heapsReady s (s.grid gid) = .ok) (hd : readDesc s (s.grid gid) = some d)
    (ht : tooLarge s (s.grid gid) d = false) (hg : groupBusy s (s.grid gid) = false) :
    (gridReady gid s).grid gid = { s.grid gid with state := .ready, decl := d } := by
  rw [gridReady_checked gid s d hm ha hb hh hd, if_neg (not_not.mpr (dispatchCheck_pass s _ d hh hd ht hg))]
  show (s.modGrid gid fun g => { g with state := .ready, decl := (readDesc s g).getD {} }).grid gid = _
  rw [State.grid_modGrid, hd]
  rfl

/-- A grid that fits no empty partition is refused with reason 4. -/
theorem gridReady_large (gid : Nat) (s : State) (d : Decl) (hm : mayReady s (s.grid gid) = true)
    (ha : depMet s (s.grid gid).ctx (s.grid gid).lrec.dep0a (s.grid gid).lrec.dep0v = some true)
    (hb : depMet s (s.grid gid).ctx (s.grid gid).lrec.dep1a (s.grid gid).lrec.dep1v = some true)
    (hh : heapsReady s (s.grid gid) = .ok) (hd : readDesc s (s.grid gid) = some d) (ht : tooLarge s (s.grid gid) d = true) :
    ((gridReady gid s).grid gid).reason = 4 ∧ ((gridReady gid s).queue (s.grid gid).queue).last = 4
      ∧ .gridComplete gid ∈ (gridReady gid s).events := by
  rw [gridReady_checked gid s d hm ha hb hh hd, dispatchCheck_large s _ d hd ht, if_pos (by decide)]
  obtain ⟨rg, rq, re⟩ := refuseGrid_frame gid 4 s
  exact ⟨congrArg Grid.reason rg, congrArg QueueReg.last rq, re⟩

end Sys2Proof.Machine
end

section
/-! SUPPORT. The dispatch of a crew (R48, R270, R356): what is placed, and what stays. -/

namespace Sys2Proof.Machine
open Sys2Proof

/-! ### Strands as they are placed -/

theorem State.strand_setStrand (s : State) (i j : Nat) (m : Strand) : (s.setStrand i m).strand j = if j = i then m else s.strand j := by
  unfold State.setStrand
  split
  · next h =>
    subst h
    simp only [State.strand]
    split_ifs <;> rfl
  · next h =>
    simp only [State.strand, tget_tset]
    by_cases hj : j = i
    · subst hj
      simp [h]
    · simp [hj]

/-- A fold that sets strands changes strands alone. -/
theorem foldl_setStrand_frame {β : Type} (key : β → Nat) (f : β → Strand) (l : List β) (s : State) :
    ∃ m o, l.foldl (fun s e => s.setStrand (key e) (f e)) s = { s with me := m, others := o } := by
  refine foldl_keeps (fun t : State => ∃ m o, t = { s with me := m, others := o }) _ (fun t e ht => ?_) l s ⟨s.me, s.others, rfl⟩
  obtain ⟨m, o, rfl⟩ := ht
  unfold State.setStrand
  split
  · exact ⟨f e, o, rfl⟩
  · exact ⟨m, _, rfl⟩

theorem foldl_setStrand_other {β : Type} (key : β → Nat) (f : β → Strand) (j : Nat) (l : List β) (h : ∀ e ∈ l, key e ≠ j) :
    ∀ s : State, (l.foldl (fun s e => s.setStrand (key e) (f e)) s).strand j = s.strand j := by
  induction l with
  | nil => exact fun s => rfl
  | cons e l ih =>
    intro s
    rw [List.foldl_cons, ih (fun x hx => h x (List.mem_cons_of_mem _ hx)), State.strand_setStrand,
      if_neg (Ne.symm (h e List.mem_cons_self))]

/-- Each strand of a list without repetition is as it has been set. -/
theorem foldl_setStrand_mem {β : Type} (key : β → Nat) (f : β → Strand) (l : List β) (hn : (l.map key).Nodup) (e : β) (he : e ∈ l) :
    ∀ s : State, (l.foldl (fun s e => s.setStrand (key e) (f e)) s).strand (key e) = f e := by
  induction l with
  | nil => exact absurd he List.not_mem_nil
  | cons x l ih =>
    intro s
    rw [List.map_cons, List.nodup_cons] at hn
    obtain ⟨hx, hl⟩ := hn
    rw [List.foldl_cons]
    rcases List.mem_cons.mp he with rfl | he
    · rw [foldl_setStrand_other key f _ l (fun y hy h => hx (List.mem_map.mpr ⟨y, hy, h⟩)), State.strand_setStrand, if_pos rfl]
    · exact ih hl he _

/-- The numbers of a new crew's strands with their slots. -/
def newPlaces (cid n : Nat) (slots : List Nat) : List (Nat × Nat) := ((List.range n).map (sidOf cid)).zip slots

theorem newPlaces_nodup (cid n : Nat) (slots : List Nat) (h : n ≤ slots.length) : ((newPlaces cid n slots).map (·.1)).Nodup := by
  rw [newPlaces, List.map_fst_zip (by simpa using h)]
  refine List.Nodup.map (fun a b hab => ?_) List.nodup_range
  unfold sidOf at hab
  omega

theorem mem_newPlaces (cid n : Nat) (slots : List Nat) (h : n ≤ slots.length) {i : Nat} (hi : i < n) :
    ∃ slot, (sidOf cid i, slot) ∈ newPlaces cid n slots := by
  refine ⟨slots[i], ?_⟩
  rw [newPlaces, List.mem_iff_getElem]
  exact ⟨i, by simp; omega, by simp⟩

/-! ### The placement -/

theorem saveLazies_none (but v : Nat) (handled : Bool) (u : CoreUnit) (s : State) (h : ∀ e ∈ s.crews, e.2.lazy = false) :
    saveLazies but v handled u s = s := by
  unfold saveLazies
  rw [List.filter_eq_nil_iff.mpr (fun e he => by simp [Crew.stays, h e he])]
  rfl

/-- A new crew as it is placed at offsets `o`, `cb` and `lb` of the arena, the scratchpad and the lane-local memory. -/
def newCrew (s : State) (gid idx : Nat) (u : CoreUnit) (run : RunState) (o cb lb : Nat) : Crew :=
  let g := s.grid gid
  let d := g.decl
  { grid := gid, index := idx, kdesc := g.lrec.kernel, decl := d, core := u.1, half := u.2
    state := if run = .absent then .reserved else .resident, cspBase := cb, llBase := lb
    sids := (List.range d.strands).map (sidOf s.nextCrew)
    bands := tset 0 [] 0 (BitVec.ofNat 32 (2 ^ d.strands - 1))
    barriers := []
    freeRows := List.replicate (d.quota - d.strands * d.vheld * (d.vlmax / 32)) ([], false)
    tstart := s.cycle, charged := s.cycle, dispatchNo := s.serial, image := (s.vf g.vf).savebase + word o }

/-- The crew's entry, its arena and its cleared slices. -/
def openCrew (s : State) (gid idx : Nat) (u : CoreUnit) (run : RunState) (o cb lb : Nat) : State :=
  let g := s.grid gid
  let d := g.decl
  let cid := s.nextCrew
  let s' := { s with nextCrew := cid + 1, serial := s.serial + 1, crews := tset {} s.crews cid (newCrew s gid idx u run o cb lb) }
  clearKeys (cspKey (clusterOf u.1) cb) d.csp (clearKeys (laneKey u.1 lb) d.laneBytes (reserveRoom g.vf o (imageRoom d) cid s'))

/-- The crew with its strands. -/
def startCrew (s : State) (gid idx : Nat) (u : CoreUnit) (run : RunState) (o cb lb : Nat) : State :=
  let g := s.grid gid
  (newPlaces s.nextCrew g.decl.strands ((freeSlotsOf s u).take g.decl.strands)).foldl
    (fun t e => t.setStrand e.1 (newStrand g g.decl s.nextCrew (e.1 - 16 * s.nextCrew) u e.2 run)) (openCrew s gid idx u run o cb lb)

/-- What the grid and the partition note of a dispatch. -/
def noteDispatch (s : State) (gid : Nat) (u : CoreUnit) (t : State) : State :=
  (firstDispatch (s.grid gid).part (dropLines u.1 t)).modGrid gid fun g => { g with dispatched := g.dispatched + 1, noRoom := none, owed := false }

/-- A placement where no lazily saved crew stands in the way. -/
theorem placeCrew_eq (s : State) (gid idx : Nat) (u : CoreUnit) (run : RunState) (o cb lb : Nat) (hl : ∀ e ∈ s.crews, e.2.lazy = false)
    (ho : arenaRoom s (s.grid gid).vf (imageRoom (s.grid gid).decl) = some o)
    (hc : roomAt (cspHeld s (clusterOf u.1)) (2 ^ 32) (s.grid gid).decl.csp = some cb)
    (hb : roomAt (laneHeld s u.1) (2 ^ 32) (s.grid gid).decl.laneBytes = some lb) :
    placeCrew gid idx u run s = some (assaySelect s.nextCrew (noteDispatch s gid u (startCrew s gid idx u run o cb lb))) := by
  unfold placeCrew
  dsimp only
  rw [saveLazies_none _ _ _ _ _ hl, ho, hc, hb]
  rfl

theorem assaySelect_off (cid : Nat) (s : State) (h : s.assayer.en = false) : assaySelect cid s = s := by
  unfold assaySelect
  simp [h]

/-! ### What stands after the placement -/

theorem clearKeys_home (k n : Nat) (s : State) (j : Nat) : (clearKeys k n s).home j = if k ≤ j ∧ j < k + n then 0 else s.home j :=
  tget_zeroRange _ _ _ _

/-- A dispatch's notes leave crews and strands and memory, and count the crew. -/
theorem noteDispatch_frame (s : State) (gid : Nat) (u : CoreUnit) (t : State) :
    (noteDispatch s gid u t).crews = t.crews ∧ (∀ i, (noteDispatch s gid u t).strand i = t.strand i) ∧ (noteDispatch s gid u t).mem = t.mem
      ∧ (noteDispatch s gid u t).assayer = t.assayer ∧ ((noteDispatch s gid u t).grid gid).dispatched = (t.grid gid).dispatched + 1 := by
  have hf : ∃ ps, firstDispatch (s.grid gid).part (dropLines u.1 t) = { dropLines u.1 t with parts := ps } := by
    unfold firstDispatch
    split
    · exact ⟨_, rfl⟩
    · exact ⟨t.parts, rfl⟩
  obtain ⟨ps, hp⟩ := hf
  unfold noteDispatch
  rw [hp]
  refine ⟨rfl, fun _ => rfl, rfl, rfl, ?_⟩
  rw [State.grid_modGrid]
  rfl

/-- A started crew: its entry, its strands, and slices of zero. -/
theorem startCrew_frame (s : State) (gid idx : Nat) (u : CoreUnit) (run : RunState) (o cb lb : Nat)
    (hs : (s.grid gid).decl.strands ≤ (freeSlotsOf s u).length) :
    let t := startCrew s gid idx u run o cb lb
    t.crew s.nextCrew = newCrew s gid idx u run o cb lb
      ∧ (∀ i < (s.grid gid).decl.strands, ∃ slot, t.strand (sidOf s.nextCrew i) = newStrand (s.grid gid) (s.grid gid).decl s.nextCrew i u slot run)
      ∧ (∀ j < (s.grid gid).decl.csp, t.home (cspKey (clusterOf u.1) (cb + j)) = 0)
      ∧ (∀ j < (s.grid gid).decl.laneBytes, t.home (laneKey u.1 (lb + j)) = 0)
      ∧ t.grids = s.grids ∧ t.assayer = s.assayer := by
  intro t
  have hlen : (s.grid gid).decl.strands ≤ ((freeSlotsOf s u).take (s.grid gid).decl.strands).length := by
    rw [List.length_take]
    omega
  obtain ⟨m, ot, ht⟩ := foldl_setStrand_frame (fun e : Nat × Nat => e.1)
    (fun e => newStrand (s.grid gid) (s.grid gid).decl s.nextCrew (e.1 - 16 * s.nextCrew) u e.2 run)
    (newPlaces s.nextCrew (s.grid gid).decl.strands ((freeSlotsOf s u).take (s.grid gid).decl.strands)) (openCrew s gid idx u run o cb lb)
  have home : ∀ j, t.home j = (openCrew s gid idx u run o cb lb).home j := fun j => by
    show tget 0 (startCrew s gid idx u run o cb lb).mem j = _
    rw [startCrew, ht]
    rfl
  refine ⟨?_, fun i hi => ?_, fun j hj => ?_, fun j hj => ?_, ?_, ?_⟩
  · show tget {} (startCrew s gid idx u run o cb lb).crews s.nextCrew = _
    rw [startCrew, ht]
    exact tget_tset_same _ _ _ _
  · obtain ⟨slot, hm⟩ := mem_newPlaces s.nextCrew _ _ hlen hi
    have h := foldl_setStrand_mem (fun e : Nat × Nat => e.1)
      (fun e => newStrand (s.grid gid) (s.grid gid).decl s.nextCrew (e.1 - 16 * s.nextCrew) u e.2 run)
      (newPlaces s.nextCrew (s.grid gid).decl.strands ((freeSlotsOf s u).take (s.grid gid).decl.strands))
      (newPlaces_nodup _ _ _ hlen) _ hm (openCrew s gid idx u run o cb lb)
    refine ⟨slot, h.trans ?_⟩
    rw [show sidOf s.nextCrew i - 16 * s.nextCrew = i from Nat.add_sub_cancel_left ..]
  · rw [home, openCrew, clearKeys_home]
    exact if_pos (by unfold cspKey; omega)
  · rw [home, openCrew, clearKeys_home, clearKeys_home]
    split
    · rfl
    · exact if_pos (by unfold laneKey; omega)
  · show (startCrew s gid idx u run o cb lb).grids = _
    rw [startCrew, ht]
    rfl
  · show (startCrew s gid idx u run o cb lb).assayer = _
    rw [startCrew, ht]
    rfl

/-- The notes on crews without room concern no more than grids, and of those their marks alone. -/
theorem noteNoRoom_frame (p : Nat) (s : State) :
    ∃ gs, noteNoRoom p s = { s with grids := gs } ∧ ∀ k, ∃ n, tget {} gs k = { s.grid k with noRoom := n } := by
  have mark : ∀ (t : State) (g : Nat) (f : Option Nat → Option Nat),
      (∃ gs, t = { s with grids := gs } ∧ ∀ k, ∃ n, tget {} gs k = { s.grid k with noRoom := n }) →
      ∃ gs, t.modGrid g (fun x => { x with noRoom := f x.noRoom }) = { s with grids := gs }
        ∧ ∀ k, ∃ n, tget {} gs k = { s.grid k with noRoom := n } := by
    rintro t g f ⟨gs, rfl, h⟩
    refine ⟨_, rfl, fun k => ?_⟩
    obtain ⟨n, hn⟩ := h k
    by_cases hk : k = g
    · subst hk
      exact ⟨f n, by rw [tget_tmod_same, hn]⟩
    · exact ⟨n, by rw [tget_tmod_other _ _ _ hk, hn]⟩
  unfold noteNoRoom
  refine foldl_keeps (fun t : State => ∃ gs, t = { s with grids := gs } ∧ ∀ k, ∃ n, tget {} gs k = { s.grid k with noRoom := n }) _
    (fun t e ht => ?_) s.queues s ⟨s.grids, rfl, fun k => ⟨(s.grid k).noRoom, rfl⟩⟩
  split
  · split
    · next g _ =>
      split
      · exact mark t g (fun o => o.or (some t.cycle)) ht
      · exact mark t g (fun _ => none) ht
    · exact ht
  · exact ht

/-- The turn of a fresh crew: it is placed, and the queues' marks follow. -/
theorem crewDispatch_fresh (p gid : Nat) (s s1 : State) (hd : dispatches s p = true) (hw : ∀ e ∈ s.grids, e.2.owed = false)
    (hc : chooseCrew p 16 (chargeAll p s) = (some (.fresh gid), s1)) :
    crewDispatch p s = noteNoRoom p ((dispatchNext gid .running s1).getD s1) := by
  have howed : s.grids.find? (fun e => e.2.part = p && e.2.owed && offersFresh s e.2 && mayRun s e.2 && (dispatchNext e.1 .running s).isSome) = none :=
    List.find?_eq_none.mpr fun e he => by simp [hw e he]
  unfold crewDispatch
  dsimp only
  rw [if_neg (by simp [hd]), howed, hc]

/-- A fresh crew that has a place is dispatched there. -/
theorem dispatchNext_eq (s : State) (gid : Nat) (u : CoreUnit) (o cb lb : Nat)
    (hp : placeFor s (s.grid gid).part (s.grid gid).decl = some u) (hl : ∀ e ∈ s.crews, e.2.lazy = false)
    (ho : arenaRoom s (s.grid gid).vf (imageRoom (s.grid gid).decl) = some o)
    (hc : roomAt (cspHeld s (clusterOf u.1)) (2 ^ 32) (s.grid gid).decl.csp = some cb)
    (hb : roomAt (laneHeld s u.1) (2 ^ 32) (s.grid gid).decl.laneBytes = some lb)
    (hs : (s.grid gid).decl.strands ≤ (freeSlotsOf s u).length) (ha : s.assayer.en = false) :
    dispatchNext gid .running s = some (noteDispatch s gid u (startCrew s gid (s.grid gid).dispatched u .running o cb lb)) := by
  obtain ⟨-, -, -, -, -, sa⟩ := startCrew_frame s gid (s.grid gid).dispatched u .running o cb lb hs
  obtain ⟨-, -, -, na, -⟩ := noteDispatch_frame s gid u (startCrew s gid (s.grid gid).dispatched u .running o cb lb)
  unfold dispatchNext
  dsimp only
  rw [hp, Option.bind_some, placeCrew_eq s gid _ u .running o cb lb hl ho hc hb, assaySelect_off _ _ (by rw [na, sa]; exact ha)]

/-- What a dispatch leaves: the crew's entry, its strands, slices of zero, and the count of its grid. -/
theorem dispatched_frame (p gid idx : Nat) (u : CoreUnit) (o cb lb : Nat) (s : State)
    (hs : (s.grid gid).decl.strands ≤ (freeSlotsOf s u).length) :
    let t := noteNoRoom p (noteDispatch s gid u (startCrew s gid idx u .running o cb lb))
    (t.grid gid).dispatched = (s.grid gid).dispatched + 1
      ∧ t.crew s.nextCrew = newCrew s gid idx u .running o cb lb
      ∧ (∀ i < (s.grid gid).decl.strands, ∃ slot,
        t.strand (16 * s.nextCrew + i) = newStrand (s.grid gid) (s.grid gid).decl s.nextCrew i u slot .running)
      ∧ (∀ j < (s.grid gid).decl.csp, t.home (cspKey (clusterOf u.1) (cb + j)) = 0)
      ∧ ∀ j < (s.grid gid).decl.laneBytes, t.home (laneKey u.1 (lb + j)) = 0 := by
  obtain ⟨sc, ss, sp, sl, sg, -⟩ := startCrew_frame s gid idx u .running o cb lb hs
  obtain ⟨nc, ns, nm, -, nd⟩ := noteDispatch_frame s gid u (startCrew s gid idx u .running o cb lb)
  obtain ⟨gs, he, hk⟩ := noteNoRoom_frame p (noteDispatch s gid u (startCrew s gid idx u .running o cb lb))
  dsimp only
  rw [he]
  refine ⟨?_, (congrArg (fun t => tget ({} : Crew) t s.nextCrew) nc).trans sc, fun i hi => ?_, fun j hj => ?_, fun j hj => ?_⟩
  · obtain ⟨n, hn⟩ := hk gid
    refine (congrArg Grid.dispatched hn).trans (nd.trans ?_)
    rw [State.grid, sg]
    rfl
  · obtain ⟨slot, h⟩ := ss i hi
    exact ⟨slot, (ns _).trans h⟩
  · exact (congrArg (fun m => tget 0 m (cspKey (clusterOf u.1) (cb + j))) nm).trans (sp j hj)
  · exact (congrArg (fun m => tget 0 m (laneKey u.1 (lb + j))) nm).trans (sl j hj)

end Sys2Proof.Machine
end

section
/-! SUPPORT. Yields, pre-emption for a level, and the reservation of gangs (R279, R357, R363). -/

namespace Sys2Proof.Machine
open Sys2Proof

/-! ### Yields -/

theorem foldl_max_le (f : Nat → Nat) (b : Nat) (l : List Nat) (h : ∀ i ∈ l, f i ≤ b) : ∀ a ≤ b, l.foldl (fun n i => max n (f i)) a ≤ b := by
  induction l with
  | nil => exact fun a ha => ha
  | cons i l ih =>
    intro a ha
    exact ih (fun j hj => h j (List.mem_cons_of_mem _ hj)) _ (max_le ha (h i List.mem_cons_self))

/-- A crew whose strands have all been blocked for `y` cycles has been blocked for so long. -/
theorem blockedSince_of (s : State) (c : Crew) (y : Nat) (hr : ∃ i ∈ c.sids, (s.strand i).run = .running)
    (hb : ∀ i ∈ c.sids, (s.strand i).run = .running → ∃ w, (s.strand i).blockedFrom = some w ∧ w + y ≤ s.cycle) :
    ∃ t, blockedSince s c = some t ∧ t + y ≤ s.cycle := by
  obtain ⟨i, hi, hrun⟩ := hr
  have hy : y ≤ s.cycle := by
    obtain ⟨w, -, hw⟩ := hb i hi hrun
    omega
  have hlive : ∀ j ∈ c.sids.filter (fun i => (s.strand i).run = .running), ∃ w, (s.strand j).blockedFrom = some w ∧ w + y ≤ s.cycle := by
    intro j hj
    obtain ⟨hm, hd⟩ := List.mem_filter.mp hj
    exact hb j hm (of_decide_eq_true hd)
  have hne : c.sids.filter (fun i => (s.strand i).run = .running) ≠ [] :=
    List.ne_nil_of_mem (List.mem_filter.mpr ⟨hi, decide_eq_true hrun⟩)
  refine ⟨_, if_pos ?_, ?_⟩
  · rw [Bool.and_eq_true, List.all_eq_true]
    refine ⟨decide_eq_true hne, fun j hj => ?_⟩
    obtain ⟨w, hw, -⟩ := hlive j hj
    rw [Strand.blocked, hw]
    rfl
  · refine Nat.add_le_of_le_sub hy (foldl_max_le (fun i => (s.strand i).blockedFrom.getD 0) (s.cycle - y) _ (fun j hj => ?_) 0 (Nat.zero_le _))
    obtain ⟨w, hw, hle⟩ := hlive j hj
    rw [hw, Option.getD_some]
    omega

theorem longestBlocked_single (s : State) (gid cid : Nat) (c : Crew) (h : residentOf s gid = [(cid, c)]) :
    longestBlocked s gid = some (cid, c) := by
  rw [longestBlocked, h]
  rfl

theorem yieldDue_single (s : State) (gid cid : Nat) (c : Crew) (h : residentOf s gid = [(cid, c)]) (ho : offersFresh s (s.grid gid) = true)
    (hb : ∃ t, blockedSince s c = some t ∧ t + (s.grid gid).lrec.yieldCycles ≤ s.cycle) : yieldDue s gid = true := by
  obtain ⟨t, ht, hle⟩ := hb
  simp [yieldDue, h, ho, ht, hle]

/-- Crew `cid` is asked to make room for the next crew of its grid. -/
def askRoom (gid cid : Nat) (isLazy : Bool) (s : State) : State :=
  let t := (s.modCrew cid fun c => { c with yields := true, wantLazy := isLazy }).modGrid gid fun g => { g with owed := true }
  { t with events := t.events ++ [.preemptRequest cid] }

theorem askRoom_crew (gid cid : Nat) (isLazy : Bool) (s : State) :
    (askRoom gid cid isLazy s).crew cid = { s.crew cid with yields := true, wantLazy := isLazy } := by
  show tget {} (tmod {} s.crews cid fun c => { c with yields := true, wantLazy := isLazy }) cid = _
  exact tget_tmod_same _ _ _ _

theorem askRoom_grid (gid cid : Nat) (isLazy : Bool) (s : State) :
    (askRoom gid cid isLazy s).grid gid = { s.grid gid with owed := true } := by
  show tget {} (tmod {} s.grids gid fun g => { g with owed := true }) gid = _
  exact tget_tmod_same _ _ _ _

/-- Where the grid's only resident crew is blocked for long enough and no crew fits beside it, it is pre-empted to make room. -/
theorem yieldThreshold_makesRoom (s : State) (gid cid : Nat) (c : Crew) (h : residentOf s gid = [(cid, c)]) (hy : yieldDue s gid = true)
    (hd : dispatches s (s.grid gid).part = true) (hm : mayRun s (s.grid gid) = true) (how : (s.grid gid).owed = false)
    (hn : dispatchNext gid .running s = none) :
    (yieldThreshold gid s).events = s.events ++ [.preemptRequest cid] ∧ ((yieldThreshold gid s).grid gid).owed = true
      ∧ ((yieldThreshold gid s).crew cid).yields = true
      ∧ (bitsOf (s.grid gid).lrec.handler 5 0 = 0 → ((yieldThreshold gid s).crew cid).wantLazy = false) := by
  have e : yieldThreshold gid s = askRoom gid cid (bitsOf (s.grid gid).lrec.handler 5 0 ≠ 0
      && lazySuffices s (s.grid gid).part (s.grid gid).vf (s.grid gid).decl (c.core, c.half) [cid]) s := by
    unfold yieldThreshold
    dsimp only
    rw [if_neg (by simp [hy, hd, hm, how]), hn, longestBlocked_single s gid cid c h]
    rfl
  rw [e, askRoom_crew, askRoom_grid]
  exact ⟨rfl, rfl, rfl, fun h0 => by simp [h0]⟩

/-! ### Pre-emption for a level -/

theorem preemptOn_events (gid : Nat) (d : Decl) (u : CoreUnit) (vs : List Nat) (s : State) :
    (preemptOn gid d u vs s).events = s.events ++ vs.map Event.preemptRequest := by
  unfold preemptOn
  refine congrArg (· ++ vs.map Event.preemptRequest) (foldl_same State.events _ (fun t c => ?_) vs s)
  split <;> rfl

/-- Where one grid has found no room for 1024 cycles and one unit can make it, its victims are asked to stop. -/
theorem priorityPreempt_events (q gid : Nat) (u : CoreUnit) (vs : List Nat) (n : Nat) (s : State) (hp : (s.queue q).preempt = true)
    (hg : (s.queue q).grids = [gid]) (hn : (s.grid gid).noRoom = some n) (hc : n + 1024 ≤ s.cycle) (hr : readyOf s q = none)
    (hcr : readyCrews s gid = []) (hcm : roomComing s (s.queue q).part (s.grid gid).decl = false) (hu : unitsOf s (s.queue q).part = [u])
    (hv : neededOn s (s.queue q).part (s.queue q).prio (s.grid gid).decl u = some vs) :
    (priorityPreempt q s).events = s.events ++ vs.map Event.preemptRequest := by
  have e : priorityPreempt q s = preemptOn gid (s.grid gid).decl u vs s := by
    unfold priorityPreempt
    simp [hg, hn, reached, hc, hcr, hp, hr, hcm, hu, hv]
  rw [e, preemptOn_events]

/-! ### The reservation of a gang -/

@[simp] theorem gang_modGang (t : Nat) (f : Gang → Gang) (s : State) : gang (modGang t f s) t = f (gang s t) := tget_tmod_same _ _ _ _

/-- The gang's entry and its grid's state once its places are held. -/
def holdPlaces (gid : Nat) (r : LaunchRec) (s : State) : State :=
  modGang r.gtag.toNat (fun x => { x with
      grid := some gid, size := r.size, rank := r.rank, cgroup := r.cgroup, eager := r.eager, since := s.cycle })
    (s.modGrid gid fun g => { g with state := .reserved })

theorem holdPlaces_grid (gid : Nat) (r : LaunchRec) (s : State) : ((holdPlaces gid r s).grid gid).state = .reserved :=
  congrArg Grid.state (State.grid_modGrid s gid fun g => { g with state := .reserved })

theorem holdPlaces_gang (gid : Nat) (r : LaunchRec) (s : State) :
    (gang (holdPlaces gid r s) r.gtag.toNat).grid = some gid ∧ (gang (holdPlaces gid r s) r.gtag.toNat).since = s.cycle
      ∧ (gang (holdPlaces gid r s) r.gtag.toNat).rank = r.rank := by
  unfold holdPlaces
  simp only [gang_modGang, and_self]

/-- A gang's grid that is not eager and has places for all its crews is reserved, and its rank reports so. -/
theorem reserveGang_reserves (gid : Nat) (s u : State) (r : LaunchRec) (hr : (s.grid gid).lrec = r) (he : r.eager = false)
    (hd : dispatchAll gid .absent r.crews s = some u) :
    reserveGang gid s =
      if r.rank = 0 then { holdPlaces gid r u with events := u.events ++ [.prepared r.gtag.toNat 0] }
      else { holdPlaces gid r u with outbox := u.outbox ++ [.prepared r.gtag.toNat r.rank] } := by
  unfold reserveGang
  dsimp only
  rw [hr, he, if_neg Bool.false_ne_true, hd]
  dsimp only
  rw [if_neg Bool.false_ne_true]
  unfold holdPlaces
  rw [he]
  rfl

theorem gangPrepare_reserves (gid : Nat) (s s1 : State) (hs : (s.grid gid).state = .ready) (hg : (s.grid gid).lrec.isGang = true)
    (hd : dispatches s (s.grid gid).part = true)
    (hc : chooseCrew (s.grid gid).part 16 (chargeAll (s.grid gid).part s) = (some (.whole gid), s1)) :
    gangPrepare gid s = reserveGang gid s1 := by
  unfold gangPrepare
  dsimp only
  rw [if_neg (by simp [hs, hg, hd]), hc]
  exact if_pos rfl

end Sys2Proof.Machine
end

section
/-! SUPPORT. Gangs (R363, R364, R445 to R447): what their events leave of entries, crews, groups and messages. -/

namespace Sys2Proof.Machine
open Sys2Proof

/-! ### Notices -/

/-- Nothing but the home part and the rings has changed. -/
def NoticeOnly (s t : State) : Prop := ∃ p r, t = { s.withHome p with ras := r }

theorem HomeOnly.noticeOnly {s t : State} (h : HomeOnly s t) : NoticeOnly s t := by
  obtain ⟨p, rfl⟩ := h
  exact ⟨p, s.ras, rfl⟩

theorem noticeOnly_ras (s : State) (r : Ras) : NoticeOnly s { s with ras := r } :=
  ⟨⟨s.mem, s.mpois, s.old, s.l1, s.stash, s.sbuf, s.rstores, s.me.links, s.others⟩, r, rfl⟩

theorem noticeOnly_trans {s t u : State} (h : NoticeOnly s t) (k : NoticeOnly t u) : NoticeOnly s u := by
  obtain ⟨p, r, rfl⟩ := h
  obtain ⟨p', r', rfl⟩ := k
  exact ⟨p', r', rfl⟩

theorem postCasien_noticeOnly (n : Notice) (s : State) : NoticeOnly s (postCasien n s) := by
  unfold postCasien writeSteward
  dsimp only
  split
  · split
    · exact noticeOnly_trans (noticeOnly_ras s _) (homeWrite_homeOnly _ _ _ _ _).noticeOnly
    · exact noticeOnly_ras s _
  · exact noticeOnly_ras s _

theorem postHost_noticeOnly (n : Notice) (s : State) : NoticeOnly s (postHost n s) := by
  unfold postHost
  dsimp only
  split
  · exact noticeOnly_trans (noticeOnly_ras s _) (homeWrite_homeOnly _ _ _ _ _).noticeOnly
  · exact noticeOnly_ras s _

theorem post_noticeOnly (n : Notice) (s : State) : NoticeOnly s (post n s) := by
  have hc : NoticeOnly s (if n.kind = 9 then s else postCasien n s) := by
    split
    · exact noticeOnly_ras s s.ras
    · exact postCasien_noticeOnly n s
  unfold post
  dsimp only
  split
  · exact noticeOnly_trans hc (postHost_noticeOnly n _)
  · exact hc

@[simp] theorem post_crews (n : Notice) (s : State) : (post n s).crews = s.crews := by
  obtain ⟨p, r, h⟩ := post_noticeOnly n s
  rw [h]
  rfl

@[simp] theorem post_grids (n : Notice) (s : State) : (post n s).grids = s.grids := by
  obtain ⟨p, r, h⟩ := post_noticeOnly n s
  rw [h]
  rfl

@[simp] theorem post_gangs (n : Notice) (s : State) : (post n s).gangs = s.gangs := by
  obtain ⟨p, r, h⟩ := post_noticeOnly n s
  rw [h]
  rfl

@[simp] theorem post_groups (n : Notice) (s : State) : (post n s).groups = s.groups := by
  obtain ⟨p, r, h⟩ := post_noticeOnly n s
  rw [h]
  rfl

@[simp] theorem post_events (n : Notice) (s : State) : (post n s).events = s.events := by
  obtain ⟨p, r, h⟩ := post_noticeOnly n s
  rw [h]
  rfl

@[simp] theorem post_outbox (n : Notice) (s : State) : (post n s).outbox = s.outbox := by
  obtain ⟨p, r, h⟩ := post_noticeOnly n s
  rw [h]
  rfl

@[simp] theorem post_unreachable (n : Notice) (s : State) : (post n s).unreachable = s.unreachable := by
  obtain ⟨p, r, h⟩ := post_noticeOnly n s
  rw [h]
  rfl

/-! ### The coordinator -/

theorem mem_addOnce {α : Type} [DecidableEq α] (l : List α) (x y : α) : y ∈ addOnce l x ↔ y = x ∨ y ∈ l := by
  unfold addOnce
  split
  · next h => exact ⟨.inr, fun e => e.elim (fun e => e ▸ h) id⟩
  · rw [List.mem_append, List.mem_singleton, or_comm]

/-- PREPARED of the last rank in time commits the gang; before that it is counted. -/
theorem prepared_eq (t rank : Nat) (s : State) :
    prepared t rank s =
      let s' := modGang t (fun x => { x with prepared := addOnce x.prepared rank }) s
      if (gang s t).grid.isSome ∧ (gang s t).rank = 0 ∧ (gang s t).committed = false
          ∧ (∀ r < (gang s t).size, r = rank ∨ r ∈ (gang s t).prepared) ∧ s.cycle ≤ (gang s t).since + 1880000
        then { s' with outbox := s.outbox ++ [.commit t], events := s.events ++ [.commit t] } else s' := by
  unfold prepared
  dsimp only
  rw [gang_modGang]
  refine if_congr ?_ rfl rfl
  simp only [Bool.and_eq_true, decide_eq_true_eq, Bool.not_eq_true', List.all_eq_true, List.mem_range, mem_addOnce, and_assoc]
  exact Iff.rfl

theorem abortGang_frame (t rank reason : Nat) (s : State) :
    (abortGang t rank reason s).outbox = s.outbox ++ [.abort t rank] ∧ (abortGang t rank reason s).events = s.events ++ [.abort t rank]
      ∧ gang (abortGang t rank reason s) t = { gang s t with reason := reason } :=
  ⟨rfl, rfl, gang_modGang t (fun x => { x with reason := reason }) s⟩

/-- The lowest rank that has not prepared. -/
theorem find_missing (n rank : Nat) (l : List Nat) (hn : rank < n) (hm : rank ∉ l) (hl : ∀ r < rank, r ∈ l) :
    (List.range n).find? (· ∉ l) = some rank := by
  rw [List.find?_range_eq_some]
  exact ⟨by simpa using hm, List.mem_range.mpr hn, fun r hr => by simpa using hl r hr⟩

/-! ### Commit -/

theorem tget_mem {α : Type} (d : α) (k : Nat) : ∀ t : Tab α, (∃ e ∈ t, e.1 = k) → (k, tget d t k) ∈ t
  | [], h => by simp at h
  | (j, v) :: t, h => by
    rw [tget]
    split
    · next hj => exact hj ▸ List.mem_cons_self
    · next hj =>
      obtain ⟨e, he, rfl⟩ := h
      rcases List.mem_cons.mp he with rfl | he
      · exact absurd rfl hj
      · exact List.mem_cons_of_mem _ (tget_mem d e.1 t ⟨e, he, rfl⟩)

/-- Where one number names the crews of a grid, its entry is the one listed. -/
theorem crewsOf_single (s : State) (gid cid : Nat) (h : (crewsOf s gid).map (·.1) = [cid]) (hs : (s.crew cid).state ≠ .ended)
    (hg : (s.crew cid).grid = gid) : crewsOf s gid = [(cid, s.crew cid)] := by
  obtain ⟨e, he, hk⟩ := List.map_eq_singleton_iff.mp h
  have hin : e ∈ s.crews := (List.mem_filter.mp (he ▸ List.mem_singleton.mpr rfl : e ∈ crewsOf s gid)).1
  have hmem : (cid, s.crew cid) ∈ crewsOf s gid :=
    List.mem_filter.mpr ⟨tget_mem ({} : Crew) cid s.crews ⟨e, hin, hk⟩, by simp [hs, hg]⟩
  rw [he, List.mem_singleton] at hmem
  rw [he, hmem]

/-- A fold that changes strands changes strands alone. -/
theorem foldl_modStrand_frame (f : Strand → Strand) (l : List Nat) (s : State) :
    ∃ m o, l.foldl (fun s i => s.modStrand i f) s = { s with me := m, others := o } := by
  refine foldl_keeps (fun t : State => ∃ m o, t = { s with me := m, others := o }) _ (fun t i ht => ?_) l s ⟨s.me, s.others, rfl⟩
  obtain ⟨m, o, rfl⟩ := ht
  unfold State.modStrand State.setStrand
  split
  · exact ⟨_, o, rfl⟩
  · exact ⟨m, _, rfl⟩

/-- What a change gives to every strand that it meets, and takes from none, each strand of the list has afterwards. -/
theorem foldl_modStrand_mem (f : Strand → Strand) (P : Strand → Prop) (hf : ∀ m, P (f m)) (l : List Nat) (i : Nat) :
    ∀ s : State, i ∈ l ∨ P (s.strand i) → P ((l.foldl (fun s i => s.modStrand i f) s).strand i) := by
  induction l with
  | nil => exact fun s h => h.resolve_left List.not_mem_nil
  | cons j l ih =>
    intro s h
    refine ih _ ?_
    dsimp only
    rw [State.modStrand, State.strand_setStrand]
    by_cases hij : i = j
    · exact .inr (by rw [if_pos hij]; exact hf _)
    · rw [if_neg hij]
      exact h.imp_left fun h => (List.mem_cons.mp h).resolve_left hij

/-- The reserved crew `cid` starts. -/
def startReserved (cid : Nat) (c : Crew) (s : State) : State :=
  c.sids.foldl (fun s i => s.modStrand i fun m => { m with run := .running })
    (dropLines c.core (s.modCrew cid fun c => { c with state := .resident, tstart := s.cycle, charged := s.cycle }))

theorem startReserved_frame (cid : Nat) (c : Crew) (s : State) :
    ((startReserved cid c s).crew cid).state = .resident ∧ (∀ i ∈ c.sids, ((startReserved cid c s).strand i).run = .running)
      ∧ (startReserved cid c s).gangs = s.gangs ∧ (startReserved cid c s).grids = s.grids := by
  obtain ⟨m, o, h⟩ := foldl_modStrand_frame (fun m => { m with run := .running }) c.sids
    (dropLines c.core (s.modCrew cid fun c => { c with state := .resident, tstart := s.cycle, charged := s.cycle }))
  refine ⟨?_, fun i hi => foldl_modStrand_mem _ (fun m => m.run = .running) (fun _ => rfl) c.sids i _ (.inl hi), ?_, ?_⟩
  · rw [startReserved, h]
    exact congrArg Crew.state (State.crew_modCrew s cid fun c => { c with state := .resident, tstart := s.cycle, charged := s.cycle })
  · rw [startReserved, h]
    rfl
  · rw [startReserved, h]
    rfl

theorem commit_single (t gid cid : Nat) (s : State) (hg : (gang s t).grid = some gid) (hc : (gang s t).committed = false)
    (hl : crewsOf s gid = [(cid, s.crew cid)]) (hs : (s.crew cid).state = .reserved) :
    commit t s = makeGroup t (modGang t (fun x => { x with committed := true }) (startReserved cid (s.crew cid) s)) := by
  unfold commit
  dsimp only
  rw [hg]
  dsimp only
  rw [hc, if_neg Bool.false_ne_true, hl, List.foldl_cons, List.foldl_nil, if_pos hs]
  rfl

/-- The group entry of a gang's grid. -/
theorem makeGroup_frame (t gid : Nat) (s : State) (hg : (gang s t).grid = some gid) :
    makeGroup t s =
      let e : Group := { valid := true, size := (gang s t).size, rank := (gang s t).rank, grid := gid }
      { s with groups := tset {} s.groups (groupKey (s.grid gid).part (gang s t).cgroup) e } := by
  unfold makeGroup
  dsimp only
  rw [hg]

/-- A commit of a gang with one reserved crew starts the crew and writes the group entry. -/
theorem commit_frame (t gid cid : Nat) (s : State) (hg : (gang s t).grid = some gid) (hc : (gang s t).committed = false)
    (hl : crewsOf s gid = [(cid, s.crew cid)]) (hs : (s.crew cid).state = .reserved) :
    (gang (commit t s) t).committed = true ∧ ((commit t s).crew cid).state = .resident
      ∧ (∀ i ∈ (s.crew cid).sids, ((commit t s).strand i).run = .running)
      ∧ tget {} (commit t s).groups (groupKey (s.grid gid).part (gang s t).cgroup)
        = { valid := true, size := (gang s t).size, rank := (gang s t).rank, grid := gid } := by
  obtain ⟨cs, cr, cg, cd⟩ := startReserved_frame cid (s.crew cid) s
  have hgang : gang (modGang t (fun x => { x with committed := true }) (startReserved cid (s.crew cid) s)) t
      = { gang s t with committed := true } := by
    rw [gang_modGang, gang, cg]
    rfl
  have hk : ((modGang t (fun x => { x with committed := true }) (startReserved cid (s.crew cid) s)).grid gid).part = (s.grid gid).part :=
    congrArg (fun gs => (tget ({} : Grid) gs gid).part) cd
  rw [commit_single t gid cid s hg hc hl hs, makeGroup_frame t gid _ (by rw [hgang]; exact hg)]
  refine ⟨congrArg Gang.committed hgang, cs, cr, ?_⟩
  dsimp only
  rw [hgang, hk]
  exact tget_tset_same _ _ _ _

/-! ### Abort -/

theorem endGang_reserved (gid rank : Nat) (s : State) (h : ∀ e ∈ crewsOf s gid, e.2.state = .reserved) :
    ∀ e ∈ (endGang gid rank s).crews, e.2.grid ≠ gid := by
  have hran : (crewsOf s gid).filter (fun e => e.2.state ≠ .reserved) = [] :=
    List.filter_eq_nil_iff.mpr fun e he => by simp [h e he]
  unfold endGang
  dsimp only
  rw [hran, if_pos rfl]
  unfold discardCrews
  exact fun e he => of_decide_eq_true (List.mem_filter.mp he).2

theorem endGang_ran (gid rank cid : Nat) (c : Crew) (s : State) (hl : crewsOf s gid = [(cid, c)]) (hc : s.crew cid = c)
    (hs : c.state = .resident) :
    ((endGang gid rank s).crew cid).state = .ended ∧ ((endGang gid rank s).crew cid).status = 3
      ∧ ((endGang gid rank s).crew cid).causeRank = rank := by
  have hran : (crewsOf s gid).filter (fun e => e.2.state ≠ .reserved) = [(cid, c)] := by
    rw [hl]
    exact List.filter_cons_of_pos (by simp [hs])
  have e : endGang gid rank s = endCrew cid 3 0 0 0 rank 0 0 { s with colls := s.colls.filter fun k => k.sid ∉ c.sids } := by
    unfold endGang
    dsimp only
    rw [hran, if_neg (List.cons_ne_nil _ _)]
    simp only [List.flatMap_cons, List.flatMap_nil, List.append_nil, List.foldl_cons, List.foldl_nil]
  obtain ⟨c', n, h⟩ := endCrew_crew cid 3 0 0 0 rank 0 0 { s with colls := s.colls.filter fun k => k.sid ∉ c.sids }
    (by show (s.crew cid).state ≠ .ended; rw [hc, hs]; decide)
  rw [e, h]
  exact ⟨rfl, rfl, rfl⟩

/-- A gang's grid as its abort leaves it. -/
def Grid.aborted (rank : Nat) (d : Decl) (g : Grid) : Grid := { g with reason := 256 + rank, completed := g.lrec.crews, decl := d }

/-- The state of an abort before its notice: the crews have ended, the grid is marked, the gang is forgotten. -/
def dropGang (t gid rank : Nat) (d : Decl) (s : State) : State :=
  let v := (clearGroup gid (endGang gid rank s)).modGrid gid (Grid.aborted rank d)
  { v with gangs := v.gangs.filter (·.1 ≠ t) }

theorem dropGang_grid (t gid rank : Nat) (d : Decl) (s : State) :
    tget {} (dropGang t gid rank d s).grids gid = ((clearGroup gid (endGang gid rank s)).grid gid).aborted rank d :=
  State.grid_modGrid _ gid _

theorem abortGrid_eq (t gid rank : Nat) (s : State) :
    ∃ d es, abortGrid t gid rank s =
      let w := post (abortNotice rank (gang s t).reason t) (dropGang t gid rank d s)
      { w with events := w.events ++ (es ++ [.gridComplete gid]) } :=
  ⟨_, _, congrArg (fun l => { post (abortNotice rank (gang s t).reason t) (dropGang t gid rank _ s) with events := l }) (List.append_assoc ..)⟩

/-- An abort leaves the crews as the gang's end does, names the rank, forgets the gang and completes the grid. -/
theorem abortGrid_frame (t gid rank : Nat) (s : State) :
    (abortGrid t gid rank s).crews = (endGang gid rank s).crews ∧ ((abortGrid t gid rank s).grid gid).reason = 256 + rank
      ∧ (∀ e ∈ (abortGrid t gid rank s).gangs, e.1 ≠ t) ∧ .gridComplete gid ∈ (abortGrid t gid rank s).events := by
  obtain ⟨d, es, h⟩ := abortGrid_eq t gid rank s
  rw [h]
  dsimp only
  refine ⟨?_, ?_, ?_, List.mem_append_right _ (List.mem_append_right _ (List.mem_singleton.mpr rfl))⟩
  · rw [post_crews]
    rfl
  · rw [State.grid]
    dsimp only
    rw [post_grids, dropGang_grid]
    rfl
  · rw [post_gangs]
    exact fun e he => of_decide_eq_true (List.mem_filter.mp he).2

theorem abort_found (t gid rank : Nat) (s : State) (hc : (gang s t).committed = false)
    (hg : (gang s t).grid.or (gangGrid s t) = some gid) (hr : (s.grid gid).reason = 0) : abort t rank s = abortGrid t gid rank s := by
  unfold abort
  dsimp only
  rw [hc, if_neg Bool.false_ne_true, hg]
  exact if_neg (not_not.mpr hr)

theorem abort_early (t rank : Nat) (s : State) (hc : (gang s t).committed = false) (hg : (gang s t).grid = none)
    (hn : gangGrid s t = none) : abort t rank s = modGang t (fun x => { x with aborted := some rank }) s := by
  unfold abort
  dsimp only
  rw [hc, if_neg Bool.false_ne_true, hg, hn]
  rfl

/-! ### Loss -/

theorem breakGroup_eq (t gid : Nat) (s : State) (hg : (gang s t).grid = some gid) :
    ∃ es, breakGroup t s = { s with
      groups := tmod {} s.groups (groupKey (s.grid gid).part (gang s t).cgroup) fun e => { e with broken := true }
      events := s.events ++ es } := by
  unfold breakGroup
  dsimp only
  rw [hg]
  exact ⟨_, rfl⟩

/-- The hold of a gang changes crews and asks its resident ones to stop. -/
theorem foldl_hold (l : List (Nat × Crew)) : ∀ s : State,
    ∃ cs es, l.foldl (fun s e =>
        let s := s.modCrew e.1 fun c => { c with wantLazy := false, state := if c.state = .ready then .lostHeld else c.state }
        if e.2.state = .resident then { s with events := s.events ++ [.preemptRequest e.1] } else s) s
          = { s with crews := cs, events := s.events ++ es }
      ∧ ∀ e ∈ l, e.2.state = .resident → .preemptRequest e.1 ∈ es := by
  induction l with
  | nil => exact fun s => ⟨s.crews, [], by simp, by simp⟩
  | cons x l ih =>
    intro s
    rw [List.foldl_cons]
    dsimp only
    split
    · next hx =>
      obtain ⟨cs, es, h, hm⟩ := ih _
      refine ⟨cs, .preemptRequest x.1 :: es, h.trans ?_, fun e he hs => ?_⟩
      · simp
      · rcases List.mem_cons.mp he with rfl | he
        · exact List.mem_cons_self
        · exact List.mem_cons_of_mem _ (hm e he hs)
    · next hx =>
      obtain ⟨cs, es, h, hm⟩ := ih _
      refine ⟨cs, es, h, fun e he hs => ?_⟩
      rcases List.mem_cons.mp he with rfl | he
      · exact absurd hs hx
      · exact hm e he hs

theorem holdGang_frame (gid : Nat) (s : State) :
    ∃ cs es, holdGang gid s = { s with crews := cs, events := s.events ++ es }
      ∧ ∀ e ∈ crewsOf s gid, e.2.state = .resident → .preemptRequest e.1 ∈ es := foldl_hold (crewsOf s gid) s

/-- The loss of another member: the gang is broken and held, and nothing is sent. -/
theorem lostMember_other (t gid rank cause : Nat) (s : State) (hg : (gang s t).grid = some gid) (hl : (gang s t).lost = none)
    (hc : (gang s t).committed = true) (hr : rank ≠ (gang s t).rank) :
    (gang (lostMember t rank cause s) t).lost = some rank
      ∧ (tget {} (lostMember t rank cause s).groups (groupKey (s.grid gid).part (gang s t).cgroup)).broken = true
      ∧ (∀ e ∈ s.crews, e.2.grid = gid → e.2.state = .resident → .preemptRequest e.1 ∈ (lostMember t rank cause s).events)
      ∧ (lostMember t rank cause s).outbox = s.outbox ∧ (lostMember t rank cause s).unreachable = s.unreachable := by
  have e : lostMember t rank cause s = post { kind := 6, source := rank, detail := cause, data := word t }
      (holdGang gid (breakGroup t (modGang t (fun x => { x with lost := some rank }) s))) := by
    unfold lostMember
    dsimp only
    rw [hg]
    dsimp only
    rw [hl, hc, if_neg (by decide : ¬(none : Option Nat).isSome = true), if_neg (by decide : ¬(!true) = true), if_neg hr]
  have hg1 : gang (modGang t (fun x => { x with lost := some rank }) s) t = { gang s t with lost := some rank } := gang_modGang _ _ _
  obtain ⟨es, hb⟩ := breakGroup_eq t gid (modGang t (fun x => { x with lost := some rank }) s) (by rw [hg1]; exact hg)
  obtain ⟨cs, es', hh, hm⟩ := holdGang_frame gid (breakGroup t (modGang t (fun x => { x with lost := some rank }) s))
  rw [e]
  refine ⟨?_, ?_, fun e he h1 h2 => ?_, ?_, ?_⟩
  · rw [gang, post_gangs, hh, hb]
    exact congrArg Gang.lost hg1
  · rw [post_groups, hh, hb]
    dsimp only
    rw [hg1]
    exact congrArg Group.broken (tget_tmod_same _ _ _ _)
  · rw [post_events, hh]
    refine List.mem_append_right _ (hm e ?_ h2)
    rw [hb]
    exact List.mem_filter.mpr ⟨he, by simp [h1, h2]⟩
  · rw [post_outbox, hh, hb]
    rfl
  · rw [post_unreachable, hh, hb]
    rfl

theorem loseGrid_crews (gid rank : Nat) (s : State) :
    ∀ e ∈ (loseGrid gid rank s).crews, e.2.grid = gid → e.2.status = 4 ∧ e.2.causeRank = rank := by
  intro e he hg
  unfold loseGrid at he
  obtain ⟨x, -, rfl⟩ := List.mem_map.mp he
  by_cases hx : x.2.grid = gid
  · rw [if_pos hx]
    exact ⟨rfl, rfl⟩
  · rw [if_neg hx] at hg
    exact absurd hg hx

theorem loseGrid_outbox (gid rank : Nat) (s : State) : (loseGrid gid rank s).outbox = s.outbox := by
  unfold loseGrid
  exact foldl_same State.outbox _ (fun t (e : Nat × Crew) => endCrew_outbox e.1 4 0 0 0 rank 0 0 t) _ _

/-- The loss of this device's own member ends the grid's crews, and the other devices are told. -/
theorem lostMember_own (t gid cause : Nat) (s : State) (hg : (gang s t).grid = some gid) (hl : (gang s t).lost = none)
    (hc : (gang s t).committed = true) :
    ∃ u, lostMember t (gang s t).rank cause s = loseGrid gid (gang s t).rank u ∧ u.outbox = s.outbox ++ [.lost t (gang s t).rank] := by
  refine ⟨{ modGang t (fun x => { x with lost := some (gang s t).rank }) s with outbox := s.outbox ++ [.lost t (gang s t).rank] }, ?_, rfl⟩
  unfold lostMember
  dsimp only
  rw [hg]
  dsimp only
  rw [hl, hc, if_neg (by decide : ¬(none : Option Nat).isSome = true), if_neg (by decide : ¬(!true) = true), if_pos rfl]
  rfl

theorem lostMember_early (t gid rank cause : Nat) (s : State) (hg : (gang s t).grid = some gid) (hl : (gang s t).lost = none)
    (hc : (gang s t).committed = false) (hr : (gang s t).rank = 0) : lostMember t rank cause s = abortGang t rank 0 s := by
  unfold lostMember
  dsimp only
  rw [hg]
  dsimp only
  rw [hl, hc, if_neg (by decide : ¬(none : Option Nat).isSome = true), if_pos (by decide : (!false) = true), if_pos hr]

/-! ### The end of a hold -/

theorem clearGroup_groups (gid : Nat) (s : State) : ∀ e ∈ (clearGroup gid s).groups, e.2.valid = true → e.2.grid ≠ gid := by
  intro e he hv hg
  have := (List.mem_filter.mp he).2
  simp [hv, hg] at this

/-- The held crews of a list are ready again. -/
def releaseHeld (l : List (Nat × Crew)) (s : State) : State :=
  l.foldl (fun s e => s.modCrew e.1 fun c => { c with state := if c.state = .lostHeld then .ready else c.state }) s

theorem releaseHeld_gangs (l : List (Nat × Crew)) (s : State) : (releaseHeld l s).gangs = s.gangs := by
  unfold releaseHeld
  exact foldl_same State.gangs (fun s (e : Nat × Crew) => s.modCrew e.1 _) (fun _ _ => rfl) l s

/-- A crew that is held, or ready, is ready after the hold of a list that names it has ended. -/
theorem releaseHeld_ready (cid : Nat) (l : List (Nat × Crew)) : ∀ s : State,
    (s.crew cid).state = .ready ∨ ((s.crew cid).state = .lostHeld ∧ cid ∈ l.map (·.1)) → ((releaseHeld l s).crew cid).state = .ready := by
  induction l with
  | nil => exact fun s h => h.resolve_right fun h => List.not_mem_nil h.2
  | cons x l ih =>
    intro s h
    refine ih _ ?_
    by_cases hx : cid = x.1
    · subst hx
      left
      rw [State.crew_modCrew]
      rcases h with h | ⟨h, -⟩ <;> simp [h]
    · rw [show (s.modCrew x.1 _).crew cid = s.crew cid from tget_tmod_other _ _ _ hx]
      exact h.imp_right fun ⟨h, hm⟩ => ⟨h, (List.mem_cons.mp hm).resolve_left hx⟩

end Sys2Proof.Machine
end

section
/-! SUPPORT. The events of queues, of the Factor and of gangs (R48, R270, R279, R345 to R365, R445 to R447): O50. -/

namespace Sys2Proof.Machine
open Sys2Proof

/-- Settles O50: each clause names its event's function, and the lemmas about that function say what it leaves. -/
theorem factorEvents : Obligations.FactorEvents := by
  unfold Obligations.FactorEvents
  intro s
  refine ⟨?qwidx, ?qstat, ?enable, ?disable, ?record, ?ready, ?dispatch, ?yields, ?preempt, ?prepare, ?prepared, ?commit, ?abort,
    ?refusal, ?prepareTimeout, ?commitTimeout, ?lost, ?unreachable, ?discard, ?resume⟩
  case qwidx =>
    intro q v hin
    obtain ⟨hm, hq⟩ := qwidxWrite_queue q v s
    exact ⟨qwidxWrite q v s, by show execQwidxWrite s = _; rw [execQwidxWrite, hin], hm, hq⟩
  case qstat =>
    intro q v hin
    refine ⟨_, by show execQstatClear s = _; rw [execQstatClear, hin], ?_⟩
    exact State.queue_modQueue s q _
  case enable =>
    intro q hin
    refine ⟨setQueue q true s, by show execQueueEnable s = _; rw [execQueueEnable, hin], ?_⟩
    exact State.queue_modQueue s q _
  case disable =>
    intro q hin
    refine ⟨setQueue q false s, by show execQueueDisable s = _; rw [execQueueDisable, hin], ?_⟩
    exact State.queue_modQueue s q _
  case record =>
    intro q hin
    dsimp only
    intro hen hlast hidx hvf hpart hidle
    have hx : exec .launchRecordRead s = .next (launchRecordRead q s) := by
      show execLaunchRecordRead s = _
      rw [execLaunchRecordRead, hin]
    have hr := readsNext_of s (s.queue q) hen (atHead_of_over s _ hlast) hidx hvf hpart hidle
    exact ⟨fun hb => ⟨_, hx, launchRecordRead_unreadable q s hr hb⟩, fun b hb => ⟨_, hx, launchRecordRead_bytes q s hr b hb⟩⟩
  case ready =>
    intro i gid d hin
    dsimp only
    intro hm ha hb hh hd
    have hx : exec i s = .next (gridReady gid s) := by
      rcases hin with ⟨rfl, h⟩ | ⟨rfl, h⟩
      · show execGridReady s = _
        rw [execGridReady, h]
      · show execDependencePoll s = _
        rw [execDependencePoll, h]
    exact ⟨fun ht hg => ⟨_, hx, gridReady_pass gid s d hm ha hb hh hd ht hg⟩, fun ht _ => ⟨_, hx, gridReady_large gid s d hm ha hb hh hd ht⟩⟩
  case dispatch =>
    intro p gid u o cb lb hin
    dsimp only
    intro hdis howed s1 hch hnext hlazy hgrids hplace _ hslots ho hcb hlb hen hassay
    have hg : s1.grid gid = s.grid gid := congrArg (fun t => tget ({} : Grid) t gid) hgrids
    rw [← hg] at hplace hslots ho hcb hlb ⊢
    rw [← hnext]
    have hx : exec .crewDispatch s = .next (crewDispatch p s) := by
      show execCrewDispatch s = _
      rw [execCrewDispatch, hin]
    rw [crewDispatch_fresh p gid s s1 hdis howed hch, dispatchNext_eq s1 gid u o cb lb hplace hlazy ho hcb hlb hslots (by rw [hassay]; exact hen),
      Option.getD_some] at hx
    obtain ⟨hcount, hcrew, hstrands, hcsp, hlane⟩ := dispatched_frame p gid (s1.grid gid).dispatched u o cb lb s1 hslots
    refine ⟨_, hx, hcount, ?_, ?_, ?_, ?_, ?_, fun i hi => ?_, hcsp, hlane⟩
    iterate 5 (rw [hcrew]; rfl)
    obtain ⟨slot, hm⟩ := hstrands i hi
    rw [hm]
    exact ⟨rfl, rfl, rfl, tget_tset_same _ _ _ _, fun r hr => tget_tset_other _ _ _ hr, rfl, rfl, rfl, rfl, rfl, rfl, rfl⟩
  case yields =>
    intro gid cid c hin
    dsimp only
    intro hof hres hdis hrun hc hsome hall how hn
    refine ⟨yieldThreshold gid s, by show execYieldThreshold s = _; rw [execYieldThreshold, hin], ?_⟩
    exact yieldThreshold_makesRoom s gid cid c hres (yieldDue_single s gid cid c hres hof (blockedSince_of s c _ hsome hall)) hdis hrun how hn
  case preempt =>
    intro q gid u vs n hin
    dsimp only
    intro hp hg hn hc hr hcr hcm hu hv
    exact ⟨priorityPreempt q s, by show execPriorityPreempt s = _; rw [execPriorityPreempt, hin],
      priorityPreempt_events q gid u vs n s hp hg hn hc hr hcr hcm hu hv⟩
  case prepare =>
    intro gid s1 u hin
    dsimp only
    intro hs hgang hdis heag hch hrec hall hout hgs hcyc
    have hx : exec .gangPrepare s = .next (gangPrepare gid s) := by
      show execGangPrepare s = _
      rw [execGangPrepare, hin]
    rw [gangPrepare_reserves gid s s1 hs hgang hdis hch, reserveGang_reserves gid s1 u _ hrec heag hall] at hx
    have hst := holdPlaces_grid gid (s.grid gid).lrec u
    obtain ⟨h1, h2, h3⟩ := holdPlaces_gang gid (s.grid gid).lrec u
    rw [hcyc] at h2
    rw [← hout]
    by_cases h0 : (s.grid gid).lrec.rank = 0
    · rw [if_pos h0] at hx
      exact ⟨_, hx, hst, fun h => absurd h0 h, fun _ => ⟨rfl, List.mem_append_right _ (List.mem_singleton.mpr rfl)⟩, h1, h2, h3⟩
    · rw [if_neg h0] at hx
      exact ⟨_, hx, hst, fun _ => rfl, fun h => absurd h h0, h1, h2, h3⟩
  case prepared =>
    intro gt rank hin
    have hx : exec .prepared s = .next (prepared gt rank s) := by
      show execPrepared s = _
      rw [execPrepared, hin]
    have hmem : rank ∈ (gang (modGang gt (fun x => { x with prepared := addOnce x.prepared rank }) s) gt).prepared := by
      rw [gang_modGang]
      exact (mem_addOnce _ _ _).mpr (.inl rfl)
    rw [prepared_eq] at hx
    dsimp only at hx ⊢
    split at hx
    · next h =>
      obtain ⟨-, -, -, hall, -⟩ := h
      exact ⟨_, hx, hmem, fun _ _ _ _ _ => ⟨rfl, rfl⟩, fun hn => absurd hall hn⟩
    · next h =>
      exact ⟨_, hx, hmem, fun h1 h2 h3 h4 h5 => absurd ⟨h1, h2, h3, h4, h5⟩ h, fun _ => ⟨rfl, rfl⟩⟩
  case commit =>
    intro gt gid cid hin
    dsimp only
    intro hg hc hl hs hgrid
    have hl := crewsOf_single s gid cid hl (by rw [hs]; decide) hgrid
    obtain ⟨hcom, hst, hrun, hgrp⟩ := commit_frame gt gid cid s hg hc hl hs
    rw [groupKey, Nat.mul_comm] at hgrp
    exact ⟨commit gt s, by show execCommit s = _; rw [execCommit, hin], hcom, hst, hrun, hgrp⟩
  case abort =>
    intro gt rank hin hc
    have hx : exec .abort s = .next (abort gt rank s) := by
      show execAbort s = _
      rw [execAbort, hin]
    refine ⟨fun gid hg hr => ?_, fun hg hn => ?_⟩
    · rw [abort_found gt gid rank s hc hg hr] at hx
      obtain ⟨ac, ar, ag, ae⟩ := abortGrid_frame gt gid rank s
      refine ⟨_, hx, ar, ag, ae, fun h => ?_, fun cid c hl hcr hs => ?_⟩
      · rw [ac]
        exact endGang_reserved gid rank s h
      · rw [State.crew, ac]
        exact endGang_ran gid rank cid c s hl hcr hs
    · rw [abort_early gt rank s hc hg hn] at hx
      exact ⟨_, hx, congrArg Gang.aborted (gang_modGang gt _ s), rfl⟩
  case refusal =>
    intro gt rank reason hin hc
    refine ⟨abortGang gt rank reason s, ?_, abortGang_frame gt rank reason s⟩
    show execGangRefusal s = _
    rw [execGangRefusal, hin]
    dsimp only
    rw [hc, if_neg Bool.false_ne_true]
  case prepareTimeout =>
    intro gt rank hin
    dsimp only
    intro hg h0 hc hidle hcyc hlt hmiss hall
    have ht : reached s ((gang s gt).since + 2 * Config.msCycles) = true := decide_eq_true hcyc
    refine ⟨abortGang gt rank 0 s, ?_, rfl, rfl⟩
    show execGangPrepareTimeout s = _
    rw [execGangPrepareTimeout, hin]
    dsimp only
    rw [if_pos (by simp [hg, h0, hc, timersRun, hidle, ht]), find_missing _ _ _ hlt hmiss hall]
  case commitTimeout =>
    intro gt gid hin
    dsimp only
    intro hg h0 hc hidle hr hcyc
    have ht : reached s ((gang s gt).since + 4 * Config.msCycles) = true := decide_eq_true hcyc
    have hx : exec .gangCommitTimeout s = .next (abort gt 0 s) := by
      show execGangCommitTimeout s = _
      rw [execGangCommitTimeout, hin]
      dsimp only
      rw [if_pos (by simp [hg, h0, hc, timersRun, hidle, ht])]
    rw [abort_found gt gid 0 s hc (by rw [hg]; rfl) hr] at hx
    obtain ⟨ac, ar, ag, -⟩ := abortGrid_frame gt gid 0 s
    exact ⟨_, hx, ar, ag, fun h => by rw [ac]; exact endGang_reserved gid 0 s h⟩
  case lost =>
    intro gt rank cause gid hin
    dsimp only
    intro hg hl
    have hx : exec .lost s = .next (lostMember gt rank cause s) := by
      show execLost s = _
      rw [execLost, hin]
    refine ⟨fun hc hr => ?_, fun hc hr => ?_, fun hc h0 => ?_⟩
    · obtain ⟨h1, h2, h3, -, -⟩ := lostMember_other gt gid rank cause s hg hl hc hr
      rw [groupKey, Nat.mul_comm] at h2
      exact ⟨_, hx, h1, h2, h3⟩
    · obtain ⟨u, hu, ho⟩ := lostMember_own gt gid cause s hg hl hc
      rw [hr, hu] at hx
      rw [hr]
      refine ⟨_, hx, ?_, loseGrid_crews gid _ u⟩
      rw [loseGrid_outbox, ho]
      exact List.mem_append_right _ (List.mem_singleton.mpr rfl)
    · rw [lostMember_early gt gid rank cause s hg hl hc h0] at hx
      exact ⟨_, hx, rfl⟩
  case unreachable =>
    intro dev gt rank gid hin
    dsimp only
    intro hg hl hc hr
    refine ⟨lostMember gt rank 2 { s with unreachable := addOnce s.unreachable dev, outbox := s.outbox ++ [.lost gt rank] }, ?_, ?_⟩
    · show execLinkUnreachable s = _
      rw [execLinkUnreachable, hin]
      dsimp only
      rw [List.foldl_cons, List.foldl_nil, if_pos]
      show ((gang s gt).grid.isSome && decide (rank ≠ (gang s gt).rank)) = true
      simp [hg, hr]
    · obtain ⟨h1, -, -, h4, h5⟩ := lostMember_other gt gid rank 2
        { s with unreachable := addOnce s.unreachable dev, outbox := s.outbox ++ [.lost gt rank] } hg hl hc hr
      rw [h4, h5]
      exact ⟨(mem_addOnce _ _ _).mpr (.inl rfl), List.mem_append_right _ (List.mem_singleton.mpr rfl), h1⟩
  case discard =>
    intro gt x gid r hin hf hg hl
    refine ⟨clearGroup gid (loseGrid gid r s), ?_, loseGrid_crews gid r s, clearGroup_groups gid _⟩
    show execGangcmdDiscard s = _
    rw [execGangcmdDiscard, hin]
    dsimp only
    rw [heldGang, hf]
    dsimp only
    rw [hg, hl]
    rfl
  case resume =>
    intro gt x gid hin hf hg
    refine ⟨releaseHeld (crewsOf s gid) (modGang s.ras.gangtag.toNat (fun x => { x with resumed := true }) s), ?_, ?_,
      fun cid hm hs => releaseHeld_ready cid (crewsOf s gid) _ (.inr ⟨hs, hm⟩)⟩
    · show execGangcmdResume s = _
      rw [execGangcmdResume, hin]
      dsimp only
      rw [heldGang, hf]
      dsimp only
      rw [hg]
      rfl
    · rw [gang, releaseHeld_gangs]
      exact congrArg Gang.resumed (gang_modGang s.ras.gangtag.toNat _ s)

end Sys2Proof.Machine
end

section
/-! SUPPORT. Reductions (R54, R80, R81, R192): O29. -/

namespace Sys2Proof.Machine
open Sys2Proof

/-! ### Vector instructions with a scalar result -/

/-- The state before the scalar result of a vector instruction is delivered: its flags are merged, and VSTART is 0. -/
def withFlags (f : FFlags) (s : State) : State := s.modMe fun m => { m with fflags := m.fflags.or f, vstart := 0 }

theorem vdone_addFlags_wr {s : State} (hv : s.me.vop = none) (f : FFlags) (d : SReg) (v : Word) :
    vdone (addFlags f (s.wr d v)) = finish ((withFlags f s).wr d v) := by
  have hop : (addFlags f (s.wr d v)).me.vop = none := (Strand.wr_vop ..).trans hv
  rw [vdone_of_front hop]
  unfold addFlags withFlags State.wr State.modMe Strand.wr
  split <;> rfl

/-- What a vector instruction leaves that has the scalar result `v` and raises `f`. -/
theorem finish_withFlags_wr (s : State) (f : FFlags) (d : SReg) (v : Word) :
    let u := finish ((withFlags f s).wr d v)
    VecDone s u ∧ OtherRegs s u d (1 + s.me.ir.sc) ∧ u.me.vregs = s.me.vregs ∧ u.rd d = (if d = 0 then 0 else v)
      ∧ u.me.fflags = s.me.fflags.or f := by
  obtain ⟨rs, ps, sp, hw⟩ := (withFlags f s).wr_frame d v
  obtain ⟨rs', ps', ha⟩ := Strand.age_frame ((withFlags f s).wr d v).me (1 + ((withFlags f s).wr d v).me.ir.sc)
  have hme : OnlyMe s (finish ((withFlags f s).wr d v)) := rfl
  have hm : (finish ((withFlags f s).wr d v)).me = { s.me with
      regs := rs', pend := ps', spois := sp, pc := nextPc s.me, via := {}, carry := none, failed := [], vstart := 0
      fflags := s.me.fflags.or f } := by
    rw [finish_me, ha, hw]
    rfl
  refine ⟨⟨⟨by rw [hm], passedHead_finish rfl (Strand.wr_ir ..), ?only, hme, hme.home⟩, by rw [hm], by rw [hm]⟩, ?others, by rw [hm],
    finish_wr_rd .., by rw [hm]⟩
  case only =>
    rw [OnlyVectors, hm]
  case others =>
    intro r hr
    rw [otherRegs_finish_wr (withFlags f s) d v r hr, rd_age, rd_age, age_regs_congr (m := s.me) (n := (withFlags f s).me) rfl rfl]
    rfl

/-! ### Integer reductions (R54, R81, R192) -/

/-- A number that lies within a range is the one that clamping leaves. -/
theorem clamp_ne_iff (i : IntTy) (x : Int) (h : i.lo ≤ i.hi) : x ≠ i.clamp x ↔ x < i.lo ∨ i.hi < x := by
  unfold IntTy.clamp
  omega

/-- The type of the sum, the maximum or the minimum of elements of type `e` (R54, R192). -/
def accTy (e : Ty) : Ty := if tyBits e = 64 then e else if Spec.isUnsigned e then .u32 else .i32

theorem accTy_isInt (e : Ty) : isInt (accTy e) = true := by cases e <;> rfl

theorem intOf_accTy (e : Ty) : (if (intOf e).w = 64 then intOf e else ⟨32, (intOf e).sgn⟩) = intOf (accTy e) := by cases e <;> rfl

theorem tyBits_accTy (e : Ty) : decide (tyBits (accTy e) = 32) = !decide (tyBits e = 64) := by cases e <;> rfl

theorem intOf_range (e : Ty) : (intOf e).lo ≤ (intOf e).hi := by cases e <;> decide

theorem read_mod (i : IntTy) (x : Nat) : i.read (x % 2 ^ i.w) = i.read x := by
  simp only [IntTy.read, Nat.mod_mod]

theorem low_lt (e : Ty) (x : Int) : Spec.low e x < 2 ^ tyBits e := by
  have h := Int.emod_lt_of_pos x (b := 2 ^ tyBits e) (by positivity)
  have hn := Int.emod_nonneg x (b := 2 ^ tyBits e) (by positivity)
  unfold Spec.low
  zify
  rw [Int.toNat_of_nonneg hn]
  exact h

theorem word_wrap64 (x : Int) : word ((IntTy.mk 64 false).wrap x) = BitVec.ofInt 64 x := by
  apply BitVec.eq_of_toNat_eq
  rw [BitVec.toNat_ofInt]
  exact Nat.mod_eq_of_lt (low_lt .u64 x)

/-- The fold of an integer reduction, before it is narrowed (R81). -/
def redFold (op : Red) (x : Int) (ys : List Int) : Int :=
  match op with
  | .sum => ys.foldl (· + ·) x
  | .max => ys.foldl max x
  | .min => ys.foldl min x

theorem redInt_eq (op : Red) (e : Ty) (xs : List Int) (init : Nat) :
    redInt op (intOf e) xs init =
      let r := redFold op ((intOf (accTy e)).read init) xs
      ((IntTy.mk 64 false).wrap ((intOf (accTy e)).read ((intOf (accTy e)).wrap r)),
        decide ((intOf (accTy e)).w = 32) && (decide (r < (intOf (accTy e)).lo) || decide ((intOf (accTy e)).hi < r))) := by
  unfold redInt
  rw [intOf_accTy]
  cases op <;> rfl

theorem intReduce_eq (op : Red) (e : Ty) (xs : List Nat) (init : Word) :
    Spec.intReduce op e xs init =
      let r := redFold op (Spec.toNum (accTy e) (init.toNat % 2 ^ tyBits (accTy e))) (xs.map (Spec.toNum e))
      (BitVec.ofInt 64 (Spec.toNum (accTy e) (Spec.low (accTy e) r)),
        !decide (tyBits e = 64) && decide (r ≠ Spec.clamped (accTy e) r)) := by
  cases op <;> rfl

/-- The model's integer reduction is the exact one, narrowed (R54, R192). -/
theorem redInt_exact (op : Red) {e : Ty} (h : isInt e = true) (m : Strand) (v : Nat) (lanes : List Nat) (init : Word) :
    let r := redInt op (intOf e) (lanes.map fun l => (intOf e).read (m.elem e v l)) init.toNat
    (word r.1, r.2) = Spec.intReduce op e (lanes.map (m.elem e v)) init := by
  have hacc := accTy_isInt e
  have hxs : (lanes.map fun l => (intOf e).read (m.elem e v l)) = (lanes.map (m.elem e v)).map (Spec.toNum e) := by
    rw [List.map_map]
    exact List.map_congr_left fun l _ => read_eq_toNum h (elem_lt ..)
  have hinit : (intOf (accTy e)).read init.toNat = Spec.toNum (accTy e) (init.toNat % 2 ^ tyBits (accTy e)) := by
    rw [← read_eq_toNum hacc (Nat.mod_lt _ (Nat.two_pow_pos _)), ← width_intOf hacc, read_mod]
  rw [redInt_eq, intReduce_eq, hxs, hinit]
  dsimp only
  generalize redFold op _ _ = r
  have hclamp := clamp_ne_iff (intOf (accTy e)) r (intOf_range _)
  rw [word_wrap64, wrap_eq_low hacc, read_eq_toNum hacc (low_lt ..), width_intOf hacc, tyBits_accTy, ← clamp_eq_clamped hacc,
    decide_eq_decide.mpr hclamp, Bool.decide_or]

/-! ### Floating reductions (R64, R80) -/

theorem treeLevel_none (rm : RM) : ∀ n, treeLevel rm (List.replicate n none) = (List.replicate ((n + 1) / 2) none, {})
  | 0 => rfl
  | 1 => rfl
  | n + 2 => by
    have ih := treeLevel_none rm n
    have hn : (n + 2 + 1) / 2 = (n + 1) / 2 + 1 := by omega
    rw [List.replicate_succ, List.replicate_succ, hn, List.replicate_succ]
    show (let k := treeLevel rm (List.replicate n none); (none :: k.1, k.2)) = _
    rw [ih]

/-- A tree without leaves has no sum. -/
theorem tree_none (rm : RM) (k : Nat) : ∀ n f, (tree rm k (List.replicate n none) f).1 = none := by
  induction k with
  | zero => intro n f; cases n <;> rfl
  | succ k ih =>
    intro n f
    rw [tree, treeLevel_none]
    exact ih _ _

theorem sumTree_nil (rm : RM) (vl init : Nat) : sumTree rm vl [] init = { bits := init } := by
  have hleaves : ((List.range vl).map fun l => (([] : List (Nat × Nat)).find? (·.1 = l)).map (·.2)) = List.replicate vl none := by
    simp [List.map_const']
  have hnone := tree_none rm 10 vl {}
  unfold sumTree
  rw [hleaves]
  dsimp only
  split
  · rfl
  · next h => rw [h] at hnone; cases hnone

/-- With no active lane a floating reduction is the initial value (R80, R192). -/
theorem redFloat_nil (op : Red) (m : Strand) (e : Ty) (v init : Nat) : (redFloat op m e v [] init).bits = init := by
  cases op with
  | max => rfl
  | min => rfl
  | sum => simp only [redFloat, List.map_nil, List.zip_nil_left, sumTree_nil]

/-! ### Heads -/

/-- The result and the flags of a reduction of the listed lanes. -/
def reduced (op : Red) (m : Strand) (e : Ty) (v : Nat) (lanes : List Nat) (init : Word) : Word × FFlags :=
  if isInt e then
    let r := Spec.intReduce op e (lanes.map (m.elem e v)) init
    (r.1, { iov := r.2 })
  else
    let r := redFloat op m e v lanes (init.toNat % 2 ^ 32)
    (word r.bits, r.fl)

theorem tyKind_of_isInt {e : Ty} (h : isInt e = true) : tyKind e = .int (intOf e) := by
  rw [intOf]
  unfold isInt at h
  split at h
  · next i hk => rw [hk]
  · cases h

theorem tyKind_of_not_isInt {e : Ty} (hd : e ≠ .dflt) (h : isInt e = false) (j : IntTy) : tyKind e ≠ .int j := by
  intro hk
  rw [isInt, hk] at h
  exact hd (not_not.mp (of_decide_eq_false h))

/-- A reduction of held registers is one scalar result. -/
theorem reduce_go {s : State} {t : Ty} {a : VReg} {b : SReg} (hready : VecReady s) (hr : Readable s [b])
    (hty : s.me.badTy t anyTy = false) (hheld : Held s (s.me.elemTy t) [a]) (i : Instr) (op : Red) (d : SReg) (m : MReg) :
    let r := reduced op s.me (s.me.elemTy t) a (s.me.lanes m) (s.rd b)
    reduce i op t d a b m s = .next (finish ((withFlags r.2 s).wr d r.1)) := by
  have hodd : oddPair (s.me.elemTy t) [a] = false := held_even hheld fun v hv => hv
  have hq : ∀ r ∈ regsOf (s.me.elemTy t) a.val, r < s.me.vheld := held_regs hheld (by simp)
  have hv : s.me.vop = none := hready.2.2.2.2.2
  unfold reduce
  simp only [hty, hodd, Bool.or_self]
  rw [vhead_go _ hready.1 hready.2.1 hr hq, whole, sweep_at_once hready]
  cases hint : isInt (s.me.elemTy t) with
  | true =>
    obtain ⟨hw, hf⟩ := Prod.ext_iff.mp (redInt_exact op hint s.me a (s.me.lanes m) (s.rd b))
    rw [tyKind_of_isInt hint, reduced, if_pos hint]
    dsimp only at hw hf ⊢
    rw [vdone_addFlags_wr hv, hw, hf]
  | false =>
    have hk := tyKind_of_not_isInt (elemTy_ne_dflt s.me t) hint
    rw [reduced, hint, if_neg Bool.false_ne_true]
    split
    · next j hj => exact absurd hj (hk j)
    · exact congrArg _ (vdone_addFlags_wr hv ..)

theorem exec_reduction {i : Instr} {op : Red} {t : Ty} {d b : SReg} {a : VReg} {m : MReg}
    (hi : Spec.reduction i = some (op, t, d, a, b, m)) (s : State) : exec i s = reduce i op t d a b m s := by
  unfold Spec.reduction at hi
  split at hi <;> cases hi <;> rfl

/-- Settles O29: a reduction is one scalar result with its flags, the exact one for integers; the tree of no leaves is the initial
value. -/
theorem reductionResult : Obligations.ReductionResult := by
  unfold Obligations.ReductionResult
  intro i s op t d b a m hi hready hr hty e lanes hheld
  obtain ⟨hdone, hothers, hregs, hrd, hflags⟩ := finish_withFlags_wr s (reduced op s.me e a lanes (s.rd b)).2 d
    (reduced op s.me e a lanes (s.rd b)).1
  refine ⟨_, (exec_reduction hi s).trans (reduce_go hready hr hty hheld i op d m), hdone, hothers, hregs, fun hint => ?int,
    fun hint => ?float⟩
  case int =>
    have hred : reduced op s.me e a lanes (s.rd b) = _ := if_pos hint
    exact ⟨hrd.trans (by rw [hred]), hflags.trans (by rw [hred])⟩
  case float =>
    have hred : reduced op s.me e a lanes (s.rd b) = _ := if_neg (by simp [hint])
    refine ⟨hrd.trans (by rw [hred]; rfl), hflags.trans (by rw [hred]), fun hnil => ?_⟩
    rw [hnil]
    exact redFloat_nil ..

end Sys2Proof.Machine
end

section
/-! SUPPORT. Writers of LNS6 (R73, R165): what a block write leaves in the containers, and what the blocks of one instruction leave
together. -/

namespace Sys2Proof.Machine
open Sys2Proof

/-! ### Blocks of lanes -/

theorem blen_pos (m : Strand) : 0 < m.blen := by
  unfold Strand.blen
  cases m.vtype.blen <;> decide

theorem blen_dvd (m : Strand) : m.blen ∣ 1024 := by
  unfold Strand.blen
  cases m.vtype.blen <;> decide

/-- A block with a lane below 1,024 lies below 1,024. -/
theorem lt_of_div_eq {bl l r : Nat} (hdvd : bl ∣ 1024) (hpos : 0 < bl) (h : r / bl = l / bl) (hl : l < 1024) : r < 1024 := by
  rw [← Nat.div_mul_cancel hdvd] at hl ⊢
  exact (Nat.div_lt_iff_lt_mul hpos).mp (h ▸ (Nat.div_lt_iff_lt_mul hpos).mpr hl)

/-- Every lane of the listed blocks of `bl` lanes. -/
def blockLanes (bl : Nat) (js : List Nat) : List Nat := js.flatMap fun j => (List.range bl).map fun i => j * bl + i

theorem mem_blockLanes {bl : Nat} (hpos : 0 < bl) (js : List Nat) (l : Nat) : l ∈ blockLanes bl js ↔ l / bl ∈ js := by
  simp only [blockLanes, List.mem_flatMap, List.mem_map, List.mem_range]
  constructor
  · rintro ⟨j, hj, i, hi, rfl⟩
    rwa [Nat.mul_comm, Nat.mul_add_div hpos, Nat.div_eq_of_lt hi, Nat.add_zero]
  · exact fun h => ⟨_, h, l % bl, Nat.mod_lt _ hpos, Nat.div_add_mod' l bl⟩

theorem nodup_eraseDups (l : List Nat) : l.eraseDups.Nodup := by
  induction hn : l.length using Nat.strong_induction_on generalizing l with
  | _ n ih =>
    cases l with
    | nil => exact List.nodup_nil
    | cons a l =>
      have hlen : (l.filter fun b => !b == a).length < n := by
        have := List.length_filter_le (fun b => !b == a) l
        simp only [List.length_cons] at hn
        omega
      rw [List.eraseDups_cons, List.nodup_cons]
      exact ⟨fun h => by simpa using List.mem_eraseDups.mp h, ih _ hlen _ rfl⟩

/-! ### The containers of a block (R165) -/

theorem box_lt (m : Strand) (v l : Nat) : m.box v l < 2 ^ 32 := BitVec.isLt _

theorem scaleByte_lt (x : Int) : Spec.scaleByte x < 256 := by
  unfold Spec.scaleByte
  omega

theorem wrap8_eq (x : Int) : (IntTy.mk 8 true).wrap x = Spec.scaleByte x := rfl

/-- A container with another scale. -/
def rescaled (x : Nat) (sc : Int) : Nat := x - x / 256 % 256 * 256 + 256 * Spec.scaleByte sc

theorem rescaled_lt {x : Nat} (sc : Int) (h : x < 2 ^ 32) : rescaled x sc < 2 ^ 32 := by
  have := scaleByte_lt sc
  unfold rescaled
  omega

/-- Codes written with the scale of each block: the lanes that have one, the other lanes of their blocks, and every other
container. -/
theorem putLns_box {m : Strand} (hp : m.vpois = []) (d : Nat) (g : Nat → Nat) (sc : Nat → Int) {lanes : List Nat}
    (hlanes : ∀ l ∈ lanes, l < 1024) (v : Nat) {l : Nat} (hl : l < 1024) :
    (m.putLns d (lanes.map fun l => (l, g l)) sc).box v l =
      if v = d ∧ l ∈ lanes then g l % 64 + 256 * Spec.scaleByte (sc (l / m.blen))
      else if v = d ∧ l / m.blen ∈ lanes.map (· / m.blen) then rescaled (m.box d l) (sc (l / m.blen))
      else m.box v l := by
  have hpos := blen_pos m
  have hblock : ∀ r ∈ blockLanes m.blen (lanes.map (· / m.blen)).eraseDups, r < 1024 := by
    intro r hr
    obtain ⟨r', hr', he⟩ := List.mem_map.mp (List.mem_eraseDups.mp ((mem_blockLanes hpos _ r).mp hr))
    exact lt_of_div_eq (blen_dvd m) hpos he.symm (hlanes r' hr')
  have hold (js : List Nat) : js.flatMap (fun j => (List.range m.blen).map fun i =>
        (j * m.blen + i, m.box d (j * m.blen + i) - m.box d (j * m.blen + i) / 256 % 256 * 256 + (IntTy.mk 8 true).wrap (sc j) * 256)) =
      (blockLanes m.blen js).map fun l => (l, rescaled (m.box d l) (sc (l / m.blen))) := by
    rw [blockLanes, List.map_flatMap]
    congr 1
    funext j
    rw [List.map_map]
    refine List.map_congr_left fun i hi => ?_
    have hj : (j * m.blen + i) / m.blen = j := by
      rw [Nat.mul_comm, Nat.mul_add_div hpos, Nat.div_eq_of_lt (List.mem_range.mp hi), Nat.add_zero]
    simp only [Function.comp_apply, rescaled, hj, wrap8_eq, Nat.mul_comm]
  have hcode (l : Nat) : (g l % 64 + 256 * Spec.scaleByte (sc (l / m.blen))) % 2 ^ 32 =
      g l % 64 + 256 * Spec.scaleByte (sc (l / m.blen)) := by
    have := scaleByte_lt (sc (l / m.blen))
    omega
  have hput : m.putLns d (lanes.map fun l => (l, g l)) sc =
      (m.putBoxes d ((blockLanes m.blen (lanes.map (· / m.blen)).eraseDups).map fun l =>
        (l, rescaled (m.box d l) (sc (l / m.blen))))).putBoxes d
          (lanes.map fun l => (l, g l % 64 + 256 * Spec.scaleByte (sc (l / m.blen)))) := by
    unfold Strand.putLns
    simp only [List.map_map, Function.comp_def]
    rw [unpoison_clean (by exact hp), hold]
    simp only [wrap8_eq, Nat.mul_comm 256]
  rw [hput, putBoxes_box _ _ _ hlanes _ hl, putBoxes_box _ _ _ hblock _ hl]
  simp only [hcode, mem_blockLanes hpos, List.mem_eraseDups, Nat.mod_eq_of_lt (rescaled_lt _ (box_lt ..))]

theorem putLns_frame {m : Strand} (hp : m.vpois = []) (d : Nat) (xs : List (Nat × Nat)) (sc : Nat → Int) :
    ∃ vr, m.putLns d xs sc = { m with vregs := vr } := by
  unfold Strand.putLns
  dsimp only
  rw [unpoison_clean (by exact hp)]
  exact ⟨_, rfl⟩

/-! ### The blocks of one instruction -/

theorem FFlags.or_assoc (a b c : FFlags) : (a.or b).or c = a.or (b.or c) := by simp only [FFlags.or, Bool.or_assoc]

theorem FFlags.empty_or (a : FFlags) : ({} : FFlags).or a = a := by simp only [FFlags.or, Bool.false_or]

theorem foldl_or_flags (l : List FRes) : ∀ f : FFlags, l.foldl (fun f r => f.or r.fl) f = f.or (orFlags l) := by
  induction l with
  | nil => exact fun f => (fflags_or_empty f).symm
  | cons y l ih =>
    intro f
    have hy : orFlags (y :: l) = y.fl.or (orFlags l) := by rw [orFlags, List.foldl_cons, ih, FFlags.empty_or]
    rw [List.foldl_cons, ih, hy, FFlags.or_assoc]

theorem orFlags_append (a b : List FRes) : orFlags (a ++ b) = (orFlags a).or (orFlags b) := by
  rw [orFlags, List.foldl_append, foldl_or_flags]
  rfl

/-- One block of `writeBlocks`. -/
def writeBlock (d : Nat) (f : Strand → Nat → List Nat → List FRes × Int) (s : State) (e : Nat × List Nat) : State :=
  addFlags (orFlags (f s.me e.1 e.2).1)
    (s.modMe fun m => m.putLns d (e.2.zip ((f s.me e.1 e.2).1.map (·.bits))) fun _ => (f s.me e.1 e.2).2)

theorem writeBlocks_eq (d : Nat) (f : Strand → Nat → List Nat → List FRes × Int) (lanes : List Nat) (s : State) :
    writeBlocks d f lanes s = (byBlock s.me.blen lanes).foldl (writeBlock d f) s := rfl

/-- `f` answers block `j` from the containers of that block, one code for each of its lanes. -/
structure BlockLocal (f : Strand → Nat → List Nat → List FRes × Int) : Prop where
  codes : ∀ m j ls, ∃ F : Nat → FRes, (f m j ls).1 = ls.map F
  within : ∀ m m' j ls, m'.vtype = m.vtype → ls ≠ [] → (∀ l ∈ ls, l < 1024 ∧ l / m.blen = j) →
    (∀ v l, l < 1024 → l / m.blen = j → m'.box v l = m.box v l) → f m' j ls = f m j ls

/-- Lanes of a block of `bl`, some of them. -/
def InBlock (bl : Nat) (e : Nat × List Nat) : Prop := e.2 ≠ [] ∧ ∀ l ∈ e.2, l < 1024 ∧ l / bl = e.1

section
variable {d : Nat} {f : Strand → Nat → List Nat → List FRes × Int}

theorem writeBlock_frame {s : State} (hp : s.me.vpois = []) (e : Nat × List Nat) : ∃ vr, writeBlock d f s e =
    { s with me := { s.me with vregs := vr, fflags := s.me.fflags.or (orFlags (f s.me e.1 e.2).1) } } := by
  obtain ⟨vr, hvr⟩ := putLns_frame hp d (e.2.zip ((f s.me e.1 e.2).1.map (·.bits))) fun _ => (f s.me e.1 e.2).2
  exact ⟨vr, by simp only [writeBlock, addFlags, State.modMe, hvr]⟩

/-- What one block leaves: codes and scale in its active lanes, the scale in its others, every other container. -/
theorem writeBlock_box {s : State} (hp : s.me.vpois = []) {e : Nat × List Nat} (he : InBlock s.me.blen e) {F : Nat → FRes}
    (hF : (f s.me e.1 e.2).1 = e.2.map F) (v : Nat) {l : Nat} (hl : l < 1024) : (writeBlock d f s e).me.box v l =
      if v = d ∧ l ∈ e.2 then (F l).bits % 64 + 256 * Spec.scaleByte (f s.me e.1 e.2).2
      else if v = d ∧ l / s.me.blen = e.1 then rescaled (s.me.box d l) (f s.me e.1 e.2).2
      else s.me.box v l := by
  have hzip : e.2.zip ((f s.me e.1 e.2).1.map (·.bits)) = e.2.map fun l => (l, (F l).bits) := by
    rw [hF, List.map_map]
    exact List.map_prod_left_eq_zip.symm
  have hmem : l / s.me.blen ∈ e.2.map (· / s.me.blen) ↔ l / s.me.blen = e.1 := by
    obtain ⟨r, hr⟩ := List.exists_mem_of_ne_nil _ he.1
    rw [List.mem_map]
    exact ⟨fun ⟨r', hr', h⟩ => h ▸ (he.2 r' hr').2, fun h => ⟨r, hr, h ▸ (he.2 r hr).2⟩⟩
  have hbox := putLns_box hp d (fun l => (F l).bits) (fun _ => (f s.me e.1 e.2).2) (fun l hl => (he.2 l hl).1) v hl
  simp only [hmem] at hbox
  rw [← hbox, ← hzip]
  rfl

theorem writeBlock_keeps {s : State} (hp : s.me.vpois = []) (e : Nat × List Nat) :
    (writeBlock d f s e).me.blen = s.me.blen ∧ (writeBlock d f s e).me.vtype = s.me.vtype ∧ (writeBlock d f s e).me.vpois = [] := by
  obtain ⟨vr, h⟩ := writeBlock_frame (d := d) (f := f) hp e
  rw [h]
  exact ⟨rfl, rfl, hp⟩

/-- Outside its block, and outside its register, a block write changes no container. -/
theorem writeBlock_box_other (hf : BlockLocal f) {s : State} (hp : s.me.vpois = []) {e : Nat × List Nat} (he : InBlock s.me.blen e)
    {v l : Nat} (hl : l < 1024) (h : v ≠ d ∨ l / s.me.blen ≠ e.1) : (writeBlock d f s e).me.box v l = s.me.box v l := by
  obtain ⟨F, hF⟩ := hf.codes s.me e.1 e.2
  have hin : ¬ (v = d ∧ l ∈ e.2) := fun ⟨hv, hle⟩ => h.elim (fun hn => hn hv) fun hn => hn (he.2 l hle).2
  rw [writeBlock_box hp he hF v hl, if_neg hin, if_neg (by tauto)]

/-- A block answers what it would answer before another block's write. -/
theorem writeBlock_answer (hf : BlockLocal f) {s : State} (hp : s.me.vpois = []) {e e' : Nat × List Nat} (he : InBlock s.me.blen e)
    (he' : InBlock s.me.blen e') (hne : e'.1 ≠ e.1) : f (writeBlock d f s e).me e'.1 e'.2 = f s.me e'.1 e'.2 := by
  obtain ⟨-, hvt, -⟩ := writeBlock_keeps (d := d) (f := f) hp e
  exact hf.within s.me _ _ _ hvt he'.1 he'.2 fun v l hl hle => writeBlock_box_other hf hp he hl (.inr (hle ▸ hne))

/-- A block write behind one of another block leaves what it would leave alone. -/
theorem writeBlock_writeBlock_box (hf : BlockLocal f) {s : State} (hp : s.me.vpois = []) {e e' : Nat × List Nat}
    (he : InBlock s.me.blen e) (he' : InBlock s.me.blen e') (hne : e'.1 ≠ e.1) {l : Nat} (hl : l < 1024) (hle : l / s.me.blen = e'.1) :
    (writeBlock d f (writeBlock d f s e) e').me.box d l = (writeBlock d f s e').me.box d l := by
  obtain ⟨hbl, -, hp'⟩ := writeBlock_keeps (d := d) (f := f) hp e
  have hsame := writeBlock_answer (d := d) hf hp he he' hne
  obtain ⟨F, hF⟩ := hf.codes s.me e'.1 e'.2
  rw [writeBlock_box hp' (hbl.symm ▸ he') (hsame ▸ hF) d hl, writeBlock_box hp he' hF d hl, hsame, hbl,
    writeBlock_box_other hf hp he hl (.inr (hle ▸ hne))]

/-- The blocks of one instruction: each leaves what it would leave alone, and their flags are merged. -/
theorem foldl_writeBlock (hf : BlockLocal f) (es : List (Nat × List Nat)) : ∀ s : State, s.me.vpois = [] → (es.map (·.1)).Nodup →
    (∀ e ∈ es, InBlock s.me.blen e) →
    (∃ vr, es.foldl (writeBlock d f) s =
        { s with me := { s.me with vregs := vr, fflags := s.me.fflags.or (orFlags (es.flatMap fun e => (f s.me e.1 e.2).1)) } })
      ∧ (∀ e ∈ es, ∀ l < 1024, l / s.me.blen = e.1 → (es.foldl (writeBlock d f) s).me.box d l = (writeBlock d f s e).me.box d l)
      ∧ ∀ v l, l < 1024 → (v ≠ d ∨ ∀ e ∈ es, l / s.me.blen ≠ e.1) → (es.foldl (writeBlock d f) s).me.box v l = s.me.box v l := by
  induction es with
  | nil =>
    intro s _ _ _
    refine ⟨⟨s.me.vregs, ?_⟩, fun e he => absurd he (List.not_mem_nil), fun _ _ _ _ => rfl⟩
    show s = { s with me := { s.me with vregs := s.me.vregs, fflags := s.me.fflags.or {} } }
    rw [fflags_or_empty]
  | cons e es ih =>
    intro s hp hnd hin
    obtain ⟨hbl, -, hp'⟩ := writeBlock_keeps (d := d) (f := f) hp e
    obtain ⟨hnew, hnd'⟩ := List.nodup_cons.mp hnd
    have he : InBlock s.me.blen e := hin e List.mem_cons_self
    have hin' : ∀ e' ∈ es, InBlock s.me.blen e' := fun e' he' => hin e' (List.mem_cons_of_mem _ he')
    have hne : ∀ e' ∈ es, e'.1 ≠ e.1 := fun e' he' h => hnew (List.mem_map.mpr ⟨e', he', h⟩)
    obtain ⟨⟨vr, hframe⟩, hbox, hother⟩ := ih (writeBlock d f s e) hp' hnd' (hbl.symm ▸ hin')
    rw [hbl] at hbox hother
    simp only [List.foldl_cons]
    refine ⟨⟨vr, ?frame⟩, fun e' he' l hl hle => ?block, fun v l hl h => ?other⟩
    case frame =>
      have hans : es.flatMap (fun e' => (f (writeBlock d f s e).me e'.1 e'.2).1) = es.flatMap fun e' => (f s.me e'.1 e'.2).1 :=
        List.flatMap_congr fun e' he' => by rw [writeBlock_answer hf hp he (hin' e' he') (hne e' he')]
      obtain ⟨vr', hfirst⟩ := writeBlock_frame (d := d) (f := f) hp e
      rw [hframe, hans, List.flatMap_cons, orFlags_append, ← FFlags.or_assoc, hfirst]
    case block =>
      rcases List.mem_cons.mp he' with rfl | he'
      · exact hother d l hl (.inr fun e'' he'' h => hne e'' he'' (h.symm.trans hle))
      · rw [hbox e' he' l hl hle, writeBlock_writeBlock_box hf hp he (hin' e' he') (hne e' he') hl hle]
    case other =>
      rw [hother v l hl (h.imp_right fun h e' he' => h e' (List.mem_cons_of_mem _ he')),
        writeBlock_box_other hf hp he hl (h.imp_right fun h => h e List.mem_cons_self)]

end

/-! ### The blocks of the active lanes -/

theorem mem_byBlock {bl : Nat} {lanes : List Nat} {e : Nat × List Nat} :
    e ∈ byBlock bl lanes ↔ (∃ r ∈ lanes, r / bl = e.1) ∧ e.2 = lanes.filter fun l => l / bl = e.1 := by
  simp only [byBlock, List.mem_map, List.mem_eraseDups]
  constructor
  · rintro ⟨j, ⟨r, hr, rfl⟩, rfl⟩
    exact ⟨⟨r, hr, rfl⟩, rfl⟩
  · exact fun ⟨⟨r, hr, h⟩, he⟩ => ⟨e.1, ⟨r, hr, h⟩, Prod.ext rfl he.symm⟩

theorem byBlock_nodup (bl : Nat) (lanes : List Nat) : ((byBlock bl lanes).map (·.1)).Nodup := by
  rw [byBlock, List.map_map]
  exact (List.map_id' _).symm ▸ nodup_eraseDups _

theorem byBlock_inBlock {bl : Nat} {lanes : List Nat} (hlanes : ∀ l ∈ lanes, l < 1024) : ∀ e ∈ byBlock bl lanes, InBlock bl e := by
  intro e he
  obtain ⟨⟨r, hr, hre⟩, hls⟩ := mem_byBlock.mp he
  rw [InBlock, hls]
  refine ⟨List.ne_nil_of_mem (List.mem_filter.mpr ⟨hr, by simpa using hre⟩), fun l hl => ?_⟩
  obtain ⟨hl, hle⟩ := List.mem_filter.mp hl
  exact ⟨hlanes l hl, by simpa using hle⟩

/-- What an instruction that writes LNS6 in the listed lanes leaves, `f` being what it answers for a block. -/
structure BlocksWritten (s t : State) (d : Nat) (f : Nat → List Nat → List FRes × Int) (lanes : List Nat) : Prop where
  frame : ∃ vr, t = { s with me := { s.me with
    vregs := vr, fflags := s.me.fflags.or (orFlags ((byBlock s.me.blen lanes).flatMap fun e => (f e.1 e.2).1)) } }
  code : ∀ j k r, (lanes.filter fun l => l / s.me.blen = j)[k]? = some r →
    t.me.box d r = ((f j (lanes.filter fun l => l / s.me.blen = j)).1.getD k ⟨0, {}⟩).bits % 64
      + 256 * Spec.scaleByte (f j (lanes.filter fun l => l / s.me.blen = j)).2
  scale : ∀ l < 1024, l ∉ lanes → (∃ r ∈ lanes, r / s.me.blen = l / s.me.blen) →
    t.me.box d l = rescaled (s.me.box d l) (f (l / s.me.blen) (lanes.filter fun r => r / s.me.blen = l / s.me.blen)).2
  other : ∀ v l, l < 1024 → (v ≠ d ∨ ∀ r ∈ lanes, r / s.me.blen ≠ l / s.me.blen) → t.me.box v l = s.me.box v l

theorem writeBlocks_written {f : Strand → Nat → List Nat → List FRes × Int} (hf : BlockLocal f) {s : State} (hp : s.me.vpois = [])
    (d : Nat) {lanes : List Nat} (hlanes : ∀ l ∈ lanes, l < 1024) :
    BlocksWritten s (writeBlocks d f lanes s) d (f s.me) lanes := by
  have hin := byBlock_inBlock (bl := s.me.blen) hlanes
  obtain ⟨hframe, hbox, hother⟩ := foldl_writeBlock (d := d) hf (byBlock s.me.blen lanes) s hp (byBlock_nodup ..) hin
  have hblock (r : Nat) (hr : r ∈ lanes) (l : Nat) (hl : l < 1024) (h : r / s.me.blen = l / s.me.blen) :
      ∃ F, (f s.me (l / s.me.blen) (lanes.filter fun r => r / s.me.blen = l / s.me.blen)).1
          = (lanes.filter fun r => r / s.me.blen = l / s.me.blen).map F
        ∧ (writeBlocks d f lanes s).me.box d l = if l ∈ lanes then
            (F l).bits % 64 + 256 * Spec.scaleByte (f s.me (l / s.me.blen) (lanes.filter fun r => r / s.me.blen = l / s.me.blen)).2
          else rescaled (s.me.box d l) (f s.me (l / s.me.blen) (lanes.filter fun r => r / s.me.blen = l / s.me.blen)).2 := by
    have he : (l / s.me.blen, lanes.filter fun r => r / s.me.blen = l / s.me.blen) ∈ byBlock s.me.blen lanes :=
      mem_byBlock.mpr ⟨⟨r, hr, h⟩, rfl⟩
    obtain ⟨F, hF⟩ := hf.codes s.me (l / s.me.blen) (lanes.filter fun r => r / s.me.blen = l / s.me.blen)
    refine ⟨F, hF, ?_⟩
    rw [writeBlocks_eq, hbox _ he l hl rfl, writeBlock_box hp (hin _ he) hF d hl]
    simp
  refine ⟨hframe, fun j k r hr => ?code, fun l hl hnot ⟨r, hr, h⟩ => ?scale, fun v l hl h => ?other⟩
  case code =>
    obtain ⟨hrl, hrj⟩ := List.mem_filter.mp (List.mem_of_getElem? hr)
    obtain rfl : r / s.me.blen = j := by simpa using hrj
    obtain ⟨F, hF, hb⟩ := hblock r hrl r (hlanes r hrl) rfl
    rw [hb, if_pos hrl, hF, List.getD_eq_getElem?_getD, List.getElem?_map, hr]
    rfl
  case scale =>
    obtain ⟨F, -, hb⟩ := hblock r hr l hl h
    rw [hb, if_neg hnot]
  case other =>
    refine hother v l hl (h.imp_right fun h e he heq => ?_)
    obtain ⟨⟨r, hr, hre⟩, -⟩ := mem_byBlock.mp he
    exact h r hr (hre.trans heq.symm)

end Sys2Proof.Machine
end

section
/-! SUPPORT. LNS6 conversion, multiplication and addition (R165, R173 to R176): O21. -/

namespace Sys2Proof.Machine
open Sys2Proof

/-! ### What a block reads -/

section
variable {m m' : Strand} {j : Nat} (hvt : m'.vtype = m.vtype) (hbox : ∀ v l, l < 1024 → l / m.blen = j → m'.box v l = m.box v l)

include hvt in
theorem blen_congr : m'.blen = m.blen := by rw [Strand.blen, hvt, Strand.blen]

include hbox

theorem elem_congr (t : Ty) (v : Nat) {l : Nat} (hl : l < 1024) (hj : l / m.blen = j) : m'.elem t v l = m.elem t v l := by
  rw [Strand.elem, Strand.boxes, hbox v l hl hj, hbox (v + 1) l hl hj, Strand.elem, Strand.boxes]

include hvt

theorem scale_congr (v : Nat) {l : Nat} (hl : l < 1024) (hj : l / m.blen = j) : m'.scale v l = m.scale v l := by
  have hlow : l - l % m.blen = l / m.blen * m.blen := by rw [Nat.sub_eq_of_eq_add (Nat.div_add_mod' l m.blen).symm]
  rw [Strand.scale, Strand.scale, blen_congr hvt, hlow, hbox v _ (hlow ▸ Nat.lt_of_le_of_lt (Nat.sub_le ..) hl)]
  rw [Nat.mul_div_cancel _ (blen_pos m), hj]

theorem laneVal_congr (t : Ty) (v : Nat) {l : Nat} (hl : l < 1024) (hj : l / m.blen = j) : laneVal m' t v l = laneVal m t v l := by
  simp only [laneVal, elem_congr hbox t v hl hj, scale_congr hvt hbox v hl hj]

/-- The lowest lane of the block. -/
theorem blockScale_congr (s : State) (md : CvtMode) (vals : List FVal) (hj : j * m.blen < 1024) :
    blockScale s md m' j vals = blockScale s md m j vals := by
  cases md with
  | gv v =>
    have hbl := blen_congr hvt
    simp only [blockScale, hbl, hbox v _ hj (Nat.mul_div_cancel _ (blen_pos m))]
  | _ => rfl

end

/-- The lowest lane of a block with a lane. -/
theorem block_lt {bl j l : Nat} (hl : l < 1024) (hj : l / bl = j) : j * bl < 1024 :=
  Nat.lt_of_le_of_lt (hj ▸ Nat.div_mul_le_self l bl) hl

/-! ### Conversion and addition (R73, R174, R176) -/

/-- A block encoded from the exact value of each of its lanes. -/
def encoded (s0 : State) (md : CvtMode) (val : Strand → Nat → FVal) (m : Strand) (j : Nat) (ls : List Nat) : List FRes × Int :=
  let vals := ls.map (val m)
  let sc := blockScale s0 md m j vals
  (vals.map (lnsEnc · sc), sc)

theorem blockScale_eq (s : State) (md : CvtMode) (j : Nat) (vals : List FVal) :
    blockScale s md s.me j vals = (Spec.givenScale s md j).getD (lnsOwnScale vals) := by
  cases md <;> rfl

theorem encoded_eq (s : State) (md : CvtMode) (val : Strand → Nat → FVal) (j : Nat) (ls : List Nat) :
    encoded s md val s.me j ls = Spec.encodeBlock (ls.map (val s.me)) (Spec.givenScale s md j) := by
  rw [encoded, Spec.encodeBlock, blockScale_eq]

/-- A lane's value rests on the containers of its block. -/
def LaneLocal (val : Strand → Nat → FVal) : Prop :=
  ∀ m m' j, m'.vtype = m.vtype → (∀ v l, l < 1024 → l / m.blen = j → m'.box v l = m.box v l) →
    ∀ l < 1024, l / m.blen = j → val m' l = val m l

theorem laneLocal_laneVal (t : Ty) (v : Nat) : LaneLocal fun m => laneVal m t v :=
  fun _ _ _ hvt hbox _ hl hj => laneVal_congr hvt hbox t v hl hj

theorem laneLocal_add (a b : Nat) : LaneLocal fun m l => ((laneVal m .lns6 a l).add .rne (laneVal m .lns6 b l)).1 := by
  intro m m' j hvt hbox l hl hj
  simp only [laneVal_congr hvt hbox .lns6 _ hl hj]

theorem blockLocal_encoded (s0 : State) (md : CvtMode) {val : Strand → Nat → FVal} (hval : LaneLocal val) :
    BlockLocal (encoded s0 md val) where
  codes m j ls := ⟨_, List.map_map⟩
  within m m' j ls hvt hne hls hbox := by
    obtain ⟨l, hl⟩ := List.exists_mem_of_ne_nil _ hne
    have hvals : ls.map (val m') = ls.map (val m) :=
      List.map_congr_left fun l hl => hval m m' j hvt hbox l (hls l hl).1 (hls l hl).2
    rw [encoded, encoded, hvals, blockScale_congr hvt hbox _ _ _ (block_lt (hls l hl).1 (hls l hl).2)]

/-! ### Multiplication (R175) -/

/-- The log of a product of codes, where it has one. -/
def productLog (p : Nat × Nat) : Option Int :=
  if p.1 = 48 ∨ p.2 = 48 ∨ p.1 = 16 ∨ p.2 = 16 then none else some (lnsLog p.1 + lnsLog p.2)

/-- The codes of a lane's factors. -/
def SixBits (p : Nat × Nat) : Prop := p.1 < 64 ∧ p.2 < 64

theorem productLog_eq {p : Nat × Nat} (h : SixBits p) :
    productLog p = if isNar p.1 || isNar p.2 || isLnsZero p.1 || isLnsZero p.2 then none else some (lnsLog p.1 + lnsLog p.2) := by
  obtain ⟨h1, h2⟩ := h
  simp only [productLog, isNar, isLnsZero, Nat.mod_eq_of_lt h1, Nat.mod_eq_of_lt h2, Bool.or_eq_true, decide_eq_true_eq, or_assoc]

/-- One product of `lmulMax`. -/
def lmulStep (b : Option Int) (p : Nat × Nat) : Option Int :=
  if isNar p.1 || isNar p.2 || isLnsZero p.1 || isLnsZero p.2 then b
  else some (match b with
    | none => lnsLog p.1 + lnsLog p.2
    | some x => max x (lnsLog p.1 + lnsLog p.2))

theorem lmulMax_foldl (ps : List (Nat × Nat)) : lmulMax ps = ps.foldl lmulStep none := rfl

theorem lmulStep_log {p : Nat × Nat} (h : SixBits p) (b : Option Int) : lmulStep b p =
    match productLog p, b with
    | none, b => b
    | some x, none => some x
    | some x, some y => some (max y x) := by
  rw [productLog_eq h]
  unfold lmulStep
  split <;> cases b <;> rfl

theorem foldl_lmulStep_some (ps : List (Nat × Nat)) : ∀ b, (∀ p ∈ ps, SixBits p) →
    ps.foldl lmulStep (some b) = some ((ps.filterMap productLog).foldl max b) := by
  induction ps with
  | nil => exact fun _ _ => rfl
  | cons p ps ih =>
    intro b h
    have hps : ∀ q ∈ ps, SixBits q := fun q hq => h q (List.mem_cons_of_mem _ hq)
    rw [List.foldl_cons, lmulStep_log (h p List.mem_cons_self), List.filterMap_cons]
    cases productLog p with
    | none => exact ih b hps
    | some x => exact ih (max b x) hps

/-- The largest log of some products is that of those which have one. -/
theorem lmulMax_eq (ps : List (Nat × Nat)) (h : ∀ p ∈ ps, SixBits p) :
    lmulMax ps = match ps.filterMap productLog with
      | [] => none
      | x :: t => some (t.foldl max x) := by
  rw [lmulMax_foldl]
  induction ps with
  | nil => rfl
  | cons p ps ih =>
    have hps : ∀ q ∈ ps, SixBits q := fun q hq => h q (List.mem_cons_of_mem _ hq)
    rw [List.foldl_cons, lmulStep_log (h p List.mem_cons_self), List.filterMap_cons]
    cases productLog p with
    | none => exact ih hps
    | some x => exact foldl_lmulStep_some ps x hps

theorem testBit_five {x : Nat} (h : x < 64) : x.testBit 5 = decide (x / 32 = 1) := by
  rw [Nat.testBit_eq_decide_div_mod_eq, decide_eq_decide]
  omega

/-- One lane of a product whose block has scale `sc`, `S` being the sum of the source scales (R175). -/
def mulCode (S sc : Int) (p : Nat × Nat) : FRes :=
  if p.1 = 48 ∨ p.2 = 48 then { bits := 48, fl := { nv := true } }
  else if p.1 = 16 ∨ p.2 = 16 then { bits := 16 }
  else
    let k := lnsLog p.1 + lnsLog p.2 - 4 * (sc - S)
    let sg := if p.1 / 32 = p.2 / 32 then 0 else 32
    if k > 15 then { bits := sg + 15, fl := { of := true, nx := true } }
    else if k < -15 then { bits := 16, fl := { uf := true, nx := true } }
    else { bits := sg + (k % 32).toNat }

theorem lmulLane_eq {p : Nat × Nat} (h : SixBits p) (S sc : Int) : lmulLane p.1 p.2 S sc = mulCode S sc p := by
  obtain ⟨h1, h2⟩ := h
  have hsg : (if p.1.testBit 5 != p.2.testBit 5 then 32 else 0) = if p.1 / 32 = p.2 / 32 then 0 else 32 := by
    rw [testBit_five h1, testBit_five h2]
    have : p.1 / 32 < 2 := by omega
    have : p.2 / 32 < 2 := by omega
    by_cases he : p.1 / 32 = p.2 / 32
    · simp [he]
    · rw [if_neg he, if_pos]
      simp only [bne_iff_ne, ne_eq, decide_eq_decide]
      omega
  simp only [lmulLane, mulCode, isNar, isLnsZero, Nat.mod_eq_of_lt h1, Nat.mod_eq_of_lt h2, Bool.or_eq_true, decide_eq_true_eq, hsg]

/-- The scale of a block of products that is given none (R175). -/
def mulOwnScale (S : Int) (ps : List (Nat × Nat)) : Int :=
  match ps.filterMap productLog with
  | [] => 0
  | x :: t => max (-128) (min 127 (S + t.foldl max x / 4 - 3))

theorem mulBlock_eq (ps : List (Nat × Nat)) (S : Int) (given : Option Int) : Spec.mulBlock ps S given =
    (ps.map (mulCode S (given.getD (mulOwnScale S ps))), given.getD (mulOwnScale S ps)) := rfl

/-- The factors of a block. -/
def factors (m : Strand) (a b : Nat) (ls : List Nat) : List (Nat × Nat) := ls.map fun l => (m.elem .lns6 a l, m.elem .lns6 b l)

theorem factors_sixBits (m : Strand) (a b : Nat) (ls : List Nat) : ∀ p ∈ factors m a b ls, SixBits p := by
  intro p hp
  obtain ⟨l, -, rfl⟩ := List.mem_map.mp hp
  exact ⟨Nat.mod_lt _ (by decide), Nat.mod_lt _ (by decide)⟩

/-- The scale that a product's block has: the one given, or its own. -/
def mulScale (s0 : State) (md : CvtMode) (m : Strand) (j : Nat) (S : Int) (ps : List (Nat × Nat)) : Int :=
  match md with
  | .own => mulOwnScale S ps
  | _ => blockScale s0 md m j []

theorem mulScale_eq {md : CvtMode} (hmd : md = .own ∨ ∃ g, md = givenMode g) (s : State) (j : Nat) (S : Int) (ps : List (Nat × Nat)) :
    mulScale s md s.me j S ps = (Spec.givenScale s md j).getD (mulOwnScale S ps) := by
  rcases hmd with rfl | ⟨g, rfl⟩
  · rfl
  · cases g <;> rfl

theorem lmulBlock_codes (s0 : State) (md : CvtMode) (a b : VReg) (m : Strand) (j : Nat) (ls : List Nat) :
    lmulBlock s0 md a b m j ls =
      let S := m.scale a (j * m.blen) + m.scale b (j * m.blen)
      let sc := mulScale s0 md m j S (factors m a b ls)
      ((factors m a b ls).map (mulCode S sc), sc) := by
  have hsix := factors_sixBits m a b ls
  have hown (S : Int) : (match lmulMax (factors m a b ls) with
      | none => 0
      | some l => max (-128) (min 127 (S + l / 4 - 3))) = mulOwnScale S (factors m a b ls) := by
    rw [lmulMax_eq _ hsix, mulOwnScale]
    cases (factors m a b ls).filterMap productLog <;> rfl
  have hlanes (S sc : Int) : (factors m a b ls).map (fun p => lmulLane p.1 p.2 S sc) = (factors m a b ls).map (mulCode S sc) :=
    List.map_congr_left fun p hp => lmulLane_eq (hsix p hp) S sc
  cases md with
  | own =>
    exact Prod.ext ((hlanes _ _).trans (congrArg (fun sc => (factors m a b ls).map (mulCode _ sc)) (hown _))) (hown _)
  | _ => exact Prod.ext (hlanes _ _) rfl

theorem blockLocal_lmulBlock (s0 : State) (md : CvtMode) (a b : VReg) : BlockLocal (lmulBlock s0 md a b) where
  codes m j ls := ⟨_, List.map_map⟩
  within m m' j ls hvt hne hls hbox := by
    obtain ⟨l, hl⟩ := List.exists_mem_of_ne_nil _ hne
    have hj := block_lt (hls l hl).1 (hls l hl).2
    have hfac : factors m' a b ls = factors m a b ls := List.map_congr_left fun l hl => by
      rw [elem_congr hbox _ _ (hls l hl).1 (hls l hl).2, elem_congr hbox _ _ (hls l hl).1 (hls l hl).2]
    have hscale (v : Nat) : m'.scale v (j * m.blen) = m.scale v (j * m.blen) :=
      scale_congr hvt hbox v hj (Nat.mul_div_cancel _ (blen_pos m))
    rw [lmulBlock_codes, lmulBlock_codes, hfac, blen_congr hvt, hscale, hscale]
    have hsc (S : Int) (ps : List (Nat × Nat)) : mulScale s0 md m' j S ps = mulScale s0 md m j S ps := by
      cases md with
      | gv v => exact blockScale_congr hvt hbox s0 (.gv v) [] hj
      | _ => rfl
    simp only [hsc]

/-- The model's product of a block is that of R175. -/
theorem lmulBlock_eq (s : State) {md : CvtMode} (hmd : md = .own ∨ ∃ g, md = givenMode g) (a b : VReg) (j : Nat) (ls : List Nat) :
    lmulBlock s md a b s.me j ls = Spec.mulBlock (ls.map fun l => (s.me.box a l % 64, s.me.box b l % 64))
      (s.me.scale a (j * s.me.blen) + s.me.scale b (j * s.me.blen)) (Spec.givenScale s md j) := by
  rw [lmulBlock_codes, mulBlock_eq]
  simp only [mulScale_eq hmd]
  rfl

/-! ### Heads -/

/-- What a completed instruction leaves that has changed vector registers and flags alone. -/
theorem vdone_vregs {s u : State} (hv : s.me.vop = none) {fl : FFlags}
    (hu : ∃ vr, u = { s with me := { s.me with vregs := vr, fflags := fl } }) :
    VecDone s (vdone u) ∧ AgedRegs s (vdone u) ∧ (vdone u).me.fflags = fl ∧ (vdone u).me.vregs = u.me.vregs := by
  obtain ⟨vr, rfl⟩ := hu
  have hs : SamePlace s (State.modMe { s with me := { s.me with vregs := vr, fflags := fl } } fun m => { m with vstart := 0 }) :=
    ⟨rfl, rfl, rfl, rfl, rfl, rfl⟩
  rw [vdone_of_front (by exact hv)]
  obtain ⟨rs, ps, ha⟩ := Strand.age_frame { s.me with vregs := vr, fflags := fl, vstart := 0 } (1 + s.me.ir.sc)
  refine ⟨⟨⟨hs.finish_pc, hs.passed, ?only, hs.onlyMe.finish, hs.onlyMe.finish.home⟩, ?vl, ?masks⟩, hs.aged, ?flags, ?vregs⟩
  case only => simp only [OnlyVectors, finish_me, State.modMe_me, ha]
  case vl => simp only [finish_me, State.modMe_me, ha]
  case masks => simp only [finish_me, State.modMe_me, ha]
  case flags => simp only [finish_me, State.modMe_me, ha]
  case vregs => simp only [finish_me, State.modMe_me, ha]

theorem modeReads_eq (md : CvtMode) : cvtScal md = Spec.modeReads md := by cases md <;> rfl

theorem modeNames_eq (md : CvtMode) : cvtVec md = Spec.modeNames md := by cases md <;> rfl

/-- What O21 asks of a state in which the LNS6 writer `x` acts. -/
structure LnsReady (i : Instr) (s : State) (x : Spec.LnsSpec) : Prop where
  vec : VecReady s
  typed : Spec.lnsTyped i s = true
  scalars : Readable s x.reads
  held : ∀ v ∈ x.dst :: x.names, v.val < s.me.vheld
  source : ∀ dt st md d a m, i = .vcvt dt st md d a m → ∀ v ∈ regsOf st a, v < s.me.vheld

/-- The instruction has completed with the blocks that `x` states. -/
def LnsAnswered (i : Instr) (s : State) (x : Spec.LnsSpec) : Prop :=
  ∃ f, BlockLocal f ∧ f s.me = x.block ∧ exec i s = .next (vdone (writeBlocks x.dst f (s.me.lanes x.mask) s))

/-- An LNS6 head of which every register is held writes its blocks. -/
theorem lnsHead_go {s : State} (hready : VecReady s) {t : Ty} (hty : s.me.badTy t isLns = false) {md : CvtMode} {d a b : VReg}
    (hr : Readable s (Spec.modeReads md)) (hheld : ∀ v ∈ d :: ([a, b] ++ Spec.modeNames md), v.val < s.me.vheld) (i : Instr) (m : MReg)
    (f : State → Strand → Nat → List Nat → List FRes × Int) :
    lnsHead i t md d a b m f s = .next (vdone (writeBlocks d (f s) (s.me.lanes m) s)) := by
  have hq : ∀ v ∈ (cvtVec md).map (·.val) ++ [b.val, a.val, d.val], v < s.me.vheld := by
    intro v hv
    rw [modeNames_eq] at hv
    simp only [List.mem_append, List.mem_map, List.mem_cons, List.not_mem_nil, or_false] at hv
    rcases hv with ⟨w, hw, rfl⟩ | rfl | rfl | rfl
    · exact hheld w (by simp [hw])
    · exact hheld b (by simp)
    · exact hheld a (by simp)
    · exact hheld d (by simp)
  unfold lnsHead
  dsimp only
  rw [hty, modeReads_eq, vhead_go _ hready.1 hready.2.1 hr hq, sweep_at_once hready]

theorem vcvt_answers {s : State} {st : Ty} {md : CvtMode} {d a : VReg} {m : MReg} {x : Spec.LnsSpec}
    (hx : x = ⟨Spec.modeReads md, a :: Spec.modeNames md, d, m,
      fun j ls => Spec.encodeBlock (ls.map (laneVal s.me st a)) (Spec.givenScale s md j)⟩)
    (h : LnsReady (.vcvt .lns6 st md d a m) s x) : LnsAnswered (.vcvt .lns6 st md d a m) s x := by
  obtain ⟨hready, htyped, hr, hheld, hsource⟩ := h
  subst hx
  refine ⟨encoded s md fun m => laneVal m st a, blockLocal_encoded s md (laneLocal_laneVal st a), ?_, ?_⟩
  · funext j ls
    exact encoded_eq s md _ j ls
  · have hbad : (oddPair .lns6 [d] || oddPair st [a]) = false := by
      have ha : (isPair st && decide (a.val % 2 = 1)) = false := (Bool.not_eq_true' _).mp htyped
      have hd : isPair .lns6 = false := rfl
      simp only [oddPair, hd, List.any_cons, List.any_nil, Bool.or_false, Bool.false_and, ha]
    have hq : ∀ v ∈ (cvtVec md).map (·.val) ++ regsOf st a.val ++ regsOf .lns6 d.val, v < s.me.vheld := by
      intro v hv
      rw [modeNames_eq] at hv
      simp only [List.mem_append, List.mem_map] at hv
      rcases hv with (⟨w, hw, rfl⟩ | hv) | hv
      · exact hheld w (by simp [hw])
      · exact hsource _ _ _ _ _ _ rfl v hv
      · obtain rfl : v = d.val := by simpa [regsOf, isPair, tyBits] using hv
        exact hheld d (by simp)
    show execVcvt .lns6 st md d a m s = _
    unfold execVcvt
    dsimp only
    rw [hbad, modeReads_eq, vhead_go _ hready.1 hready.2.1 hr hq, sweep_at_once hready]
    rfl

/-- Every LNS6 writer answers what is stated for it. -/
theorem exec_lns {i : Instr} {s : State} {x : Spec.LnsSpec} (hx : Spec.lns i s = some x) (h : LnsReady i s x) : LnsAnswered i s x := by
  have hgo {t : Ty} (md : CvtMode) {d : VReg} (a b : VReg) {m : MReg} (hty : (!(s.me.badTy t isLns)) = true)
      (hr : Readable s (Spec.modeReads md)) (hheld : ∀ v ∈ d :: ([a, b] ++ Spec.modeNames md), v.val < s.me.vheld) :=
    lnsHead_go h.vec (t := t) (md := md) (d := d) ((Bool.not_eq_true' _).mp hty) hr hheld i m
  have hmul {md : CvtMode} (hmd : md = .own ∨ ∃ g, md = givenMode g) (a b : VReg) :
      lmulBlock s md a b s.me = fun j ls => Spec.mulBlock (ls.map fun l => (s.me.box a l % 64, s.me.box b l % 64))
        (s.me.scale a (j * s.me.blen) + s.me.scale b (j * s.me.blen)) (Spec.givenScale s md j) :=
    funext₂ (lmulBlock_eq s hmd a b)
  have hadd (md : CvtMode) (a b : VReg) : laddBlock s md a b = encoded s md fun m l => ((laneVal m .lns6 a l).add .rne (laneVal m .lns6 b l)).1 :=
    rfl
  have hsum (md : CvtMode) (a b : VReg) : laddBlock s md a b s.me = fun j ls => Spec.encodeBlock
      (ls.map fun l => ((laneVal s.me .lns6 a l).add .rne (laneVal s.me .lns6 b l)).1) (Spec.givenScale s md j) :=
    hadd md a b ▸ funext₂ (encoded_eq s md _)
  have hlocal (md : CvtMode) (a b : VReg) : BlockLocal (laddBlock s md a b) :=
    hadd md a b ▸ blockLocal_encoded s md (laneLocal_add a b)
  unfold Spec.lns at hx
  split at hx <;> cases hx
  next st md d a m => exact vcvt_answers rfl h
  next t d a b m => exact ⟨_, blockLocal_lmulBlock s .own a b, hmul (.inl rfl) a b, hgo .own a b h.typed h.scalars h.held _⟩
  next t g d a b m =>
    exact ⟨_, blockLocal_lmulBlock s (givenMode g) a b, hmul (.inr ⟨g, rfl⟩) a b, hgo (givenMode g) a b h.typed h.scalars h.held _⟩
  next t d a b m => exact ⟨_, hlocal .own a b, hsum .own a b, hgo .own a b h.typed h.scalars h.held _⟩
  next t g d a b m => exact ⟨_, hlocal (givenMode g) a b, hsum (givenMode g) a b, hgo (givenMode g) a b h.typed h.scalars h.held _⟩

/-- Settles O21: the instruction is one write of its blocks, each of which rests on its own lanes. -/
theorem lnsResult : Obligations.LnsResult := by
  unfold Obligations.LnsResult
  intro i s x hx htyped hready hread hheld hsource lanes bl at_
  obtain ⟨f, hf, hblock, hexec⟩ := exec_lns hx ⟨hready, htyped, hread, hheld, hsource⟩
  obtain ⟨-, -, hp, -, -, hv⟩ := hready
  obtain ⟨hframe, hcode, hscale, hother⟩ := hblock ▸ writeBlocks_written hf hp x.dst (lanesOf_lt s.me _ : ∀ l ∈ lanes, l < 1024)
  obtain ⟨hdone, haged, hflags, hregs⟩ := vdone_vregs hv hframe
  have hbox (v l : Nat) : (vdone (writeBlocks x.dst f lanes s)).me.box v l = (writeBlocks x.dst f lanes s).me.box v l :=
    congrArg (fun vr => (tget 0 vr (v * 1024 + l)).toNat) hregs
  refine ⟨_, hexec, hdone, fun j k r hr => ?code, fun l hl hnot hin => ?scale, fun l hl hnot => ?block, fun v l hv hl => ?register,
    hflags, hdone.2.2, haged⟩
  case code => exact (hbox ..).trans (hcode j k r hr)
  case scale => exact (hbox ..).trans (hscale l hl hnot
    ((List.any_eq_true.mp hin).imp fun _ ⟨hr, h⟩ => ⟨hr, of_decide_eq_true h⟩))
  case block => exact (hbox ..).trans (hother _ _ hl (.inr fun r hr h => List.any_eq_false.mp hnot r hr (decide_eq_true h)))
  case register => exact (hbox ..).trans (hother _ _ hl (.inl hv))

end Sys2Proof.Machine
end

section
/-! SUPPORT. Lane-local access (R198, R212): O37 fails, as a load of the lane-local store may touch a line of a stash window. -/

namespace Sys2Proof.Machine
open Sys2Proof

/-- Three page tables, of which each of both stages takes the first entries: they map the first GiB to itself. Their keys are those of
partition 1,024's frame space, where the lane-local store of core 0 stands too; no field of State bounds the number of a partition. -/
def aliasTables : Tab Byte :=
  [(2 ^ 64, 0x03), (2 ^ 64 + 1, 0x10), (2 ^ 64 + 0x1000, 0x03), (2 ^ 64 + 0x1001, 0x20), (2 ^ 64 + 0x2000, 0x05)]

/-- A strand with one active lane and 4 bytes of lane-local store a lane, and a function of partition 1,024 with an open window of its
first page. -/
def aliasState : State := { State.reset with
  me := { vheld := 1, vl := 1, vtype := ⟨.fault, .b16, .lns6⟩ }
  crews := [(0, { decl := { llbytes := 4 } })]
  parts := [(1024, { t2 := 1 })]
  vfs := [(0, { part := 1024, windows := [(0, some ⟨0, 65536⟩)] })]
  mem := aliasTables }

/-- Lines of stash windows that an instruction leaves held. -/
def stashAfter (o : Out) : List StashLine := match o with
  | .next t => t.stash
  | _ => []

/-- The load fills the line of the window that its byte lies in (R282). -/
theorem stashAfter_lldx : (stashAfter (exec (.lldx .dflt 0 0 0) aliasState)).map (·.key) = [aliasState.llKey 0 0 / 256] := by
  decide +kernel

/-- Refutes O37: `lldx` completes with a line of the window held, where the statement has nothing but the strand change. -/
theorem not_lnsMemory : ¬ Obligations.LnsMemory := by
  unfold Obligations.LnsMemory
  intro h
  obtain ⟨-, hlocal⟩ := h aliasState ⟨rfl, rfl, rfl, rfl, rfl, rfl⟩ rfl rfl rfl
  obtain ⟨hload, -⟩ := hlocal .dflt 0 0 0 0 (by decide) (by decide) (by decide) (by decide +kernel)
  obtain ⟨t, hexec, ⟨⟨-, -, -, honly, -⟩, -⟩, -⟩ := hload (.lldx .dflt 0 0 0) (.inl ⟨rfl, rfl⟩)
  have hstash : t.stash = [] := by rw [honly]; rfl
  have hline := stashAfter_lldx
  rw [hexec, stashAfter, hstash] at hline
  cases hline

end Sys2Proof.Machine
end

section
/-! SUPPORT. Accumulator images (R235 to R240): their elements, matrix multiply, and `zclr`. -/

namespace Sys2Proof.Machine
open Sys2Proof

/-! ### Elements of an image -/

/-- Entries written to a table at the listed keys, and every other one. -/
theorem tget_foldl_tset {α : Type} [DecidableEq α] (d : α) (g : Nat → α) (ks : List Nat) (j : Nat) : ∀ t : Tab α,
    tget d (ks.foldl (fun t k => tset d t k (g k)) t) j = if j ∈ ks then g j else tget d t j := by
  induction ks with
  | nil => intro t; rw [List.foldl_nil, if_neg List.not_mem_nil]
  | cons k ks ih =>
    intro t
    rw [List.foldl_cons, ih, tget_tset]
    by_cases hk : j = k <;> by_cases hin : j ∈ ks <;> simp [hk, hin]

/-- The row and the column of an image's element, from its key. -/
theorem zKey_parts (k : Nat) {r c : Nat} (hr : r < 64) (hc : c < 64) :
    zKey k r c / 4096 = k ∧ zKey k r c / 64 % 64 = r ∧ zKey k r c % 64 = c := by
  unfold zKey
  omega

/-- The keys of the first rows and columns of an image. -/
def imageKeys (k rows cols : Nat) : List Nat := (List.range rows).flatMap fun r => (List.range cols).map fun c => zKey k r c

theorem mem_imageKeys (k : Nat) {k' r c rows cols : Nat} (hrows : rows ≤ 64) (hcols : cols ≤ 64) (hr : r < 64) (hc : c < 64) :
    zKey k' r c ∈ imageKeys k rows cols ↔ k' = k ∧ r < rows ∧ c < cols := by
  simp only [imageKeys, List.mem_flatMap, List.mem_map, List.mem_range]
  constructor
  · rintro ⟨r', hr', c', hc', h⟩
    obtain ⟨h1, h2, h3⟩ := zKey_parts k' hr hc
    obtain ⟨h1', h2', h3'⟩ := zKey_parts k (Nat.lt_of_lt_of_le hr' hrows) (Nat.lt_of_lt_of_le hc' hcols)
    rw [h] at h1' h2' h3'
    exact ⟨h1.symm.trans h1', (h2.symm.trans h2') ▸ hr', (h3.symm.trans h3') ▸ hc'⟩
  · rintro ⟨rfl, hr, hc⟩
    exact ⟨r, hr, c, hc, rfl⟩

/-- The elements of an image written by row and column. -/
theorem imageKeys_map {α : Type} (k : Nat) (g : Nat → Nat → α) {rows cols : Nat} (hrows : rows ≤ 64) (hcols : cols ≤ 64) :
    ((List.range rows).flatMap fun r => (List.range cols).map fun c => (zKey k r c, g r c)) =
      (imageKeys k rows cols).map fun x => (x, g (x / 64 % 64) (x % 64)) := by
  rw [imageKeys, List.map_flatMap]
  refine List.flatMap_congr fun r hr => ?_
  rw [List.map_map]
  refine List.map_congr_left fun c hc => ?_
  obtain ⟨-, h2, h3⟩ := zKey_parts k (Nat.lt_of_lt_of_le (List.mem_range.mp hr) hrows) (Nat.lt_of_lt_of_le (List.mem_range.mp hc) hcols)
  simp only [Function.comp_apply, h2, h3]

/-- An image after its first rows and columns are written, and every other one. -/
theorem tget_writeImage (k : Nat) (g : Nat → Nat → Word32) {rows cols : Nat} (hrows : rows ≤ 64) (hcols : cols ≤ 64) (t : Tab Word32)
    (k' : Nat) {r c : Nat} (hr : r < 64) (hc : c < 64) :
    tget 0 (((List.range rows).flatMap fun r => (List.range cols).map fun c => (zKey k r c, g r c)).foldl
      (fun t e => tset 0 t e.1 e.2) t) (zKey k' r c) =
      if k' = k ∧ r < rows ∧ c < cols then g r c else tget 0 t (zKey k' r c) := by
  obtain ⟨-, h2, h3⟩ := zKey_parts k' hr hc
  rw [imageKeys_map k g hrows hcols, List.foldl_map]
  simp only [tget_foldl_tset 0 (fun x => g (x / 64 % 64) (x % 64)), mem_imageKeys k hrows hcols hr hc, h2, h3]

/-! ### Sums of products (R54, R76, R78, R235) -/

theorem tileElem_int8_lt (m : Strand) (k r n : Nat) {x : Nat} {sc : Int} (h : m.tileElem .int8 k r n = some (x, sc)) : x < 2 ^ 8 := by
  unfold Strand.tileElem at h
  dsimp only at h
  split at h
  · cases h
  · rw [if_neg (by decide), Option.some_inj, Prod.mk.injEq] at h
    rw [← h.1]
    exact leVal_lt _

/-- An INT8 element as the exact sum takes it. -/
def int8At (m : Strand) (u : Bool) (k r n : Nat) : Int := match m.tileElem .int8 k r n with
  | some (x, _) => Spec.toNum (if u then .u8 else .i8) x
  | none => 0

theorem tileInt_eq (m : Strand) (u : Bool) (k r n : Nat) : tileInt u (m.tileElem .int8 k r n) = int8At m u k r n := by
  unfold int8At
  cases h : m.tileElem .int8 k r n with
  | none => rfl
  | some p =>
    obtain ⟨x, sc⟩ := p
    have hx := tileElem_int8_lt m k r n h
    cases u with
    | true => exact read_eq_toNum (e := .u8) rfl hx
    | false => exact read_eq_toNum (e := .i8) rfl hx

/-- The type of an INT8 accumulator (R235). -/
def mmaTy (o : MmaOps) : Ty := if o.ua && o.ub then .u32 else .i32

/-- The INT8 sum of an element is exact, narrowed with IOV. -/
theorem chainInt_exact (m : Strand) (o : MmaOps) (r c : Nat) :
    chainInt (o.ua && o.ub) (if o.z then 0 else (tget 0 m.zimg (zKey o.d r c)).toNat)
      (((List.range m.gshape.lk).map fun k => (m.tileElem .int8 o.a r k, m.tileElem .int8 o.b c k)).map fun x =>
        tileInt o.ua x.1 * tileInt o.ub x.2) =
      { bits := Spec.low (mmaTy o) (Spec.intDot m o r c)
        fl := { iov := decide (Spec.intDot m o r c ≠ Spec.clamped (mmaTy o) (Spec.intDot m o r c)) } } := by
  have hint : isInt (mmaTy o) = true := by unfold mmaTy; split <;> rfl
  have hty : (⟨32, !(o.ua && o.ub)⟩ : IntTy) = intOf (mmaTy o) := by unfold mmaTy; cases o.ua && o.ub <;> rfl
  have hbits : tyBits (mmaTy o) = 32 := by unfold mmaTy; split <;> rfl
  have hacc : (intOf (mmaTy o)).read (if o.z then 0 else (tget 0 m.zimg (zKey o.d r c)).toNat) =
      if o.z then 0 else Spec.toNum (mmaTy o) (tget 0 m.zimg (zKey o.d r c)).toNat := by
    have hlt : (if o.z then 0 else (tget 0 m.zimg (zKey o.d r c)).toNat) < 2 ^ tyBits (mmaTy o) := by
      rw [hbits]
      split
      · decide
      · exact BitVec.isLt _
    rw [read_eq_toNum hint hlt]
    cases o.z with
    | false => rfl
    | true => rw [if_pos rfl, if_pos rfl]; unfold mmaTy; split <;> rfl
  have hsum : (((List.range m.gshape.lk).map fun k => (m.tileElem .int8 o.a r k, m.tileElem .int8 o.b c k)).map fun x =>
      tileInt o.ua x.1 * tileInt o.ub x.2) = (List.range m.gshape.lk).map fun n => int8At m o.ua o.a r n * int8At m o.ub o.b c n := by
    rw [List.map_map]
    exact List.map_congr_left fun n _ => by simp only [Function.comp_apply, tileInt_eq]
  have hdot : List.foldl (· + ·) (if o.z then 0 else Spec.toNum (mmaTy o) (tget 0 m.zimg (zKey o.d r c)).toNat)
      ((List.range m.gshape.lk).map fun n => int8At m o.ua o.a r n * int8At m o.ub o.b c n) = Spec.intDot m o r c :=
    List.foldl_eq_apply_foldr
  have hclamp := clamp_ne_iff (intOf (mmaTy o)) (Spec.intDot m o r c) (intOf_range _)
  rw [chainInt, hty, hsum]
  simp only [hacc, hdot, wrap_eq_low hint, ← clamp_eq_clamped hint, decide_eq_decide.mpr hclamp, Bool.decide_or, gt_iff_lt]

/-- What O43 states of an element of a multiply. -/
def mmaSpec (m : Strand) (o : MmaOps) (ordered : Bool) (r c : Nat) : FRes :=
  let old := if o.z then 0 else (tget 0 m.zimg (zKey o.d r c)).toNat
  let terms := (List.range m.gshape.lk).map fun k => tileProduct m.gshape.fmt (m.tileElem m.gshape.fmt o.a r k) (m.tileElem m.gshape.fmt o.b c k)
  if m.gshape.fmt = .int8 then
    { bits := Spec.low (mmaTy o) (Spec.intDot m o r c)
      fl := { iov := decide (Spec.intDot m o r c ≠ Spec.clamped (mmaTy o) (Spec.intDot m o r c)) } }
  else if ordered then chainO old terms else chainR old terms

theorem mmaElem_eq (m : Strand) (o : MmaOps) (r c : Nat) : mmaElem m o r c = mmaSpec m o o.ordered r c := by
  unfold mmaElem mmaSpec
  by_cases h : m.gshape.fmt = .int8
  · simp only [h, if_true]
    exact chainInt_exact m o r c
  · simp only [if_neg h, List.map_map]
    rfl

/-! ### Heads -/

/-- A tile head on a compute core with its own context, readable registers and registers within their limits runs. -/
theorem tileHead_go {s : State} {rs : List SReg} {regs : List (Nat × Nat)} (k : State → State) (hc : s.me.onSteward = false)
    (hl : lazyOwner s = none) (hr : Readable s rs) (hregs : ∀ e ∈ regs, e.1 < e.2) : tileHead false false rs regs k s = k s := by
  have hfind : regs.find? (fun e => e.1 ≥ e.2) = none := by
    rw [List.find?_eq_none]
    exact fun e he => by simpa using hregs e he
  simp only [tileHead, notOnSteward_compute hc, trapIf_false, stallShort_readable s rs hr, vown_eq_none hl, hfind, Option.map_none,
    scalarPoison_readable s rs hr, checked_none, checked_nil]

/-- What a head leaves that has changed images and flags, and the device but for the strand, `s` being where it began. -/
theorem finish_images {s u : State} {fl : FFlags} {zi : Tab Word32} {zd : Tab ZDim} {zp : List Nat} (hc : u.cycle = s.cycle)
    (hme : u.me = { s.me with fflags := fl, zimg := zi, zdim := zd, zpois := zp }) :
    (finish u).me.pc = nextPc s.me ∧ PassedHead s (finish u) ∧ AgedRegs s (finish u) ∧ OnlyImages s (finish u)
      ∧ (finish u).me.zimg = zi ∧ (finish u).me.zdim = zd ∧ (finish u).me.fflags = fl := by
  obtain ⟨rs, ps, ha⟩ := Strand.age_frame u.me (1 + u.me.ir.sc)
  have hm : (finish u).me = { s.me with
      regs := rs, pend := ps, pc := nextPc s.me, via := {}, carry := none, failed := [], fflags := fl, zimg := zi, zdim := zd
      zpois := zp } := by
    rw [finish_me, ha, hme]
    rfl
  refine ⟨by rw [hm], passedHead_finish hc (by rw [hme]), agedRegs_finish (by rw [hme]) (by rw [hme]) (by rw [hme]), ?only, by rw [hm],
    by rw [hm], by rw [hm]⟩
  case only => rw [OnlyImages, hm]

/-! ### Matrix multiply (R235, R236) -/

/-- The flags of every element of a multiply. -/
def mmaFlags (m : Strand) (o : MmaOps) : FFlags :=
  orFlags ((List.range m.gshape.lm).flatMap fun r => (List.range m.gshape.ln).map (mmaElem m o r))

/-- The image that a multiply leaves. -/
def mmaImage (m : Strand) (o : MmaOps) : Tab Word32 :=
  ((List.range m.gshape.lm).flatMap fun r => (List.range m.gshape.ln).map fun c =>
    (zKey o.d r c, BitVec.ofNat 32 (mmaElem m o r c).bits)).foldl (fun t e => tset 0 t e.1 e.2) m.zimg

/-- The dimensions that a multiply leaves (R236). -/
def mmaDim (m : Strand) (o : MmaOps) : ZDim :=
  let zd := tget {} m.zdim o.d
  { fp := if o.z then m.gshape.fmt ≠ .int8 else zd.fp, rows := max zd.rows m.gshape.lm, cols := max zd.cols m.gshape.ln }

theorem mmaWrite_eq (o : MmaOps) (s : State) : mmaWrite o s = { s with me := { s.me with
    fflags := s.me.fflags.or (mmaFlags s.me o), zimg := mmaImage s.me o, zdim := tset {} s.me.zdim o.d (mmaDim s.me o) } } := by
  have himg : ((List.range s.me.gshape.lm).flatMap fun r => (List.range s.me.gshape.ln).map fun c =>
      (zKey o.d r c, mmaElem s.me o r c)).foldl (fun t e => tset 0 t e.1 (BitVec.ofNat 32 e.2.bits)) s.me.zimg = mmaImage s.me o := by
    rw [mmaImage, List.foldl_flatMap, List.foldl_flatMap]
    simp only [List.foldl_map]
  have hflags : ((List.range s.me.gshape.lm).flatMap fun r => (List.range s.me.gshape.ln).map fun c =>
      (zKey o.d r c, mmaElem s.me o r c)).map (·.2) =
        (List.range s.me.gshape.lm).flatMap fun r => (List.range s.me.gshape.ln).map (mmaElem s.me o r) := by
    rw [List.map_flatMap]
    simp only [List.map_map, Function.comp_def]
  unfold mmaWrite addFlags State.modMe
  dsimp only
  rw [himg, hflags, mmaFlags, mmaDim]

theorem tilePoison_clean {m : Strand} (h : m.tpois = []) (k rows : Nat) : tilePoison m k rows = none := by
  simp [tilePoison, h]

theorem mmaPoison_clean {m : Strand} (ht : m.tpois = []) (hz : m.zpois = []) (o : MmaOps) : mmaPoison m o = none := by
  simp [mmaPoison, tilePoison_clean ht, hz]

/-- Work of an engine on an empty queue acts at once. -/
theorem engine_at_once {s : State} (h : VecReady s) (i : Instr) (w : Wait) (k : State → State) : engine i w k s = k s := by
  obtain ⟨-, -, -, hd, hq, -⟩ := h
  simp [engine, queues, hd, hq]

/-- A multiply of which nothing is refused is one write of its image. -/
theorem mmaHead_go {s : State} (h : VecReady s) (i : Instr) {o : MmaOps} (hgv : s.me.gshape.gv = true)
    (hty : o.t = .dflt ∨ o.t = tfmtTy s.me.gshape.fmt) (hsign : (o.ua || o.ub) = true → s.me.gshape.fmt = .int8)
    (hlns : s.me.gshape.fmt = .lns6 → s.me.gshape.gk % s.me.blen = 0)
    (hfp : o.z = false → ((tget {} s.me.zdim o.d).fp = true ↔ s.me.gshape.fmt ≠ .int8)) (ha : o.a.val < s.me.tdecl)
    (hb : o.b.val < s.me.tdecl) (hd : o.d.val < s.me.zdecl) (ht : s.me.tpois = []) (hz : s.me.zpois = []) :
    mmaHead i o s = finish (mmaWrite o s) := by
  have helem : (if o.t = .dflt then tfmtTy s.me.gshape.fmt else o.t) = tfmtTy s.me.gshape.fmt := by
    rcases hty with he | he
    · rw [if_pos he]
    · rw [he]; exact ite_self _
  have hbad4 : ((o.ua || o.ub) && decide (tfmtTy s.me.gshape.fmt ≠ .i8)) = false := by
    cases hs : o.ua || o.ub with
    | false => rfl
    | true => rw [hsign hs]; rfl
  have hbad6 : ((decide (o.t ≠ .dflt) && decide (o.t ≠ tfmtTy s.me.gshape.fmt))
      || (!o.z && decide (((tget {} s.me.zdim o.d).fp = true) ≠ (s.me.gshape.fmt ≠ .int8)))) = false := by
    have h1 : (decide (o.t ≠ .dflt) && decide (o.t ≠ tfmtTy s.me.gshape.fmt)) = false := by
      rcases hty with he | he <;> simp [he]
    have h2 : (!o.z && decide (((tget {} s.me.zdim o.d).fp = true) ≠ (s.me.gshape.fmt ≠ .int8))) = false := by
      cases hz : o.z with
      | true => rfl
      | false =>
        have heq : ((tget {} s.me.zdim o.d).fp = true) = (s.me.gshape.fmt ≠ .int8) := propext (hfp hz)
        exact decide_eq_false fun hne => hne heq
    rw [h1, h2, Bool.or_false]
  have hgrant : (!s.me.gshape.gv || (decide (s.me.gshape.fmt = .lns6) && decide (s.me.gshape.gk % s.me.blen ≠ 0))) = false := by
    rw [hgv]
    by_cases hl : s.me.gshape.fmt = .lns6
    · simp [hl, hlns hl]
    · simp [hl]
  have hregs : ∀ e ∈ [(o.b.val, s.me.tdecl), (o.a.val, s.me.tdecl), (o.d.val, s.me.zdecl)], e.1 < e.2 := by
    simpa using ⟨hb, ha, hd⟩
  have hv : (mmaWrite o s).me.vop = none := by rw [mmaWrite_eq]; exact h.2.2.2.2.2
  unfold mmaHead
  dsimp only
  rw [helem, hbad4, hbad6, tileHead_go _ h.1 h.2.1 (readable_nil s) hregs, hgrant, if_neg Bool.false_ne_true, engine_at_once h,
    mmaPoison_clean ht hz]
  exact complete_of_front hv

theorem mma_passed (o : MmaOps) (s : State) :
    (finish (mmaWrite o s)).me.pc = nextPc s.me ∧ PassedHead s (finish (mmaWrite o s)) ∧ AgedRegs s (finish (mmaWrite o s))
      ∧ OnlyImages s (finish (mmaWrite o s)) ∧ OnlyMe s (finish (mmaWrite o s)) ∧ (finish (mmaWrite o s)).me.zimg = mmaImage s.me o
      ∧ (finish (mmaWrite o s)).me.zdim = tset {} s.me.zdim o.d (mmaDim s.me o)
      ∧ (finish (mmaWrite o s)).me.fflags = s.me.fflags.or (mmaFlags s.me o) := by
  rw [mmaWrite_eq]
  obtain ⟨hpc, hpass, haged, honly, himg, hdim, hfl⟩ := finish_images (s := s) (u := { s with me := { s.me with
    fflags := s.me.fflags.or (mmaFlags s.me o), zimg := mmaImage s.me o, zdim := tset {} s.me.zdim o.d (mmaDim s.me o) } }) rfl rfl
  exact ⟨hpc, hpass, haged, honly, rfl, himg, hdim, hfl⟩

/-! ### `zclr` (R240) -/

theorem execZclr_go {s : State} (h : VecReady s) (fp : Bool) {d : ZReg} (hd : d.val < s.me.zdecl) :
    exec (.zclr fp d) s = .next (finish (s.modMe fun m => m.putImage d fp 0 0 [])) := by
  show execZclr fp d s = _
  rw [execZclr, tileHead_go _ h.1 h.2.1 (readable_nil s) (by simpa using hd)]

/-- The other images of a table. -/
theorem tget_otherImages (t : Tab Word32) (k k' : Nat) {r c : Nat} (hr : r < 64) (hc : c < 64) :
    tget 0 (t.filter fun e => decide (e.1 / 4096 ≠ k)) (zKey k' r c) = if k' = k then 0 else tget 0 t (zKey k' r c) := by
  obtain ⟨h1, -⟩ := zKey_parts k' hr hc
  rw [tget_filter 0 (fun x => decide (x / 4096 ≠ k)) t, h1]
  by_cases hk : k' = k <;> simp [hk]

end Sys2Proof.Machine
end

section
/-! SUPPORT. What a multiply and a `zclr` leave of their images (R235, R236, R240). -/

namespace Sys2Proof.Machine
open Sys2Proof

theorem exec_multiply {i : Instr} {o : MmaOps} {ordered : Bool} (h : Spec.multiply i = some (o, ordered)) (s : State) :
    exec i s = .next (mmaHead i o s) ∧ o.ordered = ordered := by
  unfold Spec.multiply at h
  split at h <;> cases h <;> exact ⟨rfl, rfl⟩

theorem tileTy_eq (f : TFmt) : Spec.tileTy f = tfmtTy f := by cases f <;> rfl

/-- Every live element of a multiply's image is its result; every other element of every image stays. -/
theorem tget_mmaImage (m : Strand) (o : MmaOps) (hrows : m.gshape.lm ≤ 64) (hcols : m.gshape.ln ≤ 64) (k : Nat) {r c : Nat} (hr : r < 64)
    (hc : c < 64) : tget 0 (mmaImage m o) (zKey k r c) =
      if k = o.d.val ∧ r < m.gshape.lm ∧ c < m.gshape.ln then BitVec.ofNat 32 (mmaSpec m o o.ordered r c).bits
      else tget 0 m.zimg (zKey k r c) := by
  rw [mmaImage, tget_writeImage o.d.val (fun r c => BitVec.ofNat 32 (mmaElem m o r c).bits) hrows hcols m.zimg k hr hc, mmaElem_eq]

theorem mmaFlags_eq (m : Strand) (o : MmaOps) :
    mmaFlags m o = orFlags ((List.range m.gshape.lm).flatMap fun r => (List.range m.gshape.ln).map (mmaSpec m o o.ordered r)) := by
  have h : ∀ r, mmaElem m o r = mmaSpec m o o.ordered r := fun r => funext (mmaElem_eq m o r)
  rw [mmaFlags]
  simp only [h]

/-- A cleared image has no element; every other image stays. -/
theorem zclr_passed (s : State) (fp : Bool) (d : ZReg) :
    let t := finish (s.modMe fun m => m.putImage d fp 0 0 [])
    t.me.pc = nextPc s.me ∧ PassedHead s t ∧ AgedRegs s t ∧ OnlyImages s t ∧ OnlyMe s t
      ∧ (∀ k r c, r < 64 → c < 64 → tget 0 t.me.zimg (zKey k r c) = if k = d.val then 0 else tget 0 s.me.zimg (zKey k r c))
      ∧ (∀ k, tget {} t.me.zdim k = if k = d.val then ⟨fp, 0, 0⟩ else tget {} s.me.zdim k) ∧ t.me.fflags = s.me.fflags := by
  intro t
  obtain ⟨hpc, hpass, haged, honly, himg, hdim, hfl⟩ :=
    finish_images (s := s) (u := s.modMe fun m => m.putImage d fp 0 0 []) (fl := s.me.fflags) rfl rfl
  refine ⟨hpc, hpass, haged, honly, rfl, fun k r c hr hc => ?_, fun k => ?_, hfl⟩
  · rw [himg]
    exact tget_otherImages s.me.zimg d.val k hr hc
  · rw [hdim, tget_tset]

end Sys2Proof.Machine
end

section
/-! SUPPORT. Accesses whose pieces all have a place in memory (R202, R203, R296, R457): what their judgement and their reads leave. -/

namespace Sys2Proof.Machine
open Sys2Proof

/-! ### Judgement -/

/-- The judgements of pieces that all have a place. -/
def judgedOk (pw : Placed) : List (Piece × Judged) := pw.map fun e => (e.1, .ok e.2)

theorem failing_judgedOk (pw : Placed) : failing (judgedOk pw) = [] := by
  rw [failing, judgedOk, List.filterMap_map, List.filterMap_eq_nil_iff]
  exact fun _ _ => rfl

theorem filterMap_judgedOk {f : Piece × Judged → Option (Piece × Where)} (hf : ∀ p w, f (p, .ok w) = some (p, w)) (pw : Placed) :
    (judgedOk pw).filterMap f = pw := by
  rw [judgedOk, List.filterMap_map]
  exact (List.filterMap_congr fun e _ => hf e.1 e.2).trans List.filterMap_some

theorem find_judgedOk {f : Piece × Judged → Bool} (hf : ∀ p w, f (p, .ok w) = false) (pw : Placed) : (judgedOk pw).find? f = none := by
  rw [judgedOk, List.find?_map, Option.map_eq_none_iff, List.find?_eq_none]
  exact fun e _ => by simp [hf]

theorem judged_of_placed {s : State} {spc : Spc} {acc : Acc} {plainOk : Bool} {ps : List Piece} {pw : Placed}
    (h : Spec.Placed s spc acc plainOk ps pw) : (ps.map fun p => (p, judge s spc acc plainOk p)) = judgedOk pw := by
  obtain ⟨rfl, hpw⟩ := h
  rw [List.map_map]
  exact List.map_congr_left fun e he => congrArg (Prod.mk e.1) (hpw e he).1

/-- An access of which every piece has a place goes on with the places. -/
theorem withPlaces_go {s : State} {spc : Spc} {acc : Acc} {plainOk : Bool} {ps : List Piece} {pw : Placed}
    (h : Spec.Placed s spc acc plainOk ps pw) (idx : Bool) (k : Placed → State → State) :
    withPlaces ps spc acc idx plainOk k s = k pw (touchAll pw s) := by
  have hlost : ∀ f : Piece × Where → Bool, (∀ e ∈ pw, f e = false) → (if acc.r then pw.find? f else none) = none := fun f hf => by
    split
    · exact List.find?_eq_none.mpr fun e he => by simp [hf e he]
    · rfl
  unfold withPlaces
  dsimp only
  rw [judged_of_placed h, failing_judgedOk, find_judgedOk (fun _ _ => rfl), filterMap_judgedOk (fun _ _ => rfl), hlost]
  · rfl
  · intro e he
    split
    · next c hc => rw [(h.2 e he).2 c hc]; rfl
    · rfl

/-! ### Cells -/

/-- Every place is a byte of memory, and none of a plain view. -/
def Cells (pw : Placed) : Prop := ∀ e ∈ pw, ∃ k, e.2 = .cell k

/-- A place that the plain view may not give is a byte of memory. -/
theorem judge_cell {s : State} {spc : Spc} {acc : Acc} {p : Piece} {w : Where} (h : judge s spc acc false p = .ok w) : ∃ k, w = .cell k := by
  unfold judge at h
  dsimp only at h
  split at h
  · cases h
  cases spc with
  | sp => dsimp only at h; split at h <;> cases h; exact ⟨_, rfl⟩
  | ll => dsimp only at h; split at h <;> cases h; exact ⟨_, rfl⟩
  | gen =>
    dsimp only at h
    split at h
    all_goals cases h
    exact ⟨_, rfl⟩

theorem cells_of_placed {s : State} {spc : Spc} {acc : Acc} {ps : List Piece} {pw : Placed} (h : Spec.Placed s spc acc false ps pw) :
    Cells pw := fun e he => judge_cell (h.2 e he).1

theorem sectors_of_cells {pw : Placed} (h : Cells pw) : (pw.flatMap fun e => e.2.sectors e.1.n) = [] := by
  rw [List.flatMap_eq_nil_iff]
  intro e he
  obtain ⟨k, hk⟩ := h e he
  rw [hk, Where.sectors]

theorem judgePacked_of_cells {pw : Placed} (h : Cells pw) (s : State) : judgePacked s pw = [] := by
  rw [judgePacked, List.flatMap_eq_nil_iff]
  intro e he
  obtain ⟨k, hk⟩ := h e he
  rw [hk, Where.sectors, List.map_nil]

theorem dataPoison_of_cells {pw : Placed} (h : Cells pw) {s : State} (hp : s.mpois = []) (ht : s.t2lost = []) : dataPoison s pw = none := by
  have hnone : (pw.flatMap fun e => (poisonAddrs s e.1 e.2).map fun a => (a, e.1.lane)) = [] := by
    rw [List.flatMap_eq_nil_iff]
    intro e he
    obtain ⟨k, hk⟩ := h e he
    simp [hk, poisonAddrs, hp, ht]
  simp only [dataPoison, hnone]

/-- Places in memory without an error have their data. -/
theorem withData_cells {pw : Placed} (h : Cells pw) {s : State} (hp : s.mpois = []) (ht : s.t2lost = []) (spc : Spc) (idx : Bool)
    (k : State → State) : withData pw spc idx k s = k s := by
  simp only [withData, judgePacked_of_cells h, sectors_of_cells h, decodeInto, dataPoison_of_cells h hp ht]
  rfl

/-- Touched pages and windows change nothing that a core sees. -/
theorem touchAll_frame (pw : Placed) (s : State) : ∃ st vs ev, touchAll pw s = { s with stash := st, vfs := vs, events := ev } := by
  refine foldl_keeps (fun t : State => ∃ st vs ev, t = { s with stash := st, vfs := vs, events := ev }) _ (fun t e ht => ?_) pw s
    ⟨_, _, _, rfl⟩
  obtain ⟨st, vs, ev, rfl⟩ := ht
  split
  · exact touch_frame _ _
  · exact ⟨_, _, _, rfl⟩

/-- Lines that places fill show what was seen before, and nothing else changes. -/
theorem fillPlaces_frame (pw : Placed) (s : State) : ∃ l, fillPlaces pw s = { s with l1 := l }
    ∧ ∀ j, State.view { s with l1 := l } s.me.core j = s.view s.me.core j := by
  refine foldl_keeps (fun t : State => ∃ l, t = { s with l1 := l } ∧ ∀ j, State.view { s with l1 := l } s.me.core j = s.view s.me.core j)
    _ (fun t e ht => ?_) pw s ⟨s.l1, rfl, fun _ => rfl⟩
  obtain ⟨l, rfl, hv⟩ := ht
  split
  · next k _ =>
    obtain ⟨l', hl', hv'⟩ := fillLines_frame s.me.core k e.1.n { s with l1 := l }
    exact ⟨l', hl', fun j => (hv' j).trans (hv j)⟩
  · exact ⟨l, rfl, hv⟩

theorem dataOf_congr {s t : State} (hcore : t.me.core = s.me.core) (hview : ∀ k, t.view s.me.core k = s.view s.me.core k) {pw : Placed}
    (h : Cells pw) (tag : Nat) : Spec.dataOf t pw tag = Spec.dataOf s pw tag := by
  refine List.flatMap_congr fun e he => ?_
  obtain ⟨k, hk⟩ := h e (List.mem_filter.mp he).1
  rw [hk, Where.bytes, Where.bytes, hcore, viewBytes_congr hview]

/-! ### Rows of a strided range (R199, R238, R239) -/

/-- A range of at most a page is in one or two pieces. -/
theorem splitPages_eq_span (lane tag : Nat) (a : Word) {n : Nat} (align : Nat) (hn : n ≤ 65536) :
    splitPages lane tag align 4 a n = Spec.span lane tag a n align := by
  have hroom : (a + word (65536 - a.toNat % 65536)).toNat % 65536 = 0 := by
    rw [word, BitVec.toNat_add, BitVec.toNat_ofNat]
    omega
  rw [Spec.span]
  by_cases h0 : n = 0
  · simp only [splitPages, h0, if_true]
  · by_cases h1 : n ≤ 65536 - a.toNat % 65536
    · simp only [splitPages, h0, h1, if_true, if_false]
    · have h2 : n - (65536 - a.toNat % 65536) ≠ 0 := by omega
      have h3 : n - (65536 - a.toNat % 65536) ≤ 65536 - 0 := by omega
      simp only [splitPages, h0, h1, h2, hroom, h3, if_true, if_false]
      rfl

theorem rowPieces_eq_span (base stride : Word) {n : Nat} (align tag r : Nat) (hn : n ≤ 65536) :
    rowPieces base stride n align tag r = Spec.span 1024 tag (base + BitVec.ofNat 64 r * stride) n align :=
  splitPages_eq_span 1024 tag _ align hn

end Sys2Proof.Machine
end

section
/-! SUPPORT. Loads of an image (R238). -/

namespace Sys2Proof.Machine
open Sys2Proof

/-- The state in which a load reads its places. -/
def readPlaces (pw : Placed) (s : State) : State := fillPlaces pw (touchAll pw s)

/-- Reading places leaves the strand, memory and stores, and what the core sees. -/
theorem readPlaces_frame (pw : Placed) (s : State) : ∃ st vs ev l,
    readPlaces pw s = { s with stash := st, vfs := vs, events := ev, l1 := l }
      ∧ ∀ j, (readPlaces pw s).view s.me.core j = s.view s.me.core j := by
  obtain ⟨st, vs, ev, htouch⟩ := touchAll_frame pw s
  obtain ⟨l, hl, hv⟩ := fillPlaces_frame pw { s with stash := st, vfs := vs, events := ev }
  refine ⟨st, vs, ev, l, by rw [readPlaces, htouch, hl], fun j => ?_⟩
  rw [readPlaces, htouch, hl]
  exact (hv j).trans (by apply view_congr <;> rfl)

/-- The elements that a load gives an image, from the bytes of its rows. -/
def imageElems (s : State) (pw : Placed) (rows cols : Nat) : List (Nat × Nat × Nat) :=
  (List.range rows).flatMap fun r => (List.range cols).map fun c => (r, c, leVal (((Spec.dataOf s pw r).drop (4 * c)).take 4))

theorem imageElems_congr {s t : State} (hcore : t.me.core = s.me.core) (hview : ∀ k, t.view s.me.core k = s.view s.me.core k) {pw : Placed}
    (h : Cells pw) (rows cols : Nat) : imageElems t pw rows cols = imageElems s pw rows cols := by
  simp only [imageElems, dataOf_congr hcore hview h]

theorem leVal_four_lt (b : List Byte) : leVal (b.take 4) < 2 ^ 32 :=
  (leVal_lt _).trans_le (Nat.pow_le_pow_right (by decide) (Nat.mul_le_mul_left 8 (List.length_take_le 4 b)))

/-- A loaded image has its elements and no other; every other image stays. -/
theorem tget_putImage (s : State) (m : Strand) (d : Nat) (fp : Bool) (pw : Placed) {rows cols : Nat} (hrows : rows ≤ 64) (hcols : cols ≤ 64)
    (k : Nat) {r c : Nat} (hr : r < 64) (hc : c < 64) :
    (tget 0 (m.putImage d fp rows cols (imageElems s pw rows cols)).zimg (zKey k r c)).toNat =
      if k ≠ d then (tget 0 m.zimg (zKey k r c)).toNat
      else if r < rows ∧ c < cols then leVal (((Spec.dataOf s pw r).drop (4 * c)).take 4) else 0 := by
  have himg : (m.putImage d fp rows cols (imageElems s pw rows cols)).zimg =
      ((List.range rows).flatMap fun r => (List.range cols).map fun c =>
        (zKey d r c, BitVec.ofNat 32 (leVal (((Spec.dataOf s pw r).drop (4 * c)).take 4)))).foldl (fun t e => tset 0 t e.1 e.2)
          (m.zimg.filter fun e => decide (e.1 / 4096 ≠ d)) := by
    show (imageElems s pw rows cols).foldl (fun t e => tset 0 t (zKey d e.1 e.2.1) (BitVec.ofNat 32 e.2.2)) _ = _
    rw [imageElems, List.foldl_flatMap, List.foldl_flatMap]
    simp only [List.foldl_map]
  rw [himg, tget_writeImage d (fun r c => BitVec.ofNat 32 (leVal (((Spec.dataOf s pw r).drop (4 * c)).take 4))) hrows hcols _ k hr hc,
    tget_otherImages m.zimg d k hr hc]
  by_cases hk : k = d
  · by_cases hin : r < rows ∧ c < cols
    · rw [if_pos ⟨hk, hin⟩, if_neg (not_not.mpr hk), if_pos hin, BitVec.toNat_ofNat, Nat.mod_eq_of_lt (leVal_four_lt _)]
    · rw [if_neg fun h => hin h.2, if_pos hk, if_neg (not_not.mpr hk), if_neg hin]
      rfl
  · rw [if_neg fun h => hk h.1, if_neg hk, if_pos hk]

theorem exec_imageLoad {i : Instr} {t : Ty} {sp : Bool} {d : ZReg} {a b : SReg} {x : Imm}
    (h : (i = .zld t sp d a b ∧ x = 0) ∨ i = .zldImm t sp d a b x) (s : State) :
    exec i s = .next (zldHead t (Spec.spaceOf sp) d a b x s) := by
  rcases h with ⟨rfl, rfl⟩ | rfl <;> rfl

/-- The pieces of an image's rows. -/
def imagePieces (s : State) (a b : SReg) (x : Imm) (rows n align : Nat) : List Piece :=
  (List.range rows).flatMap fun r => Spec.span 1024 r (Spec.effective s a x + BitVec.ofNat 64 r * s.rd b) n align

theorem imagePieces_eq (s : State) (a b : SReg) (x : Imm) (rows : Nat) {n : Nat} (align : Nat) (hn : n ≤ 65536) :
    ((List.range rows).flatMap fun r => rowPieces (s.ea a x) (s.rd b) n align r r) = imagePieces s a b x rows n align :=
  List.flatMap_congr fun r _ => rowPieces_eq_span _ _ align r r hn

/-- A load of an image with a place for every row reads its rows. -/
theorem zldHead_go {s : State} (h : VecReady s) (t : Ty) {spc : Spc} {d : ZReg} {a b : SReg} {x : Imm} (hgv : s.me.gshape.gv = true)
    (hr : Readable s [a, b]) (hd : d.val < s.me.zdecl) (hcols : s.me.gshape.ln ≤ 64) (hp : s.mpois = []) (ht : s.t2lost = []) {pw : Placed}
    (hpw : Spec.Placed s spc .rd false (imagePieces s a b x s.me.gshape.lm (4 * s.me.gshape.ln) 4) pw) :
    zldHead t spc d a b x s = finish ((readPlaces pw s).modMe fun m =>
      m.putImage d (decide (t = .f32)) s.me.gshape.lm s.me.gshape.ln (imageElems s pw s.me.gshape.lm s.me.gshape.ln)) := by
  have hcells := cells_of_placed hpw
  obtain ⟨st, vs, ev, htouch⟩ := touchAll_frame pw s
  have hpu : (touchAll pw s).mpois = [] := by rw [htouch]; exact hp
  have htu : (touchAll pw s).t2lost = [] := by rw [htouch]; exact ht
  obtain ⟨_, _, _, _, hread, hview⟩ := readPlaces_frame pw s
  have helems := imageElems_congr (t := readPlaces pw s) (by rw [hread]) hview hcells s.me.gshape.lm s.me.gshape.ln
  unfold zldHead
  dsimp only
  rw [tileHead_go _ h.1 h.2.1 hr (by simpa using hd), hgv, imagePieces_eq s a b x _ 4 (by omega), Bool.not_true, if_neg Bool.false_ne_true,
    withPlaces_go hpw, withData_cells hcells hpu htu, ← helems]
  rfl

/-- What a load of an image leaves. -/
theorem zld_passed (s : State) (pw : Placed) (d : ZReg) (fp : Bool) {rows cols : Nat} (hrows : rows ≤ 64) (hcols : cols ≤ 64) :
    let u := finish ((readPlaces pw s).modMe fun m => m.putImage d fp rows cols (imageElems s pw rows cols))
    u.me.pc = nextPc s.me ∧ PassedHead s u ∧ AgedRegs s u ∧ OnlyImages s u
      ∧ (∀ k r c, r < 64 → c < 64 → (tget 0 u.me.zimg (zKey k r c)).toNat =
        if k ≠ d.val then (tget 0 s.me.zimg (zKey k r c)).toNat
        else if r < rows ∧ c < cols then leVal (((Spec.dataOf s pw r).drop (4 * c)).take 4) else 0)
      ∧ (∀ k, tget {} u.me.zdim k = if k = d.val then ⟨fp, cols, rows⟩ else tget {} s.me.zdim k)
      ∧ u.mem = s.mem ∧ u.sbuf = s.sbuf ∧ u.me.fflags = s.me.fflags := by
  obtain ⟨st, vs, ev, l, hread, -⟩ := readPlaces_frame pw s
  rw [hread]
  intro u
  obtain ⟨hpc, hpass, haged, honly, himg, hdim, hfl⟩ :=
    finish_images (s := s) (u := State.modMe { s with stash := st, vfs := vs, events := ev, l1 := l } fun m =>
      m.putImage d fp rows cols (imageElems s pw rows cols)) (fl := s.me.fflags) rfl rfl
  refine ⟨hpc, hpass, haged, honly, fun k r c hr hc => ?_, fun k => ?_, rfl, rfl, hfl⟩
  · rw [himg]
    exact tget_putImage s s.me d fp pw hrows hcols k hr hc
  · rw [hdim, tget_tset]

end Sys2Proof.Machine
end

section
/-! SUPPORT. Stores of many pieces (R296, R210): the bytes that a core sees after them, and what else they leave. -/

namespace Sys2Proof.Machine
open Sys2Proof

/-! ### The last of some writes -/

theorem lastByte_one (k : Nat) (bs : List Byte) (x : Nat) :
    Spec.lastByte [(k, bs)] x = if k ≤ x ∧ x < k + bs.length then bs[x - k]? else none := rfl

/-- The newest of two groups of writes decides. -/
theorem lastByte_append (ws vs : List (Nat × List Byte)) (x : Nat) :
    Spec.lastByte (ws ++ vs) x = (Spec.lastByte vs x).or (Spec.lastByte ws x) := by
  have hfold : ∀ (us : List (Nat × List Byte)) (r : Option Byte),
      us.foldl (fun r w => if w.1 ≤ x ∧ x < w.1 + w.2.length then w.2[x - w.1]? else r) r = (Spec.lastByte us x).or r := by
    intro us
    induction us with
    | nil => exact fun r => rfl
    | cons w us ih =>
      intro r
      have hcons : Spec.lastByte (w :: us) x =
          us.foldl (fun r w => if w.1 ≤ x ∧ x < w.1 + w.2.length then w.2[x - w.1]? else r)
            (if w.1 ≤ x ∧ x < w.1 + w.2.length then w.2[x - w.1]? else none) := rfl
      rw [List.foldl_cons, hcons, ih, ih, Option.or_assoc]
      refine congrArg (Option.or _) ?_
      split
      · next hin => rw [List.getElem?_eq_getElem (by omega), Option.some_or]
      · rfl
  rw [Spec.lastByte, List.foldl_append, hfold]
  rfl

/-! ### One store -/

theorem bufByte_append (core k : Nat) (p : PStore) (l : List PStore) : ∀ acc : Option Byte,
    bufByte core k (l ++ [p]) acc = if p.covers core k then p.bytes[k - p.key]? else bufByte core k l acc := by
  induction l with
  | nil => exact fun acc => rfl
  | cons q l ih => exact fun acc => ih _

/-- A state with a store behind those that its buffers hold. -/
def buffered (p : PStore) (s : State) : State := { s with sbuf := s.sbuf ++ [p] }

/-- A store to generic memory is seen at once by its core, before its home has it. -/
theorem view_buffered (s : State) (p : PStore) (h : p.key + p.bytes.length ≤ 2 ^ 63) (x : Nat) :
    (buffered p s).view p.core x = (Spec.lastByte [(p.key, p.bytes)] x).getD (s.view p.core x) := by
  have hcov : p.covers p.core x = true ↔ p.key ≤ x ∧ x < p.key + p.bytes.length := by simp [PStore.covers]
  have hline : ∀ l, lineByte (buffered p s) p.core x l = lineByte s p.core x l :=
    lineByte_congr (s := s) (t := buffered p s) rfl p.core x
  rw [lastByte_one, State.view, State.view, buffered, bufByte_append, ← buffered, hline]
  by_cases hin : p.key ≤ x ∧ x < p.key + p.bytes.length
  · have hgen : isGeneric x = true := decide_eq_true (by omega)
    rw [hgen, if_pos rfl, if_pos (hcov.mpr hin), if_pos hin, List.getElem?_eq_getElem (by omega)]
    rfl
  · rw [if_neg (hcov.not.mpr hin), if_neg hin]
    rfl

/-- A byte that stays at its home is seen as before. -/
theorem view_of_home {s t : State} (hb : t.sbuf = s.sbuf) (hr : t.rstores = s.rstores) (hl : t.l1 = s.l1) (hc : t.cycle = s.cycle)
    {k : Nat} (hk : t.home k = s.home k) (core : Nat) : t.view core k = s.view core k := by
  simp only [State.view, hb, hr, hl, hk, lineByte_congr hc]

/-- A store to other memory is at its home at once. -/
theorem view_performed (s : State) (core : Nat) {k : Nat} (bs : List Byte) (mp : List Nat) (h : 2 ^ 63 ≤ k) (x : Nat) :
    State.view { s with mem := putBytes s.mem k bs, mpois := mp } core x = (Spec.lastByte [(k, bs)] x).getD (s.view core x) := by
  have hhome : State.home { s with mem := putBytes s.mem k bs, mpois := mp } x =
      if k ≤ x ∧ x < k + bs.length then bs.getD (x - k) 0 else s.home x := tget_putBytes bs s.mem k x
  rw [lastByte_one]
  by_cases hin : k ≤ x ∧ x < k + bs.length
  · have hgen : isGeneric x = false := decide_eq_false (by omega)
    rw [if_pos hin] at hhome ⊢
    rw [State.view, hgen, if_neg Bool.false_ne_true, hhome, List.getD_eq_getElem?_getD, List.getElem?_eq_getElem (by omega)]
    rfl
  · rw [if_neg hin] at hhome ⊢
    exact view_of_home (by rfl) (by rfl) (by rfl) (by rfl) hhome core

/-- A core sees the bytes that it has stored, and every other byte as before. -/
theorem storeBytes_view (s : State) (core sid k : Nat) (va : Word) {bs : List Byte} (h : k + bs.length ≤ 2 ^ 63 ∨ 2 ^ 63 ≤ k) (x : Nat) :
    (storeBytes core sid k va bs s).view core x = (Spec.lastByte [(k, bs)] x).getD (s.view core x) := by
  unfold storeBytes
  split
  · next hnil =>
    rw [lastByte_one, if_neg (by omega)]
    rfl
  split
  · next hpos hgen =>
    have hlt : k < 2 ^ 63 := of_decide_eq_true hgen
    exact (view_congr (by rfl) (by rfl) (by rfl) (by rfl) (by rfl) core x).trans
      (view_buffered s { core := core, sid := sid, key := k, va := va, bytes := bs, at_ := s.cycle } (by show k + bs.length ≤ _; omega) x)
  · next hpos hgen =>
    have hge : 2 ^ 63 ≤ k := Nat.not_lt.mp fun hlt => hgen (decide_eq_true hlt)
    exact view_performed s core bs _ hge x

/-! ### Many stores and their flags -/

/-- From `s` to `t`, the strand has stored `ws`, in order, and merged the flags of `rs`; it may have broken links (R210). -/
structure Wrote (s t : State) (ws : List (Nat × List Byte)) (rs : List FRes) : Prop where
  frame : ∃ m sb ot lk, t = { s with
    mem := m, sbuf := sb, others := ot, me := { s.me with links := lk, fflags := s.me.fflags.or (orFlags rs) } }
  view : ∀ k, t.view s.me.core k = (Spec.lastByte ws k).getD (s.view s.me.core k)

theorem Wrote.refl (s : State) : Wrote s s [] [] := by
  refine ⟨⟨s.mem, s.sbuf, s.others, s.me.links, ?_⟩, fun _ => rfl⟩
  show s = { s with me := { s.me with fflags := s.me.fflags.or {} } }
  rw [fflags_or_empty]

theorem Wrote.trans {s t u : State} {ws vs : List (Nat × List Byte)} {rs qs : List FRes} (h : Wrote s t ws rs) (k : Wrote t u vs qs) :
    Wrote s u (ws ++ vs) (rs ++ qs) := by
  obtain ⟨⟨m, sb, ot, lk, rfl⟩, hv⟩ := h
  obtain ⟨⟨m', sb', ot', lk', rfl⟩, hv'⟩ := k
  refine ⟨⟨m', sb', ot', lk', by rw [orFlags_append, ← FFlags.or_assoc]⟩, fun x => ?_⟩
  rw [hv', hv, lastByte_append]
  cases Spec.lastByte vs x <;> rfl

theorem Wrote.clean {s t : State} {ws : List (Nat × List Byte)} {rs : List FRes} (h : Wrote s t ws rs) (hp : s.mpois = []) : t.mpois = [] := by
  obtain ⟨⟨m, sb, ot, lk, rfl⟩, -⟩ := h
  exact hp

/-- Steps that each write and flag, one after another. -/
theorem Wrote.foldl {β : Type} {f : State → β → State} {W : β → List (Nat × List Byte)} {C : β → List FRes} (l : List β) :
    (∀ b ∈ l, ∀ t : State, t.mpois = [] → Wrote t (f t b) (W b) (C b)) → ∀ s : State, s.mpois = [] →
      Wrote s (l.foldl f s) (l.flatMap W) (l.flatMap C) := by
  induction l with
  | nil => exact fun _ s _ => Wrote.refl s
  | cons b l ih =>
    intro hf s hp
    have hb := hf b (List.mem_cons_self ..) s hp
    exact hb.trans (ih (fun c hc => hf c (List.mem_cons_of_mem b hc)) (f s b) (hb.clean hp))

theorem wrote_flags (s : State) (rs : List FRes) : Wrote s (addFlags (orFlags rs) s) [] rs :=
  ⟨⟨s.mem, s.sbuf, s.others, s.me.links, rfl⟩, fun _ => by apply view_congr <;> rfl⟩

theorem breakLinks_frame (lines : List Nat) (keep : Option Nat) (s : State) :
    ∃ ot lk, breakLinks lines keep s = { s with others := ot, me := { s.me with links := lk } } := by
  refine ⟨(breakLinks lines keep s).others, (breakLinks lines keep s).me.links, ?_⟩
  unfold breakLinks
  dsimp only
  split <;> rfl

theorem wrote_storeBytes {s : State} (hp : s.mpois = []) (k : Nat) (va : Word) {bs : List Byte}
    (h : k + bs.length ≤ 2 ^ 63 ∨ 2 ^ 63 ≤ k) : Wrote s (storeBytes s.me.core s.cur k va bs s) [(k, bs)] [] := by
  refine ⟨?_, storeBytes_view s s.me.core s.cur k va h⟩
  have hfl : s.me.fflags.or (orFlags []) = s.me.fflags := fflags_or_empty _
  rw [hfl]
  unfold storeBytes
  split
  · exact ⟨_, _, _, _, rfl⟩
  split
  · obtain ⟨ot, lk, hb⟩ := breakLinks_frame (sectors k bs.length) none
      { s with sbuf := s.sbuf ++ [{ core := s.me.core, sid := s.cur, key := k, va := va, bytes := bs, at_ := s.cycle }] }
    rw [hb]
    exact ⟨_, _, _, _, rfl⟩
  · rw [hp, List.filter_nil, ← hp]
    exact ⟨_, _, _, _, rfl⟩

/-- What a head leaves that has stored and flagged, and the device but for its memory, `s` being where it began. -/
theorem finish_links {s t : State} {lk : List Nat} {fl : FFlags} (hc : t.cycle = s.cycle)
    (hme : t.me = { s.me with links := lk, fflags := fl }) :
    (finish t).me.pc = nextPc s.me ∧ PassedHead s (finish t) ∧ AgedRegs s (finish t) ∧ ScalarsAndLinks s (finish t)
      ∧ (finish t).me.fflags = fl := by
  obtain ⟨rs, ps, ha⟩ := Strand.age_frame t.me (1 + t.me.ir.sc)
  have hm : (finish t).me = { s.me with
      regs := rs, pend := ps, pc := nextPc s.me, via := {}, carry := none, failed := [], fflags := fl, links := lk } := by
    rw [finish_me, ha, hme]
    rfl
  refine ⟨by rw [hm], passedHead_finish hc (by rw [hme]), agedRegs_finish (by rw [hme]) (by rw [hme]) (by rw [hme]), ?only, by rw [hm]⟩
  case only => rw [ScalarsAndLinks, OnlyScalars, hm]

end Sys2Proof.Machine
end

section
/-! SUPPORT. Stores of an image (R239): its rows, their bytes, and O43. -/

namespace Sys2Proof.Machine
open Sys2Proof

/-! ### Rows of places -/

/-- Places of rows, each row's pieces under its own tag, fall into their rows. -/
theorem rows_of_places {f : Nat → List Piece} (hf : ∀ r, ∀ p ∈ f r, p.tag = r) (rows : Nat) : ∀ pw : Placed,
    pw.map (·.1) = (List.range rows).flatMap f →
      (∀ r < rows, (pw.filter (·.1.tag = r)).map (·.1) = f r) ∧ ((List.range rows).flatMap fun r => pw.filter (·.1.tag = r)) = pw := by
  induction rows with
  | zero =>
    intro pw h
    rw [List.map_eq_nil_iff.mp h]
    exact ⟨fun r hr => absurd hr (Nat.not_lt_zero r), rfl⟩
  | succ n ih =>
    intro pw h
    rw [List.range_succ, List.flatMap_append, List.flatMap_singleton, List.map_eq_append_iff] at h
    obtain ⟨p, q, rfl, hp, hq⟩ := h
    obtain ⟨hrow, hall⟩ := ih p hp
    have hptag : ∀ e ∈ p, e.1.tag < n := fun e he => by
      obtain ⟨r, hr, her⟩ := List.mem_flatMap.mp (hp ▸ List.mem_map_of_mem he : e.1 ∈ _)
      exact (hf r _ her).symm ▸ List.mem_range.mp hr
    have hqtag : ∀ e ∈ q, e.1.tag = n := fun e he => hf n _ (hq ▸ List.mem_map_of_mem he)
    have hlow : ∀ r < n, (p ++ q).filter (·.1.tag = r) = p.filter (·.1.tag = r) := fun r hr => by
      have hnone : q.filter (·.1.tag = r) = [] := List.filter_eq_nil_iff.mpr fun e he => by simp [hqtag e he, hr.ne']
      rw [List.filter_append, hnone, List.append_nil]
    have hlast : (p ++ q).filter (·.1.tag = n) = q := by
      have hnone : p.filter (·.1.tag = n) = [] := List.filter_eq_nil_iff.mpr fun e he => by simp [(hptag e he).ne]
      have hself : q.filter (·.1.tag = n) = q := List.filter_eq_self.mpr fun e he => by simp [hqtag e he]
      rw [List.filter_append, hnone, hself, List.nil_append]
    constructor
    · intro r hr
      rcases Nat.lt_succ_iff_lt_or_eq.mp hr with h | rfl
      · rw [hlow r h, hrow r h]
      · rw [hlast, hq]
    · rw [List.range_succ, List.flatMap_append, List.flatMap_singleton, hlast,
        List.flatMap_congr fun r hr => hlow r (List.mem_range.mp hr), hall]

theorem tag_of_span {lane tag : Nat} {a : Word} {n align : Nat} : ∀ p ∈ Spec.span lane tag a n align, p.tag = tag := by
  unfold Spec.span
  intro p hp
  dsimp only at hp
  split at hp
  · cases hp
  split at hp <;> simp at hp
  · rw [hp]
  · rcases hp with rfl | rfl <;> rfl

/-! ### Bytes of a row -/

theorem leBytes_eq_map (n : Nat) : ∀ v, leBytes n v = (List.range n).map fun j => BitVec.ofNat 8 (v / 256 ^ j) := by
  induction n with
  | zero => exact fun _ => rfl
  | succ n ih =>
    intro v
    rw [leBytes, ih, List.range_succ_eq_map, List.map_cons, List.map_map, pow_zero, Nat.div_one]
    refine congrArg _ (List.map_congr_left fun j _ => ?_)
    rw [Function.comp_apply, Nat.div_div_eq_div_mul, Nat.pow_succ']

/-- Groups of `e` are numbered through by quotient and remainder. -/
theorem flatMap_groups {α : Type} (h : Nat → Nat → α) {e : Nat} (he : 0 < e) (n : Nat) :
    ((List.range n).flatMap fun c => (List.range e).map (h c)) = (List.range (e * n)).map fun o => h (o / e) (o % e) := by
  induction n with
  | zero => rfl
  | succ n ih =>
    rw [List.range_succ, List.flatMap_append, ih, List.flatMap_singleton, Nat.mul_succ, List.range_add, List.map_append, List.map_map]
    refine congrArg _ (List.map_congr_left fun j hj => ?_)
    have hlt := List.mem_range.mp hj
    rw [Function.comp_apply, Nat.mul_add_div he, Nat.div_eq_of_lt hlt, Nat.add_zero, Nat.mul_add_mod, Nat.mod_eq_of_lt hlt]

/-- Byte `o` of a row of codes of `e` bytes each. -/
def codeByte (e : Nat) (code : Nat → FRes) (o : Nat) : Byte := BitVec.ofNat 8 ((code (o / e)).bits / 256 ^ (o % e))

theorem codes_bytes {e : Nat} (he : 0 < e) (code : Nat → FRes) (n : Nat) :
    (((List.range n).map code).flatMap fun c => leBytes e c.bits) = (List.range (e * n)).map (codeByte e code) := by
  rw [List.flatMap_map]
  simp only [leBytes_eq_map]
  exact flatMap_groups (fun c j => BitVec.ofNat 8 ((code c).bits / 256 ^ j)) he n

theorem drop_take_map_range {α : Type} (g : Nat → α) {N o n : Nat} (h : o + n ≤ N) :
    ((((List.range N).map g).drop o).take n) = (List.range n).map fun j => g (o + j) := by
  refine List.ext_getElem (by simp; omega) fun j h1 h2 => ?_
  simp

/-! ### Stores of a row -/

/-- The write that a piece of a row at `a` makes of the row's bytes. -/
def rowWrite (a : Word) (g : Nat → Byte) (p : Piece × Where) : Option (Nat × List Byte) :=
  match p.2 with
  | .cell k => some (k, (List.range p.1.n).map fun j => g ((p.1.addr - a).toNat + j))
  | .plain .. => none

theorem mergeBits_whole (k : Nat) (va : Word) (b : List Byte) (n : Nat) (s : State) :
    mergeBits k va b (8 * n) s = storeBytes s.me.core s.cur k va (b.take n) s := by
  rw [mergeBits, if_pos (Nat.mul_mod_right 8 n), Nat.mul_div_cancel_left n (by decide)]

/-- One piece of a row's store: the state so far and the bytes of the row that it has taken. -/
def rowStep (b : List Byte) (bitsN : Nat) (r : State × Nat) (e : Piece × Where) : State × Nat :=
  match e.2 with
  | .cell k => (mergeBits k e.1.addr ((b.drop r.2).take e.1.n) (min (8 * e.1.n) (bitsN - 8 * r.2)) r.1, r.2 + e.1.n)
  | .plain .. => r

theorem storeRow_eq (pw : Placed) (tag : Nat) (b : List Byte) (bitsN : Nat) (s : State) :
    storeRow pw tag b bitsN s = ((pw.filter (·.1.tag = tag)).foldl (rowStep b bitsN) (s, 0)).1 := rfl

/-- What O43 supposes of the place of a stored piece. -/
def StoredPiece (p : Piece × Where) : Prop := ∃ k, p.2 = .cell k ∧ (k + p.1.n ≤ 2 ^ 63 ∨ 2 ^ 63 ≤ k)

/-- A piece of a row takes the next bytes of the row. -/
theorem wrote_rowStep {s : State} (hp : s.mpois = []) {p : Piece × Where} (hfit : StoredPiece p) {a : Word} (g : Nat → Byte) {N o : Nat}
    (ho : (p.1.addr - a).toNat = o) (hN : o + p.1.n ≤ N) :
    ∃ t, rowStep ((List.range N).map g) (8 * N) (s, o) p = (t, o + p.1.n) ∧ Wrote s t ([p].filterMap (rowWrite a g)) [] := by
  obtain ⟨k, hk, hkfit⟩ := hfit
  have hmin : min (8 * p.1.n) (8 * N - 8 * o) = 8 * p.1.n := by omega
  have hall : List.take p.1.n ((List.range p.1.n).map fun j => g (o + j)) = (List.range p.1.n).map fun j => g (o + j) :=
    List.take_of_length_le (by simp)
  have hw : [p].filterMap (rowWrite a g) = [(k, (List.range p.1.n).map fun j => g (o + j))] := by
    simp only [List.filterMap_cons, List.filterMap_nil, rowWrite, hk, ho]
  refine ⟨storeBytes s.me.core s.cur k p.1.addr ((List.range p.1.n).map fun j => g (o + j)) s, ?_, ?_⟩
  · simp only [rowStep, hk, hmin, drop_take_map_range g hN, mergeBits_whole, hall]
  · rw [hw]
    exact wrote_storeBytes hp k p.1.addr (by simpa using hkfit)

/-- A row whose places are the pieces of its range stores its bytes there. -/
theorem wrote_row {s : State} (hp : s.mpois = []) {pw : Placed} {r : Nat} {a : Word} {N align : Nat}
    (hrow : (pw.filter (·.1.tag = r)).map (·.1) = Spec.span 1024 r a N align) (hfit : ∀ p ∈ pw, StoredPiece p) (g : Nat → Byte) :
    Wrote s (storeRow pw r ((List.range N).map g) (8 * N) s) ((pw.filter (·.1.tag = r)).filterMap (rowWrite a g)) [] := by
  have hmem : ∀ p ∈ pw.filter (·.1.tag = r), StoredPiece p := fun p hin => hfit p (List.mem_filter.mp hin).1
  rw [storeRow_eq]
  generalize pw.filter (·.1.tag = r) = l at hrow hmem
  unfold Spec.span at hrow
  dsimp only at hrow
  split at hrow
  · rw [List.map_eq_nil_iff.mp hrow]
    exact Wrote.refl s
  split at hrow
  · obtain ⟨p, rfl, hpiece⟩ := List.map_eq_singleton_iff.mp hrow
    obtain ⟨t, ht, hw⟩ := wrote_rowStep hp (hmem p (List.mem_singleton_self p)) g (N := N) (o := 0)
      (show (p.1.addr - a).toNat = 0 by rw [hpiece]; simp) (by rw [hpiece, Nat.zero_add])
    rw [List.foldl_cons, List.foldl_nil, ht]
    exact hw
  · next hpos hroom =>
    obtain ⟨p, l', rfl, hpiece, hrest⟩ := List.map_eq_cons_iff.mp hrow
    obtain ⟨q, rfl, hqpiece⟩ := List.map_eq_singleton_iff.mp hrest
    obtain ⟨t, ht, hw⟩ := wrote_rowStep hp (hmem p (List.mem_cons_self ..)) g (N := N) (o := 0)
      (show (p.1.addr - a).toNat = 0 by rw [hpiece]; simp) (by rw [hpiece]; dsimp only; omega)
    obtain ⟨u, hu, hw'⟩ := wrote_rowStep (hw.clean hp) (hmem q (List.mem_cons_of_mem p (List.mem_singleton_self q))) g (N := N)
      (o := 0 + p.1.n) (a := a) (by
        have hlt : 65536 - a.toNat % 65536 < 2 ^ 64 := by omega
        rw [hqpiece, hpiece, add_sub_cancel_left, BitVec.toNat_ofNat, Nat.mod_eq_of_lt hlt, Nat.zero_add])
      (by rw [hqpiece, hpiece]; dsimp only; omega)
    rw [List.foldl_cons, List.foldl_cons, List.foldl_nil, ht, hu, ← List.singleton_append, List.filterMap_append]
    exact hw.trans hw'

/-! ### Stores of an image -/

/-- The code that a store makes of an image's element, and its flags. -/
def imageCode (m : Strand) (t : Ty) (rm : Rmo) (d r c : Nat) : FRes := zstElem t (m.mode rm) (tget 0 m.zimg (zKey d r c)).toNat

theorem imageCode_eq (m : Strand) (t : Ty) (rm : Rmo) (d r c : Nat) : imageCode m t rm d r c =
    if t = .f16 ∨ t = .bf16 then (floatOf t).cvt (m.mode rm) (FForm.f32.decode (tget 0 m.zimg (zKey d r c)).toNat)
    else { bits := (tget 0 m.zimg (zKey d r c)).toNat } := by
  cases t <;> rfl

/-- One row of an image's store. -/
def storeImageRow (m : Strand) (t : Ty) (rm : Rmo) (d cols : Nat) (pw : Placed) (s : State) (r : Nat) : State :=
  let cs := (List.range cols).map (imageCode m t rm d r)
  addFlags (orFlags cs) (storeRow pw r (cs.flatMap fun c => leBytes (elemBytes t) c.bits) (8 * elemBytes t * cols) s)

/-- The writes of an image's store, in order. -/
def imageWrites (s : State) (a b : SReg) (x : Imm) (e : Nat) (code : Nat → Nat → FRes) (pw : Placed) : List (Nat × List Byte) :=
  pw.filterMap fun p => rowWrite (Spec.effective s a x + BitVec.ofNat 64 p.1.tag * s.rd b) (codeByte e (code p.1.tag)) p

/-- The writes of one row of it. -/
def rowWrites (s : State) (a b : SReg) (x : Imm) (e : Nat) (code : Nat → Nat → FRes) (pw : Placed) (r : Nat) : List (Nat × List Byte) :=
  (pw.filter (·.1.tag = r)).filterMap (rowWrite (Spec.effective s a x + BitVec.ofNat 64 r * s.rd b) (codeByte e (code r)))

/-- The rows of an image's store write every piece with the bytes of its row. -/
theorem wrote_imageRows {s v : State} (hp : v.mpois = []) {a b : SReg} {x : Imm} {t : Ty} (ht : 0 < elemBytes t) (m : Strand) (rm : Rmo)
    (d rows cols : Nat) {align : Nat} {pw : Placed} (hpw : pw.map (·.1) = imagePieces s a b x rows (elemBytes t * cols) align)
    (hfit : ∀ p ∈ pw, StoredPiece p) :
    Wrote v ((List.range rows).foldl (storeImageRow m t rm d cols pw) v) (imageWrites s a b x (elemBytes t) (imageCode m t rm d) pw)
      ((List.range rows).flatMap fun r => (List.range cols).map (imageCode m t rm d r)) := by
  obtain ⟨hrow, hall⟩ := rows_of_places (fun r => tag_of_span) rows pw hpw
  have hstep : ∀ r ∈ List.range rows, ∀ u : State, u.mpois = [] →
      Wrote u (storeImageRow m t rm d cols pw u r) (rowWrites s a b x (elemBytes t) (imageCode m t rm d) pw r)
        ((List.range cols).map (imageCode m t rm d r)) := by
    intro r hr u hu
    have hone := wrote_row hu (hrow r (List.mem_range.mp hr)) hfit (codeByte (elemBytes t) (imageCode m t rm d r))
    have h := hone.trans (wrote_flags _ ((List.range cols).map (imageCode m t rm d r)))
    rw [List.append_nil, List.nil_append] at h
    rw [storeImageRow, codes_bytes ht, Nat.mul_assoc]
    exact h
  have hwrites : (List.range rows).flatMap (rowWrites s a b x (elemBytes t) (imageCode m t rm d) pw) =
      imageWrites s a b x (elemBytes t) (imageCode m t rm d) pw := by
    conv_rhs => rw [imageWrites, ← hall, List.filterMap_flatMap]
    refine List.flatMap_congr fun r _ => List.filterMap_congr fun p hin => ?_
    rw [of_decide_eq_true (List.mem_filter.mp hin).2]
  exact hwrites ▸ Wrote.foldl _ hstep v hp

theorem exec_imageStore {i : Instr} {t : Ty} {sp : Bool} {rm : Rmo} {d : ZReg} {a b : SReg} {x : Imm}
    (h : (i = .zst t sp rm d a b ∧ x = 0) ∨ i = .zstImm t sp rm d a b x) (s : State) :
    exec i s = .next (zstHead t (Spec.spaceOf sp) rm d a b x s) := by
  rcases h with ⟨rfl, rfl⟩ | rfl <;> rfl

/-- The rows that a store of an image writes. -/
def storedRows (m : Strand) (d : ZReg) : Nat := if (tget {} m.zdim d).cols = 0 then 0 else (tget {} m.zdim d).rows

/-- The types in which an image can be stored, `fp` saying whether it holds FP32 (R239). -/
def StoredTy (t : Ty) (fp : Bool) : Prop := (t ∈ [Ty.f32, .f16, .bf16] ∧ fp = true) ∨ (t = .i32 ∧ fp = false)

theorem storedTy_cases {t : Ty} {fp : Bool} (h : StoredTy t fp) :
    (t = .f32 ∨ t = .f16 ∨ t = .bf16) ∧ fp = true ∨ t = .i32 ∧ fp = false := by
  simpa only [StoredTy, List.mem_cons, List.not_mem_nil, or_false] using h

theorem storedTy_bytes {t : Ty} {fp : Bool} (h : StoredTy t fp) : 0 < elemBytes t ∧ elemBytes t ≤ 4 := by
  rcases storedTy_cases h with ⟨rfl | rfl | rfl, -⟩ | ⟨rfl, -⟩ <;> decide

/-- A store in such a type is not refused. -/
theorem storedTy_refused {t : Ty} {fp : Bool} (h : StoredTy t fp) {rm : Rmo} (hrm : t = .f32 ∨ t = .i32 → rm = .frm) :
    (decide ((fp = true) = (t = .i32)) || (decide (elemBytes t = 4) && decide (rm ≠ .frm))) = false := by
  rcases storedTy_cases h with ⟨rfl | rfl | rfl, rfl⟩ | ⟨rfl, rfl⟩ <;> simp [hrm, elemBytes, tyBits]

/-- A store of an image with a place for every row writes its rows. -/
theorem zstHead_go {s : State} (h : VecReady s) {t : Ty} {spc : Spc} {rm : Rmo} {d : ZReg} {a b : SReg} {x : Imm}
    (hty : StoredTy t (tget {} s.me.zdim d).fp)
    (hrm : t = .f32 ∨ t = .i32 → rm = .frm) (hr : Readable s [a, b]) (hd : d.val < s.me.zdecl) (hz : s.me.zpois = []) (hp : s.mpois = [])
    (hcols : (tget {} s.me.zdim d).cols ≤ 64) {pw : Placed} (hfit : ∀ p ∈ pw, StoredPiece p)
    (hpw : Spec.Placed s spc .wr false
      (imagePieces s a b x (storedRows s.me d) (elemBytes t * (tget {} s.me.zdim d).cols) (elemBytes t)) pw) :
    zstHead t spc rm d a b x s =
      finish ((List.range (storedRows s.me d)).foldl (storeImageRow s.me t rm d (tget {} s.me.zdim d).cols pw) (touchAll pw s)) := by
  have hsize := storedTy_bytes hty
  obtain ⟨st, vs, ev, htouch⟩ := touchAll_frame pw s
  have hp' : (touchAll pw s).mpois = [] := by rw [htouch]; exact hp
  have hme : (touchAll pw s).me = s.me := by rw [htouch]
  have hclean := (wrote_imageRows hp' hsize.1 s.me rm d _ _ hpw.1 hfit).clean hp'
  have hpieces := imagePieces_eq s a b x (storedRows s.me d) (n := elemBytes t * (tget {} s.me.zdim d).cols) (elemBytes t)
    ((Nat.mul_le_mul hsize.2 hcols).trans (by decide))
  have hpois : ∀ l : List Nat, (l.find? fun r => decide (d.val * 64 + r ∈ s.me.zpois)) = none := fun l => by
    rw [List.find?_eq_none]
    exact fun r _ => by simp [hz]
  unfold zstHead
  dsimp only
  rw [storedTy_refused hty hrm, tileHead_go _ h.1 h.2.1 hr (by simpa using hd), hpois, ← storedRows, hpieces]
  dsimp only
  rw [withPlaces_go hpw, hme]
  show finish (coverSectors pw ((List.range (storedRows s.me d)).foldl (storeImageRow s.me t rm d (tget {} s.me.zdim d).cols pw) _)) = _
  rw [coverSectors, if_pos hclean]

end Sys2Proof.Machine
end

section
/-! SUPPORT. Matrix multiply and the loads, stores and clears of images (R235 to R240): O43. -/

namespace Sys2Proof.Machine
open Sys2Proof

/-- What a store of an image leaves. -/
theorem zst_passed {s : State} (hp : s.mpois = []) {a b : SReg} {x : Imm} {t : Ty} (ht : 0 < elemBytes t) (rm : Rmo) (d rows cols : Nat)
    {align : Nat} {pw : Placed} (hpw : pw.map (·.1) = imagePieces s a b x rows (elemBytes t * cols) align) (hfit : ∀ p ∈ pw, StoredPiece p) :
    let u := finish ((List.range rows).foldl (storeImageRow s.me t rm d cols pw) (touchAll pw s))
    u.me.pc = nextPc s.me ∧ PassedHead s u ∧ AgedRegs s u ∧ ScalarsAndLinks s u
      ∧ u.me.fflags = s.me.fflags.or (orFlags ((List.range rows).flatMap fun r => (List.range cols).map (imageCode s.me t rm d r)))
      ∧ ∀ k, State.view { u with cycle := s.cycle } s.me.core k =
        (Spec.lastByte (imageWrites s a b x (elemBytes t) (imageCode s.me t rm d) pw) k).getD (s.view s.me.core k) := by
  obtain ⟨st, vs, ev, htouch⟩ := touchAll_frame pw s
  have hp' : (touchAll pw s).mpois = [] := by rw [htouch]; exact hp
  have hwrote := wrote_imageRows hp' ht s.me rm d rows cols hpw hfit
  rw [htouch] at hwrote ⊢
  obtain ⟨⟨m, sb, ot, lk, hframe⟩, hview⟩ := hwrote
  generalize (List.range rows).foldl (storeImageRow s.me t rm d cols pw) _ = v at hframe hview ⊢
  intro u
  obtain ⟨hpc, hpass, haged, honly, hfl⟩ := finish_links (s := s) (t := v) (by rw [hframe]) (by rw [hframe])
  refine ⟨hpc, hpass, haged, honly, hfl, fun k => ?_⟩
  have hlast : State.view { u with cycle := s.cycle } s.me.core k = v.view s.me.core k :=
    view_congr (by rfl) (by rfl) (by rfl) (by rw [hframe]) (by rfl) s.me.core k
  have hfirst : State.view { s with stash := st, vfs := vs, events := ev } s.me.core k = s.view s.me.core k := by apply view_congr <;> rfl
  rw [hlast, hview, hfirst]

/-- Settles O43: a multiply is one write of its image, element by element the sum that the statement writes out; a load of an image
reads the bytes of its rows, and a store writes its rows piece after piece. -/
theorem matrixResult : Obligations.MatrixResult := by
  unfold Obligations.MatrixResult
  intro s hs
  refine ⟨?mma, ?zld, ?zst, ?zclr⟩
  case mma =>
    intro i o ordered hi
    dsimp only
    intro hgv hty hsign hlns hfp ha hb hd ht hz hrows hcols
    obtain ⟨hexec, rfl⟩ := exec_multiply hi s
    rw [mmaHead_go hs i hgv (tileTy_eq _ ▸ hty) hsign hlns hfp ha hb hd ht hz] at hexec
    obtain ⟨hpc, hpass, haged, honly, hme, himg, hdim, hfl⟩ := mma_passed o s
    refine ⟨_, hexec, hpc, hpass, haged, honly, hme, fun r hr c hc => ?_, fun k r c hr hc hout => ?_, fun k => ?_, ?_⟩
    · rw [himg, tget_mmaImage s.me o hrows hcols o.d.val (hr.trans_le hrows) (hc.trans_le hcols), if_pos ⟨rfl, hr, hc⟩]
      exact BitVec.toNat_ofNat ..
    · rw [himg, tget_mmaImage s.me o hrows hcols k hr hc, if_neg]
      rintro ⟨hk, hr', hc'⟩
      rcases hout with h | h | h
      · exact h hk
      · exact absurd hr' (Nat.not_lt.mpr h)
      · exact absurd hc' (Nat.not_lt.mpr h)
    · rw [hdim, tget_tset]
      rfl
    · rw [hfl, mmaFlags_eq]
      rfl
  case zld =>
    intro i t sp d a b x hi
    dsimp only
    intro hgv hr hd hrows hcols hp ht pw hpw
    have hexec := exec_imageLoad hi s
    rw [zldHead_go hs t hgv hr hd hcols hp ht hpw] at hexec
    exact ⟨_, hexec, zld_passed s pw d (decide (t = .f32)) hrows hcols⟩
  case zst =>
    intro i t sp rm d a b x hi zd rows e row code hty hrm hr hd hz hp hcols pw hpw hgen ws
    have hcode : code = imageCode s.me t rm d := funext fun r => funext fun c => (imageCode_eq s.me t rm d r c).symm
    have hfit : ∀ p ∈ pw, StoredPiece p := fun p hin => by
      obtain ⟨k, hk⟩ := cells_of_placed hpw p hin
      exact ⟨k, hk, hgen p hin k hk⟩
    have hexec := exec_imageStore hi s
    rw [zstHead_go hs hty hrm hr hd hz hp hcols hfit hpw] at hexec
    have hws : ws = imageWrites s a b x (elemBytes t) (imageCode s.me t rm d) pw := by
      rw [← hcode]
      rfl
    rw [hws, hcode]
    exact ⟨_, hexec, zst_passed hp (storedTy_bytes hty).1 rm d _ _ hpw.1 hfit⟩
  case zclr => exact fun fp d hd => ⟨_, execZclr_go hs fp hd, zclr_passed s fp d⟩

end Sys2Proof.Machine
end

section
/-! SUPPORT. Words and instructions: the manual's listings (O55), and an encoding with an ignored bit (O57). -/

namespace Sys2Proof.Machine
open Sys2Proof

/-- Settles O55: the decoder runs on the words of the listings. -/
theorem decodeWords : Obligations.DecodeWords := by
  unfold Obligations.DecodeWords
  decide

/-- The immediate form of `vsettype` with bit 4 of its immediate set: VTYPE does not see that bit (R14, R32). -/
def ignoredBitWords : List Half := [0xC501, 0, 0, 0x10, 0]

/-- The instruction of these words. Its own words have the bit clear. -/
def ignoredBitInsn : Coding.Coded := { sc := 0, insn := .vsettypeImm ⟨.zero, .b16, .int8⟩ }

/-- Refutes O57: bits 9 to 4 of the immediate of `vsettype` are ignored and not refused (R32), so that several encodings are one
instruction. -/
theorem not_decodeThenEncode : ¬ Obligations.DecodeThenEncode := by
  unfold Obligations.DecodeThenEncode
  intro h
  have hdecode : Coding.decodeHalfs ignoredBitWords = some (.ok ignoredBitInsn, []) := by decide
  obtain ⟨-, -, hencode⟩ := h _ _ _ hdecode
  exact absurd hencode (by decide)

end Sys2Proof.Machine
end

section
/-! SUPPORT. Branches, calls and returns (R92, R129 to R131): O3. -/

namespace Sys2Proof.Machine
open Sys2Proof

/-! ### Targets and conditions -/

/-- The head index stands below the line of a target: putting it in is adding it (R92). -/
theorem tbTarget_eq (pc : Word) (off : BitVec 15) (hi : Fin 32) : tbTarget pc off hi = Spec.target pc off hi := by
  have hline : BitVec.ofInt 64 ((pc.toNat / 64 + off.toInt) * 64) = BitVec.ofInt 64 (pc.toNat / 64 + off.toInt) <<< 6 := by
    rw [BitVec.shiftLeft_eq_mul_twoPow, BitVec.ofInt_mul]
    rfl
  have hdisj : BitVec.ofInt 64 (pc.toNat / 64 + off.toInt) <<< 6 &&& word hi.val = 0#64 := by
    refine BitVec.eq_of_getLsbD_eq fun i hi' => ?_
    rw [BitVec.getLsbD_and, BitVec.getLsbD_shiftLeft, word, BitVec.getLsbD_ofNat, BitVec.getLsbD_zero]
    rcases Nat.lt_or_ge i 6 with h | h
    · simp [h]
    · have : hi.val < 2 ^ i := Nat.lt_of_lt_of_le (Nat.lt_trans hi.isLt (by decide : 32 < 2 ^ 6)) (Nat.pow_le_pow_right (n := 2) (by decide) h)
      simp [Nat.testBit_lt_two_pow this]
  rw [tbTarget, Spec.target, hline, ← BitVec.add_eq_or_of_and_eq_zero _ _ hdisj, ← hline, BitVec.ofInt_add, word, BitVec.ofInt_natCast]
  norm_cast

theorem sgn_false (x : Word) : Spec.sgn false x = x.toInt := by
  have hx : x.toNat % 2 ^ 64 = x.toNat := Nat.mod_eq_of_lt x.isLt
  rw [BitVec.toInt_eq_msb_cond, BitVec.msb_eq_getLsbD_last, Spec.sgn, Spec.uns, Spec.width, if_neg Bool.false_ne_true, hx]
  rfl

/-! ### One transfer -/

/-- The state that a transfer completes: the PC of the following head is on its way to the link register (R130). -/
def linked (l : Option SReg) (s : State) : State := match l with
  | some d => s.wrFixed d (nextPc s.me) 1
  | none => s

/-- Where a transfer goes on. -/
def transfer (x : Spec.JumpSpec) (s : State) : State :=
  if x.taken then finishTo x.goal (linked x.link s) else finish (linked x.link s)

theorem branchHead_eq (c : Word → Word → Bool) (d a : SReg) (off : BitVec 15) (hi : Fin 32) (s : State) :
    ∃ k, branchHead c d a off hi s = readRegs [d, a] k s
      ∧ k s = transfer ⟨[d, a], c (s.rd d) (s.rd a), Spec.target s.me.pc off hi, none⟩ s :=
  ⟨_, rfl, by rw [tbTarget_eq]; rfl⟩

theorem readRegs_nil (k : State → State) (s : State) : readRegs [] k s = k s :=
  readRegs_go [] k s ⟨nofun, nofun⟩

/-- A transfer reads its registers and goes on as is stated for it. -/
theorem exec_jump {i : Instr} {s : State} {x : Spec.JumpSpec} (h : Spec.jump i s = some x) :
    ∃ k, exec i s = .next (readRegs x.reads k s) ∧ k s = transfer x s := by
  have branch {c : Word → Word → Bool} {d a : SReg} {off : BitVec 15} {hi : Fin 32} {b : Bool} (hb : c (s.rd d) (s.rd a) = b) :
      ∃ k, (.next (branchHead c d a off hi s) : Out) = .next (readRegs [d, a] k s)
        ∧ k s = transfer ⟨[d, a], b, Spec.target s.me.pc off hi, none⟩ s := by
    obtain ⟨k, hk, hgo⟩ := branchHead_eq c d a off hi s
    exact ⟨k, by rw [hk], by rw [hgo, hb]⟩
  unfold Spec.jump at h
  split at h <;> cases h
  next off hi => exact ⟨transfer _, by rw [readRegs_nil, transfer, ← tbTarget_eq]; rfl, rfl⟩
  next d a off hi => exact branch rfl
  next d a off hi => exact branch (Bool.eq_iff_iff.mpr (by simp))
  next d a off hi => exact branch (by rw [sgn_false, sgn_false]; rfl)
  next d a off hi => exact branch (Bool.eq_iff_iff.mpr (by simp [sgn_false, BitVec.slt]))
  next d a off hi => exact branch rfl
  next d a off hi => exact branch (Bool.eq_iff_iff.mpr (by simp [BitVec.ult]))
  next d off hi => exact ⟨transfer _, by rw [readRegs_nil, transfer, ← tbTarget_eq]; rfl, rfl⟩
  next a => exact ⟨_, rfl, rfl⟩
  next d a => exact ⟨_, rfl, rfl⟩

/-! ### What a transfer leaves -/

theorem linked_frame (l : Option SReg) (s : State) : ∃ ps sp, linked l s = { s with me := { s.me with pend := ps, spois := sp } } := by
  cases l with
  | none => exact ⟨s.me.pend, s.me.spois, rfl⟩
  | some d => exact s.wrFixed_frame d _ 1

theorem transfer_rd (x : Spec.JumpSpec) (s : State) (r : SReg) :
    (transfer x s).rd r = if r.val = 0 then 0 else tget 0 ((linked x.link s).me.age (1 + s.me.ir.sc)).regs r.val := by
  obtain ⟨ps, sp, h⟩ := linked_frame x.link s
  rw [transfer, h]
  split <;> rfl

theorem transfer_pc (x : Spec.JumpSpec) (s : State) : (transfer x s).me.pc = if x.taken then x.goal else nextPc s.me := by
  obtain ⟨ps, sp, h⟩ := linked_frame x.link s
  rw [transfer, h]
  split <;> rfl

theorem transfer_cycle (x : Spec.JumpSpec) (s : State) : (transfer x s).cycle = s.cycle + (1 + s.me.ir.sc) := by
  obtain ⟨ps, sp, h⟩ := linked_frame x.link s
  rw [transfer, h]
  split <;> rfl

theorem onlyMe_transfer (x : Spec.JumpSpec) (s : State) : OnlyMe s (transfer x s) := by
  obtain ⟨ps, sp, h⟩ := linked_frame x.link s
  rw [transfer, h]
  split <;> rfl

theorem onlyScalars_transfer (x : Spec.JumpSpec) (s : State) :
    OnlyScalars s (transfer x s) ∧ (transfer x s).me.fflags = s.me.fflags := by
  obtain ⟨ps, sp, h⟩ := linked_frame x.link s
  obtain ⟨rs, ps', ha⟩ := Strand.age_frame { s.me with pend := ps, spois := sp } (1 + s.me.ir.sc)
  rw [transfer, h]
  split <;> simp only [OnlyScalars, finishTo_me, finish_me, ha, and_self]

/-- The link register takes its result with the head's own unit of distance; every other register ages. -/
theorem transfer_rd_link {x : Spec.JumpSpec} {d : SReg} (s : State) (hd : x.link = some d) :
    (transfer x s).rd d = (if d = 0 then 0 else nextPc s.me) ∧ OtherRegs s (transfer x s) d (1 + s.me.ir.sc) := by
  refine ⟨?link, fun r hr => ?other⟩
  case link =>
    rw [transfer_rd, hd]
    by_cases h : d = 0
    · subst h; rfl
    · have hz : d.val ≠ 0 := fun e => h (Fin.ext e)
      rw [if_neg hz, if_neg h, linked, age_wrFixed_dest s d _ 1 _ hz, if_pos (Nat.le_add_right ..)]
  case other => rw [transfer_rd, rd_age, hd, linked, age_wrFixed_other s d r _ 1 _ hr]

/-- Settles O3: a transfer is one result of latency 1 for its link register, and a PC. -/
theorem transferResult : Obligations.TransferResult := by
  unfold Obligations.TransferResult
  intro i s x hx hr
  obtain ⟨k, hexec, hk⟩ := exec_jump hx
  rw [readRegs_go _ _ _ hr, hk] at hexec
  obtain ⟨hscalars, hflags⟩ := onlyScalars_transfer x s
  have hpassed : PassedHead s (transfer x s) := by rw [PassedHead, transfer_cycle]; omega
  refine ⟨_, hexec, transfer_pc x s, hpassed, fun d hd => transfer_rd_link s hd, fun hn r => ?aged, hflags, hscalars,
    onlyMe_transfer x s, (onlyMe_transfer x s).home⟩
  case aged => rw [transfer_rd, rd_age, hn, linked]

end Sys2Proof.Machine
end

section
/-! SUPPORT. The check of undelivered results (R98): O4. -/

namespace Sys2Proof.Machine
open Sys2Proof

theorem aluHead_reads (rs : List SReg) (d : SReg) (lat : Nat) (v : State → Word) (s : State) :
    ∃ k, (.next (aluHead rs d lat v s) : Out) = .next (readRegs rs k s) := ⟨_, rfl⟩

theorem divHead_reads (w : Bool) (f : (n : Nat) → BitVec n → BitVec n → BitVec n) (d a b : SReg) (s : State) :
    ∃ k, (.next (divHead w f d a b s) : Out) = .next (readRegs [a, b] k s) := ⟨_, rfl⟩

/-- A scalar integer head reads its registers before anything else. -/
theorem exec_alu_reads {i : Instr} {s : State} {x : Spec.AluSpec} (h : Spec.alu i s = some x) :
    ∃ k, exec i s = .next (readRegs x.reads k s) := by
  unfold Spec.alu at h
  split at h <;> cases h
  case h_1 => exact ⟨finish, by rw [readRegs_nil]; rfl⟩
  -- `div` and `rem` are interlocked (R119).
  case h_20 | h_21 => exact divHead_reads ..
  all_goals exact aluHead_reads ..

theorem exec_fpu_reads {i : Instr} {s : State} {x : Spec.FpSpec} (h : Spec.fpu i s = some x) :
    ∃ k, exec i s = .next (readRegs x.reads k s) := by
  obtain ⟨f, hexec, -⟩ := exec_fpu h
  exact ⟨_, hexec⟩

theorem exec_jump_reads {i : Instr} {s : State} {x : Spec.JumpSpec} (h : Spec.jump i s = some x) :
    ∃ k, exec i s = .next (readRegs x.reads k s) := by
  obtain ⟨k, hexec, -⟩ := exec_jump h
  exact ⟨k, hexec⟩

/-- What a head that reads `r` traps with, where a writer of `r` is undelivered. -/
def shortOf (s : State) (r : SReg) : Option Trap :=
  if r.val = 0 then none
  else (s.me.pend.reverse.find? (·.reg = r)).map fun p => { cause := .stallShort, detail := r.val, addr := p.pc }

theorem stallShort_eq (s : State) (rs : List SReg) (h : s.me.schk = true) : stallShort s rs = rs.findSome? (shortOf s) := by
  rw [stallShort, h]
  rfl

/-- Nothing is short of a register without an undelivered writer. -/
theorem shortOf_eq_none {s : State} {r : SReg} (h : ¬ (r.val ≠ 0 ∧ ∃ w ∈ s.me.pend, w.reg = r)) : shortOf s r = none := by
  unfold shortOf
  split
  · rfl
  · next hz =>
    rw [Option.map_eq_none_iff, List.find?_eq_none]
    intro w hw he
    exact h ⟨hz, w, List.mem_reverse.mp hw, of_decide_eq_true he⟩

/-- The first register with an undelivered writer gives the trap, with the youngest of its writers. -/
theorem stallShort_first {s : State} {rs : List SReg} {r : SReg} {p : Pend} (hs : s.me.schk = true)
    (hr : rs.find? (fun q => decide (q.val ≠ 0 ∧ ∃ w ∈ s.me.pend, w.reg = q)) = some r)
    (hp : s.me.pend.reverse.find? (fun w => w.reg = r) = some p) :
    stallShort s rs = some { cause := .stallShort, detail := r.val, addr := p.pc } := by
  obtain ⟨hshort, as, bs, rfl, has⟩ := List.find?_eq_some_iff_append.mp hr
  obtain ⟨hz, -⟩ := of_decide_eq_true hshort
  have hnone : as.findSome? (shortOf s) = none :=
    List.findSome?_eq_none_iff.mpr fun q hq => shortOf_eq_none (of_decide_eq_false ((Bool.not_eq_true' _).mp (has q hq)))
  have hsome : shortOf s r = some { cause := .stallShort, detail := r.val, addr := p.pc } := by
    rw [shortOf, if_neg hz, hp]
    rfl
  rw [stallShort_eq s _ hs, List.findSome?_append, hnone, List.findSome?_cons, hsome]
  rfl

/-- Settles O4: the check is the first of a head's, and it takes its trap at once. -/
theorem stallShortTraps : Obligations.StallShortTraps := by
  unfold Obligations.StallShortTraps
  intro i s rs r p hi hs hr hp hh
  have hexec : ∃ k, exec i s = .next (readRegs rs k s) := by
    rcases hi with ⟨x, hx, rfl⟩ | ⟨x, hx, rfl⟩ | ⟨x, hx, rfl⟩
    · exact exec_alu_reads hx
    · exact exec_fpu_reads hx
    · exact exec_jump_reads hx
  obtain ⟨k, hk⟩ := hexec
  rw [readRegs, stallShort_first hs hr hp, checked_some] at hk
  exact ⟨_, hk, takes_takeTrap hh _⟩

end Sys2Proof.Machine
end

section
/-! SUPPORT. Waits on flags (R225): O48 fails, as nothing keeps its waiting entry from being marked as completed. -/

namespace Sys2Proof.Machine
open Sys2Proof

/-- A wait on one flag of the scratchpad until it differs from 0, which it does not. -/
def flagWait : Instr := .vwait .ne .u32 true 0 0 0 0 1 0

/-- The entry of that wait with lane 0 pending. It is marked as completed, though it waits: no field of an entry excludes that. -/
def completedWait : VOp :=
  { instr := flagWait, entered := 0, fin := true, wait := some (.vwait flagWait 1 none), front := { vheld := 2, vl := 1 } }

/-- That entry is the oldest of a running strand, whose crew has one word of scratchpad. -/
def flagState : State := { State.reset with
  me := { run := .running, vheld := 2, vl := 1, viq := [completedWait] }
  crews := [(0, { decl := { spbytes := 4 } })]
  input := some (.vwaitLaneMet 0) }

/-- What the entry finds. -/
def flagView : State := { flagState with me := flagState.me.asEntry completedWait }

theorem oldestEntry_flagState : Spec.OldestEntry flagState 0 completedWait flagView :=
  ⟨rfl, rfl, rfl, rfl, nofun, rfl, rfl, rfl, rfl⟩

/-- The pending lanes that are not dead. -/
def flagLanes : List Nat := (List.range flagView.me.vlmax).filter fun l => (1 : Mask).getLsbD l && !flagView.me.deadmask.getLsbD l

theorem flagLanes_eq : flagLanes = [0] := by decide +kernel

/-- The addresses of the wait. -/
def flagIndex : Spec.IdxSpec := ⟨.u32, .sp, 1, 0, 0, none, 0⟩

theorem flagIndex_at : flagIndex.at_ flagView 0 = .addr 0 := rfl

/-- The word of the scratchpad. -/
def flagPlace : Piece × Where := ({ lane := 0, tag := 1, addr := 0, n := 4, align := 4 }, .cell (flagView.csp 0))

theorem flagLanes_addressed : ∀ l ∈ flagLanes, flagIndex.at_ flagView l ≠ .fault ∧ flagIndex.at_ flagView l ≠ .skip := by
  simp only [flagLanes_eq, List.mem_singleton, forall_eq, flagIndex_at]
  exact ⟨nofun, nofun⟩

/-- What the wait reads. -/
def flagPieces : List Piece := flagLanes.filterMap fun l => match flagIndex.at_ flagView l with
  | .addr y => some { lane := l, tag := 1, addr := y, n := elemBytes .u32, align := elemBytes .u32 }
  | _ => none

theorem flagPieces_eq : flagPieces = [flagPlace.1] := by
  rw [flagPieces, flagLanes_eq]
  rfl

theorem judge_flagPlace : judge flagView .sp .rd false flagPlace.1 = .ok flagPlace.2 := by decide +kernel

theorem lostDevice_flagPlace : lostDevice flagView (flagView.csp 0) = none := by decide +kernel

theorem placed_flagPlace : Spec.Placed flagView .sp .rd false flagPieces [flagPlace] := by
  refine ⟨flagPieces_eq.symm, ?_⟩
  simp only [List.mem_singleton, forall_eq]
  exact ⟨judge_flagPlace, fun k hk => by cases hk; exact lostDevice_flagPlace⟩

/-- The flag does not meet the condition. -/
theorem flagPlace_unmet : ([flagPlace].all fun p =>
    Spec.waitMeets .ne (Spec.toNum .u32 (leVal (p.2.bytes (dropLines flagView.me.core flagView) p.1.n)))
      (Spec.toNum .u32 (flagView.me.elem .u32 1 p.1.lane))) = false := by decide +kernel

/-- What the queue of strand 0 holds after an instruction. -/
def queueAfter (o : Out) : List VOp := match o with
  | .next t => (t.strand 0).viq
  | _ => []

/-- The entry leaves the queue for its mark, whatever the test finds. -/
theorem queueAfter_vwaitLaneMet : queueAfter (exec .vwaitLaneMet flagState) = [] := by decide +kernel

/-- Refutes O48: a wait whose entry is marked as completed leaves the queue with its lane unmet, where the statement has it wait on. -/
theorem not_strandEvents : ¬ Obligations.StrandEvents := by
  unfold Obligations.StrandEvents
  intro h
  obtain ⟨-, -, -, -, -, -, -, -, -, -, hwait, -, -⟩ := h flagState
  obtain ⟨-, hunmet⟩ := hwait 0 completedWait flagView .ne .u32 true 0 0 0 0 1 0 1 none rfl oldestEntry_flagState rfl rfl (by decide) rfl
    rfl flagLanes_addressed [flagPlace] placed_flagPlace
  obtain ⟨t, q, hexec, -, hhead, -⟩ := hunmet flagPlace_unmet
  have hqueue := queueAfter_vwaitLaneMet
  rw [hexec, queueAfter] at hqueue
  rw [hqueue] at hhead
  cases hhead

end Sys2Proof.Machine
end

section
/-! SUPPORT. The encoder against the decoder (R86 to R89, R102): digits of a field, codes, and the round trip: O56. -/

namespace Sys2Proof.Laws
open Sys2Proof Sys2Proof.Coding
open Sys2Proof.Machine (bits vtypeOf vtypeCode)
open Sys2Proof.Laws.F

/-! ### Digits

A modifier field is a sum of digits over powers of two: a read of some of its bits drops the digits below them and those above. -/

@[simp] theorem digits_div {x y m p : Nat} (hp : p % m = 0) (hy : y < m) : (x * m + y) / p = x / (p / m) := by
  obtain ⟨r, rfl⟩ := Nat.dvd_of_mod_eq_zero hp
  have hm : 0 < m := Nat.zero_lt_of_lt hy
  rw [← Nat.div_div_eq_div_mul, Nat.mul_comm x, Nat.mul_add_div hm, Nat.div_eq_of_lt hy, Nat.add_zero, Nat.mul_div_cancel_left _ hm]

@[simp] theorem digit_div {x m p : Nat} (hp : p % m = 0) (hm : 0 < m) : x * m / p = x / (p / m) := digits_div (y := 0) hp hm

@[simp] theorem digits_div_mod {x y m p q : Nat} (hm : m % (p * q) = 0) : (x * m + y) / p % q = y / p % q := by
  obtain ⟨r, rfl⟩ := Nat.dvd_of_mod_eq_zero hm
  rcases Nat.eq_zero_or_pos p with rfl | hp
  · simp
  · rw [show x * (p * q * r) + y = p * (q * (x * r)) + y by ring, Nat.mul_add_div hp, Nat.mul_add_mod]

@[simp] theorem digit_div_mod {x m p q : Nat} (hm : m % (p * q) = 0) : x * m / p % q = 0 :=
  (digits_div_mod (y := 0) hm).trans (by simp)

@[simp] theorem digits_mod {x y m q : Nat} (hm : m % q = 0) : (x * m + y) % q = y % q := by
  obtain ⟨r, rfl⟩ := Nat.dvd_of_mod_eq_zero hm
  rw [Nat.mul_left_comm, Nat.mul_add_mod]

@[simp] theorem digit_mod {x m q : Nat} (hm : m % q = 0) : x * m % q = 0 := (digits_mod (y := 0) hm).trans (Nat.zero_mod _)

/-! ### Codes -/

theorem accept_ok {i : Instr} (h : i.wellFormed = true) : accept i = .ok i := if_pos h

@[simp] theorem ok_bind {α β : Type} (a : α) (k : α → Dec β) : ((.ok a : Dec α) >>= k) = k a := rfl

@[simp] theorem need_true (r : Reject) : need true r = .ok () := rfl

@[simp] theorem sreg_val (r : SReg) : sreg r.val = .ok r := dif_pos r.isLt
@[simp] theorem sreg_zero : sreg 0 = .ok 0 := rfl
@[simp] theorem vreg_val (r : VReg) : vreg r.val = .ok r := dif_pos r.isLt
@[simp] theorem vreg_zero : vreg 0 = .ok 0 := rfl
@[simp] theorem mreg_val (r : MReg) : mreg r.val = .ok r := dif_pos r.isLt
@[simp] theorem treg_val (r : TReg) : treg r.val = .ok r := dif_pos r.isLt

@[simp] theorem tyOf_tyCode (t : Ty) : tyOf (tyCode t) = some t := by cases t <;> rfl
@[simp] theorem ty_tyCode (t : Ty) (ok : Ty → Bool) : ty (tyCode t) ok = if ok t then .ok t else .error .reserved := by
  rw [ty, tyOf_tyCode]
@[simp] theorem fty_ftyCode (t : FTy) : fty (ftyCode t) = .ok t := by cases t <;> rfl
@[simp] theorem scope_scopeCode (c : Scope) : scope (scopeCode c) = .ok c := by cases c <;> rfl
@[simp] theorem accW_accCode (x : AccW) : accW (accCode x) = x := by cases x <;> rfl
@[simp] theorem extW_extCode (x : ExtW) : extW (extCode x) = .ok x := by cases x <;> rfl
@[simp] theorem tretMode_tretCode (m : TretMode) : tretMode (tretCode m) = .ok m := by cases m <;> rfl
@[simp] theorem amoOp_amoCode (o : AmoOp) : amoOp (amoCode o) = some o := by cases o <;> rfl
@[simp] theorem aord_aordCode (o : AOrd) : aord (aordCode o) = o := by cases o <;> rfl
@[simp] theorem sem_semCode (m : Sem) : sem (semCode m) = .ok m := by cases m <;> rfl
@[simp] theorem fold_foldCode (f : Fold) : fold (Coding.foldCode f) = .ok f := by cases f <;> rfl
@[simp] theorem wcc_wccCode (c : WCc) : wcc (wccCode c) = c := by cases c <;> rfl
@[simp] theorem vcc_vccCode (c : VCc) : vcc (vccCode c) = .ok c := by cases c <;> rfl
@[simp] theorem grantOf_grantCode (g : Grant) : grantOf (grantCode g) = .ok g := by cases g <;> rfl
@[simp] theorem hsel_hselCode (x : HSel) : hsel (hselCode x) = .ok x := by cases x <;> rfl
@[simp] theorem rmo_rmoCode (r : Rmo) : rmo (rmoCode r) = .ok r := by
  cases r with
  | frm => rfl
  | fixed m => cases m <;> rfl

open Fin.NatCast in
@[simp] theorem cast_digits {n : Nat} [NeZero n] {x m y : Nat} (hm : m % n = 0) : ((x * m + y : Nat) : Fin n) = (y : Fin n) :=
  Fin.ext (digits_mod hm)

@[simp] theorem ofNat_digits {w x m y : Nat} (hm : m % 2 ^ w = 0) : BitVec.ofNat w (x * m + y) = BitVec.ofNat w y :=
  BitVec.eq_of_toNat_eq (by simp only [BitVec.toNat_ofNat, digits_mod hm])

/-- How fields read, as numbers: one set of rules for `simp`. -/
theorem reading_rules : (∀ x hi lo, bits x hi lo = x / 2 ^ lo % 2 ^ (hi + 1 - lo)) ∧ (∀ x i, bit x i = decide (x / 2 ^ i % 2 = 1))
    ∧ (∀ f l, tails f l = need (l.contains f.ts) .tailSize) ∧ (∀ l, zero l = need (l.all (· = 0)) .reserved)
    ∧ (∀ f, imm f = BitVec.ofNat 32 f.w1) ∧ (∀ f, gov f = Fin.ofNat 8 f.m) ∧ (∀ n, fin4 n = Fin.ofNat 16 n)
    ∧ (∀ f k, t1da f k = (sreg f.d >>= fun d => sreg f.a >>= fun a => k d a))
    ∧ (∀ x p : Nat, x < p → x / p = 0) ∧ (∀ x p : Nat, x < p → x % p = x) ∧ ∀ x y z : Nat, x + y + z = x + (y + z) :=
  ⟨fun _ _ _ => rfl, fun _ _ => rfl, fun _ _ => rfl, fun _ => rfl, fun _ => rfl, fun _ => rfl, fun _ => rfl, fun _ _ => rfl,
    fun _ _ => Nat.div_eq_of_lt, fun _ _ => Nat.mod_eq_of_lt, Nat.add_assoc⟩

/-! ### Forms

A form of the decoder, run on the fields that the encoder gives it, answers the instruction. What it makes of its operands is an
explicit argument, as in the decoder's tables. -/

section
variable {maj fn : Nat} {t : Ty} {sp : Bool} {r : Rmo} {y : VSrc} {i : Imm} {m : MReg}

/-- OFF of a TB tail stands in three fields (R88). -/
theorem tbOff_digits (n : Nat) : n / 512 * 512 + (n / 64 % 8 * 64 + n % 64) = n := by omega

/-- y reads back from BS and b (R162). -/
theorem ySel_reads (y : VSrc) :
    (if ySel y = 1 then (sreg (yReg y)).map VSrc.scal else (vreg (yReg y)).map VSrc.vec) = .ok y := by
  cases y with
  | vec v => rw [ySel, yReg, vreg_val]; rfl
  | scal r => rw [ySel, yReg, sreg_val]; rfl

theorem rrr_encR (k : Bool → Bool → SReg → SReg → SReg → Instr) {w u uOk : Bool} {d a b : SReg} (hu : (uOk || !u) = true)
    (h : (k w u d a b).wellFormed = true) :
    rrr (encR maj fn w u d a b) uOk k = .ok (k w u d a b) := by
  have := w.toNat_lt
  have := u.toNat_lt
  simp (disch := omega) [rrr, encR, reading_rules, hu, accept_ok h]

theorem branch_encB (k : SReg → SReg → BitVec 15 → Fin 32 → Instr) {d a : SReg} {off : BitVec 15} {hi : Fin 32}
    (h : (k d a off hi).wellFormed = true) :
    branch (encB fn d a off hi) k = .ok (k d a off hi) := by
  simp (disch := omega) [branch, encB, tbOff, tbHi, tbOff_digits, reading_rules, accept_ok h]

section
variable (k : SReg → Instr) (ki : SReg → Imm → Instr)

theorem addrOnly_reg {a : SReg} (h : (k a).wellFormed = true) :
    addrOnly { ts := 2, maj := maj, fn := fn, a := a } k ki = .ok (k a) := by
  simp [addrOnly, reading_rules, accept_ok h]

theorem addrOnly_imm {a : SReg} (h : (ki a i).wellFormed = true) :
    addrOnly { ts := 3, maj := maj, fn := fn, a := a, w1 := i.toNat } k ki = .ok (ki a i) := by
  simp [addrOnly, reading_rules, accept_ok h]

end

section
variable (k : Ty → Bool → VReg → VReg → VSrc → MReg → Instr) (ki : Ty → Bool → VReg → VReg → Imm → MReg → Instr)

theorem intOp_encI {sat satOk : Bool} {d a : VReg} (hs : (satOk || !sat) = true) (ht : t.okInt = true)
    (h : (k t sat d a y m).wellFormed = true) :
    intOp (encI fn t sat d a y m) satOk k ki = .ok (k t sat d a y m) := by
  have := sat.toNat_lt
  have := tyCode_lt t
  have := ySel_lt y
  simp (disch := omega) [intOp, encI, immZero, elemForm, ysrc, ySel_reads, reading_rules, hs, ht, accept_ok h]

theorem intOp_encIImm {sat satOk : Bool} {d a : VReg} (hs : (satOk || !sat) = true) (ht : t.okInt = true)
    (h : (ki t sat d a i m).wellFormed = true) :
    intOp (encIImm fn t sat d a i m) satOk k ki = .ok (ki t sat d a i m) := by
  have := sat.toNat_lt
  have := tyCode_lt t
  simp (disch := omega) [intOp, encIImm, immZero, elemForm, reading_rules, hs, ht, accept_ok h]

end

section
variable (k : Ty → Rmo → Bool → Bool → VReg → VReg → VSrc → MReg → Instr)
  (ki : Ty → Rmo → Bool → Bool → VReg → VReg → Imm → MReg → Instr)

theorem fpOp_encF {np nc npOk ncOk : Bool} {d a : VReg} (hp : (npOk || !np) = true) (hc : (ncOk || !nc) = true) (ht : t.okFp = true)
    (h : (k t r np nc d a y m).wellFormed = true) :
    fpOp (encF fn t r np nc d a y m) npOk ncOk k ki = .ok (k t r np nc d a y m) := by
  have := np.toNat_lt
  have := nc.toNat_lt
  have := tyCode_lt t
  have := rmoCode_lt r
  have := ySel_lt y
  simp (disch := omega) [fpOp, encF, immZero, elemForm, ysrc, ySel_reads, reading_rules, hp, hc, ht, accept_ok h]

theorem fpOp_encFImm {np nc npOk ncOk : Bool} {d a : VReg} (hp : (npOk || !np) = true) (hc : (ncOk || !nc) = true) (ht : t.okFp = true)
    (h : (ki t r np nc d a i m).wellFormed = true) :
    fpOp (encFImm fn t r np nc d a i m) npOk ncOk k ki = .ok (ki t r np nc d a i m) := by
  have := np.toNat_lt
  have := nc.toNat_lt
  have := tyCode_lt t
  have := rmoCode_lt r
  simp (disch := omega) [fpOp, encFImm, immZero, elemForm, reading_rules, hp, hc, ht, accept_ok h]

end

theorem fpUnary_encF1 (k : Ty → Rmo → VReg → VReg → MReg → Instr) {d a : VReg} (ht : t.okFp = true)
    (h : (k t r d a m).wellFormed = true) :
    fpUnary (encF1 fn t r d a m) k = .ok (k t r d a m) := by
  have := tyCode_lt t
  have := rmoCode_lt r
  simp (disch := omega) [fpUnary, encF1, reading_rules, ht, accept_ok h]

section
variable (k : Ty → VReg → VReg → VReg → MReg → Instr) (kg : Ty → VSrc → VReg → VReg → VReg → MReg → Instr)

theorem lnsOp_encT {d a b : VReg} (ht : t.okLns = true) (h : (k t d a b m).wellFormed = true) :
    lnsOp (encT 0x41 fn t d a b m) k kg = .ok (k t d a b m) := by
  have := tyCode_lt t
  simp (disch := omega) [lnsOp, encT, immZero, reading_rules, ht, accept_ok h]

theorem lnsOp_encGiven {g : VSrc} {d a b : VReg} (ht : t.okLns = true) (h : (kg t g d a b m).wellFormed = true) :
    lnsOp (encGiven fn t g d a b m) k kg = .ok (kg t g d a b m) := by
  have := tyCode_lt t
  have hg : 2 - ySel g < 8 := by omega
  have hle : 2 - ySel g ≤ 2 := Nat.sub_le ..
  have := yReg_lt g
  simp (disch := omega) [lnsOp, encGiven, immZero, reading_rules, ht, hle]
  cases g <;> simp [ySel, yReg, accept_ok h]

end

theorem maskOp_encM (k : MReg → MReg → MReg → Instr) {d a b : MReg} (h : (k d a b).wellFormed = true) :
    maskOp (encM 0x50 fn d a b 0) k = .ok (k d a b) := by
  simp [maskOp, encM, reading_rules, accept_ok h]

theorem maskRead_encM (k : SReg → MReg → MReg → Instr) {d : SReg} {a m : MReg} (h : (k d a m).wellFormed = true) :
    maskRead (encM maj fn d a 0 m) k = .ok (k d a m) := by
  simp [maskRead, encM, reading_rules, accept_ok h]

section
variable (k : Ty → VReg → VReg → SReg → MReg → Instr) (ki : Ty → VReg → VReg → Imm → MReg → Instr)

theorem indexOp_encT {d a : VReg} {b : SReg} (h : (k t d a b m).wellFormed = true) :
    indexOp (encT 0x58 fn t d a b m) k ki = .ok (k t d a b m) := by
  have := tyCode_lt t
  simp (disch := omega) [indexOp, encT, immZero, reading_rules, accept_ok h]

theorem indexOp_encTImm {d a : VReg} (h : (ki t d a i m).wellFormed = true) :
    indexOp (encTImm 0x58 fn t d a m i) k ki = .ok (ki t d a i m) := by
  have := tyCode_lt t
  simp (disch := omega) [indexOp, encTImm, immZero, reading_rules, accept_ok h]

end

theorem redOp_encT (k : Ty → SReg → VReg → SReg → MReg → Instr) {d b : SReg} {a : VReg} (h : (k t d a b m).wellFormed = true) :
    redOp (encT 0x59 fn t d a b m) k = .ok (k t d a b m) := by
  have := tyCode_lt t
  simp (disch := omega) [redOp, encT, reading_rules, accept_ok h]

theorem biasZero_ok {t : Ty} {b : SReg} (hb : biasFits t b = true) (ts maj fn d a m md w1 : Nat) :
    biasZero ⟨ts, maj, fn, d, a, b, m, md, w1⟩ t = .ok () := by
  unfold biasZero
  split
  · rfl
  · next hn =>
    have hz : b.val = 0 := by simpa [biasFits, hn] using hb
    rw [hz]
    rfl

section
variable (k : Ty → Bool → VReg → SReg → SReg → MReg → Instr) (ki : Ty → Bool → VReg → SReg → SReg → Imm → MReg → Instr)

theorem unitOp_encV {genOnly : Bool} {d : VReg} {a b : SReg} (hg : (!(genOnly && sp)) = true) (hb : biasFits t b = true)
    (h : (k t sp d a b m).wellFormed = true) :
    unitOp (encV fn t sp 0 0 d a b m) genOnly k ki = .ok (k t sp d a b m) := by
  have := tyCode_lt t
  have := sp.toNat_lt
  simp (disch := omega) [unitOp, encV, encX, anyTy, biasZero_ok hb, hg, reading_rules, accept_ok h]

theorem unitOp_encVImm {genOnly : Bool} {d : VReg} {a b : SReg} (hg : (!(genOnly && sp)) = true) (hb : biasFits t b = true)
    (h : (ki t sp d a b i m).wellFormed = true) :
    unitOp (encVImm fn t sp 0 0 d a b m i) genOnly k ki = .ok (ki t sp d a b i m) := by
  have := tyCode_lt t
  have := sp.toNat_lt
  simp (disch := omega) [unitOp, encVImm, encX, anyTy, biasZero_ok hb, hg, reading_rules, accept_ok h]

theorem strideOp_encV {d : VReg} {a b : SReg} (h : (k t sp d a b m).wellFormed = true) :
    strideOp (encV fn t sp 0 0 d a b m) k ki = .ok (k t sp d a b m) := by
  have := tyCode_lt t
  have := sp.toNat_lt
  simp (disch := omega) [strideOp, encV, encX, anyTy, reading_rules, accept_ok h]

theorem strideOp_encVImm {d : VReg} {a b : SReg} (h : (ki t sp d a b i m).wellFormed = true) :
    strideOp (encVImm fn t sp 0 0 d a b m i) k ki = .ok (ki t sp d a b i m) := by
  have := tyCode_lt t
  have := sp.toNat_lt
  simp (disch := omega) [strideOp, encVImm, encX, anyTy, reading_rules, accept_ok h]

end

section
variable (k : Fin 8 → Ty → Bool → VReg → SReg → MReg → Instr) (ki : Fin 8 → Ty → Bool → VReg → SReg → Imm → MReg → Instr)

theorem segOp_encV {nf : Fin 8} {d : VReg} {a : SReg} (hn : nf.val ≠ 0) (h : (k nf t sp d a m).wellFormed = true) :
    segOp (encV fn t sp 0 nf d a 0 m) k ki = .ok (k nf t sp d a m) := by
  have := tyCode_lt t
  have := sp.toNat_lt
  simp (disch := omega) [segOp, encV, encX, anyTy, reading_rules, hn, accept_ok h]

theorem segOp_encVImm {nf : Fin 8} {d : VReg} {a : SReg} (hn : nf.val ≠ 0) (h : (ki nf t sp d a i m).wellFormed = true) :
    segOp (encVImm fn t sp 0 nf d a 0 m i) k ki = .ok (ki nf t sp d a i m) := by
  have := tyCode_lt t
  have := sp.toNat_lt
  simp (disch := omega) [segOp, encVImm, encX, anyTy, reading_rules, hn, accept_ok h]

end

section
variable (k : Ty → Bool → VReg → SReg → VReg → MReg → Instr) (kc : Ty → Bool → VReg → SReg → VReg → SReg → MReg → Instr)

theorem gatherOp_encV {genOnly xOk : Bool} {x : Fin 8} {d b : VReg} {a : SReg} (hg : (!(genOnly && sp)) = true)
    (hx : (xOk || decide (x = 0)) = true) (h : (k t sp d a b m).wellFormed = true) :
    gatherOp (encV fn t sp 0 x d a b m) genOnly xOk k kc = .ok (k t sp d a b m) := by
  have := tyCode_lt t
  have := sp.toNat_lt
  simp (disch := omega) [gatherOp, encV, encX, anyTy, immZero, reading_rules, hg, hx, accept_ok h]

theorem gatherOp_encVC {genOnly xOk : Bool} {x : Fin 8} {d b : VReg} {a c : SReg} (hg : (!(genOnly && sp)) = true)
    (hx : (xOk || decide (x = 0)) = true) (h : (kc t sp d a b c m).wellFormed = true) :
    gatherOp (encVC fn t sp x d a b c m) genOnly xOk k kc = .ok (kc t sp d a b c m) := by
  have := tyCode_lt t
  have := sp.toNat_lt
  simp (disch := omega) [gatherOp, encVC, encX, anyTy, immZero, reading_rules, hg, hx, accept_ok h]

end

section
variable (k : Ty → Bool → VReg → SReg → MReg → Instr) (ki : Ty → Bool → VReg → SReg → Imm → MReg → Instr)

theorem feOp_encV {take q : Bool} {d : VReg} {a : SReg} (hq : (q || !take) = true) (h : (k t take d a m).wellFormed = true) :
    feOp (encV fn t true take.toNat 0 d a 0 m) q k ki = .ok (k t take d a m) := by
  have := tyCode_lt t
  have := true.toNat_lt
  have := take.toNat_lt
  simp (disch := omega) [-Bool.toNat_true, feOp, encV, encX, anyTy, reading_rules, hq, accept_ok h]

theorem feOp_encVImm {take q : Bool} {d : VReg} {a : SReg} (hq : (q || !take) = true) (h : (ki t take d a i m).wellFormed = true) :
    feOp (encVImm fn t true take.toNat 0 d a 0 m i) q k ki = .ok (ki t take d a i m) := by
  have := tyCode_lt t
  have := true.toNat_lt
  have := take.toNat_lt
  simp (disch := omega) [-Bool.toNat_true, feOp, encVImm, encX, anyTy, reading_rules, hq, accept_ok h]

end

section
variable (k : Ty → VReg → VReg → MReg → Instr) (ki : Ty → VReg → VReg → Imm → MReg → Instr)

theorem laneOp_encT {d a : VReg} (h : (k t d a m).wellFormed = true) : laneOp (encT 0x61 fn t d a 0 m) k ki = .ok (k t d a m) := by
  have := tyCode_lt t
  simp (disch := omega) [laneOp, encT, anyTy, reading_rules, accept_ok h]

theorem laneOp_encTImm {d a : VReg} (h : (ki t d a i m).wellFormed = true) :
    laneOp (encTImm 0x61 fn t d a m i) k ki = .ok (ki t d a i m) := by
  have := tyCode_lt t
  simp (disch := omega) [laneOp, encTImm, anyTy, reading_rules, accept_ok h]

end

theorem mmaOp_encMma (k : Ty → Bool → Bool → Bool → ZReg → TReg → TReg → Instr) {ua ub z : Bool} {d a b : TReg} (ht : t.okTileD = true)
    (hu : uFits t ua ub = true) (h : (k t ua ub z d a b).wellFormed = true) :
    mmaOp (encMma fn t ua ub z d a b) k = .ok (k t ua ub z d a b) := by
  have := tyCode_lt t
  have := ua.toNat_lt
  have := ub.toNat_lt
  have := z.toNat_lt
  simp (disch := omega) [mmaOp, encMma, reading_rules, ht, hu, accept_ok h]

theorem gainOp_encH (k : Bool → Fin 4 → SReg → SReg → SReg → Instr) {r : Bool} {n : Fin 4} {d a b : SReg}
    (h : (k r n d a b).wellFormed = true) :
    gainOp (encH fn 0 r n d a b) k = .ok (k r n d a b) := by
  have := r.toNat_lt
  simp (disch := omega) [gainOp, encH, heapNo, reading_rules, accept_ok h]

end

/-! ### Single instructions -/

/-- The fields of a well-formed instruction decode to it. -/
def Decodes (i : Instr) : Prop := i.wellFormed = true → decodeFields (encodeFields i) = .ok i

theorem decodes_clz_popc (w : Bool) (d a : SReg) :
    Decodes (.clz w d a) ∧ Decodes (.popc w d a) := by
  have := w.toNat_lt
  refine ⟨fun h => ?_, fun h => ?_⟩
  all_goals simp (disch := omega) [encodeFields, decodeFields, decode01, reading_rules, accept_ok h]

theorem decodes_sext_zext (x : ExtW) (d a : SReg) :
    Decodes (.sext x d a) ∧ Decodes (.zext x d a) := by
  have := extCode_lt x
  refine ⟨fun h => ?_, fun h => ?_⟩
  all_goals simp (disch := omega) [encodeFields, decodeFields, decode01, reading_rules, accept_ok h]

theorem decodes_sel (d a b c : SReg) : Decodes (.sel d a b c) := by
  intro h
  simp (disch := omega) [encodeFields, decodeFields, decode00, reading_rules, accept_ok h]

theorem decodes_lea (n : Fin 8) (d a b : SReg) :
    Decodes (.lea n d a b) ∧ ∀ i, Decodes (.leaImm n d a b i) := by
  refine ⟨fun h => ?_, fun _ h => ?_⟩
  all_goals simp (disch := omega) [encodeFields, decodeFields, decode00, reading_rules, accept_ok h]

theorem decodes_addi (w : Bool) (d a : SReg) (i : Imm) : Decodes (.addi w d a i) := by
  have := w.toNat_lt
  intro h
  simp (disch := omega) [encodeFields, decodeFields, decode02, reading_rules, accept_ok h]

theorem decodes_li (hi : Bool) (d a : SReg) (i : Imm) : Decodes (.li hi d a i) := by
  intro h
  have := hi.toNat_lt
  have hv : (hi || decide (a.val = 0)) = true := h
  have ha : (hi || decide (a = 0)) = true := by simpa using hv
  simp (disch := omega) [encodeFields, decodeFields, decode02, reading_rules, ha, accept_ok h]

theorem decodes_fadd (t : FTy) (r : Rmo) (n : Bool) (d a b : SReg) :
    Decodes (.fadd t r n d a b) ∧ Decodes (.fmul t r n d a b) := by
  have := ftyCode_lt t
  have := rmoCode_lt r
  have := n.toNat_lt
  refine ⟨fun h => ?_, fun h => ?_⟩
  all_goals simp (disch := omega) [encodeFields, decodeFields, decode10, reading_rules, accept_ok h]

theorem decodes_ffma (t : FTy) (r : Rmo) (np nc : Bool) (d a b c : SReg) : Decodes (.ffma t r np nc d a b c) := by
  have := ftyCode_lt t
  have := rmoCode_lt r
  have := np.toNat_lt
  have := nc.toNat_lt
  intro h
  simp (disch := omega) [encodeFields, decodeFields, decode10, reading_rules, accept_ok h]

theorem decodes_fcvt (dt st : Ty) (r : Rmo) (d a : SReg) : Decodes (.fcvt dt st r d a) := by
  intro h
  have := tyCode_lt dt
  have := tyCode_lt st
  have := rmoCode_lt r
  have hty : (dt.okScalar && st.okScalar && !(dt.isInt && st.isInt)) = true := h
  obtain ⟨⟨hd, hs⟩, -⟩ : ((dt ≠ .lns6 ∧ dt ≠ .dflt) ∧ st ≠ .lns6 ∧ st ≠ .dflt) ∧ _ := by
    simpa only [Ty.okScalar, Bool.and_eq_true, decide_eq_true_eq] using hty
  simp (disch := omega) [encodeFields, decodeFields, decode10, reading_rules, hd, hs, accept_ok h]

theorem decodes_br (off : BitVec 15) (hi : Fin 32) :
    Decodes (.br off hi) ∧ ∀ d, Decodes (.call d off hi) := by
  refine ⟨fun h => ?_, fun _ h => ?_⟩
  all_goals simp (disch := omega) [encodeFields, decodeFields, decode18, encB, tbOff, tbHi, tbOff_digits, reading_rules, accept_ok h]

theorem decodes_ret (a : SReg) :
    Decodes (.ret a) ∧ ∀ d, Decodes (.jr d a) := by
  refine ⟨fun h => ?_, fun _ h => ?_⟩
  all_goals simp (disch := omega) [encodeFields, decodeFields, decode18, reading_rules, accept_ok h]

theorem decodes_mfs (d : SReg) (n : Fin 1024) :
    Decodes (.mfs d n) ∧ Decodes (.mts n d) := by
  refine ⟨fun h => ?_, fun h => ?_⟩
  all_goals simp (disch := omega) [encodeFields, decodeFields, decode20, reading_rules, accept_ok h]

theorem decodes_trap (a : SReg) (c : Fin 256) (dt : BitVec 16) : Decodes (.trap a c dt) := by
  intro h
  simp (disch := omega) [encodeFields, decodeFields, decode20, reading_rules, accept_ok h]

theorem decodes_tret (m : TretMode) : Decodes (.tret m) := by
  cases m <;> exact fun _ => rfl

theorem decodes_brk (n : Fin 16) : Decodes (.brk n) := by
  intro h
  simp [encodeFields, decodeFields, decode20, reading_rules, accept_ok h]

theorem decodes_join (n : Fin 16) : Decodes (.join n) := by
  intro h
  simp [encodeFields, decodeFields, decode21, reading_rules, accept_ok h]

theorem decodes_leave (n : Fin 16) : Decodes (.leave n) := by
  intro h
  simp [encodeFields, decodeFields, decode21, reading_rules, accept_ok h]

theorem decodes_bsync (n : Fin 16) : Decodes (.bsync n) := by
  intro h
  simp [encodeFields, decodeFields, decode21, reading_rules, accept_ok h]

theorem decodes_sbrel (n : Fin 16) : Decodes (.sbrel n) := by
  intro h
  simp [encodeFields, decodeFields, decode78, reading_rules, accept_ok h]

theorem decodes_sysc (n : Fin 2048) : Decodes (.sysc n) := by
  intro h
  simp (disch := omega) [encodeFields, decodeFields, decode20, reading_rules, accept_ok h]

theorem decodes_idle (a : SReg) : Decodes (.idle a) := by
  intro h
  simp (disch := omega) [encodeFields, decodeFields, decode20, reading_rules, accept_ok h]

theorem decodes_elect (d : SReg) (b : Fin 16) : Decodes (.elect d b) := by
  intro h
  simp (disch := omega) [encodeFields, decodeFields, decode21, reading_rules, accept_ok h]

theorem decodes_regclm (n : Fin 128) :
    Decodes (.regclm n) ∧ Decodes (.regrel n) := by
  refine ⟨fun h => ?_, fun h => ?_⟩
  all_goals simp (disch := omega) [encodeFields, decodeFields, decode21, reading_rules, accept_ok h]

theorem decodes_launch (d a b : SReg) :
    Decodes (.launch d a b) ∧ ∀ i, Decodes (.launchImm d a b i) := by
  refine ⟨fun h => ?_, fun _ h => ?_⟩
  all_goals simp (disch := omega) [encodeFields, decodeFields, decode21, reading_rules, accept_ok h]

theorem decodes_scrub (c t r l : Bool) (d a : SReg) : Decodes (.scrub c t r l d a) := by
  have := c.toNat_lt
  have := t.toNat_lt
  have := r.toNat_lt
  have := l.toNat_lt
  intro h
  simp (disch := omega) [encodeFields, decodeFields, decode21, reading_rules, accept_ok h]

theorem scopeFits_reads {acq : Bool} {sc : Scope} (h : scopeFits acq sc = true) : (acq || decide (scopeCode sc = 0)) = true := by
  cases sc <;> simp_all [scopeFits, scopeCode]

theorem decodes_ld (x : AccW) (u sp acq : Bool) (sc : Scope) (d a : SReg) : Decodes (.ld x u sp acq sc d a) := by
  intro h
  have hs := scopeFits_reads (show scopeFits acq sc = true from h)
  have := u.toNat_lt
  have := sp.toNat_lt
  have := acq.toNat_lt
  have := accCode_lt x
  have := scopeCode_lt sc
  simp (disch := omega) [encodeFields, decodeFields, decode28, encOrd, ordBits, reading_rules, hs, accept_ok h]

theorem decodes_ldImm (x : AccW) (u sp acq : Bool) (sc : Scope) (d a : SReg) (i : Imm) : Decodes (.ldImm x u sp acq sc d a i) := by
  intro h
  have hs := scopeFits_reads (show scopeFits acq sc = true from h)
  have := u.toNat_lt
  have := sp.toNat_lt
  have := acq.toNat_lt
  have := accCode_lt x
  have := scopeCode_lt sc
  simp (disch := omega) [encodeFields, decodeFields, decode28, encOrd, ordBits, reading_rules, hs, accept_ok h]

theorem decodes_st (x : AccW) (sp acq : Bool) (sc : Scope) (a b : SReg) : Decodes (.st x sp acq sc a b) := by
  intro h
  have hs := scopeFits_reads (show scopeFits acq sc = true from h)
  have := sp.toNat_lt
  have := acq.toNat_lt
  have := accCode_lt x
  have := scopeCode_lt sc
  simp (disch := omega) [encodeFields, decodeFields, decode28, encOrd, ordBits, reading_rules, hs, accept_ok h]

theorem decodes_stImm (x : AccW) (sp acq : Bool) (sc : Scope) (a b : SReg) (i : Imm) : Decodes (.stImm x sp acq sc a b i) := by
  intro h
  have hs := scopeFits_reads (show scopeFits acq sc = true from h)
  have := sp.toNat_lt
  have := acq.toNat_lt
  have := accCode_lt x
  have := scopeCode_lt sc
  simp (disch := omega) [encodeFields, decodeFields, decode28, encOrd, ordBits, reading_rules, hs, accept_ok h]

theorem amoCode_le (op : AmoOp) : amoCode op ≤ 10 := by cases op <;> decide

theorem decodes_amo (op : AmoOp) (dbl : Bool) (o : AOrd) (d a b : SReg) : Decodes (.amo op dbl o d a b) := by
  intro h
  have := amoCode_lt op
  have := aordCode_lt o
  have := dbl.toNat_lt
  simp (disch := omega) [encodeFields, decodeFields, decode28, reading_rules, amoCode_le op, accept_ok h]

theorem decodes_amoCas (dbl : Bool) (o : AOrd) (d a b c : SReg) : Decodes (.amoCas dbl o d a b c) := by
  intro h
  have := aordCode_lt o
  have := dbl.toNat_lt
  have hcas : amoOp 9 = none := rfl
  simp (disch := omega) [-Nat.reduceMul, encodeFields, decodeFields, decode28, reading_rules, hcas, accept_ok h]

theorem decodes_fence (m : Sem) (sc : Scope) : Decodes (.fence m sc) := by
  have := semCode_lt m
  have := scopeCode_lt sc
  intro h
  simp (disch := omega) [encodeFields, decodeFields, decode28, reading_rules, accept_ok h]

theorem decodes_stwin (w : Fin 16) :
    Decodes (.stflush w) ∧ ∀ d a b, Decodes (.stwin w d a b) := by
  refine ⟨fun h => ?_, fun _ _ _ h => ?_⟩
  all_goals simp (disch := omega) [encodeFields, decodeFields, decode29, reading_rules, accept_ok h]

theorem decodes_stinv (dis : Bool) (w : Fin 16) : Decodes (.stinv dis w) := by
  have := dis.toNat_lt
  intro h
  simp (disch := omega) [encodeFields, decodeFields, decode29, reading_rules, accept_ok h]

/-- MODE and b of `vcvt` read back (R173). -/
theorem cvtMode_reads {dt st : Ty} {mode : CvtMode} (h : mode.fits dt st = true) (ts maj fn d a m md w1 : Nat)
    (hm : md / 16 % 8 = cvtCode mode) : cvtMode ⟨ts, maj, fn, d, a, cvtReg mode, m, md, w1⟩ dt st = .ok mode := by
  have hbits : bits md 6 4 = cvtCode mode := hm
  unfold cvtMode
  rw [hbits]
  cases mode with
  | round r =>
    obtain ⟨hl, hi⟩ : dt ≠ .lns6 ∧ (dt.isInt && st.isInt) = false := by
      simpa only [CvtMode.fits, Bool.and_eq_true, decide_eq_true_eq, Bool.not_eq_true'] using h
    rw [if_neg hl, hi, cvtCode, rmo_rmoCode]
    rfl
  | plain | sat =>
    have hl : dt ≠ .lns6 := by rintro rfl; exact absurd h Bool.false_ne_true
    rw [if_neg hl, show (dt.isInt && st.isInt) = true from h]
    rfl
  | own => rw [if_pos (of_decide_eq_true h)]; rfl
  | gs r => rw [if_pos (of_decide_eq_true h), cvtReg, cvtCode, sreg_val]; rfl
  | gv v => rw [if_pos (of_decide_eq_true h), cvtReg, cvtCode, vreg_val]; rfl

theorem decodes_vcvt (dt st : Ty) (mode : CvtMode) (d a : VReg) (m : MReg) : Decodes (.vcvt dt st mode d a m) := by
  intro h
  have := tyCode_lt dt
  have := tyCode_lt st
  have := cvtCode_lt mode
  have hw : (dt.given && st.given && mode.fits dt st) = true := h
  obtain ⟨⟨hd, hs⟩, hf⟩ : (dt.given = true ∧ st.given = true) ∧ mode.fits dt st = true := by simpa only [Bool.and_eq_true] using hw
  simp (disch := omega) [encodeFields, decodeFields, decode41, cvtMode_reads hf, reading_rules, hd, hs, accept_ok h]

theorem vtypeOf_vtypeCode (v : VType) : vtypeOf (vtypeCode v) = some v := by
  have h := Machine.vtypeOf_code v (k := 0) (by decide)
  rwa [Nat.mul_zero, Nat.add_zero] at h

theorem vtypeCode_lt_pow (v : VType) : vtypeCode v < 2 ^ 14 := by
  have ho := Machine.oobCode_lt v.oob
  have hb := Machine.blenCode_lt v.blen
  have hf := Machine.vtypeFmtCode_lt v.fmt
  simp only [vtypeCode]
  omega

@[simp] theorem vtypeImm_vtypeCode (v : VType) : vtypeImm (vtypeCode v) = .ok v := by
  have := vtypeCode_lt_pow v
  simp (disch := omega) [vtypeImm, vtypeOf_vtypeCode, reading_rules]

theorem decodes_vsetvl (p : Bool) (d a : SReg) :
    Decodes (.vsetvl p d a) ∧ ∀ v, Decodes (.vsetvlType p d a v) := by
  have := p.toNat_lt
  refine ⟨fun h => ?_, fun _ h => ?_⟩
  all_goals simp (disch := omega) [encodeFields, decodeFields, decode50, reading_rules, accept_ok h]

theorem decodes_vsettype (a : SReg) : Decodes (.vsettype a) := by
  intro h
  simp [encodeFields, decodeFields, decode50, reading_rules, accept_ok h]

theorem decodes_vsettypeImm (v : VType) : Decodes (.vsettypeImm v) := by
  intro h
  simp [encodeFields, decodeFields, decode50, reading_rules, accept_ok h]

theorem decodes_vcmp (cc : VCc) (t : Ty) (z : Bool) (d : MReg) (a : VReg) (y : VSrc) (m : MReg) : Decodes (.vcmp cc t z d a y m) := by
  have := z.toNat_lt
  have := vccCode_lt cc
  have := tyCode_lt t
  have := ySel_lt y
  intro h
  simp (disch := omega) [encodeFields, decodeFields, decode50, immZero, ysrc, ySel_reads, reading_rules, accept_ok h]

theorem decodes_vcmpImm (cc : VCc) (t : Ty) (z : Bool) (d : MReg) (a : VReg) (i : Imm) (m : MReg) :
    Decodes (.vcmpImm cc t z d a i m) := by
  have := z.toNat_lt
  have := vccCode_lt cc
  have := tyCode_lt t
  intro h
  simp (disch := omega) [encodeFields, decodeFields, decode50, immZero, reading_rules, accept_ok h]

theorem decodes_mnot (d a : MReg) : Decodes (.mnot d a) := by
  intro h
  simp (disch := omega) [encodeFields, decodeFields, decode50, reading_rules, accept_ok h]

theorem decodes_vif (n : Bool) (a : MReg) : Decodes (.vif n a) := by
  have := n.toNat_lt
  intro h
  simp (disch := omega) [encodeFields, decodeFields, decode50, reading_rules, accept_ok h]

theorem decodes_vsel (t : Ty) (d : VReg) (y : VSrc) (m : MReg) :
    Decodes (.vmov t d y m) ∧ ∀ a, Decodes (.vsel t d a y m) := by
  have := tyCode_lt t
  have := ySel_lt y
  refine ⟨fun h => ?_, fun _ h => ?_⟩
  all_goals simp (disch := omega) [encodeFields, decodeFields, decode58, encY, immZero, elemForm, ysrc, ySel_reads, reading_rules,
    accept_ok h]

theorem decodes_vselImm (t : Ty) (d : VReg) (i : Imm) (m : MReg) :
    Decodes (.vmovImm t d i m) ∧ ∀ a, Decodes (.vselImm t d a i m) := by
  have := tyCode_lt t
  refine ⟨fun h => ?_, fun _ h => ?_⟩
  all_goals simp (disch := omega) [encodeFields, decodeFields, decode58, encTImm, immZero, elemForm, reading_rules, accept_ok h]

theorem decodes_vperm (t : Ty) (d a : VReg) (m : MReg) :
    Decodes (.vexpand t d a m) ∧ ∀ b, Decodes (.vperm t d a b m) := by
  have := tyCode_lt t
  refine ⟨fun h => ?_, fun _ h => ?_⟩
  all_goals simp (disch := omega) [encodeFields, decodeFields, decode58, encT, reading_rules, accept_ok h]

theorem decodes_vcompress (t : Ty) (d x a : VReg) (c : SReg) (m : MReg) : Decodes (.vcompress t d x a c m) := by
  have := tyCode_lt t
  intro h
  simp (disch := omega) [encodeFields, decodeFields, decode58, reading_rules, accept_ok h]

theorem decodes_viota (t : Ty) (d : VReg) (m : MReg) :
    Decodes (.vid t d m) ∧ ∀ a, Decodes (.viota t d a m) := by
  have := tyCode_lt t
  refine ⟨fun h => ?_, fun _ h => ?_⟩
  all_goals
    have ht : t.okInt = true := h
    simp (disch := omega) [encodeFields, decodeFields, decode58, encT, reading_rules, ht, accept_ok h]

/-- Direction and registers of `vmovs` read back (R185). -/
theorem movIns_reads (op : MovS) :
    (if movIns op = 1 then vreg (movD op) >>= fun d => sreg (movA op) >>= fun a => .ok (.ins d a)
      else sreg (movD op) >>= fun d => vreg (movA op) >>= fun a => .ok (.ext d a)) = (.ok op : Dec MovS) := by
  cases op <;> simp [movIns, movD, movA]

theorem decodes_vmovs (t : Ty) (op : MovS) : (∀ b, Decodes (.vmovs t op b)) ∧ ∀ i, Decodes (.vmovsImm t op i) := by
  have := tyCode_lt t
  have := movIns_lt op
  refine ⟨fun _ h => ?_, fun _ h => ?_⟩
  all_goals simp (disch := omega) [encodeFields, decodeFields, decode58, movS, movIns_reads, immZero, reading_rules, accept_ok h]

theorem decodes_spclr (z : Bool) (a b : SReg) :
    Decodes (.spclr z a b) ∧ ∀ i, Decodes (.spclrImm z a b i) := by
  have := z.toNat_lt
  refine ⟨fun h => ?_, fun _ h => ?_⟩
  all_goals simp (disch := omega) [encodeFields, decodeFields, decode61, reading_rules, accept_ok h]

theorem decodes_awin (t : Ty) (op : Fold) (a b : SReg) (i : Imm) : Decodes (.awin t op a b i) := by
  intro h
  have := tyCode_lt t
  have := foldCode_lt op
  have ht : t.okAwin = true := h
  simp (disch := omega) [encodeFields, decodeFields, decode61, reading_rules, ht, accept_ok h]

theorem decodes_aupd (a b : VReg) (m : MReg) : Decodes (.aupd a b m) := by
  intro h
  simp (disch := omega) [encodeFields, decodeFields, decode61, encM, reading_rules, accept_ok h]

theorem decodes_vwait (cc : WCc) (t : Ty) (sp : Bool) (tmo : BitVec 26) (d : MReg) (a : SReg) (b c : VReg) (m : MReg) :
    Decodes (.vwait cc t sp tmo d a b c m) := by
  have := tyCode_lt t
  have := wccCode_lt cc
  have := sp.toNat_lt
  intro h
  simp (disch := omega) [encodeFields, decodeFields, decode61, reading_rules, accept_ok h]

theorem decodes_settile (t : Ty) (d a b c : SReg) : Decodes (.settile t d a b c) := by
  intro h
  have := tyCode_lt t
  have ht : t.okTile = true := h
  simp (disch := omega) [encodeFields, decodeFields, decode70, reading_rules, ht, accept_ok h]

theorem okTileD_of_okPlain {t : Ty} (h : t.okPlain = true) : t.okTileD = true := (Bool.and_eq_true_iff.mp h).1

theorem okTileD_of_okLns {t : Ty} (h : t.okLns = true) : t.okTileD = true := by
  revert h
  cases t <;> decide

theorem decodes_tldg (t : Ty) (role : Bool) (d : TReg) (a b : SReg) (c : VReg) (m : MReg) : Decodes (.tldg t role d a b c m) := by
  intro h
  have := tyCode_lt t
  have := role.toNat_lt
  have ht : t.okTileD = true := okTileD_of_okPlain h
  simp (disch := omega) [encodeFields, decodeFields, decode70, reading_rules, ht, accept_ok h]

theorem decodes_zld (t : Ty) (sp : Bool) (d : ZReg) (a b : SReg) :
    Decodes (.zld t sp d a b) ∧ ∀ i, Decodes (.zldImm t sp d a b i) := by
  have := tyCode_lt t
  have := sp.toNat_lt
  refine ⟨fun h => ?_, fun _ h => ?_⟩
  all_goals
    have ht : t.okZld = true := h
    simp (disch := omega) [encodeFields, decodeFields, decode70, encTile, reading_rules, ht, accept_ok h]

theorem decodes_zst (t : Ty) (sp : Bool) (r : Rmo) (d : ZReg) (a b : SReg) :
    Decodes (.zst t sp r d a b) ∧ ∀ i, Decodes (.zstImm t sp r d a b i) := by
  have := tyCode_lt t
  have := rmoCode_lt r
  have := sp.toNat_lt
  refine ⟨fun h => ?_, fun _ h => ?_⟩
  all_goals
    have ht : t.okZst = true := (Bool.and_eq_true_iff.mp h).1
    simp (disch := omega) [encodeFields, decodeFields, decode70, encTile, reading_rules, ht, accept_ok h]

theorem decodes_zclr (f : Bool) (d : ZReg) : Decodes (.zclr f d) := by
  have := f.toNat_lt
  intro h
  simp (disch := omega) [encodeFields, decodeFields, decode70, reading_rules, accept_ok h]

theorem barFits_reads {bv : Bool} {sb : Fin 16} (h : barFits bv sb = true) : (bv || decide (sb = 0)) = true := by
  simpa [barFits] using h

theorem decodes_tcopy (g : Grant) (bv : Bool) (sb : Fin 16) (d a b c : SReg) : Decodes (.tcopy g bv sb d a b c) := by
  intro h
  have := grantCode_lt g
  have := bv.toNat_lt
  have hb := barFits_reads (show barFits bv sb = true from h)
  simp (disch := omega) [encodeFields, decodeFields, decode78, reading_rules, hb, accept_ok h]

theorem decodes_tcopyo (g : Grant) (d a b c : SReg) : Decodes (.tcopyo g d a b c) := by
  have := grantCode_lt g
  intro h
  simp (disch := omega) [encodeFields, decodeFields, decode78, reading_rules, accept_ok h]

theorem decodes_tdfence (a : SReg) : Decodes (.tdfence a) := by
  intro h
  simp (disch := omega) [encodeFields, decodeFields, decode78, reading_rules, accept_ok h]

theorem decodes_sbinit (b : Fin 16) (a : SReg) :
    Decodes (.sbinit b a) ∧ Decodes (.sbexp b a) := by
  refine ⟨fun h => ?_, fun h => ?_⟩
  all_goals simp (disch := omega) [encodeFields, decodeFields, decode78, barOp, reading_rules, accept_ok h]

theorem decodes_sbwait (free : Bool) (b : Fin 16) (d a : SReg) : Decodes (.sbwait free b d a) := by
  have := free.toNat_lt
  intro h
  simp (disch := omega) [encodeFields, decodeFields, decode78, reading_rules, accept_ok h]

theorem decodes_colred (t : Ty) (op : Fold) (bv : Bool) (sb : Fin 16) (len : Fin 512) (d a c : SReg) :
    Decodes (.colred t op bv sb len d a c) := by
  intro h
  have := tyCode_lt t
  have := foldCode_lt op
  have := bv.toNat_lt
  have hw : (t.okCol && barFits bv sb && lenFits len) = true := h
  obtain ⟨⟨ht, hb⟩, -⟩ : (t.okCol = true ∧ barFits bv sb = true) ∧ lenFits len = true := by simpa only [Bool.and_eq_true] using hw
  simp (disch := omega) [encodeFields, decodeFields, decode79, reading_rules, ht, barFits_reads hb, accept_ok h]

theorem decodes_colbcast (bv : Bool) (sb : Fin 16) (len : Fin 512) (root : Fin 256) (d a c : SReg) :
    Decodes (.colbcast bv sb len root d a c) := by
  intro h
  have := bv.toNat_lt
  have hb := barFits_reads (Bool.and_eq_true_iff.mp h).1
  simp (disch := omega) [encodeFields, decodeFields, decode79, reading_rules, hb, accept_ok h]

theorem decodes_hpop (nb : Bool) (n : Fin 4) (d c : SReg) : Decodes (.hpop nb n d c) := by
  have := nb.toNat_lt
  intro h
  simp (disch := omega) [encodeFields, decodeFields, decode7C, heapNo, reading_rules, accept_ok h]

theorem decodes_hgrow (n : Fin 4) (d a : SReg) : Decodes (.hgrow n d a) := by
  intro h
  simp (disch := omega) [encodeFields, decodeFields, decode7C, encH, heapNo, reading_rules, accept_ok h]

theorem decodes_hdone (r : Bool) (n : Fin 4) (a : SReg) : Decodes (.hdone r n a) := by
  have := r.toNat_lt
  intro h
  simp (disch := omega) [encodeFields, decodeFields, decode7C, encH, heapNo, reading_rules, accept_ok h]

theorem decodes_hres (x : HSel) (n : Fin 4) (d : SReg) : Decodes (.hres x n d) := by
  have := hselCode_lt x
  intro h
  simp (disch := omega) [encodeFields, decodeFields, decode7C, encH, heapNo, reading_rules, accept_ok h]

theorem decodes_vscatterC (t : Ty) (x : MReg) (d b : VReg) (a : SReg) (m : MReg) :
    Decodes (.vscatterC t x d a b m) ∧ ∀ c, Decodes (.vscatterCBounded t x d a b c m) := by
  have := tyCode_lt t
  refine ⟨fun h => ?_, fun _ h => ?_⟩
  all_goals simp (disch := omega) [encodeFields, decodeFields, decode60, gatherOp, statusMask, anyTy, immZero, encV, encVC, encX,
    reading_rules, accept_ok h]

theorem decodes_tld (t : Ty) (sp role : Bool) (d : TReg) (a b : SReg) :
    Decodes (.tld t sp role d a b) ∧ ∀ c s, Decodes (.tldLns6 t sp role d a b c s) := by
  have := tyCode_lt t
  have := sp.toNat_lt
  have := role.toNat_lt
  refine ⟨fun h => ?_, fun _ _ h => ?_⟩
  · have ht : t.okTileD = true := okTileD_of_okPlain h
    simp (disch := omega) [encodeFields, decodeFields, decode70, tileOp, immZero, encTile, reading_rules, ht, accept_ok h]
  · have ht : t.okTileD = true := okTileD_of_okLns h
    simp (disch := omega) [encodeFields, decodeFields, decode70, tileOp, immZero, encTileLns, reading_rules, ht, accept_ok h]

theorem decodes_tldE (t : Ty) (role : Bool) (sb : Fin 16) (d : TReg) (a b : SReg) :
    Decodes (.tldE t role sb d a b) ∧ ∀ c s, Decodes (.tldELns6 t role sb d a b c s) := by
  have := tyCode_lt t
  have := true.toNat_lt
  have := role.toNat_lt
  refine ⟨fun h => ?_, fun _ _ h => ?_⟩
  · have ht : t.okTileD = true := okTileD_of_okPlain h
    simp (disch := omega) [-Bool.toNat_true, encodeFields, decodeFields, decode70, tileOp, immZero, encTile, reading_rules, ht,
      accept_ok h]
  · have ht : t.okTileD = true := okTileD_of_okLns h
    simp (disch := omega) [-Bool.toNat_true, encodeFields, decodeFields, decode70, tileOp, immZero, encTileLns, reading_rules, ht,
      accept_ok h]

theorem decodes_tst (t : Ty) (sp : Bool) (d : TReg) (a b : SReg) :
    Decodes (.tst t sp d a b) ∧ ∀ c s, Decodes (.tstLns6 t sp d a b c s) := by
  have := tyCode_lt t
  have := sp.toNat_lt
  refine ⟨fun h => ?_, fun _ _ h => ?_⟩
  · have ht : t.okTileD = true := okTileD_of_okPlain h
    simp (disch := omega) [encodeFields, decodeFields, decode70, tileOp, immZero, encTile, reading_rules, ht, accept_ok h]
  · have ht : t.okTileD = true := okTileD_of_okLns h
    simp (disch := omega) [encodeFields, decodeFields, decode70, tileOp, immZero, encTileLns, reading_rules, ht, accept_ok h]

/-! ### The round trip -/

/-- The decoder reads the fields of every well-formed instruction as that instruction. -/
theorem decodeFields_encodeFields (i : Instr) (h : i.wellFormed = true) : decodeFields (encodeFields i) = .ok i := by
  cases i with
  | nop | yield | halt | gbar | amerge | velse | vend | colwait => rfl
  | add w d a b => exact rrr_encR (fun w _ => .add w) rfl h
  | sub w d a b => exact rrr_encR (fun w _ => .sub w) rfl h
  | and w d a b => exact rrr_encR (fun w _ => .and w) rfl h
  | or w d a b => exact rrr_encR (fun w _ => .or w) rfl h
  | xor w d a b => exact rrr_encR (fun w _ => .xor w) rfl h
  | shl w d a b => exact rrr_encR (fun w _ => .shl w) rfl h
  | shr w d a b => exact rrr_encR (fun w _ => .shr w) rfl h
  | sra w d a b => exact rrr_encR (fun w _ => .sra w) rfl h
  | min w u d a b => exact rrr_encR .min rfl h
  | max w u d a b => exact rrr_encR .max rfl h
  | seq w d a b => exact rrr_encR (fun w _ => .seq w) rfl h
  | slt w d a b => exact rrr_encR (fun w _ => .slt w) rfl h
  | sltu w d a b => exact rrr_encR (fun w _ => .sltu w) rfl h
  | sel d a b c => exact decodes_sel d a b c h
  | lea n d a b => exact (decodes_lea n d a b).1 h
  | leaImm n d a b i => exact (decodes_lea n d a b).2 i h
  | mul w d a b => exact rrr_encR (fun w _ => .mul w) rfl h
  | mulh w u d a b => exact rrr_encR .mulh rfl h
  | div w u d a b => exact rrr_encR .div rfl h
  | rem w u d a b => exact rrr_encR .rem rfl h
  | clz w d a => exact (decodes_clz_popc w d a).1 h
  | popc w d a => exact (decodes_clz_popc w d a).2 h
  | sext x d a => exact (decodes_sext_zext x d a).1 h
  | zext x d a => exact (decodes_sext_zext x d a).2 h
  | addi w d a i => exact decodes_addi w d a i h
  | li u d a i => exact decodes_li u d a i h
  | fadd t m n d a b => exact (decodes_fadd t m n d a b).1 h
  | fmul t m n d a b => exact (decodes_fadd t m n d a b).2 h
  | ffma t m p n d a b c => exact decodes_ffma t m p n d a b c h
  | fcvt t u m d a => exact decodes_fcvt t u m d a h
  | br o x => exact (decodes_br o x).1 h
  | beq d a o x => exact branch_encB .beq h
  | bne d a o x => exact branch_encB .bne h
  | blt d a o x => exact branch_encB .blt h
  | bge d a o x => exact branch_encB .bge h
  | bltu d a o x => exact branch_encB .bltu h
  | bgeu d a o x => exact branch_encB .bgeu h
  | call d o x => exact (decodes_br o x).2 d h
  | ret a => exact (decodes_ret a).1 h
  | jr d a => exact (decodes_ret a).2 d h
  | mfs d n => exact (decodes_mfs d n).1 h
  | mts n a => exact (decodes_mfs a n).2 h
  | trap a c x => exact decodes_trap a c x h
  | tret m => exact decodes_tret m h
  | brk n => exact decodes_brk n h
  | sysc n => exact decodes_sysc n h
  | idle a => exact decodes_idle a h
  | join n => exact decodes_join n h
  | leave n => exact decodes_leave n h
  | bsync n => exact decodes_bsync n h
  | elect d n => exact decodes_elect d n h
  | regclm n => exact (decodes_regclm n).1 h
  | regrel n => exact (decodes_regclm n).2 h
  | wqry a => exact addrOnly_reg .wqry .wqryImm h
  | wqryImm a i => exact addrOnly_imm .wqry .wqryImm h
  | launch d a b => exact (decodes_launch d a b).1 h
  | launchImm d a b i => exact (decodes_launch d a b).2 i h
  | vsave a => exact addrOnly_reg .vsave .vsaveImm h
  | vsaveImm a i => exact addrOnly_imm .vsave .vsaveImm h
  | vrestore a => exact addrOnly_reg .vrestore .vrestoreImm h
  | vrestoreImm a i => exact addrOnly_imm .vrestore .vrestoreImm h
  | scrub c t r l d a => exact decodes_scrub c t r l d a h
  | ld x u p q c d a => exact decodes_ld x u p q c d a h
  | ldImm x u p q c d a i => exact decodes_ldImm x u p q c d a i h
  | st x p q c a b => exact decodes_st x p q c a b h
  | stImm x p q c a b i => exact decodes_stImm x p q c a b i h
  | amo o l q d a b => exact decodes_amo o l q d a b h
  | amoCas l q d a b c => exact decodes_amoCas l q d a b c h
  | fence m c => exact decodes_fence m c h
  | stwin n d a b => exact (decodes_stwin n).2 d a b h
  | stflush n => exact (decodes_stwin n).1 h
  | stinv x n => exact decodes_stinv x n h
  | dcfence a => exact addrOnly_reg .dcfence .dcfenceImm h
  | dcfenceImm a i => exact addrOnly_imm .dcfence .dcfenceImm h
  | vadd t z d a y m => exact intOp_encI .vadd .vaddImm rfl h h
  | vaddImm t z d a i m => exact intOp_encIImm .vadd .vaddImm rfl h h
  | vsub t z d a y m => exact intOp_encI .vsub .vsubImm rfl h h
  | vsubImm t z d a i m => exact intOp_encIImm .vsub .vsubImm rfl h h
  | vmul t d a y m => exact intOp_encI (fun t _ => .vmul t) (fun t _ => .vmulImm t) rfl h h
  | vmulImm t d a i m => exact intOp_encIImm (fun t _ => .vmul t) (fun t _ => .vmulImm t) rfl h h
  | vmulh t d a y m => exact intOp_encI (fun t _ => .vmulh t) (fun t _ => .vmulhImm t) rfl h h
  | vmulhImm t d a i m => exact intOp_encIImm (fun t _ => .vmulh t) (fun t _ => .vmulhImm t) rfl h h
  | vmin t d a y m => exact intOp_encI (fun t _ => .vmin t) (fun t _ => .vminImm t) rfl h h
  | vminImm t d a i m => exact intOp_encIImm (fun t _ => .vmin t) (fun t _ => .vminImm t) rfl h h
  | vmax t d a y m => exact intOp_encI (fun t _ => .vmax t) (fun t _ => .vmaxImm t) rfl h h
  | vmaxImm t d a i m => exact intOp_encIImm (fun t _ => .vmax t) (fun t _ => .vmaxImm t) rfl h h
  | vand t d a y m => exact intOp_encI (fun t _ => .vand t) (fun t _ => .vandImm t) rfl h h
  | vandImm t d a i m => exact intOp_encIImm (fun t _ => .vand t) (fun t _ => .vandImm t) rfl h h
  | vor t d a y m => exact intOp_encI (fun t _ => .vor t) (fun t _ => .vorImm t) rfl h h
  | vorImm t d a i m => exact intOp_encIImm (fun t _ => .vor t) (fun t _ => .vorImm t) rfl h h
  | vxor t d a y m => exact intOp_encI (fun t _ => .vxor t) (fun t _ => .vxorImm t) rfl h h
  | vxorImm t d a i m => exact intOp_encIImm (fun t _ => .vxor t) (fun t _ => .vxorImm t) rfl h h
  | vshl t d a y m => exact intOp_encI (fun t _ => .vshl t) (fun t _ => .vshlImm t) rfl h h
  | vshlImm t d a i m => exact intOp_encIImm (fun t _ => .vshl t) (fun t _ => .vshlImm t) rfl h h
  | vshr t d a y m => exact intOp_encI (fun t _ => .vshr t) (fun t _ => .vshrImm t) rfl h h
  | vshrImm t d a i m => exact intOp_encIImm (fun t _ => .vshr t) (fun t _ => .vshrImm t) rfl h h
  | vsra t d a y m => exact intOp_encI (fun t _ => .vsra t) (fun t _ => .vsraImm t) rfl h h
  | vsraImm t d a i m => exact intOp_encIImm (fun t _ => .vsra t) (fun t _ => .vsraImm t) rfl h h
  | vfadd t q d a y m => exact fpOp_encF (fun t q _ _ => .vfadd t q) (fun t q _ _ => .vfaddImm t q) rfl rfl h h
  | vfaddImm t q d a i m => exact fpOp_encFImm (fun t q _ _ => .vfadd t q) (fun t q _ _ => .vfaddImm t q) rfl rfl h h
  | vfsub t q d a y m => exact fpOp_encF (fun t q _ _ => .vfsub t q) (fun t q _ _ => .vfsubImm t q) rfl rfl h h
  | vfsubImm t q d a i m => exact fpOp_encFImm (fun t q _ _ => .vfsub t q) (fun t q _ _ => .vfsubImm t q) rfl rfl h h
  | vfmul t q n d a y m => exact fpOp_encF (fun t q n _ => .vfmul t q n) (fun t q n _ => .vfmulImm t q n) rfl rfl h h
  | vfmulImm t q n d a i m => exact fpOp_encFImm (fun t q n _ => .vfmul t q n) (fun t q n _ => .vfmulImm t q n) rfl rfl h h
  | vffma t q n c d a y m => exact fpOp_encF .vffma .vffmaImm rfl rfl h h
  | vffmaImm t q n c d a i m => exact fpOp_encFImm .vffma .vffmaImm rfl rfl h h
  | vfmin t q d a y m => exact fpOp_encF (fun t q _ _ => .vfmin t q) (fun t q _ _ => .vfminImm t q) rfl rfl h h
  | vfminImm t q d a i m => exact fpOp_encFImm (fun t q _ _ => .vfmin t q) (fun t q _ _ => .vfminImm t q) rfl rfl h h
  | vfmax t q d a y m => exact fpOp_encF (fun t q _ _ => .vfmax t q) (fun t q _ _ => .vfmaxImm t q) rfl rfl h h
  | vfmaxImm t q d a i m => exact fpOp_encFImm (fun t q _ _ => .vfmax t q) (fun t q _ _ => .vfmaxImm t q) rfl rfl h h
  | vfdiv t q d a y m => exact fpOp_encF (fun t q _ _ => .vfdiv t q) (fun t q _ _ => .vfdivImm t q) rfl rfl h h
  | vfdivImm t q d a i m => exact fpOp_encFImm (fun t q _ _ => .vfdiv t q) (fun t q _ _ => .vfdivImm t q) rfl rfl h h
  | vfsqrt t q d a m => exact fpUnary_encF1 .vfsqrt h h
  | vfrsq t q d a m => exact fpUnary_encF1 .vfrsq h h
  | vfexp2 t q d a m => exact fpUnary_encF1 .vfexp2 h h
  | vflog2 t q d a m => exact fpUnary_encF1 .vflog2 h h
  | vcvt t u o d a m => exact decodes_vcvt t u o d a m h
  | vlmul t d a b m => exact lnsOp_encT .vlmul .vlmulGiven h h
  | vlmulGiven t g d a b m => exact lnsOp_encGiven .vlmul .vlmulGiven h h
  | vladd t d a b m => exact lnsOp_encT .vladd .vladdGiven h h
  | vladdGiven t g d a b m => exact lnsOp_encGiven .vladd .vladdGiven h h
  | vsetvl p d a => exact (decodes_vsetvl p d a).1 h
  | vsetvlType p d a v => exact (decodes_vsetvl p d a).2 v h
  | vsettype a => exact decodes_vsettype a h
  | vsettypeImm v => exact decodes_vsettypeImm v h
  | vcmp c t z d a y m => exact decodes_vcmp c t z d a y m h
  | vcmpImm c t z d a i m => exact decodes_vcmpImm c t z d a i m h
  | mand d a b => exact maskOp_encM .mand h
  | mor d a b => exact maskOp_encM .mor h
  | mxor d a b => exact maskOp_encM .mxor h
  | mnot d a => exact decodes_mnot d a h
  | mpop d a m => exact maskRead_encM .mpop h
  | mfirst d a m => exact maskRead_encM .mfirst h
  | vif n a => exact decodes_vif n a h
  | vsel t d a y m => exact (decodes_vsel t d y m).2 a h
  | vselImm t d a i m => exact (decodes_vselImm t d i m).2 a h
  | vperm t d a b m => exact (decodes_vperm t d a m).2 b h
  | vslideup t d a b m => exact indexOp_encT .vslideup .vslideupImm h
  | vslideupImm t d a i m => exact indexOp_encTImm .vslideup .vslideupImm h
  | vslidedn t d a b m => exact indexOp_encT .vslidedn .vslidednImm h
  | vslidednImm t d a i m => exact indexOp_encTImm .vslidedn .vslidednImm h
  | vbcast t d a b m => exact indexOp_encT .vbcast .vbcastImm h
  | vbcastImm t d a i m => exact indexOp_encTImm .vbcast .vbcastImm h
  | vcompress t d x a c m => exact decodes_vcompress t d x a c m h
  | vexpand t d a m => exact (decodes_vperm t d a m).1 h
  | viota t d a m => exact (decodes_viota t d m).2 a h
  | vmov t d y m => exact (decodes_vsel t d y m).1 h
  | vmovImm t d i m => exact (decodes_vselImm t d i m).1 h
  | vmovs t o b => exact (decodes_vmovs t o).1 b h
  | vmovsImm t o i => exact (decodes_vmovs t o).2 i h
  | vid t d m => exact (decodes_viota t d m).1 h
  | vredsum t d a b m => exact redOp_encT .vredsum h
  | vredmax t d a b m => exact redOp_encT .vredmax h
  | vredmin t d a b m => exact redOp_encT .vredmin h
  | vany d a m => exact maskRead_encM .vany h
  | vall d a m => exact maskRead_encM .vall h
  | vld t p d a b m => exact unitOp_encV .vld .vldImm rfl h h
  | vldImm t p d a b i m => exact unitOp_encVImm .vld .vldImm rfl h h
  | vst t p d a b m => exact unitOp_encV .vst .vstImm rfl h h
  | vstImm t p d a b i m => exact unitOp_encVImm .vst .vstImm rfl h h
  | vlds t p d a b m => exact strideOp_encV .vlds .vldsImm h
  | vldsImm t p d a b i m => exact strideOp_encVImm .vlds .vldsImm h
  | vsts t p d a b m => exact strideOp_encV .vsts .vstsImm h
  | vstsImm t p d a b i m => exact strideOp_encVImm .vsts .vstsImm h
  | vldseg n t p d a m => exact segOp_encV .vldseg .vldsegImm (of_decide_eq_true h) h
  | vldsegImm n t p d a i m => exact segOp_encVImm .vldseg .vldsegImm (of_decide_eq_true h) h
  | vstseg n t p d a m => exact segOp_encV .vstseg .vstsegImm (of_decide_eq_true h) h
  | vstsegImm n t p d a i m => exact segOp_encVImm .vstseg .vstsegImm (of_decide_eq_true h) h
  | vgather t p d a b m => exact gatherOp_encV (x := 0) .vgather .vgatherBounded rfl rfl h
  | vgatherBounded t p d a b c m => exact gatherOp_encVC (x := 0) .vgather .vgatherBounded rfl rfl h
  | vscatter t p d a b m => exact gatherOp_encV (x := 0) .vscatter .vscatterBounded rfl rfl h
  | vscatterBounded t p d a b c m => exact gatherOp_encVC (x := 0) .vscatter .vscatterBounded rfl rfl h
  | vgatherL t d a b m =>
    exact gatherOp_encV (x := 0) (sp := false) (fun t _ => .vgatherL t) (fun t _ => .vgatherLBounded t) rfl rfl h
  | vgatherLBounded t d a b c m =>
    exact gatherOp_encVC (x := 0) (sp := false) (fun t _ => .vgatherL t) (fun t _ => .vgatherLBounded t) rfl rfl h
  | vscatterC t x d a b m => exact (decodes_vscatterC t x d b a m).1 h
  | vscatterCBounded t x d a b c m => exact (decodes_vscatterC t x d b a m).2 c h
  | vldFe t k d a m => exact feOp_encV .vldFe .vldFeImm rfl h
  | vldFeImm t k d a i m => exact feOp_encVImm .vldFe .vldFeImm rfl h
  | vstFe t d a m => exact feOp_encV (take := false) (fun t _ => .vstFe t) (fun t _ => .vstFeImm t) rfl h
  | vstFeImm t d a i m => exact feOp_encVImm (take := false) (fun t _ => .vstFe t) (fun t _ => .vstFeImm t) rfl h
  | cvld t d a b m => exact unitOp_encV (sp := false) (fun t _ => .cvld t) (fun t _ => .cvldImm t) rfl h h
  | cvldImm t d a b i m => exact unitOp_encVImm (sp := false) (fun t _ => .cvld t) (fun t _ => .cvldImm t) rfl h h
  | lldx t d a m => exact laneOp_encT .lldx .lldxImm h
  | lldxImm t d a i m => exact laneOp_encTImm .lldx .lldxImm h
  | lstx t d a m => exact laneOp_encT .lstx .lstxImm h
  | lstxImm t d a i m => exact laneOp_encTImm .lstx .lstxImm h
  | spclr z a b => exact (decodes_spclr z a b).1 h
  | spclrImm z a b i => exact (decodes_spclr z a b).2 i h
  | awin t o a b i => exact decodes_awin t o a b i h
  | aupd a b m => exact decodes_aupd a b m h
  | vwait c t p o d a b x m => exact decodes_vwait c t p o d a b x m h
  | settile t d a b c => exact decodes_settile t d a b c h
  | tld t p r d a b => exact (decodes_tld t p r d a b).1 h
  | tldLns6 t p r d a b c s => exact (decodes_tld t p r d a b).2 c s h
  | tldE t r e d a b => exact (decodes_tldE t r e d a b).1 h
  | tldELns6 t r e d a b c s => exact (decodes_tldE t r e d a b).2 c s h
  | tst t p d a b => exact (decodes_tst t p d a b).1 h
  | tstLns6 t p d a b c s => exact (decodes_tst t p d a b).2 c s h
  | tldg t r d a b c m => exact decodes_tldg t r d a b c m h
  | mmaO t u v z d a b => obtain ⟨ht, hu⟩ := Bool.and_eq_true_iff.mp h; exact mmaOp_encMma .mmaO ht hu h
  | mmaR t u v z d a b => obtain ⟨ht, hu⟩ := Bool.and_eq_true_iff.mp h; exact mmaOp_encMma .mmaR ht hu h
  | zld t p d a b => exact (decodes_zld t p d a b).1 h
  | zldImm t p d a b i => exact (decodes_zld t p d a b).2 i h
  | zst t p q d a b => exact (decodes_zst t p q d a b).1 h
  | zstImm t p q d a b i => exact (decodes_zst t p q d a b).2 i h
  | zclr u d => exact decodes_zclr u d h
  | tcopy g v e d a b c => exact decodes_tcopy g v e d a b c h
  | tcopyo g d a b c => exact decodes_tcopyo g d a b c h
  | tdfence a => exact decodes_tdfence a h
  | sbinit e a => exact (decodes_sbinit e a).1 h
  | sbexp e a => exact (decodes_sbinit e a).2 h
  | sbwait u e d a => exact decodes_sbwait u e d a h
  | sbrel n => exact decodes_sbrel n h
  | colred t o v e l d a c => exact decodes_colred t o v e l d a c h
  | colbcast v e l q d a c => exact decodes_colbcast v e l q d a c h
  | hpop n x d c => exact decodes_hpop n x d c h
  | gadd q x d a b => exact gainOp_encH .gadd h
  | gset q x d a b => exact gainOp_encH .gset h
  | hgrow x d a => exact decodes_hgrow x d a h
  | hdone q x a => exact decodes_hdone q x a h
  | hres o x d => exact decodes_hres o x d h
  | _ => cases h

/-! ### Halfwords -/

/-- The fields of every instruction fit their places (R86, R88). -/
theorem fits_encodeFields (i : Instr) : Fits (encodeFields i) := by
  cases i
  -- An event has the fields of every other event.
  all_goals try exact F.lineFetch
  exacts [F.nop, F.add .., F.sub .., F.and .., F.or .., F.xor .., F.shl .., F.shr .., F.sra .., F.min .., F.max ..,
    F.seq .., F.slt .., F.sltu .., F.sel .., F.lea .., F.leaImm .., F.mul .., F.mulh .., F.div .., F.rem ..,
    F.clz .., F.popc .., F.sext .., F.zext .., F.addi .., F.li .., F.fadd .., F.fmul .., F.ffma .., F.fcvt ..,
    F.br .., F.beq .., F.bne .., F.blt .., F.bge .., F.bltu .., F.bgeu .., F.call .., F.ret .., F.jr .., F.mfs ..,
    F.mts .., F.trap .., F.tret .., F.brk .., F.sysc .., F.yield, F.halt, F.idle .., F.join .., F.leave ..,
    F.bsync .., F.gbar, F.elect .., F.regclm .., F.regrel .., F.wqry .., F.wqryImm .., F.launch .., F.launchImm ..,
    F.vsave .., F.vsaveImm .., F.vrestore .., F.vrestoreImm .., F.scrub .., F.ld .., F.ldImm .., F.st .., F.stImm ..,
    F.amo .., F.amoCas .., F.fence .., F.stwin .., F.stflush .., F.stinv .., F.dcfence .., F.dcfenceImm ..,
    F.vadd .., F.vaddImm .., F.vsub .., F.vsubImm .., F.vmul .., F.vmulImm .., F.vmulh .., F.vmulhImm .., F.vmin ..,
    F.vminImm .., F.vmax .., F.vmaxImm .., F.vand .., F.vandImm .., F.vor .., F.vorImm .., F.vxor .., F.vxorImm ..,
    F.vshl .., F.vshlImm .., F.vshr .., F.vshrImm .., F.vsra .., F.vsraImm .., F.vfadd .., F.vfaddImm .., F.vfsub ..,
    F.vfsubImm .., F.vfmul .., F.vfmulImm .., F.vffma .., F.vffmaImm .., F.vfmin .., F.vfminImm .., F.vfmax ..,
    F.vfmaxImm .., F.vfdiv .., F.vfdivImm .., F.vfsqrt .., F.vfrsq .., F.vfexp2 .., F.vflog2 .., F.vcvt ..,
    F.vlmul .., F.vlmulGiven .., F.vladd .., F.vladdGiven .., F.vsetvl .., F.vsetvlType .., F.vsettype ..,
    F.vsettypeImm .., F.vcmp .., F.vcmpImm .., F.mand .., F.mor .., F.mxor .., F.mnot .., F.mpop .., F.mfirst ..,
    F.vif .., F.velse, F.vend, F.vsel .., F.vselImm .., F.vperm .., F.vslideup .., F.vslideupImm .., F.vslidedn ..,
    F.vslidednImm .., F.vbcast .., F.vbcastImm .., F.vcompress .., F.vexpand .., F.viota .., F.vmov .., F.vmovImm ..,
    F.vmovs .., F.vmovsImm .., F.vid .., F.vredsum .., F.vredmax .., F.vredmin .., F.vany .., F.vall .., F.vld ..,
    F.vldImm .., F.vst .., F.vstImm .., F.vlds .., F.vldsImm .., F.vsts .., F.vstsImm .., F.vldseg ..,
    F.vldsegImm .., F.vstseg .., F.vstsegImm .., F.vgather .., F.vgatherBounded .., F.vscatter ..,
    F.vscatterBounded .., F.vgatherL .., F.vgatherLBounded .., F.vscatterC .., F.vscatterCBounded .., F.vldFe ..,
    F.vldFeImm .., F.vstFe .., F.vstFeImm .., F.cvld .., F.cvldImm .., F.lldx .., F.lldxImm .., F.lstx ..,
    F.lstxImm .., F.spclr .., F.spclrImm .., F.awin .., F.aupd .., F.amerge, F.vwait .., F.settile .., F.tld ..,
    F.tldLns6 .., F.tldE .., F.tldELns6 .., F.tst .., F.tstLns6 .., F.tldg .., F.mmaO .., F.mmaR .., F.zld ..,
    F.zldImm .., F.zst .., F.zstImm .., F.zclr .., F.tcopy .., F.tcopyo .., F.tdfence .., F.sbinit .., F.sbexp ..,
    F.sbwait .., F.sbrel .., F.colred .., F.colbcast .., F.colwait, F.hpop .., F.gadd .., F.gset .., F.hgrow ..,
    F.hdone .., F.hres ..]

theorem length_halfsOfVal (n v : Nat) : (halfsOfVal n v).length = n := by
  induction n generalizing v with
  | zero => rfl
  | succ n ih => rw [halfsOfVal, List.length_cons, ih]

theorem halfsVal_halfsOfVal {n v : Nat} (h : v < 65536 ^ n) : halfsVal (halfsOfVal n v) = v := by
  induction n generalizing v with
  | zero => exact (Nat.lt_one_iff.mp h).symm
  | succ n ih =>
    have hd : v / 65536 < 65536 ^ n := Nat.div_lt_of_lt_mul (by rwa [Nat.pow_succ'] at h)
    rw [halfsOfVal, halfsVal, ih hd, BitVec.toNat_ofNat]
    exact Nat.mod_add_div v 65536

theorem tail_lt_of_fits {f : Fields} (h : Fits f) : f.tail < 65536 ^ tailHalfs f.ts := by
  obtain ⟨ts, maj, fn, d, a, b, m, md, w1⟩ := f
  obtain ⟨hts, -, -, hd, ha, hb, hm, hmd, hw, hw0, -, -, hmd1, -, -, -⟩ := h
  simp only at hts hd ha hb hm hmd hw hw0 hmd1
  obtain rfl | rfl | rfl | rfl : ts = 0 ∨ ts = 1 ∨ ts = 2 ∨ ts = 3 := by omega
  all_goals
    simp only [Fields.tail, tailHalfs]
    omega

/-- The head halfword holds TS and the stall count above its opcode (R86). -/
theorem head_lt_of_fits {f : Fields} {sc : Nat} (h : Fits f) (hs : sc < 8) :
    f.head sc < 65536 ∧ f.head sc / 2 ^ 14 = f.ts ∧ f.head sc / 2 ^ 11 % 2 ^ 3 = sc := by
  obtain ⟨hts, hmaj, hfn, -⟩ := h
  simp only [Fields.head]
  omega

/-- Settles O56: the words hold the fields, and the fields are read as the instruction. -/
theorem encodeThenDecode : Obligations.EncodeThenDecode := by
  unfold Obligations.EncodeThenDecode
  intro ⟨sc, i⟩ rest hsc hwf
  have hfits := fits_encodeFields i
  obtain ⟨hlt, hts, hhead⟩ := head_lt_of_fits hfits hsc
  have hnat : (BitVec.ofNat 16 ((encodeFields i).head sc)).toNat = (encodeFields i).head sc := by
    rw [BitVec.toNat_ofNat]
    exact Nat.mod_eq_of_lt hlt
  have hlen := length_halfsOfVal (tailHalfs (encodeFields i).ts) (encodeFields i).tail
  have hdec : decodeHead ((encodeFields i).head sc) (encodeFields i).tail = .ok ⟨sc, i⟩ := by
    rw [decodeHead, splitFields_head_tail _ _ hsc hfits, decodeFields_encodeFields i hwf, hhead]
    rfl
  rw [encode, List.cons_append, decodeHalfs, hnat, hts, if_neg (by rw [List.length_append, hlen]; omega), List.take_left' hlen,
    List.drop_left' hlen, halfsVal_halfsOfVal (tail_lt_of_fits hfits), hdec]

end Sys2Proof.Laws
end

section
/-! SUPPORT. Traps that an instruction raises itself, and the return from a handler (R134, R137 to R140): O8 and O9. -/

namespace Sys2Proof.Machine
open Sys2Proof

theorem Cause.ofCode_code (c : Cause) : Cause.ofCode c.code = c := by cases c <;> rfl

/-- `sysc`, `brk` and a `trap` that is taken trap with what they state (R138 to R140). -/
theorem exec_softTrap {i : Instr} {s : State} {rs : List SReg} {x : Trap} (h : Spec.softTrap i s rs x) (hr : Readable s rs) :
    exec i s = .next (takeTrap x s) := by
  unfold Spec.softTrap at h
  split at h
  case h_1 =>
    obtain ⟨-, rfl⟩ := h
    rfl
  case h_2 n =>
    obtain ⟨-, rfl, hstop⟩ := h
    show execBrk n s = _
    rw [execBrk, hstop, if_neg Bool.false_ne_true]
  case h_3 a code detail =>
    obtain ⟨rfl, htaken, hcode, hx⟩ := h
    have hgo : (decide (a.val = 0) || decide (s.rd a ≠ 0)) = true := by simpa using htaken
    show execTrap a code detail s = _
    rw [execTrap, readRegs_go _ _ _ hr, if_pos hgo, ← hcode, Cause.ofCode_code, ← hx]
  case h_4 => exact h.elim

/-- A `trap` whose register is zero completes (R138). -/
theorem exec_trap_untaken {a : SReg} {s : State} (code : Fin 256) (detail : BitVec 16) (ha : a.val ≠ 0) (hr : Readable s [a])
    (hz : s.rd a = 0) : exec (.trap a code detail) s = .next (finish s) := by
  show execTrap a code detail s = _
  rw [execTrap, readRegs_go _ _ _ hr, if_neg (by simp [ha, hz])]

theorem onlyScalars_finish (s : State) : OnlyScalars s (finish s) := by
  obtain ⟨rs, ps, ha⟩ := s.me.age_frame (1 + s.me.ir.sc)
  simp only [OnlyScalars, finish_me, ha]

theorem fflags_finish (s : State) : (finish s).me.fflags = s.me.fflags := Strand.age_fflags _ _

theorem exec_brk_held {s : State} (h : stopsOnBreak s = true) (n : Fin 16) :
    exec (.brk n) s = .next (holdCrew s.me.crew (finish s)) := congrArg Host.Outcome.next (if_pos h)

/-- Settles O8: the heads that trap do nothing else; `finish` and `holdCrew` say what the others leave. -/
theorem softwareTraps : Obligations.SoftwareTraps := by
  unfold Obligations.SoftwareTraps
  intro s
  refine ⟨fun i rs x hx hr hh => ?taken, fun a code detail ha hr hz => ?untaken, fun hs n => ?held⟩
  case taken =>
    have htakes := takes_takeTrap hh x
    have honly : OnlyMe s (takeTrap x s) := htakes.2.2.2.2.1
    exact ⟨_, exec_softTrap hx hr, htakes, honly.home⟩
  case untaken =>
    exact ⟨_, exec_trap_untaken code detail ha hr hz, rfl, passedHead_finish rfl rfl, onlyScalars_finish s, onlyMe_finish s,
      agedRegs_finish rfl rfl rfl, fflags_finish s⟩
  case held =>
    refine ⟨_, exec_brk_held hs n, rfl, ?_, rfl, Strand.age_trapon _ _, rfl⟩
    exact congrArg Crew.dbgHold (State.crew_modCrew (finish s) s.me.crew fun c => { c with dbgHold := true })

/-! ### The return from a handler (R137) -/

theorem Priv.ofCode_min (n : Nat) (p : Priv) : (Priv.ofCode (min n p.code)).code = min n p.code := by
  have hp : p.code ≤ 2 := by cases p <;> decide
  obtain h | h | h : min n p.code = 0 ∨ min n p.code = 1 ∨ min n p.code = 2 := by omega
  all_goals rw [h]; rfl

/-- A strand whose DEADMASK has taken in the lanes of a mode of `tret`. -/
def Strand.killed (mode : TretMode) (m : Strand) : Strand :=
  if mode = .kill then { m with
    deadmask := m.deadmask ||| (m.trapmask &&& m.laneMask), everDead := m.everDead ||| (m.trapmask &&& m.laneMask) } else m

theorem Strand.killed_deliverAll (mode : TretMode) (m : Strand) :
    ∃ d ps, (m.killed mode).deliverAll = { m with
      regs := m.deliverAll.regs, pend := ps, everDead := d
      deadmask := if mode = .kill then m.deadmask ||| Spec.lanesBelow m.vlmax m.trapmask else m.deadmask } := by
  have hr : (m.killed mode).regs = m.regs := by unfold Strand.killed; split <;> rfl
  have hp : (m.killed mode).pend = m.pend := by unfold Strand.killed; split <;> rfl
  have hregs : (m.killed mode).deliverAll.regs = m.deliverAll.regs := age_regs_congr hr hp 8
  obtain ⟨rs, ps, hd⟩ := (m.killed mode).deliverAll_frame
  rw [← hregs, hd]
  unfold Strand.killed
  split <;> exact ⟨_, _, rfl⟩

/-- Where `tret` goes: to the head that trapped, or to the head that follows it. -/
def Resumes (mode : TretMode) (s : State) (p : Word) : Prop :=
  match mode with
  | .retry => p = s.me.trappc
  | .kill => p = s.me.trappc
  | .next => ∃ hs, fetchLine s (s.me.trappc.toNat / 64 * 64) = .line hs ∧ p = Spec.following s.me.trappc (headCount hs)

theorem afterTrapPc_eq (pc : Word) (h : Nat) : afterTrapPc pc h = Spec.following pc h := by
  unfold afterTrapPc Spec.following
  rw [bitsOf_low, ← Nat.add_assoc]
  exact (apply_ite (BitVec.ofNat 64) _ _ _).symm

theorem tretBody_resumes {mode : TretMode} {s : State} {p : Word} (h : Resumes mode s p) :
    tretBody mode s = tretTo p { s with me := s.me.killed mode } := by
  cases mode with
  | retry => rw [show p = s.me.trappc from h]; rfl
  | kill => rw [show p = s.me.trappc from h]; rfl
  | next =>
    obtain ⟨hs, hline, hp⟩ := h
    rw [hp, ← afterTrapPc_eq]
    simp only [tretBody, hline]
    rfl

theorem exec_tret_go {mode : TretMode} {s : State} {p : Word} (hon : s.me.trapon = true) (hp : s.me.priv ≠ .app)
    (h : Resumes mode s p) : exec (.tret mode) s = .next (tretTo p { s with me := s.me.killed mode }) := by
  show execTret mode s = _
  simp [execTret, hon, hp, tretBody_resumes h]

theorem exec_tret_outside {s : State} (mode : TretMode) (hon : s.me.trapon = false) :
    exec (.tret mode) s = .next (takeTrap (illegal 6) s) := by
  show execTret mode s = _
  simp [execTret, hon]

/-- Settles O9: `tret` outside a handler traps; in one it is the last steps of R137. -/
theorem trapReturn : Obligations.TrapReturn := by
  unfold Obligations.TrapReturn
  intro mode s
  refine ⟨fun hon hp p hres => ?inside, fun hon hh => ⟨_, exec_tret_outside mode hon, takes_takeTrap hh _⟩⟩
  case inside =>
    obtain ⟨d, ps, hd⟩ := s.me.killed_deliverAll mode
    have hres : Resumes mode s p := by cases mode <;> exact hres
    refine ⟨_, exec_tret_go hon hp hres, ?_⟩
    simp only [tretTo, hd]
    exact ⟨rfl, rfl, Priv.ofCode_min _ _, fun _ => rfl, by simp only [PassedHead, tick]; omega, rfl, rfl, rfl⟩

end Sys2Proof.Machine
end

section
/-! SUPPORT. Wakes of strands that wait, strand by strand (R95, R143, R146): what `wakeComplete` and the settlement of a crew's bands
leave of each strand, of the crews and of the clock. -/

namespace Sys2Proof.Machine
open Sys2Proof

/-! ### Strands after a wake -/

@[simp] theorem State.strand_cur (s : State) : s.strand s.cur = s.me := if_pos rfl

/-- A strand whose waiting head has completed. -/
def Strand.woken (m : Strand) : Strand :=
  { m.age (1 + m.ir.sc) with wait := none, pc := nextPc m, via := {}, carry := none, failed := [] }

@[simp] theorem Strand.woken_wait (m : Strand) : m.woken.wait = none := rfl
@[simp] theorem Strand.woken_run (m : Strand) : m.woken.run = m.run := Strand.age_run m _

/-- What a wake leaves: strands and the clock alone can differ, no strand's run state does, and none that does not wait does. -/
structure Woken (s t : State) : Prop where
  frame : t = { s with me := t.me, others := t.others, cycle := t.cycle }
  later : s.cycle ≤ t.cycle
  run : ∀ i, (t.strand i).run = (s.strand i).run
  idle : ∀ i, (s.strand i).wait = none → t.strand i = s.strand i

theorem woken_refl (s : State) : Woken s s := ⟨rfl, Nat.le_refl _, fun _ => rfl, fun _ _ => rfl⟩

theorem woken_trans {s t u : State} (h : Woken s t) (k : Woken t u) : Woken s u where
  frame := by rw [k.frame, h.frame]
  later := Nat.le_trans h.later k.later
  run i := (k.run i).trans (h.run i)
  idle i hi := by
    have ht := h.idle i hi
    rw [k.idle i (by rw [ht]; exact hi), ht]

theorem woken_foldl {β : Type} (f : State → β → State) (hf : ∀ s b, Woken s (f s b)) (l : List β) (s : State) : Woken s (l.foldl f s) :=
  foldl_keeps (Woken s) f (fun t b h => woken_trans h (hf t b)) l s (woken_refl s)

section
variable {s t : State} (h : Woken s t)
include h

theorem Woken.cur : t.cur = s.cur := by rw [h.frame]
theorem Woken.crews : t.crews = s.crews := by rw [h.frame]
theorem Woken.crew (c : Nat) : t.crew c = s.crew c := by rw [State.crew, h.crews, State.crew]
theorem Woken.mem : t.mem = s.mem := by rw [h.frame]
theorem Woken.me (hw : s.me.wait = none) : t.me = s.me := by
  have := h.idle s.cur (by rw [State.strand_cur]; exact hw)
  rwa [← h.cur, State.strand_cur, h.cur, State.strand_cur] at this

end

theorem running_congr {s t : State} (h : ∀ i, (t.strand i).run = (s.strand i).run) (i : Nat) : running t i = running s i := by
  simp only [running, h i]

theorem setStrand_frame (s : State) (i : Nat) (m : Strand) :
    s.setStrand i m = { s with me := (s.setStrand i m).me, others := (s.setStrand i m).others } := by
  unfold State.setStrand
  split <;> rfl

theorem completeWait_eq (i : Nat) (w : Wait) (s : State) : completeWait i w s =
    tick ((s.strand i).waitFrom + (1 + (s.strand i).waitSc w) - s.cycle) (s.setStrand i (s.strand i).woken) := rfl

theorem completeWait_strand (i j : Nat) (w : Wait) (s : State) :
    (completeWait i w s).strand j = if j = i then (s.strand i).woken else s.strand j :=
  State.strand_setStrand s i j _

/-- The clock has reached the end of the head that waited (R95). -/
theorem completeWait_cycle (i : Nat) (w : Wait) (s : State) :
    s.cycle ≤ (completeWait i w s).cycle ∧ (s.strand i).waitFrom + (1 + (s.strand i).waitSc w) ≤ (completeWait i w s).cycle := by
  have hc : (completeWait i w s).cycle = s.cycle + ((s.strand i).waitFrom + (1 + (s.strand i).waitSc w) - s.cycle) := by
    rw [completeWait_eq, setStrand_frame]
    rfl
  omega

theorem completeWait_woken {i : Nat} {w : Wait} {s : State} (v : Wait) (hw : (s.strand i).wait = some w) :
    Woken s (completeWait i v s) where
  frame := by
    rw [completeWait_eq, setStrand_frame]
    rfl
  later := (completeWait_cycle i v s).1
  run j := by
    rw [completeWait_strand]
    split
    · next h => rw [h, Strand.woken_run]
    · rfl
  idle j hj := by
    rw [completeWait_strand, if_neg]
    rintro rfl
    rw [hw] at hj
    cases hj

/-- Whether a strand waits as `f` says. -/
def Strand.waitsAs (f : Wait → Bool) (m : Strand) : Bool := m.wait.any f

/-- One step of `wakeComplete`. -/
def wakeOne (f : Wait → Bool) (s : State) (i : Nat) : State :=
  match (s.strand i).wait with
  | some w => if f w then completeWait i w s else s
  | none => s

theorem wakeComplete_cons (i : Nat) (l : List Nat) (f : Wait → Bool) (s : State) :
    wakeComplete (i :: l) f s = wakeComplete l f (wakeOne f s i) := rfl

theorem wakeOne_woken (f : Wait → Bool) (s : State) (i : Nat) : Woken s (wakeOne f s i) := by
  unfold wakeOne
  split
  · next w h =>
    split
    · exact completeWait_woken w h
    · exact woken_refl s
  · exact woken_refl s

theorem wakeOne_strand (f : Wait → Bool) (s : State) (i j : Nat) :
    (wakeOne f s i).strand j = if j = i ∧ (s.strand i).waitsAs f then (s.strand i).woken else s.strand j := by
  unfold wakeOne Strand.waitsAs
  cases hw : (s.strand i).wait with
  | none => simp
  | some w =>
    cases hf : f w with
    | true => simp [hf, completeWait_strand]
    | false => simp [hf]

theorem wakeComplete_woken (l : List Nat) (f : Wait → Bool) (s : State) : Woken s (wakeComplete l f s) :=
  woken_foldl (wakeOne f) (wakeOne_woken f) l s

theorem wakeIdle_woken (cid : Nat) (s : State) : Woken s (wakeIdle cid s) := wakeComplete_woken _ _ s

theorem Strand.woken_waitsAs (f : Wait → Bool) (m : Strand) : m.woken.waitsAs f = false := rfl

/-- A wake completes the waits that it picks, and leaves every other strand as it is. -/
theorem wakeComplete_strand (f : Wait → Bool) (j : Nat) : ∀ (l : List Nat) (s : State),
    (wakeComplete l f s).strand j = if j ∈ l ∧ (s.strand j).waitsAs f then (s.strand j).woken else s.strand j
  | [], s => by simp [wakeComplete]
  | i :: l, s => by
    rw [wakeComplete_cons, wakeComplete_strand f j l, wakeOne_strand]
    by_cases hj : j = i
    · subst hj
      by_cases hw : (s.strand j).waitsAs f = true
      · simp [hw, Strand.woken_waitsAs]
      · simp [hw]
    · simp [hj]

theorem wakeComplete_other {f : Wait → Bool} {j : Nat} (l : List Nat) {s : State} (h : (s.strand j).waitsAs f = false) :
    (wakeComplete l f s).strand j = s.strand j := by
  rw [wakeComplete_strand, h]
  simp

/-- The clock has reached the end of every head that a wake completes. -/
theorem wakeComplete_cycle {f : Wait → Bool} {j : Nat} {w : Wait} : ∀ (l : List Nat) (s : State), j ∈ l → (s.strand j).wait = some w →
    f w = true → (s.strand j).waitFrom + (1 + (s.strand j).waitSc w) ≤ (wakeComplete l f s).cycle
  | [], _, hj, _, _ => absurd hj List.not_mem_nil
  | i :: l, s, hj, hw, hf => by
    rw [wakeComplete_cons]
    by_cases hi : j = i
    · subst hi
      have hone : wakeOne f s j = completeWait j w s := by simp [wakeOne, hw, hf]
      rw [hone]
      exact Nat.le_trans (completeWait_cycle j w s).2 (wakeComplete_woken l f _).later
    · have hs : (wakeOne f s i).strand j = s.strand j := by rw [wakeOne_strand, if_neg (fun h => hi h.1)]
      rw [← hs]
      exact wakeComplete_cycle l _ ((List.mem_cons.mp hj).resolve_left hi) (by rw [hs]; exact hw) hf

theorem wakeIdle_other {cid j : Nat} {s : State} (h : ∀ d, (s.strand j).wait ≠ some (.idle d)) :
    (wakeIdle cid s).strand j = s.strand j := by
  refine wakeComplete_other _ ?_
  unfold Strand.waitsAs
  cases hw : (s.strand j).wait with
  | none => rfl
  | some w =>
    cases w with
    | idle d => exact absurd hw (h d)
    | _ => rfl

/-! ### The settlement of a crew's bands (R146, R272) -/

/-- What the settlement of bands leaves: strands, the clock and the crew's arrivals alone can differ. -/
structure BandsSettled (cid : Nat) (s t : State) : Prop where
  frame : t = { s with me := t.me, others := t.others, cycle := t.cycle, crews := t.crews }
  later : s.cycle ≤ t.cycle
  run : ∀ i, (t.strand i).run = (s.strand i).run
  idle : ∀ i, (s.strand i).wait = none → t.strand i = s.strand i
  own : ∃ a, t.crew cid = { s.crew cid with arrived := a }
  others : ∀ c, c ≠ cid → t.crew c = s.crew c

theorem bandsSettled_refl (cid : Nat) (s : State) : BandsSettled cid s s :=
  ⟨rfl, Nat.le_refl _, fun _ => rfl, fun _ _ => rfl, ⟨_, rfl⟩, fun _ _ => rfl⟩

theorem bandsSettled_trans {cid : Nat} {s t u : State} (h : BandsSettled cid s t) (k : BandsSettled cid t u) : BandsSettled cid s u where
  frame := by rw [k.frame, h.frame]
  later := Nat.le_trans h.later k.later
  run i := (k.run i).trans (h.run i)
  idle i hi := by
    have ht := h.idle i hi
    rw [k.idle i (by rw [ht]; exact hi), ht]
  own := by
    obtain ⟨a, ha⟩ := h.own
    obtain ⟨b, hb⟩ := k.own
    exact ⟨b, by rw [hb, ha]⟩
  others c hc := (k.others c hc).trans (h.others c hc)

theorem Woken.bandsSettled {s t : State} (h : Woken s t) (cid : Nat) : BandsSettled cid s t where
  frame := by rw [h.frame]
  later := h.later
  run := h.run
  idle := h.idle
  own := ⟨_, h.crew cid⟩
  others _ _ := h.crew _

theorem BandsSettled.cur {cid : Nat} {s t : State} (h : BandsSettled cid s t) : t.cur = s.cur := by rw [h.frame]

theorem BandsSettled.me {cid : Nat} {s t : State} (h : BandsSettled cid s t) (hw : s.me.wait = none) : t.me = s.me := by
  have := h.idle s.cur (by rw [State.strand_cur]; exact hw)
  rwa [← h.cur, State.strand_cur, h.cur, State.strand_cur] at this

theorem BandsSettled.mem {cid : Nat} {s t : State} (h : BandsSettled cid s t) : t.mem = s.mem := by rw [h.frame]

theorem State.crew_modCrew_other (s : State) {c d : Nat} (f : Crew → Crew) (h : d ≠ c) : (s.modCrew c f).crew d = s.crew d :=
  tget_tmod_other _ _ _ h

theorem bandsSettled_arrived (cid : Nat) (f : Crew → Tab Word32) (s : State) :
    BandsSettled cid s (s.modCrew cid fun c => { c with arrived := f c }) where
  frame := rfl
  later := Nat.le_refl _
  run _ := rfl
  idle _ _ := rfl
  own := ⟨_, State.crew_modCrew _ _ _⟩
  others _ hc := State.crew_modCrew_other _ _ hc

/-- Whether every member of a band that has not halted has arrived, and some strand has. -/
def bandMet (cid b : Nat) (s : State) : Bool :=
  let c := s.crew cid
  (tget 0 c.arrived b).toNat ≠ 0
    && ((membersOf c (tget 0 c.bands b).toNat).filter fun e => running s e.1).all fun e => (tget 0 c.arrived b).toNat.testBit e.2

/-- The phase of a band ends: its arrivals are taken back, and those that waited for it go on. -/
def endPhase (cid b : Nat) (s : State) : State :=
  wakeIdle cid (wakeComplete (s.crew cid).sids (· = Wait.bsync b)
    (s.modCrew cid fun c => { c with arrived := tset 0 c.arrived b 0 }))

/-- One band of `settleBands`. -/
def settleBand (cid : Nat) (s : State) (b : Nat) : State := if bandMet cid b s then endPhase cid b s else s

theorem settleBands_eq (cid : Nat) (s : State) : settleBands cid s = (List.range 16).foldl (settleBand cid) s := rfl

theorem endPhase_settled (cid b : Nat) (s : State) : BandsSettled cid s (endPhase cid b s) :=
  bandsSettled_trans (bandsSettled_arrived cid _ s)
    ((woken_trans (wakeComplete_woken _ _ _) (wakeIdle_woken cid _)).bandsSettled cid)

theorem settleBand_settled (cid : Nat) (s : State) (b : Nat) : BandsSettled cid s (settleBand cid s b) := by
  unfold settleBand
  split
  · exact endPhase_settled cid b s
  · exact bandsSettled_refl cid s

theorem settleBands_settled (cid : Nat) (s : State) : BandsSettled cid s (settleBands cid s) :=
  foldl_keeps (BandsSettled cid s) (settleBand cid) (fun t b h => bandsSettled_trans h (settleBand_settled cid t b)) _ s
    (bandsSettled_refl cid s)

end Sys2Proof.Machine
end

section
/-! SUPPORT. Stopping and waiting (R141 to R143), and the membership of bands (R144, R145, R147): O11 and O13. -/

namespace Sys2Proof.Machine
open Sys2Proof

/-! ### `yield` and `idle` -/

/-- A strand that stops with its `yield` completed. -/
def stopped (s : State) : State := (finish s).modMe fun m => { m.stopHere (finish s).cycle with strip := atStrip (finish s), links := [] }

theorem exec_yield (s : State) : exec .yield s = .next (if s.me.stopReq then stopped s else finish s) := by
  show execYield s = _
  rw [execYield, show (finish s).me.stopReq = s.me.stopReq from Strand.age_stopReq _ _]
  rfl

theorem stopped_onlyScalars (s : State) : OnlyScalars { s with me := { s.me with
    run := .stopped, stopReq := false, stopAt := (stopped s).me.stopAt, strip := (stopped s).me.strip, links := [] } } (stopped s) := by
  obtain ⟨rs, ps, ha⟩ := s.me.age_frame (1 + s.me.ir.sc)
  simp only [OnlyScalars, stopped, State.modMe, finish_me, Strand.stopHere, ha]

theorem exec_idle {a : SReg} {s : State} (h : Readable s [a]) : exec (.idle a) s = .next
    (if s.me.stopReq then finishIdle s else beginWait (.idle (if a.val = 0 then none else some (s.rd a).toNat)) s) := by
  show execIdle a s = _
  rw [execIdle, readRegs_go _ _ _ h]

theorem finishIdle_onlyScalars (s : State) : OnlyScalars s (finishIdle s) := by
  obtain ⟨rs, ps, ha⟩ := s.me.age_frame (1 + s.me.ir.sc)
  simp only [OnlyScalars, finishIdle, tick, ha]

theorem onlyMe_beginWait (w : Wait) (s : State) : OnlyMe s (beginWait w s) := rfl

theorem waits_beginWait (w : Wait) (s : State) : Waits s (beginWait w s) w := rfl

/-! ### `halt` -/

theorem tget_absent {α : Type} (d : α) {t : Tab α} {k : Nat} (h : ∀ e ∈ t, e.1 ≠ k) : tget d t k = d := by
  induction t with
  | nil => rfl
  | cons e t ih =>
    obtain ⟨j, v⟩ := e
    rw [tget, if_neg (h (j, v) List.mem_cons_self), ih fun e he => h e (List.mem_cons_of_mem _ he)]

/-- Every entry of a canonical table with the bits of `m` alone, and without entries of zero. -/
def masked (m : Word32) (t : Tab Word32) : Tab Word32 :=
  t.filterMap fun e => if e.2 &&& m = 0 then none else some (e.1, e.2 &&& m)

theorem tget_masked (m : Word32) (b : Nat) : ∀ t : Tab Word32, twf 0 t = true → tget 0 (masked m t) b = tget 0 t b &&& m
  | [], _ => (BitVec.zero_and).symm
  | (j, v) :: t, h => by
    have ht := tget_masked m b t (twf_of_sublist 0 (List.sublist_cons_self _ t) h)
    by_cases hz : v &&& m = 0
    · have hm : masked m ((j, v) :: t) = masked m t := List.filterMap_cons_none (if_pos hz)
      rw [hm, ht, tget]
      split
      · next hj =>
        obtain ⟨hlt, -⟩ := List.pairwise_cons.mp ((twf_iff 0 _).mp h).1
        rw [tget_absent 0 fun e he => by have : j < e.1 := hlt e he; omega]
        rw [hz]; exact BitVec.zero_and
      · rfl
    · have hm : masked m ((j, v) :: t) = (j, v &&& m) :: masked m t :=
        List.filterMap_cons_some (if_neg hz)
      rw [hm, tget, tget, ht]
      split <;> rfl

theorem leaveBands_bands (i : Nat) (c : Crew) : (leaveBands i c).bands = masked (~~~(BitVec.ofNat 32 (2 ^ i))) c.bands := rfl

/-- A strand that has halted, with its results delivered. -/
def atHalt (s : State) : State := tick 1 { s with me := { s.me.deliverAll with run := .halted, stopReq := false } }

/-- It has left its bands as well; nothing has followed for others yet. -/
def halted (s : State) : State := (atHalt s).modMyCrew (leaveBands (atHalt s).me.index)

/-- What follows for others once a strand has halted: its bands and its grid's barrier may be complete. -/
def afterHalt (s : State) : State := settleGbar s.myCrew.grid (settleBands s.me.crew s)

/-- A strand that has halted, its drain noted for the controller. -/
def noteDrained (s : State) : State := { s with events := s.events ++ [.strandDrained s.cur] }

theorem exec_halt {s : State} (h : s.me.onSteward = false) : exec .halt s = .next (noteDrained (afterHalt (halted s))) := by
  show execHalt s = _
  rw [execHalt, h, if_neg Bool.false_ne_true]
  rfl

theorem atHalt_me (s : State) : ∃ ps, (atHalt s).me = { s.me with regs := s.me.deliverAll.regs, pend := ps, run := .halted, stopReq := false } := by
  obtain ⟨rs, ps, hd⟩ := s.me.deliverAll_frame
  refine ⟨ps, ?_⟩
  simp only [atHalt, tick, hd]

/-- Settled bands and a wake leave a strand that does not wait, its crew's entry but the arrivals, and memory. -/
theorem settled_wake_frame {s t u : State} (hb : BandsSettled s.me.crew s t) (hu : WakeOnly t u) (hw : s.me.wait = none) :
    u.me = s.me ∧ u.mem = s.mem ∧ u.cur = s.cur ∧ ∃ a, u.crew s.me.crew = { s.crew s.me.crew with arrived := a } := by
  obtain ⟨⟨p, hp⟩, hm⟩ := hu
  have hme := hb.me hw
  refine ⟨(hm (by rw [hme]; exact hw)).trans hme, ?mem, ?cur, ?crew⟩
  case mem => rw [hp]; exact hb.mem
  case cur => rw [hp]; exact hb.cur
  case crew =>
    obtain ⟨a, ha⟩ := hb.own
    exact ⟨a, by rw [hp]; exact ha⟩

theorem afterHalt_frame {s : State} (hw : s.me.wait = none) : (afterHalt s).me = s.me ∧ (afterHalt s).mem = s.mem
    ∧ (afterHalt s).cur = s.cur ∧ ∃ a, (afterHalt s).crew s.me.crew = { s.crew s.me.crew with arrived := a } :=
  settled_wake_frame (settleBands_settled s.me.crew s) (settleGbar_wakeOnly _ _) hw

/-- Settles O11. -/
theorem stoppingAndWaiting : Obligations.StoppingAndWaiting := by
  unfold Obligations.StoppingAndWaiting
  intro s
  refine ⟨?yield, fun a hr => ?idle, fun hc hw hi hb => ?halt⟩
  case yield =>
    refine ⟨_, exec_yield s, ?_⟩
    cases hs : s.me.stopReq with
    | true =>
      exact ⟨rfl, rfl, passedHead_finish (s := s) rfl rfl, rfl, agedRegs_finish (s := s) rfl rfl rfl, fflags_finish s, nofun,
        fun _ => stopped_onlyScalars s⟩
    | false =>
      exact ⟨rfl, Strand.age_run _ _, passedHead_finish rfl rfl, onlyMe_finish s, agedRegs_finish rfl rfl rfl, fflags_finish s,
        fun _ => onlyScalars_finish s, nofun⟩
  case idle =>
    refine ⟨_, exec_idle hr, ?_⟩
    cases hs : s.me.stopReq with
    | true =>
      exact ⟨rfl, fun _ => ⟨rfl, Nat.lt_succ_self _, agedRegs_finish (s := s) rfl rfl rfl, finishIdle_onlyScalars s,
        Strand.age_fflags _ _⟩, nofun⟩
    | false => exact ⟨onlyMe_beginWait _ s, nofun, fun _ => waits_beginWait _ s⟩
  case halt =>
    obtain ⟨ps, hme⟩ := atHalt_me s
    have hown : (halted s).crew s.me.crew = leaveBands s.me.index s.myCrew := by
      rw [halted, State.modMyCrew, hme]
      exact State.crew_modCrew _ _ _
    have hafter := afterHalt_frame (s := halted s) (show (atHalt s).me.wait = none by rw [hme]; exact hw)
    have hex := exec_halt hc
    generalize afterHalt (halted s) = t at hafter hex
    have hhm : (halted s).me = (atHalt s).me := rfl
    rw [hhm, hme] at hafter
    obtain ⟨hm, hmem, hcur, a, ha⟩ := hafter
    refine ⟨noteDrained t, hex, congrArg Strand.run hm, fun r => ?regs, ?drains, fun b => ?bands, hmem, (congrArg Strand.pc hm :),
      (congrArg Strand.fflags hm :), ?frame⟩
    case drains => exact List.mem_append_right _ (List.mem_singleton.mpr (congrArg _ hcur.symm))
    case bands =>
      show tget 0 (t.crew s.me.crew).bands b = _
      rw [ha, hown]
      exact tget_masked _ b _ hb
    case regs =>
      show t.rd r = s.finalVal r
      rw [State.rd, hm]
      rfl
    case frame =>
      simp only [OnlyScalars, noteDrained, hm]

end Sys2Proof.Machine
end

section
/-! SUPPORT. The membership of bands (R144, R145, R147): O13. -/

namespace Sys2Proof.Machine
open Sys2Proof

/-- The strand's bit in the members of a band. -/
def State.myBit (s : State) : Word32 := BitVec.ofNat 32 (2 ^ s.me.index)

theorem exec_join {s : State} (b : Fin 16) (h : s.me.onSteward = false) :
    exec (.join b) s = .next (finish (setBand b (tget 0 s.myCrew.bands b ||| s.myBit) s)) := by
  show execJoin b s = _
  rw [execJoin, notOnSteward, h]
  rfl

theorem exec_leave {s : State} (b : Fin 16) (h : s.me.onSteward = false) : exec (.leave b) s =
    .next (settleBands s.me.crew (finish (setBand b (tget 0 s.myCrew.bands b &&& ~~~s.myBit) s))) := by
  show execLeave b s = _
  rw [execLeave, notOnSteward, h]
  rfl

theorem setBand_same (b : Nat) (v : Word32) (s : State) : tget 0 ((setBand b v s).crew s.me.crew).bands b = v := by
  rw [setBand, State.modMyCrew, State.crew_modCrew]
  exact tget_tset_same 0 _ b v

theorem setBand_other {b c : Nat} (v : Word32) (s : State) (h : c ≠ b) :
    tget 0 ((setBand b v s).crew s.me.crew).bands c = tget 0 s.myCrew.bands c := by
  rw [setBand, State.modMyCrew, State.crew_modCrew]
  exact tget_tset_other 0 _ v h

theorem setBand_crew_other (b : Nat) (v : Word32) {s : State} {c : Nat} (h : c ≠ s.me.crew) : (setBand b v s).crew c = s.crew c :=
  State.crew_modCrew_other s _ h

theorem finish_wait (s : State) : (finish s).me.wait = s.me.wait := Strand.age_wait _ _

/-- A search for the lowest bit stops at a bit that is set just where no bit before it is. -/
theorem lowestBit_eq_iff {v k : Nat} (hk : v.testBit k = true) : ∀ n i, i ≤ k → k < i + n →
    (lowestBit v n i = k ↔ ∀ j, i ≤ j → j < k → v.testBit j = false)
  | 0, i, hi, hn => by omega
  | n + 1, i, hi, hn => by
    rw [lowestBit]
    by_cases hik : i = k
    · subst hik
      rw [if_pos hk]
      exact ⟨fun _ j _ _ => by omega, fun _ => rfl⟩
    · cases hb : v.testBit i with
      | true =>
        rw [if_pos rfl]
        refine ⟨fun h => absurd h hik, fun h => ?_⟩
        have := h i (Nat.le_refl i) (by omega)
        rw [hb] at this
        cases this
      | false =>
        rw [if_neg Bool.false_ne_true, lowestBit_eq_iff hk n (i + 1) (by omega) (by omega)]
        refine ⟨fun h j hij hjk => ?_, fun h j hij => h j (by omega)⟩
        by_cases hj : j = i
        · rw [hj, hb]
        · exact h j (by omega) hjk

/-- Whether the strand is the lowest member of a band that has it (R147). -/
theorem elected_iff (v : Word32) {k : Nat} (hk : k < 16) :
    (v.toNat.testBit k && lowestBit v.toNat 16 0 = k) = true ↔ v.getLsbD k ∧ ∀ j < k, v.getLsbD j = false := by
  rw [Bool.and_eq_true, decide_eq_true_iff]
  refine and_congr_right fun hb => (lowestBit_eq_iff hb 16 0 (Nat.zero_le k) (by omega)).trans ?_
  exact forall_congr' fun j => by simp only [Nat.zero_le, forall_const]; rfl

/-- What `elect` answers. -/
def electAnswer (v : Word32) (k : Nat) : Word := if v.toNat.testBit k && lowestBit v.toNat 16 0 = k then 1 else 0

theorem electAnswer_eq (v : Word32) {k : Nat} (hk : k < 16) :
    electAnswer v k = if v.getLsbD k ∧ ∀ j < k, v.getLsbD j = false then 1 else 0 := by
  unfold electAnswer
  simp only [elected_iff v hk]

theorem exec_elect {s : State} (d : SReg) (b : Fin 16) (h : s.me.onSteward = false) :
    exec (.elect d b) s = .next (finish (s.wr d (electAnswer (tget 0 s.myCrew.bands b) s.me.index))) := by
  show execElect d b s = _
  rw [execElect, notOnSteward, h]
  rfl

/-- Settles O13: `join` and `leave` write one band's members; what follows for others leaves a strand that does not wait. -/
theorem bandMembership : Obligations.BandMembership := by
  unfold Obligations.BandMembership
  intro b s hs hw
  refine ⟨?join, ?leave, fun d => ?elect⟩
  case join =>
    exact ⟨_, exec_join b hs, rfl, passedHead_finish rfl rfl, setBand_same _ _ s, fun c hc => setBand_other _ s hc,
      fun c hc => setBand_crew_other _ _ hc, rfl, onlyScalars_finish (setBand _ _ s), agedRegs_finish rfl rfl rfl, fflags_finish _⟩
  case leave =>
    refine ⟨_, exec_leave b hs, ?_⟩
    have hu : (finish (setBand b (tget 0 s.myCrew.bands b &&& ~~~s.myBit) s)).me = (finish s).me := rfl
    have hb := settleBands_settled s.me.crew (finish (setBand b (tget 0 s.myCrew.bands b &&& ~~~s.myBit) s))
    generalize settleBands s.me.crew (finish (setBand b (tget 0 s.myCrew.bands b &&& ~~~s.myBit) s)) = t at hb
    have hm : t.me = (finish s).me := hb.me (by rw [hu, finish_wait]; exact hw)
    obtain ⟨a, ha⟩ := hb.own
    refine ⟨congrArg Strand.pc hm, ?passed, ?band, fun c hc => ?other, fun c hc => ?crews, ?frame, ?scalars, ?regs, ?flags⟩
    case passed => exact Nat.le_trans (passedHead_finish (s := s) rfl rfl) hb.later
    case band => rw [ha]; exact setBand_same _ _ s
    case other => rw [ha]; exact setBand_other _ s hc
    case crews => rw [hb.others c hc]; exact setBand_crew_other _ _ hc
    case frame => rw [hb.frame]; rfl
    case scalars => rw [OnlyScalars, hm]; exact onlyScalars_finish s
    case regs =>
      intro r
      rw [State.rd, hm]
      exact agedRegs_finish (s := s) rfl rfl rfl r
    case flags => rw [hm]; exact fflags_finish s
  case elect =>
    refine ⟨_, exec_elect d b hs, pc_finish_wr s d _, passed_finish_wr s d _, fun hd hi => ?answer, otherRegs_finish_wr s d _,
      onlyScalars_finish_wr s d _, (onlyMe_wr s d _).finish, fflags_finish_wr s d _⟩
    rw [finish_wr_rd, if_neg hd, electAnswer_eq _ hi]

end Sys2Proof.Machine
end

section
/-! SUPPORT. What `scrub` answers and zeroes (R158): O18. -/

namespace Sys2Proof.Machine
open Sys2Proof

theorem exec_scrub_go {csp tile reg ll : Bool} {d a : SReg} {s : State} (hr : Readable s [a]) (hp : s.me.priv = .hyp) :
    exec (.scrub csp tile reg ll d a) s = .next (finish ((scrubRun csp tile reg ll (s.rd a).toNat s).1.wr d
      (word (scrubRun csp tile reg ll (s.rd a).toNat s).2))) := by
  show execScrub csp tile reg ll d a s = _
  simp [execScrub, hp, stallShort_readable s _ hr, scalarPoison_readable s _ hr]

theorem exec_scrub_priv {csp tile reg ll : Bool} {d a : SReg} {s : State} (hp : s.me.priv ≠ .hyp) :
    exec (.scrub csp tile reg ll d a) s = .next (takeTrap { cause := .priv } s) := by
  show execScrub csp tile reg ll d a s = _
  simp [execScrub, hp, trapIf]

/-- A state that differs in stored bytes, their full bits and their poison. -/
def State.withStore (s : State) (m : Tab Byte) (f : Tab Bool) (p : List Nat) : State := { s with mem := m, full := f, mpois := p }

/-- The three answers of a scrub: it changes stored bytes alone, and none when it does not answer 0. -/
theorem scrubRun_cases (csp tile reg ll : Bool) (x : Nat) (s : State) :
    scrubRun csp tile reg ll x s = (s, 2) ∨ scrubRun csp tile reg ll x s = (s, 1)
    ∨ ∃ m f p, scrubRun csp tile reg ll x s = (s.withStore m f p, 0) := by
  unfold scrubRun
  dsimp only
  generalize (if decide (bits x 11 0 < 160) && (s.assign (bits x 11 0)).split then some (x.testBit 12) else none) = half
  split_ifs
  · exact .inl rfl
  · exact .inl rfl
  · exact .inr (.inl rfl)
  · exact .inr (.inr ⟨_, _, _, rfl⟩)
  · exact .inl rfl
  · exact .inr (.inl rfl)
  · exact .inr (.inr ⟨_, _, _, rfl⟩)
  · exact .inr (.inr ⟨_, _, _, rfl⟩)

theorem scrubRun_store (csp tile reg ll : Bool) (x : Nat) (s : State) :
    ∃ m f p, (scrubRun csp tile reg ll x s).1 = s.withStore m f p := by
  obtain h | h | ⟨m, f, p, h⟩ := scrubRun_cases csp tile reg ll x s
  · exact ⟨_, _, _, congrArg Prod.fst h⟩
  · exact ⟨_, _, _, congrArg Prod.fst h⟩
  · exact ⟨_, _, _, congrArg Prod.fst h⟩

theorem scrubRun_refused {csp tile reg ll : Bool} {x : Nat} {s : State} (h : (scrubRun csp tile reg ll x s).2 ≠ 0) :
    (scrubRun csp tile reg ll x s).1 = s := by
  obtain h' | h' | ⟨m, f, p, h'⟩ := scrubRun_cases csp tile reg ll x s
  · exact congrArg Prod.fst h'
  · exact congrArg Prod.fst h'
  · exact absurd (congrArg Prod.snd h') h

/-- An operand with a bit above 15 is a bad one. -/
theorem scrubRun_reserved (csp tile reg ll : Bool) {x : Nat} (s : State) (hx : x < 2 ^ 64) (h : x / 2 ^ 16 ≠ 0) :
    scrubRun csp tile reg ll x s = (s, 2) := by
  have hb : bits x 63 16 ≠ 0 := by
    unfold bits
    omega
  simp [scrubRun, hb]

/-- Bits 14 and 13, and those above 15, of a unit's number, with or without the bit that names a cluster. -/
theorem unit_bits {c : Nat} (k : Nat) (h : c < 416) :
    bits (k * 2 ^ 15 + c) 11 0 = c ∧ bits (k * 2 ^ 15 + c) 14 13 = 0 ∧ (k * 2 ^ 15 + c).testBit 12 = false
    ∧ (k * 2 ^ 15 + c).testBit 15 = decide (k % 2 = 1) ∧ bits (k * 2 ^ 15 + c) 63 16 = k / 2 % 2 ^ 48 := by
  simp only [bits, Nat.testBit_eq_decide_div_mod_eq, decide_eq_false_iff_not, decide_eq_decide]
  omega

theorem scrubRun_cluster {c : Nat} (csp : Bool) (s : State) (h : c < 72) : scrubRun csp false false false (2 ^ 15 + c) s =
    if (coresOf c).all fun y => scrubFree s y none then (scrubCsp c s, 0) else (s, 1) := by
  obtain ⟨h0, h1, h2, h3, h4⟩ := unit_bits 1 (show c < 416 by omega)
  rw [one_mul] at h0 h1 h2 h3 h4
  have hn : ¬ c ≥ 72 := by omega
  simp only [scrubRun, h0, h1, h2, h3, h4, hn]
  cases (coresOf c).all fun y => scrubFree s y none <;> rfl

/-- The half of a core that a scrub of it names. -/
def scrubHalf (s : State) (c : Nat) : Option Bool := if c < 160 ∧ (s.assign c).split = true then some false else none

theorem scrubRun_core {c : Nat} (tile reg ll : Bool) (s : State) (h : c < 416) : scrubRun false tile reg ll c s =
    if scrubFree s c (scrubHalf s c) then (if ll then scrubLanes c s else s, 0) else (s, 1) := by
  obtain ⟨h0, h1, h2, h3, h4⟩ := unit_bits 0 h
  rw [zero_mul, zero_add] at h0 h1 h2 h3 h4
  have hn : ¬ c ≥ 416 := by omega
  rw [scrubHalf]
  cases hf : scrubFree s c (if c < 160 ∧ (s.assign c).split = true then some false else none) <;>
    simp [scrubRun, h0, h1, h2, h3, h4, Config.stewardBase, hn, hf]

/-- No crew's context or rows stand on any core. -/
def Bare (s : State) : Prop := ∀ e ∈ s.crews, e.2.state = .ended ∧ e.2.lazy = false

theorem Bare.holds {s : State} (h : Bare s) {e : Nat × Crew} (he : e ∈ s.crews) (core : Nat) (half : Option Bool) :
    e.2.holds core half = false := by
  simp [Crew.holds, (h e he).1]

theorem Bare.laneHeld {s : State} (h : Bare s) (core : Nat) : laneHeld s core = [] := by
  refine List.filterMap_eq_nil_iff.mpr fun e he => ?_
  rw [h.holds he, if_neg Bool.false_ne_true]

theorem Bare.cspHeld {s : State} (h : Bare s) (cluster : Nat) : cspHeld s cluster = [] := by
  refine List.filterMap_eq_nil_iff.mpr fun e he => if_neg ?_
  simp [(h e he).1]

theorem ownersOf_subset (s : State) (core : Nat) (half : Option Bool) {p : Nat} (h : p ∈ ownersOf s core half) : p ∈ ownersOf s core none := by
  unfold ownersOf at h ⊢
  dsimp only at h ⊢
  split at h
  · next hs =>
    rw [if_pos hs]
    match half, h with
    | none, h => exact h
    | some false, h => exact List.mem_cons.mpr (.inl (List.mem_singleton.mp h))
    | some true, h => exact List.mem_cons_of_mem _ h
  · next hs => rwa [if_neg hs]

/-- A core on which nothing stands, and whose owners' dispatch is stopped, is free to scrub. -/
theorem Bare.scrubFree {s : State} (h : Bare s) {core : Nat} (half : Option Bool)
    (ho : ∀ p ∈ ownersOf s core none, p ≥ 64 ∨ (s.part p).stop = true) : scrubFree s core half = true := by
  have hc : (s.crews.any fun e => e.2.holds core half || e.2.stays core half) = false :=
    List.any_eq_false.mpr fun e he => by simp [h.holds he, Crew.stays, (h e he).2]
  have hp : ((ownersOf s core half).all fun p => p ≥ 64 || (s.part p).stop) = true :=
    List.all_eq_true.mpr fun p hp => by simpa using ho p (ownersOf_subset s core half hp)
  rw [Machine.scrubFree, hc, hp]
  rfl

/-- A core, or a half of it, that a resident crew holds is not free to scrub. -/
theorem scrubFree_held {s : State} {e : Nat × Crew} (he : e ∈ s.crews) {core : Nat} {half : Option Bool}
    (h : e.2.holds core half = true) : scrubFree s core half = false := by
  have hc : (s.crews.any fun e => e.2.holds core half || e.2.stays core half) = true :=
    List.any_eq_true.mpr ⟨e, he, by rw [h]; rfl⟩
  rw [scrubFree, hc]
  rfl

/-- Where nothing is held a scrub zeroes the whole store, and nothing besides. -/
theorem clearUnheld_home (base : Nat) (s : State) (j : Nat) :
    (clearUnheld base [] s).home j = if base ≤ j ∧ j < base + 2 ^ 32 then 0 else s.home j := by
  have hf := tget_filter (0 : Byte) (fun k => decide (k + 1 ≤ base) || decide (base + 2 ^ 32 ≤ k)) s.mem j
  have hh : (clearUnheld base [] s).home j = tget 0 (s.mem.filter fun e => decide (e.1 + 1 ≤ base) || decide (base + 2 ^ 32 ≤ e.1)) j := by
    simp [State.home, clearUnheld]
  rw [hh, hf]
  by_cases h : base ≤ j ∧ j < base + 2 ^ 32
  · rw [if_pos h, if_neg (by simp; omega)]
  · rw [if_neg h, if_pos (by simp; omega)]
    rfl

/-- The bytes of one store are zero, and every other byte is as it was. -/
def Zeroed (k : Nat) (s t : State) : Prop := (∀ o < 2 ^ 32, t.home (k + o) = 0) ∧ ∀ a, (a < k ∨ k + 2 ^ 32 ≤ a) → t.home a = s.home a

theorem clearUnheld_zeroed (base : Nat) {s t : State} (h : t.mem = (clearUnheld base [] s).mem) : Zeroed base s t := by
  have ht (j : Nat) : t.home j = (clearUnheld base [] s).home j := by rw [State.home, h, State.home]
  refine ⟨fun o ho => ?_, fun a ha => ?_⟩
  · rw [ht, clearUnheld_home, if_pos ⟨Nat.le_add_right _ _, by omega⟩]
  · rw [ht, clearUnheld_home, if_neg (by omega)]

/-- The head of a scrub completes with its answer; what it changes besides are stored bytes. -/
theorem finish_scrub (csp tile reg ll : Bool) (x : Nat) (d : SReg) (v : Word) (s : State) :
    ∃ m f p, finish ((scrubRun csp tile reg ll x s).1.wr d v) = (finish (s.wr d v)).withStore m f p := by
  obtain ⟨m, f, p, hu⟩ := scrubRun_store csp tile reg ll x s
  exact ⟨m, f, p, by rw [hu]; rfl⟩

theorem finish_scrub_kept {csp tile reg ll : Bool} {x : Nat} {s : State} (d : SReg) (v : Word)
    (h : (scrubRun csp tile reg ll x s).1 = s) : OnlyMe s (finish ((scrubRun csp tile reg ll x s).1.wr d v)) := by
  rw [h]
  exact (onlyMe_wr s d v).finish

/-- Settles O18: the three answers of `scrubRun`, and for a bare unit the store that it clears. -/
theorem scrubZeroes : Obligations.ScrubZeroes := by
  unfold Obligations.ScrubZeroes
  intro csp tile reg ll d a s hr
  refine ⟨fun hp => ⟨_, exec_scrub_go hr hp, ?_⟩, fun hp hh => ⟨_, exec_scrub_priv hp, takes_takeTrap hh _⟩⟩
  have hkept := finish_scrub_kept (csp := csp) (tile := tile) (reg := reg) (ll := ll) (x := (s.rd a).toNat) (s := s) d
    (word (scrubRun csp tile reg ll (s.rd a).toNat s).2)
  have hmem : (finish ((scrubRun csp tile reg ll (s.rd a).toNat s).1.wr d (word (scrubRun csp tile reg ll (s.rd a).toNat s).2))).mem
    = (scrubRun csp tile reg ll (s.rd a).toNat s).1.mem := rfl
  obtain ⟨m, f, p, ht⟩ := finish_scrub csp tile reg ll (s.rd a).toNat d (word (scrubRun csp tile reg ll (s.rd a).toNat s).2) s
  rw [ht] at hmem hkept ⊢
  dsimp only
  generalize word (scrubRun csp tile reg ll (s.rd a).toNat s).2 = v at *
  refine ⟨pc_finish_wr s d v, otherRegs_finish_wr s d v, onlyScalars_finish_wr s d v, fflags_finish_wr s d v, passed_finish_wr s d v,
    rfl, finish_wr_rd s d v, fun h => hkept (scrubRun_refused h), fun hx => ?reserved, fun c hc hx htile hreg hll => ?cluster, fun c hc hx hcsp => ?core⟩
  case reserved => rw [scrubRun_reserved csp tile reg ll s (s.rd a).isLt hx]
  case cluster =>
    subst htile hreg hll
    rw [hx, scrubRun_cluster csp s hc] at hmem ⊢
    refine ⟨fun ⟨e, he, hres, hcore⟩ => ?held, fun hb ho => ?bare⟩
    case held =>
      have hy := scrubFree_held he (core := e.2.core) (half := none) (by simp [Crew.holds, hres])
      rw [if_neg]
      exact fun h => by rw [List.all_eq_true.mp h _ hcore] at hy; cases hy
    case bare =>
      have hfree : ((coresOf c).all fun y => scrubFree s y none) = true := List.all_eq_true.mpr fun y hy => Bare.scrubFree hb none (ho y hy)
      rw [if_pos hfree] at hmem ⊢
      rw [scrubCsp, Bare.cspHeld hb] at hmem
      exact ⟨rfl, clearUnheld_zeroed _ hmem⟩
  case core =>
    subst hcsp
    rw [hx, scrubRun_core tile reg ll s hc] at hmem hkept ⊢
    refine ⟨fun ⟨e, he, hres, hcore, hhalf⟩ => ?held, fun hb ho => ?bare⟩
    case held =>
      rw [scrubFree_held he]
      · rfl
      · unfold scrubHalf
        split
        · next h => simp [Crew.holds, hres, hcore, hhalf h.2]
        · simp [Crew.holds, hres, hcore]
    case bare =>
      rw [Bare.scrubFree hb _ ho, if_pos rfl] at hmem hkept ⊢
      refine ⟨rfl, fun hl => ?_, fun hl => ?_⟩
      · rw [hl, if_pos rfl, scrubLanes, Bare.laneHeld hb] at hmem
        exact clearUnheld_zeroed _ hmem
      · exact hkept (by rw [hl]; rfl)

end Sys2Proof.Machine
end

section
/-! SUPPORT. A vector image and a first-level line that grows old (R155, R293): O17. -/

namespace Sys2Proof.Machine
open Sys2Proof

/-- Page tables of both stages that map the first GiB to itself, readable and writable. -/
def flatTables : Tab Byte := [(0, 0x03), (1, 0x10), (0x1000, 0x03), (0x1001, 0x20), (0x2000, 0x0D)]

/-- A strand at HYP that saves its image at 65,536, when a first-level line of its core with another value of byte 0 than its home
holds is one cycle from its age. -/
def expiryState : State := { State.reset with
  cycle := Config.l1Life
  me := { priv := .hyp, regs := [(1, 0x10000)] }
  parts := [(0, { t2 := 1 })]
  mem := flatTables
  l1 := [⟨0, 0, [1], 0⟩] }

/-- What a core sees of byte 0 after an instruction. -/
def byteSeen (o : Out) : Byte := match o with
  | .next t => t.view 0 0
  | _ => 0

theorem expiryState_pages : pagesOf expiryState expiryState.ctx .wr (expiryState.ea 1 0).toNat
    (pageCount (expiryState.ea 1 0).toNat (vectorImage expiryState.me expiryState.myCrew.index
      (gridId expiryState.myGrid expiryState.myCrew.grid)).length) = .ok [(65536, 65536)] := by decide +kernel

theorem expiryState_view : expiryState.view 0 0 = 1 := by decide +kernel

theorem byteSeen_vsave : byteSeen (exec (.vsave 1) expiryState) = 3 := by decide +kernel

/-- Refutes O17: a `vsave` takes time, after which a first-level line may be too old, and byte 0, outside the image, is seen as its
home holds it. -/
theorem not_vectorContext : ¬ Obligations.VectorContext := by
  unfold Obligations.VectorContext
  intro h
  obtain ⟨t, ht, -, -, -, -, hview⟩ := (h 1 0 expiryState rfl (by decide) ⟨nofun, fun _ _ => List.not_mem_nil⟩ rfl (by decide +kernel)).1
    (.vsave 1) _ (.inl ⟨rfl, rfl⟩) rfl expiryState_pages
  obtain ⟨-, -, hout⟩ := hview 65536 65536 rfl rfl rfl
  have hsame : t.view 0 0 = 1 := (hout 0 (.inl (by decide +kernel))).trans expiryState_view
  have hseen := byteSeen_vsave
  rw [ht, byteSeen, hsame] at hseen
  exact absurd hseen (by decide)

end Sys2Proof.Machine
end

section
/-! SUPPORT. Integer results as exact numbers narrowed once (R117 to R124): O1. -/

namespace Sys2Proof.Machine
open Sys2Proof

/-! ### Operands at their width -/

/-- An operand at the width of the operation (R118). -/
def part (w : Bool) (x : Word) : BitVec (Spec.width w) := x.setWidth (Spec.width w)

theorem narrow_part (w : Bool) (f : (n : Nat) → BitVec n → BitVec n → BitVec n) (a b : Word) :
    narrow w f a b = (f (Spec.width w) (part w a) (part w b)).signExtend 64 := by
  cases w with
  | true => rfl
  | false => simp [narrow, part, Spec.width]

theorem narrowCmp_part (w : Bool) (f : (n : Nat) → BitVec n → BitVec n → Bool) (a b : Word) :
    narrowCmp w f a b = Spec.truth (f (Spec.width w) (part w a) (part w b)) := by
  have hw (c : Bool) : word c.toNat = Spec.truth c := by cases c <;> rfl
  cases w with
  | true => exact hw _
  | false =>
    rw [narrowCmp, hw]
    simp [part, Spec.width]

theorem narrowed_part (w : Bool) (x : Int) : Spec.narrowed w x = (BitVec.ofInt (Spec.width w) x).signExtend 64 := by
  cases w with
  | true => rfl
  | false => simp [Spec.narrowed, Spec.width]

theorem uns_part (w : Bool) (x : Word) : Spec.uns w x = (part w x).toNat := (BitVec.toNat_setWidth _ _).symm

theorem sgn_part (w : Bool) (x : Word) : Spec.sgn w x = (part w x).toInt := by
  rw [BitVec.toInt_eq_msb_cond, BitVec.msb_eq_getLsbD_last, ← uns_part, part, BitVec.getLsbD_setWidth, Spec.sgn]
  cases w <;> simp [Spec.width]

theorem shamt_part (w : Bool) (x : Word) : Spec.shamt w x = (part w x).toNat % Spec.width w := by
  rw [part, BitVec.toNat_setWidth, Spec.shamt]
  cases w
  · exact (Nat.mod_mod_of_dvd _ (show 64 ∣ 2 ^ 64 by decide)).symm
  · exact (Nat.mod_mod_of_dvd _ (show 32 ∣ 2 ^ 32 by decide)).symm

/-- A number of its width, signed or not. -/
def numOf (u : Bool) {n : Nat} (x : BitVec n) : Int := if u then x.toNat else x.toInt

theorem num_part (w u : Bool) (x : Word) : Spec.num w u x = numOf u (part w x) := by
  rw [Spec.num, uns_part, sgn_part, numOf]

theorem ofInt_toNat {n : Nat} (x : BitVec n) : BitVec.ofInt n x.toNat = x := by
  rw [BitVec.ofInt_natCast, BitVec.ofNat_toNat, BitVec.setWidth_eq]

theorem ofInt_numOf (u : Bool) {n : Nat} (x : BitVec n) : BitVec.ofInt n (numOf u x) = x := by
  cases u with
  | true => exact ofInt_toNat x
  | false => exact BitVec.ofInt_toInt

/-- An operation of which each width gives the exact result narrowed gives it under W. -/
theorem narrow_eq {w : Bool} {f : (n : Nat) → BitVec n → BitVec n → BitVec n} {a b : Word} {r : Int}
    (h : f (Spec.width w) (part w a) (part w b) = BitVec.ofInt (Spec.width w) r) : narrow w f a b = Spec.narrowed w r := by
  rw [narrow_part, narrowed_part, h]

/-! ### The operations, at every width -/

section
variable {n : Nat} (x y : BitVec n)

theorem add_eq_ofInt : x + y = BitVec.ofInt n (x.toInt + y.toInt) := by
  rw [BitVec.ofInt_add, BitVec.ofInt_toInt, BitVec.ofInt_toInt]

theorem sub_eq_ofInt : x - y = BitVec.ofInt n (x.toInt - y.toInt) :=
  BitVec.eq_of_toInt_eq (by rw [BitVec.toInt_sub, BitVec.toInt_ofInt])

theorem mul_eq_ofInt : x * y = BitVec.ofInt n (x.toInt * y.toInt) := by
  rw [BitVec.ofInt_mul, BitVec.ofInt_toInt, BitVec.ofInt_toInt]

theorem eq_ofInt_of_toNat {z : Nat} (h : x.toNat = z) : x = BitVec.ofInt n z := by rw [← h, ofInt_toNat]

theorem shiftLeft_eq (s : Nat) : x <<< s = BitVec.ofInt n (x.toNat * 2 ^ s : Nat) := by
  rw [BitVec.ofInt_natCast]
  exact BitVec.eq_of_toNat_eq (by rw [BitVec.toNat_shiftLeft, Nat.shiftLeft_eq, BitVec.toNat_ofNat])

theorem shlVal_eq {s : Nat} (h : y.toNat % n = s) : shlVal n x y = BitVec.ofInt n (x.toNat * 2 ^ s : Nat) := by
  rw [shlVal, h, shiftLeft_eq]

theorem shrVal_eq {s : Nat} (h : y.toNat % n = s) : shrVal n x y = BitVec.ofInt n (x.toNat / 2 ^ s : Nat) :=
  eq_ofInt_of_toNat _ (by rw [shrVal, h, BitVec.toNat_ushiftRight, Nat.shiftRight_eq_div_pow])

theorem sraVal_eq {s : Nat} (h : y.toNat % n = s) : sraVal n x y = BitVec.ofInt n (x.toInt / 2 ^ s) := by
  rw [sraVal, h, ← BitVec.ofInt_toInt (x := x.sshiftRight s), BitVec.toInt_sshiftRight, Int.shiftRight_eq_div_pow]
  norm_cast

theorem numOf_lt (u : Bool) : (if u then x.ult y else x.slt y) = decide (numOf u x < numOf u y) := by
  cases u with
  | true => simp [numOf, BitVec.ult]
  | false => simp [numOf, BitVec.slt]

/-- Where the operands are one number, either choice between them is the same. -/
theorem ite_numOf (u : Bool) {p q : BitVec n} (h : x = y → p = q) :
    (if decide (numOf u x < numOf u y) then p else q) = if numOf u x ≤ numOf u y then p else q := by
  obtain hlt | heq | hgt := lt_trichotomy (numOf u x) (numOf u y)
  · rw [if_pos (decide_eq_true hlt), if_pos hlt.le]
  · have hxy : x = y := by rw [← ofInt_numOf u x, heq, ofInt_numOf]
    rw [h hxy, ite_self, ite_self]
  · rw [if_neg (by simp [hgt.le]), if_neg (not_le.mpr hgt)]

theorem minVal_eq (u : Bool) : minVal u n x y = BitVec.ofInt n (if numOf u x ≤ numOf u y then numOf u x else numOf u y) := by
  rw [minVal, numOf_lt, ite_numOf x y u id, apply_ite (BitVec.ofInt n), ofInt_numOf, ofInt_numOf]

theorem maxVal_eq (u : Bool) : maxVal u n x y = BitVec.ofInt n (if numOf u x ≤ numOf u y then numOf u y else numOf u x) := by
  rw [maxVal, numOf_lt, ite_numOf x y u Eq.symm, apply_ite (BitVec.ofInt n), ofInt_numOf, ofInt_numOf]

theorem mulhVal_eq (u : Bool) : mulhVal u n x y = BitVec.ofInt n (numOf u x * numOf u y / 2 ^ n) := by
  cases u with
  | true =>
    rw [mulhVal, if_pos rfl, ← BitVec.ofInt_natCast]
    norm_cast
  | false => rfl

theorem toNat_eq_zero_iff : x.toNat = 0 ↔ x = 0 := ⟨fun h => BitVec.eq_of_toNat_eq h, fun h => by rw [h]; rfl⟩

theorem divVal_eq (u : Bool) : divVal u n x y =
    BitVec.ofInt n (if y.toNat = 0 then -1 else (numOf u x).tdiv (numOf u y)) := by
  simp only [toNat_eq_zero_iff]
  rw [divVal]
  split
  · rw [← BitVec.neg_one_eq_allOnes, BitVec.ofInt_neg]
    rfl
  · cases u with
    | true => exact eq_ofInt_of_toNat _ (BitVec.toNat_udiv)
    | false => exact BitVec.eq_of_toInt_eq (by rw [if_neg Bool.false_ne_true, BitVec.toInt_sdiv, BitVec.toInt_ofInt]; rfl)

theorem remVal_eq (u : Bool) : remVal u n x y =
    BitVec.ofInt n (if y.toNat = 0 then x.toInt else (numOf u x).tmod (numOf u y)) := by
  simp only [toNat_eq_zero_iff]
  rw [remVal]
  split
  · exact BitVec.ofInt_toInt.symm
  · cases u with
    | true => exact eq_ofInt_of_toNat _ BitVec.toNat_umod
    | false => exact (BitVec.ofInt_toInt.symm).trans (congrArg _ (BitVec.toInt_srem _ _))

end

theorem size_eq_log2 {x : Nat} (h : x ≠ 0) : Nat.size x = x.log2 + 1 :=
  le_antisymm (Nat.size_le.mpr Nat.lt_log2_self) (Nat.lt_size.mpr (Nat.log2_self_le h))

theorem clzVal_eq {n : Nat} (x : BitVec n) : (clzVal n x : Int) = n - Nat.size x.toNat := by
  unfold clzVal
  split
  · next h => rw [h]; simp
  · next h =>
    have hx : x.toNat ≠ 0 := fun e => h ((toNat_eq_zero_iff x).mp e)
    have hn : Nat.size x.toNat ≤ n := Nat.size_le.mpr x.isLt
    rw [size_eq_log2 hx] at hn ⊢
    omega

/-- The bits that are set, counted from the top or as a list. -/
theorem popcount_eq_ones (x : Word) : ∀ n, popcount x.toNat n = Spec.ones n x
  | 0 => rfl
  | n + 1 => by
    rw [popcount, popcount_eq_ones x n, Spec.ones, Spec.ones, List.range_succ, List.filter_append, List.length_append, Nat.add_comm]
    congr 1
    rw [List.filter_singleton]
    rw [show x.toNat.testBit n = x.getLsbD n from rfl]
    cases x.getLsbD n <;> rfl

/-! ### Sign extension, immediates and addresses -/

theorem signExtend_setWidth (k : Nat) (x : Word) : (x.setWidth k).signExtend 64 = BitVec.ofInt 64 ((x.toNat : Int).bmod (2 ^ k)) := by
  rw [BitVec.signExtend, BitVec.toInt_setWidth]

theorem bmod_byte (x : Int) : x.bmod (2 ^ 8) = (x + 128) % 256 - 128 := by
  rw [Int.bmod_def]
  norm_num
  omega

theorem bmod_half (x : Int) : x.bmod (2 ^ 16) = (x + 32768) % 65536 - 32768 := by
  rw [Int.bmod_def]
  norm_num
  omega

theorem lea_eq (x y : Word) (n : Nat) : x + y <<< n = BitVec.ofInt 64 (x.toNat + y.toNat * 2 ^ n) := by
  rw [BitVec.ofInt_add, ofInt_toNat, shiftLeft_eq]
  norm_cast

theorem liHigh_eq (i : Imm) (x : Word) : i ++ x.setWidth 32 = BitVec.ofInt 64 (i.toNat * 2 ^ 32 + x.toNat % 2 ^ 32) := by
  have h : (i ++ x.setWidth 32).toNat = i.toNat * 2 ^ 32 + x.toNat % 2 ^ 32 := by
    rw [BitVec.toNat_append, BitVec.toNat_setWidth, ← Nat.shiftLeft_add_eq_or_of_lt (Nat.mod_lt _ (Nat.two_pow_pos 32)),
      Nat.shiftLeft_eq]
  rw [eq_ofInt_of_toNat _ h]
  norm_cast

theorem beq_toNat {n : Nat} (x y : BitVec n) : (x == y) = decide (x.toNat = y.toNat) := by
  rw [Bool.eq_iff_iff, beq_iff_eq, decide_eq_true_iff, BitVec.toNat_inj]

theorem clz_eq (w : Bool) (x : Word) : word (if w then clzVal 32 (x.setWidth 32) else clzVal 64 x)
    = Spec.narrowed false (Spec.width w - Nat.size (Spec.uns w x)) := by
  have h : (if w then clzVal 32 (x.setWidth 32) else clzVal 64 x) = clzVal (Spec.width w) (part w x) := by
    cases w with
    | true => rfl
    | false => simp [part, Spec.width]
  rw [h, uns_part, ← clzVal_eq]
  exact (BitVec.ofInt_natCast _ _).symm

theorem popc_eq (w : Bool) (x : Word) :
    word (popcount x.toNat (if w then 32 else 64)) = Spec.narrowed false (Spec.ones (Spec.width w) x) := by
  rw [popcount_eq_ones]
  exact (BitVec.ofInt_natCast _ _).symm

theorem setWidth_setWidth (k : Nat) (x : Word) (h : k ≤ 64) : (x.setWidth k).setWidth 64 = Spec.narrowed false (x.toNat % 2 ^ k) := by
  have hlt : x.toNat % 2 ^ k < 2 ^ 64 := Nat.lt_of_lt_of_le (Nat.mod_lt _ (Nat.two_pow_pos k)) (Nat.pow_le_pow_right (by decide) h)
  have hv : ((x.setWidth k).setWidth 64).toNat = x.toNat % 2 ^ k := by
    rw [BitVec.toNat_setWidth, BitVec.toNat_setWidth, Nat.mod_eq_of_lt hlt]
  rw [eq_ofInt_of_toNat _ hv]
  norm_cast

/-- A sign-extended immediate is its own number at either width. -/
theorem part_sext32 (w : Bool) (i : Imm) : (part w (sext32 i)).toInt = i.toInt := by
  cases w with
  | true =>
    have h : (i.signExtend 64).setWidth 32 = i := by
      refine BitVec.eq_of_getLsbD_eq fun j hj => ?_
      rw [BitVec.getLsbD_setWidth, BitVec.getLsbD_signExtend, if_pos hj]
      simp [hj, show j < 64 by omega]
    exact congrArg BitVec.toInt h
  | false =>
    show ((sext32 i).setWidth 64).toInt = i.toInt
    rw [BitVec.setWidth_eq, sext32, BitVec.toInt_signExtend_of_le (by decide)]

/-! ### The heads -/

/-- A head with its result: interlocked, or of fixed latency (R96). -/
def aluDone (x : Spec.AluSpec) (s : State) : State :=
  finish (match x.latency with
    | none => s.wr x.dest x.value
    | some lat => s.wrFixed x.dest x.value lat)

theorem aluHead_done {rs : List SReg} {d : SReg} {lat : Nat} {v : State → Word} {s : State} {r : Word} (hr : Readable s rs)
    (h : v s = r) : aluHead rs d lat v s = aluDone ⟨rs, d, some lat, r⟩ s := by
  rw [aluHead, readRegs_go _ _ _ hr, h]
  rfl

theorem intHead_done {w : Bool} {f : (n : Nat) → BitVec n → BitVec n → BitVec n} {lat : Nat} {d a b : SReg} {s : State} {r : Int}
    (hr : Readable s [a, b])
    (h : f (Spec.width w) (part w (s.rd a)) (part w (s.rd b)) = BitVec.ofInt (Spec.width w) r) :
    intHead w f lat d a b s = aluDone ⟨[a, b], d, some lat, Spec.narrowed w r⟩ s :=
  aluHead_done hr (narrow_eq h)

theorem divHead_done {w : Bool} {f : (n : Nat) → BitVec n → BitVec n → BitVec n} {d a b : SReg} {s : State} {r : Int}
    (hr : Readable s [a, b])
    (h : f (Spec.width w) (part w (s.rd a)) (part w (s.rd b)) = BitVec.ofInt (Spec.width w) r) :
    divHead w f d a b s = aluDone ⟨[a, b], d, none, Spec.narrowed w r⟩ s := by
  rw [divHead, readRegs_go _ _ _ hr, narrow_eq h]
  rfl

theorem cmpHead_done {w : Bool} {f : (n : Nat) → BitVec n → BitVec n → Bool} {d a b : SReg} {s : State} {c : Bool}
    (hr : Readable s [a, b]) (h : f (Spec.width w) (part w (s.rd a)) (part w (s.rd b)) = c) :
    cmpHead w f d a b s = aluDone ⟨[a, b], d, some 1, Spec.truth c⟩ s :=
  aluHead_done hr (by rw [narrowCmp_part, h])

/-- Each head of R117 to R124 is its registers read and its result. -/
theorem exec_alu {i : Instr} {s : State} {x : Spec.AluSpec} (h : Spec.alu i s = some x) (hr : Readable s x.reads) :
    exec i s = .next (aluDone x s) := by
  unfold Spec.alu at h
  split at h <;> cases h <;> refine congrArg Host.Outcome.next ?_
  case h_1 => rfl
  case h_2 w d a b => exact intHead_done hr (by rw [sgn_part, sgn_part, add_eq_ofInt])
  case h_3 w d a b => exact intHead_done hr (by rw [sgn_part, sgn_part, sub_eq_ofInt])
  case h_4 w d a b => exact intHead_done hr (by rw [uns_part, uns_part]; exact eq_ofInt_of_toNat _ rfl)
  case h_5 w d a b => exact intHead_done hr (by rw [uns_part, uns_part]; exact eq_ofInt_of_toNat _ rfl)
  case h_6 w d a b => exact intHead_done hr (by rw [uns_part, uns_part]; exact eq_ofInt_of_toNat _ rfl)
  case h_7 w d a b => exact intHead_done hr (by rw [uns_part]; exact shlVal_eq _ _ (shamt_part w _).symm)
  case h_8 w d a b => exact intHead_done hr (by rw [uns_part]; exact shrVal_eq _ _ (shamt_part w _).symm)
  case h_9 w d a b => exact intHead_done hr (by rw [sgn_part]; exact sraVal_eq _ _ (shamt_part w _).symm)
  case h_10 w u d a b => exact intHead_done hr (by rw [num_part, num_part]; exact minVal_eq _ _ u)
  case h_11 w u d a b => exact intHead_done hr (by rw [num_part, num_part]; exact maxVal_eq _ _ u)
  case h_12 w d a b => exact cmpHead_done hr (by rw [uns_part, uns_part]; exact beq_toNat _ _)
  case h_13 w d a b => exact cmpHead_done hr (by rw [sgn_part, sgn_part]; rfl)
  case h_14 w d a b => exact cmpHead_done hr (by rw [uns_part, uns_part]; rfl)
  case h_15 d a b c => exact aluHead_done hr (ite_not ..)
  case h_16 n d a b => exact aluHead_done hr (lea_eq _ _ _)
  case h_17 n d a b imm => exact aluHead_done hr (by rw [lea_eq]; exact (BitVec.ofInt_add _ _).symm)
  case h_18 w d a b => exact intHead_done hr (by rw [sgn_part, sgn_part, mul_eq_ofInt])
  case h_19 w u d a b => exact intHead_done hr (by rw [num_part, num_part]; exact mulhVal_eq _ _ u)
  case h_20 w u d a b => exact divHead_done hr (by rw [num_part, num_part, uns_part]; exact divVal_eq _ _ u)
  case h_21 w u d a b => exact divHead_done hr (by rw [num_part, num_part, uns_part, sgn_part]; exact remVal_eq _ _ u)
  case h_22 w d a => exact aluHead_done hr (clz_eq w _)
  case h_23 w d a => exact aluHead_done hr (popc_eq w _)
  case h_24 d a => exact aluHead_done hr (by rw [extWidth, signExtend_setWidth, bmod_byte]; rfl)
  case h_25 d a => exact aluHead_done hr (by rw [extWidth, signExtend_setWidth, bmod_half]; rfl)
  case h_26 d a => exact aluHead_done hr (by rw [sgn_part]; rfl)
  case h_27 d a => exact aluHead_done hr (setWidth_setWidth 8 _ (by decide))
  case h_28 d a => exact aluHead_done hr (setWidth_setWidth 16 _ (by decide))
  case h_29 d a => exact aluHead_done hr (by rw [uns_part]; exact setWidth_setWidth 32 _ (by decide))
  case h_30 w d a imm => exact aluHead_done hr (narrow_eq (by rw [sgn_part, add_eq_ofInt, part_sext32]))
  case h_31 d _ imm => exact aluHead_done hr rfl
  case h_32 d a imm => exact aluHead_done hr (liHigh_eq _ _)

/-! ### What a result leaves -/

theorem aluDone_result (x : Spec.AluSpec) (s : State) :
    ∃ rs ps sp, (match x.latency with | none => s.wr x.dest x.value | some lat => s.wrFixed x.dest x.value lat)
      = { s with me := { s.me with regs := rs, pend := ps, spois := sp } } := by
  cases x.latency with
  | none => exact s.wr_frame _ _
  | some lat =>
    obtain ⟨ps, sp, h⟩ := s.wrFixed_frame x.dest x.value lat
    exact ⟨s.me.regs, ps, sp, h⟩

theorem aluDone_frame (x : Spec.AluSpec) (s : State) : OnlyScalars s (aluDone x s) ∧ OnlyMe s (aluDone x s)
    ∧ PassedHead s (aluDone x s) ∧ (aluDone x s).me.pc = nextPc s.me ∧ (aluDone x s).me.fflags = s.me.fflags
    ∧ (aluDone x s).me.line = s.me.line := by
  obtain ⟨rs, ps, sp, h⟩ := aluDone_result x s
  obtain ⟨rs', ps', ha⟩ := Strand.age_frame { s.me with regs := rs, pend := ps, spois := sp } (1 + s.me.ir.sc)
  rw [aluDone, h]
  refine ⟨?_, rfl, passedHead_finish rfl rfl, rfl, Strand.age_fflags _ _, Strand.age_line _ _⟩
  simp only [OnlyScalars, finish_me, ha]

theorem aluDone_rd_other (x : Spec.AluSpec) (s : State) : OtherRegs s (aluDone x s) x.dest (1 + s.me.ir.sc) := by
  obtain ⟨rs, d, lat, v⟩ := x
  cases lat with
  | none => exact otherRegs_finish_wr s d v
  | some lat =>
    intro r hr
    obtain ⟨ps, sp, h⟩ := s.wrFixed_frame d v lat
    have hir : (s.wrFixed d v lat).me.ir = s.me.ir := by rw [h]
    rw [aluDone, finish_rd, rd_age, hir, age_wrFixed_other s d r v lat _ hr]

theorem deliver_pend_absent {r : SReg} : ∀ (l : List Pend) (regs : Tab Word) (kept : List Pend), (∀ p ∈ l, p.reg ≠ r) →
    (∀ p ∈ kept, p.reg ≠ r) → ∀ q ∈ (deliver l (regs, kept)).2, q.reg ≠ r
  | [], _, _, _, hk => hk
  | p :: l, regs, kept, hl, hk => by
    have htail : ∀ q ∈ l, q.reg ≠ r := fun q hq => hl q (List.mem_cons_of_mem _ hq)
    rw [deliver]
    split
    · exact deliver_pend_absent l _ _ htail fun q hq => hk q (List.mem_filter.mp hq).1
    · refine deliver_pend_absent l _ _ htail fun q hq => ?_
      obtain h | h := List.mem_append.mp hq
      · exact hk q h
      · rw [List.mem_singleton.mp h]
        exact hl p List.mem_cons_self

/-- A register without an undelivered writer keeps its value. -/
theorem age_regs_settled {m : Strand} {r : SReg} (h : ∀ p ∈ m.pend, p.reg ≠ r) (n : Nat) :
    tget 0 (m.age n).regs r.val = tget 0 m.regs r.val ∧ ∀ p ∈ (m.age n).pend, p.reg ≠ r := by
  have hmap : ∀ p ∈ m.pend.map fun p => { p with rem := p.rem - n }, p.reg ≠ r := by
    intro p hp
    obtain ⟨q, hq, rfl⟩ := List.mem_map.mp hp
    exact h q hq
  rw [Strand.age_regs, Strand.age_pend]
  exact ⟨deliver_other _ _ _ _ hmap, deliver_pend_absent _ _ _ hmap nofun⟩

theorem finalVal_finish_wr (s : State) (d : SReg) (v : Word) : (finish (s.wr d v)).finalVal d = if d = 0 then 0 else v := by
  by_cases h : d = 0
  · subst h; rfl
  · have hz : d.val ≠ 0 := fun e => h (Fin.ext e)
    have hp : ∀ p ∈ (s.me.wr d v).pend, p.reg ≠ d := fun p hp => by
      rw [Strand.wr, if_neg hz] at hp
      exact of_decide_eq_true (List.mem_filter.mp hp).2
    obtain ⟨-, hp'⟩ := age_regs_settled hp (1 + s.me.ir.sc)
    have hregs : (finish (s.wr d v)).me.deliverAll.regs = (((s.me.wr d v).age (1 + (s.me.wr d v).ir.sc)).age 8).regs :=
      age_regs_congr (m := (s.me.wr d v).age _) (n := (finish (s.wr d v)).me) rfl rfl 8
    rw [State.finalVal, if_neg hz, if_neg h, hregs, Strand.wr_ir, (age_regs_settled hp' 8).1, age_wr_dest s.me d v _ hz]

/-- Every latency of the tables is within the distance that a delivery of all results covers. -/
theorem alu_latency {i : Instr} {s : State} {x : Spec.AluSpec} (h : Spec.alu i s = some x) : x.latency.getD 0 ≤ 3 := by
  unfold Spec.alu at h
  split at h <;> cases h <;> simp only [Option.getD_some, Option.getD_none] <;> decide

theorem aluDone_finalVal {x : Spec.AluSpec} (s : State) (h : x.latency.getD 0 ≤ 3) :
    (aluDone x s).finalVal x.dest = if x.dest = 0 then 0 else x.value := by
  obtain ⟨rs, d, lat, v⟩ := x
  cases lat with
  | none => exact finalVal_finish_wr s d v
  | some lat =>
    by_cases hd : d = 0
    · subst hd; rfl
    · have hz : d.val ≠ 0 := fun e => hd (Fin.ext e)
      rw [if_neg hd]
      exact finalVal_finish (State.wrFixed_me_pend s d v lat hz) hz (Nat.le_trans h (by decide))

/-- The destination has its result once the latency has passed, and till then what older results give it. -/
theorem aluDone_rd (x : Spec.AluSpec) (s : State) :
    (x.latency.getD 0 ≤ 1 + s.me.ir.sc → (aluDone x s).rd x.dest = if x.dest = 0 then 0 else x.value)
    ∧ (x.latency.getD 0 > 1 + s.me.ir.sc → (aluDone x s).rd x.dest = State.rd { s with me := s.me.age (1 + s.me.ir.sc) } x.dest) := by
  obtain ⟨rs, d, lat, v⟩ := x
  cases lat with
  | none => exact ⟨fun _ => finish_wr_rd s d v, fun h => absurd h (Nat.not_lt_zero _)⟩
  | some lat =>
    by_cases hd : d = 0
    · subst hd
      exact ⟨fun _ => rfl, fun _ => rfl⟩
    · have hz : d.val ≠ 0 := fun e => hd (Fin.ext e)
      have hrd : (aluDone ⟨rs, d, some lat, v⟩ s).rd d = if lat ≤ 1 + s.me.ir.sc then v else tget 0 (s.me.age (1 + s.me.ir.sc)).regs d.val := by
        rw [aluDone, finish_rd, if_neg hz, State.wrFixed_me_ir, age_wrFixed_dest s d v lat _ hz]
      refine ⟨fun h => ?_, fun h => ?_⟩
      · have h : lat ≤ 1 + s.me.ir.sc := h
        rw [hrd, if_pos h, if_neg hd]
      · have h : ¬ lat ≤ 1 + s.me.ir.sc := Nat.not_le.mpr h
        rw [hrd, if_neg h, rd_age, if_neg hz]

/-- Settles O1: every head is its registers read and one result of the table. -/
theorem scalarIntegerResult : Obligations.ScalarIntegerResult := by
  unfold Obligations.ScalarIntegerResult
  intro i s x hx hr
  obtain ⟨hscalars, honly, hpassed, hpc, hflags, hline⟩ := aluDone_frame x s
  obtain ⟨hnow, hlater⟩ := aluDone_rd x s
  exact ⟨_, exec_alu hx hr, hpc, hpassed, aluDone_finalVal s (alu_latency hx), hnow, hlater, aluDone_rd_other x s, hflags, hline,
    hscalars, honly, honly.home⟩

end Sys2Proof.Machine
end

section
/-! SUPPORT. The register pool (R22, R149 to R151, R273): what the moves of rows leave, claims, releases, and O15. -/

namespace Sys2Proof.Machine
open Sys2Proof

/-! ### Rows of a strand -/

/-- Strands that differ in their vector registers alone. -/
def RowsOnly (m n : Strand) : Prop := n = { m with vregs := n.vregs, vpois := n.vpois }

theorem rowsOnly_refl (m : Strand) : RowsOnly m m := rfl

theorem rowsOnly_trans {m n o : Strand} (h : RowsOnly m n) (k : RowsOnly n o) : RowsOnly m o := by
  rw [RowsOnly] at *
  rw [k, h]

theorem clearRow_rowsOnly (reg row : Nat) (m : Strand) : RowsOnly m (clearRow reg row m) := rfl

theorem putRow_rowsOnly (reg row : Nat) (v : List Word32 × Bool) (m : Strand) : RowsOnly m (putRow reg row v m) := rfl

theorem appendRows_rowsOnly (per reg : Nat) (rows : List (List Word32 × Bool)) (m : Strand) : RowsOnly m (appendRows per reg rows m) :=
  foldl_keeps (RowsOnly m) _ (fun _ _ h => rowsOnly_trans h (putRow_rowsOnly ..)) _ m (rowsOnly_refl m)

theorem clearRows_rowsOnly (per lo n : Nat) (m : Strand) : RowsOnly m (clearRows per lo n m) :=
  foldl_keeps (RowsOnly m) _ (fun _ _ h => rowsOnly_trans h (clearRow_rowsOnly ..)) _ m (rowsOnly_refl m)

theorem clearRow_vregs (reg row : Nat) (m : Strand) (k : Nat) :
    tget 0 (clearRow reg row m).vregs k = if k / 1024 = reg ∧ k % 1024 / 32 = row then 0 else tget 0 m.vregs k := by
  have h := tget_filter (0 : Word32) (fun j => !(decide (j / 1024 = reg) && decide (j % 1024 / 32 = row))) m.vregs k
  refine h.trans ?_
  by_cases hk : k / 1024 = reg ∧ k % 1024 / 32 = row
  · simp [hk]
  · simp only [if_neg hk]
    rw [if_pos]
    simpa [← not_and_or] using hk

/-- A row comes into its register or above it: nothing below changes. -/
theorem putRow_below {reg row k : Nat} (v : List Word32 × Bool) (m : Strand) (h : k < reg * 1024) :
    tget 0 (putRow reg row v m).vregs k = tget 0 m.vregs k := by
  have hclear : tget 0 (clearRow reg row m).vregs k = tget 0 m.vregs k := by
    rw [clearRow_vregs, if_neg]
    rintro ⟨hk, -⟩
    omega
  refine (foldl_same (fun t => tget 0 t k) (fun t (e : Word32 × Nat) => tset 0 t (reg * 1024 + row * 32 + e.2) e.1) ?_ _ _).trans hclear
  exact fun t e => tget_tset_other 0 t _ (by omega)

theorem appendRows_below {per reg k : Nat} (rows : List (List Word32 × Bool)) (m : Strand) (h : k < reg * 1024) :
    tget 0 (appendRows per reg rows m).vregs k = tget 0 m.vregs k :=
  foldl_same (fun m : Strand => tget 0 m.vregs k) (fun m (e : (List Word32 × Bool) × Nat) => putRow (reg + e.2 / per) (e.2 % per) e.1 m)
    (fun m e => putRow_below e.1 m (Nat.lt_of_lt_of_le h (Nat.mul_le_mul_right _ (Nat.le_add_right _ _)))) rows.zipIdx m

theorem clearRows_below {per lo k : Nat} (n : Nat) (m : Strand) (h : k < lo * 1024) :
    tget 0 (clearRows per lo n m).vregs k = tget 0 m.vregs k :=
  foldl_same (fun m : Strand => tget 0 m.vregs k) (fun m i => clearRow (lo + i / per) (i % per) m)
    (fun m i => by
      rw [clearRow_vregs, if_neg]
      rintro ⟨hk, -⟩
      have := Nat.le_add_right lo (i / per)
      omega) _ m

/-- Once a place is zero, clearing rows leaves it so. -/
theorem clearRows_foldl_zero (per lo k : Nat) : ∀ (l : List Nat) (m : Strand),
    (tget 0 m.vregs k = 0 ∨ ∃ i ∈ l, k / 1024 = lo + i / per ∧ k % 1024 / 32 = i % per) →
    tget 0 (l.foldl (fun m i => clearRow (lo + i / per) (i % per) m) m).vregs k = 0
  | [], _, h => h.resolve_right fun ⟨_, hi, _⟩ => absurd hi List.not_mem_nil
  | i :: l, m, h => by
    refine clearRows_foldl_zero per lo k l _ ?_
    rw [clearRow_vregs]
    obtain h | ⟨j, hj, hk⟩ := h
    · left
      rw [h, ite_self]
    · obtain rfl | hj := List.mem_cons.mp hj
      · exact .inl (if_pos hk)
      · exact .inr ⟨j, hj, hk⟩

/-- The registers whose rows are given back read zero. -/
theorem clearRows_zero {per lo n v l : Nat} (m : Strand) (hlo : lo ≤ v) (hv : v < lo + n) (hl : l < 32 * per) (hl' : l < 1024) :
    tget 0 (clearRows per lo n m).vregs (v * 1024 + l) = 0 := by
  have hper : 0 < per := by omega
  have hrow : l / 32 < per := by omega
  refine clearRows_foldl_zero per lo _ _ m (.inr ⟨(v - lo) * per + l / 32, List.mem_range.mpr ?_, ?_, ?_⟩)
  · calc (v - lo) * per + l / 32 < (v - lo) * per + per := by omega
      _ = (v - lo + 1) * per := by ring
      _ ≤ n * per := Nat.mul_le_mul_right _ (by omega)
  · rw [Nat.add_comm ((v - lo) * per), Nat.add_mul_div_right _ _ hper, Nat.div_eq_of_lt hrow]
    omega
  · rw [Nat.add_comm ((v - lo) * per), Nat.add_mul_mod_self_right, Nat.mod_eq_of_lt hrow]
    omega

/-! ### Free rows and claims -/

/-- As many rows leave the free ones as are taken. -/
theorem pickRows_left : ∀ (n draw : Nat) (free got : List (List Word32 × Bool)), n ≤ free.length →
    (pickRows n draw free got).2.length = free.length - n
  | 0, _, _, _, _ => rfl
  | n + 1, draw, free, got, h => by
    have hi : (if free.all (· = free.headD ([], false)) then 0 else Config.rowPick draw % free.length) < free.length := by
      split
      · omega
      · exact Nat.mod_lt _ (by omega)
    rw [pickRows, pickRows_left n _ _ _ (by rw [List.length_eraseIdx_of_lt hi]; omega), List.length_eraseIdx_of_lt hi]
    omega

/-- A strand with the rows of a claim of `n` registers. -/
def Strand.claimed (per n : Nat) (rows : List (List Word32 × Bool)) (m : Strand) : Strand :=
  appendRows per m.vheld rows { m with vheld := m.vheld + n, pool := if m.viq = [] then m.pool else m.pool ++ [(true, n)] }

/-- The oldest claim takes its rows. -/
def takeRows (cid : Nat) (q : Claim) (rest : List Claim) (s : State) : State :=
  (({ s with draws := s.draws + q.need }).modCrew cid fun c => { c with
    claims := rest, freeRows := (pickRows q.need s.draws (s.crew cid).freeRows []).2 }).modStrand q.sid
    fun m => m.claimed (rowsPer (s.crew cid).decl) q.n (pickRows q.need s.draws (s.crew cid).freeRows []).1

/-- The waits that the grant of a claim ends. -/
def awaitsRows : Wait → Bool
  | .regclm _ => true
  | _ => false

theorem State.modStrand_cur {s : State} {i : Nat} (h : i = s.cur) (f : Strand → Strand) : s.modStrand i f = s.modMe f := by
  subst h
  rw [State.modStrand, State.setStrand, if_pos rfl, State.strand_cur]
  rfl

theorem State.modStrand_frame (s : State) (i : Nat) (f : Strand → Strand) :
    s.modStrand i f = { s with me := (s.modStrand i f).me, others := (s.modStrand i f).others } := setStrand_frame s i _

theorem State.crew_modStrand (s : State) (i : Nat) (f : Strand → Strand) (c : Nat) : (s.modStrand i f).crew c = s.crew c := by
  rw [State.modStrand_frame]
  rfl

theorem takeRows_cur (cid : Nat) {q : Claim} (rest : List Claim) {s : State} (h : q.sid = s.cur) : takeRows cid q rest s =
    (({ s with draws := s.draws + q.need }).modCrew cid fun c => { c with
      claims := rest, freeRows := (pickRows q.need s.draws (s.crew cid).freeRows []).2 }).modMe
      fun m => m.claimed (rowsPer (s.crew cid).decl) q.n (pickRows q.need s.draws (s.crew cid).freeRows []).1 :=
  State.modStrand_cur (s := State.modCrew { s with draws := s.draws + q.need } cid _) h _

theorem takeRows_crew (cid : Nat) (q : Claim) (rest : List Claim) (s : State) : (takeRows cid q rest s).crew cid = { s.crew cid with
    claims := rest, freeRows := (pickRows q.need s.draws (s.crew cid).freeRows []).2 } := by
  rw [takeRows, State.crew_modStrand]
  exact State.crew_modCrew _ _ _

theorem grantOne_eq {cid : Nat} {q : Claim} {rest : List Claim} {s : State} (hc : (s.crew cid).claims = q :: rest)
    (hn : q.need ≤ (s.crew cid).freeRows.length) : grantOne cid s = some (wakeComplete [q.sid] awaitsRows (takeRows cid q rest s)) := by
  have hlt : ¬ (s.crew cid).freeRows.length < q.need := Nat.not_lt.mpr hn
  simp only [grantOne, hc, hlt, if_false]
  rfl

theorem grantOne_short {cid : Nat} {q : Claim} {rest : List Claim} {s : State} (hc : (s.crew cid).claims = q :: rest)
    (hn : (s.crew cid).freeRows.length < q.need) : grantOne cid s = none := by
  simp only [grantOne, hc, hn, if_true]

/-! ### The heads -/

/-- The claim of a head. -/
def claimOf (n : Fin 128) (s : State) : Claim := { sid := s.cur, n := n.val, need := n.val * rowsPer s.myCrew.decl }

/-- A strand whose claim waits as the only one of its crew. -/
def claimWaits (n : Fin 128) (s : State) : State :=
  beginWait (.regclm n) (s.modMyCrew fun c => { c with claims := c.claims ++ [claimOf n s] })

theorem claimWaits_crew {n : Fin 128} {s : State} (hc : s.myCrew.claims = []) :
    (claimWaits n s).crew s.me.crew = { s.myCrew with claims := [claimOf n s] } := by
  have h : (s.modMyCrew fun c => { c with claims := c.claims ++ [claimOf n s] }).crew s.me.crew
      = { s.myCrew with claims := s.myCrew.claims ++ [claimOf n s] } := State.crew_modCrew _ _ _
  rw [hc] at h
  exact h

theorem exec_regclm {n : Fin 128} {s : State} (hs : s.me.onSteward = false) (hv : vown s = none) (hn : s.me.vheld + n.val ≤ 64)
    (hq : n.val * rowsPer s.myCrew.decl ≤ s.myCrew.decl.quota) :
    exec (.regclm n) s = .next (if n.val = 0 then finish s else grantClaims s.me.crew (claimWaits n s)) := by
  show execRegclm n s = _
  have h1 : ¬ s.me.vheld + n.val > 64 := Nat.not_lt.mpr hn
  have h2 : ¬ n.val * rowsPer s.myCrew.decl > s.myCrew.decl.quota := Nat.not_lt.mpr hq
  simp only [execRegclm, notOnSteward, hs, hv, h1, h2, decide_false, trapIf_false, checked_none, checked_nil]
  rfl

theorem exec_regclm_many {n : Fin 128} {s : State} (hs : s.me.onSteward = false) (hv : vown s = none) (hn : s.me.vheld + n.val > 64) :
    exec (.regclm n) s = .next (takeTrap { cause := .regQuota, detail := 1, addr := word (n.val * rowsPer s.myCrew.decl) } s) := by
  show execRegclm n s = _
  simp only [execRegclm, notOnSteward, hs, hv, hn, decide_true, trapIf_false, trapIf_true, checked_none, checked_some]

theorem exec_regclm_quota {n : Fin 128} {s : State} (hs : s.me.onSteward = false) (hv : vown s = none) (hn : s.me.vheld + n.val ≤ 64)
    (hq : n.val * rowsPer s.myCrew.decl > s.myCrew.decl.quota) :
    exec (.regclm n) s = .next (takeTrap { cause := .regQuota, detail := 2, addr := word (n.val * rowsPer s.myCrew.decl) } s) := by
  show execRegclm n s = _
  have h1 : ¬ s.me.vheld + n.val > 64 := Nat.not_lt.mpr hn
  simp only [execRegclm, notOnSteward, hs, hv, h1, hq, decide_false, decide_true, trapIf_false, trapIf_true, checked_none, checked_some]

/-! ### A claim that is granted at once -/

theorem claimed_frame (per n : Nat) (rows : List (List Word32 × Bool)) (m : Strand) : m.claimed per n rows = { m with
    vheld := m.vheld + n, vregs := (m.claimed per n rows).vregs, vpois := (m.claimed per n rows).vpois
    pool := if m.viq = [] then m.pool else m.pool ++ [(true, n)] } :=
  appendRows_rowsOnly per m.vheld rows _

theorem completeWait_me (w : Wait) (s : State) : completeWait s.cur w s =
    tick (s.me.waitFrom + (1 + s.me.waitSc w) - s.cycle) { s with me := s.me.woken } := by
  rw [completeWait_eq, State.strand_cur, State.setStrand, if_pos rfl]

theorem wakeComplete_me {f : Wait → Bool} {w : Wait} {s : State} (hw : s.me.wait = some w) (hf : f w = true) :
    wakeComplete [s.cur] f s = completeWait s.cur w s := by
  show (match (s.strand s.cur).wait with
    | some w => if f w then completeWait s.cur w s else s
    | none => s) = _
  rw [State.strand_cur, hw]
  exact if_pos hf

/-- The state of a claim that is granted at once, before its head completes. -/
def claimTakes (n : Fin 128) (s : State) : State := takeRows s.me.crew (claimOf n s) [] (claimWaits n s)

/-- The rows of a claim that is granted at once. -/
def claimRows (n : Fin 128) (s : State) : List (List Word32 × Bool) :=
  (pickRows (claimOf n s).need s.draws s.myCrew.freeRows []).1

theorem claimTakes_frame {n : Fin 128} {s : State} (hc : s.myCrew.claims = []) : ∃ cs d, claimTakes n s = { claimWaits n s with
    me := (claimWaits n s).me.claimed (rowsPer s.myCrew.decl) n.val (claimRows n s), crews := cs, draws := d } := by
  rw [claimTakes, takeRows_cur _ _ (show (claimOf n s).sid = (claimWaits n s).cur from rfl), claimWaits_crew hc]
  exact ⟨_, _, rfl⟩

theorem claimTakes_crew {n : Fin 128} {s : State} (hc : s.myCrew.claims = []) : (claimTakes n s).crew s.me.crew = { s.myCrew with
    claims := [], freeRows := (pickRows (claimOf n s).need s.draws s.myCrew.freeRows []).2 } := by
  rw [claimTakes, takeRows_crew, claimWaits_crew hc]
  rfl

/-- A claim that the free rows cover, with no claim before it, is granted at once and its head completes. -/
theorem exec_regclm_granted {n : Fin 128} {s : State} (hs : s.me.onSteward = false) (hv : vown s = none) (hn : s.me.vheld + n.val ≤ 64)
    (hq : n.val * rowsPer s.myCrew.decl ≤ s.myCrew.decl.quota) (hc : s.myCrew.claims = []) (h0 : n.val ≠ 0)
    (hf : n.val * rowsPer s.myCrew.decl ≤ s.myCrew.freeRows.length) :
    exec (.regclm n) s = .next (completeWait s.cur (.regclm n) (claimTakes n s)) := by
  have hcrew := claimWaits_crew (n := n) hc
  have hgrant : grantOne s.me.crew (claimWaits n s) = some (wakeComplete [s.cur] awaitsRows (claimTakes n s)) :=
    grantOne_eq (by rw [hcrew]) (by rw [hcrew]; exact hf)
  obtain ⟨cs, d, hframe⟩ := claimTakes_frame (n := n) hc
  have hwait : (claimTakes n s).me.wait = some (.regclm n) := by
    rw [hframe]
    show ((claimWaits n s).me.claimed _ _ _).wait = _
    rw [claimed_frame]
    rfl
  have hcur : (claimTakes n s).cur = s.cur := by rw [hframe]; rfl
  have hone : grantAll s.me.crew 1 (claimWaits n s) = wakeComplete [s.cur] awaitsRows (claimTakes n s) := by
    simp only [grantAll, hgrant]
  have hlen : ((claimWaits n s).crew s.me.crew).claims.length = 1 := by rw [hcrew]; rfl
  rw [exec_regclm hs hv hn hq, if_neg h0, grantClaims, hlen, hone, ← hcur, wakeComplete_me hwait rfl]

/-- The strand whose claim was granted. -/
theorem claimTakes_me {n : Fin 128} {s : State} (hc : s.myCrew.claims = []) :
    (claimTakes n s).me = (claimWaits n s).me.claimed (rowsPer s.myCrew.decl) n.val (claimRows n s) := by
  obtain ⟨cs, d, hframe⟩ := claimTakes_frame (n := n) hc
  rw [hframe]

theorem completeWait_own {s u : State} (hcur : u.cur = s.cur) (w : Wait) :
    ∃ c, completeWait s.cur w u = { u with me := u.me.woken, cycle := c } := by
  rw [← hcur, completeWait_me]
  exact ⟨_, rfl⟩

/-- A head that has waited completes as one that has not, with the state of its wait. -/
theorem completeWait_aged {s u : State} {w : Wait} (hcur : u.cur = s.cur) (hregs : u.me.regs = s.me.regs) (hpend : u.me.pend = s.me.pend)
    (hir : u.me.ir = s.me.ir) : AgedRegs s (completeWait s.cur w u) := by
  intro r
  have hrd : (completeWait s.cur w u).rd r = if r.val = 0 then 0 else tget 0 (u.me.age (1 + u.me.ir.sc)).regs r.val := by
    rw [← hcur, completeWait_me]
    rfl
  rw [hrd, age_regs_congr hregs hpend, hir, rd_age]

theorem completeWait_passed {s u : State} {w : Wait} (hcur : u.cur = s.cur) (hfrom : u.me.waitFrom = s.cycle)
    (hsc : u.me.waitSc w = s.me.ir.sc) : PassedHead s (completeWait s.cur w u) := by
  have h := (completeWait_cycle s.cur w u).2
  rw [← hcur, State.strand_cur, hfrom, hsc, hcur] at h
  rw [PassedHead]
  omega

/-- A strand that differs in its rows, what it holds of them and its wait alone, and whose head has completed. -/
theorem woken_waitedScalars {s u t : State} (hw : s.me.wait = none) (ht : t.me = u.me.woken)
    (hu : u.me = { s.me with
      wait := u.me.wait, waitFrom := u.me.waitFrom, waitCount := u.me.waitCount, carry := u.me.carry
      vheld := u.me.vheld, vregs := u.me.vregs, vpois := u.me.vpois, pool := u.me.pool }) :
    WaitedScalars { s with me := { s.me with vheld := t.me.vheld, vregs := t.me.vregs, vpois := t.me.vpois, pool := t.me.pool } } t := by
  obtain ⟨rs, ps, ha⟩ := u.me.age_frame (1 + u.me.ir.sc)
  rw [Strand.woken, ha, hu] at ht
  simp only [WaitedScalars, OnlyScalars, ht, hw]

theorem claimTakes_strand {n : Fin 128} {s : State} (hc : s.myCrew.claims = []) : (claimTakes n s).me = { s.me with
    wait := some (.regclm n), waitFrom := s.cycle, waitCount := (claimWaits n s).me.waitCount, carry := none
    vheld := s.me.vheld + n.val, vregs := (claimTakes n s).me.vregs, vpois := (claimTakes n s).me.vpois
    pool := if s.me.viq = [] then s.me.pool else s.me.pool ++ [(true, n.val)] } := by
  rw [claimTakes_me hc]
  exact claimed_frame _ _ _ _

theorem claimTakes_below {n : Fin 128} {s : State} (hc : s.myCrew.claims = []) {v l : Nat} (hv : v < s.me.vheld) (hl : l < 1024) :
    (claimTakes n s).me.box v l = s.me.box v l := by
  have hk : v * 1024 + l < s.me.vheld * 1024 := by omega
  rw [claimTakes_me hc]
  exact congrArg BitVec.toNat (appendRows_below (claimRows n s) _ hk)

theorem Strand.woken_frame (m : Strand) : ∃ ps, m.woken = { m with
    regs := (m.age (1 + m.ir.sc)).regs, pend := ps, wait := none, pc := nextPc m, via := {}, carry := none, failed := [] } := by
  obtain ⟨rs, ps, ha⟩ := m.age_frame (1 + m.ir.sc)
  refine ⟨ps, ?_⟩
  rw [Strand.woken, ha]

/-- What a granted claim leaves (R149). -/
def ClaimGranted (n : Fin 128) (s t : State) : Prop :=
  t.me.wait = none ∧ t.me.pc = nextPc s.me ∧ PassedHead s t ∧ t.me.vheld = s.me.vheld + n.val
  ∧ (t.crew s.me.crew).freeRows.length = s.myCrew.freeRows.length - n.val * rowsPer s.myCrew.decl
  ∧ (t.crew s.me.crew).claims = [] ∧ t.mem = s.mem
  ∧ (∀ v l, v < s.me.vheld → l < 1024 → t.me.box v l = s.me.box v l) ∧ AgedRegs s t ∧ t.me.fflags = s.me.fflags
  ∧ (s.me.viq = [] → t.me.pool = s.me.pool)
  ∧ WaitedScalars { s with me := { s.me with
      vheld := t.me.vheld, vregs := t.me.vregs, vpois := t.me.vpois, pool := t.me.pool } } t

/-- A claim of no register. -/
theorem claimGranted_none {n : Fin 128} {s : State} (hw : s.me.wait = none) (hc : s.myCrew.claims = []) (h0 : n.val = 0) :
    ClaimGranted n s (finish s) := by
  obtain ⟨rs, ps, ha⟩ := s.me.age_frame (1 + s.me.ir.sc)
  have hme : (finish s).me = { s.me with regs := rs, pend := ps, pc := nextPc s.me, via := {}, carry := none, failed := [] } := by
    rw [finish_me, ha]
  refine ⟨(finish_wait s).trans hw, rfl, passedHead_finish rfl rfl, by rw [hme, h0]; rfl, by rw [h0, Nat.zero_mul]; rfl, hc, rfl,
    fun v l _ _ => by rw [hme]; rfl, agedRegs_finish rfl rfl rfl, fflags_finish s, fun _ => by rw [hme], ?_⟩
  simp only [WaitedScalars, OnlyScalars, hme]

theorem claimGranted_takes {n : Fin 128} {s : State} (hw : s.me.wait = none) (hc : s.myCrew.claims = [])
    (hf : n.val * rowsPer s.myCrew.decl ≤ s.myCrew.freeRows.length) :
    ClaimGranted n s (completeWait s.cur (.regclm n) (claimTakes n s)) := by
  have hme := claimTakes_strand (n := n) hc
  have hcrew := claimTakes_crew (n := n) hc
  obtain ⟨cs, d, hframe⟩ := claimTakes_frame (n := n) hc
  have hcur : (claimTakes n s).cur = s.cur := by rw [hframe]; rfl
  have hmem : (claimTakes n s).mem = s.mem := by rw [hframe]; rfl
  obtain ⟨c, ht⟩ := completeWait_own hcur (.regclm n)
  obtain ⟨ps, hwoken⟩ := (claimTakes n s).me.woken_frame
  have htme : (completeWait s.cur (.regclm n) (claimTakes n s)).me = (claimTakes n s).me.woken := by rw [ht]
  have hbox (v l : Nat) : (completeWait s.cur (.regclm n) (claimTakes n s)).me.box v l = (claimTakes n s).me.box v l := by
    rw [htme, hwoken]; rfl
  have htcrew : (completeWait s.cur (.regclm n) (claimTakes n s)).crew s.me.crew = (claimTakes n s).crew s.me.crew := by rw [ht]; rfl
  refine ⟨?wait, ?pc, ?passed, ?vheld, ?free, ?claims, ?mem, fun v l hv hl => ?below, ?aged, ?flags, fun hviq => ?pool,
    woken_waitedScalars hw htme (by rw [hme])⟩
  case wait => rw [htme, hwoken]
  case pc => rw [htme, hwoken]; exact nextPc_congr (by rw [hme]) (by rw [hme])
  case passed => exact completeWait_passed hcur (by rw [hme]) (by rw [hme]; rfl)
  case vheld => rw [htme, hwoken, hme]
  case free => rw [htcrew, hcrew]; exact pickRows_left _ _ _ _ hf
  case claims => rw [htcrew, hcrew]
  case mem => rw [ht]; exact hmem
  case below => rw [hbox]; exact claimTakes_below hc hv hl
  case aged => exact completeWait_aged hcur (by rw [hme]) (by rw [hme]) (by rw [hme])
  case flags => rw [htme, hwoken, hme]
  case pool => rw [htme, hwoken, hme, if_pos hviq]

/-- A claim that the free rows do not cover waits, noted as the only one. -/
theorem exec_regclm_waits {n : Fin 128} {s : State} (hs : s.me.onSteward = false) (hv : vown s = none) (hn : s.me.vheld + n.val ≤ 64)
    (hq : n.val * rowsPer s.myCrew.decl ≤ s.myCrew.decl.quota) (hc : s.myCrew.claims = [])
    (hf : s.myCrew.freeRows.length < n.val * rowsPer s.myCrew.decl) : exec (.regclm n) s = .next (claimWaits n s) := by
  have h0 : n.val ≠ 0 := fun h => by rw [h, Nat.zero_mul] at hf; exact Nat.not_lt_zero _ hf
  have hcrew := claimWaits_crew (n := n) hc
  have hshort : grantOne s.me.crew (claimWaits n s) = none := grantOne_short (by rw [hcrew]) (by rw [hcrew]; exact hf)
  have hlen : ((claimWaits n s).crew s.me.crew).claims.length = 1 := by rw [hcrew]; rfl
  have hone : grantAll s.me.crew 1 (claimWaits n s) = claimWaits n s := by simp only [grantAll, hshort]
  rw [exec_regclm hs hv hn hq, if_neg h0, grantClaims, hlen, hone]

/-! ### A release -/

/-- The strand `m` with its `v` lowest registers, from the strand whose rows above them have gone back. -/
def Strand.holdsOnly (v n : Nat) (m : Strand) : Strand := { m with
  vheld := v, pool := if m.viq = [] || n = 0 then m.pool else m.pool ++ [(false, n)] }

/-- The strand of a release of its `n` topmost registers, before its head completes. -/
def Strand.gaveBack (per n : Nat) (m : Strand) : Strand := (clearRows per (m.vheld - n) n m).holdsOnly (m.vheld - n) n

theorem gaveBack_frame (per n : Nat) (m : Strand) : m.gaveBack per n = { m with
    vheld := m.vheld - n, vregs := (m.gaveBack per n).vregs, vpois := (m.gaveBack per n).vpois
    pool := if m.viq = [] || n = 0 then m.pool else m.pool ++ [(false, n)] } := by
  have h := clearRows_rowsOnly per (m.vheld - n) n m
  rw [Strand.gaveBack, h]
  rfl

/-- A release noted for the pool. -/
def noteFreed (s : State) : State := { s with events := s.events ++ [.rowsFreed s.me.crew] }

theorem returnRows_cur (lo n : Nat) (s : State) : ∃ cs, returnRows s.cur lo n s =
    { s with me := clearRows (rowsPer s.myCrew.decl) lo n s.me, crews := cs } := by
  have hm : s.modStrand s.cur (clearRows (rowsPer s.myCrew.decl) lo n)
      = { s with me := clearRows (rowsPer s.myCrew.decl) lo n s.me } := State.modStrand_cur rfl _
  simp only [returnRows, State.strand_cur]
  rw [← State.myCrew, hm]
  split
  · exact ⟨_, rfl⟩
  · exact ⟨_, rfl⟩

theorem exec_regrel {n : Fin 128} {s : State} (hs : s.me.onSteward = false) (hv : vown s = none) (hn : n.val ≤ s.me.vheld) :
    exec (.regrel n) s = .next (if !s.me.viq.all (·.namesAbove (s.me.vheld - n.val)) then beginWait .viq s
      else noteFreed (finish ((returnRows s.cur (s.me.vheld - n.val) n.val s).modMe (·.holdsOnly (s.me.vheld - n.val) n.val)))) := by
  show execRegrel n s = _
  have h1 : ¬ n.val > s.me.vheld := Nat.not_lt.mpr hn
  rw [execRegrel, notOnSteward, hs, hv, trapIf_false, checked_none, checked_none, decide_eq_false h1, trapIf_false, checked_none,
    checked_nil]
  rfl

theorem exec_regrel_issues {n : Fin 128} {s : State} (hs : s.me.onSteward = false) (hv : vown s = none) (hn : n.val ≤ s.me.vheld)
    (hq : s.me.viq.all (·.namesAbove (s.me.vheld - n.val)) = true) : ∃ cs, exec (.regrel n) s =
    .next (noteFreed (finish { s with me := s.me.gaveBack (rowsPer s.myCrew.decl) n.val, crews := cs })) := by
  obtain ⟨cs, h⟩ := returnRows_cur (s.me.vheld - n.val) n.val s
  exact ⟨cs, by rw [exec_regrel hs hv hn, hq, h]; rfl⟩

theorem exec_regrel_waits {n : Fin 128} {s : State} (hs : s.me.onSteward = false) (hv : vown s = none) (hn : n.val ≤ s.me.vheld)
    (hq : s.me.viq.all (·.namesAbove (s.me.vheld - n.val)) = false) : exec (.regrel n) s = .next (beginWait .viq s) := by
  rw [exec_regrel hs hv hn, hq]
  rfl

theorem exec_regrel_more {n : Fin 128} {s : State} (hs : s.me.onSteward = false) (hv : vown s = none) (hn : s.me.vheld < n.val) :
    exec (.regrel n) s = .next (takeTrap { cause := .regQuota, detail := 3, addr := word (n.val * rowsPer s.myCrew.decl) } s) := by
  show execRegrel n s = _
  rw [execRegrel, notOnSteward, hs, hv, trapIf_false, checked_none, checked_none, decide_eq_true hn, trapIf_true, checked_some]

/-- What a release leaves (R150). -/
def Released (n : Fin 128) (s t : State) : Prop :=
  t.me.vheld = s.me.vheld - n.val ∧ t.me.pc = nextPc s.me ∧ PassedHead s t
  ∧ (∀ v l, v < s.me.vheld - n.val → l < 1024 → t.me.box v l = s.me.box v l)
  ∧ (∀ v l, s.me.vheld - n.val ≤ v → v < s.me.vheld → l < 32 * rowsPer s.myCrew.decl → l < 1024 → t.me.box v l = 0)
  ∧ t.events = s.events ++ [.rowsFreed s.me.crew] ∧ t.mem = s.mem ∧ AgedRegs s t ∧ t.me.fflags = s.me.fflags
  ∧ (s.me.viq = [] → t.me.pool = s.me.pool)
  ∧ OnlyScalars { s with me := { s.me with
      vheld := t.me.vheld, vregs := t.me.vregs, vpois := t.me.vpois, pool := t.me.pool } } t

theorem gaveBack_below {per n v l : Nat} (m : Strand) (hv : v < m.vheld - n) (hl : l < 1024) :
    (m.gaveBack per n).box v l = m.box v l :=
  congrArg BitVec.toNat (clearRows_below n m (by omega))

theorem gaveBack_zero {per n v l : Nat} (m : Strand) (hn : n ≤ m.vheld) (hlo : m.vheld - n ≤ v) (hv : v < m.vheld) (hl : l < 32 * per)
    (hl' : l < 1024) : (m.gaveBack per n).box v l = 0 :=
  congrArg BitVec.toNat (clearRows_zero m hlo (by omega) hl hl')

theorem released_finish {n : Fin 128} {s : State} (hn : n.val ≤ s.me.vheld) (cs : Tab Crew) :
    Released n s (noteFreed (finish { s with me := s.me.gaveBack (rowsPer s.myCrew.decl) n.val, crews := cs })) := by
  have hm := gaveBack_frame (rowsPer s.myCrew.decl) n.val s.me
  have hbelow (v l : Nat) := gaveBack_below (per := rowsPer s.myCrew.decl) (n := n.val) (v := v) (l := l) s.me
  have hzero (v l : Nat) := gaveBack_zero (per := rowsPer s.myCrew.decl) (v := v) (l := l) s.me hn
  generalize s.me.gaveBack (rowsPer s.myCrew.decl) n.val = m at hm hbelow hzero
  obtain ⟨rs, ps, ha⟩ := m.age_frame (1 + m.ir.sc)
  have hme : (noteFreed (finish { s with me := m, crews := cs })).me
      = { m with regs := rs, pend := ps, pc := nextPc m, via := {}, carry := none, failed := [] } := by
    show (finish { s with me := m, crews := cs }).me = _
    rw [finish_me, ha]
  have hev : (noteFreed (finish { s with me := m, crews := cs })).events = s.events ++ [.rowsFreed m.crew] := by
    show s.events ++ [.rowsFreed (noteFreed (finish { s with me := m, crews := cs })).me.crew] = _
    rw [hme]
  have haged : AgedRegs s (finish { s with me := m, crews := cs }) := agedRegs_finish (by rw [hm]) (by rw [hm]) (by rw [hm])
  have hpassed : PassedHead s (finish { s with me := m, crews := cs }) := passedHead_finish rfl (by rw [hm])
  refine ⟨?vheld, ?pc, hpassed, fun v l hv hl => ?below, fun v l hlo hv hl hl' => ?zero, ?events, rfl, haged, ?flags, fun hq => ?pool,
    ?frame⟩
  case vheld => rw [hme, hm]
  case pc => rw [hme]; exact nextPc_congr (by rw [hm]) (by rw [hm])
  case below => rw [hme]; exact hbelow v l hv hl
  case zero => rw [hme]; exact hzero v l hlo hv hl hl'
  case events => rw [hev, hm]
  case flags => rw [hme, hm]
  case pool => rw [hme, hm, hq]; rfl
  case frame => rw [OnlyScalars, hme, hm]

/-- Settles O15: a claim is granted, waits or traps as the counts say; a release gives its topmost rows back, waits or traps. -/
theorem registerPool : Obligations.RegisterPool := by
  unfold Obligations.RegisterPool
  intro n s hs hv hw
  refine ⟨fun hn hq hc => ⟨fun hf => ?granted, fun hf => ?waits⟩, fun hn hh => ⟨_, exec_regclm_many hs hv hn, takes_takeTrap hh _⟩,
    fun hn hq hh => ⟨_, exec_regclm_quota hs hv hn hq, takes_takeTrap hh _⟩,
    fun hn => ⟨fun hq => ?released, fun hq => ⟨_, exec_regrel_waits hs hv hn hq, waits_beginWait _ s, onlyMe_beginWait _ s⟩⟩,
    fun hn hh => ⟨_, exec_regrel_more hs hv hn, takes_takeTrap hh _⟩⟩
  case granted =>
    by_cases h0 : n.val = 0
    · exact ⟨finish s, by rw [exec_regclm hs hv hn hq, if_pos h0], claimGranted_none hw hc h0⟩
    · exact ⟨_, exec_regclm_granted hs hv hn hq hc h0 hf, claimGranted_takes hw hc hf⟩
  case waits => exact ⟨_, exec_regclm_waits hs hv hn hq hc hf, rfl, by rw [claimWaits_crew hc]; rfl, rfl⟩
  case released =>
    obtain ⟨cs, hexec⟩ := exec_regrel_issues hs hv hn hq
    exact ⟨_, hexec, released_finish hn cs⟩

end Sys2Proof.Machine
end

section
/-! SUPPORT. Work queries and device-side launches (R152, R154, R347, R351): O16. -/

namespace Sys2Proof.Machine
open Sys2Proof

/-! ### Heads that complete from a state with the same strand but for its links -/

/-- `v` is at the same cycle as `s`, and its strand differs in its links alone. -/
def LinksOnly (s v : State) : Prop := v.me = { s.me with links := v.me.links } ∧ v.cycle = s.cycle

theorem HomeOnly.linksOnly {s t : State} (h : HomeOnly s t) : LinksOnly s t := by
  obtain ⟨p, rfl⟩ := h
  exact ⟨rfl, rfl⟩

theorem linksOnly_trans {s t u : State} (h : LinksOnly s t) (k : LinksOnly t u) : LinksOnly s u := by
  obtain ⟨hm, hc⟩ := h
  obtain ⟨km, kc⟩ := k
  exact ⟨by rw [km, hm], kc.trans hc⟩

theorem touch_linksOnly (k : Nat) (s : State) : LinksOnly s (touch k s) := by
  obtain ⟨st, vs, ev, h⟩ := touch_frame k s
  rw [h]
  exact ⟨rfl, rfl⟩

theorem LinksOnly.rd {s v : State} (h : LinksOnly s v) (r : SReg) : v.rd r = s.rd r := by
  obtain ⟨hm, -⟩ := h
  rw [State.rd, hm]
  rfl

/-- A head that answers `c` in `d` and completes, from the state in which it found the answer. -/
def Answers (s : State) (d : SReg) (t : State) (c : Word) : Prop := t.rd d = (if d = 0 then 0 else c) ∧ t.me.pc = nextPc s.me
  ∧ PassedHead s t ∧ OtherRegs s t d (1 + s.me.ir.sc) ∧ ScalarsAndLinks s t ∧ t.me.fflags = s.me.fflags

theorem LinksOnly.answers {s v : State} (h : LinksOnly s v) (d : SReg) (c : Word) : Answers s d (finish (v.wr d c)) c := by
  obtain ⟨hm, hc⟩ := h
  have hir : v.me.ir = s.me.ir := by rw [hm]
  have hother : OtherRegs s (finish (v.wr d c)) d (1 + s.me.ir.sc) := by
    intro r hr
    have hv := otherRegs_finish_wr v d c r hr
    rw [rd_age, hir] at hv
    rw [hv, rd_age, age_regs_congr (m := s.me) (n := v.me) (by rw [hm]) (by rw [hm])]
  have hscal : ScalarsAndLinks s (finish (v.wr d c)) := by
    obtain ⟨rs, ps, sp, hw⟩ := v.me.wr_frame d c
    obtain ⟨rs', ps', ha⟩ := Strand.age_frame { v.me with regs := rs, pend := ps, spois := sp } (1 + v.me.ir.sc)
    have hfin : (finish (v.wr d c)).me = { v.me with
        regs := rs', pend := ps', spois := sp, pc := (finish (v.wr d c)).me.pc, via := {}, carry := none, failed := [] } := by
      simp only [finish_me, State.wr_me, hw, ha]
    rw [ScalarsAndLinks, OnlyScalars, hfin, hm]
  refine ⟨finish_wr_rd v d c, ?pc, ?passed, hother, hscal, ?flags⟩
  case pc => rw [pc_finish_wr, nextPc_congr (m := s.me) (n := v.me) (by rw [hm]) (by rw [hm])]
  case passed =>
    have := passed_finish_wr v d c
    rwa [PassedHead, hc, hir] at this
  case flags => rw [fflags_finish_wr, hm]

/-! ### Work queries -/

theorem State.myCrew_modMyCrew (s : State) (f : Crew → Crew) : (s.modMyCrew f).myCrew = f s.myCrew :=
  State.crew_modCrew s s.me.crew f

/-- A strand's query posted with its crew and sent to the Factor. -/
def asked (o : Nat) (s : State) : State :=
  let s := s.modMyCrew fun c => { c with queries := c.queries ++ [⟨s.cur, o, none⟩] }
  s.modGrid s.myCrew.grid fun g => { g with asks := g.asks ++ [(s.cycle + factorCycles s.me.core, s.cur)] }

theorem wqryHead_go {a : SReg} {imm : Imm} {s : State} (hs : s.me.onSteward = false) (hr : Readable s [a])
    (hal : (s.ea a imm).toNat % 16 = 0) (hin : (s.ea a imm).toNat + 16 ≤ s.myCrew.decl.spbytes)
    (hq : (s.myCrew.queries.filter (·.sid = s.cur)).length < 2) : wqryHead a imm s = finish (asked (s.ea a imm).toNat s) := by
  have h1 : ¬ (s.ea a imm).toNat % 16 ≠ 0 := not_not_intro hal
  have h2 : ¬ (s.ea a imm).toNat + 16 > s.myCrew.decl.spbytes := Nat.not_lt.mpr hin
  have h3 : ¬ (s.myCrew.queries.filter (·.sid = s.cur)).length ≥ 2 := Nat.not_le.mpr hq
  rw [wqryHead, notOnSteward, hs, trapIf_false, checked_none, stallShort_readable s _ hr, checked_none, scalarPoison_readable s _ hr,
    checked_none, decide_eq_false h1, trapIf_false, checked_none, decide_eq_false h2, trapIf_false, checked_none, checked_nil, if_neg h3]
  rfl

theorem asked_crew (o : Nat) (s : State) :
    (asked o s).crew s.me.crew = { s.myCrew with queries := s.myCrew.queries ++ [⟨s.cur, o, none⟩] } :=
  State.myCrew_modMyCrew s fun c => { c with queries := c.queries ++ [⟨s.cur, o, none⟩] }

theorem asked_grid (o : Nat) (s : State) : (asked o s).grid s.myCrew.grid =
    { s.myGrid with asks := s.myGrid.asks ++ [(s.cycle + factorCycles s.me.core, s.cur)] } := by
  rw [asked]
  dsimp only
  rw [State.myCrew_modMyCrew, State.grid_modGrid]
  rfl

/-! ### Launches -/

theorem touch_view (k : Nat) (s : State) (core x : Nat) : (touch k s).view core x = s.view core x := by
  obtain ⟨st, vs, ev, h⟩ := touch_frame k s
  exact view_congr (by rw [h]) (by rw [h]) (by rw [h]) (by rw [h]) (by rw [h]) core x

/-- A release at device scope, with nothing of the core's that awaits another device, performs the core's stores and goes on. -/
theorem release_device_go {f : State → State} {s : State}
    (h : ∀ x ∈ (drainCore s.me.core s).rstores, x.core ≠ s.me.core) : release .device f s = f (drainCore s.me.core s) := by
  have hme : (drainCore s.me.core s).me.core = s.me.core := by
    obtain ⟨p, hp⟩ := drainCore_homeOnly s.me.core s
    rw [hp]
    rfl
  have hany : ((drainCore s.me.core s).rstores.any fun x => decide (x.core = (drainCore s.me.core s).me.core)) = false :=
    List.any_eq_false.mpr fun x hx => by rw [hme]; simpa using h x hx
  simp only [release, wideScope, domainScope, hany]
  rfl

/-- What decides the answer of a launch, once its record is read (R154). -/
def launchAnswer (d : SReg) (n : Nat) (bytes : List Byte) (s : State) : State :=
  let q := s.queue n
  if !(n < 512 && q.dev && q.en && q.vf = s.ctx.vf && q.part = s.ctx.part) then finish (s.wr d 2)
  else if postCheck (parseRec bytes) ≠ 0 then finish (s.wr d 3)
  else if queueFull q then finish (s.wr d 1)
  else
    match translate s { s.ctx with app := false } .wr (slotAddr q q.widx.toNat) with
    | .ok (.cell kq) => finish ((postRecord n kq bytes (touch kq s)).wr d 0)
    | .ok p => takeTrap (slotRefused p (slotAddr q q.widx.toNat)) s
    | .fault c r x => takeTrap (xlTrap c r (faultDetail false 0 true) (x.getD (slotAddr q q.widx.toNat))) s
    | .stall2 ipa => stallS2 ipa 1 (word (slotAddr q q.widx.toNat)) false s
    | .stallPri iova => stallPri iova (word (slotAddr q q.widx.toNat)) true false s

theorem launchHead_go {d a b : SReg} {imm : Imm} {s : State} {k : Nat} (hs : s.me.onSteward = false) (hr : Readable s [a, b])
    (hal : (s.ea a imm).toNat % 128 = 0) (hk : translate s s.ctx .rd (s.ea a imm).toNat = .ok (.cell k))
    (hst : ∀ x ∈ (drainCore s.me.core s).rstores, x.core ≠ s.me.core) (hlost : lostDevice (drainCore s.me.core s) k = none)
    (hpois : (drainCore s.me.core s).poisonedFor s.me.core k 128 = false) :
    launchHead d a b imm s = launchAnswer d (s.rd b).toNat ((drainCore s.me.core s).viewBytes s.me.core k 128)
      (touch k (drainCore s.me.core s)) := by
  have h1 : ¬ (s.ea a imm).toNat % 128 ≠ 0 := not_not_intro hal
  have hlinks := linksOnly_trans (drainCore_homeOnly s.me.core s).linksOnly (touch_linksOnly k _)
  have hcore : (drainCore s.me.core s).me.core = s.me.core := by rw [(drainCore_homeOnly s.me.core s).linksOnly.1]
  have hcore' : (touch k (drainCore s.me.core s)).me.core = s.me.core := by rw [hlinks.1]
  rw [launchHead, notOnSteward, hs, trapIf_false, checked_none, stallShort_readable s _ hr, checked_none, scalarPoison_readable s _ hr,
    checked_none, decide_eq_false h1, trapIf_false, checked_none, checked_nil, launchBody, hk]
  dsimp only
  rw [release_device_go hst, launchRecord, hlost]
  dsimp only
  rw [hcore, hpois, if_neg Bool.false_ne_true, hcore', hlinks.rd, viewBytes_congr (touch_view k _ s.me.core)]
  rfl

/-- The state of a post (R347): the record's bytes are at the slot, and every other byte is as it was. -/
theorem postRecord_home {q kq : Nat} {bytes : List Byte} {s : State} (hl : lostTier2 s kq = false) (hb : bytes.length = 128) (x : Nat) :
    (postRecord q kq bytes s).home x = if kq ≤ x ∧ x < kq + 128 then bytes.getD (x - kq) 0 else s.home x := by
  have hmem : (postRecord q kq bytes s).mem = putBytes s.mem kq bytes := by
    show (homeWrite none none kq bytes s).mem = _
    rw [homeWrite_mem, hl, hb]
    rfl
  rw [State.home, hmem, tget_putBytes, hb]
  rfl

theorem postRecord_queue (q kq : Nat) (bytes : List Byte) (s : State) :
    ((postRecord q kq bytes s).queue q).widx = (s.queue q).widx + 1 := by
  obtain ⟨p, hp⟩ := homeWrite_homeOnly none none kq bytes s
  rw [postRecord, hp, State.queue_modQueue]
  rfl

theorem postRecord_linksOnly (q kq : Nat) (bytes : List Byte) (s : State) : LinksOnly s (postRecord q kq bytes s) := by
  obtain ⟨p, hp⟩ := homeWrite_homeOnly none none kq bytes s
  rw [postRecord, hp]
  exact ⟨rfl, rfl⟩

theorem touch_home (k : Nat) (s : State) (x : Nat) : (touch k s).home x = s.home x := by
  obtain ⟨st, vs, ev, h⟩ := touch_frame k s
  rw [h]
  rfl

theorem touch_lostTier2 (k kq : Nat) (s : State) : lostTier2 (touch k s) kq = lostTier2 s kq := by
  obtain ⟨st, vs, ev, h⟩ := touch_frame k s
  rw [h]
  rfl

theorem touch_queue (k : Nat) (s : State) (n : Nat) : (touch k s).queue n = s.queue n := by
  obtain ⟨st, vs, ev, h⟩ := touch_frame k s
  rw [h]
  rfl

/-- The context of an access and the queues are those from before the release and the touch. -/
theorem drained_ctx (k : Nat) (s : State) : (touch k (drainCore s.me.core s)).ctx = s.ctx := by
  obtain ⟨p, hp⟩ := drainCore_homeOnly s.me.core s
  obtain ⟨st, vs, ev, h⟩ := touch_frame k (drainCore s.me.core s)
  rw [h, hp]
  rfl

theorem drained_queue (k : Nat) (s : State) (n : Nat) : (touch k (drainCore s.me.core s)).queue n = s.queue n := by
  obtain ⟨p, hp⟩ := drainCore_homeOnly s.me.core s
  rw [touch_queue, hp]
  rfl

section
variable {d : SReg} {n : Nat} {bytes : List Byte} {s : State}

theorem launchAnswer_closed (h : ¬ (n < 512 ∧ (s.queue n).dev = true ∧ (s.queue n).en = true ∧ (s.queue n).vf = s.ctx.vf
    ∧ (s.queue n).part = s.ctx.part)) : launchAnswer d n bytes s = finish (s.wr d 2) := by
  rw [launchAnswer]
  exact if_pos (by rw [Bool.not_eq_true', Bool.eq_false_iff]; simpa [and_assoc] using h)

variable (h : n < 512 ∧ (s.queue n).dev = true ∧ (s.queue n).en = true ∧ (s.queue n).vf = s.ctx.vf ∧ (s.queue n).part = s.ctx.part)
include h

theorem launchAnswer_bad (hc : postCheck (parseRec bytes) ≠ 0) : launchAnswer d n bytes s = finish (s.wr d 3) := by
  simp [launchAnswer, h, hc]

theorem launchAnswer_full (hc : postCheck (parseRec bytes) = 0) (hf : queueFull (s.queue n) = true) :
    launchAnswer d n bytes s = finish (s.wr d 1) := by
  simp [launchAnswer, h, hc, hf]

theorem launchAnswer_posts {kq : Nat} (hc : postCheck (parseRec bytes) = 0) (hf : queueFull (s.queue n) = false)
    (hk : translate s { s.ctx with app := false } .wr (slotAddr (s.queue n) (s.queue n).widx.toNat) = .ok (.cell kq)) :
    launchAnswer d n bytes s = finish ((postRecord n kq bytes (touch kq s)).wr d 0) := by
  simp [launchAnswer, h, hc, hf, hk]

end

/-- Settles O16: a query is noted and sent; a launch answers in the order of R351, and with 0 posts the record. -/
theorem queryAndLaunch : Obligations.QueryAndLaunch := by
  unfold Obligations.QueryAndLaunch
  refine ⟨fun i a imm s hi hs hr hal hin hq => ?query, fun i d a b imm s k hi hs hr hal hk hst hlost hpois => ?launch⟩
  case query =>
    have hexec : exec i s = .next (finish (asked (s.ea a imm).toNat s)) := by
      rw [← wqryHead_go hs hr hal hin hq]
      obtain ⟨rfl, rfl⟩ | rfl := hi
      · rfl
      · rfl
    exact ⟨_, hexec, rfl, passedHead_finish rfl rfl, congrArg Crew.queries (asked_crew _ s), congrArg Grid.asks (asked_grid _ s), rfl,
      onlyScalars_finish (asked _ s), agedRegs_finish rfl rfl rfl, fflags_finish (asked _ s)⟩
  case launch =>
    have hexec : exec i s = .next (launchHead d a b imm s) := by
      obtain ⟨rfl, rfl⟩ | rfl := hi
      · rfl
      · rfl
    have hlinks := linksOnly_trans (drainCore_homeOnly s.me.core s).linksOnly (touch_linksOnly k _)
    have hctx : (touch k (drainCore s.me.core s)).ctx = s.ctx := drained_ctx k s
    have hqueue : (touch k (drainCore s.me.core s)).queue (s.rd b).toNat = s.queue (s.rd b).toNat := drained_queue k s _
    have hhome (x : Nat) : (touch k (drainCore s.me.core s)).home x = (drainCore s.me.core s).home x := touch_home k _ x
    rw [launchHead_go hs hr hal hk hst hlost hpois] at hexec
    dsimp only
    generalize touch k (drainCore s.me.core s) = v at *
    have hturned (c : Word) : Answers s d (finish (v.wr d c)) c ∧ OnlyMe v (finish (v.wr d c))
        ∧ ∀ x, (finish (v.wr d c)).home x = (drainCore s.me.core s).home x :=
      ⟨hlinks.answers d c, (onlyMe_wr v d c).finish, hhome⟩
    simp only [← hqueue, ← hctx]
    refine ⟨fun h => ?closed, fun h hc => ?bad, fun h hc hf => ?full, fun kq h hc hf hl hkq => ?posts⟩
    case closed => exact ⟨_, by rw [hexec, launchAnswer_closed h], hturned 2⟩
    case bad => exact ⟨_, by rw [hexec, launchAnswer_bad h hc], hturned 3⟩
    case full => exact ⟨_, by rw [hexec, launchAnswer_full h hc hf], hturned 1⟩
    case posts =>
      have hpost := postRecord_home (q := (s.rd b).toNat) (kq := kq) (s := touch kq v) (by rw [touch_lostTier2, hl])
        (length_viewBytes (drainCore s.me.core s) s.me.core k 128)
      refine ⟨_, by rw [hexec, launchAnswer_posts h hc hf hkq],
        (linksOnly_trans hlinks (linksOnly_trans (touch_linksOnly kq v) (postRecord_linksOnly _ _ _ _))).answers d 0, ?_,
        fun j hj => ?_, fun x hx => ?_⟩
      · rw [← touch_queue kq v]
        exact postRecord_queue _ _ _ _
      · refine (hpost (kq + j)).trans ?_
        rw [if_pos ⟨by omega, by omega⟩, Nat.add_sub_cancel_left]
      · refine (hpost x).trans ?_
        rw [if_neg (by omega), touch_home, hhome]

end Sys2Proof.Machine
end

section
/-! SUPPORT. Barriers of bands and of grids (R146, R148): O14. -/

namespace Sys2Proof.Machine
open Sys2Proof

/-! ### Stores performed at their home: strands lose links alone -/

/-- No strand has changed but in its links, and no store waits that did not. -/
structure LinksCut (s t : State) : Prop where
  cur : t.cur = s.cur
  strands : ∀ i, ∃ l, t.strand i = { s.strand i with links := l }
  buf : t.sbuf = s.sbuf

theorem linksCut_of_same {s t : State} (hc : t.cur = s.cur) (hm : t.me = s.me) (ho : t.others = s.others) (hb : t.sbuf = s.sbuf) :
    LinksCut s t := ⟨hc, fun i => ⟨(s.strand i).links, by rw [State.strand, State.strand, hc, hm, ho]⟩, hb⟩

theorem linksCut_trans {s t u : State} (h : LinksCut s t) (k : LinksCut t u) : LinksCut s u where
  cur := k.cur.trans h.cur
  strands i := by
    obtain ⟨l, hl⟩ := h.strands i
    obtain ⟨l', hl'⟩ := k.strands i
    exact ⟨l', by rw [hl', hl]⟩
  buf := k.buf.trans h.buf

theorem linksCut_foldl {β : Type} (f : State → β → State) (hf : ∀ s b, LinksCut s (f s b)) (l : List β) (s : State) :
    LinksCut s (l.foldl f s) :=
  foldl_keeps (LinksCut s) f (fun t b h => linksCut_trans h (hf t b)) l s (linksCut_of_same rfl rfl rfl rfl)

theorem tget_map {α : Type} (d : α) (f : Nat → α → α) (hf : ∀ k, f k d = d) (k : Nat) :
    ∀ t : Tab α, tget d (t.map fun e => (e.1, f e.1 e.2)) k = f k (tget d t k)
  | [] => (hf k).symm
  | (j, v) :: t => by
    rw [List.map_cons, tget, tget, tget_map d f hf k t]
    split
    · next h => subst h; rfl
    · rfl

/-- A strand with its links to the lines cut. -/
def cutLinks (lines : List Nat) (keep : Option Nat) (sid : Nat) (m : Strand) : Strand :=
  if keep = some sid || m.links = [] then m else { m with links := m.links.filter (· ∉ lines) }

theorem breakLinks_strand (lines : List Nat) (keep : Option Nat) (s : State) (i : Nat) :
    (breakLinks lines keep s).strand i = cutLinks lines keep i (s.strand i) := by
  by_cases h : i = s.cur
  · subst h
    rw [State.strand, State.strand, if_pos rfl]
    exact if_pos rfl
  · rw [State.strand, State.strand, if_neg h]
    refine (if_neg h).trans (tget_map {} (cutLinks lines keep) (fun k => ?_) i s.others)
    simp [cutLinks]

theorem breakLinks_linksCut (lines : List Nat) (keep : Option Nat) (s : State) : LinksCut s (breakLinks lines keep s) where
  cur := rfl
  strands i := by
    rw [breakLinks_strand, cutLinks]
    split
    · exact ⟨_, rfl⟩
    · exact ⟨_, rfl⟩
  buf := rfl

theorem homeWrite_linksCut (core keep : Option Nat) (k : Nat) (bs : List Byte) (s : State) : LinksCut s (homeWrite core keep k bs s) := by
  unfold homeWrite
  dsimp only
  split
  · exact linksCut_of_same rfl rfl rfl rfl
  · refine linksCut_trans ?_ (breakLinks_linksCut _ keep _)
    obtain ⟨l, h⟩ := noteStash_frame true k bs.length s
    rw [h]
    exact linksCut_of_same rfl rfl rfl rfl

theorem performRemote_linksCut (f : RemoteStore → Bool) (s : State) : LinksCut s (performRemote f s) :=
  linksCut_trans (t := { s with rstores := (s.rstores.partition f).2 }) (linksCut_of_same rfl rfl rfl rfl)
    (linksCut_foldl _ (fun t (r : RemoteStore) => homeWrite_linksCut (some r.core) none r.key r.bytes t) _ _)

theorem performStore_linksCut (p : PStore) (s : State) : LinksCut s (performStore p s) := by
  unfold performStore
  split
  · exact linksCut_of_same rfl rfl rfl rfl
  · exact linksCut_trans (performRemote_linksCut _ s) (homeWrite_linksCut _ _ _ _ _)

/-- A core's stores are performed: strands lose links alone, and none of the core's stores waits in a buffer. -/
theorem drainCore_linksCut (core : Nat) (s : State) : (∀ i, ∃ l, (drainCore core s).strand i = { s.strand i with links := l })
    ∧ ∀ p ∈ (drainCore core s).sbuf, p.core ≠ core := by
  unfold drainCore
  split
  · next h => exact ⟨fun i => ⟨_, rfl⟩, fun p hp => by rw [h] at hp; cases hp⟩
  · have hfold := linksCut_foldl (fun s p => performStore p s) (fun t p => performStore_linksCut p t)
      (s.sbuf.partition fun p => decide (p.core = core)).1 { s with sbuf := (s.sbuf.partition fun p => decide (p.core = core)).2 }
    refine ⟨hfold.strands, fun p hp => ?_⟩
    have hb := hfold.buf
    rw [List.partition_eq_filter_filter] at hb
    rw [drainWhere, List.partition_eq_filter_filter] at hp
    dsimp only at hp hb
    rw [hb] at hp
    simpa using (List.mem_filter.mp hp).2

/-! ### Heads that wait, and complete with the wait -/

/-- The strand of a head that began to wait in this cycle. -/
def WaitState (s : State) (m : Strand) : Prop := m = { s.me with
  links := m.links, wait := m.wait, waitFrom := s.cycle, waitCount := m.waitCount, carry := m.carry }

/-- Of such a strand, once its wait is over (R95). -/
theorem woken_waitState {s t : State} {m : Strand} (ht : t.me = m.woken) (hm : WaitState s m) :
    t.me.wait = none ∧ t.me.pc = nextPc s.me ∧ AgedRegs s t ∧ t.me.fflags = s.me.fflags ∧ t.me.links = m.links := by
  obtain ⟨ps, hw⟩ := m.woken_frame
  rw [WaitState] at hm
  refine ⟨by rw [ht, hw], ?pc, fun r => ?aged, by rw [ht, hw, hm], by rw [ht, hw]⟩
  case pc => rw [ht, hw]; exact nextPc_congr (by rw [hm]) (by rw [hm])
  case aged =>
    have hir : m.ir = s.me.ir := by rw [hm]
    rw [rd_age, ← age_regs_congr (m := s.me) (n := m) (by rw [hm]) (by rw [hm]), ← hir, State.rd, ht, hw]

theorem woken_waitState_scalars {s t : State} {m : Strand} (hw : s.me.wait = none) (ht : t.me = m.woken) (hm : WaitState s m) :
    WaitedScalars { s with me := { s.me with links := t.me.links } } t := by
  obtain ⟨ps, hwok⟩ := m.woken_frame
  rw [WaitState] at hm
  rw [hwok, hm] at ht
  simp only [WaitedScalars, OnlyScalars, ht, hw]

/-! ### Bands -/

/-- What the settlement of other bands leaves of band `b` and of the current strand. -/
structure BandKept (cid b : Nat) (s t : State) : Prop where
  settled : BandsSettled cid s t
  me : t.me = s.me
  arrived : tget 0 (t.crew cid).arrived b = tget 0 (s.crew cid).arrived b

theorem bandKept_refl (cid b : Nat) (s : State) : BandKept cid b s s := ⟨bandsSettled_refl cid s, rfl, rfl⟩

theorem bandKept_trans {cid b : Nat} {s t u : State} (h : BandKept cid b s t) (k : BandKept cid b t u) : BandKept cid b s u :=
  ⟨bandsSettled_trans h.settled k.settled, k.me.trans h.me, k.arrived.trans h.arrived⟩

theorem endPhase_crew (cid c : Nat) (s : State) :
    (endPhase cid c s).crew cid = { s.crew cid with arrived := tset 0 (s.crew cid).arrived c 0 } := by
  have h := woken_trans (wakeComplete_woken (s.crew cid).sids (· = Wait.bsync c)
    (s.modCrew cid fun x => { x with arrived := tset 0 x.arrived c 0 })) (wakeIdle_woken cid _)
  exact (h.crew cid).trans (State.crew_modCrew s cid fun x => { x with arrived := tset 0 x.arrived c 0 })

/-- A strand that waits for no `idle` and not for band `c` is as it was after the end of band `c`'s phase. -/
theorem endPhase_strand (cid : Nat) {c i : Nat} {s : State} (hc : (s.strand i).wait ≠ some (.bsync c))
    (hi : ∀ d, (s.strand i).wait ≠ some (.idle d)) : (endPhase cid c s).strand i = s.strand i := by
  have hw : (s.strand i).waitsAs (· = Wait.bsync c) = false := by
    rw [Strand.waitsAs, Option.any_eq_false]
    exact fun w hw => decide_eq_false fun h => hc (by rw [hw, h])
  have hone := wakeComplete_other (f := (· = Wait.bsync c)) (s.crew cid).sids
    (s := s.modCrew cid fun x => { x with arrived := tset 0 x.arrived c 0 }) hw
  exact (wakeIdle_other (by rw [hone]; exact hi)).trans hone

theorem settleBand_kept {cid b c : Nat} {s : State} (hc : c ≠ b) (hw : s.me.wait = none ∨ s.me.wait = some (.bsync b)) :
    BandKept cid b s (settleBand cid s c) := by
  have hwait : (s.strand s.cur).wait ≠ some (.bsync c) ∧ ∀ d, (s.strand s.cur).wait ≠ some (.idle d) := by
    rw [State.strand_cur]
    obtain h | h := hw
    · rw [h]
      exact ⟨nofun, nofun⟩
    · rw [h]
      exact ⟨fun e => hc (Wait.bsync.inj (Option.some.inj e)).symm, nofun⟩
  unfold settleBand
  split
  · have hset := endPhase_settled cid c s
    refine ⟨hset, ?_, ?_⟩
    · have := endPhase_strand cid hwait.1 hwait.2
      rwa [← hset.cur, State.strand_cur, hset.cur, State.strand_cur] at this
    · rw [endPhase_crew]
      exact tget_tset_other 0 _ 0 (Ne.symm hc)
  · exact bandKept_refl cid b s

theorem settleBand_foldl_kept {cid b : Nat} : ∀ (l : List Nat) (s : State), b ∉ l → (s.me.wait = none ∨ s.me.wait = some (.bsync b)) →
    BandKept cid b s (l.foldl (settleBand cid) s)
  | [], s, _, _ => bandKept_refl cid b s
  | c :: l, s, hb, hw => by
    have hc : c ≠ b := fun h => hb (h ▸ List.mem_cons_self)
    have hone := settleBand_kept (cid := cid) hc hw
    exact bandKept_trans hone (settleBand_foldl_kept l _ (fun h => hb (List.mem_cons_of_mem _ h)) (by rw [hone.me]; exact hw))

theorem bandMet_congr {cid b : Nat} {s t : State} (h : BandKept cid b s t) : bandMet cid b t = bandMet cid b s := by
  obtain ⟨a, ha⟩ := h.settled.own
  have hrun : (fun e : Nat × Nat => running t e.1) = fun e => running s e.1 := funext fun e => running_congr h.settled.run e.1
  have harr := h.arrived
  simp only [bandMet, harr, hrun]
  rw [ha]
  rfl

theorem membersOf_all {c : Crew} {set : Nat} {p q : Nat × Nat → Bool} : (((membersOf c set).filter p).all q = true) ↔
    ∀ j, ∀ h : j < c.sids.length, set.testBit j = true → p (c.sids[j], j) = true → q (c.sids[j], j) = true := by
  rw [membersOf, List.filter_filter, List.all_filter, List.all_eq_true]
  constructor
  · intro h j hj hset hp
    have := h (c.sids[j], j) (List.mem_zipIdx_iff_getElem?.mpr (by simp [hj]))
    simpa [hset, hp] using this
  · rintro h ⟨x, j⟩ hx
    have hx : c.sids[j]? = some x := List.mem_zipIdx_iff_getElem?.mp hx
    obtain ⟨hj, rfl⟩ := List.getElem?_eq_some_iff.mp hx
    by_cases hset : set.testBit j = true <;> by_cases hp : p (c.sids[j], j) = true <;> simp [hset, hp]
    exact h j hj hset hp

/-- The strand of index `i` has arrived, and nobody else anew. -/
theorem getLsbD_or_bitAt (v : Word32) {i : Nat} (hi : i < 32) (j : Nat) : (v ||| bitAt i).getLsbD j = (v.getLsbD j || decide (j = i)) := by
  rw [BitVec.getLsbD_or, bitAt, BitVec.getLsbD_ofNat, Nat.testBit_two_pow]
  by_cases h : j = i
  · subst h
    simp [hi]
  · simp [h, Ne.symm h]

/-- A strand that has arrived at a band and waits. -/
def bandWaits (b : Fin 16) (s : State) : State := beginWait (.bsync b) (arriveBand b s)

theorem bandWaits_crew (b : Fin 16) (s : State) : (bandWaits b s).crew s.me.crew = { s.myCrew with
    arrived := tset 0 s.myCrew.arrived b (tget 0 s.myCrew.arrived b ||| bitAt s.me.index) } :=
  State.crew_modCrew s s.me.crew fun c => { c with arrived := tset 0 c.arrived b (tget 0 c.arrived b ||| bitAt s.me.index) }

theorem bandWaits_running (b : Fin 16) (s : State) (i : Nat) : running (bandWaits b s) i = running s i := by
  have h : ((bandWaits b s).strand i).run = (s.strand i).run := by
    unfold State.strand
    show (if i = s.cur then (bandWaits b s).me else tget {} s.others i).run = _
    split
    · rfl
    · rfl
  simp only [running, h]

/-- The other members of a band that have not halted, as the obligation lists them (R146). -/
def othersOf (b : Fin 16) (s : State) : List Nat :=
  (List.range s.myCrew.sids.length).filter fun j =>
    j ≠ s.me.index && (tget 0 s.myCrew.bands b).getLsbD j && running s (s.myCrew.sids.getD j 0)

/-- The phase ends with the strand's arrival just where every other member that has not halted has arrived. -/
theorem bandMet_bandWaits {b : Fin 16} {s : State} (hi : s.me.index < 32) : bandMet s.me.crew b (bandWaits b s)
    = (othersOf b s).all fun j => (tget 0 s.myCrew.arrived b).getLsbD j := by
  have hrun : (fun e : Nat × Nat => running (bandWaits b s) e.1) = fun e => running s e.1 := funext fun e => bandWaits_running b s e.1
  have harr : tget 0 ((bandWaits b s).crew s.me.crew).arrived b = tget 0 s.myCrew.arrived b ||| bitAt s.me.index := by
    rw [bandWaits_crew]
    exact tget_tset_same 0 _ _ _
  have hne : (tget 0 s.myCrew.arrived b ||| bitAt s.me.index).toNat ≠ 0 := fun h => by
    have := getLsbD_or_bitAt (tget 0 s.myCrew.arrived b) hi s.me.index
    rw [(toNat_eq_zero_iff _).mp h] at this
    simp at this
  have hbit (j : Nat) : (tget 0 s.myCrew.arrived b ||| bitAt s.me.index).toNat.testBit j
      = ((tget 0 s.myCrew.arrived b).getLsbD j || decide (j = s.me.index)) := getLsbD_or_bitAt _ hi j
  rw [bandMet, harr, hrun, bandWaits_crew, decide_eq_true hne, Bool.true_and, Bool.eq_iff_iff]
  refine membersOf_all.trans ?_
  simp only [hbit]
  rw [othersOf, List.all_filter, List.all_eq_true]
  refine ⟨fun h j hj => ?_, fun h j hj hset hr => ?_⟩
  · have hj := List.mem_range.mp hj
    rw [List.getD_eq_getElem _ _ hj, Bool.or_eq_true, Bool.not_eq_true', Bool.eq_false_iff, ← imp_iff_not_or]
    intro hmem
    obtain ⟨⟨hne, hset⟩, hr⟩ := by simpa using hmem
    simpa [hne] using h j hj hset hr
  · have hget := h j (List.mem_range.mpr hj)
    have hset : (tget 0 s.myCrew.bands b).getLsbD j = true := hset
    have hr : running s s.myCrew.sids[j] = true := hr
    rw [List.getD_eq_getElem _ _ hj, hset, hr] at hget
    by_cases hji : j = s.me.index
    · simp [hji]
    · simpa [hji] using hget

theorem exec_bsync {b : Fin 16} {s : State} (hs : s.me.onSteward = false) (hset : (tget 0 s.myCrew.bands b).getLsbD s.me.index = true) :
    exec (.bsync b) s = .next (settleBands s.me.crew (bandWaits b s)) := by
  have hband : (s.band b).getLsbD s.me.index = true := hset
  show execBsync b s = _
  rw [execBsync, notOnSteward, hs, hband]
  rfl

theorem exec_bsync_outside {b : Fin 16} {s : State} (hs : s.me.onSteward = false)
    (hset : (tget 0 s.myCrew.bands b).getLsbD s.me.index = false) :
    exec (.bsync b) s = .next (takeTrap { cause := .illegalInsn, detail := 6 } s) := by
  have hband : (s.band b).getLsbD s.me.index = false := hset
  show execBsync b s = _
  rw [execBsync, notOnSteward, hs, hband]
  rfl

/-- The bands are settled in turn: some before band `b`, band `b`, and the others. -/
theorem settleBands_split (cid : Nat) {b : Nat} (hb : b < 16) (s : State) : ∃ l r : List Nat, b ∉ l ∧ b ∉ r ∧
    settleBands cid s = r.foldl (settleBand cid) (settleBand cid (l.foldl (settleBand cid) s) b) := by
  obtain ⟨l, r, hrange⟩ := List.append_of_mem (List.mem_range.mpr hb)
  have hnodup := List.nodup_range (n := 16)
  rw [hrange] at hnodup
  have hnot : b ∉ l ++ r := (List.nodup_cons.mp (List.nodup_middle.mp hnodup)).1
  exact ⟨l, r, fun h => hnot (List.mem_append_left r h), fun h => hnot (List.mem_append_right l h), by rw [settleBands_eq, hrange, List.foldl_append, List.foldl_cons]⟩

/-- Where others are still missing, the settlement leaves the strand waiting with its arrival noted. -/
theorem settleBands_unmet {cid : Nat} {b : Nat} (hb : b < 16) {s : State} (hw : s.me.wait = some (.bsync b)) (hm : bandMet cid b s = false) :
    BandKept cid b s (settleBands cid s) := by
  obtain ⟨l, r, hl, hr, hsplit⟩ := settleBands_split cid hb s
  have hbefore := settleBand_foldl_kept (cid := cid) (b := b) l s hl (.inr hw)
  have hband : settleBand cid (l.foldl (settleBand cid) s) b = l.foldl (settleBand cid) s :=
    if_neg (by rw [bandMet_congr hbefore, hm]; exact Bool.false_ne_true)
  rw [hsplit, hband]
  exact bandKept_trans hbefore (settleBand_foldl_kept r _ hr (.inr (by rw [hbefore.me]; exact hw)))

/-- The end of its phase lets the strand go on. -/
theorem endPhase_me {cid : Nat} {b : Nat} {s : State} (hw : s.me.wait = some (.bsync b)) (hin : s.cur ∈ (s.crew cid).sids) :
    (endPhase cid b s).me = s.me.woken ∧ s.me.waitFrom + (1 + s.me.ir.sc) ≤ (endPhase cid b s).cycle := by
  have hset := endPhase_settled cid b s
  have hstrand : (s.modCrew cid fun x => { x with arrived := tset 0 x.arrived b 0 }).strand s.cur = s.me := State.strand_cur s
  have hwake := wakeComplete_strand (· = Wait.bsync b) s.cur (s.crew cid).sids
    (s.modCrew cid fun x => { x with arrived := tset 0 x.arrived b 0 })
  have hcyc := wakeComplete_cycle (f := (· = Wait.bsync b)) (s.crew cid).sids
    (s.modCrew cid fun x => { x with arrived := tset 0 x.arrived b 0 }) hin (by rw [hstrand, hw]) (decide_eq_true rfl)
  rw [hstrand, if_pos ⟨hin, by simp [Strand.waitsAs, hw]⟩] at hwake
  rw [hstrand] at hcyc
  have hidle := wakeIdle_woken cid (wakeComplete (s.crew cid).sids (· = Wait.bsync b)
    (s.modCrew cid fun x => { x with arrived := tset 0 x.arrived b 0 }))
  refine ⟨?_, Nat.le_trans hcyc hidle.later⟩
  have hme : (endPhase cid b s).strand s.cur = s.me.woken := (hidle.idle s.cur (by rw [hwake]; rfl)).trans hwake
  rwa [← hset.cur, State.strand_cur] at hme

theorem settleBands_met {cid : Nat} {b : Nat} (hb : b < 16) {s : State} (hw : s.me.wait = some (.bsync b)) (hm : bandMet cid b s = true)
    (hin : s.cur ∈ (s.crew cid).sids) : (settleBands cid s).me = s.me.woken ∧ tget 0 ((settleBands cid s).crew cid).arrived b = 0
    ∧ s.me.waitFrom + (1 + s.me.ir.sc) ≤ (settleBands cid s).cycle := by
  obtain ⟨l, r, hl, hr, hsplit⟩ := settleBands_split cid hb s
  have hbefore := settleBand_foldl_kept (cid := cid) (b := b) l s hl (.inr hw)
  have hband : settleBand cid (l.foldl (settleBand cid) s) b = endPhase cid b (l.foldl (settleBand cid) s) :=
    if_pos (by rw [bandMet_congr hbefore, hm])
  rw [hsplit, hband]
  generalize l.foldl (settleBand cid) s = u at hbefore
  obtain ⟨a, ha⟩ := hbefore.settled.own
  obtain ⟨hme, hcyc⟩ := endPhase_me (cid := cid) (b := b) (s := u) (by rw [hbefore.me]; exact hw)
    (by rw [hbefore.settled.cur, ha]; exact hin)
  have harr : tget 0 ((endPhase cid b u).crew cid).arrived b = 0 := by
    rw [endPhase_crew]
    exact tget_tset_same 0 _ b 0
  have hafter := settleBand_foldl_kept (cid := cid) (b := b) r (endPhase cid b u) hr (.inl (by rw [hme]; rfl))
  rw [hbefore.me] at hme hcyc
  exact ⟨hafter.me.trans hme, hafter.arrived.trans harr, Nat.le_trans hcyc hafter.settled.later⟩

/-! ### The barrier of a grid -/

/-- The crews of a grid that have not ended. -/
def liveCrews (g : Nat) (s : State) : List (Nat × Crew) := s.crews.filter fun e => e.2.grid = g && e.2.state ≠ .ended

/-- Whether every strand of a grid that has not halted has arrived, and some strand has (R148). -/
def gbarMet (g : Nat) (s : State) : Bool :=
  (s.grid g).arrived ≠ [] && (s.grid g).dispatched = (s.grid g).lrec.crews
    && (((liveCrews g s).flatMap fun e => e.2.sids).filter (running s)).all (· ∈ (s.grid g).arrived)

/-- The lines of the arrived strands' cores are dropped, and the arrivals are taken back. -/
def gbarOpens (g : Nat) (s : State) : State :=
  (s.grid g).arrived.foldl (fun t i => dropLines (t.strand i).core t) (s.modGrid g fun x => { x with arrived := [] })

/-- The strands that arrived go on, and those of the grid's crews that idle. -/
def gbarWakes (arrived : List Nat) (crews : List (Nat × Crew)) (s : State) : State :=
  crews.foldl (fun s e => wakeIdle e.1 s) (wakeComplete arrived (· = .gbar) s)

theorem settleGbar_eq (g : Nat) (s : State) : settleGbar g s =
    if gbarMet g s then gbarWakes (s.grid g).arrived (liveCrews g s) (gbarOpens g s) else s := rfl

theorem gbarWakes_woken (arrived : List Nat) (crews : List (Nat × Crew)) (s : State) : Woken s (gbarWakes arrived crews s) :=
  woken_trans (wakeComplete_woken _ _ s) (woken_foldl _ (fun t (e : Nat × Crew) => wakeIdle_woken e.1 t) _ _)

/-- The current strand, which waits for its grid, goes on when it has arrived. -/
theorem gbarWakes_me {arrived : List Nat} {s : State} (crews : List (Nat × Crew)) (hw : s.me.wait = some .gbar) (hin : s.cur ∈ arrived) :
    (gbarWakes arrived crews s).me = s.me.woken ∧ s.me.waitFrom + (1 + s.me.ir.sc) ≤ (gbarWakes arrived crews s).cycle := by
  have hall := gbarWakes_woken arrived crews s
  have hidle : Woken (wakeComplete arrived (· = .gbar) s) (gbarWakes arrived crews s) :=
    woken_foldl _ (fun t (e : Nat × Crew) => wakeIdle_woken e.1 t) _ _
  have hwake := wakeComplete_strand (· = Wait.gbar) s.cur arrived s
  have hcyc := wakeComplete_cycle (f := (· = Wait.gbar)) arrived s hin (by rw [State.strand_cur, hw]) (decide_eq_true rfl)
  rw [State.strand_cur, if_pos ⟨hin, by simp [Strand.waitsAs, hw]⟩] at hwake
  rw [State.strand_cur] at hcyc
  refine ⟨?_, Nat.le_trans hcyc hidle.later⟩
  have hme : (gbarWakes arrived crews s).strand s.cur = s.me.woken := (hidle.idle s.cur (by rw [hwake]; rfl)).trans hwake
  rwa [← hall.cur, State.strand_cur] at hme

/-- The lines of each listed strand's core are dropped, and nothing else differs. -/
theorem dropLines_foldl (l : List Nat) (s : State) : ∃ l1, l.foldl (fun t i => dropLines (t.strand i).core t) s = { s with l1 := l1 }
    ∧ (∀ x ∈ l1, x ∈ s.l1) ∧ ∀ i ∈ l, ∀ x ∈ l1, x.core ≠ (s.strand i).core := by
  induction l generalizing s with
  | nil => exact ⟨s.l1, rfl, fun _ h => h, nofun⟩
  | cons j l ih =>
    obtain ⟨l1, hfold, hsub, hcores⟩ := ih (dropLines (s.strand j).core s)
    refine ⟨l1, hfold, fun x hx => (List.mem_filter.mp (hsub x hx)).1, fun i hi x hx => ?_⟩
    obtain rfl | hi := List.mem_cons.mp hi
    · exact dropLines_core x (hsub x hx)
    · exact hcores i hi x hx

theorem gbarOpens_frame (g : Nat) (s : State) : ∃ l1, gbarOpens g s = { s.modGrid g (fun x => { x with arrived := [] }) with l1 := l1 }
    ∧ ∀ i ∈ (s.grid g).arrived, ∀ x ∈ l1, x.core ≠ (s.strand i).core := by
  obtain ⟨l1, hfold, -, hcores⟩ := dropLines_foldl (s.grid g).arrived (s.modGrid g fun x => { x with arrived := [] })
  exact ⟨l1, hfold, hcores⟩

/-- A strand that has arrived at its grid's barrier, its core's stores performed, and waits. -/
def gbarWaits (s : State) : State :=
  let u := drainCore s.me.core s
  beginWait .gbar (u.modGrid u.myCrew.grid fun g => { g with arrived := addOnce g.arrived u.cur })

/-- What is left of a state by an arrival at its grid's barrier. -/
structure ArrivedAtGbar (s w : State) (p : HomePart) : Prop where
  frame : w = { s.withHome p with me := w.me, cycle := w.cycle, grids := w.grids }
  me : WaitState s w.me
  wait : w.me.wait = some .gbar
  carry : w.me.carry = none
  grid : w.grid s.myCrew.grid = { s.myGrid with arrived := addOnce s.myGrid.arrived s.cur }

theorem gbarWaits_arrived (s : State) : ∃ p, drainCore s.me.core s = s.withHome p ∧ ArrivedAtGbar s (gbarWaits s) p := by
  obtain ⟨p, hp⟩ := drainCore_homeOnly s.me.core s
  refine ⟨p, hp, ?_⟩
  rw [gbarWaits, hp]
  exact ⟨rfl, rfl, rfl, rfl, State.grid_modGrid (s.withHome p) s.myCrew.grid fun g => { g with arrived := addOnce g.arrived s.cur }⟩

theorem gbarWaits_running (s : State) (i : Nat) : running (gbarWaits s) i = running s i := by
  obtain ⟨hcut, -⟩ := drainCore_linksCut s.me.core s
  obtain ⟨l, hl⟩ := hcut i
  have h : ((gbarWaits s).strand i).run = ((drainCore s.me.core s).strand i).run := by
    unfold State.strand
    show (if i = (drainCore s.me.core s).cur then (gbarWaits s).me else tget {} (drainCore s.me.core s).others i).run = _
    split
    · rfl
    · rfl
  simp only [running, h, hl]

theorem liveCrews_all {g : Nat} {s : State} {r p : Nat → Bool} : ((((liveCrews g s).flatMap fun e => e.2.sids).filter r).all p = true) ↔
    ∀ e ∈ s.crews, e.2.grid = g → e.2.state ≠ .ended → ∀ sid ∈ e.2.sids, r sid = true → p sid = true := by
  simp only [List.all_eq_true, List.mem_filter, List.mem_flatMap, liveCrews, Bool.and_eq_true, decide_eq_true_iff]
  exact ⟨fun h e he hg hst sid hsid hr => h sid ⟨⟨e, ⟨he, hg, hst⟩, hsid⟩, hr⟩,
    fun h sid ⟨⟨e, ⟨he, hg, hst⟩, hsid⟩, hr⟩ => h e he hg hst sid hsid hr⟩

/-- The barrier opens with the strand's arrival just where every strand of the grid that has not halted has arrived, and its crews are
all dispatched. -/
theorem gbarMet_gbarWaits (s : State) : gbarMet s.myCrew.grid (gbarWaits s) = true ↔
    s.myGrid.dispatched = s.myGrid.lrec.crews ∧ ∀ e ∈ s.crews, e.2.grid = s.myCrew.grid → e.2.state ≠ .ended →
      ∀ sid ∈ e.2.sids, running s sid = true → sid = s.cur ∨ sid ∈ s.myGrid.arrived := by
  obtain ⟨p, -, h⟩ := gbarWaits_arrived s
  have hcrews : (gbarWaits s).crews = s.crews := by rw [h.frame]; rfl
  have hrun : running (gbarWaits s) = running s := funext (gbarWaits_running s)
  have hne : addOnce s.myGrid.arrived s.cur ≠ [] := List.ne_nil_of_mem ((mem_addOnce _ _ _).mpr (.inl rfl))
  have hlive : liveCrews s.myCrew.grid (gbarWaits s) = liveCrews s.myCrew.grid s := by rw [liveCrews, hcrews, liveCrews]
  rw [gbarMet, h.grid, hlive, hrun, decide_eq_true hne, Bool.true_and, Bool.and_eq_true, decide_eq_true_iff, liveCrews_all]
  simp only [decide_eq_true_iff, mem_addOnce]

theorem exec_gbar {s : State} (hs : s.me.onSteward = false) (hc : s.myGrid.lrec.cores = true)
    (h : ∀ x ∈ (drainCore s.me.core s).rstores, x.core ≠ s.me.core) :
    exec .gbar s = .next (settleGbar s.myCrew.grid (gbarWaits s)) := by
  have hg : (gbarWaits s).myCrew.grid = s.myCrew.grid := by
    obtain ⟨p, -, ha⟩ := gbarWaits_arrived s
    have hcrew : (gbarWaits s).me.crew = s.me.crew := by rw [ha.me]
    rw [State.myCrew, hcrew, ha.frame]
    rfl
  show execGbar s = _
  rw [execGbar, notOnSteward, hs, hc, trapIf_false, checked_none, Bool.not_true, trapIf_false, checked_none, checked_nil,
    release_device_go h, ← hg]
  rfl

theorem exec_gbar_acks {s : State} (hs : s.me.onSteward = false) (hc : s.myGrid.lrec.cores = true)
    (h : ∃ x ∈ (drainCore s.me.core s).rstores, x.core = s.me.core) :
    exec .gbar s = .next (beginWait .acks (drainCore s.me.core s)) := by
  obtain ⟨x, hx, hxc⟩ := h
  have hme : (drainCore s.me.core s).me.core = s.me.core := by rw [(drainCore_homeOnly s.me.core s).linksOnly.1]
  have hany : ((drainCore s.me.core s).rstores.any fun x => decide (x.core = (drainCore s.me.core s).me.core)) = true :=
    List.any_eq_true.mpr ⟨x, hx, by rw [hme]; exact decide_eq_true hxc⟩
  show execGbar s = _
  rw [execGbar, notOnSteward, hs, hc, trapIf_false, checked_none, Bool.not_true, trapIf_false, checked_none, checked_nil]
  simp only [release, wideScope, domainScope, hany]
  rfl

theorem exec_gbar_illegal {s : State} (hs : s.me.onSteward = false) (hc : s.myGrid.lrec.cores = false) :
    exec .gbar s = .next (takeTrap { cause := .gbarIllegal } s) := by
  show execGbar s = _
  rw [execGbar, notOnSteward, hs, hc, trapIf_false, checked_none, Bool.not_false, trapIf_true, checked_some]

theorem waits_of_waitState {s t : State} {w : Wait} (hm : WaitState s t.me) (hw : t.me.wait = some w)
    (hc : t.me.carry = if w.blocking then none else s.me.carry) : Waits { s with me := { s.me with links := t.me.links } } t w := by
  rw [WaitState, hw, hc] at hm
  exact hm

/-- The barrier of the grid is open: its arrivals are taken back, the strand has gone on, and no line of its core is older. -/
theorem settleGbar_opens {s : State} (hm : gbarMet s.myCrew.grid (gbarWaits s) = true) :
    (settleGbar s.myCrew.grid (gbarWaits s)).me = (gbarWaits s).me.woken
    ∧ (gbarWaits s).me.waitFrom + (1 + (gbarWaits s).me.ir.sc) ≤ (settleGbar s.myCrew.grid (gbarWaits s)).cycle
    ∧ ((settleGbar s.myCrew.grid (gbarWaits s)).grid s.myCrew.grid).arrived = []
    ∧ (∀ l ∈ (settleGbar s.myCrew.grid (gbarWaits s)).l1, l.core ≠ s.me.core)
    ∧ (settleGbar s.myCrew.grid (gbarWaits s)).sbuf = (drainCore s.me.core s).sbuf
    ∧ (settleGbar s.myCrew.grid (gbarWaits s)).mem = (drainCore s.me.core s).mem := by
  obtain ⟨p, hp, ha⟩ := gbarWaits_arrived s
  obtain ⟨l1, hopen, hl1⟩ := gbarOpens_frame s.myCrew.grid (gbarWaits s)
  have hcur : (gbarWaits s).cur = s.cur := by rw [ha.frame]; rfl
  have hcore : (gbarWaits s).me.core = s.me.core := by rw [ha.me]
  have hin : s.cur ∈ ((gbarWaits s).grid s.myCrew.grid).arrived := by
    rw [ha.grid]
    exact (mem_addOnce _ _ _).mpr (.inl rfl)
  have hsbuf : (gbarWaits s).sbuf = (drainCore s.me.core s).sbuf := by rw [ha.frame, hp]
  have hmem : (gbarWaits s).mem = (drainCore s.me.core s).mem := by rw [ha.frame, hp]
  rw [settleGbar_eq, hm, if_pos rfl, hopen]
  have hwoken := gbarWakes_woken ((gbarWaits s).grid s.myCrew.grid).arrived (liveCrews s.myCrew.grid (gbarWaits s))
    { (gbarWaits s).modGrid s.myCrew.grid (fun x => { x with arrived := [] }) with l1 := l1 }
  obtain ⟨hme, hcyc⟩ := gbarWakes_me (arrived := ((gbarWaits s).grid s.myCrew.grid).arrived)
    (s := { (gbarWaits s).modGrid s.myCrew.grid (fun x => { x with arrived := [] }) with l1 := l1 })
    (liveCrews s.myCrew.grid (gbarWaits s)) ha.wait (by rw [← hcur] at hin; exact hin)
  refine ⟨hme, hcyc, ?grid, ?l1, ?sbuf, ?mem⟩
  case grid =>
    rw [hwoken.frame]
    exact congrArg Grid.arrived (State.grid_modGrid (gbarWaits s) s.myCrew.grid fun x => { x with arrived := [] })
  case l1 =>
    rw [hwoken.frame]
    intro l hl
    have := hl1 s.cur hin l hl
    rwa [← hcur, State.strand_cur, hcore] at this
  case sbuf => rw [hwoken.frame]; exact hsbuf
  case mem => rw [hwoken.frame]; exact hmem

/-- Settles O14: `settleBands` and `settleGbar` let the strand go on just where `bandMet` or `gbarMet` holds of its arrival. -/
theorem barriers : Obligations.Barriers := by
  unfold Obligations.Barriers
  intro s hs hrun hw
  refine ⟨fun b hi hsid => ⟨fun hset => ⟨fun hall => ?met, fun hany => ?unmet⟩, fun hset hh => ⟨_, exec_bsync_outside hs hset, takes_takeTrap hh _⟩⟩,
    fun hc => ⟨fun hst => ⟨fun hdone => ?opens, fun hdone => ?closed⟩, fun hst => ?acks⟩, fun hc hh => ⟨_, exec_gbar_illegal hs hc, takes_takeTrap hh _⟩⟩
  case met =>
    have hm : bandMet s.me.crew b (bandWaits b s) = true := (bandMet_bandWaits hi).trans hall
    have hin : (bandWaits b s).cur ∈ ((bandWaits b s).crew s.me.crew).sids := by
      rw [bandWaits_crew]
      exact List.mem_of_getElem? hsid
    obtain ⟨hme, harr, hcyc⟩ := settleBands_met b.isLt (show (bandWaits b s).me.wait = some (.bsync b) from rfl) hm hin
    have hws : WaitState s (bandWaits b s).me := rfl
    have hmem := (settleBands_settled s.me.crew (bandWaits b s)).mem
    have hexec := exec_bsync (b := b) hs hset
    generalize settleBands s.me.crew (bandWaits b s) = t at *
    obtain ⟨hwait, hpc, haged, hflags, hlinks⟩ := woken_waitState hme hws
    have hscal := woken_waitState_scalars hw hme hws
    rw [hlinks] at hscal
    exact ⟨t, hexec, hwait, hpc, by rw [PassedHead, Nat.add_assoc]; exact hcyc, harr, hmem, hscal, haged, hflags⟩
  case unmet =>
    have hm : bandMet s.me.crew b (bandWaits b s) = false := by
      obtain ⟨j, hj, harr⟩ := List.any_eq_true.mp hany
      rw [bandMet_bandWaits hi]
      exact List.all_eq_false.mpr ⟨j, hj, by simpa using harr⟩
    have hkept := settleBands_unmet b.isLt (show (bandWaits b s).me.wait = some (.bsync b) from rfl) hm
    have hexec := exec_bsync (b := b) hs hset
    generalize settleBands s.me.crew (bandWaits b s) = t at *
    refine ⟨t, hexec, ?_, ?_, hkept.settled.mem⟩
    · rw [Waits, hkept.me]
      rfl
    · rw [hkept.arrived, bandWaits_crew]
      show (tget 0 (tset 0 s.myCrew.arrived b _) b).getLsbD _ = true
      rw [tget_tset_same, getLsbD_or_bitAt _ hi]
      simp
  case opens =>
    obtain ⟨p, hp, ha⟩ := gbarWaits_arrived s
    obtain ⟨hme, hcyc, hgrid, hl1, hsbuf, hmem⟩ := settleGbar_opens ((gbarMet_gbarWaits s).mpr hdone)
    have hexec := exec_gbar hs hc hst
    have hfrom : (gbarWaits s).me.waitFrom = s.cycle := by rw [ha.me]
    have hir : (gbarWaits s).me.ir = s.me.ir := by rw [ha.me]
    rw [hfrom, hir] at hcyc
    generalize settleGbar s.myCrew.grid (gbarWaits s) = t at *
    obtain ⟨hwait, hpc, haged, hflags, -⟩ := woken_waitState hme ha.me
    exact ⟨t, hexec, hwait, hpc, by rw [PassedHead, Nat.add_assoc]; exact hcyc, hgrid, woken_waitState_scalars hw hme ha.me, haged, hflags,
      hl1, by rw [hsbuf]; exact (drainCore_linksCut _ s).2, hmem⟩
  case closed =>
    obtain ⟨p, hp, ha⟩ := gbarWaits_arrived s
    have hshut : settleGbar s.myCrew.grid (gbarWaits s) = gbarWaits s := by
      rw [settleGbar_eq, if_neg fun h => hdone ((gbarMet_gbarWaits s).mp h)]
    refine ⟨_, exec_gbar hs hc hst, ?_⟩
    rw [hshut]
    refine ⟨waits_of_waitState ha.me ha.wait ha.carry, ?_, ?_, ?_⟩
    · rw [ha.grid]
      exact (mem_addOnce _ _ _).mpr (.inl rfl)
    · rw [ha.frame]
      have := (drainCore_linksCut s.me.core s).2
      rwa [hp] at this
    · rw [ha.frame, hp]
  case acks =>
    have hexec := exec_gbar_acks hs hc hst
    obtain ⟨p, hp⟩ := drainCore_homeOnly s.me.core s
    refine ⟨_, hexec, ?_, rfl⟩
    rw [hp]
    rfl

end Sys2Proof.Machine
end

section
/-! SUPPORT. Events of the register pool: claims granted, released rows, and the deadlock (R149 to R151, R273); the first clauses of O49. -/

namespace Sys2Proof.Machine
open Sys2Proof

theorem State.strand_modStrand (s : State) (i : Nat) (f : Strand → Strand) (j : Nat) :
    (s.modStrand i f).strand j = if j = i then f (s.strand i) else s.strand j := State.strand_setStrand s i j _

/-! ### A claim is granted (R149) -/

theorem takeRows_strand (cid : Nat) (q : Claim) (rest : List Claim) (s : State) : (takeRows cid q rest s).strand q.sid =
    (s.strand q.sid).claimed (rowsPer (s.crew cid).decl) q.n (pickRows q.need s.draws (s.crew cid).freeRows []).1 := by
  rw [takeRows, State.strand_modStrand, if_pos rfl]
  rfl

theorem regclmGrant_event {cid : Nat} {q : Claim} {rest : List Claim} {n : Nat} {s : State} (hin : s.input = some (.regclmGrant cid))
    (hc : (s.crew cid).claims = q :: rest) (hn : q.need ≤ (s.crew cid).freeRows.length) (hw : (s.strand q.sid).wait = some (.regclm n)) :
    ∃ t, exec .regclmGrant s = .next t ∧ (t.crew cid).claims = rest
      ∧ (t.crew cid).freeRows.length = (s.crew cid).freeRows.length - q.need ∧ (t.strand q.sid).wait = none
      ∧ (t.strand q.sid).vheld = (s.strand q.sid).vheld + q.n ∧ (t.strand q.sid).pc = nextPc (s.strand q.sid) := by
  have hm := claimed_frame (rowsPer (s.crew cid).decl) q.n (pickRows q.need s.draws (s.crew cid).freeRows []).1 (s.strand q.sid)
  have hstrand := takeRows_strand cid q rest s
  have hwoken := wakeComplete_woken [q.sid] awaitsRows (takeRows cid q rest s)
  have hwake := wakeComplete_strand awaitsRows q.sid [q.sid] (takeRows cid q rest s)
  have hexec : exec .regclmGrant s = .next (wakeComplete [q.sid] awaitsRows (takeRows cid q rest s)) := by
    show execRegclmGrant s = _
    rw [execRegclmGrant, hin]
    dsimp only
    rw [grantOne_eq hc hn]
    rfl
  rw [hstrand] at hwake
  generalize (s.strand q.sid).claimed _ _ _ = m at *
  obtain ⟨ps, hf⟩ := m.woken_frame
  rw [if_pos ⟨List.mem_singleton_self _, by rw [Strand.waitsAs, hm, hw]; rfl⟩, hf] at hwake
  refine ⟨_, hexec, ?_, ?_, ?_, ?_, ?_⟩
  · rw [hwoken.crew, takeRows_crew]
  · rw [hwoken.crew, takeRows_crew]
    exact pickRows_left _ _ _ _ hn
  · rw [hwake]
  · rw [hwake, hm]
  · rw [hwake]
    exact nextPc_congr (by rw [hm]) (by rw [hm])

/-! ### Released rows become free (R150) -/

theorem released_of_empty {m : Strand} (h : m.viq = []) (left : Nat) : m.released left = true := by
  unfold Strand.released
  dsimp only
  split
  · rw [h]
    rfl
  · rfl

/-- Where no queue holds an older instruction, every returning row becomes free. -/
theorem freeReturned_all {s : State} : ∀ l : List (Nat × List (List Word32 × Bool)), (∀ e ∈ l, (s.strand e.1).viq = []) →
    freeReturned s l = ([], l.flatMap (·.2))
  | [], _ => rfl
  | e :: l, h => by
    rw [freeReturned, freeReturned_all l fun e he => h e (List.mem_cons_of_mem _ he)]
    exact if_pos (released_of_empty (h e List.mem_cons_self) _)

theorem grantClaims_none {cid : Nat} {s : State} (h : (s.crew cid).claims = []) : grantClaims cid s = s := by
  rw [grantClaims, h]
  rfl

/-- Where no claim waits, the rows that become free stay free. -/
theorem freeRows_crew {cid : Nat} {s : State} (hc : (s.crew cid).claims = [])
    (hq : ∀ e ∈ (s.crew cid).returning, (s.strand e.1).viq = []) : (freeRows cid s).crew cid =
    { s.crew cid with returning := [], freeRows := (s.crew cid).freeRows ++ (s.crew cid).returning.flatMap (·.2) } := by
  unfold freeRows
  dsimp only
  rw [freeReturned_all _ hq]
  split
  · next h =>
    have h : [] = (s.crew cid).returning := h
    revert h
    generalize s.crew cid = c
    intro h
    obtain ⟨⟩ := c
    subst h
    simp
  · rw [grantClaims_none, (wakeIdle_woken cid _).crew, State.crew_modCrew]
    rw [State.crew_modCrew]
    exact hc

theorem rowsFreed_event {cid : Nat} {s : State} (hin : s.input = some (.rowsFreed cid)) (hc : (s.crew cid).claims = [])
    (hq : ∀ e ∈ (s.crew cid).returning, (s.strand e.1).viq = []) : ∃ t, exec .rowsFreed s = .next t ∧ (t.crew cid).returning = []
      ∧ (t.crew cid).freeRows = (s.crew cid).freeRows ++ (s.crew cid).returning.flatMap (·.2) := by
  have hcrew := freeRows_crew hc hq
  have hexec : exec .rowsFreed s = .next (freeRows cid s) := by
    show execRowsFreed s = _
    rw [execRowsFreed, hin]
  exact ⟨_, hexec, by rw [hcrew], by rw [hcrew]⟩

/-! ### The deadlock of claims (R151) -/

/-- A claimant of a crew whose claim is withdrawn, due to trap. -/
def Strand.denied (c : Crew) (q : Claim) (m : Strand) : Strand :=
  { m with wait := none, due := some (.regDeadlock, c.claims.length, poolState q.need c.decl.quota c.freeRows.length, 0) }

/-- Every claim of the crew is withdrawn. -/
def denyClaims (cid : Nat) (s : State) : State :=
  (s.crew cid).claims.foldl (fun t q => t.modStrand q.sid (Strand.denied (s.crew cid) q)) (s.modCrew cid fun c => { c with claims := [] })

/-- A fold over claims with one strand each does to each strand what its own claim says. -/
theorem foldl_modStrand_claims (f : Claim → Strand → Strand) : ∀ (l : List Claim) (s : State), (l.map (·.sid)).Nodup →
    (∀ i, (∀ q ∈ l, q.sid ≠ i) → (l.foldl (fun s q => s.modStrand q.sid (f q)) s).strand i = s.strand i)
    ∧ ∀ q ∈ l, (l.foldl (fun s q => s.modStrand q.sid (f q)) s).strand q.sid = f q (s.strand q.sid)
  | [], s, _ => ⟨fun _ _ => rfl, nofun⟩
  | p :: l, s, h => by
    obtain ⟨hp, hl⟩ := List.nodup_cons.mp h
    obtain ⟨hother, hmem⟩ := foldl_modStrand_claims f l (s.modStrand p.sid (f p)) hl
    refine ⟨fun i hi => ?_, fun q hq => ?_⟩
    · refine (hother i fun q hq => hi q (List.mem_cons_of_mem _ hq)).trans ?_
      rw [State.strand_modStrand, if_neg (hi p List.mem_cons_self).symm]
    · obtain rfl | hq := List.mem_cons.mp hq
      · refine (hother q.sid fun r hr h => hp (List.mem_map.mpr ⟨r, hr, h⟩)).trans ?_
        rw [State.strand_modStrand, if_pos rfl]
      · refine (hmem q hq).trans ?_
        have hne : q.sid ≠ p.sid := fun h => hp (List.mem_map.mpr ⟨q, hq, h⟩)
        rw [State.strand_modStrand, if_neg hne]

theorem foldl_modStrand_crew (f : Claim → Strand → Strand) (l : List Claim) (s : State) (c : Nat) :
    (l.foldl (fun s q => s.modStrand q.sid (f q)) s).crew c = s.crew c :=
  foldl_same (fun t : State => t.crew c) _ (fun t q => State.crew_modStrand t q.sid (f q) c) l s

theorem deadlocked_of {cid : Nat} {q : Claim} {rest : List Claim} {s : State} (hc : (s.crew cid).claims = q :: rest)
    (hst : (s.crew cid).state = .resident) (hret : (s.crew cid).returning = []) (hn : (s.crew cid).freeRows.length < q.need)
    (hall : ∀ i ∈ (s.crew cid).sids, (s.strand i).vheld = 0 ∨ (s.strand i).run = .drained ∨ ∃ p ∈ (s.crew cid).claims, p.sid = i) :
    deadlocked s cid = true := by
  have hsids : ((s.crew cid).sids.all fun sid => decide ((s.strand sid).vheld = 0) || decide ((s.strand sid).run = .drained)
      || (s.crew cid).claims.any fun p => decide (p.sid = sid)) = true :=
    List.all_eq_true.mpr fun i hi => by simpa [or_assoc] using hall i hi
  rw [hc] at hsids
  simp only [deadlocked, hc, hst, hret, hn, hsids, decide_true, Bool.and_self]

theorem regDeadlockDeclare_event {cid : Nat} {q : Claim} {rest : List Claim} {s : State} (hin : s.input = some (.regDeadlockDeclare cid))
    (hc : (s.crew cid).claims = q :: rest) (hst : (s.crew cid).state = .resident) (hret : (s.crew cid).returning = [])
    (hn : (s.crew cid).freeRows.length < q.need) (hnd : ((s.crew cid).claims.map (·.sid)).Nodup)
    (hall : ∀ i ∈ (s.crew cid).sids, (s.strand i).vheld = 0 ∨ (s.strand i).run = .drained ∨ ∃ p ∈ (s.crew cid).claims, p.sid = i) :
    ∃ t, exec .regDeadlockDeclare s = .next t ∧ (t.crew cid).claims = []
      ∧ ∀ p ∈ (s.crew cid).claims, (t.strand p.sid).wait = none ∧ (t.strand p.sid).due = some (.regDeadlock, (s.crew cid).claims.length,
        BitVec.ofNat 64 (p.need * 2 ^ 32 + (s.crew cid).decl.quota * 2 ^ 16 + (s.crew cid).freeRows.length), 0) := by
  have hdead := deadlocked_of hc hst hret hn hall
  have hexec : exec .regDeadlockDeclare s = .next { denyClaims cid s with
      events := (denyClaims cid s).events ++ (s.crew cid).claims.map fun q => .regDeadlockTrap q.sid } := by
    show execRegDeadlockDeclare s = _
    rw [execRegDeadlockDeclare, hin]
    exact congrArg Host.Outcome.next (if_pos hdead)
  have hcrew : (denyClaims cid s).crew cid = { s.crew cid with claims := [] } :=
    (foldl_modStrand_crew _ _ _ cid).trans (State.crew_modCrew s cid fun c => { c with claims := [] })
  have hstrands := (foldl_modStrand_claims (Strand.denied (s.crew cid)) (s.crew cid).claims
    (s.modCrew cid fun c => { c with claims := [] }) hnd).2
  refine ⟨_, hexec, congrArg Crew.claims hcrew, fun p hp => ?_⟩
  have hstrand : (denyClaims cid s).strand p.sid = Strand.denied (s.crew cid) p (s.strand p.sid) := hstrands p hp
  exact ⟨congrArg Strand.wait hstrand, congrArg Strand.due hstrand⟩

/-! ### The trap that is due -/

theorem switchTo_me (sid : Nat) (s : State) : (switchTo sid s).me = s.strand sid := by
  unfold switchTo
  split
  · next h => rw [h, State.strand_cur]
  · next h => rw [State.strand, if_neg h]

theorem switchTo_cur (sid : Nat) (s : State) : (switchTo sid s).cur = sid := by
  unfold switchTo
  split
  · next h => exact h.symm
  · rfl

theorem switchTo_strand (sid : Nat) (s : State) (i : Nat) : (switchTo sid s).strand i = s.strand i := by
  unfold switchTo
  split
  · rfl
  · next h =>
    by_cases hi : i = sid
    · subst hi
      rw [State.strand, State.strand, if_pos rfl, if_neg h]
    · rw [State.strand, if_neg hi, tget_tset]
      by_cases hc : i = s.cur
      · rw [if_pos hc, hc, State.strand_cur]
      · rw [if_neg hc, tget_terase_other _ _ hi, State.strand, if_neg hc]

theorem switchTo_crew (sid : Nat) (s : State) (c : Nat) : (switchTo sid s).crew c = s.crew c := by
  unfold switchTo
  split
  · rfl
  · rfl

/-- The current strand, about to take a trap that was due. -/
def dueTaken (s : State) : State := s.modMe fun m => { m with due := none, wait := none }

theorem dueTaken_handled {s : State} (h : Handled s) : Handled (dueTaken s) := by
  obtain ⟨hon, hvec, hrun, hviq, hland⟩ := h
  refine ⟨hon, hvec, hrun, hviq, ?_⟩
  rw [State.landing, State.strand_cur] at *
  exact hland

theorem onStrand_me (sid : Nat) {f : State → State} {s : State} (h : (f (switchTo sid s)).cur = sid) :
    (switchTo sid (onStrand sid f s)).me = (f (switchTo sid s)).me := by
  rw [switchTo_me, onStrand, switchTo_strand]
  generalize f (switchTo sid s) = v at h
  rw [← h, State.strand_cur]

theorem dueTaken_finalVal (s : State) (r : SReg) : (dueTaken s).finalVal r = s.finalVal r := by
  rw [State.finalVal, State.finalVal, show (dueTaken s).me.deliverAll.regs = s.me.deliverAll.regs from
    age_regs_congr (m := s.me) (n := (dueTaken s).me) rfl rfl 8]

theorem regDeadlockTrap_event {sid n : Nat} {a : Word} {s : State} (hin : s.input = some (.regDeadlockTrap sid))
    (hdue : (switchTo sid s).me.due = some (.regDeadlock, n, a, 0)) (hrun : (switchTo sid s).me.run = .running)
    (hh : Handled (switchTo sid s)) : ∃ t, exec .regDeadlockTrap s = .next t
      ∧ Entered (switchTo sid s) (switchTo sid t) (switchTo sid s).me.ir { cause := .regDeadlock, detail := n, addr := a } := by
  have hland : s.landing sid = false := by
    have hl := hh.2.2.2.2
    rwa [State.landing, switchTo_cur, switchTo_strand, switchTo_crew] at hl
  have hviq : (s.strand sid).viq = [] := by rw [← switchTo_me]; exact hh.2.2.2.1
  have hexec : exec .regDeadlockTrap s = .next (onStrand sid
      (fun s => takeTrap { cause := .regDeadlock, detail := n, addr := a } (dueTaken s)) s) := by
    rw [switchTo_me] at hdue hrun
    show execRegDeadlockTrap s = _
    rw [execRegDeadlockTrap, hin]
    simp only [takeDue, hdue, hrun, hviq, hland]
    rfl
  have htakes := takes_takeTrap (dueTaken_handled hh) { cause := .regDeadlock, detail := n, addr := a }
  have hme := onStrand_me sid (f := fun s => takeTrap { cause := .regDeadlock, detail := n, addr := a } (dueTaken s)) (s := s)
    (by rw [htakes.2.2.2.2.1]; exact switchTo_cur sid s)
  refine ⟨_, hexec, ?_⟩
  obtain ⟨⟨hpc, hcause, haddr, hmask, htail, hhead, hon, hpriv, hvec, hregs⟩, -⟩ := htakes
  simp only [dueTaken_finalVal] at hregs
  generalize onStrand sid _ s = t at *
  generalize takeTrap _ (dueTaken (switchTo sid s)) = v at *
  simp only [Entered, State.rd, hme]
  exact ⟨hpc, hcause, haddr, hmask, htail, hhead, hon, hpriv, hvec, hregs⟩

end Sys2Proof.Machine
end

section
/-! SUPPORT. A strand that has drained, and the end of its crew (R142, R359): the fifth clause of O49. -/

namespace Sys2Proof.Machine
open Sys2Proof

/-! ### A crew's end counts for its grid -/

theorem settleAccounts_grids (cid status : Nat) (s : State) : (settleAccounts cid status s).grids = s.grids := by
  have htasks (t : State) : (releaseTasks cid t).grids = t.grids :=
    foldl_same State.grids (fun s h => s.modHeap h (Heap.release cid)) (fun _ _ => rfl) _ _
  have haudit (t : State) : (auditEnd cid status t).grids = t.grids := by
    unfold auditEnd abandonAudit
    dsimp only
    split
    · rfl
    · split
      · rfl
      · split <;> rfl
  obtain ⟨p, hp⟩ := drainCore_homeOnly (s.crew cid).core (charge cid s)
  refine (htasks _).trans ((haudit _).trans ?_)
  rw [hp]
  rfl

theorem settleGbar_completed (g : Nat) (s : State) : ((settleGbar g s).grid g).completed = (s.grid g).completed := by
  rw [settleGbar_eq]
  split
  · obtain ⟨l1, hopen, -⟩ := gbarOpens_frame g s
    have hw := gbarWakes_woken (s.grid g).arrived (liveCrews g s) (gbarOpens g s)
    rw [hw.frame, hopen]
    exact (congrArg Grid.completed (State.grid_modGrid s g fun x => { x with arrived := [] }) :)
  · rfl

theorem recordEnd_completed (cid gid : Nat) (f : Crew → Crew) (s : State) :
    ((recordEnd cid gid f s).grid gid).completed = (s.grid gid).completed + 1 := by
  refine (settleGbar_completed gid _).trans ?_
  exact congrArg Grid.completed (State.grid_modGrid (s.modCrew cid f) gid fun g => { g with completed := g.completed + 1 })

theorem withdraw_completed (sids : List Nat) (g : Nat) (s : State) : ((withdraw sids g s).grid g).completed = (s.grid g).completed := by
  rw [withdraw]
  dsimp only
  rw [State.grid_modGrid]
  rfl

/-- One more of the grid's crews has completed (R359). -/
theorem endCrew_completed (cid status c1 c2 idx rank : Nat) (tpc taddr : Word) (s : State) (h : (s.crew cid).state ≠ .ended) :
    ((endCrew cid status c1 c2 idx rank tpc taddr s).grid (s.crew cid).grid).completed = (s.grid (s.crew cid).grid).completed + 1 := by
  rw [endCrew_eq _ _ _ _ _ _ _ _ _ h]
  dsimp only
  obtain ⟨m, o, hstop⟩ := foldl_modStrand_frame Strand.ended (s.crew cid).sids (settleAccounts cid status s)
  have hgrid : (endStrands (s.crew cid).sids (settleAccounts cid status s)).grid (s.crew cid).grid = s.grid (s.crew cid).grid := by
    rw [endStrands, hstop]
    show tget {} (settleAccounts cid status s).grids _ = _
    rw [settleAccounts_grids]
    rfl
  rw [recordEnd_completed, withdraw_completed, hgrid]

/-! ### A strand drains -/

/-- What a strand's drain leaves, before its crew ends. -/
structure Drained (sid cid : Nat) (s t : State) : Prop where
  crew : ∃ x ch rt fr, t.crew cid = { s.crew cid with scyc := x, charged := ch, returning := rt, freeRows := fr }
  run : ∀ i, (t.strand i).run = if i = sid then .drained else (s.strand i).run
  vheld : (t.strand sid).vheld = 0
  grids : t.grids = s.grids
  failures : t.linkFail = s.linkFail

/-- A strand whose rows have gone back has drained. -/
def drainedStrand (sid : Nat) (s : State) : State :=
  (returnRows sid 0 (s.strand sid).vheld (charge (s.strand sid).crew s)).modStrand sid fun m => { m with run := .drained, vheld := 0 }

/-- Rows on their way back: the strand's registers, and its crew's returning rows. -/
theorem returnRows_frame (sid lo n : Nat) (s : State) :
    (∃ rt, (returnRows sid lo n s).crew (s.strand sid).crew = { s.crew (s.strand sid).crew with returning := rt })
    ∧ (∀ i, ((returnRows sid lo n s).strand i).run = (s.strand i).run) ∧ (returnRows sid lo n s).grids = s.grids
    ∧ (returnRows sid lo n s).linkFail = s.linkFail := by
  have hrun (i : Nat) (per : Nat) : ((s.modStrand sid (clearRows per lo n)).strand i).run = (s.strand i).run := by
    rw [State.strand_modStrand]
    split
    · next h =>
      subst h
      rw [clearRows_rowsOnly per lo n (s.strand i)]
    · rfl
  rw [returnRows]
  dsimp only
  split
  · refine ⟨⟨_, by rw [State.crew_modStrand]⟩, fun i => hrun i _, ?_, ?_⟩
    · rw [State.modStrand_frame]
    · rw [State.modStrand_frame]
  · refine ⟨⟨_, by rw [State.crew_modCrew, State.crew_modStrand]⟩, fun i => hrun i _, ?_, ?_⟩
    · rw [State.modStrand_frame]
      rfl
    · rw [State.modStrand_frame]
      rfl

theorem charge_crew (cid : Nat) (s : State) : ∃ x ch, (charge cid s).crew cid = { s.crew cid with scyc := x, charged := ch } :=
  ⟨_, _, State.crew_modCrew s cid fun c => { c with scyc := _, charged := s.cycle }⟩

theorem drainedStrand_drained (sid : Nat) (s : State) : Drained sid (s.strand sid).crew s (drainedStrand sid s) := by
  obtain ⟨x, ch, hc⟩ := charge_crew (s.strand sid).crew s
  obtain ⟨⟨rt, hcrew⟩, hrun, hgrids, hfail⟩ := returnRows_frame sid 0 (s.strand sid).vheld (charge (s.strand sid).crew s)
  have hstrand (i : Nat) : (charge (s.strand sid).crew s).strand i = s.strand i := rfl
  rw [hstrand] at hcrew
  refine ⟨⟨x, ch, rt, (s.crew (s.strand sid).crew).freeRows, ?_⟩, fun i => ?_, ?_, ?_, ?_⟩
  · rw [drainedStrand, State.crew_modStrand, hcrew, hc]
  · rw [drainedStrand, State.strand_modStrand]
    split
    · rfl
    · rw [hrun, hstrand]
  · rw [drainedStrand, State.strand_modStrand, if_pos rfl]
  · rw [drainedStrand, State.modStrand_frame]
    exact hgrids
  · rw [drainedStrand, State.modStrand_frame]
    exact hfail

theorem Woken.drained {sid cid : Nat} {s t u : State} (h : Drained sid cid s t) (k : Woken t u)
    (hv : (u.strand sid).vheld = (t.strand sid).vheld) : Drained sid cid s u where
  crew := by
    obtain ⟨x, ch, rt, fr, hc⟩ := h.crew
    exact ⟨x, ch, rt, fr, by rw [k.crew, hc]⟩
  run i := (k.run i).trans (h.run i)
  vheld := hv.trans h.vheld
  grids := by rw [k.frame]; exact h.grids
  failures := by rw [k.frame]; exact h.failures

theorem Strand.woken_vheld (m : Strand) : m.woken.vheld = m.vheld := by
  obtain ⟨ps, h⟩ := m.woken_frame
  rw [h]

theorem wakeComplete_vheld (l : List Nat) (f : Wait → Bool) (s : State) (i : Nat) :
    ((wakeComplete l f s).strand i).vheld = (s.strand i).vheld := by
  rw [wakeComplete_strand]
  split
  · exact Strand.woken_vheld _
  · rfl

/-- Where no claim waits, released rows become free and strands that idle go on; nothing else follows. -/
theorem freeRows_drained {sid cid : Nat} {s t : State} (h : Drained sid cid s t) (hc : (s.crew cid).claims = []) :
    Drained sid cid s (freeRows cid t) := by
  obtain ⟨x, ch, rt, fr, hcrew⟩ := h.crew
  unfold freeRows
  dsimp only
  split
  · exact h
  · have hmod : ∀ rt' fr', Drained sid cid s (t.modCrew cid fun c => { c with returning := rt', freeRows := c.freeRows ++ fr' }) := by
      refine fun rt' fr' => ⟨⟨x, ch, rt', fr ++ fr', ?_⟩, h.run, h.vheld, h.grids, h.failures⟩
      rw [State.crew_modCrew, hcrew]
    have hmod := hmod (freeReturned t (t.crew cid).returning).1 (freeReturned t (t.crew cid).returning).2
    obtain ⟨_, _, _, _, hcl⟩ := hmod.crew
    rw [grantClaims_none (by rw [hcl]; exact hc)]
    exact Woken.drained hmod (wakeIdle_woken cid _) (wakeComplete_vheld _ _ _ _)

theorem execStrandDrained_eq {sid : Nat} {s : State} (hin : s.input = some (.strandDrained sid)) :
    exec .strandDrained s = .next (drainStrand sid s) := by
  show execStrandDrained s = _
  rw [execStrandDrained, hin]

/-- The end of the drain: the crew ends with its last strand. -/
def drainEnds (cid : Nat) (s : State) : State :=
  if (s.crew cid).sids.all fun i => (s.strand i).run = .drained then
    match s.linkFail.find? fun e => e.1 ∈ (s.crew cid).sids with
    | some (i, _, va) => endCrew cid 1 (Cause.code .link) 0 (s.strand i).index 0 (s.strand i).pc va s
    | none => endCrew cid 0 0 0 0 0 0 0 s
  else s

theorem drainStrand_eq {sid : Nat} {s : State} (hrun : (s.strand sid).run = .halted) (hviq : (s.strand sid).viq = [])
    (hland : ∀ l ∈ (s.crew (s.strand sid).crew).landings, l.sid ≠ sid) (hcoll : ∀ k ∈ s.colls, k.sid ≠ sid) :
    drainStrand sid s = drainEnds (s.strand sid).crew (freeRows (s.strand sid).crew (drainedStrand sid s)) := by
  have hl : ((s.crew (s.strand sid).crew).landings.any fun l => decide (l.sid = sid)) = false :=
    List.any_eq_false.mpr fun l hl => by simpa using hland l hl
  have hk : (s.colls.any fun k => decide (k.sid = sid)) = false := List.any_eq_false.mpr fun k hk => by simpa using hcoll k hk
  rw [drainStrand]
  dsimp only
  rw [hrun, hviq, hl, hk]
  rfl

/-- The fifth clause of O49. -/
theorem strandDrained_event {sid : Nat} {s : State} (hin : s.input = some (.strandDrained sid))
    (hrun : (s.strand sid).run = .halted) (hviq : (s.strand sid).viq = [])
    (hland : ∀ l ∈ (s.crew (s.strand sid).crew).landings, l.sid ≠ sid) (hcoll : ∀ k ∈ s.colls, k.sid ≠ sid)
    (hc : (s.crew (s.strand sid).crew).claims = []) (hst : (s.crew (s.strand sid).crew).state = .resident) :
    (∀ i ∈ (s.crew (s.strand sid).crew).sids, i ≠ sid → (s.strand i).run ≠ .drained →
      ∃ t, exec .strandDrained s = .next t ∧ (t.strand sid).run = .drained ∧ (t.strand sid).vheld = 0)
    ∧ ((∀ i ∈ (s.crew (s.strand sid).crew).sids, i ≠ sid → (s.strand i).run = .drained) →
      (∀ f ∈ s.linkFail, f.1 ∉ (s.crew (s.strand sid).crew).sids) →
      ∃ t, exec .strandDrained s = .next t ∧ (t.crew (s.strand sid).crew).state = .ended ∧ (t.crew (s.strand sid).crew).status = 0
        ∧ (t.grid (s.crew (s.strand sid).crew).grid).completed = (s.grid (s.crew (s.strand sid).crew).grid).completed + 1)
    ∧ ∀ i d va, (∀ j ∈ (s.crew (s.strand sid).crew).sids, j ≠ sid → (s.strand j).run = .drained) →
      s.linkFail.find? (fun e => e.1 ∈ (s.crew (s.strand sid).crew).sids) = some (i, d, va) →
      ∃ t, exec .strandDrained s = .next t ∧ (t.crew (s.strand sid).crew).state = .ended ∧ (t.crew (s.strand sid).crew).status = 1
        ∧ (t.crew (s.strand sid).crew).cause1 = 0x1A ∧ (t.crew (s.strand sid).crew).taddr = va := by
  have hd := freeRows_drained (drainedStrand_drained sid s) hc
  have hexec := (execStrandDrained_eq hin).trans (congrArg Host.Outcome.next (drainStrand_eq hrun hviq hland hcoll))
  generalize freeRows (s.strand sid).crew (drainedStrand sid s) = t at hd hexec
  obtain ⟨x, ch, rt, fr, hcrew⟩ := hd.crew
  have hnot : (t.crew (s.strand sid).crew).state ≠ .ended := by rw [hcrew, hst]; decide
  have hgrid : t.grid (s.crew (s.strand sid).crew).grid = s.grid (s.crew (s.strand sid).crew).grid := by rw [State.grid, hd.grids, State.grid]
  have hall (h : ∀ i ∈ (s.crew (s.strand sid).crew).sids, i ≠ sid → (s.strand i).run = .drained) :
      ((t.crew (s.strand sid).crew).sids.all fun i => decide ((t.strand i).run = .drained)) = true := by
    rw [hcrew]
    refine List.all_eq_true.mpr fun i hi => decide_eq_true ?_
    rw [hd.run]
    split
    · rfl
    · next hne => exact h i hi hne
  refine ⟨fun i hi hne hr => ?others, fun h hf => ?normal, fun i d va h hf => ?failed⟩
  case others =>
    have hnall : ((t.crew (s.strand sid).crew).sids.all fun i => decide ((t.strand i).run = .drained)) = false := by
      rw [hcrew]
      exact List.all_eq_false.mpr ⟨i, hi, by rw [hd.run, if_neg hne]; simpa using hr⟩
    refine ⟨_, hexec, ?_⟩
    rw [drainEnds, hnall, if_neg Bool.false_ne_true]
    exact ⟨by rw [hd.run, if_pos rfl], hd.vheld⟩
  case normal =>
    have hnone : t.linkFail.find? (fun e => e.1 ∈ (t.crew (s.strand sid).crew).sids) = none := by
      rw [hd.failures, hcrew]
      exact List.find?_eq_none.mpr fun f hfm => by simpa using hf f hfm
    obtain ⟨c, n, hend⟩ := endCrew_crew (s.strand sid).crew 0 0 0 0 0 0 0 t hnot
    have hcount := endCrew_completed (s.strand sid).crew 0 0 0 0 0 0 0 t hnot
    refine ⟨_, hexec, ?_⟩
    rw [drainEnds, hall h, if_pos rfl, hnone]
    rw [hcrew] at hcount
    exact ⟨by rw [hend]; rfl, by rw [hend]; rfl, hcount.trans (by rw [hgrid])⟩
  case failed =>
    have hsome : t.linkFail.find? (fun e => e.1 ∈ (t.crew (s.strand sid).crew).sids) = some (i, d, va) := by
      rw [hd.failures, hcrew]
      exact hf
    obtain ⟨c, n, hend⟩ := endCrew_crew (s.strand sid).crew 1 (Cause.code .link) 0 (t.strand i).index 0 (t.strand i).pc va t hnot
    refine ⟨_, hexec, ?_⟩
    rw [drainEnds, hall h, if_pos rfl, hsome]
    dsimp only
    rw [hend]
    exact ⟨rfl, rfl, rfl, rfl⟩

end Sys2Proof.Machine
end

section
/-! SUPPORT. Events of a crew's scratchpad: work queries and their replies, landings, and releases of the load engine (R152, R153,
R244, R250, R253, R362); clauses six to nine of O49. -/

namespace Sys2Proof.Machine
open Sys2Proof

/-! ### Strands that go on -/

/-- What the ends of waits leave: strands and the clock alone can differ, and each strand belongs to its crew as before. -/
structure Roused (s t : State) : Prop where
  frame : t = { s with me := t.me, others := t.others, cycle := t.cycle }
  crewOf : ∀ i, (t.strand i).crew = (s.strand i).crew

theorem roused_refl (s : State) : Roused s s := ⟨rfl, fun _ => rfl⟩

theorem roused_trans {s t u : State} (h : Roused s t) (k : Roused t u) : Roused s u where
  frame := by rw [k.frame, h.frame]
  crewOf i := (k.crewOf i).trans (h.crewOf i)

theorem roused_foldl {β : Type} (f : State → β → State) (hf : ∀ s b, Roused s (f s b)) (l : List β) (s : State) : Roused s (l.foldl f s) :=
  foldl_keeps (Roused s) f (fun t b h => roused_trans h (hf t b)) l s (roused_refl s)

theorem roused_modStrand (s : State) (i : Nat) (f : Strand → Strand) (hf : (f (s.strand i)).crew = (s.strand i).crew) :
    Roused s (s.modStrand i f) where
  frame := by rw [State.modStrand_frame]
  crewOf j := by
    rw [State.strand_modStrand]
    split
    · next h => rw [hf, h]
    · rfl

theorem wake_roused (i : Nat) (s : State) : Roused s (wake i s) := roused_modStrand s i _ rfl

theorem wakeWaits_roused (i : Nat) (f : Wait → Bool) (s : State) : Roused s (wakeWaits i f s) := roused_modStrand s i _ rfl

theorem wakeComplete_roused (l : List Nat) (f : Wait → Bool) (s : State) : Roused s (wakeComplete l f s) where
  frame := (wakeComplete_woken l f s).frame
  crewOf i := by
    rw [wakeComplete_strand]
    split
    · obtain ⟨ps, h⟩ := (s.strand i).woken_frame
      rw [h]
    · rfl

theorem wakeIdle_roused (cid : Nat) (s : State) : Roused s (wakeIdle cid s) := wakeComplete_roused _ _ s

theorem settleStage_roused (cid b : Nat) (s : State) : Roused s (settleStage cid b s) := by
  refine roused_trans (roused_foldl _ (fun t i => ?_) _ s) (wakeIdle_roused cid _)
  have hone (p : Prop) [Decidable p] : Roused t (if p then wake i t else t) := by
    split
    · exact wake_roused i t
    · exact roused_refl t
  split
  · exact hone _
  · exact hone _
  · exact roused_refl t

theorem wakeInterlocked_roused (cid : Nat) (s : State) : Roused s (wakeInterlocked cid s) := by
  refine roused_foldl _ (fun t i => ?_) _ s
  split
  · exact wakeWaits_roused i _ t
  · exact roused_refl t

section
variable {s t : State} (h : Roused s t)
include h

theorem Roused.mem : t.mem = s.mem := by rw [h.frame]
theorem Roused.home (k : Nat) : t.home k = s.home k := by rw [State.home, h.mem, State.home]
theorem Roused.full : t.full = s.full := by rw [h.frame]
theorem Roused.mpois : t.mpois = s.mpois := by rw [h.frame]
theorem Roused.colls : t.colls = s.colls := by rw [h.frame]
theorem Roused.crew (c : Nat) : t.crew c = s.crew c := by rw [State.crew, h.frame, State.crew]

end

/-! ### The next query of a grid (R362) -/

/-- A fold that keeps the first element of an order finds it, wherever it stands. -/
theorem foldl_first {α : Type} {before : α → α → Bool} {f : Option α → α → Option α} (hnone : ∀ y, f none y = some y)
    (hsome : ∀ x y, f (some x) y = if before y x then some y else some x) {a : α} : ∀ (l : List α) (b : Option α),
    (∀ y ∈ l, y ≠ a → before a y = true ∧ before y a = false) → (b = some a ∨ a ∈ l ∧ ∀ y, b = some y → before a y = true) →
    l.foldl f b = some a
  | [], _, _, hb => by
    obtain hb | ⟨hb, -⟩ := hb
    · exact hb
    · cases hb
  | y :: l, b, h, hb => by
    rw [List.foldl_cons]
    refine foldl_first hnone hsome l _ (fun z hz => h z (List.mem_cons_of_mem y hz)) ?_
    by_cases hy : y = a
    · subst hy
      left
      obtain rfl | ⟨-, hb⟩ := hb
      · rw [hsome, ite_self]
      · cases b with
        | none => exact hnone y
        | some x => rw [hsome, if_pos (hb x rfl)]
    · obtain ⟨hay, hya⟩ := h y List.mem_cons_self hy
      obtain rfl | ⟨ha, hb⟩ := hb
      · left
        rw [hsome, hya, if_neg Bool.false_ne_true]
      · right
        refine ⟨(List.mem_cons.mp ha).resolve_left (Ne.symm hy), fun z hz => ?_⟩
        cases b with
        | none => rw [hnone] at hz; cases hz; exact hay
        | some x =>
          rw [hsome] at hz
          split at hz
          · cases hz; exact hay
          · exact hb z hz

theorem nextAsk_eq {s : State} {g : Grid} {a : Nat × Nat} (ha : a ∈ g.asks) (hr : a.1 ≤ s.cycle)
    (h : ∀ y ∈ g.asks, y ≠ a → s.cycle < y.1 ∨ a.1 < y.1 ∨ (a.1 = y.1 ∧ ((s.strand a.2).core < (s.strand y.2).core
      ∨ ((s.strand a.2).core = (s.strand y.2).core ∧ (s.strand a.2).slot < (s.strand y.2).slot)))) : nextAsk s g = some a := by
  have hreached : a ∈ g.asks.filter fun a => reached s a.1 := List.mem_filter.mpr ⟨ha, decide_eq_true hr⟩
  unfold nextAsk
  refine foldl_first (before := askBefore s) (fun _ => rfl) (fun _ _ => rfl) _ none (fun y hy hne => ?_) (.inr ⟨hreached, nofun⟩)
  obtain ⟨hy, hreach⟩ := List.mem_filter.mp hy
  have hreach : y.1 ≤ s.cycle := of_decide_eq_true hreach
  have := (h y hy hne).resolve_left (by omega)
  simp only [askBefore, Bool.or_eq_true, Bool.and_eq_true, decide_eq_true_eq, Bool.or_eq_false_iff, Bool.and_eq_false_iff,
    decide_eq_false_iff_not]
  omega

theorem answerQuery_eq {sid off : Nat} {b : List Byte} {r : List Query} : ∀ l : List Query, (∀ q ∈ l, q.sid = sid → q.reply ≠ none) →
    answerQuery sid b (l ++ [⟨sid, off, none⟩] ++ r) = l ++ [⟨sid, off, some b⟩] ++ r
  | [], _ => by simp [answerQuery]
  | q :: l, h => by
    have hq : ¬ ((decide (q.sid = sid) && q.reply.isNone) = true) := by
      simpa [Option.isNone_iff_eq_none] using h q List.mem_cons_self
    rw [List.cons_append, List.cons_append, answerQuery, if_neg hq, answerQuery_eq l fun p hp => h p (List.mem_cons_of_mem q hp)]
    rfl

/-- Work query service: the sixth clause of O49. -/
theorem wqryService_event {s : State} {gid at_ sid off : Nat} {l r : List Query} (hin : s.input = some (.wqryService gid))
    (ha : (at_, sid) ∈ (s.grid gid).asks) (hr : at_ ≤ s.cycle)
    (h : ∀ y ∈ (s.grid gid).asks, y ≠ (at_, sid) → s.cycle < y.1 ∨ at_ < y.1 ∨ (at_ = y.1 ∧ ((s.strand sid).core < (s.strand y.2).core
      ∨ ((s.strand sid).core = (s.strand y.2).core ∧ (s.strand sid).slot < (s.strand y.2).slot))))
    (hq : (s.crew (s.strand sid).crew).queries = l ++ [⟨sid, off, none⟩] ++ r) (hl : ∀ q ∈ l, q.sid = sid → q.reply ≠ none) :
    ∃ t, exec .wqryService s = .next t ∧ (t.grid gid).asks = (s.grid gid).asks.erase (at_, sid)
      ∧ (t.grid gid).item = (if (s.grid gid).item < (s.grid gid).lrec.wsx * (s.grid gid).lrec.wsy then (s.grid gid).item + 1 else (s.grid gid).item)
      ∧ (t.crew (s.strand sid).crew).queries = l ++ [⟨sid, off, some (itemReply (s.grid gid))⟩] ++ r := by
  have hexec : exec .wqryService s = .next ((s.modCrew (s.strand sid).crew fun c =>
      { c with queries := answerQuery sid (itemReply (s.grid gid)) c.queries }).modGrid gid fun g =>
        { g with asks := g.asks.erase (at_, sid), item := if g.item < g.lrec.wsx * g.lrec.wsy then g.item + 1 else g.item }) := by
    show execWqryService s = _
    rw [execWqryService, hin]
    simp only [wqryService, nextAsk_eq ha hr h]
  refine ⟨_, hexec, ?_, ?_, ?_⟩
  · rw [State.grid_modGrid]
    rfl
  · rw [State.grid_modGrid]
    rfl
  · refine (congrArg Crew.queries (State.crew_modCrew s (s.strand sid).crew fun c =>
      { c with queries := answerQuery sid (itemReply (s.grid gid)) c.queries }) :).trans ?_
    rw [hq]
    exact answerQuery_eq l hl

/-! ### Granules that are filled -/

/-- Bytes and full bit of a granule on a core (R152, R255). -/
def putGranule (k : Nat) (b : List Byte) (s : State) : State :=
  setFull true [k / 16] { s with mem := putBytes s.mem k b, mpois := s.mpois.filter (· ∉ wholeSectors k b.length) }

theorem fillGranule_onCore {cid off : Nat} {b : List Byte} {must : Bool} {s : State} (hon : (s.crew cid).onCore = true)
    (hf : must = true → s.isFull (cspKey (clusterOf (s.crew cid).core) ((s.crew cid).cspBase + off) / 16) = false) :
    fillGranule cid off b must s = some (putGranule (cspKey (clusterOf (s.crew cid).core) ((s.crew cid).cspBase + off)) b s) := by
  unfold fillGranule
  dsimp only
  rw [if_pos hon, if_neg]
  · rfl
  · cases must with
    | false => exact Bool.false_ne_true
    | true => simp [hf rfl]

theorem putGranule_home (k : Nat) (b : List Byte) (s : State) (x : Nat) :
    (putGranule k b s).home x = if k ≤ x ∧ x < k + b.length then b.getD (x - k) 0 else s.home x := tget_putBytes b s.mem k x

theorem putGranule_full (k : Nat) (b : List Byte) (s : State) : tget false (putGranule k b s).full (k / 16) = true :=
  tget_tset_same false s.full (k / 16) true

theorem onCore_of_resident {c : Crew} (h : c.state = .resident) : c.onCore = true := by
  rw [Crew.onCore, h]
  rfl

/-- The reply of a work query: the seventh clause of O49. -/
theorem wqryReply_event {s : State} {sid off : Nat} {b : List Byte} (hin : s.input = some (.wqryReply sid))
    (hq : (s.crew (s.strand sid).crew).queries.find? (fun q => decide (q.sid = sid)) = some ⟨sid, off, some b⟩) (hb : b.length = 16)
    (hst : (s.crew (s.strand sid).crew).state = .resident)
    (hf : tget false s.full (cspKey (clusterOf (s.crew (s.strand sid).crew).core) ((s.crew (s.strand sid).crew).cspBase + off) / 16) = false) :
    ∃ t, exec .wqryReply s = .next t
      ∧ (t.crew (s.strand sid).crew).queries = (s.crew (s.strand sid).crew).queries.erase ⟨sid, off, some b⟩
      ∧ tget false t.full (cspKey (clusterOf (s.crew (s.strand sid).crew).core) ((s.crew (s.strand sid).crew).cspBase + off) / 16) = true
      ∧ (∀ j < 16, t.home (cspKey (clusterOf (s.crew (s.strand sid).crew).core) ((s.crew (s.strand sid).crew).cspBase + off) + j) = b.getD j 0)
      ∧ ∀ j, (j < cspKey (clusterOf (s.crew (s.strand sid).crew).core) ((s.crew (s.strand sid).crew).cspBase + off)
          ∨ cspKey (clusterOf (s.crew (s.strand sid).crew).core) ((s.crew (s.strand sid).crew).cspBase + off) + 16 ≤ j) → t.home j = s.home j := by
  have hfill : fillGranule (s.strand sid).crew off b true s = some (putGranule
      (cspKey (clusterOf (s.crew (s.strand sid).crew).core) ((s.crew (s.strand sid).crew).cspBase + off)) b s) :=
    fillGranule_onCore (onCore_of_resident hst) fun _ => hf
  generalize cspKey (clusterOf (s.crew (s.strand sid).crew).core) ((s.crew (s.strand sid).crew).cspBase + off) = k at *
  let v := (putGranule k b s).modCrew (s.strand sid).crew fun c => { c with queries := c.queries.erase ⟨sid, off, some b⟩ }
  obtain ⟨t, hexec, ht⟩ : ∃ t, exec .wqryReply s = .next t ∧ Roused v t := by
    refine ⟨wakeIdle (s.strand sid).crew (if (v.strand sid).wait = some .query then wake sid v else v), ?_, ?_⟩
    · show execWqryReply s = _
      rw [execWqryReply, hin]
      simp only [wqryReply, oldestQuery, hq, hfill]
      rfl
    · refine roused_trans ?_ (wakeIdle_roused _ _)
      split
      · exact wake_roused sid v
      · exact roused_refl v
  have hhome (j : Nat) : t.home j = if k ≤ j ∧ j < k + 16 then b.getD (j - k) 0 else s.home j := by
    rw [ht.home, ← hb]
    exact putGranule_home k b s j
  refine ⟨t, hexec, ?_, ?_, fun j hj => ?_, fun j hj => ?_⟩
  · rw [ht.crew]
    exact (congrArg Crew.queries (State.crew_modCrew (putGranule k b s) (s.strand sid).crew fun c =>
      { c with queries := c.queries.erase ⟨sid, off, some b⟩ }) :)
  · rw [ht.full]
    exact putGranule_full k b s
  · rw [hhome, if_pos (by omega), Nat.add_sub_cancel_left]
  · rw [hhome, if_neg (by omega)]

/-! ### Stage barriers (R250) -/

theorem freePhase_freed (x : Barrier) : (freePhase x).2 = decide (x.rdone = x.rcnt ∧ x.rph ≠ x.ph)
    ∧ Spec.freed x = (if (freePhase x).2 then { (freePhase x).1 with read := [] } else (freePhase x).1)
    ∧ (freePhase x).1.read = x.read := by
  unfold Spec.freed freePhase
  by_cases h : x.rdone = x.rcnt ∧ x.rph ≠ x.ph
  · simp [h]
  · have hb : (decide (x.rdone = x.rcnt) && decide (x.rph ≠ x.ph)) = false := by simpa using h
    simp only [hb, h, if_false, Bool.false_eq_true, decide_false, and_self]

theorem completePhase_eq (x : Barrier) : completePhase x = Spec.filled x := by
  unfold completePhase Spec.filled
  by_cases h : 0 < x.exp ∧ x.exp ≤ x.arr
  · rw [if_pos h, if_pos (by simpa using h), (freePhase_freed _).2.1]
  · rw [if_neg h, if_neg (by simpa using h)]

/-- The arrival of a granule. -/
theorem arriveBytes_eq (x : Barrier) : arriveBytes 16 x = Spec.arrived 1 x := completePhase_eq _

theorem setBarrier_crew (cid b : Nat) (x : Barrier) (s : State) :
    (setBarrier cid b x s).crew cid = { s.crew cid with barriers := tset {} (s.crew cid).barriers b x } :=
  State.crew_modCrew s cid fun c => { c with barriers := tset {} c.barriers b x }

theorem modBarrier_roused (cid b : Nat) (f : Barrier → Barrier) (s : State) :
    Roused (setBarrier cid b (f (tget {} (s.crew cid).barriers b)) s) (modBarrier cid b f s) := settleStage_roused cid b _

theorem granulesOf_one {k : Nat} (h : k % 16 = 0) : granulesOf k 16 = [k / 16] := by
  have : (k + 16 - 1) / 16 - k / 16 + 1 = 1 := by omega
  rw [granulesOf, if_neg (by decide), this]
  simp

theorem cspKey_mod {cl o : Nat} (h : o % 16 = 0) : cspKey cl o % 16 = 0 := by
  rw [cspKey]
  omega

/-! ### Landings (R244) -/

/-- A landing's bytes, full bit and poison. -/
def putLanding (k : Nat) (x : Landing) (s : State) : State :=
  setFull true (granulesOf k x.bytes.length) { s with
    mem := putBytes s.mem k x.bytes
    mpois := if x.poison then addOnce s.mpois (k / 64) else if x.clears then s.mpois.filter (· ≠ k / 64) else s.mpois }

/-- The landing's count at its barrier (R244). -/
def countLanding (cid : Nat) (x : Landing) (s : State) : State :=
  match x.sb with
  | some b => setBarrier cid b (arriveBytes 16 (tget {} (s.crew cid).barriers b)) s
  | none => s

theorem landGranule_roused (cid : Nat) (x : Landing) (s : State) :
    Roused (countLanding cid x (putLanding (cspKey (clusterOf (s.crew cid).core) ((s.crew cid).cspBase + x.off)) x s)) (landGranule cid x s) := by
  unfold landGranule countLanding
  cases x.sb with
  | some b => exact modBarrier_roused cid b (arriveBytes 16) (putLanding _ x s)
  | none => exact wakeIdle_roused cid (putLanding _ x s)

theorem countLanding_frame (cid : Nat) (x : Landing) (s : State) : countLanding cid x s = { s with crews := (countLanding cid x s).crews } := by
  unfold countLanding
  split
  · rfl
  · rfl

theorem countLanding_landings (cid : Nat) (x : Landing) (s : State) : ((countLanding cid x s).crew cid).landings = (s.crew cid).landings := by
  unfold countLanding
  split
  · rw [setBarrier_crew]
  · rfl

theorem countLanding_barrier {cid b : Nat} {x : Landing} (s : State) (h : x.sb = some b) :
    tget {} ((countLanding cid x s).crew cid).barriers b = Spec.arrived 1 (tget {} (s.crew cid).barriers b) := by
  rw [countLanding, h]
  dsimp only
  rw [setBarrier_crew, arriveBytes_eq]
  exact tget_tset_same ..

/-- A granule of a copy: the eighth clause of O49. -/
theorem tcopyGranuleLand_event {s : State} {cid : Nat} {x : Landing} {rest : List Landing} (hin : s.input = some (.tcopyGranuleLand cid))
    (hl : (s.crew cid).landings = x :: rest) (hb : x.bytes.length = 16) (ho : x.off % 16 = 0) (hc : (s.crew cid).cspBase % 16 = 0) :
    ∃ t, exec .tcopyGranuleLand s = .next t ∧ (t.crew cid).landings = rest
      ∧ tget false t.full (cspKey (clusterOf (s.crew cid).core) ((s.crew cid).cspBase + x.off) / 16) = true
      ∧ (∀ j < 16, t.home (cspKey (clusterOf (s.crew cid).core) ((s.crew cid).cspBase + x.off) + j) = x.bytes.getD j 0)
      ∧ (∀ j, (j < cspKey (clusterOf (s.crew cid).core) ((s.crew cid).cspBase + x.off)
          ∨ cspKey (clusterOf (s.crew cid).core) ((s.crew cid).cspBase + x.off) + 16 ≤ j) → t.home j = s.home j)
      ∧ (x.poison = true → cspKey (clusterOf (s.crew cid).core) ((s.crew cid).cspBase + x.off) / 64 ∈ t.mpois)
      ∧ ∀ b, x.sb = some b → tget {} (t.crew cid).barriers b = Spec.arrived 1 (tget {} (s.crew cid).barriers b) := by
  have hkey : cspKey (clusterOf (s.crew cid).core) ((s.crew cid).cspBase + x.off) % 16 = 0 := cspKey_mod (by omega)
  let u := s.modCrew cid fun c => { c with landings := rest }
  have hu : u.crew cid = { s.crew cid with landings := rest } := State.crew_modCrew s cid fun c => { c with landings := rest }
  have hexec : exec .tcopyGranuleLand s = .next (wakeInterlocked cid (landGranule cid x u)) := by
    show execTcopyGranuleLand s = _
    rw [execTcopyGranuleLand, hin]
    simp only [landNext, hl]
    rfl
  have hland := roused_trans (landGranule_roused cid x u) (wakeInterlocked_roused cid _)
  have hku : cspKey (clusterOf (u.crew cid).core) ((u.crew cid).cspBase + x.off)
      = cspKey (clusterOf (s.crew cid).core) ((s.crew cid).cspBase + x.off) := by rw [hu]
  rw [hku] at hland
  generalize cspKey (clusterOf (s.crew cid).core) ((s.crew cid).cspBase + x.off) = k at *
  generalize wakeInterlocked cid (landGranule cid x u) = t at *
  have hframe := countLanding_frame cid x (putLanding k x u)
  have hhome (j : Nat) : t.home j = if k ≤ j ∧ j < k + 16 then x.bytes.getD (j - k) 0 else s.home j := by
    rw [hland.home, hframe, ← hb]
    exact tget_putBytes x.bytes s.mem k j
  refine ⟨t, hexec, ?_, ?_, fun j hj => ?_, fun j hj => ?_, fun hp => ?_, fun b hsb => ?_⟩
  · rw [hland.crew, countLanding_landings]
    exact congrArg Crew.landings hu
  · rw [hland.full, hframe, putLanding, hb, granulesOf_one hkey]
    exact tget_tset_same false s.full (k / 16) true
  · rw [hhome, if_pos (by omega), Nat.add_sub_cancel_left]
  · rw [hhome, if_neg (by omega)]
  · rw [hland.mpois, hframe, putLanding]
    simp only [hp, if_true]
    exact (mem_addOnce _ _ _).mpr (.inl rfl)
  · rw [hland.crew, countLanding_barrier _ hsb]
    rw [show (putLanding k x u).crew cid = u.crew cid from rfl, hu]

/-! ### Releases of the load engine (R253) -/

theorem tget_setFull (v : Bool) (gs : List Nat) (s : State) (g : Nat) :
    tget false (setFull v gs s).full g = if g ∈ gs then v else tget false s.full g := tget_foldl_tset false (fun _ => v) gs g s.full

/-- Whether a release frees the phase. -/
def Barrier.frees (x : Barrier) : Bool := x.rdone ≠ x.rcnt && x.rdone + 1 = x.rcnt && x.rph ≠ x.ph

/-- What R250 makes of a release. -/
theorem released_eq (x : Barrier) : (releasePhase x).2 = x.frees
    ∧ Spec.released x = (if x.frees then { (releasePhase x).1 with read := [] } else (releasePhase x).1)
    ∧ (releasePhase x).1.read = x.read := by
  unfold releasePhase Spec.released Barrier.frees
  by_cases hd : x.rdone = x.rcnt
  · simp [hd]
  · obtain ⟨hfrees, hfreed, hread⟩ := freePhase_freed { x with rdone := x.rdone + 1 }
    have hb : (freePhase { x with rdone := x.rdone + 1 }).2 = (decide (x.rdone ≠ x.rcnt) && decide (x.rdone + 1 = x.rcnt) && decide (x.rph ≠ x.ph)) := by
      rw [hfrees]
      simp [hd]
    rw [if_neg hd, if_neg hd, hfreed, ← hb]
    exact ⟨rfl, rfl, hread⟩

/-- The engine's release: the barrier, and the granules that it empties. -/
theorem engineRelease_effect (cid b : Nat) (gs : List Nat) (s : State) :
    let y := { tget {} (s.crew cid).barriers b with read := (tget {} (s.crew cid).barriers b).read ++ gs }
    (engineRelease cid b gs s).crew cid = { s.crew cid with barriers := tset {} (s.crew cid).barriers b (Spec.released y) }
    ∧ ∀ g, tget false (engineRelease cid b gs s).full g = if y.frees ∧ g ∈ y.read then false else tget false s.full g := by
  intro y
  obtain ⟨hfrees, hrel, hread⟩ := released_eq y
  cases hf : y.frees with
  | true =>
    rw [hf, if_pos rfl] at hrel
    rw [hf] at hfrees
    have he : engineRelease cid b gs s = settleStage cid b (setBarrier cid b (Spec.released y) (setFull false y.read s)) := by
      rw [← hread, hrel]
      exact if_pos hfrees
    have hroused := settleStage_roused cid b (setBarrier cid b (Spec.released y) (setFull false y.read s))
    rw [he]
    refine ⟨?_, fun g => ?_⟩
    · rw [hroused.crew, setBarrier_crew]
      rfl
    · rw [hroused.full]
      refine (tget_setFull false y.read s g).trans ?_
      simp
  | false =>
    rw [hf, if_neg Bool.false_ne_true] at hrel
    rw [hf] at hfrees
    have he : engineRelease cid b gs s = settleStage cid b (setBarrier cid b (Spec.released y) s) := by
      rw [hrel]
      exact if_neg (by rw [hfrees]; exact Bool.false_ne_true)
    have hroused := settleStage_roused cid b (setBarrier cid b (Spec.released y) s)
    rw [he]
    refine ⟨?_, fun g => ?_⟩
    · rw [hroused.crew, setBarrier_crew]
    · rw [hroused.full, if_neg (fun h => Bool.false_ne_true h.1)]
      rfl

/-- The ninth clause of O49. -/
theorem tldEEngineRelease_event {s : State} {sid b : Nat} {gs : List Nat} (hin : s.input = some (.tldEEngineRelease sid))
    (hr : (s.crew (s.strand sid).crew).releases.find? (fun r => decide (r.1 = sid)) = some (sid, b, gs)) :
    let c := s.crew (s.strand sid).crew
    let x := tget {} c.barriers b
    let y := { x with read := x.read ++ gs }
    let frees := x.rdone ≠ x.rcnt ∧ x.rdone + 1 = x.rcnt ∧ x.rph ≠ x.ph
    ∃ t, exec .tldEEngineRelease s = .next t ∧ (t.crew (s.strand sid).crew).releases = c.releases.erase (sid, b, gs)
      ∧ tget {} (t.crew (s.strand sid).crew).barriers b = Spec.released y
      ∧ ∀ g, tget false t.full g = if frees ∧ g ∈ y.read then false else tget false s.full g := by
  intro c x y frees
  let u := s.modCrew (s.strand sid).crew fun c => { c with releases := c.releases.erase (sid, b, gs) }
  have hu : u.crew (s.strand sid).crew = { s.crew (s.strand sid).crew with releases := c.releases.erase (sid, b, gs) } :=
    State.crew_modCrew s (s.strand sid).crew fun c => { c with releases := c.releases.erase (sid, b, gs) }
  have hexec : exec .tldEEngineRelease s = .next (engineRelease (s.strand sid).crew b gs u) := by
    show execTldEEngineRelease s = _
    rw [execTldEEngineRelease, hin]
    simp only [hr]
    rfl
  have heff := engineRelease_effect (s.strand sid).crew b gs u
  rw [hu] at heff
  obtain ⟨hcrew, hfull⟩ := heff
  have hfrees : y.frees = true ↔ frees := by simp [Barrier.frees, frees, y, and_assoc]
  refine ⟨_, hexec, ?_, ?_, fun g => ?_⟩
  · rw [hcrew]
  · rw [hcrew]
    exact tget_tset_same ..
  · refine (hfull g).trans ?_
    exact if_congr (and_congr_left fun _ => hfrees) rfl rfl

end Sys2Proof.Machine
end

section
/-! SUPPORT. Events of collectives (R255, R256, R446): clauses ten and eleven of O49. -/

namespace Sys2Proof.Machine
open Sys2Proof

/-! ### Arming -/

/-- What the members of a group contribute, with this device's own part. -/
def gather (rank : Nat) (t : Tab (Option (Nat × List Byte))) (parts : List (Nat × Nat × List Byte)) : Tab (Option (Nat × List Byte)) :=
  parts.foldl (fun t r => if r.1 = rank then t else tset none t r.1 (some r.2)) t

theorem gather_cons (rank : Nat) (t : Tab (Option (Nat × List Byte))) (r : Nat × Nat × List Byte) (parts : List (Nat × Nat × List Byte)) :
    gather rank t (r :: parts) = gather rank (if r.1 = rank then t else tset none t r.1 (some r.2)) parts := rfl

/-- A rank that no other contribution names keeps its part. -/
theorem gather_other {rank k : Nat} : ∀ (parts : List (Nat × Nat × List Byte)) (t : Tab (Option (Nat × List Byte))),
    (∀ r ∈ parts, r.1 = k → r.1 = rank) → tget none (gather rank t parts) k = tget none t k
  | [], _, _ => rfl
  | r :: parts, t, h => by
    rw [gather_cons, gather_other parts _ fun z hz => h z (List.mem_cons_of_mem r hz)]
    split
    · rfl
    · next hr => exact tget_tset_other _ _ _ fun e => hr (h r List.mem_cons_self e.symm)

theorem gather_mem {rank : Nat} : ∀ (parts : List (Nat × Nat × List Byte)) (t : Tab (Option (Nat × List Byte))),
    (parts.map (·.1)).Nodup → ∀ z ∈ parts, z.1 ≠ rank → tget none (gather rank t parts) z.1 = some z.2
  | r :: parts, t, hnd, z, hz, hne => by
    obtain ⟨hr, hnd⟩ := List.nodup_cons.mp hnd
    rw [gather_cons]
    obtain rfl | hz := List.mem_cons.mp hz
    · rw [gather_other parts _ fun y hy e => absurd (List.mem_map.mpr ⟨y, hy, e⟩) hr, if_neg hne, tget_tset_same]
    · exact gather_mem parts _ hnd z hz hne

/-- The tenth clause of O49. -/
theorem collectiveArm_event {s : State} {p g : Nat} {parts : List (Nat × Nat × List Byte)} {x : Coll}
    (hin : s.input = some (.collectiveArm p g parts))
    (hx : s.colls.find? (fun y => decide (y.part = p) && decide (y.group = g) && !y.armed) = some x)
    (hv : (tget {} s.groups (groupKey p g)).valid = true) (hb : (tget {} s.groups (groupKey p g)).broken = false)
    (hnd : (parts.map (·.1)).Nodup) (hown : (tget none x.parts (tget {} s.groups (groupKey p g)).rank).isSome = true)
    (hall : ∀ r < (tget {} s.groups (groupKey p g)).size, r = (tget {} s.groups (groupKey p g)).rank ∨ ∃ y ∈ parts, y.1 = r) :
    ∃ t y, exec .collectiveArm s = .next t ∧ t.colls = s.colls.map (fun z => if z = x then y else z)
      ∧ y = { x with parts := y.parts, armed := true }
      ∧ tget none y.parts (tget {} s.groups (groupKey p g)).rank = tget none x.parts (tget {} s.groups (groupKey p g)).rank
      ∧ ∀ z ∈ parts, z.1 ≠ (tget {} s.groups (groupKey p g)).rank → tget none y.parts z.1 = some z.2 := by
  generalize he : tget {} s.groups (groupKey p g) = e at *
  have hrank : tget none (gather e.rank x.parts parts) e.rank = tget none x.parts e.rank := gather_other parts _ fun _ _ h => h
  have hmem := gather_mem (rank := e.rank) parts x.parts hnd
  have hsome : ((List.range e.size).all fun r => (tget none (gather e.rank x.parts parts) r).isSome) = true := by
    refine List.all_eq_true.mpr fun r hr => ?_
    by_cases hre : r = e.rank
    · rw [hre, hrank, hown]
    · obtain ⟨y, hy, hyr⟩ := (hall r (List.mem_range.mp hr)).resolve_left hre
      rw [← hyr, hmem y hy (by rw [hyr]; exact hre)]
      rfl
  refine ⟨{ s with colls := s.colls.map fun y => if y = x then { x with parts := gather e.rank x.parts parts, armed := true } else y },
    { x with parts := gather e.rank x.parts parts, armed := true }, ?_, rfl, rfl, hrank, hmem⟩
  have hexec : exec .collectiveArm s = .next (collectiveArm p g parts s) := by
    show execCollectiveArm s = _
    rw [execCollectiveArm, hin]
  rw [hexec]
  simp only [collectiveArm, hx, he, hv, hb, Bool.not_false, Bool.and_self, Bool.true_and]
  exact congrArg Host.Outcome.next (if_pos hsome)

/-! ### The fold of contributions (R255) -/

theorem isInt_awElem {t : AwTy} (h : t ≠ .f32) : isInt (awElem t) = true := by
  cases t with
  | f32 => exact absurd rfl h
  | _ => rfl

/-- One step of the model's fold is the step of R221 and R222. -/
theorem awStep_eq (op : Fold) (t : AwTy) {x y : Nat} (hx : x < 2 ^ tyBits (awElem t)) (hy : y < 2 ^ tyBits (awElem t)) :
    awStep op t x y = Spec.fold op t x y := by
  by_cases ht : t = .f32
  · subst ht
    rfl
  · have hi := isInt_awElem ht
    unfold awStep
    rw [if_neg ht]
    dsimp only
    rw [wrap_eq_low hi, read_eq_toNum hi hx, read_eq_toNum hi hy]
    cases t with
    | f32 => exact absurd rfl ht
    | _ => rfl

theorem signBit_f32 (neg : Bool) : FForm.f32.signBit neg ≤ 2147483648 := by
  cases neg <;> simp [FForm.signBit, FForm.f32]

theorem top_f32 : FForm.f32.emax * 2 ^ FForm.f32.f = 2139095040 := by simp [FForm.emax, FForm.f32]

theorem infinity_f32 (neg : Bool) : FForm.f32.infinity neg < 2 ^ 32 := by
  have := signBit_f32 neg
  rw [FForm.infinity, top_f32]
  omega

theorem largest_f32 (neg : Bool) : FForm.f32.largest neg < 2 ^ 32 := by
  have := signBit_f32 neg
  rw [FForm.largest, top_f32]
  omega

theorem canon_f32 : FForm.f32.canon < 2 ^ 32 := by
  rw [FForm.canon, top_f32]
  simp [FForm.f32]

/-- A bound of every finite code, of the infinities and of the largest codes bounds every rounding. -/
theorem round_lt {t : FForm} {B : Nat} (hinf : ∀ neg, t.infinity neg < B) (hlargest : ∀ neg, t.largest neg < B)
    (hfin : ∀ neg code, code < t.emax * 2 ^ t.f → t.signBit neg + code < B) (hzero : ∀ neg, t.signBit neg < B)
    (m : RM) (neg : Bool) (mag : Nat) (exp : Int) (st : Bool) : (t.round m neg mag exp st).bits < B := by
  unfold FForm.round
  split
  · exact hzero neg
  · dsimp only
    split
    · cases m with
      | rne => exact hinf neg
      | rmm => exact hinf neg
      | rtz => exact hlargest neg
      | rup => cases neg; exacts [hinf false, hlargest true]
      | rdn => cases neg; exacts [hlargest false, hinf true]
    · next hcode => exact hfin neg _ (Nat.lt_of_not_le hcode)

theorem round_f32 (m : RM) (neg : Bool) (mag : Nat) (exp : Int) (st : Bool) : (FForm.f32.round m neg mag exp st).bits < 2 ^ 32 := by
  refine round_lt infinity_f32 largest_f32 (fun neg code h => ?_) (fun neg => ?_) m neg mag exp st
  · have := signBit_f32 neg
    rw [top_f32] at h
    omega
  · have := signBit_f32 neg
    omega

theorem deliver_lt (m : RM) (v : FVal) : (FForm.f32.deliver m v).bits < 2 ^ 32 := by
  cases v with
  | nan sig => exact canon_f32
  | inf neg => exact infinity_f32 neg
  | fin neg mag exp => exact round_f32 m neg mag exp false

theorem minMax_lt (big : Bool) {x y : Nat} (hx : x < 2 ^ 32) (hy : y < 2 ^ 32) : (FForm.f32.minMax big x y).bits < 2 ^ 32 := by
  have hpick (c : Prop) [Decidable c] {z : Nat} (hz : z < 2 ^ 32) {w : Nat} (hw : w < 2 ^ 32) : (if c then z else w) < 2 ^ 32 := by
    split
    · exact hz
    · exact hw
  unfold FForm.minMax nvIf
  dsimp only
  split
  · exact hpick _ canon_f32 hy
  · split
    · exact hx
    · exact hpick _ hy hx

theorem fold_lt (op : Fold) (t : AwTy) {x y : Nat} (hx : x < 2 ^ tyBits (awElem t)) (hy : y < 2 ^ tyBits (awElem t)) :
    (Spec.fold op t x y).bits < 2 ^ tyBits (awElem t) := by
  cases t with
  | f32 =>
    cases op with
    | add => exact deliver_lt _ _
    | min => exact minMax_lt false hx hy
    | max => exact minMax_lt true hx hy
  | _ => exact low_lt _ _

/-- The fold of the codes `at_ 0`, …, `at_ n`, in that order. -/
def foldCodes (op : Fold) (t : AwTy) (at_ : Nat → Nat) (n : Nat) : Nat :=
  (List.range n).foldl (fun a r => (Spec.fold op t a (at_ (r + 1))).bits) (at_ 0)

theorem foldCodes_succ (op : Fold) (t : AwTy) (at_ : Nat → Nat) (n : Nat) :
    foldCodes op t at_ (n + 1) = (Spec.fold op t (foldCodes op t at_ n) (at_ (n + 1))).bits := by
  rw [foldCodes, List.range_succ, List.foldl_append]
  rfl

theorem foldCodes_lt (op : Fold) {t : AwTy} {at_ : Nat → Nat} (h : ∀ r, at_ r < 2 ^ tyBits (awElem t)) :
    ∀ n, foldCodes op t at_ n < 2 ^ tyBits (awElem t)
  | 0 => h 0
  | n + 1 => by rw [foldCodes_succ]; exact fold_lt op t (foldCodes_lt op h n) (h (n + 1))

/-- One step of the model's fold, with its flags. -/
def awAccum (op : Fold) (t : AwTy) (a : FRes) (y : Nat) : FRes :=
  { bits := (awStep op t a.bits y).bits, fl := a.fl.or (awStep op t a.bits y).fl }

theorem awAccum_bits (op : Fold) {t : AwTy} {at_ : Nat → Nat} (h : ∀ r, at_ r < 2 ^ tyBits (awElem t)) : ∀ n,
    (((List.range n).map fun r => at_ (r + 1)).foldl (awAccum op t) { bits := at_ 0 }).bits = foldCodes op t at_ n
  | 0 => rfl
  | n + 1 => by
    rw [List.range_succ, List.map_append, List.foldl_append, foldCodes_succ, ← awAccum_bits op h n]
    have hlt : (((List.range n).map fun r => at_ (r + 1)).foldl (awAccum op t) { bits := at_ 0 }).bits < 2 ^ tyBits (awElem t) := by
      rw [awAccum_bits op h n]
      exact foldCodes_lt op h n
    exact (congrArg FRes.bits (awStep_eq op t hlt (h (n + 1))) :)

/-- The code that a contribution has for element `i`. -/
def contributed (w : Nat) (bs : List (List Byte)) (i r : Nat) : Nat := leVal (((bs.getD r []).drop (i * w)).take w)

theorem contributed_lt (t : AwTy) (bs : List (List Byte)) (i r : Nat) :
    contributed (Spec.awBytes t) bs i r < 2 ^ tyBits (awElem t) := by
  have hw : 8 * Spec.awBytes t = tyBits (awElem t) := by cases t <;> rfl
  refine Nat.lt_of_lt_of_le (leVal_lt _) (Nat.pow_le_pow_right (by decide) ?_)
  rw [← hw]
  exact Nat.mul_le_mul_left 8 (List.length_take_le _ _)

/-- The element `i` of the fold of contributions. -/
def foldedCode (op : Fold) (t : AwTy) (bs : List (List Byte)) (i : Nat) : Nat :=
  foldCodes op t (contributed (Spec.awBytes t) bs i) (bs.length - 1)

theorem map_field_eq (w i : Nat) (b : List Byte) (rest : List (List Byte)) :
    rest.map (fun c => field c (i * w) w) = (List.range rest.length).map fun r => contributed w (b :: rest) i (r + 1) := by
  refine List.ext_getElem (by simp) fun r h _ => ?_
  have hr : r < rest.length := by simpa using h
  simp [contributed, field, List.getD_eq_getElem?_getD, List.getElem?_eq_getElem hr]

/-- The bytes of a fold, element by element. -/
theorem foldBytes_bytes (t : AwTy) (op : Fold) (len : Nat) {bs : List (List Byte)} (h : bs ≠ []) :
    (foldBytes t op len bs).1 = (List.range (len / Spec.awBytes t)).flatMap fun i => leBytes (Spec.awBytes t) (foldedCode op t bs i) := by
  cases bs with
  | nil => exact absurd rfl h
  | cons b rest =>
    unfold foldBytes
    dsimp only
    rw [List.flatMap_map]
    refine List.flatMap_congr fun i _ => ?_
    rw [List.map_cons]
    dsimp only
    have helem : elemBytes (awElem t) = Spec.awBytes t := rfl
    rw [helem, map_field_eq _ i b rest]
    refine congrArg (leBytes (Spec.awBytes t)) ?_
    refine (awAccum_bits op (contributed_lt t (b :: rest) i) rest.length).trans ?_
    rw [foldedCode, List.length_cons, Nat.add_sub_cancel]

/-- The bytes of a concatenation of equal pieces. -/
theorem getD_flatMap_pieces {f : Nat → List Byte} {w : Nat} (hf : ∀ i, (f i).length = w) {i j : Nat} (hj : j < w) : ∀ {n : Nat}, i < n →
    ((List.range n).flatMap f).getD (i * w + j) 0 = (f i).getD j 0
  | n + 1, hi => by
    have hlen : ((List.range n).flatMap f).length = n * w := by
      simp [List.length_flatMap, hf]
    rw [List.range_succ, List.flatMap_append, List.flatMap_singleton]
    by_cases h : i < n
    · have : i * w + j < n * w := calc
        i * w + j < i * w + w := by omega
        _ = (i + 1) * w := (Nat.succ_mul i w).symm
        _ ≤ n * w := Nat.mul_le_mul_right w h
      rw [List.getD_append _ _ _ _ (by omega)]
      exact getD_flatMap_pieces hf hj h
    · obtain rfl : i = n := by omega
      rw [List.getD_append_right _ _ _ _ (by omega), hlen, Nat.add_sub_cancel_left]

theorem homeBytes_eq {s : State} {k n : Nat} {b : List Byte} (hb : b.length = n) (h : ∀ j < n, s.home (k + j) = b.getD j 0) :
    s.homeBytes k n = b := by
  refine List.ext_getElem? fun j => ?_
  by_cases hj : j < n
  · rw [getElem?_homeBytes s k n j hj, h j hj, List.getD_eq_getElem?_getD, List.getElem?_eq_getElem (by omega)]
    rfl
  · rw [List.getElem?_eq_none (by simp; omega), List.getElem?_eq_none (by omega)]

/-! ### The result of a collective -/

/-- The contributions of a group's members. -/
structure Contributed (e : Group) (x : Coll) (kw : Nat) (bs : List (List Byte)) : Prop where
  length : bs.length = e.size
  part : ∀ r < e.size, tget none x.parts r = some (kw, bs.getD r []) ∧ (bs.getD r []).length = x.len

theorem contributions_eq {e : Group} {x : Coll} {kw : Nat} {bs : List (List Byte)} (h : Contributed e x kw bs) :
    ((List.range e.size).filterMap fun r => tget none x.parts r) = bs.map fun b => (kw, b) := by
  have hpart : ∀ r ∈ List.range e.size, tget none x.parts r = some (kw, bs.getD r []) := fun r hr => (h.part r (List.mem_range.mp hr)).1
  rw [List.filterMap_congr hpart, ← h.length]
  refine List.ext_getElem (by simp) fun r hr _ => ?_
  have hr : r < bs.length := by simpa using hr
  simp [List.getElem?_eq_getElem hr]

theorem collectiveResult_agreed {e : Group} {x : Coll} {kw : Nat} {bs : List (List Byte)} (hb : e.broken = false) (hv : e.valid = true)
    (h : Contributed e x kw bs) : collectiveResult e x = (if x.bcast then
      match tget none x.parts x.root with
      | some y => (0, y.2, {})
      | none => (2, [], {})
    else (0, (foldBytes (colTy x.ty) x.op x.len bs).1, (foldBytes (colTy x.ty) x.op x.len bs).2)) := by
  have hagree : ((bs.map fun b => (kw, b)).any fun y => decide (y.1 ≠ ((bs.map fun b => (kw, b)).headD (0, [])).1)) = false := by
    cases bs with
    | nil => rfl
    | cons b rest => simp
  unfold collectiveResult
  dsimp only
  rw [contributions_eq h, hb, hv, hagree, List.map_map]
  simp only [Function.comp_def, List.map_id']
  rfl

/-! ### The landing of a result -/

/-- What the landing of results leaves, apart from memory: the barriers of the crew, strands, the clock, full bits and poison alone
can differ, and strands keep their crews. -/
structure ResultLands (cid : Nat) (s t : State) : Prop where
  colls : t.colls = s.colls
  crew : ∃ bs, t.crew cid = { s.crew cid with barriers := bs }
  crewOf : ∀ i, (t.strand i).crew = (s.strand i).crew

theorem resultLands_refl (cid : Nat) (s : State) : ResultLands cid s s := ⟨rfl, ⟨_, rfl⟩, fun _ => rfl⟩

theorem resultLands_trans {cid : Nat} {s t u : State} (h : ResultLands cid s t) (k : ResultLands cid t u) : ResultLands cid s u where
  colls := k.colls.trans h.colls
  crew := by
    obtain ⟨b, hb⟩ := h.crew
    obtain ⟨c, hc⟩ := k.crew
    exact ⟨c, by rw [hc, hb]⟩
  crewOf i := (k.crewOf i).trans (h.crewOf i)

theorem Roused.resultLands {s t : State} (h : Roused s t) (cid : Nat) : ResultLands cid s t := ⟨h.colls, ⟨_, h.crew cid⟩, h.crewOf⟩

theorem setBarrier_resultLands (cid b : Nat) (x : Barrier) (s : State) : ResultLands cid s (setBarrier cid b x s) :=
  ⟨rfl, ⟨_, setBarrier_crew cid b x s⟩, fun _ => rfl⟩

/-- The home of a crew's scratchpad byte. -/
def Crew.cspAt (c : Crew) (off : Nat) : Nat := cspKey (clusterOf c.core) (c.cspBase + off)

theorem Crew.cspAt_add (c : Crew) (off i : Nat) : c.cspAt (off + i) = c.cspAt off + i := by
  simp only [Crew.cspAt, cspKey]
  omega

/-- A granule of a result on its core. -/
theorem landResult_effect {cid off : Nat} {b : List Byte} {s : State} (sb : Option Nat) (hst : (s.crew cid).state = .resident) :
    ResultLands cid s (landResult cid off b sb s) ∧ ∀ x, (landResult cid off b sb s).home x =
      if (s.crew cid).cspAt off ≤ x ∧ x < (s.crew cid).cspAt off + b.length then b.getD (x - (s.crew cid).cspAt off) 0 else s.home x := by
  have hfill : (fillGranule cid off b false s).getD s = putGranule ((s.crew cid).cspAt off) b s := by
    rw [fillGranule_onCore (onCore_of_resident hst) fun h => absurd h Bool.false_ne_true]
    rfl
  have hput : ResultLands cid s (putGranule ((s.crew cid).cspAt off) b s) := ⟨rfl, ⟨_, rfl⟩, fun _ => rfl⟩
  have hhome := putGranule_home ((s.crew cid).cspAt off) b s
  unfold landResult
  rw [hfill]
  generalize putGranule ((s.crew cid).cspAt off) b s = u at *
  cases sb with
  | none =>
    have hr := wakeIdle_roused cid u
    exact ⟨resultLands_trans hput (hr.resultLands cid), fun x => (hr.home x).trans (hhome x)⟩
  | some k =>
    have hr := modBarrier_roused cid k (arriveBytes 16) u
    have hl := resultLands_trans hput (resultLands_trans (setBarrier_resultLands cid k _ u) (hr.resultLands cid))
    have hon : ((modBarrier cid k (arriveBytes 16) u).crew cid).onCore = true := by
      obtain ⟨bs, hbs⟩ := hl.crew
      rw [hbs]
      exact onCore_of_resident hst
    dsimp only
    rw [if_pos hon]
    exact ⟨hl, fun x => (hr.home x).trans (hhome x)⟩

/-- The granules of a result. -/
def landResults (cid off : Nat) (sb : Option Nat) (b : List Byte) (n : Nat) (s : State) : State :=
  (List.range n).foldl (fun s i => landResult cid (off + 16 * i) (slice b (16 * i) 16) sb s) s

theorem landResults_succ (cid off : Nat) (sb : Option Nat) (b : List Byte) (n : Nat) (s : State) : landResults cid off sb b (n + 1) s =
    landResult cid (off + 16 * n) (slice b (16 * n) 16) sb (landResults cid off sb b n s) := by
  rw [landResults, List.range_succ, List.foldl_append]
  rfl

theorem getD_slice {b : List Byte} {lo n j : Nat} (hj : j < n) : (slice b lo n).getD j 0 = b.getD (lo + j) 0 := by
  simp [slice, List.getD_eq_getElem?_getD, hj]

/-- A whole result on its core: its first `16 n` bytes. -/
theorem landResults_effect {cid off : Nat} {b : List Byte} {s : State} (sb : Option Nat) (hst : (s.crew cid).state = .resident) : ∀ n,
    16 * n ≤ b.length → ResultLands cid s (landResults cid off sb b n s)
      ∧ ∀ j < 16 * n, (landResults cid off sb b n s).home ((s.crew cid).cspAt off + j) = b.getD j 0
  | 0, _ => ⟨resultLands_refl cid s, fun j hj => by omega⟩
  | n + 1, hn => by
    obtain ⟨hl, hhome⟩ := landResults_effect (off := off) (b := b) sb hst n (by omega)
    rw [landResults_succ]
    generalize landResults cid off sb b n s = u at *
    obtain ⟨bs, hcrew⟩ := hl.crew
    have hstu : (u.crew cid).state = .resident := by rw [hcrew]; exact hst
    obtain ⟨hl', hhome'⟩ := landResult_effect (off := off + 16 * n) (b := slice b (16 * n) 16) sb hstu
    have hkey : (u.crew cid).cspAt (off + 16 * n) = (s.crew cid).cspAt off + 16 * n := by rw [hcrew]; exact Crew.cspAt_add _ _ _
    have hlen : (slice b (16 * n) 16).length = 16 := by simp [slice]; omega
    refine ⟨resultLands_trans hl hl', fun j hj => ?_⟩
    rw [hhome', hkey, hlen]
    by_cases h : j < 16 * n
    · rw [if_neg (by omega)]
      exact hhome j h
    · rw [if_pos (by omega), getD_slice (by omega)]
      congr 1
      omega

/-! ### Status and end -/

/-- The status and the flags of a collective reach a strand on its core. -/
def Strand.answered (x : Coll) (status : Nat) (fl : FFlags) (m : Strand) : Strand :=
  { m.wr x.d (word status) with
    fflags := m.fflags.or fl, viq := m.viq.map fun o => { o with front := o.front.take fl (some (x.d, word status)) none } }

theorem deliverStatus_onCore (x : Coll) (status : Nat) (fl : FFlags) {s : State} (h : (s.crew (s.strand x.sid).crew).state = .resident) :
    deliverStatus x status fl s = (dropLines (s.strand x.sid).core s).modStrand x.sid (Strand.answered x status fl) := by
  have hstrand : ((dropLines (s.strand x.sid).core s).modStrand x.sid (Strand.answered x status fl)).strand x.sid
      = Strand.answered x status fl (s.strand x.sid) := by
    rw [State.strand_modStrand, if_pos rfl]
    rfl
  have hon : (((dropLines (s.strand x.sid).core s).modStrand x.sid (Strand.answered x status fl)).crew
      (((dropLines (s.strand x.sid).core s).modStrand x.sid (Strand.answered x status fl)).strand x.sid).crew).onCore = true := by
    rw [hstrand, State.crew_modStrand]
    refine onCore_of_resident ?_
    rw [show (Strand.answered x status fl (s.strand x.sid)).crew = (s.strand x.sid).crew from Strand.wr_crew _ _ _]
    exact h
  exact if_pos hon

/-- What the delivery of a status leaves of a resident crew's state (R255). -/
structure StatusDelivered (x : Coll) (status : Nat) (s t : State) : Prop where
  mem : t.mem = s.mem
  colls : t.colls = s.colls
  reg : x.d.val ≠ 0 → tget 0 (t.strand x.sid).regs x.d.val = word status

theorem statusDelivered {x : Coll} {status : Nat} (fl : FFlags) {s : State} (h : (s.crew (s.strand x.sid).crew).state = .resident) :
    StatusDelivered x status s (noteExcess x.sid (deliverStatus x status fl s)) := by
  rw [deliverStatus_onCore x status fl h]
  have hstrand : ((dropLines (s.strand x.sid).core s).modStrand x.sid (Strand.answered x status fl)).strand x.sid
      = Strand.answered x status fl (s.strand x.sid) := by
    rw [State.strand_modStrand, if_pos rfl]
    rfl
  have hnote : noteExcess x.sid ((dropLines (s.strand x.sid).core s).modStrand x.sid (Strand.answered x status fl))
      = (dropLines (s.strand x.sid).core s).modStrand x.sid (Strand.answered x status fl) := by
    refine if_neg ?_
    rw [hstrand, State.crew_modStrand, show (Strand.answered x status fl (s.strand x.sid)).crew = (s.strand x.sid).crew from Strand.wr_crew _ _ _,
      show (dropLines (s.strand x.sid).core s).crew (s.strand x.sid).crew = s.crew (s.strand x.sid).crew from rfl, h]
    simp
  rw [hnote]
  refine ⟨by rw [State.modStrand_frame]; rfl, by rw [State.modStrand_frame]; rfl, fun hd => ?_⟩
  rw [hstrand]
  simp only [Strand.answered, Strand.wr, if_neg hd]
  exact tget_tset_same ..

/-- The end of a collective for the strand and for its crew. -/
def endCollective (x : Coll) (cid : Nat) (s : State) : State :=
  let m := s.strand x.sid
  let s := wakeWaits x.sid (· = .collective) s
  let s := if (m.wait = some .colwait && !s.colls.any (·.sid = x.sid)) then wake x.sid s else s
  let s := if m.run = .halted then pushOnce (.strandDrained x.sid) s else s
  settleStop cid s

theorem collectiveComplete_eq {s : State} {p g : Nat} {x : Coll}
    (hx : s.colls.find? (fun y => decide (y.part = p) && decide (y.group = g) && (y.armed || (tget {} s.groups (groupKey p g)).broken)) = some x) :
    collectiveComplete p g s = endCollective x (s.strand x.sid).crew (noteExcess x.sid (deliverStatus x
      (collectiveResult (tget {} s.groups (groupKey p g)) x).1 (collectiveResult (tget {} s.groups (groupKey p g)) x).2.2
      (landResults (s.strand x.sid).crew x.off x.sb (collectiveResult (tget {} s.groups (groupKey p g)) x).2.1
        ((collectiveResult (tget {} s.groups (groupKey p g)) x).2.1.length / 16) { s with colls := s.colls.erase x }))) := by
  simp only [collectiveComplete, hx]
  rfl

/-- What the end of a collective keeps. -/
structure EndKept (sid : Nat) (s t : State) : Prop where
  mem : t.mem = s.mem
  colls : t.colls = s.colls
  regs : (t.strand sid).regs = (s.strand sid).regs

theorem endKept_refl (sid : Nat) (s : State) : EndKept sid s s := ⟨rfl, rfl, rfl⟩

theorem endKept_trans {sid : Nat} {s t u : State} (h : EndKept sid s t) (k : EndKept sid t u) : EndKept sid s u :=
  ⟨k.mem.trans h.mem, k.colls.trans h.colls, k.regs.trans h.regs⟩

theorem pushOnce_endKept (sid : Nat) (e : Event) (s : State) : EndKept sid s (pushOnce e s) := by
  unfold pushOnce
  split
  · exact endKept_refl sid s
  · exact ⟨rfl, rfl, rfl⟩

theorem modStrand_endKept (sid : Nat) (f : Strand → Strand) (s : State) (hf : (f (s.strand sid)).regs = (s.strand sid).regs) :
    EndKept sid s (s.modStrand sid f) := by
  refine ⟨by rw [State.modStrand_frame], by rw [State.modStrand_frame], ?_⟩
  rw [State.strand_modStrand, if_pos rfl, hf]

theorem endCollective_endKept (x : Coll) (cid : Nat) (s : State) : EndKept x.sid s (endCollective x cid s) := by
  have hif (p : Prop) [Decidable p] (f : State → State) (hf : ∀ t, EndKept x.sid t (f t)) (t : State) :
      EndKept x.sid t (if p then f t else t) := by
    split
    · exact hf t
    · exact endKept_refl _ t
  unfold endCollective settleStop
  dsimp only
  exact endKept_trans (endKept_trans (endKept_trans (modStrand_endKept x.sid _ s rfl) (hif _ _ (fun t => modStrand_endKept x.sid _ t rfl) _))
    (hif _ _ (pushOnce_endKept x.sid _) _)) (hif _ _ (pushOnce_endKept x.sid _) _)

/-- A completed collective of a resident crew: the collective is gone, its strand has the status, and its bytes have landed. -/
theorem collectiveComplete_effect {s : State} {p g : Nat} {x : Coll} (hin : s.input = some (.collectiveComplete p g))
    (hx : s.colls.find? (fun y => decide (y.part = p) && decide (y.group = g) && (y.armed || (tget {} s.groups (groupKey p g)).broken)) = some x)
    (hst : (s.crew (s.strand x.sid).crew).state = .resident) {status : Nat} {b : List Byte} {fl : FFlags}
    (hr : collectiveResult (tget {} s.groups (groupKey p g)) x = (status, b, fl)) :
    ∃ t, exec .collectiveComplete s = .next t ∧ t.colls = s.colls.erase x
      ∧ (x.d.val ≠ 0 → tget 0 (t.strand x.sid).regs x.d.val = word status)
      ∧ (b = [] → t.mem = s.mem)
      ∧ (b.length % 16 = 0 → ∀ j < b.length, t.home ((s.crew (s.strand x.sid).crew).cspAt x.off + j) = b.getD j 0) := by
  let u : State := landResults (s.strand x.sid).crew x.off x.sb b (b.length / 16) { s with colls := s.colls.erase x }
  obtain ⟨hl, hhome⟩ : ResultLands (s.strand x.sid).crew { s with colls := s.colls.erase x } u
      ∧ ∀ j < 16 * (b.length / 16), u.home ((s.crew (s.strand x.sid).crew).cspAt x.off + j) = b.getD j 0 :=
    landResults_effect (s := { s with colls := s.colls.erase x }) x.sb hst (b.length / 16) (by omega)
  have hmem : b = [] → u.mem = s.mem := by rintro rfl; rfl
  have hexec : exec .collectiveComplete s = .next (endCollective x (s.strand x.sid).crew (noteExcess x.sid (deliverStatus x status fl u))) := by
    show execCollectiveComplete s = _
    rw [execCollectiveComplete, hin]
    exact congrArg Host.Outcome.next ((collectiveComplete_eq hx).trans (by rw [hr]))
  clear_value u
  obtain ⟨bs, hcrew⟩ := hl.crew
  have hstu : (u.crew (u.strand x.sid).crew).state = .resident := by
    rw [show (u.strand x.sid).crew = (s.strand x.sid).crew from hl.crewOf x.sid, hcrew]
    exact hst
  obtain ⟨hsmem, hscolls, hsreg⟩ := statusDelivered (status := status) fl hstu
  obtain ⟨hkmem, hkcolls, hkregs⟩ := endCollective_endKept x (s.strand x.sid).crew (noteExcess x.sid (deliverStatus x status fl u))
  have htmem := hkmem.trans hsmem
  refine ⟨_, hexec, (hkcolls.trans hscolls).trans hl.colls, fun hd => ?_, fun hb => htmem.trans (hmem hb), fun hb j hj => ?_⟩
  · rw [hkregs]
    exact hsreg hd
  · rw [State.home, htmem]
    exact hhome j (by omega)

/-- The eleventh clause of O49. -/
theorem collectiveComplete_event {s : State} {p g : Nat} {x : Coll} (hin : s.input = some (.collectiveComplete p g))
    (hx : s.colls.find? (fun y => decide (y.part = p) && decide (y.group = g) && (y.armed || (tget {} s.groups (groupKey p g)).broken)) = some x)
    (hst : (s.crew (s.strand x.sid).crew).state = .resident) :
    let e := tget {} s.groups (groupKey p g)
    let k := (s.crew (s.strand x.sid).crew).cspAt x.off
    let ends (status : Word) (P : State → Prop) : Prop := ∃ t, exec .collectiveComplete s = .next t ∧ t.colls = s.colls.erase x
      ∧ (x.d.val ≠ 0 → tget 0 (t.strand x.sid).regs x.d.val = status) ∧ P t
    (e.broken = true → ends 3 fun t => t.mem = s.mem)
    ∧ ∀ kw (bs : List (List Byte)), e.broken = false → e.valid = true → 0 < e.size → bs.length = e.size → x.len % 16 = 0 →
      (∀ r < e.size, tget none x.parts r = some (kw, bs.getD r []) ∧ (bs.getD r []).length = x.len) →
      (x.bcast = true → x.root < e.size → ends 0 fun t => ∀ j < x.len, t.home (k + j) = (bs.getD x.root []).getD j 0)
      ∧ (x.bcast = false → ends 0 fun t => ∀ i < x.len / Spec.awBytes (colTy x.ty),
        leVal (t.homeBytes (k + i * Spec.awBytes (colTy x.ty)) (Spec.awBytes (colTy x.ty))) = foldedCode x.op (colTy x.ty) bs i) := by
  intro e k ends
  refine ⟨fun hb => ?broken, fun kw bs hb hv hsize hlen h16 hparts => ⟨fun hbc hroot => ?root, fun hbc => ?fold⟩⟩
  case broken =>
    have hr : collectiveResult e x = (3, [], {}) := by
      unfold collectiveResult
      dsimp only
      rw [hb]
      rfl
    obtain ⟨t, hexec, hcolls, hreg, hmem, -⟩ := collectiveComplete_effect hin hx hst hr
    exact ⟨t, hexec, hcolls, hreg, hmem rfl⟩
  case root =>
    obtain ⟨hpart, hroots⟩ := hparts x.root hroot
    have hr : collectiveResult e x = (0, bs.getD x.root [], {}) := by
      rw [collectiveResult_agreed hb hv ⟨hlen, hparts⟩, if_pos hbc, hpart]
    obtain ⟨t, hexec, hcolls, hreg, -, hhome⟩ := collectiveComplete_effect hin hx hst hr
    rw [hroots] at hhome
    exact ⟨t, hexec, hcolls, hreg, hhome h16⟩
  case fold =>
    have hne : bs ≠ [] := by
      rintro rfl
      rw [← hlen] at hsize
      exact Nat.lt_irrefl 0 hsize
    have hr := collectiveResult_agreed hb hv ⟨hlen, hparts⟩
    rw [if_neg (by rw [hbc]; exact Bool.false_ne_true)] at hr
    obtain ⟨t, hexec, hcolls, hreg, -, hhome⟩ := collectiveComplete_effect hin hx hst hr
    rw [foldBytes_bytes _ _ _ hne] at hhome
    have hw : 8 * Spec.awBytes (colTy x.ty) = tyBits (awElem (colTy x.ty)) := by cases colTy x.ty <;> rfl
    have hdvd : x.len / Spec.awBytes (colTy x.ty) * Spec.awBytes (colTy x.ty) = x.len := by
      refine Nat.div_mul_cancel (Nat.dvd_trans ?_ (Nat.dvd_of_mod_eq_zero h16))
      cases colTy x.ty <;> decide
    have hcode := fun i => foldCodes_lt x.op (contributed_lt (colTy x.ty) bs i) (bs.length - 1)
    have hlenAll : ((List.range (x.len / Spec.awBytes (colTy x.ty))).flatMap fun i =>
        leBytes (Spec.awBytes (colTy x.ty)) (foldedCode x.op (colTy x.ty) bs i)).length = x.len := by
      rw [List.length_flatMap]
      simp [hdvd]
    rw [hlenAll] at hhome
    refine ⟨t, hexec, hcolls, hreg, fun i hi => ?_⟩
    have hbytes : t.homeBytes (k + i * Spec.awBytes (colTy x.ty)) (Spec.awBytes (colTy x.ty))
        = leBytes (Spec.awBytes (colTy x.ty)) (foldedCode x.op (colTy x.ty) bs i) := by
      refine homeBytes_eq (length_leBytes _ _) fun j hj => ?_
      have hij : i * Spec.awBytes (colTy x.ty) + j < x.len := calc
        i * Spec.awBytes (colTy x.ty) + j < (i + 1) * Spec.awBytes (colTy x.ty) := by rw [Nat.succ_mul]; omega
        _ ≤ x.len / Spec.awBytes (colTy x.ty) * Spec.awBytes (colTy x.ty) := Nat.mul_le_mul_right _ hi
        _ = x.len := hdvd
      rw [Nat.add_assoc]
      exact (hhome h16 _ hij).trans (getD_flatMap_pieces (fun i => length_leBytes _ _) hj hi)
    rw [hbytes, leVal_leBytes, Nat.mod_eq_of_lt]
    refine Nat.lt_of_lt_of_eq (hcode i) ?_
    rw [← hw, Nat.pow_mul]

end Sys2Proof.Machine
end

section
/-! SUPPORT. Events of gain heaps: a pop that waited, the bind and the write-back (R319, R327, R331, R342); clauses twelve to fifteen
of O49. -/

namespace Sys2Proof.Machine
open Sys2Proof

theorem State.heap_modHeap (s : State) (n : Nat) (f : Heap → Heap) (k : Nat) :
    (s.modHeap n f).heap k = if k = n then f (s.heap n) else s.heap k := tget_tset ({} : Heap) s.heaps n k (f (s.heap n))

/-! ### The task that a pop takes (R331) -/

/-- A fold that keeps the first of the largest elements. -/
theorem foldl_largest {f : Option (Nat × Nat) → Nat × Nat → Option (Nat × Nat)} (hnone : ∀ y, f none y = some y)
    (hsome : ∀ x y, f (some x) y = if y.2 > x.2 then some y else some x) {a : Nat × Nat} {l r : List (Nat × Nat)}
    (hl : ∀ y ∈ l, y.2 < a.2) (hr : ∀ y ∈ r, y.2 ≤ a.2) : (l ++ a :: r).foldl f none = some a := by
  have hleft : ∀ (l : List (Nat × Nat)) (b : Option (Nat × Nat)), (∀ y ∈ l, y.2 < a.2) → (∀ x, b = some x → x.2 < a.2) →
      ∀ x, l.foldl f b = some x → x.2 < a.2 := by
    intro l
    induction l with
    | nil => exact fun b _ hb => hb
    | cons y l ih =>
      intro b hl hb
      refine ih _ (fun z hz => hl z (List.mem_cons_of_mem y hz)) fun z hz => ?_
      have hy := hl y List.mem_cons_self
      cases b with
      | none => rw [hnone] at hz; cases hz; exact hy
      | some x =>
        rw [hsome] at hz
        split at hz
        · cases hz; exact hy
        · exact hb z hz
  have hright : ∀ r : List (Nat × Nat), (∀ y ∈ r, y.2 ≤ a.2) → r.foldl f (some a) = some a := by
    intro r
    induction r with
    | nil => exact fun _ => rfl
    | cons y r ih =>
      intro hr
      rw [List.foldl_cons, hsome, if_neg (Nat.not_lt.mpr (hr y List.mem_cons_self))]
      exact ih fun z hz => hr z (List.mem_cons_of_mem y hz)
  rw [List.foldl_append, List.foldl_cons]
  have hbefore := hleft l none hl nofun
  cases hb : l.foldl f none with
  | none => rw [hnone, hright r hr]
  | some x => rw [hsome, if_pos (hbefore x hb), hright r hr]

/-- In a canonical table the entry of a key is its value. -/
theorem tget_of_mem {α : Type} [DecidableEq α] (d : α) : ∀ {t : Tab α}, twf d t = true → ∀ {k : Nat} {v : α}, (k, v) ∈ t → tget d t k = v
  | (j, w) :: t, h, k, v, hm => by
    obtain ⟨hp, -⟩ := (twf_iff d _).mp h
    obtain ⟨hj, -⟩ := List.pairwise_cons.mp hp
    rw [tget]
    obtain e | hm := List.mem_cons.mp hm
    · cases e
      exact if_pos rfl
    · rw [if_neg (Nat.ne_of_lt (hj _ hm))]
      exact tget_of_mem d (twf_of_sublist d (List.sublist_cons_self _ t) h) hm

theorem mem_of_tget {α : Type} (d : α) (k : Nat) (t : Tab α) (h : tget d t k ≠ d) : (k, tget d t k) ∈ t := by
  refine tget_mem d k t ?_
  by_contra hk
  exact h (tget_absent d fun e he hek => hk ⟨e, he, hek⟩)

/-- Whether an entry is a live idle task with a gain. -/
def Heap.eligible (h : Heap) (e : Nat × Nat) : Bool := e.1 < h.live && e.2 > 0 && !h.isRunning e.1

theorem best_eq {h : Heap} {t : Nat} (hw : twf 0 h.gain = true) (ht : Spec.takes h t) : h.best = some (t, tget 0 h.gain t) := by
  obtain ⟨⟨hlive, hrun⟩, hpos, hmax⟩ := ht
  have hin : (t, tget 0 h.gain t) ∈ h.gain.filter h.eligible := by
    refine List.mem_filter.mpr ⟨mem_of_tget 0 t h.gain (Nat.ne_of_gt hpos), ?_⟩
    simp [Heap.eligible, Heap.isRunning, hlive, hpos, hrun]
  have hall : ∀ y ∈ h.gain.filter h.eligible, y.2 < tget 0 h.gain t ∨ (y.2 = tget 0 h.gain t ∧ t ≤ y.1) := by
    rintro ⟨u, v⟩ hy
    obtain ⟨hy, he⟩ := List.mem_filter.mp hy
    simp only [Heap.eligible, Bool.and_eq_true, decide_eq_true_eq, Bool.not_eq_true', Heap.isRunning, Option.isSome_eq_false_iff,
      Option.isNone_iff_eq_none] at he
    obtain ⟨⟨hu, -⟩, hrun⟩ := he
    have hv : tget 0 h.gain u = v := tget_of_mem 0 hw hy
    rw [← hv]
    exact hmax u ⟨hu, hrun⟩
  have hsorted : (h.gain.filter h.eligible).Pairwise fun a b => a.1 < b.1 := ((twf_iff 0 _).mp (twf_filter 0 h.eligible hw)).1
  obtain ⟨l, r, hsplit⟩ := List.append_of_mem hin
  rw [hsplit] at hall hsorted
  obtain ⟨-, hr, hl⟩ := List.pairwise_append.mp hsorted
  have hbest : h.best = (h.gain.filter h.eligible).foldl (fun b e => match b with
      | some x => if e.2 > x.2 then some e else b
      | none => some e) none := by
    rw [List.foldl_filter]
    rfl
  rw [hbest, hsplit]
  refine foldl_largest (fun _ => rfl) (fun _ _ => rfl) (fun y hy => ?_) fun y hy => ?_
  · have := hl y hy _ List.mem_cons_self
    have := hall y (List.mem_append_left _ hy)
    dsimp only at *
    omega
  · have := hall y (List.mem_append_right _ (List.mem_cons_of_mem _ hy))
    dsimp only
    omega

/-! ### A pop that waited -/

/-- A heap that has given out task `t` to crew `cid`. -/
def Heap.taken (h : Heap) (cid t : Nat) : Heap := { h with
  gain := tset 0 h.gain t 0, runs := tset none h.runs t (some (tget 0 h.gain t, cid)), running := h.running + 1
  contrib := h.contrib.filter (· ≠ t) }

theorem pop_takes {h : Heap} {cid t : Nat} {nb : Bool} (hd : h.done = false) (htol : h.tol ≤ h.resid) (hz : ¬ (h.running = 0 ∧ h.resid = 0))
    (hw : twf 0 h.gain = true) (ht : Spec.takes h t) :
    h.pop cid nb = some ⟨h.taken cid t, word t, word (tget 0 h.gain t), decide (t ∈ h.contrib)⟩ := by
  have hspent : (decide (h.resid < h.tol) || decide (h.running = 0) && decide (h.resid = 0)) = false := by
    simp only [Bool.or_eq_false_iff, decide_eq_false_iff_not, Bool.and_eq_false_iff]
    omega
  unfold Heap.pop
  rw [if_neg (by rw [hd]; exact Bool.false_ne_true), if_neg (by rw [hspent]; exact Bool.false_ne_true), best_eq hw ht]
  rfl

theorem pend_wr {m : Strand} {r : SReg} {x : Word} {p : Pend} (hp : p ∈ (m.wr r x).pend) : p ∈ m.pend ∧ (r.val ≠ 0 → p.reg ≠ r) := by
  unfold Strand.wr at hp
  split at hp
  · next h => exact ⟨hp, fun hr => absurd h hr⟩
  · exact ⟨(List.mem_filter.mp hp).1, fun _ => of_decide_eq_true (List.mem_filter.mp hp).2⟩

theorem regs_wr_same (m : Strand) {r : SReg} (x : Word) (hr : r.val ≠ 0) : tget 0 (m.wr r x).regs r.val = x := by
  rw [Strand.wr, if_neg hr]
  exact tget_tset_same ..

theorem regs_wr_other (m : Strand) {r k : SReg} (x : Word) (hne : k ≠ r) : tget 0 (m.wr r x).regs k.val = tget 0 m.regs k.val := by
  unfold Strand.wr
  split
  · rfl
  · exact tget_tset_other _ _ _ fun e => hne (Fin.ext e)

/-- Two interlocked results stand, however far the strand goes on. -/
theorem age_wr_wr_regs {m : Strand} {d c : SReg} {v w : Word} {n : Nat} : (c.val ≠ 0 → tget 0 (((m.wr d v).wr c w).age n).regs c.val = w)
    ∧ (d.val ≠ 0 → d ≠ c → tget 0 (((m.wr d v).wr c w).age n).regs d.val = v) := by
  refine ⟨fun hc => ?_, fun hd hne => ?_⟩
  · rw [(age_regs_settled (fun p hp => (pend_wr hp).2 hc) n).1, regs_wr_same _ w hc]
  · rw [(age_regs_settled (fun p hp => (pend_wr (pend_wr hp).1).2 hd) n).1, regs_wr_other _ w hne, regs_wr_same _ v hd]

theorem wr_head (m : Strand) (r : SReg) (x : Word) : (m.wr r x).wait = m.wait ∧ (m.wr r x).pc = m.pc ∧ (m.wr r x).line = m.line := by
  unfold Strand.wr
  split <;> exact ⟨rfl, rfl, rfl⟩

theorem deliverPop_effect (sid : Nat) (d c : SReg) (p : Popped) (s : State) : (deliverPop sid d c p s).heaps = s.heaps
    ∧ (deliverPop sid d c p s).strand sid = ((s.strand sid).wr d p.task).wr c p.gain := by
  unfold deliverPop
  dsimp only
  refine ⟨?_, ?_⟩
  · rw [State.modStrand_frame]
    split <;> rfl
  · rw [State.strand_modStrand, if_pos rfl]
    split <;> rfl

/-- A pop's results reach a strand that waited for them, and its `hpop` completes. -/
theorem deliverPop_woken {s : State} {sid h : Nat} {d c : SReg} (p : Popped) (hw : (s.strand sid).wait = some (.hpop h d c)) :
    let u := wakeComplete [sid] (fun _ => true) (deliverPop sid d c p s)
    (u.strand sid).wait = none ∧ (u.strand sid).pc = nextPc (s.strand sid) ∧ u.heaps = s.heaps
      ∧ (c.val ≠ 0 → tget 0 (u.strand sid).regs c.val = p.gain) ∧ (d.val ≠ 0 → d ≠ c → tget 0 (u.strand sid).regs d.val = p.task) := by
  intro u
  obtain ⟨hheaps, hstrand⟩ := deliverPop_effect sid d c p s
  obtain ⟨hw1, hp1, hi1⟩ := wr_head (s.strand sid) d p.task
  obtain ⟨hw2, hp2, hi2⟩ := wr_head ((s.strand sid).wr d p.task) c p.gain
  have hme : u.strand sid = (((s.strand sid).wr d p.task).wr c p.gain).woken := by
    refine (wakeComplete_strand (fun _ => true) sid [sid] (deliverPop sid d c p s)).trans ?_
    rw [hstrand, if_pos ⟨List.mem_singleton_self _, by rw [Strand.waitsAs, hw2, hw1, hw]; rfl⟩]
  obtain ⟨ps, hf⟩ := (((s.strand sid).wr d p.task).wr c p.gain).woken_frame
  obtain ⟨hregc, hregd⟩ := age_wr_wr_regs (m := s.strand sid) (d := d) (c := c) (v := p.task) (w := p.gain)
    (n := 1 + (((s.strand sid).wr d p.task).wr c p.gain).ir.sc)
  rw [hme, hf]
  refine ⟨rfl, nextPc_congr (by rw [hp2, hp1]) (by rw [hi2, hi1]), ?_, hregc, hregd⟩
  exact (congrArg State.heaps (wakeComplete_woken [sid] (fun _ => true) (deliverPop sid d c p s)).frame).trans hheaps

/-- The twelfth clause of O49. -/
theorem hpopWake_event {s : State} {slot sid t h : Nat} {d c : SReg} (hin : s.input = some (.hpopWake slot))
    (hwait : (s.heap slot).waiting = [sid]) (hw : (s.strand sid).wait = some (.hpop h d c)) (hwf : twf 0 (s.heap slot).gain = true)
    (hd : (s.heap slot).done = false) (htol : (s.heap slot).tol ≤ (s.heap slot).resid)
    (hz : ¬ ((s.heap slot).running = 0 ∧ (s.heap slot).resid = 0)) (ht : Spec.takes (s.heap slot) t) :
    ∃ u, exec .hpopWake s = .next u ∧ (u.strand sid).wait = none ∧ (u.strand sid).pc = nextPc (s.strand sid)
      ∧ u.heap slot = { (s.heap slot).taken (s.strand sid).crew t with waiting := [] }
      ∧ (c.val ≠ 0 → tget 0 (u.strand sid).regs c.val = word (tget 0 (s.heap slot).gain t))
      ∧ (d.val ≠ 0 → d ≠ c → tget 0 (u.strand sid).regs d.val = word t) := by
  have hpop := pop_takes (cid := (s.strand sid).crew) (nb := false) hd htol hz hwf ht
  let p : Popped := ⟨(s.heap slot).taken (s.strand sid).crew t, word t, word (tget 0 (s.heap slot).gain t), decide (t ∈ (s.heap slot).contrib)⟩
  let v := s.modHeap slot fun _ => { p.heap with waiting := p.heap.waiting.filter (· ≠ sid) }
  have hexec : exec .hpopWake s = .next (wakeComplete [sid] (fun _ => true) (deliverPop sid d c p v)) := by
    show execHpopWake s = _
    rw [execHpopWake, hin]
    simp only [settleHeap, hwait, List.foldl_cons, List.foldl_nil, wakePop, hw, hpop]
    rfl
  have hv : v.heap slot = { (s.heap slot).taken (s.strand sid).crew t with waiting := [] } := by
    refine (State.heap_modHeap s slot _ slot).trans ((if_pos rfl).trans ?_)
    have hnone : (s.heap slot).waiting.filter (· ≠ sid) = [] := by rw [hwait]; simp
    exact congrArg (fun l => { (s.heap slot).taken (s.strand sid).crew t with waiting := l }) hnone
  obtain ⟨hwoken, hpc, hheaps, hregc, hregd⟩ := deliverPop_woken (s := v) p hw
  exact ⟨_, hexec, hwoken, hpc, by rw [State.heap, hheaps]; exact hv, hregc, hregd⟩

/-! ### The bind (R319, R327) -/

theorem nodup_dieOrder (s : State) (p : Nat) : (dieOrder s p).Nodup := by
  unfold dieOrder
  refine List.nodup_cons.mpr ⟨fun h => ?_, List.nodup_range.filter _⟩
  exact of_decide_eq_true (List.mem_filter.mp h).2 rfl

theorem nodup_freeSlots (s : State) (p : Nat) : (freeSlots s p).Nodup := by
  refine List.Nodup.filter _ (List.nodup_flatMap.mpr ⟨fun d _ => ?_, ?_⟩)
  · exact List.nodup_range.map fun a b h => by simpa using h
  · refine (nodup_dieOrder s p).imp fun {d e} hne x hd he => hne ?_
    obtain ⟨i, hi, rfl⟩ := List.mem_map.mp hd
    obtain ⟨j, hj, hij⟩ := List.mem_map.mp he
    have := List.mem_range.mp hi
    have := List.mem_range.mp hj
    omega

/-- Images put into slots of their own. -/
def putHeaps (g : Nat) (l : List (Nat × Bind)) (s : State) : State :=
  l.foldl (fun s e => match e.2 with
    | .heap h => s.modHeap e.1 fun _ => { h with grid := some g }
    | _ => s) s

theorem putHeaps_cons (g : Nat) (e : Nat × Bind) (l : List (Nat × Bind)) (s : State) : putHeaps g (e :: l) s = putHeaps g l (match e.2 with
    | .heap h => s.modHeap e.1 fun _ => { h with grid := some g }
    | _ => s) := rfl

/-- A slot that no image goes to. -/
theorem putHeaps_other {g k : Nat} (l : List (Nat × Bind)) : ∀ s : State, k ∉ l.map (·.1) → (putHeaps g l s).heap k = s.heap k := by
  induction l with
  | nil => exact fun _ _ => rfl
  | cons e l ih =>
    intro s hk
    rw [List.map_cons, List.mem_cons, not_or] at hk
    obtain ⟨hn, hl⟩ := hk
    rw [putHeaps_cons, ih _ hl]
    cases e.2 with
    | heap h => exact (State.heap_modHeap s e.1 _ k).trans (if_neg hn)
    | invalid => rfl
    | stalled => rfl

theorem putHeaps_mem {g : Nat} (l : List (Nat × Bind)) : ∀ s : State, (l.map (·.1)).Nodup → ∀ k h, (k, Bind.heap h) ∈ l →
    (putHeaps g l s).heap k = { h with grid := some g } := by
  induction l with
  | nil => exact fun _ _ _ _ hm => absurd hm List.not_mem_nil
  | cons e l ih =>
    intro s hnd k h hm
    obtain ⟨hk, hnd⟩ := List.nodup_cons.mp hnd
    rw [putHeaps_cons]
    obtain rfl | hm := List.mem_cons.mp hm
    · rw [putHeaps_other l _ hk]
      exact (State.heap_modHeap s k _ k).trans (if_pos rfl)
    · exact ih _ hnd k h hm

/-- The images of `l` bound to the first free slots. -/
def boundHeaps (gid : Nat) (l : List Nat) (s : State) : State :=
  (putHeaps gid (((freeSlots s (s.grid gid).part).take l.length).zip (l.map (readImage s (s.grid gid).ctx))) s).modGrid gid fun x =>
    { x with heaps := (freeSlots s (s.grid gid).part).take l.length }

theorem boundHeaps_heaps (gid : Nat) (l : List Nat) (s : State) :
    ((boundHeaps gid l s).grid gid).heaps = (freeSlots s (s.grid gid).part).take l.length :=
  (congrArg Grid.heaps (State.grid_modGrid _ gid fun x => { x with heaps := (freeSlots s (s.grid gid).part).take l.length }) :)

/-- Slots of their own hold the images of the table, in its order. -/
theorem boundHeaps_heap {gid : Nat} {l : List Nat} {s : State} (hfree : l.length ≤ (freeSlots s (s.grid gid).part).length) {e : Nat × Nat}
    (he : e ∈ (freeSlots s (s.grid gid).part).zip l) {h : Heap} (hr : readImage s (s.grid gid).ctx e.2 = .heap h) :
    (boundHeaps gid l s).heap e.1 = { h with grid := some gid } := by
  have hzip : ((freeSlots s (s.grid gid).part).take l.length).zip (l.map (readImage s (s.grid gid).ctx))
      = ((freeSlots s (s.grid gid).part).zip l).map (Prod.map id (readImage s (s.grid gid).ctx)) := by
    have hmin : min (freeSlots s (s.grid gid).part).length (l.map (readImage s (s.grid gid).ctx)).length = l.length := by
      rw [List.length_map]
      exact Nat.min_eq_right hfree
    rw [← List.zip_map_right, List.zip_eq_zip_take_min (l₁ := freeSlots s (s.grid gid).part), hmin,
      List.take_of_length_le (l := l.map _) (by simp)]
  have hkeys : ((((freeSlots s (s.grid gid).part).take l.length).zip (l.map (readImage s (s.grid gid).ctx))).map (·.1)).Nodup := by
    rw [List.map_fst_zip (by simp)]
    exact (nodup_freeSlots s (s.grid gid).part).sublist (List.take_sublist _ _)
  refine putHeaps_mem _ s hkeys e.1 h ?_
  rw [hzip]
  exact List.mem_map.mpr ⟨e, he, by rw [Prod.map, hr]; rfl⟩

/-- A ready grid whose table and images can be read, with free slots within the allowance, is bound (R327). -/
theorem bindHeaps_bound {s : State} {gid : Nat} {b : List Byte} (hst : (s.grid gid).state = .ready)
    (hre : (s.grid gid).reason = 0) (hh : (s.grid gid).heaps = []) (hn : (s.grid gid).lrec.nheap ≠ 0)
    (hfr : ∀ h ∈ s.freeze.heaps, h.grid ≠ some gid) (htab : heapTable s (s.grid gid).ctx (s.grid gid).lrec = .bytes b)
    (hfree : (s.grid gid).lrec.nheap ≤ (freeSlots s (s.grid gid).part).length)
    (hallow : slotsHeld s (s.grid gid).part + (s.grid gid).lrec.nheap ≤ (s.part (s.grid gid).part).heaps)
    (hheld : (tableEntries (s.grid gid).lrec.nheap b).any (imageHeld s (s.grid gid).vf) = false)
    (himg : ∀ va ∈ tableEntries (s.grid gid).lrec.nheap b, ∃ h, readImage s (s.grid gid).ctx va = .heap h) :
    let u := boundHeaps gid (tableEntries (s.grid gid).lrec.nheap b) s
    bindHeaps gid s = if u.deferred then u else
      { u with events := u.events ++ ((freeSlots s (s.grid gid).part).take (s.grid gid).lrec.nheap).map Event.heapBindComplete } := by
  intro u
  have hlen : (tableEntries (s.grid gid).lrec.nheap b).length = (s.grid gid).lrec.nheap := by simp [tableEntries]
  have hu : u = boundHeaps gid (tableEntries (s.grid gid).lrec.nheap b) s := rfl
  rw [boundHeaps, hlen] at hu
  generalize hg : s.grid gid = g at *
  have hfz : (s.freeze.heaps.any fun h => decide (h.grid = some gid)) = false :=
    List.any_eq_false.mpr fun h hm => by simpa using hfr h hm
  have hroom : (decide (((freeSlots s g.part).take g.lrec.nheap).length < g.lrec.nheap)
      || decide ((s.part g.part).heaps < slotsHeld s g.part + g.lrec.nheap)) = false := by
    rw [List.length_take, Nat.min_eq_left hfree]
    simp only [Bool.or_eq_false_iff, decide_eq_false_iff_not]
    omega
  have hbinds (f : Bind → Bool) (hf : ∀ h, f (.heap h) = false) :
      ¬ (((tableEntries g.lrec.nheap b).map (readImage s g.ctx)).any f = true) := by
    rw [Bool.not_eq_true]
    refine List.any_eq_false.mpr fun x hx => ?_
    obtain ⟨va, hva, rfl⟩ := List.mem_map.mp hx
    obtain ⟨h, hr⟩ := himg va hva
    rw [hr, hf]
    exact Bool.false_ne_true
  rw [hu]
  unfold bindHeaps
  rw [hg]
  dsimp only
  rw [if_neg (by simp [hst, hre, hh, hn, hfz]), htab]
  dsimp only
  rw [if_neg (by rw [Bool.or_assoc, hheld, hroom]; exact Bool.false_ne_true), if_neg (hbinds _ fun _ => rfl), if_neg (hbinds _ fun _ => rfl)]
  rfl

/-- The thirteenth clause of O49. -/
theorem heapBind_event {s : State} {gid : Nat} {b : List Byte} (hin : s.input = some (.heapBind gid)) (hst : (s.grid gid).state = .ready)
    (hre : (s.grid gid).reason = 0) (hh : (s.grid gid).heaps = []) (hn : (s.grid gid).lrec.nheap ≠ 0)
    (hfr : ∀ h ∈ s.freeze.heaps, h.grid ≠ some gid) (htab : heapTable s (s.grid gid).ctx (s.grid gid).lrec = .bytes b)
    (hfree : (s.grid gid).lrec.nheap ≤ (freeSlots s (s.grid gid).part).length)
    (hallow : slotsHeld s (s.grid gid).part + (s.grid gid).lrec.nheap ≤ (s.part (s.grid gid).part).heaps)
    (hheld : (tableEntries (s.grid gid).lrec.nheap b).any (imageHeld s (s.grid gid).vf) = false)
    (himg : ∀ va ∈ tableEntries (s.grid gid).lrec.nheap b, ∃ h, readImage s (s.grid gid).ctx va = .heap h) :
    ∃ t, exec .heapBind s = .next t ∧ (t.grid gid).heaps = (freeSlots s (s.grid gid).part).take (s.grid gid).lrec.nheap
      ∧ ∀ e ∈ (freeSlots s (s.grid gid).part).zip (tableEntries (s.grid gid).lrec.nheap b), ∀ h, readImage s (s.grid gid).ctx e.2 = .heap h →
        t.heap e.1 = { h with grid := some gid } := by
  have hexec : exec .heapBind s = .next (bindHeaps gid s) := by
    show execHeapBind s = _
    rw [execHeapBind, hin]
  rw [bindHeaps_bound hst hre hh hn hfr htab hfree hallow hheld himg] at hexec
  have hlen : (tableEntries (s.grid gid).lrec.nheap b).length = (s.grid gid).lrec.nheap := by simp [tableEntries]
  have hheaps := boundHeaps_heaps gid (tableEntries (s.grid gid).lrec.nheap b) s
  have hheap := fun e he h hr => boundHeaps_heap (gid := gid) (l := tableEntries (s.grid gid).lrec.nheap b) (by rw [hlen]; exact hfree)
    (e := e) he (h := h) hr
  rw [hlen] at hheaps
  refine ⟨_, hexec, ?_⟩
  split
  · exact ⟨hheaps, hheap⟩
  · exact ⟨hheaps, hheap⟩

/-! ### The end of a bind (R327) -/

/-- One strand of those that wait for a bind. -/
def wakeBind (s : State) (e : Nat × Strand) : State := if e.2.wait = some .heapBind then wake e.1 s else s

theorem wake_wait (i : Nat) (s : State) (j : Nat) : ((wake i s).strand j).wait = if j = i then none else (s.strand j).wait := by
  rw [wake, State.strand_modStrand]
  split <;> rfl

theorem wakeBind_idle {s : State} {j : Nat} (e : Nat × Strand) (h : (s.strand j).wait = none) : ((wakeBind s e).strand j).wait = none := by
  unfold wakeBind
  split
  · rw [wake_wait, h, ite_self]
  · exact h

/-- Every strand that the list shows to wait for a bind goes on. -/
theorem wakeBinds_wait {j : Nat} {m : Strand} (hm : m.wait = some .heapBind) (l : List (Nat × Strand)) : ∀ s : State, (j, m) ∈ l →
    ((l.foldl wakeBind s).strand j).wait = none := by
  induction l with
  | nil => exact fun _ h => absurd h List.not_mem_nil
  | cons e l ih =>
    intro s h
    rw [List.foldl_cons]
    obtain rfl | h := List.mem_cons.mp h
    · refine foldl_keeps (fun t : State => (t.strand j).wait = none) wakeBind (fun t e ht => wakeBind_idle e ht) l _ ?_
      rw [wakeBind, if_pos hm, wake_wait, if_pos rfl]
    · exact ih _ h

theorem mem_strands_of_wait {s : State} {j : Nat} {w : Wait} (h : (s.strand j).wait = some w) : (j, s.strand j) ∈ s.strands := by
  rw [State.strands]
  by_cases hj : j = s.cur
  · rw [hj, State.strand_cur]
    exact List.mem_cons_self
  · have hs : s.strand j = tget {} s.others j := if_neg hj
    rw [hs] at h ⊢
    refine List.mem_cons_of_mem _ (mem_of_tget _ j s.others fun hd => ?_)
    rw [hd] at h
    cases h

/-- The fourteenth clause of O49. -/
theorem heapBindComplete_event {s : State} {slot : Nat} (hin : s.input = some (.heapBindComplete slot)) (hg : (s.heap slot).grid ≠ none) :
    ∃ t, exec .heapBindComplete s = .next t ∧ (t.heap slot).ready = true
      ∧ ∀ sid, (s.strand sid).wait = some .heapBind → (t.strand sid).wait = none := by
  let u := s.modHeap slot fun h => { h with ready := true }
  have hexec : exec .heapBindComplete s = .next (s.strands.foldl wakeBind u) := by
    show execHeapBindComplete s = _
    rw [execHeapBindComplete, hin]
    exact congrArg Host.Outcome.next (if_neg hg)
  have hheaps : (s.strands.foldl wakeBind u).heaps = u.heaps := by
    refine foldl_same State.heaps wakeBind (fun t e => ?_) _ _
    unfold wakeBind
    split
    · rw [wake, State.modStrand_frame]
    · rfl
  refine ⟨_, hexec, ?_, fun sid hw => wakeBinds_wait hw _ _ (mem_strands_of_wait hw)⟩
  rw [State.heap, hheaps]
  exact congrArg Heap.ready ((State.heap_modHeap s slot _ slot).trans (if_pos rfl))

/-! ### The write-back (R342) -/

/-- An image within one page, at its home. -/
theorem writeImage_home {h : Heap} {s : State} {page k : Nat} (ht : s.t2lost = []) (hp : h.pages = [(page, k)]) (hlo : page ≤ h.image.toNat)
    (hhi : h.image.toNat + h.bytes.length ≤ page + 65536) (x : Nat) : (writeImage h s).home x =
      if k + (h.image.toNat - page) ≤ x ∧ x < k + (h.image.toNat - page) + h.bytes.length then h.bytes.getD (x - (k + (h.image.toNat - page))) 0
      else s.home x := by
  have hlen : 0 < h.bytes.length := by simp [Heap.bytes]
  rw [← homeWrite_home none none (k + (h.image.toNat - page)) h.bytes s ht]
  unfold writeImage
  rw [hp]
  dsimp only [List.foldl_cons, List.foldl_nil]
  rw [Nat.max_eq_left hlo, Nat.min_eq_left hhi, if_pos (by omega), Nat.sub_self, List.drop_zero, Nat.add_sub_cancel_left, List.take_length]
  rfl

/-- The fifteenth clause of O49. -/
theorem heapWriteBack_event {s : State} {slot gid page k : Nat} (hin : s.input = some (.heapWriteBack slot))
    (hg : (s.heap slot).grid = some gid) (hc : (s.grid gid).lrec.crews ≤ (s.grid gid).completed) (ht : s.t2lost = [])
    (hp : (s.heap slot).pages = [(page, k)]) (hlo : page ≤ (s.heap slot).image.toNat)
    (hhi : (s.heap slot).image.toNat + (s.heap slot).bytes.length ≤ page + 65536) :
    ∃ t, exec .heapWriteBack s = .next t ∧ t.heap slot = {} ∧ (t.grid gid).heaps = (s.grid gid).heaps.filter (· ≠ slot)
      ∧ ∀ j < (s.heap slot).bytes.length, t.home (k + ((s.heap slot).image.toNat - page) + j) = (s.heap slot).bytes.getD j 0 := by
  let u := writeImage (s.heap slot) s
  have hexec : exec .heapWriteBack s = .next
      { u.modGrid gid fun x => { x with heaps := x.heaps.filter (· ≠ slot) } with heaps := tset {} u.heaps slot {} } := by
    show execHeapWriteBack s = _
    rw [execHeapWriteBack, hin]
    refine congrArg Host.Outcome.next ?_
    show heapWriteBack slot s = _
    unfold heapWriteBack
    rw [hg]
    exact if_neg (Nat.not_lt.mpr hc)
  have hgrids : u.grids = s.grids := by
    refine (foldl_same State.grids _ (fun t p => ?_) _ _ : _)
    dsimp only
    split
    · obtain ⟨q, hq⟩ := homeWrite_homeOnly none none (p.2 + (max (s.heap slot).image.toNat p.1 - p.1))
        (((s.heap slot).bytes.drop (max (s.heap slot).image.toNat p.1 - (s.heap slot).image.toNat)).take
          (min ((s.heap slot).image.toNat + (s.heap slot).bytes.length) (p.1 + 65536) - max (s.heap slot).image.toNat p.1)) t
      rw [hq]
      rfl
    · rfl
  refine ⟨_, hexec, tget_tset_same ({} : Heap) u.heaps slot {}, ?_, fun j hj => ?_⟩
  · refine (congrArg Grid.heaps (State.grid_modGrid u gid fun x => { x with heaps := x.heaps.filter (· ≠ slot) }) :).trans ?_
    rw [State.grid, hgrids]
    rfl
  · refine (writeImage_home ht hp hlo hhi _).trans ?_
    rw [if_pos (by omega), Nat.add_sub_cancel_left]

end Sys2Proof.Machine
end

section
/-! SUPPORT. The completion of a grid, with its record and its counter (R359 to R361), and O49 from its clauses. -/

namespace Sys2Proof.Machine
open Sys2Proof

/-! ### The Factor's writes (R360) -/

/-- A write that starts in a page goes to that page's home, as far as the page reaches. -/
theorem putThrough_page {s : State} {c : Ctx} {va k : Nat} {b : List Byte} (hb : 0 < b.length)
    (hp : pagesOf s c .wr va (pageCount va b.length) = .ok [(va / 65536 * 65536, k)]) :
    putThrough s c va b = .done (homeWrite none none (k + va % 65536) (b.take (65536 - va % 65536)) s) := by
  have hlo : max va (va / 65536 * 65536) = va := by omega
  have hlt : va < min (va + b.length) (va / 65536 * 65536 + 65536) := by omega
  have hoff : va - va / 65536 * 65536 = va % 65536 := by omega
  have htake : b.take (min (va + b.length) (va / 65536 * 65536 + 65536) - va) = b.take (65536 - va % 65536) := by
    have hmin : min (va + b.length) (va / 65536 * 65536 + 65536) - va = min (65536 - va % 65536) b.length := by omega
    rw [hmin, ← List.take_eq_take_min]
  unfold putThrough
  rw [hp]
  dsimp only [List.foldl_cons, List.foldl_nil]
  rw [hlo, if_pos hlt, hoff, Nat.sub_self, List.drop_zero, htake]

theorem putThrough_home {s : State} {k n : Nat} {b : List Byte} (ht : s.t2lost = []) {j : Nat} (hj : j < n) (hb : j < b.length) :
    (homeWrite none none k (b.take n) s).home (k + j) = b.getD j 0 := by
  have hlen : j < (b.take n).length := by rw [List.length_take]; omega
  rw [homeWrite_home none none k _ s ht, if_pos (by omega), Nat.add_sub_cancel_left]
  simp [List.getD_eq_getElem?_getD, hj]

theorem homeWrite_grids (core keep : Option Nat) (k : Nat) (b : List Byte) (s : State) : (homeWrite core keep k b s).grids = s.grids := by
  obtain ⟨p, hp⟩ := homeWrite_homeOnly core keep k b s
  rw [hp]
  rfl

/-! ### Records -/

theorem writeRecords_skip {gid : Nat} {s : State} (h : (s.grid gid).lrec.comprec = 0) (l : List (Nat × List Byte)) :
    writeRecords gid l s = writeRecords gid [] s := by
  induction l with
  | nil => rfl
  | cons e l ih => exact (if_pos h).trans ih

theorem writeRecords_done {gid : Nat} {s : State} (h : (s.grid gid).lrec.donectr = 0) : writeRecords gid [] s = some s := by
  rw [writeRecords]
  exact if_pos h

theorem writeRecords_counter {gid k : Nat} {s : State} {b : List Byte} (hn : (s.grid gid).lrec.donectr ≠ 0)
    (hf : fetchBytes s (s.grid gid).ctx (s.grid gid).lrec.donectr.toNat 8 [] = .bytes b)
    (hp : pagesOf s (s.grid gid).ctx .wr (s.grid gid).lrec.donectr.toNat (pageCount (s.grid gid).lrec.donectr.toNat 8)
      = .ok [((s.grid gid).lrec.donectr.toNat / 65536 * 65536, k)]) :
    writeRecords gid [] s = some (homeWrite none none (k + (s.grid gid).lrec.donectr.toNat % 65536)
      ((leBytes 8 (leVal b + 1)).take (65536 - (s.grid gid).lrec.donectr.toNat % 65536)) s) := by
  have hput := putThrough_page (b := leBytes 8 (leVal b + 1)) (by rw [length_leBytes]; decide) (by rw [length_leBytes]; exact hp)
  rw [writeRecords, if_neg hn, hf]
  dsimp only
  rw [hput]

theorem writeRecords_one {gid k o : Nat} {s : State} {b : List Byte} (hb : 0 < b.length) (hn : (s.grid gid).lrec.comprec ≠ 0)
    (hd : (s.grid gid).lrec.donectr = 0) (hp : pagesOf s (s.grid gid).ctx .wr ((s.grid gid).lrec.comprec.toNat + o)
      (pageCount ((s.grid gid).lrec.comprec.toNat + o) b.length) = .ok [(((s.grid gid).lrec.comprec.toNat + o) / 65536 * 65536, k)]) :
    writeRecords gid [(o, b)] s = some (homeWrite none none (k + ((s.grid gid).lrec.comprec.toNat + o) % 65536)
      (b.take (65536 - ((s.grid gid).lrec.comprec.toNat + o) % 65536)) s) := by
  rw [writeRecords, if_neg hn, putThrough_page hb hp]
  refine writeRecords_done ?_
  rw [State.grid, homeWrite_grids]
  exact hd

/-- The first 48 bytes of a crew's record (R360). -/
def recordHead (c : Crew) : List Byte :=
  leBytes 4 c.status ++ leBytes 4 (c.cause1 + c.cause2 * 2 ^ 8 + c.causeStrand * 2 ^ 16 + c.causeRank * 2 ^ 20)
    ++ leBytes 8 c.tpc.toNat ++ leBytes 8 c.taddr.toNat ++ leBytes 8 c.scyc ++ leBytes 8 c.tstart ++ leBytes 8 c.tend

theorem length_recordHead (c : Crew) : (recordHead c).length = 48 := by simp [recordHead]

theorem crewRecord_head (s : State) (c : Crew) : ∃ r, crewRecord s c = recordHead c ++ r ∧ 16 ≤ r.length := by
  refine ⟨leBytes 4 (sumOf c.sids fun i => killedLanes (s.strand i)) ++ zeros 12 ++ (c.sids.flatMap fun i => maskBytes (s.strand i).deadmask)
    ++ zeros (128 * (c.decl.strands - c.sids.length)), ?_, ?_⟩
  · simp only [crewRecord, recordHeader, recordHead, List.append_assoc]
  · simp [zeros]
    omega

/-! ### The end of a grid (R359) -/

theorem writeFrozen_none {gid : Nat} {s : State} (h : (s.freeze.heaps.any fun x => decide (x.grid = some gid)) = false) : writeFrozen gid s = s := by
  have hnot : ∀ x ∈ s.freeze.heaps, x.grid ≠ some gid := fun x hx => by simpa using List.any_eq_false.mp h x hx
  have hmine : (s.freeze.heaps.filter fun x => decide (x.grid = some gid)) = [] := List.filter_eq_nil_iff.mpr fun x hx => by simpa using hnot x hx
  have hrest : (s.freeze.heaps.filter fun x => decide (x.grid ≠ some gid)) = s.freeze.heaps :=
    List.filter_eq_self.mpr fun x hx => by simpa using hnot x hx
  unfold writeFrozen
  dsimp only
  split
  · rfl
  · rw [hmine, hrest]
    rfl

theorem retired_effect (gid v : Nat) (s : State) : ((clearFailed v (retireGrid gid s)).grid gid).state = .complete
    ∧ gid ∉ ((clearFailed v (retireGrid gid s)).queue (s.grid gid).queue).grids
    ∧ (∀ e ∈ (clearFailed v (retireGrid gid s)).crews, e.2.grid = gid → e.2.audited = true)
    ∧ (clearFailed v (retireGrid gid s)).mem = s.mem := by
  refine ⟨?_, ?_, fun e he hg => ?_, rfl⟩
  · exact (congrArg Grid.state (State.grid_modGrid s gid fun g => { g with state := .complete }) :)
  · have hq : ((clearFailed v (retireGrid gid s)).queue (s.grid gid).queue).grids = (s.queue (s.grid gid).queue).grids.filter (· ≠ gid) :=
      (congrArg QueueReg.grids (State.queue_modQueue s (s.grid gid).queue fun x => { x with grids := x.grids.filter (· ≠ gid) }) :)
    rw [hq]
    exact fun h => of_decide_eq_true (List.mem_filter.mp h).2 rfl
  · have he : e ∈ s.crews.filter fun e => !(decide (e.2.grid = gid) && !e.2.audited) := he
    simpa [hg] using (List.mem_filter.mp he).2

/-- A grid whose records are written ends. -/
theorem gridComplete_ends {s u : State} {gid : Nat} (hin : s.input = some (.gridComplete gid)) (ho : gridOver s gid = true)
    (hw : writeRecords gid (gridRecords s gid) s = some u) (hg : u.grids = s.grids) :
    ∃ t, exec .gridComplete s = .next t ∧ (t.grid gid).state = .complete ∧ gid ∉ (t.queue (s.grid gid).queue).grids
      ∧ (∀ e ∈ t.crews, e.2.grid = gid → e.2.audited = true) ∧ t.mem = u.mem := by
  have hfrozen : writeFrozen gid s = s := by
    refine writeFrozen_none ?_
    simp only [gridOver, Bool.and_eq_true, Bool.not_eq_true'] at ho
    exact ho.1.2
  have hexec : exec .gridComplete s = .next (clearFailed (s.grid gid).vf (retireGrid gid u)) := by
    show execGridComplete s = _
    rw [execGridComplete, hin]
    refine congrArg Host.Outcome.next ?_
    show gridComplete gid s = _
    rw [gridComplete, hfrozen]
    dsimp only
    rw [ho, hw]
    rfl
  have hgrid : u.grid gid = s.grid gid := by rw [State.grid, hg, State.grid]
  have heff := retired_effect gid (s.grid gid).vf u
  rw [hgrid] at heff
  exact ⟨_, hexec, heff⟩

/-- The last clause of O49. -/
theorem gridComplete_event {s : State} {gid : Nat} (hin : s.input = some (.gridComplete gid)) (ho : gridOver s gid = true) (ht : s.t2lost = []) :
    let g := s.grid gid
    let ends (P : State → Prop) : Prop := ∃ t, exec .gridComplete s = .next t ∧ (t.grid gid).state = .complete
      ∧ gid ∉ (t.queue g.queue).grids ∧ (∀ e ∈ t.crews, e.2.grid = gid → e.2.audited = true) ∧ P t
    (g.lrec.comprec = 0 → g.lrec.donectr = 0 → ends fun t => t.mem = s.mem)
    ∧ (∀ b k,
      let va := g.lrec.donectr.toNat
      g.lrec.comprec = 0 → va ≠ 0 → va % 8 = 0 → fetchBytes s g.ctx va 8 [] = .bytes b →
      pagesOf s g.ctx .wr va (pageCount va 8) = .ok [(va / 65536 * 65536, k)] →
      ends fun t => ∀ j < 8, t.home (k + va % 65536 + j) = (leBytes 8 (leVal b + 1)).getD j 0)
    ∧ ∀ cid c k,
      let va := g.lrec.comprec.toNat + c.index * (64 + 128 * g.decl.strands)
      g.reason = 0 → s.crews.filter (fun e => e.2.grid = gid && e.2.state = .ended) = [(cid, c)] → g.lrec.comprec ≠ 0 →
      g.lrec.donectr = 0 → va % 64 = 0 → pagesOf s g.ctx .wr va (pageCount va (crewRecord s c).length) = .ok [(va / 65536 * 65536, k)] →
      ends fun t => ∀ j < 48, t.home (k + va % 65536 + j) = (recordHead c).getD j 0 := by
  intro g ends
  refine ⟨?silent, ?counter, ?record⟩
  case silent =>
    intro hc hd
    exact gridComplete_ends hin ho ((writeRecords_skip hc _).trans (writeRecords_done hd)) rfl
  case counter =>
    intro b k va hc hva h8 hf hp
    have haligned : (s.grid gid).lrec.donectr.toNat % 8 = 0 := h8
    have hdn : g.lrec.donectr ≠ 0 := fun h => hva (by simp only [va, h]; rfl)
    obtain ⟨t, hexec, hstate, hqueue, hcrews, hmem⟩ := gridComplete_ends hin ho
      ((writeRecords_skip hc _).trans (writeRecords_counter hdn hf hp)) (homeWrite_grids ..)
    refine ⟨t, hexec, hstate, hqueue, hcrews, fun j hj => ?_⟩
    rw [State.home, hmem]
    exact putThrough_home ht (by omega) (by rw [length_leBytes]; exact hj)
  case record =>
    intro cid c k va hr hcs hc hd h64 hp
    have hroom : ∀ n : Nat, n % 64 = 0 → 64 ≤ 65536 - n % 65536 := fun n h => by omega
    obtain ⟨r, hrec, hlen⟩ := crewRecord_head s c
    have hhead := length_recordHead c
    have hrl : (crewRecord s c).length = 48 + r.length := by rw [hrec, List.length_append, hhead]
    have hrecs : gridRecords s gid = [(c.index * (64 + 128 * g.decl.strands), crewRecord s c)] := by
      unfold gridRecords
      dsimp only
      rw [if_pos hr, hcs]
      rfl
    obtain ⟨t, hexec, hstate, hqueue, hcrews, hmem⟩ := gridComplete_ends hin ho
      (by rw [hrecs]; exact writeRecords_one (by omega) hc hd hp) (homeWrite_grids ..)
    refine ⟨t, hexec, hstate, hqueue, hcrews, fun j hj => ?_⟩
    rw [State.home, hmem]
    refine (putThrough_home ht (Nat.lt_of_lt_of_le (Nat.lt_trans hj (by decide)) (hroom va h64)) (by omega)).trans ?_
    rw [hrec, List.getD_append _ _ _ _ (by omega)]

/-! ### All events of crews -/

/-- Settles O49: each event's clause is a lemma of its own. -/
theorem crewEventsHold : Obligations.CrewEvents := by
  unfold Obligations.CrewEvents
  intro s
  refine ⟨?grant, ?rows, ?declare, ?deny, ?drained, ?service, ?reply, ?land, ?release, ?arm, ?collective, ?pop, ?bind, ?bound, ?back, ?grid⟩
  case grant => exact fun cid q rest n hin hc hn hw => regclmGrant_event hin hc hn hw
  case rows => exact fun cid hin hc hq => rowsFreed_event hin hc hq
  case declare => exact fun cid q rest hin hc hst hret hn hnd hall => regDeadlockDeclare_event hin hc hst hret hn hnd hall
  case deny => exact fun sid n a hin hdue hrun hh => regDeadlockTrap_event hin hdue hrun hh
  case drained => exact fun sid hin hrun hviq hland hcoll hc hst => strandDrained_event hin hrun hviq hland hcoll hc hst
  case service => exact fun gid at_ sid l r off hin ha hr h hq hl => wqryService_event hin ha hr h hq hl
  case reply => exact fun sid off b hin hq hb hst hf _ => wqryReply_event hin hq hb hst hf
  case land => exact fun cid x rest hin hl hb ho hc _ => tcopyGranuleLand_event hin hl hb ho hc
  case release => exact fun sid b gs hin hr => tldEEngineRelease_event hin hr
  case arm => exact fun p g parts x hin hx hv hb hnd hown hall => collectiveArm_event hin hx hv hb hnd hown hall
  case collective =>
    intro p g x hin e c k hx hst ht ends
    obtain ⟨hbroken, hagreed⟩ := collectiveComplete_event hin hx hst
    refine ⟨hbroken, fun kw bs hb hv hsize hlen h16 hparts => ?_⟩
    obtain ⟨hroot, hfold⟩ := hagreed kw bs hb hv hsize hlen h16 hparts
    refine ⟨hroot, fun hbc => ?_⟩
    simp only [foldedCode, hlen] at hfold
    exact hfold hbc
  case pop => exact fun slot sid h d c t hin hwait hw hwf hd htol hz ht => hpopWake_event hin hwait hw hwf hd htol hz ht
  case bind => exact fun gid b hin hst hre hh hn hfr htab hfree hallow hheld himg => heapBind_event hin hst hre hh hn hfr htab hfree hallow hheld himg
  case bound => exact fun slot hin hg => heapBindComplete_event hin hg
  case back => exact fun slot gid page k hin hg hc ht hp hlo hhi => heapWriteBack_event hin hg hc ht hp hlo hhi
  case grid => exact fun gid hin ho ht => gridComplete_event hin ho ht

end Sys2Proof.Machine
end
